-- ==== Sys2Proof/Word.lean ====
section
/-! DEFINITION. The words of the machine: bytes, code words, lane values and 64-bit register values (R5, R35, R82). -/

namespace Sys2Proof

/-- A byte of memory. -/
abbrev Byte := BitVec 8
/-- A code word, a pair of registers, or a control register. -/
abbrev Word64 := BitVec 64
/-- The value field of a lane image (R35). -/
abbrev Val32 := BitVec 32
/-- The tag byte of a lane image (R35). -/
abbrev Tag := BitVec 8

end Sys2Proof
end

