-- ==== Sys2Proof/Syntax.lean ====
section
/-! DEFINITION. The instructions of VA8-1024 as syntax: one constructor per row of the opcode table (R110 and the
entries' variants), with typed operands, and one constructor per event or management step of the table's second half
(the steps an agent of the machine takes by itself), whose operands say which agent's step it is. -/

namespace Sys2Proof

/-- Integer and data types (R90, left column). -/
inductive IntTy where
  | s32 | z32 | s64 | z64 | s16 | z16 | s8 | z8 | w32 | w64
  deriving DecidableEq, Repr

/-- FP classes (R90, right column); the codes are also the format codes 0x0-0x8 of R167. -/
inductive FpCls where
  | f32 | f64 | f16 | bf16 | e4m3 | e5m2 | e3m2 | e2m3 | e2m1
  deriving DecidableEq, Repr

/-- SAT and WIDE of ADD, SUB and ADDI (R121): SAT is bit 0, WIDE bit 1, both together reserved. -/
inductive AddMod where
  | wrap | sat | wide
  deriving DecidableEq, Repr

/-- Kinds of LOGI (R125). -/
inductive LogiKind where
  | land | lor | lxor | landn
  deriving DecidableEq, Repr

/-- Kinds of SHI (R127). -/
inductive ShiKind where
  | l | r | a | rot
  deriving DecidableEq, Repr

/-- Conditions of CMP and CMPI (R131). -/
inductive Cond where
  | eq | ne | lt | le | gt | ge
  deriving DecidableEq, Repr

/-- Queries of IDS (R134). -/
inductive IdsQuery where
  | lane | slice | member | inst | role | core | device | width | part | context | partition
  deriving DecidableEq, Repr

/-- Kinds of MLOG (R135). -/
inductive MlogKind where
  | land | lor | lxor | landn | lnot | mov
  deriving DecidableEq, Repr

/-- Kinds of MSET (R137). -/
inductive MsetKind where
  | pat | first
  deriving DecidableEq, Repr

/-- Senses of BR (R139). -/
inductive BrSense where
  | t | f
  deriving DecidableEq, Repr

/-- Kinds of BRM (R140). -/
inductive BrmKind where
  | any | all | none
  deriving DecidableEq, Repr

/-- Branch hints of format B (R97). -/
inductive Hint where
  | none | taken | notTaken
  deriving DecidableEq, Repr

/-- The two widths .W32 and .W64 of lane moves (R150). -/
inductive Wd where
  | w32 | w64
  deriving DecidableEq, Repr

/-- Modes of SHFL (R150). -/
inductive ShflMode where
  | abs | ofs | seg | xor
  deriving DecidableEq, Repr

/-- Selectors of BCAST (R151). -/
inductive BcastSel where
  | first | last | idx
  deriving DecidableEq, Repr

/-- Operations of REDUCE and SCAN with their types (R152). -/
inductive RedOp where
  | addW32 | addW64 | minS32 | minZ32 | maxS32 | maxZ32 | andW32 | orW32 | xorW32 | minS64 | minZ64 | maxS64
  | maxZ64 | andW64 | orW64 | xorW64
  deriving DecidableEq, Repr

/-- Kinds of VOTE (R154). -/
inductive VoteKind where
  | any | all | none | maj | odd | same | allSame
  deriving DecidableEq, Repr

/-- Forms of BALLOT (R155). -/
inductive BallotKind where
  | word | rank
  deriving DecidableEq, Repr

/-- Element types of DOT4 (R156). -/
inductive Dot4Ty where
  | s8 | z8 | e4m3 | e5m2 | e3m2 | e2m3 | slot
  deriving DecidableEq, Repr

/-- Element types of DOT8 (R156). -/
inductive Dot8Ty where
  | s4 | z4 | e2m1 | slot
  deriving DecidableEq, Repr

/-- Element types of PACK and UNPACK (R159). -/
inductive PackTy where
  | s16 | z16 | s8 | z8 | s4 | z4
  deriving DecidableEq, Repr

/-- Modes of REBAL (R163). -/
inductive RebalMode where
  | pack | spread
  deriving DecidableEq, Repr

/-- Forms of FREXP (R201). -/
inductive FrexpSel where
  | sig | exp
  deriving DecidableEq, Repr

/-- Conditions of FCMP (R202). -/
inductive FCond where
  | eq | ne | lt | le | gt | ge | un | ord
  deriving DecidableEq, Repr

/-- Selectors of KGET (R215). -/
inductive KgetSel where
  | k | kef | s | g | tag
  deriving DecidableEq, Repr

/-- Forms of STICKY (R218). -/
inductive StickyKind where
  | clr | set | mask
  deriving DecidableEq, Repr

/-- Forms of BSIG (R219). -/
inductive BsigKind where
  | any | all | anyD | allD
  deriving DecidableEq, Repr

/-- Rounding codes (R180). -/
inductive Rnd where
  | rne | rna | rz | ru | rd | dyn
  deriving DecidableEq, Repr

/-- Element formats of FPACK (R212). -/
inductive FpackTy where
  | f16 | bf16 | e4m3 | e5m2 | e3m2 | e2m3 | e2m1 | slot
  deriving DecidableEq, Repr

/-- Access size and format codes of format M (R96). -/
inductive Size where
  | w8 | w16 | w32 | w64 | w128 | s8 | s16 | z8 | z16 | f16 | bf16 | e4m3 | e5m2 | f64 | f32
  deriving DecidableEq, Repr

/-- Operations of ATOM, ATOMR and FAT (R245). -/
inductive AtomOp where
  | add | min | max | land | lor | lxor | swap | cas
  deriving DecidableEq, Repr

/-- Modes of ACQ (R248). -/
inductive TokMode where
  | x | sh
  deriving DecidableEq, Repr

/-- Forms of FENCE (R250). -/
inductive FenceKind where
  | s | w | all
  deriving DecidableEq, Repr

/-- Destination kinds of XCOPY (R279). -/
inductive CopyDst where
  | addr | slot | cb
  deriving DecidableEq, Repr

/-- Engine codes of a core (R277). -/
inductive Eng where
  | copy | mx | node
  deriving DecidableEq, Repr

/-- Orientations of OMAP (R304). -/
inductive Orient where
  | k | m
  deriving DecidableEq, Repr

/-- Forms of ACLR (R312). -/
inductive TileCls where
  | f | i
  deriving DecidableEq, Repr

/-- Forms of MSTAT (R321). -/
inductive MstatSel where
  | claims | unit | fault
  deriving DecidableEq, Repr

/-- Operations of SXRED (R380). -/
inductive SxOp where
  | sum | max
  deriving DecidableEq, Repr

/-- Element formats of SXRED (R380). -/
inductive SxFmt where
  | f32 | f16 | bf16 | e4m3 | e5m2 | s8 | z8 | s32
  deriving DecidableEq, Repr

/-- Combining functions (R100). -/
inductive Comb where
  | or | and | max | min | minplus | sum | wsum
  deriving DecidableEq, Repr

/-- Scopes of wave operations (R333). -/
inductive Scope where
  | core | cluster | part
  deriving DecidableEq, Repr

/-- Bit or vector form of MKSET and MKCLR (R335). -/
inductive MkForm where
  | bit | vec
  deriving DecidableEq, Repr

/-- Fields of NDRD and NDWR (R351). -/
inductive NdField where
  | hdr | attr | mb | mv
  deriving DecidableEq, Repr

/-- Fields of EDRD and EDWR (R351). -/
inductive EdField where
  | edge | weight
  deriving DecidableEq, Repr

/-- Sizes of FLD and FST (R401). -/
inductive FldSz where
  | w8 | w16 | w32 | w64 | w128 | s8 | s16 | f32 | f64 | bf16
  deriving DecidableEq, Repr

/-- Sizes of FAT (R404). -/
inductive FatSz where
  | w32 | w64
  deriving DecidableEq, Repr

/-- Control registers that gangs can name (R427). -/
inductive Csr where
  | gangstat | gangloc | ganggrp | rndctl | sigfloor | memctl | idxcnt | gangprio | tcause | tpc | tlane
  | tinfo0 | tinfo1 | tinfo2 | tinfo3 | tstat | partsys | cycle | mxwake | mxbudget | nodecfg | schedctl
  | balstat
  deriving DecidableEq, Repr

/-- Compact opcodes of a pair word (R103). -/
inductive COp where
  | nop | movW32 | addS32 | subS32 | mulS32 | mulhS32 | mulhZ32 | andW32 | orW32 | xorW32 | shlW32 | shrW32
  | sarS32 | rotW32 | minS32 | maxS32 | minZ32 | maxZ32 | absS32 | clzW32 | popcW32 | brevW32 | faddF32
  | fsubF32 | fmulF32 | fminF32 | fmaxF32
  deriving DecidableEq, Repr

/-- A vector register V0-V255 (R34). -/
abbrev VNum := BitVec 8
/-- A mask register M0-M7 (R41). -/
abbrev MNum := BitVec 3
/-- A handle register A0-A15 (R42). -/
abbrev HNum := BitVec 4

/-- The read permutation of source A (R46): butterfly by 2^k, rotate within eight, reverse, broadcast. -/
inductive Perm where
  | none | bfly (k : Fin 5) | rot (n : BitVec 3) | rev | bc (l : BitVec 5)
  deriving DecidableEq, Repr

/-- An immediate: the word's IMM24, or the 62 bits of the literal word that follows (R94). -/
inductive Imm where
  | short (v : BitVec 24) | lit (v : BitVec 62)
  deriving DecidableEq, Repr

/-- The memory operand of format M (R95): handle register, optional offset register, displacement. -/
structure MemRef where
  hnd : HNum
  ofs : Option VNum
  disp : BitVec 12
  deriving DecidableEq, Repr

/-- One compact operation of a pair word (R102): the registers are V0-V127. -/
structure Compact where
  op : COp
  d : BitVec 7
  a : BitVec 7
  b : BitVec 7
  msk : MNum
  deriving DecidableEq, Repr

/-- Width in bits of an integer type (R112). -/
def IntTy.width : IntTy → Nat
  | .s32 | .z32 | .w32 => 32
  | .s64 | .z64 | .w64 => 64
  | .s16 | .z16 => 16
  | .s8 | .z8 => 8

/-- Element width of PACK and UNPACK (R159). -/
def PackTy.width : PackTy → Nat
  | .s16 | .z16 => 16
  | .s8 | .z8 => 8
  | .s4 | .z4 => 4

/-- How many element pairs a lane holds (R159). -/
def PackTy.pairs (t : PackTy) : Nat := 16 / t.width

/-- How many element pairs a lane holds in FPACK (R212); a slot's format settles it at issue. -/
def FpackTy.pairs : FpackTy → Nat
  | .f16 | .bf16 => 1
  | .e2m1 | .slot => 4
  | _ => 2

/-- Elements of a format in one lane, for FUNPACK (R213). -/
def FpCls.perLane : FpCls → Nat
  | .f16 | .bf16 => 2
  | .e2m1 => 8
  | _ => 4

/-- Whether a size code of R96 names a number format. -/
def Size.isFp : Size → Bool
  | .f16 | .bf16 | .e4m3 | .e5m2 | .f64 | .f32 => true
  | _ => false

/-- Whether a fabric size of R401 names a number format. -/
def FldSz.isFp : FldSz → Bool
  | .f32 | .f64 | .bf16 => true
  | _ => false

/-- ADD, SUB, ADDI, MIN, MAX, CMP, CMPI (R113). -/
def tyArith : IntTy → Bool
  | .s32 | .z32 | .s64 | .z64 | .s16 | .z16 | .s8 | .z8 => true
  | _ => false

/-- MUL, MULH, MAD, IDIV, IREM, BFE (R113). -/
def tyMul : IntTy → Bool
  | .s32 | .z32 | .s64 | .z64 => true
  | _ => false

/-- ABS (R113). -/
def tyAbs : IntTy → Bool
  | .s32 | .s64 | .s16 | .s8 => true
  | _ => false

/-- SAR (R113). -/
def tySar : IntTy → Bool
  | .s32 | .s64 => true
  | _ => false

/-- AND, OR, XOR, LOGI, SHL, SHR, ROT, CLZ, POPC, BREV, MOV, SEL, BFI (R113). -/
def tyBits : IntTy → Bool
  | .w32 | .w64 => true
  | _ => false

/-- SHI (R113). -/
def tyShi : IntTy → Bool
  | .w32 | .w64 | .s32 | .s64 => true
  | _ => false

/-- MOVI (R113). -/
def tyMovi : IntTy → Bool
  | .s32 | .z32 | .w32 | .s64 | .z64 | .w64 => true
  | _ => false

/-- IOTA (R165). -/
def tyIota : IntTy → Bool
  | .s32 | .z32 => true
  | _ => false

/-- The integer types of FCVTI and ICVTF (R209, R210). -/
def tyConv : IntTy → Bool
  | .s32 | .z32 | .s64 | .z64 | .s16 | .z16 | .s8 | .z8 => true
  | _ => false

/-- FRCP, FRSQ, FREDUCE (R193). -/
def clsRcp : FpCls → Bool
  | .f32 | .f64 | .f16 | .bf16 => true
  | _ => false

/-- FEXP2, FLOG2, FSIN, FCOS (R193). -/
def clsTrans : FpCls → Bool
  | .f32 | .f16 | .bf16 => true
  | _ => false

/-- The element formats of FUNPACK (R193). -/
def clsElem : FpCls → Bool
  | .f16 | .bf16 | .e4m3 | .e5m2 | .e3m2 | .e2m3 | .e2m1 => true
  | _ => false

/-- LEA and TMOV (R133, R234). -/
def szLea : Size → Bool
  | .w8 | .w16 | .w32 | .w64 | .w128 => true
  | _ => false

/-- ST and STS (R234). -/
def szStore : Size → Bool
  | .w8 | .w16 | .w32 | .w64 | .w128 | .f16 | .bf16 | .e4m3 | .e5m2 | .f64 | .f32 => true
  | _ => false

/-- LDT and STT (R234). -/
def szTag : Size → Bool
  | .w32 | .w64 => true
  | _ => false

/-- ATOM and ATOMR (R234). -/
def szAtom : Size → Bool
  | .w32 | .w64 | .f32 | .f64 => true
  | _ => false

/-- FST (R401). -/
def fszStore : FldSz → Bool
  | .w8 | .w16 | .w32 | .w64 | .w128 | .f32 | .f64 | .bf16 => true
  | _ => false

/-- MKPROP (R333). -/
def combBit : Comb → Bool
  | .or | .and => true
  | _ => false

/-- MKPROPV (R333). -/
def combVec : Comb → Bool
  | .max | .min | .minplus | .sum | .wsum => true
  | _ => false

/-! Operands of the events: which agent's step it is. Numbers that name a unit are plain naturals, as the spec numbers
the unit (R11, R44, R277, R295, R331, R353). -/

/-- What a read of a store meets (R485): nothing, a corrected error, a transient one, or a lasting one; `link` is a
transfer across a stack interface whose retries all failed (R480), or a host write lost with its link (R505); `timeout` is
a read of host memory whose completion does not come (R504). -/
inductive SoftErr where
  | none | corrected | transient | lasting | link | timeout
  deriving DecidableEq, Repr

/-- Who performs a piece (R260, R273): an entry of a stream queue, or an operation of an engine or stack port (sink codes
of R295; 11 for a flash save, R473). The others are the reads of a store that no piece reaches, which can meet an error
(R485, R487, R490): a gang's register file, an operand slot or a tile of a core, a node record, an edge record, a gang of a
swapped-out core in a shadow bank, or from 64 up a granule of the fixed part there. `atomic` is the request that a home serves next (R266), `inbound` a peer's admitted
request (R411), `memory` a transfer of the unit at a physical address by an agent with no pieces of its own: a fetch, the
dispatcher, CHKPT, a list or a packet (R480, R485). -/
inductive Agent where
  | stream (core ctx st : Nat)
  | op (core eng num : Nat)
  | file (core ctx : Nat)
  | slot (core k : Nat)
  | tile (core k : Nat)
  | node (core k : Nat)
  | edge (core k : Nat)
  | shadow (pno core n : Nat)
  | atomic (pno cluster : Nat)
  | inbound (id : Nat)
  | memory (a : Nat) (wr : Bool)
  deriving DecidableEq, Repr

/-- What a peer asks of an export (R399-R404, R416): a read of n bytes, a write, an atomic, a reducing add with its
mode and saturation, or the write of one multicast line. -/
inductive PeerReq where
  | read (n : Nat)
  | write (bytes : List (BitVec 8)) (whole32 whole64 : Bool)
  | atom (op : AtomOp) (w64 : Bool) (v w : BitVec 64)
  | radd (val : BitVec 32) (tag : BitVec 8) (mode : Rnd) (sat : Bool)
  | line (bytes : List (BitVec 8))
  deriving DecidableEq, Repr

/-- What comes back for one lane or one multicast member (R411, R498): data, or a REASON code. -/
inductive PeerAns where
  | pos (bytes : List (BitVec 8))
  | neg (reason : Nat)
  deriving DecidableEq, Repr

/-- One message of a wave (R338): the target slot, a bit or 16 images as (value, tag), and the hop count. -/
structure WaveMsg where
  slot : Nat
  bit : Bool
  vec : List (BitVec 32 × BitVec 8)
  hop : Nat
  deriving DecidableEq, Repr

/-- A batch of a wave from another device (R346, R412, R503): the sending engine and the origin as device × 1024 + core,
the target core and partition, the wave's id and the operation's number, the batch's own number, its instruction's word and
edge-type set, the credit, and the messages. -/
structure RemoteBatch where
  src : Nat
  origin : Nat
  core : Nat
  pno : Nat
  wid : Nat
  num : Nat
  seq : Nat
  word : BitVec 64
  etypes : List (BitVec 32)
  credit : Nat
  msgs : List WaveMsg
  deriving DecidableEq, Repr

/-- Credit that an engine of another device returns to an origin here (R344, R346), with what its events add to the
wave's status word (R331). -/
structure RemoteBack where
  credit : Nat
  count : Nat
  depth : Nat
  drops : Nat
  hopcut : Bool
  fault : Nat
  deriving DecidableEq, Repr

/-- The instructions and events of the opcode table, in its order. -/
inductive Instr where
  | nop
  | mov (ty : IntTy) (d : VNum) (a : VNum) (perm : Perm) (mk : MNum)
  | movi (ty : IntTy) (d : VNum) (imm : Imm) (mk : MNum)
  | add (ty : IntTy) (am : AddMod) (d : VNum) (a : VNum) (perm : Perm) (b : VNum) (mk : MNum)
  | sub (ty : IntTy) (am : AddMod) (d : VNum) (a : VNum) (perm : Perm) (b : VNum) (mk : MNum)
  | addi (ty : IntTy) (am : AddMod) (d : VNum) (a : VNum) (imm : Imm) (mk : MNum)
  | mul (ty : IntTy) (d : VNum) (a : VNum) (perm : Perm) (b : VNum) (mk : MNum)
  | mulh (ty : IntTy) (d : VNum) (a : VNum) (perm : Perm) (b : VNum) (mk : MNum)
  | mad (ty : IntTy) (d : VNum) (a : VNum) (perm : Perm) (b : VNum) (c : VNum) (mk : MNum)
  | idiv (ty : IntTy) (d : VNum) (a : VNum) (perm : Perm) (b : VNum) (flag : MNum) (look : BitVec 4) (mk : MNum)
  | irem (ty : IntTy) (d : VNum) (a : VNum) (perm : Perm) (b : VNum) (flag : MNum) (look : BitVec 4) (mk : MNum)
  | and (ty : IntTy) (d : VNum) (a : VNum) (perm : Perm) (b : VNum) (mk : MNum)
  | or (ty : IntTy) (d : VNum) (a : VNum) (perm : Perm) (b : VNum) (mk : MNum)
  | xor (ty : IntTy) (d : VNum) (a : VNum) (perm : Perm) (b : VNum) (mk : MNum)
  | logi (kind : LogiKind) (ty : IntTy) (d : VNum) (a : VNum) (imm : Imm) (mk : MNum)
  | shl (ty : IntTy) (d : VNum) (a : VNum) (perm : Perm) (b : VNum) (mk : MNum)
  | shr (ty : IntTy) (d : VNum) (a : VNum) (perm : Perm) (b : VNum) (mk : MNum)
  | sar (ty : IntTy) (d : VNum) (a : VNum) (perm : Perm) (b : VNum) (mk : MNum)
  | rot (ty : IntTy) (d : VNum) (a : VNum) (perm : Perm) (b : VNum) (mk : MNum)
  | shi (kind : ShiKind) (ty : IntTy) (d : VNum) (a : VNum) (n : BitVec 24) (mk : MNum)
  | clz (ty : IntTy) (d : VNum) (a : VNum) (perm : Perm) (mk : MNum)
  | popc (ty : IntTy) (d : VNum) (a : VNum) (perm : Perm) (mk : MNum)
  | brev (ty : IntTy) (d : VNum) (a : VNum) (perm : Perm) (mk : MNum)
  | min (ty : IntTy) (d : VNum) (a : VNum) (perm : Perm) (b : VNum) (mk : MNum)
  | max (ty : IntTy) (d : VNum) (a : VNum) (perm : Perm) (b : VNum) (mk : MNum)
  | abs (ty : IntTy) (sat : Bool) (d : VNum) (a : VNum) (perm : Perm) (mk : MNum)
  | sel (ty : IntTy) (d : VNum) (a : VNum) (perm : Perm) (b : VNum) (mc : MNum) (mk : MNum)
  | cmp (cond : Cond) (ty : IntTy) (md : MNum) (a : VNum) (perm : Perm) (b : VNum) (mk : MNum)
  | cmpi (cond : Cond) (ty : IntTy) (md : MNum) (a : VNum) (imm : Imm) (mk : MNum)
  | bfe (ty : IntTy) (d : VNum) (a : VNum) (perm : Perm) (b : VNum) (mk : MNum)
  | bfi (ty : IntTy) (d : VNum) (a : VNum) (perm : Perm) (b : VNum) (c : VNum) (mk : MNum)
  | lea (size : Size) (d : VNum) (m : MemRef) (look : BitVec 4) (tok : BitVec 3) (mk : MNum)
  | ids (q : IdsQuery) (d : VNum) (mk : MNum)
  | mlog (kind : MlogKind) (md : MNum) (ma : MNum) (mb : MNum) (mk : MNum)
  | mpop (d : VNum) (ma : MNum) (mk : MNum)
  | mfirst (d : VNum) (ma : MNum) (mk : MNum)
  | mset (kind : MsetKind) (md : MNum) (imm : BitVec 24) (mk : MNum)
  | br (sense : BrSense) (mc : MNum) (hint : Hint) (disp : BitVec 32)
  | brm (kind : BrmKind) (mc : MNum) (hint : Hint) (disp : BitVec 32)
  | call (vd : VNum) (hint : Hint) (disp : BitVec 32)
  | calli (vd : VNum) (va : VNum) (mk : MNum)
  | ret (va : VNum) (mk : MNum)
  | jmpi (va : VNum) (mk : MNum)
  | regang
  | exit (mk : MNum)
  | waittok (toks : BitVec 7)
  | shfl (mode : ShflMode) (wd : Wd) (d : VNum) (a : VNum) (b : VNum) (mk : MNum)
  | bcast (pick : BcastSel) (wd : Wd) (d : VNum) (a : VNum) (b : VNum) (mk : MNum)
  | reduce (op : RedOp) (d : VNum) (a : VNum) (look : BitVec 4) (mk : MNum)
  | scan (op : RedOp) (d : VNum) (a : VNum) (look : BitVec 4) (mk : MNum)
  | vote (kind : VoteKind) (w64 : Bool) (md : MNum) (a : VNum) (mk : MNum)
  | ballot (kind : BallotKind) (d : VNum) (ma : MNum) (mk : MNum)
  | dot4 (ty : Dot4Ty) (sat : Bool) (d : VNum) (a : VNum) (perm : Perm) (b : VNum) (c : VNum) (fmt : BitVec 3) (mk : MNum)
  | dot8 (ty : Dot8Ty) (sat : Bool) (d : VNum) (a : VNum) (perm : Perm) (b : VNum) (c : VNum) (fmt : BitVec 3) (mk : MNum)
  | pack (ty : PackTy) (sat : Bool) (d : VNum) (a : VNum) (perm : Perm) (b : VNum) (c : VNum) (j : BitVec 2) (mk : MNum)
  | unpack (ty : PackTy) (d : VNum) (a : VNum) (perm : Perm) (n : BitVec 3) (mk : MNum)
  | clmul (wd : Wd) (hi : Bool) (d : VNum) (a : VNum) (perm : Perm) (b : VNum) (mk : MNum)
  | byteperm (d : VNum) (a : VNum) (perm : Perm) (b : VNum) (c : VNum) (mk : MNum)
  | rebal (mode : RebalMode) (wd : Wd) (d : VNum) (a : VNum) (mc : MNum) (mk : MNum)
  | shapeGet (d : VNum) (a : VNum) (mk : MNum)
  | shapeFit (wd : Wd) (d : VNum) (a : VNum) (mk : MNum)
  | iota (ty : IntTy) (d : VNum) (base : BitVec 24) (stride : BitVec 6) (mk : MNum)
  | fadd (cls : FpCls) (d : VNum) (a : VNum) (perm : Perm) (b : VNum) (mk : MNum)
  | fsub (cls : FpCls) (d : VNum) (a : VNum) (perm : Perm) (b : VNum) (mk : MNum)
  | fmul (cls : FpCls) (d : VNum) (a : VNum) (perm : Perm) (b : VNum) (mk : MNum)
  | fmin (cls : FpCls) (d : VNum) (a : VNum) (perm : Perm) (b : VNum) (mk : MNum)
  | fmax (cls : FpCls) (d : VNum) (a : VNum) (perm : Perm) (b : VNum) (mk : MNum)
  | fscale (cls : FpCls) (d : VNum) (a : VNum) (perm : Perm) (b : VNum) (mk : MNum)
  | kset (cls : FpCls) (d : VNum) (a : VNum) (perm : Perm) (b : VNum) (mk : MNum)
  | kmin (cls : FpCls) (d : VNum) (a : VNum) (perm : Perm) (b : VNum) (mk : MNum)
  | ffma (cls : FpCls) (d : VNum) (a : VNum) (perm : Perm) (b : VNum) (c : VNum) (mk : MNum)
  | frexp (part : FrexpSel) (cls : FpCls) (d : VNum) (a : VNum) (perm : Perm) (mk : MNum)
  | fcmp (cond : FCond) (x : Bool) (cls : FpCls) (md : MNum) (a : VNum) (perm : Perm) (b : VNum) (mk : MNum)
  | fclass (cls : FpCls) (d : VNum) (a : VNum) (perm : Perm) (mk : MNum)
  | frcp (cls : FpCls) (d : VNum) (a : VNum) (perm : Perm) (look : BitVec 4) (mk : MNum)
  | frsq (cls : FpCls) (d : VNum) (a : VNum) (perm : Perm) (look : BitVec 4) (mk : MNum)
  | fexp2 (cls : FpCls) (d : VNum) (a : VNum) (perm : Perm) (look : BitVec 4) (mk : MNum)
  | flog2 (cls : FpCls) (d : VNum) (a : VNum) (perm : Perm) (look : BitVec 4) (mk : MNum)
  | fsin (cls : FpCls) (d : VNum) (a : VNum) (perm : Perm) (look : BitVec 4) (mk : MNum)
  | fcos (cls : FpCls) (d : VNum) (a : VNum) (perm : Perm) (look : BitVec 4) (mk : MNum)
  | fcvt (dst : FpCls) (src : FpCls) (d : VNum) (a : VNum) (perm : Perm) (mk : MNum)
  | fcvti (ty : IntTy) (cls : FpCls) (d : VNum) (a : VNum) (perm : Perm) (rnd : Rnd) (mk : MNum)
  | icvtf (cls : FpCls) (ty : IntTy) (d : VNum) (a : VNum) (perm : Perm) (mk : MNum)
  | fround (cls : FpCls) (d : VNum) (a : VNum) (perm : Perm) (rnd : Rnd) (mk : MNum)
  | fpack (ty : FpackTy) (sat : Bool) (d : VNum) (a : VNum) (b : VNum) (c : VNum) (j : BitVec 2) (fmt : BitVec 3) (mk : MNum)
  | funpack (cls : FpCls) (d : VNum) (a : VNum) (perm : Perm) (n : BitVec 3) (mk : MNum)
  | freduce (cls : FpCls) (d : VNum) (a : VNum) (look : BitVec 4) (mk : MNum)
  | kget (pick : KgetSel) (cls : FpCls) (d : VNum) (a : VNum) (perm : Perm) (mk : MNum)
  | sticky (kind : StickyKind) (cls : FpCls) (d : VNum) (a : VNum) (perm : Perm) (mk : MNum)
  | bsig (kind : BsigKind) (va : VNum) (thr : BitVec 6) (hint : Hint) (disp : BitVec 32)
  | pairWord (p : Compact) (q : Compact)
  | ld (size : Size) (d : VNum) (m : MemRef) (stream : BitVec 4) (look : BitVec 4) (tok : BitVec 3) (mk : MNum)
  | st (size : Size) (rnd : Rnd) (vs : VNum) (m : MemRef) (stream : BitVec 4) (tok : BitVec 3) (mk : MNum)
  | ldt (size : Size) (d : VNum) (m : MemRef) (stream : BitVec 4) (look : BitVec 4) (tok : BitVec 3) (mk : MNum)
  | stt (size : Size) (vs : VNum) (m : MemRef) (stream : BitVec 4) (tok : BitVec 3) (mk : MNum)
  | ldg (size : Size) (d : VNum) (hnd : HNum) (ofs : VNum) (disp : BitVec 12) (stream : BitVec 4) (look : BitVec 4) (tok : BitVec 3) (mk : MNum)
  | sts (size : Size) (rnd : Rnd) (vs : VNum) (hnd : HNum) (ofs : VNum) (disp : BitVec 12) (stream : BitVec 4) (tok : BitVec 3) (mk : MNum)
  | ldb (size : Size) (d : VNum) (hnd : HNum) (disp : BitVec 12) (stream : BitVec 4) (look : BitVec 4) (tok : BitVec 3) (mk : MNum)
  | tmov (size : Size) (lc : BitVec 3) (vd : VNum) (m : MemRef) (stream : BitVec 4) (tok : BitVec 3) (mk : MNum)
  | atom (op : AtomOp) (size : Size) (vs : VNum) (m : MemRef) (stream : BitVec 4) (tok : BitVec 3) (mk : MNum)
  | atomr (op : AtomOp) (size : Size) (vs : VNum) (m : MemRef) (stream : BitVec 4) (look : BitVec 4) (tok : BitVec 3) (mk : MNum)
  | acq (mode : TokMode) (id : BitVec 12) (tok : BitVec 3)
  | rel (id : BitVec 12) (tok : BitVec 3)
  | fence (kind : FenceKind) (set : BitVec 16)
  | cbdef (cb : BitVec 4) (hnd : HNum) (disp : BitVec 12) (logs : BitVec 3) (size : BitVec 4)
  | cbpushRes (vd : VNum) (cb : BitVec 4) (look : BitVec 4) (tok : BitVec 3)
  | cbpushCommit (vs : VNum) (cb : BitVec 4) (stream : BitVec 4) (tok : BitVec 3)
  | cbpopTake (vd : VNum) (cb : BitVec 4) (look : BitVec 4) (tok : BitVec 3)
  | cbpopFree (vs : VNum) (cb : BitVec 4) (stream : BitVec 4) (tok : BitVec 3)
  | cbpopStat (vd : VNum) (cb : BitVec 4)
  | hdescAttr (vd : VNum) (va : VNum)
  | hdescBind (vd : VNum) (va : VNum)
  | hdescLoc (vd : VNum) (va : VNum)
  | hdescSeta (ah : HNum) (va : VNum)
  | hdescGeta (vd : VNum) (ah : HNum)
  | oclaim (first : BitVec 5) (nslot : BitVec 6) (tmask : BitVec 8) (tok : BitVec 3)
  | orel (first : BitVec 5) (nslot : BitVec 6) (tmask : BitVec 8) (tok : BitVec 3)
  | oload (q : BitVec 6) (slot : BitVec 5) (len : BitVec 7) (tok : BitVec 3)
  | omap (slot : BitVec 5) (orient : Orient) (pitch : BitVec 9) (base : BitVec 9) (tok : BitVec 3)
  | mma (acc : BitVec 3) (sa : BitVec 5) (sb : BitVec 5) (fmta : BitVec 3) (fmtb : BitVec 3) (kblka : BitVec 2) (kblkb : BitVec 2) (start : Bool) (tok : BitVec 3)
  | aclr (cls : TileCls) (tmask : BitVec 8) (tok : BitVec 3)
  | aread (acc : BitVec 3) (q : BitVec 6) (fmt : BitVec 3) (row0 : BitVec 6) (nrows : BitVec 6) (tok : BitVec 3)
  | awrite (acc : BitVec 3) (q : BitVec 6) (fmt : BitVec 3) (row0 : BitVec 6) (nrows : BitVec 6) (tok : BitVec 3)
  | astat (vd : VNum) (acc : BitVec 3) (row0 : BitVec 6) (nrows : BitVec 6) (look : BitVec 4) (tok : BitVec 3)
  | mwakeNow
  | mwakeIdle (n : BitVec 16)
  | mstat (form : MstatSel) (vd : VNum)
  | xcopy (dk : CopyDst) (srcCb : Bool) (cv : Bool) (slot : BitVec 5) (q : BitVec 6) (len : BitVec 10) (fmt : BitVec 3) (stream : BitVec 4) (tok : BitVec 3)
  | xcopym (fillB : Bool) (q : BitVec 6) (len : BitVec 10) (sa : BitVec 5) (sb : BitVec 5) (acc : BitVec 3) (fmta : BitVec 3) (fmtb : BitVec 3) (kblka : BitVec 2) (kblkb : BitVec 2) (tok : BitVec 3)
  | xseqDone (eng : Eng) (vd : VNum) (look : BitVec 4) (tok : BitVec 3)
  | xseqIssued (eng : Eng) (vd : VNum) (look : BitVec 4) (tok : BitVec 3)
  | xseqLine (line : BitVec 4) (vd : VNum) (look : BitVec 4) (tok : BitVec 3)
  | xseqFault (vd : VNum) (look : BitVec 4) (tok : BitVec 3)
  | xwait (eng : Eng) (vs : VNum)
  | evrouteSet (src : BitVec 4) (line : BitVec 4)
  | evrouteClr (src : BitVec 4) (line : BitVec 4)
  | evrouteGate (sink : BitVec 4) (line : BitVec 4)
  | evrouteOpen (sink : BitVec 4)
  | evwait (line : BitVec 4)
  | evwaitSync (line : BitVec 4)
  | evfire (line : BitVec 4) (count : BitVec 8)
  | sxred (op : SxOp) (ef : SxFmt) (thnd : HNum) (dhnd : HNum) (q : BitVec 6) (rowlen : BitVec 8) (stream : BitVec 4) (tok : BitVec 3) (mk : MNum)
  | sxbulkCopy (q : BitVec 6) (len : BitVec 14) (stream : BitVec 4) (tok : BitVec 3)
  | sxbulkFill (q : BitVec 6) (len : BitVec 14) (stream : BitVec 4) (tok : BitVec 3)
  | sxbulkCmp (q : BitVec 6) (len : BitVec 14) (rhnd : HNum) (stream : BitVec 4) (tok : BitVec 3)
  | sxseqDone (vd : VNum) (psel : BitVec 4) (preg : VNum) (look : BitVec 4) (tok : BitVec 3)
  | sxseqIssued (vd : VNum) (psel : BitVec 4) (preg : VNum) (look : BitVec 4) (tok : BitVec 3)
  | sxseqStack (vd : VNum) (psel : BitVec 4) (preg : VNum) (look : BitVec 4) (tok : BitVec 3)
  | sxseqFault (vd : VNum) (psel : BitVec 4) (preg : VNum) (look : BitVec 4) (tok : BitVec 3)
  | sxwait (vs : VNum) (psel : BitVec 4) (preg : VNum)
  | mkmatch (opt : Bool) (snap : Bool) (dmk : BitVec 6) (q : VNum) (wave : BitVec 4) (scope : Scope) (tok : BitVec 3)
  | mkset (form : MkForm) (opt : Bool) (all : Bool) (snap : Bool) (dmk : BitVec 6) (smk : BitVec 6) (vv : VNum) (wave : BitVec 4) (scope : Scope) (tok : BitVec 3)
  | mkclr (form : MkForm) (opt : Bool) (all : Bool) (snap : Bool) (dmk : BitVec 6) (smk : BitVec 6) (wave : BitVec 4) (scope : Scope) (tok : BitVec 3)
  | mkprop (comb : Comb) (opt : Bool) (all : Bool) (snap : Bool) (dmk : BitVec 6) (smk : BitVec 6) (vt : VNum) (hops : BitVec 8) (wave : BitVec 4) (scope : Scope) (tok : BitVec 3)
  | mkpropv (comb : Comb) (all : Bool) (snap : Bool) (dmk : BitVec 6) (smk : BitVec 6) (vt : VNum) (hops : BitVec 8) (wave : BitVec 4) (scope : Scope) (tok : BitVec 3)
  | mkcollect (opt : Bool) (all : Bool) (snap : Bool) (dmk : BitVec 6) (smk : BitVec 6) (q : VNum) (wave : BitVec 4) (scope : Scope) (tok : BitVec 3)
  | mkcount (all : Bool) (snap : Bool) (smk : BitVec 6) (wave : BitVec 4) (scope : Scope) (tok : BitVec 3)
  | mkwait (wave : BitVec 4)
  | mkstat (vd : VNum) (wave : BitVec 4)
  | ndrd (fi : NdField) (mv : BitVec 2) (d : VNum) (m : MemRef) (look : BitVec 4) (tok : BitVec 3) (mk : MNum)
  | ndwr (fi : NdField) (mv : BitVec 2) (vs : VNum) (m : MemRef) (tok : BitVec 3) (mk : MNum)
  | edrd (fi : EdField) (d : VNum) (m : MemRef) (look : BitVec 4) (tok : BitVec 3) (mk : MNum)
  | edwr (fi : EdField) (vs : VNum) (m : MemRef) (tok : BitVec 3) (mk : MNum)
  | fld (sz : FldSz) (d : VNum) (vp : VNum) (vo : VNum) (look : BitVec 4) (tok : BitVec 3) (mk : MNum)
  | fst (sz : FldSz) (rnd : Rnd) (vs : VNum) (vp : VNum) (vo : VNum) (tok : BitVec 3) (mk : MNum)
  | fstRadd (vs : VNum) (vp : VNum) (vo : VNum) (tok : BitVec 3) (mk : MNum)
  | fat (op : AtomOp) (sz : FatSz) (d : VNum) (vp : VNum) (vo : VNum) (vc : VNum) (look : BitVec 4) (tok : BitVec 3) (mk : MNum)
  | fmcst (q : BitVec 6) (rhnd : HNum) (tok : BitVec 3)
  | fwait
  | fpeerExport (e : BitVec 12) (va : VNum)
  | fpeerRevoke (e : BitVec 12)
  | fpeerStat (vd : VNum) (e : BitVec 12)
  | fpeerMcdef (g : BitVec 12) (va : VNum)
  | fpeerPort (vd : VNum) (p : BitVec 4)
  | barv (g : BitVec 8) (tok : BitVec 3)
  | barw (g : BitVec 8)
  | bars (g : BitVec 8)
  | barq (vd : VNum) (g : BitVec 8)
  | yield
  | yieldBal
  | prioSet (k : BitVec 3)
  | prioRestore
  | idemBegin (keep : BitVec 8) (disp : BitVec 32)
  | idemEnd
  | qpost (vq : VNum) (hnd : HNum) (disp : BitVec 12) (stream : BitVec 4) (tok : BitVec 3)
  | csrrd (vd : VNum) (csr : Csr)
  | csrwr (csr : Csr) (va : VNum)
  | csrwrSet (csr : Csr) (va : VNum)
  | csrwrClr (csr : Csr) (va : VNum)
  | trap (code : BitVec 22)
  | rte
  | rteNext
  | halt (code : BitVec 8)
  | ctxsave (va : VNum) (stream : BitVec 4) (tok : BitVec 3)
  | ctxload (vd : VNum) (va : VNum) (look : BitVec 4) (stream : BitVec 4) (tok : BitVec 3)
  | hnew (vd : VNum) (va : VNum) (look : BitVec 4) (stream : BitVec 4) (tok : BitVec 3)
  | hmap (vd : VNum) (va : VNum) (look : BitVec 4) (stream : BitVec 4) (tok : BitVec 3)
  | hrevoke (vd : VNum) (va : VNum) (look : BitVec 4) (stream : BitVec 4) (tok : BitVec 3)
  | hmigr (vd : VNum) (va : VNum) (stack : BitVec 3) (look : BitVec 4) (stream : BitVec 4) (tok : BitVec 3)
  | chkptSave (vd : VNum) (va : VNum) (look : BitVec 4) (stream : BitVec 4) (tok : BitVec 3)
  | chkptLoad (vd : VNum) (va : VNum) (look : BitVec 4) (stream : BitVec 4) (tok : BitVec 3)
  | clauseEntry (core : Nat) (ctx : Nat) (part : Nat)
  | fetchWord (core : Nat) (ctx : Nat) (part : Nat)
  | longLatencyWrite (core : Nat) (ctx : Nat) (id : Nat)
  | regangMerge (core : Nat) (ctx : Nat)
  | performPiece (agent : Agent) (n : Nat) (err : SoftErr)
  | drain (id : Nat)
  | propagate (id : Nat) (quarter : Nat)
  | replicate (id : Nat) (quarter : Nat)
  | atomicSend (core : Nat) (ctx : Nat) (st : Nat)
  | atomicPerform (pno : Nat) (cluster : Nat)
  | fencePerform (core : Nat) (ctx : Nat) (st : Nat)
  | releaseStep (id : Nat)
  | tokenGrant (pno : Nat) (id : Nat)
  | tokenReleaseRecord (id : Nat)
  | barrierWaitPass (core : Nat) (ctx : Nat) (part : Nat)
  | waitSatisfied (core : Nat) (ctx : Nat) (part : Nat)
  | launchEnd (l : Nat)
  | hostStoreDrain (pno : Nat)
  | engineRegistration (core : Nat) (ctx : Nat) (st : Nat)
  | engineStart (core : Nat) (eng : Nat)
  | engineCompletion (core : Nat) (eng : Nat)
  | cbResServed (core : Nat) (cb : Nat)
  | cbTakeServed (core : Nat) (cb : Nat)
  | claimGrant (core : Nat) (n : Nat)
  | claimRelease (core : Nat) (n : Nat)
  | subarrayGate (core : Nat) (n : Nat)
  | subarrayWake (core : Nat)
  | budgetWindow (core : Nat)
  | bandwidthWindow (res : Nat)
  | swapOut (core : Nat) (ctx : Nat)
  | recallGang (core : Nat) (ctx : Nat)
  | balanceWindow (core : Nat) (imb : Nat) (under : Bool)
  | balanceStall (core : Nat)
  | balanceDeferral (core : Nat)
  | takeDeferredTrap (core : Nat) (ctx : Nat) (part : Nat)
  | doorbellWrite (queue : Nat) (ofs : Nat) (size : Nat)
  | queuePortPost (src : Nat) (pno : Nat) (ofs : Nat) (size : Nat) (wr : Bool)
  | qpostDeliver (core : Nat) (ctx : Nat) (st : Nat)
  | takePacket (queue : Nat)
  | packetComplete (queue : Nat)
  | waveStart (core : Nat) (w : Nat) (slot : Nat)
  | waveDelivery (core : Nat) (w : Nat) (n : Nat)
  | creditReturn (core : Nat) (w : Nat) (back : Option RemoteBack)
  | creditRequest (core : Nat) (w : Nat)
  | creditAnswer (core : Nat) (w : Nat) (n : Nat)
  | batchAccept (n : Nat) (remote : Option RemoteBatch)
  | waveRunaway (core : Nat) (w : Nat) (n : Nat)
  | batchRefused (n : Nat) (reason : Nat)
  | batchReclaimRemap (core : Nat) (w : Nat) (dst : Nat) (last : Nat)
  | batchReclaimTimeout (core : Nat) (w : Nat) (dst : Nat)
  | droopTrip (stack : Nat)
  | droopHoldEnd (stack : Nat)
  | thermalDuty (stack : Nat) (temp : BitVec 8)
  | refreshPause (stack : Nat)
  | interfaceRetry (agent : Agent) (n : Nat) (fails : Nat)
  | mcdefRead (core : Nat) (ctx : Nat)
  | handleOpComplete (core : Nat) (ctx : Nat) (id : Nat)
  | fabricSend (core : Nat) (ctx : Nat)
  | fabricTargetPerform (src : Nat) (desig : BitVec 64) (u : BitVec 32) (req : PeerReq)
  | fabricReply (id : Nat) (lane : Nat) (ans : PeerAns)
  | raddCombine (a : Nat) (b : Nat)
  | mcastAckRecord (id : Nat) (n : Nat)
  | flitReplay (port : Nat)
  | portRetrain (port : Nat) (lanes : BitVec 16)
  | laneSetChange (port : Nat) (lanes : BitVec 16)
  | planeRemap (plane : Nat)
  | planeRestore (plane : Nat)
  | switchDiscard (id : Nat) (lane : Nat)
  | requestLost (id : Nat) (lane : Nat)
  | hostLinkDown (link : Nat)
  | completionTimeout (agent : Agent) (n : Nat)
  | pform
  | pdissolve
  | pswapout
  | swapoutSave (pno : Nat)
  | pswapin
  | coreset
  | cksave
  | ckload
  | attest
  | fwload
  | apset
  | apertureAccess (ofs : Nat) (size : Nat) (wr : Option (List (BitVec 8)))
  | bar0Write (ofs : Nat) (size : Nat) (v : BitVec 64)
  | resetBoot
  | powerD3hot
  | powerRemoved
  | pieceMove (piece : Nat) (stack : Nat)
  | hostStore (adr : Nat) (bytes : List (BitVec 8))
  | hostLinkUp (link : Nat)
  | powerD0
  | batchAcknowledge (core : Nat) (w : Nat) (dst : Nat) (last : Nat)
  deriving DecidableEq, Repr

end Sys2Proof
end

