-- ==== Sys2Proof/WellFormed.lean ====
section
/-! DEFINITION. Which instructions the encodings of the spec admit beyond their operands' types: accepted types
(R113, R193, R234), mask destinations (R115) and the entries' own bounds. -/

namespace Sys2Proof

/-- The constraints of a pair word (R104): banks, sources, multiply class, and the fields a statement does not
read (R103). -/
def COp.isMul : COp → Bool
  | .mulS32 | .mulhS32 | .mulhZ32 | .fmulF32 => true
  | _ => false

/-- The number of register sources a compact statement reads (R103). -/
def COp.sources : COp → Nat
  | .nop => 0
  | .movW32 | .absS32 | .clzW32 | .popcW32 | .brevW32 => 1
  | _ => 2

/-- The registers a compact operation reads. -/
def Compact.reads (c : Compact) : List (BitVec 7) :=
  match c.op.sources with
  | 0 => []
  | 1 => [c.a]
  | _ => [c.a, c.b]

/-- The fields a compact statement does not read are zero (R103). -/
def Compact.tidy (c : Compact) : Bool :=
  match c.op.sources with
  | 0 => c.d == 0#7 && c.a == 0#7 && c.b == 0#7 && c.msk == 0#3
  | 1 => c.b == 0#7
  | _ => true

/-- The two destinations fall in different banks (R104); NOP has no bank. -/
def banksOk (p q : Compact) : Bool :=
  p.op == .nop || q.op == .nop || p.d.extractLsb' 0 2 != q.d.extractLsb' 0 2

/-- At most three distinct sources (R104). -/
def sourcesOk (p q : Compact) : Bool := decide ((p.reads ++ q.reads).dedup.length ≤ 3)

/-- Well-formedness: what the encodings admit. -/
def Instr.wf : Instr → Bool
  | .nop => true
  | .mov ty _ _ _ _ => tyBits ty
  | .movi ty _ _ _ => tyMovi ty
  | .add ty am _ _ _ _ _ => tyArith ty && (am != .wide || (ty == .s32 || ty == .z32))
  | .sub ty am _ _ _ _ _ => tyArith ty && (am != .wide || (ty == .s32 || ty == .z32))
  | .addi ty am _ _ _ _ => tyArith ty && (am != .wide || (ty == .s32 || ty == .z32))
  | .mul ty _ _ _ _ _ => tyMul ty
  | .mulh ty _ _ _ _ _ => tyMul ty
  | .mad ty _ _ _ _ _ _ => tyMul ty
  | .idiv ty _ _ _ _ _ _ _ => tyMul ty
  | .irem ty _ _ _ _ _ _ _ => tyMul ty
  | .and ty _ _ _ _ _ => tyBits ty
  | .or ty _ _ _ _ _ => tyBits ty
  | .xor ty _ _ _ _ _ => tyBits ty
  | .logi _ ty _ _ _ _ => tyBits ty
  | .shl ty _ _ _ _ _ => tyBits ty
  | .shr ty _ _ _ _ _ => tyBits ty
  | .sar ty _ _ _ _ _ => tySar ty
  | .rot ty _ _ _ _ _ => tyBits ty
  | .shi kind ty _ a n _ => tyShi ty && ((if kind == .a then ty == .s32 || ty == .s64 else ty == .w32 || ty == .w64)) && (decide (n.toNat < ty.width))
  | .clz ty _ _ _ _ => tyBits ty
  | .popc ty _ _ _ _ => tyBits ty
  | .brev ty _ _ _ _ => tyBits ty
  | .min ty _ _ _ _ _ => tyArith ty
  | .max ty _ _ _ _ _ => tyArith ty
  | .abs ty _ _ _ _ _ => tyAbs ty
  | .sel ty _ _ _ _ _ _ => tyBits ty
  | .cmp _ ty md _ _ _ _ => tyArith ty && md != 0#3
  | .cmpi _ ty md _ _ _ => tyArith ty && md != 0#3
  | .bfe ty _ _ _ _ _ => tyMul ty
  | .bfi ty _ _ _ _ _ _ => tyBits ty
  | .lea size _ _ _ _ _ => szLea size
  | .ids _ _ _ => true
  | .mlog kind md _ mb _ => md != 0#3 && ((kind != .lnot && kind != .mov) || mb == 0#3)
  | .mpop _ _ _ => true
  | .mfirst _ _ _ => true
  | .mset kind md imm _ => md != 0#3 && (kind != .first || decide (imm.toNat ≤ 32))
  | .br _ _ _ _ => true
  | .brm _ _ _ _ => true
  | .call _ _ _ => true
  | .calli _ _ _ => true
  | .ret _ _ => true
  | .jmpi _ _ => true
  | .regang => true
  | .exit _ => true
  | .waittok _ => true
  | .shfl _ _ _ _ _ _ => true
  | .bcast pick _ _ _ b _ => (pick == .idx || b == 0#8)
  | .reduce _ _ _ _ _ => true
  | .scan _ _ _ _ _ => true
  | .vote kind w64 md a _ => md != 0#3 && ((if kind == .same || kind == .allSame then true else !w64)) && (kind == .same || kind == .allSame || decide (a.toNat < 8))
  | .ballot _ _ _ _ => true
  | .dot4 ty sat _ _ _ _ _ fmt _ => (!sat || (ty == .s8 || ty == .z8 || ty == .slot)) && (ty == .slot || fmt == 0#3)
  | .dot8 ty sat _ _ _ _ _ fmt _ => (!sat || (ty == .s4 || ty == .z4 || ty == .slot)) && (ty == .slot || fmt == 0#3)
  | .pack ty _ _ _ _ _ c j _ => (decide (j.toNat < ty.pairs)) && (ty.width != 16 || c == 0#8)
  | .unpack ty _ _ _ n _ => (decide (n.toNat < 2 * ty.pairs))
  | .clmul wd hi _ _ _ _ _ => (wd == .w64 || !hi)
  | .byteperm _ _ _ _ _ _ => true
  | .rebal _ _ _ _ _ _ => true
  | .shapeGet _ _ _ => true
  | .shapeFit _ _ _ _ => true
  | .iota ty _ _ _ _ => tyIota ty
  | .fadd _ _ _ _ _ _ => true
  | .fsub _ _ _ _ _ _ => true
  | .fmul _ _ _ _ _ _ => true
  | .fmin _ _ _ _ _ _ => true
  | .fmax _ _ _ _ _ _ => true
  | .fscale _ _ _ _ _ _ => true
  | .kset _ _ _ _ _ _ => true
  | .kmin _ _ _ _ _ _ => true
  | .ffma _ _ _ _ _ _ _ => true
  | .frexp _ _ _ _ _ _ => true
  | .fcmp _ _ _ md _ _ _ _ => md != 0#3
  | .fclass _ _ _ _ _ => true
  | .frcp cls _ _ _ _ _ => clsRcp cls
  | .frsq cls _ _ _ _ _ => clsRcp cls
  | .fexp2 cls _ _ _ _ _ => clsTrans cls
  | .flog2 cls _ _ _ _ _ => clsTrans cls
  | .fsin cls _ _ _ _ _ => clsTrans cls
  | .fcos cls _ _ _ _ _ => clsTrans cls
  | .fcvt _ _ _ _ _ _ => true
  | .fcvti ty _ _ _ _ _ _ => tyConv ty
  | .icvtf _ ty _ _ _ _ => tyConv ty
  | .fround _ _ _ _ _ _ => true
  | .fpack ty sat _ _ _ c j fmt _ => (ty != .slot || !sat) && (ty == .slot || decide (j.toNat < ty.pairs)) && (ty == .slot || fmt == 0#3) && ((ty != .f16 && ty != .bf16) || c == 0#8)
  | .funpack cls _ _ _ n _ => clsElem cls && (decide (n.toNat < cls.perLane))
  | .freduce cls _ _ _ _ => clsRcp cls
  | .kget _ _ _ _ _ _ => true
  | .sticky kind _ d _ _ _ => (kind != .mask || (d != 0#8 && decide (d.toNat < 8)))
  | .bsig _ _ _ _ _ => true
  | .pairWord p q => p.tidy && q.tidy && banksOk p q && sourcesOk p q && !(p.op.isMul && q.op.isMul)
  | .ld _ _ _ _ _ _ _ => true
  | .st size rnd _ _ _ _ _ => szStore size && (size.isFp || rnd == .rne)
  | .ldt size _ _ _ _ _ _ => szTag size
  | .stt size _ _ _ _ _ => szTag size
  | .ldg _ _ _ _ _ _ _ _ _ => true
  | .sts size rnd _ _ _ _ _ _ _ => szStore size && (size.isFp || rnd == .rne)
  | .ldb _ _ _ _ _ _ _ _ => true
  | .tmov size _ _ _ _ _ _ => szLea size
  | .atom op size _ _ _ _ _ => szAtom size && (!size.isFp || op == .add || op == .min || op == .max || op == .swap)
  | .atomr op size _ _ _ _ _ _ => szAtom size && (!size.isFp || op == .add || op == .min || op == .max || op == .swap)
  | .acq _ _ _ => true
  | .rel _ _ => true
  | .fence kind set => (kind != .s || set != 0#16) && (kind == .s || set == 0#16)
  | .cbdef _ _ _ _ size => (decide (size.toNat ≤ 10))
  | .cbpushRes _ _ _ _ => true
  | .cbpushCommit _ _ _ _ => true
  | .cbpopTake _ _ _ _ => true
  | .cbpopFree _ _ _ _ => true
  | .cbpopStat _ _ => true
  | .hdescAttr _ _ => true
  | .hdescBind _ _ => true
  | .hdescLoc _ _ => true
  | .hdescSeta _ _ => true
  | .hdescGeta _ _ => true
  | .oclaim first nslot tmask _ => (nslot != 0#6 || tmask != 0#8) && (decide (first.toNat + nslot.toNat ≤ 32))
  | .orel first nslot tmask _ => (nslot != 0#6 || tmask != 0#8) && (decide (first.toNat + nslot.toNat ≤ 32))
  | .oload _ _ _ _ => true
  | .omap _ _ _ _ _ => true
  | .mma _ _ _ _ _ _ _ _ _ => true
  | .aclr _ tmask _ => (tmask != 0#8)
  | .aread _ _ _ row0 nrows _ => (decide (row0.toNat + nrows.toNat ≤ 63))
  | .awrite _ _ _ row0 nrows _ => (decide (row0.toNat + nrows.toNat ≤ 63))
  | .astat _ _ row0 nrows _ _ => (decide (row0.toNat + nrows.toNat ≤ 63))
  | .mwakeNow => true
  | .mwakeIdle _ => true
  | .mstat _ _ => true
  | .xcopy dk _ cv slot _ _ fmt _ _ => (dk == .slot || slot == 0#5) && (cv || fmt == 0#3)
  | .xcopym _ _ _ _ _ _ _ _ _ _ _ => true
  | .xseqDone _ _ _ _ => true
  | .xseqIssued _ _ _ _ => true
  | .xseqLine _ _ _ _ => true
  | .xseqFault _ _ _ => true
  | .xwait _ _ => true
  | .evrouteSet src _ => (decide (src.toNat ≤ 11))
  | .evrouteClr _ _ => true
  | .evrouteGate sink _ => (decide (sink.toNat ≤ 10))
  | .evrouteOpen sink => (decide (sink.toNat ≤ 10))
  | .evwait _ => true
  | .evwaitSync _ => true
  | .evfire _ count => (count != 0#8)
  | .sxred _ _ _ _ _ _ _ _ _ => true
  | .sxbulkCopy _ _ _ _ => true
  | .sxbulkFill _ _ _ _ => true
  | .sxbulkCmp _ _ _ _ _ => true
  | .sxseqDone _ psel preg _ _ => (decide (psel.toNat ≤ 8)) && (psel == 8#4 || preg == 0#8)
  | .sxseqIssued _ psel preg _ _ => (decide (psel.toNat ≤ 8)) && (psel == 8#4 || preg == 0#8)
  | .sxseqStack _ psel preg _ _ => (decide (psel.toNat ≤ 8)) && (psel == 8#4 || preg == 0#8)
  | .sxseqFault _ psel preg _ _ => (decide (psel.toNat ≤ 8)) && (psel == 8#4 || preg == 0#8)
  | .sxwait _ psel preg => (decide (psel.toNat ≤ 8)) && (psel == 8#4 || preg == 0#8)
  | .mkmatch _ _ _ _ _ _ _ => true
  | .mkset form opt all _ dmk smk vv _ _ _ => (!all || smk == 0#6) && (!(all && opt)) && (form == .bit || decide (dmk.toNat < 4)) && (form == .vec || vv == 0#8)
  | .mkclr form opt all _ dmk smk _ _ _ => (!all || smk == 0#6) && (!(all && opt)) && (form == .bit || decide (dmk.toNat < 4))
  | .mkprop comb _ all _ _ smk _ _ _ _ _ => combBit comb && (!all || smk == 0#6)
  | .mkpropv comb all _ dmk smk _ hops _ _ _ => combVec comb && (!all || smk == 0#6) && (decide (dmk.toNat < 4)) && ((comb != .sum && comb != .wsum) || hops != 0#8)
  | .mkcollect opt all _ dmk smk _ _ _ _ => (!all || smk == 0#6) && (!opt || decide (dmk.toNat < 4)) && (opt || dmk == 0#6)
  | .mkcount all _ smk _ _ _ => (!all || smk == 0#6)
  | .mkwait _ => true
  | .mkstat _ _ => true
  | .ndrd fi mv _ _ _ _ _ => (fi == .mv || mv == 0#2)
  | .ndwr fi mv _ _ _ _ => (fi == .mv || mv == 0#2)
  | .edrd _ _ _ _ _ _ => true
  | .edwr _ _ _ _ _ => true
  | .fld _ _ _ _ _ _ _ => true
  | .fst sz rnd _ _ _ _ _ => fszStore sz && (sz.isFp || rnd == .rne)
  | .fstRadd _ _ _ _ _ => true
  | .fat _ _ _ _ _ _ _ _ _ => true
  | .fmcst _ _ _ => true
  | .fwait => true
  | .fpeerExport e _ => (e != 4095#12)
  | .fpeerRevoke e => (e != 4095#12)
  | .fpeerStat _ _ => true
  | .fpeerMcdef _ _ => true
  | .fpeerPort _ _ => true
  | .barv _ _ => true
  | .barw _ => true
  | .bars _ => true
  | .barq _ _ => true
  | .yield => true
  | .yieldBal => true
  | .prioSet _ => true
  | .prioRestore => true
  | .idemBegin keep _ => (decide (keep.toNat ≤ 16))
  | .idemEnd => true
  | .qpost _ _ _ _ _ => true
  | .csrrd _ _ => true
  | .csrwr _ _ => true
  | .csrwrSet _ _ => true
  | .csrwrClr _ _ => true
  | .trap _ => true
  | .rte => true
  | .rteNext => true
  | .halt code => (decide (128 ≤ code.toNat))
  | .ctxsave _ _ _ => true
  | .ctxload _ _ _ _ _ => true
  | .hnew _ _ _ _ _ => true
  | .hmap _ _ _ _ _ => true
  | .hrevoke _ _ _ _ _ => true
  | .hmigr _ _ _ _ _ _ => true
  | .chkptSave _ _ _ _ _ => true
  | .chkptLoad _ _ _ _ _ => true
  | .clauseEntry _ _ _ => true
  | .fetchWord _ _ _ => true
  | .longLatencyWrite _ _ _ => true
  | .regangMerge _ _ => true
  | .performPiece _ _ _ => true
  | .drain _ => true
  | .propagate _ _ => true
  | .replicate _ _ => true
  | .atomicSend _ _ _ => true
  | .atomicPerform _ _ => true
  | .fencePerform _ _ _ => true
  | .releaseStep _ => true
  | .tokenGrant _ _ => true
  | .tokenReleaseRecord _ => true
  | .barrierWaitPass _ _ _ => true
  | .waitSatisfied _ _ _ => true
  | .launchEnd _ => true
  | .hostStoreDrain _ => true
  | .engineRegistration _ _ _ => true
  | .engineStart _ _ => true
  | .engineCompletion _ _ => true
  | .cbResServed _ _ => true
  | .cbTakeServed _ _ => true
  | .claimGrant _ _ => true
  | .claimRelease _ _ => true
  | .subarrayGate _ _ => true
  | .subarrayWake _ => true
  | .budgetWindow _ => true
  | .bandwidthWindow _ => true
  | .swapOut _ _ => true
  | .recallGang _ _ => true
  | .balanceWindow _ _ _ => true
  | .balanceStall _ => true
  | .balanceDeferral _ => true
  | .takeDeferredTrap _ _ _ => true
  | .doorbellWrite _ _ _ => true
  | .queuePortPost _ _ _ _ _ => true
  | .qpostDeliver _ _ _ => true
  | .takePacket _ => true
  | .packetComplete _ => true
  | .waveStart _ _ _ => true
  | .waveDelivery _ _ _ => true
  | .creditReturn _ _ _ => true
  | .creditRequest _ _ => true
  | .creditAnswer _ _ _ => true
  | .batchAccept _ _ => true
  | .waveRunaway _ _ _ => true
  | .batchRefused _ _ => true
  | .batchReclaimRemap _ _ _ _ => true
  | .batchReclaimTimeout _ _ _ => true
  | .droopTrip _ => true
  | .droopHoldEnd _ => true
  | .thermalDuty _ _ => true
  | .refreshPause _ => true
  | .interfaceRetry _ _ _ => true
  | .mcdefRead _ _ => true
  | .handleOpComplete _ _ _ => true
  | .fabricSend _ _ => true
  | .fabricTargetPerform _ _ _ _ => true
  | .fabricReply _ _ _ => true
  | .raddCombine _ _ => true
  | .mcastAckRecord _ _ => true
  | .flitReplay _ => true
  | .portRetrain _ _ => true
  | .laneSetChange _ _ => true
  | .planeRemap _ => true
  | .planeRestore _ => true
  | .switchDiscard _ _ => true
  | .requestLost _ _ => true
  | .hostLinkDown _ => true
  | .completionTimeout _ _ => true
  | .pform => true
  | .pdissolve => true
  | .pswapout => true
  | .swapoutSave _ => true
  | .pswapin => true
  | .coreset => true
  | .cksave => true
  | .ckload => true
  | .attest => true
  | .fwload => true
  | .apset => true
  | .apertureAccess _ _ _ => true
  | .bar0Write _ _ _ => true
  | .resetBoot => true
  | .powerD3hot => true
  | .powerRemoved => true
  | .pieceMove _ _ => true
  | .hostStore _ _ => true
  | .hostLinkUp _ => true
  | .powerD0 => true
  | .batchAcknowledge _ _ _ _ => true

end Sys2Proof
end

