-- ==== Sys2Proof/Decode.lean ====
section
/-! DEFINITION. Decoding (R82-R111): a total function from the words of an instruction to the instruction or to a
refusal that carries what the reserved-encoding and pairing traps report (R451, R455), and after it the encoder, from
the same maps of the spec. -/

namespace Sys2Proof

/-- What a word that is no instruction reports: a reserved encoding with its DETAIL and TINFO1 (R451), a pairing
violation with its DETAIL and TINFO1 (R455), LIT set without a literal word after it (R87), a header, a literal word
standing alone, or nothing to read. -/
inductive Reject where
  | reserved (detail : Nat) (info : Word64)
  | pairing (detail : Nat) (info : Word64)
  | noLiteral
  | header
  | literal
  | noWord
  deriving DecidableEq, Repr

/-! ## Words and fields -/

/-- `x` above `y` in a word of `w` bits. -/
def cat (w : Nat) {n m : Nat} (x : BitVec n) (y : BitVec m) : BitVec w := (x ++ y).setWidth w

/-- One bit of a word. -/
def bit (b : Bool) : BitVec 1 := if b then 1#1 else 0#1

/-- A mask of `n` ones from bit `pos` up. -/
def ones (pos n : Nat) : Word64 := BitVec.ofNat 64 ((2 ^ n - 1) * 2 ^ pos)

/-- A check of a word: whether it fails, the DETAIL it reports and the mask for TINFO1 (R451). -/
abbrev Check := Bool × Nat × Word64

/-- A coded field of `n` bits at `pos` fails with DETAIL `d` when `c` holds; TINFO1 masks the field. -/
def bad (c : Bool) (d pos n : Nat) : Check := (c, d, ones pos n)

/-- A field shown as zero; TINFO1 masks its nonzero bits (R451, DETAIL 4). -/
def zeroF {n : Nat} (x : BitVec n) (pos : Nat) : Check := (x != 0, 4, (x.setWidth 64) <<< pos)

/-- A field that must be zero under a condition, in the same way (R451, DETAIL 4). -/
def zeroIf (c : Bool) {n : Nat} (x : BitVec n) (pos : Nat) : Check := (c && x != 0, 4, (x.setWidth 64) <<< pos)

/-- The lowest DETAIL among the failed checks, with the masks of that DETAIL joined (R451). -/
def worst : List Check → Option (Nat × Word64)
  | [] => none
  | (false, _, _) :: cs => worst cs
  | (true, d, m) :: cs =>
    match worst cs with
    | none => some (d, m)
    | some (d', m') => if d < d' then some (d, m) else if d' < d then some (d', m') else some (d, m ||| m')

/-- The instruction when every check passes, otherwise the refusal. -/
def verdict (cs : List Check) (i : Instr) : Except Reject Instr :=
  match worst cs with
  | none => .ok i
  | some (d, m) => .error (.reserved d m)

/-- The word kind (R82). -/
def kindOf (w : Word64) : BitVec 2 := w.extractLsb' 62 2
/-- The major opcode of a full instruction (R89). -/
def opcOf (w : Word64) : BitVec 8 := w.extractLsb' 54 8
/-- LIT, bit 30 of format I (R93). -/
def litOf (w : Word64) : BitVec 1 := w.extractLsb' 30 1

/-! ## Permutations, immediates and memory operands -/

/-- PERM and PARM of a permutation (R46). -/
def Perm.bits : Perm → BitVec 3 × BitVec 5
  | .none => (0, 0)
  | .bfly k => (1, BitVec.ofNat 5 (2 ^ k.val))
  | .rot n => (2, cat 5 0#2 n)
  | .rev => (3, 0)
  | .bc l => (4, l)

/-- PERM codes 5 to 7 are reserved (R46). -/
def permBad (p : BitVec 3) : Bool := decide (4 < p.toNat)

/-- The PARM values that each PERM code does not list (R46). -/
def parmBad (p : BitVec 3) (q : BitVec 5) : Bool :=
  if p == 0#3 || p == 3#3 then q != 0#5
  else if p == 1#3 then !(q == 1#5 || q == 2#5 || q == 4#5 || q == 8#5 || q == 16#5)
  else if p == 2#3 then q.extractLsb' 3 2 != 0#2
  else false

/-- The permutation of PERM and PARM (R46). -/
def Perm.ofBits (p : BitVec 3) (q : BitVec 5) : Perm :=
  if p == 1#3 then
    if q == 1#5 then .bfly 0 else if q == 2#5 then .bfly 1 else if q == 4#5 then .bfly 2
    else if q == 8#5 then .bfly 3 else .bfly 4
  else if p == 2#3 then .rot (q.extractLsb' 0 3)
  else if p == 3#3 then .rev
  else if p == 4#3 then .bc q
  else .none

/-- LIT of an immediate (R94). -/
def Imm.litBit : Imm → BitVec 1
  | .short _ => 0#1
  | .lit _ => 1#1

/-- IMM24 of an immediate; zero beside a literal (R94). -/
def Imm.short24 : Imm → BitVec 24
  | .short v => v
  | .lit _ => 0#24

/-- A literal word (R82). -/
def litWord (v : BitVec 62) : Word64 := cat 64 3#2 v

/-- The words of an instruction with its immediate (R94). -/
def Imm.words (i : Imm) (w : Word64) : List Word64 :=
  match i with
  | .short _ => [w]
  | .lit v => [w, litWord v]

/-- The immediate that LIT, IMM24 and the literal give (R94). -/
def Imm.ofBits (lit : BitVec 1) (v : BitVec 24) (l : BitVec 62) : Imm :=
  if lit == 1#1 then .lit l else .short v

/-- NOOFS of a memory operand (R95). -/
def MemRef.noofsBit (m : MemRef) : BitVec 1 :=
  match m.ofs with
  | some _ => 0#1
  | none => 1#1

/-- OFS of a memory operand; zero under NOOFS (R95). -/
def MemRef.ofsBits (m : MemRef) : BitVec 8 :=
  match m.ofs with
  | some v => v
  | none => 0#8

/-- The memory operand of NOOFS, HND, OFS and DISP12 (R95). -/
def MemRef.ofBits (noofs : BitVec 1) (h : HNum) (o : VNum) (d : BitVec 12) : MemRef :=
  ⟨h, if noofs == 1#1 then none else some o, d⟩

/-! ## Codes of the enumerated fields -/

/-- The code of each IntTy. -/
def IntTy.code : IntTy → BitVec 4
  | .s32 => 0#4
  | .z32 => 1#4
  | .s64 => 2#4
  | .z64 => 3#4
  | .s16 => 4#4
  | .z16 => 5#4
  | .s8 => 6#4
  | .z8 => 7#4
  | .w32 => 8#4
  | .w64 => 9#4
/-- The IntTy of a code, if it is listed. -/
def IntTy.ofCode? (c : BitVec 4) : Option IntTy :=
  match c.toNat with
  | 0 => some .s32
  | 1 => some .z32
  | 2 => some .s64
  | 3 => some .z64
  | 4 => some .s16
  | 5 => some .z16
  | 6 => some .s8
  | 7 => some .z8
  | 8 => some .w32
  | 9 => some .w64
  | _ => none

/-- The code of each FpCls. -/
def FpCls.code : FpCls → BitVec 4
  | .f32 => 0#4
  | .f64 => 1#4
  | .f16 => 2#4
  | .bf16 => 3#4
  | .e4m3 => 4#4
  | .e5m2 => 5#4
  | .e3m2 => 6#4
  | .e2m3 => 7#4
  | .e2m1 => 8#4
/-- The FpCls of a code, if it is listed. -/
def FpCls.ofCode? (c : BitVec 4) : Option FpCls :=
  match c.toNat with
  | 0 => some .f32
  | 1 => some .f64
  | 2 => some .f16
  | 3 => some .bf16
  | 4 => some .e4m3
  | 5 => some .e5m2
  | 6 => some .e3m2
  | 7 => some .e2m3
  | 8 => some .e2m1
  | _ => none

/-- The code of each AddMod. -/
def AddMod.code : AddMod → BitVec 4
  | .wrap => 0#4
  | .sat => 1#4
  | .wide => 2#4
/-- The AddMod of a code, if it is listed. -/
def AddMod.ofCode? (c : BitVec 4) : Option AddMod :=
  match c.toNat with
  | 0 => some .wrap
  | 1 => some .sat
  | 2 => some .wide
  | _ => none

/-- The code of each LogiKind. -/
def LogiKind.code : LogiKind → BitVec 6
  | .land => 0#6
  | .lor => 1#6
  | .lxor => 2#6
  | .landn => 3#6
/-- The LogiKind of a code, if it is listed. -/
def LogiKind.ofCode? (c : BitVec 6) : Option LogiKind :=
  match c.toNat with
  | 0 => some .land
  | 1 => some .lor
  | 2 => some .lxor
  | 3 => some .landn
  | _ => none

/-- The code of each ShiKind. -/
def ShiKind.code : ShiKind → BitVec 6
  | .l => 0#6
  | .r => 1#6
  | .a => 2#6
  | .rot => 3#6
/-- The ShiKind of a code, if it is listed. -/
def ShiKind.ofCode? (c : BitVec 6) : Option ShiKind :=
  match c.toNat with
  | 0 => some .l
  | 1 => some .r
  | 2 => some .a
  | 3 => some .rot
  | _ => none

/-- The code of each Cond. -/
def Cond.code : Cond → BitVec 4
  | .eq => 0#4
  | .ne => 1#4
  | .lt => 2#4
  | .le => 3#4
  | .gt => 4#4
  | .ge => 5#4
/-- The Cond of a code, if it is listed. -/
def Cond.ofCode? (c : BitVec 4) : Option Cond :=
  match c.toNat with
  | 0 => some .eq
  | 1 => some .ne
  | 2 => some .lt
  | 3 => some .le
  | 4 => some .gt
  | 5 => some .ge
  | _ => none

/-- The code of each IdsQuery. -/
def IdsQuery.code : IdsQuery → BitVec 4
  | .lane => 0#4
  | .slice => 1#4
  | .member => 2#4
  | .inst => 3#4
  | .role => 4#4
  | .core => 5#4
  | .device => 6#4
  | .width => 7#4
  | .part => 8#4
  | .context => 9#4
  | .partition => 10#4
/-- The IdsQuery of a code, if it is listed. -/
def IdsQuery.ofCode? (c : BitVec 4) : Option IdsQuery :=
  match c.toNat with
  | 0 => some .lane
  | 1 => some .slice
  | 2 => some .member
  | 3 => some .inst
  | 4 => some .role
  | 5 => some .core
  | 6 => some .device
  | 7 => some .width
  | 8 => some .part
  | 9 => some .context
  | 10 => some .partition
  | _ => none

/-- The code of each MlogKind. -/
def MlogKind.code : MlogKind → BitVec 4
  | .land => 0#4
  | .lor => 1#4
  | .lxor => 2#4
  | .landn => 3#4
  | .lnot => 4#4
  | .mov => 5#4
/-- The MlogKind of a code, if it is listed. -/
def MlogKind.ofCode? (c : BitVec 4) : Option MlogKind :=
  match c.toNat with
  | 0 => some .land
  | 1 => some .lor
  | 2 => some .lxor
  | 3 => some .landn
  | 4 => some .lnot
  | 5 => some .mov
  | _ => none

/-- The code of each MsetKind. -/
def MsetKind.code : MsetKind → BitVec 6
  | .pat => 0#6
  | .first => 1#6
/-- The MsetKind of a code, if it is listed. -/
def MsetKind.ofCode? (c : BitVec 6) : Option MsetKind :=
  match c.toNat with
  | 0 => some .pat
  | 1 => some .first
  | _ => none

/-- The code of each BrSense. -/
def BrSense.code : BrSense → BitVec 4
  | .t => 0#4
  | .f => 1#4
/-- The BrSense of a code, if it is listed. -/
def BrSense.ofCode? (c : BitVec 4) : Option BrSense :=
  match c.toNat with
  | 0 => some .t
  | 1 => some .f
  | _ => none

/-- The code of each BrmKind. -/
def BrmKind.code : BrmKind → BitVec 4
  | .any => 0#4
  | .all => 1#4
  | .none => 2#4
/-- The BrmKind of a code, if it is listed. -/
def BrmKind.ofCode? (c : BitVec 4) : Option BrmKind :=
  match c.toNat with
  | 0 => some .any
  | 1 => some .all
  | 2 => some .none
  | _ => none

/-- The code of each Hint. -/
def Hint.code : Hint → BitVec 2
  | .none => 0#2
  | .taken => 1#2
  | .notTaken => 2#2
/-- The Hint of a code, if it is listed. -/
def Hint.ofCode? (c : BitVec 2) : Option Hint :=
  match c.toNat with
  | 0 => some .none
  | 1 => some .taken
  | 2 => some .notTaken
  | _ => none

/-- The code of each Wd. -/
def Wd.code : Wd → BitVec 4
  | .w32 => 8#4
  | .w64 => 9#4
/-- The Wd of a code, if it is listed. -/
def Wd.ofCode? (c : BitVec 4) : Option Wd :=
  match c.toNat with
  | 8 => some .w32
  | 9 => some .w64
  | _ => none

/-- The code of each ShflMode. -/
def ShflMode.code : ShflMode → BitVec 4
  | .abs => 0#4
  | .ofs => 1#4
  | .seg => 2#4
  | .xor => 3#4
/-- The ShflMode of a code, if it is listed. -/
def ShflMode.ofCode? (c : BitVec 4) : Option ShflMode :=
  match c.toNat with
  | 0 => some .abs
  | 1 => some .ofs
  | 2 => some .seg
  | 3 => some .xor
  | _ => none

/-- The code of each BcastSel. -/
def BcastSel.code : BcastSel → BitVec 4
  | .first => 0#4
  | .last => 1#4
  | .idx => 2#4
/-- The BcastSel of a code, if it is listed. -/
def BcastSel.ofCode? (c : BitVec 4) : Option BcastSel :=
  match c.toNat with
  | 0 => some .first
  | 1 => some .last
  | 2 => some .idx
  | _ => none

/-- The code of each RedOp. -/
def RedOp.code : RedOp → BitVec 4
  | .addW32 => 0#4
  | .addW64 => 1#4
  | .minS32 => 2#4
  | .minZ32 => 3#4
  | .maxS32 => 4#4
  | .maxZ32 => 5#4
  | .andW32 => 6#4
  | .orW32 => 7#4
  | .xorW32 => 8#4
  | .minS64 => 9#4
  | .minZ64 => 10#4
  | .maxS64 => 11#4
  | .maxZ64 => 12#4
  | .andW64 => 13#4
  | .orW64 => 14#4
  | .xorW64 => 15#4
/-- The RedOp of a code, if it is listed. -/
def RedOp.ofCode? (c : BitVec 4) : Option RedOp :=
  match c.toNat with
  | 0 => some .addW32
  | 1 => some .addW64
  | 2 => some .minS32
  | 3 => some .minZ32
  | 4 => some .maxS32
  | 5 => some .maxZ32
  | 6 => some .andW32
  | 7 => some .orW32
  | 8 => some .xorW32
  | 9 => some .minS64
  | 10 => some .minZ64
  | 11 => some .maxS64
  | 12 => some .maxZ64
  | 13 => some .andW64
  | 14 => some .orW64
  | 15 => some .xorW64
  | _ => none

/-- The code of each VoteKind. -/
def VoteKind.code : VoteKind → BitVec 4
  | .any => 0#4
  | .all => 1#4
  | .none => 2#4
  | .maj => 3#4
  | .odd => 4#4
  | .same => 5#4
  | .allSame => 6#4
/-- The VoteKind of a code, if it is listed. -/
def VoteKind.ofCode? (c : BitVec 4) : Option VoteKind :=
  match c.toNat with
  | 0 => some .any
  | 1 => some .all
  | 2 => some .none
  | 3 => some .maj
  | 4 => some .odd
  | 5 => some .same
  | 6 => some .allSame
  | _ => none

/-- The code of each BallotKind. -/
def BallotKind.code : BallotKind → BitVec 4
  | .word => 0#4
  | .rank => 1#4
/-- The BallotKind of a code, if it is listed. -/
def BallotKind.ofCode? (c : BitVec 4) : Option BallotKind :=
  match c.toNat with
  | 0 => some .word
  | 1 => some .rank
  | _ => none

/-- The code of each Dot4Ty. -/
def Dot4Ty.code : Dot4Ty → BitVec 4
  | .s8 => 0#4
  | .z8 => 1#4
  | .e4m3 => 4#4
  | .e5m2 => 5#4
  | .e3m2 => 6#4
  | .e2m3 => 7#4
  | .slot => 15#4
/-- The Dot4Ty of a code, if it is listed. -/
def Dot4Ty.ofCode? (c : BitVec 4) : Option Dot4Ty :=
  match c.toNat with
  | 0 => some .s8
  | 1 => some .z8
  | 4 => some .e4m3
  | 5 => some .e5m2
  | 6 => some .e3m2
  | 7 => some .e2m3
  | 15 => some .slot
  | _ => none

/-- The code of each Dot8Ty. -/
def Dot8Ty.code : Dot8Ty → BitVec 4
  | .s4 => 0#4
  | .z4 => 1#4
  | .e2m1 => 8#4
  | .slot => 15#4
/-- The Dot8Ty of a code, if it is listed. -/
def Dot8Ty.ofCode? (c : BitVec 4) : Option Dot8Ty :=
  match c.toNat with
  | 0 => some .s4
  | 1 => some .z4
  | 8 => some .e2m1
  | 15 => some .slot
  | _ => none

/-- The code of each PackTy. -/
def PackTy.code : PackTy → BitVec 4
  | .s16 => 4#4
  | .z16 => 5#4
  | .s8 => 6#4
  | .z8 => 7#4
  | .s4 => 10#4
  | .z4 => 11#4
/-- The PackTy of a code, if it is listed. -/
def PackTy.ofCode? (c : BitVec 4) : Option PackTy :=
  match c.toNat with
  | 4 => some .s16
  | 5 => some .z16
  | 6 => some .s8
  | 7 => some .z8
  | 10 => some .s4
  | 11 => some .z4
  | _ => none

/-- The code of each RebalMode. -/
def RebalMode.code : RebalMode → BitVec 4
  | .pack => 0#4
  | .spread => 1#4
/-- The RebalMode of a code, if it is listed. -/
def RebalMode.ofCode? (c : BitVec 4) : Option RebalMode :=
  match c.toNat with
  | 0 => some .pack
  | 1 => some .spread
  | _ => none

/-- The code of each FrexpSel. -/
def FrexpSel.code : FrexpSel → BitVec 4
  | .sig => 0#4
  | .exp => 1#4
/-- The FrexpSel of a code, if it is listed. -/
def FrexpSel.ofCode? (c : BitVec 4) : Option FrexpSel :=
  match c.toNat with
  | 0 => some .sig
  | 1 => some .exp
  | _ => none

/-- The code of each FCond. -/
def FCond.code : FCond → BitVec 3
  | .eq => 0#3
  | .ne => 1#3
  | .lt => 2#3
  | .le => 3#3
  | .gt => 4#3
  | .ge => 5#3
  | .un => 6#3
  | .ord => 7#3
/-- The FCond of a code, if it is listed. -/
def FCond.ofCode? (c : BitVec 3) : Option FCond :=
  match c.toNat with
  | 0 => some .eq
  | 1 => some .ne
  | 2 => some .lt
  | 3 => some .le
  | 4 => some .gt
  | 5 => some .ge
  | 6 => some .un
  | 7 => some .ord
  | _ => none

/-- The code of each KgetSel. -/
def KgetSel.code : KgetSel → BitVec 4
  | .k => 0#4
  | .kef => 1#4
  | .s => 2#4
  | .g => 3#4
  | .tag => 4#4
/-- The KgetSel of a code, if it is listed. -/
def KgetSel.ofCode? (c : BitVec 4) : Option KgetSel :=
  match c.toNat with
  | 0 => some .k
  | 1 => some .kef
  | 2 => some .s
  | 3 => some .g
  | 4 => some .tag
  | _ => none

/-- The code of each StickyKind. -/
def StickyKind.code : StickyKind → BitVec 4
  | .clr => 0#4
  | .set => 1#4
  | .mask => 2#4
/-- The StickyKind of a code, if it is listed. -/
def StickyKind.ofCode? (c : BitVec 4) : Option StickyKind :=
  match c.toNat with
  | 0 => some .clr
  | 1 => some .set
  | 2 => some .mask
  | _ => none

/-- The code of each BsigKind. -/
def BsigKind.code : BsigKind → BitVec 4
  | .any => 0#4
  | .all => 1#4
  | .anyD => 2#4
  | .allD => 3#4
/-- The BsigKind of a code, if it is listed. -/
def BsigKind.ofCode? (c : BitVec 4) : Option BsigKind :=
  match c.toNat with
  | 0 => some .any
  | 1 => some .all
  | 2 => some .anyD
  | 3 => some .allD
  | _ => none

/-- The code of each Rnd. -/
def Rnd.code : Rnd → BitVec 3
  | .rne => 0#3
  | .rna => 1#3
  | .rz => 2#3
  | .ru => 3#3
  | .rd => 4#3
  | .dyn => 5#3
/-- The Rnd of a code, if it is listed. -/
def Rnd.ofCode? (c : BitVec 3) : Option Rnd :=
  match c.toNat with
  | 0 => some .rne
  | 1 => some .rna
  | 2 => some .rz
  | 3 => some .ru
  | 4 => some .rd
  | 5 => some .dyn
  | _ => none

/-- The code of each FpackTy. -/
def FpackTy.code : FpackTy → BitVec 4
  | .f16 => 2#4
  | .bf16 => 3#4
  | .e4m3 => 4#4
  | .e5m2 => 5#4
  | .e3m2 => 6#4
  | .e2m3 => 7#4
  | .e2m1 => 8#4
  | .slot => 15#4
/-- The FpackTy of a code, if it is listed. -/
def FpackTy.ofCode? (c : BitVec 4) : Option FpackTy :=
  match c.toNat with
  | 2 => some .f16
  | 3 => some .bf16
  | 4 => some .e4m3
  | 5 => some .e5m2
  | 6 => some .e3m2
  | 7 => some .e2m3
  | 8 => some .e2m1
  | 15 => some .slot
  | _ => none

/-- The code of each Size. -/
def Size.code : Size → BitVec 4
  | .w8 => 0#4
  | .w16 => 1#4
  | .w32 => 2#4
  | .w64 => 3#4
  | .w128 => 4#4
  | .s8 => 5#4
  | .s16 => 6#4
  | .z8 => 7#4
  | .z16 => 8#4
  | .f16 => 9#4
  | .bf16 => 10#4
  | .e4m3 => 11#4
  | .e5m2 => 12#4
  | .f64 => 13#4
  | .f32 => 14#4
/-- The Size of a code, if it is listed. -/
def Size.ofCode? (c : BitVec 4) : Option Size :=
  match c.toNat with
  | 0 => some .w8
  | 1 => some .w16
  | 2 => some .w32
  | 3 => some .w64
  | 4 => some .w128
  | 5 => some .s8
  | 6 => some .s16
  | 7 => some .z8
  | 8 => some .z16
  | 9 => some .f16
  | 10 => some .bf16
  | 11 => some .e4m3
  | 12 => some .e5m2
  | 13 => some .f64
  | 14 => some .f32
  | _ => none

/-- The code of each AtomOp. -/
def AtomOp.code : AtomOp → BitVec 3
  | .add => 0#3
  | .min => 1#3
  | .max => 2#3
  | .land => 3#3
  | .lor => 4#3
  | .lxor => 5#3
  | .swap => 6#3
  | .cas => 7#3
/-- The AtomOp of a code, if it is listed. -/
def AtomOp.ofCode? (c : BitVec 3) : Option AtomOp :=
  match c.toNat with
  | 0 => some .add
  | 1 => some .min
  | 2 => some .max
  | 3 => some .land
  | 4 => some .lor
  | 5 => some .lxor
  | 6 => some .swap
  | 7 => some .cas
  | _ => none

/-- The code of each TokMode. -/
def TokMode.code : TokMode → BitVec 6
  | .x => 0#6
  | .sh => 1#6
/-- The TokMode of a code, if it is listed. -/
def TokMode.ofCode? (c : BitVec 6) : Option TokMode :=
  match c.toNat with
  | 0 => some .x
  | 1 => some .sh
  | _ => none

/-- The code of each FenceKind. -/
def FenceKind.code : FenceKind → BitVec 6
  | .s => 0#6
  | .w => 1#6
  | .all => 2#6
/-- The FenceKind of a code, if it is listed. -/
def FenceKind.ofCode? (c : BitVec 6) : Option FenceKind :=
  match c.toNat with
  | 0 => some .s
  | 1 => some .w
  | 2 => some .all
  | _ => none

/-- The code of each CopyDst. -/
def CopyDst.code : CopyDst → BitVec 2
  | .addr => 0#2
  | .slot => 1#2
  | .cb => 2#2
/-- The CopyDst of a code, if it is listed. -/
def CopyDst.ofCode? (c : BitVec 2) : Option CopyDst :=
  match c.toNat with
  | 0 => some .addr
  | 1 => some .slot
  | 2 => some .cb
  | _ => none

/-- The code of each Eng. -/
def Eng.code : Eng → BitVec 4
  | .copy => 0#4
  | .mx => 1#4
  | .node => 2#4
/-- The Eng of a code, if it is listed. -/
def Eng.ofCode? (c : BitVec 4) : Option Eng :=
  match c.toNat with
  | 0 => some .copy
  | 1 => some .mx
  | 2 => some .node
  | _ => none

/-- The code of each Orient. -/
def Orient.code : Orient → BitVec 2
  | .k => 0#2
  | .m => 1#2
/-- The Orient of a code, if it is listed. -/
def Orient.ofCode? (c : BitVec 2) : Option Orient :=
  match c.toNat with
  | 0 => some .k
  | 1 => some .m
  | _ => none

/-- The code of each TileCls. -/
def TileCls.code : TileCls → BitVec 4
  | .f => 0#4
  | .i => 1#4
/-- The TileCls of a code, if it is listed. -/
def TileCls.ofCode? (c : BitVec 4) : Option TileCls :=
  match c.toNat with
  | 0 => some .f
  | 1 => some .i
  | _ => none

/-- The code of each MstatSel. -/
def MstatSel.code : MstatSel → BitVec 4
  | .claims => 0#4
  | .unit => 1#4
  | .fault => 2#4
/-- The MstatSel of a code, if it is listed. -/
def MstatSel.ofCode? (c : BitVec 4) : Option MstatSel :=
  match c.toNat with
  | 0 => some .claims
  | 1 => some .unit
  | 2 => some .fault
  | _ => none

/-- The code of each SxOp. -/
def SxOp.code : SxOp → BitVec 4
  | .sum => 0#4
  | .max => 1#4
/-- The SxOp of a code, if it is listed. -/
def SxOp.ofCode? (c : BitVec 4) : Option SxOp :=
  match c.toNat with
  | 0 => some .sum
  | 1 => some .max
  | _ => none

/-- The code of each SxFmt. -/
def SxFmt.code : SxFmt → BitVec 4
  | .f32 => 0#4
  | .f16 => 2#4
  | .bf16 => 3#4
  | .e4m3 => 4#4
  | .e5m2 => 5#4
  | .s8 => 9#4
  | .z8 => 10#4
  | .s32 => 14#4
/-- The SxFmt of a code, if it is listed. -/
def SxFmt.ofCode? (c : BitVec 4) : Option SxFmt :=
  match c.toNat with
  | 0 => some .f32
  | 2 => some .f16
  | 3 => some .bf16
  | 4 => some .e4m3
  | 5 => some .e5m2
  | 9 => some .s8
  | 10 => some .z8
  | 14 => some .s32
  | _ => none

/-- The code of each Comb. -/
def Comb.code : Comb → BitVec 4
  | .or => 0#4
  | .and => 1#4
  | .max => 2#4
  | .min => 3#4
  | .minplus => 4#4
  | .sum => 5#4
  | .wsum => 6#4
/-- The Comb of a code, if it is listed. -/
def Comb.ofCode? (c : BitVec 4) : Option Comb :=
  match c.toNat with
  | 0 => some .or
  | 1 => some .and
  | 2 => some .max
  | 3 => some .min
  | 4 => some .minplus
  | 5 => some .sum
  | 6 => some .wsum
  | _ => none

/-- The code of each Scope. -/
def Scope.code : Scope → BitVec 2
  | .core => 0#2
  | .cluster => 1#2
  | .part => 2#2
/-- The Scope of a code, if it is listed. -/
def Scope.ofCode? (c : BitVec 2) : Option Scope :=
  match c.toNat with
  | 0 => some .core
  | 1 => some .cluster
  | 2 => some .part
  | _ => none

/-- The code of each MkForm. -/
def MkForm.code : MkForm → BitVec 4
  | .bit => 0#4
  | .vec => 1#4
/-- The MkForm of a code, if it is listed. -/
def MkForm.ofCode? (c : BitVec 4) : Option MkForm :=
  match c.toNat with
  | 0 => some .bit
  | 1 => some .vec
  | _ => none

/-- The code of each NdField. -/
def NdField.code : NdField → BitVec 3
  | .hdr => 0#3
  | .attr => 1#3
  | .mb => 2#3
  | .mv => 3#3
/-- The NdField of a code, if it is listed. -/
def NdField.ofCode? (c : BitVec 3) : Option NdField :=
  match c.toNat with
  | 0 => some .hdr
  | 1 => some .attr
  | 2 => some .mb
  | 3 => some .mv
  | _ => none

/-- The code of each EdField. -/
def EdField.code : EdField → BitVec 3
  | .edge => 0#3
  | .weight => 1#3
/-- The EdField of a code, if it is listed. -/
def EdField.ofCode? (c : BitVec 3) : Option EdField :=
  match c.toNat with
  | 0 => some .edge
  | 1 => some .weight
  | _ => none

/-- The code of each FldSz. -/
def FldSz.code : FldSz → BitVec 4
  | .w8 => 0#4
  | .w16 => 1#4
  | .w32 => 2#4
  | .w64 => 3#4
  | .w128 => 4#4
  | .s8 => 5#4
  | .s16 => 6#4
  | .f32 => 7#4
  | .f64 => 8#4
  | .bf16 => 9#4
/-- The FldSz of a code, if it is listed. -/
def FldSz.ofCode? (c : BitVec 4) : Option FldSz :=
  match c.toNat with
  | 0 => some .w8
  | 1 => some .w16
  | 2 => some .w32
  | 3 => some .w64
  | 4 => some .w128
  | 5 => some .s8
  | 6 => some .s16
  | 7 => some .f32
  | 8 => some .f64
  | 9 => some .bf16
  | _ => none

/-- The code of each FatSz. -/
def FatSz.code : FatSz → BitVec 1
  | .w32 => 0#1
  | .w64 => 1#1
/-- The FatSz of a code, if it is listed. -/
def FatSz.ofCode? (c : BitVec 1) : Option FatSz :=
  match c.toNat with
  | 0 => some .w32
  | 1 => some .w64
  | _ => none

/-- The code of each Csr. -/
def Csr.code : Csr → BitVec 12
  | .gangstat => 16#12
  | .gangloc => 17#12
  | .ganggrp => 18#12
  | .rndctl => 20#12
  | .sigfloor => 21#12
  | .memctl => 22#12
  | .idxcnt => 23#12
  | .gangprio => 24#12
  | .tcause => 32#12
  | .tpc => 33#12
  | .tlane => 34#12
  | .tinfo0 => 35#12
  | .tinfo1 => 36#12
  | .tinfo2 => 37#12
  | .tinfo3 => 38#12
  | .tstat => 39#12
  | .partsys => 48#12
  | .cycle => 49#12
  | .mxwake => 64#12
  | .mxbudget => 65#12
  | .nodecfg => 66#12
  | .schedctl => 67#12
  | .balstat => 68#12
/-- The Csr of a code, if it is listed. -/
def Csr.ofCode? (c : BitVec 12) : Option Csr :=
  match c.toNat with
  | 16 => some .gangstat
  | 17 => some .gangloc
  | 18 => some .ganggrp
  | 20 => some .rndctl
  | 21 => some .sigfloor
  | 22 => some .memctl
  | 23 => some .idxcnt
  | 24 => some .gangprio
  | 32 => some .tcause
  | 33 => some .tpc
  | 34 => some .tlane
  | 35 => some .tinfo0
  | 36 => some .tinfo1
  | 37 => some .tinfo2
  | 38 => some .tinfo3
  | 39 => some .tstat
  | 48 => some .partsys
  | 49 => some .cycle
  | 64 => some .mxwake
  | 65 => some .mxbudget
  | 66 => some .nodecfg
  | 67 => some .schedctl
  | 68 => some .balstat
  | _ => none

/-- The code of each COp. -/
def COp.code : COp → BitVec 6
  | .nop => 0#6
  | .movW32 => 1#6
  | .addS32 => 2#6
  | .subS32 => 3#6
  | .mulS32 => 4#6
  | .mulhS32 => 5#6
  | .mulhZ32 => 6#6
  | .andW32 => 7#6
  | .orW32 => 8#6
  | .xorW32 => 9#6
  | .shlW32 => 10#6
  | .shrW32 => 11#6
  | .sarS32 => 12#6
  | .rotW32 => 13#6
  | .minS32 => 14#6
  | .maxS32 => 15#6
  | .minZ32 => 16#6
  | .maxZ32 => 17#6
  | .absS32 => 18#6
  | .clzW32 => 19#6
  | .popcW32 => 20#6
  | .brevW32 => 21#6
  | .faddF32 => 32#6
  | .fsubF32 => 33#6
  | .fmulF32 => 34#6
  | .fminF32 => 35#6
  | .fmaxF32 => 36#6
/-- The COp of a code, if it is listed. -/
def COp.ofCode? (c : BitVec 6) : Option COp :=
  match c.toNat with
  | 0 => some .nop
  | 1 => some .movW32
  | 2 => some .addS32
  | 3 => some .subS32
  | 4 => some .mulS32
  | 5 => some .mulhS32
  | 6 => some .mulhZ32
  | 7 => some .andW32
  | 8 => some .orW32
  | 9 => some .xorW32
  | 10 => some .shlW32
  | 11 => some .shrW32
  | 12 => some .sarS32
  | 13 => some .rotW32
  | 14 => some .minS32
  | 15 => some .maxS32
  | 16 => some .minZ32
  | 17 => some .maxZ32
  | 18 => some .absS32
  | 19 => some .clzW32
  | 20 => some .popcW32
  | 21 => some .brevW32
  | 32 => some .faddF32
  | 33 => some .fsubF32
  | 34 => some .fmulF32
  | 35 => some .fminF32
  | 36 => some .fmaxF32
  | _ => none

/-! ## Formats -/

/-- Format A, the three-source ALU and FP form (R91). -/
structure FormatA where
  opc : BitVec 8
  sub : BitVec 4
  d : BitVec 8
  a : BitVec 8
  b : BitVec 8
  c : BitVec 8
  mask : BitVec 3
  perm : BitVec 3
  parm : BitVec 5
  fmt : BitVec 3
  mod : BitVec 4
  deriving DecidableEq, Repr

/-- The fields of a word in this format. -/
def FormatA.of (w : Word64) : FormatA :=
  ⟨w.extractLsb' 54 8, w.extractLsb' 50 4, w.extractLsb' 42 8, w.extractLsb' 34 8, w.extractLsb' 26 8, w.extractLsb' 18 8, w.extractLsb' 15 3, w.extractLsb' 12 3, w.extractLsb' 7 5, w.extractLsb' 4 3, w.extractLsb' 0 4⟩

/-- The word of the fields in this format. -/
def FormatA.pack (f : FormatA) : Word64 :=
  cat 64 0#2 (cat 62 f.opc (cat 54 f.sub (cat 50 f.d (cat 42 f.a (cat 34 f.b (cat 26 f.c (cat 18 f.mask (cat 15 f.perm (cat 12 f.parm (cat 7 f.fmt (f.mod)))))))))))

/-- Format I, the immediate form (R93). -/
structure FormatI where
  opc : BitVec 8
  sub : BitVec 4
  d : BitVec 8
  a : BitVec 8
  mask : BitVec 3
  lit : BitVec 1
  mod : BitVec 6
  imm : BitVec 24
  deriving DecidableEq, Repr

/-- The fields of a word in this format. -/
def FormatI.of (w : Word64) : FormatI :=
  ⟨w.extractLsb' 54 8, w.extractLsb' 50 4, w.extractLsb' 42 8, w.extractLsb' 34 8, w.extractLsb' 31 3, w.extractLsb' 30 1, w.extractLsb' 24 6, w.extractLsb' 0 24⟩

/-- The word of the fields in this format. -/
def FormatI.pack (f : FormatI) : Word64 :=
  cat 64 0#2 (cat 62 f.opc (cat 54 f.sub (cat 50 f.d (cat 42 f.a (cat 34 f.mask (cat 31 f.lit (cat 30 f.mod (f.imm))))))))

/-- Format M, the memory form (R95). -/
structure FormatM where
  opc : BitVec 8
  noofs : BitVec 1
  sub : BitVec 3
  data : BitVec 8
  hnd : BitVec 4
  ofs : BitVec 8
  stream : BitVec 4
  look : BitVec 4
  tok : BitVec 3
  mask : BitVec 3
  size : BitVec 4
  disp : BitVec 12
  deriving DecidableEq, Repr

/-- The fields of a word in this format. -/
def FormatM.of (w : Word64) : FormatM :=
  ⟨w.extractLsb' 54 8, w.extractLsb' 53 1, w.extractLsb' 50 3, w.extractLsb' 42 8, w.extractLsb' 38 4, w.extractLsb' 30 8, w.extractLsb' 26 4, w.extractLsb' 22 4, w.extractLsb' 19 3, w.extractLsb' 16 3, w.extractLsb' 12 4, w.extractLsb' 0 12⟩

/-- The word of the fields in this format. -/
def FormatM.pack (f : FormatM) : Word64 :=
  cat 64 0#2 (cat 62 f.opc (cat 54 f.noofs (cat 53 f.sub (cat 50 f.data (cat 42 f.hnd (cat 38 f.ofs (cat 30 f.stream (cat 26 f.look (cat 22 f.tok (cat 19 f.mask (cat 16 f.size (f.disp))))))))))))

/-- Format B, the branch form (R97). -/
structure FormatB where
  opc : BitVec 8
  sub : BitVec 4
  cond : BitVec 8
  a : BitVec 8
  hint : BitVec 2
  disp : BitVec 32
  deriving DecidableEq, Repr

/-- The fields of a word in this format. -/
def FormatB.of (w : Word64) : FormatB :=
  ⟨w.extractLsb' 54 8, w.extractLsb' 50 4, w.extractLsb' 42 8, w.extractLsb' 34 8, w.extractLsb' 32 2, w.extractLsb' 0 32⟩

/-- The word of the fields in this format. -/
def FormatB.pack (f : FormatB) : Word64 :=
  cat 64 0#2 (cat 62 f.opc (cat 54 f.sub (cat 50 f.cond (cat 42 f.a (cat 34 f.hint (f.disp))))))

/-- Format X, the matrix, copy engine, event matrix and stack form (R99). -/
structure FormatX where
  opc : BitVec 8
  sub : BitVec 4
  osa : BitVec 5
  osb : BitVec 5
  acc : BitVec 3
  fmta : BitVec 3
  fmtb : BitVec 3
  kblka : BitVec 2
  kblkb : BitVec 2
  look : BitVec 4
  tok : BitVec 3
  cmd : BitVec 20
  deriving DecidableEq, Repr

/-- The fields of a word in this format. -/
def FormatX.of (w : Word64) : FormatX :=
  ⟨w.extractLsb' 54 8, w.extractLsb' 50 4, w.extractLsb' 45 5, w.extractLsb' 40 5, w.extractLsb' 37 3, w.extractLsb' 34 3, w.extractLsb' 31 3, w.extractLsb' 29 2, w.extractLsb' 27 2, w.extractLsb' 23 4, w.extractLsb' 20 3, w.extractLsb' 0 20⟩

/-- The word of the fields in this format. -/
def FormatX.pack (f : FormatX) : Word64 :=
  cat 64 0#2 (cat 62 f.opc (cat 54 f.sub (cat 50 f.osa (cat 45 f.osb (cat 40 f.acc (cat 37 f.fmta (cat 34 f.fmtb (cat 31 f.kblka (cat 29 f.kblkb (cat 27 f.look (cat 23 f.tok (f.cmd))))))))))))

/-- Format W, the wave form (R100). -/
structure FormatW where
  opc : BitVec 8
  sub : BitVec 4
  dmk : BitVec 6
  smk : BitVec 6
  etsel : BitVec 8
  comb : BitVec 4
  wave : BitVec 4
  hops : BitVec 8
  tok : BitVec 3
  wcmd : BitVec 11
  deriving DecidableEq, Repr

/-- The fields of a word in this format. -/
def FormatW.of (w : Word64) : FormatW :=
  ⟨w.extractLsb' 54 8, w.extractLsb' 50 4, w.extractLsb' 44 6, w.extractLsb' 38 6, w.extractLsb' 30 8, w.extractLsb' 26 4, w.extractLsb' 22 4, w.extractLsb' 14 8, w.extractLsb' 11 3, w.extractLsb' 0 11⟩

/-- The word of the fields in this format. -/
def FormatW.pack (f : FormatW) : Word64 :=
  cat 64 0#2 (cat 62 f.opc (cat 54 f.sub (cat 50 f.dmk (cat 44 f.smk (cat 38 f.etsel (cat 30 f.comb (cat 26 f.wave (cat 22 f.hops (cat 14 f.tok (f.wcmd))))))))))

/-- Format S, the system form (R101). -/
structure FormatS where
  opc : BitVec 8
  sub : BitVec 4
  d : BitVec 8
  a : BitVec 8
  csr : BitVec 12
  scmd : BitVec 22
  deriving DecidableEq, Repr

/-- The fields of a word in this format. -/
def FormatS.of (w : Word64) : FormatS :=
  ⟨w.extractLsb' 54 8, w.extractLsb' 50 4, w.extractLsb' 42 8, w.extractLsb' 34 8, w.extractLsb' 22 12, w.extractLsb' 0 22⟩

/-- The word of the fields in this format. -/
def FormatS.pack (f : FormatS) : Word64 :=
  cat 64 0#2 (cat 62 f.opc (cat 54 f.sub (cat 50 f.d (cat 42 f.a (cat 34 f.csr (f.scmd))))))

/-- The fields of SXRED in format X (R380). -/
structure FormatR where
  opc : BitVec 8
  sub : BitVec 4
  thnd : BitVec 4
  dhnd : BitVec 4
  efmt : BitVec 4
  stream : BitVec 4
  z1 : BitVec 4
  mask : BitVec 3
  look : BitVec 4
  tok : BitVec 3
  qd : BitVec 6
  rowlen : BitVec 8
  z2 : BitVec 6
  deriving DecidableEq, Repr

/-- The fields of a word in this format. -/
def FormatR.of (w : Word64) : FormatR :=
  ⟨w.extractLsb' 54 8, w.extractLsb' 50 4, w.extractLsb' 46 4, w.extractLsb' 42 4, w.extractLsb' 38 4, w.extractLsb' 34 4, w.extractLsb' 30 4, w.extractLsb' 27 3, w.extractLsb' 23 4, w.extractLsb' 20 3, w.extractLsb' 14 6, w.extractLsb' 6 8, w.extractLsb' 0 6⟩

/-- The word of the fields in this format. -/
def FormatR.pack (f : FormatR) : Word64 :=
  cat 64 0#2 (cat 62 f.opc (cat 54 f.sub (cat 50 f.thnd (cat 46 f.dhnd (cat 42 f.efmt (cat 38 f.stream (cat 34 f.z1 (cat 30 f.mask (cat 27 f.look (cat 23 f.tok (cat 20 f.qd (cat 14 f.rowlen (f.z2)))))))))))))

/-- The fields of SXBULK in format X (R383). -/
structure FormatK where
  opc : BitVec 8
  sub : BitVec 4
  rhnd : BitVec 4
  z1 : BitVec 8
  stream : BitVec 4
  z2 : BitVec 7
  look : BitVec 4
  tok : BitVec 3
  qd : BitVec 6
  len : BitVec 14
  deriving DecidableEq, Repr

/-- The fields of a word in this format. -/
def FormatK.of (w : Word64) : FormatK :=
  ⟨w.extractLsb' 54 8, w.extractLsb' 50 4, w.extractLsb' 46 4, w.extractLsb' 38 8, w.extractLsb' 34 4, w.extractLsb' 27 7, w.extractLsb' 23 4, w.extractLsb' 20 3, w.extractLsb' 14 6, w.extractLsb' 0 14⟩

/-- The word of the fields in this format. -/
def FormatK.pack (f : FormatK) : Word64 :=
  cat 64 0#2 (cat 62 f.opc (cat 54 f.sub (cat 50 f.rhnd (cat 46 f.z1 (cat 38 f.stream (cat 34 f.z2 (cat 27 f.look (cat 23 f.tok (cat 20 f.qd (f.len))))))))))

/-- SUB of a VOTE (R154): 0 over a mask register, the width code over a vector register. -/
def voteSub (k : VoteKind) (w64 : Bool) : BitVec 4 :=
  if k == .same || k == .allSame then (if w64 then 9#4 else 8#4) else 0#4

/-! ## One decoder per opcode -/

/-- Opcode 0x00: NOP (R118). -/
def dec00 (f : FormatA) : Except Reject Instr :=
  verdict
    [bad (f.sub != 0#4) 2 50 4,
     zeroF (f.d) 42,
     zeroF (f.a) 34,
     zeroF (f.b) 26,
     zeroF (f.c) 18,
     zeroF (f.mask) 15,
     zeroF (f.perm) 12,
     zeroF (f.parm) 7,
     zeroF (f.fmt) 4,
     zeroF (f.mod) 0]
    (.nop)

/-- Opcode 0x01: MOV (R119). -/
def dec01 (f : FormatA) : Except Reject Instr :=
  let ty := (IntTy.ofCode? f.sub).getD .s32
  verdict
    [bad ((IntTy.ofCode? f.sub).isNone || !tyBits ty) 2 50 4,
     zeroF (f.b) 26,
     zeroF (f.c) 18,
     bad (permBad f.perm) 3 12 3,
     bad (parmBad f.perm f.parm) 3 7 5,
     zeroF (f.fmt) 4,
     zeroF (f.mod) 0]
    (.mov ty f.d f.a (Perm.ofBits f.perm f.parm) f.mask)

/-- Opcode 0x02: MOVI (R120). -/
def dec02 (f : FormatI) (lit : BitVec 62) : Except Reject Instr :=
  let ty := (IntTy.ofCode? f.sub).getD .s32
  verdict
    [bad ((IntTy.ofCode? f.sub).isNone || !tyMovi ty) 2 50 4,
     zeroF (f.a) 34,
     zeroF (f.mod) 24,
     zeroIf (f.lit == 1#1) f.imm 0]
    (.movi ty f.d (Imm.ofBits f.lit f.imm lit) f.mask)

/-- Opcode 0x03: ADD (R121). -/
def dec03 (f : FormatA) : Except Reject Instr :=
  let ty := (IntTy.ofCode? f.sub).getD .s32
  let am := (AddMod.ofCode? f.mod).getD .wrap
  verdict
    [bad ((IntTy.ofCode? f.sub).isNone || !tyArith ty) 2 50 4,
     zeroF (f.c) 18,
     bad (permBad f.perm) 3 12 3,
     bad (parmBad f.perm f.parm) 3 7 5,
     zeroF (f.fmt) 4,
     bad ((AddMod.ofCode? f.mod).isNone) 3 0 4,
     bad (!(am != .wide || (ty == .s32 || ty == .z32))) 3 0 4]
    (.add ty am f.d f.a (Perm.ofBits f.perm f.parm) f.b f.mask)

/-- Opcode 0x04: SUB (R121). -/
def dec04 (f : FormatA) : Except Reject Instr :=
  let ty := (IntTy.ofCode? f.sub).getD .s32
  let am := (AddMod.ofCode? f.mod).getD .wrap
  verdict
    [bad ((IntTy.ofCode? f.sub).isNone || !tyArith ty) 2 50 4,
     zeroF (f.c) 18,
     bad (permBad f.perm) 3 12 3,
     bad (parmBad f.perm f.parm) 3 7 5,
     zeroF (f.fmt) 4,
     bad ((AddMod.ofCode? f.mod).isNone) 3 0 4,
     bad (!(am != .wide || (ty == .s32 || ty == .z32))) 3 0 4]
    (.sub ty am f.d f.a (Perm.ofBits f.perm f.parm) f.b f.mask)

/-- Opcode 0x05: ADDI (R121). -/
def dec05 (f : FormatI) (lit : BitVec 62) : Except Reject Instr :=
  let ty := (IntTy.ofCode? f.sub).getD .s32
  let am := (AddMod.ofCode? (f.mod.extractLsb' 0 4)).getD .wrap
  verdict
    [bad ((IntTy.ofCode? f.sub).isNone || !tyArith ty) 2 50 4,
     bad (f.mod.extractLsb' 4 2 != 0#2 || (AddMod.ofCode? (f.mod.extractLsb' 0 4)).isNone) 3 24 6,
     zeroIf (f.lit == 1#1) f.imm 0,
     bad (!(am != .wide || (ty == .s32 || ty == .z32))) 3 24 6]
    (.addi ty am f.d f.a (Imm.ofBits f.lit f.imm lit) f.mask)

/-- Opcode 0x06: MUL (R122). -/
def dec06 (f : FormatA) : Except Reject Instr :=
  let ty := (IntTy.ofCode? f.sub).getD .s32
  verdict
    [bad ((IntTy.ofCode? f.sub).isNone || !tyMul ty) 2 50 4,
     zeroF (f.c) 18,
     bad (permBad f.perm) 3 12 3,
     bad (parmBad f.perm f.parm) 3 7 5,
     zeroF (f.fmt) 4,
     zeroF (f.mod) 0]
    (.mul ty f.d f.a (Perm.ofBits f.perm f.parm) f.b f.mask)

/-- Opcode 0x07: MULH (R122). -/
def dec07 (f : FormatA) : Except Reject Instr :=
  let ty := (IntTy.ofCode? f.sub).getD .s32
  verdict
    [bad ((IntTy.ofCode? f.sub).isNone || !tyMul ty) 2 50 4,
     zeroF (f.c) 18,
     bad (permBad f.perm) 3 12 3,
     bad (parmBad f.perm f.parm) 3 7 5,
     zeroF (f.fmt) 4,
     zeroF (f.mod) 0]
    (.mulh ty f.d f.a (Perm.ofBits f.perm f.parm) f.b f.mask)

/-- Opcode 0x08: MAD (R122). -/
def dec08 (f : FormatA) : Except Reject Instr :=
  let ty := (IntTy.ofCode? f.sub).getD .s32
  verdict
    [bad ((IntTy.ofCode? f.sub).isNone || !tyMul ty) 2 50 4,
     bad (permBad f.perm) 3 12 3,
     bad (parmBad f.perm f.parm) 3 7 5,
     zeroF (f.fmt) 4,
     zeroF (f.mod) 0]
    (.mad ty f.d f.a (Perm.ofBits f.perm f.parm) f.b f.c f.mask)

/-- Opcode 0x09: IDIV (R123). -/
def dec09 (f : FormatA) : Except Reject Instr :=
  let ty := (IntTy.ofCode? f.sub).getD .s32
  verdict
    [bad ((IntTy.ofCode? f.sub).isNone || !tyMul ty) 2 50 4,
     bad (f.c.extractLsb' 3 5 != 0#5) 5 18 8,
     bad (permBad f.perm) 3 12 3,
     bad (parmBad f.perm f.parm) 3 7 5,
     zeroF (f.fmt) 4]
    (.idiv ty f.d f.a (Perm.ofBits f.perm f.parm) f.b (f.c.extractLsb' 0 3) f.mod f.mask)

/-- Opcode 0x0A: IREM (R123). -/
def dec0A (f : FormatA) : Except Reject Instr :=
  let ty := (IntTy.ofCode? f.sub).getD .s32
  verdict
    [bad ((IntTy.ofCode? f.sub).isNone || !tyMul ty) 2 50 4,
     bad (f.c.extractLsb' 3 5 != 0#5) 5 18 8,
     bad (permBad f.perm) 3 12 3,
     bad (parmBad f.perm f.parm) 3 7 5,
     zeroF (f.fmt) 4]
    (.irem ty f.d f.a (Perm.ofBits f.perm f.parm) f.b (f.c.extractLsb' 0 3) f.mod f.mask)

/-- Opcode 0x0B: AND (R124). -/
def dec0B (f : FormatA) : Except Reject Instr :=
  let ty := (IntTy.ofCode? f.sub).getD .s32
  verdict
    [bad ((IntTy.ofCode? f.sub).isNone || !tyBits ty) 2 50 4,
     zeroF (f.c) 18,
     bad (permBad f.perm) 3 12 3,
     bad (parmBad f.perm f.parm) 3 7 5,
     zeroF (f.fmt) 4,
     zeroF (f.mod) 0]
    (.and ty f.d f.a (Perm.ofBits f.perm f.parm) f.b f.mask)

/-- Opcode 0x0C: OR (R124). -/
def dec0C (f : FormatA) : Except Reject Instr :=
  let ty := (IntTy.ofCode? f.sub).getD .s32
  verdict
    [bad ((IntTy.ofCode? f.sub).isNone || !tyBits ty) 2 50 4,
     zeroF (f.c) 18,
     bad (permBad f.perm) 3 12 3,
     bad (parmBad f.perm f.parm) 3 7 5,
     zeroF (f.fmt) 4,
     zeroF (f.mod) 0]
    (.or ty f.d f.a (Perm.ofBits f.perm f.parm) f.b f.mask)

/-- Opcode 0x0D: XOR (R124). -/
def dec0D (f : FormatA) : Except Reject Instr :=
  let ty := (IntTy.ofCode? f.sub).getD .s32
  verdict
    [bad ((IntTy.ofCode? f.sub).isNone || !tyBits ty) 2 50 4,
     zeroF (f.c) 18,
     bad (permBad f.perm) 3 12 3,
     bad (parmBad f.perm f.parm) 3 7 5,
     zeroF (f.fmt) 4,
     zeroF (f.mod) 0]
    (.xor ty f.d f.a (Perm.ofBits f.perm f.parm) f.b f.mask)

/-- Opcode 0x0E: LOGI (R125). -/
def dec0E (f : FormatI) (lit : BitVec 62) : Except Reject Instr :=
  let ty := (IntTy.ofCode? f.sub).getD .s32
  let kind := (LogiKind.ofCode? f.mod).getD .land
  verdict
    [bad ((IntTy.ofCode? f.sub).isNone || !tyBits ty) 2 50 4,
     bad ((LogiKind.ofCode? f.mod).isNone) 3 24 6,
     zeroIf (f.lit == 1#1) f.imm 0]
    (.logi kind ty f.d f.a (Imm.ofBits f.lit f.imm lit) f.mask)

/-- Opcode 0x0F: SHL (R126). -/
def dec0F (f : FormatA) : Except Reject Instr :=
  let ty := (IntTy.ofCode? f.sub).getD .s32
  verdict
    [bad ((IntTy.ofCode? f.sub).isNone || !tyBits ty) 2 50 4,
     zeroF (f.c) 18,
     bad (permBad f.perm) 3 12 3,
     bad (parmBad f.perm f.parm) 3 7 5,
     zeroF (f.fmt) 4,
     zeroF (f.mod) 0]
    (.shl ty f.d f.a (Perm.ofBits f.perm f.parm) f.b f.mask)

/-- Opcode 0x10: SHR (R126). -/
def dec10 (f : FormatA) : Except Reject Instr :=
  let ty := (IntTy.ofCode? f.sub).getD .s32
  verdict
    [bad ((IntTy.ofCode? f.sub).isNone || !tyBits ty) 2 50 4,
     zeroF (f.c) 18,
     bad (permBad f.perm) 3 12 3,
     bad (parmBad f.perm f.parm) 3 7 5,
     zeroF (f.fmt) 4,
     zeroF (f.mod) 0]
    (.shr ty f.d f.a (Perm.ofBits f.perm f.parm) f.b f.mask)

/-- Opcode 0x11: SAR (R126). -/
def dec11 (f : FormatA) : Except Reject Instr :=
  let ty := (IntTy.ofCode? f.sub).getD .s32
  verdict
    [bad ((IntTy.ofCode? f.sub).isNone || !tySar ty) 2 50 4,
     zeroF (f.c) 18,
     bad (permBad f.perm) 3 12 3,
     bad (parmBad f.perm f.parm) 3 7 5,
     zeroF (f.fmt) 4,
     zeroF (f.mod) 0]
    (.sar ty f.d f.a (Perm.ofBits f.perm f.parm) f.b f.mask)

/-- Opcode 0x12: ROT (R126). -/
def dec12 (f : FormatA) : Except Reject Instr :=
  let ty := (IntTy.ofCode? f.sub).getD .s32
  verdict
    [bad ((IntTy.ofCode? f.sub).isNone || !tyBits ty) 2 50 4,
     zeroF (f.c) 18,
     bad (permBad f.perm) 3 12 3,
     bad (parmBad f.perm f.parm) 3 7 5,
     zeroF (f.fmt) 4,
     zeroF (f.mod) 0]
    (.rot ty f.d f.a (Perm.ofBits f.perm f.parm) f.b f.mask)

/-- Opcode 0x13: SHI (R127). -/
def dec13 (f : FormatI) : Except Reject Instr :=
  let ty := (IntTy.ofCode? f.sub).getD .s32
  let kind := (ShiKind.ofCode? f.mod).getD .l
  let n := f.imm
  verdict
    [bad ((IntTy.ofCode? f.sub).isNone || !tyShi ty) 2 50 4,
     zeroF (f.lit) 30,
     bad ((ShiKind.ofCode? f.mod).isNone) 3 24 6,
     bad ((ShiKind.ofCode? f.mod).isSome && !((if kind == .a then ty == .s32 || ty == .s64 else ty == .w32 || ty == .w64))) 2 50 4,
     bad (!(decide (n.toNat < ty.width))) 3 0 24]
    (.shi kind ty f.d f.a n f.mask)

/-- Opcode 0x14: CLZ (R128). -/
def dec14 (f : FormatA) : Except Reject Instr :=
  let ty := (IntTy.ofCode? f.sub).getD .s32
  verdict
    [bad ((IntTy.ofCode? f.sub).isNone || !tyBits ty) 2 50 4,
     zeroF (f.b) 26,
     zeroF (f.c) 18,
     bad (permBad f.perm) 3 12 3,
     bad (parmBad f.perm f.parm) 3 7 5,
     zeroF (f.fmt) 4,
     zeroF (f.mod) 0]
    (.clz ty f.d f.a (Perm.ofBits f.perm f.parm) f.mask)

/-- Opcode 0x15: POPC (R128). -/
def dec15 (f : FormatA) : Except Reject Instr :=
  let ty := (IntTy.ofCode? f.sub).getD .s32
  verdict
    [bad ((IntTy.ofCode? f.sub).isNone || !tyBits ty) 2 50 4,
     zeroF (f.b) 26,
     zeroF (f.c) 18,
     bad (permBad f.perm) 3 12 3,
     bad (parmBad f.perm f.parm) 3 7 5,
     zeroF (f.fmt) 4,
     zeroF (f.mod) 0]
    (.popc ty f.d f.a (Perm.ofBits f.perm f.parm) f.mask)

/-- Opcode 0x16: BREV (R128). -/
def dec16 (f : FormatA) : Except Reject Instr :=
  let ty := (IntTy.ofCode? f.sub).getD .s32
  verdict
    [bad ((IntTy.ofCode? f.sub).isNone || !tyBits ty) 2 50 4,
     zeroF (f.b) 26,
     zeroF (f.c) 18,
     bad (permBad f.perm) 3 12 3,
     bad (parmBad f.perm f.parm) 3 7 5,
     zeroF (f.fmt) 4,
     zeroF (f.mod) 0]
    (.brev ty f.d f.a (Perm.ofBits f.perm f.parm) f.mask)

/-- Opcode 0x17: MIN (R129). -/
def dec17 (f : FormatA) : Except Reject Instr :=
  let ty := (IntTy.ofCode? f.sub).getD .s32
  verdict
    [bad ((IntTy.ofCode? f.sub).isNone || !tyArith ty) 2 50 4,
     zeroF (f.c) 18,
     bad (permBad f.perm) 3 12 3,
     bad (parmBad f.perm f.parm) 3 7 5,
     zeroF (f.fmt) 4,
     zeroF (f.mod) 0]
    (.min ty f.d f.a (Perm.ofBits f.perm f.parm) f.b f.mask)

/-- Opcode 0x18: MAX (R129). -/
def dec18 (f : FormatA) : Except Reject Instr :=
  let ty := (IntTy.ofCode? f.sub).getD .s32
  verdict
    [bad ((IntTy.ofCode? f.sub).isNone || !tyArith ty) 2 50 4,
     zeroF (f.c) 18,
     bad (permBad f.perm) 3 12 3,
     bad (parmBad f.perm f.parm) 3 7 5,
     zeroF (f.fmt) 4,
     zeroF (f.mod) 0]
    (.max ty f.d f.a (Perm.ofBits f.perm f.parm) f.b f.mask)

/-- Opcode 0x19: ABS (R129). -/
def dec19 (f : FormatA) : Except Reject Instr :=
  let ty := (IntTy.ofCode? f.sub).getD .s32
  let sat := (f.mod.extractLsb' 0 1) == 1#1
  verdict
    [bad ((IntTy.ofCode? f.sub).isNone || !tyAbs ty) 2 50 4,
     zeroF (f.b) 26,
     zeroF (f.c) 18,
     bad (permBad f.perm) 3 12 3,
     bad (parmBad f.perm f.parm) 3 7 5,
     zeroF (f.fmt) 4,
     zeroF (f.mod.extractLsb' 1 3) 1]
    (.abs ty sat f.d f.a (Perm.ofBits f.perm f.parm) f.mask)

/-- Opcode 0x1A: SEL (R130). -/
def dec1A (f : FormatA) : Except Reject Instr :=
  let ty := (IntTy.ofCode? f.sub).getD .s32
  verdict
    [bad ((IntTy.ofCode? f.sub).isNone || !tyBits ty) 2 50 4,
     bad (f.c.extractLsb' 3 5 != 0#5) 5 18 8,
     bad (permBad f.perm) 3 12 3,
     bad (parmBad f.perm f.parm) 3 7 5,
     zeroF (f.fmt) 4,
     zeroF (f.mod) 0]
    (.sel ty f.d f.a (Perm.ofBits f.perm f.parm) f.b (f.c.extractLsb' 0 3) f.mask)

/-- Opcode 0x1B: CMP (R131). -/
def dec1B (f : FormatA) : Except Reject Instr :=
  let ty := (IntTy.ofCode? f.sub).getD .s32
  let cond := (Cond.ofCode? f.mod).getD .eq
  verdict
    [bad ((IntTy.ofCode? f.sub).isNone || !tyArith ty) 2 50 4,
     bad (f.d.extractLsb' 3 5 != 0#5 || f.d.extractLsb' 0 3 == 0#3) 5 42 8,
     zeroF (f.c) 18,
     bad (permBad f.perm) 3 12 3,
     bad (parmBad f.perm f.parm) 3 7 5,
     zeroF (f.fmt) 4,
     bad ((Cond.ofCode? f.mod).isNone) 3 0 4]
    (.cmp cond ty (f.d.extractLsb' 0 3) f.a (Perm.ofBits f.perm f.parm) f.b f.mask)

/-- Opcode 0x1C: CMPI (R131). -/
def dec1C (f : FormatI) (lit : BitVec 62) : Except Reject Instr :=
  let ty := (IntTy.ofCode? f.sub).getD .s32
  let cond := (Cond.ofCode? (f.mod.extractLsb' 0 4)).getD .eq
  verdict
    [bad ((IntTy.ofCode? f.sub).isNone || !tyArith ty) 2 50 4,
     bad (f.d.extractLsb' 3 5 != 0#5 || f.d.extractLsb' 0 3 == 0#3) 5 42 8,
     bad (f.mod.extractLsb' 4 2 != 0#2 || (Cond.ofCode? (f.mod.extractLsb' 0 4)).isNone) 3 24 6,
     zeroIf (f.lit == 1#1) f.imm 0]
    (.cmpi cond ty (f.d.extractLsb' 0 3) f.a (Imm.ofBits f.lit f.imm lit) f.mask)

/-- Opcode 0x1D: BFE (R132). -/
def dec1D (f : FormatA) : Except Reject Instr :=
  let ty := (IntTy.ofCode? f.sub).getD .s32
  verdict
    [bad ((IntTy.ofCode? f.sub).isNone || !tyMul ty) 2 50 4,
     zeroF (f.c) 18,
     bad (permBad f.perm) 3 12 3,
     bad (parmBad f.perm f.parm) 3 7 5,
     zeroF (f.fmt) 4,
     zeroF (f.mod) 0]
    (.bfe ty f.d f.a (Perm.ofBits f.perm f.parm) f.b f.mask)

/-- Opcode 0x1E: BFI (R132). -/
def dec1E (f : FormatA) : Except Reject Instr :=
  let ty := (IntTy.ofCode? f.sub).getD .s32
  verdict
    [bad ((IntTy.ofCode? f.sub).isNone || !tyBits ty) 2 50 4,
     bad (permBad f.perm) 3 12 3,
     bad (parmBad f.perm f.parm) 3 7 5,
     zeroF (f.fmt) 4,
     zeroF (f.mod) 0]
    (.bfi ty f.d f.a (Perm.ofBits f.perm f.parm) f.b f.c f.mask)

/-- Opcode 0x1F: LEA (R133). -/
def dec1F (f : FormatM) : Except Reject Instr :=
  let size := (Size.ofCode? f.size).getD .w8
  verdict
    [bad (f.sub != 0#3) 2 50 3,
     zeroIf (f.noofs == 1#1) f.ofs 30,
     zeroF (f.stream) 26,
     bad ((Size.ofCode? f.size).isNone || !szLea size) 3 12 4]
    (.lea size f.data (MemRef.ofBits f.noofs f.hnd f.ofs f.disp) f.look f.tok f.mask)

/-- Opcode 0x20: IDS (R134). -/
def dec20 (f : FormatA) : Except Reject Instr :=
  let q := (IdsQuery.ofCode? f.mod).getD .lane
  verdict
    [bad (f.sub != 0#4) 2 50 4,
     zeroF (f.a) 34,
     zeroF (f.b) 26,
     zeroF (f.c) 18,
     zeroF (f.perm) 12,
     zeroF (f.parm) 7,
     zeroF (f.fmt) 4,
     bad ((IdsQuery.ofCode? f.mod).isNone) 3 0 4]
    (.ids q f.d f.mask)

/-- Opcode 0x21: MLOG (R135). -/
def dec21 (f : FormatA) : Except Reject Instr :=
  let kind := (MlogKind.ofCode? f.mod).getD .land
  let mb := f.b.extractLsb' 0 3
  verdict
    [bad (f.sub != 0#4) 2 50 4,
     bad (f.d.extractLsb' 3 5 != 0#5 || f.d.extractLsb' 0 3 == 0#3) 5 42 8,
     bad (f.a.extractLsb' 3 5 != 0#5) 5 34 8,
     bad (!(kind == .lnot || kind == .mov) && f.b.extractLsb' 3 5 != 0#5) 5 26 8,
     zeroF (f.c) 18,
     zeroF (f.perm) 12,
     zeroF (f.parm) 7,
     zeroF (f.fmt) 4,
     bad ((MlogKind.ofCode? f.mod).isNone) 3 0 4,
     zeroIf (kind == .lnot || kind == .mov) (f.b.extractLsb' 3 5) 29,
     zeroIf (kind == .lnot || kind == .mov) mb 26]
    (.mlog kind (f.d.extractLsb' 0 3) (f.a.extractLsb' 0 3) mb f.mask)

/-- Opcode 0x22: MPOP (R136). -/
def dec22 (f : FormatA) : Except Reject Instr :=
  verdict
    [bad (f.sub != 0#4) 2 50 4,
     bad (f.a.extractLsb' 3 5 != 0#5) 5 34 8,
     zeroF (f.b) 26,
     zeroF (f.c) 18,
     zeroF (f.perm) 12,
     zeroF (f.parm) 7,
     zeroF (f.fmt) 4,
     zeroF (f.mod) 0]
    (.mpop f.d (f.a.extractLsb' 0 3) f.mask)

/-- Opcode 0x23: MFIRST (R136). -/
def dec23 (f : FormatA) : Except Reject Instr :=
  verdict
    [bad (f.sub != 0#4) 2 50 4,
     bad (f.a.extractLsb' 3 5 != 0#5) 5 34 8,
     zeroF (f.b) 26,
     zeroF (f.c) 18,
     zeroF (f.perm) 12,
     zeroF (f.parm) 7,
     zeroF (f.fmt) 4,
     zeroF (f.mod) 0]
    (.mfirst f.d (f.a.extractLsb' 0 3) f.mask)

/-- Opcode 0x24: MSET (R137). -/
def dec24 (f : FormatI) : Except Reject Instr :=
  let kind := (MsetKind.ofCode? f.mod).getD .pat
  let imm := f.imm
  verdict
    [bad (f.sub != 0#4) 2 50 4,
     bad (f.d.extractLsb' 3 5 != 0#5 || f.d.extractLsb' 0 3 == 0#3) 5 42 8,
     zeroF (f.a) 34,
     zeroF (f.lit) 30,
     bad ((MsetKind.ofCode? f.mod).isNone) 3 24 6,
     bad (!(kind != .first || decide (imm.toNat ≤ 32))) 3 0 24]
    (.mset kind (f.d.extractLsb' 0 3) imm f.mask)

/-- Opcode 0x30: BR (R139). -/
def dec30 (f : FormatB) : Except Reject Instr :=
  let sense := (BrSense.ofCode? f.sub).getD .t
  let hint := (Hint.ofCode? f.hint).getD .none
  verdict
    [bad ((BrSense.ofCode? f.sub).isNone) 2 50 4,
     bad (f.cond.extractLsb' 3 5 != 0#5) 5 42 8,
     zeroF (f.a) 34,
     bad ((Hint.ofCode? f.hint).isNone) 3 32 2]
    (.br sense (f.cond.extractLsb' 0 3) hint f.disp)

/-- Opcode 0x31: BRM (R140). -/
def dec31 (f : FormatB) : Except Reject Instr :=
  let kind := (BrmKind.ofCode? f.sub).getD .any
  let hint := (Hint.ofCode? f.hint).getD .none
  verdict
    [bad ((BrmKind.ofCode? f.sub).isNone) 2 50 4,
     bad (f.cond.extractLsb' 3 5 != 0#5) 5 42 8,
     zeroF (f.a) 34,
     bad ((Hint.ofCode? f.hint).isNone) 3 32 2]
    (.brm kind (f.cond.extractLsb' 0 3) hint f.disp)

/-- Opcode 0x32: CALL (R141). -/
def dec32 (f : FormatB) : Except Reject Instr :=
  let hint := (Hint.ofCode? f.hint).getD .none
  verdict
    [bad (f.sub != 0#4) 2 50 4,
     zeroF (f.a) 34,
     bad ((Hint.ofCode? f.hint).isNone) 3 32 2]
    (.call f.cond hint f.disp)

/-- Opcode 0x33: CALLI (R142). -/
def dec33 (f : FormatA) : Except Reject Instr :=
  verdict
    [bad (f.sub != 0#4) 2 50 4,
     zeroF (f.b) 26,
     zeroF (f.c) 18,
     zeroF (f.perm) 12,
     zeroF (f.parm) 7,
     zeroF (f.fmt) 4,
     zeroF (f.mod) 0]
    (.calli f.d f.a f.mask)

/-- Opcode 0x34: RET (R143). -/
def dec34 (f : FormatA) : Except Reject Instr :=
  verdict
    [bad (f.sub != 0#4) 2 50 4,
     zeroF (f.d) 42,
     zeroF (f.b) 26,
     zeroF (f.c) 18,
     zeroF (f.perm) 12,
     zeroF (f.parm) 7,
     zeroF (f.fmt) 4,
     zeroF (f.mod) 0]
    (.ret f.a f.mask)

/-- Opcode 0x35: JMPI (R142). -/
def dec35 (f : FormatA) : Except Reject Instr :=
  verdict
    [bad (f.sub != 0#4) 2 50 4,
     zeroF (f.d) 42,
     zeroF (f.b) 26,
     zeroF (f.c) 18,
     zeroF (f.perm) 12,
     zeroF (f.parm) 7,
     zeroF (f.fmt) 4,
     zeroF (f.mod) 0]
    (.jmpi f.a f.mask)

/-- Opcode 0x36: REGANG (R144). -/
def dec36 (f : FormatA) : Except Reject Instr :=
  verdict
    [bad (f.sub != 0#4) 2 50 4,
     zeroF (f.d) 42,
     zeroF (f.a) 34,
     zeroF (f.b) 26,
     zeroF (f.c) 18,
     zeroF (f.mask) 15,
     zeroF (f.perm) 12,
     zeroF (f.parm) 7,
     zeroF (f.fmt) 4,
     zeroF (f.mod) 0]
    (.regang)

/-- Opcode 0x37: EXIT (R145). -/
def dec37 (f : FormatA) : Except Reject Instr :=
  verdict
    [bad (f.sub != 0#4) 2 50 4,
     zeroF (f.d) 42,
     zeroF (f.a) 34,
     zeroF (f.b) 26,
     zeroF (f.c) 18,
     zeroF (f.perm) 12,
     zeroF (f.parm) 7,
     zeroF (f.fmt) 4,
     zeroF (f.mod) 0]
    (.exit f.mask)

/-- Opcode 0x38: WAITTOK (R146). -/
def dec38 (f : FormatI) : Except Reject Instr :=
  verdict
    [bad (f.sub != 0#4) 2 50 4,
     zeroF (f.d) 42,
     zeroF (f.a) 34,
     zeroF (f.mask) 31,
     zeroF (f.lit) 30,
     zeroF (f.mod) 24,
     zeroF (f.imm.extractLsb' 8 16) 8,
     zeroF (f.imm.extractLsb' 0 1) 0]
    (.waittok ((f.imm.extractLsb' 1 7)))

/-- Opcode 0x40: SHFL (R150). -/
def dec40 (f : FormatA) : Except Reject Instr :=
  let wd := (Wd.ofCode? f.sub).getD .w32
  let mode := (ShflMode.ofCode? f.mod).getD .abs
  verdict
    [bad ((Wd.ofCode? f.sub).isNone) 2 50 4,
     zeroF (f.c) 18,
     zeroF (f.perm) 12,
     zeroF (f.parm) 7,
     zeroF (f.fmt) 4,
     bad ((ShflMode.ofCode? f.mod).isNone) 3 0 4]
    (.shfl mode wd f.d f.a f.b f.mask)

/-- Opcode 0x41: BCAST (R151). -/
def dec41 (f : FormatA) : Except Reject Instr :=
  let wd := (Wd.ofCode? f.sub).getD .w32
  let pick := (BcastSel.ofCode? f.mod).getD .first
  let b := f.b
  verdict
    [bad ((Wd.ofCode? f.sub).isNone) 2 50 4,
     zeroF (f.c) 18,
     zeroF (f.perm) 12,
     zeroF (f.parm) 7,
     zeroF (f.fmt) 4,
     bad ((BcastSel.ofCode? f.mod).isNone) 3 0 4,
     zeroIf (pick != .idx) b 26]
    (.bcast pick wd f.d f.a b f.mask)

/-- Opcode 0x42: REDUCE (R152). -/
def dec42 (f : FormatA) : Except Reject Instr :=
  let op := (RedOp.ofCode? f.sub).getD .addW32
  verdict
    [bad ((RedOp.ofCode? f.sub).isNone) 2 50 4,
     zeroF (f.b) 26,
     zeroF (f.c) 18,
     zeroF (f.perm) 12,
     zeroF (f.parm) 7,
     zeroF (f.fmt) 4]
    (.reduce op f.d f.a f.mod f.mask)

/-- Opcode 0x43: SCAN (R153). -/
def dec43 (f : FormatA) : Except Reject Instr :=
  let op := (RedOp.ofCode? f.sub).getD .addW32
  verdict
    [bad ((RedOp.ofCode? f.sub).isNone) 2 50 4,
     zeroF (f.b) 26,
     zeroF (f.c) 18,
     zeroF (f.perm) 12,
     zeroF (f.parm) 7,
     zeroF (f.fmt) 4]
    (.scan op f.d f.a f.mod f.mask)

/-- Opcode 0x44: VOTE (R154). -/
def dec44 (f : FormatA) : Except Reject Instr :=
  let kind := (VoteKind.ofCode? f.mod).getD .any
  let w64 := f.sub == 9#4
  let a := f.a
  verdict
    [bad (f.sub != 0#4 && f.sub != 8#4 && f.sub != 9#4) 2 50 4,
     bad ((VoteKind.ofCode? f.mod).isSome && f.sub != voteSub kind w64) 2 50 4,
     bad (f.d.extractLsb' 3 5 != 0#5 || f.d.extractLsb' 0 3 == 0#3) 5 42 8,
     zeroF (f.b) 26,
     zeroF (f.c) 18,
     zeroF (f.perm) 12,
     zeroF (f.parm) 7,
     zeroF (f.fmt) 4,
     bad ((VoteKind.ofCode? f.mod).isNone) 3 0 4,
     bad (!(kind == .same || kind == .allSame || decide (a.toNat < 8))) 5 34 8]
    (.vote kind w64 (f.d.extractLsb' 0 3) a f.mask)

/-- Opcode 0x45: BALLOT (R155). -/
def dec45 (f : FormatA) : Except Reject Instr :=
  let kind := (BallotKind.ofCode? f.mod).getD .word
  verdict
    [bad (f.sub != 0#4) 2 50 4,
     bad (f.a.extractLsb' 3 5 != 0#5) 5 34 8,
     zeroF (f.b) 26,
     zeroF (f.c) 18,
     zeroF (f.perm) 12,
     zeroF (f.parm) 7,
     zeroF (f.fmt) 4,
     bad ((BallotKind.ofCode? f.mod).isNone) 3 0 4]
    (.ballot kind f.d (f.a.extractLsb' 0 3) f.mask)

/-- Opcode 0x46: DOT4 (R156). -/
def dec46 (f : FormatA) : Except Reject Instr :=
  let ty := (Dot4Ty.ofCode? f.sub).getD .s8
  let sat := (f.mod.extractLsb' 0 1) == 1#1
  let fmt := f.fmt
  verdict
    [bad ((Dot4Ty.ofCode? f.sub).isNone) 2 50 4,
     bad (permBad f.perm) 3 12 3,
     bad (parmBad f.perm f.parm) 3 7 5,
     zeroF (f.mod.extractLsb' 1 3) 1,
     bad (!(!sat || (ty == .s8 || ty == .z8 || ty == .slot))) 3 0 4,
     zeroIf (ty != .slot) fmt 4]
    (.dot4 ty sat f.d f.a (Perm.ofBits f.perm f.parm) f.b f.c fmt f.mask)

/-- Opcode 0x47: DOT8 (R156). -/
def dec47 (f : FormatA) : Except Reject Instr :=
  let ty := (Dot8Ty.ofCode? f.sub).getD .s4
  let sat := (f.mod.extractLsb' 0 1) == 1#1
  let fmt := f.fmt
  verdict
    [bad ((Dot8Ty.ofCode? f.sub).isNone) 2 50 4,
     bad (permBad f.perm) 3 12 3,
     bad (parmBad f.perm f.parm) 3 7 5,
     zeroF (f.mod.extractLsb' 1 3) 1,
     bad (!(!sat || (ty == .s4 || ty == .z4 || ty == .slot))) 3 0 4,
     zeroIf (ty != .slot) fmt 4]
    (.dot8 ty sat f.d f.a (Perm.ofBits f.perm f.parm) f.b f.c fmt f.mask)

/-- Opcode 0x48: PACK (R159). -/
def dec48 (f : FormatA) : Except Reject Instr :=
  let ty := (PackTy.ofCode? f.sub).getD .s16
  let sat := (f.mod.extractLsb' 3 1) == 1#1
  let j := (f.mod.extractLsb' 0 2)
  let c := f.c
  verdict
    [bad ((PackTy.ofCode? f.sub).isNone) 2 50 4,
     bad (permBad f.perm) 3 12 3,
     bad (parmBad f.perm f.parm) 3 7 5,
     zeroF (f.fmt) 4,
     zeroF (f.mod.extractLsb' 2 1) 2,
     bad (!(decide (j.toNat < ty.pairs))) 3 0 4,
     zeroIf (ty.width == 16) c 18]
    (.pack ty sat f.d f.a (Perm.ofBits f.perm f.parm) f.b c j f.mask)

/-- Opcode 0x49: UNPACK (R160). -/
def dec49 (f : FormatA) : Except Reject Instr :=
  let ty := (PackTy.ofCode? f.sub).getD .s16
  let n := (f.mod.extractLsb' 0 3)
  verdict
    [bad ((PackTy.ofCode? f.sub).isNone) 2 50 4,
     zeroF (f.b) 26,
     zeroF (f.c) 18,
     bad (permBad f.perm) 3 12 3,
     bad (parmBad f.perm f.parm) 3 7 5,
     zeroF (f.fmt) 4,
     zeroF (f.mod.extractLsb' 3 1) 3,
     bad (!(decide (n.toNat < 2 * ty.pairs))) 3 0 4]
    (.unpack ty f.d f.a (Perm.ofBits f.perm f.parm) n f.mask)

/-- Opcode 0x4A: CLMUL (R161). -/
def dec4A (f : FormatA) : Except Reject Instr :=
  let wd := (Wd.ofCode? f.sub).getD .w32
  let hi := (f.mod.extractLsb' 0 1) == 1#1
  verdict
    [bad ((Wd.ofCode? f.sub).isNone) 2 50 4,
     zeroF (f.c) 18,
     bad (permBad f.perm) 3 12 3,
     bad (parmBad f.perm f.parm) 3 7 5,
     zeroF (f.fmt) 4,
     bad ((f.mod.extractLsb' 1 3) != 0#3) 3 0 4,
     bad (!(wd == .w64 || !hi)) 3 0 4]
    (.clmul wd hi f.d f.a (Perm.ofBits f.perm f.parm) f.b f.mask)

/-- Opcode 0x4B: BYTEPERM (R162). -/
def dec4B (f : FormatA) : Except Reject Instr :=
  verdict
    [bad (f.sub != 8#4) 2 50 4,
     bad (permBad f.perm) 3 12 3,
     bad (parmBad f.perm f.parm) 3 7 5,
     zeroF (f.fmt) 4,
     zeroF (f.mod) 0]
    (.byteperm f.d f.a (Perm.ofBits f.perm f.parm) f.b f.c f.mask)

/-- Opcode 0x4C: REBAL (R163). -/
def dec4C (f : FormatA) : Except Reject Instr :=
  let wd := (Wd.ofCode? f.sub).getD .w32
  let mode := (RebalMode.ofCode? f.mod).getD .pack
  verdict
    [bad ((Wd.ofCode? f.sub).isNone) 2 50 4,
     zeroF (f.b) 26,
     bad (f.c.extractLsb' 3 5 != 0#5) 5 18 8,
     zeroF (f.perm) 12,
     zeroF (f.parm) 7,
     zeroF (f.fmt) 4,
     bad ((RebalMode.ofCode? f.mod).isNone) 3 0 4]
    (.rebal mode wd f.d f.a (f.c.extractLsb' 0 3) f.mask)

/-- Opcode 0x4D: SHAPE_GET, SHAPE_FIT (R164). -/
def dec4D (f : FormatA) : Except Reject Instr :=
  if f.mod == 0#4 then
    verdict
      [bad (f.sub != 0#4) 2 50 4,
       zeroF (f.b) 26,
       zeroF (f.c) 18,
       zeroF (f.perm) 12,
       zeroF (f.parm) 7,
       zeroF (f.fmt) 4]
      (.shapeGet f.d f.a f.mask)
  else if f.mod == 1#4 then
    let wd := (Wd.ofCode? f.sub).getD .w32
    verdict
      [bad ((Wd.ofCode? f.sub).isNone) 2 50 4,
       zeroF (f.b) 26,
       zeroF (f.c) 18,
       zeroF (f.perm) 12,
       zeroF (f.parm) 7,
       zeroF (f.fmt) 4]
      (.shapeFit wd f.d f.a f.mask)
  else
    verdict [bad (f.sub != 0#4 && f.sub != 8#4 && f.sub != 9#4) 2 50 4, bad true 3 0 4] .nop

/-- Opcode 0x4E: IOTA (R165). -/
def dec4E (f : FormatI) : Except Reject Instr :=
  let ty := (IntTy.ofCode? f.sub).getD .s32
  verdict
    [bad ((IntTy.ofCode? f.sub).isNone || !tyIota ty) 2 50 4,
     zeroF (f.a) 34,
     zeroF (f.lit) 30]
    (.iota ty f.d f.imm f.mod f.mask)

/-- Opcode 0x60: FADD (R197). -/
def dec60 (f : FormatA) : Except Reject Instr :=
  let cls := (FpCls.ofCode? f.sub).getD .f32
  verdict
    [bad ((FpCls.ofCode? f.sub).isNone) 2 50 4,
     zeroF (f.c) 18,
     bad (permBad f.perm) 3 12 3,
     bad (parmBad f.perm f.parm) 3 7 5,
     zeroF (f.fmt) 4,
     zeroF (f.mod) 0]
    (.fadd cls f.d f.a (Perm.ofBits f.perm f.parm) f.b f.mask)

/-- Opcode 0x61: FSUB (R197). -/
def dec61 (f : FormatA) : Except Reject Instr :=
  let cls := (FpCls.ofCode? f.sub).getD .f32
  verdict
    [bad ((FpCls.ofCode? f.sub).isNone) 2 50 4,
     zeroF (f.c) 18,
     bad (permBad f.perm) 3 12 3,
     bad (parmBad f.perm f.parm) 3 7 5,
     zeroF (f.fmt) 4,
     zeroF (f.mod) 0]
    (.fsub cls f.d f.a (Perm.ofBits f.perm f.parm) f.b f.mask)

/-- Opcode 0x62: FMUL (R197). -/
def dec62 (f : FormatA) : Except Reject Instr :=
  let cls := (FpCls.ofCode? f.sub).getD .f32
  verdict
    [bad ((FpCls.ofCode? f.sub).isNone) 2 50 4,
     zeroF (f.c) 18,
     bad (permBad f.perm) 3 12 3,
     bad (parmBad f.perm f.parm) 3 7 5,
     zeroF (f.fmt) 4,
     zeroF (f.mod) 0]
    (.fmul cls f.d f.a (Perm.ofBits f.perm f.parm) f.b f.mask)

/-- Opcode 0x63: FFMA (R198). -/
def dec63 (f : FormatA) : Except Reject Instr :=
  let cls := (FpCls.ofCode? f.sub).getD .f32
  verdict
    [bad ((FpCls.ofCode? f.sub).isNone) 2 50 4,
     bad (permBad f.perm) 3 12 3,
     bad (parmBad f.perm f.parm) 3 7 5,
     zeroF (f.fmt) 4,
     zeroF (f.mod) 0]
    (.ffma cls f.d f.a (Perm.ofBits f.perm f.parm) f.b f.c f.mask)

/-- Opcode 0x64: FMIN (R199). -/
def dec64 (f : FormatA) : Except Reject Instr :=
  let cls := (FpCls.ofCode? f.sub).getD .f32
  verdict
    [bad ((FpCls.ofCode? f.sub).isNone) 2 50 4,
     zeroF (f.c) 18,
     bad (permBad f.perm) 3 12 3,
     bad (parmBad f.perm f.parm) 3 7 5,
     zeroF (f.fmt) 4,
     zeroF (f.mod) 0]
    (.fmin cls f.d f.a (Perm.ofBits f.perm f.parm) f.b f.mask)

/-- Opcode 0x65: FMAX (R199). -/
def dec65 (f : FormatA) : Except Reject Instr :=
  let cls := (FpCls.ofCode? f.sub).getD .f32
  verdict
    [bad ((FpCls.ofCode? f.sub).isNone) 2 50 4,
     zeroF (f.c) 18,
     bad (permBad f.perm) 3 12 3,
     bad (parmBad f.perm f.parm) 3 7 5,
     zeroF (f.fmt) 4,
     zeroF (f.mod) 0]
    (.fmax cls f.d f.a (Perm.ofBits f.perm f.parm) f.b f.mask)

/-- Opcode 0x66: FCMP (R202). -/
def dec66 (f : FormatA) : Except Reject Instr :=
  let cls := (FpCls.ofCode? f.sub).getD .f32
  let x := (f.mod.extractLsb' 3 1) == 1#1
  let cond := (FCond.ofCode? (f.mod.extractLsb' 0 3)).getD .eq
  verdict
    [bad ((FpCls.ofCode? f.sub).isNone) 2 50 4,
     bad (f.d.extractLsb' 3 5 != 0#5 || f.d.extractLsb' 0 3 == 0#3) 5 42 8,
     zeroF (f.c) 18,
     bad (permBad f.perm) 3 12 3,
     bad (parmBad f.perm f.parm) 3 7 5,
     zeroF (f.fmt) 4,
     bad ((FCond.ofCode? (f.mod.extractLsb' 0 3)).isNone) 3 0 3]
    (.fcmp cond x cls (f.d.extractLsb' 0 3) f.a (Perm.ofBits f.perm f.parm) f.b f.mask)

/-- Opcode 0x67: FCLASS (R203). -/
def dec67 (f : FormatA) : Except Reject Instr :=
  let cls := (FpCls.ofCode? f.sub).getD .f32
  verdict
    [bad ((FpCls.ofCode? f.sub).isNone) 2 50 4,
     zeroF (f.b) 26,
     zeroF (f.c) 18,
     bad (permBad f.perm) 3 12 3,
     bad (parmBad f.perm f.parm) 3 7 5,
     zeroF (f.fmt) 4,
     zeroF (f.mod) 0]
    (.fclass cls f.d f.a (Perm.ofBits f.perm f.parm) f.mask)

/-- Opcode 0x68: FRCP (R204). -/
def dec68 (f : FormatA) : Except Reject Instr :=
  let cls := (FpCls.ofCode? f.sub).getD .f32
  verdict
    [bad ((FpCls.ofCode? f.sub).isNone || !clsRcp cls) 2 50 4,
     zeroF (f.b) 26,
     zeroF (f.c) 18,
     bad (permBad f.perm) 3 12 3,
     bad (parmBad f.perm f.parm) 3 7 5,
     zeroF (f.fmt) 4]
    (.frcp cls f.d f.a (Perm.ofBits f.perm f.parm) f.mod f.mask)

/-- Opcode 0x69: FRSQ (R204). -/
def dec69 (f : FormatA) : Except Reject Instr :=
  let cls := (FpCls.ofCode? f.sub).getD .f32
  verdict
    [bad ((FpCls.ofCode? f.sub).isNone || !clsRcp cls) 2 50 4,
     zeroF (f.b) 26,
     zeroF (f.c) 18,
     bad (permBad f.perm) 3 12 3,
     bad (parmBad f.perm f.parm) 3 7 5,
     zeroF (f.fmt) 4]
    (.frsq cls f.d f.a (Perm.ofBits f.perm f.parm) f.mod f.mask)

/-- Opcode 0x6A: FEXP2 (R204). -/
def dec6A (f : FormatA) : Except Reject Instr :=
  let cls := (FpCls.ofCode? f.sub).getD .f32
  verdict
    [bad ((FpCls.ofCode? f.sub).isNone || !clsTrans cls) 2 50 4,
     zeroF (f.b) 26,
     zeroF (f.c) 18,
     bad (permBad f.perm) 3 12 3,
     bad (parmBad f.perm f.parm) 3 7 5,
     zeroF (f.fmt) 4]
    (.fexp2 cls f.d f.a (Perm.ofBits f.perm f.parm) f.mod f.mask)

/-- Opcode 0x6B: FLOG2 (R204). -/
def dec6B (f : FormatA) : Except Reject Instr :=
  let cls := (FpCls.ofCode? f.sub).getD .f32
  verdict
    [bad ((FpCls.ofCode? f.sub).isNone || !clsTrans cls) 2 50 4,
     zeroF (f.b) 26,
     zeroF (f.c) 18,
     bad (permBad f.perm) 3 12 3,
     bad (parmBad f.perm f.parm) 3 7 5,
     zeroF (f.fmt) 4]
    (.flog2 cls f.d f.a (Perm.ofBits f.perm f.parm) f.mod f.mask)

/-- Opcode 0x6C: FSIN (R204). -/
def dec6C (f : FormatA) : Except Reject Instr :=
  let cls := (FpCls.ofCode? f.sub).getD .f32
  verdict
    [bad ((FpCls.ofCode? f.sub).isNone || !clsTrans cls) 2 50 4,
     zeroF (f.b) 26,
     zeroF (f.c) 18,
     bad (permBad f.perm) 3 12 3,
     bad (parmBad f.perm f.parm) 3 7 5,
     zeroF (f.fmt) 4]
    (.fsin cls f.d f.a (Perm.ofBits f.perm f.parm) f.mod f.mask)

/-- Opcode 0x6D: FCOS (R204). -/
def dec6D (f : FormatA) : Except Reject Instr :=
  let cls := (FpCls.ofCode? f.sub).getD .f32
  verdict
    [bad ((FpCls.ofCode? f.sub).isNone || !clsTrans cls) 2 50 4,
     zeroF (f.b) 26,
     zeroF (f.c) 18,
     bad (permBad f.perm) 3 12 3,
     bad (parmBad f.perm f.parm) 3 7 5,
     zeroF (f.fmt) 4]
    (.fcos cls f.d f.a (Perm.ofBits f.perm f.parm) f.mod f.mask)

/-- Opcode 0x6E: FSCALE (R200). -/
def dec6E (f : FormatA) : Except Reject Instr :=
  let cls := (FpCls.ofCode? f.sub).getD .f32
  verdict
    [bad ((FpCls.ofCode? f.sub).isNone) 2 50 4,
     zeroF (f.c) 18,
     bad (permBad f.perm) 3 12 3,
     bad (parmBad f.perm f.parm) 3 7 5,
     zeroF (f.fmt) 4,
     zeroF (f.mod) 0]
    (.fscale cls f.d f.a (Perm.ofBits f.perm f.parm) f.b f.mask)

/-- Opcode 0x6F: FREXP (R201). -/
def dec6F (f : FormatA) : Except Reject Instr :=
  let cls := (FpCls.ofCode? f.sub).getD .f32
  let part := (FrexpSel.ofCode? f.mod).getD .sig
  verdict
    [bad ((FpCls.ofCode? f.sub).isNone) 2 50 4,
     zeroF (f.b) 26,
     zeroF (f.c) 18,
     bad (permBad f.perm) 3 12 3,
     bad (parmBad f.perm f.parm) 3 7 5,
     zeroF (f.fmt) 4,
     bad ((FrexpSel.ofCode? f.mod).isNone) 3 0 4]
    (.frexp part cls f.d f.a (Perm.ofBits f.perm f.parm) f.mask)

/-- Opcode 0x70: FCVT (R208). -/
def dec70 (f : FormatA) : Except Reject Instr :=
  let dst := (FpCls.ofCode? f.sub).getD .f32
  let src := (FpCls.ofCode? f.mod).getD .f32
  verdict
    [bad ((FpCls.ofCode? f.sub).isNone) 2 50 4,
     zeroF (f.b) 26,
     zeroF (f.c) 18,
     bad (permBad f.perm) 3 12 3,
     bad (parmBad f.perm f.parm) 3 7 5,
     zeroF (f.fmt) 4,
     bad ((FpCls.ofCode? f.mod).isNone) 3 0 4]
    (.fcvt dst src f.d f.a (Perm.ofBits f.perm f.parm) f.mask)

/-- Opcode 0x71: FCVTI (R209). -/
def dec71 (f : FormatA) : Except Reject Instr :=
  let cls := (FpCls.ofCode? f.sub).getD .f32
  let rnd := (Rnd.ofCode? (f.c.extractLsb' 0 3)).getD .rne
  let ty := (IntTy.ofCode? f.mod).getD .s32
  verdict
    [bad ((FpCls.ofCode? f.sub).isNone) 2 50 4,
     zeroF (f.b) 26,
     bad (f.c.extractLsb' 3 5 != 0#5 || (Rnd.ofCode? (f.c.extractLsb' 0 3)).isNone) 3 18 8,
     bad (permBad f.perm) 3 12 3,
     bad (parmBad f.perm f.parm) 3 7 5,
     zeroF (f.fmt) 4,
     bad ((IntTy.ofCode? f.mod).isNone || !tyConv ty) 3 0 4]
    (.fcvti ty cls f.d f.a (Perm.ofBits f.perm f.parm) rnd f.mask)

/-- Opcode 0x72: ICVTF (R210). -/
def dec72 (f : FormatA) : Except Reject Instr :=
  let cls := (FpCls.ofCode? f.sub).getD .f32
  let ty := (IntTy.ofCode? f.mod).getD .s32
  verdict
    [bad ((FpCls.ofCode? f.sub).isNone) 2 50 4,
     zeroF (f.b) 26,
     zeroF (f.c) 18,
     bad (permBad f.perm) 3 12 3,
     bad (parmBad f.perm f.parm) 3 7 5,
     zeroF (f.fmt) 4,
     bad ((IntTy.ofCode? f.mod).isNone || !tyConv ty) 3 0 4]
    (.icvtf cls ty f.d f.a (Perm.ofBits f.perm f.parm) f.mask)

/-- Opcode 0x73: FPACK (R212). -/
def dec73 (f : FormatA) : Except Reject Instr :=
  let ty := (FpackTy.ofCode? f.sub).getD .f16
  let sat := (f.mod.extractLsb' 2 1) == 1#1
  let j := (f.mod.extractLsb' 0 2)
  let fmt := f.fmt
  let c := f.c
  verdict
    [bad ((FpackTy.ofCode? f.sub).isNone) 2 50 4,
     zeroF (f.perm) 12,
     zeroF (f.parm) 7,
     zeroF (f.mod.extractLsb' 3 1) 3,
     bad (!(ty != .slot || !sat)) 3 0 4,
     bad (!(ty == .slot || decide (j.toNat < ty.pairs))) 3 0 4,
     zeroIf (ty != .slot) fmt 4,
     zeroIf (ty == .f16 || ty == .bf16) c 18]
    (.fpack ty sat f.d f.a f.b c j fmt f.mask)

/-- Opcode 0x74: FUNPACK (R213). -/
def dec74 (f : FormatA) : Except Reject Instr :=
  let cls := (FpCls.ofCode? f.sub).getD .f32
  let n := (f.mod.extractLsb' 0 3)
  verdict
    [bad ((FpCls.ofCode? f.sub).isNone || !clsElem cls) 2 50 4,
     zeroF (f.b) 26,
     zeroF (f.c) 18,
     bad (permBad f.perm) 3 12 3,
     bad (parmBad f.perm f.parm) 3 7 5,
     zeroF (f.fmt) 4,
     zeroF (f.mod.extractLsb' 3 1) 3,
     bad (!(decide (n.toNat < cls.perLane))) 3 0 4]
    (.funpack cls f.d f.a (Perm.ofBits f.perm f.parm) n f.mask)

/-- Opcode 0x75: FREDUCE (R214). -/
def dec75 (f : FormatA) : Except Reject Instr :=
  let cls := (FpCls.ofCode? f.sub).getD .f32
  verdict
    [bad ((FpCls.ofCode? f.sub).isNone || !clsRcp cls) 2 50 4,
     zeroF (f.b) 26,
     zeroF (f.c) 18,
     zeroF (f.perm) 12,
     zeroF (f.parm) 7,
     zeroF (f.fmt) 4]
    (.freduce cls f.d f.a f.mod f.mask)

/-- Opcode 0x76: KGET (R215). -/
def dec76 (f : FormatA) : Except Reject Instr :=
  let cls := (FpCls.ofCode? f.sub).getD .f32
  let pick := (KgetSel.ofCode? f.mod).getD .k
  verdict
    [bad ((FpCls.ofCode? f.sub).isNone) 2 50 4,
     zeroF (f.b) 26,
     zeroF (f.c) 18,
     bad (permBad f.perm) 3 12 3,
     bad (parmBad f.perm f.parm) 3 7 5,
     zeroF (f.fmt) 4,
     bad ((KgetSel.ofCode? f.mod).isNone) 3 0 4]
    (.kget pick cls f.d f.a (Perm.ofBits f.perm f.parm) f.mask)

/-- Opcode 0x77: KSET (R216). -/
def dec77 (f : FormatA) : Except Reject Instr :=
  let cls := (FpCls.ofCode? f.sub).getD .f32
  verdict
    [bad ((FpCls.ofCode? f.sub).isNone) 2 50 4,
     zeroF (f.c) 18,
     bad (permBad f.perm) 3 12 3,
     bad (parmBad f.perm f.parm) 3 7 5,
     zeroF (f.fmt) 4,
     zeroF (f.mod) 0]
    (.kset cls f.d f.a (Perm.ofBits f.perm f.parm) f.b f.mask)

/-- Opcode 0x78: KMIN (R217). -/
def dec78 (f : FormatA) : Except Reject Instr :=
  let cls := (FpCls.ofCode? f.sub).getD .f32
  verdict
    [bad ((FpCls.ofCode? f.sub).isNone) 2 50 4,
     zeroF (f.c) 18,
     bad (permBad f.perm) 3 12 3,
     bad (parmBad f.perm f.parm) 3 7 5,
     zeroF (f.fmt) 4,
     zeroF (f.mod) 0]
    (.kmin cls f.d f.a (Perm.ofBits f.perm f.parm) f.b f.mask)

/-- Opcode 0x79: STICKY (R218). -/
def dec79 (f : FormatA) : Except Reject Instr :=
  let cls := (FpCls.ofCode? f.sub).getD .f32
  let kind := (StickyKind.ofCode? f.mod).getD .clr
  let d := f.d
  verdict
    [bad ((FpCls.ofCode? f.sub).isNone) 2 50 4,
     zeroF (f.b) 26,
     zeroF (f.c) 18,
     bad (permBad f.perm) 3 12 3,
     bad (parmBad f.perm f.parm) 3 7 5,
     zeroF (f.fmt) 4,
     bad ((StickyKind.ofCode? f.mod).isNone) 3 0 4,
     bad (!(kind != .mask || (d != 0#8 && decide (d.toNat < 8)))) 5 42 8]
    (.sticky kind cls d f.a (Perm.ofBits f.perm f.parm) f.mask)

/-- Opcode 0x7A: BSIG (R219). -/
def dec7A (f : FormatB) : Except Reject Instr :=
  let kind := (BsigKind.ofCode? f.sub).getD .any
  let hint := (Hint.ofCode? f.hint).getD .none
  verdict
    [bad ((BsigKind.ofCode? f.sub).isNone) 2 50 4,
     bad ((f.a.extractLsb' 6 2) != 0#2) 3 34 8,
     bad ((Hint.ofCode? f.hint).isNone) 3 32 2]
    (.bsig kind f.cond ((f.a.extractLsb' 0 6)) hint f.disp)

/-- Opcode 0x7B: FROUND (R211). -/
def dec7B (f : FormatA) : Except Reject Instr :=
  let cls := (FpCls.ofCode? f.sub).getD .f32
  let rnd := (Rnd.ofCode? (f.mod.extractLsb' 0 3)).getD .rne
  verdict
    [bad ((FpCls.ofCode? f.sub).isNone) 2 50 4,
     zeroF (f.b) 26,
     zeroF (f.c) 18,
     bad (permBad f.perm) 3 12 3,
     bad (parmBad f.perm f.parm) 3 7 5,
     zeroF (f.fmt) 4,
     bad (f.mod.extractLsb' 3 1 != 0#1 || (Rnd.ofCode? (f.mod.extractLsb' 0 3)).isNone) 3 0 4]
    (.fround cls f.d f.a (Perm.ofBits f.perm f.parm) rnd f.mask)

/-- Opcode 0x90: LD (R236). -/
def dec90 (f : FormatM) : Except Reject Instr :=
  let size := (Size.ofCode? f.size).getD .w8
  verdict
    [bad (f.sub != 0#3) 2 50 3,
     zeroIf (f.noofs == 1#1) f.ofs 30,
     bad ((Size.ofCode? f.size).isNone) 3 12 4]
    (.ld size f.data (MemRef.ofBits f.noofs f.hnd f.ofs f.disp) f.stream f.look f.tok f.mask)

/-- Opcode 0x91: ST (R237). -/
def dec91 (f : FormatM) : Except Reject Instr :=
  let rnd := (Rnd.ofCode? f.sub).getD .rne
  let size := (Size.ofCode? f.size).getD .w8
  verdict
    [bad ((Rnd.ofCode? f.sub).isNone) 2 50 3,
     zeroIf (f.noofs == 1#1) f.ofs 30,
     zeroF (f.look) 22,
     bad ((Size.ofCode? f.size).isNone || !szStore size) 3 12 4,
     bad (szStore size && (Size.ofCode? f.size).isSome && !(size.isFp || rnd == .rne)) 2 50 3]
    (.st size rnd f.data (MemRef.ofBits f.noofs f.hnd f.ofs f.disp) f.stream f.tok f.mask)

/-- Opcode 0x92: LDT (R239). -/
def dec92 (f : FormatM) : Except Reject Instr :=
  let size := (Size.ofCode? f.size).getD .w8
  verdict
    [bad (f.sub != 0#3) 2 50 3,
     zeroIf (f.noofs == 1#1) f.ofs 30,
     bad ((Size.ofCode? f.size).isNone || !szTag size) 3 12 4]
    (.ldt size f.data (MemRef.ofBits f.noofs f.hnd f.ofs f.disp) f.stream f.look f.tok f.mask)

/-- Opcode 0x93: STT (R240). -/
def dec93 (f : FormatM) : Except Reject Instr :=
  let size := (Size.ofCode? f.size).getD .w8
  verdict
    [bad (f.sub != 0#3) 2 50 3,
     zeroIf (f.noofs == 1#1) f.ofs 30,
     zeroF (f.look) 22,
     bad ((Size.ofCode? f.size).isNone || !szTag size) 3 12 4]
    (.stt size f.data (MemRef.ofBits f.noofs f.hnd f.ofs f.disp) f.stream f.tok f.mask)

/-- Opcode 0x94: LDG (R241). -/
def dec94 (f : FormatM) : Except Reject Instr :=
  let size := (Size.ofCode? f.size).getD .w8
  verdict
    [zeroF (f.noofs) 53,
     bad (f.sub != 0#3) 2 50 3,
     bad ((Size.ofCode? f.size).isNone) 3 12 4]
    (.ldg size f.data f.hnd f.ofs f.disp f.stream f.look f.tok f.mask)

/-- Opcode 0x95: STS (R241). -/
def dec95 (f : FormatM) : Except Reject Instr :=
  let rnd := (Rnd.ofCode? f.sub).getD .rne
  let size := (Size.ofCode? f.size).getD .w8
  verdict
    [zeroF (f.noofs) 53,
     bad ((Rnd.ofCode? f.sub).isNone) 2 50 3,
     zeroF (f.look) 22,
     bad ((Size.ofCode? f.size).isNone || !szStore size) 3 12 4,
     bad (szStore size && (Size.ofCode? f.size).isSome && !(size.isFp || rnd == .rne)) 2 50 3]
    (.sts size rnd f.data f.hnd f.ofs f.disp f.stream f.tok f.mask)

/-- Opcode 0x96: LDB (R238). -/
def dec96 (f : FormatM) : Except Reject Instr :=
  let size := (Size.ofCode? f.size).getD .w8
  verdict
    [bad (f.noofs != 1#1) 4 53 1,
     bad (f.sub != 0#3) 2 50 3,
     zeroF (f.ofs) 30,
     bad ((Size.ofCode? f.size).isNone) 3 12 4]
    (.ldb size f.data f.hnd f.disp f.stream f.look f.tok f.mask)

/-- Opcode 0x97: TMOV (R243). -/
def dec97 (f : FormatM) : Except Reject Instr :=
  let size := (Size.ofCode? f.size).getD .w8
  verdict
    [zeroIf (f.noofs == 1#1) f.ofs 30,
     zeroF (f.look) 22,
     bad ((Size.ofCode? f.size).isNone || !szLea size) 3 12 4]
    (.tmov size f.sub f.data (MemRef.ofBits f.noofs f.hnd f.ofs f.disp) f.stream f.tok f.mask)

/-- Opcode 0x98: ATOM (R245). -/
def dec98 (f : FormatM) : Except Reject Instr :=
  let op := (AtomOp.ofCode? f.sub).getD .add
  let size := (Size.ofCode? f.size).getD .w8
  verdict
    [bad ((AtomOp.ofCode? f.sub).isNone) 2 50 3,
     zeroIf (f.noofs == 1#1) f.ofs 30,
     zeroF (f.look) 22,
     bad ((Size.ofCode? f.size).isNone || !szAtom size) 3 12 4,
     bad (szAtom size && (Size.ofCode? f.size).isSome && !(!size.isFp || op == .add || op == .min || op == .max || op == .swap)) 2 50 3]
    (.atom op size f.data (MemRef.ofBits f.noofs f.hnd f.ofs f.disp) f.stream f.tok f.mask)

/-- Opcode 0x99: ATOMR (R245). -/
def dec99 (f : FormatM) : Except Reject Instr :=
  let op := (AtomOp.ofCode? f.sub).getD .add
  let size := (Size.ofCode? f.size).getD .w8
  verdict
    [bad ((AtomOp.ofCode? f.sub).isNone) 2 50 3,
     zeroIf (f.noofs == 1#1) f.ofs 30,
     bad ((Size.ofCode? f.size).isNone || !szAtom size) 3 12 4,
     bad (szAtom size && (Size.ofCode? f.size).isSome && !(!size.isFp || op == .add || op == .min || op == .max || op == .swap)) 2 50 3]
    (.atomr op size f.data (MemRef.ofBits f.noofs f.hnd f.ofs f.disp) f.stream f.look f.tok f.mask)

/-- Opcode 0x9A: ACQ (R248). -/
def dec9A (f : FormatI) : Except Reject Instr :=
  let mode := (TokMode.ofCode? f.mod).getD .x
  verdict
    [bad (f.sub != 0#4) 2 50 4,
     zeroF (f.d.extractLsb' 3 5) 45,
     zeroF (f.a) 34,
     zeroF (f.mask) 31,
     zeroF (f.lit) 30,
     bad ((TokMode.ofCode? f.mod).isNone) 3 24 6,
     zeroF (f.imm.extractLsb' 12 12) 12]
    (.acq mode ((f.imm.extractLsb' 0 12)) ((f.d.extractLsb' 0 3)))

/-- Opcode 0x9B: REL (R249). -/
def dec9B (f : FormatI) : Except Reject Instr :=
  verdict
    [bad (f.sub != 0#4) 2 50 4,
     zeroF (f.d.extractLsb' 3 5) 45,
     zeroF (f.a) 34,
     zeroF (f.mask) 31,
     zeroF (f.lit) 30,
     bad (f.mod != 0#6) 3 24 6,
     zeroF (f.imm.extractLsb' 12 12) 12]
    (.rel ((f.imm.extractLsb' 0 12)) ((f.d.extractLsb' 0 3)))

/-- Opcode 0x9C: FENCE (R250). -/
def dec9C (f : FormatI) : Except Reject Instr :=
  let kind := (FenceKind.ofCode? f.mod).getD .s
  let set := (f.imm.extractLsb' 0 16)
  verdict
    [bad (f.sub != 0#4) 2 50 4,
     zeroF (f.d) 42,
     zeroF (f.a) 34,
     zeroF (f.mask) 31,
     zeroF (f.lit) 30,
     bad ((FenceKind.ofCode? f.mod).isNone) 3 24 6,
     zeroF (f.imm.extractLsb' 16 8) 16,
     bad (!(kind != .s || set != 0#16)) 3 0 24,
     zeroIf (kind != .s) set 0]
    (.fence kind set)

/-- Opcode 0x9D: CBPUSH_RES, CBPUSH_COMMIT (R252). -/
def dec9D (f : FormatM) : Except Reject Instr :=
  if f.sub == 0#3 then
    verdict
      [bad (f.noofs != 1#1) 4 53 1,
       zeroF (f.ofs) 30,
       zeroF (f.stream) 26,
       zeroF (f.mask) 16,
       zeroF (f.size) 12,
       zeroF (f.disp) 0]
      (.cbpushRes f.data f.hnd f.look f.tok)
  else if f.sub == 1#3 then
    verdict
      [bad (f.noofs != 1#1) 4 53 1,
       zeroF (f.ofs) 30,
       zeroF (f.look) 22,
       zeroF (f.mask) 16,
       zeroF (f.size) 12,
       zeroF (f.disp) 0]
      (.cbpushCommit f.data f.hnd f.stream f.tok)
  else
    .error (.reserved 2 (ones 50 3))

/-- Opcode 0x9E: CBPOP_TAKE, CBPOP_FREE, CBPOP_STAT (R252). -/
def dec9E (f : FormatM) : Except Reject Instr :=
  if f.sub == 0#3 then
    verdict
      [bad (f.noofs != 1#1) 4 53 1,
       zeroF (f.ofs) 30,
       zeroF (f.stream) 26,
       zeroF (f.mask) 16,
       zeroF (f.size) 12,
       zeroF (f.disp) 0]
      (.cbpopTake f.data f.hnd f.look f.tok)
  else if f.sub == 1#3 then
    verdict
      [bad (f.noofs != 1#1) 4 53 1,
       zeroF (f.ofs) 30,
       zeroF (f.look) 22,
       zeroF (f.mask) 16,
       zeroF (f.size) 12,
       zeroF (f.disp) 0]
      (.cbpopFree f.data f.hnd f.stream f.tok)
  else if f.sub == 2#3 then
    verdict
      [bad (f.noofs != 1#1) 4 53 1,
       zeroF (f.ofs) 30,
       zeroF (f.stream) 26,
       zeroF (f.look) 22,
       zeroF (f.tok) 19,
       zeroF (f.mask) 16,
       zeroF (f.size) 12,
       zeroF (f.disp) 0]
      (.cbpopStat f.data f.hnd)
  else
    .error (.reserved 2 (ones 50 3))

/-- Opcode 0x9F: CBDEF (R251). -/
def dec9F (f : FormatM) : Except Reject Instr :=
  let size := f.size
  verdict
    [bad (f.noofs != 1#1) 4 53 1,
     zeroF (f.data.extractLsb' 4 4) 46,
     zeroF (f.ofs) 30,
     zeroF (f.stream) 26,
     zeroF (f.look) 22,
     zeroF (f.tok) 19,
     zeroF (f.mask) 16,
     bad (!(decide (size.toNat ≤ 10))) 3 12 4]
    (.cbdef ((f.data.extractLsb' 0 4)) f.hnd f.disp f.sub size)

/-- Opcode 0xA0: HDESC_ATTR, HDESC_BIND, HDESC_LOC, HDESC_SETA, HDESC_GETA (R254). -/
def decA0 (f : FormatS) : Except Reject Instr :=
  if f.sub == 0#4 then
    verdict
      [zeroF (f.csr) 22,
       zeroF (f.scmd) 0]
      (.hdescAttr f.d f.a)
  else if f.sub == 1#4 then
    verdict
      [zeroF (f.csr) 22,
       zeroF (f.scmd) 0]
      (.hdescBind f.d f.a)
  else if f.sub == 2#4 then
    verdict
      [zeroF (f.csr) 22,
       zeroF (f.scmd) 0]
      (.hdescLoc f.d f.a)
  else if f.sub == 3#4 then
    verdict
      [bad (f.d.extractLsb' 4 4 != 0#4) 5 42 8,
       zeroF (f.csr) 22,
       zeroF (f.scmd) 0]
      (.hdescSeta (f.d.extractLsb' 0 4) f.a)
  else if f.sub == 4#4 then
    verdict
      [bad (f.a.extractLsb' 4 4 != 0#4) 5 34 8,
       zeroF (f.csr) 22,
       zeroF (f.scmd) 0]
      (.hdescGeta f.d (f.a.extractLsb' 0 4))
  else
    .error (.reserved 2 (ones 50 4))

/-- Opcode 0xB0: OCLAIM (R300). -/
def decB0 (f : FormatX) : Except Reject Instr :=
  let nslot := (f.cmd.extractLsb' 0 6)
  let tmask := (f.cmd.extractLsb' 12 8)
  let first := f.osa
  verdict
    [bad (f.sub != 0#4) 2 50 4,
     zeroF (f.osb) 40,
     zeroF (f.acc) 37,
     zeroF (f.fmta) 34,
     zeroF (f.fmtb) 31,
     zeroF (f.kblka) 29,
     zeroF (f.kblkb) 27,
     zeroF (f.look) 23,
     zeroF (f.cmd.extractLsb' 6 6) 6,
     bad (!(nslot != 0#6 || tmask != 0#8)) 3 0 20,
     bad (!(decide (first.toNat + nslot.toNat ≤ 32))) 3 0 20]
    (.oclaim first nslot tmask f.tok)

/-- Opcode 0xB1: OREL (R300). -/
def decB1 (f : FormatX) : Except Reject Instr :=
  let nslot := (f.cmd.extractLsb' 0 6)
  let tmask := (f.cmd.extractLsb' 12 8)
  let first := f.osa
  verdict
    [bad (f.sub != 0#4) 2 50 4,
     zeroF (f.osb) 40,
     zeroF (f.acc) 37,
     zeroF (f.fmta) 34,
     zeroF (f.fmtb) 31,
     zeroF (f.kblka) 29,
     zeroF (f.kblkb) 27,
     zeroF (f.look) 23,
     zeroF (f.cmd.extractLsb' 6 6) 6,
     bad (!(nslot != 0#6 || tmask != 0#8)) 3 0 20,
     bad (!(decide (first.toNat + nslot.toNat ≤ 32))) 3 0 20]
    (.orel first nslot tmask f.tok)

/-- Opcode 0xB2: OLOAD (R307). -/
def decB2 (f : FormatX) : Except Reject Instr :=
  verdict
    [bad (f.sub != 0#4) 2 50 4,
     zeroF (f.osb) 40,
     zeroF (f.acc) 37,
     zeroF (f.fmta) 34,
     zeroF (f.fmtb) 31,
     zeroF (f.kblka) 29,
     zeroF (f.kblkb) 27,
     zeroF (f.look) 23,
     zeroF (f.cmd.extractLsb' 7 7) 7]
    (.oload ((f.cmd.extractLsb' 14 6)) f.osa ((f.cmd.extractLsb' 0 7)) f.tok)

/-- Opcode 0xB3: OMAP (R304). -/
def decB3 (f : FormatX) : Except Reject Instr :=
  let orient := (Orient.ofCode? (f.cmd.extractLsb' 18 2)).getD .k
  verdict
    [bad (f.sub != 0#4) 2 50 4,
     zeroF (f.osb) 40,
     zeroF (f.acc) 37,
     zeroF (f.fmta) 34,
     zeroF (f.fmtb) 31,
     zeroF (f.kblka) 29,
     zeroF (f.kblkb) 27,
     zeroF (f.look) 23,
     bad ((Orient.ofCode? (f.cmd.extractLsb' 18 2)).isNone) 3 18 2]
    (.omap f.osa orient ((f.cmd.extractLsb' 9 9)) ((f.cmd.extractLsb' 0 9)) f.tok)

/-- Opcode 0xB4: MMA (R309). -/
def decB4 (f : FormatX) : Except Reject Instr :=
  let start := (f.cmd.extractLsb' 19 1) == 1#1
  verdict
    [bad (f.sub != 0#4) 2 50 4,
     zeroF (f.look) 23,
     zeroF (f.cmd.extractLsb' 0 19) 0]
    (.mma f.acc f.osa f.osb f.fmta f.fmtb f.kblka f.kblkb start f.tok)

/-- Opcode 0xB5: ACLR (R312). -/
def decB5 (f : FormatX) : Except Reject Instr :=
  let cls := (TileCls.ofCode? f.sub).getD .f
  let tmask := (f.cmd.extractLsb' 12 8)
  verdict
    [bad ((TileCls.ofCode? f.sub).isNone) 2 50 4,
     zeroF (f.osa) 45,
     zeroF (f.osb) 40,
     zeroF (f.acc) 37,
     zeroF (f.fmta) 34,
     zeroF (f.fmtb) 31,
     zeroF (f.kblka) 29,
     zeroF (f.kblkb) 27,
     zeroF (f.look) 23,
     zeroF (f.cmd.extractLsb' 0 12) 0,
     bad (!(tmask != 0#8)) 3 0 20]
    (.aclr cls tmask f.tok)

/-- Opcode 0xB6: AREAD (R313). -/
def decB6 (f : FormatX) : Except Reject Instr :=
  let row0 := (f.cmd.extractLsb' 8 6)
  let nrows := (f.cmd.extractLsb' 2 6)
  verdict
    [bad (f.sub != 0#4) 2 50 4,
     zeroF (f.osa) 45,
     zeroF (f.osb) 40,
     zeroF (f.fmtb) 31,
     zeroF (f.kblka) 29,
     zeroF (f.kblkb) 27,
     zeroF (f.look) 23,
     zeroF (f.cmd.extractLsb' 0 2) 0,
     bad (!(decide (row0.toNat + nrows.toNat ≤ 63))) 3 0 20]
    (.aread f.acc ((f.cmd.extractLsb' 14 6)) f.fmta row0 nrows f.tok)

/-- Opcode 0xB7: AWRITE (R313). -/
def decB7 (f : FormatX) : Except Reject Instr :=
  let row0 := (f.cmd.extractLsb' 8 6)
  let nrows := (f.cmd.extractLsb' 2 6)
  verdict
    [bad (f.sub != 0#4) 2 50 4,
     zeroF (f.osa) 45,
     zeroF (f.osb) 40,
     zeroF (f.fmtb) 31,
     zeroF (f.kblka) 29,
     zeroF (f.kblkb) 27,
     zeroF (f.look) 23,
     zeroF (f.cmd.extractLsb' 0 2) 0,
     bad (!(decide (row0.toNat + nrows.toNat ≤ 63))) 3 0 20]
    (.awrite f.acc ((f.cmd.extractLsb' 14 6)) f.fmta row0 nrows f.tok)

/-- Opcode 0xB8: ASTAT (R316). -/
def decB8 (f : FormatX) : Except Reject Instr :=
  let row0 := (f.cmd.extractLsb' 6 6)
  let nrows := (f.cmd.extractLsb' 0 6)
  verdict
    [bad (f.sub != 0#4) 2 50 4,
     zeroF (f.osa) 45,
     zeroF (f.osb) 40,
     zeroF (f.fmta) 34,
     zeroF (f.fmtb) 31,
     zeroF (f.kblka) 29,
     zeroF (f.kblkb) 27,
     bad (!(decide (row0.toNat + nrows.toNat ≤ 63))) 3 0 20]
    (.astat ((f.cmd.extractLsb' 12 8)) f.acc row0 nrows f.look f.tok)

/-- Opcode 0xB9: MWAKE_NOW, MWAKE_IDLE (R318). -/
def decB9 (f : FormatX) : Except Reject Instr :=
  if f.sub == 0#4 then
    verdict
      [zeroF (f.osa) 45,
       zeroF (f.osb) 40,
       zeroF (f.acc) 37,
       zeroF (f.fmta) 34,
       zeroF (f.fmtb) 31,
       zeroF (f.kblka) 29,
       zeroF (f.kblkb) 27,
       zeroF (f.look) 23,
       zeroF (f.tok) 20,
       zeroF (f.cmd) 0]
      (.mwakeNow)
  else if f.sub == 1#4 then
    verdict
      [zeroF (f.osa) 45,
       zeroF (f.osb) 40,
       zeroF (f.acc) 37,
       zeroF (f.fmta) 34,
       zeroF (f.fmtb) 31,
       zeroF (f.kblka) 29,
       zeroF (f.kblkb) 27,
       zeroF (f.look) 23,
       zeroF (f.tok) 20,
       zeroF (f.cmd.extractLsb' 16 4) 16]
      (.mwakeIdle ((f.cmd.extractLsb' 0 16)))
  else
    .error (.reserved 2 (ones 50 4))

/-- Opcode 0xBA: MSTAT (R321). -/
def decBA (f : FormatX) : Except Reject Instr :=
  let form := (MstatSel.ofCode? f.sub).getD .claims
  verdict
    [bad ((MstatSel.ofCode? f.sub).isNone) 2 50 4,
     zeroF (f.osa) 45,
     zeroF (f.osb) 40,
     zeroF (f.acc) 37,
     zeroF (f.fmta) 34,
     zeroF (f.fmtb) 31,
     zeroF (f.kblka) 29,
     zeroF (f.kblkb) 27,
     zeroF (f.look) 23,
     zeroF (f.tok) 20,
     zeroF (f.cmd.extractLsb' 0 12) 0]
    (.mstat form ((f.cmd.extractLsb' 12 8)))

/-- Opcode 0xC0: XCOPY (R279). -/
def decC0 (f : FormatX) : Except Reject Instr :=
  let dk := (CopyDst.ofCode? (f.cmd.extractLsb' 12 2)).getD .addr
  let srcCb := (f.cmd.extractLsb' 11 1) == 1#1
  let cv := (f.cmd.extractLsb' 10 1) == 1#1
  let slot := f.osa
  let fmt := f.fmta
  verdict
    [bad (f.sub != 0#4) 2 50 4,
     zeroF (f.osb.extractLsb' 4 1) 44,
     zeroF (f.acc) 37,
     zeroF (f.fmtb) 31,
     zeroF (f.kblka) 29,
     zeroF (f.kblkb) 27,
     zeroF (f.look) 23,
     bad ((CopyDst.ofCode? (f.cmd.extractLsb' 12 2)).isNone) 3 12 2,
     zeroIf (dk != .slot) slot 45,
     zeroIf (!cv) fmt 34]
    (.xcopy dk srcCb cv slot ((f.cmd.extractLsb' 14 6)) ((f.cmd.extractLsb' 0 10)) fmt ((f.osb.extractLsb' 0 4)) f.tok)

/-- Opcode 0xC1: XCOPYM (R287). -/
def decC1 (f : FormatX) : Except Reject Instr :=
  let fillB := (f.cmd.extractLsb' 13 1) == 1#1
  verdict
    [bad (f.sub != 0#4) 2 50 4,
     zeroF (f.look) 23,
     zeroF (f.cmd.extractLsb' 10 3) 10]
    (.xcopym fillB ((f.cmd.extractLsb' 14 6)) ((f.cmd.extractLsb' 0 10)) f.osa f.osb f.acc f.fmta f.fmtb f.kblka f.kblkb f.tok)

/-- Opcode 0xC2: XSEQ_DONE, XSEQ_ISSUED, XSEQ_LINE, XSEQ_FAULT (R288, R475). -/
def decC2 (f : FormatX) : Except Reject Instr :=
  if f.sub == 0#4 then
    let eng := (Eng.ofCode? (f.cmd.extractLsb' 8 4)).getD .copy
    verdict
      [zeroF (f.osa) 45,
       zeroF (f.osb) 40,
       zeroF (f.acc) 37,
       zeroF (f.fmta) 34,
       zeroF (f.fmtb) 31,
       zeroF (f.kblka) 29,
       zeroF (f.kblkb) 27,
       bad ((Eng.ofCode? (f.cmd.extractLsb' 8 4)).isNone) 3 8 4,
       zeroF (f.cmd.extractLsb' 0 8) 0]
      (.xseqDone eng ((f.cmd.extractLsb' 12 8)) f.look f.tok)
  else if f.sub == 1#4 then
    let eng := (Eng.ofCode? (f.cmd.extractLsb' 8 4)).getD .copy
    verdict
      [zeroF (f.osa) 45,
       zeroF (f.osb) 40,
       zeroF (f.acc) 37,
       zeroF (f.fmta) 34,
       zeroF (f.fmtb) 31,
       zeroF (f.kblka) 29,
       zeroF (f.kblkb) 27,
       bad ((Eng.ofCode? (f.cmd.extractLsb' 8 4)).isNone) 3 8 4,
       zeroF (f.cmd.extractLsb' 0 8) 0]
      (.xseqIssued eng ((f.cmd.extractLsb' 12 8)) f.look f.tok)
  else if f.sub == 2#4 then
    verdict
      [zeroF (f.osa) 45,
       zeroF (f.osb) 40,
       zeroF (f.acc) 37,
       zeroF (f.fmta) 34,
       zeroF (f.fmtb) 31,
       zeroF (f.kblka) 29,
       zeroF (f.kblkb) 27,
       zeroF (f.cmd.extractLsb' 0 8) 0]
      (.xseqLine ((f.cmd.extractLsb' 8 4)) ((f.cmd.extractLsb' 12 8)) f.look f.tok)
  else if f.sub == 3#4 then
    verdict
      [zeroF (f.osa) 45,
       zeroF (f.osb) 40,
       zeroF (f.acc) 37,
       zeroF (f.fmta) 34,
       zeroF (f.fmtb) 31,
       zeroF (f.kblka) 29,
       zeroF (f.kblkb) 27,
       bad ((f.cmd.extractLsb' 8 4) != 0#4) 3 8 4,
       zeroF (f.cmd.extractLsb' 0 8) 0]
      (.xseqFault ((f.cmd.extractLsb' 12 8)) f.look f.tok)
  else
    .error (.reserved 2 (ones 50 4))

/-- Opcode 0xC3: XWAIT (R289). -/
def decC3 (f : FormatX) : Except Reject Instr :=
  let eng := (Eng.ofCode? (f.cmd.extractLsb' 8 4)).getD .copy
  verdict
    [bad (f.sub != 0#4) 2 50 4,
     zeroF (f.osa) 45,
     zeroF (f.osb) 40,
     zeroF (f.acc) 37,
     zeroF (f.fmta) 34,
     zeroF (f.fmtb) 31,
     zeroF (f.kblka) 29,
     zeroF (f.kblkb) 27,
     zeroF (f.look) 23,
     zeroF (f.tok) 20,
     bad ((Eng.ofCode? (f.cmd.extractLsb' 8 4)).isNone) 3 8 4,
     zeroF (f.cmd.extractLsb' 0 8) 0]
    (.xwait eng ((f.cmd.extractLsb' 12 8)))

/-- Opcode 0xC4: EVROUTE_SET, EVROUTE_CLR, EVROUTE_GATE, EVROUTE_OPEN (R292). -/
def decC4 (f : FormatX) : Except Reject Instr :=
  if f.sub == 0#4 then
    let src := (f.cmd.extractLsb' 16 4)
    verdict
      [zeroF (f.osa) 45,
       zeroF (f.osb) 40,
       zeroF (f.acc) 37,
       zeroF (f.fmta) 34,
       zeroF (f.fmtb) 31,
       zeroF (f.kblka) 29,
       zeroF (f.kblkb) 27,
       zeroF (f.look) 23,
       zeroF (f.tok) 20,
       zeroF (f.cmd.extractLsb' 0 12) 0,
       bad (!(decide (src.toNat ≤ 11))) 3 16 4]
      (.evrouteSet src ((f.cmd.extractLsb' 12 4)))
  else if f.sub == 1#4 then
    verdict
      [zeroF (f.osa) 45,
       zeroF (f.osb) 40,
       zeroF (f.acc) 37,
       zeroF (f.fmta) 34,
       zeroF (f.fmtb) 31,
       zeroF (f.kblka) 29,
       zeroF (f.kblkb) 27,
       zeroF (f.look) 23,
       zeroF (f.tok) 20,
       zeroF (f.cmd.extractLsb' 0 12) 0]
      (.evrouteClr ((f.cmd.extractLsb' 16 4)) ((f.cmd.extractLsb' 12 4)))
  else if f.sub == 2#4 then
    let sink := (f.cmd.extractLsb' 16 4)
    verdict
      [zeroF (f.osa) 45,
       zeroF (f.osb) 40,
       zeroF (f.acc) 37,
       zeroF (f.fmta) 34,
       zeroF (f.fmtb) 31,
       zeroF (f.kblka) 29,
       zeroF (f.kblkb) 27,
       zeroF (f.look) 23,
       zeroF (f.tok) 20,
       zeroF (f.cmd.extractLsb' 0 12) 0,
       bad (!(decide (sink.toNat ≤ 10))) 3 16 4]
      (.evrouteGate sink ((f.cmd.extractLsb' 12 4)))
  else if f.sub == 3#4 then
    let sink := (f.cmd.extractLsb' 16 4)
    verdict
      [zeroF (f.osa) 45,
       zeroF (f.osb) 40,
       zeroF (f.acc) 37,
       zeroF (f.fmta) 34,
       zeroF (f.fmtb) 31,
       zeroF (f.kblka) 29,
       zeroF (f.kblkb) 27,
       zeroF (f.look) 23,
       zeroF (f.tok) 20,
       zeroF (f.cmd.extractLsb' 12 4) 12,
       zeroF (f.cmd.extractLsb' 0 12) 0,
       bad (!(decide (sink.toNat ≤ 10))) 3 16 4]
      (.evrouteOpen sink)
  else
    .error (.reserved 2 (ones 50 4))

/-- Opcode 0xC5: EVWAIT, EVWAIT_SYNC (R293). -/
def decC5 (f : FormatX) : Except Reject Instr :=
  if f.sub == 0#4 then
    verdict
      [zeroF (f.osa) 45,
       zeroF (f.osb) 40,
       zeroF (f.acc) 37,
       zeroF (f.fmta) 34,
       zeroF (f.fmtb) 31,
       zeroF (f.kblka) 29,
       zeroF (f.kblkb) 27,
       zeroF (f.look) 23,
       zeroF (f.tok) 20,
       zeroF (f.cmd.extractLsb' 0 16) 0]
      (.evwait ((f.cmd.extractLsb' 16 4)))
  else if f.sub == 1#4 then
    verdict
      [zeroF (f.osa) 45,
       zeroF (f.osb) 40,
       zeroF (f.acc) 37,
       zeroF (f.fmta) 34,
       zeroF (f.fmtb) 31,
       zeroF (f.kblka) 29,
       zeroF (f.kblkb) 27,
       zeroF (f.look) 23,
       zeroF (f.tok) 20,
       zeroF (f.cmd.extractLsb' 0 16) 0]
      (.evwaitSync ((f.cmd.extractLsb' 16 4)))
  else
    .error (.reserved 2 (ones 50 4))

/-- Opcode 0xC6: EVFIRE (R294). -/
def decC6 (f : FormatX) : Except Reject Instr :=
  let count := (f.cmd.extractLsb' 8 8)
  verdict
    [bad (f.sub != 0#4) 2 50 4,
     zeroF (f.osa) 45,
     zeroF (f.osb) 40,
     zeroF (f.acc) 37,
     zeroF (f.fmta) 34,
     zeroF (f.fmtb) 31,
     zeroF (f.kblka) 29,
     zeroF (f.kblkb) 27,
     zeroF (f.look) 23,
     zeroF (f.tok) 20,
     zeroF (f.cmd.extractLsb' 0 8) 0,
     bad (!(count != 0#8)) 3 8 8]
    (.evfire ((f.cmd.extractLsb' 16 4)) count)

/-- Opcode 0xC8: SXRED (R380). -/
def decC8 (f : FormatR) : Except Reject Instr :=
  let op := (SxOp.ofCode? f.sub).getD .sum
  let ef := (SxFmt.ofCode? f.efmt).getD .f32
  verdict
    [bad ((SxOp.ofCode? f.sub).isNone) 2 50 4,
     bad ((SxFmt.ofCode? f.efmt).isNone) 3 38 4,
     zeroF (f.z1) 30,
     zeroF (f.look) 23,
     zeroF (f.z2) 0]
    (.sxred op ef f.thnd f.dhnd f.qd f.rowlen f.stream f.tok f.mask)

/-- Opcode 0xC9: SXBULK_COPY, SXBULK_FILL, SXBULK_CMP (R383). -/
def decC9 (f : FormatK) : Except Reject Instr :=
  if f.sub == 0#4 then
    verdict
      [zeroF (f.rhnd) 46,
       zeroF (f.z1) 38,
       zeroF (f.z2) 27,
       zeroF (f.look) 23]
      (.sxbulkCopy f.qd f.len f.stream f.tok)
  else if f.sub == 1#4 then
    verdict
      [zeroF (f.rhnd) 46,
       zeroF (f.z1) 38,
       zeroF (f.z2) 27,
       zeroF (f.look) 23]
      (.sxbulkFill f.qd f.len f.stream f.tok)
  else if f.sub == 2#4 then
    verdict
      [zeroF (f.z1) 38,
       zeroF (f.z2) 27,
       zeroF (f.look) 23]
      (.sxbulkCmp f.qd f.len f.rhnd f.stream f.tok)
  else
    .error (.reserved 2 (ones 50 4))

/-- Opcode 0xCA: SXSEQ_DONE, SXSEQ_ISSUED, SXSEQ_STACK, SXSEQ_FAULT (R385). -/
def decCA (f : FormatX) : Except Reject Instr :=
  if f.sub == 0#4 then
    let psel := (f.cmd.extractLsb' 8 4)
    let preg := (f.cmd.extractLsb' 0 8)
    verdict
      [zeroF (f.osa) 45,
       zeroF (f.osb) 40,
       zeroF (f.acc) 37,
       zeroF (f.fmta) 34,
       zeroF (f.fmtb) 31,
       zeroF (f.kblka) 29,
       zeroF (f.kblkb) 27,
       bad (!(decide (psel.toNat ≤ 8))) 3 8 4,
       zeroIf (psel != 8#4) preg 0]
      (.sxseqDone ((f.cmd.extractLsb' 12 8)) psel preg f.look f.tok)
  else if f.sub == 1#4 then
    let psel := (f.cmd.extractLsb' 8 4)
    let preg := (f.cmd.extractLsb' 0 8)
    verdict
      [zeroF (f.osa) 45,
       zeroF (f.osb) 40,
       zeroF (f.acc) 37,
       zeroF (f.fmta) 34,
       zeroF (f.fmtb) 31,
       zeroF (f.kblka) 29,
       zeroF (f.kblkb) 27,
       bad (!(decide (psel.toNat ≤ 8))) 3 8 4,
       zeroIf (psel != 8#4) preg 0]
      (.sxseqIssued ((f.cmd.extractLsb' 12 8)) psel preg f.look f.tok)
  else if f.sub == 2#4 then
    let psel := (f.cmd.extractLsb' 8 4)
    let preg := (f.cmd.extractLsb' 0 8)
    verdict
      [zeroF (f.osa) 45,
       zeroF (f.osb) 40,
       zeroF (f.acc) 37,
       zeroF (f.fmta) 34,
       zeroF (f.fmtb) 31,
       zeroF (f.kblka) 29,
       zeroF (f.kblkb) 27,
       bad (!(decide (psel.toNat ≤ 8))) 3 8 4,
       zeroIf (psel != 8#4) preg 0]
      (.sxseqStack ((f.cmd.extractLsb' 12 8)) psel preg f.look f.tok)
  else if f.sub == 3#4 then
    let psel := (f.cmd.extractLsb' 8 4)
    let preg := (f.cmd.extractLsb' 0 8)
    verdict
      [zeroF (f.osa) 45,
       zeroF (f.osb) 40,
       zeroF (f.acc) 37,
       zeroF (f.fmta) 34,
       zeroF (f.fmtb) 31,
       zeroF (f.kblka) 29,
       zeroF (f.kblkb) 27,
       bad (!(decide (psel.toNat ≤ 8))) 3 8 4,
       zeroIf (psel != 8#4) preg 0]
      (.sxseqFault ((f.cmd.extractLsb' 12 8)) psel preg f.look f.tok)
  else
    .error (.reserved 2 (ones 50 4))

/-- Opcode 0xCB: SXWAIT (R386). -/
def decCB (f : FormatX) : Except Reject Instr :=
  let psel := (f.cmd.extractLsb' 8 4)
  let preg := (f.cmd.extractLsb' 0 8)
  verdict
    [bad (f.sub != 0#4) 2 50 4,
     zeroF (f.osa) 45,
     zeroF (f.osb) 40,
     zeroF (f.acc) 37,
     zeroF (f.fmta) 34,
     zeroF (f.fmtb) 31,
     zeroF (f.kblka) 29,
     zeroF (f.kblkb) 27,
     zeroF (f.look) 23,
     zeroF (f.tok) 20,
     bad (!(decide (psel.toNat ≤ 8))) 3 8 4,
     zeroIf (psel != 8#4) preg 0]
    (.sxwait ((f.cmd.extractLsb' 12 8)) psel preg)

/-- Opcode 0xD0: MKMATCH (R334). -/
def decD0 (f : FormatW) : Except Reject Instr :=
  let opt := (f.wcmd.extractLsb' 4 1) == 1#1
  let snap := (f.wcmd.extractLsb' 2 1) == 1#1
  let scope := (Scope.ofCode? (f.wcmd.extractLsb' 0 2)).getD .core
  verdict
    [bad (f.sub != 0#4) 2 50 4,
     zeroF (f.smk) 38,
     zeroF (f.comb) 26,
     zeroF (f.hops) 14,
     zeroF (f.wcmd.extractLsb' 5 6) 5,
     zeroF (f.wcmd.extractLsb' 3 1) 3,
     bad ((Scope.ofCode? (f.wcmd.extractLsb' 0 2)).isNone) 3 0 2]
    (.mkmatch opt snap f.dmk f.etsel f.wave scope f.tok)

/-- Opcode 0xD1: MKSET (R335). -/
def decD1 (f : FormatW) : Except Reject Instr :=
  let form := (MkForm.ofCode? f.sub).getD .bit
  let opt := (f.wcmd.extractLsb' 4 1) == 1#1
  let all := (f.wcmd.extractLsb' 3 1) == 1#1
  let snap := (f.wcmd.extractLsb' 2 1) == 1#1
  let scope := (Scope.ofCode? (f.wcmd.extractLsb' 0 2)).getD .core
  let smk := f.smk
  let dmk := f.dmk
  let vv := f.etsel
  verdict
    [bad ((MkForm.ofCode? f.sub).isNone) 2 50 4,
     zeroF (f.comb) 26,
     zeroF (f.hops) 14,
     zeroF (f.wcmd.extractLsb' 5 6) 5,
     bad ((Scope.ofCode? (f.wcmd.extractLsb' 0 2)).isNone) 3 0 2,
     zeroIf all smk 38,
     bad (!(!(all && opt))) 3 4 1,
     bad (!(form == .bit || decide (dmk.toNat < 4))) 3 44 6,
     zeroIf (form != .vec) vv 30]
    (.mkset form opt all snap dmk smk vv f.wave scope f.tok)

/-- Opcode 0xD2: MKCLR (R335). -/
def decD2 (f : FormatW) : Except Reject Instr :=
  let form := (MkForm.ofCode? f.sub).getD .bit
  let opt := (f.wcmd.extractLsb' 4 1) == 1#1
  let all := (f.wcmd.extractLsb' 3 1) == 1#1
  let snap := (f.wcmd.extractLsb' 2 1) == 1#1
  let scope := (Scope.ofCode? (f.wcmd.extractLsb' 0 2)).getD .core
  let smk := f.smk
  let dmk := f.dmk
  verdict
    [bad ((MkForm.ofCode? f.sub).isNone) 2 50 4,
     zeroF (f.etsel) 30,
     zeroF (f.comb) 26,
     zeroF (f.hops) 14,
     zeroF (f.wcmd.extractLsb' 5 6) 5,
     bad ((Scope.ofCode? (f.wcmd.extractLsb' 0 2)).isNone) 3 0 2,
     zeroIf all smk 38,
     bad (!(!(all && opt))) 3 4 1,
     bad (!(form == .bit || decide (dmk.toNat < 4))) 3 44 6]
    (.mkclr form opt all snap dmk smk f.wave scope f.tok)

/-- Opcode 0xD3: MKPROP (R337). -/
def decD3 (f : FormatW) : Except Reject Instr :=
  let comb := (Comb.ofCode? f.comb).getD .or
  let opt := (f.wcmd.extractLsb' 4 1) == 1#1
  let all := (f.wcmd.extractLsb' 3 1) == 1#1
  let snap := (f.wcmd.extractLsb' 2 1) == 1#1
  let scope := (Scope.ofCode? (f.wcmd.extractLsb' 0 2)).getD .core
  let smk := f.smk
  verdict
    [bad (f.sub != 0#4) 2 50 4,
     bad ((Comb.ofCode? f.comb).isNone || !combBit comb) 3 26 4,
     zeroF (f.wcmd.extractLsb' 5 6) 5,
     bad ((Scope.ofCode? (f.wcmd.extractLsb' 0 2)).isNone) 3 0 2,
     zeroIf all smk 38]
    (.mkprop comb opt all snap f.dmk smk f.etsel f.hops f.wave scope f.tok)

/-- Opcode 0xD4: MKPROPV (R337). -/
def decD4 (f : FormatW) : Except Reject Instr :=
  let comb := (Comb.ofCode? f.comb).getD .or
  let all := (f.wcmd.extractLsb' 3 1) == 1#1
  let snap := (f.wcmd.extractLsb' 2 1) == 1#1
  let scope := (Scope.ofCode? (f.wcmd.extractLsb' 0 2)).getD .core
  let smk := f.smk
  let dmk := f.dmk
  let hops := f.hops
  verdict
    [bad (f.sub != 0#4) 2 50 4,
     bad ((Comb.ofCode? f.comb).isNone || !combVec comb) 3 26 4,
     zeroF (f.wcmd.extractLsb' 5 6) 5,
     zeroF (f.wcmd.extractLsb' 4 1) 4,
     bad ((Scope.ofCode? (f.wcmd.extractLsb' 0 2)).isNone) 3 0 2,
     zeroIf all smk 38,
     bad (!(decide (dmk.toNat < 4))) 3 44 6,
     bad (!((comb != .sum && comb != .wsum) || hops != 0#8)) 3 14 8]
    (.mkpropv comb all snap dmk smk f.etsel hops f.wave scope f.tok)

/-- Opcode 0xD5: MKCOLLECT (R341). -/
def decD5 (f : FormatW) : Except Reject Instr :=
  let opt := (f.wcmd.extractLsb' 4 1) == 1#1
  let all := (f.wcmd.extractLsb' 3 1) == 1#1
  let snap := (f.wcmd.extractLsb' 2 1) == 1#1
  let scope := (Scope.ofCode? (f.wcmd.extractLsb' 0 2)).getD .core
  let smk := f.smk
  let dmk := f.dmk
  verdict
    [bad (f.sub != 0#4) 2 50 4,
     zeroF (f.comb) 26,
     zeroF (f.hops) 14,
     zeroF (f.wcmd.extractLsb' 5 6) 5,
     bad ((Scope.ofCode? (f.wcmd.extractLsb' 0 2)).isNone) 3 0 2,
     zeroIf all smk 38,
     bad (!(!opt || decide (dmk.toNat < 4))) 3 44 6,
     zeroIf (!opt) dmk 44]
    (.mkcollect opt all snap dmk smk f.etsel f.wave scope f.tok)

/-- Opcode 0xD6: MKCOUNT (R336). -/
def decD6 (f : FormatW) : Except Reject Instr :=
  let all := (f.wcmd.extractLsb' 3 1) == 1#1
  let snap := (f.wcmd.extractLsb' 2 1) == 1#1
  let scope := (Scope.ofCode? (f.wcmd.extractLsb' 0 2)).getD .core
  let smk := f.smk
  verdict
    [bad (f.sub != 0#4) 2 50 4,
     zeroF (f.dmk) 44,
     zeroF (f.etsel) 30,
     zeroF (f.comb) 26,
     zeroF (f.hops) 14,
     zeroF (f.wcmd.extractLsb' 5 6) 5,
     zeroF (f.wcmd.extractLsb' 4 1) 4,
     bad ((Scope.ofCode? (f.wcmd.extractLsb' 0 2)).isNone) 3 0 2,
     zeroIf all smk 38]
    (.mkcount all snap smk f.wave scope f.tok)

/-- Opcode 0xD7: MKWAIT (R342). -/
def decD7 (f : FormatW) : Except Reject Instr :=
  verdict
    [bad (f.sub != 0#4) 2 50 4,
     zeroF (f.dmk) 44,
     zeroF (f.smk) 38,
     zeroF (f.etsel) 30,
     zeroF (f.comb) 26,
     zeroF (f.hops) 14,
     zeroF (f.tok) 11,
     zeroF (f.wcmd.extractLsb' 5 6) 5,
     zeroF (f.wcmd.extractLsb' 4 1) 4,
     zeroF (f.wcmd.extractLsb' 3 1) 3,
     zeroF (f.wcmd.extractLsb' 2 1) 2,
     zeroF (f.wcmd.extractLsb' 0 2) 0]
    (.mkwait f.wave)

/-- Opcode 0xD8: MKSTAT (R343). -/
def decD8 (f : FormatW) : Except Reject Instr :=
  verdict
    [bad (f.sub != 0#4) 2 50 4,
     zeroF (f.dmk) 44,
     zeroF (f.smk) 38,
     zeroF (f.comb) 26,
     zeroF (f.hops) 14,
     zeroF (f.tok) 11,
     zeroF (f.wcmd.extractLsb' 5 6) 5,
     zeroF (f.wcmd.extractLsb' 4 1) 4,
     zeroF (f.wcmd.extractLsb' 3 1) 3,
     zeroF (f.wcmd.extractLsb' 2 1) 2,
     zeroF (f.wcmd.extractLsb' 0 2) 0]
    (.mkstat f.etsel f.wave)

/-- Opcode 0xD9: NDRD (R350). -/
def decD9 (f : FormatM) : Except Reject Instr :=
  let fi := (NdField.ofCode? f.sub).getD .hdr
  let mv := (f.size.extractLsb' 0 2)
  verdict
    [bad ((NdField.ofCode? f.sub).isNone) 2 50 3,
     zeroIf (f.noofs == 1#1) f.ofs 30,
     zeroF (f.stream) 26,
     zeroF (f.size.extractLsb' 2 2) 14,
     zeroIf (fi != .mv) mv 12]
    (.ndrd fi mv f.data (MemRef.ofBits f.noofs f.hnd f.ofs f.disp) f.look f.tok f.mask)

/-- Opcode 0xDA: NDWR (R350). -/
def decDA (f : FormatM) : Except Reject Instr :=
  let fi := (NdField.ofCode? f.sub).getD .hdr
  let mv := (f.size.extractLsb' 0 2)
  verdict
    [bad ((NdField.ofCode? f.sub).isNone) 2 50 3,
     zeroIf (f.noofs == 1#1) f.ofs 30,
     zeroF (f.stream) 26,
     zeroF (f.look) 22,
     zeroF (f.size.extractLsb' 2 2) 14,
     zeroIf (fi != .mv) mv 12]
    (.ndwr fi mv f.data (MemRef.ofBits f.noofs f.hnd f.ofs f.disp) f.tok f.mask)

/-- Opcode 0xDB: EDRD (R350). -/
def decDB (f : FormatM) : Except Reject Instr :=
  let fi := (EdField.ofCode? f.sub).getD .edge
  verdict
    [bad ((EdField.ofCode? f.sub).isNone) 2 50 3,
     zeroIf (f.noofs == 1#1) f.ofs 30,
     zeroF (f.stream) 26,
     zeroF (f.size) 12]
    (.edrd fi f.data (MemRef.ofBits f.noofs f.hnd f.ofs f.disp) f.look f.tok f.mask)

/-- Opcode 0xDC: EDWR (R350). -/
def decDC (f : FormatM) : Except Reject Instr :=
  let fi := (EdField.ofCode? f.sub).getD .edge
  verdict
    [bad ((EdField.ofCode? f.sub).isNone) 2 50 3,
     zeroIf (f.noofs == 1#1) f.ofs 30,
     zeroF (f.stream) 26,
     zeroF (f.look) 22,
     zeroF (f.size) 12]
    (.edwr fi f.data (MemRef.ofBits f.noofs f.hnd f.ofs f.disp) f.tok f.mask)

/-- Opcode 0xE0: FLD (R402). -/
def decE0 (f : FormatA) : Except Reject Instr :=
  let sz := (FldSz.ofCode? f.sub).getD .w8
  verdict
    [bad ((FldSz.ofCode? f.sub).isNone) 2 50 4,
     zeroF (f.c) 18,
     zeroF (f.perm) 12,
     zeroF (f.parm) 7]
    (.fld sz f.d f.a f.b f.mod f.fmt f.mask)

/-- Opcode 0xE1: FST, FST_RADD (R402, R403). -/
def decE1 (f : FormatA) : Except Reject Instr :=
  if f.sub == 10#4 then
    verdict
      [zeroF (f.c) 18,
       zeroF (f.perm) 12,
       zeroF (f.parm) 7,
       zeroF (f.mod) 0]
      (.fstRadd f.d f.a f.b f.fmt f.mask)
  else
    let sz := (FldSz.ofCode? f.sub).getD .w8
    let rnd := (Rnd.ofCode? (f.mod.extractLsb' 0 3)).getD .rne
    verdict
      [bad ((FldSz.ofCode? f.sub).isNone || !fszStore sz) 2 50 4,
       zeroF (f.c) 18,
       zeroF (f.perm) 12,
       zeroF (f.parm) 7,
       bad (f.mod.extractLsb' 3 1 != 0#1 || (Rnd.ofCode? (f.mod.extractLsb' 0 3)).isNone) 3 0 4,
       bad (!(sz.isFp || rnd == .rne)) 3 0 4]
      (.fst sz rnd f.d f.a f.b f.fmt f.mask)

/-- Opcode 0xE2: FAT (R404). -/
def decE2 (f : FormatA) : Except Reject Instr :=
  let sz := (FatSz.ofCode? (f.sub.extractLsb' 3 1)).getD .w32
  let op := (AtomOp.ofCode? (f.sub.extractLsb' 0 3)).getD .add
  verdict
    [bad ((FatSz.ofCode? (f.sub.extractLsb' 3 1)).isNone) 2 53 1,
     bad ((AtomOp.ofCode? (f.sub.extractLsb' 0 3)).isNone) 2 50 3,
     zeroF (f.perm) 12,
     zeroF (f.parm) 7]
    (.fat op sz f.d f.a f.b f.c f.mod f.fmt f.mask)

/-- Opcode 0xE3: FMCST (R407). -/
def decE3 (f : FormatX) : Except Reject Instr :=
  verdict
    [bad (f.sub != 0#4) 2 50 4,
     zeroF (f.osa) 45,
     zeroF (f.osb) 40,
     zeroF (f.acc) 37,
     zeroF (f.fmta) 34,
     zeroF (f.fmtb) 31,
     zeroF (f.kblka) 29,
     zeroF (f.kblkb) 27,
     zeroF (f.look) 23,
     zeroF (f.cmd.extractLsb' 0 10) 0]
    (.fmcst ((f.cmd.extractLsb' 14 6)) ((f.cmd.extractLsb' 10 4)) f.tok)

/-- Opcode 0xE4: FWAIT (R409). -/
def decE4 (f : FormatI) : Except Reject Instr :=
  verdict
    [bad (f.sub != 0#4) 2 50 4,
     zeroF (f.d) 42,
     zeroF (f.a) 34,
     zeroF (f.mask) 31,
     zeroF (f.lit) 30,
     zeroF (f.mod) 24,
     zeroF (f.imm) 0]
    (.fwait)

/-- Opcode 0xE5: FPEER_EXPORT, FPEER_REVOKE, FPEER_STAT, FPEER_MCDEF, FPEER_PORT (R410). -/
def decE5 (f : FormatS) : Except Reject Instr :=
  if f.sub == 0#4 then
    let e := (f.scmd.extractLsb' 0 12)
    verdict
      [zeroF (f.d) 42,
       zeroF (f.csr) 22,
       zeroF (f.scmd.extractLsb' 12 10) 12,
       bad (!(e != 4095#12)) 3 0 12]
      (.fpeerExport e f.a)
  else if f.sub == 1#4 then
    let e := (f.scmd.extractLsb' 0 12)
    verdict
      [zeroF (f.d) 42,
       zeroF (f.a) 34,
       zeroF (f.csr) 22,
       zeroF (f.scmd.extractLsb' 12 10) 12,
       bad (!(e != 4095#12)) 3 0 12]
      (.fpeerRevoke e)
  else if f.sub == 2#4 then
    verdict
      [zeroF (f.a) 34,
       zeroF (f.csr) 22,
       zeroF (f.scmd.extractLsb' 12 10) 12]
      (.fpeerStat f.d ((f.scmd.extractLsb' 0 12)))
  else if f.sub == 3#4 then
    verdict
      [zeroF (f.d) 42,
       zeroF (f.csr) 22,
       zeroF (f.scmd.extractLsb' 12 10) 12]
      (.fpeerMcdef ((f.scmd.extractLsb' 0 12)) f.a)
  else if f.sub == 4#4 then
    verdict
      [zeroF (f.a) 34,
       zeroF (f.csr) 22,
       zeroF (f.scmd.extractLsb' 4 18) 4]
      (.fpeerPort f.d ((f.scmd.extractLsb' 0 4)))
  else
    .error (.reserved 2 (ones 50 4))

/-- Opcode 0xE8: BARV (R372). -/
def decE8 (f : FormatI) : Except Reject Instr :=
  verdict
    [bad (f.sub != 0#4) 2 50 4,
     zeroF (f.d.extractLsb' 3 5) 45,
     zeroF (f.a) 34,
     zeroF (f.mask) 31,
     zeroF (f.lit) 30,
     zeroF (f.mod) 24,
     zeroF (f.imm.extractLsb' 8 16) 8]
    (.barv ((f.imm.extractLsb' 0 8)) ((f.d.extractLsb' 0 3)))

/-- Opcode 0xE9: BARW (R372). -/
def decE9 (f : FormatI) : Except Reject Instr :=
  verdict
    [bad (f.sub != 0#4) 2 50 4,
     zeroF (f.d) 42,
     zeroF (f.a) 34,
     zeroF (f.mask) 31,
     zeroF (f.lit) 30,
     zeroF (f.mod) 24,
     zeroF (f.imm.extractLsb' 8 16) 8]
    (.barw ((f.imm.extractLsb' 0 8)))

/-- Opcode 0xEA: BARS (R372). -/
def decEA (f : FormatI) : Except Reject Instr :=
  verdict
    [bad (f.sub != 0#4) 2 50 4,
     zeroF (f.d) 42,
     zeroF (f.a) 34,
     zeroF (f.mask) 31,
     zeroF (f.lit) 30,
     zeroF (f.mod) 24,
     zeroF (f.imm.extractLsb' 8 16) 8]
    (.bars ((f.imm.extractLsb' 0 8)))

/-- Opcode 0xEB: BARQ (R372). -/
def decEB (f : FormatI) : Except Reject Instr :=
  verdict
    [bad (f.sub != 0#4) 2 50 4,
     zeroF (f.a) 34,
     zeroF (f.mask) 31,
     zeroF (f.lit) 30,
     zeroF (f.mod) 24,
     zeroF (f.imm.extractLsb' 8 16) 8]
    (.barq f.d ((f.imm.extractLsb' 0 8)))

/-- Opcode 0xEC: YIELD, YIELD_BAL (R367). -/
def decEC (f : FormatI) : Except Reject Instr :=
  if f.mod == 0#6 then
    verdict
      [bad (f.sub != 0#4) 2 50 4,
       zeroF (f.d) 42,
       zeroF (f.a) 34,
       zeroF (f.mask) 31,
       zeroF (f.lit) 30,
       zeroF (f.imm) 0]
      (.yield)
  else if f.mod == 1#6 then
    verdict
      [bad (f.sub != 0#4) 2 50 4,
       zeroF (f.d) 42,
       zeroF (f.a) 34,
       zeroF (f.mask) 31,
       zeroF (f.lit) 30,
       zeroF (f.imm) 0]
      (.yieldBal)
  else
    verdict [bad (f.sub != 0#4) 2 50 4, bad true 3 24 6] .nop

/-- Opcode 0xED: PRIO_SET, PRIO_RESTORE (R362). -/
def decED (f : FormatI) : Except Reject Instr :=
  if f.mod == 0#6 then
    verdict
      [bad (f.sub != 0#4) 2 50 4,
       zeroF (f.d) 42,
       zeroF (f.a) 34,
       zeroF (f.mask) 31,
       zeroF (f.lit) 30,
       zeroF (f.imm.extractLsb' 3 21) 3]
      (.prioSet ((f.imm.extractLsb' 0 3)))
  else if f.mod == 1#6 then
    verdict
      [bad (f.sub != 0#4) 2 50 4,
       zeroF (f.d) 42,
       zeroF (f.a) 34,
       zeroF (f.mask) 31,
       zeroF (f.lit) 30,
       zeroF (f.imm) 0]
      (.prioRestore)
  else
    verdict [bad (f.sub != 0#4) 2 50 4, bad true 3 24 6] .nop

/-- Opcode 0xEE: IDEM_BEGIN, IDEM_END (R374). -/
def decEE (f : FormatB) : Except Reject Instr :=
  if f.sub == 0#4 then
    let keep := f.cond
    verdict
      [zeroF (f.a) 34,
       zeroF (f.hint) 32,
       bad (!(decide (keep.toNat ≤ 16))) 3 42 8]
      (.idemBegin keep f.disp)
  else if f.sub == 1#4 then
    verdict
      [zeroF (f.cond) 42,
       zeroF (f.a) 34,
       zeroF (f.hint) 32,
       zeroF (f.disp) 0]
      (.idemEnd)
  else
    .error (.reserved 2 (ones 50 4))

/-- Opcode 0xEF: QPOST (R375). -/
def decEF (f : FormatM) : Except Reject Instr :=
  verdict
    [bad (f.noofs != 1#1) 4 53 1,
     bad (f.sub != 0#3) 2 50 3,
     zeroF (f.ofs) 30,
     zeroF (f.look) 22,
     zeroF (f.mask) 16,
     bad (f.size != 4#4) 3 12 4]
    (.qpost f.data f.hnd f.disp f.stream f.tok)

/-- Opcode 0xF0: CSRRD (R429). -/
def decF0 (f : FormatS) : Except Reject Instr :=
  let csr := (Csr.ofCode? f.csr).getD .gangstat
  verdict
    [bad (f.sub != 0#4) 2 50 4,
     zeroF (f.a) 34,
     bad ((Csr.ofCode? f.csr).isNone) 3 22 12,
     zeroF (f.scmd) 0]
    (.csrrd f.d csr)

/-- Opcode 0xF1: CSRWR, CSRWR_SET, CSRWR_CLR (R429). -/
def decF1 (f : FormatS) : Except Reject Instr :=
  if f.sub == 0#4 then
    let csr := (Csr.ofCode? f.csr).getD .gangstat
    verdict
      [zeroF (f.d) 42,
       bad ((Csr.ofCode? f.csr).isNone) 3 22 12,
       zeroF (f.scmd) 0]
      (.csrwr csr f.a)
  else if f.sub == 1#4 then
    let csr := (Csr.ofCode? f.csr).getD .gangstat
    verdict
      [zeroF (f.d) 42,
       bad ((Csr.ofCode? f.csr).isNone) 3 22 12,
       zeroF (f.scmd) 0]
      (.csrwrSet csr f.a)
  else if f.sub == 2#4 then
    let csr := (Csr.ofCode? f.csr).getD .gangstat
    verdict
      [zeroF (f.d) 42,
       bad ((Csr.ofCode? f.csr).isNone) 3 22 12,
       zeroF (f.scmd) 0]
      (.csrwrClr csr f.a)
  else
    .error (.reserved 2 (ones 50 4))

/-- Opcode 0xF2: TRAP (R430). -/
def decF2 (f : FormatS) : Except Reject Instr :=
  verdict
    [bad (f.sub != 0#4) 2 50 4,
     zeroF (f.d) 42,
     zeroF (f.a) 34,
     zeroF (f.csr) 22]
    (.trap f.scmd)

/-- Opcode 0xF3: RTE, RTE_NEXT (R431). -/
def decF3 (f : FormatS) : Except Reject Instr :=
  if f.sub == 0#4 then
    verdict
      [zeroF (f.d) 42,
       zeroF (f.a) 34,
       zeroF (f.csr) 22,
       zeroF (f.scmd) 0]
      (.rte)
  else if f.sub == 1#4 then
    verdict
      [zeroF (f.d) 42,
       zeroF (f.a) 34,
       zeroF (f.csr) 22,
       zeroF (f.scmd) 0]
      (.rteNext)
  else
    .error (.reserved 2 (ones 50 4))

/-- Opcode 0xF4: HALT (R432). -/
def decF4 (f : FormatS) : Except Reject Instr :=
  let code := (f.scmd.extractLsb' 0 8)
  verdict
    [bad (f.sub != 0#4) 2 50 4,
     zeroF (f.d) 42,
     zeroF (f.a) 34,
     zeroF (f.csr) 22,
     zeroF (f.scmd.extractLsb' 8 14) 8,
     bad (!(decide (128 ≤ code.toNat))) 3 0 8]
    (.halt code)

/-- Opcode 0xF5: CTXSAVE (R443). -/
def decF5 (f : FormatS) : Except Reject Instr :=
  verdict
    [bad (f.sub != 0#4) 2 50 4,
     zeroF (f.d) 42,
     zeroF (f.csr) 22,
     zeroF (f.scmd.extractLsb' 15 4) 15,
     zeroF (f.scmd.extractLsb' 3 8) 3,
     zeroF (f.scmd.extractLsb' 0 3) 0]
    (.ctxsave f.a ((f.scmd.extractLsb' 11 4)) ((f.scmd.extractLsb' 19 3)))

/-- Opcode 0xF6: CTXLOAD (R443). -/
def decF6 (f : FormatS) : Except Reject Instr :=
  verdict
    [bad (f.sub != 0#4) 2 50 4,
     zeroF (f.csr) 22,
     zeroF (f.scmd.extractLsb' 3 8) 3,
     zeroF (f.scmd.extractLsb' 0 3) 0]
    (.ctxload f.d f.a ((f.scmd.extractLsb' 15 4)) ((f.scmd.extractLsb' 11 4)) ((f.scmd.extractLsb' 19 3)))

/-- Opcode 0xF7: HNEW (R435). -/
def decF7 (f : FormatS) : Except Reject Instr :=
  verdict
    [bad (f.sub != 0#4) 2 50 4,
     zeroF (f.csr) 22,
     zeroF (f.scmd.extractLsb' 3 8) 3,
     zeroF (f.scmd.extractLsb' 0 3) 0]
    (.hnew f.d f.a ((f.scmd.extractLsb' 15 4)) ((f.scmd.extractLsb' 11 4)) ((f.scmd.extractLsb' 19 3)))

/-- Opcode 0xF8: HMAP (R436). -/
def decF8 (f : FormatS) : Except Reject Instr :=
  verdict
    [bad (f.sub != 0#4) 2 50 4,
     zeroF (f.csr) 22,
     zeroF (f.scmd.extractLsb' 3 8) 3,
     zeroF (f.scmd.extractLsb' 0 3) 0]
    (.hmap f.d f.a ((f.scmd.extractLsb' 15 4)) ((f.scmd.extractLsb' 11 4)) ((f.scmd.extractLsb' 19 3)))

/-- Opcode 0xF9: HREVOKE (R437). -/
def decF9 (f : FormatS) : Except Reject Instr :=
  verdict
    [bad (f.sub != 0#4) 2 50 4,
     zeroF (f.csr) 22,
     zeroF (f.scmd.extractLsb' 3 8) 3,
     zeroF (f.scmd.extractLsb' 0 3) 0]
    (.hrevoke f.d f.a ((f.scmd.extractLsb' 15 4)) ((f.scmd.extractLsb' 11 4)) ((f.scmd.extractLsb' 19 3)))

/-- Opcode 0xFA: HMIGR (R438). -/
def decFA (f : FormatS) : Except Reject Instr :=
  verdict
    [bad (f.sub != 0#4) 2 50 4,
     zeroF (f.csr) 22,
     zeroF (f.scmd.extractLsb' 3 8) 3]
    (.hmigr f.d f.a ((f.scmd.extractLsb' 0 3)) ((f.scmd.extractLsb' 15 4)) ((f.scmd.extractLsb' 11 4)) ((f.scmd.extractLsb' 19 3)))

/-- Opcode 0xFB: CHKPT_SAVE, CHKPT_LOAD (R439). -/
def decFB (f : FormatS) : Except Reject Instr :=
  if f.sub == 0#4 then
    verdict
      [zeroF (f.csr) 22,
       zeroF (f.scmd.extractLsb' 3 8) 3,
       zeroF (f.scmd.extractLsb' 0 3) 0]
      (.chkptSave f.d f.a ((f.scmd.extractLsb' 15 4)) ((f.scmd.extractLsb' 11 4)) ((f.scmd.extractLsb' 19 3)))
  else if f.sub == 1#4 then
    verdict
      [zeroF (f.csr) 22,
       zeroF (f.scmd.extractLsb' 3 8) 3,
       zeroF (f.scmd.extractLsb' 0 3) 0]
      (.chkptLoad f.d f.a ((f.scmd.extractLsb' 15 4)) ((f.scmd.extractLsb' 11 4)) ((f.scmd.extractLsb' 19 3)))
  else
    .error (.reserved 2 (ones 50 4))

/-! ## The opcode map (R110), row by row -/

/-- Row 0x0_ of the opcode map. -/
def row0 (lo : BitVec 4) (w : Word64) (lit : BitVec 62) : Except Reject Instr :=
  if lo == 0#4 then dec00 (FormatA.of w)
  else if lo == 1#4 then dec01 (FormatA.of w)
  else if lo == 2#4 then dec02 (FormatI.of w) lit
  else if lo == 3#4 then dec03 (FormatA.of w)
  else if lo == 4#4 then dec04 (FormatA.of w)
  else if lo == 5#4 then dec05 (FormatI.of w) lit
  else if lo == 6#4 then dec06 (FormatA.of w)
  else if lo == 7#4 then dec07 (FormatA.of w)
  else if lo == 8#4 then dec08 (FormatA.of w)
  else if lo == 9#4 then dec09 (FormatA.of w)
  else if lo == 10#4 then dec0A (FormatA.of w)
  else if lo == 11#4 then dec0B (FormatA.of w)
  else if lo == 12#4 then dec0C (FormatA.of w)
  else if lo == 13#4 then dec0D (FormatA.of w)
  else if lo == 14#4 then dec0E (FormatI.of w) lit
  else if lo == 15#4 then dec0F (FormatA.of w)
  else .error (.reserved 1 (ones 54 8))

/-- Row 0x1_ of the opcode map. -/
def row1 (lo : BitVec 4) (w : Word64) (lit : BitVec 62) : Except Reject Instr :=
  if lo == 0#4 then dec10 (FormatA.of w)
  else if lo == 1#4 then dec11 (FormatA.of w)
  else if lo == 2#4 then dec12 (FormatA.of w)
  else if lo == 3#4 then dec13 (FormatI.of w)
  else if lo == 4#4 then dec14 (FormatA.of w)
  else if lo == 5#4 then dec15 (FormatA.of w)
  else if lo == 6#4 then dec16 (FormatA.of w)
  else if lo == 7#4 then dec17 (FormatA.of w)
  else if lo == 8#4 then dec18 (FormatA.of w)
  else if lo == 9#4 then dec19 (FormatA.of w)
  else if lo == 10#4 then dec1A (FormatA.of w)
  else if lo == 11#4 then dec1B (FormatA.of w)
  else if lo == 12#4 then dec1C (FormatI.of w) lit
  else if lo == 13#4 then dec1D (FormatA.of w)
  else if lo == 14#4 then dec1E (FormatA.of w)
  else if lo == 15#4 then dec1F (FormatM.of w)
  else .error (.reserved 1 (ones 54 8))

/-- Row 0x2_ of the opcode map. -/
def row2 (lo : BitVec 4) (w : Word64) : Except Reject Instr :=
  if lo == 0#4 then dec20 (FormatA.of w)
  else if lo == 1#4 then dec21 (FormatA.of w)
  else if lo == 2#4 then dec22 (FormatA.of w)
  else if lo == 3#4 then dec23 (FormatA.of w)
  else if lo == 4#4 then dec24 (FormatI.of w)
  else .error (.reserved 1 (ones 54 8))

/-- Row 0x3_ of the opcode map. -/
def row3 (lo : BitVec 4) (w : Word64) : Except Reject Instr :=
  if lo == 0#4 then dec30 (FormatB.of w)
  else if lo == 1#4 then dec31 (FormatB.of w)
  else if lo == 2#4 then dec32 (FormatB.of w)
  else if lo == 3#4 then dec33 (FormatA.of w)
  else if lo == 4#4 then dec34 (FormatA.of w)
  else if lo == 5#4 then dec35 (FormatA.of w)
  else if lo == 6#4 then dec36 (FormatA.of w)
  else if lo == 7#4 then dec37 (FormatA.of w)
  else if lo == 8#4 then dec38 (FormatI.of w)
  else .error (.reserved 1 (ones 54 8))

/-- Row 0x4_ of the opcode map. -/
def row4 (lo : BitVec 4) (w : Word64) : Except Reject Instr :=
  if lo == 0#4 then dec40 (FormatA.of w)
  else if lo == 1#4 then dec41 (FormatA.of w)
  else if lo == 2#4 then dec42 (FormatA.of w)
  else if lo == 3#4 then dec43 (FormatA.of w)
  else if lo == 4#4 then dec44 (FormatA.of w)
  else if lo == 5#4 then dec45 (FormatA.of w)
  else if lo == 6#4 then dec46 (FormatA.of w)
  else if lo == 7#4 then dec47 (FormatA.of w)
  else if lo == 8#4 then dec48 (FormatA.of w)
  else if lo == 9#4 then dec49 (FormatA.of w)
  else if lo == 10#4 then dec4A (FormatA.of w)
  else if lo == 11#4 then dec4B (FormatA.of w)
  else if lo == 12#4 then dec4C (FormatA.of w)
  else if lo == 13#4 then dec4D (FormatA.of w)
  else if lo == 14#4 then dec4E (FormatI.of w)
  else .error (.reserved 1 (ones 54 8))

/-- Row 0x5_ of the opcode map. -/
def row5 : Except Reject Instr :=
  .error (.reserved 1 (ones 54 8))

/-- Row 0x6_ of the opcode map. -/
def row6 (lo : BitVec 4) (w : Word64) : Except Reject Instr :=
  if lo == 0#4 then dec60 (FormatA.of w)
  else if lo == 1#4 then dec61 (FormatA.of w)
  else if lo == 2#4 then dec62 (FormatA.of w)
  else if lo == 3#4 then dec63 (FormatA.of w)
  else if lo == 4#4 then dec64 (FormatA.of w)
  else if lo == 5#4 then dec65 (FormatA.of w)
  else if lo == 6#4 then dec66 (FormatA.of w)
  else if lo == 7#4 then dec67 (FormatA.of w)
  else if lo == 8#4 then dec68 (FormatA.of w)
  else if lo == 9#4 then dec69 (FormatA.of w)
  else if lo == 10#4 then dec6A (FormatA.of w)
  else if lo == 11#4 then dec6B (FormatA.of w)
  else if lo == 12#4 then dec6C (FormatA.of w)
  else if lo == 13#4 then dec6D (FormatA.of w)
  else if lo == 14#4 then dec6E (FormatA.of w)
  else if lo == 15#4 then dec6F (FormatA.of w)
  else .error (.reserved 1 (ones 54 8))

/-- Row 0x7_ of the opcode map. -/
def row7 (lo : BitVec 4) (w : Word64) : Except Reject Instr :=
  if lo == 0#4 then dec70 (FormatA.of w)
  else if lo == 1#4 then dec71 (FormatA.of w)
  else if lo == 2#4 then dec72 (FormatA.of w)
  else if lo == 3#4 then dec73 (FormatA.of w)
  else if lo == 4#4 then dec74 (FormatA.of w)
  else if lo == 5#4 then dec75 (FormatA.of w)
  else if lo == 6#4 then dec76 (FormatA.of w)
  else if lo == 7#4 then dec77 (FormatA.of w)
  else if lo == 8#4 then dec78 (FormatA.of w)
  else if lo == 9#4 then dec79 (FormatA.of w)
  else if lo == 10#4 then dec7A (FormatB.of w)
  else if lo == 11#4 then dec7B (FormatA.of w)
  else .error (.reserved 1 (ones 54 8))

/-- Row 0x8_ of the opcode map. -/
def row8 : Except Reject Instr :=
  .error (.reserved 1 (ones 54 8))

/-- Row 0x9_ of the opcode map. -/
def row9 (lo : BitVec 4) (w : Word64) : Except Reject Instr :=
  if lo == 0#4 then dec90 (FormatM.of w)
  else if lo == 1#4 then dec91 (FormatM.of w)
  else if lo == 2#4 then dec92 (FormatM.of w)
  else if lo == 3#4 then dec93 (FormatM.of w)
  else if lo == 4#4 then dec94 (FormatM.of w)
  else if lo == 5#4 then dec95 (FormatM.of w)
  else if lo == 6#4 then dec96 (FormatM.of w)
  else if lo == 7#4 then dec97 (FormatM.of w)
  else if lo == 8#4 then dec98 (FormatM.of w)
  else if lo == 9#4 then dec99 (FormatM.of w)
  else if lo == 10#4 then dec9A (FormatI.of w)
  else if lo == 11#4 then dec9B (FormatI.of w)
  else if lo == 12#4 then dec9C (FormatI.of w)
  else if lo == 13#4 then dec9D (FormatM.of w)
  else if lo == 14#4 then dec9E (FormatM.of w)
  else if lo == 15#4 then dec9F (FormatM.of w)
  else .error (.reserved 1 (ones 54 8))

/-- Row 0xA_ of the opcode map. -/
def rowA (lo : BitVec 4) (w : Word64) : Except Reject Instr :=
  if lo == 0#4 then decA0 (FormatS.of w)
  else .error (.reserved 1 (ones 54 8))

/-- Row 0xB_ of the opcode map. -/
def rowB (lo : BitVec 4) (w : Word64) : Except Reject Instr :=
  if lo == 0#4 then decB0 (FormatX.of w)
  else if lo == 1#4 then decB1 (FormatX.of w)
  else if lo == 2#4 then decB2 (FormatX.of w)
  else if lo == 3#4 then decB3 (FormatX.of w)
  else if lo == 4#4 then decB4 (FormatX.of w)
  else if lo == 5#4 then decB5 (FormatX.of w)
  else if lo == 6#4 then decB6 (FormatX.of w)
  else if lo == 7#4 then decB7 (FormatX.of w)
  else if lo == 8#4 then decB8 (FormatX.of w)
  else if lo == 9#4 then decB9 (FormatX.of w)
  else if lo == 10#4 then decBA (FormatX.of w)
  else .error (.reserved 1 (ones 54 8))

/-- Row 0xC_ of the opcode map. -/
def rowC (lo : BitVec 4) (w : Word64) : Except Reject Instr :=
  if lo == 0#4 then decC0 (FormatX.of w)
  else if lo == 1#4 then decC1 (FormatX.of w)
  else if lo == 2#4 then decC2 (FormatX.of w)
  else if lo == 3#4 then decC3 (FormatX.of w)
  else if lo == 4#4 then decC4 (FormatX.of w)
  else if lo == 5#4 then decC5 (FormatX.of w)
  else if lo == 6#4 then decC6 (FormatX.of w)
  else if lo == 8#4 then decC8 (FormatR.of w)
  else if lo == 9#4 then decC9 (FormatK.of w)
  else if lo == 10#4 then decCA (FormatX.of w)
  else if lo == 11#4 then decCB (FormatX.of w)
  else .error (.reserved 1 (ones 54 8))

/-- Row 0xD_ of the opcode map. -/
def rowD (lo : BitVec 4) (w : Word64) : Except Reject Instr :=
  if lo == 0#4 then decD0 (FormatW.of w)
  else if lo == 1#4 then decD1 (FormatW.of w)
  else if lo == 2#4 then decD2 (FormatW.of w)
  else if lo == 3#4 then decD3 (FormatW.of w)
  else if lo == 4#4 then decD4 (FormatW.of w)
  else if lo == 5#4 then decD5 (FormatW.of w)
  else if lo == 6#4 then decD6 (FormatW.of w)
  else if lo == 7#4 then decD7 (FormatW.of w)
  else if lo == 8#4 then decD8 (FormatW.of w)
  else if lo == 9#4 then decD9 (FormatM.of w)
  else if lo == 10#4 then decDA (FormatM.of w)
  else if lo == 11#4 then decDB (FormatM.of w)
  else if lo == 12#4 then decDC (FormatM.of w)
  else .error (.reserved 1 (ones 54 8))

/-- Row 0xE_ of the opcode map. -/
def rowE (lo : BitVec 4) (w : Word64) : Except Reject Instr :=
  if lo == 0#4 then decE0 (FormatA.of w)
  else if lo == 1#4 then decE1 (FormatA.of w)
  else if lo == 2#4 then decE2 (FormatA.of w)
  else if lo == 3#4 then decE3 (FormatX.of w)
  else if lo == 4#4 then decE4 (FormatI.of w)
  else if lo == 5#4 then decE5 (FormatS.of w)
  else if lo == 8#4 then decE8 (FormatI.of w)
  else if lo == 9#4 then decE9 (FormatI.of w)
  else if lo == 10#4 then decEA (FormatI.of w)
  else if lo == 11#4 then decEB (FormatI.of w)
  else if lo == 12#4 then decEC (FormatI.of w)
  else if lo == 13#4 then decED (FormatI.of w)
  else if lo == 14#4 then decEE (FormatB.of w)
  else if lo == 15#4 then decEF (FormatM.of w)
  else .error (.reserved 1 (ones 54 8))

/-- Row 0xF_ of the opcode map. -/
def rowF (lo : BitVec 4) (w : Word64) : Except Reject Instr :=
  if lo == 0#4 then decF0 (FormatS.of w)
  else if lo == 1#4 then decF1 (FormatS.of w)
  else if lo == 2#4 then decF2 (FormatS.of w)
  else if lo == 3#4 then decF3 (FormatS.of w)
  else if lo == 4#4 then decF4 (FormatS.of w)
  else if lo == 5#4 then decF5 (FormatS.of w)
  else if lo == 6#4 then decF6 (FormatS.of w)
  else if lo == 7#4 then decF7 (FormatS.of w)
  else if lo == 8#4 then decF8 (FormatS.of w)
  else if lo == 9#4 then decF9 (FormatS.of w)
  else if lo == 10#4 then decFA (FormatS.of w)
  else if lo == 11#4 then decFB (FormatS.of w)
  else .error (.reserved 1 (ones 54 8))

/-- Decoding a full instruction by its opcode. -/
def decFull (w : Word64) (lit : BitVec 62) : Except Reject Instr :=
  let hi := w.extractLsb' 58 4
  let lo := w.extractLsb' 54 4
  if hi == 0#4 then row0 lo w lit
  else if hi == 1#4 then row1 lo w lit
  else if hi == 2#4 then row2 lo w
  else if hi == 3#4 then row3 lo w
  else if hi == 4#4 then row4 lo w
  else if hi == 5#4 then row5
  else if hi == 6#4 then row6 lo w
  else if hi == 7#4 then row7 lo w
  else if hi == 8#4 then row8
  else if hi == 9#4 then row9 lo w
  else if hi == 10#4 then rowA lo w
  else if hi == 11#4 then rowB lo w
  else if hi == 12#4 then rowC lo w
  else if hi == 13#4 then rowD lo w
  else if hi == 14#4 then rowE lo w
  else rowF lo w

/-- Whether an opcode takes a literal (R94): MOVI, ADDI, LOGI, CMPI. -/
def takesLiteral (opc : BitVec 8) : Bool := opc == 0x02#8 || opc == 0x05#8 || opc == 0x0E#8 || opc == 0x1C#8

/-- Whether a word is a full instruction that a literal word must follow (R87, R94). -/
def wantsLiteral (w : Word64) : Bool := kindOf w == 0#2 && takesLiteral (opcOf w) && litOf w == 1#1


/-! ## Pair words -/

/-- The compact operation at the low 31 bits (R102). -/
structure CompactBits where
  copc : BitVec 6
  d : BitVec 7
  a : BitVec 7
  b : BitVec 7
  msk : BitVec 3
  zero : BitVec 1
  deriving DecidableEq, Repr

/-- The fields of a compact operation (R102). -/
def CompactBits.of (w : BitVec 31) : CompactBits :=
  ⟨w.extractLsb' 25 6, w.extractLsb' 18 7, w.extractLsb' 11 7, w.extractLsb' 4 7, w.extractLsb' 1 3, w.extractLsb' 0 1⟩

/-- The 31 bits of a compact operation (R102). -/
def CompactBits.pack (f : CompactBits) : BitVec 31 :=
  cat 31 f.copc (cat 25 f.d (cat 18 f.a (cat 11 f.b (cat 4 f.msk f.zero))))

/-- The compact operation, when its COPC is listed (R103). -/
def CompactBits.op (f : CompactBits) : Compact :=
  ⟨(COp.ofCode? f.copc).getD .nop, f.d, f.a, f.b, f.msk⟩

/-- The checks of one compact operation that do not concern the other: DETAIL 4 and 5, TINFO1 the position (R455). -/
def CompactBits.checks (f : CompactBits) (pos : Word64) : List Check :=
  [((COp.ofCode? f.copc).isNone, 4, pos), (f.zero != 0#1 || !f.op.tidy, 5, pos)]

/-- The pairing violations of a pair word, OP0 before OP1 (R104, R450, R455). -/
def pairChecks (f g : CompactBits) : List Check :=
  [(!banksOk f.op g.op, 1, 0), (!sourcesOk f.op g.op, 2, 0), (f.op.op.isMul && g.op.op.isMul, 3, 0)]

/-- The lowest DETAIL of a list of failed checks, the first of its kind. -/
def firstBad : List Check → Option (Nat × Word64)
  | [] => none
  | (false, _, _) :: cs => firstBad cs
  | (true, d, m) :: cs =>
    match firstBad cs with
    | none => some (d, m)
    | some (d', m') => if d' < d then some (d', m') else some (d, m)

/-- Decoding a pair word. A reserved COPC is reported only as itself, since no statement names its fields; beside it the
other operation is checked in its place, OP0 before OP1 (R450). -/
def decPair (w : Word64) : Except Reject Instr :=
  let f := CompactBits.of (w.extractLsb' 31 31)
  let g := CompactBits.of (w.extractLsb' 0 31)
  let cs : List Check :=
    if (COp.ofCode? f.copc).isNone then [(true, 4, 0)]
    else if (COp.ofCode? g.copc).isNone then
      (if (f.checks 0).any (·.1) then f.checks 0 else [(true, 4, 1)])
    else pairChecks f g ++ f.checks 0 ++ g.checks 1
  match firstBad cs with
  | none => .ok (.pairWord f.op g.op)
  | some (d, m) => .error (.pairing d m)

/-- The bits of a compact operation. -/
def Compact.bits (c : Compact) : BitVec 31 := CompactBits.pack ⟨c.op.code, c.d, c.a, c.b, c.msk, 0#1⟩

/-! ## The decoder -/

/-- Decoding the words of one instruction: the word, and after it the literal word when the instruction takes one
(R82, R94). -/
def decodeWords : List Word64 → Except Reject Instr
  | [] => .error .noWord
  | w :: rest =>
    if kindOf w == 0#2 then
      if wantsLiteral w then
        match rest with
        | [] => .error .noLiteral
        | l :: _ => if kindOf l == 3#2 then decFull w (l.extractLsb' 0 62) else .error .noLiteral
      else decFull w 0#62
    else if kindOf w == 1#2 then decPair w
    else if kindOf w == 2#2 then .error .header
    else .error .literal

/-- A 64-bit word of bytes in little-endian order (R5). -/
def wordOfBytes (bs : List Byte) : Word64 :=
  BitVec.ofNat 64 (bs.foldr (fun b n => b.toNat + 256 * n) 0)

/-- The whole words at the front of a run of bytes; a rest of fewer than eight bytes is no word. -/
def wordsOfBytes : List Byte → List Word64
  | b0 :: b1 :: b2 :: b3 :: b4 :: b5 :: b6 :: b7 :: rest =>
    wordOfBytes [b0, b1, b2, b3, b4, b5, b6, b7] :: wordsOfBytes rest
  | _ => []

/-- The eight bytes of a word, lowest first (R5). -/
def bytesOfWord (w : Word64) : List Byte := (List.range 8).map fun k => w.extractLsb' (8 * k) 8

/-- Decoding any bytes. -/
def decodeBytes (bs : List Byte) : Except Reject Instr := decodeWords (wordsOfBytes bs)

/-- The instruction that the decoder reads from the low `nbits` bits of `w`: the first word is bits 63..0, a literal
word bits 127..64; bits above `nbits` are zero. The bytes are laid out as the hardware stores them. -/
def decodeTableWord (nbits w : Nat) : Option Instr :=
  let v := w % 2 ^ nbits
  match decodeBytes (bytesOfWord (BitVec.ofNat 64 v) ++ bytesOfWord (BitVec.ofNat 64 (v / 2 ^ 64))) with
  | .ok i => some i
  | .error _ => none

/-! ## The encoder -/

/-- The words of an instruction, from the same maps (R82-R104). The events of the opcode table are no instructions
and have no words. -/
def encode : Instr → List Word64
  | .nop => [FormatA.pack ⟨0x00#8, 0#4, 0#8, 0#8, 0#8, 0#8, 0#3, 0#3, 0#5, 0#3, 0#4⟩]
  | .mov ty d a perm mk => [FormatA.pack ⟨0x01#8, ty.code, d, a, 0#8, 0#8, mk, perm.bits.1, perm.bits.2, 0#3, 0#4⟩]
  | .movi ty d imm mk => imm.words (FormatI.pack ⟨0x02#8, ty.code, d, 0#8, mk, imm.litBit, 0#6, imm.short24⟩)
  | .add ty am d a perm b mk => [FormatA.pack ⟨0x03#8, ty.code, d, a, b, 0#8, mk, perm.bits.1, perm.bits.2, 0#3, am.code⟩]
  | .sub ty am d a perm b mk => [FormatA.pack ⟨0x04#8, ty.code, d, a, b, 0#8, mk, perm.bits.1, perm.bits.2, 0#3, am.code⟩]
  | .addi ty am d a imm mk => imm.words (FormatI.pack ⟨0x05#8, ty.code, d, a, mk, imm.litBit, cat 6 0#2 am.code, imm.short24⟩)
  | .mul ty d a perm b mk => [FormatA.pack ⟨0x06#8, ty.code, d, a, b, 0#8, mk, perm.bits.1, perm.bits.2, 0#3, 0#4⟩]
  | .mulh ty d a perm b mk => [FormatA.pack ⟨0x07#8, ty.code, d, a, b, 0#8, mk, perm.bits.1, perm.bits.2, 0#3, 0#4⟩]
  | .mad ty d a perm b c mk => [FormatA.pack ⟨0x08#8, ty.code, d, a, b, c, mk, perm.bits.1, perm.bits.2, 0#3, 0#4⟩]
  | .idiv ty d a perm b flag look mk => [FormatA.pack ⟨0x09#8, ty.code, d, a, b, cat 8 0#5 flag, mk, perm.bits.1, perm.bits.2, 0#3, look⟩]
  | .irem ty d a perm b flag look mk => [FormatA.pack ⟨0x0A#8, ty.code, d, a, b, cat 8 0#5 flag, mk, perm.bits.1, perm.bits.2, 0#3, look⟩]
  | .and ty d a perm b mk => [FormatA.pack ⟨0x0B#8, ty.code, d, a, b, 0#8, mk, perm.bits.1, perm.bits.2, 0#3, 0#4⟩]
  | .or ty d a perm b mk => [FormatA.pack ⟨0x0C#8, ty.code, d, a, b, 0#8, mk, perm.bits.1, perm.bits.2, 0#3, 0#4⟩]
  | .xor ty d a perm b mk => [FormatA.pack ⟨0x0D#8, ty.code, d, a, b, 0#8, mk, perm.bits.1, perm.bits.2, 0#3, 0#4⟩]
  | .logi kind ty d a imm mk => imm.words (FormatI.pack ⟨0x0E#8, ty.code, d, a, mk, imm.litBit, kind.code, imm.short24⟩)
  | .shl ty d a perm b mk => [FormatA.pack ⟨0x0F#8, ty.code, d, a, b, 0#8, mk, perm.bits.1, perm.bits.2, 0#3, 0#4⟩]
  | .shr ty d a perm b mk => [FormatA.pack ⟨0x10#8, ty.code, d, a, b, 0#8, mk, perm.bits.1, perm.bits.2, 0#3, 0#4⟩]
  | .sar ty d a perm b mk => [FormatA.pack ⟨0x11#8, ty.code, d, a, b, 0#8, mk, perm.bits.1, perm.bits.2, 0#3, 0#4⟩]
  | .rot ty d a perm b mk => [FormatA.pack ⟨0x12#8, ty.code, d, a, b, 0#8, mk, perm.bits.1, perm.bits.2, 0#3, 0#4⟩]
  | .shi kind ty d a n mk => [FormatI.pack ⟨0x13#8, ty.code, d, a, mk, 0#1, kind.code, n⟩]
  | .clz ty d a perm mk => [FormatA.pack ⟨0x14#8, ty.code, d, a, 0#8, 0#8, mk, perm.bits.1, perm.bits.2, 0#3, 0#4⟩]
  | .popc ty d a perm mk => [FormatA.pack ⟨0x15#8, ty.code, d, a, 0#8, 0#8, mk, perm.bits.1, perm.bits.2, 0#3, 0#4⟩]
  | .brev ty d a perm mk => [FormatA.pack ⟨0x16#8, ty.code, d, a, 0#8, 0#8, mk, perm.bits.1, perm.bits.2, 0#3, 0#4⟩]
  | .min ty d a perm b mk => [FormatA.pack ⟨0x17#8, ty.code, d, a, b, 0#8, mk, perm.bits.1, perm.bits.2, 0#3, 0#4⟩]
  | .max ty d a perm b mk => [FormatA.pack ⟨0x18#8, ty.code, d, a, b, 0#8, mk, perm.bits.1, perm.bits.2, 0#3, 0#4⟩]
  | .abs ty sat d a perm mk => [FormatA.pack ⟨0x19#8, ty.code, d, a, 0#8, 0#8, mk, perm.bits.1, perm.bits.2, 0#3, cat 4 (0#3) (bit sat)⟩]
  | .sel ty d a perm b mc mk => [FormatA.pack ⟨0x1A#8, ty.code, d, a, b, cat 8 0#5 mc, mk, perm.bits.1, perm.bits.2, 0#3, 0#4⟩]
  | .cmp cond ty md a perm b mk => [FormatA.pack ⟨0x1B#8, ty.code, cat 8 0#5 md, a, b, 0#8, mk, perm.bits.1, perm.bits.2, 0#3, cond.code⟩]
  | .cmpi cond ty md a imm mk => imm.words (FormatI.pack ⟨0x1C#8, ty.code, cat 8 0#5 md, a, mk, imm.litBit, cat 6 0#2 cond.code, imm.short24⟩)
  | .bfe ty d a perm b mk => [FormatA.pack ⟨0x1D#8, ty.code, d, a, b, 0#8, mk, perm.bits.1, perm.bits.2, 0#3, 0#4⟩]
  | .bfi ty d a perm b c mk => [FormatA.pack ⟨0x1E#8, ty.code, d, a, b, c, mk, perm.bits.1, perm.bits.2, 0#3, 0#4⟩]
  | .lea size d m look tok mk => [FormatM.pack ⟨0x1F#8, m.noofsBit, 0#3, d, m.hnd, m.ofsBits, 0#4, look, tok, mk, size.code, m.disp⟩]
  | .ids q d mk => [FormatA.pack ⟨0x20#8, 0#4, d, 0#8, 0#8, 0#8, mk, 0#3, 0#5, 0#3, q.code⟩]
  | .mlog kind md ma mb mk => [FormatA.pack ⟨0x21#8, 0#4, cat 8 0#5 md, cat 8 0#5 ma, cat 8 0#5 mb, 0#8, mk, 0#3, 0#5, 0#3, kind.code⟩]
  | .mpop d ma mk => [FormatA.pack ⟨0x22#8, 0#4, d, cat 8 0#5 ma, 0#8, 0#8, mk, 0#3, 0#5, 0#3, 0#4⟩]
  | .mfirst d ma mk => [FormatA.pack ⟨0x23#8, 0#4, d, cat 8 0#5 ma, 0#8, 0#8, mk, 0#3, 0#5, 0#3, 0#4⟩]
  | .mset kind md imm mk => [FormatI.pack ⟨0x24#8, 0#4, cat 8 0#5 md, 0#8, mk, 0#1, kind.code, imm⟩]
  | .br sense mc hint disp => [FormatB.pack ⟨0x30#8, sense.code, cat 8 0#5 mc, 0#8, hint.code, disp⟩]
  | .brm kind mc hint disp => [FormatB.pack ⟨0x31#8, kind.code, cat 8 0#5 mc, 0#8, hint.code, disp⟩]
  | .call vd hint disp => [FormatB.pack ⟨0x32#8, 0#4, vd, 0#8, hint.code, disp⟩]
  | .calli vd va mk => [FormatA.pack ⟨0x33#8, 0#4, vd, va, 0#8, 0#8, mk, 0#3, 0#5, 0#3, 0#4⟩]
  | .ret va mk => [FormatA.pack ⟨0x34#8, 0#4, 0#8, va, 0#8, 0#8, mk, 0#3, 0#5, 0#3, 0#4⟩]
  | .jmpi va mk => [FormatA.pack ⟨0x35#8, 0#4, 0#8, va, 0#8, 0#8, mk, 0#3, 0#5, 0#3, 0#4⟩]
  | .regang => [FormatA.pack ⟨0x36#8, 0#4, 0#8, 0#8, 0#8, 0#8, 0#3, 0#3, 0#5, 0#3, 0#4⟩]
  | .exit mk => [FormatA.pack ⟨0x37#8, 0#4, 0#8, 0#8, 0#8, 0#8, mk, 0#3, 0#5, 0#3, 0#4⟩]
  | .waittok toks => [FormatI.pack ⟨0x38#8, 0#4, 0#8, 0#8, 0#3, 0#1, 0#6, cat 24 (0#16) (cat 8 (toks) (0#1))⟩]
  | .shfl mode wd d a b mk => [FormatA.pack ⟨0x40#8, wd.code, d, a, b, 0#8, mk, 0#3, 0#5, 0#3, mode.code⟩]
  | .bcast pick wd d a b mk => [FormatA.pack ⟨0x41#8, wd.code, d, a, b, 0#8, mk, 0#3, 0#5, 0#3, pick.code⟩]
  | .reduce op d a look mk => [FormatA.pack ⟨0x42#8, op.code, d, a, 0#8, 0#8, mk, 0#3, 0#5, 0#3, look⟩]
  | .scan op d a look mk => [FormatA.pack ⟨0x43#8, op.code, d, a, 0#8, 0#8, mk, 0#3, 0#5, 0#3, look⟩]
  | .vote kind w64 md a mk => [FormatA.pack ⟨0x44#8, voteSub kind w64, cat 8 0#5 md, a, 0#8, 0#8, mk, 0#3, 0#5, 0#3, kind.code⟩]
  | .ballot kind d ma mk => [FormatA.pack ⟨0x45#8, 0#4, d, cat 8 0#5 ma, 0#8, 0#8, mk, 0#3, 0#5, 0#3, kind.code⟩]
  | .dot4 ty sat d a perm b c fmt mk => [FormatA.pack ⟨0x46#8, ty.code, d, a, b, c, mk, perm.bits.1, perm.bits.2, fmt, cat 4 (0#3) (bit sat)⟩]
  | .dot8 ty sat d a perm b c fmt mk => [FormatA.pack ⟨0x47#8, ty.code, d, a, b, c, mk, perm.bits.1, perm.bits.2, fmt, cat 4 (0#3) (bit sat)⟩]
  | .pack ty sat d a perm b c j mk => [FormatA.pack ⟨0x48#8, ty.code, d, a, b, c, mk, perm.bits.1, perm.bits.2, 0#3, cat 4 (bit sat) (cat 3 (0#1) (j))⟩]
  | .unpack ty d a perm n mk => [FormatA.pack ⟨0x49#8, ty.code, d, a, 0#8, 0#8, mk, perm.bits.1, perm.bits.2, 0#3, cat 4 (0#1) (n)⟩]
  | .clmul wd hi d a perm b mk => [FormatA.pack ⟨0x4A#8, wd.code, d, a, b, 0#8, mk, perm.bits.1, perm.bits.2, 0#3, cat 4 (0#3) (bit hi)⟩]
  | .byteperm d a perm b c mk => [FormatA.pack ⟨0x4B#8, 8#4, d, a, b, c, mk, perm.bits.1, perm.bits.2, 0#3, 0#4⟩]
  | .rebal mode wd d a mc mk => [FormatA.pack ⟨0x4C#8, wd.code, d, a, 0#8, cat 8 0#5 mc, mk, 0#3, 0#5, 0#3, mode.code⟩]
  | .shapeGet d a mk => [FormatA.pack ⟨0x4D#8, 0#4, d, a, 0#8, 0#8, mk, 0#3, 0#5, 0#3, 0#4⟩]
  | .shapeFit wd d a mk => [FormatA.pack ⟨0x4D#8, wd.code, d, a, 0#8, 0#8, mk, 0#3, 0#5, 0#3, 1#4⟩]
  | .iota ty d base stride mk => [FormatI.pack ⟨0x4E#8, ty.code, d, 0#8, mk, 0#1, stride, base⟩]
  | .fadd cls d a perm b mk => [FormatA.pack ⟨0x60#8, cls.code, d, a, b, 0#8, mk, perm.bits.1, perm.bits.2, 0#3, 0#4⟩]
  | .fsub cls d a perm b mk => [FormatA.pack ⟨0x61#8, cls.code, d, a, b, 0#8, mk, perm.bits.1, perm.bits.2, 0#3, 0#4⟩]
  | .fmul cls d a perm b mk => [FormatA.pack ⟨0x62#8, cls.code, d, a, b, 0#8, mk, perm.bits.1, perm.bits.2, 0#3, 0#4⟩]
  | .ffma cls d a perm b c mk => [FormatA.pack ⟨0x63#8, cls.code, d, a, b, c, mk, perm.bits.1, perm.bits.2, 0#3, 0#4⟩]
  | .fmin cls d a perm b mk => [FormatA.pack ⟨0x64#8, cls.code, d, a, b, 0#8, mk, perm.bits.1, perm.bits.2, 0#3, 0#4⟩]
  | .fmax cls d a perm b mk => [FormatA.pack ⟨0x65#8, cls.code, d, a, b, 0#8, mk, perm.bits.1, perm.bits.2, 0#3, 0#4⟩]
  | .fcmp cond x cls md a perm b mk => [FormatA.pack ⟨0x66#8, cls.code, cat 8 0#5 md, a, b, 0#8, mk, perm.bits.1, perm.bits.2, 0#3, cat 4 (bit x) (cond.code)⟩]
  | .fclass cls d a perm mk => [FormatA.pack ⟨0x67#8, cls.code, d, a, 0#8, 0#8, mk, perm.bits.1, perm.bits.2, 0#3, 0#4⟩]
  | .frcp cls d a perm look mk => [FormatA.pack ⟨0x68#8, cls.code, d, a, 0#8, 0#8, mk, perm.bits.1, perm.bits.2, 0#3, look⟩]
  | .frsq cls d a perm look mk => [FormatA.pack ⟨0x69#8, cls.code, d, a, 0#8, 0#8, mk, perm.bits.1, perm.bits.2, 0#3, look⟩]
  | .fexp2 cls d a perm look mk => [FormatA.pack ⟨0x6A#8, cls.code, d, a, 0#8, 0#8, mk, perm.bits.1, perm.bits.2, 0#3, look⟩]
  | .flog2 cls d a perm look mk => [FormatA.pack ⟨0x6B#8, cls.code, d, a, 0#8, 0#8, mk, perm.bits.1, perm.bits.2, 0#3, look⟩]
  | .fsin cls d a perm look mk => [FormatA.pack ⟨0x6C#8, cls.code, d, a, 0#8, 0#8, mk, perm.bits.1, perm.bits.2, 0#3, look⟩]
  | .fcos cls d a perm look mk => [FormatA.pack ⟨0x6D#8, cls.code, d, a, 0#8, 0#8, mk, perm.bits.1, perm.bits.2, 0#3, look⟩]
  | .fscale cls d a perm b mk => [FormatA.pack ⟨0x6E#8, cls.code, d, a, b, 0#8, mk, perm.bits.1, perm.bits.2, 0#3, 0#4⟩]
  | .frexp part cls d a perm mk => [FormatA.pack ⟨0x6F#8, cls.code, d, a, 0#8, 0#8, mk, perm.bits.1, perm.bits.2, 0#3, part.code⟩]
  | .fcvt dst src d a perm mk => [FormatA.pack ⟨0x70#8, dst.code, d, a, 0#8, 0#8, mk, perm.bits.1, perm.bits.2, 0#3, src.code⟩]
  | .fcvti ty cls d a perm rnd mk => [FormatA.pack ⟨0x71#8, cls.code, d, a, 0#8, cat 8 0#5 rnd.code, mk, perm.bits.1, perm.bits.2, 0#3, ty.code⟩]
  | .icvtf cls ty d a perm mk => [FormatA.pack ⟨0x72#8, cls.code, d, a, 0#8, 0#8, mk, perm.bits.1, perm.bits.2, 0#3, ty.code⟩]
  | .fpack ty sat d a b c j fmt mk => [FormatA.pack ⟨0x73#8, ty.code, d, a, b, c, mk, 0#3, 0#5, fmt, cat 4 (0#1) (cat 3 (bit sat) (j))⟩]
  | .funpack cls d a perm n mk => [FormatA.pack ⟨0x74#8, cls.code, d, a, 0#8, 0#8, mk, perm.bits.1, perm.bits.2, 0#3, cat 4 (0#1) (n)⟩]
  | .freduce cls d a look mk => [FormatA.pack ⟨0x75#8, cls.code, d, a, 0#8, 0#8, mk, 0#3, 0#5, 0#3, look⟩]
  | .kget pick cls d a perm mk => [FormatA.pack ⟨0x76#8, cls.code, d, a, 0#8, 0#8, mk, perm.bits.1, perm.bits.2, 0#3, pick.code⟩]
  | .kset cls d a perm b mk => [FormatA.pack ⟨0x77#8, cls.code, d, a, b, 0#8, mk, perm.bits.1, perm.bits.2, 0#3, 0#4⟩]
  | .kmin cls d a perm b mk => [FormatA.pack ⟨0x78#8, cls.code, d, a, b, 0#8, mk, perm.bits.1, perm.bits.2, 0#3, 0#4⟩]
  | .sticky kind cls d a perm mk => [FormatA.pack ⟨0x79#8, cls.code, d, a, 0#8, 0#8, mk, perm.bits.1, perm.bits.2, 0#3, kind.code⟩]
  | .bsig kind va thr hint disp => [FormatB.pack ⟨0x7A#8, kind.code, va, cat 8 (0#2) (thr), hint.code, disp⟩]
  | .pairWord p q => [cat 64 1#2 (cat 62 p.bits q.bits)]
  | .fround cls d a perm rnd mk => [FormatA.pack ⟨0x7B#8, cls.code, d, a, 0#8, 0#8, mk, perm.bits.1, perm.bits.2, 0#3, cat 4 0#1 rnd.code⟩]
  | .ld size d m stream look tok mk => [FormatM.pack ⟨0x90#8, m.noofsBit, 0#3, d, m.hnd, m.ofsBits, stream, look, tok, mk, size.code, m.disp⟩]
  | .st size rnd vs m stream tok mk => [FormatM.pack ⟨0x91#8, m.noofsBit, rnd.code, vs, m.hnd, m.ofsBits, stream, 0#4, tok, mk, size.code, m.disp⟩]
  | .ldt size d m stream look tok mk => [FormatM.pack ⟨0x92#8, m.noofsBit, 0#3, d, m.hnd, m.ofsBits, stream, look, tok, mk, size.code, m.disp⟩]
  | .stt size vs m stream tok mk => [FormatM.pack ⟨0x93#8, m.noofsBit, 0#3, vs, m.hnd, m.ofsBits, stream, 0#4, tok, mk, size.code, m.disp⟩]
  | .ldg size d hnd ofs disp stream look tok mk => [FormatM.pack ⟨0x94#8, 0#1, 0#3, d, hnd, ofs, stream, look, tok, mk, size.code, disp⟩]
  | .sts size rnd vs hnd ofs disp stream tok mk => [FormatM.pack ⟨0x95#8, 0#1, rnd.code, vs, hnd, ofs, stream, 0#4, tok, mk, size.code, disp⟩]
  | .ldb size d hnd disp stream look tok mk => [FormatM.pack ⟨0x96#8, 1#1, 0#3, d, hnd, 0#8, stream, look, tok, mk, size.code, disp⟩]
  | .tmov size lc vd m stream tok mk => [FormatM.pack ⟨0x97#8, m.noofsBit, lc, vd, m.hnd, m.ofsBits, stream, 0#4, tok, mk, size.code, m.disp⟩]
  | .atom op size vs m stream tok mk => [FormatM.pack ⟨0x98#8, m.noofsBit, op.code, vs, m.hnd, m.ofsBits, stream, 0#4, tok, mk, size.code, m.disp⟩]
  | .atomr op size vs m stream look tok mk => [FormatM.pack ⟨0x99#8, m.noofsBit, op.code, vs, m.hnd, m.ofsBits, stream, look, tok, mk, size.code, m.disp⟩]
  | .acq mode id tok => [FormatI.pack ⟨0x9A#8, 0#4, cat 8 (0#5) (tok), 0#8, 0#3, 0#1, mode.code, cat 24 (0#12) (id)⟩]
  | .rel id tok => [FormatI.pack ⟨0x9B#8, 0#4, cat 8 (0#5) (tok), 0#8, 0#3, 0#1, 0#6, cat 24 (0#12) (id)⟩]
  | .fence kind set => [FormatI.pack ⟨0x9C#8, 0#4, 0#8, 0#8, 0#3, 0#1, kind.code, cat 24 (0#8) (set)⟩]
  | .cbpushRes vd cb look tok => [FormatM.pack ⟨0x9D#8, 1#1, 0#3, vd, cb, 0#8, 0#4, look, tok, 0#3, 0#4, 0#12⟩]
  | .cbpushCommit vs cb stream tok => [FormatM.pack ⟨0x9D#8, 1#1, 1#3, vs, cb, 0#8, stream, 0#4, tok, 0#3, 0#4, 0#12⟩]
  | .cbpopTake vd cb look tok => [FormatM.pack ⟨0x9E#8, 1#1, 0#3, vd, cb, 0#8, 0#4, look, tok, 0#3, 0#4, 0#12⟩]
  | .cbpopFree vs cb stream tok => [FormatM.pack ⟨0x9E#8, 1#1, 1#3, vs, cb, 0#8, stream, 0#4, tok, 0#3, 0#4, 0#12⟩]
  | .cbpopStat vd cb => [FormatM.pack ⟨0x9E#8, 1#1, 2#3, vd, cb, 0#8, 0#4, 0#4, 0#3, 0#3, 0#4, 0#12⟩]
  | .cbdef cb hnd disp logs size => [FormatM.pack ⟨0x9F#8, 1#1, logs, cat 8 (0#4) (cb), hnd, 0#8, 0#4, 0#4, 0#3, 0#3, size, disp⟩]
  | .hdescAttr vd va => [FormatS.pack ⟨0xA0#8, 0#4, vd, va, 0#12, 0#22⟩]
  | .hdescBind vd va => [FormatS.pack ⟨0xA0#8, 1#4, vd, va, 0#12, 0#22⟩]
  | .hdescLoc vd va => [FormatS.pack ⟨0xA0#8, 2#4, vd, va, 0#12, 0#22⟩]
  | .hdescSeta ah va => [FormatS.pack ⟨0xA0#8, 3#4, cat 8 0#4 ah, va, 0#12, 0#22⟩]
  | .hdescGeta vd ah => [FormatS.pack ⟨0xA0#8, 4#4, vd, cat 8 0#4 ah, 0#12, 0#22⟩]
  | .oclaim first nslot tmask tok => [FormatX.pack ⟨0xB0#8, 0#4, first, 0#5, 0#3, 0#3, 0#3, 0#2, 0#2, 0#4, tok, cat 20 (tmask) (cat 12 (0#6) (nslot))⟩]
  | .orel first nslot tmask tok => [FormatX.pack ⟨0xB1#8, 0#4, first, 0#5, 0#3, 0#3, 0#3, 0#2, 0#2, 0#4, tok, cat 20 (tmask) (cat 12 (0#6) (nslot))⟩]
  | .oload q slot len tok => [FormatX.pack ⟨0xB2#8, 0#4, slot, 0#5, 0#3, 0#3, 0#3, 0#2, 0#2, 0#4, tok, cat 20 (q) (cat 14 (0#7) (len))⟩]
  | .omap slot orient pitch base tok => [FormatX.pack ⟨0xB3#8, 0#4, slot, 0#5, 0#3, 0#3, 0#3, 0#2, 0#2, 0#4, tok, cat 20 (orient.code) (cat 18 (pitch) (base))⟩]
  | .mma acc sa sb fmta fmtb kblka kblkb start tok => [FormatX.pack ⟨0xB4#8, 0#4, sa, sb, acc, fmta, fmtb, kblka, kblkb, 0#4, tok, cat 20 (bit start) (0#19)⟩]
  | .aclr cls tmask tok => [FormatX.pack ⟨0xB5#8, cls.code, 0#5, 0#5, 0#3, 0#3, 0#3, 0#2, 0#2, 0#4, tok, cat 20 (tmask) (0#12)⟩]
  | .aread acc q fmt row0 nrows tok => [FormatX.pack ⟨0xB6#8, 0#4, 0#5, 0#5, acc, fmt, 0#3, 0#2, 0#2, 0#4, tok, cat 20 (q) (cat 14 (row0) (cat 8 (nrows) (0#2)))⟩]
  | .awrite acc q fmt row0 nrows tok => [FormatX.pack ⟨0xB7#8, 0#4, 0#5, 0#5, acc, fmt, 0#3, 0#2, 0#2, 0#4, tok, cat 20 (q) (cat 14 (row0) (cat 8 (nrows) (0#2)))⟩]
  | .astat vd acc row0 nrows look tok => [FormatX.pack ⟨0xB8#8, 0#4, 0#5, 0#5, acc, 0#3, 0#3, 0#2, 0#2, look, tok, cat 20 (vd) (cat 12 (row0) (nrows))⟩]
  | .mwakeNow => [FormatX.pack ⟨0xB9#8, 0#4, 0#5, 0#5, 0#3, 0#3, 0#3, 0#2, 0#2, 0#4, 0#3, 0#20⟩]
  | .mwakeIdle n => [FormatX.pack ⟨0xB9#8, 1#4, 0#5, 0#5, 0#3, 0#3, 0#3, 0#2, 0#2, 0#4, 0#3, cat 20 (0#4) (n)⟩]
  | .mstat form vd => [FormatX.pack ⟨0xBA#8, form.code, 0#5, 0#5, 0#3, 0#3, 0#3, 0#2, 0#2, 0#4, 0#3, cat 20 (vd) (0#12)⟩]
  | .xcopy dk srcCb cv slot q len fmt stream tok => [FormatX.pack ⟨0xC0#8, 0#4, slot, cat 5 (0#1) (stream), 0#3, fmt, 0#3, 0#2, 0#2, 0#4, tok, cat 20 (q) (cat 14 (dk.code) (cat 12 (bit srcCb) (cat 11 (bit cv) (len))))⟩]
  | .xcopym fillB q len sa sb acc fmta fmtb kblka kblkb tok => [FormatX.pack ⟨0xC1#8, 0#4, sa, sb, acc, fmta, fmtb, kblka, kblkb, 0#4, tok, cat 20 (q) (cat 14 (bit fillB) (cat 13 (0#3) (len)))⟩]
  | .xseqDone eng vd look tok => [FormatX.pack ⟨0xC2#8, 0#4, 0#5, 0#5, 0#3, 0#3, 0#3, 0#2, 0#2, look, tok, cat 20 (vd) (cat 12 (eng.code) (0#8))⟩]
  | .xseqIssued eng vd look tok => [FormatX.pack ⟨0xC2#8, 1#4, 0#5, 0#5, 0#3, 0#3, 0#3, 0#2, 0#2, look, tok, cat 20 (vd) (cat 12 (eng.code) (0#8))⟩]
  | .xseqLine line vd look tok => [FormatX.pack ⟨0xC2#8, 2#4, 0#5, 0#5, 0#3, 0#3, 0#3, 0#2, 0#2, look, tok, cat 20 (vd) (cat 12 (line) (0#8))⟩]
  | .xseqFault vd look tok => [FormatX.pack ⟨0xC2#8, 3#4, 0#5, 0#5, 0#3, 0#3, 0#3, 0#2, 0#2, look, tok, cat 20 (vd) (cat 12 (0#4) (0#8))⟩]
  | .xwait eng vs => [FormatX.pack ⟨0xC3#8, 0#4, 0#5, 0#5, 0#3, 0#3, 0#3, 0#2, 0#2, 0#4, 0#3, cat 20 (vs) (cat 12 (eng.code) (0#8))⟩]
  | .evrouteSet src line => [FormatX.pack ⟨0xC4#8, 0#4, 0#5, 0#5, 0#3, 0#3, 0#3, 0#2, 0#2, 0#4, 0#3, cat 20 (src) (cat 16 (line) (0#12))⟩]
  | .evrouteClr src line => [FormatX.pack ⟨0xC4#8, 1#4, 0#5, 0#5, 0#3, 0#3, 0#3, 0#2, 0#2, 0#4, 0#3, cat 20 (src) (cat 16 (line) (0#12))⟩]
  | .evrouteGate sink line => [FormatX.pack ⟨0xC4#8, 2#4, 0#5, 0#5, 0#3, 0#3, 0#3, 0#2, 0#2, 0#4, 0#3, cat 20 (sink) (cat 16 (line) (0#12))⟩]
  | .evrouteOpen sink => [FormatX.pack ⟨0xC4#8, 3#4, 0#5, 0#5, 0#3, 0#3, 0#3, 0#2, 0#2, 0#4, 0#3, cat 20 (sink) (cat 16 (0#4) (0#12))⟩]
  | .evwait line => [FormatX.pack ⟨0xC5#8, 0#4, 0#5, 0#5, 0#3, 0#3, 0#3, 0#2, 0#2, 0#4, 0#3, cat 20 (line) (0#16)⟩]
  | .evwaitSync line => [FormatX.pack ⟨0xC5#8, 1#4, 0#5, 0#5, 0#3, 0#3, 0#3, 0#2, 0#2, 0#4, 0#3, cat 20 (line) (0#16)⟩]
  | .evfire line count => [FormatX.pack ⟨0xC6#8, 0#4, 0#5, 0#5, 0#3, 0#3, 0#3, 0#2, 0#2, 0#4, 0#3, cat 20 (line) (cat 16 (count) (0#8))⟩]
  | .sxred op ef thnd dhnd q rowlen stream tok mk => [FormatR.pack ⟨0xC8#8, op.code, thnd, dhnd, ef.code, stream, 0#4, mk, 0#4, tok, q, rowlen, 0#6⟩]
  | .sxbulkCopy q len stream tok => [FormatK.pack ⟨0xC9#8, 0#4, 0#4, 0#8, stream, 0#7, 0#4, tok, q, len⟩]
  | .sxbulkFill q len stream tok => [FormatK.pack ⟨0xC9#8, 1#4, 0#4, 0#8, stream, 0#7, 0#4, tok, q, len⟩]
  | .sxbulkCmp q len rhnd stream tok => [FormatK.pack ⟨0xC9#8, 2#4, rhnd, 0#8, stream, 0#7, 0#4, tok, q, len⟩]
  | .sxseqDone vd psel preg look tok => [FormatX.pack ⟨0xCA#8, 0#4, 0#5, 0#5, 0#3, 0#3, 0#3, 0#2, 0#2, look, tok, cat 20 (vd) (cat 12 (psel) (preg))⟩]
  | .sxseqIssued vd psel preg look tok => [FormatX.pack ⟨0xCA#8, 1#4, 0#5, 0#5, 0#3, 0#3, 0#3, 0#2, 0#2, look, tok, cat 20 (vd) (cat 12 (psel) (preg))⟩]
  | .sxseqStack vd psel preg look tok => [FormatX.pack ⟨0xCA#8, 2#4, 0#5, 0#5, 0#3, 0#3, 0#3, 0#2, 0#2, look, tok, cat 20 (vd) (cat 12 (psel) (preg))⟩]
  | .sxseqFault vd psel preg look tok => [FormatX.pack ⟨0xCA#8, 3#4, 0#5, 0#5, 0#3, 0#3, 0#3, 0#2, 0#2, look, tok, cat 20 (vd) (cat 12 (psel) (preg))⟩]
  | .sxwait vs psel preg => [FormatX.pack ⟨0xCB#8, 0#4, 0#5, 0#5, 0#3, 0#3, 0#3, 0#2, 0#2, 0#4, 0#3, cat 20 (vs) (cat 12 (psel) (preg))⟩]
  | .mkmatch opt snap dmk q wave scope tok => [FormatW.pack ⟨0xD0#8, 0#4, dmk, 0#6, q, 0#4, wave, 0#8, tok, cat 11 (0#6) (cat 5 (bit opt) (cat 4 (0#1) (cat 3 (bit snap) (scope.code))))⟩]
  | .mkset form opt all snap dmk smk vv wave scope tok => [FormatW.pack ⟨0xD1#8, form.code, dmk, smk, vv, 0#4, wave, 0#8, tok, cat 11 (0#6) (cat 5 (bit opt) (cat 4 (bit all) (cat 3 (bit snap) (scope.code))))⟩]
  | .mkclr form opt all snap dmk smk wave scope tok => [FormatW.pack ⟨0xD2#8, form.code, dmk, smk, 0#8, 0#4, wave, 0#8, tok, cat 11 (0#6) (cat 5 (bit opt) (cat 4 (bit all) (cat 3 (bit snap) (scope.code))))⟩]
  | .mkprop comb opt all snap dmk smk vt hops wave scope tok => [FormatW.pack ⟨0xD3#8, 0#4, dmk, smk, vt, comb.code, wave, hops, tok, cat 11 (0#6) (cat 5 (bit opt) (cat 4 (bit all) (cat 3 (bit snap) (scope.code))))⟩]
  | .mkpropv comb all snap dmk smk vt hops wave scope tok => [FormatW.pack ⟨0xD4#8, 0#4, dmk, smk, vt, comb.code, wave, hops, tok, cat 11 (0#6) (cat 5 (0#1) (cat 4 (bit all) (cat 3 (bit snap) (scope.code))))⟩]
  | .mkcollect opt all snap dmk smk q wave scope tok => [FormatW.pack ⟨0xD5#8, 0#4, dmk, smk, q, 0#4, wave, 0#8, tok, cat 11 (0#6) (cat 5 (bit opt) (cat 4 (bit all) (cat 3 (bit snap) (scope.code))))⟩]
  | .mkcount all snap smk wave scope tok => [FormatW.pack ⟨0xD6#8, 0#4, 0#6, smk, 0#8, 0#4, wave, 0#8, tok, cat 11 (0#6) (cat 5 (0#1) (cat 4 (bit all) (cat 3 (bit snap) (scope.code))))⟩]
  | .mkwait wave => [FormatW.pack ⟨0xD7#8, 0#4, 0#6, 0#6, 0#8, 0#4, wave, 0#8, 0#3, cat 11 (0#6) (cat 5 (0#1) (cat 4 (0#1) (cat 3 (0#1) (0#2))))⟩]
  | .mkstat vd wave => [FormatW.pack ⟨0xD8#8, 0#4, 0#6, 0#6, vd, 0#4, wave, 0#8, 0#3, cat 11 (0#6) (cat 5 (0#1) (cat 4 (0#1) (cat 3 (0#1) (0#2))))⟩]
  | .ndrd fi mv d m look tok mk => [FormatM.pack ⟨0xD9#8, m.noofsBit, fi.code, d, m.hnd, m.ofsBits, 0#4, look, tok, mk, cat 4 (0#2) (mv), m.disp⟩]
  | .ndwr fi mv vs m tok mk => [FormatM.pack ⟨0xDA#8, m.noofsBit, fi.code, vs, m.hnd, m.ofsBits, 0#4, 0#4, tok, mk, cat 4 (0#2) (mv), m.disp⟩]
  | .edrd fi d m look tok mk => [FormatM.pack ⟨0xDB#8, m.noofsBit, fi.code, d, m.hnd, m.ofsBits, 0#4, look, tok, mk, 0#4, m.disp⟩]
  | .edwr fi vs m tok mk => [FormatM.pack ⟨0xDC#8, m.noofsBit, fi.code, vs, m.hnd, m.ofsBits, 0#4, 0#4, tok, mk, 0#4, m.disp⟩]
  | .fld sz d vp vo look tok mk => [FormatA.pack ⟨0xE0#8, sz.code, d, vp, vo, 0#8, mk, 0#3, 0#5, tok, look⟩]
  | .fstRadd vs vp vo tok mk => [FormatA.pack ⟨0xE1#8, 10#4, vs, vp, vo, 0#8, mk, 0#3, 0#5, tok, 0#4⟩]
  | .fst sz rnd vs vp vo tok mk => [FormatA.pack ⟨0xE1#8, sz.code, vs, vp, vo, 0#8, mk, 0#3, 0#5, tok, cat 4 0#1 rnd.code⟩]
  | .fat op sz d vp vo vc look tok mk => [FormatA.pack ⟨0xE2#8, cat 4 (sz.code) (op.code), d, vp, vo, vc, mk, 0#3, 0#5, tok, look⟩]
  | .fmcst q rhnd tok => [FormatX.pack ⟨0xE3#8, 0#4, 0#5, 0#5, 0#3, 0#3, 0#3, 0#2, 0#2, 0#4, tok, cat 20 (q) (cat 14 (rhnd) (0#10))⟩]
  | .fwait => [FormatI.pack ⟨0xE4#8, 0#4, 0#8, 0#8, 0#3, 0#1, 0#6, 0#24⟩]
  | .fpeerExport e va => [FormatS.pack ⟨0xE5#8, 0#4, 0#8, va, 0#12, cat 22 (0#10) (e)⟩]
  | .fpeerRevoke e => [FormatS.pack ⟨0xE5#8, 1#4, 0#8, 0#8, 0#12, cat 22 (0#10) (e)⟩]
  | .fpeerStat vd e => [FormatS.pack ⟨0xE5#8, 2#4, vd, 0#8, 0#12, cat 22 (0#10) (e)⟩]
  | .fpeerMcdef g va => [FormatS.pack ⟨0xE5#8, 3#4, 0#8, va, 0#12, cat 22 (0#10) (g)⟩]
  | .fpeerPort vd p => [FormatS.pack ⟨0xE5#8, 4#4, vd, 0#8, 0#12, cat 22 (0#18) (p)⟩]
  | .barv g tok => [FormatI.pack ⟨0xE8#8, 0#4, cat 8 (0#5) (tok), 0#8, 0#3, 0#1, 0#6, cat 24 (0#16) (g)⟩]
  | .barw g => [FormatI.pack ⟨0xE9#8, 0#4, 0#8, 0#8, 0#3, 0#1, 0#6, cat 24 (0#16) (g)⟩]
  | .bars g => [FormatI.pack ⟨0xEA#8, 0#4, 0#8, 0#8, 0#3, 0#1, 0#6, cat 24 (0#16) (g)⟩]
  | .barq vd g => [FormatI.pack ⟨0xEB#8, 0#4, vd, 0#8, 0#3, 0#1, 0#6, cat 24 (0#16) (g)⟩]
  | .yield => [FormatI.pack ⟨0xEC#8, 0#4, 0#8, 0#8, 0#3, 0#1, 0#6, 0#24⟩]
  | .yieldBal => [FormatI.pack ⟨0xEC#8, 0#4, 0#8, 0#8, 0#3, 0#1, 1#6, 0#24⟩]
  | .prioSet k => [FormatI.pack ⟨0xED#8, 0#4, 0#8, 0#8, 0#3, 0#1, 0#6, cat 24 (0#21) (k)⟩]
  | .prioRestore => [FormatI.pack ⟨0xED#8, 0#4, 0#8, 0#8, 0#3, 0#1, 1#6, 0#24⟩]
  | .idemBegin keep disp => [FormatB.pack ⟨0xEE#8, 0#4, keep, 0#8, 0#2, disp⟩]
  | .idemEnd => [FormatB.pack ⟨0xEE#8, 1#4, 0#8, 0#8, 0#2, 0#32⟩]
  | .qpost vq hnd disp stream tok => [FormatM.pack ⟨0xEF#8, 1#1, 0#3, vq, hnd, 0#8, stream, 0#4, tok, 0#3, 4#4, disp⟩]
  | .csrrd vd csr => [FormatS.pack ⟨0xF0#8, 0#4, vd, 0#8, csr.code, 0#22⟩]
  | .csrwr csr va => [FormatS.pack ⟨0xF1#8, 0#4, 0#8, va, csr.code, 0#22⟩]
  | .csrwrSet csr va => [FormatS.pack ⟨0xF1#8, 1#4, 0#8, va, csr.code, 0#22⟩]
  | .csrwrClr csr va => [FormatS.pack ⟨0xF1#8, 2#4, 0#8, va, csr.code, 0#22⟩]
  | .trap code => [FormatS.pack ⟨0xF2#8, 0#4, 0#8, 0#8, 0#12, code⟩]
  | .rte => [FormatS.pack ⟨0xF3#8, 0#4, 0#8, 0#8, 0#12, 0#22⟩]
  | .rteNext => [FormatS.pack ⟨0xF3#8, 1#4, 0#8, 0#8, 0#12, 0#22⟩]
  | .halt code => [FormatS.pack ⟨0xF4#8, 0#4, 0#8, 0#8, 0#12, cat 22 (0#14) (code)⟩]
  | .ctxsave va stream tok => [FormatS.pack ⟨0xF5#8, 0#4, 0#8, va, 0#12, cat 22 (tok) (cat 19 (0#4) (cat 15 (stream) (cat 11 (0#8) (0#3))))⟩]
  | .ctxload vd va look stream tok => [FormatS.pack ⟨0xF6#8, 0#4, vd, va, 0#12, cat 22 (tok) (cat 19 (look) (cat 15 (stream) (cat 11 (0#8) (0#3))))⟩]
  | .hnew vd va look stream tok => [FormatS.pack ⟨0xF7#8, 0#4, vd, va, 0#12, cat 22 (tok) (cat 19 (look) (cat 15 (stream) (cat 11 (0#8) (0#3))))⟩]
  | .hmap vd va look stream tok => [FormatS.pack ⟨0xF8#8, 0#4, vd, va, 0#12, cat 22 (tok) (cat 19 (look) (cat 15 (stream) (cat 11 (0#8) (0#3))))⟩]
  | .hrevoke vd va look stream tok => [FormatS.pack ⟨0xF9#8, 0#4, vd, va, 0#12, cat 22 (tok) (cat 19 (look) (cat 15 (stream) (cat 11 (0#8) (0#3))))⟩]
  | .hmigr vd va stack look stream tok => [FormatS.pack ⟨0xFA#8, 0#4, vd, va, 0#12, cat 22 (tok) (cat 19 (look) (cat 15 (stream) (cat 11 (0#8) (stack))))⟩]
  | .chkptSave vd va look stream tok => [FormatS.pack ⟨0xFB#8, 0#4, vd, va, 0#12, cat 22 (tok) (cat 19 (look) (cat 15 (stream) (cat 11 (0#8) (0#3))))⟩]
  | .chkptLoad vd va look stream tok => [FormatS.pack ⟨0xFB#8, 1#4, vd, va, 0#12, cat 22 (tok) (cat 19 (look) (cat 15 (stream) (cat 11 (0#8) (0#3))))⟩]
  | .clauseEntry _ _ _ => []
  | .fetchWord _ _ _ => []
  | .longLatencyWrite _ _ _ => []
  | .regangMerge _ _ => []
  | .performPiece _ _ _ => []
  | .drain _ => []
  | .propagate _ _ => []
  | .replicate _ _ => []
  | .atomicSend _ _ _ => []
  | .atomicPerform _ _ => []
  | .fencePerform _ _ _ => []
  | .releaseStep _ => []
  | .tokenGrant _ _ => []
  | .tokenReleaseRecord _ => []
  | .barrierWaitPass _ _ _ => []
  | .waitSatisfied _ _ _ => []
  | .launchEnd _ => []
  | .hostStoreDrain _ => []
  | .engineRegistration _ _ _ => []
  | .engineStart _ _ => []
  | .engineCompletion _ _ => []
  | .cbResServed _ _ => []
  | .cbTakeServed _ _ => []
  | .claimGrant _ _ => []
  | .claimRelease _ _ => []
  | .subarrayGate _ _ => []
  | .subarrayWake _ => []
  | .budgetWindow _ => []
  | .bandwidthWindow _ => []
  | .swapOut _ _ => []
  | .recallGang _ _ => []
  | .balanceWindow _ _ _ => []
  | .balanceStall _ => []
  | .balanceDeferral _ => []
  | .takeDeferredTrap _ _ _ => []
  | .doorbellWrite _ _ _ => []
  | .queuePortPost _ _ _ _ _ => []
  | .qpostDeliver _ _ _ => []
  | .takePacket _ => []
  | .packetComplete _ => []
  | .waveStart _ _ _ => []
  | .waveDelivery _ _ _ => []
  | .creditReturn _ _ _ => []
  | .creditRequest _ _ => []
  | .creditAnswer _ _ _ => []
  | .batchAccept _ _ => []
  | .waveRunaway _ _ _ => []
  | .batchRefused _ _ => []
  | .batchReclaimRemap _ _ _ _ => []
  | .batchReclaimTimeout _ _ _ => []
  | .droopTrip _ => []
  | .droopHoldEnd _ => []
  | .thermalDuty _ _ => []
  | .refreshPause _ => []
  | .interfaceRetry _ _ _ => []
  | .mcdefRead _ _ => []
  | .handleOpComplete _ _ _ => []
  | .fabricSend _ _ => []
  | .fabricTargetPerform _ _ _ _ => []
  | .fabricReply _ _ _ => []
  | .raddCombine _ _ => []
  | .mcastAckRecord _ _ => []
  | .flitReplay _ => []
  | .portRetrain _ _ => []
  | .laneSetChange _ _ => []
  | .planeRemap _ => []
  | .planeRestore _ => []
  | .switchDiscard _ _ => []
  | .requestLost _ _ => []
  | .hostLinkDown _ => []
  | .completionTimeout _ _ => []
  | .pform => []
  | .pdissolve => []
  | .pswapout => []
  | .swapoutSave _ => []
  | .pswapin => []
  | .coreset => []
  | .cksave => []
  | .ckload => []
  | .attest => []
  | .fwload => []
  | .apset => []
  | .apertureAccess _ _ _ => []
  | .bar0Write _ _ _ => []
  | .resetBoot => []
  | .powerD3hot => []
  | .powerRemoved => []
  | .pieceMove _ _ => []
  | .hostStore _ _ => []
  | .hostLinkUp _ => []
  | .powerD0 => []
  | .batchAcknowledge _ _ _ _ => []
end Sys2Proof
end

