-- ==== Sys2Proof/Config.lean ====
section
/-! DEFINITION. What the spec leaves open: free values, constants with no body, so that nothing can be proved of them
but what holds for every value. Each is named in the assumption log. -/

namespace Sys2Proof

/-- What happens next (R9, R255): an issuing unit's grant, or an event of the machine. -/
inductive Choice where
  | unit (core ctx part : Nat)
  | event (i : Instr)
  deriving DecidableEq, Repr, Inhabited

/-- Which permitted step comes next when the state's agenda is empty (R9, R364): one per moment. -/
opaque Config.nextChoice : Nat → Choice

/-- How far inside its stated bound an approximation lies (R204, R207): per opcode, class, and input image (value bits,
G). One function of the input, as R207 says. -/
opaque Config.approxNoise : BitVec 8 → FpCls → Word64 → Nat → Int

/-- VALUE and TAG that a dead lane position takes in a full general write (R39): per step and register. -/
opaque Config.deadVal : Nat → Nat → Nat → Val32
opaque Config.deadTag : Nat → Nat → Nat → Tag

/-- How far the cycle counter of a core moves in one step (R52, R427). -/
opaque Config.clocks : Nat → Nat

/-- The home cluster of a granule of device memory (R244): an index into the candidate clusters, by stack and granule. -/
opaque Config.homeIndex : Nat → Nat → Nat

/-- How the device derives the seed of a key pair from its fused secret and a digest (R516). -/
opaque Config.deriveSeed : List Byte → List Byte → List Byte

/-- What is fused into the device (R515, R516): the secret, the digest of the Swenik key, and that key. -/
opaque Config.fusedSecret : List Byte
opaque Config.swenikDigest : List Byte
opaque Config.swenikKey : List Byte

/-- The device number in the fabric (R44). -/
opaque Config.device : BitVec 20

/-- Module power and temperatures that the sensors read at a moment (R519): power, four quarters, flash. -/
opaque Config.sensorPower : Nat → BitVec 14
opaque Config.sensorTemp : Nat → Nat → BitVec 8

/-- Which of the flits that a port has sent and that are not acknowledged fails next (R492): per moment and port. -/
opaque Config.badFlit : Nat → Nat → Nat

/-- Whether the flit of a port that fails its check next is one that the port receives (R492): per moment and port. -/
opaque Config.badSide : Nat → Nat → Bool

/-- Whether a write that is not performed piece by piece by a stream or engine was in flight on its host link when that went
down (R505): per moment. -/
opaque Config.inFlight : Nat → Bool

/-- Which request reaches its resource next (R260, R373): per moment. -/
opaque Config.arrival : Nat → Choice

/-- Whether a running MMA has read an operand byte before the write of a moment reaches it (R323): per moment and address. -/
opaque Config.readAlready : Nat → Nat → Bool

/-- The bytes of a read that met a lasting error or a failed transfer (R480, R485), per moment and byte. -/
opaque Config.noiseByte : Nat → Nat → Byte

/-- Which free piece HNEW takes, which free handle it gives, and the link of a TSO extent (R417, R435, R436): per moment,
and for a piece its place in the extent. -/
opaque Config.pickPiece : Nat → Nat → Nat
opaque Config.pickHandle : Nat → Nat
opaque Config.tsoLink : Nat → Nat

/-- The gang context at which the dispatcher begins to look for a free one (R24): per moment and core. -/
opaque Config.pickContext : Nat → Nat → Nat

/-- Whether the scheduler predicts a token wait at or above SWAPTHR clocks (R366): from SWAPTHR, the spaces of memory and
the engines that the awaited operations use. -/
opaque Config.longWait : Nat → List Nat → List Nat → Bool

/-- How long the machine may hold back a permitted drain, propagation, replication or host store queue step (R264): a
number of steps, by the write's moment and identity. -/
opaque Config.patience : Nat → Nat → Nat

end Sys2Proof
end

