-- ==== Sys2Proof/Machine/Image.lean ====
section
/-! DEFINITION. Lane images and vector registers as data (R35-R37). -/

namespace Sys2Proof.Machine

/-- A lane image (R35): VALUE in bits [31:0], TAG in bits [39:32]. -/
structure Img where
  val : Val32
  tag : Tag
  deriving DecidableEq, Repr

/-- A vector register with its shape tag (R37): one image for all lanes, an affine run of 32-bit integers, or 32
independent images. -/
inductive VReg where
  | uniform (x : Img)
  | affine (base stride : Val32)
  | general (xs : List Img)
  deriving DecidableEq, Repr

end Sys2Proof.Machine
end

