-- ==== Sys2Proof/Machine/Num.lean ====
section
/-! DEFINITION. Number formats and rounding (R167-R182): the formats in memory, exact values, rounding to odd, and
FinalRound. Every value is exact: a sign, a natural magnitude and a power of two. -/

namespace Sys2Proof.Machine

/-! ## Formats -/

/-- The parameters of a format (R167): code bits, fraction bits, bias, precision, exponents of the smallest normal and
largest finite binades, whether it has infinities, whether it has NaNs, and the largest finite code. -/
structure Fmt where
  bits : Nat
  frac : Nat
  bias : Nat
  prec : Nat
  emin : Int
  emax : Int
  hasInf : Bool
  nan? : Option Nat
  maxCode : Nat
  deriving DecidableEq, Repr

/-- The formats of codes 0x0 to 0x8 (R167, R169, R171). -/
def fmtOf : FpCls → Fmt
  | .f32 => ⟨32, 23, 127, 24, -126, 127, true, some 0x7FC00000, 0x7F7FFFFF⟩
  | .f64 => ⟨64, 52, 1023, 53, -1022, 1023, true, some 0x7FF8000000000000, 0x7FEFFFFFFFFFFFFF⟩
  | .f16 => ⟨16, 10, 15, 11, -14, 15, true, some 0x7E00, 0x7BFF⟩
  | .bf16 => ⟨16, 7, 127, 8, -126, 127, true, some 0x7FC0, 0x7F7F⟩
  | .e4m3 => ⟨8, 3, 7, 4, -6, 8, false, some 0x7F, 0x7E⟩
  | .e5m2 => ⟨8, 2, 15, 3, -14, 15, true, some 0x7E, 0x7B⟩
  | .e3m2 => ⟨6, 2, 3, 3, -2, 4, false, none, 0x1F⟩
  | .e2m3 => ⟨6, 3, 1, 4, 0, 2, false, none, 0x1F⟩
  | .e2m1 => ⟨4, 1, 1, 2, 0, 2, false, none, 0x7⟩

/-- The register precision P of a class (R172). -/
def precP (c : FpCls) : Nat := (fmtOf c).prec + 2

/-! ## Exact values -/

/-- A floating-point value: NaN, an infinity, or (−1)^neg × mag × 2^exp, where mag 0 is a signed zero. -/
inductive Fp where
  | nan
  | inf (neg : Bool)
  | fin (neg : Bool) (mag : Nat) (exp : Int)
  deriving DecidableEq, Repr

/-- A positive zero. -/
def Fp.zero : Fp := .fin false 0 0

/-- The sign of a value; a NaN has none. -/
def Fp.neg? : Fp → Bool
  | .nan => false
  | .inf n => n
  | .fin n _ _ => n

def Fp.isNan : Fp → Bool
  | .nan => true
  | _ => false

def Fp.isInf : Fp → Bool
  | .inf _ => true
  | _ => false

def Fp.isZero : Fp → Bool
  | .fin _ 0 _ => true
  | _ => false

/-- Finite and not zero. -/
def Fp.isNum : Fp → Bool
  | .fin _ (_ + 1) _ => true
  | _ => false

/-- The value with its sign turned. -/
def Fp.negate : Fp → Fp
  | .nan => .nan
  | .inf n => .inf (!n)
  | .fin n m e => .fin (!n) m e

/-- m × 2^k for any k, truncated; the shift stops at the size of m. -/
def shiftMag (m : Nat) (k : Int) : Nat :=
  match k with
  | .ofNat n => m * 2 ^ n
  | .negSucc n => if m.log2 < n + 1 then 0 else m / 2 ^ (n + 1)

/-- Whether m × 2^k is not whole. -/
def shiftLoses (m : Nat) (k : Int) : Bool :=
  match k with
  | .ofNat _ => false
  | .negSucc n => if m.log2 < n + 1 then m != 0 else m % 2 ^ (n + 1) != 0

/-- e(v), the exponent of the leading bit of a nonzero magnitude (R172). -/
def leadExp (m : Nat) (e : Int) : Int := (m.log2 : Int) + e

/-- The exponent of a finite nonzero value. -/
def Fp.lead : Fp → Int
  | .fin _ m e => leadExp m e
  | _ => 0

/-- The signed whole number m of a finite value scaled to 2^q, where q is at most its exponent. -/
def Fp.scaled (q : Int) : Fp → Int
  | .fin n m e => let k := (m * 2 ^ (e - q).toNat : Nat); if n then -(k : Int) else k
  | _ => 0

/-- The lowest exponent among finite nonzero values. -/
def minExp (xs : List Fp) : Int :=
  xs.foldl (fun q x => match x with
    | .fin _ (_ + 1) e => if e < q then e else q
    | _ => q) (xs.foldl (fun q x => match x with
    | .fin _ (_ + 1) e => if q < e then e else q
    | _ => q) 0)

/-- Comparison of two values as images: −1, 0, 1 for less, equal, greater; none when either is NaN (R199, R202).
Zeros of both signs compare equal. -/
def Fp.cmp? : Fp → Fp → Option Ordering
  | .nan, _ | _, .nan => none
  | .inf n, .inf k => some (if n == k then .eq else if n then .lt else .gt)
  | .inf n, .fin _ _ _ => some (if n then .lt else .gt)
  | .fin _ _ _, .inf k => some (if k then .gt else .lt)
  | .fin n m e, .fin k l f =>
    if m = 0 then some (if l = 0 then .eq else if k then .gt else .lt)
    else if l = 0 then some (if n then .lt else .gt)
    else if n != k then some (if n then .lt else .gt)
    else if leadExp m e != leadExp l f then some (if decide (leadExp m e < leadExp l f) == n then .gt else .lt)
    else
      let q := min e f
      some (compare (Fp.scaled q (.fin n m e)) (Fp.scaled q (.fin k l f)))

/-- The exact sum of terms, with the sign rules of R175 and R195: NaN from any NaN or from opposite infinities; a sum
of nonzero terms that cancels is +0; a sum of zeros is −0 when every term is −0. -/
def Fp.sum (xs : List Fp) : Fp :=
  if xs.any Fp.isNan then .nan
  else if xs.any (fun x => x == .inf true) && xs.any (fun x => x == .inf false) then .nan
  else match xs.find? Fp.isInf with
    | some x => x
    | none =>
      let q := minExp xs
      let t := xs.foldl (fun a x => a + (if x.isZero then 0 else Fp.scaled q x)) (0 : Int)
      if t = 0 then .fin (xs.all Fp.isZero && xs.all Fp.neg?) 0 0
      else .fin (decide (t < 0)) t.natAbs q

/-- The exact product (R195): NaN from any NaN or from 0 × ∞; a zero product has the sign a XOR b. -/
def Fp.mul : Fp → Fp → Fp
  | .nan, _ | _, .nan => .nan
  | .inf n, .inf k => .inf (n != k)
  | .inf n, .fin k m _ => if m = 0 then .nan else .inf (n != k)
  | .fin n m _, .inf k => if m = 0 then .nan else .inf (n != k)
  | .fin n m e, .fin k l f => .fin (n != k) (m * l) (e + f)

/-- a × 2^n (R200). -/
def Fp.scale (a : Fp) (n : Int) : Fp :=
  match a with
  | .fin s m e => .fin s m (e + n)
  | x => x

/-- Whether two values are the same real number, infinity or NaN, zeros of either sign being one number. -/
def Fp.same (a b : Fp) : Bool :=
  match a, b with
  | .nan, .nan => true
  | x, y => Fp.cmp? x y == some .eq

/-! ## Codes in memory -/

/-- The value of a code of format `f` (R168). -/
def decodeFp (c : FpCls) (code : Nat) : Fp :=
  let f := fmtOf c
  let neg := code / 2 ^ (f.bits - 1) % 2 == 1
  let fr := code % 2 ^ f.frac
  let ex := code / 2 ^ f.frac % 2 ^ (f.bits - 1 - f.frac)
  let top := 2 ^ (f.bits - 1 - f.frac) - 1
  if f.hasInf && ex == top then (if fr == 0 then .inf neg else .nan)
  else if c == .e4m3 && ex == top && fr == 7 then .nan
  else if ex == 0 then .fin neg fr (f.emin - f.frac)
  else .fin neg (fr + 2 ^ f.frac) ((ex : Int) - f.bias - f.frac)

/-- The code of a value that the format holds exactly; infinities of a format without them are not asked for. -/
def encodeFp (c : FpCls) (v : Fp) : Nat :=
  let f := fmtOf c
  let sgn (n : Bool) : Nat := if n then 2 ^ (f.bits - 1) else 0
  match v with
  | .nan => f.nan?.getD 0
  | .inf n => sgn n + (2 ^ (f.bits - 1 - f.frac) - 1) * 2 ^ f.frac
  | .fin n m e =>
    if m = 0 then sgn n
    else
      let x := leadExp m e
      if x < f.emin then sgn n + shiftMag m (e - (f.emin - f.frac))
      else sgn n + (x + f.bias).toNat * 2 ^ f.frac + (shiftMag m (e - (x - f.frac)) - 2 ^ f.frac)

/-- The largest finite value of a format with the given sign. -/
def maxFin (c : FpCls) (neg : Bool) : Fp :=
  match decodeFp c (fmtOf c).maxCode with
  | .fin _ m e => .fin neg m e
  | x => x

/-! ## Rounding to odd (R175) -/

/-- RoundOdd(x, c). -/
def roundOdd (c : FpCls) (x : Fp) : Fp :=
  match x with
  | .fin n m e =>
    if m = 0 then .fin n 0 0
    else
      let f := fmtOf c
      let lx := leadExp m e
      if f.emax + 1 ≤ lx then .inf n
      else
        let q := (max lx f.emin) - precP c + 1
        let k := shiftMag m (e - q)
        if shiftLoses m (e - q) && k % 2 == 0 then .fin n (k + 1) q else .fin n k q
  | y => y

/-- Whether rounding to odd overflows a finite value to infinity (R175). -/
def overflows (c : FpCls) (x : Fp) : Bool :=
  match x with
  | .fin _ (m + 1) e => decide ((fmtOf c).emax + 1 ≤ leadExp (m + 1) e)
  | _ => false

/-! ## Rounding by IEEE modes -/

/-- The magnitude m × 2^k rounded to a whole number in a mode (R180); DYN must have been replaced. -/
def roundMag (mode : Rnd) (neg : Bool) (m : Nat) (k : Int) : Nat :=
  let t := shiftMag m k
  let lost := shiftLoses m k
  -- the half bit and what stands below it
  let half := shiftMag m (k + 1) % 2 == 1
  let below := shiftLoses m (k + 1)
  let up : Bool :=
    match mode with
    | .rne => half && (below || t % 2 == 1)
    | .rna => half
    | .rz => false
    | .ru => lost && !neg
    | .rd => lost && neg
    | .dyn => false
  if up then t + 1 else t

/-- FinalRound to a floating-point format: the code (R179). -/
def finalRound (c : FpCls) (mode : Rnd) (sat : Bool) (v : Fp) : Nat :=
  let f := fmtOf c
  let special (n : Bool) : Nat :=
    if f.hasInf then encodeFp c (.inf n)
    else match f.nan? with
      | some q => q
      | none => encodeFp c (maxFin c n)
  match v with
  | .nan => f.nan?.getD 0
  | .inf n => if sat then encodeFp c (maxFin c n) else special n
  | .fin n m e =>
    if m = 0 then encodeFp c (.fin n 0 0)
    else
      let q := (max (leadExp m e) f.emin) - f.prec + 1
      let r : Fp := .fin n (roundMag mode n m (e - q)) q
      let tooBig := match r with
        | .fin _ k x => Fp.cmp? (.fin false k x) (maxFin c false) == some .gt
        | _ => false
      if !tooBig then encodeFp c r
      else if sat || f.nan?.isNone then encodeFp c (maxFin c n)
      else
        let toInf : Bool :=
          match mode with
          | .rne | .rna | .dyn => true
          | .rz => false
          | .ru => !n
          | .rd => n
        if toInf then special n else encodeFp c (maxFin c n)

/-- The integral value nearest a value in a mode (R211); NaN and infinities are left. DESIGN CHOICE (log 101): a zero
made of a nonzero value keeps its sign. -/
def rint (mode : Rnd) (v : Fp) : Fp :=
  match v with
  | .fin n m e => .fin n (roundMag mode n m e) 0
  | x => x

/-- The bounds of an integer type. -/
def intMin (signed : Bool) (w : Nat) : Int := if signed then -(2 ^ (w - 1) : Int) else 0
def intMax (signed : Bool) (w : Nat) : Int := if signed then 2 ^ (w - 1) - 1 else 2 ^ w - 1

/-- A value held between two bounds. -/
def clampInt (lo hi x : Int) : Int := if x < lo then lo else if hi < x then hi else x

/-- FinalRound to an integer type (R179). -/
def finalRoundInt (signed : Bool) (w : Nat) (mode : Rnd) (v : Fp) : Int :=
  match v with
  | .nan => 0
  | .inf n => if n then intMin signed w else intMax signed w
  | .fin n m e =>
    let k : Int := (roundMag mode n m e : Nat)
    clampInt (intMin signed w) (intMax signed w) (if n then -k else k)

end Sys2Proof.Machine
end

