-- ==== Sys2Proof/Machine/Flags.lean ====
section
/-! DEFINITION. Tags and the register image (R35, R36, R172-R177) and the trust rules (R183-R188): every flag, the
inexact bit S, the extension bits G and the trust count K. -/

namespace Sys2Proof.Machine

/-! ## The tag byte -/

/-- A tag byte of G, S and K (R35). -/
def mkTag (g : Nat) (s : Bool) (k : Nat) : Tag := BitVec.ofNat 8 (g % 4 * 64 + (if s then 32 else 0) + k % 32)

/-- G, the two extension fraction bits. -/
def Img.g (x : Img) : Nat := x.tag.toNat / 64
/-- S, the inexact flag. -/
def Img.s (x : Img) : Bool := x.tag.toNat / 32 % 2 == 1
/-- K of a single image. -/
def Img.k (x : Img) : Nat := x.tag.toNat % 32

/-- The integer tag (R35) and the tag of an exact 32-bit-class zero. -/
def intTag : Tag := 0x1F#8
def zeroTag : Tag := 0x1A#8

/-- An integer image (R112). -/
def intImg (v : Val32) : Img := ⟨v, intTag⟩
/-- What an unreadable lane reads as (R45). -/
def zeroImg : Img := ⟨0#32, zeroTag⟩

/-- The two images of a 64-bit value; a 32-bit operand leaves the second unread. -/
abbrev Pair := Img × Img

/-- A 64-bit integer as a pair (R36). -/
def intPair (v : Word64) : Pair := (⟨v.extractLsb' 0 32, intTag⟩, ⟨v.extractLsb' 32 32, 0x01#8⟩)
/-- What an unreadable lane of a pair reads as (R45). -/
def zeroPair : Pair := (⟨0#32, 0x17#8⟩, ⟨0#32, 0x01#8⟩)
/-- The 64 value bits of a pair. -/
def Pair.val (p : Pair) : Word64 := p.2.val ++ p.1.val
/-- K of a pair: bit 0 of the odd tag is K's bit 5 (R36). -/
def Pair.k (p : Pair) : Nat := p.1.k + (if p.2.tag.toNat % 2 == 1 then 32 else 0)

/-! ## Operands -/

/-- What an instruction reads as an FP operand: its value, S and K (R173, R183). -/
structure Opr where
  v : Fp
  s : Bool
  k : Nat
  deriving DecidableEq, Repr

/-- The format that holds VALUE: FP64 for the F64 class, FP32 for every other (R173). -/
def valueFmt (c : FpCls) : FpCls := if c == .f64 then .f64 else .f32

/-- An image read back under a class (R173, R174): |VALUE| + G × u with the sign of VALUE. -/
def imgValue (c : FpCls) (p : Pair) : Fp :=
  let code := if c == .f64 then p.val.toNat else p.1.val.toNat
  match decodeFp (valueFmt c) code with
  | .fin n m e =>
    let g := p.1.g
    if g = 0 then .fin n m e
    else
      let q := (if m = 0 then (fmtOf c).emin else max (leadExp m e) (fmtOf c).emin) - precP c + 1
      let b := min q e
      if m = 0 then .fin n g q
      else .fin n (m * 2 ^ (e - b).toNat + g * 2 ^ (q - b).toNat) b
  | x => x

/-- An FP operand of a class (R192). -/
def oprOf (c : FpCls) (p : Pair) : Opr :=
  ⟨imgValue c p, p.1.s, if c == .f64 then p.k else p.1.k⟩

/-- The image of a value on the grid of a class, with S and K (R173): VALUE is truncated to a multiple of four quanta
and G holds the rest. -/
def mkImg (c : FpCls) (v : Fp) (s : Bool) (k : Nat) : Pair :=
  let (code, g) : Nat × Nat :=
    match v with
    | .fin n m e =>
      if m = 0 then (encodeFp (valueFmt c) (.fin n 0 0), 0)
      else
        let q := (max (leadExp m e) (fmtOf c).emin) - precP c + 1
        let units := shiftMag m (e - q)
        (encodeFp (valueFmt c) (.fin n (units / 4 * 4) q), units % 4)
    | x => (encodeFp (valueFmt c) x, 0)
  if c == .f64 then
    let w : Word64 := BitVec.ofNat 64 code
    (⟨w.extractLsb' 0 32, mkTag g s k⟩, ⟨w.extractLsb' 32 32, if 32 ≤ k then 0x01#8 else 0x00#8⟩)
  else (⟨BitVec.ofNat 32 code, mkTag g s k⟩, zeroImg)

/-- A datum of a format read from memory without a tag (R180, R236): exact, or the canonical NaN with S 1 and K 0. -/
def loadedImg (c : FpCls) (code : Nat) : Pair :=
  match decodeFp c code with
  | .nan => mkImg c .nan true 0
  | v => mkImg c v false (precP c)

/-! ## Trust -/

/-- Kef(x) (R183). -/
def Opr.kef (c : FpCls) (x : Opr) : Nat := if x.s then x.k else precP c

/-- The floor f(x), none for −∞ (R183). -/
def Opr.floor? (x : Opr) : Option Int :=
  if !x.s then none
  else if x.v.isZero && x.k != 0 then none
  else some (x.v.lead - x.k + 1)

/-- A zero with S = 1 and K = 0 (R183). -/
def Opr.dead (x : Opr) : Bool := x.v.isZero && x.s && x.k == 0

/-- avail(r) for a finite nonzero result (R183). -/
def avail (c : FpCls) (r : Fp) : Nat :=
  (min (precP c : Int) (r.lead - (fmtOf c).emin + precP c)).toNat

/-- The caps that follow a Krule for a nonzero result (R184). -/
def capK (c : FpCls) (r : Fp) (inexact : Bool) (k : Nat) : Nat :=
  let k := min k (avail c r)
  if inexact then min k (avail c r - 1) else k

/-- The least Kef among operands; P when there is none. -/
def minKef (c : FpCls) (xs : List Opr) : Nat := ((xs.map (Opr.kef c)).min?).getD (precP c)

/-- The greatest of two floors, none being −∞. -/
def maxFloor (a b : Option Int) : Option Int :=
  match a, b with
  | none, y => y
  | x, none => x
  | some x, some y => some (max x y)

/-- What RoundOdd made of an exact value. -/
structure Rounded where
  v : Fp
  inexact : Bool
  overflow : Bool
  deriving DecidableEq, Repr

/-- RoundOdd with what it lost (R175, R177). -/
def roundTo (c : FpCls) (x : Fp) : Rounded :=
  let r := roundOdd c x
  ⟨r, !Fp.same r x, overflows c x⟩

/-- The result of an operation of the add class (R184): `infs` are the infinite operands, `addends` the addends, with
a product standing as one addend. -/
def addClass (c : FpCls) (addends infs : List Opr) (exact : Fp) : Pair :=
  let r := roundTo c exact
  let s := addends.any (fun x => x.s)
  if r.v.isNan || r.overflow then mkImg c r.v true 0
  else if r.v.isInf then mkImg c r.v s (minKef c infs)
  else if addends.any Opr.dead then mkImg c r.v (s || r.inexact) 0
  else if r.v.isZero then
    if addends.any (fun x => x.v.isNum) then
      mkImg c r.v s (if addends.any (fun x => x.v.isNum && x.s) then 0 else precP c)
    else mkImg c r.v s (minKef c addends)
  else
    let k : Nat :=
      match addends.foldl (fun a x => maxFloor a x.floor?) none with
      | none => precP c
      | some fr => (clampInt 0 (precP c) (r.v.lead - fr + 1)).toNat
    mkImg c r.v (s || r.inexact) (capK c r.v r.inexact k)

/-- The result of an operation with a row of its own (R184): `kr` is its Krule, `s0` the S taken over its operands,
`infs` its infinite operands. -/
def ownRow (c : FpCls) (kr : Nat) (s0 : Bool) (infs : List Opr) (exact : Fp) : Pair :=
  let r := roundTo c exact
  if r.v.isNan || r.overflow then mkImg c r.v true 0
  else if r.v.isInf then mkImg c r.v s0 (minKef c infs)
  else if r.v.isZero then mkImg c r.v s0 kr
  else mkImg c r.v (s0 || r.inexact) (capK c r.v r.inexact kr)

/-- The infinite operands among some. -/
def infsOf (xs : List Opr) : List Opr := xs.filter (fun x => x.v.isInf)

/-! ## The arithmetic of images -/

/-- a + b (R197). -/
def fAdd (c : FpCls) (a b : Opr) : Pair := addClass c [a, b] (infsOf [a, b]) (Fp.sum [a.v, b.v])
/-- The operand with its sign turned, for a − b taken as a + (−b) (R175). -/
def Opr.negate (a : Opr) : Opr := ⟨a.v.negate, a.s, a.k⟩
/-- a − b (R197). -/
def fSub (c : FpCls) (a b : Opr) : Pair := fAdd c a b.negate
/-- a × b with the multiply row (R184, R197). -/
def fMul (c : FpCls) (a b : Opr) : Pair :=
  ownRow c (min (a.kef c) (b.kef c)) (a.s || b.s) (infsOf [a, b]) (Fp.mul a.v b.v)
/-- The exact product as an addend (R184). -/
def prodOpr (c : FpCls) (a b : Opr) : Opr := ⟨Fp.mul a.v b.v, a.s || b.s, min (a.kef c) (b.kef c)⟩
/-- a × b + x, rounded once (R198). -/
def fFma (c : FpCls) (a b x : Opr) : Pair :=
  let p := prodOpr c a b
  addClass c [p, x] (infsOf [a, b, x]) (Fp.sum [p.v, x.v])

/-- Whether A wins a minimum or maximum over B (R199): a NaN loses to any non-NaN, equal values and two NaNs give A,
and −0 orders below +0. -/
def aWins (isMax : Bool) (a b : Fp) : Bool :=
  if a.isNan then b.isNan
  else if b.isNan then true
  else
    match Fp.cmp? a b with
    | some .lt => !isMax
    | some .gt => isMax
    | _ =>
      if a.isZero && b.isZero && a.neg? != b.neg? then (if isMax then !a.neg? else a.neg?) else true

/-- The winner's whole image (R199). -/
def fMinMax (isMax : Bool) (c : FpCls) (a b : Pair) : Pair := if aWins isMax (imgValue c a) (imgValue c b) then a else b

/-- An image of class `c` with other S and K, value and G kept. -/
def retag (c : FpCls) (p : Pair) (s : Bool) (k : Nat) : Pair :=
  (⟨p.1.val, mkTag p.1.g s k⟩, if c == .f64 then ⟨p.2.val, if 32 ≤ k then 0x01#8 else 0x00#8⟩ else p.2)

/-- K as stored, under a class: six bits for F64 (R36). -/
def storedK (c : FpCls) (p : Pair) : Nat := if c == .f64 then p.k else p.1.k

/-- The DETAIL of a significance trap at an arithmetic result (R458): 1 where a NaN, an overflow (an infinity that no
infinite operand gives) or a dead zero among the addends made K 0 in the order of R184, else 0. -/
def kDetail (c : FpCls) (y : Pair) (infs dead : Bool) : Nat :=
  let v := imgValue c y
  if v.isNan || (v.isInf && !infs) || (dead && !v.isInf) then 1 else 0

end Sys2Proof.Machine
end

