-- ==== Sys2Proof/Machine/Tab.lean ====
section
/-! DEFINITION. Sparse tables: a list of (key, value) pairs with strictly rising keys. Memory, register files and every
numbered family of the state are held this way; an absent key reads as the family's own default. -/

namespace Sys2Proof.Machine

/-- A sparse table by natural-number key. -/
abbrev Tab (α : Type) := List (Nat × α)

variable {α : Type}

/-- The value at a key, if it is listed. -/
def Tab.find? (t : Tab α) (k : Nat) : Option α :=
  match t with
  | [] => none
  | (j, v) :: rest => if j = k then some v else Tab.find? rest k

/-- The value at a key, or the default. -/
def Tab.at (t : Tab α) (d : α) (k : Nat) : α := (Tab.find? t k).getD d

/-- Listing a value at a key, in place. -/
def Tab.put (t : Tab α) (k : Nat) (v : α) : Tab α :=
  match t with
  | [] => [(k, v)]
  | (j, w) :: rest =>
    if k < j then (k, v) :: (j, w) :: rest
    else if k = j then (k, v) :: rest
    else (j, w) :: Tab.put rest k v

/-- Removing a key. -/
def Tab.del (t : Tab α) (k : Nat) : Tab α :=
  match t with
  | [] => []
  | (j, w) :: rest => if j = k then rest else (j, w) :: Tab.del rest k

/-- Changing the value at a key, starting from the default. -/
def Tab.upd (t : Tab α) (d : α) (k : Nat) (f : α → α) : Tab α := Tab.put t k (f (Tab.at t d k))

/-- The keys rise strictly, all of them at or above `lo`. -/
def Tab.risingFrom (lo : Nat) : Tab α → Bool
  | [] => true
  | (j, _) :: rest => decide (lo ≤ j) && Tab.risingFrom (j + 1) rest

/-- The keys rise strictly. -/
def Tab.rising (t : Tab α) : Bool := Tab.risingFrom 0 t

/-- The number of set bits in a list of flags. -/
def countTrue (bs : List Bool) : Nat := (bs.filter (fun b => b)).length

/-- The elements of a list with their positions from `k` up. -/
def indexFrom (k : Nat) : List α → List (Nat × α)
  | [] => []
  | x :: xs => (k, x) :: indexFrom (k + 1) xs

end Sys2Proof.Machine
end

