-- ==== Sys2Proof/Machine/Lanes.lean ====
section
/-! DEFINITION. A value in every lane of a gang, and the shapes of vector registers (R37-R39, R45, R46). -/

namespace Sys2Proof.Machine

/-- A value per lane: one for all 32 lane positions, or one for each. -/
inductive Lanes (α : Type) where
  | uni (x : α)
  | gen (xs : List α)
  deriving DecidableEq, Repr

variable {α β γ δ : Type}

/-- The value of one lane; `d` stands beyond the list. -/
def Lanes.at (v : Lanes α) (d : α) (l : Nat) : α :=
  match v with
  | .uni x => x
  | .gen xs => xs.getD l d

/-- The 32 lane positions. -/
def lanes32 : List Nat := List.range 32

/-- A value for each lane. -/
def Lanes.ofFn (f : Nat → α) : Lanes α := .gen (lanes32.map f)

/-- A lane-wise function of one operand: uniform from uniform, general otherwise (R38). -/
def Lanes.map (f : α → β) : Lanes α → Lanes β
  | .uni x => .uni (f x)
  | .gen xs => .gen (xs.map f)

/-- A lane-wise function of two operands (R38). -/
def Lanes.map2 (f : α → β → γ) (a : Lanes α) (b : Lanes β) : Lanes γ :=
  match a, b with
  | .uni x, .uni y => .uni (f x y)
  | .uni x, .gen ys => .gen (ys.map (f x))
  | .gen xs, .uni y => .gen (xs.map (fun x => f x y))
  | .gen xs, .gen ys => .gen (List.zipWith f xs ys)

/-- A lane-wise function of three operands (R38). -/
def Lanes.map3 (f : α → β → γ → δ) (a : Lanes α) (b : Lanes β) (c : Lanes γ) : Lanes δ :=
  Lanes.map2 (fun g z => g z) (Lanes.map2 f a b) c

/-- The value always written for each lane, shape general. -/
def Lanes.spread (v : Lanes α) (d : α) : Lanes α := .ofFn (v.at d)

/-! ## Vector registers -/

/-- The image in lane `l` (R37). -/
def VReg.lane (v : VReg) (l : Nat) : Img :=
  match v with
  | .uniform x => x
  | .affine b s => intImg (b + BitVec.ofNat 32 l * s)
  | .general xs => xs.getD l zeroImg

/-- The code that SHAPE.GET reports (R164). -/
def VReg.shapeCode : VReg → Nat
  | .uniform _ => 0
  | .affine _ _ => 1
  | .general _ => 2

/-- The images of a register by lane; an affine register counts as general (R38, any other operation). -/
def VReg.lanes (v : VReg) : Lanes Img :=
  match v with
  | .uniform x => .uni x
  | .affine _ _ => .ofFn v.lane
  | .general xs => .gen xs

/-- A register from the images of its lanes. -/
def VReg.ofLanes : Lanes Img → VReg
  | .uni x => .uniform x
  | .gen xs => .general xs

/-- What a register holds at creation (R32): uniform zero with tag 0x1A. -/
def VReg.zero : VReg := .uniform zeroImg

/-! ## Lane masks -/

/-- A set of lanes, bit L for lane L. -/
abbrev Mask := BitVec 32

/-- Whether lane `l` is in a mask. -/
def inMask (m : Mask) (l : Nat) : Bool := m.getLsbD l

/-- The lanes of a mask in ascending order. -/
def maskLanes (m : Mask) : List Nat := lanes32.filter (inMask m)

/-- The mask of the lanes that satisfy a test. -/
def maskOf (f : Nat → Bool) : Mask := BitVec.ofFnLE (fun i : Fin 32 => f i.val)

/-- The lowest lane of a mask. -/
def lowLane? (m : Mask) : Option Nat := (maskLanes m).head?
/-- The highest lane of a mask. -/
def highLane? (m : Mask) : Option Nat := (maskLanes m).getLast?

/-- The number of lanes in a mask. -/
def popMask (m : Mask) : Nat := (maskLanes m).length

/-- The lanes of slice `s` (R11). -/
def sliceMask (s : Nat) : Mask := BitVec.ofNat 32 (15 * 16 ^ s)

/-! ## Reading across lanes (R45, R46) -/

/-- The lane that a permutation reads for lane `l`, W lanes wide (R46). -/
def Perm.lane (p : Perm) (w l : Nat) : Nat :=
  match p with
  | .none => l
  | .bfly k => l ^^^ (2 ^ k.val)
  | .rot n => l / 8 * 8 + (l + n.toNat) % 8
  | .rev => w - 1 - l
  | .bc n => n.toNat

/-- A source read through a permutation: a lane that is not readable gives `z` (R45); a broadcast counts as uniform and
every other permutation as general (R38). -/
def permuted (v : Lanes α) (p : Perm) (w : Nat) (act : Mask) (z : α) : Lanes α :=
  match p with
  | .none => v
  | .bc n => .uni (if inMask act n.toNat then v.at z n.toNat else z)
  | _ => .ofFn (fun l => let s := Perm.lane p w l; if s < 32 && inMask act s then v.at z s else z)

/-- Src(X, s) of R147: the image of lane s when it is readable, the zero image otherwise. -/
def srcLane (v : Lanes α) (act : Mask) (z : α) (s : Int) : α :=
  if 0 ≤ s && s < 32 && inMask act s.toNat then v.at z s.toNat else z

/-! ## Writing a register (R39) -/

/-- The register after the lanes of `act` take the result `r`. The write is full when `act` holds every live lane; a
full general write leaves dead positions to the free values `dead`. DESIGN CHOICE (log 105): a partial write of a 64-bit
result judges each register of the pair by itself, so the two may end with different shapes (R37, R39). DESIGN CHOICE (log
151): a write with no active lane leaves the register and its shape as they are. -/
def writeLanes (old r : VReg) (act live : Mask) (dead : Nat → Img) : VReg :=
  if live &&& ~~~act == 0#32 then
    match r with
    | .general _ => .general (lanes32.map fun l => if inMask act l then r.lane l else dead l)
    | x => x
  else
    if act == 0#32 then old
    else
      match old, r with
      | .uniform x, .uniform y => if x == y then old else .general (lanes32.map fun l => if inMask act l then y else x)
      | .affine b s, .affine c t =>
        if b == c && s == t then old
        else .general (lanes32.map fun l => if inMask act l then r.lane l else old.lane l)
      | _, _ => .general (lanes32.map fun l => if inMask act l then r.lane l else old.lane l)

end Sys2Proof.Machine
end

