-- ==== Sys2Proof/Machine/State.lean ====
section
/-! DEFINITION. The state of the machine: every piece of state the spec gives it, as plain data, and its value at reset.
A number that no rule gives at reset is named in the assumption log. -/

namespace Sys2Proof.Machine

/-! ## Gangs -/

/-- Whether a lane was launched, and whether it has exited (R13). -/
inductive Life where
  | never | live | exited
  deriving DecidableEq, Repr

/-- The flow record of a lane (R440): its program counter as a full address, the header address of the clause it stands
in (the model's own, so that a trap can name it), the counted words from the program counter to the clause's end, the
clause's CLASSMASK and YIELD, its REGANG wait, its part, named by the lowest slice of the part over the team, and the word
that it waits at (R520). -/
structure Flow where
  pc : Word64
  hdr : Word64
  rem : Nat
  cmask : BitVec 6
  yld : BitVec 2
  rgw : Bool
  part : Nat
  word : Word64
  deriving DecidableEq, Repr

/-- One register result: a vector register or a mask register. -/
inductive Out where
  | reg (n : Nat) (v : VReg)
  | mask (k : Nat) (bits : BitVec 32)
  deriving DecidableEq, Repr

/-- A long-latency instruction whose result is not wholly written (R105): the registers it writes, the lanes still to
be written, the LOOK window of each slice, whether its result has landed, the result, its token, whether a
LONG_LATENCY_WRITE step lands it, and whether a trap has frozen its window (R421). -/
structure Pend where
  id : Nat
  regs : List Nat
  masks : List Nat
  left : BitVec 32
  win : List Nat
  landed : Bool
  outs : List Out
  tok : Nat
  compute : Bool
  frozen : Bool
  deriving DecidableEq, Repr

/-- An IDEM region (R374): its entry, keep count, lanes live at BEGIN, and the kept registers. -/
structure Idem where
  entry : Word64
  keep : Nat
  live : BitVec 32
  regs : Tab VReg
  hregs : Tab Word64
  deriving DecidableEq, Repr

/-- A deferred trap that waits for a word boundary (R419): the lanes, TINFO0-TINFO3, and the moment at which its word
issued (R502). -/
structure Deferred where
  code : Nat
  detail : Nat
  lanes : BitVec 32
  info0 : Word64
  info1 : Word64
  info2 : Word64
  info3 : Word64
  seq : Nat := 0
  deriving DecidableEq, Repr

/-- The scheduler's state of a gang (R31); a saved gang keeps the state it held. -/
inductive GangSt where
  | active | ready | waiting
  deriving DecidableEq, Repr

/-- An issuing unit that waits at a word it has issued (R85): its part, the word's address, and the next identity when it
issued, so that what was issued before it can be told from what came after (R342). -/
structure WaitRec where
  part : Nat
  pc : Word64
  since : Nat
  deriving DecidableEq, Repr

/-- A word fetched and not yet done (R520): the address, the word, and whether the unit has been merged at it (R18, R372,
R431). A literal word is fetched when its instruction issues. -/
structure Fetched where
  part : Nat
  pc : Word64
  word : Word64
  merged : Bool
  deriving DecidableEq, Repr

/-! ## Memory accesses -/

/-- How an access reaches its bytes (R222, R224, R225): device memory through a window (LINEAR or not) with its PROP
code, a location whose writes apply at once, or a TSO host extent with its link. -/
inductive Cls where
  | dev (lin : Bool) (prop : Nat)
  | plain
  | tso (link : Nat)
  deriving DecidableEq, Repr

/-- A mapped handle (R221): its attribute word, the pieces it names in order (device pieces, or host bus pages), and
the link of a TSO extent (R417). -/
structure Handle where
  attr : Word64
  pieces : List Nat
  link : Nat
  deriving DecidableEq, Repr

/-- A piece of an entry (R256): the lane, read or write, the bytes' physical addresses with the position of the first
in the lane's datum, what a write writes, the tag bytes that go with it, read or written through the same window (R258), and
their address and its own under the handles. -/
structure Piece where
  lane : Nat
  wr : Bool
  cls : Cls
  space : Nat
  pos : Nat
  cells : List Nat
  data : List Byte
  tagCls : Cls
  tagPos : Nat
  tagCells : List Nat
  taddr : Word64
  tags : List Byte
  haddr : Word64
  deriving DecidableEq, Repr

/-- An entry of a stream queue (R256): the instruction, its lanes and what it read when it issued (register images and
one address per lane), the mappings that an engine command was
issued under (R472), RNDCTL at issue, its token and pending result, the pieces still to perform, every address it
writes, what its reads returned, the lanes that met poison (with the address and space), whether the range check has been made (R473) and
whether its requests have been sent, the pending results it waits behind (R270), the word for a trap, the issue slot it was issued on (R364, R373), and the
moment it was issued, the same for every member of its unit. -/
structure Entry where
  id : Nat
  instr : Instr
  act : BitVec 32
  vals : Tab (List Img)
  addrs : Tab Word64
  maps : Tab Handle
  ctl : Word64
  tok : Nat
  pend : Nat
  todo : List Piece
  wcells : List Nat
  got : Tab Byte
  gotTag : Tab Byte
  bad : Tab (Word64 × Nat)
  checked : Bool
  sent : Bool
  gate : List Nat
  wordAt : Word64
  word : Word64
  slot : Nat
  born : Nat
  deriving DecidableEq, Repr

/-- A gang's context (R32, R34-R44, R440) with its bookkeeping: barrier counts by group (R371), classes (R361), with the own class that is in force since the gang's last clause entry (R362), the
waits of its units, tokens it has asked for (R248), the operations that each uncleared token has counted to their end
(R270), its completed wave operations by wave id (R342), and its stream queues (R255); stream 16 holds the node accesses
(R348). `tmark` is TCAUSE as the trap wrote it and `tgroup` the trapping lane group, which RTE goes by (R428, R431); `tborn` is the
moment at which the handler was entered (R502). -/
structure Gang where
  launch : Nat
  role : Nat
  member : Nat
  inst : Nat
  slices : Nat
  team : Nat
  mates : List Nat
  allot : Nat
  st : GangSt
  since : Nat
  clauses : Nat
  offer : Bool
  life : List Life
  flow : List Flow
  regs : Tab VReg
  masks : Tab (BitVec 32)
  hregs : Tab Word64
  toks : Tab Nat
  sigfloor : Word64
  rndctl : Word64
  memctl : Word64
  idxcnt : Word64
  qpri : Nat
  own : Nat
  ownNow : Nat
  base : Nat
  tcause : Word64
  tpc : Word64
  tlane : Word64
  tinfo0 : Word64
  tinfo1 : Word64
  tinfo2 : Word64
  tinfo3 : Word64
  tstat : Word64
  tmark : Word64
  tgroup : BitVec 32
  tborn : Nat
  seen : Tab (BitVec 32)
  arr : Tab Nat
  rel : Tab Nat
  trapFlow : List Flow
  pend : List Pend
  idem : Option Idem
  deferred : List Deferred
  waits : List WaitRec
  fetched : List Fetched
  acqs : List Nat
  owed : Tab (List (Nat × Nat))
  waveOps : Tab (List Nat)
  streams : Tab (List Entry)
  deriving DecidableEq, Repr

/-! ## The order machine (R255) -/

/-- A synchronisation object: a partition's token, a launch's group barrier or its end, a buffer slot, or an engine
operation. -/
inductive Obj where
  | token (pno id : Nat)
  | barrier (launch g : Nat)
  | fin (launch : Nat)
  | slot (core cb n : Nat)
  | op (core eng num : Nat)
  deriving DecidableEq, Repr

/-- A performed write piece to device memory that has not yet reached every image, view or copy: its number in each
granule's order (R257), its bytes by base address, its location class, the quarter it was written from, whether it
still stands in its window path, the quarters that have received it, who wrote it (gang key, stream, launch, and the
operation for an engine), the object its bytes are bound to (R227), its partition, and the moment it performed at. -/
structure GWrite where
  id : Nat
  nums : Tab Nat
  cells : Tab Byte
  lin : Bool
  prop : Nat
  quarter : Nat
  inPath : Bool
  got : BitVec 4
  gang : Nat
  stream : Nat
  launch : Nat
  op : Option (Nat × Nat × Nat)
  obj : Obj
  pno : Nat
  born : Nat
  deriving DecidableEq, Repr

/-- A release buffer (R268): the next release number and the stamped writes. -/
structure Buf where
  obj : Obj
  next : Nat
  writes : List (Nat × Nat)
  deriving DecidableEq, Repr

/-- What a pending release does once it has been taken (R270). -/
inductive RelKind where
  | token (id : Nat) | barrier (g : Nat) | retire | commit (core cb slot : Nat) | free (core cb slot : Nat)
  deriving DecidableEq, Repr

/-- A release waiting for its gate (R268): the gang, the entries that must have performed, the stream for a narrower
gate, whether the release step has been taken, its token, and the gangs in whose stream queues the release stands as an
entry of its identity (R256). -/
structure Rel where
  id : Nat
  gang : Nat
  launch : Nat
  pno : Nat
  kind : RelKind
  after : List Nat
  stream : Option Nat
  taken : Bool
  tok : Nat
  gangs : List Nat
  deriving DecidableEq, Repr

/-- A row of a partition's range table (R274): the operation and its physical source and destination ranges as
(address, length). -/
structure Range where
  core : Nat
  eng : Nat
  num : Nat
  src : List (Nat × Nat)
  dst : List (Nat × Nat)
  deriving DecidableEq, Repr

/-- An atomic request at a home service gang (R244): the entry it belongs to, its lane, its piece, and the old bytes once
an operation on host memory that is a read and a write has read them (R247). -/
structure AtomReq where
  gang : Nat
  entry : Nat
  lane : Nat
  piece : Piece
  home : Nat
  old : Option (List Byte)
  deriving DecidableEq, Repr

/-- A device write to a TSO host extent that has not reached host memory (R276). -/
structure HostStore where
  cells : Tab Byte
  gang : Nat
  link : Nat
  pno : Nat
  born : Nat
  deriving DecidableEq, Repr

/-! ## Engines of a core -/

/-- How far an operation has come (R278). -/
inductive OpPhase where
  | registered | running | ended
  deriving DecidableEq, Repr

/-- A registered operation of an engine or stack port (R278): its number, its identity, its gang, launch and partition,
the instruction with what it read at issue, the mappings it was checked against (R472), whether it is the follow-on of an
XCOPYM, and its work: the lane commands left (the first is under way), the unit and stage within it, the pieces to
perform, the bytes read, whether they met poison and at which places, the poison units it has marked (R489), the buffer slots held at the source and destination end, whether it
waits, out-of-range indices, its fault code and argument, its result, and whether a handle beneath it was revoked
(R437). -/
structure Op where
  num : Nat
  seq : Nat
  gang : Nat
  launch : Nat
  pno : Nat
  instr : Instr
  act : BitVec 32
  vals : Tab (List Img)
  ctl : Word64
  tok : Nat
  pend : Nat
  maps : Tab Handle
  follow : Bool
  phase : OpPhase
  lanes : List Nat
  unit : Nat
  stage : Nat
  todo : List Piece
  got : Tab Byte
  gotTag : Tab Byte
  bad : Bool
  badAt : List Nat
  spoiled : List Nat
  slotS : Option Nat
  slotD : Option Nat
  waits : Bool
  oor : Nat
  fault : Nat
  arg : Nat
  result : Word64
  dropped : Bool
  deriving DecidableEq, Repr

/-- An engine or stack port of a core (R277, R377): its counters, its registered operations in number order, and its
fault word (R462, R476, R478). -/
structure Engine where
  issued : Nat
  done : Nat
  ops : List Op
  fault : Word64
  deriving DecidableEq, Repr

/-- A matrix or node operation that has not registered (R303, R332): what it read at issue, with a memory end the
stream its entry stands in, and whether it is a follow-on, of a copy that
faulted or not (R287, R463). -/
structure Pre where
  id : Nat
  gang : Nat
  launch : Nat
  instr : Instr
  act : BitVec 32
  vals : Tab (List Img)
  ctl : Word64
  tok : Nat
  pend : Nat
  maps : Tab Handle
  stream : Option Nat
  follow : Bool
  dead : Bool
  deriving DecidableEq, Repr

/-- A claim that waits, or a release of a claim that waits for its operations (R299, R301). -/
structure Claim where
  gang : Nat
  slots : BitVec 32
  tiles : BitVec 8
  tok : Nat
  after : List Nat
  deriving DecidableEq, Repr

/-- A waiting RES or TAKE (R252): a gang's pending result, or the copy engine's current lane command. -/
structure CbReq where
  gang : Option Nat
  pend : Nat
  tok : Nat
  deriving DecidableEq, Repr

/-- A circular buffer (R251, R252): its base address and physical base, slots and slot size, counts, ring pointers,
slots reserved, committed, taken and freed out of order, and the waiting requests. -/
structure CBuf where
  base : Word64
  phys : Nat
  slots : Nat
  size : Nat
  free : Nat
  filled : Nat
  rp : Nat
  cp : Nat
  tp : Nat
  fp : Nat
  reserved : List Nat
  committed : List Nat
  taken : List Nat
  freed : List Nat
  waitRes : List CbReq
  waitTake : List CbReq
  deriving DecidableEq, Repr

/-- A gate of a sink (R295). -/
structure Gate where
  line : Nat
  gseen : BitVec 32
  deriving DecidableEq, Repr

/-- What a core holds and a partition swap moves (R444): engines by sink code (R295), event matrix, buffers, operand
maps, tiles, claims, matrix power and budget, scheduler settings, balance counters, the units with a slot of the current clock that have not issued in it yet, each as its
context, part and first slot (R364), the first slot of the unit that issues, and the slots that a balance stall leaves unused
in the next clock (R368). -/
structure Core where
  engines : Tab Engine
  cells : Tab (BitVec 16)
  lc : Tab (BitVec 32)
  pulses : Tab (List (Nat × Nat × Nat))
  gates : Tab Gate
  cbs : Tab CBuf
  maps : Tab (BitVec 20)
  tiles : Tab Img
  slotHeld : Tab Nat
  tileHeld : Tab Nat
  claims : List Claim
  orels : List Claim
  mxq : List Pre
  ndq : List Pre
  charges : Tab Nat
  idle : BitVec 16
  gated : BitVec 4
  waking : Bool
  wakes : Nat
  budget : Nat
  left : Nat
  waits : Nat
  wplane : Bool
  quantum : Nat
  swapthr : Nat
  stalls : Nat
  defers : Nat
  imb : Nat
  under : Bool
  cycle : Nat
  due : List (Nat × Nat × Nat)
  slot : Nat
  idleSlots : Nat
  deriving DecidableEq, Repr

/-! ## Node banks and waves -/

/-- A node record (R325): its header word, attributes, bit markers and vector markers by m × 16 + element. -/
structure Node where
  w0 : Word64
  w1 : Word64
  mb : Word64
  mv : Tab Img
  poison : Bool
  deriving DecidableEq, Repr

/-- An engine's part of a running wave (R344, R346): its credit, the slots not yet started, the messages to deliver, the
batches it may not send for want of credit, and whether it has asked for credit. -/
structure WaveEng where
  credit : Nat
  left : List Nat
  msgs : List WaveMsg
  held : List (Nat × Bool × List WaveMsg)
  asked : Bool
  deriving DecidableEq, Repr

/-- A wave (R331): of a partition of this device, or, when it is foreign, of another device that sends messages here. Its
partition and id, the origin (a core, or device × 1024 + core), the operation's number and identity, its gang,
instruction and what it read at issue; the engines that hold state for it; the cores of its scope and those whose start
is done (R348); the origin's pool, the credit away at other devices and their requests (R344, R345); hop counts
(core × 8192 + slot); deliveries by core (R482); batches sent by source × 2^32 + target, and the highest number received by target × 2^32 + source
(R503); the waves a held start
waits for (R347); for a collecting wave the nodes selected; for a foreign wave what its status word at the origin is still
to be told (R346). -/
structure Wave where
  pno : Nat
  wid : Nat
  foreign : Bool
  origin : Nat
  num : Nat
  seq : Nat
  gang : Nat
  instr : Instr
  etypes : List (BitVec 32)
  vals : List Img
  engs : Tab WaveEng
  scope : List Nat
  started : List Nat
  pool : Nat
  away : Nat
  asks : List Nat
  lowhop : Tab Nat
  delivered : Tab Nat
  sent : Tab Nat
  heard : Tab Nat
  blocked : List Nat
  sel : Tab (List Img)
  ended : Bool
  noted : RemoteBack
  deriving DecidableEq, Repr

/-- A batch in flight (R344, R346): its wave, source core, target (a core, or device × 1024 + core + 1024 beyond this
device), its number, the plane, its credit, whether it carries the start, its messages, whether it has been sent (R495),
the moment of its sending, and whether a switch has discarded it (R496) or its plane has died under it (R503); for credit that goes back to the origin of a foreign
wave, what goes with it (R346). One for another device is kept until it is acknowledged (R503). -/
structure Batch where
  id : Nat
  wave : Nat
  src : Nat
  dst : Nat
  num : Nat
  plane : Nat
  credit : Nat
  start : Bool
  msgs : List WaveMsg
  sent : Bool
  moment : Nat
  gone : Bool
  back : Option RemoteBack
  deriving DecidableEq, Repr

/-! ## Launches and queues -/

/-- A group of a launch (R29): its flags, its members as gang designators, its barrier wire and the phase count P
(R371). -/
structure Group where
  bar : Bool
  scope : Bool
  pcv : Bool
  pcls : Nat
  members : List (BitVec 32)
  span : Nat
  wire : Nat
  phase : Nat
  deriving DecidableEq, Repr

/-- A row of a binding table (R27). -/
structure Bind where
  base : Word64
  pieces : Nat
  kind : Nat
  id : Nat
  deriving DecidableEq, Repr

/-- A role as the dispatcher read it (R22, R25). -/
structure Role where
  entry : Word64
  trapent : Word64
  rshape : Word64
  rinit : Word64
  callees : List (Word64 × Word64)
  deriving DecidableEq, Repr

/-- A launch as its record and tables give it (R20-R30). -/
structure Plan where
  roles : List Role
  slots : List (Word64 × Word64)
  groups : List Group
  binds : List Bind
  deriving DecidableEq, Repr

/-- A running launch (R20, R33): its queue and packet number, what the dispatcher read, where each gang stands
(designator to gang key), the gangs whose retirement release has been taken, and the status
once the launch is ending early (R432). -/
structure Launch where
  pno : Nat
  queue : Nat
  packet : Nat
  roles : List Role
  slots : List (Word64 × Word64)
  groups : List Group
  binds : List Bind
  gangs : Tab Nat
  gone : List Nat
  halt : Option Nat
  deriving DecidableEq, Repr

/-- A packet taken and not yet counted (R358): its number, status once completed, IRQ. -/
structure Taken where
  number : Nat
  status : Option Nat
  irq : Bool
  serial : Bool
  deriving DecidableEq, Repr

/-- The head packet of a queue, read once (R357): its words, the LSTAT of the check that it fails, 0 for none, and, once
the packet is held for want of contexts, the launch as its record gave it. -/
structure Head where
  words : List Word64
  flaw : Nat
  plan : Option Plan
  deriving DecidableEq, Repr

/-- A work queue (R353), with its head packet once the dispatcher has read it (R357). -/
structure Queue where
  w0 : Word64
  w1 : Word64
  tail : BitVec 32
  head : BitVec 32
  comp : BitVec 48
  lstat : BitVec 8
  taken : List Taken
  packet : Option Head
  deriving DecidableEq, Repr

/-! ## Partitions -/

/-- A token at its home (R248, R471): who holds it (gang, exclusive), and the waiting requests in arrival order. -/
structure Tok where
  held : List (Nat × Bool)
  reqs : List (Nat × Bool × Nat)
  deriving DecidableEq, Repr

/-- What a swap keeps of a core (R444): the core's state, its scratchpad, operand memory and cluster-share bytes with
their poison marks, and its gangs. -/
structure Shadow where
  core : Core
  mem : Tab Byte
  poison : Tab Unit
  gangs : Tab Gang
  waves : Tab Wave
  deriving DecidableEq, Repr

/-- A partition (R221, R331, R355, R397, R406, R433, R510): its descriptor words, whether it is formed and swapped in
and whether it is stopping for a swap, the pieces of each quarter's die scratchpad that are its share, its tables, its tokens, the queue served last
at each priority (R360), its die-span wires by quarter and package-span wires (R369), and its saved cores. -/
structure Part where
  formed : Bool
  inn : Bool
  stopping : Bool
  desc : List Word64
  diePieces : List (List Nat)
  handles : Tab Handle
  exports : Tab Word64
  mcast : Tab (List Word64)
  acl : Tab Word64
  waves : Tab Word64
  partsys : Word64
  tokens : Tab Tok
  served : Tab Nat
  dieWires : List (List Nat)
  pkgWires : List Nat
  shadow : Tab Shadow
  deriving DecidableEq, Repr

/-! ## Stacks, fabric, host and management -/

/-- The status of a stack (R391) and its droop guard (R390). -/
structure Stack where
  droops : BitVec 16
  temp : BitVec 8
  thresh : BitVec 8
  idle16 : BitVec 4
  held : Bool
  deriving DecidableEq, Repr

/-- A fabric port (R396, R410): its working lanes and whether it carries traffic; the flits it has sent and those that
the receiver has acknowledged, counted, a flit's number being its count modulo 4096 (R492); the flit that is being
replayed and its replays in a row; the header flits of the packets that are not wholly acknowledged (R493); and, for what it
receives, the number of the flit expected next, and whether the flit that arrived was bad and is awaited again (R492). -/
structure Port where
  lanes : BitVec 16
  up : Bool
  replays : Nat
  sent : Nat
  acked : Nat
  failed : Nat
  headers : List Nat
  expect : BitVec 12
  awaits : Bool
  deriving DecidableEq, Repr

/-- One request of a fabric operation (R400, R411): its lane or member, designator, offset and size, the position of
its bytes in the lane's datum, the plane and port it was sent on (R394), whether it has been sent and answered, what it
combined into, the moment it was sent, and whether a switch has discarded it (R496). -/
structure FReq where
  lane : Nat
  desig : Word64
  u : BitVec 32
  pos : Nat
  n : Nat
  req : PeerReq
  plane : Nat
  port : Nat
  sent : Bool
  ans : Option PeerAns
  into : Option (Nat × Nat)
  moment : Nat
  gone : Bool
  deriving DecidableEq, Repr

/-- A request that has been admitted here as target and has not wholly performed (R411, R499): its identity, the
operation and request of this device that it is, if it is one, the device it came from, its designator and offset, the
partition, the pieces still to perform, and what its reads returned. -/
structure Inbound where
  id : Nat
  own : Option (Nat × Nat)
  src : Nat
  desig : Word64
  ofs : Nat
  req : PeerReq
  pno : Nat
  todo : List Piece
  got : Tab Byte
  deriving DecidableEq, Repr

/-- A fabric operation in flight (R411): its gang (whether it still lives), its entry and its requests; for a
multicast, the acknowledgement's write pieces once the replies are in, and the next identity at that moment. -/
structure FabOp where
  gang : Nat
  launch : Nat
  entry : Entry
  reqs : List FReq
  record : Option (List Piece)
  since : Nat
  deriving DecidableEq, Repr

/-- An operation on a handle or the flash that has left its stream (R434): what remains for its completion. -/
structure HandleOp where
  gang : Nat
  pno : Nat
  entry : Entry
  status : Word64
  handle : Option (Nat × Handle)
  target : Nat
  deriving DecidableEq, Repr

/-- A log entry of the management window (R491, R506) as its words. -/
structure LogRow where
  w0 : Word64
  w1 : Word64
  w2 : Word64
  deriving DecidableEq, Repr

/-- The management window's registers and the firmware's state (R507-R519), and, by host link, Device Control 2 of its function
(R504) and the uncorrectable error status of its Advanced Error Reporting capability (R505). -/
structure Mgmt where
  mid : Word64
  fwstat : Word64
  errvec : Word64
  apbase : Word64
  mcmd : Word64
  mstatus : Word64
  marg : Tab Word64
  errlog : List LogRow
  fablog : List LogRow
  rollback : Nat
  owner : List Byte
  fwDigest : List Byte
  power : BitVec 2
  irqs : Tab Nat
  devctl2 : Tab (BitVec 16)
  aer : Tab (BitVec 32)
  deriving DecidableEq, Repr

/-! ## The unit that issues -/

/-- The issuing unit of a step (R12, R16): the gang key of member 0 (launch × 65536 + core × 64 + context), the part,
the word's address and clause header, the word, and whether a literal word goes with it. -/
structure Cur where
  key : Nat
  part : Nat
  pc : Word64
  hdr : Word64
  word : Word64
  lit : Bool
  deriving DecidableEq, Repr

/-! ## Stops -/

/-- Why a step can stop the machine. The spec turns every failure into a trap, a fault word, a status or a refusal by
the management window, so no step of this model stops; the one name is raised by nothing (safe). -/
inductive Fault where
  /-- Raised by no step: no rule of the spec stops the machine (safe). -/
  | none
  deriving DecidableEq, Repr

/-- Why a step is refused. -/
inductive Refusal where
  /-- Raised by the dispatch of an instruction that has no meaning yet (safe: the model stops). -/
  | notModelled (mnemonic : String)
  deriving DecidableEq, Repr

/-! ## The machine -/

/-- The whole machine. `mem` holds every byte store by flat physical address (Ops.lean lays the regions out), `held`
the order number that each location granule has applied, `top` the last number of each base granule, `poison` the
poisoned units. `agenda`, `tick` and `nextId` are the model's own: the choices to take next, the count of steps taken
(which the free values are applied to), and the next unused identity. `arb` holds the round-robin pointers of the
arbiters (R364, R373), `arrived` the requests that wait at a resource in the order of their arrival, each as the resource's
code, its requester and its identity, `lost` the addresses whose transfer fails at the next read of an agent that has no
pieces (R480, R504), `inbox` the admitted requests of peers, `linkAt` the next identity when a host link went down
(R505), `flashShadow` the shadow banks' copy in the flash, by core (R517). -/
structure State where
  tick : Nat
  nextId : Nat
  agenda : List Choice
  cur : Cur
  mem : Tab Byte
  held : Tab Nat
  top : Tab Nat
  poison : Tab Unit
  log : List GWrite
  bufs : List Buf
  rels : List Rel
  ranges : Tab (List Range)
  atoms : List AtomReq
  hostQ : List HostStore
  gangs : Tab Gang
  cores : Tab Core
  nodes : Tab Node
  edges : Tab Word64
  edgePoison : Tab Unit
  waves : Tab Wave
  batches : List Batch
  launches : Tab Launch
  queues : Tab Queue
  parts : Tab Part
  stk : Tab Stack
  ports : Tab Port
  planeDead : BitVec 8
  planeVia : Tab Nat
  planeHold : BitVec 8
  fab : List FabOp
  inbox : List Inbound
  hops : List HandleOp
  pieceStack : Tab Nat
  moving : List (Nat × Nat)
  flashShadow : Tab (List Shadow)
  used : Tab Nat
  links : BitVec 2
  linkAt : Tab Nat
  arb : Tab Nat
  arrived : List (Nat × Nat × Nat)
  lost : List Nat
  mgmt : Mgmt
  deriving DecidableEq, Repr

/-- A flow record of a lane that was never launched. -/
def Flow.blank : Flow := ⟨0#64, 0#64, 0, 0#6, 0#2, false, 0, 0#64⟩

/-- An engine at formation (R277, R512). -/
def Engine.fresh : Engine := ⟨0, 0, [], 0#64⟩

/-- A core at formation (R512). -/
def Core.fresh : Core where
  engines := []
  cells := []
  lc := []
  pulses := []
  gates := []
  cbs := []
  maps := []
  tiles := []
  slotHeld := []
  tileHeld := []
  claims := []
  orels := []
  mxq := []
  ndq := []
  charges := []
  idle := 0x0040#16
  gated := 0#4
  waking := false
  wakes := 0
  budget := 0
  left := 0
  waits := 0
  wplane := false
  quantum := 64
  swapthr := 256
  stalls := 0
  defers := 0
  imb := 0
  under := false
  cycle := 0
  due := []
  slot := 0
  idleSlots := 0

/-- A node record at formation (R326). -/
def Node.empty : Node := ⟨0#64, 0#64, 0#64, [], false⟩

/-- A queue that no partition owns (R353, R511): PART 31. -/
def Queue.unowned : Queue := ⟨0#64, 31#64, 0#32, 0#32, 0#48, 0#8, [], none⟩

/-- A partition number that is not formed. -/
def Part.unformed : Part where
  formed := false
  inn := false
  stopping := false
  desc := []
  diePieces := []
  handles := []
  exports := []
  mcast := []
  acl := []
  waves := []
  partsys := 0#64
  tokens := []
  served := []
  dieWires := []
  pkgWires := []
  shadow := []

/-- A stack at reset (R391): THRESH 95, IDLE16 4. -/
def Stack.fresh : Stack := ⟨0#16, 0#8, 95#8, 4#4, false⟩

/-- A port with all its lanes. -/
def Port.fresh : Port := ⟨0xFFFF#16, true, 0, 0, 0, 0, [], 0#12, false⟩

/-- The management window at reset (R508, R515). -/
def Mgmt.fresh : Mgmt where
  mid := 0#64
  fwstat := 0#64
  errvec := 0#64
  apbase := 0#64
  mcmd := 0#64
  mstatus := 0#64
  marg := []
  errlog := []
  fablog := []
  rollback := 0
  owner := []
  fwDigest := []
  power := 1#2
  irqs := []
  devctl2 := []
  aer := []

/-- The machine right after reset: no partition formed, no queue owned, memory with nothing listed. -/
def State.reset : State where
  tick := 0
  nextId := 1
  agenda := []
  cur := ⟨0, 0, 0#64, 0#64, 0#64, false⟩
  mem := []
  held := []
  top := []
  poison := []
  log := []
  bufs := []
  rels := []
  ranges := []
  atoms := []
  hostQ := []
  gangs := []
  cores := []
  nodes := []
  edges := []
  edgePoison := []
  waves := []
  batches := []
  launches := []
  queues := []
  parts := []
  stk := []
  ports := []
  planeDead := 0#8
  planeVia := []
  planeHold := 0#8
  fab := []
  inbox := []
  hops := []
  pieceStack := []
  moving := []
  flashShadow := []
  used := []
  links := 3#2
  linkAt := []
  arb := []
  arrived := []
  lost := []
  mgmt := Mgmt.fresh

end Sys2Proof.Machine
end

