-- ==== Sys2Proof/Machine/Mem.lean ====
section
/-! DEFINITION. Memory: the byte store in canonical form, the physical layout of the spaces (R222), handles and the
mapping of offsets (R220-R228), poison units (R486), and the reading and writing of one piece (R256-R260). -/

namespace Sys2Proof.Machine

/-! ## Bytes and fields -/

/-- n bits of a word from bit `lo`. -/
def fieldOf (w : Word64) (lo n : Nat) : Nat := w.toNat / 2 ^ lo % 2 ^ n

/-- The natural number of little-endian bytes (R5). -/
def leNat : List Byte → Nat
  | [] => 0
  | b :: bs => b.toNat + 256 * leNat bs

/-- n little-endian bytes of a number. -/
def leBytes (n v : Nat) : List Byte := (List.range n).map fun i => BitVec.ofNat 8 (v / 256 ^ i)

/-- A word of little-endian bytes. -/
def leWord (bs : List Byte) : Word64 := BitVec.ofNat 64 (leNat bs)

/-! ## The byte store -/

/-- The byte store: the bytes that differ from what an unlisted address reads as. -/
abbrev Memory := Tab Byte

/-- What an unlisted address reads as. -/
def Memory.unlisted : Byte := 0#8

/-- Reading one byte. -/
def Memory.get (m : Memory) (a : Nat) : Byte := Tab.at m Memory.unlisted a

/-- Writing one byte; writing the unlisted value removes the entry. -/
def Memory.set (m : Memory) (a : Nat) (b : Byte) : Memory :=
  if b = Memory.unlisted then Tab.del m a else Tab.put m a b

/-- The canonical form: addresses strictly rising, no entry equal to the unlisted value. -/
def Memory.wf (m : Memory) : Bool := Tab.rising m && m.all (fun e => e.2 != Memory.unlisted)

/-- Writing a list of (address, byte). -/
def Memory.sets (m : Memory) (cs : List (Nat × Byte)) : Memory := cs.foldl (fun m c => m.set c.1 c.2) m

/-! ## Physical layout (R2, R222) -/

/-- Device memory below 2^39: piece p at p × 65,536 is the single image; quarter q's view or copy lies (q+1) × 2^39
above it. -/
def quarterBase (q : Nat) : Nat := (q + 1) * 2 ^ 39
/-- The core scratchpad of a core, 512 KiB. -/
def coreBase (core : Nat) : Nat := 2 ^ 42 + core * 2 ^ 19
/-- The cluster scratchpad of a cluster, 8 MiB. -/
def clusterBase (c : Nat) : Nat := 2 ^ 43 + c * 2 ^ 23
/-- The die scratchpad of a quarter, 64 MiB. -/
def dieBaseOf (q : Nat) : Nat := 2 ^ 44 + q * 2 ^ 26
/-- The operand memory of a core, 256 KiB (R298). -/
def operandBase (core : Nat) : Nat := 2 ^ 45 + core * 2 ^ 18
/-- Flash block b (R439). -/
def flashBase (b : Nat) : Nat := 2 ^ 46 + b * 65536
/-- Host memory at a bus address (R417). -/
def hostBase : Nat := 2 ^ 65

/-- The cluster of a core (R44, R223). -/
def clusterOf (core : Nat) : Nat := core / 16
/-- The quarter of a core. -/
def quarterOf (core : Nat) : Nat := core / 256

/-- The granules of the poison unit of an address (R486): the 32-byte sector in device memory, the 16-byte granule
elsewhere. A unit is poisoned while one of its granules is marked. -/
def poisonUnit (a : Nat) : List Nat := if a < 2 ^ 39 then [a / 32 * 2, a / 32 * 2 + 1] else [a / 16]
/-- The length of the poison unit of an address. -/
def poisonSize (a : Nat) : Nat := if a < 2 ^ 39 then 32 else 16

/-! ## Tables of the state -/

def State.core (s : State) (c : Nat) : Core := Tab.at s.cores Core.fresh c
def State.setCore (s : State) (c : Nat) (x : Core) : State := { s with cores := Tab.put s.cores c x }
def State.updCore (s : State) (c : Nat) (f : Core → Core) : State := s.setCore c (f (s.core c))
def State.part (s : State) (p : Nat) : Part := Tab.at s.parts Part.unformed p
def State.setPart (s : State) (p : Nat) (x : Part) : State := { s with parts := Tab.put s.parts p x }
def State.updPart (s : State) (p : Nat) (f : Part → Part) : State := s.setPart p (f (s.part p))
def State.queue (s : State) (q : Nat) : Queue := Tab.at s.queues Queue.unowned q
def State.setQueue (s : State) (q : Nat) (x : Queue) : State := { s with queues := Tab.put s.queues q x }
def State.updQueue (s : State) (q : Nat) (f : Queue → Queue) : State := s.setQueue q (f (s.queue q))
def State.stack (s : State) (n : Nat) : Stack := Tab.at s.stk Stack.fresh n
def State.setStack (s : State) (n : Nat) (x : Stack) : State := { s with stk := Tab.put s.stk n x }
def State.port (s : State) (n : Nat) : Port := Tab.at s.ports Port.fresh n
def State.setPort (s : State) (n : Nat) (x : Port) : State := { s with ports := Tab.put s.ports n x }
def State.gang? (s : State) (k : Nat) : Option Gang := Tab.find? s.gangs k
def State.setGang (s : State) (k : Nat) (g : Gang) : State := { s with gangs := Tab.put s.gangs k g }
def State.launch? (s : State) (l : Nat) : Option Launch := Tab.find? s.launches l
def State.setLaunch (s : State) (l : Nat) (x : Launch) : State := { s with launches := Tab.put s.launches l x }
def State.node (s : State) (n : Nat) : Node := Tab.at s.nodes Node.empty n
def State.setNode (s : State) (n : Nat) (x : Node) : State := { s with nodes := Tab.put s.nodes n x }

/-- Changing a gang that exists. -/
def State.updGang (s : State) (k : Nat) (f : Gang → Gang) : State :=
  match s.gang? k with
  | some g => s.setGang k (f g)
  | none => s

/-- Changing a launch that runs. -/
def State.updLaunch (s : State) (l : Nat) (f : Launch → Launch) : State :=
  match s.launch? l with
  | some x => s.setLaunch l (f x)
  | none => s

/-- The next unused identity. -/
def State.fresh (s : State) : Nat × State := (s.nextId, { s with nextId := s.nextId + 1 })

def Core.engine (c : Core) (e : Nat) : Engine := Tab.at c.engines Engine.fresh e
def Core.setEngine (c : Core) (e : Nat) (x : Engine) : Core := { c with engines := Tab.put c.engines e x }
def State.engine (s : State) (c e : Nat) : Engine := (s.core c).engine e
def State.updEngine (s : State) (c e : Nat) (f : Engine → Engine) : State :=
  s.updCore c fun x => x.setEngine e (f (x.engine e))

/-- The partition of a gang key (core × 64 + context), by its launch. -/
def State.partOf (s : State) (g : Gang) : Nat := (s.launch? g.launch).elim 0 (·.pno)

/-! ## Partitions (R510) -/

/-- A descriptor word of a partition. -/
def Part.word (p : Part) (i : Nat) : Word64 := p.desc.getD i 0#64
/-- Whether the partition holds a cluster. -/
def Part.hasCluster (p : Part) (c : Nat) : Bool := c < 64 && (p.word 0).getLsbD c
/-- The clusters of the partition in ascending order. -/
def Part.clusters (p : Part) : List Nat := (List.range 64).filter p.hasCluster
/-- The cores of the partition in ascending order. -/
def Part.cores (p : Part) : List Nat := p.clusters.flatMap fun c => (List.range 16).map fun i => 16 * c + i
/-- The world of the partition: secure or not (R514). -/
def Part.secure (p : Part) : Bool := (p.word 1).getLsbD 63
/-- The pieces of a quarter's die scratchpad that the partition holds. -/
def Part.dieShare (p : Part) (q : Nat) : Nat := fieldOf (p.word 2) (16 * q) 16

/-! ## Attribute words (R221) -/

def attrValid (a : Word64) : Bool := a.getLsbD 63
def attrSpace (a : Word64) : Nat := fieldOf a 60 3
def attrLinear (a : Word64) : Bool := a.getLsbD 59
def attrProp (a : Word64) : Nat := fieldOf a 57 2
def attrTso (a : Word64) : Bool := a.getLsbD 56
def attrSecure (a : Word64) : Bool := a.getLsbD 55
def attrTagp (a : Word64) : Bool := a.getLsbD 54
def attrRd (a : Word64) : Bool := a.getLsbD 53
def attrWr (a : Word64) : Bool := a.getLsbD 52
def attrTagh (a : Word64) : Nat := fieldOf a 24 24
/-- The extent's length in bytes. -/
def attrBytes (a : Word64) : Nat := (fieldOf a 0 24 + 1) * 65536

/-- The attribute word of a scratchpad (R223): VALID, RD, WR, ATOMIC, the world of the core. -/
def scratchAttr (space len : Nat) (sec : Bool) : Word64 :=
  BitVec.ofNat 64 (2 ^ 63 + space * 2 ^ 60 + (if sec then 2 ^ 55 else 0) + 2 ^ 53 + 2 ^ 52 + (len - 1))

/-- A scratchpad of `len` pieces at a physical base. -/
def scratchHandle (space base len : Nat) (sec : Bool) : Handle :=
  ⟨scratchAttr space len sec, (List.range len).map (fun i => base / 65536 + i), 0⟩

/-- The pieces of a quarter's die scratchpad that are a partition's share, numbered within the quarter. -/
def Part.diePiecesOf (p : Part) (q : Nat) : List Nat := p.diePieces.getD q []

/-- The die-scratchpad share of a quarter. -/
def dieHandle? (p : Part) (q : Nat) : Option Handle :=
  if p.dieShare q = 0 then none
  else some ⟨scratchAttr 4 (p.dieShare q) p.secure, (p.diePiecesOf q).map fun k => dieBaseOf q / 65536 + k, 0⟩

/-- The handle a number names for a core of a partition (R221, R223), when it is VALID. -/
def Part.handle? (p : Part) (core h : Nat) : Option Handle :=
  let core8 := fun c => scratchHandle 2 (coreBase c) 8 p.secure
  let clus := fun c => if p.hasCluster c then some (scratchHandle 3 (clusterBase c) 128 p.secure) else none
  if h < 0xFFF000 then Tab.find? p.handles h
  else if h = 0xFFFF00 then some (core8 core)
  else if h = 0xFFFF01 then clus (clusterOf core)
  else if h = 0xFFFF02 then dieHandle? p (quarterOf core)
  else if 0xFFFE00 ≤ h && h < 0xFFFE10 then some (core8 (clusterOf core * 16 + (h - 0xFFFE00)))
  else if 0xFFFD00 ≤ h && h < 0xFFFD04 then dieHandle? p (h - 0xFFFD00)
  else if 0xFFFC00 ≤ h && h < 0xFFFC40 then clus (h - 0xFFFC00)
  else none

/-- Whether a handle number may be a TAGH: mapped, clustsp0-63 or diesp0-3 (R228). -/
def mayBeTagh (h : Nat) : Bool :=
  h < 0xFFF000 || (0xFFFC00 ≤ h && h < 0xFFFC40) || (0xFFFD00 ≤ h && h < 0xFFFD04)

/-- The handle part of an address. -/
def hndOf (a : Word64) : Nat := fieldOf a 40 24
/-- The offset part of an address. -/
def offOf (a : Word64) : Nat := fieldOf a 0 40
/-- The address of an offset under a handle. -/
def mkAddr (h o : Nat) : Word64 := BitVec.ofNat 64 (h * 2 ^ 40 + o % 2 ^ 40)

/-! ## Offsets to bytes (R224) -/

/-- The physical address of an offset under a handle: by pieces, or by 4 KiB stripes over groups of eight. -/
def Handle.phys (h : Handle) (o : Nat) : Nat :=
  if attrSpace h.attr = 0 && !attrLinear h.attr then
    let k := o / 4096
    h.pieces.getD (k / 128 * 8 + k % 128 % 8) 0 * 65536 + k % 128 / 8 * 4096 + o % 4096
  else h.pieces.getD (o / 65536) 0 * 65536 + o % 65536

/-- How accesses through a handle reach its bytes. -/
def Handle.cls (h : Handle) : Cls :=
  if attrSpace h.attr = 0 then .dev (attrLinear h.attr) (attrProp h.attr)
  else if attrSpace h.attr = 1 && attrTso h.attr then .tso h.link
  else .plain

/-- The case of R467 that bytes o to o+n-1 under a handle meet, with the lowest offset at fault: 1 not VALID, 2 rights,
3 world, 4 extent, 7 a reserved space. -/
def accessFault (h : Option Handle) (secure wr rd : Bool) (o n : Nat) : Option (Nat × Nat) :=
  match h with
  | none => some (1, o)
  | some h =>
    if !attrValid h.attr then some (1, o)
    else if (rd && !attrRd h.attr) || (wr && !attrWr h.attr) then some (2, o)
    else if attrSecure h.attr && !secure then some (3, o)
    else if attrBytes h.attr < o + n then some (4, max o (attrBytes h.attr))
    else if 5 ≤ attrSpace h.attr then some (7, o)
    else none

/-! ## Pieces (R256, R265) -/

/-- What tags a write gives the elements it touches (R229): by the kind of the store, or as stated element by
element. -/
inductive WrTag where
  | f32 | f64 | other | exact (ts : List Byte)
  deriving DecidableEq, Repr

/-- The tag of element `e` (4-byte elements of the extent) under a write of n bytes at offset o. -/
def elemTag (k : WrTag) (o n e : Nat) : Byte :=
  match k with
  | .f32 => if o % 4 = 0 && n = 4 then 0x1A#8 else 0x1F#8
  | .f64 => if o % 8 = 0 && n = 8 then (if 4 * e = o then 0x17#8 else 0x01#8) else 0x1F#8
  | .other => 0x1F#8
  | .exact ts => ts.getD (e - o / 4) 0x1F#8

/-- A tag plane's class as an access through another handle reaches it: by that handle's window (R258). -/
def Cls.through (t h : Cls) : Cls :=
  match t, h with
  | .dev _ prop, .dev lin _ => .dev lin prop
  | _, _ => t

/-- The pieces of a lane's access to n bytes at offset o: one per granule, with the tag bytes of its elements when the
access carries tags. -/
def piecesOf (h : Handle) (tagH : Option Handle) (hn lane : Nat) (wr : Bool) (o n : Nat) (data : List Byte)
    (k : WrTag) : List Piece :=
  if n = 0 then []
  else
    (List.range ((o + n - 1) / 16 - o / 16 + 1)).map fun i =>
      let g := o / 16 + i
      let lo := max o (16 * g)
      let hi := min (o + n) (16 * g + 16)
      let elems := match tagH with
        | none => []
        | some _ => (List.range ((hi - 1) / 4 - lo / 4 + 1)).map (fun j => lo / 4 + j)
      { lane := lane, wr := wr, cls := h.cls, space := attrSpace h.attr, pos := lo - o
        cells := (List.range (hi - lo)).map (fun j => h.phys (lo + j))
        data := if wr then (data.drop (lo - o)).take (hi - lo) else []
        tagCls := (tagH.map fun t => t.cls.through h.cls).getD .plain
        tagPos := lo / 4 - o / 4
        tagCells := elems.map (fun e => (tagH.map (fun t => t.phys e)).getD 0)
        taddr := mkAddr (attrTagh h.attr) (lo / 4)
        tags := if wr then elems.map (elemTag k o n) else []
        haddr := mkAddr hn lo }

/-! ## Reading (R258) -/

/-- The offset of a location: the single image, or a quarter's view or copy. -/
def locBase (prop q : Nat) : Nat := if prop = 0 then 0 else quarterBase q

/-- The number a location granule has applied. -/
def State.heldAt (s : State) (loc g : Nat) : Nat := Tab.at s.held 0 (loc / 16 + g)

/-- A write's number in the order of a granule, 0 when it does not touch it. -/
def GWrite.num (w : GWrite) (g : Nat) : Nat := Tab.at w.nums 0 g

/-- Whether a write stands in the path of a window above a location. -/
def GWrite.above (w : GWrite) (lin : Bool) (prop q : Nat) : Bool :=
  w.inPath && w.lin == lin && w.prop == prop && (prop == 0 || w.quarter == q)

/-- The writes in `ws` whose number on granule g lies above h and at or below k, in ascending number. -/
def between (ws : List GWrite) (g h k : Nat) : List GWrite :=
  (ws.filter (fun w => h < w.num g && w.num g ≤ k)).insertionSort (fun a b => a.num g ≤ b.num g)

/-- A byte under some writes, the last one that holds it winning. -/
def overlaid (ws : List GWrite) (b : Byte) (a : Nat) : Byte :=
  ws.foldl (fun b w => (Tab.find? w.cells a).getD b) b

/-- The byte at base address a, read in quarter q (R258). -/
def State.readCell (s : State) (pno q : Nat) (c : Cls) (a : Nat) : Byte :=
  match c with
  | .plain => Memory.get s.mem a
  | .tso _ => (s.hostQ.filter (fun h => h.pno == pno)).foldl (fun b h => (Tab.find? h.cells a).getD b) (Memory.get s.mem a)
  | .dev lin prop =>
    let loc := locBase prop q
    let path := s.log.filter (fun w => w.above lin prop q)
    if prop = 2 then overlaid path (Memory.get s.mem (loc + a)) a
    else
      let g := a / 16
      let h := s.heldAt loc g
      let top := path.foldl (fun k w => max k (w.num g)) h
      overlaid (between s.log g h top) (Memory.get s.mem (loc + a)) a

/-- The number of a granule that a reader in quarter q sees through a window (R258). -/
def State.topAt (s : State) (lin : Bool) (prop q g : Nat) : Nat :=
  (s.log.filter (fun w => w.above lin prop q)).foldl (fun k w => max k (w.num g)) (s.heldAt (locBase prop q) g)

/-- The byte beneath the window paths (R388, R520). -/
def State.cellBeneath (s : State) (q : Nat) (c : Cls) (a : Nat) : Byte :=
  match c with
  | .dev _ prop => Memory.get s.mem (locBase prop q + a)
  | _ => Memory.get s.mem a

/-- Bytes under a handle, read at once by an agent of quarter q. -/
def State.readBytes (s : State) (pno q : Nat) (h : Handle) (o n : Nat) : List Byte :=
  (List.range n).map fun i => s.readCell pno q h.cls (h.phys (o + i))

/-- Bytes beneath the paths. -/
def State.bytesBeneath (s : State) (q : Nat) (h : Handle) (o n : Nat) : List Byte :=
  (List.range n).map fun i => s.cellBeneath q h.cls (h.phys (o + i))

/-- Whether any of some addresses lies in a poisoned unit. -/
def State.poisoned (s : State) (cells : List Nat) : Bool :=
  !s.poison.isEmpty && cells.any fun a => (poisonUnit a).any fun g => (Tab.find? s.poison g).isSome

/-- Whether a read by an agent that has no pieces takes a poisoned byte: of a poisoned unit, or of a transfer that fails
(R480, R504). -/
def State.readsBad (s : State) (cells : List Nat) : Bool :=
  s.poisoned cells || cells.any fun a => s.lost.any fun b => poisonUnit a == poisonUnit b

/-- Such a read is over: the failures stood for it alone. -/
def State.heard (s : State) : State := { s with lost := [] }

/-- Marking the units of some addresses poisoned. -/
def State.poisonCells (s : State) (cells : List Nat) : State :=
  { s with poison := (cells.flatMap poisonUnit).foldl (fun p g => Tab.put p g ()) s.poison }

/-- Whether a write's addresses hold the whole poison unit of a piece (R486). -/
def coversUnit (all cells : List Nat) : Bool :=
  match cells with
  | [] => false
  | a :: _ => (List.range (poisonSize a)).all fun i => all.contains (a / poisonSize a * poisonSize a + i)

/-- A piece of a write that covers its poison unit whole clears its granule's mark. -/
def State.clearPoison (s : State) (cells : List Nat) : State :=
  { s with poison := cells.foldl (fun p a => Tab.del p (a / 16)) s.poison }

/-! ## Applying a write to a location (R261) -/

/-- Setting a location granule to the state that write k fixes: the writes above what it holds, in order. -/
def State.applyGranule (s : State) (loc g k : Nat) : State :=
  let h := s.heldAt loc g
  if k ≤ h then s
  else
    let ws := between s.log g h k
    let mem := ws.foldl (fun m w => (w.cells.filter (fun c => c.1 / 16 == g)).foldl
      (fun m c => Memory.set m (loc + c.1) c.2) m) s.mem
    { s with mem := mem, held := Tab.put s.held (loc / 16 + g) k }

/-- The number that a location holds of a granule, or is about to hold. -/
def State.topIn (s : State) (loc : Nat) (t : Tab Nat) (g : Nat) : Nat := (Tab.find? t g).getD (s.heldAt loc g)

/-- A write of which one granule is taken in is taken in whole. -/
def State.joinWrite (s : State) (loc prop : Nat) (t : Tab Nat) (w : GWrite) : Tab Nat :=
  if w.prop == prop && w.nums.any (fun gk => decide (gk.2 ≤ s.topIn loc t gk.1)) then
    w.nums.foldl (fun t gk => if s.topIn loc t gk.1 < gk.2 then Tab.put t gk.1 gk.2 else t) t
  else t

/-- Granule numbers with the writes of several granules, values with their tags, taken in whole or not at all: no observer
sees the value of one write with the tag of another (R230, R265), and a tag granule's state holds the tags of every
earlier write on it (R257). -/
def State.closeTops (s : State) (loc prop : Nat) (t : Tab Nat) : Tab Nat :=
  s.log.foldl (fun t _ => s.log.foldl (s.joinWrite loc prop) t) t

/-- Applying a write to an image or a quarter view. -/
def State.applyTo (s : State) (loc : Nat) (w : GWrite) : State :=
  (s.closeTops loc w.prop w.nums).foldl (fun s gk => s.applyGranule loc gk.1 gk.2) s

/-- Laying a write's bytes over a quarter copy. -/
def State.layOver (s : State) (q : Nat) (w : GWrite) : State :=
  { s with mem := w.cells.foldl (fun m c => Memory.set m (quarterBase q + c.1) c.2) s.mem }

/-- Whether a quarter has received a write: its view has applied its numbers, or its copy has taken its bytes. -/
def State.received (s : State) (w : GWrite) (q : Nat) : Bool :=
  if w.prop = 1 then w.nums.all (fun gk => gk.2 ≤ s.heldAt (quarterBase q) gk.1) else w.got.getLsbD q

/-- Whether nothing remains to be done with a write. -/
def State.settled (s : State) (w : GWrite) : Bool :=
  !w.inPath && (w.prop == 0 || (List.range 4).all (s.received w))

/-- Dropping the writes that every image, view and copy has received, from the log and from the buffers (R268). -/
def State.settle (s : State) : State :=
  let log := s.log.filter (fun w => !s.settled w)
  let live := log.map (·.id)
  { s with log := log
           bufs := s.bufs.map (fun b => { b with writes := b.writes.filter (fun x => live.contains x.2) }) }

/-- Replacing a write in the log. -/
def State.setWrite (s : State) (w : GWrite) : State :=
  { s with log := s.log.map (fun x => if x.id = w.id then w else x) }

/-! ## Performing a write piece (R260) -/

/-- Who writes: gang key, stream, launch, engine operation, partition, and the object the bytes are bound to. -/
structure Writer where
  gang : Nat
  stream : Nat
  launch : Nat
  op : Option (Nat × Nat × Nat)
  pno : Nat
  obj : Obj
  deriving DecidableEq, Repr

/-- Adding a write of some cells to device memory to the log, with the next number of each granule. -/
def State.logWrite (s : State) (who : Writer) (q : Nat) (lin : Bool) (prop : Nat) (cells : List (Nat × Byte))
    (inPath : Bool) : State × GWrite :=
  let cs := cells.foldl (fun t c => Tab.put t c.1 c.2) ([] : Tab Byte)
  let gs := cells.foldl (fun t c => Tab.put t (c.1 / 16) ()) ([] : Tab Unit)
  let nums : Tab Nat := gs.map (fun g => (g.1, Tab.at s.top 0 g.1 + 1))
  let w : GWrite :=
    { id := s.nextId, nums := nums, cells := cs, lin := lin, prop := prop, quarter := q, inPath := inPath, got := 0#4
      gang := who.gang, stream := who.stream, launch := who.launch, op := who.op, obj := who.obj, pno := who.pno
      born := s.tick }
  let s := { s with nextId := s.nextId + 1, top := nums.foldl (fun t g => Tab.put t g.1 g.2) s.top, log := s.log ++ [w] }
  -- a REPLICATED extent's order of writes is kept in its image, for atomics (R266)
  let s := if prop = 2 then { s with mem := Memory.sets s.mem cs } else s
  (s, w)

/-- Writing cells of one class. -/
def State.writeCells (s : State) (who : Writer) (q : Nat) (c : Cls) (cells : List (Nat × Byte)) : State :=
  if cells.isEmpty then s
  else
    match c with
    | .plain => { s with mem := Memory.sets s.mem cells }
    | .tso link =>
      { s with hostQ := s.hostQ ++ [⟨cells.foldl (fun t c => Tab.put t c.1 c.2) [], who.gang, link, who.pno, s.tick⟩] }
    | .dev lin prop => (s.logWrite who q lin prop cells true).1

/-! ## Drain, propagate, replicate (R261-R263) -/

/-- Whether a write is the oldest of each of its granules in its window path. -/
def State.oldest (s : State) (w : GWrite) : Bool :=
  s.log.all fun x =>
    !(x.above w.lin w.prop w.quarter && x.id < w.id && x.nums.any (fun gk => w.nums.any (fun hk => hk.1 == gk.1)))

/-- A write leaves its window path for the location beneath. -/
def State.drainWrite (s : State) (w : GWrite) : State :=
  let w' := { w with inPath := false, got := if w.prop = 2 then w.got ||| BitVec.ofNat 4 (2 ^ w.quarter) else w.got }
  let s := s.setWrite w'
  let s := if w.prop = 2 then s.layOver w.quarter w else s.applyTo (locBase w.prop w.quarter) w
  s.settle

/-- A drained write reaches another quarter's view. -/
def State.propagateWrite (s : State) (w : GWrite) (q : Nat) : State := (s.applyTo (quarterBase q) w).settle

/-- A drained write is laid over another quarter's copy. -/
def State.replicateWrite (s : State) (w : GWrite) (q : Nat) : State :=
  ((s.layOver q w).setWrite { w with got := w.got ||| BitVec.ofNat 4 (2 ^ q) }).settle

/-- The writes of a window path up to one of them leave it, oldest first. -/
def State.drainUpTo (s : State) (w : GWrite) : State :=
  ((s.log.filter (fun x => x.above w.lin w.prop w.quarter && decide (x.id ≤ w.id))).map (fun (x : GWrite) => x.id)).foldl
    (fun s i => match s.log.find? (fun x => x.id == i) with
      | some x => s.drainWrite x
      | none => s) s

/-- One write reaches every image, view and copy (R271). -/
def State.everywhere (s : State) (id : Nat) : State :=
  match s.log.find? (fun w => w.id == id) with
  | none => s
  | some w =>
    let s := if w.inPath then s.drainUpTo w else s
    (List.range 4).foldl (fun s q =>
      match s.log.find? (fun w => w.id == id) with
      | none => s
      | some w => if s.received w q then s else if w.prop = 1 then s.propagateWrite w q else s.replicateWrite w q) s

/-- An atomic that stands between its read and its write comes after what a store of this device puts into its bytes (R247). -/
def AtomReq.behind (r : AtomReq) (cells : Tab Byte) : AtomReq :=
  { r with old := r.old.map fun bs => (List.zip r.piece.cells bs).map fun ab => (Tab.find? cells ab.1).getD ab.2 }

/-- The oldest host store of a partition reaches host memory (R276). -/
def State.drainHost (s : State) (pno : Nat) : State :=
  match s.hostQ.find? (fun h => h.pno == pno) with
  | none => s
  | some h =>
    { s with mem := Memory.sets s.mem h.cells
             atoms := s.atoms.map (·.behind h.cells)
             hostQ := s.hostQ.erase h }

/-- The host store queue of a partition, emptied. -/
def State.drainHostAll (s : State) (pno : Nat) : State :=
  (List.range s.hostQ.length).foldl (fun s _ => s.drainHost pno) s

/-- What an agent has just written reaches every location at once: the writes since an identity, and a partition's host
store queue. -/
def State.settleFrom (s : State) (first pno : Nat) : State :=
  (((s.log.filter (fun w => first ≤ w.id)).map (fun (w : GWrite) => w.id)).foldl State.everywhere s).drainHostAll pno

/-! ## Pieces (R230, R260, R265) -/

/-- A write that covers a poison unit whole clears the marks of a piece's granules (R486); `all` is every address that
the write covers. -/
def State.clearWhole (s : State) (all cells : List Nat) : State :=
  if !s.poison.isEmpty && coversUnit all cells then s.clearPoison cells else s

/-- A write piece performs: its bytes with their tags in one step. Where a tag plane is of another class than its extent,
value and tag could become visible at different times; since no observer sees one without the other (R230), such a write
reaches every image, view and copy in the step that performs it. -/
def State.writePiece (s : State) (who : Writer) (q : Nat) (p : Piece) (all : List Nat) : State :=
  let cells := List.zip p.cells p.data
  let tags := List.zip p.tagCells p.tags
  let s := (s.clearWhole all p.cells).clearWhole all p.tagCells
  if tags.isEmpty || p.cls == p.tagCls then s.writeCells who q p.cls (cells ++ tags)
  else ((s.writeCells who q p.cls cells).writeCells who q p.tagCls tags).settleFrom s.nextId who.pno

/-- Bytes and tags of one class, read in one step: the granules up to numbers that hold every write of several granules
whole (R230, R258). -/
def State.readTagged (s : State) (q : Nat) (lin : Bool) (prop : Nat) (cells tagCells : List Nat) :
    List Byte × List Byte :=
  let loc := locBase prop q
  let tops := s.closeTops loc prop
    ((cells ++ tagCells).foldl (fun t a => Tab.put t (a / 16) (s.topAt lin prop q (a / 16))) [])
  let get := fun a => overlaid (between s.log (a / 16) (s.heldAt loc (a / 16)) (s.topIn loc tops (a / 16)))
    (Memory.get s.mem (loc + a)) a
  (cells.map get, tagCells.map get)

/-- A read piece performs: its bytes and tags. -/
def State.readPiece (s : State) (pno q : Nat) (p : Piece) : List Byte × List Byte :=
  match p.cls with
  | .dev lin prop =>
    if prop != 2 && !p.tagCells.isEmpty && p.tagCls == p.cls then s.readTagged q lin prop p.cells p.tagCells
    else (p.cells.map (s.readCell pno q p.cls), p.tagCells.map (s.readCell pno q p.tagCls))
  | _ => (p.cells.map (s.readCell pno q p.cls), p.tagCells.map (s.readCell pno q p.tagCls))

end Sys2Proof.Machine
end

