-- ==== Sys2Proof/Machine/Alu.lean ====
section
/-! DEFINITION. What each integer, packed and bit-level instruction computes in one lane (R112-R132, R156-R162). An
operand is a pair of images; a 32-bit operand uses the first alone. -/

namespace Sys2Proof.Machine

/-! ## Typed integers (R112) -/

/-- Whether a type reads as two's complement. -/
def tySigned : IntTy → Bool
  | .s32 | .s64 | .s16 | .s8 => true
  | _ => false

/-- Whether a type uses register pairs (R36). -/
def tyWide (t : IntTy) : Bool := t.width == 64

/-- A natural number read as two's complement of width `w`. -/
def toSigned (w n : Nat) : Int := if 2 ^ (w - 1) ≤ n % 2 ^ w then (n % 2 ^ w : Int) - 2 ^ w else n % 2 ^ w

/-- The low `w` bits of an operand. -/
def rawVal (w : Nat) (p : Pair) : Nat := (if w = 64 then p.val.toNat else p.1.val.toNat) % 2 ^ w

/-- Int(X, L) (R112). -/
def intVal (t : IntTy) (p : Pair) : Int :=
  if tySigned t then toSigned t.width (rawVal t.width p) else rawVal t.width p

/-- An integer reduced mod 2^64 as a word. -/
def word64 (x : Int) : Word64 := BitVec.ofInt 64 x

/-- Wr of a 32-bit value (R112). -/
def wr32 (x : Int) : Pair := (intImg (BitVec.ofInt 32 x), zeroImg)
/-- Wr of a 64-bit value (R112). -/
def wr64 (x : Int) : Pair := intPair (word64 x)

/-- x mod 2^w, extended by Ext, written with the integer tag (R112). -/
def wrTy (t : IntTy) (x : Int) : Pair :=
  if tyWide t then wr64 x
  else
    let n := (x % 2 ^ t.width).toNat
    wr32 (if tySigned t then toSigned t.width n else n)

/-- Min(type) and Max(type). -/
def tyMin (t : IntTy) : Int := intMin (tySigned t) t.width
def tyMax (t : IntTy) : Int := intMax (tySigned t) t.width

/-- The signed value of an immediate (R94). -/
def immVal : Imm → Int
  | .short v => v.toInt
  | .lit v => v.toInt

/-- An immediate as an operand of a type: its low bits, read as the type (R121, R131). -/
def immPair (i : Imm) : Pair := intPair (word64 (immVal i))

/-! ## Add, multiply, divide -/

/-- ADD, SUB and ADDI in one lane (R121). -/
def addLane (t : IntTy) (am : AddMod) (sub : Bool) (a b : Pair) : Pair :=
  let x := if sub then intVal t a - intVal t b else intVal t a + intVal t b
  match am with
  | .wide => wr64 x
  | .sat => wrTy t (clampInt (tyMin t) (tyMax t) x)
  | .wrap => wrTy t x

/-- MUL in one lane (R122). -/
def mulLane (t : IntTy) (a b : Pair) : Pair := wrTy t (intVal t a * intVal t b)
/-- MULH in one lane (R122): bits [2w−1:w] of the exact product. -/
def mulhLane (t : IntTy) (a b : Pair) : Pair := wrTy t (intVal t a * intVal t b / 2 ^ t.width)
/-- MAD in one lane (R122). -/
def madLane (t : IntTy) (a b c : Pair) : Pair := wrTy t (intVal t a * intVal t b + intVal t c)

/-- Whether a division takes one of the flagged cases (R123). -/
def divFlag (t : IntTy) (a b : Pair) : Bool :=
  intVal t b == 0 || (tySigned t && intVal t a == tyMin t && intVal t b == -1)

/-- IDIV in one lane (R123). -/
def idivLane (t : IntTy) (a b : Pair) : Pair :=
  let x := intVal t a
  let y := intVal t b
  if y = 0 then wrTy t (if tySigned t then (if 0 ≤ x then tyMax t else tyMin t) else tyMax t)
  else if tySigned t && x == tyMin t && y == -1 then wrTy t (tyMin t)
  else wrTy t (Int.tdiv x y)

/-- IREM in one lane (R123). -/
def iremLane (t : IntTy) (a b : Pair) : Pair :=
  let x := intVal t a
  let y := intVal t b
  if y = 0 then wrTy t x
  else if tySigned t && x == tyMin t && y == -1 then wrTy t 0
  else wrTy t (Int.tmod x y)

/-! ## Logic and shifts -/

/-- A bitwise function of two operands (R124). -/
def bitsLane (f : Word64 → Word64 → Word64) (t : IntTy) (a b : Pair) : Pair :=
  wrTy t (f (BitVec.ofNat 64 (rawVal t.width a)) (BitVec.ofNat 64 (rawVal t.width b))).toNat

/-- The function of a LOGI kind (R125). -/
def logiFn : LogiKind → Word64 → Word64 → Word64
  | .land, x, y => x &&& y
  | .lor, x, y => x ||| y
  | .lxor, x, y => x ^^^ y
  | .landn, x, y => x &&& ~~~y

/-- The kinds of shift (R126). -/
inductive ShiftFn where
  | shl | shr | sar | rot
  deriving DecidableEq, Repr

/-- A shift by a count of any size (R126). -/
def shiftLane (f : ShiftFn) (t : IntTy) (a : Pair) (c : Nat) : Pair :=
  let w := t.width
  let x := rawVal w a
  match f with
  | .shl => wrTy t (if c < w then x * 2 ^ c else 0 : Nat)
  | .shr => wrTy t (if c < w then x / 2 ^ c else 0 : Nat)
  | .sar => wrTy t (toSigned w x / 2 ^ (min c w))
  | .rot =>
    let k := c % w
    wrTy t (x / 2 ^ k + x * 2 ^ (w - k) % 2 ^ w : Nat)

/-- The count of a shift: bits [7:0] of the value field (R126). -/
def shiftCount (b : Pair) : Nat := b.1.val.toNat % 256

/-- The shift of an SHI kind (R127). -/
def shiFn : ShiKind → ShiftFn
  | .l => .shl
  | .r => .shr
  | .a => .sar
  | .rot => .rot

/-- The number of leading zero bits of a w-bit value (R128). -/
def clzNat (w x : Nat) : Nat := if x = 0 then w else w - 1 - x.log2

/-- The number of one bits among the low `w` bits. -/
def popNat (w x : Nat) : Nat := ((List.range w).filter (fun i => x.testBit i)).length

/-- Bit i moved to bit w−1−i (R128). -/
def brevNat (w x : Nat) : Nat := (List.range w).foldl (fun r i => if x.testBit i then r + 2 ^ (w - 1 - i) else r) 0

def clzLane (t : IntTy) (a : Pair) : Pair := wrTy t (clzNat t.width (rawVal t.width a))
def popcLane (t : IntTy) (a : Pair) : Pair := wrTy t (popNat t.width (rawVal t.width a))
def brevLane (t : IntTy) (a : Pair) : Pair := wrTy t (brevNat t.width (rawVal t.width a))

/-! ## Minimum, maximum, compare, bit fields -/

/-- MIN and MAX in one lane (R129). -/
def minLane (t : IntTy) (a b : Pair) : Pair := wrTy t (min (intVal t a) (intVal t b))
def maxLane (t : IntTy) (a b : Pair) : Pair := wrTy t (max (intVal t a) (intVal t b))

/-- ABS in one lane (R129): Min(type) gives Min(type), or Max(type) under SAT. -/
def absLane (t : IntTy) (sat : Bool) (a : Pair) : Pair :=
  let x := intVal t a
  wrTy t (if x == tyMin t then (if sat then tyMax t else tyMin t) else x.natAbs)

/-- The condition of CMP and CMPI (R131). -/
def condHolds (c : Cond) (x y : Int) : Bool :=
  match c with
  | .eq => x == y
  | .ne => x != y
  | .lt => decide (x < y)
  | .le => decide (x ≤ y)
  | .gt => decide (y < x)
  | .ge => decide (y ≤ x)

/-- CMP in one lane (R131). -/
def cmpLane (c : Cond) (t : IntTy) (a b : Pair) : Bool := condHolds c (intVal t a) (intVal t b)

/-- pos and len of a position register (R132). -/
def fieldPos (p : Pair) : Nat := p.1.val.toNat % 256
def fieldLen (p : Pair) : Nat := p.1.val.toNat / 256 % 256

/-- BFE in one lane (R132). -/
def bfeLane (t : IntTy) (a p : Pair) : Pair :=
  let w := t.width
  if fieldLen p = 0 || w ≤ fieldPos p then wrTy t 0
  else
    let len := min (fieldLen p) (w - fieldPos p)
    let f := rawVal w a / 2 ^ fieldPos p % 2 ^ len
    wrTy t (if tySigned t then toSigned len f else f)

/-- BFI in one lane (R132). -/
def bfiLane (t : IntTy) (a b p : Pair) : Pair :=
  let w := t.width
  let x := rawVal w a
  if fieldLen p = 0 || w ≤ fieldPos p then wrTy t x
  else
    let pos := fieldPos p
    let len := min (fieldLen p) (w - pos)
    wrTy t (x / 2 ^ (pos + len) * 2 ^ (pos + len) + rawVal w b % 2 ^ len * 2 ^ pos + x % 2 ^ pos : Nat)

/-! ## Packed elements (R156-R160) -/

/-- Whether a packed element type is signed. -/
def packSigned : PackTy → Bool
  | .s16 | .s8 | .s4 => true
  | _ => false

/-- A field of `e` bits of a word replaced. -/
def setField (base e k f : Nat) : Nat :=
  base / 2 ^ (e * k + e) * 2 ^ (e * k + e) + f % 2 ^ e * 2 ^ (e * k) + base % 2 ^ (e * k)

/-- PACK in one lane (R159): elements 2j and 2j+1 of the base from A and B. -/
def packLane (t : PackTy) (sat : Bool) (j : Nat) (a b c : Pair) : Pair :=
  let e := t.width
  let el (p : Pair) : Nat :=
    let v : Int := if packSigned t then p.1.val.toInt else p.1.val.toNat
    ((if sat then clampInt (intMin (packSigned t) e) (intMax (packSigned t) e) v else v) % 2 ^ e).toNat
  let base := if e = 16 then 0 else c.1.val.toNat
  wr32 (setField (setField base e (2 * j) (el a)) e (2 * j + 1) (el b) : Nat)

/-- UNPACK in one lane (R160). -/
def unpackLane (t : PackTy) (n : Nat) (a : Pair) : Pair :=
  let e := t.width
  let f := a.1.val.toNat / 2 ^ (e * n) % 2 ^ e
  wr32 (if packSigned t then toSigned e f else f)

/-- The integer forms of DOT4 and DOT8 in one lane (R157): `n` elements of `e` bits. -/
def dotIntLane (signed sat : Bool) (e n : Nat) (a b c : Pair) : Pair :=
  let el (p : Pair) (i : Nat) : Int :=
    let f := p.1.val.toNat / 2 ^ (e * i) % 2 ^ e
    if signed then toSigned e f else f
  let c0 : Int := if signed then c.1.val.toInt else c.1.val.toNat
  let x := (List.range n).foldl (fun s i => s + el a i * el b i) c0
  wr32 (if sat then clampInt (intMin signed 32) (intMax signed 32) x else x)

/-- The floating-point forms of DOT4 and DOT8 in one lane (R158): every product is an exact operand, all terms are
summed at once and rounded once. -/
def dotFpLane (f : FpCls) (e n : Nat) (a b c : Pair) : Pair :=
  let el (p : Pair) (i : Nat) : Fp := decodeFp f (p.1.val.toNat / 2 ^ (e * i) % 2 ^ (fmtOf f).bits)
  let prods : List Opr := (List.range n).map fun i => ⟨Fp.mul (el a i) (el b i), false, precP .f32⟩
  let x := oprOf .f32 c
  addClass .f32 (x :: prods) (infsOf (x :: prods)) (Fp.sum (x.v :: prods.map Opr.v))

/-- What a DOT form multiplies: integer elements or a format, with the element width. -/
inductive DotElem where
  | int (signed : Bool)
  | fp (c : FpCls)
  deriving DecidableEq, Repr

/-- The element of a DOT4 type; a slot's AFMT when the type is `.SLOT` (R156, R452). -/
def dot4Elem (t : Dot4Ty) (afmt : Nat) : Option DotElem :=
  match t with
  | .s8 => some (.int true)
  | .z8 => some (.int false)
  | .e4m3 => some (.fp .e4m3)
  | .e5m2 => some (.fp .e5m2)
  | .e3m2 => some (.fp .e3m2)
  | .e2m3 => some (.fp .e2m3)
  | .slot =>
    match afmt with
    | 4 => some (.fp .e4m3)
    | 5 => some (.fp .e5m2)
    | 6 => some (.fp .e3m2)
    | 7 => some (.fp .e2m3)
    | 9 => some (.int true)
    | 10 => some (.int false)
    | _ => none

/-- The element of a DOT8 type (R156, R452). -/
def dot8Elem (t : Dot8Ty) (afmt : Nat) : Option DotElem :=
  match t with
  | .s4 => some (.int true)
  | .z4 => some (.int false)
  | .e2m1 => some (.fp .e2m1)
  | .slot =>
    match afmt with
    | 8 => some (.fp .e2m1)
    | 11 => some (.int true)
    | 12 => some (.int false)
    | _ => none

/-- DOT4 (e 8, n 4) or DOT8 (e 4, n 8) in one lane. -/
def dotLane (el : DotElem) (sat : Bool) (e n : Nat) (a b c : Pair) : Pair :=
  match el with
  | .int sg => dotIntLane sg sat e n a b c
  | .fp f => dotFpLane f e n a b c

/-- The DETAIL of a DOT form (R458): the addends are C and the exact products. -/
def dotDetail (el : DotElem) (e n : Nat) (a b c : Pair) : Nat :=
  match el with
  | .int _ => 0
  | .fp f =>
    let x := oprOf .f32 c
    let y := dotFpLane f e n a b c
    let inf (p : Pair) := (List.range n).any fun i => (decodeFp f (p.1.val.toNat / 2 ^ (e * i) % 2 ^ (fmtOf f).bits)).isInf
    kDetail .f32 y (x.v.isInf || inf a || inf b) x.dead

/-- The carry-less product (R161). -/
def clmulNat (w a b : Nat) : Nat :=
  (List.range w).foldl (fun r i => if b.testBit i then r ^^^ (a * 2 ^ i) else r) 0

/-- CLMUL in one lane (R161). -/
def clmulLane (wd : Wd) (hi : Bool) (a b : Pair) : Pair :=
  match wd with
  | .w32 => wr64 (clmulNat 32 a.1.val.toNat b.1.val.toNat)
  | .w64 =>
    let p := clmulNat 64 a.val.toNat b.val.toNat
    wr64 (if hi then p / 2 ^ 64 else p % 2 ^ 64 : Nat)

/-- BYTEPERM in one lane (R162). -/
def bytepermLane (a b c : Pair) : Pair :=
  let y : Word64 := b.1.val ++ a.1.val
  let byte (i : Nat) : Nat :=
    let q := c.1.val.toNat / 2 ^ (8 * i) % 256
    let v := if q.testBit 3 then 0 else y.toNat / 2 ^ (8 * (q % 8)) % 256
    if q.testBit 4 then 255 - v else v
  wr32 (byte 0 + 2 ^ 8 * byte 1 + 2 ^ 16 * byte 2 + 2 ^ 24 * byte 3 : Nat)

/-! ## Reductions (R152, R153) -/

/-- The width of a REDUCE operation. -/
def redWide : RedOp → Bool
  | .addW64 | .minS64 | .minZ64 | .maxS64 | .maxZ64 | .andW64 | .orW64 | .xorW64 => true
  | _ => false

/-- The identity of a REDUCE operation, as the value bits (R152). -/
def redIdentity : RedOp → Nat
  | .addW32 | .addW64 | .maxZ32 | .maxZ64 | .orW32 | .orW64 | .xorW32 | .xorW64 => 0
  | .minS32 => 0x7FFFFFFF
  | .minS64 => 0x7FFFFFFFFFFFFFFF
  | .minZ32 | .andW32 => 0xFFFFFFFF
  | .minZ64 | .andW64 => 0xFFFFFFFFFFFFFFFF
  | .maxS32 => 0x80000000
  | .maxS64 => 0x8000000000000000

/-- A REDUCE operation on value bits (R152). -/
def redApply (op : RedOp) (x y : Nat) : Nat :=
  match op with
  | .addW32 => (x + y) % 2 ^ 32
  | .addW64 => (x + y) % 2 ^ 64
  | .minS32 => if toSigned 32 x ≤ toSigned 32 y then x else y
  | .minS64 => if toSigned 64 x ≤ toSigned 64 y then x else y
  | .maxS32 => if toSigned 32 x ≤ toSigned 32 y then y else x
  | .maxS64 => if toSigned 64 x ≤ toSigned 64 y then y else x
  | .minZ32 | .minZ64 => min x y
  | .maxZ32 | .maxZ64 => max x y
  | .andW32 | .andW64 => x &&& y
  | .orW32 | .orW64 => x ||| y
  | .xorW32 | .xorW64 => x ^^^ y

/-- One level of the pairwise tree (R152, R186). -/
def pairUp {α : Type} (f : α → α → α) : List α → List α
  | x :: y :: rest => f x y :: pairUp f rest
  | xs => xs

/-- The five levels of the tree over 32 values. -/
def tree32 {α : Type} (f : α → α → α) (xs : List α) : Option α :=
  (pairUp f (pairUp f (pairUp f (pairUp f (pairUp f xs))))).head?

/-- REDUCE over the active lanes (R152). -/
def reduceVal (op : RedOp) (v : Lanes Pair) (act : Mask) : Nat :=
  let w := if redWide op then 64 else 32
  let xs := lanes32.map fun l => if inMask act l then rawVal w (v.at zeroPair l) else redIdentity op
  (tree32 (redApply op) xs).getD (redIdentity op)

/-- The inclusive prefixes of SCAN in ascending lane order (R153); the value of an inactive lane is not written. -/
def scanVals (op : RedOp) (v : Lanes Pair) (act : Mask) : List Nat → Nat → List Nat
  | [], _ => []
  | l :: ls, a =>
    let a' := if inMask act l then redApply op a (rawVal (if redWide op then 64 else 32) (v.at zeroPair l)) else a
    a' :: scanVals op v act ls a'

/-- A value written as 32 or 64 bits. -/
def wrWide (wide : Bool) (x : Nat) : Pair := if wide then wr64 x else wr32 x

end Sys2Proof.Machine
end

