-- ==== Sys2Proof/Machine/Approx.lean ====
section
/-! DEFINITION. The approximations FRCP, FRSQ, FEXP2, FLOG2, FSIN and FCOS (R204-R207): a reference value far more exact
than the stated bound, moved within that bound by a free value, and then rounded to odd; the exact and special cases as
R206 lists them. -/

namespace Sys2Proof.Machine

/-- The six functions (R204). -/
inductive ApproxFn where
  | rcp | rsq | exp2 | log2 | sin | cos
  deriving DecidableEq, Repr

/-- The opcode of each function. -/
def ApproxFn.opc : ApproxFn → BitVec 8
  | .rcp => 0x68#8
  | .rsq => 0x69#8
  | .exp2 => 0x6A#8
  | .log2 => 0x6B#8
  | .sin => 0x6C#8
  | .cos => 0x6D#8

/-- ACC, the stated accuracy (R205). -/
def acc (f : ApproxFn) (c : FpCls) : Nat :=
  match c, f with
  | .f64, .rcp => 52
  | .f64, _ => 51
  | .f16, _ => 11
  | .bf16, _ => 8
  | _, .rcp => 24
  | _, .rsq => 23
  | _, .exp2 => 22
  | _, .log2 => 22
  | _, _ => 21

/-- The working precision of the reference, in bits. -/
def wp : Nat := 160

/-- π and ln 2 in units of 2^-160, truncated. -/
def piFix : Nat := 0x3243F6A8885A308D313198A2E03707344A4093822
def ln2Fix : Nat := 0xB17217F7D1CF79ABC9E3B39803F2F6AF40F34326

/-- The whole square root, bit by bit from bit `n`. -/
def isqrt (x : Nat) : Nat → Nat → Nat
  | 0, r => if (r + 1) * (r + 1) ≤ x then r + 1 else r
  | n + 1, r => isqrt x n (if (r + 2 ^ (n + 1)) * (r + 2 ^ (n + 1)) ≤ x then r + 2 ^ (n + 1) else r)

/-- The sum of t, t·z/(k(k+1)), … with alternating signs when `alt`; `k` steps by `st`. -/
def series (z : Nat) (alt : Bool) (st : Nat) : Nat → Nat → Nat → Int
  | 0, _, t => t
  | n + 1, k, t =>
    let d := if st = 2 then k * (k + 1) else k
    let rest := series z alt st n (k + st) (t * z / 2 ^ wp / d)
    if alt then t - rest else t + rest

/-- sin(π·num/2^F) for 0 < num/2^F < 1/2, as a magnitude and an exponent: t·π times the sinc series. -/
def sinHalf (num F : Nat) : Nat × Int :=
  let x := piFix * num / 2 ^ F
  let s := series (x * x / 2 ^ wp) true 2 30 2 (2 ^ wp)
  (num * piFix * s.toNat, -(F : Int) - wp - wp)

/-- log2 of M in [1, 2), in units of 2^-wp, by repeated squaring. -/
def log2Bits : Nat → Nat → Nat → Nat
  | 0, _, a => a
  | n + 1, m, a =>
    let q := m * m / 2 ^ wp
    if 2 ^ (wp + 1) ≤ q then log2Bits n (q / 2) (2 * a + 1) else log2Bits n q (2 * a)

/-- A reference value moved by at most the bound 2^b, exclusive (R204). DESIGN CHOICE (log 9): the reference is cut to
the grid 2^(b − 64) and the free value picks a point of that grid less than 2^64 − 1 steps away, so that every image
within the bound can come out, those on the grid of the class among them. -/
def perturb (neg : Bool) (m : Nat) (e b : Int) (noise : Int) : Fp :=
  let v : Int := shiftMag m (e - (b - 64))
  let t := (if neg then -v else v) + clampInt (-(2 ^ 64 - 2)) (2 ^ 64 - 2) noise
  .fin (decide (t < 0)) t.natAbs (b - 64)

/-- Whether a magnitude is a power of two. -/
def isPow2 (m : Nat) : Bool := m != 0 && m == 2 ^ m.log2

/-- Whether 2^k is an image of class c (R172). -/
def pow2Image (c : FpCls) (k : Int) : Bool :=
  decide (k ≤ (fmtOf c).emax) && decide ((fmtOf c).emin - precP c + 1 ≤ k)

/-- What an approximation gives: an exact or special value, or the approximated value. -/
inductive ApproxOut where
  | exact (v : Fp)
  | special (v : Fp)
  | near (v : Fp)
  deriving DecidableEq, Repr

/-- The function of a finite nonzero or special input (R204, R206). DESIGN CHOICE (log 101): the exact zero that FLOG2
gives for 1 is +0. -/
def approxOf (f : ApproxFn) (c : FpCls) (noise : Int) (v : Fp) : ApproxOut :=
  let near (n : Bool) (m : Nat) (e : Int) : ApproxOut := .near (perturb n m e (leadExp m e - acc f c + 1) noise)
  -- a sine that is no exact case lies below 1, also where its reference rounds up to 1
  let wave (n : Bool) (m : Nat) (e : Int) : ApproxOut := .near (perturb n m e (min (leadExp m e) (-1) - acc f c + 1) noise)
  match f, v with
  | _, .nan => .special .nan
  | .rcp, .inf n => .special (.fin n 0 0)
  | .rcp, .fin n 0 _ => .special (.inf n)
  | .rcp, .fin n m e =>
    if isPow2 m && pow2Image c (-(leadExp m e)) then .exact (.fin n 1 (-(leadExp m e)))
    else near n (2 ^ (m.log2 + wp) / m) (-e - (m.log2 + wp : Nat))
  | .rsq, .inf n => if n then .special .nan else .special (.fin false 0 0)
  | .rsq, .fin n 0 _ => .special (.inf n)
  | .rsq, .fin true (_ + 1) _ => .special .nan
  | .rsq, .fin false m e =>
    let x := leadExp m e
    if isPow2 m && x % 2 == 0 && pow2Image c (-(x / 2)) then .exact (.fin false 1 (-(x / 2)))
    else
      let m' := if e % 2 == 0 then m else 2 * m
      let e' := if e % 2 == 0 then e else e - 1
      let k := m'.log2 + wp
      near false (isqrt (2 ^ (2 * k) / m') (k + 1) 0) (-(e' / 2) - k)
  | .exp2, .inf n => if n then .special (.fin false 0 0) else .special (.inf false)
  | .exp2, .fin _ 0 _ => .exact (.fin false 1 0)
  | .exp2, .fin n m e =>
    let lost := shiftLoses m e
    let fl : Int := if n then -((shiftMag m e : Int) + (if lost then 1 else 0)) else shiftMag m e
    if !lost && pow2Image c fl then .exact (.fin false 1 fl)
    else if (fmtOf c).emax + 1 ≤ fl then .near (.fin false 1 fl)
    else
      let fr := shiftMag m (e + wp) % 2 ^ wp
      let fr := if n then (2 ^ wp - fr) % 2 ^ wp else fr
      let x := fr * ln2Fix / 2 ^ wp
      near false (series x false 1 45 1 (2 ^ wp)).toNat (fl - wp)
  | .log2, .inf n => if n then .special .nan else .special (.inf false)
  | .log2, .fin _ 0 _ => .special (.inf true)
  | .log2, .fin true (_ + 1) _ => .special .nan
  | .log2, .fin false m e =>
    let x := leadExp m e
    if isPow2 m then .exact (if x = 0 then .fin false 0 0 else .fin (decide (x < 0)) x.natAbs 0)
    else
      let y : Int := x * 2 ^ wp + (log2Bits wp (shiftMag m (wp - m.log2)) 0 : Nat)
      let b : Int := if x = 0 || x = -1 then -(acc f c : Int) else leadExp y.natAbs (-(wp : Int)) - acc f c + 1
      .near (perturb (decide (y < 0)) y.natAbs (-(wp : Int)) b noise)
  | .sin, .inf _ => .special .nan
  | .sin, .fin n 0 _ => .exact (.fin n 0 0)
  | .sin, .fin n m e =>
    let F := (-e).toNat
    let t := (if 0 ≤ e then m * 2 ^ (min e 2).toNat else m) % 2 ^ (F + 1)
    let flip := decide (2 ^ F ≤ t)
    let t := t % 2 ^ F
    if t = 0 then .exact (.fin false 0 0)
    else if 2 * t = 2 ^ F then .exact (.fin (n != flip) 1 0)
    else
      let t := if 2 ^ F < 2 * t then 2 ^ F - t else t
      let (m, e) := sinHalf t F
      wave (n != flip) m e
  | .cos, .inf _ => .special .nan
  | .cos, .fin _ 0 _ => .exact (.fin false 1 0)
  | .cos, .fin _ m e =>
    let F := (-e).toNat + 1
    let t := (if 0 ≤ e then m * 2 ^ (min e 2).toNat else m) * 2 % 2 ^ (F + 1)
    let t := if 2 ^ F < t then 2 ^ (F + 1) - t else t
    if t = 0 then .exact (.fin false 1 0)
    else if t = 2 ^ F then .exact (.fin true 1 0)
    else if 2 * t = 2 ^ F then .exact (.fin false 0 0)
    else
      let (m, e) := sinHalf (if 2 * t < 2 ^ F then 2 ^ (F - 1) - t else t - 2 ^ (F - 1)) F
      wave (decide (2 ^ F < 2 * t)) m e

/-- The image an approximation writes for an input image (R204-R206). DEDUCED (log 96): the special infinities of FEXP2
and FLOG2 take K by R206, which is the entry's own, and not by R184's line for an infinite operand. -/
def approx (f : ApproxFn) (c : FpCls) (p : Pair) : Pair :=
  let a := oprOf c p
  let bits := if c == .f64 then p.val else p.1.val.setWidth 64
  match approxOf f c (Config.approxNoise f.opc c bits p.1.g) a.v with
  | .exact v => ownRow c (min (a.kef c) (acc f c)) a.s [] v
  | .special .nan => mkImg c .nan true 0
  | .special v => mkImg c v a.s (if a.s then 0 else precP c)
  | .near v => ownRow c (min (a.kef c) (acc f c)) true [] v

end Sys2Proof.Machine
end

