-- ==== Sys2Proof/Machine/Fpu.lean ====
section
/-! DEFINITION. What each floating-point and significance instruction computes in one lane (R195-R219). -/

namespace Sys2Proof.Machine

/-- FADD, FSUB, FMUL, FFMA in one lane (R197, R198). -/
def faddLane (c : FpCls) (a b : Pair) : Pair := fAdd c (oprOf c a) (oprOf c b)
def fsubLane (c : FpCls) (a b : Pair) : Pair := fSub c (oprOf c a) (oprOf c b)
def fmulLane (c : FpCls) (a b : Pair) : Pair := fMul c (oprOf c a) (oprOf c b)
def ffmaLane (c : FpCls) (a b x : Pair) : Pair := fFma c (oprOf c a) (oprOf c b) (oprOf c x)

/-- FSCALE in one lane (R200): K starts from the stored K of A. -/
def fscaleLane (c : FpCls) (a b : Pair) : Pair :=
  let x := oprOf c a
  ownRow c x.k x.s (infsOf [x]) (x.v.scale b.1.val.toInt)

/-- FREXP.SIG in one lane (R201); an operand wider than the class rounds to odd as every result does (R174, R176). -/
def frexpSigLane (c : FpCls) (a : Pair) : Pair :=
  let x := oprOf c a
  match x.v with
  | .fin _ (_ + 1) _ => ownRow c x.k x.s [] (x.v.scale (-x.v.lead))
  | .nan => mkImg c .nan true 0
  | _ => a

/-- FREXP.EXP in one lane (R201). -/
def frexpExpLane (c : FpCls) (a : Pair) : Pair :=
  match imgValue c a with
  | .fin n (m + 1) e => wr32 (Fp.lead (.fin n (m + 1) e))
  | .fin _ 0 _ => wr32 (-(2 ^ 31))
  | _ => wr32 (2 ^ 31 - 1)

/-- FCMP in one lane (R202). -/
def fcmpLane (cond : FCond) (x : Bool) (c : FpCls) (a b : Pair) : Bool :=
  let r := Fp.cmp? (imgValue c a) (imgValue c b)
  let eq := r == some .eq && (!x || (!a.1.s && !b.1.s))
  match cond with
  | .eq => eq
  | .ne => !eq
  | .lt => r == some .lt
  | .le => r == some .lt || eq
  | .gt => r == some .gt
  | .ge => r == some .gt || eq
  | .un => r.isNone
  | .ord => r.isSome

/-- FCLASS in one lane (R203). -/
def fclassLane (c : FpCls) (a : Pair) : Pair :=
  let x := oprOf c a
  let bit : Nat :=
    match x.v with
    | .inf n => if n then 0 else 7
    | .nan => 8
    | .fin n 0 _ => if n then 3 else 4
    | .fin n (m + 1) e =>
      let sub := decide (leadExp (m + 1) e < (fmtOf c).emin)
      if n then (if sub then 2 else 1) else (if sub then 5 else 6)
  wr32 (2 ^ bit + (if x.s then 2 ^ 9 else 0) + (if x.dead then 2 ^ 10 else 0) + (if a.1.g != 0 then 2 ^ 11 else 0) : Nat)

/-- Whether a conversion from class `s` to class `d` widens (R176, R208). -/
def widens (s d : FpCls) : Bool :=
  decide (precP s ≤ precP d) && decide ((fmtOf d).emin ≤ (fmtOf s).emin) && decide ((fmtOf s).emax ≤ (fmtOf d).emax)

/-- FCVT in one lane (R208). A widening rounds only what no image of the source class holds (R174, R176). DEDUCED (log
96): an infinity keeps its stored K by R208's rows, narrowed no more than P of the destination. -/
def fcvtLane (d s : FpCls) (a : Pair) : Pair :=
  if d == s then a
  else
    let x := oprOf s a
    if x.v.isNan then mkImg d .nan true 0
    else if x.v.isInf then mkImg d x.v x.s (if widens s d then x.k else min x.k (precP d))
    else ownRow d (if widens s d then x.k else min x.k (precP d)) x.s [] x.v

/-- The mode of a rounding code below DYN (R180). -/
def rndOfNat : Nat → Option Rnd
  | 0 => some .rne
  | 1 => some .rna
  | 2 => some .rz
  | 3 => some .ru
  | 4 => some .rd
  | _ => none

/-- The rounding mode of a code, DYN read from RNDCTL.MODE (R180, R181). -/
def modeOf (r : Rnd) (rndctl : Word64) : Rnd :=
  if r == .dyn then (rndOfNat (rndctl.toNat / 32 % 8)).getD .rne else r

/-- RNDCTL.SAT (R181). -/
def satOf (rndctl : Word64) : Bool := rndctl.getLsbD 4

/-- FCVTI in one lane (R209). -/
def fcvtiLane (t : IntTy) (c : FpCls) (mode : Rnd) (a : Pair) : Pair :=
  wrTy t (finalRoundInt (tySigned t) t.width mode (imgValue c a))

/-- ICVTF in one lane (R210). -/
def icvtfLane (c : FpCls) (t : IntTy) (a : Pair) : Pair :=
  let x := intVal t a
  ownRow c (precP c) false [] (.fin (decide (x < 0)) x.natAbs 0)

/-- FROUND in one lane (R211): the trust of the add rule with the single operand a; a zero result takes 0 or P. -/
def froundLane (c : FpCls) (mode : Rnd) (a : Pair) : Pair :=
  let x := oprOf c a
  match x.v with
  | .nan => mkImg c .nan true 0
  | .inf _ => mkImg c x.v x.s (x.kef c)
  | v =>
    let r := roundTo c (rint mode v)
    if r.overflow then mkImg c r.v true 0
    else if r.v.isZero then mkImg c r.v x.s (if x.s then 0 else precP c)
    else
      let k : Nat :=
        match x.floor? with
        | none => precP c
        | some fr => (clampInt 0 (precP c) (r.v.lead - fr + 1)).toNat
      mkImg c r.v (x.s || r.inexact) (capK c r.v r.inexact k)

/-- The class of an FPACK element format; the slot's OFMT under `.SLOT` (R212, R452). -/
def fpackCls (t : FpackTy) (ofmt : Nat) : Option FpCls :=
  let ofCode : Nat → Option FpCls
    | 2 => some .f16
    | 3 => some .bf16
    | 4 => some .e4m3
    | 5 => some .e5m2
    | 6 => some .e3m2
    | 7 => some .e2m3
    | 8 => some .e2m1
    | _ => none
  match t with
  | .f16 => some .f16
  | .bf16 => some .bf16
  | .e4m3 => some .e4m3
  | .e5m2 => some .e5m2
  | .e3m2 => some .e3m2
  | .e2m3 => some .e2m3
  | .e2m1 => some .e2m1
  | .slot => ofCode ofmt

/-- The element width e of R159 for a format: FP6 takes a byte (R171). -/
def laneWidth (c : FpCls) : Nat :=
  match c with
  | .f64 => 64
  | .f32 => 32
  | .f16 | .bf16 => 16
  | .e2m1 => 4
  | _ => 8

/-- FPACK in one lane (R212). -/
def fpackLane (f : FpCls) (mode : Rnd) (sat : Bool) (j : Nat) (a b c : Pair) : Pair :=
  let e := laneWidth f
  let el (p : Pair) : Nat := finalRound f mode sat (imgValue .f32 p)
  let base := if e = 16 then 0 else c.1.val.toNat
  wr32 (setField (setField base e (2 * j) (el a)) e (2 * j + 1) (el b) : Nat)

/-- FUNPACK in one lane (R213): an exact F32-class image. -/
def funpackLane (f : FpCls) (n : Nat) (a : Pair) : Pair :=
  let e := laneWidth f
  match decodeFp f (a.1.val.toNat / 2 ^ (e * n) % 2 ^ (fmtOf f).bits) with
  | .nan => mkImg .f32 .nan true 0
  | v => mkImg .f32 v false 26

/-- One node of the FREDUCE tree (R186): absent values are passed over. -/
def fredNode (c : FpCls) (a b : Option Pair) : Option Pair :=
  match a, b with
  | none, y => y
  | x, none => x
  | some x, some y => some (faddLane c x y)

/-- FREDUCE.ADD over the active lanes (R186, R214). -/
def freduceVal (c : FpCls) (v : Lanes Pair) (act : Mask) : Pair :=
  let xs := lanes32.map fun l => if inMask act l then some (v.at zeroPair l) else none
  ((tree32 (fredNode c) xs).getD none).getD zeroPair

/-- KGET in one lane (R215). -/
def kgetLane (pick : KgetSel) (c : FpCls) (a : Pair) : Pair :=
  let x := oprOf c a
  wr32 (match pick with
    | .k => x.k
    | .kef => x.kef c
    | .s => if x.s then 1 else 0
    | .g => a.1.g
    | .tag => a.1.tag.toNat + (if c == .f64 then 256 * a.2.tag.toNat else 0) : Nat)

/-- KSET in one lane (R216). -/
def ksetLane (c : FpCls) (a b : Pair) : Pair :=
  let k := b.1.val.toNat
  if k < precP c then retag c a true (min (storedK c a) k) else a

/-- KMIN in one lane (R217). -/
def kminLane (c : FpCls) (a b : Pair) : Pair :=
  let x := oprOf c a
  let y := oprOf c b
  let s := x.s || y.s
  let k := min x.k (y.kef c)
  retag c a s (if s then min k (precP c - 1) else k)

/-- STICKY.CLR and STICKY.SET in one lane (R218). -/
def stickyClrLane (c : FpCls) (a : Pair) : Pair :=
  if (imgValue c a).isNan then a else retag c a false (precP c)
def stickySetLane (c : FpCls) (a : Pair) : Pair := retag c a true (min (storedK c a) (precP c - 1))

/-! ## The DETAIL of each result (R458) -/

/-- An addition's DETAIL, with the infinite and the dead operands. -/
def addDetail (c : FpCls) (xs : List Opr) (y : Pair) : Nat :=
  kDetail c y (xs.any fun x => x.v.isInf) (xs.any Opr.dead)
def faddDetail (c : FpCls) (a b : Pair) : Nat := addDetail c [oprOf c a, oprOf c b] (faddLane c a b)
def fsubDetail (c : FpCls) (a b : Pair) : Nat := addDetail c [oprOf c a, oprOf c b] (fsubLane c a b)
def fmulDetail (c : FpCls) (a b : Pair) : Nat :=
  kDetail c (fmulLane c a b) ((imgValue c a).isInf || (imgValue c b).isInf) false
/-- A minimum or maximum takes the winner's tag, whatever it is (R184). R458 names no row for it: DETAIL 0 (DEDUCED, log
33). -/
def fminmaxDetail (_ : FpCls) (_ _ : Pair) : Nat := 0
/-- The addends of FFMA are the product and C (R184). -/
def ffmaDetail (c : FpCls) (a b x : Pair) : Nat :=
  kDetail c (ffmaLane c a b x) ((imgValue c a).isInf || (imgValue c b).isInf || (imgValue c x).isInf)
    ((prodOpr c (oprOf c a) (oprOf c b)).dead || (oprOf c x).dead)
/-- A function of one operand of class `s` that gives an image of class `d`. -/
def oneDetail (d s : FpCls) (f : Pair → Pair) (a : Pair) : Nat := kDetail d (f a) (imgValue s a).isInf false
def fcvtDetail (d s : FpCls) (a : Pair) : Nat := if d == s then 0 else oneDetail d s (fcvtLane d s) a
/-- A FUNPACK element's infinity comes from memory; only a NaN has K 0 (R213). -/
def funpackDetail (f : FpCls) (n : Nat) (a : Pair) : Nat := kDetail .f32 (funpackLane f n a) true false
/-- An approximation: the special infinities of R206 have a row of their own. -/
def approxDetail (f : ApproxFn) (c : FpCls) (a : Pair) : Nat :=
  match approxOf f c 0 (imgValue c a) with
  | .special v => kDetail c (mkImg c v false 0) true false
  | _ => kDetail c (approx f c a) false false
/-- FREDUCE: the DETAIL of the add that gave the root (R186). -/
def fredDetail (c : FpCls) (v : Lanes Pair) (act : Mask) : Nat :=
  let node (a b : Option (Pair × Nat)) : Option (Pair × Nat) :=
    match a, b with
    | none, y => y
    | x, none => x
    | some x, some y => some (faddLane c x.1 y.1, faddDetail c x.1 y.1)
  let xs := lanes32.map fun l => if inMask act l then some (v.at zeroPair l, 0) else none
  (((tree32 node xs).getD none).map (·.2)).getD 0

end Sys2Proof.Machine
end

