-- ==== Sys2Proof/Machine/Operands.lean ====
section
/-! DEFINITION. The operands of every instruction: which vector registers it names, in field order, with their width and
the DETAIL that a range trap reports (R34, R36, R234, R456), which mask registers it reads and writes (R115), and its
MASK, TOK and LOOK fields; and the reading of operands from a gang's registers. -/

namespace Sys2Proof.Machine

/-- A vector operand: the register, how many registers it takes (1, 2 or 4), the DETAIL of its field (R456). -/
structure Opnd where
  n : Nat
  len : Nat
  det : Nat
  deriving DecidableEq, Repr

/-- Registers of an integer type (R36). -/
def tyLen (t : IntTy) : Nat := if t.width = 64 then 2 else 1
/-- Registers of an FP class (R192). -/
def clsLen (c : FpCls) : Nat := if c = .f64 then 2 else 1
/-- Registers of a lane-move width. -/
def wdLen : Wd → Nat
  | .w32 => 1
  | .w64 => 2
/-- Registers of a memory datum (R234). -/
def sizeLen : Size → Nat
  | .w64 | .f64 => 2
  | .w128 => 4
  | _ => 1
/-- Registers of a fabric datum (R401). -/
def fszLen : FldSz → Nat
  | .w64 | .f64 => 2
  | .w128 => 4
  | _ => 1

/-- Operands in the fields D, A, B, C, and elsewhere. -/
def oD (n : VNum) (len : Nat) : Opnd := ⟨n.toNat, len, 1⟩
def oA (n : VNum) (len : Nat) : Opnd := ⟨n.toNat, len, 2⟩
def oB (n : VNum) (len : Nat) : Opnd := ⟨n.toNat, len, 3⟩
def oC (n : VNum) (len : Nat) : Opnd := ⟨n.toNat, len, 4⟩
def oX (n : VNum) (len : Nat) : Opnd := ⟨n.toNat, len, 5⟩
/-- A command quad named by QD. -/
def oQ (q : BitVec 6) : Opnd := ⟨4 * q.toNat, 4, 5⟩
/-- The offset register of a memory operand. -/
def oOfs (m : MemRef) : List Opnd :=
  match m.ofs with
  | some v => [oX v 1]
  | none => []

/-- Registers of a sum: two when it widens or the type is 64 bits wide (R121). -/
def addLen (t : IntTy) (am : AddMod) : Nat := if am = .wide then 2 else tyLen t

end Sys2Proof.Machine

namespace Sys2Proof

open Sys2Proof.Machine

/-- Whether a compact operation reads A, and B (R103). -/
def COp.readsA : COp → Bool
  | .nop => false
  | _ => true
def COp.readsB : COp → Bool
  | .nop | .movW32 | .absS32 | .clzW32 | .popcW32 | .brevW32 => false
  | _ => true

/-- The operands of a compact operation. -/
def Compact.opnds (c : Compact) : List Opnd :=
  (if c.op = .nop then [] else [⟨c.d.toNat, 1, 1⟩]) ++ (if c.op.readsA then [⟨c.a.toNat, 1, 2⟩] else []) ++
  (if c.op.readsB then [⟨c.b.toNat, 1, 3⟩] else [])

/-- The operand of an atomic: twice its width for CAS (R245). -/
def atomLen (op : AtomOp) (s : Size) : Nat := if op = .cas then 2 * sizeLen s else sizeLen s

/-- The vector operands an instruction names, in field order. DEDUCED (log 100): a register in COND (CALL, BSIG) or in
OFS or DATA has DETAIL 5, since R456 names no other field. -/
def Instr.opnds : Instr → List Opnd
  | .mov ty d a _ _ => [oD d (tyLen ty), oA a (tyLen ty)]
  | .movi ty d _ _ => [oD d (tyLen ty)]
  | .add ty am d a _ b _ | .sub ty am d a _ b _ => [oD d (addLen ty am), oA a (tyLen ty), oB b (tyLen ty)]
  | .addi ty am d a _ _ => [oD d (addLen ty am), oA a (tyLen ty)]
  | .mul ty d a _ b _ | .mulh ty d a _ b _ | .and ty d a _ b _ | .or ty d a _ b _ | .xor ty d a _ b _
  | .min ty d a _ b _ | .max ty d a _ b _ => [oD d (tyLen ty), oA a (tyLen ty), oB b (tyLen ty)]
  | .mad ty d a _ b c _ => [oD d (tyLen ty), oA a (tyLen ty), oB b (tyLen ty), oC c (tyLen ty)]
  | .idiv ty d a _ b _ _ _ | .irem ty d a _ b _ _ _ => [oD d (tyLen ty), oA a (tyLen ty), oB b (tyLen ty)]
  | .logi _ ty d a _ _ | .shi _ ty d a _ _ => [oD d (tyLen ty), oA a (tyLen ty)]
  | .shl ty d a _ b _ | .shr ty d a _ b _ | .sar ty d a _ b _ | .rot ty d a _ b _ | .bfe ty d a _ b _ =>
    [oD d (tyLen ty), oA a (tyLen ty), oB b 1]
  | .clz ty d a _ _ | .popc ty d a _ _ | .brev ty d a _ _ | .abs ty _ d a _ _ => [oD d (tyLen ty), oA a (tyLen ty)]
  | .sel ty d a _ b _ _ => [oD d (tyLen ty), oA a (tyLen ty), oB b (tyLen ty)]
  | .cmp _ ty _ a _ b _ => [oA a (tyLen ty), oB b (tyLen ty)]
  | .cmpi _ ty _ a _ _ => [oA a (tyLen ty)]
  | .bfi ty d a _ b c _ => [oD d (tyLen ty), oA a (tyLen ty), oB b (tyLen ty), oC c 1]
  | .lea _ d m _ _ _ => oX d 2 :: oOfs m
  | .ids _ d _ | .mpop d _ _ | .mfirst d _ _ | .ballot _ d _ _ | .iota _ d _ _ _ => [oD d 1]
  | .call vd _ _ => [oX vd 2]
  | .calli vd va _ => [oD vd 2, oA va 2]
  | .ret va _ | .jmpi va _ => [oA va 2]
  | .shfl _ wd d a b _ => [oD d (wdLen wd), oA a (wdLen wd), oB b 1]
  | .bcast pick wd d a b _ => [oD d (wdLen wd), oA a (wdLen wd)] ++ (if pick = .idx then [oB b 1] else [])
  | .reduce op d a _ _ | .scan op d a _ _ =>
    let n := if redWide op then 2 else 1
    [oD d n, oA a n]
  | .vote k w64 _ a _ => if k = .same || k = .allSame then [oA a (if w64 then 2 else 1)] else []
  | .dot4 _ _ d a _ b c _ _ | .dot8 _ _ d a _ b c _ _ => [oD d 1, oA a 1, oB b 1, oC c 1]
  | .pack ty _ d a _ b c _ _ => [oD d 1, oA a 1, oB b 1] ++ (if ty.width = 16 then [] else [oC c 1])
  | .unpack _ d a _ _ _ => [oD d 1, oA a 1]
  | .clmul wd _ d a _ b _ => [oD d 2, oA a (wdLen wd), oB b (wdLen wd)]
  | .byteperm d a _ b c _ => [oD d 1, oA a 1, oB b 1, oC c 1]
  | .rebal _ wd d a _ _ => [oD d (wdLen wd), oA a (wdLen wd)]
  | .shapeGet d a _ => [oD d 1, oA a 1]
  | .shapeFit wd d a _ => [oD d (wdLen wd), oA a (wdLen wd)]
  | .fadd c d a _ b _ | .fsub c d a _ b _ | .fmul c d a _ b _ | .fmin c d a _ b _ | .fmax c d a _ b _ =>
    [oD d (clsLen c), oA a (clsLen c), oB b (clsLen c)]
  | .kmin c d a _ b _ => [oD d (clsLen c), oA a (clsLen c), oB b (clsLen c)]
  | .fscale c d a _ b _ | .kset c d a _ b _ => [oD d (clsLen c), oA a (clsLen c), oB b 1]
  | .ffma cl d a _ b c _ => [oD d (clsLen cl), oA a (clsLen cl), oB b (clsLen cl), oC c (clsLen cl)]
  | .frexp p c d a _ _ => [oD d (if p = .exp then 1 else clsLen c), oA a (clsLen c)]
  | .fcmp _ _ c _ a _ b _ => [oA a (clsLen c), oB b (clsLen c)]
  | .fclass c d a _ _ => [oD d 1, oA a (clsLen c)]
  | .frcp c d a _ _ _ | .frsq c d a _ _ _ | .fexp2 c d a _ _ _ | .flog2 c d a _ _ _ | .fsin c d a _ _ _
  | .fcos c d a _ _ _ => [oD d (clsLen c), oA a (clsLen c)]
  | .fcvt dst src d a _ _ => [oD d (clsLen dst), oA a (clsLen src)]
  | .fcvti ty c d a _ _ _ => [oD d (tyLen ty), oA a (clsLen c)]
  | .icvtf c ty d a _ _ => [oD d (clsLen c), oA a (tyLen ty)]
  | .fround c d a _ _ _ => [oD d (clsLen c), oA a (clsLen c)]
  | .fpack ty _ d a b c _ _ _ => [oD d 1, oA a 1, oB b 1] ++ (if ty = .f16 || ty = .bf16 then [] else [oC c 1])
  | .funpack _ d a _ _ _ => [oD d 1, oA a 1]
  | .freduce c d a _ _ => [oD d (clsLen c), oA a (clsLen c)]
  | .kget _ c d a _ _ => [oD d 1, oA a (clsLen c)]
  | .sticky k c d a _ _ => (if k = .mask then [] else [oD d (clsLen c)]) ++ [oA a (clsLen c)]
  | .bsig k va _ _ _ => [oX va (if k = .anyD || k = .allD then 2 else 1)]
  | .pairWord p q => p.opnds ++ q.opnds
  | .ld sz d m _ _ _ _ => oX d (sizeLen sz) :: oOfs m
  | .st sz _ v m _ _ _ => oX v (sizeLen sz) :: oOfs m
  | .ldt sz d m _ _ _ _ => oX d (sizeLen sz) :: oOfs m
  | .stt sz v m _ _ _ => oX v (sizeLen sz) :: oOfs m
  | .ldg sz d _ o _ _ _ _ _ => [oX d (sizeLen sz), oX o 1]
  | .sts sz _ v _ o _ _ _ _ => [oX v (sizeLen sz), oX o 1]
  | .ldb sz d _ _ _ _ _ _ => [oX d (sizeLen sz)]
  | .tmov _ _ v m _ _ _ => oX v 2 :: oOfs m
  | .atom op sz v m _ _ _ => oX v (atomLen op sz) :: oOfs m
  | .atomr op sz v m _ _ _ _ => oX v (atomLen op sz) :: oOfs m
  | .cbpushRes v _ _ _ | .cbpushCommit v _ _ _ | .cbpopTake v _ _ _ | .cbpopFree v _ _ _ | .cbpopStat v _ => [oX v 2]
  | .hdescAttr vd va | .hdescBind vd va | .hdescLoc vd va => [oD vd 2, oA va 2]
  | .hdescSeta _ va => [oA va 2]
  | .hdescGeta vd _ => [oD vd 2]
  | .oload q _ _ _ | .aread _ q _ _ _ _ | .awrite _ q _ _ _ _ | .xcopy _ _ _ _ q _ _ _ _
  | .xcopym _ q _ _ _ _ _ _ _ _ _ | .sxred _ _ _ _ q _ _ _ _ | .sxbulkCopy q _ _ _ | .sxbulkFill q _ _ _
  | .sxbulkCmp q _ _ _ _ | .fmcst q _ _ => [oQ q]
  | .astat v _ _ _ _ _ | .mstat _ v | .xseqDone _ v _ _ | .xseqIssued _ v _ _ | .xseqLine _ v _ _ | .xseqFault v _ _
  | .xwait _ v | .mkstat v _ => [oX v 2]
  | .sxseqDone v p r _ _ | .sxseqIssued v p r _ _ | .sxseqStack v p r _ _ | .sxseqFault v p r _ _ | .sxwait v p r =>
    oX v 2 :: (if p.toNat = 8 then [oX r 1] else [])
  | .mkmatch _ _ _ q _ _ _ | .mkcollect _ _ _ _ _ q _ _ _ => [oX q 4]
  | .mkset f _ _ _ _ _ v _ _ _ => if f = .vec then [oX v 1] else []
  | .mkprop _ _ _ _ _ _ v _ _ _ _ | .mkpropv _ _ _ _ _ v _ _ _ _ => [oX v 1]
  | .ndrd f _ d m _ _ _ => oX d (if f = .mv then 1 else 2) :: oOfs m
  | .ndwr f _ v m _ _ => oX v (if f = .mv then 1 else 2) :: oOfs m
  | .edrd f d m _ _ _ => oX d (if f = .weight then 1 else 2) :: oOfs m
  | .edwr f v m _ _ => oX v (if f = .weight then 1 else 2) :: oOfs m
  | .fld sz d p o _ _ _ => [oD d (fszLen sz), oA p 2, oB o 1]
  | .fst sz _ v p o _ _ => [oD v (fszLen sz), oA p 2, oB o 1]
  | .fstRadd v p o _ _ => [oD v 1, oA p 2, oB o 1]
  | .fat op sz d p o c _ _ _ =>
    let n := if sz = .w64 then 2 else 1
    [oD d n, oA p 2, oB o 1, oC c (if op = .cas then 2 * n else n)]
  | .fpeerExport _ va | .fpeerMcdef _ va => [oA va 2]
  | .fpeerStat vd _ | .fpeerPort vd _ => [oD vd 2]
  | .barq vd _ => [oD vd 2]
  | .qpost v _ _ _ _ => [oX v 2]
  | .csrrd vd _ => [oD vd 2]
  | .csrwr _ va | .csrwrSet _ va | .csrwrClr _ va | .ctxsave va _ _ => [oA va 2]
  | .ctxload vd va _ _ _ | .hnew vd va _ _ _ | .hmap vd va _ _ _ | .hrevoke vd va _ _ _ | .hmigr vd va _ _ _ _
  | .chkptSave vd va _ _ _ | .chkptLoad vd va _ _ _ => [oD vd 2, oA va 2]
  | _ => []

/-- The MASK field of an instruction, M0 when it has none (R41). -/
def Instr.maskField : Instr → Nat
  | .mov _ _ _ _ k | .movi _ _ _ k | .add _ _ _ _ _ _ k | .sub _ _ _ _ _ _ k | .addi _ _ _ _ _ k | .mul _ _ _ _ _ k
  | .mulh _ _ _ _ _ k | .mad _ _ _ _ _ _ k | .idiv _ _ _ _ _ _ _ k | .irem _ _ _ _ _ _ _ k | .and _ _ _ _ _ k
  | .or _ _ _ _ _ k | .xor _ _ _ _ _ k | .logi _ _ _ _ _ k | .shl _ _ _ _ _ k | .shr _ _ _ _ _ k | .sar _ _ _ _ _ k
  | .rot _ _ _ _ _ k | .shi _ _ _ _ _ k | .clz _ _ _ _ k | .popc _ _ _ _ k | .brev _ _ _ _ k | .min _ _ _ _ _ k
  | .max _ _ _ _ _ k | .abs _ _ _ _ _ k | .sel _ _ _ _ _ _ k | .cmp _ _ _ _ _ _ k | .cmpi _ _ _ _ _ k
  | .bfe _ _ _ _ _ k | .bfi _ _ _ _ _ _ k | .lea _ _ _ _ _ k | .ids _ _ k | .mlog _ _ _ _ k | .mpop _ _ k
  | .mfirst _ _ k | .mset _ _ _ k | .calli _ _ k | .ret _ k | .jmpi _ k | .exit k | .shfl _ _ _ _ _ k
  | .bcast _ _ _ _ _ k | .reduce _ _ _ _ k | .scan _ _ _ _ k | .vote _ _ _ _ k | .ballot _ _ _ k
  | .dot4 _ _ _ _ _ _ _ _ k | .dot8 _ _ _ _ _ _ _ _ k | .pack _ _ _ _ _ _ _ _ k | .unpack _ _ _ _ _ k
  | .clmul _ _ _ _ _ _ k | .byteperm _ _ _ _ _ k | .rebal _ _ _ _ _ k | .shapeGet _ _ k | .shapeFit _ _ _ k
  | .iota _ _ _ _ k | .fadd _ _ _ _ _ k | .fsub _ _ _ _ _ k | .fmul _ _ _ _ _ k | .fmin _ _ _ _ _ k
  | .fmax _ _ _ _ _ k | .fscale _ _ _ _ _ k | .kset _ _ _ _ _ k | .kmin _ _ _ _ _ k | .ffma _ _ _ _ _ _ k
  | .frexp _ _ _ _ _ k | .fcmp _ _ _ _ _ _ _ k | .fclass _ _ _ _ k | .frcp _ _ _ _ _ k | .frsq _ _ _ _ _ k
  | .fexp2 _ _ _ _ _ k | .flog2 _ _ _ _ _ k | .fsin _ _ _ _ _ k | .fcos _ _ _ _ _ k | .fcvt _ _ _ _ _ k
  | .fcvti _ _ _ _ _ _ k | .icvtf _ _ _ _ _ k | .fround _ _ _ _ _ k | .fpack _ _ _ _ _ _ _ _ k | .funpack _ _ _ _ _ k
  | .freduce _ _ _ _ k | .kget _ _ _ _ _ k | .sticky _ _ _ _ _ k | .ld _ _ _ _ _ _ k | .st _ _ _ _ _ _ k
  | .ldt _ _ _ _ _ _ k | .stt _ _ _ _ _ k | .ldg _ _ _ _ _ _ _ _ k | .sts _ _ _ _ _ _ _ _ k | .ldb _ _ _ _ _ _ _ k
  | .tmov _ _ _ _ _ _ k | .atom _ _ _ _ _ _ k | .atomr _ _ _ _ _ _ _ k | .sxred _ _ _ _ _ _ _ _ k
  | .ndrd _ _ _ _ _ _ k | .ndwr _ _ _ _ _ k | .edrd _ _ _ _ _ k | .edwr _ _ _ _ k | .fld _ _ _ _ _ _ k
  | .fst _ _ _ _ _ _ k | .fstRadd _ _ _ _ k | .fat _ _ _ _ _ _ _ _ k => k.toNat
  | _ => 0

/-- The mask registers an instruction reads besides its MASK field. -/
def Instr.maskReads : Instr → List Nat
  | .sel _ _ _ _ _ mc _ => [mc.toNat]
  | .mlog k _ ma mb _ => if k = .lnot || k = .mov then [ma.toNat] else [ma.toNat, mb.toNat]
  | .mpop _ ma _ | .mfirst _ ma _ | .ballot _ _ ma _ => [ma.toNat]
  | .br _ mc _ _ | .brm _ mc _ _ => [mc.toNat]
  | .vote k _ _ a _ => if k = .same || k = .allSame then [] else [a.toNat]
  | .rebal _ _ _ _ mc _ => [mc.toNat]
  | .pairWord p q => [p.msk.toNat, q.msk.toNat]
  | _ => []

/-- The mask registers an instruction writes (R115). -/
def Instr.maskWrites : Instr → List Nat
  | .idiv _ _ _ _ _ f _ _ | .irem _ _ _ _ _ f _ _ => if f = 0#3 then [] else [f.toNat]
  | .cmp _ _ md _ _ _ _ | .cmpi _ _ md _ _ _ | .mlog _ md _ _ _ | .mset _ md _ _ | .vote _ _ md _ _
  | .fcmp _ _ _ md _ _ _ _ => [md.toNat]
  | .sticky k _ d _ _ _ => if k = .mask then [d.toNat % 8] else []
  | _ => []

/-- The token an instruction counts (R43, R107); 0 counts nothing. -/
def Instr.tokOf : Instr → Nat
  | .lea _ _ _ _ t _ | .ld _ _ _ _ _ t _ | .st _ _ _ _ _ t _ | .ldt _ _ _ _ _ t _ | .stt _ _ _ _ t _
  | .ldg _ _ _ _ _ _ _ t _ | .sts _ _ _ _ _ _ _ t _ | .ldb _ _ _ _ _ _ t _ | .tmov _ _ _ _ _ t _
  | .atom _ _ _ _ _ t _ | .atomr _ _ _ _ _ _ t _ | .acq _ _ t | .rel _ t | .cbpushRes _ _ _ t | .cbpushCommit _ _ _ t
  | .cbpopTake _ _ _ t | .cbpopFree _ _ _ t | .oclaim _ _ _ t | .orel _ _ _ t | .oload _ _ _ t | .omap _ _ _ _ t
  | .mma _ _ _ _ _ _ _ _ t | .aclr _ _ t | .aread _ _ _ _ _ t | .awrite _ _ _ _ _ t | .astat _ _ _ _ _ t
  | .xcopy _ _ _ _ _ _ _ _ t | .xcopym _ _ _ _ _ _ _ _ _ _ t | .xseqDone _ _ _ t | .xseqIssued _ _ _ t
  | .xseqLine _ _ _ t | .xseqFault _ _ t | .sxred _ _ _ _ _ _ _ t _ | .sxbulkCopy _ _ _ t | .sxbulkFill _ _ _ t
  | .sxbulkCmp _ _ _ _ t | .sxseqDone _ _ _ _ t | .sxseqIssued _ _ _ _ t | .sxseqStack _ _ _ _ t
  | .sxseqFault _ _ _ _ t | .mkmatch _ _ _ _ _ _ t | .mkset _ _ _ _ _ _ _ _ _ t | .mkclr _ _ _ _ _ _ _ _ t
  | .mkprop _ _ _ _ _ _ _ _ _ _ t | .mkpropv _ _ _ _ _ _ _ _ _ t | .mkcollect _ _ _ _ _ _ _ _ t
  | .mkcount _ _ _ _ _ t | .ndrd _ _ _ _ _ t _ | .ndwr _ _ _ _ t _ | .edrd _ _ _ _ t _ | .edwr _ _ _ t _
  | .fld _ _ _ _ _ t _ | .fst _ _ _ _ _ t _ | .fstRadd _ _ _ t _ | .fat _ _ _ _ _ _ _ t _ | .fmcst _ _ t | .barv _ t
  | .qpost _ _ _ _ t | .ctxsave _ _ t | .ctxload _ _ _ _ t | .hnew _ _ _ _ t | .hmap _ _ _ _ t | .hrevoke _ _ _ _ t
  | .hmigr _ _ _ _ _ t | .chkptSave _ _ _ _ t | .chkptLoad _ _ _ _ t => t.toNat
  | _ => 0

end Sys2Proof

namespace Sys2Proof.Machine

/-! ## Reading operands -/

/-- A vector register of a gang. -/
def Gang.reg (g : Gang) (n : Nat) : VReg := Tab.at g.regs VReg.zero n

/-- A register, or a pair, as lanes of pairs; a single register leaves the second image unread. -/
def Gang.rd (g : Gang) (len n : Nat) : Lanes Pair :=
  if len = 2 then Lanes.map2 Prod.mk (g.reg n).lanes (g.reg (n + 1)).lanes
  else (g.reg n).lanes.map fun x => (x, zeroImg)

/-- What an unreadable lane of an operand reads as (R45). -/
def zeroOf (len : Nat) : Pair := if len = 2 then zeroPair else (zeroImg, zeroImg)

/-- The four images of a quad in a lane. -/
def Gang.quad (g : Gang) (n lane : Nat) : List Img :=
  [(g.reg n).lane lane, (g.reg (n + 1)).lane lane, (g.reg (n + 2)).lane lane, (g.reg (n + 3)).lane lane]

/-- The 64 value bits of a pair in a lane. -/
def Gang.pairAt (g : Gang) (n lane : Nat) : Word64 :=
  ((g.reg (n + 1)).lane lane).val ++ ((g.reg n).lane lane).val

/-- A handle register (R42). -/
def Gang.hreg (g : Gang) (n : Nat) : Word64 := Tab.at g.hregs 0#64 n

/-- The lanes that are live (R13). -/
def Gang.live (g : Gang) : Mask := maskOf fun l => g.life.getD l .never == .live

/-- The flow record of a lane. -/
def Gang.flowAt (g : Gang) (l : Nat) : Flow := g.flow.getD l Flow.blank

/-- Lanes of a gang: 4 × slices. -/
def Gang.width (g : Gang) : Nat := 4 * g.slices

end Sys2Proof.Machine
end

