-- ==== Sys2Proof/Machine/Ops.lean ====
section
/-! DEFINITION. What every instruction shares: issuing units and their members (R12-R17), fetching (R520, R521), taking
a trap (R419-R426) and returning from one (R431), the LOOK windows (R105, R106), the writing of registers (R39, R41),
the issue of a word, the splitting of parts (R16) and their merging (R18). -/

namespace Sys2Proof.Machine

/-- The outcome of a step. -/
abbrev Next := Host.Outcome State Fault Refusal

/-! ## Gangs, teams and units -/

/-- The core of a gang key. -/
def coreOf (key : Nat) : Nat := key / 64 % 1024
/-- The context of a gang key. -/
def ctxOf (key : Nat) : Nat := key % 64

/-- Whether a gang has a live lane; a retired gang is listed until its launch ends (R33). -/
def Gang.alive (g : Gang) : Bool := g.live != 0#32

/-- The gang in a context of a core (R31). -/
def State.keyAt (s : State) (core ctx : Nat) : Option Nat :=
  (List.find? (fun (kg : Nat × Gang) => kg.1 % 65536 == core * 64 + ctx && kg.2.alive) s.gangs).map (·.1)

/-- The member 0 of the team in a context. -/
def State.leadAt (s : State) (core ctx : Nat) : Option Nat :=
  ((s.keyAt core ctx).bind s.gang?).map fun g => g.mates.headD 0

/-- The members of a team, by the key of any of them, in member order, each once. -/
def State.team (s : State) (key : Nat) : List (Nat × Gang) :=
  match s.gang? key with
  | some g => g.mates.dedup.filterMap fun k => (s.gang? k).map fun m => (k, m)
  | none => []

/-- Whether a trap handler runs (R426). -/
def Gang.inTrap (g : Gang) : Bool := g.tstat.getLsbD 0

/-- The lanes of a slice. -/
def sliceLanes (sl : Nat) : List Nat := (List.range 4).map (4 * sl + ·)

/-- A lane that may issue: live and not waiting at a REGANG. -/
def Gang.runs (g : Gang) (l : Nat) : Bool := inMask g.live l && !(g.flowAt l).rgw

/-- The program counter that a slice issues at (R14). -/
def Gang.slicePc? (g : Gang) (sl : Nat) : Option Nat :=
  (((sliceLanes sl).filter g.runs).map fun l => (g.flowAt l).pc.toNat).min?

/-- The part of a slice that has a live lane. -/
def Gang.slicePart? (g : Gang) (sl : Nat) : Option Nat :=
  ((sliceLanes sl).find? (inMask g.live)).map fun l => (g.flowAt l).part

/-- The slices of a gang. -/
def Gang.sliceNums (g : Gang) : List Nat := List.range g.slices

/-- The lanes of a gang in the issuing lane groups of a part (R14, R41). -/
def Gang.unitLanes (g : Gang) (part : Nat) : Mask :=
  maskOf fun l => g.runs l && (g.flowAt l).part == part && g.slicePc? (l / 4) == some (g.flowAt l).pc.toNat

/-- The address at which a part of a team issues: all its slices that issue stand at one address (R16). -/
def State.unitPc? (s : State) (key part : Nat) : Option Word64 :=
  (s.team key).findSome? fun kg =>
    (lowLane? (kg.2.unitLanes part)).map fun l => (kg.2.flowAt l).pc

/-- A member of the issuing unit: its key and the gang as it stood at issue, M0, the active lanes (R41, R112), and
whether it is the lowest member that the unit touches. -/
structure Seat where
  key : Nat
  g : Gang
  m0 : Mask
  act : Mask
  first : Bool
  deriving DecidableEq, Repr

/-- A mask register as read by a seat (R41). -/
def Seat.mask (x : Seat) (k : Nat) : Mask := if k % 8 = 0 then x.m0 else Tab.at x.g.masks 0#32 (k % 8)

/-- The seats of the issuing unit, in member order (R12). -/
def State.seats (s : State) (maskField : Nat) : List Seat :=
  let ms := (s.team s.cur.key).filterMap fun kg =>
    let m0 := kg.2.unitLanes s.cur.part
    if m0 == 0#32 then none
    else
      let act := if maskField % 8 = 0 then m0 else m0 &&& Tab.at kg.2.masks 0#32 (maskField % 8)
      some (kg.1, kg.2, m0, act)
  (indexFrom 0 ms).map fun ix => ⟨ix.2.1, ix.2.2.1, ix.2.2.2.1, ix.2.2.2.2, ix.1 == 0⟩

/-- The role of a gang. -/
def State.roleOf (s : State) (g : Gang) : Role :=
  ((s.launch? g.launch).bind fun l => l.roles[g.role]?).getD ⟨0#64, 0#64, 0#64, 0#64, []⟩

/-- A format slot of a gang's launch (R26, R189). -/
def State.slotOf (s : State) (launch k : Nat) : Word64 × Word64 :=
  ((s.launch? launch).bind fun l => l.slots[k % 8]?).getD (0#64, 0#64)

/-- Fields of a format slot (R189). -/
def slotAfmt (d : Word64 × Word64) : Nat := fieldOf d.1 60 4
def slotBfmt (d : Word64 × Word64) : Nat := fieldOf d.1 56 4
def slotOfmt (d : Word64 × Word64) : Nat := fieldOf d.1 52 4
def slotOrnd (d : Word64 × Word64) : Nat := fieldOf d.1 49 3
def slotOsat (d : Word64 × Word64) : Bool := d.1.getLsbD 48

/-- The lowest active lane of a seat, 0 when there is none. -/
def Seat.low (x : Seat) : Nat := (lowLane? x.act).getD 0
/-- The lowest lane of M0. -/
def Seat.low0 (x : Seat) : Nat := (lowLane? x.m0).getD 0

/-! ## Fetching (R520, R521) -/

/-- The handle of an address, for a core of a partition. -/
def State.handleAt (s : State) (pno core : Nat) (a : Word64) : Option Handle := (s.part pno).handle? core (hndOf a)

/-- Why the word at an address cannot be fetched: the DETAIL of R467 and the HATTR (R521). -/
def State.fetchFault (s : State) (pno core : Nat) (a : Word64) : Option (Nat × Word64) :=
  let h := s.handleAt pno core a
  (accessFault h (s.part pno).secure false true (offOf a) 8).map fun d => (d.1, h.elim 0#64 (·.attr))

/-- The word at an address that can be fetched. -/
def State.fetchAt (s : State) (pno core : Nat) (a : Word64) : Word64 :=
  match s.handleAt pno core a with
  | some h => leWord (s.bytesBeneath (quarterOf core) h (offOf a) 8)
  | none => 0#64

/-- Whether an address holds a clause header that can be fetched. -/
def State.headerAt (s : State) (pno core : Nat) (a : Word64) : Bool :=
  (s.fetchFault pno core a).isNone && kindOf (s.fetchAt pno core a) == 2#2

/-- The address of a word n words further on, under the same handle (R98). -/
def addWords (a : Word64) (n : Nat) : Word64 := mkAddr (hndOf a) (offOf a + 8 * n)

/-! ## Causes of traps -/

/-- What a member reports for a cause (R425, R426). -/
structure Flaw where
  code : Nat
  detail : Nat
  lanes : Mask
  info1 : Word64
  info2 : Word64
  info3 : Word64
  deriving DecidableEq, Repr

/-- The order in which causes are reported (R450). -/
def causeRank (code : Nat) : Nat :=
  if code = 0x02 then 1 else if code = 0x03 then 2 else if code = 0x01 then 3 else if code = 0x04 then 4
  else if code = 0x05 then 5 else if code = 0x0F || code = 0x11 then 6 else if code = 0x09 || code = 0x13 then 7
  else if code = 0x06 then 8 else if code = 0x07 then 9 else if code = 0x12 then 10 else if code = 0x0C then 11
  else if code = 0x0E then 12 else if code = 0x0A then 13 else if code = 0x08 then 14 else 15

/-- The first of two optional causes in the order of R450. -/
def Flaw.first? (a b : Option Flaw) : Option Flaw :=
  match a, b with
  | some x, some y => if causeRank y.code < causeRank x.code then some y else some x
  | some x, none => some x
  | none, y => y

/-- A cause without further information, at the lanes given. -/
def flaw (code detail : Nat) (lanes : Mask) (info1 : Word64 := 0#64) (info2 : Word64 := 0#64) : Flaw :=
  ⟨code, detail, lanes, info1, info2, 0#64⟩

/-- TLANE for some lanes. -/
def tlaneOf (m : Mask) : Word64 := BitVec.ofNat 64 (m.toNat * 2 ^ 32 + (lowLane? m).getD 0)

/-- The slices of a gang with a live lane in a part, as bits. -/
def Gang.partSlices (g : Gang) (part : Nat) : Nat :=
  (g.sliceNums.filter (fun sl => g.slicePart? sl == some part)).foldl (fun n sl => n + 2 ^ sl) 0

/-! ## Register results -/

/-- The free images of dead lanes in a full general write (R39). -/
def deadImg (tick reg l : Nat) : Img := ⟨Config.deadVal tick reg l, Config.deadTag tick reg l⟩

/-- One result written in some lanes (R39, R41). -/
def Gang.write (g : Gang) (tick : Nat) (lanes : Mask) (o : Out) : Gang :=
  match o with
  | .reg n v => { g with regs := Tab.put g.regs n (writeLanes (g.reg n) v lanes g.live (deadImg tick n)) }
  | .mask k bits =>
    if k = 0 then g
    else { g with masks := Tab.put g.masks k ((Tab.at g.masks 0#32 k &&& ~~~lanes) ||| (bits &&& lanes)) }

/-- Results written in order. -/
def Gang.writes (g : Gang) (tick : Nat) (lanes : Mask) (os : List Out) : Gang :=
  os.foldl (fun g o => g.write tick lanes o) g

/-- The lanes of a pending result that a step can write: landed, window at 0, and no earlier result of the slice to the
same register outstanding (R105, R106). -/
def Pend.ready (p : Pend) (before : List Pend) : Mask :=
  maskOf fun l =>
    p.landed && inMask p.left l && p.win.getD (l / 4) 0 == 0 &&
      before.all fun q =>
        (q.left &&& sliceMask (l / 4)) == 0#32 ||
          !(q.regs.any p.regs.contains || q.masks.any p.masks.contains)

/-- Writing what can be written of the pending results, in issue order. -/
def Gang.flush (g : Gang) (tick : Nat) : Gang :=
  let r := g.pend.foldl (fun (acc : Gang × List Pend) p =>
    let lanes := p.ready acc.2
    let g := if lanes == 0#32 then acc.1 else acc.1.writes tick lanes p.outs
    let p := { p with left := p.left &&& ~~~lanes }
    (g, if p.landed && p.left == 0#32 then acc.2 else acc.2 ++ [p])) (g, [])
  { r.1 with pend := r.2 }

/-- One issued word counts for the windows of the slices that issue it (R105); frozen windows stand (R421). -/
def Gang.count (g : Gang) (m0 : Mask) : Gang :=
  { g with pend := g.pend.map fun p =>
      if p.frozen then p
      else { p with win := (indexFrom 0 p.win).map fun kw => if (m0 &&& sliceMask kw.1) == 0#32 then kw.2 else kw.2 - 1 } }

/-- Whether a word must wait at issue for a result (R105): it touches a register of a result whose window has closed. -/
def Gang.lookStall (g : Gang) (m0 : Mask) (regs masks : List Nat) : Bool :=
  g.pend.any fun p =>
    (p.regs.any regs.contains || p.masks.any masks.contains) &&
      g.sliceNums.any fun sl =>
        (m0 &&& sliceMask sl) != 0#32 && (p.left &&& sliceMask sl) != 0#32 && p.win.getD sl 0 == 0

/-- A token counts one operation more, or less (R43). -/
def Gang.tokAdd (g : Gang) (t : Nat) : Gang :=
  if t = 0 then g else { g with toks := Tab.upd g.toks 0 t (· + 1) }
def Gang.tokSub (g : Gang) (t : Nat) : Gang :=
  if t = 0 then g else { g with toks := Tab.upd g.toks 0 t (· - 1) }
/-- The count of a token. -/
def Gang.tok (g : Gang) (t : Nat) : Nat := Tab.at g.toks 0 t

/-- Opening the window of a long-latency result (R105); the identity names it for its landing. -/
def State.addPend (s : State) (x : Seat) (look : Nat) (regs masks : List Nat) (lanes : Mask) (outs : List Out)
    (landed compute : Bool) (tok : Nat) : Nat × State :=
  let id := s.nextId
  let win := (List.range 8).map fun sl => if (x.m0 &&& sliceMask sl) == 0#32 then 0 else look
  let p : Pend := ⟨id, regs, masks, lanes, win, landed, outs, tok, compute, false⟩
  (id, { s.updGang x.key (fun g => (({ g with pend := g.pend ++ [p] } : Gang).tokAdd tok)) with nextId := id + 1 })

/-- The same for a word that acts once for its unit and gives every lane of M0 its result: each member of the unit waits
for the one result, under one identity, and counts it on its own token (R12, R17, R41). -/
def State.addPendUnit (s : State) (look : Nat) (regs : List Nat) (tok : Nat) : Nat × State :=
  let id := s.nextId
  let t := (s.seats 0).foldl (fun s x =>
    { (s.addPend x look regs [] x.act [] false false tok).2 with nextId := id }) s
  (id, { t with nextId := id + 1 })

/-- A pending result of a gang lands: its registers are known, and it is written when its windows allow. -/
def Gang.land (g : Gang) (tick id : Nat) (outs : List Out) : Gang :=
  ({ g with pend := g.pend.map fun (p : Pend) => if p.id = id then { p with landed := true, outs := outs, tok := 0 } else p }
    : Gang).flush tick

/-! ## Parts (R16, R18) -/

/-- Where a slice of a part goes after a word: the address it issues at, or, when all its lane groups wait, the lowest
REGANG address it waits at. So a slice that wholly waits leaves the part whose other slices run on, though R18 speaks of parts
whose slices wait; it shows in GANGSTAT.PART (DESIGN CHOICE, log 143). -/
def Gang.sliceKey (g : Gang) (sl : Nat) : Option (Bool × Nat) :=
  match g.slicePc? sl with
  | some a => some (false, a)
  | none => ((((sliceLanes sl).filter (inMask g.live)).map fun l => (g.flowAt l).pc.toNat).min?).map fun a => (true, a)

/-- Changing the flow record of lanes. -/
def Gang.mapFlow (g : Gang) (f : Nat → Flow → Flow) : Gang :=
  { g with flow := (indexFrom 0 g.flow).map fun lf => f lf.1 lf.2 }

/-- Giving the slices of a team new parts: each slice of part `part` (or every slice, when none is named) goes with the
slices of equal key; the part is named by its lowest slice over the team (R17). -/
def State.resplit (s : State) (key : Nat) (part : Option Nat) : State :=
  let team := s.team key
  let keys := team.flatMap fun kg => kg.2.sliceNums.filterMap fun sl =>
    if part.isNone || kg.2.slicePart? sl == part then
      (kg.2.sliceKey sl).map fun k => (k, 8 * kg.2.member + sl)
    else none
  let name := fun k => ((keys.filter (fun x => x.1 == k)).map (·.2)).min?
  team.foldl (fun s kg =>
    s.updGang kg.1 fun g => g.mapFlow fun l f =>
      if inMask g.live l && (part.isNone || some f.part == part) then
        { f with part := ((g.sliceKey (l / 4)).bind name).getD f.part }
      else f) s

/-- The live lanes of a team's gang all wait at a REGANG. -/
def Gang.allWait (g : Gang) : Bool := lanes32.all fun l => !inMask g.live l || (g.flowAt l).rgw

/-- Whether a team is one part and one lane group (R144). -/
def State.united (s : State) (key : Nat) : Bool :=
  let fs := (s.team key).flatMap fun kg => (maskLanes kg.2.live).map kg.2.flowAt
  match fs with
  | [] => true
  | f :: rest => rest.all fun x => x.part == f.part && x.pc == f.pc && !x.rgw && !f.rgw

/-! ## Flow -/

/-- Dropping what a part keeps about a word. -/
def Gang.forget (g : Gang) (part : Nat) : Gang :=
  { g with fetched := g.fetched.filter (fun f => f.part != part), waits := g.waits.filter (fun w => w.part != part) }

/-- A lane after its word: at its target, or n words further on (R83, R88). -/
def Flow.next (f : Flow) (n : Nat) (goto : Option Word64) : Flow :=
  match goto with
  | some t => { f with pc := t, rem := 0, cmask := 0#6, yld := 0#2 }
  | none =>
    if f.rem ≤ n then { f with pc := addWords f.pc n, rem := 0, cmask := 0#6, yld := 0#2 }
    else { f with pc := addWords f.pc n, rem := f.rem - n }

/-- Whether a lane that goes on so offers the gang's place (R86). -/
def Flow.offers (f : Flow) (n : Nat) (goto : Option Word64) (high : Bool) : Bool :=
  (goto.isSome || f.rem ≤ n) && (f.yld == 1#2 || (f.yld == 2#2 && high))

/-- BALSTAT.HIGH (R368). -/
def Core.high (c : Core) : Bool := decide (40 < c.imb)

/-- Whether some lanes that leave their clause by a transfer offer the gang's place: a taken branch, EXIT, RTE (R86, R88). -/
def Gang.offersLeaving (g : Gang) (lanes : Mask) (high : Bool) : Bool :=
  (maskLanes lanes).any fun l => (g.flowAt l).yld == 1#2 || ((g.flowAt l).yld == 2#2 && high)

/-- The issuing lanes go on (R83, R86, R88). -/
def Gang.advance (g : Gang) (m0 : Mask) (n : Nat) (goto : List (Nat × Word64)) (high : Bool) : Gang :=
  let dest := fun l => (goto.find? (fun t => t.1 == l)).map (·.2)
  let offer := (maskLanes m0).any fun l => (g.flowAt l).offers n (dest l) high
  let g := g.mapFlow fun l f => if inMask m0 l && inMask g.live l then f.next n (dest l) else f
  { g with offer := g.offer || offer }

/-! ## Ending a launch early (R424, R432, R487) -/

/-- Every gang of the launch stops; the first status stands. -/
def State.haltLaunch (s : State) (l code : Nat) : State :=
  s.updLaunch l fun x => { x with halt := x.halt.orElse (fun _ => some code) }

/-! ## Taking a trap (R420, R423-R426) -/

/-- What the trapping word is: its address for TPC, the word for TINFO0, whether a literal goes with it, whether the
trap is deferred, the part, and where the trapping lane group stands, which is its address but for a literal word (R521). -/
structure TrapAt where
  part : Nat
  tpc : Word64
  word : Word64
  lit : Bool
  defer : Bool
  stand : Word64 := tpc
  deriving DecidableEq, Repr

/-- The lowest slice of a team with a live lane, over its members. -/
def State.lowSlice (s : State) (key : Nat) : Nat :=
  (((s.team key).flatMap fun kg =>
    (kg.2.sliceNums.filter (fun sl => (kg.2.slicePart? sl).isSome)).map (8 * kg.2.member + ·)).min?).getD 0

/-- The waits of BARS words whose arrival stands: a trap between their arrival and their pass leaves them. -/
def Gang.barWaits (g : Gang) : List WaitRec :=
  g.waits.filter fun w => g.fetched.any fun f => f.part == w.part && f.pc == w.pc && kindOf f.word == 0#2 && opcOf f.word == 0xEA#8

/-- A member enters the handler. -/
def Gang.enterTrap (g : Gang) (at_ : TrapAt) (f : Flaw) (entry : Word64) (part tick : Nat) : Gang :=
  let cause := BitVec.ofNat 64 ((if at_.defer then 2 ^ 24 else 0) + g.partSlices at_.part % 256 * 65536 + f.detail % 256 * 256
    + f.code % 256)
  { g with
    trapFlow := (indexFrom 0 g.flow).map fun lf => if inMask g.live lf.1 then lf.2 else Flow.blank
    tcause := cause
    tmark := cause
    tgroup := maskOf fun l => inMask g.live l && (g.flowAt l).part == at_.part && (g.flowAt l).pc == at_.stand
    tpc := at_.tpc
    tlane := tlaneOf f.lanes
    tinfo0 := at_.word
    tinfo1 := f.info1
    tinfo2 := f.info2
    tinfo3 := f.info3
    tstat := BitVec.ofNat 64 ((if at_.lit then 4 else 0) + 1)
    tborn := tick
    pend := g.pend.map fun p => { p with frozen := true }
    fetched := []
    waits := g.barWaits
    flow := (indexFrom 0 g.flow).map fun lf =>
      if inMask g.live lf.1 then ⟨entry, 0#64, 0, 0#6, 0#2, false, part, 0#64⟩ else lf.2 }

/-- The team of a gang takes a trap: each member with its own report, a member without the cause with no lanes; a trap
met in a handler ends the launch instead (R424). -/
def State.takeTrap (s : State) (key : Nat) (at_ : TrapAt) (fl : List (Nat × Flaw)) : State :=
  let team := s.team key
  if team.any (fun kg => kg.2.inTrap) then s.haltLaunch ((team.map (·.2.launch)).headD 0) 0x7E
  else
    let none_ : Flaw := match fl with
      | [] => flaw 0 0 0#32
      | f :: _ => { f.2 with lanes := 0#32 }
    let part := s.lowSlice key
    team.foldl (fun s kg =>
      let f := ((fl.find? (fun x => x.1 == kg.1)).map (·.2)).getD none_
      s.updGang kg.1 fun g => g.enterTrap at_ f (s.roleOf g).trapent part s.tick) s

/-- A trap at the issue of the current word: the first cause in the order of R450 over the members, and each member
that meets it with its own report (R423). -/
def State.trapNow (s : State) (fl : List (Nat × Flaw)) : State :=
  match (fl.map (·.2)).foldl (fun a f => Flaw.first? a (some f)) none with
  | none => s
  | some f =>
    s.takeTrap s.cur.key { part := s.cur.part, tpc := s.cur.pc, word := s.cur.word, lit := s.cur.lit, defer := false }
      (fl.filter (fun x => x.2.code == f.code))

/-- A trap of the current word at which every seat reports the same, with its active lanes. -/
def State.trapWord (s : State) (maskField code detail : Nat) (info1 info2 : Word64) : State :=
  s.trapNow ((s.seats maskField).map fun x => (x.key, flaw code detail x.act info1 info2))

/-! ## Returning from a trap (R431, R465) -/

/-- Whether the trapping group re-enters its address even under RTE.NEXT: a fetch that failed, or a clause end (R465,
R521). -/
def Gang.sameAddress (g : Gang) (rem : Nat) : Bool :=
  let code := fieldOf g.tmark 0 8
  let detail := fieldOf g.tmark 8 8
  (code == 0x02 && detail == 6 && rem == 0) || (code == 0x0C && g.tinfo0 == 0#64)

/-- Where the trapping group resumes. `len` gives the length of the clause whose header stands at an address. -/
def Gang.resume (g : Gang) (f : Flow) (next : Bool) (len : Word64 → Nat) : Flow :=
  if g.tstat.getLsbD 1 then { f with pc := g.tpc, rem := 0, cmask := 0#6, yld := 0#2, rgw := false, word := 0#64 }
  else if g.tmark.getLsbD 24 || !next || g.sameAddress f.rem then f
  else if fieldOf g.tmark 0 8 == 0x02 && fieldOf g.tmark 8 8 == 1 then { f with pc := addWords f.pc (len f.pc + 1) }
  else f.next (if g.tstat.getLsbD 2 then 2 else 1) none

/-- The trapping lane group as a context image shows it (R443): in the slices that TCAUSE names, the group that would
have issued. -/
def Gang.trapGroup (g : Gang) : Mask :=
  let was : Gang := { g with flow := g.trapFlow }
  maskOf fun l => inMask g.live l && g.tmark.getLsbD (16 + l / 4) && was.runs l &&
    was.slicePc? (l / 4) == some ((was.flowAt l).pc.toNat)

/-- A member leaves its handler. -/
def Gang.leaveTrap (g : Gang) (next : Bool) (len : Word64 → Nat) : Gang :=
  { g with
    flow := (indexFrom 0 g.flow).map fun lf =>
      if inMask g.live lf.1 then
        let f := g.trapFlow.getD lf.1 Flow.blank
        if inMask g.tgroup lf.1 then g.resume f next len else f
      else lf.2
    trapFlow := []
    tstat := g.tstat &&& ~~~3#64
    pend := g.pend.map fun p => { p with frozen := false }
    fetched := [] }

/-- The words of a clause whose header stands at an address, 0 where there is none. -/
def State.clauseLen (s : State) (pno core : Nat) (a : Word64) : Nat :=
  if s.headerAt pno core a then fieldOf (s.fetchAt pno core a) 52 4 + 1 else 0

/-- The team returns from its handler: flow restored, windows running again, parts as they stood and split where they
now stand apart. -/
def State.leaveTrap (s : State) (key : Nat) (next : Bool) : State :=
  let team := s.team key
  let s := team.foldl (fun s kg =>
    s.updGang kg.1 fun g => (g.leaveTrap next (s.clauseLen (s.partOf g) (coreOf kg.1))).flush s.tick) s
  -- split each saved part by where its slices now issue
  let parts := ((s.team key).flatMap fun kg => kg.2.sliceNums.filterMap kg.2.slicePart?).dedup
  parts.foldl (fun s p => s.resplit key (some p)) s

/-! ## Register operand checks (R456) -/

/-- The first operand at fault: CODE, DETAIL and register. -/
def operandFault (limit : Nat) (ops : List Opnd) : Option (Nat × Nat × Nat) :=
  match ops.find? (fun o => limit ≤ o.n) with
  | some o => some (0x04, o.det, o.n)
  | none =>
    (ops.find? (fun o => (o.len == 2 && o.n % 2 != 0) || (o.len == 4 && o.n % 4 != 0) || limit < o.n + o.len)).map fun o =>
      (0x05, if o.len == 2 && o.n % 2 != 0 then 1 else if o.len == 4 && o.n % 4 != 0 then 2 else 3, o.n)

/-- The registers that some operands take. -/
def opndRegs (ops : List Opnd) : List Nat := ops.flatMap fun o => (List.range o.len).map (o.n + ·)

/-! ## The issue of a word -/

/-- What a member's part of a word gives: results with the lanes they are written in, the lanes that transfer, and
whether the word stays. -/
structure Eff where
  outs : List (Mask × Out) := []
  goto : List (Nat × Word64) := []
  stay : Bool := false
  deriving DecidableEq, Repr

/-- A member's answer: the state with its effect, a cause, or a wait, with what the wait leaves in the state. -/
inductive SeatRes where
  | ok (s : State) (e : Eff)
  | trap (f : Flaw)
  | wait (f : State → State)

/-- The members' answers together. -/
structure Ran where
  state : State
  effs : List (Seat × Eff)
  flaws : List (Nat × Flaw)
  waits : List (State → State)

/-- Running the members in order, each on the state the one before left. -/
def runSeats (body : Seat → State → SeatRes) : List Seat → Ran → Ran
  | [], r => r
  | x :: xs, r =>
    match body x r.state with
    | .ok t e => runSeats body xs { r with state := t, effs := r.effs ++ [(x, e)] }
    | .trap f => runSeats body xs { r with flaws := r.flaws ++ [(x.key, f)] }
    | .wait f => runSeats body xs { r with waits := r.waits ++ [f] }

/-- Words in the current instruction: two with a literal (R94). -/
def State.curWords (s : State) : Nat := if s.cur.lit then 2 else 1

/-- One member's results, written; then the unit's lanes go on. -/
def State.finishSeat (s : State) (x : Seat) (e : Eff) : State :=
  s.updGang x.key fun g =>
    let g := (e.outs.foldl (fun g mo => g.write s.tick mo.1 mo.2) g).flush s.tick
    if e.stay then g else g.advance x.m0 s.curWords e.goto (s.core (coreOf x.key)).high

/-- Whether a word of the MEM class waits behind an ACQ (R248): all of R233 but those that access no memory. -/
def waitsForAcq : Instr → Bool
  | .ld .. | .st .. | .ldt .. | .stt .. | .ldg .. | .sts .. | .ldb .. | .tmov .. | .atom .. | .atomr .. | .acq ..
  | .rel .. | .fence .. | .cbdef .. | .cbpushRes .. | .cbpushCommit .. | .cbpopTake .. | .cbpopFree .. | .cbpopStat .. => true
  | _ => false

/-- Whether a word waits at issue at a member: for a result (R105), a full token count (R43), or an ACQ (R248). -/
def Seat.stalls (x : Seat) (i : Instr) : Bool :=
  x.g.lookStall x.m0 (opndRegs i.opnds) ((i.maskField :: i.maskReads ++ i.maskWrites).filter (· != 0))
    || (i.tokOf != 0 && x.g.tok i.tokOf == 15) || (waitsForAcq i && !x.g.acqs.isEmpty)

/-- Whether a word ends its gang's IDEM region (R374). -/
def endsIdem : Instr → Bool
  | .idemEnd | .barv .. | .bars .. | .acq .. | .rel .. | .cbpushRes .. | .cbpushCommit .. | .cbpopTake .. | .cbpopFree ..
  | .cbpopStat .. | .qpost .. | .evfire .. | .exit .. => true
  | _ => false

/-- A gang's region ends. -/
def State.endIdem (s : State) (key : Nat) : State := s.updGang key fun g => { g with idem := none }

/-- The issue of a word (R105, R419, R449, R450, R456): operands, whatever the mask, waits at issue, the members'
parts in member order, then results, windows and flow. A word that traps has no effect; a word that waits leaves the state
as it is. `early` gives the causes of R450 that stand before an operand fault: an unsuitable slot, or a transfer that names
no clause header. -/
def issue (i : Instr) (body : Seat → State → SeatRes) (s : State)
    (early : Seat → State → Option Flaw := fun _ _ => none) : State :=
  let seats := s.seats i.maskField
  match seats with
  | [] => s
  | x0 :: _ =>
    let limit := 16 * x0.g.allot
    match operandFault limit i.opnds with
    | some (code, detail, n) =>
      match seats.filterMap fun x => (early x s).map fun f => (x.key, f) with
      | [] => s.trapWord i.maskField code detail (BitVec.ofNat 64 n) (BitVec.ofNat 64 limit)
      | fs => s.trapNow fs
    | none =>
      if seats.any (·.stalls i) then s
      else
        let s1 := seats.foldl (fun s x => s.updGang x.key (fun g => g.count x.m0)) s
        let r := runSeats body seats ⟨s1, [], [], []⟩
        match r.flaws, r.waits with
        | f :: fs, _ => s.trapNow (f :: fs)
        | [], w :: _ => w s
        | [], [] =>
          let t := r.effs.foldl (fun t xe => t.finishSeat xe.1 xe.2) r.state
          let t := if endsIdem i then seats.foldl (fun t x => t.endIdem x.key) t else t
          let t := if r.effs.all (fun xe => xe.2.stay) then t else t.updGang s.cur.key (fun g => g.forget s.cur.part)
          t.resplit s.cur.key (some s.cur.part)

/-- A word that waits at issue and leaves no trace. -/
def stall : SeatRes := .wait id

/-- The record of a part that waits at an address. -/
def Gang.waitAt? (g : Gang) (part : Nat) (pc : Word64) : Option WaitRec :=
  g.waits.find? fun w => w.part == part && w.pc == pc

/-- Whether a part waits at an address. -/
def Gang.waitsAt (g : Gang) (part : Nat) (pc : Word64) : Bool := (g.waitAt? part pc).isSome

/-- The next identity when the word at which the unit stands issued: now, or when it began to wait (R342). -/
def State.issuedAt (s : State) : Nat :=
  (((s.gang? s.cur.key).bind fun g => g.waitAt? s.cur.part s.cur.pc).map (·.since)).getD s.nextId

/-- The unit waits at a word it has issued: the word stays with the team, and the part counts as waiting (R85). -/
def State.holdWord (s : State) (waits merged : Bool) : State :=
  s.updGang s.cur.key fun g =>
    let g := g.forget s.cur.part
    { g with fetched := g.fetched ++ [⟨s.cur.part, s.cur.pc, s.cur.word, merged⟩]
             waits := if waits then g.waits ++ [⟨s.cur.part, s.cur.pc, s.issuedAt⟩] else g.waits }

/-- The lanes of the unit wait as at a REGANG (R18), each with its word. -/
def State.waitRegang (s : State) : State :=
  ((s.seats 0).foldl (fun s x =>
    s.updGang x.key fun g => g.mapFlow fun l f => if inMask x.m0 l then { f with rgw := true, word := s.cur.word } else f)
    (s.updGang s.cur.key fun g => g.forget s.cur.part)).resplit s.cur.key (some s.cur.part)

/-- Whether the unit stands merged at its word, or is the whole team as one group (R144, R372, R431). -/
def State.rejoined (s : State) : Bool :=
  s.united s.cur.key ||
    ((s.gang? s.cur.key).elim false fun g =>
      g.fetched.any fun f => f.part == s.cur.part && f.pc == s.cur.pc && f.merged)

/-- Results in the active lanes of a member. -/
def Seat.give (x : Seat) (os : List Out) : List (Mask × Out) := os.map fun o => (x.act, o)

/-- A word whose members each compute results from what they read, at once. -/
def pureWord (i : Instr) (f : Seat → State → List Out) (s : State) : Next :=
  .next (issue i (fun x t => .ok t { outs := x.give (f x t) }) s)

/-- A word that acts once for the unit, through its lowest member. -/
def onceWord (i : Instr) (f : Seat → State → SeatRes) (s : State) : Next :=
  .next (issue i (fun x t => if x.first then f x t else .ok t {}) s)

/-- A word of each member, with the causes that stand before an operand fault. -/
def seatWord (i : Instr) (f : Seat → State → SeatRes) (s : State)
    (early : Seat → State → Option Flaw := fun _ _ => none) : Next := .next (issue i f s early)

/-! ## Results -/

/-- A vector register result of one register, or of a pair. -/
def outReg (len n : Nat) (v : Lanes Pair) : List Out :=
  if len = 2 then [.reg n (VReg.ofLanes (v.map (·.1))), .reg (n + 1) (VReg.ofLanes (v.map (·.2)))]
  else [.reg n (VReg.ofLanes (v.map (·.1)))]

/-- A mask result. -/
def outMask (k : Nat) (f : Nat → Bool) : Out := .mask k (maskOf f)

/-- A uniform 64-bit integer in a pair (R112). -/
def outWord (n : Nat) (w : Word64) : List Out := outReg 2 n (.uni (intPair w))

/-- A source operand of a member, read through a permutation (R45, R46). -/
def Seat.src (x : Seat) (len : Nat) (n : VNum) (p : Perm) : Lanes Pair :=
  permuted (x.g.rd len n.toNat) p x.g.width x.act (zeroOf len)

/-- A long-latency word: its results are computed at issue and land by a later step (R105). -/
def longWord (i : Instr) (look : BitVec 4) (tok : Nat) (regs masks : List Nat) (f : Seat → List Out) (s : State) : Next :=
  seatWord i (fun x t => .ok (t.addPend x look.toNat regs masks x.act (f x) false true tok).2 {}) s

/-- A lane of a lane-wise value. -/
def pairLane (v : Lanes Pair) (l : Nat) : Pair := v.at zeroPair l

/-! ## Significance (R185, R458, R459) -/

/-- SIGFLOOR.FLOOR. -/
def Gang.floor (g : Gang) : Nat := fieldOf g.sigfloor 0 6

/-- The trap that a significance floor makes of a result, with the DETAIL for a lane. -/
def floorFlaw (x : Seat) (c : FpCls) (v : Lanes Pair) (detail : Nat → Nat) : Option Flaw :=
  if x.g.floor = 0 || x.g.inTrap then none
  else
    let k := fun l => storedK c (pairLane v l)
    let low := maskOf fun l => inMask x.act l && decide (k l < x.g.floor)
    match lowLane? low with
    | none => none
    | some l =>
      let p := pairLane v l
      let kmin := (maskLanes low).foldl (fun m l => min m (k l)) 63
      let odd := if c == .f64 then p.2.tag.toNat else 0
      some { code := 0x08, detail := detail l, lanes := low
             info1 := BitVec.ofNat 64 (x.g.floor + kmin * 256 + p.1.tag.toNat * 65536 + odd * 2 ^ 24)
             info2 := if c == .f64 then p.val else (p.1.val).setWidth 64
             info3 := 0#64 }

/-- A word whose lane-wise FP result is checked against the floor. -/
def fpWord (i : Instr) (c : FpCls) (d : Nat) (f : Seat → Lanes Pair) (detail : Seat → Nat → Nat) (s : State) : Next :=
  seatWord i (fun x t =>
    match floorFlaw x c (f x) (detail x) with
    | some w => .trap w
    | none => .ok t { outs := x.give (outReg (clsLen c) d (f x)) }) s

/-- A long-latency FP word, checked against the floor (R422). -/
def fpLongWord (i : Instr) (c : FpCls) (d : Nat) (look : BitVec 4) (f : Seat → Lanes Pair) (detail : Seat → Nat → Nat)
    (s : State) : Next :=
  seatWord i (fun x t =>
    match floorFlaw x c (f x) (detail x) with
    | some w => .trap w
    | none =>
      let regs := (List.range (clsLen c)).map (d + ·)
      .ok (t.addPend x look.toNat regs [] x.act (outReg (clsLen c) d (f x)) false true 0).2 {}) s

end Sys2Proof.Machine
end

