-- ==== Sys2Proof/Machine/Order.lean ====
section
/-! DEFINITION. The order machine (R255-R276): what is outstanding, the range table, releases and acquires of
synchronisation objects, deferred traps, the launch end's drain, atomics' reads, and the charging of bandwidth. -/

namespace Sys2Proof.Machine

/-! ## Streams -/

/-- A stream queue of a gang, oldest entry first. -/
def Gang.stream (g : Gang) (st : Nat) : List Entry := Tab.at g.streams [] st
/-- Setting a stream queue; an empty queue is not listed. -/
def Gang.setStream (g : Gang) (st : Nat) (es : List Entry) : Gang :=
  { g with streams := if es.isEmpty then Tab.del g.streams st else Tab.put g.streams st es }

/-- Changing the head entry of a stream. -/
def Gang.updHead (g : Gang) (st : Nat) (f : Entry → Entry) : Gang :=
  match g.stream st with
  | e :: es => g.setStream st (f e :: es)
  | [] => g

/-- An entry leaves the head of its stream. -/
def Gang.popHead (g : Gang) (st : Nat) : Gang := g.setStream st ((g.stream st).drop 1)

/-- An entry enters the tail of a stream (R259). -/
def State.enqueue (s : State) (key st : Nat) (e : Entry) : State :=
  s.updGang key fun g => g.setStream st (g.stream st ++ [e])

/-- The gang that a context number names: the live gang of the context, or, from 64 up, a gang of the launch
`ctx / 64`, retired or not, whose accesses may still be under way. -/
def State.keyOf (s : State) (core ctx : Nat) : Option Nat :=
  if ctx < 64 then s.keyAt core ctx else some (ctx / 64 * 65536 + core * 64 + ctx % 64)

/-- The instructions whose entries access memory; fences, commands and posts have no piece of their own (R256). -/
def isAccess : Instr → Bool
  | .ld .. | .st .. | .ldt .. | .stt .. | .ldg .. | .sts .. | .ldb .. | .tmov .. | .atom .. | .atomr .. | .ctxsave ..
  | .ctxload .. | .fld .. | .fst .. | .fstRadd .. | .fat .. | .fmcst .. => true
  | _ => false

/-- The accesses of a gang that have not performed; a fabric access counts as performed once it is sent (R411). -/
def State.openEntries (s : State) (key : Nat) : List Nat :=
  (s.gang? key).elim [] fun g =>
    (g.streams.filter (fun st => st.1 < 16)).flatMap fun st =>
      (st.2.filter fun (e : Entry) => isAccess e.instr).map fun (e : Entry) => e.id

/-- The accesses of one stream of a gang. -/
def State.openIn (s : State) (key st : Nat) : List Nat :=
  ((s.gang? key).elim [] fun g => ((g.stream st).filter fun (e : Entry) => isAccess e.instr).map fun (e : Entry) => e.id)

/-- Whether a write of a gang stands in a window path (R267, R268); of one stream, when one is named. -/
def State.hasUndrained (s : State) (key : Nat) (st : Option Nat) : Bool :=
  s.log.any fun w => w.gang == key && w.inPath && w.op.isNone && (st.isNone || st == some w.stream)

/-! ## Binding (R27, R227) -/

/-- The object that a launch binds an address under a handle to. -/
def State.boundTo (s : State) (l : Nat) (a : Word64) : Obj :=
  match s.launch? l with
  | none => .fin l
  | some x =>
    let hit := x.binds.find? fun b =>
      hndOf b.base == hndOf a && offOf b.base ≤ offOf a && offOf a < offOf b.base + b.pieces * 65536
    match hit with
    | some b => if b.kind = 1 then .token x.pno b.id else if b.kind = 2 then .barrier l b.id else .fin l
    | none => .fin l

/-! ## Releases (R268) -/

/-- The release buffer of an object. -/
def State.buf (s : State) (o : Obj) : Buf := (s.bufs.find? (fun b => b.obj == o)).getD ⟨o, 1, []⟩

/-- Stamping writes into the buffer of an object with its next release number. -/
def State.stamp (s : State) (o : Obj) (ws : List Nat) : State :=
  let b := s.buf o
  let new := ws.filter fun w => !(b.writes.map (·.2)).contains w
  let b' : Buf := ⟨o, b.next + 1, b.writes ++ new.map (fun w => (b.next, w))⟩
  { s with bufs := if s.bufs.any (fun x => x.obj == o) then s.bufs.map (fun x => if x.obj == o then b' else x)
                   else s.bufs ++ [b'] }

/-- The writes of a gang that its launch binds to an object. -/
def State.scopeOf (s : State) (key : Nat) (o : Obj) : List Nat :=
  (s.log.filter (fun w => w.gang == key && w.op.isNone && w.obj == o)).map (fun (w : GWrite) => w.id)

/-- A gang releases an object. -/
def State.releaseObj (s : State) (key : Nat) (o : Obj) : State := s.stamp o (s.scopeOf key o)

/-- A gang releases every object that it has written bytes of (R270, R375). -/
def State.releaseAll (s : State) (key : Nat) : State :=
  let os := ((s.log.filter (fun w => w.gang == key && w.op.isNone)).map (fun (w : GWrite) => w.obj)).dedup
  os.foldl (fun s o => s.releaseObj key o) s

/-- The writes of an engine operation enter the operation's buffer (R275). -/
def State.releaseOp (s : State) (core eng num : Nat) : State :=
  s.stamp (.op core eng num)
    ((s.log.filter (fun w => w.op == some (core, eng, num))).map (fun (w : GWrite) => w.id))

/-! ## Acquires (R269) -/

/-- One write reaches a quarter's view or copy by an acquire. -/
def State.acquireWrite (s : State) (q id : Nat) : State :=
  match s.log.find? (fun w => w.id == id) with
  | none => s
  | some w =>
    if w.prop = 1 then s.propagateWrite w q
    else if w.prop = 2 then (if w.got.getLsbD q then s else s.replicateWrite w q)
    else s

/-- The writes of an object's buffer reach a quarter, in ascending release number. -/
def State.acquireIn (s : State) (q : Nat) (o : Obj) : State :=
  ((s.buf o).writes.insertionSort (fun a b => a.1 ≤ b.1)).foldl (fun s w => s.acquireWrite q w.2) s

/-- A gang acquires an object. -/
def State.acquire (s : State) (key : Nat) (o : Obj) : State := s.acquireIn (quarterOf (coreOf key)) o

/-! ## Range table (R274, R473) -/

/-- Whether any of some addresses lies in some ranges, and the lowest position of one that does. -/
def meets (rs : List (Nat × Nat)) (cells : List Nat) : Option Nat :=
  ((indexFrom 0 cells).find? fun ia => rs.any fun r => r.1 ≤ ia.2 && ia.2 < r.1 + r.2).map (·.1)

/-- Two lists of ranges overlap. -/
def rangesMeet (xs ys : List (Nat × Nat)) : Bool := xs.any fun x => ys.any fun y => x.1 < y.1 + y.2 && y.1 < x.1 + x.2

/-- The rows of a partition's range table. -/
def State.rangesOf (s : State) (pno : Nat) : List Range := Tab.at s.ranges [] pno

/-- Whether an operation with these ranges may register (R274). -/
def State.rangesFree (s : State) (pno : Nat) (src dst : List (Nat × Nat)) : Bool :=
  (s.rangesOf pno).all fun r => !(rangesMeet src r.dst || rangesMeet dst r.dst || rangesMeet dst r.src)

/-- Entering an operation's ranges. -/
def State.addRange (s : State) (pno : Nat) (r : Range) : State :=
  { s with ranges := Tab.upd s.ranges [] pno (· ++ [r]) }

/-- An operation's ranges leave the table. -/
def State.dropRange (s : State) (pno core eng num : Nat) : State :=
  let keep := fun (rs : List Range) => rs.filter (fun r => !(r.core == core && r.eng == eng && r.num == num))
  { s with ranges := Tab.upd s.ranges [] pno keep }

/-- How a piece meets the table, each as the DETAIL (1 at a destination, 2 for a write at a source), the row, and the
position of the lowest byte that meets it; a tag byte counts as the bytes of its element. -/
def State.pieceMeets (s : State) (pno : Nat) (p : Piece) : List (Nat × Range × Nat) :=
  let at_ := fun (rs : List (Nat × Nat)) =>
    match meets rs p.cells with
    | some i => some i
    | none => (meets rs p.tagCells).map fun j => 4 * j - offOf p.haddr % 4
  (s.rangesOf pno).flatMap fun r =>
    ((at_ r.dst).map fun i => (1, r, i)).toList ++
      (if p.wr then ((at_ r.src).map fun i => (2, r, i)).toList else [])

/-- The lowest conflicting byte of a piece: DETAIL, row and address (R473); at one byte the first row of the table stands,
its destination before its source. -/
def State.pieceConflict (s : State) (pno : Nat) (p : Piece) : Option (Nat × Range × Word64) :=
  match s.pieceMeets pno p with
  | [] => none
  | m :: ms =>
    let low := ms.foldl (fun a b => if b.2.2 < a.2.2 then b else a) m
    some (low.1, low.2.1, mkAddr (hndOf p.haddr) (offOf p.haddr + low.2.2))

/-- TINFO2 of a range-lock trap (R473). -/
def rangeInfo (r : Range) : Word64 := BitVec.ofNat 64 (r.num % 2 ^ 32 * 2 ^ 32 + r.core * 2 ^ 22 + r.eng)

/-! ## Deferred traps (R419, R502) -/

/-- Fabric access traps wait in the issue order of their words (R502); every other trap goes to the end. -/
def queueDeferred (ds : List Deferred) (d : Deferred) : List Deferred :=
  match ds with
  | [] => [d]
  | x :: rest => if d.code = 0x12 && x.code = 0x12 && d.seq < x.seq then d :: x :: rest else x :: queueDeferred rest d

/-- A deferred trap of a gang: nothing when no lane of the gang lives; a double trap when its cause is met while a handler
runs (R424), but for a negative fabric reply to a word that was issued before its trap (R502); otherwise held for the next word
boundary. -/
def State.defer (s : State) (key : Nat) (d : Deferred) : State :=
  match s.gang? key with
  | none => s
  | some g =>
    if !g.alive then s
    else if g.inTrap && (decide (g.tborn < d.seq) || d.code != 0x12) then s.haltLaunch g.launch 0x7E
    else s.setGang key { g with deferred := queueDeferred g.deferred d }

/-! ## Engine operations as synchronisation objects (R270, R291) -/

/-- A gang observes the completion of the operations 1 to v of an engine. -/
def State.observe (s : State) (key core eng v : Nat) : State :=
  (s.bufs.filter (fun b => match b.obj with
    | .op c e n => c == core && e == eng && n ≤ v
    | _ => false)).foldl (fun s b => s.acquire key b.obj) s

/-- The pulses of a line up to event n, oldest first; the counts go round at 2^32 (R290), so the newest pulses that lie
ahead of n are left out. -/
def pulsesUpTo (ps : List (Nat × Nat × Nat)) (n : BitVec 32) : List (Nat × Nat × Nat) :=
  (ps.reverse.dropWhile fun p => decide (0 < (BitVec.ofNat 32 p.1 - n).toInt)).reverse

/-- A gang observes the operations whose pulses a line counted up to event n (R291). -/
def State.observeLine (s : State) (key core line : Nat) (n : BitVec 32) : State :=
  (pulsesUpTo (Tab.at (s.core core).pulses [] line) n).foldl (fun s p => s.acquire key (.op core p.2.1 p.2.2)) s

/-- A token of a gang counts one operation less; when it clears, the gang observes the engine operations that it has
counted (R43, R270). -/
def State.dropTok (s : State) (key tok : Nat) : State :=
  let s := s.updGang key fun g => g.tokSub tok
  match s.gang? key with
  | none => s
  | some g =>
    if tok = 0 || g.tok tok != 0 || (Tab.at g.owed [] tok).isEmpty then s
    else (Tab.at g.owed [] tok).foldl (fun s o => s.acquire key (.op (coreOf key) o.1 o.2))
      (s.setGang key { g with owed := Tab.del g.owed tok })

/-- A pending result lands in every member of the team that waits for it, and its token is released. -/
def State.land (s : State) (key id : Nat) (outs : List Out) : State :=
  (s.team key).foldl (fun s kg =>
    match kg.2.pend.find? (fun p => p.id == id) with
    | some p => (s.updGang kg.1 fun g => g.land s.tick id outs).dropTok kg.1 p.tok
    | none => s) s

/-- A source's event on the event matrix (R290): every line whose cell is set counts it; the operation, when there is
one, is noted with the event's number. -/
def Core.pulse (c : Core) (src : Nat) (op : Option (Nat × Nat)) : Core :=
  (List.range 16).foldl (fun c line =>
    if (Tab.at c.cells 0#16 src).getLsbD line then
      let n := Tab.at c.lc 0#32 line + 1#32
      let c := { c with lc := Tab.put c.lc line n }
      match op with
      | some (eng, num) => { c with pulses := Tab.upd c.pulses [] line (· ++ [(n.toNat, eng, num)]) }
      | none => c
    else c) c

/-- Whether a line has an event that a count has not consumed (R291, R295). -/
def lineAhead (lc seen : BitVec 32) : Bool := decide (0 < (lc - seen).toInt)

/-- A sink's gate lets the next start through (R295). -/
def Core.gateOpen (c : Core) (sink : Nat) : Bool :=
  match Tab.find? c.gates sink with
  | some g => lineAhead (Tab.at c.lc 0#32 g.line) g.gseen
  | none => true

/-- A gated start consumes one event. -/
def Core.gateTake (c : Core) (sink : Nat) : Core :=
  match Tab.find? c.gates sink with
  | some g => { c with gates := Tab.put c.gates sink { g with gseen := g.gseen + 1#32 } }
  | none => c

/-- Event sources of sinks (R290, R295). -/
def rowOfSink (sink : Nat) : Nat := sink

/-! ## Barriers (R371) -/

/-- The gang key of a designator in a launch, while the gang lives. -/
def Launch.keyOf? (l : Launch) (d : BitVec 32) : Option Nat := Tab.find? l.gangs d.toNat

/-- The designator of a gang (R23). -/
def Gang.desig (g : Gang) : BitVec 32 :=
  BitVec.ofNat 32 (g.role % 4 * 2 ^ 30 + g.member % 4 * 2 ^ 28 + g.inst % 2 ^ 28)

/-- The groups a gang belongs to, ascending, with their numbers (R44). -/
def State.groupsOf (s : State) (g : Gang) : List (Nat × Group) :=
  match s.launch? g.launch with
  | none => []
  | some l => (indexFrom 0 l.groups).filter fun ig => ig.2.members.contains g.desig

/-- The released count of a member, none when its retirement release has been taken. -/
def State.relCount (s : State) (l : Launch) (g : Nat) (d : BitVec 32) : Option Nat :=
  match l.keyOf? d with
  | none => none
  | some k => if l.gone.contains k then none else (s.gang? k).map fun x => Tab.at x.rel 0 g

/-- The phase count of a group: the smallest released count over its members; it stands when every member is gone. -/
def State.phaseOf (s : State) (l : Launch) (g : Nat) (grp : Group) : Nat :=
  match (grp.members.filterMap (s.relCount l g)).min? with
  | some p => max grp.phase p
  | none =>
    -- every count is unbounded: the barrier has passed every arrival
    grp.members.foldl (fun m d => max m (((l.keyOf? d).bind s.gang?).elim 0 fun x => Tab.at x.arr 0 g)) grp.phase

/-- The phase counts of a launch follow its members. -/
def State.rephase (s : State) (l : Nat) : State :=
  s.updLaunch l fun x =>
    { x with groups := (indexFrom 0 x.groups).map fun ig => { ig.2 with phase := s.phaseOf x ig.1 ig.2 } }

/-- P of a group for a gang. -/
def State.phase (s : State) (l g : Nat) : Nat :=
  ((s.launch? l).bind fun x => x.groups[g]?).elim 0 (·.phase)

/-! ## The window and store of everything (R271) -/

/-- The writes of some launches reach every image, view and copy, and every window path of their partition and its host
store queue drain, oldest first (R271). -/
def State.drainAll (s : State) (launches : List Nat) (pno : Nat) : State :=
  let s := ((s.log.filter (fun w => w.pno == pno && w.inPath)).map (fun (w : GWrite) => w.id)).foldl
    (fun s i => match s.log.find? (fun w => w.id == i) with
      | some w => if w.inPath then s.drainUpTo w else s
      | none => s) s
  let ids := (s.log.filter (fun w => launches.contains w.launch)).map (fun (w : GWrite) => w.id)
  (ids.foldl State.everywhere s).drainHostAll pno

/-! ## Charging (R363) -/

/-- The stack that holds a piece of device memory (R224): where the management or HMIGR has put it, else by its
number. -/
def State.stackOf (s : State) (piece : Nat) : Nat := (Tab.find? s.pieceStack piece).getD (piece / 786432 % 8)

/-- The queue that carried a launch. -/
def State.queueOf (s : State) (l : Nat) : Nat := (s.launch? l).elim 0 (·.queue)

/-- Units used of a resource (stack channel 0-7, fabric plane 8-15) are charged to the queue of a launch; a peer's request has
none. -/
def State.charge (s : State) (res l units : Nat) : State :=
  match s.launch? l with
  | some x => { s with used := Tab.upd s.used 0 (res * 65536 + x.queue) (· + units) }
  | none => s

/-- The 32-byte sector of device memory that some bytes lie in is charged to its stack's channel, unless it is among those
still to be charged. -/
def State.chargeSector (s : State) (l : Nat) (c : Cls) (cells rest : List Nat) : State :=
  match c, cells with
  | .dev _ _, a :: _ => if rest.any fun b => b / 32 == a / 32 then s else s.charge (s.stackOf (a / 65536)) l 1
  | _, _ => s

/-- The sectors of a piece, of its bytes and of its tags, are charged, once for the pieces of an access that share one: `rest`
are those still to perform. -/
def State.chargePiece (s : State) (l : Nat) (p : Piece) (rest : List Piece) : State :=
  let rest := rest.filter fun q => q.wr == p.wr
  (s.chargeSector l p.cls p.cells (rest.flatMap (·.cells))).chargeSector l p.tagCls p.tagCells (rest.flatMap (·.tagCells))

/-- The sectors of pieces that are read, or written, at once. -/
def State.chargePieces (s : State) (l : Nat) (ps : List Piece) : State :=
  (indexFrom 1 ps).foldl (fun (s : State) np => s.chargePiece l np.2 (ps.drop np.1)) s

end Sys2Proof.Machine
end

