-- ==== Sys2Proof/Machine/Access.lean ====
section
/-! DEFINITION. Accesses of gangs to memory: sizes and addresses (R96, R241), the checks at issue (R467-R469), the
entries of loads, stores and atomics (R256), and their performing: pieces (R260), range locks (R473), poison (R488),
atomics at the service gang (R244-R247, R266), fences (R267). -/

namespace Sys2Proof.Machine

/-! ## Sizes and data (R96, R236, R237) -/

/-- Bytes of an access. -/
def sizeBytes : Size → Nat
  | .w8 | .s8 | .z8 | .e4m3 | .e5m2 => 1
  | .w16 | .s16 | .z16 | .f16 | .bf16 => 2
  | .w32 | .f32 => 4
  | .w64 | .f64 => 8
  | .w128 => 16

/-- The format of a size code that names one. -/
def sizeCls? : Size → Option FpCls
  | .f16 => some .f16
  | .bf16 => some .bf16
  | .e4m3 => some .e4m3
  | .e5m2 => some .e5m2
  | .f64 => some .f64
  | .f32 => some .f32
  | _ => none

/-- Both images of a pair. -/
def pairImgs (p : Pair) : List Img := [p.1, p.2]

/-- The images of a loaded datum (R236). -/
def loadImgs (sz : Size) (bs : List Byte) : List Img :=
  let n := leNat bs
  match sz with
  | .w8 | .z8 | .w16 | .z16 | .w32 => [intImg (BitVec.ofNat 32 n)]
  | .s8 => [intImg (BitVec.ofInt 32 (toSigned 8 n))]
  | .s16 => [intImg (BitVec.ofInt 32 (toSigned 16 n))]
  | .w64 => pairImgs (intPair (BitVec.ofNat 64 n))
  | .w128 => pairImgs (intPair (BitVec.ofNat 64 n)) ++ pairImgs (intPair (BitVec.ofNat 64 (n / 2 ^ 64)))
  | .f16 => [(loadedImg .f16 n).1]
  | .bf16 => [(loadedImg .bf16 n).1]
  | .e4m3 => [(loadedImg .e4m3 n).1]
  | .e5m2 => [(loadedImg .e5m2 n).1]
  | .f32 => [(loadedImg .f32 n).1]
  | .f64 => pairImgs (loadedImg .f64 n)

/-- The images that a lane receives in place of poisoned data (R488): the canonical NaN, or integer zeros. -/
def poisonImgs (sz : Size) : List Img :=
  match sz with
  | .f64 => [⟨0x00000000#32, 0x20#8⟩, ⟨0x7FF80000#32, 0x00#8⟩]
  | .f16 | .bf16 | .e4m3 | .e5m2 | .f32 => [⟨0x7FC00000#32, 0x20#8⟩]
  | .w64 => pairImgs (intPair 0#64)
  | .w128 => pairImgs (intPair 0#64) ++ pairImgs (intPair 0#64)
  | _ => [intImg 0#32]

/-- The images of one element or pair loaded with its tags (R239). -/
def tagImgs (sz : Size) (bs tags : List Byte) : List Img :=
  let n := leNat bs
  let t0 := tags.getD 0 0#8
  if sz == .w64 then
    [⟨BitVec.ofNat 32 n, t0⟩, ⟨BitVec.ofNat 32 (n / 2 ^ 32), (tags.getD 1 0#8) &&& 1#8⟩]
  else
    let k := t0.toNat % 32
    [⟨BitVec.ofNat 32 n, if 27 ≤ k && k ≤ 30 then (t0 &&& 0xE0#8) ||| 26#8 else t0⟩]

/-- The value bits of some images in ascending order, as bytes. -/
def imgBytes (xs : List Img) : List Byte := xs.flatMap fun x => leBytes 4 x.val.toNat

/-- The bytes that a store writes for a datum (R237). -/
def storeBytes (sz : Size) (mode : Rnd) (sat : Bool) (xs : List Img) : List Byte :=
  let n := sizeBytes sz
  match sizeCls? sz with
  | some c => leBytes n (finalRound c mode sat (imgValue c (xs.getD 0 zeroImg, xs.getD 1 zeroImg)))
  | none => (imgBytes xs).take n

/-- How a store tags the elements it writes (R229). -/
def sizeTag (sz : Size) : WrTag := if sz = .f32 then .f32 else if sz = .f64 then .f64 else .other

/-- The images of consecutive registers in a lane. -/
def Gang.imgs (g : Gang) (n len lane : Nat) : List Img := (List.range len).map fun j => (g.reg (n + j)).lane lane

/-! ## Addresses -/

/-- DISP12, signed. -/
def dispVal (d : BitVec 12) : Int := d.toInt

/-- The offset of a lane under a memory operand, mod 2^40 (R96, R231). -/
def laneOffset (g : Gang) (m : MemRef) (size lane : Nat) : Nat :=
  let v : Int := match m.ofs with
    | some v => ((g.reg v.toNat).lane lane).val.toInt
    | none => 0
  (((offOf (g.hreg m.hnd.toNat) : Int) + v + dispVal m.disp * size) % 2 ^ 40).toNat

/-- The address of a lane under a memory operand. -/
def laneAddr (g : Gang) (m : MemRef) (size lane : Nat) : Word64 :=
  mkAddr (hndOf (g.hreg m.hnd.toNat)) (laneOffset g m size lane)

/-- The exact offset of a lane of a gather or scatter (R241). -/
def gatherOffset (g : Gang) (h : HNum) (o : VNum) (d : BitVec 12) (size lane : Nat) : Int :=
  (offOf (g.hreg h.toNat) : Int) + ((((g.reg o.toNat).lane lane).val.toNat : Int) + dispVal d) * size

/-! ## Checks at issue (R467, R468) -/

/-- One range that a lane accesses. -/
structure Acc where
  lane : Nat
  adr : Word64
  n : Nat
  wr : Bool
  rd : Bool
  align : Nat
  needTag : Bool
  deriving DecidableEq, Repr

/-- The handle of an address as an issuing core sees it. -/
def State.hnd? (s : State) (key : Nat) (a : Word64) : Option Handle :=
  (s.gang? key).bind fun g => s.handleAt (s.partOf g) (coreOf key) a

/-- The tag plane of an extent, while it is VALID (R228). -/
def State.tagPlane (s : State) (pno core : Nat) (h : Handle) : Option Handle :=
  if attrTagp h.attr then
    match (s.part pno).handle? core (attrTagh h.attr) with
    | some t => if attrValid t.attr then some t else none
    | none => none
  else none

/-- The cases of R467 that a range meets, each as (DETAIL, byte address, HATTR). -/
def State.accCases (s : State) (pno core : Nat) (a : Acc) : List (Nat × Word64 × Word64) :=
  let h := s.handleAt pno core a.adr
  let attr := h.elim 0#64 (·.attr)
  (match accessFault h (s.part pno).secure a.wr a.rd (offOf a.adr) a.n with
    | some d => [(d.1, mkAddr (hndOf a.adr) d.2, if d.1 = 1 then 0#64 else attr)]
    | none => []) ++
  (if offOf a.adr % a.align = 0 then [] else [(5, a.adr, attr)]) ++
  (if a.needTag && (h.bind (s.tagPlane pno core)).isNone then [(6, a.adr, attr)] else [])

/-- The memory access trap that some accesses of a member meet (R468). -/
def State.accFlaw (s : State) (x : Seat) (accs : List Acc) : Option Flaw :=
  let pno := s.partOf x.g
  let cases := accs.filterMap fun a =>
    match s.accCases pno (coreOf x.key) a with
    | [] => none
    | c :: cs => some (a.lane, cs.foldl (fun m d => if d.1 < m.1 then d else m) c)
  let lanes := maskOf fun l => cases.any fun c => c.1 == l
  match lowLane? lanes with
  | none => none
  | some l =>
    match cases.filter (fun c => c.1 == l) with
    | [] => none
    | c :: cs =>
      -- the lowest case; at equal cases the lowest byte
      let m := cs.foldl (fun m d =>
        if d.2.1 < m.2.1 || (d.2.1 == m.2.1 && d.2.2.1.toNat < m.2.2.1.toNat) then d else m) c
      some { code := 0x0C, detail := m.2.1, lanes := lanes, info1 := m.2.2.1, info2 := m.2.2.2, info3 := 0#64 }

/-! ## Building entries (R256, R472) -/

/-- An entry with nothing to do yet. -/
def State.newEntry (s : State) (i : Instr) (x : Seat) : Entry :=
  { id := s.nextId, instr := i, act := x.act, vals := [], addrs := [], maps := [], ctl := x.g.rndctl, tok := 0, pend := 0
    todo := [], wcells := [], got := [], gotTag := [], bad := [], checked := false, sent := false, gate := []
    wordAt := s.cur.pc, word := s.cur.word
    slot := ((s.core (coreOf x.key)).slot + (s.seats 0).findIdx fun y => y.key == x.key) % 4, born := s.tick }

/-- The results that later accesses of a gang perform behind: the waiting RES and TAKE requests of its team (R253, R270). -/
def State.gates (s : State) (key : Nat) : List Nat :=
  let mates := (s.gang? key).elim [key] (·.mates)
  ((s.core (coreOf key)).cbs.flatMap fun cb =>
    (cb.2.waitRes ++ cb.2.waitTake).filterMap fun r => if r.gang.any mates.contains then some r.pend else none)

/-- An entry enters its stream, and its identity is used. -/
def State.putEntry (s : State) (key st : Nat) (e : Entry) : State :=
  let e := { e with gate := s.gates key, wcells := (e.todo.filter (·.wr)).flatMap fun p => p.cells ++ p.tagCells }
  { s.enqueue key st e with nextId := s.nextId + 1 }

/-- An entry with a register result: its window opens, and it enters its stream. -/
def State.putLoad (s : State) (x : Seat) (st look tok : Nat) (regs : List Nat) (e : Entry) : State :=
  let (id, s) := s.addPend x look regs [] x.act [] false false tok
  s.putEntry x.key st { e with id := s.nextId, pend := id }

/-- An entry with no register result: its token counts it. -/
def State.putStore (s : State) (x : Seat) (st tok : Nat) (e : Entry) : State :=
  (s.updGang x.key (fun g => g.tokAdd tok)).putEntry x.key st { e with tok := tok }

/-- The read pieces of a range, with its tags when the access carries them. -/
def State.readPieces (s : State) (key lane : Nat) (a : Word64) (n : Nat) (tagged : Bool) : List Piece :=
  match s.hnd? key a, s.gang? key with
  | some h, some g =>
    let t := if tagged then s.tagPlane (s.partOf g) (coreOf key) h else none
    piecesOf h t (hndOf a) lane false (offOf a) n [] .other
  | _, _ => []

/-- The write pieces of a range: the tags of a tagged extent go along (R229). -/
def State.writePieces (s : State) (key lane : Nat) (a : Word64) (data : List Byte) (k : WrTag) : List Piece :=
  match s.hnd? key a, s.gang? key with
  | some h, some g =>
    piecesOf h (s.tagPlane (s.partOf g) (coreOf key) h) (hndOf a) lane true (offOf a) data.length data k
  | _, _ => []

/-! ## What entries read -/

/-- Where the byte at a position of a lane's datum is kept. -/
def datumKey (lane pos : Nat) : Nat := lane * 65536 + pos

/-- The first n bytes of a lane's datum. -/
def Entry.bytes (e : Entry) (lane n : Nat) : List Byte := (List.range n).map fun i => Tab.at e.got 0#8 (datumKey lane i)
/-- The first n tags of a lane's datum. -/
def Entry.tags (e : Entry) (lane n : Nat) : List Byte := (List.range n).map fun i => Tab.at e.gotTag 0#8 (datumKey lane i)

/-- Keeping bytes of a lane's datum from a position. -/
def keepBytes (t : Tab Byte) (lane pos : Nat) (bs : List Byte) : Tab Byte :=
  (indexFrom pos bs).foldl (fun t ib => Tab.put t (datumKey lane ib.1) ib.2) t

/-- Results in consecutive registers from what each lane receives. -/
def laneOuts (d len : Nat) (f : Nat → List Img) : List Out :=
  (List.range len).map fun j => .reg (d + j) (.general (lanes32.map fun l => (f l).getD j zeroImg))

/-- The images a lane receives, unless its data was poisoned. -/
def Entry.unless (e : Entry) (sz : Size) (l : Nat) (xs : List Img) : List Img :=
  if (Tab.find? e.bad l).isSome then poisonImgs sz else xs

/-- The old value of an atomic as its instruction returns it (R245): by its kind, the tags for a tagged extent. -/
def Entry.oldImgs (e : Entry) (sz : Size) (l : Nat) : List Img :=
  let n := sizeBytes sz
  if sz.isFp && (Tab.find? e.gotTag (datumKey l 0)).isSome then
    tagImgs (if n = 8 then .w64 else .w32) (e.bytes l n) (e.tags l (n / 4))
  else loadImgs sz (e.bytes l n)

/-- The register results of a performed entry. -/
def Entry.outs (e : Entry) : List Out :=
  match e.instr with
  | .ld sz d _ _ _ _ _ | .ldg sz d _ _ _ _ _ _ _ =>
    laneOuts d.toNat (sizeLen sz) fun l => e.unless sz l (loadImgs sz (e.bytes l (sizeBytes sz)))
  | .ldb sz d _ _ _ _ _ _ =>
    let l := (lowLane? e.act).getD 0
    let xs := e.unless sz l (loadImgs sz (e.bytes l (sizeBytes sz)))
    (List.range (sizeLen sz)).map fun j => .reg (d.toNat + j) (.uniform (xs.getD j zeroImg))
  | .ldt sz d _ _ _ _ _ =>
    laneOuts d.toNat (sizeLen sz) fun l =>
      e.unless sz l (tagImgs sz (e.bytes l (sizeBytes sz)) (e.tags l (sizeBytes sz / 4)))
  | .atomr _ sz d _ _ _ _ _ => laneOuts d.toNat (sizeLen sz) fun l => e.unless sz l (e.oldImgs sz l)
  | .ndrd fi _ d _ _ _ _ =>
    if fi == .mv then
      laneOuts d.toNat 1 fun l => if (Tab.find? e.bad l).isSome then [intImg 0#32] else (Tab.at e.vals [] l)
    else laneOuts d.toNat 2 fun l => if (Tab.find? e.bad l).isSome then pairImgs (intPair 0#64) else (Tab.at e.vals [] l)
  | .edrd fi d _ _ _ _ =>
    if fi == .weight then
      laneOuts d.toNat 1 fun l => if (Tab.find? e.bad l).isSome then [intImg 0#32] else (Tab.at e.vals [] l)
    else laneOuts d.toNat 2 fun l => if (Tab.find? e.bad l).isSome then pairImgs (intPair 0#64) else (Tab.at e.vals [] l)
  | _ => []

/-- The kind that a poison trap reports (R488). -/
def poisonKind : Instr → Nat
  | .atom .. | .atomr .. => 2
  | .tmov .. => 3
  | .ldt .. => 4
  | .ndrd .. | .edrd .. => 5
  | _ => 1

/-- The lanes that some pieces of an entry concern: every active lane, when one access serves all (R238). -/
def Entry.lanesOf (e : Entry) (hit : Nat → Bool) : Mask :=
  match e.instr with
  | .ldb .. => if lanes32.any hit then e.act else 0#32
  | _ => maskOf hit

/-- The lanes of an entry that received poisoned data. -/
def Entry.badLanes (e : Entry) : Mask := e.lanesOf fun l => (Tab.find? e.bad l).isSome

/-- The poison trap of an entry (R488). -/
def Entry.poisonTrap (e : Entry) : Deferred :=
  let m := e.badLanes
  let b := Tab.at e.bad (0#64, 0) ((lowLane? m).getD 0)
  { code := 0x0D, detail := 0, lanes := m, info0 := e.word, info1 := b.1
    info2 := BitVec.ofNat 64 (poisonKind e.instr + b.2 * 256), info3 := e.wordAt, seq := e.born }

/-- An entry that has performed: its result lands or its token is released, and poison it met is trapped. -/
def State.finishEntry (s : State) (key : Nat) (e : Entry) : State :=
  let s := if e.pend = 0 then s.dropTok key e.tok else s.land key e.pend e.outs
  if e.bad.isEmpty then s else s.defer key e.poisonTrap

/-! ## The memory error log (R491) -/

/-- STORE of an address. -/
def storeCode (a : Nat) : Nat :=
  if a < 2 ^ 39 then 0 else if a < 2 ^ 43 then 1 else if a < 2 ^ 44 then 2 else if a < 2 ^ 45 then 3
  else if a < 2 ^ 46 then 6 else if a < 2 ^ 65 then 9 else 4

/-- The store and the core of an address: the core's number for a core store, and the piece within the stack or store
(R491). -/
def storeCore (a : Nat) : Nat :=
  if storeCode a = 1 then (a - 2 ^ 42) / 2 ^ 19 else if storeCode a = 6 then (a - 2 ^ 45) / 2 ^ 18 else 0
def storePiece (a : Nat) : Nat :=
  let p := a / 65536
  match storeCode a with
  | 0 => p % 786432
  | 1 => p % 8
  | 2 => p % 128
  | 3 => p % 1024
  | 6 => p % 4
  | 9 => p - 2 ^ 30
  | _ => p % 2 ^ 24

/-- The partition that owns the unit at an address, 31 when none does (R491). -/
def State.ownerOf (s : State) (a : Nat) : Nat :=
  let mine := fun (p : Part) =>
    match storeCode a with
    | 0 => p.handles.any fun h => attrSpace h.2.attr == 0 && h.2.pieces.contains (a / 65536)
    | 1 => p.inn && p.hasCluster (clusterOf ((a - 2 ^ 42) / 2 ^ 19))
    | 2 => p.inn && p.hasCluster ((a - 2 ^ 43) / 2 ^ 23)
    | 3 =>
      let q := (a - 2 ^ 44) / 2 ^ 26
      p.inn && (p.diePiecesOf q).contains ((a - dieBaseOf q) / 65536)
    | 6 => p.inn && p.hasCluster (clusterOf ((a - 2 ^ 45) / 2 ^ 18))
    | 9 => fieldOf (p.word 5) 32 32 ≤ storePiece a && storePiece a < fieldOf (p.word 5) 32 32 + fieldOf (p.word 5) 0 32
    | _ => false
  ((List.find? (fun (p : Nat × Part) => p.2.formed && mine p.2) s.parts).map (·.1)).getD 31

/-- An MSI-X message (R415, R505): how many each entry of each link's function has been sent; bit 10 of a vector is the
link, and when that link is down the message goes to the same entry of the other. -/
def State.interrupt (s : State) (vector : Nat) : State :=
  let link := vector / 1024 % 2
  let send := fun (l : Nat) => { s with mgmt := { s.mgmt with irqs := Tab.upd s.mgmt.irqs 0 (l * 1024 + vector % 1024) (· + 1) } }
  if s.links.getLsbD link then send link else if s.links.getLsbD (1 - link) then send (1 - link) else s

/-- A row of a log, merged with the row of the same error or appended; 1024 rows, the oldest overwritten first. -/
def logRow (log : List LogRow) (w0 w1 : Word64) : List LogRow :=
  if log.any (fun r => r.w0 == w0 && r.w1 == w1) then
    log.map fun r => if r.w0 == w0 && r.w1 == w1 then
        { r with w2 := BitVec.ofNat 64 (min (r.w2.toNat / 2 ^ 32 + 1) (2 ^ 32 - 1) * 2 ^ 32) } else r
  else
    let log := log ++ [⟨w0, w1, BitVec.ofNat 64 (2 ^ 32)⟩]
    log.drop (log.length - 1024)

/-- An error of a store enters the log; a lasting one is signalled on ERRVEC. -/
def State.logStore (s : State) (kind st pno core stack piece unit : Nat) : State :=
  let w0 := BitVec.ofNat 64 (kind * 2 ^ 56 + st * 2 ^ 52 + pno % 32 * 2 ^ 47 + stack % 8 * 2 ^ 44
    + (if st = 1 || (5 ≤ st && st ≤ 8) then core % 1024 * 2 ^ 34 else 0))
  let w1 := BitVec.ofNat 64 (piece % 2 ^ 24 * 2 ^ 16 + unit % 65536)
  let s := { s with mgmt := { s.mgmt with errlog := logRow s.mgmt.errlog w0 w1 } }
  if kind = 3 || kind = 5 then s.interrupt (fieldOf s.mgmt.errvec 0 11) else s

/-- An error at an address. -/
def State.logError (s : State) (kind a : Nat) : State :=
  let st := storeCode a
  s.logStore kind st (s.ownerOf a) (storeCore a) (if st = 0 then s.stackOf (a / 65536) else 0) (storePiece a)
    (a % 65536 / poisonSize a)

/-- Whether a piece's transfer across a stack interface failed for good (R480). -/
def linkFailed (err : SoftErr) (p : Piece) : Bool :=
  match p.cls with
  | .dev _ _ => err == .link
  | _ => false

/-- Whether a completion from host memory is poisoned or in error, or does not come (R486, R504). -/
def hostFailed (err : SoftErr) (p : Piece) : Bool := p.space == 1 && (err == .lasting || err == .timeout)

/-- Whether a read takes no good data, by its transfer. -/
def readFailed (err : SoftErr) (p : Piece) : Bool := linkFailed err p || hostFailed err p

/-- The host link that a piece of host memory uses (R417): a TSO extent's own, else by its 4 KiB page. -/
def Piece.link (p : Piece) : Nat :=
  match p.cls with
  | .tso link => link
  | _ => offOf p.haddr / 4096 % 2

/-- The link that carries a piece: the other one when its own is down, but for a TSO extent (R505). -/
def State.linkFor (s : State) (p : Piece) : Nat :=
  match p.cls with
  | .tso link => link
  | _ => if s.links.getLsbD p.link then p.link else 1 - p.link

/-- Whether a piece lies in a TSO extent whose host link is down (R505). -/
def State.tsoDown (s : State) (p : Piece) : Bool :=
  match p.cls with
  | .tso link => !s.links.getLsbD link
  | _ => false

/-- The link that a host write is lost with (R505): a TSO extent's while it is down; or, where the write was in flight, its
own if that went down after the identity `since` of the access, or the other one if its own was down by then and that went
down too. -/
def State.lostOn? (s : State) (inFlight : Bool) (since : Nat) (p : Piece) : Option Nat :=
  let down := fun (l : Nat) => !s.links.getLsbD l
  let other := 1 - p.link
  if s.tsoDown p then some p.link
  else if !(p.wr && p.space == 1 && p.cls == .plain && inFlight && down p.link) then none
  else if since < Tab.at s.linkAt 0 p.link then some p.link
  else if down other && decide (since < Tab.at s.linkAt 0 other) then some other
  else none

/-- An uncorrectable error in the Advanced Error Reporting status of a link's function (R505). -/
def State.aerError (s : State) (link bit : Nat) : State :=
  { s with mgmt := { s.mgmt with aer := Tab.upd s.mgmt.aer 0#32 link (· ||| BitVec.ofNat 32 (2 ^ bit)) } }

/-- What a read meets in its store (R485): a lasting error poisons the units read. In host memory a completion that is
poisoned or in error, or does not come, is logged, and reported by the link's function: status bits 12 and 14 (PRESUMED, log
145). -/
def State.softError (s : State) (err : SoftErr) (cells : List Nat) (link : Nat := 0) : State :=
  match cells with
  | [] => s
  | a :: _ =>
    match err with
    | .none => s
    | .corrected => if storeCode a = 4 then s else s.logError 1 a
    | .transient => if storeCode a = 4 then s else s.logError 2 a
    | .lasting => if storeCode a = 4 then (s.logError 3 a).aerError link 12 else (s.logError 3 a).poisonCells cells
    | .link => if a < 2 ^ 39 then s.logError 5 a else s
    | .timeout => if storeCode a = 4 then (s.logError 3 a).aerError link 14 else s

/-- What a read piece meets in its store. -/
def State.readError (s : State) (err : SoftErr) (p : Piece) : State := s.softError err p.cells (s.linkFor p)

/-- A row of the fabric log (R506), merged with the row of the same event or appended; 512 rows, the oldest overwritten
first. -/
def State.logFabric (s : State) (kind pno plane port reason peer : Nat) : State :=
  let w0 := BitVec.ofNat 64 (kind * 2 ^ 56 + pno % 32 * 2 ^ 51 + plane % 8 * 2 ^ 48 + port % 16 * 2 ^ 44
    + reason % 256 * 2 ^ 36 + peer % 2 ^ 20 * 2 ^ 16)
  let log := logRow s.mgmt.fablog w0 0#64
  { s with mgmt := { s.mgmt with fablog := log.drop (log.length - 512) } }

/-- A host store that does not reach the host is logged with its link (R505, R506). -/
def State.logHost (s : State) (pno link : Nat) : State := s.logFabric 10 pno 0 link 0 0

/-- The bytes of a read piece, free where the read met a lasting error. -/
def State.readAs (s : State) (err : SoftErr) (p : Piece) (bs : List Byte) : List Byte :=
  if (err == .lasting && !p.cells.isEmpty) || readFailed err p then (indexFrom 0 bs).map fun ib => Config.noiseByte s.tick ib.1
  else bs

/-! ## Performing pieces of a stream's head (R260, R473) -/

/-- The instructions whose entries perform piece by piece. -/
def byPieces : Instr → Bool
  | .ld .. | .st .. | .ldt .. | .stt .. | .ldg .. | .sts .. | .ldb .. | .tmov .. | .ctxsave .. | .ctxload .. => true
  | _ => false

/-- Whether an entry stands behind a pending RES or TAKE of its gang (R270). -/
def Gang.gated (g : Gang) (e : Entry) : Bool := e.gate.any fun p => g.pend.any fun q => q.id == p && !q.landed

/-- Whether an access of a gang to a TSO extent was issued before an entry and has not performed (R276). -/
def Gang.tsoBefore (g : Gang) (id : Nat) : Bool :=
  g.streams.any fun st => st.2.any fun e => e.id < id && e.todo.any fun p => match p.cls with
    | .tso _ => true
    | _ => false

/-- Whether piece n of an entry may perform next: its reads come before its writes, and writes of the same bytes go in
ascending lane order (R243, R260). -/
def Entry.mayPerform (e : Entry) (n : Nat) (p : Piece) : Bool :=
  if p.wr then
    !(e.todo.any fun q => !q.wr) && (e.todo.take n).all fun q => !q.cells.any p.cells.contains
  else true

/-- The data that a write piece carries: its own, or for a tile move what the reads returned (R243). -/
def Entry.pieceData (e : Entry) (p : Piece) : Piece :=
  match e.instr with
  | .tmov .. =>
    let p := { p with data := (List.range p.cells.length).map fun i => Tab.at e.got 0#8 (datumKey p.lane (p.pos + i)) }
    if (Tab.find? e.gotTag (datumKey p.lane p.tagPos)).isNone || p.tagCells.isEmpty then p
    else { p with tags := (List.range p.tagCells.length).map fun i => Tab.at e.gotTag 0#8 (datumKey p.lane (p.tagPos + i)) }
  | _ => p

/-- The poison unit of an address in memory of a class. -/
def unitAddr (c : Cls) (a : Word64) : Word64 :=
  let n := match c with
    | .dev _ _ => 32
    | _ => 16
  mkAddr (hndOf a) (offOf a / n * n)

/-- The SPACE of an address in a store. -/
def spaceOf (a : Nat) : Nat := match storeCode a with
  | 0 => 0
  | 4 => 1
  | k => k + 1

/-- The poisoned unit of a read piece, as a lane's report: its address and space, those of its bytes where they are
poisoned, else those of its tags. -/
def poisonAddr (p : Piece) (data : Bool) : Word64 × Nat :=
  if data then (unitAddr p.cls p.haddr, p.space) else (unitAddr p.tagCls p.taddr, spaceOf (p.tagCells.headD 0))

/-- A lane's report of poison: the lowest unit stands. -/
def noteBad (t : Tab (Word64 × Nat)) (p : Piece) (data : Bool) : Tab (Word64 × Nat) :=
  let a := poisonAddr p data
  match Tab.find? t p.lane with
  | some b => if a.1.toNat < b.1.toNat then Tab.put t p.lane a else t
  | none => Tab.put t p.lane a

/-- The addresses of a TMOV's write piece that take bytes, or tags, from a poisoned unit that its lane read (R489). -/
def Entry.poisonsWrite (e : Entry) (p : Piece) : List Nat :=
  let bad := fun (lane pos n : Nat) => (List.range n).any fun i => (Tab.find? e.gotTag (datumKey lane (pos + i))).isSome
  match e.instr with
  | .tmov .. =>
    (if bad (32 + p.lane) p.pos p.cells.length then p.cells else []) ++
      (if bad (64 + p.lane) p.tagPos p.tagCells.length then p.tagCells else [])
  | _ => []

/-- What a TMOV keeps of a read piece that met poison: where its bytes and where its tags came from a poisoned unit. -/
def Entry.keepPoison (e : Entry) (p : Piece) (data tags : Bool) : Entry :=
  match e.instr with
  | .tmov .. =>
    let t := if data then keepBytes e.gotTag (32 + p.lane) p.pos (p.cells.map fun _ => 1#8) else e.gotTag
    { e with gotTag := if tags then keepBytes t (64 + p.lane) p.tagPos (p.tagCells.map fun _ => 1#8) else t }
  | _ => e

/-- The range-lock trap of an entry that meets the table (R473). -/
def Entry.lockTrap (e : Entry) (cs : List (Piece × Nat × Range × Word64)) : Option Deferred :=
  match cs with
  | [] => none
  | c :: rest =>
    let lanes := e.lanesOf fun l => cs.any fun c => c.1.lane == l
    -- the lowest conflicting byte
    let low := rest.foldl (fun m d => if d.2.2.2.toNat < m.2.2.2.toNat then d else m) c
    some { code := 0x0B, detail := low.2.1, lanes := lanes, info0 := e.word, info1 := low.2.2.2
           info2 := rangeInfo low.2.2.1, info3 := e.wordAt, seq := e.born }

/-- The pieces of an entry that meet the table. -/
def State.conflicts (s : State) (pno : Nat) (e : Entry) : List (Piece × Nat × Range × Word64) :=
  e.todo.filterMap fun p => (s.pieceConflict pno p).map fun c => (p, c)

/-- An entry leaves its queue with no effect (R473): its result counts as landed with the old contents, its token is
released, and the gang traps. -/
def State.dropEntry (s : State) (key st : Nat) (e : Entry) (d : Deferred) : State :=
  let s := s.updGang key fun g => g.popHead st
  let s := if e.pend = 0 then s.dropTok key e.tok else s.land key e.pend []
  s.defer key d

/-- The writer that a gang's piece is. -/
def State.writerOf (s : State) (key st : Nat) (g : Gang) (a : Word64) : Writer :=
  ⟨key, st, g.launch, none, s.partOf g, s.boundTo g.launch a⟩

/-- One piece performs: what the entry becomes and what the memory becomes. -/
def State.performOne (s : State) (key st : Nat) (g : Gang) (e : Entry) (n : Nat) (p : Piece) (err : SoftErr) :
    State × Entry :=
  let pno := s.partOf g
  let q := quarterOf (coreOf key)
  let e' := { e with todo := e.todo.eraseIdx n, checked := true }
  let s := s.chargePiece g.launch p e'.todo
  if p.wr then
    let p' := e.pieceData p
    match s.lostOn? (err == .link) e.id p with
    | some link => (s.logHost pno link, e')
    | none =>
      let s := s.writePiece (s.writerOf key st g p.haddr) q p' e.wcells
      let s := if linkFailed err p then s.softError err p.cells else s
      -- what the entry has poisoned, none of its later pieces clears (R489)
      let bad := e.poisonsWrite p ++ if linkFailed err p then p.cells else []
      (s.poisonCells bad, { e' with wcells := if bad.isEmpty then e'.wcells else e'.wcells.filter fun a => !bad.contains a })
  else
    let s := s.readError err p
    let (bs, ts) := s.readPiece pno q p
    let e' := { e' with got := keepBytes e'.got p.lane p.pos (s.readAs err p bs), gotTag := keepBytes e'.gotTag p.lane p.tagPos ts }
    let data := s.poisoned p.cells || readFailed err p || s.tsoDown p
    if data || s.poisoned p.tagCells then
      (s, { e' with bad := noteBad e'.bad p data }.keepPoison p data (s.poisoned p.tagCells))
    else (s, e')

/-- Whether an atomic on host memory stands between its read and its write at some addresses: the other device accesses there
wait, another atomic's too, but for stores that wait in a host store queue, which the atomic comes after (R247). -/
def State.atomHolds (s : State) (cells : List Nat) (but : Option AtomReq := none) : Bool :=
  s.atoms.any fun r => r.old.isSome && some r != but && r.piece.cells.any cells.contains

/-- Performing piece n of the head entry of a stream, when the machine may. An entry whose last piece performs has
performed; `done` says what it then does. -/
def State.performStream (s : State) (core ctx st n : Nat) (err : SoftErr) (done : State → Nat → Entry → State) : State :=
  match s.keyOf core ctx with
  | none => s
  | some key =>
    match s.gang? key with
    | none => s
    | some g =>
      match g.stream st with
      | [] => s
      | e :: _ =>
        if !byPieces e.instr || g.gated e then s
        else
          match e.todo[n]? with
          | none =>
            -- an entry with no piece has performed
            if e.todo.isEmpty then done (s.updGang key fun g => g.popHead st) key e else s
          | some p =>
            match if e.checked then none else e.lockTrap (s.conflicts (s.partOf g) e) with
            | some d => s.dropEntry key st e d
            | none =>
              if !e.mayPerform n p || s.atomHolds p.cells || (match p.cls with | .tso _ => g.tsoBefore e.id | _ => false) then s
              else
                let (s, e) := s.performOne key st g e n p err
                if e.todo.isEmpty then done (s.updGang key fun g => g.popHead st) key e
                else s.updGang key fun g => g.updHead st fun _ => e

/-! ## Atomics (R244, R245, R266) -/

/-- The home cluster of an address (R244): `a` is its physical address and `o` the offset under its handle. -/
def State.homeOf (s : State) (pno : Nat) (space a : Nat) : Nat :=
  let p := s.part pno
  let inQ := fun q => p.clusters.filter fun c => c / 16 == q
  let among := fun (q : Nat) => if (inQ q).isEmpty then p.clusters else inQ q
  if space = 2 then clusterOf ((a - 2 ^ 42) / 2 ^ 19)
  else if space = 3 then (a - 2 ^ 43) / 2 ^ 23
  else if space = 4 then
    let q := (a - 2 ^ 44) / 2 ^ 26
    let cs := among q
    let o := (p.diePiecesOf q).idxOf ((a - dieBaseOf q) / 65536) * 65536 + a % 65536
    cs.getD (o / 4096 % cs.length) 0
  else if space = 0 then
    let stack := s.stackOf (a / 65536)
    let cs := among (stack / 2)
    cs.getD (Config.homeIndex stack (a / 16) % cs.length) 0
  else p.clusters.headD 0

/-- An atomic of a gang in pieces. -/
def isAtomic : Instr → Bool
  | .atom .. | .atomr .. => true
  | _ => false

/-- Sending the requests of the head entry of a stream (R266), after the range check (R473). -/
def State.sendAtomic (s : State) (core ctx st : Nat) : State :=
  match s.keyOf core ctx with
  | none => s
  | some key =>
    match s.gang? key with
    | none => s
    | some g =>
      match g.stream st with
      | [] => s
      | e :: _ =>
        if !isAtomic e.instr || e.sent || g.gated e
          || (e.todo.any (fun p => match p.cls with | .tso _ => true | _ => false) && g.tsoBefore e.id) then s
        else
          let pno := s.partOf g
          match e.lockTrap (s.conflicts pno e) with
          | some d => s.dropEntry key st e d
          | none =>
            let reqs := e.todo.map fun p => (⟨key, e.id, p.lane, p, s.homeOf pno p.space (p.cells.headD 0), none⟩ : AtomReq)
            if e.todo.isEmpty then (s.updGang key fun g => g.popHead st).finishEntry key e
            else
              { s.updGang key (fun g => g.updHead st fun e => { e with sent := true, checked := true }) with
                atoms := s.atoms ++ reqs }

/-- The value that an integer atomic writes (R245): old m, operand v, and for CAS the expected value. -/
def atomInt (op : AtomOp) (w m v expect : Nat) : Nat :=
  match op with
  | .add => (m + v) % 2 ^ w
  | .min => min m v
  | .max => max m v
  | .land => m &&& v
  | .lor => m ||| v
  | .lxor => m ^^^ v
  | .swap => v
  | .cas => if m = expect then v else m

/-- The image that an FP atomic stores (R245): RoundOdd of the sum with the add rule, the winner, or v. -/
def atomFp (op : AtomOp) (c : FpCls) (m v : Pair) : Pair :=
  match op with
  | .add => fAdd c (oprOf c m) (oprOf c v)
  | .min => fMinMax false c m v
  | .max => fMinMax true c m v
  | _ => v

/-- The newest state of a byte in the granule order, wherever that write stands (R266). -/
def State.newestByte (s : State) (q : Nat) (c : Cls) (a : Nat) : Byte :=
  match c with
  | .dev _ prop =>
    let loc := if prop = 2 then 0 else locBase prop q
    overlaid (between s.log (a / 16) (if prop = 2 then 0 else s.heldAt loc (a / 16)) (Tab.at s.top 0 (a / 16)))
      (Memory.get s.mem (loc + a)) a
  | .tso _ => Memory.get s.mem a
  | .plain => Memory.get s.mem a

/-- An atomic's write: numbered, and applied at once to the home quarter's image, view or copy (R266). -/
def State.atomicWrite (s : State) (who : Writer) (q : Nat) (c : Cls) (cells : List (Nat × Byte)) : State :=
  match c with
  | .plain => { s with mem := Memory.sets s.mem cells }
  | .tso _ => { s with mem := Memory.sets s.mem cells }
  | .dev lin prop =>
    let (s, w) := s.logWrite who q lin prop cells false
    let s := if prop = 2 then (s.layOver q w).setWrite { w with got := BitVec.ofNat 4 (2 ^ q) }
             else s.applyTo (locBase prop q) w
    s.settle

/-- What an atomic on one lane does: the old bytes and tags, and what it writes. -/
def atomResult (i : Instr) (e : Entry) (lane : Nat) (old oldTags : List Byte) : List Byte × List Byte :=
  match i with
  | .atom op sz _ _ _ _ _ | .atomr op sz _ _ _ _ _ _ =>
    let n := sizeBytes sz
    let xs := Tab.at e.vals [] lane
    match sizeCls? sz with
    | none =>
      let v := leNat ((imgBytes xs).take n)
      let expect := leNat (((imgBytes xs).drop n).take n)
      (leBytes n (atomInt op (8 * n) (leNat old) v expect), [])
    | some c =>
      let v : Pair := (xs.getD 0 zeroImg, xs.getD 1 zeroImg)
      if oldTags.isEmpty then
        let y := atomFp op c (loadedImg c (leNat old)) v
        (leBytes n (finalRound c (modeOf .dyn e.ctl) (satOf e.ctl) (imgValue c y)), [])
      else
        let ms := tagImgs (if n = 8 then .w64 else .w32) old oldTags
        let y := atomFp op c (ms.getD 0 zeroImg, ms.getD 1 zeroImg) v
        if n = 8 then (imgBytes [y.1, y.2], [y.1.tag, y.2.tag]) else (imgBytes [y.1], [y.1.tag])
  | _ => (old, [])

/-- The tags that an atomic's write leaves in a tagged extent (R229, R245). -/
def atomTags (sz : Size) (new : List Byte) (p : Piece) : List Byte :=
  if sz.isFp then new else p.tagCells.map fun _ => 0x1F#8

/-- The size of an atomic. -/
def atomSize : Instr → Size
  | .atom _ sz .. => sz
  | .atomr _ sz .. => sz
  | _ => .w32

/-- Whether an atomic on host memory is one PCI Express AtomicOp (R247): ADD, SWAP and CAS of .W32 and .W64. -/
def isAtomicOp : Instr → Bool
  | .atom op sz .. | .atomr op sz .. => (op == .add || op == .swap || op == .cas) && (sz == .w32 || sz == .w64)
  | _ => true

/-- An atomic's write, with the tags of a tagged extent; where the tag plane is of another class, value and tag reach every
location in the one step (R230). -/
def State.atomicPut (s : State) (who : Writer) (q : Nat) (p : Piece) (new tags : List Byte) : State :=
  let cells := List.zip p.cells new
  let tagged := List.zip p.tagCells tags
  if tagged.isEmpty || p.cls == p.tagCls then s.atomicWrite who q p.cls (cells ++ tagged)
  else ((s.atomicWrite who q p.cls cells).atomicWrite who q p.tagCls tagged).settleFrom s.nextId who.pno

/-- The request that a home's queue serves next (R244): the oldest. -/
def State.nextAtom (s : State) (pno cluster : Nat) : Option AtomReq :=
  s.atoms.find? fun r => r.home == cluster && ((s.gang? r.gang).elim false fun g => s.partOf g == pno)

/-- The entry of a gang that has an identity, with its stream. -/
def Gang.entry? (g : Gang) (id : Nat) : Option (Nat × Entry) :=
  g.streams.findSome? fun st => (st.2.find? (fun (e : Entry) => e.id == id)).map fun e => (st.1, e)

/-- An atomic performs on one lane: the entry with its old bytes, or with the poison that kept it from performing (R488). -/
def State.performLane (s : State) (r : AtomReq) (g : Gang) (st : Nat) (e : Entry) (err : SoftErr) : State × Entry :=
  let p := r.piece
  let q := r.home / 16
  let s := s.readError err p
  let data := s.poisoned p.cells || readFailed err p || s.tsoDown p
  if data || ((atomSize e.instr).isFp && s.poisoned p.tagCells) then (s, { e with bad := noteBad e.bad p data })
  else
    let old := r.old.getD (p.cells.map (s.newestByte q p.cls))
    let oldTags := if (atomSize e.instr).isFp then p.tagCells.map (s.newestByte q p.tagCls) else []
    let (new, newTags) := atomResult e.instr e p.lane old oldTags
    let s := s.atomicPut (s.writerOf r.gang st g p.haddr) q p new (atomTags (atomSize e.instr) newTags p)
    (s.chargePiece g.launch p [], { e with got := keepBytes e.got p.lane 0 old, gotTag := keepBytes e.gotTag p.lane 0 oldTags })

/-- The oldest request of a home's queue performs (R244, R266). On host memory an operation that is no AtomicOp takes two
steps, a read and a write (R247). -/
def State.performAtomic (s : State) (pno cluster : Nat) (err : SoftErr) : State :=
  match s.nextAtom pno cluster with
  | none => s
  | some r =>
    match s.gang? r.gang with
    | none => s
    | some g =>
      match g.entry? r.entry with
      | none => { s with atoms := s.atoms.erase r }
      | some (st, e) =>
        let p := r.piece
        -- host memory under TSO: the device's earlier writes reach it first (R247, R276)
        let s := match p.cls with
          | .tso _ => if r.old.isNone then s.drainHostAll pno else s
          | _ => s
        let two := p.space = 1 && !isAtomicOp e.instr
        -- the write of a read and a write has no completion
        let err := if r.old.isSome then .none else err
        if s.atomHolds p.cells (some r) then s
        else if two && r.old.isNone && !s.tsoDown p && !hostFailed err p then
          { s with atoms := s.atoms.map fun x =>
              if x = r then { r with old := some (p.cells.map (s.newestByte (cluster / 16) p.cls)) } else x }
        else
          let s := { s with atoms := s.atoms.erase r }
          let (s, e) := s.performLane r g st { e with todo := e.todo.filter (fun x => x != p) } err
          let s := s.updGang r.gang fun g =>
            g.setStream st ((g.stream st).map fun (x : Entry) => if x.id = e.id then e else x)
          if e.todo.isEmpty then
            (s.updGang r.gang fun g => g.setStream st ((g.stream st).filter fun (x : Entry) => x.id != e.id)).finishEntry r.gang e
          else s

/-! ## Fences (R250, R267) -/

/-- The streams that a fence names, and whether it waits for the gang's writes to drain. -/
def fenceSet (k : FenceKind) (m : BitVec 16) : List Nat × Bool :=
  match k with
  | .s => ((List.range 16).filter m.getLsbD, false)
  | .w | .all => (List.range 16, true)

/-- A fence that stands at the head of all its queues performs and leaves them. -/
def State.performFence (s : State) (core ctx st : Nat) : State :=
  match s.keyOf core ctx with
  | none => s
  | some key =>
    match s.gang? key with
    | none => s
    | some g =>
      match g.stream st with
      | [] => s
      | e :: _ =>
        match e.instr with
        | .fence k m =>
          let (set, drain) := fenceSet k m
          if g.gated e || !(set.all fun t => ((g.stream t).head?.map (fun (x : Entry) => x.id)) == some e.id)
            || (drain && s.hasUndrained key none) then s
          else s.updGang key fun g => set.foldl (fun g t => g.popHead t) g
        | _ => s

end Sys2Proof.Machine
end

