-- ==== Sys2Proof/Machine/Fetch.lean ====
section
/-! DEFINITION. What an issuing unit does next: the word it fetches (R520, R521), the clause rules it meets (R83-R88,
R453, R454), what its decoding reports (R451, R455), the entry of a clause (R85), deferred traps at word boundaries
(R419), and the state in which a given instruction is the next to issue. -/

namespace Sys2Proof.Machine

/-! ## Classes and masks of words -/

/-- The CLASSMASK bit of a major opcode (R109). -/
def classBit (opc : Nat) : Nat :=
  if opc < 0x60 then 0 else if opc < 0x90 then 1 else if opc < 0xB0 then 2 else if opc < 0xD0 then 3
  else if opc < 0xE0 then 4 else 5

/-- The class of a compact operation (R109): its full instruction's. -/
def copClass (c : Nat) : Option Nat := (COp.ofCode? (BitVec.ofNat 6 c)).map fun op =>
  match op with
  | .faddF32 | .fsubF32 | .fmulF32 | .fminF32 | .fmaxF32 => 1
  | _ => 0

/-- The classes a word belongs to: none for a literal word. -/
def wordClasses (w : Word64) : List Nat :=
  if kindOf w == 0#2 then [classBit (opcOf w).toNat]
  else if kindOf w == 1#2 then (copClass (fieldOf w 56 6)).toList ++ (copClass (fieldOf w 25 6)).toList
  else []

/-- Whether an opcode has format A, I or M (R110), which hold a MASK field in their places. -/
def isFormatI (opc : Nat) : Bool :=
  [0x02, 0x05, 0x0E, 0x13, 0x1C, 0x24, 0x38, 0x4E, 0x9A, 0x9B, 0x9C, 0xE4, 0xE8, 0xE9, 0xEA, 0xEB, 0xEC, 0xED].contains opc
def isFormatM (opc : Nat) : Bool :=
  opc = 0x1F || (0x90 ≤ opc && opc ≤ 0x99) || (0x9D ≤ opc && opc ≤ 0x9F) || (0xD9 ≤ opc && opc ≤ 0xDC) || opc = 0xEF
def isFormatA (opc : Nat) : Bool :=
  (opc < 0x30 && !isFormatI opc && !isFormatM opc) || (0x33 ≤ opc && opc ≤ 0x37) || (0x40 ≤ opc && opc ≤ 0x4D)
    || (0x60 ≤ opc && opc ≤ 0x79) || opc = 0x7B || (0xE0 ≤ opc && opc ≤ 0xE2)

/-- The MASK field as it stands in a word, for the active lanes of a word that decodes to nothing. R451 does not say which
bits are the MASK of a reserved opcode: 0x25 to 0x2F are read as format A, the others have none (DESIGN CHOICE, log 142). -/
def rawMask (w : Word64) : Nat :=
  if kindOf w != 0#2 then 0
  else
    let opc := (opcOf w).toNat
    if isFormatA opc then fieldOf w 15 3 else if isFormatI opc then fieldOf w 31 3
    else if isFormatM opc then fieldOf w 16 3 else if opc = 0xC8 then fieldOf w 27 3 else 0

/-! ## The unit that is to issue -/

/-- A unit that may issue: its lead gang's key, its address and the flow record of one of its lanes. -/
structure Unit where
  key : Nat
  pc : Word64
  flow : Flow
  deriving DecidableEq, Repr

/-- Whether a gang's core lets it issue: its launch runs on, its partition is swapped in, and it is active (R31, R48,
R374, R432). -/
def State.mayIssue (s : State) (key : Nat) : Bool :=
  match s.gang? key with
  | none => false
  | some g =>
    ((s.launch? g.launch).elim false fun l => l.halt.isNone && (s.part l.pno).formed && (s.part l.pno).inn
      && !(s.part l.pno).stopping) &&
      (s.team key).all fun kg => !kg.2.alive || kg.2.st == .active

/-- The unit of a part that may issue. -/
def State.unit? (s : State) (core ctx part : Nat) : Option Unit :=
  match s.leadAt core ctx with
  | none => none
  | some key =>
    if !s.mayIssue key then none
    else
      (s.team key).findSome? fun kg =>
        (lowLane? (kg.2.unitLanes part)).map fun l => ⟨key, (kg.2.flowAt l).pc, kg.2.flowAt l⟩

/-- The state in which a unit is the one that issues. -/
def State.setCur (s : State) (u : Unit) (part : Nat) (w : Word64) (lit : Bool) : State :=
  { s with cur := ⟨u.key, part, u.pc, u.flow.hdr, w, lit⟩ }

/-- The lanes of a member that an at-issue fault at a clause header reports: those of the unit's part (R426). -/
def Gang.partLanes (g : Gang) (part : Nat) : Mask := maskOf fun l => inMask g.live l && (g.flowAt l).part == part

/-! ## Deferred traps (R419) -/

/-- Whether a fabric operation of a word is still open at a member of a team (R502). -/
def State.wordOpen (s : State) (key born : Nat) : Bool :=
  (s.team key).any fun kg =>
    (kg.2.stream 15).any (fun (e : Entry) => e.born == born) ||
      s.fab.any fun o => o.gang == kg.1 && o.entry.born == born

/-- The deferred traps that stand first at the members of a team, the oldest word's first (R502; the model takes this order
for every deferred trap). -/
def State.dueTraps (s : State) (key : Nat) : List (Nat × Deferred) :=
  ((s.team key).filterMap fun kg => kg.2.deferred.head?.map fun d => (kg.1, d)).insertionSort fun a b =>
    a.2.seq ≤ b.2.seq

/-- The first deferred trap of a team that may be taken: none while a handler runs; a fabric access trap once every member's
part of its word has its replies (R502). -/
def State.nextDeferred (s : State) (key : Nat) : Option (Nat × Deferred) :=
  if (s.team key).any (fun kg => kg.2.inTrap) then none
  else (s.dueTraps key).find? fun kd => kd.2.code != 0x12 || !s.wordOpen key kd.2.seq

/-- The members whose first deferred trap is of the same word and code. -/
def State.sameWord (s : State) (key : Nat) (d : Deferred) : List (Nat × Deferred) :=
  (s.dueTraps key).filter fun kd => kd.2.code == d.code && kd.2.seq == d.seq && kd.2.info3 == d.info3

/-- A team takes its first deferred trap at a word boundary, with what every member met of it: TPC names the word that the
trapping lane group, the one with the lowest lane that met the cause, would issue next. -/
def State.takeDeferred (s : State) (u : Unit) (part : Nat) : State :=
  match s.nextDeferred u.key with
  | none => s
  | some (k, d) =>
    let all := s.sameWord u.key d
    let s := all.foldl (fun (s : State) kd => s.updGang kd.1 fun g => { g with deferred := g.deferred.drop 1 }) s
    let (part, pc) := match s.gang? k with
      | none => (part, u.pc)
      | some g =>
        match lowLane? (d.lanes &&& g.live) with
        | some l => ((g.flowAt l).part, (g.flowAt l).pc)
        | none => (part, u.pc)
    s.takeTrap u.key { part := part, tpc := pc, word := d.info0, lit := false, defer := true }
      (all.map fun kd => (kd.1, ⟨kd.2.code, kd.2.detail, kd.2.lanes, kd.2.info1, kd.2.info2, kd.2.info3⟩))

/-! ## Entering a clause (R85) -/

/-- Bits of a header that R453 DETAIL 1 reports. -/
def headerBad (w : Word64) : Word64 :=
  (if fieldOf w 38 2 = 3 then ones 38 2 else 0#64) ||| (w &&& ones 44 1) ||| (w &&& ones 0 38)

/-- Whether a member's tokens and event line let it pass a header: both together, at the moment of its entry. R85 lists the
token wait and then the line wait; the model tests the tokens again when the line passes, so in a parted gang a token raised
meanwhile holds the unit (DESIGN CHOICE, log 104). -/
def State.headerReady (s : State) (kg : Nat × Gang) (w : Word64) : Bool :=
  ((List.range 8).all fun t => !(fieldOf w 44 8).testBit t || t = 0 || kg.2.tok t == 0) &&
    (fieldOf w 40 4 = 0 ||
      lineAhead (Tab.at (s.core (coreOf kg.1)).lc 0#32 (fieldOf w 40 4)) (Tab.at kg.2.seen 0#32 (fieldOf w 40 4)))

/-- A member consumes one event of a line and acquires what the event tells it of (R291). -/
def State.consume (s : State) (key line : Nat) : State :=
  match s.gang? key with
  | none => s
  | some g =>
    let n := Tab.at g.seen 0#32 line + 1#32
    (s.setGang key { g with seen := Tab.put g.seen line n }).observeLine key (coreOf key) line n

/-- The lanes of the unit enter the clause, and the gang's own class comes into force (R362). -/
def Gang.enterClause (g : Gang) (part : Nat) (w : Word64) : Gang :=
  let m := g.unitLanes part
  let g := { g with clauses := g.clauses + 1, ownNow := g.own }
  g.mapFlow fun l f =>
    if inMask m l then
      { f with hdr := f.pc, pc := addWords f.pc 1, rem := fieldOf w 52 4 + 1
               cmask := BitVec.ofNat 6 (fieldOf w 56 6), yld := BitVec.ofNat 2 (fieldOf w 38 2) }
    else f

/-- A word fetched for a unit earlier and kept (R520). -/
def State.kept? (s : State) (u : Unit) (part : Nat) : Option Fetched :=
  (s.gang? u.key).bind fun g => g.fetched.find? fun f => f.part == part && f.pc == u.pc

/-- The word at the unit's address: kept, or fetched now. -/
def State.unitWord (s : State) (u : Unit) (part : Nat) : Word64 :=
  match s.kept? u part with
  | some f => f.word
  | none => s.fetchAt (((s.gang? u.key).map s.partOf).getD 0) (coreOf u.key) u.pc

/-- A fault of a fetch (R521): it traps at the address of the word that cannot be fetched, with the live lanes of the lane
group. -/
def State.fetchTrap (s : State) (u : Unit) (part : Nat) (at_ : Word64) (d : Nat × Word64) : State :=
  let s := s.setCur u part 0#64 false
  s.takeTrap u.key { part := part, tpc := at_, word := 0#64, lit := false, defer := false, stand := u.pc }
    ((s.seats 0).map fun x => (x.key, flaw 0x0C d.1 x.m0 at_ d.2))

/-- A fault at a clause header, with the word fetched there. -/
def State.headerTrap (s : State) (u : Unit) (part : Nat) (w : Word64) (detail : Nat) (info : Word64) : State :=
  let s := s.setCur u part w false
  s.trapNow ((s.team u.key).map fun kg => (kg.1, flaw 0x02 detail (kg.2.partLanes part) info))

/-- A unit at a clause header enters the clause, waits there, or traps (R85, R453, R454, R521). -/
def State.enterClause (s : State) (u : Unit) (part : Nat) : State :=
  let pno := ((s.gang? u.key).map s.partOf).getD 0
  match if (s.kept? u part).isSome then none else s.fetchFault pno (coreOf u.key) u.pc with
  | some d => s.fetchTrap u part u.pc d
  | none =>
    let w := s.unitWord u part
    if kindOf w != 2#2 then s.headerTrap u part w 6 u.pc
    else if headerBad w != 0#64 then s.headerTrap u part w 1 (headerBad w)
    else
      let s := s.setCur u part w false
      let ms := (s.team u.key).filter fun kg => kg.2.unitLanes part != 0#32
      if !ms.all (fun kg => s.headerReady kg w) then s.holdWord true false
      else
        let line := fieldOf w 40 4
        ms.foldl (fun s kg =>
          let s := if line = 0 then s else s.consume kg.1 line
          s.updGang kg.1 fun g => g.enterClause part w) (s.updGang u.key fun g => g.forget part)

/-! ## The next word (R87, R449-R455) -/

/-- What a unit's turn comes to: nothing, a state (a trap, an entered clause), or an instruction to execute. -/
inductive Turn where
  | idle
  | done (s : State)
  | run (i : Instr) (s : State)
  deriving DecidableEq, Repr

/-- The clause inconsistency that a word meets (R453): the DETAIL. -/
def clauseFault (f : Flow) (w : Word64) (lit : Option Word64) : Option Nat :=
  if !(wordClasses w).all (fun c => f.cmask.getLsbD c) then some 2
  else if kindOf w == 3#2 then some 3
  else if wantsLiteral w && (f.rem ≤ 1 || (lit.map kindOf) != some 3#2) then some 4
  else if kindOf w == 2#2 then some 5
  else if kindOf w == 0#2 && opcOf w == 0xF3#8 && f.rem != 1 then some 7
  else none

/-- Every lane of the unit traps with its active lanes, by the word's MASK field. -/
def State.wordTrap (s : State) (w : Word64) (code detail : Nat) (info : Word64) : State :=
  s.trapWord (rawMask w) code detail info 0#64

/-- A unit in a clause: its word, checked and decoded. -/
def State.nextWord (s : State) (u : Unit) (part : Nat) : Turn :=
  let pno := ((s.gang? u.key).map s.partOf).getD 0
  let core := coreOf u.key
  let kept := s.kept? u part
  match if kept.isSome then none else s.fetchFault pno core u.pc with
  | some d => .done (s.fetchTrap u part u.pc d)
  | none =>
    let w := s.unitWord u part
    let next := addWords u.pc 1
    let takes := wantsLiteral w && 1 < u.flow.rem
    match if takes then s.fetchFault pno core next else none with
    | some d => .done (s.fetchTrap u part next d)
    | none =>
      let lit := if takes then some (s.fetchAt pno core next) else none
      let s := s.setCur u part w ((lit.map kindOf) == some 3#2)
      match clauseFault u.flow w lit with
      | some d => .done (s.wordTrap w 0x02 d u.flow.hdr)
      | none =>
        match decodeWords (w :: lit.toList) with
        | .ok i => .run i s
        | .error (.reserved d info) => .done (s.wordTrap w 0x01 d info)
        | .error (.pairing d info) => .done (s.wordTrap w 0x03 d info)
        | .error _ => .done (s.wordTrap w 0x02 3 u.flow.hdr)

/-- A unit's turn: a deferred trap first, then the clause header or the next word. -/
def State.turn (s : State) (core ctx part : Nat) : Turn :=
  match s.unit? core ctx part with
  | none => .idle
  | some u =>
    if (s.nextDeferred u.key).isSome then .run (.takeDeferredTrap core ctx part) s
    else if u.flow.rem = 0 then .run (.clauseEntry core ctx part) s
    else s.nextWord u part

/-- Fetching a unit's word ahead of its issue (R520). -/
def State.fetchAhead (s : State) (core ctx part : Nat) : State :=
  match s.unit? core ctx part with
  | none => s
  | some u =>
    let pno := ((s.gang? u.key).map s.partOf).getD 0
    if (s.kept? u part).isSome || (s.fetchFault pno (coreOf u.key) u.pc).isSome then s
    else
      s.updGang u.key fun g =>
        { g with fetched := g.fetched ++ [⟨part, u.pc, s.fetchAt pno (coreOf u.key) u.pc, false⟩] }

/-! ## An instruction placed where the next one is fetched -/

/-- The gang at the launch of a given instruction: one slice, all classes, the clause's last word. -/
def placedGang (rem : Nat) : Gang where
  launch := 1
  role := 0
  member := 0
  inst := 0
  slices := 1
  team := 1
  mates := [65536]
  allot := 16
  st := .active
  since := 0
  clauses := 1
  offer := false
  life := (List.range 32).map fun l => if l < 4 then .live else .never
  flow := (List.range 32).map fun l =>
    if l < 4 then ⟨mkAddr 1 8, mkAddr 1 0, rem, 0x3F#6, 0#2, false, 0, 0#64⟩ else Flow.blank
  regs := []
  masks := []
  hregs := []
  toks := []
  sigfloor := 0#64
  rndctl := 0#64
  memctl := 0#64
  idxcnt := 0#64
  qpri := 0
  own := 0
  ownNow := 0
  base := 0
  tcause := 0#64
  tpc := 0#64
  tlane := 0#64
  tinfo0 := 0#64
  tinfo1 := 0#64
  tinfo2 := 0#64
  tinfo3 := 0#64
  tstat := 0#64
  tmark := 0#64
  tgroup := 0#32
  tborn := 0
  seen := []
  arr := []
  rel := []
  trapFlow := []
  pend := []
  idem := none
  deferred := []
  waits := []
  fetched := []
  acqs := []
  owed := []
  waveOps := []
  streams := []

/-- The launch of that gang. -/
def placedLaunch : Launch where
  pno := 0
  queue := 0
  packet := 0
  roles := [⟨mkAddr 1 0, mkAddr 1 0, 0#64, 0#64, []⟩]
  slots := []
  groups := [⟨true, false, false, 0, [0#32], 0, 0, 0⟩]
  binds := []
  gangs := [(0, 65536)]
  gone := []
  halt := none

/-- The partition it runs in: formed, swapped in, all clusters, and one handle for the code. -/
def placedPart : Part :=
  { Part.unformed with formed := true, inn := true, desc := [BitVec.allOnes 64, 0#64, 0#64]
                       handles := [(1, ⟨BitVec.ofNat 64 (2 ^ 63 + 3 * 2 ^ 52), [0], 0⟩)] }

/-- The bytes of words at consecutive addresses. -/
def wordCells (a : Nat) (ws : List Word64) : List (Nat × Byte) :=
  indexFrom a (ws.flatMap fun w => leBytes 8 w.toNat)

/-- The state with an instruction's words where the next step fetches (see the log): a launch of one gang that stands in
a clause at code handle 1, offset 8, with the unit's turn next; the launch's identity 1 is in use. -/
def State.place (s : State) (w0 w1 : Word64) : State :=
  let hdr : Word64 := BitVec.ofNat 64 (2 ^ 63 + 0x3F * 2 ^ 56 + (if wantsLiteral w0 then 2 ^ 52 else 0))
  { s with nextId := max s.nextId 2
           agenda := [.unit 0 0 0]
           mem := Memory.sets s.mem (wordCells 0 [hdr, w0, w1])
           gangs := Tab.put s.gangs 65536 (placedGang (if wantsLiteral w0 then 2 else 1))
           launches := Tab.put s.launches 1 placedLaunch
           parts := Tab.put s.parts 0 placedPart }

end Sys2Proof.Machine
end

