-- ==== Sys2Proof/Machine/Control.lean ====
section
/-! DEFINITION. The meanings of the control transfers and waits of the scalar chapter (R138-R146, R219), but EXIT, which
stands with the scheduler's instructions. -/

namespace Sys2Proof.Machine

/-! ## Targets (R138, R142, R454, R457, R521) -/

/-- The target of a format B word (R98). -/
def dispTarget (pc : Word64) (disp : BitVec 32) : Word64 :=
  mkAddr (hndOf pc) (((offOf pc : Int) + 8 * disp.toInt) % 2 ^ 40).toNat

/-- A cause met by the lanes of some targets: the lowest one's target is reported. -/
def targetFlaw (code detail : Nat) (bad : List (Nat × Word64)) (info2 : Word64) : Option Flaw :=
  match bad with
  | [] => none
  | t :: _ => some (flaw code detail (maskOf fun l => bad.any fun b => b.1 == l) t.2 info2)

/-- What the targets of a transfer meet, in the order of R450: no clause header, another handle, a callee not listed,
a target that cannot be fetched. `tg` lists the transferring lanes in ascending order. -/
def State.transferFlaw (s : State) (x : Seat) (reg callee : Bool) (tg : List (Nat × Word64)) : Option Flaw :=
  let pno := s.partOf x.g
  let core := coreOf x.key
  let fault := fun (t : Nat × Word64) => s.fetchFault pno core t.2
  let noHeader := tg.filter fun t => (fault t).isNone && !s.headerAt pno core t.2
  let foreign := tg.filter fun t => reg && hndOf t.2 != hndOf s.cur.pc
  let unlisted := tg.filter fun t => callee && !((s.roleOf x.g).callees.any fun c => c.1 == t.2)
  let unread := tg.filter fun t => (fault t).isSome
  let d := ((unread.head?).bind fault).getD (0, 0#64)
  (targetFlaw 0x02 6 noHeader 0#64).orElse fun _ =>
    (targetFlaw 0x06 1 foreign 0#64).orElse fun _ =>
      (targetFlaw 0x07 1 unlisted 0#64).orElse fun _ => targetFlaw 0x0C d.1 unread d.2

/-- A transfer's clause inconsistency alone, which is reported before an operand fault (R450, R454). -/
def State.headerFlaw (s : State) (x : Seat) (tg : List (Nat × Word64)) : Option Flaw :=
  (s.transferFlaw x false false tg).filter fun f => f.code == 0x02

/-- Lanes of a mask that go to one target. -/
def laneTargets (m : Mask) (t : Word64) : List (Nat × Word64) := (maskLanes m).map fun l => (l, t)

/-- A member's transfer, checked before any lane moves. -/
def transfer (reg callee : Bool) (x : Seat) (s : State) (tg : List (Nat × Word64)) (outs : List Out) : SeatRes :=
  match s.transferFlaw x reg callee tg with
  | some f => .trap f
  | none => .ok s { outs := x.give outs, goto := tg }

/-- The return address of a call: the word after the clause's last counted word (R138). -/
def State.returnAddr (s : State) (x : Seat) : Word64 := addWords s.cur.pc (x.g.flowAt x.low0).rem

/-- The active lanes of the whole unit with a test of each (R140, R219): how many, and how many pass. -/
def State.unitCount (s : State) (test : Seat → Nat → Bool) : Nat × Nat :=
  (s.seats 0).foldl (fun n x =>
    (n.1 + popMask x.act, n.2 + ((maskLanes x.act).filter (test x)).length)) (0, 0)

/-! ## Meanings -/

/-- BR (R139): the lanes whose bit agrees go, the others fall through. -/
def execBr (sense : BrSense) (mc : MNum) (hint : Hint) (disp : BitVec 32) (s : State) : Next :=
  seatWord (.br sense mc hint disp) (fun x t =>
    let bits := x.mask mc.toNat
    let m := match sense with
      | .t => x.act &&& bits
      | .f => x.act &&& ~~~bits
    transfer false false x t (laneTargets m (dispTarget t.cur.pc disp)) []) s

/-- BRM (R140): all lanes of the unit go, or none. -/
def execBrm (kind : BrmKind) (mc : MNum) (hint : Hint) (disp : BitVec 32) (s : State) : Next :=
  seatWord (.brm kind mc hint disp) (fun x t =>
    let (n, c) := t.unitCount fun y l => inMask (y.mask mc.toNat) l
    let taken := match kind with
      | .any => decide (0 < c)
      | .all => decide (c = n)
      | .none => decide (c = 0)
    transfer false false x t (if taken then laneTargets x.act (dispTarget t.cur.pc disp) else []) []) s

/-- CALL (R141). -/
def execCall (vd : VNum) (hint : Hint) (disp : BitVec 32) (s : State) : Next :=
  seatWord (.call vd hint disp) (fun x t =>
    transfer false false x t (laneTargets x.act (dispTarget t.cur.pc disp)) (outWord vd.toNat (t.returnAddr x))) s
    (early := fun x t => t.headerFlaw x (laneTargets x.act (dispTarget t.cur.pc disp)))

/-- The target that each active lane holds in a pair. -/
def Seat.pairTargets (x : Seat) (va : VNum) : List (Nat × Word64) :=
  (maskLanes x.act).map fun l => (l, x.g.pairAt va.toNat l)

/-- CALLI (R142). -/
def execCalli (vd va : VNum) (mk : MNum) (s : State) : Next :=
  seatWord (.calli vd va mk) (fun x t =>
    transfer true true x t (x.pairTargets va) (outWord vd.toNat (t.returnAddr x))) s
    (early := fun x t => if (operandFault (16 * x.g.allot) [oA va 2]).isSome then none
      else t.headerFlaw x (x.pairTargets va))

/-- JMPI (R142). -/
def execJmpi (va : VNum) (mk : MNum) (s : State) : Next :=
  seatWord (.jmpi va mk) (fun x t => transfer true true x t (x.pairTargets va) []) s

/-- RET (R143). -/
def execRet (va : VNum) (mk : MNum) (s : State) : Next :=
  seatWord (.ret va mk) (fun x t => transfer true false x t (x.pairTargets va) []) s

/-- BSIG (R219): the stored K of the lanes of M0 decides for the whole unit. -/
def execBsig (kind : BsigKind) (va : VNum) (thr : BitVec 6) (hint : Hint) (disp : BitVec 32) (s : State) : Next :=
  seatWord (.bsig kind va thr hint disp) (fun x t =>
    let wide := kind == .anyD || kind == .allD
    let c : FpCls := if wide then .f64 else .f32
    let (n, low) := t.unitCount fun y l =>
      decide (storedK c (pairLane (y.g.rd (if wide then 2 else 1) va.toNat) l) < thr.toNat)
    let taken := if kind == .any || kind == .anyD then decide (0 < low) else decide (low = n)
    transfer false false x t (if taken then laneTargets x.act (dispTarget t.cur.pc disp) else []) []) s

/-- The words waiting lanes have issued count for the windows (R105). -/
def State.countUnit (s : State) : State :=
  (s.seats 0).foldl (fun s x => s.updGang x.key fun g => (g.count x.m0).flush s.tick) s

/-- REGANG (R18, R144). -/
def execRegang (s : State) : Next :=
  seatWord .regang (fun _ t =>
    if t.united t.cur.key then .ok t {} else .wait fun s => s.countUnit.waitRegang) s

/-- Whether every named token of a member is clear. -/
def Gang.toksClear (g : Gang) (set : BitVec 8) : Bool :=
  (List.range 8).all fun k => k == 0 || !set.getLsbD k || g.tok k == 0

/-- WAITTOK (R146). -/
def execWaittok (toks : BitVec 7) (s : State) : Next :=
  seatWord (.waittok toks) (fun x t =>
    if x.g.toksClear (toks ++ (0#1 : BitVec 1)) then .ok t {} else .wait fun s => s.holdWord true false) s

end Sys2Proof.Machine
end

