-- ==== Sys2Proof/Machine/Engine.lean ====
section
/-! DEFINITION. What the engines and stack ports of a core share (R273-R278, R377, R378): mappings captured at issue,
ranges, pieces of an operation, registration, fault words, tokens, completion, and reading and waiting on counters. -/

namespace Sys2Proof.Machine

/-! ## Command quads -/

/-- The 64 bits that two registers of a quad hold. -/
def quadWord (q : List Img) (i : Nat) : Word64 := (q.getD (i + 1) zeroImg).val ++ (q.getD i zeroImg).val
/-- The number that one register of a quad holds. -/
def quadNat (q : List Img) (i : Nat) : Nat := (q.getD i zeroImg).val.toNat

/-- The quads of the active lanes of a member. -/
def Seat.quads (x : Seat) (q : BitVec 6) : Tab (List Img) := (maskLanes x.act).map fun l => (l, x.g.quad (4 * q.toNat) l)
/-- The quad in the lowest lane of M0. -/
def Seat.lowQuad (x : Seat) (q : BitVec 6) : List Img := x.g.quad (4 * q.toNat) x.low0

/-! ## Mappings (R472) -/

/-- The handles that some addresses name, with their tag planes, as the table stands. -/
def State.mapsFor (s : State) (pno core : Nat) (addrs : List Word64) : Tab Handle :=
  addrs.foldl (fun t a =>
    match s.handleAt pno core a with
    | none => t
    | some h =>
      let t := Tab.put t (hndOf a) h
      match s.tagPlane pno core h with
      | some p => Tab.put t (attrTagh h.attr) p
      | none => t) []

/-- The handle of an address among captured mappings. -/
def mapAt (maps : Tab Handle) (a : Word64) : Option Handle := Tab.find? maps (hndOf a)

/-- The tag plane of a captured handle. -/
def mapTag (maps : Tab Handle) (h : Handle) : Option Handle :=
  if attrTagp h.attr then (Tab.find? maps (attrTagh h.attr)).filter fun t => attrValid t.attr else none

/-- Whether captured mappings refuse an access. -/
def mapRefuses (maps : Tab Handle) (secure wr rd : Bool) (a : Word64) (n : Nat) : Bool :=
  (accessFault (mapAt maps a) secure wr rd (offOf a) n).isSome

/-- The physical ranges of n bytes at an offset. -/
def Handle.ranges (h : Handle) (o n : Nat) : List (Nat × Nat) :=
  if n = 0 then []
  else
    (List.range ((o + n - 1) / 4096 - o / 4096 + 1)).map fun i =>
      let k := o / 4096 + i
      let lo := max o (4096 * k)
      (h.phys lo, min (o + n) (4096 * k + 4096) - lo)

/-- The physical ranges of n bytes at an address, none when they are refused. -/
def mapRanges (maps : Tab Handle) (secure wr : Bool) (a : Word64) (n : Nat) : List (Nat × Nat) :=
  match mapAt maps a with
  | none => []
  | some h => if (accessFault (some h) secure wr (!wr) (offOf a) n).isSome then [] else h.ranges (offOf a) n

/-- The physical ranges of the tags of n bytes at an address, where its extent has a tag plane. -/
def mapTagRanges (maps : Tab Handle) (a : Word64) (n : Nat) : List (Nat × Nat) :=
  match (mapAt maps a).bind (mapTag maps) with
  | some t => if n = 0 then [] else t.ranges (offOf a / 4) ((offOf a + n - 1) / 4 - offOf a / 4 + 1)
  | none => []

/-! ## Operations -/

/-- An operation of an entry or a queued command that registers. -/
def Op.ofPre (p : Pre) (num pno : Nat) : Op where
  num := num
  seq := p.id
  gang := p.gang
  launch := p.launch
  pno := pno
  instr := p.instr
  act := p.act
  vals := p.vals
  ctl := p.ctl
  tok := p.tok
  pend := p.pend
  maps := p.maps
  follow := p.follow
  phase := .registered
  lanes := maskLanes p.act
  unit := 0
  stage := 0
  todo := []
  got := []
  gotTag := []
  bad := false
  badAt := []
  spoiled := []
  slotS := none
  slotD := none
  waits := false
  oor := 0
  fault := if p.dead then 11 else 0
  arg := 0
  result := 0#64
  dropped := false

/-- An entry of a stream as a queued command. -/
def Pre.ofEntry (e : Entry) (key launch st : Nat) : Pre :=
  ⟨e.id, key, launch, e.instr, e.act, e.vals, e.ctl, e.tok, e.pend, e.maps, some st, false, false⟩

/-- How many operations an engine holds registered (R286, R303, R332, R378). -/
def engineRoom (eng : Nat) : Nat := if eng = 0 then 64 else if eng = 1 then 32 else if eng = 2 then 16 else 32

/-- Whether an engine has room. -/
def Engine.room (e : Engine) (eng : Nat) : Bool := decide (e.ops.length < engineRoom eng)

/-- An operation takes its number and registers. -/
def State.register (s : State) (core eng pno : Nat) (p : Pre) : State :=
  s.updEngine core eng fun e => { e with issued := e.issued + 1, ops := e.ops ++ [Op.ofPre p (e.issued + 1) pno] }

/-- An operation of an engine. -/
def State.op? (s : State) (core eng num : Nat) : Option Op := (s.engine core eng).ops.find? fun o => o.num == num

/-- Changing an operation. -/
def State.updOp (s : State) (core eng num : Nat) (f : Op → Op) : State :=
  s.updEngine core eng fun e => { e with ops := e.ops.map fun (o : Op) => if o.num = num then f o else o }

/-- The world of an operation's partition. -/
def State.opSecure (s : State) (o : Op) : Bool := (s.part o.pno).secure

/-- The read pieces of an operation's range; `lane` and `pos` say where its bytes are kept. -/
def Op.readAt (o : Op) (lane : Nat) (a : Word64) (n : Nat) (tagged : Bool) : List Piece :=
  match mapAt o.maps a with
  | some h => piecesOf h (if tagged then mapTag o.maps h else none) (hndOf a) lane false (offOf a) n [] .other
  | none => []

/-- The write pieces of an operation's range. -/
def Op.writeAt (o : Op) (lane : Nat) (a : Word64) (data : List Byte) (k : WrTag) : List Piece :=
  match mapAt o.maps a with
  | some h => piecesOf h (mapTag o.maps h) (hndOf a) lane true (offOf a) data.length data k
  | none => []

/-- The bytes read for a lane. -/
def Op.bytes (o : Op) (lane pos n : Nat) : List Byte := (List.range n).map fun i => Tab.at o.got 0#8 (datumKey lane (pos + i))
/-- The tags read for a lane. -/
def Op.tags (o : Op) (lane n : Nat) : List Byte := (List.range n).map fun i => Tab.at o.gotTag 0#8 (datumKey lane i)

/-- The writer that an operation is. -/
def Op.writer (o : Op) (core eng : Nat) : Writer := ⟨o.gang, 0, o.launch, some (core, eng, o.num), o.pno, .op core eng o.num⟩

/-- Whether every write of an operation has left its window path. -/
def State.opDrained (s : State) (core eng num : Nat) : Bool :=
  s.log.all fun w => !(w.inPath && w.op == some (core, eng, num))

/-! ## Fault words (R462, R476, R478) -/

/-- A major opcode as a number. -/
def opcNum (i : Instr) : Nat := (opcOf ((encode i).headD 0#64)).toNat

/-- A fault enters an engine's fault word: the first since the last read sets it, later ones are counted. -/
def Engine.note (e : Engine) (num ctx opc code arg : Nat) : Engine :=
  if e.fault.getLsbD 0 then
    let n := min 63 (fieldOf e.fault 1 6 + 1)
    { e with fault := (e.fault &&& ~~~(0x7E#64)) ||| BitVec.ofNat 64 (n * 2) }
  else
    { e with fault := BitVec.ofNat 64 (num % 2 ^ 32 * 2 ^ 32 + ctx % 64 * 2 ^ 26 + opc % 256 * 2 ^ 18 + code % 64 * 2 ^ 12
        + arg % 32 * 2 ^ 7 + 2 + 1) }

/-- Noting an operation's fault. -/
def State.noteOp (s : State) (core eng opc : Nat) (o : Op) (code arg : Nat) : State :=
  s.updEngine core eng fun e => e.note o.num (ctxOf o.gang) opc code arg

/-! ## Completion (R275, R278) -/

/-- A token that counted an operation of an engine of the gang's core is released; the gang observes the operation when
the token clears (R43, R270). -/
def State.releaseTok (s : State) (key tok eng num : Nat) : State :=
  if tok = 0 then s
  else (s.updGang key fun g => { g with owed := Tab.upd g.owed [] tok (· ++ [(eng, num)]) }).dropTok key tok

/-- An operation that has ended, all its writes drained: its ranges leave, it releases, DONE advances, its token is
released, and its row pulses. -/
def State.completeOp (s : State) (core eng : Nat) (o : Op) : State :=
  let s := (s.dropRange o.pno core eng o.num).releaseOp core eng o.num
  let s := s.updEngine core eng fun e => { e with done := o.num, ops := e.ops.filter fun (x : Op) => x.num != o.num }
  let s := s.releaseTok o.gang o.tok eng o.num
  s.updCore core fun c => c.pulse (rowOfSink eng) (some (eng, o.num))

/-- The operation that may complete next: the lowest number. -/
def Engine.next? (e : Engine) : Option Op := e.ops.find? fun o => o.num == e.done + 1

/-- The operation that starts next: the lowest number not started. -/
def Engine.starts? (e : Engine) : Option Op := e.ops.find? fun o => o.phase == .registered

/-! ## Planes and access control (R355, R494, R495) -/

/-- Whether a plane is live for this device: a port of it is up, and the management has not marked it dead. -/
def State.planeLive (s : State) (p : Nat) : Bool :=
  ((s.port (2 * p)).up || (s.port (2 * p + 1)).up) && !s.planeDead.getLsbD p

/-- The plane that a plane's lines travel on (R495). -/
def State.planeOf (s : State) (p : Nat) : Nat := (Tab.find? s.planeVia (p % 8)).getD (p % 8)

/-- The port of a plane that carries a line: the other one while its own is down (R394, R494). -/
def State.portOn (s : State) (plane side : Nat) : Nat :=
  if (s.port (2 * plane + side)).up then 2 * plane + side else 2 * plane + (1 - side)

/-- Of the headers of some packets in order, those of the packets that are not wholly acknowledged. -/
def openHeaders (acked : Nat) : List Nat → List Nat
  | a :: b :: rest => if b ≤ acked then openHeaders acked (b :: rest) else a :: b :: rest
  | hs => hs

/-- A packet of some flits leaves on a port: its flits take the next numbers, and the replay buffer keeps the last 256, so
the receiver has acknowledged all before them (R492). -/
def State.sendFlits (s : State) (port k : Nat) : State :=
  let p := s.port port
  let acked := max p.acked (p.sent + k - 256)
  s.setPort port { p with headers := openHeaders acked (p.headers ++ [p.sent]), sent := p.sent + k, acked := acked }

/-- A packet of some flits arrives at a port whole and in order: the port expects the flit behind it next (R492). -/
def State.takeFlits (s : State) (port k : Nat) : State :=
  let p := s.port port
  s.setPort port { p with expect := p.expect + BitVec.ofNat 12 k, awaits := false }

/-- Whether anything for the lines of a plane must wait for the fence (R495, R496); where no plane is live nothing waits,
and requests are refused. -/
def State.linesHeld (s : State) (home : Nat) : Bool :=
  (s.planeHold.getLsbD home || !s.planeLive (s.planeOf home)) && (List.range 8).any s.planeLive

/-- The flits of a wave batch: each message as 8 bytes, or 8 and 64 with a vector (R395). -/
def msgFlits (msgs : List WaveMsg) : Nat :=
  1 + ((msgs.foldl (fun n m => n + 8 + 4 * m.vec.length) 0) + 63) / 64

/-- Whether an access-control entry admits a device (R355). -/
def Part.admits (p : Part) (entry dev : Nat) : Bool :=
  let e := Tab.at p.acl 0#64 entry
  entry != 0 && e.getLsbD 0 && fieldOf e 44 20 ≤ dev && dev ≤ fieldOf e 24 20

/-! ## What is outstanding -/

/-- The lead member of a gang's team. -/
def State.leadOf (s : State) (key : Nat) : Nat := (s.gang? key).elim key fun g => g.mates.headD key

/-- Whether two gangs are of one team. -/
def State.sameTeam (s : State) (a b : Nat) : Bool := s.leadOf a == s.leadOf b

/-- The instructions that are commands of an engine or port, in a stream. -/
def isCommand : Instr → Bool
  | .xcopy .. | .xcopym .. | .oload .. | .aread .. | .awrite .. | .sxred .. | .sxbulkCopy .. | .sxbulkFill ..
  | .sxbulkCmp .. | .mkcollect .. => true
  | _ => false

/-- The commands and operations of a team that have not completed: their identities and instructions. -/
def State.teamOps (s : State) (lead : Nat) : List (Nat × Instr) :=
  let core := s.core (coreOf lead)
  let mine := fun k => s.leadOf k == lead
  (s.gangs.filter (fun kg => mine kg.1)).flatMap (fun kg =>
    kg.2.streams.flatMap fun st => (st.2.filter (fun (e : Entry) => isCommand e.instr)).map fun (e : Entry) => (e.id, e.instr)) ++
  ((core.mxq ++ core.ndq).filter (fun p => mine p.gang)).map (fun (p : Pre) => (p.id, p.instr)) ++
  core.engines.flatMap fun en => (en.2.ops.filter (fun o => mine o.gang)).map fun (o : Op) => (o.seq, o.instr)

/-! ## Reading and waiting on counters (R288, R289, R385, R386) -/

/-- A long-latency word that gives every lane of M0 one 64-bit value known at issue: all members act in the same clock
(R12), so each reads the state as it stood at the word's issue. -/
def valueWord (i : Instr) (vd : VNum) (look : BitVec 4) (tok : BitVec 3) (v : Seat → State → Word64)
    (k : Seat → State → State) (s : State) : Next :=
  seatWord i (fun x t =>
    .ok (k x (t.addPend x look.toNat [vd.toNat, vd.toNat + 1] [] x.act (outWord vd.toNat (v x s)) false true tok.toNat).2) {}) s

/-- A wait on a counter: passes once DONE has reached the value, and observes. -/
def doneWait (i : Instr) (vs : VNum) (eng : Seat → Nat) (s : State) : Next :=
  seatWord i (fun x t =>
    let v := x.g.pairAt vs.toNat x.low0
    let core := coreOf x.key
    if v.toNat ≤ (t.engine core (eng x)).done % 2 ^ 64 then .ok (t.observe x.key core (eng x) v.toNat) {}
    else .wait fun s => s.holdWord true false) s

end Sys2Proof.Machine
end

