-- ==== Sys2Proof/Machine/MatrixOps.lean ====
section
/-! DEFINITION. The matrix unit (R298-R324): claims, operand geometry, what each operation does to slots, maps, tiles and
memory, its faults (R461-R463), and the meanings of its instructions. -/

namespace Sys2Proof.Machine

/-! ## Names of resources (R299) -/

/-- Slots and tiles. -/
structure Names where
  slots : BitVec 32
  tiles : BitVec 8
  deriving DecidableEq, Repr

def Names.meets (a b : Names) : Bool := (a.slots &&& b.slots) != 0#32 || (a.tiles &&& b.tiles) != 0#8
def Names.join (a b : Names) : Names := ⟨a.slots ||| b.slots, a.tiles ||| b.tiles⟩
def bit32 (n : Nat) : BitVec 32 := BitVec.ofNat 32 (2 ^ (n % 32))
def bit8 (n : Nat) : BitVec 8 := BitVec.ofNat 8 (2 ^ (n % 8))
def Names.slot (n : Nat) : Names := ⟨bit32 n, 0#8⟩
def Names.tile (n : Nat) : Names := ⟨0#32, bit8 n⟩

/-- The slots of a claim: `first` to `first + n − 1`. -/
def claimSlots (first n : Nat) : BitVec 32 := BitVec.ofNat 32 ((2 ^ n - 1) * 2 ^ first)

/-- An FP6 format code. -/
def isFp6 (f : Nat) : Bool := f = 6 || f = 7
/-- A 4-bit format code. -/
def is4bit (f : Nat) : Bool := f = 8 || f = 0xB || f = 0xC
/-- Elements of an operand's row (R305). -/
def mmaKr (a b : Nat) : Nat :=
  if a = 2 || a = 3 || b = 2 || b = 3 then 64
  else if (isFp6 a || is4bit a) && (isFp6 b || is4bit b) then 256 else 128
/-- Whether two operand formats may meet. -/
def mmaPair (a b : Nat) : Bool := (2 ≤ a && a ≤ 8 && 2 ≤ b && b ≤ 8) || (9 ≤ a && a ≤ 12 && 9 ≤ b && b ≤ 12)
/-- The element width in a slot. -/
def mmaWidth (f kr : Nat) : Nat := if kr = 64 then 16 else if kr = 128 then 8 else if isFp6 f then 8 else 4
/-- The slots that an operand spans. -/
def mmaSpan (f kr : Nat) : Nat := if isFp6 f && kr = 256 then 2 else 1

/-- Scale fields of a format slot (R189): enabled, relative slot, offset. -/
def scaleA (d : Word64 × Word64) : Bool × Nat × Nat := (fieldOf d.2 62 2 = 1, fieldOf d.2 57 5, fieldOf d.2 44 13)
def scaleB (d : Word64 × Word64) : Bool × Nat × Nat := (fieldOf d.2 42 2 = 1, fieldOf d.2 37 5, fieldOf d.2 24 13)

/-- What an MMA is made of: tile, slots, formats, scales, block sizes, START. -/
structure MmaCmd where
  acc : Nat
  sa : Nat
  sb : Nat
  fa : Nat
  fb : Nat
  sca : Bool × Nat × Nat
  scb : Bool × Nat × Nat
  ka : Nat
  kb : Nat
  start : Bool
  slotA : Nat
  slotB : Nat
  deriving DecidableEq, Repr

/-- K size of a code (R99). -/
def kblk (c : BitVec 2) : Nat := 16 * 2 ^ c.toNat

/-- The MMA that an instruction names, in a launch. -/
def State.mmaOf (s : State) (launch : Nat) (i : Instr) : Option MmaCmd :=
  match i with
  | .mma acc sa sb fmta fmtb ka kb start _ =>
    let da := s.slotOf launch fmta.toNat
    let db := s.slotOf launch fmtb.toNat
    some ⟨acc.toNat, sa.toNat, sb.toNat, slotAfmt da, slotBfmt db, scaleA da, scaleB db, kblk ka, kblk kb, start,
      fmta.toNat, fmtb.toNat⟩
  | .xcopym _ _ _ sa sb acc fmta fmtb ka kb _ =>
    let da := s.slotOf launch fmta.toNat
    let db := s.slotOf launch fmtb.toNat
    some ⟨acc.toNat, sa.toNat, sb.toNat, slotAfmt da, slotBfmt db, scaleA da, scaleB db, kblk ka, kblk kb, false,
      fmta.toNat, fmtb.toNat⟩
  | _ => none

/-- The operand slots of an MMA. -/
def MmaCmd.operandSlots (m : MmaCmd) : BitVec 32 :=
  let kr := mmaKr m.fa m.fb
  bit32 m.sa ||| bit32 m.sb ||| (if mmaSpan m.fa kr = 2 && m.sa < 31 then bit32 (m.sa + 1) else 0#32) |||
    (if mmaSpan m.fb kr = 2 && m.sb < 31 then bit32 (m.sb + 1) else 0#32)
/-- The scale slots of an MMA. -/
def MmaCmd.scaleSlots (m : MmaCmd) : BitVec 32 :=
  (if m.sca.1 then bit32 (m.sa + m.sca.2.1) else 0#32) ||| (if m.scb.1 then bit32 (m.sb + m.scb.2.1) else 0#32)

/-- The resources that an operation names (R299). -/
def State.names (s : State) (launch : Nat) (i : Instr) : Names :=
  match i with
  | .oload _ slot _ _ => .slot slot.toNat
  | .omap slot _ _ _ _ => .slot slot.toNat
  | .aclr _ tmask _ => ⟨0#32, tmask⟩
  | .aread acc _ _ _ _ _ | .awrite acc _ _ _ _ _ => .tile acc.toNat
  | .astat _ acc _ _ _ _ => .tile acc.toNat
  | .xcopy dk _ _ slot _ _ _ _ _ => if dk == .slot then .slot slot.toNat else ⟨0#32, 0#8⟩
  | _ =>
    match s.mmaOf launch i with
    | some m => ⟨m.operandSlots ||| m.scaleSlots, bit8 m.acc⟩
    | none => ⟨0#32, 0#8⟩

/-! ## Claims -/

/-- What a team holds. -/
def Core.heldBy (c : Core) (lead : Nat) : Names :=
  ⟨c.slotHeld.foldl (fun m h => if h.2 = lead then m ||| bit32 h.1 else m) 0#32,
   c.tileHeld.foldl (fun m h => if h.2 = lead then m ||| bit8 h.1 else m) 0#8⟩
/-- What any other team holds. -/
def Core.heldByOthers (c : Core) (lead : Nat) : Names :=
  ⟨c.slotHeld.foldl (fun m h => if h.2 = lead then m else m ||| bit32 h.1) 0#32,
   c.tileHeld.foldl (fun m h => if h.2 = lead then m else m ||| bit8 h.1) 0#8⟩
def Claim.names (c : Claim) : Names := ⟨c.slots, c.tiles⟩

/-- Whether a word of a team names a resource of its pending claim (R299). -/
def State.claimPending (s : State) (key : Nat) (n : Names) : Bool :=
  ((s.core (coreOf key)).claims.filter (fun c => s.sameTeam c.gang key)).any fun c => c.names.meets n

/-- A team takes, or gives up, resources. -/
def Core.hold (c : Core) (lead : Nat) (n : Names) : Core :=
  { c with
    slotHeld := (List.range 32).foldl (fun t k => if n.slots.getLsbD k then Tab.put t k lead else t) c.slotHeld
    tileHeld := (List.range 8).foldl (fun t k => if n.tiles.getLsbD k then Tab.put t k lead else t) c.tileHeld
    maps := (List.range 32).foldl (fun t k => if n.slots.getLsbD k then Tab.del t k else t) c.maps }
def Core.yieldUp (c : Core) (lead : Nat) (n : Names) : Core :=
  { c with
    slotHeld := c.slotHeld.filter fun h => !(h.2 == lead && n.slots.getLsbD h.1)
    tileHeld := c.tileHeld.filter fun h => !(h.2 == lead && n.tiles.getLsbD h.1) }

/-- The claim fault of R461 for some resources. -/
def claimFlaw (x : Seat) (detail : Nat) (n : Names) : Flaw :=
  flaw 0x13 detail x.act (BitVec.ofNat 64 (n.slots.toNat + n.tiles.toNat * 2 ^ 32))

/-- The identities of a team's outstanding operations that name some resources. -/
def State.opsNaming (s : State) (key : Nat) (n : Names) : List Nat :=
  let lead := s.leadOf key
  let launch := (s.gang? key).elim 0 (·.launch)
  ((s.teamOps lead).filter fun o => (s.names launch o.2).meets n).map (·.1)

/-- OCLAIM (R299, R300, R461). -/
def execOclaim (first : BitVec 5) (nslot : BitVec 6) (tmask : BitVec 8) (tok : BitVec 3) (s : State) : Next :=
  onceWord (.oclaim first nslot tmask tok) (fun x t =>
    let n : Names := ⟨claimSlots first.toNat nslot.toNat, tmask⟩
    let c := t.core (coreOf x.key)
    let own := c.heldBy (t.leadOf x.key)
    let both : Names := ⟨own.slots &&& n.slots, own.tiles &&& n.tiles⟩
    if own.meets n then .trap (claimFlaw x 2 both)
    else if c.claims.any (fun k => t.sameTeam k.gang x.key) then .trap (claimFlaw x 3 n)
    else
      let t := t.updCore (coreOf x.key) fun c => { c with claims := c.claims ++ [⟨x.key, n.slots, n.tiles, tok.toNat, []⟩] }
      .ok (t.updGang x.key fun g => g.tokAdd tok.toNat) {}) s

/-- OREL (R301, R461): takes effect once the operations that name the resources have completed. -/
def execOrel (first : BitVec 5) (nslot : BitVec 6) (tmask : BitVec 8) (tok : BitVec 3) (s : State) : Next :=
  onceWord (.orel first nslot tmask tok) (fun x t =>
    let n : Names := ⟨claimSlots first.toNat nslot.toNat, tmask⟩
    let own := (t.core (coreOf x.key)).heldBy (t.leadOf x.key)
    let lack : Names := ⟨n.slots &&& ~~~own.slots, n.tiles &&& ~~~own.tiles⟩
    if lack.slots != 0#32 || lack.tiles != 0#8 then .trap (claimFlaw x 1 lack)
    else
      let after := t.opsNaming x.key n
      let rel : Claim := ⟨x.key, n.slots, n.tiles, tok.toNat, after⟩
      let t := t.updCore (coreOf x.key) fun c => { c with orels := c.orels ++ [rel] }
      .ok (t.updGang x.key fun g => g.tokAdd tok.toNat) {}) s

/-! ## Issue of operations (R302, R303) -/

/-- A queued operation as it issues. -/
def State.newPre (s : State) (i : Instr) (x : Seat) (vals : Tab (List Img)) (addrs : List Word64) (tok : Nat)
    (stream : Option Nat) : Pre :=
  { id := s.nextId, gang := x.key, launch := x.g.launch, instr := i, act := x.m0, vals := vals, ctl := x.g.rndctl
    tok := tok, pend := 0, maps := s.mapsFor (s.partOf x.g) (coreOf x.key) addrs, stream := stream, follow := false
    dead := false }

/-- A matrix operation joins its gang's queue; one with a memory end also enters its stream. -/
def State.putPre (s : State) (x : Seat) (p : Pre) : State :=
  let s := { s.updGang x.key (fun g => g.tokAdd p.tok) with nextId := s.nextId + 1 }
  let s := s.updCore (coreOf x.key) fun c => { c with mxq := c.mxq ++ [p] }
  match p.stream with
  | none => s
  | some st =>
    s.enqueue x.key st
      { s.newEntry p.instr x with
        id := p.id, act := p.act, vals := p.vals, maps := p.maps, ctl := p.ctl, tok := p.tok, gate := s.gates x.key }

/-- A matrix instruction without a memory end. -/
def matrixWord (i : Instr) (tok : BitVec 3) (s : State) : Next :=
  onceWord i (fun x t =>
    if t.claimPending x.key (t.names x.g.launch i) then stall
    else .ok (t.putPre x (t.newPre i x [] [] tok.toNat none)) {}) s

/-- A matrix instruction with a memory end: the quad names its address and its stream. -/
def matrixMemWord (i : Instr) (q : BitVec 6) (tok : BitVec 3) (s : State) : Next :=
  onceWord i (fun x t =>
    if t.claimPending x.key (t.names x.g.launch i) then stall
    else
      let quad := x.lowQuad q
      .ok (t.putPre x (t.newPre i x [(0, quad)] [quadWord quad 0] tok.toNat (some (quadNat quad 3 % 16)))) {}) s

/-- OMAP (R304). -/
def execOmap (slot : BitVec 5) (orient : Orient) (pitch base : BitVec 9) (tok : BitVec 3) (s : State) : Next :=
  matrixWord (.omap slot orient pitch base tok) tok s

/-- OLOAD (R307). -/
def execOload (q : BitVec 6) (slot : BitVec 5) (len : BitVec 7) (tok : BitVec 3) (s : State) : Next :=
  matrixMemWord (.oload q slot len tok) q tok s

/-- MMA (R309). -/
def execMma (acc : BitVec 3) (sa sb : BitVec 5) (fmta fmtb : BitVec 3) (kblka kblkb : BitVec 2) (start : Bool)
    (tok : BitVec 3) (s : State) : Next :=
  matrixWord (.mma acc sa sb fmta fmtb kblka kblkb start tok) tok s

/-- ACLR (R312). -/
def execAclr (cls : TileCls) (tmask : BitVec 8) (tok : BitVec 3) (s : State) : Next :=
  matrixWord (.aclr cls tmask tok) tok s

/-- AREAD (R313). -/
def execAread (acc : BitVec 3) (q : BitVec 6) (fmt : BitVec 3) (row0 nrows : BitVec 6) (tok : BitVec 3) (s : State) : Next :=
  matrixMemWord (.aread acc q fmt row0 nrows tok) q tok s

/-- AWRITE (R313). -/
def execAwrite (acc : BitVec 3) (q : BitVec 6) (fmt : BitVec 3) (row0 nrows : BitVec 6) (tok : BitVec 3) (s : State) : Next :=
  matrixMemWord (.awrite acc q fmt row0 nrows tok) q tok s

/-- ASTAT (R316): its result is pending until the operation completes; every member of the unit waits for it. -/
def execAstat (vd : VNum) (acc : BitVec 3) (row0 nrows : BitVec 6) (look : BitVec 4) (tok : BitVec 3) (s : State) : Next :=
  let i : Instr := .astat vd acc row0 nrows look tok
  onceWord i (fun x t =>
    if t.claimPending x.key (t.names x.g.launch i) then stall
    else
      let (id, t) := t.addPendUnit look.toNat [vd.toNat, vd.toNat + 1] tok.toNat
      .ok (t.putPre x { t.newPre i x [] [] 0 none with pend := id }) {}) s

/-! ## Power (R317-R319) -/

/-- A wake of the gated sub-arrays begins. -/
def Core.wake (c : Core) : Core := if c.gated == 0#4 then c else { c with waking := true }

/-- Whether a core is in budget mode: a resident gang's launch came from a queue of priority 7 (R319). -/
def State.budgetMode (s : State) (core : Nat) : Bool :=
  s.gangs.any fun kg => coreOf kg.1 == core && kg.2.alive && kg.2.qpri == 7

/-- MWAKE.NOW (R318). -/
def execMwakeNow (s : State) : Next :=
  onceWord .mwakeNow (fun x t => .ok (t.updCore (coreOf x.key) Core.wake) {}) s

/-- MWAKE.IDLE (R318). -/
def execMwakeIdle (n : BitVec 16) (s : State) : Next :=
  onceWord (.mwakeIdle n) (fun x t => .ok (t.updCore (coreOf x.key) fun c => { c with idle := n }) {}) s

/-- The value of MSTAT (R321). -/
def State.mstat (s : State) (x : Seat) (form : MstatSel) : Word64 :=
  let c := s.core (coreOf x.key)
  match form with
  | .claims =>
    let n := c.heldBy (s.leadOf x.key)
    BitVec.ofNat 64 (n.slots.toNat + n.tiles.toNat * 2 ^ 32
      + (if c.claims.any (fun k => s.sameTeam k.gang x.key) then 2 ^ 40 else 0))
  | .unit =>
    BitVec.ofNat 64 ((c.engine 1).ops.length % 64 + c.gated.toNat * 256 + (if c.waking then 2 ^ 12 else 0)
      + (if s.budgetMode (coreOf x.key) then 2 ^ 13 else 0))
  | .fault => (c.engine 1).fault

/-- MSTAT (R321, R462): every member of the unit reads the word as it stood at issue, as the result of a long-latency word
(R92); FAULT clears it. -/
def execMstat (form : MstatSel) (vd : VNum) (s : State) : Next :=
  valueWord (.mstat form vd) vd 0#4 0#3 (fun x t => t.mstat x form)
    (fun x t => if form == .fault then t.updEngine (coreOf x.key) 1 (fun e => { e with fault := 0#64 }) else t) s

/-! ## Operand memory and tiles -/

/-- Writing bytes into a slot. -/
def State.putSlot (s : State) (core slot ofs : Nat) (bs : List Byte) : State :=
  { s with mem := Memory.sets s.mem (indexFrom (operandBase core + slot * 8192 + ofs) bs) }

/-- The key of a tile element. -/
def tileKey (t i j : Nat) : Nat := t * 4096 + i * 64 + j
/-- The image of a tile element. -/
def Core.tileAt (c : Core) (t i j : Nat) : Img := Tab.at c.tiles zeroImg (tileKey t i j)
/-- Writing a tile element. -/
def Core.putTile (c : Core) (t i j : Nat) (x : Img) : Core := { c with tiles := Tab.put c.tiles (tileKey t i j) x }
/-- Writing some rows of a tile. -/
def Core.putRows (c : Core) (t row0 n : Nat) (f : Nat → Nat → Img) : Core :=
  (List.range n).foldl (fun c i => (List.range 64).foldl (fun c j => c.putTile t (row0 + i) j (f (row0 + i) j)) c) c

/-! ## Operand elements (R305, R306, R310) -/

/-- The bits of a format code's own width. -/
def codeBits (f : Nat) : Nat :=
  if f = 0 || f = 0xE then 32 else if f = 1 then 64 else if f = 2 || f = 3 then 16
  else if f = 6 || f = 7 then 6 else if is4bit f then 4 else 8

/-- The FP format of a code. -/
def codeCls? (f : Nat) : Option FpCls :=
  match f with
  | 0 => some .f32
  | 1 => some .f64
  | 2 => some .f16
  | 3 => some .bf16
  | 4 => some .e4m3
  | 5 => some .e5m2
  | 6 => some .e3m2
  | 7 => some .e2m3
  | 8 => some .e2m1
  | _ => none

/-- The integer that a code stands for: INT8, UINT8, INT4, UINT4, INT32. -/
def codeInt (f c : Nat) : Int := if f = 9 || f = 0xB || f = 0xE then toSigned (codeBits f) c else (c % 2 ^ codeBits f : Nat)

/-- The exact value of an element. -/
def codeFp (f c : Nat) : Fp :=
  match codeCls? f with
  | some k => decodeFp k (c % 2 ^ codeBits f)
  | none => let v := codeInt f c; .fin (decide (v < 0)) v.natAbs 0

/-- A slot's map (R304): orientation, pitch and base in bytes. -/
def mapOuter (m : BitVec 20) : Bool := m.toNat / 2 ^ 18 % 4 = 1
def mapPitch (m : BitVec 20) : Nat := m.toNat / 2 ^ 9 % 512 * 16
def mapBase (m : BitVec 20) : Nat := m.toNat % 512 * 16

/-- The bit offset of element (r, k) (R305). -/
def elemBit (m : BitVec 20) (kr w r k : Nat) : Nat :=
  let packed := if mapOuter m then 64 * w / 8 else kr * w / 8
  let pitch := if mapPitch m = 0 then packed else mapPitch m
  if mapOuter m then 8 * mapBase m + 8 * pitch * k + w * r else 8 * mapBase m + 8 * pitch * r + w * k

/-- An operand as read: bits of its slots, map, format, row length, width, scales. -/
structure Operand where
  bits : Nat
  map : BitVec 20
  fmt : Nat
  kr : Nat
  w : Nat
  scales : Option (List Byte)
  blk : Nat
  deriving DecidableEq, Repr

/-- The code of an element, its own bits. -/
def Operand.code (o : Operand) (r k : Nat) : Nat := o.bits / 2 ^ elemBit o.map o.kr o.w r k % 2 ^ codeBits o.fmt

/-- Scale blocks of a row (R306). -/
def Operand.blocks (o : Operand) : Nat := max 1 (o.kr / o.blk)

/-- The exact scaled value of an element (R170, R310). -/
def Operand.value (o : Operand) (r k : Nat) : Fp :=
  let v := codeFp o.fmt (o.code r k)
  match o.scales with
  | none => v
  | some bs =>
    let e := (bs.getD (r * o.blocks + k / o.blk) 0#8).toNat
    if e = 0xFF then .nan else v.scale ((e : Int) - 127)

/-- Whether every element ends within the operand's slots. -/
def operandFits (m : BitVec 20) (kr w span : Nat) : Bool := elemBit m kr w 63 (kr - 1) + w ≤ 65536 * span

/-- Reading an operand; `kept` holds the bytes that the operation read before a copy replaced them (R323), by address. -/
def State.operand (s : State) (kept : Tab Byte) (core slot fmt kr blk : Nat) (sc : Bool × Nat × Nat) : Operand :=
  let span := mmaSpan fmt kr
  let read := fun (slot ofs n : Nat) => (List.range n).map fun i =>
    let a := operandBase core + slot * 8192 + ofs + i
    (Tab.find? kept a).getD (Memory.get s.mem a)
  { bits := leNat (read slot 0 (8192 * span)), map := Tab.at (s.core core).maps 0#20 slot, fmt := fmt
    kr := kr, w := mmaWidth fmt kr, blk := blk
    scales := if sc.1 then some (read ((slot + sc.2.1) % 32) sc.2.2 (64 * max 1 (kr / blk))) else none }

/-- Whether an MMA works in the INT32 class. -/
def MmaCmd.isInt (m : MmaCmd) : Bool := 9 ≤ m.fa && 9 ≤ m.fb && !m.sca.1 && !m.scb.1

/-- One element of the result (R310). -/
def mmaElem (isInt : Bool) (a b : Operand) (lsum i j : Nat) (acc : Img) : Img :=
  let block := fun (c : Nat) => (List.range lsum).map (c * lsum + ·)
  (List.range (a.kr / lsum)).foldl (fun acc c =>
    if isInt then
      let s : Int := (block c).foldl (fun n k => n + codeInt a.fmt (a.code i k) * codeInt b.fmt (b.code j k)) 0
      intImg (acc.val + BitVec.ofInt 32 s)
    else
      let s := Fp.sum ((block c).map fun k => (a.value i k).mul (b.value j k))
      (fAdd .f32 (oprOf .f32 (acc, zeroImg)) ⟨s, false, 26⟩).1) acc

/-- The tile that an MMA leaves; `kept` holds what it read before a copy replaced it (R323). -/
def State.mmaTile (s : State) (kept : Tab Byte) (core : Nat) (m : MmaCmd) : State :=
  let kr := mmaKr m.fa m.fb
  let a := s.operand kept core m.sa m.fa kr m.ka m.sca
  let b := s.operand kept core m.sb m.fb kr m.kb m.scb
  let lsum := min (min m.ka m.kb) kr
  s.updCore core fun c =>
    let old := fun i j => if m.start then (if m.isInt then intImg 0#32 else zeroImg) else c.tileAt m.acc i j
    c.putRows m.acc 0 64 fun i j => mmaElem m.isInt a b lsum i j (old i j)

/-- Whether an MMA reads a poisoned unit of operand memory, what it has read already apart. -/
def State.mmaPoisoned (s : State) (kept : Tab Byte) (core : Nat) (m : MmaCmd) : Bool :=
  !s.poison.isEmpty && (List.range 32).any fun k =>
    (m.operandSlots ||| m.scaleSlots).getLsbD k && (List.range 512).any fun j =>
      let a := operandBase core + k * 8192 + 16 * j
      s.poisoned [a] && (List.range 16).any fun i => (Tab.find? kept (a + i)).isNone

/-- The slot of an MMA that its XCOPYM filled: a follow-on carries it (R287). -/
def Op.filled (o : Op) : Nat := quadNat (Tab.at o.vals [] 0) 0

/-- A byte of a slot as an MMA that is under way has read it, before a copy replaces it (R323): for each byte the MMA has
read either the old byte or not yet; a follow-on has read all of its other operand slot at its start (R287). -/
def State.keepByte (s : State) (slot : Nat) (m : MmaCmd) (o : Op) (a : Nat) : Op :=
  if (Tab.find? o.got a).isSome then o
  else if (o.follow && slot != o.filled && m.operandSlots.getLsbD slot) || Config.readAlready s.tick a then
    { o with got := Tab.put o.got a (Memory.get s.mem a), bad := o.bad || s.poisoned [a] }
  else o

/-- An operation of the matrix unit before a copy replaces some bytes of a slot. -/
def State.keepOperand (s : State) (slot : Nat) (cells : List Nat) (o : Op) : Op :=
  match s.mmaOf o.launch o.instr with
  | some m =>
    if o.phase == .registered || !(m.operandSlots ||| m.scaleSlots).getLsbD slot then o
    else cells.foldl (s.keepByte slot m) o
  | none => o

/-- The matrix unit's operations before a copy replaces some bytes of a slot. -/
def State.keepOld (s : State) (core slot : Nat) (cells : List Nat) : State :=
  s.updEngine core 1 fun e => { e with ops := e.ops.map (s.keepOperand slot cells) }

/-- Set bits of a number. -/
def onesIn (w n : Nat) : Nat := popNat w n

/-- The charge of an MMA (R319). -/
def State.mmaCharge (s : State) (core : Nat) (m : MmaCmd) : Nat :=
  let kr := mmaKr m.fa m.fb
  let count := fun (o : Operand) =>
    (List.range 64).foldl (fun n r => (List.range (kr - 1)).foldl (fun n k =>
      n + onesIn 16 (o.code r k ^^^ o.code r (k + 1))) n) 0
  let t := count (s.operand [] core m.sa m.fa kr m.ka m.sca) + count (s.operand [] core m.sb m.fb kr m.kb m.scb)
  1 + t / 1024

/-! ## Faults of operations (R463) -/

/-- The lowest of some optional faults, as (CODE, ARG). -/
def lowestFault (fs : List (Option (Nat × Nat))) : Option (Nat × Nat) :=
  fs.foldl (fun m f => match m, f with
    | none, f => f
    | m, none => m
    | some a, some b => if b.1 < a.1 then some b else some a) none

/-- The lowest slot of a set. -/
def lowSlot (m : BitVec 32) : Nat := (((List.range 32).filter m.getLsbD).head?).getD 0

/-- The fault that an MMA meets. R463 names for code 4 the format slot and not which: it is slot B where format A is one
that R305 pairs with some format, else slot A (DESIGN CHOICE, log 141). -/
def State.mmaFault (s : State) (core lead : Nat) (m : MmaCmd) : Option (Nat × Nat) :=
  let c := s.core core
  let own := c.heldBy lead
  let kr := mmaKr m.fa m.fb
  let miss := m.operandSlots &&& ~~~own.slots
  let missScale := m.scaleSlots &&& ~~~own.slots
  let noScale := fun f => !((4 ≤ f && f ≤ 8) || (9 ≤ f && f ≤ 12))
  let beyond := fun slot f =>
    (mmaSpan f kr = 2 && slot = 31) || !operandFits (Tab.at c.maps 0#20 slot) kr (mmaWidth f kr) (mmaSpan f kr)
  let tooFar := fun (sc : Bool × Nat × Nat) blk => sc.1 && 8192 < sc.2.2 + 64 * max 1 (kr / blk)
  lowestFault [
    if miss != 0#32 then some (1, lowSlot miss) else none,
    if missScale != 0#32 then some (2, lowSlot missScale) else none,
    if own.tiles.getLsbD m.acc then none else some (3, m.acc),
    if mmaPair m.fa m.fb then none else some (4, if 2 ≤ m.fa && m.fa ≤ 12 then m.slotB else m.slotA),
    if m.sca.1 && noScale m.fa then some (5, m.slotA) else if m.scb.1 && noScale m.fb then some (5, m.slotB) else none,
    if beyond m.sa m.fa then some (6, m.sa) else if beyond m.sb m.fb then some (6, m.sb) else none,
    if tooFar m.sca m.ka then some (7, (m.sa + m.sca.2.1) % 32)
    else if tooFar m.scb m.kb then some (7, (m.sb + m.scb.2.1) % 32) else none]

/-- The formats that AREAD and AWRITE take (R313): whether the tile is INT32, and the output code. -/
def tilePair (afmt ofmt : Nat) : Bool :=
  (afmt = 0 && ofmt ≤ 8) || (afmt = 0xE && (ofmt = 0 || ofmt = 9 || ofmt = 0xA || ofmt = 0xE))

/-- Bytes of a row of 64 elements. -/
def rowBytes (ofmt : Nat) : Nat := 8 * codeBits ofmt

/-- The address of a row under a memory end. -/
def rowAddr (q : List Img) (r : Nat) : Word64 :=
  mkAddr (hndOf (quadWord q 0)) (offOf (quadWord q 0) + r * (quadNat q 2 % 2 ^ 20))

/-- The fault of AREAD and AWRITE. -/
def State.tileFault (s : State) (core lead : Nat) (o : Op) (acc fmt nrows : Nat) (wr : Bool) : Option (Nat × Nat) :=
  let d := s.slotOf o.launch fmt
  let q := Tab.at o.vals [] 0
  let n := rowBytes (slotOfmt d)
  let end_ := offOf (quadWord q 0) + nrows * (quadNat q 2 % 2 ^ 20)
  lowestFault [
    if ((s.core core).heldBy lead).tiles.getLsbD acc then none else some (3, acc),
    if tilePair (slotAfmt d) (slotOfmt d) then none else some (4, fmt),
    if 2 ^ 20 ≤ quadNat q 2 || 16 ≤ quadNat q 3 || quadNat q 2 % 2 ^ 20 < n then some (8, 0) else none,
    if 2 ^ 40 ≤ end_ || (List.range (nrows + 1)).any (fun r => mapRefuses o.maps (s.opSecure o) wr (!wr) (rowAddr q r) n)
    then some (10, 0) else none]

/-- The fault that an operation of the matrix unit meets at its start (R463). -/
def State.matrixFault (s : State) (core : Nat) (o : Op) : Option (Nat × Nat) :=
  let lead := s.leadOf o.gang
  let own := (s.core core).heldBy lead
  let unheld := fun (m : BitVec 8) => (((List.range 8).filter fun t => m.getLsbD t && !own.tiles.getLsbD t).head?).map fun t => (3, t)
  match o.instr with
  | .omap slot _ _ _ _ => if own.slots.getLsbD slot.toNat then none else some (1, slot.toNat)
  | .oload _ slot len _ =>
    let q := Tab.at o.vals [] 0
    let n := (len.toNat + 1) * 64
    lowestFault [
      if own.slots.getLsbD slot.toNat then none else some (1, slot.toNat),
      if 8192 ≤ quadNat q 2 || 16 ≤ quadNat q 3 then some (8, 0) else none,
      if 8192 < quadNat q 2 % 8192 + n then some (9, slot.toNat) else none,
      if mapRefuses o.maps (s.opSecure o) false true (quadWord q 0) n then some (10, 0) else none]
  | .mma .. =>
    match s.mmaOf o.launch o.instr with
    | some m => s.mmaFault core lead m
    | none => none
  | .aclr _ tmask _ => unheld tmask
  | .astat _ acc _ _ _ _ => unheld (bit8 acc.toNat)
  | .aread acc _ fmt _ nrows _ => s.tileFault core lead o acc.toNat fmt.toNat nrows.toNat true
  | .awrite acc _ fmt _ nrows _ => s.tileFault core lead o acc.toNat fmt.toNat nrows.toNat false
  | _ => none

/-! ## What operations do -/

/-- The ranges of an operation with a memory end (R307, R314, R315). -/
def State.matrixRanges (s : State) (p : Pre) (secure : Bool) : List (Nat × Nat) × List (Nat × Nat) :=
  let q := Tab.at p.vals [] 0
  let rows := fun (fmt nrows : Nat) (wr : Bool) =>
    (List.range (nrows + 1)).flatMap fun r =>
      mapRanges p.maps secure wr (rowAddr q r) (rowBytes (slotOfmt (s.slotOf p.launch fmt)))
  match p.instr with
  | .oload _ _ len _ => (mapRanges p.maps secure false (quadWord q 0) ((len.toNat + 1) * 64), [])
  | .aread _ _ fmt _ nrows _ => ([], rows fmt.toNat nrows.toNat true)
  | .awrite _ _ fmt _ nrows _ => (rows fmt.toNat nrows.toNat false, [])
  | _ => ([], [])

/-- The rounding mode of a slot's output (R181). -/
def slotMode (d : Word64 × Word64) (ctl : Word64) : Rnd :=
  match rndOfNat (slotOrnd d) with
  | some r => r
  | none => modeOf .dyn ctl

/-- The code that AREAD writes for an image (R314). -/
def readCode (intTile : Bool) (ofmt : Nat) (mode : Rnd) (sat : Bool) (x : Img) : Nat :=
  let v := x.val.toInt
  if intTile then
    if ofmt = 0xE then x.val.toNat
    else if ofmt = 9 then (clampInt (-128) 127 v % 256).toNat
    else if ofmt = 0xA then (clampInt 0 255 v).toNat
    else finalRound .f32 mode sat (.fin (decide (v < 0)) v.natAbs 0)
  else
    match codeCls? ofmt with
    | some c => finalRound c mode sat (imgValue .f32 (x, zeroImg))
    | none => 0

/-- The image that AWRITE writes for an element's code, with the tags read for it (R315). -/
def writeImg (intTile : Bool) (ofmt : Nat) (mode : Rnd) (code : Nat) (tags : List Byte) : Img :=
  if intTile then
    if ofmt = 0 then intImg (BitVec.ofInt 32 (finalRoundInt true 32 mode (decodeFp .f32 code)))
    else intImg (BitVec.ofInt 32 (codeInt ofmt code))
  else if ofmt = 1 then
    let bs := leBytes 8 code
    let xs := if tags.isEmpty then loadImgs .f64 bs else tagImgs .w64 bs tags
    (fcvtLane .f32 .f64 (xs.getD 0 zeroImg, xs.getD 1 zeroImg)).1
  else if ofmt = 0 && !tags.isEmpty then (tagImgs .w32 (leBytes 4 code) tags).getD 0 zeroImg
  else
    match codeCls? ofmt with
    | some c => (loadedImg c code).1
    | none => zeroImg

/-- Packing 64 codes of a width into bytes. -/
def packRow (w : Nat) (codes : List Nat) : List Byte :=
  leBytes (8 * w) ((indexFrom 0 codes).foldl (fun n ic => n + ic.2 * 2 ^ (w * ic.1)) 0)

/-- The tags of a written run of FP32 words (R229). -/
def f32Tags (a : Word64) (n : Nat) : WrTag := if offOf a % 4 = 0 then .exact (List.replicate (n / 4) 0x1A#8) else .other

/-- The pieces that an operation performs after its start. -/
def State.matrixPieces (s : State) (core : Nat) (o : Op) : List Piece :=
  let q := Tab.at o.vals [] 0
  match o.instr with
  | .oload _ _ len _ => o.readAt 0 (quadWord q 0) ((len.toNat + 1) * 64) false
  | .aread acc _ fmt row0 nrows _ =>
    let d := s.slotOf o.launch fmt.toNat
    let c := s.core core
    (List.range (nrows.toNat + 1)).flatMap fun r =>
      let codes := (List.range 64).map fun j =>
        readCode (slotAfmt d = 0xE) (slotOfmt d) (slotMode d o.ctl) (slotOsat d) (c.tileAt acc.toNat (row0.toNat + r) j)
      let a := rowAddr q r
      o.writeAt r a (packRow (codeBits (slotOfmt d)) codes)
        (if slotOfmt d = 0 then f32Tags a (rowBytes 0) else .other)
  | .awrite _ _ fmt _ nrows _ =>
    let d := s.slotOf o.launch fmt.toNat
    (List.range (nrows.toNat + 1)).flatMap fun r =>
      let a := rowAddr q r
      o.readAt r a (rowBytes (slotOfmt d)) (slotAfmt d = 0 && slotOfmt d ≤ 1 && offOf a % 4 = 0)
  | _ => []

/-- ASTAT's word (R316). -/
def astatWord (xs : List Img) : Word64 :=
  let v := fun x => imgValue .f32 (x, zeroImg)
  let ns := (xs.filter Img.s).length
  let kmax := xs.foldl (fun k x => max k x.k) 0
  let kmin := xs.foldl (fun k x => min k x.k) 63
  let flag := fun (b : Bool) (n : Nat) => if b then 2 ^ n else 0
  BitVec.ofNat 64 (ns * 2 ^ 32 + flag (xs.any fun x => (v x).isZero && x.s && x.k == 0) 19
    + flag (xs.any fun x => (v x).isInf) 18 + flag (xs.any fun x => (v x).isNan) 17 + flag (0 < ns) 16
    + kmax * 256 + kmin)

/-- What an operation does at its start, beyond its pieces: its map, tiles or result. An MMA reads its operands until it
completes (R323). -/
def State.matrixStart (s : State) (core : Nat) (o : Op) : State × Word64 :=
  match o.instr with
  | .omap slot orient pitch base _ =>
    let m : BitVec 20 := (if orient == .m then 1#2 else 0#2) ++ pitch ++ base
    (s.updCore core fun c => { c with maps := if m == 0#20 then Tab.del c.maps slot.toNat else Tab.put c.maps slot.toNat m }, 0#64)
  | .aclr cls tmask _ =>
    let x := if cls == .i then intImg 0#32 else zeroImg
    (s.updCore core fun c =>
      (List.range 8).foldl (fun c t => if tmask.getLsbD t then c.putRows t 0 64 (fun _ _ => x) else c) c, 0#64)
  | .astat _ acc row0 nrows _ _ =>
    let c := s.core core
    let xs := (List.range (nrows.toNat + 1)).flatMap fun i => (List.range 64).map fun j => c.tileAt acc.toNat (row0.toNat + i) j
    (s, astatWord xs)
  | _ => (s, 0#64)

/-- What an operation does at its completion: the tile of an MMA, a loaded slot, written tile rows, the result of ASTAT. -/
def State.matrixEnd (s : State) (core : Nat) (o : Op) : State :=
  let q := Tab.at o.vals [] 0
  match o.instr with
  | .mma .. =>
    match s.mmaOf o.launch o.instr with
    | some m =>
      if o.fault != 0 then s
      else if o.bad || s.mmaPoisoned o.got core m then s.haltLaunch o.launch 0x7D
      else s.mmaTile o.got core m
    | none => s
  | .oload _ slot len _ =>
    if o.fault != 0 then s else s.putSlot core slot.toNat (quadNat q 2 % 8192) (o.bytes 0 0 ((len.toNat + 1) * 64))
  | .awrite acc _ fmt row0 nrows _ =>
    if o.fault != 0 then s
    else
      let d := s.slotOf o.launch fmt.toNat
      let w := codeBits (slotOfmt d)
      let img := fun (i j : Nat) =>
        let r := i - row0.toNat
        let code := leNat (o.bytes r 0 (rowBytes (slotOfmt d))) / 2 ^ (w * j) % 2 ^ w
        let tagged := (Tab.find? o.gotTag (datumKey r 0)).isSome
        let tags := if tagged then (List.range (w / 32)).map fun k => Tab.at o.gotTag 0#8 (datumKey r (w / 32 * j + k)) else []
        writeImg (slotAfmt d = 0xE) (slotOfmt d) (slotMode d o.ctl) code tags
      s.updCore core fun c => c.putRows acc.toNat row0.toNat (nrows.toNat + 1) img
  | .astat vd _ _ _ _ _ => s.land o.gang o.pend (outWord vd.toNat (if o.fault != 0 then BitVec.allOnes 64 else o.result))
  | _ => s

end Sys2Proof.Machine
end

