-- ==== Sys2Proof/Machine/MemoryOps.lean ====
section
/-! DEFINITION. The meanings of the memory instructions (R230-R253, R466-R469, R471, R477): at issue each checks its
lanes and enters its stream; the steps of the order machine do the rest. -/

namespace Sys2Proof.Machine

/-! ## Loads and stores -/

/-- A member's accesses, checked; then what it does. -/
def checked (x : Seat) (s : State) (accs : List Acc) (k : State → State) : SeatRes :=
  match s.accFlaw x accs with
  | some f => .trap f
  | none => .ok (k s) {}

/-- The accesses of the active lanes at some addresses. -/
def Seat.accs (x : Seat) (n : Nat) (wr rd : Bool) (align : Nat) (needTag : Bool) (adr : Nat → Word64) : List Acc :=
  (maskLanes x.act).map fun l => ⟨l, adr l, n, wr, rd, align, needTag⟩

/-- Registers of a result. -/
def resultRegs (d : VNum) (len : Nat) : List Nat := (List.range len).map (d.toNat + ·)

/-- LD (R236). -/
def execLd (size : Size) (d : VNum) (m : MemRef) (stream look : BitVec 4) (tok : BitVec 3) (mk : MNum) (s : State) : Next :=
  let i : Instr := .ld size d m stream look tok mk
  let n := sizeBytes size
  seatWord i (fun x t =>
    checked x t (x.accs n false true 1 false (laneAddr x.g m n)) fun t =>
      let todo := (maskLanes x.act).flatMap fun l => t.readPieces x.key l (laneAddr x.g m n l) n false
      t.putLoad x stream.toNat look.toNat tok.toNat (resultRegs d (sizeLen size)) { t.newEntry i x with todo := todo }) s

/-- The mode that a store rounds by (R237). -/
def storeMode (rnd : Rnd) (x : Seat) : Rnd := modeOf rnd x.g.rndctl

/-- What a store writes in a lane. -/
def Seat.datum (x : Seat) (size : Size) (rnd : Rnd) (vs : VNum) (l : Nat) : List Byte :=
  storeBytes size (storeMode rnd x) (satOf x.g.rndctl) (x.g.imgs vs.toNat (sizeLen size) l)

/-- ST (R237). -/
def execSt (size : Size) (rnd : Rnd) (vs : VNum) (m : MemRef) (stream : BitVec 4) (tok : BitVec 3) (mk : MNum) (s : State) :
    Next :=
  let i : Instr := .st size rnd vs m stream tok mk
  let n := sizeBytes size
  seatWord i (fun x t =>
    checked x t (x.accs n true false 1 false (laneAddr x.g m n)) fun t =>
      let todo := (maskLanes x.act).flatMap fun l =>
        t.writePieces x.key l (laneAddr x.g m n l) (x.datum size rnd vs l) (sizeTag size)
      t.putStore x stream.toNat tok.toNat { t.newEntry i x with todo := todo }) s

/-- LDT (R239). -/
def execLdt (size : Size) (d : VNum) (m : MemRef) (stream look : BitVec 4) (tok : BitVec 3) (mk : MNum) (s : State) : Next :=
  let i : Instr := .ldt size d m stream look tok mk
  let n := sizeBytes size
  seatWord i (fun x t =>
    checked x t (x.accs n false true 4 true (laneAddr x.g m n)) fun t =>
      let todo := (maskLanes x.act).flatMap fun l => t.readPieces x.key l (laneAddr x.g m n l) n true
      t.putLoad x stream.toNat look.toNat tok.toNat (resultRegs d (sizeLen size)) { t.newEntry i x with todo := todo }) s

/-- STT (R240): value and tag of each element, verbatim. -/
def execStt (size : Size) (vs : VNum) (m : MemRef) (stream : BitVec 4) (tok : BitVec 3) (mk : MNum) (s : State) : Next :=
  let i : Instr := .stt size vs m stream tok mk
  let n := sizeBytes size
  seatWord i (fun x t =>
    checked x t (x.accs n true false 4 true (laneAddr x.g m n)) fun t =>
      let todo := (maskLanes x.act).flatMap fun l =>
        let xs := x.g.imgs vs.toNat (sizeLen size) l
        t.writePieces x.key l (laneAddr x.g m n l) (imgBytes xs) (.exact (xs.map (·.tag)))
      t.putStore x stream.toNat tok.toNat { t.newEntry i x with todo := todo }) s

/-- LDB (R238): one access serves every active lane. -/
def execLdb (size : Size) (d : VNum) (hnd : HNum) (disp : BitVec 12) (stream look : BitVec 4) (tok : BitVec 3) (mk : MNum)
    (s : State) : Next :=
  let i : Instr := .ldb size d hnd disp stream look tok mk
  let n := sizeBytes size
  let m : MemRef := ⟨hnd, none, disp⟩
  seatWord i (fun x t =>
    checked x t (x.accs n false true 1 false (laneAddr x.g m n)) fun t =>
      let todo := ((maskLanes x.act).take 1).flatMap fun l => t.readPieces x.key l (laneAddr x.g m n l) n false
      t.putLoad x stream.toNat look.toNat tok.toNat (resultRegs d (sizeLen size)) { t.newEntry i x with todo := todo }) s

/-! ## Gather and scatter (R241, R242, R469) -/

/-- Whether an exact offset of n bytes lies in the extent of a handle; an address whose handle is not VALID counts as
in range, and meets that fault. -/
def inExtent (h : Option Handle) (o : Int) (n : Nat) : Bool :=
  match h with
  | none => true
  | some h => decide (0 ≤ o ∧ o + n ≤ attrBytes h.attr)

/-- The lanes of a gather or scatter whose offset is out of range. -/
def State.outOfRange (s : State) (x : Seat) (hnd : HNum) (ofs : VNum) (disp : BitVec 12) (n : Nat) : Mask :=
  let h := s.hnd? x.key (x.g.hreg hnd.toNat)
  x.act &&& maskOf fun l => !inExtent h (gatherOffset x.g hnd ofs disp n l) n

/-- Counting out-of-range lanes (R242). -/
def Gang.countIdx (g : Gang) (k : Nat) : Gang :=
  { g with idxcnt := BitVec.ofNat 64 (min (fieldOf g.idxcnt 0 32 + k) (2 ^ 32 - 1)) }

/-- A gather or scatter: the in-range lanes are checked; out-of-range lanes trap or are counted. -/
def gather (x : Seat) (s : State) (wr : Bool) (hnd : HNum) (ofs : VNum) (disp : BitVec 12) (n : Nat)
    (k : State → List (Nat × Word64) → State) : SeatRes :=
  let bad := s.outOfRange x hnd ofs disp n
  let adr := fun l => mkAddr (hndOf (x.g.hreg hnd.toNat)) ((gatherOffset x.g hnd ofs disp n l) % 2 ^ 40).toNat
  let lanes := maskLanes (x.act &&& ~~~bad)
  match s.accFlaw x (lanes.map fun l => ⟨l, adr l, n, wr, !wr, 1, false⟩) with
  | some f => .trap f
  | none =>
    match lowLane? bad with
    | some l =>
      if x.g.memctl.getLsbD 0 then
        .trap (flaw 0x0A 0 bad (BitVec.ofNat 64 (((x.g.reg ofs.toNat).lane l).val.toNat))
          (BitVec.ofInt 64 (gatherOffset x.g hnd ofs disp n l)))
      else .ok (k (s.updGang x.key fun g => g.countIdx (popMask bad)) (lanes.map fun l => (l, adr l))) {}
    | none => .ok (k s (lanes.map fun l => (l, adr l))) {}

/-- LDG (R241). -/
def execLdg (size : Size) (d : VNum) (hnd : HNum) (ofs : VNum) (disp : BitVec 12) (stream look : BitVec 4) (tok : BitVec 3)
    (mk : MNum) (s : State) : Next :=
  let i : Instr := .ldg size d hnd ofs disp stream look tok mk
  let n := sizeBytes size
  seatWord i (fun x t =>
    gather x t false hnd ofs disp n fun t las =>
      let todo := las.flatMap fun la => t.readPieces x.key la.1 la.2 n false
      t.putLoad x stream.toNat look.toNat tok.toNat (resultRegs d (sizeLen size)) { t.newEntry i x with todo := todo }) s

/-- STS (R241). -/
def execSts (size : Size) (rnd : Rnd) (vs : VNum) (hnd : HNum) (ofs : VNum) (disp : BitVec 12) (stream : BitVec 4)
    (tok : BitVec 3) (mk : MNum) (s : State) : Next :=
  let i : Instr := .sts size rnd vs hnd ofs disp stream tok mk
  let n := sizeBytes size
  seatWord i (fun x t =>
    gather x t true hnd ofs disp n fun t las =>
      let todo := las.flatMap fun la => t.writePieces x.key la.1 la.2 (x.datum size rnd vs la.1) (sizeTag size)
      t.putStore x stream.toNat tok.toNat { t.newEntry i x with todo := todo }) s

/-! ## Tile moves (R243) -/

/-- Whether a lane's tags move with its values. -/
def State.movesTags (s : State) (key : Nat) (src dst : Word64) (n : Nat) : Bool :=
  let tagged := fun a => match s.hnd? key a, s.gang? key with
    | some h, some g => (s.tagPlane (s.partOf g) (coreOf key) h).isSome
    | _, _ => false
  tagged src && tagged dst && offOf src % 4 == 0 && offOf dst % 4 == 0 && n % 4 == 0

/-- TMOV (R243): the reads of every lane, then the writes. -/
def execTmov (size : Size) (lc : BitVec 3) (vd : VNum) (m : MemRef) (stream : BitVec 4) (tok : BitVec 3) (mk : MNum)
    (s : State) : Next :=
  let i : Instr := .tmov size lc vd m stream tok mk
  let n := sizeBytes size * 2 ^ lc.toNat
  seatWord i (fun x t =>
    let src := laneAddr x.g m (sizeBytes size)
    let dst := fun l => x.g.pairAt vd.toNat l
    checked x t (x.accs n false true 1 false src ++ x.accs n true false 1 false dst) fun t =>
      let lanes := maskLanes x.act
      let reads := lanes.flatMap fun l => t.readPieces x.key l (src l) n (t.movesTags x.key (src l) (dst l) n)
      let writes := lanes.flatMap fun l => t.writePieces x.key l (dst l) (List.replicate n 0#8) .other
      t.putStore x stream.toNat tok.toNat { t.newEntry i x with todo := reads ++ writes }) s

/-! ## Atomics (R244, R245) -/

/-- The entry of an atomic: one request per active lane, with its operands. -/
def State.atomEntry (s : State) (i : Instr) (x : Seat) (n len : Nat) (vs : VNum) (m : MemRef) : Entry :=
  let lanes := maskLanes x.act
  { s.newEntry i x with
    vals := lanes.map fun l => (l, x.g.imgs vs.toNat len l)
    todo := lanes.flatMap fun l => s.writePieces x.key l (laneAddr x.g m n l) (List.replicate n 0#8) .other }

/-- ATOM (R245). -/
def execAtom (op : AtomOp) (size : Size) (vs : VNum) (m : MemRef) (stream : BitVec 4) (tok : BitVec 3) (mk : MNum)
    (s : State) : Next :=
  let i : Instr := .atom op size vs m stream tok mk
  let n := sizeBytes size
  seatWord i (fun x t =>
    checked x t (x.accs n true true n false (laneAddr x.g m n)) fun t =>
      t.putStore x stream.toNat tok.toNat (t.atomEntry i x n (atomLen op size) vs m)) s

/-- ATOMR (R245). -/
def execAtomr (op : AtomOp) (size : Size) (vs : VNum) (m : MemRef) (stream look : BitVec 4) (tok : BitVec 3) (mk : MNum)
    (s : State) : Next :=
  let i : Instr := .atomr op size vs m stream look tok mk
  let n := sizeBytes size
  seatWord i (fun x t =>
    checked x t (x.accs n true true n false (laneAddr x.g m n)) fun t =>
      t.putLoad x stream.toNat look.toNat tok.toNat (resultRegs vs (sizeLen size))
        (t.atomEntry i x n (atomLen op size) vs m)) s

/-! ## Entry consistency (R248, R249) -/

/-- ACQ (R248): a request at the token's home; the gang goes on. -/
def execAcq (mode : TokMode) (id : BitVec 12) (tok : BitVec 3) (s : State) : Next :=
  let excl := mode == .x
  seatWord (.acq mode id tok) (fun x t =>
    if excl && 1 < x.g.mates.length then .trap (flaw 0x01 7 x.act)
    else
      let request := fun (k : Tok) => { k with reqs := k.reqs ++ [(x.key, excl, tok.toNat)] }
      let t := t.updPart (t.partOf x.g) fun p => { p with tokens := Tab.upd p.tokens ⟨[], []⟩ id.toNat request }
      .ok (t.updGang x.key fun g => { g.tokAdd tok.toNat with acqs := g.acqs ++ [id.toNat] }) {}) s

/-- A release that waits for its gate (R268): the gangs in whose queues it stands, and each counts it on its token. -/
def State.putRel (s : State) (x : Seat) (kind : RelKind) (gangs : List Nat) (after : List Nat) (stream : Option Nat)
    (tok : Nat) : State :=
  let r : Rel := ⟨s.nextId, x.key, x.g.launch, s.partOf x.g, kind, after, stream, false, tok, gangs⟩
  let keys := if gangs.isEmpty then [x.key] else gangs
  { keys.foldl (fun (s : State) k => s.updGang k fun g => g.tokAdd tok) s with rels := s.rels ++ [r], nextId := s.nextId + 1 }

/-- The entry of a release, at the tail of some streams of a gang (R256): it bears the release's identity. -/
def State.relEntry (s : State) (i : Instr) (x : Seat) (streams : List Nat) : State :=
  streams.foldl (fun (s : State) st => s.enqueue x.key st (s.newEntry i x)) s

/-- REL (R249): an entry of every stream, since its gate names them all (R268). -/
def execRel (id : BitVec 12) (tok : BitVec 3) (s : State) : Next :=
  let i : Instr := .rel id tok
  seatWord i (fun x t =>
    let after := t.openEntries x.key
    .ok ((t.relEntry i x (List.range 16)).putRel x (.token id.toNat) [x.key] after none tok.toNat) {}) s

/-! ## Fences (R250) -/

/-- FENCE (R250, R267): one entry at the tail of every queue it names. -/
def execFence (kind : FenceKind) (set : BitVec 16) (s : State) : Next :=
  let i : Instr := .fence kind set
  seatWord i (fun x t =>
    let e := { t.newEntry i x with gate := t.gates x.key }
    let t := (fenceSet kind set).1.foldl (fun (t : State) st => t.enqueue x.key st e) t
    .ok { t with nextId := t.nextId + 1 } {}) s

/-! ## Circular buffers (R251, R252, R477) -/

/-- Memory access trap with DETAIL 8 (R468, R477): the buffer number and, where an address offends, that address, with the
HATTR of its handle. -/
def State.cbFlaw (s : State) (x : Seat) (cb : Nat) (a : Option Word64) : Flaw :=
  flaw 0x0C 8 x.act (a.getD 0#64 <<< 4 ||| BitVec.ofNat 64 cb) ((a.bind (s.hnd? x.key)).elim 0#64 (·.attr))

/-- The address of a slot. -/
def CBuf.slotAddr (b : CBuf) (n : Nat) : Word64 := mkAddr (hndOf b.base) (offOf b.base + n * b.size)

/-- The slot that an address names. -/
def CBuf.slotAt? (b : CBuf) (a : Word64) : Option Nat :=
  let d := offOf a - offOf b.base
  if hndOf a == hndOf b.base && offOf b.base ≤ offOf a && d % b.size == 0 && d / b.size < b.slots then some (d / b.size)
  else none

/-- The buffer ends of copy commands that name a buffer (R284). -/
def instrUsesCb (i : Instr) : Bool :=
  match i with
  | .xcopy dk srcCb .. => srcCb || dk == .cb
  | _ => false

/-- Whether a copy command registered on a core has a buffer as an end: its quads name it (R280). -/
def Core.cbInUse (c : Core) (cb : Nat) : Bool :=
  ((Tab.at c.engines Engine.fresh 0).ops).any fun (o : Op) =>
    match o.instr with
    | .xcopy dk srcCb .. =>
      (maskLanes o.act).any fun l =>
        let q := Tab.at o.vals [] l
        (srcCb && ((q.getD 0 zeroImg).val.toNat % 16 == cb)) || (dk == .cb && ((q.getD 2 zeroImg).val.toNat % 16 == cb))
    | _ => false

/-- Whether a buffer may not be defined anew (R477). -/
def Core.cbBusy (c : Core) (cb : Nat) : Bool :=
  c.cbInUse cb ||
    match Tab.find? c.cbs cb with
    | some b => !(b.waitRes.isEmpty && b.waitTake.isEmpty && b.reserved.isEmpty && b.taken.isEmpty)
    | none => false

/-- CBDEF (R251, R467, R477). -/
def execCbdef (cb : BitVec 4) (hnd : HNum) (disp : BitVec 12) (logs : BitVec 3) (size : BitVec 4) (s : State) : Next :=
  onceWord (.cbdef cb hnd disp logs size) (fun x t =>
    let slots := 2 ^ (logs.toNat + 1)
    let bytes := 2 ^ (size.toNat + 6)
    let a := laneAddr x.g ⟨hnd, none, disp⟩ bytes x.low
    let attr := fun (h : Handle) => h.attr
    match t.hnd? x.key a with
    | none => .trap (flaw 0x0C 1 x.act a)
    | some h =>
      if attrSecure h.attr && !(t.part (t.partOf x.g)).secure then .trap (flaw 0x0C 3 x.act a (attr h))
      else if offOf a % bytes != 0 then .trap (flaw 0x0C 5 x.act a (attr h))
      else if attrSpace h.attr < 2 || 4 < attrSpace h.attr then .trap (flaw 0x0C 7 x.act a (attr h))
      else if attrBytes h.attr < offOf a + slots * bytes then .trap (t.cbFlaw x cb.toNat (some a))
      else if (t.core (coreOf x.key)).cbBusy cb.toNat then .trap (t.cbFlaw x cb.toNat none)
      else
        let b : CBuf := ⟨a, h.phys (offOf a), slots, bytes, slots, 0, 0, 0, 0, 0, [], [], [], [], [], []⟩
        .ok (t.updCore (coreOf x.key) fun c => { c with cbs := Tab.put c.cbs cb.toNat b }) {}) s

/-- The buffer of a word's core. -/
def State.cb? (s : State) (key cb : Nat) : Option CBuf := Tab.find? (s.core (coreOf key)).cbs cb

/-- Changing a buffer that is defined. -/
def State.updCb (s : State) (core cb : Nat) (f : CBuf → CBuf) : State :=
  s.updCore core fun c =>
    match Tab.find? c.cbs cb with
    | some b => { c with cbs := Tab.put c.cbs cb (f b) }
    | none => c

/-- A request for a slot, as a pending result of every member of the unit (R252). -/
def cbRequest (i : Instr) (vd : VNum) (cb look tok : Nat) (ask : CBuf → CbReq → CBuf) (s : State) : Next :=
  onceWord i (fun x t =>
    match t.cb? x.key cb with
    | none => .trap (t.cbFlaw x cb none)
    | some _ =>
      let (id, t) := t.addPendUnit look (resultRegs vd 2) tok
      .ok (t.updCb (coreOf x.key) cb fun b => ask b ⟨some x.key, id, tok⟩) {}) s

/-- CBPUSH.RES (R252). -/
def execCbpushRes (vd : VNum) (cb look : BitVec 4) (tok : BitVec 3) (s : State) : Next :=
  cbRequest (.cbpushRes vd cb look tok) vd cb.toNat look.toNat tok.toNat
    (fun b r => { b with waitRes := b.waitRes ++ [r] }) s

/-- CBPOP.TAKE (R252). -/
def execCbpopTake (vd : VNum) (cb look : BitVec 4) (tok : BitVec 3) (s : State) : Next :=
  cbRequest (.cbpopTake vd cb look tok) vd cb.toNat look.toNat tok.toNat
    (fun b r => { b with waitTake := b.waitTake ++ [r] }) s

/-- The entries of a stream that write. -/
def State.openWrites (s : State) (key st : Nat) : List Nat :=
  ((s.gang? key).elim [] fun g =>
    ((g.stream st).filter (fun (e : Entry) => !e.wcells.isEmpty)).map fun (e : Entry) => e.id)

/-- The release of a slot by the unit: an entry of the named stream of each member, and one release for them all (R252,
R256, R270). -/
def State.handOver (s : State) (i : Instr) (x : Seat) (kind : RelKind) (open_ : State → Nat → List Nat) (st tok : Nat) : State :=
  let seats := s.seats 0
  let after := seats.flatMap fun y => open_ s y.key
  let s := seats.foldl (fun (s : State) y => s.relEntry i y [st]) s
  s.putRel x kind (seats.map (·.key)) after (some st) tok

/-- Handing a slot on: the slot must be one of `held`; its release waits for the stream (R252, R270). -/
def cbHand (i : Instr) (vs : VNum) (cb : Nat) (held : CBuf → List Nat) (k : State → Seat → Nat → State) (s : State) : Next :=
  onceWord i (fun x t =>
    let a := x.g.pairAt vs.toNat x.low
    match t.cb? x.key cb with
    | none => .trap (t.cbFlaw x cb none)
    | some b =>
      match b.slotAt? a with
      | none => .trap (t.cbFlaw x cb (some a))
      | some n => if (held b).contains n then .ok (k t x n) {} else .trap (t.cbFlaw x cb (some a))) s

/-- CBPUSH.COMMIT (R252). -/
def execCbpushCommit (vs : VNum) (cb stream : BitVec 4) (tok : BitVec 3) (s : State) : Next :=
  let i : Instr := .cbpushCommit vs cb stream tok
  cbHand i vs cb.toNat (·.reserved) (fun t x n =>
    t.handOver i x (.commit (coreOf x.key) cb.toNat n) (fun s k => s.openWrites k stream.toNat) stream.toNat tok.toNat) s

/-- CBPOP.FREE (R252). -/
def execCbpopFree (vs : VNum) (cb stream : BitVec 4) (tok : BitVec 3) (s : State) : Next :=
  let i : Instr := .cbpopFree vs cb stream tok
  cbHand i vs cb.toNat (·.taken) (fun t x n =>
    t.handOver i x (.free (coreOf x.key) cb.toNat n) (fun s k => s.openIn k stream.toNat) stream.toNat tok.toNat) s

/-- CBPOP.STAT (R252): every member of the unit receives the one status, as the result of a long-latency word (R92). -/
def execCbpopStat (vd : VNum) (cb : BitVec 4) (s : State) : Next :=
  seatWord (.cbpopStat vd cb) (fun x t =>
    match t.cb? x.key cb.toNat with
    | none => .trap (t.cbFlaw x cb.toNat none)
    | some b =>
      let v := BitVec.ofNat 64 (b.free + b.filled * 65536 + b.slots * 2 ^ 32)
      .ok (t.addPend x 0 [vd.toNat, vd.toNat + 1] [] x.act (outWord vd.toNat v) false true 0).2 {}) s

end Sys2Proof.Machine
end

