-- ==== Sys2Proof/Machine/CopyOps.lean ====
section
/-! DEFINITION. The copy engine and the event matrix (R277-R297, R475, R476): the meanings of their instructions, and what
a copy operation does unit by unit. -/

namespace Sys2Proof.Machine

/-! ## Commands (R279-R281, R287) -/

/-- What a copy operation is made of. -/
structure CopyCmd where
  srcCb : Bool
  dk : CopyDst
  cv : Bool
  slot : Nat
  n : Nat
  af : Nat
  off : Nat
  mode : Rnd
  sat : Bool
  deriving DecidableEq, Repr

/-- The copy that an instruction of a launch names; `ctl` is RNDCTL at issue. -/
def State.copyOf (s : State) (launch : Nat) (ctl : Word64) (i : Instr) : Option CopyCmd :=
  match i with
  | .xcopy dk srcCb cv slot _ len fmt _ _ =>
    let d := s.slotOf launch fmt.toNat
    some ⟨srcCb, dk, cv, slot.toNat, (len.toNat + 1) * 64, slotAfmt d, slotOfmt d, slotMode d ctl, slotOsat d⟩
  | .xcopym fillB _ len sa sb _ _ _ _ _ _ =>
    some ⟨false, .slot, false, if fillB then sb.toNat else sa.toNat, (len.toNat + 1) * 64, 0, 0, .rne, false⟩
  | _ => none

/-- The width of a destination element: FP6 takes a byte in an operand slot. -/
def CopyCmd.outBits (c : CopyCmd) : Nat := if c.dk == .slot && isFp6 c.off then 8 else codeBits c.off
/-- Bytes read, and written, by a lane command. -/
def CopyCmd.srcBytes (c : CopyCmd) : Nat := if c.cv then c.n * codeBits c.af / 8 else c.n
def CopyCmd.dstBytes (c : CopyCmd) : Nat := if c.cv then c.n * c.outBits / 8 else c.n

/-- Whether an instruction is XCOPYM. -/
def isXcopym : Instr → Bool
  | .xcopym .. => true
  | _ => false

/-- An address some bytes further on. -/
def addBytes (a : Word64) (n : Nat) : Word64 := mkAddr (hndOf a) (offOf a + n)

/-! ## Issue -/

/-- The addresses at a command's ends. -/
def CopyCmd.ends (c : CopyCmd) (q : List Img) : List Word64 :=
  (if c.srcCb then [] else [quadWord q 0]) ++ (if c.dk == .addr then [quadWord q 2] else [])

/-- A copy command enters its stream; it waits at issue for its team's pending claim (R299). -/
def copyWord (i : Instr) (q : BitVec 6) (stream : Seat → Nat) (tok : BitVec 3) (s : State) : Next :=
  seatWord i (fun x t =>
    match t.copyOf x.g.launch x.g.rndctl i with
    | none => .ok t {}
    | some c =>
      if t.claimPending x.key (t.names x.g.launch i) then stall
      else
        let quads := x.quads q
        let maps := t.mapsFor (t.partOf x.g) (coreOf x.key) (quads.flatMap fun lq => c.ends lq.2)
        .ok (t.putStore x (stream x) tok.toNat { t.newEntry i x with vals := quads, maps := maps }) {}) s

/-- XCOPY (R279, R280). -/
def execXcopy (dk : CopyDst) (srcCb cv : Bool) (slot : BitVec 5) (q : BitVec 6) (len : BitVec 10) (fmt : BitVec 3)
    (stream : BitVec 4) (tok : BitVec 3) (s : State) : Next :=
  copyWord (.xcopy dk srcCb cv slot q len fmt stream tok) q (fun _ => stream.toNat) tok s

/-- XCOPYM (R287): the quad of the lowest lane names the stream. -/
def execXcopym (fillB : Bool) (q : BitVec 6) (len : BitVec 10) (sa sb : BitVec 5) (acc fmta fmtb : BitVec 3)
    (kblka kblkb : BitVec 2) (tok : BitVec 3) (s : State) : Next :=
  copyWord (.xcopym fillB q len sa sb acc fmta fmtb kblka kblkb tok) q (fun x => quadNat (x.lowQuad q) 3 / 2 ^ 20 % 16) tok s

/-! ## Counters and lines (R288-R295, R475) -/

/-- The code of an engine (R277). -/
def engCode : Eng → Nat
  | .copy => 0
  | .mx => 1
  | .node => 2

/-- XSEQ.DONE (R288). -/
def execXseqDone (eng : Eng) (vd : VNum) (look : BitVec 4) (tok : BitVec 3) (s : State) : Next :=
  valueWord (.xseqDone eng vd look tok) vd look tok
    (fun x t => BitVec.ofNat 64 (t.engine (coreOf x.key) (engCode eng)).done) (fun _ t => t) s

/-- XSEQ.ISSUED (R288). -/
def execXseqIssued (eng : Eng) (vd : VNum) (look : BitVec 4) (tok : BitVec 3) (s : State) : Next :=
  valueWord (.xseqIssued eng vd look tok) vd look tok
    (fun x t => BitVec.ofNat 64 (t.engine (coreOf x.key) (engCode eng)).issued) (fun _ t => t) s

/-- XSEQ.LINE (R288). -/
def execXseqLine (line : BitVec 4) (vd : VNum) (look : BitVec 4) (tok : BitVec 3) (s : State) : Next :=
  valueWord (.xseqLine line vd look tok) vd look tok
    (fun x t => (Tab.at (t.core (coreOf x.key)).lc 0#32 line.toNat).setWidth 64) (fun _ t => t) s

/-- XSEQ.FAULT.COPY (R475): the fault word, which the read clears. -/
def execXseqFault (vd : VNum) (look : BitVec 4) (tok : BitVec 3) (s : State) : Next :=
  valueWord (.xseqFault vd look tok) vd look tok (fun x t => (t.engine (coreOf x.key) 0).fault)
    (fun x t => t.updEngine (coreOf x.key) 0 fun e => { e with fault := 0#64 }) s

/-- XWAIT (R289). -/
def execXwait (eng : Eng) (vs : VNum) (s : State) : Next := doneWait (.xwait eng vs) vs (fun _ => engCode eng) s

/-- A change of the event matrix of the unit's core. -/
def routeWord (i : Instr) (f : Core → Core) (s : State) : Next :=
  onceWord i (fun x t => .ok (t.updCore (coreOf x.key) f) {}) s

/-- Setting the lines that a source pulses. -/
def Core.setCells (c : Core) (src : Nat) (f : BitVec 16 → BitVec 16) : Core :=
  { c with cells := Tab.put c.cells src (f (Tab.at c.cells 0#16 src)) }

/-- EVROUTE.SET (R292). -/
def execEvrouteSet (src line : BitVec 4) (s : State) : Next :=
  routeWord (.evrouteSet src line) (fun c => c.setCells src.toNat fun m => m ||| BitVec.ofNat 16 (2 ^ line.toNat)) s

/-- EVROUTE.CLR (R292). -/
def execEvrouteClr (src line : BitVec 4) (s : State) : Next :=
  routeWord (.evrouteClr src line) (fun c => c.setCells src.toNat fun m => m &&& ~~~BitVec.ofNat 16 (2 ^ line.toNat)) s

/-- EVROUTE.GATE (R292, R295). -/
def execEvrouteGate (sink line : BitVec 4) (s : State) : Next :=
  routeWord (.evrouteGate sink line) (fun c =>
    { c with gates := Tab.put c.gates sink.toNat ⟨line.toNat, Tab.at c.lc 0#32 line.toNat⟩ }) s

/-- EVROUTE.OPEN (R292). -/
def execEvrouteOpen (sink : BitVec 4) (s : State) : Next :=
  routeWord (.evrouteOpen sink) (fun c => { c with gates := Tab.del c.gates sink.toNat }) s

/-- EVWAIT (R291, R293). -/
def execEvwait (line : BitVec 4) (s : State) : Next :=
  seatWord (.evwait line) (fun x t =>
    if lineAhead (Tab.at (t.core (coreOf x.key)).lc 0#32 line.toNat) (Tab.at x.g.seen 0#32 line.toNat) then
      .ok (t.consume x.key line.toNat) {}
    else .wait fun s => s.holdWord true false) s

/-- EVWAIT.SYNC (R293). -/
def execEvwaitSync (line : BitVec 4) (s : State) : Next :=
  seatWord (.evwaitSync line) (fun x t =>
    let n := Tab.at (t.core (coreOf x.key)).lc 0#32 line.toNat
    .ok (t.updGang x.key fun g => { g with seen := Tab.put g.seen line.toNat n }) {}) s

/-- EVFIRE (R294). -/
def execEvfire (line : BitVec 4) (count : BitVec 8) (s : State) : Next :=
  seatWord (.evfire line count) (fun x t =>
    .ok (t.updCore (coreOf x.key) fun c => { c with lc := Tab.upd c.lc 0#32 line.toNat (· + count.setWidth 32) }) {}) s

/-! ## Circular buffers as rings (R251, R252) -/

/-- The commit pointer passes committed slots in ring order. -/
def CBuf.passCommits : Nat → CBuf → CBuf
  | 0, b => b
  | fuel + 1, b =>
    if b.committed.contains b.cp then
      CBuf.passCommits fuel { b with committed := b.committed.erase b.cp, cp := (b.cp + 1) % b.slots, filled := b.filled + 1 }
    else b

/-- The free pointer passes freed slots in ring order. -/
def CBuf.passFrees : Nat → CBuf → CBuf
  | 0, b => b
  | fuel + 1, b =>
    if b.freed.contains b.fp then
      CBuf.passFrees fuel { b with freed := b.freed.erase b.fp, fp := (b.fp + 1) % b.slots, free := b.free + 1 }
    else b

/-- A reserved slot is committed. -/
def CBuf.commitSlot (b : CBuf) (n : Nat) : CBuf :=
  if b.reserved.contains n then
    CBuf.passCommits b.slots { b with reserved := b.reserved.erase n, committed := b.committed ++ [n] }
  else b

/-- A taken slot is freed. -/
def CBuf.freeSlot (b : CBuf) (n : Nat) : CBuf :=
  if b.taken.contains n then CBuf.passFrees b.slots { b with taken := b.taken.erase n, freed := b.freed ++ [n] }
  else b

/-! ## Ranges and faults (R284, R476) -/

/-- The ranges that a copy command registers: its address ends. -/
def State.copyRanges (s : State) (p : Pre) (secure : Bool) : List (Nat × Nat) × List (Nat × Nat) :=
  match s.copyOf p.launch p.ctl p.instr with
  | none => ([], [])
  | some c =>
    let lanes := maskLanes p.act
    let q := fun l => Tab.at p.vals [] l
    (if c.srcCb then [] else lanes.flatMap fun l => mapRanges p.maps secure false (quadWord (q l) 0) c.srcBytes,
     if c.dk == .addr then lanes.flatMap fun l => mapRanges p.maps secure true (quadWord (q l) 2) c.dstBytes else [])

/-- The fault of a buffer end. -/
def State.cbEndFault (s : State) (core lane cb bytes : Nat) : Option (Nat × Nat) :=
  match Tab.find? (s.core core).cbs cb with
  | some b => if b.size < bytes then some (7, lane) else none
  | none => some (7, lane)

/-- What one lane command meets at the start. -/
def State.laneFaults (s : State) (core lead : Nat) (o : Op) (c : CopyCmd) (lane : Nat) : List (Option (Nat × Nat)) :=
  let q := Tab.at o.vals [] lane
  let when_ := fun (b : Bool) (code : Nat) => if b then some (code, lane) else none
  let sec := s.opSecure o
  (if c.srcCb then [when_ (decide (16 ≤ (quadWord q 0).toNat)) 3, s.cbEndFault core lane (quadNat q 0 % 16) c.srcBytes]
   else [when_ (mapRefuses o.maps sec false true (quadWord q 0) c.srcBytes) 1]) ++
  (match c.dk with
   | .addr => [when_ (mapRefuses o.maps sec true false (quadWord q 2) c.dstBytes) 2]
   | .slot =>
     let word := if isXcopym o.instr then quadNat q 2 else (quadWord q 2).toNat
     [when_ (decide (8192 ≤ word)) 3, when_ (!((s.core core).heldBy lead).slots.getLsbD c.slot) 4,
      when_ (decide (8192 < quadNat q 2 % 8192 + c.dstBytes)) 5]
   | .cb => [when_ (decide (16 ≤ (quadWord q 2).toNat)) 3, s.cbEndFault core lane (quadNat q 2 % 16) c.dstBytes]) ++
  [when_ (c.cv && (8 < c.af || 8 < c.off)) 6]

/-- The fault that a copy operation meets at its start: CODE and ARG. -/
def State.copyFault (s : State) (core : Nat) (o : Op) : Option (Nat × Nat) :=
  match s.copyOf o.launch o.ctl o.instr with
  | none => none
  | some c =>
    let follow := match o.lanes with
      | l :: _ =>
        let w := quadNat (Tab.at o.vals [] l) 3
        if isXcopym o.instr && (2 ^ 24 ≤ w || w % 2 ^ 19 != 0) then some (3, l) else none
      | [] => none
    lowestFault (follow :: o.lanes.flatMap fun l => s.laneFaults core (s.leadOf o.gang) o c l)

/-! ## The sequential copy (R281-R285) -/

/-- The bytes of unit u at the destination: its first and its length. -/
def CopyCmd.unitLen (c : CopyCmd) (u : Nat) : Nat := min 64 (c.dstBytes - 64 * u)
/-- The elements that a converted unit holds part of: the first and one past the last. -/
def CopyCmd.elems (c : CopyCmd) (u : Nat) : Nat × Nat :=
  (512 * u / c.outBits, min c.n ((512 * u + 8 * c.unitLen u + c.outBits - 1) / c.outBits))
/-- The source bytes that some elements take: the first and the length. -/
def CopyCmd.elemBytes (c : CopyCmd) (a b : Nat) : Nat × Nat :=
  let lo := a * codeBits c.af / 8
  (lo, (b * codeBits c.af + 7) / 8 - lo)
/-- The source bytes that a unit depends on: the first and the length. -/
def CopyCmd.need (c : CopyCmd) (u : Nat) : Nat × Nat :=
  if c.cv then c.elemBytes (c.elems u).1 (c.elems u).2 else (64 * u, c.unitLen u)
/-- Where the tags of poisoned units stand among an operation's poisoned bytes. -/
def tagBase : Nat := 2 ^ 40
/-- Whether some bytes of a lane command's destination, the first and one past the last, take a byte from a poisoned unit
of its source (R489); `o.badAt` holds the source bytes that did, as they are read, and `tagBase` plus the source elements
whose tags did. -/
def CopyCmd.takesBad (c : CopyCmd) (o : Op) (lo hi : Nat) : Bool :=
  let hi := min hi c.dstBytes
  let (a, n) := if c.cv then c.elemBytes (8 * lo / c.outBits) (min c.n ((8 * hi + c.outBits - 1) / c.outBits)) else (lo, hi - lo)
  decide (lo < hi) && o.badAt.any fun i => a ≤ i && i < a + n

/-- What the engine keeps of a read piece of a unit that met poison (R489): the source bytes of the lane command that came
from a poisoned unit, and the elements whose tags did; a converted element is made of both. -/
def CopyCmd.noteBad (c : CopyCmd) (o : Op) (p : Piece) (data tags : Bool) : Op :=
  let lo := (c.need o.unit).1
  let span := fun (first n : Nat) => (List.range n).map (first + ·)
  let ofTags := if c.cv then span (lo + 4 * p.tagPos) (4 * p.tagCells.length) else span (tagBase + lo / 4 + p.tagPos) p.tagCells.length
  { o with badAt := o.badAt ++ (if data then span (lo + p.pos) p.cells.length else []) ++ (if tags then ofTags else []) }

/-- The addresses of a write piece of a unit whose poison units take bytes, or tags, from a poisoned unit of the source
(R489): the bytes of the piece's poison unit that the lane command writes are looked at, up to this unit's. -/
def CopyCmd.poisons (c : CopyCmd) (o : Op) (p : Piece) : List Nat :=
  let at_ := 64 * o.unit + p.pos
  let a := p.cells.headD 0
  let tag := 16 * o.unit + p.tagPos
  let b := p.tagCells.headD 0
  (if c.takesBad o (at_ - a % poisonSize a) (at_ + poisonSize a - a % poisonSize a) then p.cells else []) ++
    (if o.badAt.any fun i => tagBase + (tag - b % poisonSize b) ≤ i && i < tagBase + tag + p.tagCells.length then p.tagCells else [])

/-- Whether a lane's tags are read: with converted FP32 and FP64 elements, or with a plain copy between tagged
extents. -/
def CopyCmd.tagged (c : CopyCmd) (o : Op) (src dst : Word64) : Bool :=
  let plane := fun a => ((mapAt o.maps a).bind (mapTag o.maps)).isSome
  if c.cv then c.af ≤ 1 && offOf src % 4 == 0 && plane src
  else !c.srcCb && c.dk == .addr && plane src && plane dst && offOf src % 4 == 0 && offOf dst % 4 == 0 && c.n % 4 == 0

/-- One element converted (R282). -/
def CopyCmd.convert (c : CopyCmd) (code : Nat) (tags : List Byte) : Nat :=
  match codeCls? c.af, codeCls? c.off with
  | some a, some d =>
    let v := match tags with
      | [] => decodeFp a code
      | _ =>
        let xs := tagImgs (if a == .f64 then .w64 else .w32) (leBytes (codeBits c.af / 8) code) tags
        imgValue a (xs.getD 0 zeroImg, xs.getD 1 zeroImg)
    finalRound d c.mode c.sat v
  | _, _ => 0

/-- What a unit writes, from what was read. -/
def CopyCmd.unitData (c : CopyCmd) (o : Op) (lane : Nat) (tagged : Bool) : List Byte :=
  let (lo, n) := c.need o.unit
  let bs := o.bytes lane 0 n
  if !c.cv then bs
  else
    let (a, b) := c.elems o.unit
    let wa := codeBits c.af
    let w := c.outBits
    let raw := leNat bs
    let per := wa / 32
    let out := (List.range (b - a)).foldl (fun acc j =>
      let code := raw / 2 ^ ((a + j) * wa - 8 * lo) % 2 ^ wa
      let tags := if tagged then (List.range per).map fun k => Tab.at o.gotTag 0#8 (datumKey lane (per * j + k)) else []
      acc + c.convert code tags * 2 ^ (w * j)) 0
    leBytes (c.unitLen o.unit) (out / 2 ^ (512 * o.unit - a * w))

/-- The tags that a unit's write gives (R229, R283). -/
def CopyCmd.unitTags (c : CopyCmd) (o : Op) (lane : Nat) (tagged : Bool) (dst : Word64) : WrTag :=
  let n := c.unitLen o.unit
  if c.cv then
    if c.off = 0 then f32Tags dst n
    else if c.off = 1 && offOf dst % 8 = 0 then .exact ((List.replicate (n / 8) [0x17#8, 0x01#8]).flatten)
    else .other
  else if tagged then .exact (o.tags lane (n / 4))
  else .other

/-- Writing a unit of a lane command into an operand slot, granule by granule, with its poison (R486, R489): the lane's bytes
begin at offset `start`, and `bad` says of a granule, by the lane's bytes from one to another, whether it takes poison. An
MMA under way may have read the old bytes (R323). -/
def State.putUnit (s : State) (core slot start ofs : Nat) (bs : List Byte) (bad : Nat → Nat → Bool) : State :=
  let base := operandBase core + slot * 8192
  let cells := (List.range bs.length).map (base + ofs + ·)
  let s := (s.keepOld core slot cells).putSlot core slot ofs bs
  (List.range ((ofs + bs.length + 15) / 16 - ofs / 16)).foldl (fun s i =>
    let g := ofs / 16 + i
    if bad (16 * g - start) (16 * g + 16 - start) then s.poisonCells [base + 16 * g]
    else if start ≤ 16 * g && 16 * g + 16 ≤ ofs + bs.length then s.clearPoison [base + 16 * g]
    else s) s

/-- The address of a lane command's source. -/
def State.copySrc (s : State) (core : Nat) (o : Op) (c : CopyCmd) (q : List Img) : Word64 :=
  if c.srcCb then ((Tab.find? (s.core core).cbs (quadNat q 0 % 16)).map fun b => b.slotAddr (o.slotS.getD 0)).getD 0#64
  else quadWord q 0
/-- The address of a lane command's destination. -/
def State.copyDst (s : State) (core : Nat) (o : Op) (c : CopyCmd) (q : List Img) : Word64 :=
  if c.dk == .cb then ((Tab.find? (s.core core).cbs (quadNat q 2 % 16)).map fun b => b.slotAddr (o.slotD.getD 0)).getD 0#64
  else quadWord q 2

/-- A lane command hands its buffer slots back: FREE at the source, COMMIT at the destination, which row 11 pulses. -/
def State.handBack (s : State) (core : Nat) (o : Op) (q : List Img) : State :=
  let s := match o.slotS with
    | some n => s.updCb core (quadNat q 0 % 16) fun b => b.freeSlot n
    | none => s
  match o.slotD with
  | some n => (s.updCb core (quadNat q 2 % 16) fun b => b.commitSlot n).updCore core fun c => c.pulse 11 none
  | none => s

/-- Whether an operation before this one waits at a buffer end: no lane command of this one starts until it goes on (R286). -/
def State.heldBack (s : State) (core : Nat) (o : Op) : Bool :=
  (s.engine core 0).ops.any fun x => decide (x.num < o.num) && x.phase == .running && x.waits

/-- DESIGN CHOICE (log 152): where source and destination overlap through different windows, INTERLEAVED and LINEAR, a unit
reads through its own window, and so may miss what earlier units wrote and has not drained (R258, R281, R297).

A running copy operation goes on until it has pieces to perform, waits at a buffer or for an operation that does, or
ends. Stages of a lane command: 0 buffer slots, 1 the next unit, 2 a unit read, 3 a unit written. -/
def State.copyAdvance (core : Nat) : Nat → State → Op → State × Op
  | 0, s, o => (s, o)
  | fuel + 1, s, o =>
    if !o.todo.isEmpty || o.waits || o.phase != .running then (s, o)
    else
      match s.copyOf o.launch o.ctl o.instr, o.lanes with
      | some c, lane :: rest =>
        let q := Tab.at o.vals [] lane
        let src := s.copySrc core o c q
        let dst := s.copyDst core o c q
        let tagged := c.tagged o src dst
        match o.stage with
        | 0 =>
          let req : CbReq := ⟨none, o.num, 0⟩
          if s.heldBack core o then (s, o)
          else if c.srcCb && o.slotS.isNone then
            (s.updCb core (quadNat q 0 % 16) fun b => { b with waitTake := b.waitTake ++ [req] }, { o with waits := true })
          else if c.dk == .cb && o.slotD.isNone then
            (s.updCb core (quadNat q 2 % 16) fun b => { b with waitRes := b.waitRes ++ [req] }, { o with waits := true })
          else
            -- the slots' handle, as the buffers name it
            let more := s.mapsFor o.pno core ((if c.srcCb then [src] else []) ++ (if c.dk == .cb then [dst] else []))
            let maps := more.foldl (fun t m => Tab.put t m.1 m.2) o.maps
            State.copyAdvance core fuel s { o with maps := maps, stage := 1, badAt := [] }
        | 1 =>
          if c.dstBytes ≤ 64 * o.unit then
            State.copyAdvance core fuel (s.handBack core o q)
              { o with lanes := rest, unit := 0, stage := 0, slotS := none, slotD := none }
          else
            let (lo, n) := c.need o.unit
            let todo := o.readAt lane (addBytes src lo) n tagged
            State.copyAdvance core fuel s { o with todo := todo, got := [], gotTag := [], stage := 2 }
        | 2 =>
          let data := c.unitData o lane tagged
          if c.dk == .slot then
            let start := quadNat q 2 % 8192
            State.copyAdvance core fuel (s.putUnit core c.slot start (start + 64 * o.unit) data (c.takesBad o))
              { o with unit := o.unit + 1, stage := 1 }
          else
            let a := addBytes dst (64 * o.unit)
            State.copyAdvance core fuel s { o with todo := o.writeAt lane a data (c.unitTags o lane tagged a), stage := 3 }
        | _ => State.copyAdvance core fuel s { o with unit := o.unit + 1, stage := 1 }
      | _, _ => (s, { o with phase := .ended })

/-- The follow-on of an XCOPYM (R287): the MMA that its completion issues, with the slot that the copy filled. -/
def followOn (o : Op) : Option Pre :=
  match o.instr with
  | .xcopym fillB _ _ sa sb acc fmta fmtb ka kb tok =>
    let start := decide (quadNat (Tab.at o.vals [] ((maskLanes o.act).headD 0)) 3 / 2 ^ 19 % 2 = 1)
    some { id := o.seq, gang := o.gang, launch := o.launch, instr := .mma acc sa sb fmta fmtb ka kb start tok, act := o.act
           vals := [(0, [intImg ((if fillB then sb else sa).setWidth 32)])], ctl := o.ctl, tok := o.tok, pend := 0, maps := []
           stream := none, follow := true, dead := o.fault != 0 }
  | _ => none

end Sys2Proof.Machine
end

