-- ==== Sys2Proof/Machine/StackOps.lean ====
section
/-! DEFINITION. The reducers and bulk engines of the stacks (R377-R392, R478): the meanings of their instructions, the port
a command runs at, its faults and ranges, and what it does step by step. -/

namespace Sys2Proof.Machine

/-! ## Commands -/

/-- The sink code of a stack port (R295). -/
def portEng (p : Nat) : Nat := 3 + p

/-- Where a command keeps the values of handle registers among what it read at issue. -/
def keyTable : Nat := 32
def keyDest : Nat := 33
/-- Where SXRED keeps its accumulator, one image per element, none yet when empty (R381). -/
def keyAcc : Nat := 34

/-- A 64-bit value as what a command read. -/
def wordImgs (w : Word64) : List Img := pairImgs (intPair w)
/-- A word that a command keeps. -/
def keptWord (vals : Tab (List Img)) (k : Nat) : Word64 := quadWord (Tab.at vals [] k) 0

/-- A stack command enters its stream (R378, R387). -/
def putCommand (x : Seat) (s : State) (i : Instr) (stream : BitVec 4) (tok : BitVec 3) (act : Mask) (ctl : Word64)
    (vals : Tab (List Img)) (addrs : List Word64) : SeatRes :=
  let maps := s.mapsFor (s.partOf x.g) (coreOf x.key) addrs
  .ok (s.putStore x stream.toNat tok.toNat
    { s.newEntry i x with act := act, ctl := ctl, vals := vals, maps := maps }) {}

/-- SXRED (R380-R382). -/
def execSxred (op : SxOp) (ef : SxFmt) (thnd dhnd : HNum) (q : BitVec 6) (rowlen : BitVec 8) (stream : BitVec 4)
    (tok : BitVec 3) (mk : MNum) (s : State) : Next :=
  let i : Instr := .sxred op ef thnd dhnd q rowlen stream tok mk
  seatWord i (fun x t =>
    let quads := x.quads q
    let table := x.g.hreg thnd.toNat
    let dest := x.g.hreg dhnd.toNat
    putCommand x t i stream tok x.act x.g.memctl (quads ++ [(keyTable, wordImgs table), (keyDest, wordImgs dest)])
      (table :: dest :: quads.map fun lq => quadWord lq.2 0)) s

/-- A bulk command: it acts once, through the lowest lane. -/
def bulkWord (i : Instr) (q : BitVec 6) (result : Option HNum) (stream : BitVec 4) (tok : BitVec 3)
    (ends : List Img → List Word64) (s : State) : Next :=
  onceWord i (fun x t =>
    let quad := x.lowQuad q
    let res := (result.map fun h => x.g.hreg h.toNat).toList
    putCommand x t i stream tok x.m0 0#64 ((0, quad) :: res.map fun w => (keyDest, wordImgs w)) (ends quad ++ res)) s

/-- SXBULK.COPY (R383, R384). -/
def execSxbulkCopy (q : BitVec 6) (len : BitVec 14) (stream : BitVec 4) (tok : BitVec 3) (s : State) : Next :=
  bulkWord (.sxbulkCopy q len stream tok) q none stream tok (fun v => [quadWord v 0, quadWord v 2]) s

/-- SXBULK.FILL (R383, R384). -/
def execSxbulkFill (q : BitVec 6) (len : BitVec 14) (stream : BitVec 4) (tok : BitVec 3) (s : State) : Next :=
  bulkWord (.sxbulkFill q len stream tok) q none stream tok (fun v => [quadWord v 0]) s

/-- SXBULK.CMP (R383, R384). -/
def execSxbulkCmp (q : BitVec 6) (len : BitVec 14) (rhnd : HNum) (stream : BitVec 4) (tok : BitVec 3) (s : State) : Next :=
  bulkWord (.sxbulkCmp q len rhnd stream tok) q (some rhnd) stream tok (fun v => [quadWord v 0, quadWord v 2]) s

/-! ## Reading and waiting on a port (R385, R386, R391) -/

/-- The port that a word names. -/
def portOf (psel : BitVec 4) (preg : VNum) (x : Seat) : Nat :=
  if psel.toNat < 8 then psel.toNat else ((x.g.reg preg.toNat).lane x.low0).val.toNat % 8

/-- A command that works all banks at once (R384, R390). -/
def allBank : Instr → Bool
  | .sxbulkFill .. | .sxbulkCmp .. => true
  | _ => false

/-- Whether some command of a kind stands in a phase at a stack's ports. -/
def State.atStack (s : State) (stack : Nat) (phase : OpPhase) : Bool :=
  s.cores.any fun c => ((c.2.engine (portEng stack)).ops).any fun (o : Op) => allBank o.instr && o.phase == phase

/-- The status word of a stack (R391). -/
def State.stackWord (s : State) (stack : Nat) : Word64 :=
  let k := s.stack stack
  let hot : Bool := decide (k.thresh.toNat ≤ k.temp.toNat)
  let held := k.held && s.atStack stack .registered
  BitVec.ofNat 64 (k.droops.toNat * 2 ^ 48 + k.temp.toNat * 2 ^ 40 + k.thresh.toNat * 2 ^ 32 + k.idle16.toNat * 2 ^ 28
    + (if hot then 2 ^ 27 else 0) + (if held then 2 ^ 26 else 0))

/-- SXSEQ.DONE. -/
def execSxseqDone (vd : VNum) (psel : BitVec 4) (preg : VNum) (look : BitVec 4) (tok : BitVec 3) (s : State) : Next :=
  valueWord (.sxseqDone vd psel preg look tok) vd look tok
    (fun x t => BitVec.ofNat 64 (t.engine (coreOf x.key) (portEng (portOf psel preg x))).done) (fun _ t => t) s

/-- SXSEQ.ISSUED. -/
def execSxseqIssued (vd : VNum) (psel : BitVec 4) (preg : VNum) (look : BitVec 4) (tok : BitVec 3) (s : State) : Next :=
  valueWord (.sxseqIssued vd psel preg look tok) vd look tok
    (fun x t => BitVec.ofNat 64 (t.engine (coreOf x.key) (portEng (portOf psel preg x))).issued) (fun _ t => t) s

/-- SXSEQ.STACK. -/
def execSxseqStack (vd : VNum) (psel : BitVec 4) (preg : VNum) (look : BitVec 4) (tok : BitVec 3) (s : State) : Next :=
  valueWord (.sxseqStack vd psel preg look tok) vd look tok (fun x t => t.stackWord (portOf psel preg x)) (fun _ t => t) s

/-- SXSEQ.FAULT: the fault word, which the read clears. -/
def execSxseqFault (vd : VNum) (psel : BitVec 4) (preg : VNum) (look : BitVec 4) (tok : BitVec 3) (s : State) : Next :=
  valueWord (.sxseqFault vd psel preg look tok) vd look tok
    (fun x t => (t.engine (coreOf x.key) (portEng (portOf psel preg x))).fault)
    (fun x t => t.updEngine (coreOf x.key) (portEng (portOf psel preg x)) fun e => { e with fault := 0#64 }) s

/-- SXWAIT (R386). -/
def execSxwait (vs : VNum) (psel : BitVec 4) (preg : VNum) (s : State) : Next :=
  doneWait (.sxwait vs psel preg) vs (fun x => portEng (portOf psel preg x)) s

/-! ## The port of a command (R379) -/

/-- Whether a command is one of the stack ports'. -/
def isStackCmd : Instr → Bool
  | .sxred .. | .sxbulkCopy .. | .sxbulkFill .. | .sxbulkCmp .. => true
  | _ => false

/-- The anchor byte of a command, and whether the command writes it. -/
def anchorOf (i : Instr) (vals : Tab (List Img)) : Word64 × Bool :=
  match i with
  | .sxred .. => (keptWord vals keyTable, false)
  | .sxbulkFill .. => (keptWord vals 0, true)
  | _ => (keptWord vals 0, false)

/-- The stack that a command runs at: its anchor's, or the first of the core's quarter. -/
def State.portFor (s : State) (core : Nat) (secure : Bool) (e : Entry) : Nat :=
  let (a, wr) := anchorOf e.instr e.vals
  match mapAt e.maps a with
  | some h =>
    if attrSpace h.attr != 0 || (accessFault (some h) secure wr (!wr) (offOf a) 1).isSome then 2 * quarterOf core
    else s.stackOf (h.phys (offOf a) / 65536)
  | none => 2 * quarterOf core

/-! ## Faults found at registration (R478) -/

/-- Whether some bytes under a handle lie outside a stack. -/
def State.offStack (s : State) (h : Handle) (o n stack : Nat) : Bool :=
  attrSpace h.attr != 0 || (h.ranges o n).any fun r => s.stackOf (r.1 / 65536) != stack

/-- The codes that n bytes at an address meet: refused 7, beyond the extent 8, and, when they must lie in the stack, for
those that lie in the extent, off it 1 or REPLICATED 2. -/
def State.rangeCodes (s : State) (maps : Tab Handle) (secure wr : Bool) (a : Word64) (n : Nat) (stack : Option Nat) : List Nat :=
  let h := (mapAt maps a).filter fun h => attrValid h.attr
  (match accessFault (mapAt maps a) secure wr (!wr) (offOf a) n with
   | some d => [if d.1 = 4 then 8 else 7]
   | none => []) ++
  (match h, stack with
   | some h, some k =>
     (if s.offStack h (offOf a) (min (offOf a + n) (attrBytes h.attr) - offOf a) k then [1] else []) ++
       (if attrProp h.attr = 2 then [2] else [])
   | _, _ => [])

/-- The code of an anchor that lies beyond its extent, and so in no stack (R379). -/
def anchorCodes (maps : Tab Handle) (i : Instr) (vals : Tab (List Img)) : List Nat :=
  let a := (anchorOf i vals).1
  match mapAt maps a with
  | some h => if attrValid h.attr && decide (attrBytes h.attr ≤ offOf a) then [1] else []
  | none => []

/-- The width of an element (R380). -/
def sxWidth : SxFmt → Nat
  | .f32 | .s32 => 4
  | .f16 | .bf16 => 2
  | .e4m3 | .e5m2 | .s8 | .z8 => 1
/-- The size that loads an element. -/
def sxSize : SxFmt → Size
  | .f32 => .f32
  | .f16 => .f16
  | .bf16 => .bf16
  | .e4m3 => .e4m3
  | .e5m2 => .e5m2
  | .s8 => .s8
  | .z8 => .z8
  | .s32 => .w32
/-- Whether an SXRED is of the FP form. -/
def sxFp (f : SxFmt) : Bool := (sxSize f).isFp

/-- Elements of a row. -/
def rowElems (rowlen : BitVec 8) : Nat := (rowlen.toNat + 1) * 16

/-- The destination of a bag's pooled row. -/
def bagDest (vals : Tab (List Img)) (lane : Nat) : Word64 :=
  let d := keptWord vals keyDest
  mkAddr (hndOf d) (offOf d + quadNat (Tab.at vals [] lane) 3)

/-- Pairs of a code with a lane. -/
def withArg (lane : Nat) (codes : List Nat) : List (Option (Nat × Nat)) := codes.map fun c => some (c, lane)

/-- The fault of codes 1-8 that a command meets, with its ARG. -/
def State.stackFault (s : State) (secure : Bool) (stack : Nat) (i : Instr) (act : Mask) (maps : Tab Handle)
    (vals : Tab (List Img)) : Option (Nat × Nat) :=
  let two := fun (n : Nat) =>
    (keptWord vals 0, quadWord (Tab.at vals [] 0) 2, (n + 1) * 64)
  let misaligned := fun (a : Word64) (n : Nat) => if offOf a % n = 0 then ([] : List Nat) else [3]
  let tagged := fun (a : Word64) => if ((mapAt maps a).bind (mapTag maps)).isSome then [6] else ([] : List Nat)
  lowestFault (withArg 0 (anchorCodes maps i vals) ++ match i with
    | .sxred _ ef _ _ _ rowlen _ _ _ =>
      let anchor := s.rangeCodes maps secure false (keptWord vals keyTable) 1 (some stack)
      let bag := fun (l : Nat) =>
        let q := Tab.at vals [] l
        let n := quadNat q 2
        let d := bagDest vals l
        (if n = 0 then [] else s.rangeCodes maps secure false (quadWord q 0) (4 * n) (some stack)) ++
        (if 65536 < n then [4] else []) ++ s.rangeCodes maps secure true d (4 * rowElems rowlen) none ++
        (if sxFp ef then misaligned d 4 ++ (if ((mapAt maps d).bind (mapTag maps)).isSome then [] else [5]) else [])
      withArg 0 anchor ++ (maskLanes act).flatMap fun l => withArg l (bag l)
    | .sxbulkCopy _ len _ _ =>
      let (a, b, n) := two len.toNat
      withArg 0 (misaligned a 64 ++ misaligned b 64 ++ s.rangeCodes maps secure false a n (some stack) ++
        s.rangeCodes maps secure true b n (some stack) ++ tagged b)
    | .sxbulkFill _ len _ _ =>
      let (a, _, n) := two len.toNat
      withArg 0 (misaligned a 64 ++ s.rangeCodes maps secure true a n (some stack) ++ tagged a)
    | .sxbulkCmp _ len _ _ _ =>
      let (a, b, n) := two len.toNat
      let r := keptWord vals keyDest
      withArg 0 (misaligned a 64 ++ misaligned b 64 ++ misaligned r 8 ++ s.rangeCodes maps secure false a n (some stack) ++
        s.rangeCodes maps secure false b n (some stack) ++ s.rangeCodes maps secure true r 8 none)
    | _ => [])

/-- The ranges that a command registers (R387). -/
def stackRanges (secure : Bool) (i : Instr) (act : Mask) (maps : Tab Handle) (vals : Tab (List Img)) :
    List (Nat × Nat) × List (Nat × Nat) :=
  let a := keptWord vals 0
  let b := quadWord (Tab.at vals [] 0) 2
  match i with
  | .sxred _ _ _ _ _ rowlen _ _ _ =>
    let table := keptWord vals keyTable
    let n := 4 * rowElems rowlen
    let rows := match mapAt maps table with
      | some h => h.ranges (offOf table) (attrBytes h.attr - offOf table)
      | none => []
    let dest := fun (l : Nat) =>
      let d := bagDest vals l
      mapRanges maps secure true d n ++ mapTagRanges maps d n
    ((maskLanes act).flatMap (fun l =>
        mapRanges maps secure false (quadWord (Tab.at vals [] l) 0) (4 * quadNat (Tab.at vals [] l) 2)) ++ rows,
      (maskLanes act).flatMap dest)
  | .sxbulkCopy _ len _ _ => (mapRanges maps secure false a ((len.toNat + 1) * 64), mapRanges maps secure true b ((len.toNat + 1) * 64))
  | .sxbulkFill _ len _ _ => ([], mapRanges maps secure true a ((len.toNat + 1) * 64))
  | .sxbulkCmp _ len _ _ _ =>
    (mapRanges maps secure false a ((len.toNat + 1) * 64) ++ mapRanges maps secure false b ((len.toNat + 1) * 64),
     mapRanges maps secure true (keptWord vals keyDest) 8)
  | _ => ([], [])

/-! ## What a command does (R381, R384, R388) -/

/-- The pieces of a datum can hold 2^21 bytes here: where a lane's list, the row being read, and poison marks stand. -/
def listLane (l : Nat) : Nat := 32 * l
def rowLane : Nat := 33 * 32
def markLane : Nat := 64 * 32

/-- An element of a row joins the accumulator. -/
def sxJoin (op : SxOp) (ef : SxFmt) (acc x : Img) : Img :=
  match op, sxFp ef with
  | .sum, true => (fAdd .f32 (oprOf .f32 (acc, zeroImg)) (oprOf .f32 (x, zeroImg))).1
  | .sum, false => intImg (acc.val + x.val)
  | .max, true => (fMinMax true .f32 (acc, zeroImg) (x, zeroImg)).1
  | .max, false =>
    if ef == .z8 then (if acc.val.toNat < x.val.toNat then x else acc) else (if acc.val.toInt < x.val.toInt then x else acc)

/-- What an element holds that no row reached. -/
def sxEmpty (op : SxOp) (ef : SxFmt) : Img :=
  match op, sxFp ef with
  | .sum, true => zeroImg
  | .sum, false => intImg 0#32
  | .max, true => ⟨0xFF800000#32, zeroTag⟩
  | .max, false => if ef == .z8 then intImg 0#32 else intImg 0x80000000#32

/-- The elements of a row as read. -/
def sxRow (ef : SxFmt) (n : Nat) (bs : List Byte) : List Img :=
  (List.range n).map fun e => (loadImgs (sxSize ef) ((bs.drop (e * sxWidth ef)).take (sxWidth ef))).headD zeroImg

/-- Index i of a bag's list. -/
def Op.index (o : Op) (l i : Nat) : Nat := leNat (o.bytes (listLane l) (4 * i) 4)

/-- Whether a row index lies outside the table. -/
def rowOut (h : Option Handle) (table : Word64) (rowBytes r : Nat) : Bool :=
  match h with
  | some h => decide (attrBytes h.attr < offOf table + (r + 1) * rowBytes)
  | none => true

/-- Whether a bag's indices, once all lists are read, end the command: an index out of range under IDXTRAP 1 (code 9). -/
def listFault (o : Op) (ef : SxFmt) (rowlen : BitVec 8) : Option (Nat × Nat) :=
  let table := keptWord o.vals keyTable
  let h := mapAt o.maps table
  let rb := rowElems rowlen * sxWidth ef
  lowestFault ((maskLanes o.act).flatMap fun l =>
    (List.range (quadNat (Tab.at o.vals [] l) 2)).map fun i =>
      if rowOut h table rb (o.index l i) && o.ctl.getLsbD 0 then some (9, l) else none)

/-- The index lists of a command, as handle, lane, offset and length. -/
def redLists (i : Instr) (act : Mask) (maps : Tab Handle) (vals : Tab (List Img)) : List (Handle × Nat × Nat × Nat) :=
  match i with
  | .sxred .. => (maskLanes act).filterMap fun l =>
    let q := Tab.at vals [] l
    (mapAt maps (quadWord q 0)).map fun h => (h, l, offOf (quadWord q 0), 4 * quadNat q 2)
  | _ => []

/-- The table rows off the stack that the index lists name (code 1), found as the command registers, with the lists as they
stand (R379, R387). -/
def State.rowFault (s : State) (stack : Nat) (i : Instr) (act : Mask) (maps : Tab Handle) (vals : Tab (List Img)) :
    Option (Nat × Nat) :=
  match i with
  | .sxred _ ef _ _ _ rowlen _ _ _ =>
    let table := keptWord vals keyTable
    let h := mapAt maps table
    let rb := rowElems rowlen * sxWidth ef
    lowestFault ((redLists i act maps vals).flatMap fun x =>
      (List.range (x.2.2.2 / 4)).map fun j =>
        let r := leNat (s.bytesBeneath (stack / 2) x.1 (x.2.2.1 + 4 * j) 4)
        if !rowOut h table rb r && h.elim false fun h => s.offStack h (offOf table + r * rb) rb stack then some (1, x.2.1)
        else none)
  | _ => none

/-- Ending with a fault. -/
def Op.endFault (o : Op) (code arg : Nat) : Op :=
  let keep : Bool := o.fault != 0 && decide (o.fault ≤ code)
  { o with phase := .ended, todo := [], fault := if keep then o.fault else code, arg := if keep then o.arg else arg }

/-- The pooled row of a bag. -/
def Op.pooled (o : Op) (op : SxOp) (ef : SxFmt) (rowlen : BitVec 8) : List Img :=
  match Tab.at o.vals [] keyAcc with
  | [] => List.replicate (rowElems rowlen) (sxEmpty op ef)
  | acc => acc

/-- A running SXRED goes on until it has pieces to perform or ends. Stages: 0 the index lists, 1 they are read, 2 the next
index of the bag, 3 a row read, 4 a pooled row written. -/
def redAdvance (op : SxOp) (ef : SxFmt) (rowlen : BitVec 8) : Nat → Op → Op
  | 0, o => o
  | fuel + 1, o =>
    if !o.todo.isEmpty || o.phase != .running then o
    else if o.dropped then o.endFault 10 0
    else
      let table := keptWord o.vals keyTable
      let h := mapAt o.maps table
      let rb := rowElems rowlen * sxWidth ef
      match o.stage, o.lanes with
      | 0, _ =>
        let todo := o.lanes.flatMap fun l =>
          let q := Tab.at o.vals [] l
          o.readAt (listLane l) (quadWord q 0) (4 * quadNat q 2) false
        redAdvance op ef rowlen fuel { o with todo := todo, stage := 1 }
      | 1, _ =>
        match listFault o ef rowlen with
        | some f => o.endFault f.1 f.2
        | none => redAdvance op ef rowlen fuel { o with stage := 2, unit := 0, bad := false }
      | _, [] => { o with phase := .ended }
      | 2, l :: _ =>
        if quadNat (Tab.at o.vals [] l) 2 ≤ o.unit then
          let xs := o.pooled op ef rowlen
          let tags := if sxFp ef then WrTag.exact (xs.map (·.tag)) else .other
          redAdvance op ef rowlen fuel
            { o with todo := o.writeAt l (bagDest o.vals l) (imgBytes xs) tags, stage := 4 }
        else
          let r := o.index l o.unit
          if rowOut h table rb r then
            redAdvance op ef rowlen fuel { o with unit := o.unit + 1, oor := o.oor + 1 }
          else
            let a := mkAddr (hndOf table) (offOf table + r * rb)
            redAdvance op ef rowlen fuel { o with todo := o.readAt rowLane a rb false, stage := 3 }
      | 3, _ =>
        let row := sxRow ef (rowElems rowlen) (o.bytes rowLane 0 rb)
        let acc := match Tab.at o.vals [] keyAcc with
          | [] => row
          | acc => List.zipWith (sxJoin op ef) acc row
        redAdvance op ef rowlen fuel { o with vals := Tab.put o.vals keyAcc acc, unit := o.unit + 1, stage := 2 }
      | _, _ :: rest =>
        redAdvance op ef rowlen fuel
          { o with lanes := rest, unit := 0, stage := 2, bad := false, vals := Tab.put o.vals keyAcc [] }

/-- The offset of the first differing byte of two ranges, or all ones. -/
def firstDiff (xs ys : List Byte) : Nat :=
  ((indexFrom 0 (List.zip xs ys)).find? fun p => p.2.1 != p.2.2).elim (2 ^ 64 - 1) (·.1)

/-- The write of a FILL, COPY or CMP once its reads are done. -/
def Op.bulkWrites (o : Op) : List Piece :=
  let q := Tab.at o.vals [] 0
  match o.instr with
  | .sxbulkCopy _ len _ _ => o.writeAt 0 (quadWord q 2) (o.bytes 0 0 ((len.toNat + 1) * 64)) .other
  | .sxbulkFill _ len _ _ => o.writeAt 0 (quadWord q 0) ((List.replicate ((len.toNat + 1) * 8) (leBytes 8 (quadWord q 2).toNat)).flatten) .other
  | .sxbulkCmp _ len _ _ _ =>
    let n := (len.toNat + 1) * 64
    o.writeAt 0 (keptWord o.vals keyDest) (leBytes 8 (firstDiff (o.bytes 0 0 n) (o.bytes 32 0 n))) .other
  | _ => []

/-- The reads of a bulk command. -/
def Op.bulkReads (o : Op) : List Piece :=
  let q := Tab.at o.vals [] 0
  match o.instr with
  | .sxbulkCopy _ len _ _ => o.readAt 0 (quadWord q 0) ((len.toNat + 1) * 64) false
  | .sxbulkCmp _ len _ _ _ =>
    o.readAt 0 (quadWord q 0) ((len.toNat + 1) * 64) false ++ o.readAt 32 (quadWord q 2) ((len.toNat + 1) * 64) false
  | _ => []

/-- A running bulk command goes on: stage 0 its reads, 1 its writes, 2 done. -/
def Op.bulkAdvance : Nat → Op → Op
  | 0, o => o
  | fuel + 1, o =>
    if !o.todo.isEmpty || o.phase != .running then o
    else if o.dropped then o.endFault 10 0
    else if o.stage = 0 then Op.bulkAdvance fuel { o with todo := o.bulkReads, stage := 1 }
    else if o.stage = 1 then Op.bulkAdvance fuel { o with todo := o.bulkWrites, stage := 2 }
    else { o with phase := .ended }

/-- How often an operation may change its stage without a piece: every index of every bag may lie out of range. -/
def Op.fuel (o : Op) : Nat :=
  (maskLanes o.act).foldl (fun n l => n + min 65536 (quadNat (Tab.at o.vals [] l) 2) + 4) 8

/-- A running stack command goes on. -/
def stackAdvance (o : Op) : Op :=
  match o.instr with
  | .sxred op ef _ _ _ rowlen _ _ _ => redAdvance op ef rowlen o.fuel o
  | _ => Op.bulkAdvance 4 o

/-- Whether a write piece of an operation goes beneath the window paths (R388). -/
def beneath : Instr → Bool
  | .sxbulkCopy .. | .sxbulkFill .. => true
  | _ => false

end Sys2Proof.Machine
end

