-- ==== Sys2Proof/Machine/WaveOps.lean ====
section
/-! DEFINITION. Node banks, edge stores and wave instructions (R325-R352, R481, R484): records and their fields, what each
instruction does at issue, and what one event of a node engine does to a node (R330). -/

namespace Sys2Proof.Machine

/-! ## Node banks (R325-R329, R447, R510) -/

/-- Whether a partition owns the node bank of a core. -/
def Part.ownsBank (p : Part) (core : Nat) : Bool := p.formed && (p.word 4).getLsbD 0 && p.hasCluster (clusterOf core) && core < 1024

/-- The key of a node slot of a core, and of an edge index. -/
def nodeKey (core slot : Nat) : Nat := core * 8192 + slot
def edgeKey (core idx : Nat) : Nat := core * 524288 + idx

/-- TYPE, EPTR and ECOUNT. -/
def Node.type (n : Node) : Nat := fieldOf n.w0 48 16
def Node.eptr (n : Node) : Nat := fieldOf n.w0 24 19
def Node.ecount (n : Node) : Nat := fieldOf n.w0 0 20
/-- An element of a vector marker; a record never written holds zero. -/
def Node.mvAt (n : Node) (m e : Nat) : Img := Tab.at n.mv ⟨0#32, 0#8⟩ (m * 16 + e)
/-- A vector marker. -/
def Node.vec (n : Node) (m : Nat) : List Img := (List.range 16).map (n.mvAt m)
/-- Writing a vector marker, or a bit marker. -/
def Node.setVec (n : Node) (m : Nat) (xs : List Img) : Node :=
  { n with mv := (indexFrom (m * 16) (xs.take 16)).foldl (fun t ix => Tab.put t ix.1 ix.2) n.mv }
def Node.setBit (n : Node) (k : Nat) (b : Bool) : Node :=
  { n with mb := if b then n.mb ||| BitVec.ofNat 64 (2 ^ k) else n.mb &&& ~~~BitVec.ofNat 64 (2 ^ k) }

/-- Bits of a header word that the map shows as zero. -/
def headerMask : Word64 := BitVec.ofNat 64 (0xFFFF * 2 ^ 48 + (2 ^ 19 - 1) * 2 ^ 24 + (2 ^ 20 - 1))

/-- Edges that a core's store holds (R329). -/
def State.edgeLimit (s : State) (core : Nat) : Nat := if (s.core core).wplane then 344064 else 524288
/-- An edge record. -/
def State.edge (s : State) (core idx : Nat) : Word64 := Tab.at s.edges 0#64 (edgeKey core idx)
def State.setEdge (s : State) (core idx : Nat) (w : Word64) : State :=
  { s with edges := if w = 0#64 then Tab.del s.edges (edgeKey core idx) else Tab.put s.edges (edgeKey core idx) w }
/-- The record and half of the weight plane that hold the weight of an edge. -/
def weightAt (e : Nat) : Nat × Nat := (344064 + e / 2, e % 2)
/-- The FP32 code of an edge's weight. -/
def State.weightBits (s : State) (core e : Nat) : Nat := fieldOf (s.edge core (weightAt e).1) (32 * (weightAt e).2) 32
/-- The weight of an edge as an image (R329). -/
def State.weight (s : State) (core e : Nat) : Img :=
  if (s.core core).wplane then (loadedImg .f32 (s.weightBits core e)).1 else ⟨0x3F800000#32, zeroTag⟩

/-! ## Markers -/

/-- A marker as a number: bit markers 0-63, vector markers from 64. -/
def mvNum (m : Nat) : Nat := 64 + m

/-- Fields of a wave operation (R333). -/
structure WaveCmd where
  wid : Nat
  scope : Scope
  snap : Bool
  all : Bool
  inv : Bool
  smk : Nat
  writes : List Nat
  reads : List Nat
  deriving DecidableEq, Repr

/-- CCOND of a pattern quad, and its other fields (R334). -/
def patCond (q : List Img) : Nat := quadNat q 3 / 64 % 4
def patMark (q : List Img) : Nat := quadNat q 3 % 64

/-- The wave operation that an instruction is; `q` is its pattern quad. -/
def waveCmd (i : Instr) (q : List Img) : Option WaveCmd :=
  match i with
  | .mkmatch _ snap dmk _ wave scope _ =>
    some ⟨wave.toNat, scope, snap, true, false, 0, [dmk.toNat], if patCond q = 0 then [] else [patMark q]⟩
  | .mkset form opt all snap dmk smk _ wave scope _ | .mkclr form opt all snap dmk smk wave scope _ =>
    some ⟨wave.toNat, scope, snap, all, opt, smk.toNat, [if form == .vec then mvNum dmk.toNat else dmk.toNat],
      if all then [] else [smk.toNat]⟩
  | .mkprop _ _ all snap dmk smk _ _ wave scope _ =>
    some ⟨wave.toNat, scope, snap, all, false, smk.toNat, [dmk.toNat], if all then [] else [smk.toNat]⟩
  | .mkpropv _ all snap dmk smk _ _ wave scope _ =>
    some ⟨wave.toNat, scope, snap, all, false, smk.toNat, [mvNum dmk.toNat], if all then [] else [smk.toNat]⟩
  | .mkcollect opt all snap dmk smk _ wave scope _ =>
    some ⟨wave.toNat, scope, snap, all, false, smk.toNat, [],
      (if all then [] else [smk.toNat]) ++ (if opt then [mvNum dmk.toNat] else [])⟩
  | .mkcount all snap smk wave scope _ =>
    some ⟨wave.toNat, scope, snap, all, false, smk.toNat, [], if all then [] else [smk.toNat]⟩
  | _ => none

/-- KIND of an operation (R331): OPC − 0xD0. -/
def waveKind (i : Instr) : Nat := opcNum i - 0xD0

/-- Whether a node is selected (R333). -/
def WaveCmd.selects (c : WaveCmd) (n : Node) : Bool :=
  n.type != 0 && (c.all || (n.mb.getLsbD c.smk != c.inv))

/-! ## Issue of wave operations (R332, R333) -/

/-- Element e of a register, as a lane move reads it (R147). -/
def Seat.elem (x : Seat) (v : VNum) (e : Nat) : Img := (srcLane (x.g.rd 1 v.toNat) x.m0 (zeroOf 1) e).1

/-- A queued node operation as it issues. -/
def State.newNode (s : State) (i : Instr) (x : Seat) (tok : Nat) : Pre :=
  { id := s.nextId, gang := x.key, launch := x.g.launch, instr := i, act := x.m0, vals := [], ctl := x.g.rndctl
    tok := tok, pend := 0, maps := [], stream := none, follow := false, dead := false }

/-- A node operation joins its core's queue; one with a memory end also enters its stream. -/
def State.putNode (s : State) (x : Seat) (p : Pre) : State :=
  let s := { s.updGang x.key (fun g => g.tokAdd p.tok) with nextId := s.nextId + 1 }
  let s := s.updCore (coreOf x.key) fun c => { c with ndq := c.ndq ++ [p] }
  match p.stream with
  | none => s
  | some st =>
    s.enqueue x.key st
      { s.newEntry p.instr x with
        id := p.id, act := p.act, vals := p.vals, maps := p.maps, tok := p.tok, gate := s.gates x.key }

/-- A wave operation joins its gang's queue: what it reads stands at key 0, its edge-type set at key 1. -/
def waveWord (i : Instr) (tok : BitVec 3) (vals : Seat → List Img) (etypes : Seat → List Img) (stream : Seat → Option Nat)
    (s : State) : Next :=
  onceWord i (fun x t =>
    let read := vals x
    let addrs := match stream x with
      | some _ => [quadWord read 0]
      | none => []
    let maps := t.mapsFor (t.partOf x.g) (coreOf x.key) addrs
    .ok (t.putNode x { t.newNode i x tok.toNat with vals := [(0, read), (1, etypes x)], stream := stream x, maps := maps }) {}) s

/-- No values, and no stream. -/
def noVals : Seat → List Img := fun _ => []
def noStream : Seat → Option Nat := fun _ => none
/-- The images of an edge-type register: lanes 0-7. -/
def etypeSet (vt : VNum) (x : Seat) : List Img := (List.range 8).map (x.elem vt)

/-- MKMATCH (R334). -/
def execMkmatch (opt snap : Bool) (dmk : BitVec 6) (q : VNum) (wave : BitVec 4) (scope : Scope) (tok : BitVec 3) (s : State) :
    Next :=
  waveWord (.mkmatch opt snap dmk q wave scope tok) tok (fun x => x.g.quad q.toNat x.low0) noVals noStream s

/-- MKSET (R335). -/
def execMkset (form : MkForm) (opt all snap : Bool) (dmk smk : BitVec 6) (vv : VNum) (wave : BitVec 4) (scope : Scope)
    (tok : BitVec 3) (s : State) : Next :=
  waveWord (.mkset form opt all snap dmk smk vv wave scope tok) tok
    (fun x => if form == .vec then (List.range 16).map (x.elem vv) else []) noVals noStream s

/-- MKCLR (R335). -/
def execMkclr (form : MkForm) (opt all snap : Bool) (dmk smk : BitVec 6) (wave : BitVec 4) (scope : Scope) (tok : BitVec 3)
    (s : State) : Next :=
  waveWord (.mkclr form opt all snap dmk smk wave scope tok) tok noVals noVals noStream s

/-- MKPROP (R337). -/
def execMkprop (comb : Comb) (opt all snap : Bool) (dmk smk : BitVec 6) (vt : VNum) (hops : BitVec 8) (wave : BitVec 4)
    (scope : Scope) (tok : BitVec 3) (s : State) : Next :=
  waveWord (.mkprop comb opt all snap dmk smk vt hops wave scope tok) tok noVals (etypeSet vt) noStream s

/-- MKPROPV (R337). -/
def execMkpropv (comb : Comb) (all snap : Bool) (dmk smk : BitVec 6) (vt : VNum) (hops : BitVec 8) (wave : BitVec 4)
    (scope : Scope) (tok : BitVec 3) (s : State) : Next :=
  waveWord (.mkpropv comb all snap dmk smk vt hops wave scope tok) tok noVals (etypeSet vt) noStream s

/-- MKCOLLECT (R341): the quad names its address, capacity and stream. -/
def execMkcollect (opt all snap : Bool) (dmk smk : BitVec 6) (q : VNum) (wave : BitVec 4) (scope : Scope) (tok : BitVec 3)
    (s : State) : Next :=
  waveWord (.mkcollect opt all snap dmk smk q wave scope tok) tok (fun x => x.g.quad q.toNat x.low0) noVals
    (fun x => some (quadNat (x.g.quad q.toNat x.low0) 3 % 16)) s

/-- MKCOUNT (R336). -/
def execMkcount (all snap : Bool) (smk : BitVec 6) (wave : BitVec 4) (scope : Scope) (tok : BitVec 3) (s : State) : Next :=
  waveWord (.mkcount all snap smk wave scope tok) tok noVals noVals noStream s

/-- The wave id of an instruction that is a wave operation. -/
def waveIdOf (i : Instr) : Option Nat := (waveCmd i []).map (·.wid)

/-- The completed operations of a team on a wave id. -/
def State.waveDone (s : State) (lead wid : Nat) : List Nat :=
  (s.team lead).flatMap fun kg => Tab.at kg.2.waveOps [] wid

/-- MKWAIT (R342). -/
def execMkwait (wave : BitVec 4) (s : State) : Next :=
  onceWord (.mkwait wave) (fun x t =>
    let lead := t.leadOf x.key
    -- those issued before it, whichever part of the gang issues others meanwhile
    if (t.teamOps lead).any (fun o => o.1 < s.issuedAt && waveIdOf o.2 == some wave.toNat) then .wait fun s => s.holdWord true false
    else .ok ((t.waveDone lead wave.toNat).foldl (fun t n => t.acquire x.key (.op (coreOf x.key) 2 n)) t) {}) s

/-- MKSTAT (R343): every lane of M0 receives the status. -/
def execMkstat (vd : VNum) (wave : BitVec 4) (s : State) : Next :=
  pureWord (.mkstat vd wave) (fun x t => outWord vd.toNat (Tab.at (t.part (t.partOf x.g)).waves 0#64 wave.toNat)) s

/-! ## Node and edge access (R350, R351, R484) -/

/-- The location of a lane. -/
def laneLoc (g : Gang) (m : MemRef) (lane : Nat) : Word64 :=
  let o : Word64 := match m.ofs with
    | some v => ((g.reg v.toNat).lane lane).val.setWidth 64
    | none => 0#64
  g.hreg m.hnd.toNat + o + m.disp.signExtend 64

/-- The key of a node location for a partition, when it may be accessed. -/
def State.nodeLoc? (s : State) (pno : Nat) (w : Word64) : Option Nat :=
  let core := fieldOf w 13 10
  if w.toNat < 2 ^ 43 && fieldOf w 23 20 == Config.device.toNat && (s.part pno).ownsBank core then
    some (nodeKey core (fieldOf w 0 13))
  else none

/-- The key of an edge location for a partition, when it may be accessed. -/
def State.edgeLoc? (s : State) (pno : Nat) (weight : Bool) (w : Word64) : Option Nat :=
  let core := fieldOf w 19 10
  let idx := fieldOf w 0 19
  if w.toNat < 2 ^ 49 && fieldOf w 29 20 == Config.device.toNat && (s.part pno).ownsBank core && idx < s.edgeLimit core
      && (!weight || (s.core core).wplane) then some (edgeKey core idx)
  else none

/-- One lane's access, as a piece. -/
def locPiece (lane key : Nat) (wr : Bool) (loc : Word64) : Piece :=
  { lane := lane, wr := wr, cls := .plain, space := 0, pos := 0, cells := [key], data := [], tagCls := .plain, tagPos := 0
    tagCells := [], taddr := 0#64, tags := [], haddr := loc }

/-- A node or edge instruction: its locations are checked, and its accesses wait in issue order (stream 16). -/
def locWord (i : Instr) (m : MemRef) (find : State → Nat → Word64 → Option Nat) (wr : Bool)
    (put : Seat → State → List Piece → State) (s : State) : Next :=
  seatWord i (fun x t =>
    let loc := laneLoc x.g m
    let pno := t.partOf x.g
    let bad := maskOf fun l => inMask x.act l && (find t pno (loc l)).isNone
    match lowLane? bad with
    | some l => .trap (flaw 0x0C 9 bad (loc l) (x.g.hreg m.hnd.toNat))
    | none =>
      .ok (put x t ((maskLanes x.act).filterMap fun l => (find t pno (loc l)).map fun k => locPiece l k wr (loc l))) {}) s

/-- The images that a write reads in each lane. -/
def Seat.laneVals (x : Seat) (v : VNum) (len : Nat) : Tab (List Img) :=
  (maskLanes x.act).map fun l => (l, x.g.imgs v.toNat len l)

/-- Registers of a node field. -/
def ndLen (fi : NdField) : Nat := if fi == .mv then 1 else 2
def edLen (fi : EdField) : Nat := if fi == .weight then 1 else 2

/-- NDRD (R350, R351). -/
def execNdrd (fi : NdField) (mv : BitVec 2) (d : VNum) (m : MemRef) (look : BitVec 4) (tok : BitVec 3) (mk : MNum)
    (s : State) : Next :=
  let i : Instr := .ndrd fi mv d m look tok mk
  locWord i m State.nodeLoc? false (fun x t ps =>
    t.putLoad x 16 look.toNat tok.toNat ((List.range (ndLen fi)).map (d.toNat + ·)) { t.newEntry i x with todo := ps }) s

/-- NDWR (R350, R351). -/
def execNdwr (fi : NdField) (mv : BitVec 2) (vs : VNum) (m : MemRef) (tok : BitVec 3) (mk : MNum) (s : State) : Next :=
  let i : Instr := .ndwr fi mv vs m tok mk
  locWord i m State.nodeLoc? true (fun x t ps =>
    t.putStore x 16 tok.toNat { t.newEntry i x with todo := ps, vals := x.laneVals vs (ndLen fi) }) s

/-- EDRD (R350, R351). -/
def execEdrd (fi : EdField) (d : VNum) (m : MemRef) (look : BitVec 4) (tok : BitVec 3) (mk : MNum) (s : State) : Next :=
  let i : Instr := .edrd fi d m look tok mk
  locWord i m (fun t pno w => t.edgeLoc? pno (fi == .weight) w) false (fun x t ps =>
    t.putLoad x 16 look.toNat tok.toNat ((List.range (edLen fi)).map (d.toNat + ·)) { t.newEntry i x with todo := ps }) s

/-- EDWR (R350, R351). -/
def execEdwr (fi : EdField) (vs : VNum) (m : MemRef) (tok : BitVec 3) (mk : MNum) (s : State) : Next :=
  let i : Instr := .edwr fi vs m tok mk
  locWord i m (fun t pno w => t.edgeLoc? pno (fi == .weight) w) true (fun x t ps =>
    t.putStore x 16 tok.toNat { t.newEntry i x with todo := ps, vals := x.laneVals vs (edLen fi) }) s

/-- The images that a lane reads at a location. -/
def State.locRead (s : State) (i : Instr) (key lane : Nat) : List Img :=
  match i with
  | .ndrd fi mv _ _ _ _ _ =>
    let n := s.node key
    match fi with
    | .hdr => wordOf n.w0
    | .attr => wordOf n.w1
    | .mb => wordOf n.mb
    | .mv => [n.mvAt mv.toNat (lane % 16)]
  | .edrd fi _ _ _ _ _ =>
    let core := key / 524288
    let idx := key % 524288
    match fi with
    | .edge => wordOf (s.edge core idx)
    | .weight => [(loadedImg .f32 (s.weightBits core idx)).1]
  | _ => []
where
  wordOf (w : Word64) : List Img := pairImgs (intPair w)

/-- What a lane writes at a location. -/
def State.locWrite (s : State) (i : Instr) (key lane : Nat) (xs : List Img) : State :=
  let w := quadWord xs 0
  match i with
  | .ndwr fi mv _ _ _ _ =>
    let n := s.node key
    s.setNode key (match fi with
      | .hdr => { n with w0 := w &&& headerMask, poison := false }
      | .attr => { n with w1 := w }
      | .mb => { n with mb := w }
      | .mv => { n with mv := Tab.put n.mv (mv.toNat * 16 + lane % 16) (xs.headD zeroImg) })
  | .edwr fi _ _ _ _ =>
    let core := key / 524288
    let idx := key % 524288
    match fi with
    | .edge => { s.setEdge core idx w with edgePoison := Tab.del s.edgePoison key }
    | .weight =>
      let (r, half) := weightAt idx
      let old := s.edge core r
      let v := (xs.headD zeroImg).val.setWidth 64 <<< (32 * half)
      let keep : Word64 := BitVec.ofNat 64 ((2 ^ 32 - 1) * 2 ^ (32 * (1 - half)))
      s.setEdge core r (old &&& keep ||| v)
  | _ => s

/-- Whether the record at a location is poisoned. -/
def State.locPoisoned (s : State) (i : Instr) (key : Nat) : Bool :=
  match i with
  | .ndrd .. => (s.node key).poison
  | .edrd .. => (Tab.find? s.edgePoison key).isSome
  | _ => false

/-- The core of a location. -/
def locCore (i : Instr) (key : Nat) : Nat :=
  match i with
  | .edrd .. | .edwr .. => key / 524288
  | _ => key / 8192

/-! ## Events at a node (R334-R339) -/

/-- A marker value: a bit or sixteen images. -/
inductive MkVal where
  | bit (b : Bool)
  | vec (xs : List Img)
  deriving DecidableEq, Repr

/-- Whether a node matches a pattern quad (R334). -/
def patMatches (q : List Img) (n : Node) : Bool :=
  let v := fun k => quadNat q k
  let tmask := v 0 / 65536
  let typeOk := (n.type &&& tmask) == (v 0 % 65536 &&& tmask)
  let attr := if v 3 / 256 % 2 = 0 then fieldOf n.w1 0 32 else fieldOf n.w1 32 32
  let x := attr &&& v 2
  let y := v 1 &&& v 2
  let cmp : Bool := match v 3 / 512 % 4 with
    | 0 => x == y
    | 1 => decide (x < y)
    | _ => decide (y ≤ x)
  let cond := match patCond q with
    | 0 => true
    | 1 => n.mb.getLsbD (patMark q)
    | _ => !n.mb.getLsbD (patMark q)
  typeOk && cmp && cond

/-- A pattern quad that is at fault (R481 FAULT 1). -/
def patBad (q : List Img) : Bool := patCond q = 3 || quadNat q 3 / 512 % 4 = 3 || 2 ^ 11 ≤ quadNat q 3

/-- Element by element. -/
def zipImgs (f : Img → Img → Img) (xs ys : List Img) : List Img := List.zipWith f xs ys

/-- F32-class sums, products and winners of images (R339). -/
def imgAdd (a b : Img) : Img := (fAdd .f32 (oprOf .f32 (a, zeroImg)) (oprOf .f32 (b, zeroImg))).1
def imgMul (a b : Img) : Img := (fMul .f32 (oprOf .f32 (a, zeroImg)) (oprOf .f32 (b, zeroImg))).1
def imgPick (isMax : Bool) (a b : Img) : Img := (fMinMax isMax .f32 (a, zeroImg) (b, zeroImg)).1

/-- Combine (R339). -/
def combine (c : Comb) (old v : MkVal) : MkVal :=
  match old, v with
  | .bit a, .bit b => .bit (if c == .or then a || b else a && b)
  | .vec xs, .vec ys =>
    .vec (match c with
      | .max => zipImgs (imgPick true) xs ys
      | .min | .minplus => zipImgs (imgPick false) xs ys
      | _ => zipImgs imgAdd xs ys)
  | _, _ => old

/-- What goes out along an edge of weight w (R339). -/
def outAlong (c : Comb) (v : MkVal) (w : Img) : MkVal :=
  match v, c with
  | .vec xs, .minplus => .vec (xs.map fun x => imgAdd x w)
  | .vec xs, .wsum => .vec (xs.map fun x => imgMul x w)
  | _, _ => v

/-- The propagation of an operation: function, marker, whether a vector, hop limit, whether seeds are marked. -/
structure PropCmd where
  comb : Comb
  dmk : Nat
  isVec : Bool
  hops : Nat
  seed : Bool
  deriving DecidableEq, Repr

/-- The propagation that an instruction is. -/
def propCmd : Instr → Option PropCmd
  | .mkprop comb opt _ _ dmk _ _ hops _ _ _ => some ⟨comb, dmk.toNat, false, hops.toNat, opt⟩
  | .mkpropv comb _ _ dmk _ _ hops _ _ _ => some ⟨comb, dmk.toNat, true, hops.toNat, false⟩
  | _ => none

/-- A node's marker. -/
def Node.marker (n : Node) (p : PropCmd) : MkVal := if p.isVec then .vec (n.vec p.dmk) else .bit (n.mb.getLsbD p.dmk)
/-- Setting a node's marker. -/
def Node.setMarker (n : Node) (p : PropCmd) (v : MkVal) : Node :=
  match v with
  | .bit b => n.setBit p.dmk b
  | .vec xs => n.setVec p.dmk xs

/-- The value of a seed (R339). -/
def seedValue (p : PropCmd) (n : Node) : MkVal :=
  match p.comb with
  | .or => .bit true
  | .and => .bit false
  | _ => n.marker p

/-- A message's value. -/
def msgValue (m : WaveMsg) (p : PropCmd) : MkVal :=
  if p.isVec then .vec (m.vec.map fun x => ⟨x.1, x.2⟩) else .bit m.bit
/-- A message with a value for a slot. -/
def msgOf (slot : Nat) (v : MkVal) (hop : Nat) : WaveMsg :=
  match v with
  | .bit b => ⟨slot, b, [], hop⟩
  | .vec xs => ⟨slot, false, xs.map (fun x => (x.val, x.tag)), hop⟩

/-- Whether an edge type belongs to a set of eight words (R337). -/
def inTypes (set : List (BitVec 32)) (t : Nat) : Bool := (set.getD (t / 32) 0#32).getLsbD (t % 32)

/-- What a node sends: (target node id, message) for each edge it propagates along, and whether an edge was poisoned
(R338, R490). -/
def State.sends (s : State) (core slot : Nat) (p : PropCmd) (set : List (BitVec 32)) (v : MkVal) (h : Nat) :
    List (Nat × WaveMsg) × Bool :=
  let n := s.node (nodeKey core slot)
  let idx := ((List.range n.ecount).map (n.eptr + ·)).filter (· < s.edgeLimit core)
  let follow := idx.filter fun i =>
    let e := s.edge core i
    inTypes set (fieldOf e 56 8) && !e.getLsbD 12
  let bad := fun i => (Tab.find? s.edgePoison (edgeKey core i)).isSome
  ((follow.filter fun i => !bad i).map fun i =>
      let t := fieldOf (s.edge core i) 13 43
      (t, msgOf (t % 8192) (outAlong p.comb v (s.weight core i)) h),
   idx.any bad)

/-! ## Status words (R331, R481) -/

/-- What events add to a wave's status word. -/
structure WaveNote where
  count : Nat := 0
  depth : Nat := 0
  drops : Nat := 0
  hopcut : Bool := false
  trunc : Bool := false
  fault : Nat := 0
  deriving DecidableEq, Repr

/-- A status word with a note added: counts saturate, the lowest fault stands. -/
def noteStatus (w : Word64) (n : WaveNote) : Word64 :=
  let old := fieldOf w 48 8
  let fault := if n.fault = 0 then old else if old = 0 then n.fault else min old n.fault
  BitVec.ofNat 64 (fieldOf w 58 6 * 2 ^ 58 + (if w.getLsbD 57 || n.trunc then 2 ^ 57 else 0)
    + (if w.getLsbD 56 || n.hopcut then 2 ^ 56 else 0) + fault * 2 ^ 48
    + min 255 (fieldOf w 40 8 + n.drops) * 2 ^ 40 + max (fieldOf w 32 8) (min 255 n.depth) * 2 ^ 32
    + min (2 ^ 32 - 1) (fieldOf w 0 32 + n.count))

/-- What a foreign wave's origin is still to be told, with a note added (R346). -/
def addNote (b : RemoteBack) (n : WaveNote) : RemoteBack :=
  { b with count := b.count + n.count, depth := max b.depth n.depth, drops := b.drops + n.drops, hopcut := b.hopcut || n.hopcut
           fault := if n.fault = 0 then b.fault else if b.fault = 0 then n.fault else min b.fault n.fault }

/-- STATE of a status word. -/
def waveState (w : Word64) : Nat := fieldOf w 62 2
/-- Setting STATE. -/
def setWaveState (w : Word64) (st : Nat) : Word64 := BitVec.ofNat 64 (st * 2 ^ 62 + fieldOf w 0 62)

/-- Changing the status word of a wave. -/
def State.updStatus (s : State) (pno wid : Nat) (f : Word64 → Word64) : State :=
  s.updPart pno fun p => { p with waves := Tab.put p.waves wid (f (Tab.at p.waves 0#64 wid)) }

/-! ## Starts and deliveries (R330, R338) -/

/-- What an event at a node leaves: the node, the messages it sends, the new hop count, the note, and for a collecting
wave the node's entry. -/
structure NodeEvent where
  node : Node
  out : List (Nat × WaveMsg) := []
  lowhop : Option Nat := none
  note : WaveNote := {}
  sel : Option (List Img) := none

/-- A count of changes. -/
def changes (b : Bool) : WaveNote := { count := if b then 1 else 0 }

/-- The start of an operation at a node. -/
def State.startAt (s : State) (core slot : Nat) (w : Wave) : NodeEvent :=
  let n := s.node (nodeKey core slot)
  if n.poison then { node := n, note := { fault := 7 } }
  else if n.type = 0 then { node := n }
  else
    match waveCmd w.instr w.vals with
    | none => { node := n }
    | some c =>
      match w.instr with
      | .mkmatch opt _ dmk _ _ _ _ =>
        if patBad w.vals then { node := n, note := { fault := 1 } }
        else
          let hit := patMatches w.vals n
          { node := if hit then n.setBit dmk.toNat true else if opt then n.setBit dmk.toNat false else n, note := changes hit }
      | .mkset form _ _ _ dmk _ _ _ _ _ =>
        if !c.selects n then { node := n }
        else
          let n' := if form == .vec then n.setVec dmk.toNat w.vals else n.setBit dmk.toNat true
          { node := n', note := changes (if form == .vec then n'.vec dmk.toNat != n.vec dmk.toNat else n'.mb != n.mb) }
      | .mkclr form _ _ _ dmk _ _ _ _ =>
        if !c.selects n then { node := n }
        else
          let n' := if form == .vec then n.setVec dmk.toNat (List.replicate 16 zeroImg) else n.setBit dmk.toNat false
          { node := n', note := changes (if form == .vec then n'.vec dmk.toNat != n.vec dmk.toNat else n'.mb != n.mb) }
      | .mkcount .. => { node := n, note := changes (c.selects n) }
      | .mkcollect opt _ _ dmk _ _ _ _ _ =>
        if !c.selects n then { node := n }
        else { node := n, note := changes true, sel := some (if opt then n.vec dmk.toNat else []) }
      | _ =>
        match propCmd w.instr with
        | none => { node := n }
        | some p =>
          if !c.selects n then { node := n }
          else
            let v := seedValue p n
            let n' := if p.seed then n.setMarker p v else n
            let (out, bad) := s.sends core slot p w.etypes v 1
            { node := n', out := out, lowhop := some 0
              note := { changes (n' != n) with fault := if bad then 7 else 0 } }

/-- The delivery of a message to a node. -/
def State.deliverAt (s : State) (core : Nat) (w : Wave) (m : WaveMsg) : NodeEvent :=
  let key := nodeKey core m.slot
  let n := s.node key
  if n.poison then { node := n, note := { fault := 7 } }
  else if n.type = 0 then { node := n, note := { drops := 1 } }
  else
    match propCmd w.instr with
    | none => { node := n }
    | some p =>
      let old := n.marker p
      let v := msgValue m p
      let new := combine p.comb old v
      let changed : Bool := new != old
      let low := Tab.at w.lowhop 256 key
      let flow : Bool × MkVal × Bool :=
        if p.comb == .sum || p.comb == .wsum then (decide (m.hop < p.hops), v, false)
        else if p.hops = 0 then (changed, new, false)
        else if p.hops ≤ m.hop then (false, new, changed)
        else (changed || decide (m.hop < low), new, false)
      let n' := n.setMarker p new
      let t := s.setNode key n'
      let (out, bad) := if flow.1 then t.sends core m.slot p w.etypes flow.2.1 (m.hop + 1) else ([], false)
      { node := n', out := out, lowhop := some (min low m.hop)
        note := { count := if changed then 1 else 0, depth := m.hop, hopcut := flow.2.2, fault := if bad then 7 else 0 } }

end Sys2Proof.Machine
end

