-- ==== Sys2Proof/Machine/WaveEvents.lean ====
section
/-! DEFINITION. Waves as they run (R332, R344-R348, R412, R481-R483, R503): registration and start, the events of a node
engine, credit, batches within the device and across devices, and the end. -/

namespace Sys2Proof.Machine

/-! ## Wave records -/

/-- A wave. -/
def State.wave? (s : State) (k : Nat) : Option Wave := Tab.find? s.waves k
/-- Changing a wave that is listed. -/
def State.updWave (s : State) (k : Nat) (f : Wave → Wave) : State :=
  match s.wave? k with
  | some w => { s with waves := Tab.put s.waves k (f w) }
  | none => s

/-- An engine without state for a wave. -/
def WaveEng.none : WaveEng := ⟨0, [], [], [], false⟩
/-- Changing an engine's part of a wave. -/
def Wave.updEng (w : Wave) (core : Nat) (f : WaveEng → WaveEng) : Wave :=
  { w with engs := Tab.upd w.engs WaveEng.none core f }

/-- How many waves an engine holds state for (R346). -/
def State.waveLoad (s : State) (core : Nat) : Nat := (s.waves.filter fun w => (Tab.find? w.2.engs core).isSome).length
/-- Whether an engine can take part in a wave. -/
def State.canHold (s : State) (core : Nat) (w : Wave) : Bool := (Tab.find? w.engs core).isSome || decide (s.waveLoad core < 32)

/-- Nothing to tell a wave's origin. -/
def RemoteBack.none : RemoteBack := ⟨0, 0, 0, 0, false, 0⟩

/-- A note added to a wave's status word; a foreign wave's word stands at its origin, which is told of it with the credit
that goes back (R346). -/
def State.note (s : State) (w : Wave) (n : WaveNote) : State :=
  if w.foreign then
    { s with waves := s.waves.map fun x => if x.2.seq = w.seq then (x.1, { x.2 with noted := addNote x.2.noted n }) else x }
  else s.updStatus w.pno w.wid fun x => noteStatus x n

/-- The credit of a whole wave. -/
def wholeCredit : Nat := 2 ^ 32

/-! ## The end of a wave (R341, R344) -/

/-- Bytes of an entry that MKCOLLECT writes. -/
def entrySize (opt : Bool) : Nat := if opt then 88 else 8
/-- The destination and capacity of MKCOLLECT: address, entries, whether the quad or destination is at fault. -/
def collectDest (secure : Bool) (maps : Tab Handle) (q : List Img) (size : Nat) : Word64 × Nat × Bool :=
  let a := quadWord q 0
  let cap := quadNat q 2
  (a, cap, decide (16 ≤ quadNat q 3) || mapRefuses maps secure true false a (cap * size))

/-- A node id of this device. -/
def nodeId (core slot : Nat) : Nat := Config.device.toNat * 2 ^ 23 + core * 2 ^ 13 + slot

/-- An entry's bytes. -/
def entryBytes (key : Nat) (vec : List Img) : List Byte :=
  leBytes 8 (nodeId (key / 8192) (key % 8192)) ++ imgBytes vec ++ vec.map (·.tag)

/-- The write pieces of a collecting wave, and whether it found more nodes than its capacity; a piece's lane is the key of
its node, whose quarter writes it. -/
def State.collectPieces (s : State) (o : Op) (w : Wave) (opt : Bool) : List Piece × Bool :=
  let size := entrySize opt
  let (a, cap, bad) := collectDest (s.opSecure o) o.maps w.vals size
  let ranked := indexFrom 0 w.sel
  let pieces := (ranked.filter (fun kn => kn.1 < cap)).flatMap fun kn =>
    o.writeAt kn.2.1 (mkAddr (hndOf a) (offOf a + kn.1 * size)) (entryBytes kn.2.1 kn.2.2) .other
  (if bad then [] else pieces, decide (cap < w.sel.length))

/-- A wave whose credit has all come back has ended; a collecting operation then writes its entries. -/
def State.checkEnd (s : State) (k : Nat) : State :=
  match s.wave? k with
  | none => s
  | some w =>
    if w.foreign || w.ended || w.pool != wholeCredit then s
    else
      let s := s.updWave k fun w => { w with ended := true }
      match w.instr, s.op? w.origin 2 w.num with
      | .mkcollect opt .., some o =>
        let (ps, trunc) := s.collectPieces o w opt
        (s.note w { trunc := trunc }).updOp w.origin 2 w.num fun o =>
          { o with todo := ps, phase := if ps.isEmpty then .ended else .running }
      | _, _ => s.updOp w.origin 2 w.num fun o => { o with phase := .ended }

/-- Credit comes back to the pool of a wave's origin. -/
def State.poolAdd (s : State) (k c : Nat) : State := (s.updWave k fun w => { w with pool := w.pool + c }).checkEnd k

/-! ## Sending (R344, R345, R412) -/

/-- The number of a core of another device as a batch's target. -/
def farCore (dev core : Nat) : Nat := 1024 + dev * 1024 + core

/-- The core of this device or another that a batch goes to decides its plane (R412). -/
def Batch.home (b : Batch) : Nat := b.dst % 1024 % 8
/-- Whether a batch waits in the message path to the fabric. -/
def Batch.queued (b : Batch) : Bool := !b.sent && decide (1024 ≤ b.dst)

/-- One batch leaves an engine, which counts it as sent at that moment (R483); one for another device stands in its core's
message path to the fabric until a plane takes it (R412). -/
def State.putBatch (s : State) (k core credit : Nat) (b : Nat × Bool × List WaveMsg) (back : Option RemoteBack := none) :
    State :=
  match s.wave? k with
  | none => s
  | some w =>
    let key := core * 2 ^ 32 + b.1
    let num := Tab.at w.sent 0 key + 1
    let far : Bool := decide (1024 ≤ b.1)
    let batch : Batch :=
      ⟨s.nextId, k, core, b.1, num, s.planeOf (b.1 % 1024 % 8), credit, b.2.1, b.2.2, !far, s.tick, false, back⟩
    let s := s.updWave k fun w =>
      { w with sent := Tab.put w.sent key num, away := if far && !w.foreign then w.away + credit else w.away }
    { s with batches := s.batches ++ [batch], nextId := s.nextId + 1 }

/-- An engine sends batches as far as its credit goes, and holds the rest. -/
def State.sendBatches (s : State) (k core : Nat) (bs : List (Nat × Bool × List WaveMsg)) : State :=
  match s.wave? k with
  | none => s
  | some w =>
    let e := Tab.at w.engs WaveEng.none core
    let n := bs.length
    if n = 0 then s
    else if n + 1 ≤ e.credit then
      let part := e.credit / (n + 1)
      let s := s.updWave k fun w => w.updEng core fun e => { e with credit := e.credit - n * part, held := [] }
      bs.foldl (fun s b => s.putBatch k core part b) s
    else
      let m := e.credit - 1
      let s := s.updWave k fun w => w.updEng core fun e => { e with credit := e.credit - m, held := bs.drop m }
      (bs.take m).foldl (fun s b => s.putBatch k core 1 b) s

/-- Messages of one step, taken to their engines: those of the core itself stay in it, the others go in one batch per
core; a target on this device outside the partition discards its message (R481 FAULT 4). -/
def State.dispatch (s : State) (k core : Nat) (out : List (Nat × WaveMsg)) : State :=
  match s.wave? k with
  | none => s
  | some w =>
    let dst := fun (t : Nat) =>
      let dev := t / 2 ^ 23
      let c := t / 8192 % 1024
      if dev == Config.device.toNat then (if (s.part w.pno).ownsBank c then some c else none) else some (farCore dev c)
    let own := (out.filter fun m => dst m.1 == some core).map (·.2)
    let lost := out.any fun m => (dst m.1).isNone
    let others := ((out.filterMap fun m => dst m.1).filter (· != core)).dedup
    let bs := others.map fun d => (d, false, (out.filter fun m => dst m.1 == some d).map (·.2))
    let s := s.updWave k fun w => w.updEng core fun e => { e with msgs := e.msgs ++ own }
    let s := if lost then s.note w { fault := 4 } else s
    let held := (Tab.at w.engs WaveEng.none core).held
    s.sendBatches k core (if bs.isEmpty then [] else held ++ bs)

/-! ## Registration and start (R332, R333, R347) -/

/-- The cores of a scope. -/
def Part.scopeCores (p : Part) (origin : Nat) : Scope → List Nat
  | .core => [origin]
  | .cluster => (List.range 16).map (clusterOf origin * 16 + ·)
  | .part => p.cores

/-- What an operation read at issue. -/
def readVals (vals : Tab (List Img)) : List Img := Tab.at vals [] 0

/-- Whether a wave operation may register. -/
def State.nodeReady (s : State) (core pno : Nat) (p : Pre) : Bool :=
  match waveCmd p.instr (readVals p.vals) with
  | some c => waveState (Tab.at (s.part pno).waves 0#64 c.wid) = 0 && (s.engine core 2).room 2
  | none => false

/-- The ranges that a wave operation registers. -/
def State.nodeRanges (s : State) (pno : Nat) (p : Pre) : List (Nat × Nat) :=
  match p.instr with
  | .mkcollect opt .. =>
    let (a, cap, bad) := collectDest (s.part pno).secure p.maps (readVals p.vals) (entrySize opt)
    if bad then [] else mapRanges p.maps (s.part pno).secure true a (cap * entrySize opt)
  | _ => []

/-- A wave operation registers: its number, its status word, its wave. -/
def State.registerNode (s : State) (core pno : Nat) (p : Pre) : State :=
  match waveCmd p.instr (readVals p.vals) with
  | none => s
  | some c =>
    let num := (s.engine core 2).issued + 1
    let s := s.register core 2 pno p
    let mine := c.reads ++ c.writes
    let blocked := if !c.snap then [] else
      (s.waves.filter fun w => w.2.pno == pno && !w.2.foreign &&
        ((waveCmd w.2.instr w.2.vals).elim false fun d => d.writes.any mine.contains)).map (·.1)
    let s := s.updStatus pno c.wid fun _ =>
      setWaveState (BitVec.ofNat 64 (waveKind p.instr % 16 * 2 ^ 58)) (if blocked.isEmpty then 2 else 1)
    let w : Wave :=
      { pno := pno, wid := c.wid, foreign := false, origin := core, num := num, seq := p.id, gang := p.gang, instr := p.instr
        etypes := (Tab.at p.vals [] 1).map (·.val), vals := readVals p.vals, engs := []
        scope := ((s.part pno).scopeCores core c.scope).filter (s.part pno).ownsBank, started := [], pool := 0, away := 0
        asks := [], lowhop := [], delivered := [], sent := [], heard := [], blocked := blocked, sel := [], ended := false, noted := RemoteBack.none }
    { s with waves := Tab.put s.waves p.id w }

/-- The wave operation that starts next: the lowest number whose held start has been released. -/
def State.nodeStarts? (s : State) (core : Nat) : Option (Op × Wave) :=
  ((s.engine core 2).ops.filter fun (o : Op) => o.phase == .registered).findSome? fun o =>
    match s.wave? o.seq with
    | some w => if w.blocked.any fun b => (s.wave? b).isSome then none else some (o, w)
    | none => none

/-- A wave operation starts: the origin takes the wave's credit, and sends the start to the other cores of the scope. -/
def State.startNode (s : State) (core : Nat) (o : Op) (w : Wave) : State :=
  let k := o.seq
  let cmd := waveCmd w.instr w.vals
  let all := cmd.elim [] fun c => (s.part w.pno).scopeCores core c.scope
  let foreign := all.any fun c => !w.scope.contains c
  let bad := match w.instr with
    | .mkcollect opt .. => (collectDest (s.opSecure o) o.maps w.vals (entrySize opt)).2.2
    | _ => false
  let badPat := match w.instr with
    | .mkmatch .. => patBad w.vals
    | _ => false
  let s := s.updOp core 2 o.num fun o => { o with phase := .running }
  let s := s.updStatus w.pno w.wid fun x => setWaveState x 2
  let s := if foreign then s.note w { fault := 3 } else s
  let s := if bad then s.note w { fault := 2 } else s
  let s := if badPat then s.note w { fault := 1 } else s
  let slots := if w.scope.contains core then List.range 8192 else []
  let s := s.updWave k fun w => w.updEng core fun _ => ⟨wholeCredit, slots, [], [], false⟩
  s.sendBatches k core ((w.scope.filter (· != core)).map fun c => (c, true, []))

/-! ## Events at nodes (R330, R338, R348) -/

/-- An event at a node takes effect: its record, hop count, note, entry and messages. -/
def State.applyEvent (s : State) (k core slot : Nat) (w : Wave) (ev : NodeEvent) : State :=
  let key := nodeKey core slot
  let s := s.setNode key ev.node
  let s := s.updWave k fun w =>
    { w with lowhop := match ev.lowhop with
               | some h => Tab.put w.lowhop key h
               | none => w.lowhop
             sel := match ev.sel with
               | some xs => Tab.put w.sel key xs
               | none => w.sel }
  (s.note w ev.note).dispatch k core ev.out

/-- Whether the gang's earlier accesses and starts at a core are done (R348). -/
def State.startFree (s : State) (core : Nat) (w : Wave) : Bool :=
  s.gangs.all (fun kg =>
    !s.sameTeam kg.1 w.gang || (kg.2.stream 16).all fun e =>
      w.seq ≤ e.id || e.todo.all fun p => p.cells.all fun c => locCore e.instr c != core) &&
  s.waves.all fun v =>
    v.2.foreign || !s.sameTeam v.2.gang w.gang || w.seq ≤ v.2.seq || !v.2.scope.contains core || v.2.started.contains core

/-- The start of an operation at one slot, or, for slot 8192, at every slot that remains, in ascending order. DESIGN CHOICE (log
153): two operations that start over the same nodes leave each node as if one had run after the other, in an order of its own
for each node (R330, R338, R347). -/
def State.waveStart (s : State) (core k slot : Nat) : State :=
  match s.wave? k with
  | none => s
  | some w =>
    let left := (Tab.at w.engs WaveEng.none core).left
    let slots := if slot = 8192 then left else left.filter (· == slot)
    if slots.isEmpty || !s.startFree core w then s
    else
      let s := slots.foldl (fun (s : State) sl => s.applyEvent k core sl w (s.startAt core sl w)) s
      s.updWave k fun w =>
        let rest := if slot = 8192 then [] else left.filter (· != slot)
        let w := w.updEng core fun e => { e with left := rest }
        if rest.isEmpty then { w with started := w.started ++ [core] } else w

/-- WAVE_START (R330, R338). -/
def execWaveStart (core w slot : Nat) (s : State) : Next := .next (s.waveStart core w slot)

/-- The limit of deliveries of one wave at one engine (R482). -/
def runawayLimit : Nat := 2 ^ 30

/-- A message leaves an engine's list, delivered or discarded. -/
def State.takeMsg (s : State) (core k n : Nat) (f : State → Wave → WaveMsg → State) (late : Bool) : State :=
  match s.wave? k with
  | none => s
  | some w =>
    match (Tab.at w.engs WaveEng.none core).msgs[n]? with
    | none => s
    | some m =>
      if (runawayLimit ≤ Tab.at w.delivered 0 core) != late then s
      else f (s.updWave k fun w => w.updEng core fun e => { e with msgs := e.msgs.eraseIdx n }) w m

/-- WAVE_DELIVERY (R338). -/
def execWaveDelivery (core w n : Nat) (s : State) : Next :=
  .next (s.takeMsg core w n (fun s v m =>
    let s := s.updWave w fun v => { v with delivered := Tab.upd v.delivered 0 core (· + 1) }
    s.applyEvent w core m.slot v (s.deliverAt core v m)) false)

/-- WAVE_RUNAWAY (R482): the message is discarded. -/
def execWaveRunaway (core w n : Nat) (s : State) : Next :=
  .next (s.takeMsg core w n (fun s v _ => s.note v { fault := 6 }) true)

/-! ## Credit (R344, R345) -/

/-- Whether an engine holds no undelivered message and no unstarted work. -/
def WaveEng.idle (e : WaveEng) : Bool := e.left.isEmpty && e.msgs.isEmpty && e.held.isEmpty

/-- Credit of a foreign wave goes back to its origin, with what the origin's status word is told (R346, R412); where no plane
is live it stays in the message path (log 125). -/
def State.creditHome (s : State) (core k c : Nat) : State :=
  match s.wave? k with
  | none => s
  | some w =>
    (s.putBatch k core c (farCore (w.origin / 1024) (w.origin % 1024), false, []) (some { w.noted with credit := c })).updWave k
      fun w => { w with noted := RemoteBack.none }

/-- An idle engine returns its whole credit and frees its state. -/
def State.returnCredit (s : State) (core k : Nat) : State :=
  match s.wave? k with
  | none => s
  | some w =>
    match Tab.find? w.engs core with
    | none => s
    | some e =>
      if !e.idle then s
      else
        let s := s.updWave k fun w => { w with engs := Tab.del w.engs core }
        if w.foreign then s.creditHome core k e.credit else s.poolAdd k e.credit

/-- What credit that returns tells of a status word. -/
def backNote (b : RemoteBack) : WaveNote :=
  { count := b.count, depth := b.depth, drops := b.drops, hopcut := b.hopcut, fault := b.fault }

/-- Credit that an engine of another device returns, with its part of the status word. -/
def State.creditBack (s : State) (k : Nat) (b : RemoteBack) : State :=
  match s.wave? k with
  | none => s
  | some w =>
    if w.foreign || w.away < b.credit then s
    else
      let s := s.note w (backNote b)
      let s := s.takeFlits (s.portOn (s.planeOf (w.origin % 8)) 0) 1
      (s.updWave k fun w => { w with away := w.away - b.credit }).poolAdd k b.credit

/-- CREDIT_RETURN (R344). -/
def execCreditReturn (core w : Nat) (back : Option RemoteBack) (s : State) : Next :=
  .next (match back with
    | none => s.returnCredit core w
    | some b => s.creditBack w b)

/-- CREDIT_REQUEST (R345): an engine that holds batches back asks the origin; `core` from 1024 up is an engine of another
device. -/
def execCreditRequest (core w : Nat) (s : State) : Next :=
  .next (match s.wave? w with
    | none => s
    | some v =>
      let e := Tab.at v.engs WaveEng.none core
      if 1024 ≤ core then (if v.foreign || v.away = 0 then s else s.updWave w fun v => { v with asks := v.asks ++ [core] })
      else if e.held.isEmpty || e.asked then s
      else s.updWave w fun v =>
        let v := v.updEng core fun e => { e with asked := true }
        if v.foreign then v else { v with asks := v.asks ++ [core] })

/-- Credit reaches an engine that asked for it, which sends what it can. -/
def State.creditTo (s : State) (core k c : Nat) : State :=
  match s.wave? k with
  | none => s
  | some w =>
    let held := (Tab.at w.engs WaveEng.none core).held
    (s.updWave k fun w => w.updEng core fun e => { e with credit := e.credit + c, asked := false }).sendBatches k core held

/-- CREDIT_ANSWER (R345): half of the pool; `n` is what the origin of a foreign wave answers. -/
def execCreditAnswer (core w n : Nat) (s : State) : Next :=
  .next (match s.wave? w with
    | none => s
    | some v =>
      if v.foreign then (if (Tab.at v.engs WaveEng.none core).asked then s.creditTo core w n else s)
      else if !v.asks.contains core || v.pool < 2 then s
      else
        let c := v.pool / 2
        let s := s.updWave w fun v => { v with pool := v.pool - c, asks := v.asks.erase core }
        if 1024 ≤ core then s.updWave w fun v => { v with away := v.away + c } else s.creditTo core w c)

/-! ## Batches (R346, R412, R483, R503) -/

/-- A batch enters an engine. -/
def State.enterBatch (s : State) (k core credit : Nat) (start : Bool) (msgs : List WaveMsg) : State :=
  s.updWave k fun w => w.updEng core fun e =>
    { e with credit := e.credit + credit, left := if start then List.range 8192 else e.left, msgs := e.msgs ++ msgs }

/-- A batch of this device reaches its engine, once that has a wave state for it. -/
def State.acceptBatch (s : State) (n : Nat) : State :=
  match s.batches.find? (fun b => b.id == n && b.dst < 1024) with
  | none => s
  | some b =>
    match s.wave? b.wave with
    | none => s
    | some w =>
      if !s.canHold b.dst w then s
      else { s with batches := s.batches.filter (fun x => x.id != n) }.enterBatch b.wave b.dst b.credit b.start b.msgs

/-- Why this device refuses a batch of another, if it does (R412, R498). -/
def State.batchRefusal (s : State) (r : RemoteBatch) : Option Nat :=
  let p := s.part r.pno
  if !p.formed then some 1
  else if !p.inn then some 6
  else if !p.admits (fieldOf (p.word 4) 16 12) (r.src / 1024) then some 3
  else if !p.ownsBank r.core then some 4
  else none

/-- The instruction of a batch of another device: a propagation. -/
def remoteInstr? (r : RemoteBatch) : Option Instr :=
  match decodeWords [r.word] with
  | .ok i => if (propCmd i).isSome then some i else none
  | .error _ => none

/-- The wave of a batch from another device, as this device holds it. -/
def State.remoteWave? (s : State) (r : RemoteBatch) : Option (Nat × Wave) :=
  let here := r.origin / 1024 == Config.device.toNat
  List.find? (fun (w : Nat × Wave) =>
    w.2.num == r.num && w.2.wid == r.wid &&
      (if here then !w.2.foreign && w.2.origin == r.origin % 1024 else w.2.foreign && w.2.origin == r.origin)) s.waves

/-- The flits of a batch of another device arrive on its plane, and its acknowledgement or refusal, of one flit, leaves
there (R395, R503). -/
def State.batchFlits (s : State) (r : RemoteBatch) : State :=
  let port := s.portOn (s.planeOf (r.core % 8)) 0
  (s.takeFlits port (msgFlits r.msgs)).sendFlits port 1

/-- A batch of another device arrives: of a wave from here, with credit that is away, or of a wave from elsewhere, for
which a record is made. Its number is the highest received from its engine, for batches of one engine arrive in order
(R503). -/
def State.acceptRemote (s : State) (r : RemoteBatch) : State :=
  let from_ := r.core * 2 ^ 32 + r.src
  match s.batchRefusal r with
  | some reason =>
    let plane := s.planeOf (r.core % 8)
    (s.batchFlits r).logFabric 3 r.pno plane (s.portOn plane 0) reason (r.src / 1024)
  | none =>
    match s.remoteWave? r with
    | some (k, w) =>
      if !s.canHold r.core w || (!w.foreign && w.away < r.credit) || r.seq ≤ Tab.at w.heard 0 from_ then s
      else
        let s := (s.batchFlits r).updWave k fun w =>
          { w with away := if w.foreign then w.away else w.away - r.credit, heard := Tab.put w.heard from_ r.seq }
        s.enterBatch k r.core r.credit false r.msgs
    | none =>
      match remoteInstr? r with
      | none => s
      | some i =>
        if r.origin / 1024 == Config.device.toNat || !decide (s.waveLoad r.core < 32) then s
        else
          -- an earlier wave of the same origin and id has ended
          let old := fun (w : Nat × Wave) => w.2.foreign && w.2.origin == r.origin && w.2.wid == r.wid && w.2.engs.isEmpty
          let w : Wave :=
            { pno := r.pno, wid := r.wid, foreign := true, origin := r.origin, num := r.num, seq := s.nextId, gang := 0
              instr := i, etypes := r.etypes, vals := [], engs := [], scope := [], started := [], pool := 0, away := 0
              asks := [], lowhop := [], delivered := [], sent := [], heard := [(from_, r.seq)], blocked := [], sel := [], ended := false
              noted := RemoteBack.none }
          let k := s.nextId
          let s := { s.batchFlits r with waves := Tab.put (s.waves.filter fun w => !old w) k w, nextId := k + 1 }
          s.enterBatch k r.core r.credit false r.msgs

/-- The credit of a batch that never arrived goes back to the origin, and what it told of the status word is noted again
(R503); of a foreign wave, with an engine's own credit or by itself. -/
def State.reclaim (s : State) (b : Batch) : State :=
  let core := b.src
  let k := b.wave
  let c := b.credit
  match s.wave? k with
  | none => s
  | some w =>
    let s := (s.note w { fault := 5 }).note w (b.back.elim {} backNote)
    if w.foreign then
      if (Tab.find? w.engs core).isSome then s.updWave k fun w => w.updEng core fun e => { e with credit := e.credit + c }
      else s.creditHome core k c
    else (s.updWave k fun w => { w with away := w.away - c }).poolAdd k c

/-- A batch is refused, at its target or here: it is discarded, logged, and its credit reclaimed (R503). -/
def State.refuseBatch (s : State) (b : Batch) (reason : Nat) : State :=
  let pno := (s.wave? b.wave).elim 31 (·.pno)
  let s := { s with batches := s.batches.filter (fun x => x.id != b.id) }
  (s.logFabric 3 pno b.plane (s.portOn b.plane 0) reason ((b.dst - 1024) / 1024)).reclaim b

/-- The launch that a batch's flits are charged to: that of its wave's gang, when the wave is of this device (R363, R412). -/
def State.batchLaunch (s : State) (b : Batch) : Nat :=
  ((s.wave? b.wave).bind fun w => if w.foreign then none else s.gang? w.gang).elim 0 (·.launch)

/-- Whether the fabric may take a batch from its core's message path: the fence of its plane does not hold it, and no batch of
the core for the same plane stands before it, for one engine's batches arrive in order (R496, R503). -/
def State.batchFree (s : State) (b : Batch) : Bool :=
  !s.linesHeld b.home && (s.batches.takeWhile fun x => x.id != b.id).all fun x =>
    !(x.queued && x.src == b.src && x.home == b.home)

/-- A batch leaves its core's message path on the plane of its target's lines (R412); where no plane is live one with messages
is refused, as every request is (R495), and returned credit waits (log 125). -/
def State.sendFar (s : State) (b : Batch) : State :=
  if !(List.range 8).any s.planeLive then (if b.back.isSome then s else s.refuseBatch b 7)
  else if !s.batchFree b then s
  else
    let plane := s.planeOf b.home
    let n := msgFlits b.msgs
    let s := (s.sendFlits (s.portOn plane 0) n).charge (8 + plane) (s.batchLaunch b) n
    { s with batches := s.batches.map fun x => if x.id = b.id then { x with sent := true, plane := plane, moment := s.tick } else x }

/-- BATCH_ACCEPT (R346, R412): an engine takes a batch that waits for it, of this device or another, or the fabric takes one
that waits in a message path. -/
def execBatchAccept (n : Nat) (remote : Option RemoteBatch) (s : State) : Next :=
  .next (match remote with
    | none =>
      match s.batches.find? fun b => b.id == n && b.queued with
      | some b => s.sendFar b
      | none => s.acceptBatch n
    | some r => s.acceptRemote r)

/-- BATCH_REFUSED (R503): a batch that another device refused comes back. -/
def execBatchRefused (n reason : Nat) (s : State) : Next :=
  .next (match s.batches.find? (fun b => b.id == n && b.sent && 1024 ≤ b.dst) with
    | none => s
    | some b => (s.takeFlits (s.portOn b.plane 0) 1).refuseBatch b reason)

/-- The batches of a wave from one engine to an engine of another device. -/
def Batch.between (b : Batch) (k core dst : Nat) : Bool := b.wave == k && b.src == core && b.dst == dst && 1024 ≤ dst

/-- BATCH_ACKNOWLEDGE (R503): one flit on the reply path of the plane. -/
def execBatchAcknowledge (core w dst last : Nat) (s : State) : Next :=
  .next { s.takeFlits (s.portOn (s.planeOf (dst % 1024 % 8)) 0) 1 with batches := s.batches.filter fun b => !(b.between w core dst && b.sent && !b.gone && b.num ≤ last) }

/-- Some batches are given up, with FAULT 5, and their credit reclaimed. -/
def State.reclaimBatches (s : State) (lost : Batch → Bool) : State :=
  (s.batches.filter lost).foldl (fun s b =>
    let pno := (s.wave? b.wave).elim 31 (·.pno)
    (({ s with batches := s.batches.filter fun x => x.id != b.id }).logFabric 4 pno b.plane (s.portOn b.plane 0) 0
      ((b.dst - 1024) / 1024)).reclaim b) s

/-- BATCH_RECLAIM_REMAP (R496, R503): of the batches that were out on a dead plane when its lines moved, or that a switch has
discarded, those numbered above the last received are reclaimed, and the others count as acknowledged. -/
def execBatchReclaimRemap (core w dst last : Nat) (s : State) : Next :=
  let dead := fun (b : Batch) => b.between w core dst && b.sent && b.gone
  let s := s.reclaimBatches fun b => dead b && last < b.num
  .next { s with batches := s.batches.filter fun b => !(dead b && b.num ≤ last) }

/-- BATCH_RECLAIM_TIMEOUT (R503): the target cannot be reached. -/
def execBatchReclaimTimeout (core w dst : Nat) (s : State) : Next :=
  .next (s.reclaimBatches fun b => b.between w core dst)

/-! ## Node and edge accesses (R330, R348, R350, R488) -/

/-- The accesses of a gang that wait, in issue order: each with its entry. -/
def Gang.locPieces (g : Gang) : List (Entry × Nat × Piece) :=
  (g.stream 16).flatMap fun e => (indexFrom 0 e.todo).map fun np => (e, np.1, np.2)

/-- Whether a gang's earlier accesses and wave starts at the core of an access are done. -/
def State.accessFree (s : State) (key : Nat) (before : List (Entry × Nat × Piece)) (e : Entry) (core : Nat) : Bool :=
  before.all (fun b => b.1.id == e.id || b.2.2.cells.all fun c => locCore b.1.instr c != core) &&
  (s.core (coreOf key)).ndq.all (fun p => !s.sameTeam p.gang key || e.id ≤ p.id ||
    !((waveCmd p.instr (readVals p.vals)).elim [] fun c =>
      (s.part ((s.gang? p.gang).elim 0 s.partOf)).scopeCores (coreOf key) c.scope).contains core) &&
  s.waves.all fun v =>
    v.2.foreign || !s.sameTeam v.2.gang key || e.id ≤ v.2.seq || !v.2.scope.contains core || v.2.started.contains core

/-- One access performs at its node or edge. -/
def State.performLoc (s : State) (core ctx n : Nat) : State :=
  match s.keyOf core ctx with
  | none => s
  | some key =>
    match s.gang? key with
    | none => s
    | some g =>
      let ps := g.locPieces
      match ps[n]? with
      | none => s
      | some (e, j, p) =>
        let cell := p.cells.headD 0
        -- lanes that write one field go in ascending order
        if !s.accessFree key (ps.take n) e (locCore e.instr cell) || (p.wr && (e.todo.take j).any fun q => q.cells == p.cells) then s
        else
          let e' := { e with todo := e.todo.eraseIdx j }
          let e' := if p.wr then e'
            else if s.locPoisoned e.instr cell then { e' with bad := Tab.put e'.bad p.lane (p.haddr, 0) }
            else { e' with vals := Tab.put e'.vals p.lane (s.locRead e.instr cell p.lane) }
          let s := if p.wr then s.locWrite e.instr cell p.lane (Tab.at e.vals [] p.lane) else s
          let s := s.updGang key fun g => g.setStream 16 ((g.stream 16).map fun (x : Entry) => if x.id = e.id then e' else x)
          if e'.todo.isEmpty then
            (s.updGang key fun g => g.setStream 16 ((g.stream 16).filter fun (x : Entry) => x.id != e.id)).finishEntry key e'
          else s

/-- An entry of stream 16 with no access left (no lane was active) is done. -/
def State.settleLocs (s : State) (core ctx : Nat) : State :=
  match s.keyOf core ctx with
  | none => s
  | some key =>
    match ((s.gang? key).elim [] fun g => g.stream 16).find? (fun (e : Entry) => e.todo.isEmpty) with
    | none => s
    | some e => (s.updGang key fun g => g.setStream 16 ((g.stream 16).filter fun (x : Entry) => x.id != e.id)).finishEntry key e

end Sys2Proof.Machine
end

