-- ==== Sys2Proof/Machine/EngineEvents.lean ====
section
/-! DEFINITION. The steps of the engines and stack ports (R273-R278, R286, R287, R299-R303, R317-R319, R332, R378, R387):
registration, start, the performing of an operation's pieces, completion, and the buffers, claims and power of a core. -/

namespace Sys2Proof.Machine

/-! ## Registration (R273, R286, R287, R303, R378, R387) -/

/-- The slots and tiles that a team's pending follow-ons name, of copies issued before an operation. -/
def State.followsBefore (s : State) (launch lead id : Nat) : Names :=
  let copies := (s.teamOps lead).filter fun o => o.1 < id && isXcopym o.2
  let queued := (s.core (coreOf lead)).mxq.filter fun p => p.follow && p.id < id && s.sameTeam p.gang lead
  (copies.map (·.2) ++ queued.map (fun (p : Pre) => p.instr)).foldl (fun n i => n.join (s.names launch i)) ⟨0#32, 0#8⟩

/-- The matrix operation of a team that registers next, follow-ons apart. -/
def State.matrixNext? (s : State) (core lead : Nat) : Option Pre :=
  (s.core core).mxq.find? fun p => !p.follow && s.sameTeam p.gang lead

/-- Whether a matrix operation may register now. -/
def State.matrixReady (s : State) (core lead : Nat) (p : Pre) : Bool :=
  (s.engine core 1).room 1 && (p.follow || !(s.followsBefore p.launch lead p.id).meets (s.names p.launch p.instr))

/-- An operation leaves the matrix queue. -/
def State.dropPre (s : State) (core id : Nat) : State :=
  s.updCore core fun c => { c with mxq := c.mxq.filter fun (p : Pre) => p.id != id || p.follow }

/-- Registering with ranges, which enter the range table. -/
def State.registerRanges (s : State) (core eng pno : Nat) (p : Pre) (r : List (Nat × Nat) × List (Nat × Nat)) : State :=
  let num := (s.engine core eng).issued + 1
  let s := s.register core eng pno p
  if r.1.isEmpty && r.2.isEmpty then s else s.addRange pno ⟨core, eng, num, r.1, r.2⟩

/-- A stack command registers, with the fault it meets (R478) or with its ranges. -/
def State.registerStack (s : State) (core key pno st : Nat) (p : Pre) (e : Entry) : State :=
  let sec := (s.part pno).secure
  let port := s.portFor core sec e
  let eng := portEng port
  let pop := fun (s : State) => s.updGang key fun g => g.popHead st
  if s.hasUndrained key (some st) || !(s.engine core eng).room eng then s
  else
    let num := (s.engine core eng).issued + 1
    let refuse := fun (code arg : Nat) =>
      let s := (s.register core eng pno p).updOp core eng num fun o => { o with fault := code, arg := arg }
      match s.op? core eng num with
      | some o => pop (s.noteOp core eng (opcNum o.instr) o code arg)
      | none => pop s
    match s.stackFault sec port p.instr p.act p.maps p.vals with
    | some (code, arg) => refuse code arg
    | none =>
      let r := stackRanges sec p.instr p.act p.maps p.vals
      let lists := (redLists p.instr p.act p.maps p.vals).flatMap fun x => x.1.ranges x.2.2.1 x.2.2.2
      -- a piece that HMIGR moves holds the command back (R438)
      if s.moving.any (fun m => rangesMeet (r.1 ++ r.2) [(m.1 * 65536, 65536)]) || !s.rangesFree pno lists [] then s
      else
        -- the lists are no registered operation's to write: the rows that they name are known (R387)
        match s.rowFault port p.instr p.act p.maps p.vals with
        | some (code, arg) => refuse code arg
        | none => if s.rangesFree pno r.1 r.2 then pop (s.registerRanges core eng pno p r) else s

/-- The command at the head of a stream registers, when it may. -/
def State.registerHead (s : State) (core key st : Nat) (g : Gang) (e : Entry) : State :=
  let pno := s.partOf g
  let sec := (s.part pno).secure
  let p := Pre.ofEntry e key g.launch st
  let pop := fun (s : State) => s.updGang key fun g => g.popHead st
  match e.instr with
  | .xcopy .. | .xcopym .. =>
    let r := s.copyRanges p sec
    if (s.engine core 0).room 0 && s.rangesFree pno r.1 r.2 then pop (s.registerRanges core 0 pno p r) else s
  | .oload .. | .aread .. | .awrite .. =>
    match s.matrixNext? core key with
    | some q =>
      let r := s.matrixRanges q sec
      if q.id == e.id && s.matrixReady core key q && s.rangesFree pno r.1 r.2 then
        pop ((s.registerRanges core 1 pno q r).dropPre core q.id)
      else s
    | none => s
  | .sxred .. | .sxbulkCopy .. | .sxbulkFill .. | .sxbulkCmp .. => s.registerStack core key pno st p e
  | .mkcollect .. =>
    match (s.core core).ndq.find? fun q => s.sameTeam q.gang key with
    | some q =>
      let r := s.nodeRanges pno q
      if q.id == e.id && s.nodeReady core pno q && s.rangesFree pno [] r then
        let num := (s.engine core 2).issued + 1
        let s := (s.registerNode core pno q).updCore core fun c => { c with ndq := c.ndq.filter fun (p : Pre) => p.id != q.id }
        pop (if r.isEmpty then s else s.addRange pno ⟨core, 2, num, [], r⟩)
      else s
    | none => s
  | _ => s

/-- A follow-on of a team registers. -/
def State.registerFollow (s : State) (core pno : Nat) (p : Pre) : State :=
  if !(s.engine core 1).room 1 then s
  else (s.register core 1 pno p).updCore core fun c => { c with mxq := c.mxq.filter fun (q : Pre) => !(q.id == p.id && q.follow) }

/-- A queued operation without a memory end registers: a follow-on first, then the next of the team's matrix operations. -/
def State.registerMatrix (s : State) (core key pno : Nat) : State :=
  match (s.core core).mxq.find? fun p => p.follow && s.sameTeam p.gang key with
  | some p => s.registerFollow core pno p
  | none =>
    match s.matrixNext? core key with
    | some p => if p.stream.isNone && s.matrixReady core key p then (s.register core 1 pno p).dropPre core p.id else s
    | none => s

/-- The next wave operation of a team registers. -/
def State.registerWave (s : State) (core key pno : Nat) : State :=
  match (s.core core).ndq.find? fun q => s.sameTeam q.gang key with
  | some p =>
    if p.stream.isNone && s.nodeReady core pno p then
      (s.registerNode core pno p).updCore core fun c => { c with ndq := c.ndq.filter fun (q : Pre) => q.id != p.id }
    else s
  | none => s

/-- ENGINE_REGISTRATION (R273): of a stream's head; `st` 17 is the team's matrix queue and 18 its wave queue. -/
def execEngineRegistration (core ctx st : Nat) (s : State) : Next :=
  .next (match s.keyOf core ctx with
    | none => s
    | some key =>
      match s.gang? key with
      | none => s
      | some g =>
        if st = 17 then s.registerMatrix core key (s.partOf g)
        else if st = 18 then s.registerWave core key (s.partOf g)
        else
          match g.stream st with
          | e :: _ => s.registerHead core key st g e
          | [] => s)

/-! ## Starts (R286, R295, R303, R317, R319, R347, R390, R463) -/

/-- A copy operation goes on, and is kept. -/
def State.runCopy (s : State) (core : Nat) (o : Op) : State :=
  let r := State.copyAdvance core 8 s o
  r.1.updOp core 0 o.num fun _ => r.2

/-- A start consumes an event of its gate. -/
def State.takeGate (s : State) (core sink : Nat) : State := s.updCore core fun c => c.gateTake sink

/-- The copy engine starts its next operation. -/
def State.startCopy (s : State) (core : Nat) : State :=
  let e := s.engine core 0
  match e.starts? with
  | none => s
  | some o =>
    if e.ops.any fun (x : Op) => x.phase == .running && x.waits then s
    else
      let s := s.takeGate core 0
      match s.copyFault core o with
      | some (code, arg) => (s.noteOp core 0 (opcNum o.instr) o code arg).updOp core 0 o.num fun o => o.endFault code arg
      | none => s.runCopy core { o with phase := .running }

/-- Whether an operation is an MMA. -/
def isMma : Instr → Bool
  | .mma .. => true
  | _ => false

/-- The major opcode that a matrix fault reports: a follow-on's is XCOPYM's. -/
def Op.faultOpc (o : Op) : Nat := if o.follow then 0xC1 else opcNum o.instr

/-- The fault of a matrix operation at its start; a follow-on of a copy that faulted reports its operand slot. -/
def State.opFault (s : State) (core : Nat) (o : Op) : Option (Nat × Nat) :=
  if o.fault = 11 then some (11, ((s.mmaOf o.launch o.instr).map fun m => m.sa).getD 0) else s.matrixFault core o

/-- A matrix operation starts: what remains of its effect comes at its completion. -/
def State.matrixGo (s : State) (core : Nat) (o : Op) : State :=
  match s.opFault core o with
  | some (code, arg) =>
    (s.noteOp core 1 o.faultOpc o code arg).updOp core 1 o.num fun o => o.endFault code arg
  | none =>
    let (s, r) := s.matrixStart core o
    let ps := s.matrixPieces core o
    s.updOp core 1 o.num fun o => { o with phase := if ps.isEmpty then .ended else .running, todo := ps, result := r }

/-- The charge of an MMA where charging is on: budget mode, a budget, an MMA without a fault. -/
def State.chargeOf? (s : State) (core : Nat) (o : Op) : Option Nat :=
  if s.budgetMode core && (s.core core).budget != 0 && (s.opFault core o).isNone then (s.mmaOf o.launch o.instr).map (s.mmaCharge core)
  else none

/-- The matrix unit starts its next operation, or an MMA waits for a wake or for the budget; as operations start in number
order, none starts while an MMA waits. -/
def State.startMatrix (s : State) (core : Nat) : State :=
  let c := s.core core
  let e := c.engine 1
  match e.starts? with
  | none => s
  | some o =>
    let mine := s.names o.launch o.instr
    if e.ops.any fun (x : Op) => decide (x.num < o.num) && (s.names x.launch x.instr).meets mine then s
    else if !isMma o.instr then (s.takeGate core 1).matrixGo core o
    else if c.waking then s
    else if c.gated != 0#4 then s.updCore core Core.wake
    else
      match s.chargeOf? core o with
      | none => (s.takeGate core 1).matrixGo core o
      | some n =>
        if n ≤ c.left || c.left = c.budget then
          ((s.takeGate core 1).updCore core fun c => { c with left := c.left - n, charges := Tab.put c.charges (s.leadOf o.gang) n }).matrixGo core o
        else if o.waits then s
        else (s.updCore core fun c => { c with waits := min (c.waits + 1) (2 ^ 32 - 1) }).updOp core 1 o.num fun o => { o with waits := true }

/-- A stack port starts its next command: one at a time, and an all-bank command not while the droop guard holds. -/
def State.startStack (s : State) (core port : Nat) : State :=
  let eng := portEng port
  let e := s.engine core eng
  match e.starts? with
  | none => s
  | some o =>
    if e.ops.any (fun (x : Op) => x.phase == .running) || (allBank o.instr && (s.stack port).held) then s
    else
      let s := s.takeGate core eng
      if o.fault != 0 then s.updOp core eng o.num fun o => { o with phase := .ended }
      else s.updOp core eng o.num fun o => stackAdvance { o with phase := .running }

/-- Whether the partition on a core stops for a swap-out (R374, R444): no operation starts there. -/
def State.stops (s : State) (core : Nat) : Bool :=
  s.parts.any fun p => p.2.inn && p.2.stopping && p.2.hasCluster (clusterOf core)

/-- ENGINE_START (R286, R303, R347, R378): of the next operation in number order, through the engine's gate. -/
def execEngineStart (core eng : Nat) (s : State) : Next :=
  .next (if !(s.core core).gateOpen eng || s.stops core then s
    else if eng = 0 then s.startCopy core
    else if eng = 1 then s.startMatrix core
    else if eng = 2 then
      match s.nodeStarts? core with
      | some (o, w) => if s.waveLoad core < 32 then (s.takeGate core 2).startNode core o w else s
      | none => s
    else if eng < 11 then s.startStack core (eng - 3)
    else s)

/-! ## Pieces of an operation (R273, R388, R489) -/

/-- The lowest fault code stands. -/
def Op.meet (o : Op) (code arg : Nat) : Op :=
  if o.fault = 0 || code < o.fault then { o with fault := code, arg := arg } else o

/-- The quarter that an operation's piece is performed from: a stack command's reads, and what goes beneath the windows,
from the stack's; an entry of MKCOLLECT from its node's; the rest from the core's. -/
def Op.quarter (o : Op) (core eng : Nat) (p : Piece) : Nat :=
  match o.instr with
  | .mkcollect .. => quarterOf (p.lane / 8192)
  | _ => if 3 ≤ eng && (!p.wr || beneath o.instr) then (eng - 3) / 2 else quarterOf core

/-- What a read of an operation returns: a stack command reads beneath the window paths. -/
def State.opRead (s : State) (q eng : Nat) (o : Op) (p : Piece) : List Byte × List Byte :=
  if 3 ≤ eng then (p.cells.map (s.cellBeneath q p.cls), p.tagCells.map (s.cellBeneath q p.tagCls)) else s.readPiece o.pno q p

/-- The ranges that an operation writes, with the tags that go along. -/
def State.opDst (s : State) (core eng : Nat) (o : Op) : List (Nat × Nat) :=
  let sec := s.opSecure o
  let tags := fun (a : Word64) (n : Nat) => mapTagRanges o.maps a n
  match o.instr, s.wave? o.seq with
  | .mkcollect opt .., some w =>
    let (a, cap, _) := collectDest sec o.maps w.vals (entrySize opt)
    let n := min cap w.sel.length * entrySize opt
    mapRanges o.maps sec true a n ++ tags a n
  | .xcopy .., _ =>
    ((s.copyOf o.launch o.ctl o.instr).filter fun c => c.dk == .addr).elim [] fun c =>
      (maskLanes o.act).flatMap fun l =>
        let a := quadWord (Tab.at o.vals [] l) 2
        mapRanges o.maps sec true a c.dstBytes ++ tags a c.dstBytes
  | .aread _ _ fmt _ nrows _, _ =>
    (List.range (nrows.toNat + 1)).flatMap fun r =>
      let a := rowAddr (Tab.at o.vals [] 0) r
      let n := rowBytes (slotOfmt (s.slotOf o.launch fmt.toNat))
      mapRanges o.maps sec true a n ++ tags a n
  | _, _ => ((s.rangesOf o.pno).find? fun r => r.core == core && r.eng == eng && r.num == o.num).elim [] (·.dst)

/-- The addresses of a write piece's poison units, of its bytes and of its tags, that the operation writes (R486). -/
def State.opCovered (s : State) (core eng : Nat) (o : Op) (p : Piece) : List Nat :=
  if s.poison.isEmpty then []
  else
    let dst := s.opDst core eng o
    let unit := fun (cells : List Nat) => match cells with
      | [] => []
      | a :: _ => (List.range (poisonSize a)).map (a / poisonSize a * poisonSize a + ·)
    (unit p.cells ++ unit p.tagCells).filter fun b =>
      p.cells.contains b || p.tagCells.contains b ||
        -- of a unit that it has marked, what the lane command under way writes
        (if (poisonUnit b).any o.spoiled.contains then s.opDst core eng { o with act := maskOf fun l => o.lanes.head? == some l }
         else dst).any fun r => r.1 ≤ b && b < r.1 + r.2

/-- A stack command marks the places of a row or range that it leaves poisoned. -/
def Op.mark (o : Op) (lane pos n : Nat) : Op :=
  { o with got := (List.range n).foldl (fun t i => Tab.put t (datumKey (markLane + lane) (pos + i)) 1#8) o.got }

/-- Whether a write piece's poison unit holds a marked place. -/
def Op.marked (o : Op) (p : Piece) : Bool :=
  let a := p.cells.headD 0
  let n := poisonSize a
  let first := p.pos - a % n
  (List.range (p.pos + n - a % n - first)).any fun i => (Tab.find? o.got (datumKey (markLane + p.lane) (first + i))).isSome

/-- What an operation that met poison in a read does: it records it, keeps where it came from, or ends its launch (R489). -/
def State.opPoison (s : State) (eng : Nat) (o : Op) (p : Piece) (err : SoftErr) : State × Op :=
  let lost := linkFailed err p
  if eng = 0 then
    let o := o.meet (if lost then 9 else 8) p.lane
    (s, (s.copyOf o.launch o.ctl o.instr).elim o fun c =>
      c.noteBad o p (s.poisoned p.cells || readFailed err p || s.tsoDown p) (s.poisoned p.tagCells))
  else if eng = 1 then (s.haltLaunch o.launch 0x7D, o)
  else if 3 ≤ eng then
    let lane := match o.instr with
      | .sxred .. => if p.lane = rowLane then o.lanes.headD 0 else p.lane / 32
      | _ => 0
    let o := match o.instr with
      | .sxbulkCopy .. => o.mark 0 p.pos p.cells.length
      | _ => o
    (s, { o.meet (if lost then 12 else 11) lane with bad := true })
  else (s, o)

/-- The addresses of a write piece that it leaves poisoned (R489). -/
def State.carried (s : State) (o : Op) (p : Piece) : List Nat :=
  match o.instr with
  | .xcopy .. | .xcopym .. => (s.copyOf o.launch o.ctl o.instr).elim [] fun c => c.poisons o p
  | .sxred .. => if o.bad || o.marked p then p.cells else []
  | _ => if o.marked p then p.cells else []

/-- A write piece whose transfer failed: its code is noted, and its sector stays poisoned whatever the rest of the
operation writes there (R480). -/
def State.opLost (s : State) (eng : Nat) (o : Op) (p : Piece) : Op :=
  if eng = 0 then
    (s.copyOf o.launch o.ctl o.instr).elim o fun c => c.noteBad (o.meet 9 p.lane) p true false
  else if 3 ≤ eng then
    let lane := match o.instr with
      | .sxred .. => o.lanes.headD 0
      | _ => 0
    (o.meet 12 lane).mark p.lane p.pos p.cells.length
  else o

/-- The cells of a write piece beneath the window paths (R388). -/
def State.writeBeneath (s : State) (who : Writer) (q : Nat) (p : Piece) (all : List Nat) : State :=
  (s.clearWhole all p.cells).atomicWrite who q p.cls (List.zip p.cells p.data)

/-- One piece of an operation performs. -/
def State.opPiece (s : State) (core eng : Nat) (o : Op) (n : Nat) (p : Piece) (err : SoftErr) : State × Op :=
  let q := o.quarter core eng p
  let o := { o with todo := o.todo.eraseIdx n }
  let lost := linkFailed err p
  if p.wr then
    if o.dropped && 3 ≤ eng then (s, o)
    else
      let s := s.chargePiece o.launch p o.todo
      match s.lostOn? (err == .link) o.seq p with
      | some link => (s.logHost o.pno link, o)
      | none =>
        let all := s.opCovered core eng o p
        let s := if beneath o.instr then s.writeBeneath (o.writer core eng) q p all else s.writePiece (o.writer core eng) q p all
        let s := if lost then s.softError err p.cells else s
        let o := if lost then s.opLost eng o p else o
        let marks := s.carried o p ++ if lost then p.cells else []
        (s.poisonCells marks, { o with spoiled := o.spoiled ++ marks.flatMap poisonUnit })
  else
    let s := (s.chargePiece o.launch p o.todo).readError err p
    let (bs, ts) := s.opRead q eng o p
    let o := { o with got := keepBytes o.got p.lane p.pos (s.readAs err p bs), gotTag := keepBytes o.gotTag p.lane p.tagPos ts }
    if s.poisoned (p.cells ++ p.tagCells) || readFailed err p || s.tsoDown p then s.opPoison eng o p err else (s, o)

/-- An operation with no piece left goes on. -/
def State.opGoOn (s : State) (core eng : Nat) (o : Op) : State :=
  if !o.todo.isEmpty then s.updOp core eng o.num fun _ => o
  else if eng = 0 then s.runCopy core o
  else if 3 ≤ eng then
    let o' := stackAdvance o
    let s := s.updOp core eng o.num fun _ => o'
    -- a fault found among the indices is noted as it is found
    if o'.phase == .ended && 0 < o'.fault && o'.fault ≤ 9 then s.noteOp core eng (opcNum o.instr) o' o'.fault o'.arg else s
  else s.updOp core eng o.num fun _ => { o with phase := .ended }

/-- Piece n of a running operation performs; an operation that has none goes on. -/
def State.performOp (s : State) (core eng num n : Nat) (err : SoftErr) : State :=
  match s.op? core eng num with
  | none => s
  | some o =>
    if o.phase != .running || o.waits then s
    else
      match o.todo[n]? with
      | some p =>
        if s.atomHolds p.cells then s else
        let (s, o) := s.opPiece core eng o n p err
        s.opGoOn core eng o
      | none => if o.todo.isEmpty && eng != 2 then s.opGoOn core eng o else s

/-! ## Completion (R275, R278, R287, R341, R382) -/

/-- A copy completes: a copy of XCOPYM hands its token on to the follow-on, which joins the matrix queue behind earlier
ones of its gang that have not registered. -/
def State.completeCopy (s : State) (core : Nat) (o : Op) : State :=
  let s := if 8 ≤ o.fault then s.noteOp core 0 (opcNum o.instr) o o.fault o.arg else s
  match followOn o with
  | none => s.completeOp core 0 o
  | some p =>
    let s := s.completeOp core 0 { o with tok := 0 }
    (s.updCore core fun c => { c with mxq := c.mxq ++ [p] }).registerMatrix core o.gang o.pno

/-- A wave operation completes: its wave id is free again. -/
def State.completeWave (s : State) (core : Nat) (o : Op) : State :=
  let s := match s.wave? o.seq with
    | some w =>
      let s := s.updStatus w.pno w.wid fun x => setWaveState x 0
      { s.updGang o.gang (fun g => { g with waveOps := Tab.upd g.waveOps [] w.wid (· ++ [o.num]) }) with
        waves := Tab.del s.waves o.seq }
    | none => s
  s.completeOp core 2 o

/-- A stack command completes: indices out of range are counted (R382). -/
def State.completeStack (s : State) (core eng : Nat) (o : Op) : State :=
  let s := if 10 ≤ o.fault then s.noteOp core eng (opcNum o.instr) o o.fault o.arg else s
  let s := if o.oor = 0 then s else s.updGang o.gang fun g => if g.alive then g.countIdx o.oor else g
  s.completeOp core eng o

/-- ENGINE_COMPLETION (R275, R278): the lowest operation of an engine, once it has ended and drained. -/
def execEngineCompletion (core eng : Nat) (s : State) : Next :=
  .next (match (s.engine core eng).next? with
    | none => s
    | some o =>
      if o.phase != .ended || !s.opDrained core eng o.num then s
      else if eng = 0 then s.completeCopy core o
      else if eng = 1 then (s.matrixEnd core o).completeOp core 1 o
      else if eng = 2 then s.completeWave core o
      else s.completeStack core eng o)

/-! ## Buffers (R252, R253, R270, R281) -/

/-- A served request: a gang's result lands, or the copy engine goes on; the slot is acquired. -/
def State.serve (s : State) (core cb slot : Nat) (b : CBuf) (r : CbReq) (give : Op → Op) : State :=
  match r.gang with
  | some key =>
    let s := s.acquire key (.slot core cb slot)
    let d := ((s.gang? key).bind fun g => g.pend.find? fun (p : Pend) => p.id == r.pend).elim 0 fun p => p.regs.headD 0
    s.land key r.pend (outWord d (b.slotAddr slot))
  | none =>
    let s := s.acquireIn (quarterOf core) (.slot core cb slot)
    match s.op? core 0 r.pend with
    | some o => s.runCopy core { give o with waits := false }
    | none => s

/-- CB_RES_SERVED (R252): the oldest waiting RES reserves the next free slot. -/
def execCbResServed (core cb : Nat) (s : State) : Next :=
  .next (match Tab.find? (s.core core).cbs cb with
    | none => s
    | some b =>
      match b.waitRes with
      | [] => s
      | r :: rest =>
        if b.free = 0 then s
        else
          let n := b.rp
          let s := s.updCb core cb fun b =>
            { b with free := b.free - 1, rp := (n + 1) % b.slots, reserved := b.reserved ++ [n], waitRes := rest }
          s.serve core cb n b r fun o => { o with slotD := some n })

/-- CB_TAKE_SERVED (R252): the oldest waiting TAKE takes the next filled slot. -/
def execCbTakeServed (core cb : Nat) (s : State) : Next :=
  .next (match Tab.find? (s.core core).cbs cb with
    | none => s
    | some b =>
      match b.waitTake with
      | [] => s
      | r :: rest =>
        if b.filled = 0 then s
        else
          let n := b.tp
          let s := s.updCb core cb fun b =>
            { b with filled := b.filled - 1, tp := (n + 1) % b.slots, taken := b.taken ++ [n], waitTake := rest }
          s.serve core cb n b r fun o => { o with slotS := some n })

/-! ## Claims (R299, R301) -/

/-- Whether no lane of a team lives. -/
def State.teamDead (s : State) (key : Nat) : Bool := (s.team key).all fun kg => !kg.2.alive

/-- Whether a team has retired, and what its retirement gives up is given up already (R301). -/
def State.gaveUp (s : State) (c : Core) (key : Nat) : Bool :=
  s.teamDead key && !c.orels.any fun j => s.sameTeam j.gang key && j.slots == BitVec.allOnes 32 && j.tiles == BitVec.allOnes 8

/-- CLAIM_GRANT (R299): a waiting claim that nothing held and no claim ahead of it meets; a team that has retired gives it up
at once. -/
def execClaimGrant (core n : Nat) (s : State) : Next :=
  let c := s.core core
  .next (match c.claims[n]? with
    | none => s
    | some k =>
      let lead := s.leadOf k.gang
      if (c.heldByOthers lead).meets k.names || (c.claims.take n).any (fun j => j.names.meets k.names) then s
      else
        let late := s.gaveUp c k.gang
        (s.updCore core fun c =>
          let c := c.hold lead k.names
          { (if late then c.yieldUp lead k.names else c) with claims := c.claims.eraseIdx n }).dropTok k.gang k.tok)

/-- CLAIM_RELEASE (R301): once the operations it waits for have completed. -/
def execClaimRelease (core n : Nat) (s : State) : Next :=
  let c := s.core core
  .next (match c.orels[n]? with
    | none => s
    | some k =>
      let lead := s.leadOf k.gang
      let open_ := (s.teamOps lead).map (·.1)
      if k.after.any open_.contains then s
      else
        (s.updCore core fun c => { c.yieldUp lead k.names with orels := c.orels.eraseIdx n }).dropTok k.gang k.tok)

/-! ## Power of the matrix unit (R317, R319) -/

/-- SUBARRAY_GATE (R317): never in budget mode, nor with IDLE 0. -/
def execSubarrayGate (core n : Nat) (s : State) : Next :=
  let c := s.core core
  .next (if 4 ≤ n || s.budgetMode core || c.idle == 0#16 || c.waking then s
    else s.updCore core fun c => { c with gated := c.gated ||| BitVec.ofNat 4 (2 ^ n) })

/-- SUBARRAY_WAKE (R317, R318): the wake under way ends; WAKES counts it and the GATED bits clear then (DESIGN CHOICE, log 149). -/
def execSubarrayWake (core : Nat) (s : State) : Next :=
  .next (if !(s.core core).waking then s
    else s.updCore core fun c => { c with gated := 0#4, waking := false, wakes := min (c.wakes + 1) (2 ^ 24 - 1) })

/-- BUDGET_WINDOW (R319). -/
def execBudgetWindow (core : Nat) (s : State) : Next :=
  .next (if s.budgetMode core then s.updCore core fun c => { c with left := c.budget } else s)

end Sys2Proof.Machine
end

