-- ==== Sys2Proof/Machine/FabricOps.lean ====
section
/-! DEFINITION. The fabric's instructions (R397-R410, R501): at issue each checks its lanes and enters stream 15; the
fabric's steps do the rest. -/

namespace Sys2Proof.Machine

/-! ## Designators (R394, R397-R399) -/

/-- Fields of a peer designator. -/
def desigDevice (d : Word64) : Nat := fieldOf d 44 20
def desigPart (d : Word64) : Nat := fieldOf d 39 5
def desigExport (d : Word64) : Nat := fieldOf d 27 12
/-- The offset that a designator and a lane offset address. -/
def desigOffset (d : Word64) (u : Nat) : Nat := (fieldOf d 0 27 * 8192 + u) % 2 ^ 40

/-- Fields of an export entry. -/
def exportAcl (e : Word64) : Nat := fieldOf e 48 12
def exportHandle (e : Word64) : Nat := fieldOf e 24 24
def exportCore (e : Word64) : Nat := fieldOf e 14 10

/-- Whether a handle number stands for another store on each core (R223, R397). -/
def coreRelative (h : Nat) : Bool := (0xFFFF00 ≤ h && h ≤ 0xFFFF02) || (0xFFFE00 ≤ h && h < 0xFFFE10)

/-! ## Entries of stream 15 -/

/-- Where a fabric entry keeps the lane offsets among what it read at issue. -/
def keyOffset (lane : Nat) : Nat := 64 + lane

/-- The size that FLD and FST read and write a lane by (R401). -/
def fszSize : FldSz → Size
  | .w8 => .w8
  | .w16 => .w16
  | .w32 => .w32
  | .w64 => .w64
  | .w128 => .w128
  | .s8 => .s8
  | .s16 => .s16
  | .f32 => .f32
  | .f64 => .f64
  | .bf16 => .bf16

/-- The size of FAT. -/
def fatSize : FatSz → Size
  | .w32 => .w32
  | .w64 => .w64

/-- The lane offset (R399). -/
def Seat.offset (x : Seat) (vo : VNum) (l : Nat) : Img := (x.g.reg vo.toNat).lane l

/-- A fabric entry: designators, lane offsets and data of the active lanes. -/
def State.fabEntry (s : State) (i : Instr) (x : Seat) (vp vo : VNum) (data : Nat → List Img) : Entry :=
  let lanes := maskLanes x.act
  { s.newEntry i x with
    addrs := lanes.map fun l => (l, x.g.pairAt vp.toNat l)
    vals := (lanes.map fun l => (l, data l)) ++ lanes.map fun l => (keyOffset l, [x.offset vo l]) }

/-- The lanes whose offset is no multiple of a size take the fabric access trap (R501). -/
def alignFlaw (x : Seat) (vp vo : VNum) (n : Nat) : Option Flaw :=
  let bad := x.act &&& maskOf fun l => (x.offset vo l).val.toNat % n != 0
  (lowLane? bad).map fun l => flaw 0x12 0x40 bad (x.g.pairAt vp.toNat l) ((x.offset vo l).val.setWidth 64)

/-- FLD (R402). -/
def execFld (sz : FldSz) (d vp vo : VNum) (look : BitVec 4) (tok : BitVec 3) (mk : MNum) (s : State) : Next :=
  let i : Instr := .fld sz d vp vo look tok mk
  seatWord i (fun x t =>
    .ok (t.putLoad x 15 look.toNat tok.toNat (resultRegs d (sizeLen (fszSize sz))) (t.fabEntry i x vp vo fun _ => [])) {}) s

/-- FST (R402). -/
def execFst (sz : FldSz) (rnd : Rnd) (vs vp vo : VNum) (tok : BitVec 3) (mk : MNum) (s : State) : Next :=
  let i : Instr := .fst sz rnd vs vp vo tok mk
  seatWord i (fun x t =>
    .ok (t.putStore x 15 tok.toNat
      (t.fabEntry i x vp vo fun l => x.g.imgs vs.toNat (sizeLen (fszSize sz)) l)) {}) s

/-- FST.RADD.F32 (R403). -/
def execFstRadd (vs vp vo : VNum) (tok : BitVec 3) (mk : MNum) (s : State) : Next :=
  let i : Instr := .fstRadd vs vp vo tok mk
  seatWord i (fun x t =>
    match alignFlaw x vp vo 4 with
    | some f => .trap f
    | none => .ok (t.putStore x 15 tok.toNat (t.fabEntry i x vp vo fun l => x.g.imgs vs.toNat 1 l)) {}) s

/-- FAT (R404). -/
def execFat (op : AtomOp) (sz : FatSz) (d vp vo vc : VNum) (look : BitVec 4) (tok : BitVec 3) (mk : MNum) (s : State) :
    Next :=
  let i : Instr := .fat op sz d vp vo vc look tok mk
  let n := sizeBytes (fatSize sz)
  seatWord i (fun x t =>
    match alignFlaw x vp vo n with
    | some f => .trap f
    | none =>
      .ok (t.putLoad x 15 look.toNat tok.toNat (resultRegs d (sizeLen (fatSize sz)))
        (t.fabEntry i x vp vo fun l => x.g.imgs vc.toNat (atomLen op (fatSize sz)) l)) {}) s

/-! ## Multicast (R407, R408, R501) -/

/-- FMCST: the quad's fields, the source and the acknowledgement record are checked, the fabric's own faults first. -/
def execFmcst (q : BitVec 6) (rhnd : HNum) (tok : BitVec 3) (s : State) : Next :=
  let i : Instr := .fmcst q rhnd tok
  onceWord i (fun x t =>
    let quad := x.lowQuad q
    let src := quadWord quad 0
    let u := quadNat quad 3
    let ar := x.g.hreg rhnd.toNat
    if 4096 ≤ quadNat quad 2 || offOf src % 256 != 0 || u % 256 != 0 || offOf ar % 8 != 0 then
      .trap (flaw 0x12 0x41 x.act src (BitVec.ofNat 64 u))
    else
      checked x t [⟨x.low0, src, 256, false, true, 1, false⟩, ⟨x.low0, ar, 72, true, false, 1, false⟩] fun t =>
        t.putStore x 15 tok.toNat
          { t.newEntry i x with
            vals := [(0, quad), (keyDest, wordImgs ar)]
            maps := t.mapsFor (t.partOf x.g) (coreOf x.key) [src, ar]
            todo := t.readPieces x.key x.low0 src 256 false ++ t.writePieces x.key x.low0 ar (List.replicate 72 0#8) .other }) s

/-! ## Waiting (R409) -/

/-- Whether an instruction is a fabric operation. -/
def isFabric : Instr → Bool
  | .fld .. | .fst .. | .fstRadd .. | .fat .. | .fmcst .. | .fpeerMcdef .. => true
  | _ => false

/-- Whether a gang has a fabric operation, issued before an identity, that has not completed. -/
def State.fabOpen (s : State) (key before : Nat) : Bool :=
  ((s.gang? key).elim false fun g => (g.stream 15).any fun e => e.id < before && isFabric e.instr) ||
    s.fab.any fun o => o.gang == key && o.entry.id < before

/-- The number that names the record of a multicast as a synchronisation object (R411). -/
def fabEng : Nat := 15

/-- A gang observes the multicasts it has seen complete: the writes of their records. -/
def State.observeFabric (s : State) (key : Nat) : State :=
  (s.bufs.filter fun b => match b.obj with
    | .op c e n => c == coreOf key && e == fabEng &&
        s.log.any fun w => w.gang == key && w.op == some (c, e, n)
    | _ => false).foldl (fun s b => s.acquire key b.obj) s

/-- FWAIT (R409). -/
def execFwait (s : State) : Next :=
  seatWord .fwait (fun x t =>
    if t.fabOpen x.key s.issuedAt then .wait fun s => s.holdWord true false else .ok (t.observeFabric x.key) {}) s

/-! ## Exports and ports (R397, R410) -/

/-- Changing an export entry of the unit's partition. -/
def exportWord (i : Instr) (e : Nat) (f : Seat → Word64 → Word64) (s : State) : Next :=
  onceWord i (fun x t =>
    .ok (t.updPart (t.partOf x.g) fun p => { p with exports := Tab.upd p.exports 0#64 e (f x) }) {}) s

/-- The entry that FPEER.EXPORT writes. -/
def exportEntry (v : Word64) (core : Nat) : Word64 :=
  BitVec.ofNat 64 (2 ^ 63 + fieldOf v 24 39 * 2 ^ 24 + (if coreRelative (exportHandle v) then core * 2 ^ 14 else 0))

/-- FPEER.EXPORT. -/
def execFpeerExport (e : BitVec 12) (va : VNum) (s : State) : Next :=
  exportWord (.fpeerExport e va) e.toNat (fun x _ => exportEntry (x.g.pairAt va.toNat x.low0) (coreOf x.key)) s

/-- FPEER.REVOKE. -/
def execFpeerRevoke (e : BitVec 12) (s : State) : Next :=
  exportWord (.fpeerRevoke e) e.toNat (fun _ w => w &&& ~~~(BitVec.ofNat 64 (2 ^ 63))) s

/-- FPEER.STAT: every lane of M0 receives the entry. -/
def execFpeerStat (vd : VNum) (e : BitVec 12) (s : State) : Next :=
  pureWord (.fpeerStat vd e) (fun x t => outWord vd.toNat (Tab.at (t.part (t.partOf x.g)).exports 0#64 e.toNat)) s

/-- FPEER.MCDEF: it enters stream 15 as a load. -/
def execFpeerMcdef (g : BitVec 12) (va : VNum) (s : State) : Next :=
  let i : Instr := .fpeerMcdef g va
  onceWord i (fun x t =>
    let a := x.g.pairAt va.toNat x.low0
    .ok (t.putStore x 15 0
      { t.newEntry i x with addrs := [(0, a)], maps := t.mapsFor (t.partOf x.g) (coreOf x.key) [a] }) {}) s

/-- The status word of a port. -/
def State.portWord (s : State) (p : Nat) : Word64 :=
  let x := s.port p
  BitVec.ofNat 64 (x.lanes.toNat * 2 ^ 48 + popNat 16 x.lanes.toNat * 2 ^ 43 + p / 2 % 8 * 2 ^ 40 + (if x.up then 2 ^ 39 else 0))

/-- FPEER.PORT: every lane of M0 receives the status. -/
def execFpeerPort (vd : VNum) (p : BitVec 4) (s : State) : Next :=
  pureWord (.fpeerPort vd p) (fun _ t => outWord vd.toNat (t.portWord p.toNat)) s

end Sys2Proof.Machine
end

