-- ==== Sys2Proof/Machine/FabricEvents.lean ====
section
/-! DEFINITION. The steps of the fabric and the host links (R392-R417, R492-R506): sending, serving a peer, replies,
multicast, lanes, ports and planes that fail, and the host links. -/

namespace Sys2Proof.Machine

/-! ## Work queues as peers and the host see them (R353, R354, R414, R416) -/

/-- The partition that owns a queue. -/
def Queue.part (q : Queue) : Nat := fieldOf q.w1 0 5
/-- The access-control entry for peer posts. -/
def Queue.acl (q : Queue) : Nat := fieldOf q.w1 28 12
/-- Descriptor words 2 and 3. -/
def Queue.word2 (q : Queue) : Word64 := q.tail ++ q.head
def Queue.word3 (q : Queue) : Word64 := q.comp ++ q.lstat ++ (0#8 : BitVec 8)

/-- A doorbell adds 1 to TAIL. -/
def State.ring (s : State) (q : Nat) : State := s.updQueue q fun x => { x with tail := x.tail + 1#32 }

/-- What a doorbell block returns at an offset, for a read of a size. -/
def Queue.portRead (q : Queue) (k n : Nat) : List Byte :=
  if k = 0 && n = 4 then leBytes 4 q.tail.toNat
  else if k = 8 && n = 8 then leBytes 8 q.word2.toNat
  else if k = 16 && n = 8 then leBytes 8 q.word3.toNat
  else List.replicate n 0#8

/-! ## Serving a peer (R397, R399, R411, R416, R498) -/

/-- Bytes that a request covers. -/
def reqBytes : PeerReq → Nat
  | .read n => n
  | .write bs _ _ => bs.length
  | .atom _ w64 _ _ => if w64 then 8 else 4
  | .radd .. => 4
  | .line bs => bs.length

/-- Whether a request reads, writes, and the bit of the export entry that admits it. -/
def reqReads : PeerReq → Bool
  | .read _ | .atom .. | .radd .. => true
  | _ => false
def reqWrites : PeerReq → Bool
  | .read _ => false
  | _ => true
def reqGrant : PeerReq → Nat
  | .read _ => 62
  | .write .. | .line _ => 61
  | _ => 60
/-- The alignment that an atomic asks for. -/
def reqAlign : PeerReq → Nat
  | .atom _ w64 _ _ => if w64 then 8 else 4
  | .radd .. => 4
  | _ => 1

/-- A single-image extent (R225, R397). -/
def isAtomicExtent (attr : Word64) : Bool :=
  (attrSpace attr = 0 && attrProp attr = 0) || (2 ≤ attrSpace attr && attrSpace attr ≤ 4)

/-- The handle that an export names. -/
def Part.exported (p : Part) (e : Word64) : Option Handle := p.handle? (exportCore e) (exportHandle e)

/-- The pieces of a request at its extent. -/
def State.reqPieces (s : State) (pno : Nat) (e : Word64) (h : Handle) (o : Nat) (req : PeerReq) : List Piece :=
  let t := s.tagPlane pno (exportCore e) h
  match req with
  | .read n => piecesOf h none (exportHandle e) 0 false o n [] .other
  | .write bs f32 f64 => piecesOf h t (exportHandle e) 0 true o bs.length bs (if f32 then .f32 else if f64 then .f64 else .other)
  | .line bs => piecesOf h t (exportHandle e) 0 true o bs.length bs .other
  | r => piecesOf h t (exportHandle e) 0 true o (reqBytes r) (List.replicate (reqBytes r) 0#8) .other

/-- Why this device refuses a peer's request (R498). -/
def State.peerRefusal (s : State) (src pno exp o : Nat) (req : PeerReq) : Option Nat :=
  let p := s.part pno
  let e := Tab.at p.exports 0#64 exp
  let sec := p.secure
  if 20 ≤ pno || !p.formed then some 1
  else if !p.inn then some 6
  else if !e.getLsbD 63 then some 1
  else if !e.getLsbD (reqGrant req) then some 2
  else if !p.admits (exportAcl e) src then some 3
  else
    match p.exported e with
    | none => some 4
    | some h =>
      match accessFault (some h) sec (reqWrites req) (reqReads req) o (reqBytes req) with
      | some d => some (if d.1 = 4 && isAtomicExtent h.attr then 5 else 4)
      | none =>
        let ps := s.reqPieces pno e h o req
        if !isAtomicExtent h.attr then some 4
        else if ps.any (fun x => (s.pieceConflict pno x).isSome) then some 8
        else if reqReads req && ps.any (fun x => s.poisoned x.cells) then some 9
        else if o % reqAlign req != 0 then some 11
        else none

/-- The writer that a peer is here. -/
def peerWriter (pno : Nat) : Writer := ⟨0, 0, 0, none, pno, .fin 0⟩

/-- A peer's write goes to the single image at once, value with tag; `all` is every address that the request covers. -/
def State.imageWrite (s : State) (pno : Nat) (all : List Nat) (p : Piece) : State :=
  ((s.clearWhole all p.cells).clearWhole all p.tagCells).atomicPut (peerWriter pno) 0 p p.data p.tags

/-- RNDCTL with a mode and a saturation. -/
def rndWord (mode : Rnd) (sat : Bool) : Word64 :=
  let m := match mode with
    | .rna => 1
    | .rz => 2
    | .ru => 3
    | .rd => 4
    | _ => 0
  BitVec.ofNat 64 (m * 32 + (if sat then 16 else 0))

/-- An atomic request as the local instruction that does the same: its operands and its entry's RNDCTL. -/
def reqAtom (req : PeerReq) : Instr × List Img × Word64 :=
  match req with
  | .atom op true v w => (.atom op .w64 0#8 ⟨0#4, none, 0#12⟩ 0#4 0#3 0#3, pairImgs (intPair v) ++ pairImgs (intPair w), 0#64)
  | .atom op false v w =>
    (.atom op .w32 0#8 ⟨0#4, none, 0#12⟩ 0#4 0#3 0#3, [intImg (v.setWidth 32), intImg (w.setWidth 32)], 0#64)
  | .radd val tag mode sat => (.atom .add .f32 0#8 ⟨0#4, none, 0#12⟩ 0#4 0#3 0#3, [⟨val, tag⟩], rndWord mode sat)
  | _ => (.fwait, [], 0#64)

/-- An entry that carries only operands. -/
def bareEntry (i : Instr) (xs : List Img) (ctl : Word64) : Entry where
  id := 0
  instr := i
  act := 1#32
  vals := [(0, xs)]
  addrs := []
  maps := []
  ctl := ctl
  tok := 0
  pend := 0
  todo := []
  wcells := []
  got := []
  gotTag := []
  bad := []
  checked := true
  sent := true
  gate := []
  wordAt := 0#64
  word := 0#64
  slot := 0
  born := 0

/-- A peer's atomic performs at the home service gang (R244, R266). -/
def State.peerAtomic (s : State) (pno : Nat) (p : Piece) (req : PeerReq) : State × List Byte :=
  let (i, xs, ctl) := reqAtom req
  let fp := (atomSize i).isFp
  let old := p.cells.map (s.newestByte 0 p.cls)
  let oldTags := if fp then p.tagCells.map (s.newestByte 0 p.tagCls) else []
  let (new, newTags) := atomResult i (bareEntry i xs ctl) 0 old oldTags
  (s.imageWrite pno [] { p with data := new, tags := atomTags (atomSize i) newTags p }, old)

/-- A request at a partition's queue port (R416). -/
def State.portServe (s : State) (src pno o : Nat) (req : PeerReq) : State × PeerAns :=
  let n := o / 64
  let q := s.queue n
  if 65536 ≤ n || q.part != pno || !(s.part pno).admits q.acl src then (s, .neg 12)
  else
    match req with
    | .read k => (s, .pos (q.portRead (o % 64) k))
    | .write bs _ _ => (if o % 64 = 0 && bs.length = 4 then s.ring n else s, .pos [])
    | .line _ => (s, .pos [])
    | _ => (s, .neg 2)

/-- The line of an offset: its plane, and which port of the plane (R394). -/
def linePlane (o : Nat) : Nat := o / 256 % 8
def lineSide (o : Nat) : Nat := o / 256 / 8 % 2

/-- The port that the lines of an offset travel on now. -/
def State.portOfLine (s : State) (o : Nat) : Nat := s.portOn (s.planeOf (linePlane o)) (lineSide o)

/-- A request is refused here: it is logged (R506). -/
def State.refusePeer (s : State) (src pno o n : Nat) : State :=
  s.logFabric 1 (if (s.part pno).formed then pno else 31) (s.planeOf (linePlane o)) (s.portOfLine o) n src

/-- A request of device `src` arrives here (R399, R499): it is refused and logged, or answered by the queue port, or admitted,
to perform even when its export is revoked after this. -/
def State.peerArrive (s : State) (own : Option (Nat × Nat)) (src : Nat) (desig : Word64) (o : Nat) (req : PeerReq) :
    State × Option PeerAns :=
  let pno := desigPart desig
  let p := s.part pno
  let refuse := fun (n : Nat) => (s.refusePeer src pno o n, some (PeerAns.neg n))
  if desigExport desig = 4095 then
    if 20 ≤ pno || !p.formed then refuse 1
    else if !p.inn then refuse 6
    else
      match s.portServe src pno o req with
      | (_, .neg n) => refuse n
      | (t, a) => (t, some a)
  else
    match s.peerRefusal src pno (desigExport desig) o req with
    | some n => refuse n
    | none =>
      let e := Tab.at p.exports 0#64 (desigExport desig)
      match p.exported e with
      | none => refuse 4
      | some h =>
        let r : Inbound := ⟨s.nextId, own, src, desig, o, req, pno, s.reqPieces pno e h o req, []⟩
        ({ s with inbox := s.inbox ++ [r], nextId := s.nextId + 1 }, none)

/-- What an admitted request answers once it has performed. -/
def Inbound.answer (r : Inbound) : PeerAns :=
  match r.req with
  | .read n => .pos ((List.range n).map fun i => Tab.at r.got 0#8 i)
  | .atom .. => .pos ((List.range (reqBytes r.req)).map fun i => Tab.at r.got 0#8 i)
  | _ => .pos []

/-- Flits of a reply (R395). -/
def ansFlits : PeerAns → Nat
  | .pos bs => 1 + (bs.length + 63) / 64
  | .neg _ => 1

/-- One piece of an admitted request performs (R265, R411): what the request becomes, or the REASON when the piece reads
poison (R498). -/
def State.inboundPiece (s : State) (r : Inbound) (n : Nat) (err : SoftErr) : State × Inbound × Option Nat :=
  match r.todo[n]? with
  | none => (s, r, none)
  | some p =>
    let r := { r with todo := r.todo.eraseIdx n }
    -- of this device: charged to the launch of the gang that issued it (R363)
    let launch := (r.own.bind fun o => s.fab.find? fun x => x.entry.id == o.1).elim 0 (·.launch)
    let s := s.chargePiece launch p r.todo
    let reads := reqReads r.req
    let fp := match r.req with
      | .radd .. => true
      | _ => false
    let s := if reads then s.readError err p else s
    if reads && (linkFailed err p || s.poisoned (p.cells ++ if fp then p.tagCells else [])) then (s, r, some 9)
    else
      match r.req with
      | .read _ => (s, { r with got := keepBytes r.got 0 p.pos (p.cells.map (s.cellBeneath 0 p.cls)) }, none)
      | .write .. | .line _ =>
        let e := Tab.at (s.part r.pno).exports 0#64 (desigExport r.desig)
        let all := ((s.part r.pno).exported e).elim p.cells fun h =>
          (s.reqPieces r.pno e h r.ofs r.req).flatMap fun q => q.cells ++ q.tagCells
        let s := s.imageWrite r.pno all p
        (if linkFailed err p then (s.softError err p.cells).poisonCells p.cells else s, r, none)
      | q => let t := s.peerAtomic r.pno p q; (t.1, { r with got := keepBytes r.got 0 p.pos t.2 }, none)

/-- The reply to a peer leaves on the line's port (R394, R395). -/
def State.replyPeer (s : State) (r : Inbound) (a : PeerAns) : State :=
  { s.sendFlits (s.portOfLine r.ofs) (ansFlits a) with inbox := s.inbox.filter fun x => x.id != r.id }

/-- Piece n of an admitted request performs; a peer's request is answered when none is left, one of this device keeps its
answer for the reply (R411). -/
def State.performInboundWith (s : State) (id n : Nat) (err : SoftErr) (late : State → Inbound → PeerAns → State) : State :=
  match s.inbox.find? fun r => r.id == id with
  | none => s
  | some r =>
    let (s, r', bad) := s.inboundPiece r n err
    match bad with
    | some k =>
      let s := s.refusePeer r.src r.pno r.ofs k
      if r.own.isSome then late s r (.neg k) else s.replyPeer r (.neg k)
    | none =>
      if r'.todo.isEmpty && r'.own.isNone then s.replyPeer r' r'.answer
      else { s with inbox := s.inbox.map fun x => if x.id = id then r' else x }

/-! ## Requests of this device (R394, R402-R405) -/

/-- The offset that a request addresses at its target. -/
def FReq.offset (r : FReq) : Nat := (desigOffset r.desig r.u.toNat + r.pos) % 2 ^ 40
/-- The offset that decides the line a request travels by: its own, and for the one packet of a multicast the line offset
(R394, R407). -/
def FReq.lineAt (r : FReq) : Nat :=
  match r.req with
  | .line _ => r.u.toNat
  | _ => r.offset
/-- The plane that a request's line is assigned to, and which of its ports. -/
def FReq.home (r : FReq) : Nat := linePlane r.lineAt
def FReq.side (r : FReq) : Nat := lineSide r.lineAt

/-- The parts of n bytes at an offset by lines of 256: position and length. -/
def lineParts (o n : Nat) : List (Nat × Nat) :=
  let a := min n (256 - o % 256)
  (0, a) :: (if a < n then [(a, n - a)] else [])

/-- A request that has not been sent. -/
def newReq (lane : Nat) (desig : Word64) (u : BitVec 32) (pos n : Nat) (req : PeerReq) : FReq :=
  ⟨lane, desig, u, pos, n, req, 0, 0, false, none, none, 0, false⟩

/-- The lane offset of an entry's lane. -/
def Entry.laneU (e : Entry) (l : Nat) : BitVec 32 := ((Tab.at e.vals [] (keyOffset l)).getD 0 zeroImg).val

/-- What a designator names at its target: a device, partition and export; on this device the partition's handle that the
export stands for. -/
def State.targetOf (s : State) (d : Word64) : Nat :=
  if desigDevice d == Config.device.toNat && desigExport d != 4095 then
    let x := Tab.at (s.part (desigPart d)).exports 0#64 (desigExport d)
    let h := exportHandle x
    2 ^ 63 + (desigPart d * 2 ^ 24 + h) * 1024 + (if coreRelative h then exportCore x else 0)
  else fieldOf d 27 37

/-- Where byte k of a lane's store lies: at its target, and its offset there; through an export of this device that does not
admit the store, by that export alone. -/
def State.byteAt (s : State) (e : Entry) (l k : Nat) : Nat :=
  let d := Tab.at e.addrs 0#64 l
  let p := s.part (desigPart d)
  let x := Tab.at p.exports 0#64 (desigExport d)
  let admitted := x.getLsbD 63 && x.getLsbD 61 && p.admits (exportAcl x) Config.device.toNat
  (if admitted then s.targetOf d else fieldOf d 27 37) * 2 ^ 40 + (desigOffset d (e.laneU l).toNat + k) % 2 ^ 40

/-- What each byte that a store writes holds at the end: the highest-numbered lane's, in whatever order the replays perform
(R402, R405). -/
def State.lastBytes (s : State) (e : Entry) (bytes : Nat → List Byte) : Tab Byte :=
  (e.addrs.map (·.1)).foldl (fun t l =>
    (indexFrom 0 (bytes l)).foldl (fun t kb => Tab.put t (s.byteAt e l kb.1) kb.2) t) []

/-- What lane `l` of an entry asks for: its length and, by position and length, its request. -/
def State.fabAsks (s : State) (e : Entry) (l : Nat) : Nat × (Nat → Nat → PeerReq) :=
  let xs := Tab.at e.vals [] l
  match e.instr with
  | .fld sz .. => (sizeBytes (fszSize sz), fun _ n => .read n)
  | .fst sz rnd _ _ _ _ _ =>
    let data := fun (l : Nat) => storeBytes (fszSize sz) (modeOf rnd e.ctl) (satOf e.ctl) (Tab.at e.vals [] l)
    let last := s.lastBytes e data
    let bs := (indexFrom 0 (data l)).map fun kb => (Tab.find? last (s.byteAt e l kb.1)).getD kb.2
    (bs.length, fun pos n => .write ((bs.drop pos).take n) (sz == .f32) (sz == .f64))
  | .fstRadd .. =>
    let x := xs.getD 0 zeroImg
    (4, fun _ _ => .radd x.val x.tag (modeOf .dyn e.ctl) (satOf e.ctl))
  | .fat _ sz _ _ _ _ _ _ _ =>
    let op := match e.instr with
      | .fat op .. => op
      | _ => .add
    if sz == .w64 then (8, fun _ _ => .atom op true (quadWord xs 0) (quadWord xs 2))
    else (4, fun _ _ => .atom op false ((xs.getD 0 zeroImg).val.setWidth 64) ((xs.getD 1 zeroImg).val.setWidth 64))
  | _ => (0, fun _ n => .read n)

/-- The distinct designators of an entry, in ascending order (R405). -/
def Entry.replays (e : Entry) : List Nat := (e.addrs.map (fun la => la.2.toNat)).dedup.insertionSort (· ≤ ·)

/-- The requests of an entry in the order they are sent. -/
def State.requests (s : State) (e : Entry) : List FReq :=
  e.replays.flatMap fun d =>
    (e.addrs.filter fun la => la.2.toNat == d).flatMap fun la =>
      let (n, req) := s.fabAsks e la.1
      let u := e.laneU la.1
      (lineParts (desigOffset la.2 u.toNat) n).map fun pn => newReq la.1 la.2 u pn.1 pn.2 (req pn.1 pn.2)

/-- The requests of a multicast: one per member. -/
def Entry.lines (e : Entry) (members : List Word64) (bytes : List Byte) : List FReq :=
  let u := ((Tab.at e.vals [] 0).getD 3 zeroImg).val
  (indexFrom 0 members).map fun im => newReq im.1 im.2 u 0 256 (.line bytes)

/-- Flits of a request (R395). -/
def reqFlits : PeerReq → Nat
  | .read _ => 1
  | r => 1 + (reqBytes r + 63) / 64

/-- Whether a request must wait at the head for a plane's fence. -/
def State.planeHeld (s : State) (r : FReq) : Bool := s.linesHeld r.home

/-- A request is sent, or refused here when no plane is live (R495). -/
def State.sendReq (s : State) (r : FReq) : FReq :=
  { r with plane := s.planeOf r.home, port := s.portOn (s.planeOf r.home) r.side, sent := true, moment := s.tick
           ans := if (List.range 8).any s.planeLive then none else some (.neg 7) }

/-! ## Completion (R408, R411, R501, R502) -/

/-- Whether an answer is negative. -/
def isNeg : PeerAns → Bool
  | .neg _ => true
  | .pos _ => false
/-- The REASON of a request, 0 while there is none. -/
def FReq.reason (r : FReq) : Nat :=
  match r.ans with
  | some (.neg n) => n
  | _ => 0

/-- The acknowledgement record (R408). -/
def recordBytes (rs : List FReq) : List Byte :=
  let neg := rs.filter fun r => r.reason != 0
  let list := (List.range 8).map fun k =>
    match neg[k]? with
    | some r => leBytes 8 (fieldOf r.desig 27 37 * 2 ^ 27 + r.reason % 256)
    | none => leBytes 8 0
  leBytes 8 ((rs.length - neg.length) % 65536 * 2 ^ 48 + neg.length % 65536 * 2 ^ 32 + min neg.length 8) ++ list.flatten

/-- The lanes with a negative reply. -/
def FabOp.negLanes (o : FabOp) : Mask := maskOf fun l => o.reqs.any fun r => r.lane == l && r.reason != 0

/-- What each lane received. -/
def FabOp.got (o : FabOp) : Tab Byte :=
  o.reqs.foldl (fun t r => match r.ans with
    | some (.pos bs) => keepBytes t r.lane r.pos (bs.take r.n)
    | _ => t) []

/-- The register results of an operation (R401, R404, R502). -/
def FabOp.outs (o : FabOp) : List Out :=
  let got := o.got
  let img := fun (sz : Size) (l : Nat) =>
    if inMask o.negLanes l then poisonImgs sz
    else loadImgs sz ((List.range (sizeBytes sz)).map fun i => Tab.at got 0#8 (datumKey l i))
  match o.entry.instr with
  | .fld sz d _ _ _ _ _ => laneOuts d.toNat (sizeLen (fszSize sz)) (img (fszSize sz))
  | .fat _ sz d _ _ _ _ _ _ => laneOuts d.toNat (sizeLen (fatSize sz)) (img (fatSize sz))
  | _ => []

/-- The fabric access trap of an operation with negative replies (R501, R502). -/
def FabOp.trap (o : FabOp) : Deferred :=
  let first := (lowLane? o.negLanes).getD 0
  let r := (o.reqs.find? fun r => r.lane == first && r.reason != 0).getD (newReq 0 0#64 0#32 0 0 (.read 0))
  { code := 0x12, detail := r.reason, lanes := o.negLanes, info0 := o.entry.word, info1 := r.desig
    info2 := r.u.setWidth 64, info3 := o.entry.wordAt, seq := o.entry.born }

/-- An operation leaves the fabric. -/
def State.dropFab (s : State) (id : Nat) : State := { s with fab := s.fab.filter fun o => o.entry.id != id }

/-- An operation whose requests are all answered: its result lands, its token is released, its gang traps; a multicast's
record stands to be written. -/
def State.finishFab (s : State) (o : FabOp) : State :=
  if !o.reqs.all (fun r => r.ans.isSome) || o.record.isSome then s
  else
    match o.entry.instr with
    | .fmcst .. =>
      let a := keptWord o.entry.vals keyDest
      let ps := match mapAt o.entry.maps a with
        | some h => piecesOf h (mapTag o.entry.maps h) (hndOf a) 0 true (offOf a) 72 (recordBytes o.reqs) .other
        | none => []
      { s with fab := s.fab.map fun x => if x.entry.id = o.entry.id then { x with record := some ps, since := s.nextId } else x }
    | _ =>
      let s := s.dropFab o.entry.id
      let s := if o.entry.pend = 0 then s.dropTok o.gang o.entry.tok else s.land o.gang o.entry.pend o.outs
      if o.negLanes == 0#32 then s else s.defer o.gang o.trap

/-- Every operation that can be finished is. -/
def State.settleFab (s : State) : State := s.fab.foldl (fun s o => s.finishFab o) s

/-- A negative reply to a gang whose lanes have all exited is logged (R502). -/
def State.logLate (s : State) (o : FabOp) (r : FReq) (a : PeerAns) : State :=
  match a with
  | .neg n =>
    match s.gang? o.gang with
    | some g => if g.alive then s else s.logFabric 2 (s.partOf g) r.plane r.port n (desigDevice r.desig)
    | none => s
  | .pos _ => s

/-- Whether the answer to a request of an operation comes in a packet of its own: the switches combine the replies of a
multicast's members into one (R408). -/
def FabOp.ownReply (o : FabOp) (j : Nat) : Bool :=
  match o.entry.instr with
  | .fmcst .. => (indexFrom 0 o.reqs).all fun jr => jr.1 == j || jr.2.ans.isSome
  | _ => true

/-- A request is answered, and each request that was combined into it (R500); the flits of a reply that `came` arrive, and are
charged as its request's are (R363, R395, R492). -/
def State.answer (s : State) (id k : Nat) (a : PeerAns) (came : Bool := true) : State :=
  let hit := fun (o : FabOp) (j : Nat) (r : FReq) =>
    r.ans.isNone && ((o.entry.id == id && j == k) || r.into == some (id, k))
  let s := s.fab.foldl (fun (s : State) o =>
    (indexFrom 0 o.reqs).foldl (fun (s : State) jr =>
      if !hit o jr.1 jr.2 then s
      else
        let s := s.logLate o jr.2 a
        if came && o.ownReply jr.1 then
          (s.charge (8 + jr.2.plane) o.launch (ansFlits a)).takeFlits (s.portOn jr.2.plane (jr.2.port % 2)) (ansFlits a)
        else s) s) s
  let reply := fun (o : FabOp) =>
    { o with reqs := (indexFrom 0 o.reqs).map fun jr => if hit o jr.1 jr.2 then { jr.2 with ans := some a } else jr.2 }
  State.settleFab { s with fab := s.fab.map reply }

/-- A request of an operation. -/
def State.fabReq? (s : State) (id k : Nat) : Option (FabOp × FReq) :=
  (s.fab.find? fun o => o.entry.id == id).bind fun o => (o.reqs[k]?).map fun r => (o, r)

/-- Whether two requests address one line of one target handle (R411). -/
def State.sameLine (s : State) (a b : FReq) : Bool :=
  a.offset / 256 == b.offset / 256 && s.targetOf a.desig == s.targetOf b.desig

/-- The earlier requests of a gang to the line of one, in the order sent, that are still out, each with its operation and
number. -/
def State.linesBefore (s : State) (o : FabOp) (k : Nat) (r : FReq) : List (Nat × Nat × FReq) :=
  (s.fab.filter fun x => x.gang == o.gang).flatMap fun x =>
    (indexFrom 0 x.reqs).filterMap fun jq =>
      if (x.entry.id < o.entry.id || (x.entry.id == o.entry.id && jq.1 < k)) && jq.2.ans.isNone && s.sameLine jq.2 r then
        some (x.entry.id, jq.1, jq.2)
      else none

/-- Whether an earlier request of a gang to the same line of the same target handle is still out. -/
def State.lineBusy (s : State) (o : FabOp) (k : Nat) (r : FReq) : Bool := !(s.linesBefore o k r).isEmpty

/-- Whether an admitted request of another device must wait for one that arrived before it: those of one device to one line
perform in the order they arrive, for of which gang each is its packet does not say (DESIGN CHOICE, log 147). -/
def State.peerBehind (s : State) (r : Inbound) : Bool :=
  r.own.isNone && (s.inbox.takeWhile fun x => x.id != r.id).any fun x =>
    x.own.isNone && x.src == r.src && x.ofs / 256 == r.ofs / 256 && s.targetOf x.desig == s.targetOf r.desig

/-- A request of this device is answered here: the reply leaves and arrives. -/
def State.replyOwn (s : State) (r : Inbound) (a : PeerAns) : State :=
  match r.own with
  | some o => (s.replyPeer r a).answer o.1 o.2 a
  | none => s

/-- PERFORM_PIECE of an admitted request, in line order; one of this device that reads poison is answered at once. -/
def State.performInbound (s : State) (id n : Nat) (err : SoftErr) : State :=
  if s.inbox.any fun r => r.id == id && s.peerBehind r then s else s.performInboundWith id n err State.replyOwn

/-- A request of this device to this device: it arrives in line order, its pieces perform, and the reply returns. -/
def State.ownRequest (s : State) (o : FabOp) (k : Nat) (r : FReq) : State :=
  match s.inbox.find? fun x => x.own == some (o.entry.id, k) with
  | none =>
    if s.lineBusy o k r then s
    else
      let s := s.takeFlits (s.portOfLine r.offset) (reqFlits r.req)
      match s.peerArrive (some (o.entry.id, k)) Config.device.toNat r.desig r.offset r.req with
      | (t, some a) => (t.sendFlits (t.portOfLine r.offset) (ansFlits a)).answer o.entry.id k a
      | (t, none) => t
  | some x => if x.todo.isEmpty then s.replyOwn x x.answer else s.performInbound x.id 0 .none

/-- FABRIC_REPLY (R411): what another device answers; a request to this device is served here. -/
def execFabricReply (id lane : Nat) (ans : PeerAns) (s : State) : Next :=
  .next (match s.fabReq? id lane with
    | none => s
    | some (o, r) =>
      if r.ans.isSome || r.into.isSome || r.gone then s
      else if desigDevice r.desig == Config.device.toNat then s.ownRequest o lane r
      else if (match ans with
        | .neg n => n = 0 || 12 < n
        | .pos bs => bs.length != (match r.req with
          | .read n => n
          | .atom _ w64 _ _ => if w64 then 8 else 4
          | _ => 0)) then s
      else s.answer id lane ans)

/-! ## Requests of other devices (R411, R416) -/

/-- A request of another device, by its parts: it arrives, or the next piece of it performs. -/
def State.peerRequest (s : State) (src : Nat) (desig : Word64) (o : Nat) (req : PeerReq) : State :=
  match s.inbox.find? fun r => r.own.isNone && r.src == src && r.desig == desig && r.ofs == o && r.req == req with
  | some r => s.performInbound r.id 0 .none
  | none =>
    match (s.takeFlits (s.portOfLine o) (reqFlits req)).peerArrive none src desig o req with
    | (t, some a) => t.sendFlits (t.portOfLine o) (ansFlits a)
    | (t, none) => t

/-- FABRIC_TARGET_PERFORM (R411): a request of another device. -/
def execFabricTargetPerform (src : Nat) (desig : BitVec 64) (u : BitVec 32) (req : PeerReq) (s : State) : Next :=
  .next (if src == Config.device.toNat || desigDevice desig != Config.device.toNat then s
    else s.peerRequest src desig (desigOffset desig u.toNat) req)

/-- QUEUE_PORT_POST (R416): a peer's access to the queue port; a write carries any value. -/
def execQueuePortPost (src pno ofs size : Nat) (wr : Bool) (s : State) : Next :=
  let desig : Word64 := BitVec.ofNat 64 (pno % 32 * 2 ^ 39 + 4095 * 2 ^ 27)
  .next (if src == Config.device.toNat then s
    else s.peerRequest src desig ofs (if wr then .write (List.replicate size 0#8) false false else .read size))

/-! ## Sending (R405, R407, R411) -/

/-- The packets of some requests: the plane, port and flits of each; the members of a multicast share one (R407). -/
def State.packets (s : State) (rs : List FReq) : List (Nat × Nat × Nat) :=
  let packet := fun (r : FReq) => (s.planeOf r.home, s.portOn (s.planeOf r.home) r.side, reqFlits r.req)
  match rs with
  | r :: _ => (match r.req with
    | .line _ => [packet r]
    | _ => rs.map packet)
  | [] => []

/-- The head entry of stream 15 sends its requests and leaves the queue; one refused for want of a live plane is logged as
any negative reply to a retired gang is (R502). -/
def State.sendOut (s : State) (key : Nat) (g : Gang) (e : Entry) (rs : List FReq) : State :=
  if rs.any s.planeHeld then s
  else
    let sent := rs.map s.sendReq
    let o : FabOp := ⟨key, g.launch, e, sent, none, 0⟩
    let s := if (List.range 8).any s.planeLive then
        (s.packets rs).foldl (fun (s : State) p => (s.charge (8 + p.1) g.launch p.2.2).sendFlits p.2.1 p.2.2) s
      else sent.foldl (fun (s : State) r => s.logLate o r (.neg 7)) s
    let s := s.updGang key fun g => g.popHead 15
    State.settleFab { s with fab := s.fab ++ [o] }

/-- What some pieces read at once meet of poison, by lanes (R488). -/
def State.badPieces (s : State) (ps : List Piece) : Tab (Word64 × Nat) :=
  ps.foldl (fun t p => if s.readsBad p.cells || s.tsoDown p then noteBad t p true else t) []

/-- The snapshot of a multicast's source (R407), and the poison that it met. -/
def State.snapshot (s : State) (pno q : Nat) (e : Entry) : List Byte × Tab (Word64 × Nat) :=
  let reads := e.todo.filter fun p => !p.wr
  (reads.flatMap fun p => (s.readPiece pno q p).1, s.badPieces reads)

/-- FABRIC_SEND (R411). -/
def execFabricSend (core ctx : Nat) (s : State) : Next :=
  .next (match s.keyOf core ctx with
    | none => s
    | some key =>
      match s.gang? key with
      | none => s
      | some g =>
        match g.stream 15 with
        | [] => s
        | e :: _ =>
          if g.gated e then s
          else
            match e.instr with
            | .fld .. | .fst .. | .fstRadd .. | .fat .. => s.sendOut key g e (s.requests e)
            | .fmcst .. =>
              match e.lockTrap (s.conflicts (s.partOf g) e) with
              | some d => s.dropEntry key 15 e d
              | none =>
                let (bytes, bad) := s.snapshot (s.partOf g) (quarterOf core) e
                let group := quadNat (Tab.at e.vals [] 0) 2
                (s.heard.chargePieces g.launch (e.todo.filter fun p => !p.wr)).sendOut key g { e with bad := bad } (e.lines (Tab.at (s.part (s.partOf g)).mcast [] group) bytes)
            | _ => s)

/-- MCDEF reads its list (R410): the words, or what it could read of N when it fails. -/
def State.mcList (s : State) (pno q : Nat) (e : Entry) : Nat × Option (List Word64) :=
  let a := Tab.at e.addrs 0#64 0
  let sec := (s.part pno).secure
  match mapAt e.maps a with
  | none => (0, none)
  | some h =>
    let word := fun (i : Nat) => leWord (s.readBytes pno q h (offOf a + 8 * i) 8)
    let bad := fun (n : Nat) => (accessFault (some h) sec false true (offOf a) n).isSome
    if bad 8 then (0, none)
    else
      let n := (word 0).toNat
      if n = 0 || 1024 < n || bad (8 + 8 * n) then (n, none) else (n, some ((List.range n).map fun i => word (i + 1)))

/-- The pieces that MCDEF reads. -/
def Entry.mcPieces (e : Entry) (n : Nat) : List Piece :=
  let a := Tab.at e.addrs 0#64 0
  match mapAt e.maps a with
  | some h => piecesOf h none (hndOf a) ((lowLane? e.act).getD 0) false (offOf a) (8 + 8 * n) [] .other
  | none => []

/-- MCDEF_READ (R410, R501): the head of stream 15 replaces its group, or leaves it and traps. -/
def execMcdefRead (core ctx : Nat) (s : State) : Next :=
  .next (match s.keyOf core ctx with
    | none => s
    | some key =>
      match s.gang? key with
      | none => s
      | some g =>
        match g.stream 15 with
        | [] => s
        | e :: _ =>
          match e.instr with
          | .fpeerMcdef grp _ =>
            if g.gated e then s
            else
              let pno := s.partOf g
              let (n, list) := s.mcList pno (quarterOf core) e
              let ps := e.mcPieces (if list.isSome then n else 0)
              match e.lockTrap (s.conflicts pno { e with todo := ps }) with
              | some d => s.dropEntry key 15 e d
              | none =>
                let bad := s.badPieces ps
                let s := (s.heard.chargePieces g.launch ps).updGang key fun g => g.popHead 15
                if !bad.isEmpty then s.finishEntry key { e with bad := bad }
                else
                  match list with
                  | some ws => s.updPart pno fun p => { p with mcast := Tab.put p.mcast grp.toNat ws }
                  | none =>
                    s.defer key { code := 0x12, detail := 0x42, lanes := e.act, info0 := e.word, info1 := Tab.at e.addrs 0#64 0
                                  info2 := BitVec.ofNat 64 n, info3 := e.wordAt, seq := e.born }
          | _ => s)

/-- MCAST_ACK_RECORD (R408, R411): a piece of the record is written, unless its host link has lost it (R505); once they have
all drained, the multicast completes. -/
def execMcastAckRecord (id n : Nat) (s : State) : Next :=
  .next (match s.fab.find? fun o => o.entry.id == id with
    | none => s
    | some o =>
      let core := coreOf o.gang
      let pno := (s.launch? o.launch).elim 31 (·.pno)
      match o.record with
      | none => s
      | some [] =>
        if !s.opDrained core fabEng id then s
        else
          let s := ((s.releaseOp core fabEng id).dropFab id).releaseTok o.gang o.entry.tok fabEng id
          if o.entry.bad.isEmpty then s else s.defer o.gang o.entry.poisonTrap
      | some ps =>
        match ps[n]? with
        | none => s
        | some p =>
          if s.atomHolds p.cells then s else
          let who : Writer := ⟨o.gang, 15, o.launch, some (core, fabEng, id), pno, .op core fabEng id⟩
          let s := s.chargePiece o.launch p (ps.eraseIdx n)
          let s := match s.lostOn? (Config.inFlight s.tick) o.since p with
            | some link => s.logHost pno link
            | none => s.writePiece who (quarterOf core) p o.entry.wcells
          { s with fab := s.fab.map fun x => if x.entry.id = id then { x with record := some (ps.eraseIdx n) } else x })

/-- Whether a request b that is combined into request a, and so performs with it, still performs behind every earlier request
of its gang to the line (R411): each is a, goes with a, or comes before a as well. -/
def State.keepsLine (s : State) (a : Nat × Nat) (oa : FabOp) (ra : FReq) (kb : Nat) (ob : FabOp) (rb : FReq) : Bool :=
  let beforeA := (s.linesBefore oa a.2 ra).map fun x => (x.1, x.2.1)
  (s.linesBefore ob kb rb).all fun x => (x.1, x.2.1) == a || x.2.2.into == some a || beforeA.contains (x.1, x.2.1)

/-- RADD_COMBINE (R403): a switch combines request b into request a, which it received first; neither has arrived at its
target. Each is named by operation × 64 + request. -/
def execRaddCombine (a b : Nat) (s : State) : Next :=
  .next (match s.fabReq? (a / 64) (a % 64), s.fabReq? (b / 64) (b % 64) with
    | some (oa, ra), some (ob, rb) =>
      match ra.req, rb.req with
      | .radd v t m z, .radd v' t' m' z' =>
        let open_ := fun (n : Nat) (r : FReq) => r.sent && r.ans.isNone && r.into.isNone && !r.gone
          && !s.inbox.any fun x => x.own == some (n / 64, n % 64)
        if a == b || !open_ a ra || !open_ b rb || !s.keepsLine (a / 64, a % 64) oa ra (b % 64) ob rb || m != m' || z != z' || rb.moment < ra.moment
          || fieldOf ra.desig 27 37 != fieldOf rb.desig 27 37 || ra.offset != rb.offset then s
        else
          let y := (fAdd .f32 (oprOf .f32 (⟨v, t⟩, zeroImg)) (oprOf .f32 (⟨v', t'⟩, zeroImg))).1
          let ka := (a / 64, a % 64)
          let kb := (b / 64, b % 64)
          { s with fab := s.fab.map fun o => { o with reqs := (indexFrom 0 o.reqs).map fun jr =>
              if (o.entry.id, jr.1) == ka then { jr.2 with req := .radd y.val y.tag m z }
              else if (o.entry.id, jr.1) == kb || jr.2.into == some kb then { jr.2 with into := some ka }
              else jr.2 } }
      | _, _ => s
    | _, _ => s)

/-! ## Lanes and ports (R396, R492, R493) -/

/-- The working lanes of a set in ascending rank (R396). -/
def laneRanks (lanes : BitVec 16) : List Nat := (List.range 16).filter lanes.getLsbD

/-- The lane that byte i of a packet goes to (R396). -/
def laneOfByte (lanes : BitVec 16) (i : Nat) : Option Nat := (laneRanks lanes)[i % (laneRanks lanes).length]?

/-- The number of a flit, by its count (R492). -/
def flitNumber (n : Nat) : BitVec 12 := BitVec.ofNat 12 n

/-- The flits in a port's replay buffer: the last 256 that it sent (R492). -/
def Port.buffer (p : Port) : List Nat := (List.range (min p.sent 256)).map fun i => p.sent - min p.sent 256 + i

/-- Where the packet begins that the first flit not acknowledged belongs to (R493). -/
def Port.packetStart (p : Port) : Nat :=
  if p.acked < p.sent then (p.headers.filter (· ≤ p.acked)).foldl max 0 else p.acked

/-- FLIT_REPLAY (R492): a flit fails its check. One that the port received is awaited again, and every later one discarded
until it comes. Of one that it sent, those before it are acknowledged, those behind it discarded, and the port sends again
from it; replays of one flit in a row are counted, and after 8 the port waits for its retrain. -/
def execFlitReplay (port : Nat) (s : State) : Next :=
  let p := s.port port
  .next (if 16 ≤ port || !p.up then s
    else if Config.badSide s.tick port then s.setPort port { p with awaits := true }
    else if p.acked < p.sent && p.replays < 8 then
      let f := p.acked + Config.badFlit s.tick port % (p.sent - p.acked)
      s.setPort port { p with acked := f, failed := f, replays := if f = p.failed && 0 < p.replays then p.replays + 1 else 1 }
    else s)

/-- A port works with some lanes: dropped lanes are logged. -/
def State.setLanes (s : State) (port : Nat) (lanes : BitVec 16) : State :=
  let p := s.port port
  let dropped := p.lanes &&& ~~~lanes
  let s := s.setPort port { p with lanes := lanes, up := lanes != 0#16, replays := 0 }
  if dropped == 0#16 then s else s.logFabric 7 31 (port / 2) port 0 0

/-- PORT_RETRAIN (R492, R493): after 8 replays of one flit, or when a lane dies, each lane is tested and the lanes that fail
are dropped; the port resumes from its replay buffer, and a packet that a lane died under from its header flit. -/
def execPortRetrain (port : Nat) (lanes : BitVec 16) (s : State) : Next :=
  let p := s.port port
  let died := p.lanes &&& ~~~lanes != 0#16
  .next (if port < 16 && (8 ≤ p.replays || died) then
      let s := if died then s.setPort port { p with acked := p.packetStart } else s
      (s.setLanes port (p.lanes &&& lanes)).logFabric 8 31 (port / 2) port 0 0
    else s)

/-- LANE_SET_CHANGE (R493): a planned change at a packet boundary: every packet sent has been received whole. -/
def execLaneSetChange (port : Nat) (lanes : BitVec 16) (s : State) : Next :=
  .next (if port < 16 then
      let p := s.port port
      (s.setPort port { p with acked := p.sent }).setLanes port lanes
    else s)

/-! ## Planes (R494-R496) -/

/-- Whether a batch for the lines of a plane is out on a plane. -/
def Batch.outOn (b : Batch) (home plane : Nat) : Bool :=
  b.sent && !b.gone && decide (1024 ≤ b.dst) && b.home == home && b.plane == plane

/-- Whether a request for the lines of a plane is out on another, or the same, plane; or a batch, which a live plane still
delivers (R496, R503). -/
def State.outOn (s : State) (home plane : Nat) : Bool :=
  (s.fab.any fun o => o.reqs.any fun r => r.sent && r.ans.isNone && r.home == home && r.plane == plane)
    || (s.planeLive plane && s.batches.any (·.outOn home plane))

/-- The plane that takes over the lines of a dead one (R495). -/
def State.partner? (s : State) (p : Nat) : Option Nat := [4, 2, 6, 1, 5, 3, 7].map (p ^^^ ·) |>.find? s.planeLive

/-- Holding new requests for the lines of a plane, or no longer. -/
def State.holdPlane (s : State) (plane : Nat) (on : Bool) : State :=
  { s with planeHold := if on then s.planeHold ||| BitVec.ofNat 8 (2 ^ plane)
                        else s.planeHold &&& ~~~BitVec.ofNat 8 (2 ^ plane) }

/-- The lines of a plane move from one plane to another, or back to their own: nothing holds them any more, and the batches
that were out on a dead plane are gone (R496, R503). -/
def State.moveLines (s : State) (plane via q : Nat) : State :=
  let s := { s with
    planeVia := if q = plane then Tab.del s.planeVia plane else Tab.put s.planeVia plane q
    batches := s.batches.map fun b => if Batch.outOn b plane via && !s.planeLive via then { b with gone := true } else b }
  s.holdPlane plane false

/-- PLANE_REMAP (R495, R496): the lines of a dead plane move to the first live plane of its order, once nothing is out for
them on the plane that carries them; a restore that its plane did not live to see is given up. -/
def execPlaneRemap (plane : Nat) (s : State) : Next :=
  let via := s.planeOf plane
  .next (if 8 ≤ plane || s.planeLive plane then s
    else
      match s.partner? plane with
      | none => s
      | some q =>
        if q = via then s.holdPlane plane false
        else if s.planeLive via && !s.planeHold.getLsbD plane then s.holdPlane plane true
        else if s.outOn plane via then s
        else (s.moveLines plane via q).logFabric 5 31 plane 0 0 0)

/-- PLANE_RESTORE (R496): a plane that is live again takes its lines back, after the fence: first new requests are held,
then nothing is out on the partner. -/
def execPlaneRestore (plane : Nat) (s : State) : Next :=
  let via := s.planeOf plane
  .next (if 8 ≤ plane || !s.planeLive plane then s
    else if via = plane then s.holdPlane plane false
    else if !s.planeHold.getLsbD plane then s.holdPlane plane true
    else if s.outOn plane via then s
    else (s.moveLines plane via plane).logFabric 6 31 plane 0 0 0)

/-- SWITCH_DISCARD (R496): a switch discards a packet it has held too long: a request, or a wave batch, which `id` names when
no operation bears it. -/
def execSwitchDiscard (id lane : Nat) (s : State) : Next :=
  .next (match s.fabReq? id lane with
    | none => { s with batches := s.batches.map fun b => if b.id = id && b.sent && 1024 ≤ b.dst then { b with gone := true } else b }
    | some (_, r) =>
      if r.ans.isSome || r.into.isSome || !r.sent then s
      else { s with fab := s.fab.map fun o =>
        if o.entry.id = id then { o with reqs := (indexFrom 0 o.reqs).map fun jr =>
          if jr.1 = lane then { jr.2 with gone := true } else jr.2 } else o })

/-- What a request of this device to this device has arrived with performs before it counts as lost: after the fence no
packet of it can still arrive (R496, R497). -/
def State.finishLost (s : State) (id lane : Nat) : State :=
  match s.inbox.find? fun x => x.own == some (id, lane) with
  | none => s
  | some x =>
    let drop := fun (t : State) (r : Inbound) (_ : PeerAns) => { t with inbox := t.inbox.filter fun y => y.id != r.id }
    let s := (List.range x.todo.length).foldl (fun (s : State) _ => s.performInboundWith x.id 0 .none drop) s
    { s with inbox := s.inbox.filter fun y => y.id != x.id }

/-- REQUEST_LOST (R496, R497): after the loss interval, a request on a dead plane, or one that a switch discarded, is answered
with REASON 10, whether it has performed at its target or not. -/
def execRequestLost (id lane : Nat) (s : State) : Next :=
  .next (match s.fabReq? id lane with
    | none => s
    | some (_, r) =>
      if r.sent && r.ans.isNone && r.into.isNone && (r.gone || !s.planeLive r.plane) then
        (s.finishLost id lane).answer id lane (.neg 10) false
      else s)

/-! ## Host links (R504, R505) -/

/-- HOST_LINK_DOWN (R505): the stores that wait for a TSO extent of the link are discarded, and logged; the writes issued
before this may still be lost with the link, whose function reports a surprise down error: status bit 5 (PRESUMED, log 145). -/
def execHostLinkDown (link : Nat) (s : State) : Next :=
  .next (if 2 ≤ link || !s.links.getLsbD link then s
    else
      let lost := s.hostQ.filter fun h => h.link == link
      let s := { s with
        links := s.links &&& ~~~BitVec.ofNat 2 (2 ^ link)
        linkAt := Tab.put s.linkAt link s.nextId
        hostQ := s.hostQ.filter fun h => h.link != link }
      lost.foldl (fun (s : State) h => s.logHost h.pno link) ((s.logFabric 9 31 0 link 0 0).aerError link 5))

/-- HOST_LINK_UP (R505). -/
def execHostLinkUp (link : Nat) (s : State) : Next :=
  .next (if 2 ≤ link then s else { s with links := s.links ||| BitVec.ofNat 2 (2 ^ link) })

end Sys2Proof.Machine
end

