-- ==== Sys2Proof/Machine/Integer.lean ====
section
/-! DEFINITION. The meanings of the integer, address, identity and mask instructions (R112-R137). -/

namespace Sys2Proof.Machine

/-! ## Shared forms -/

/-- A lane-wise integer word of one source. -/
def intOne (i : Instr) (t : IntTy) (d a : VNum) (p : Perm) (f : Pair → Pair) (s : State) : Next :=
  pureWord i (fun x _ => outReg (tyLen t) d.toNat ((x.src (tyLen t) a p).map f)) s

/-- A lane-wise integer word of two sources. -/
def intTwo (i : Instr) (t : IntTy) (d a : VNum) (p : Perm) (b : VNum) (f : Pair → Pair → Pair) (s : State) : Next :=
  pureWord i (fun x _ =>
    outReg (tyLen t) d.toNat (Lanes.map2 f (x.src (tyLen t) a p) (x.src (tyLen t) b .none))) s

/-- Whether a type is one of the 32-bit integers, whose affine registers stay affine (R38). -/
def isInt32 (t : IntTy) : Bool := t == .s32 || t == .z32

/-- A register as a source keeps its affine shape only unpermuted (R38). -/
def Seat.shape (x : Seat) (n : VNum) (p : Perm) : VReg :=
  match p with
  | .none => x.g.reg n.toNat
  | _ => VReg.ofLanes (permuted (x.g.reg n.toNat).lanes p x.g.width x.act zeroImg)

/-- The affine sum or difference of two registers (R38). -/
def affSum (sub : Bool) (a b : VReg) : Option VReg :=
  let op := fun (u v : Val32) => if sub then u - v else u + v
  match a, b with
  | .affine p q, .affine r t => some (.affine (op p r) (op q t))
  | .affine p q, .uniform y => some (.affine (op p y.val) q)
  | .uniform y, .affine r t => some (.affine (op y.val r) (op 0#32 t))
  | _, _ => none

/-- The affine product of two registers (R38). -/
def affMul (a b : VReg) : Option VReg :=
  match a, b with
  | .affine p q, .uniform y => some (.affine (p * y.val) (q * y.val))
  | .uniform y, .affine p q => some (.affine (y.val * p) (y.val * q))
  | _, _ => none

/-- An affine register shifted left by a count (R38). -/
def affShl (a : VReg) (c : Nat) : Option VReg :=
  match a with
  | .affine p q => some (if c < 32 then .affine (p <<< c) (q <<< c) else .affine 0#32 0#32)
  | _ => none

/-- Results with an affine register in their place, when there is one. -/
def orAffine (d : VNum) (v : Option VReg) (os : List Out) : List Out :=
  match v with
  | some r => [.reg d.toNat r]
  | none => os

/-- ADD and SUB (R121). -/
def addWord (i : Instr) (sub : Bool) (t : IntTy) (am : AddMod) (d a : VNum) (p : Perm) (b : VNum) (s : State) : Next :=
  pureWord i (fun x _ =>
    orAffine d (if am == .wrap && isInt32 t then affSum sub (x.shape a p) (x.shape b .none) else none)
      (outReg (addLen t am) d.toNat
        (Lanes.map2 (addLane t am sub) (x.src (tyLen t) a p) (x.src (tyLen t) b .none)))) s

/-- Shifts by a register count (R126). -/
def shiftWord (i : Instr) (f : ShiftFn) (t : IntTy) (d a : VNum) (p : Perm) (b : VNum) (aff : Bool) (s : State) : Next :=
  pureWord i (fun x _ =>
    let c := match x.shape b .none with
      | .uniform y => if aff && tyLen t == 1 then affShl (x.shape a p) (y.val.toNat % 256) else none
      | _ => none
    orAffine d c
      (outReg (tyLen t) d.toNat
        (Lanes.map2 (fun u v => shiftLane f t u (shiftCount v)) (x.src (tyLen t) a p) (x.src 1 b .none)))) s

/-! ## Meanings -/

/-- NOP (R118). Changes no state and counts as one issue for LOOK windows. -/
def execNop (s : State) : Next := pureWord .nop (fun _ _ => []) s

/-- The registers of a MOV that reads without a permutation: each takes the shape of its source (R119). DESIGN CHOICE (log
102): a pair whose two registers have different shapes gives general ones, since a 64-bit result has one shape (R37). -/
def movRegs (x : Seat) (len d a : Nat) : List Out :=
  if len = 1 then [.reg d (x.g.reg a)]
  else if (x.g.reg a).shapeCode = (x.g.reg (a + 1)).shapeCode then [.reg d (x.g.reg a), .reg (d + 1) (x.g.reg (a + 1))]
  else outReg len d (x.g.rd len a)

/-- MOV (R119). Copies source lane images, tags included, into the destination in active lanes. -/
def execMov (ty : IntTy) (d a : VNum) (perm : Perm) (mk : MNum) (s : State) : Next :=
  pureWord (.mov ty d a perm mk) (fun x _ =>
    if perm == .none then movRegs x (tyLen ty) d.toNat a.toNat
    else outReg (tyLen ty) d.toNat (x.src (tyLen ty) a perm)) s

/-- MOVI (R120). Writes an immediate or literal value with integer tag to active lanes. -/
def execMovi (ty : IntTy) (d : VNum) (imm : Imm) (mk : MNum) (s : State) : Next :=
  pureWord (.movi ty d imm mk) (fun _ _ => outReg (tyLen ty) d.toNat (.uni (wrTy ty (immVal imm)))) s

/-- ADD (R121). Integer add with optional saturation or widening. -/
def execAdd (ty : IntTy) (am : AddMod) (d a : VNum) (perm : Perm) (b : VNum) (mk : MNum) (s : State) : Next :=
  addWord (.add ty am d a perm b mk) false ty am d a perm b s

/-- SUB (R121). Integer subtract with optional saturation or widening. -/
def execSub (ty : IntTy) (am : AddMod) (d a : VNum) (perm : Perm) (b : VNum) (mk : MNum) (s : State) : Next :=
  addWord (.sub ty am d a perm b mk) true ty am d a perm b s

/-- ADDI (R121). Integer add of an immediate or literal with optional saturation or widening. -/
def execAddi (ty : IntTy) (am : AddMod) (d a : VNum) (imm : Imm) (mk : MNum) (s : State) : Next :=
  pureWord (.addi ty am d a imm mk) (fun x _ =>
    orAffine d (if am == .wrap && isInt32 ty then
        affSum false (x.shape a .none) (.uniform (intImg (BitVec.ofInt 32 (immVal imm)))) else none)
      (outReg (addLen ty am) d.toNat
        ((x.src (tyLen ty) a .none).map fun u => addLane ty am false u (immPair imm)))) s

/-- MUL (R122). Low half of an integer product. -/
def execMul (ty : IntTy) (d a : VNum) (perm : Perm) (b : VNum) (mk : MNum) (s : State) : Next :=
  pureWord (.mul ty d a perm b mk) (fun x _ =>
    orAffine d (if isInt32 ty then affMul (x.shape a perm) (x.shape b .none) else none)
      (outReg (tyLen ty) d.toNat (Lanes.map2 (mulLane ty) (x.src (tyLen ty) a perm) (x.src (tyLen ty) b .none)))) s

/-- MULH (R122). High half of the exact integer product. -/
def execMulh (ty : IntTy) (d a : VNum) (perm : Perm) (b : VNum) (mk : MNum) (s : State) : Next :=
  intTwo (.mulh ty d a perm b mk) ty d a perm b (mulhLane ty) s

/-- MAD (R122). Integer multiply-add modulo the width. -/
def execMad (ty : IntTy) (d a : VNum) (perm : Perm) (b c : VNum) (mk : MNum) (s : State) : Next :=
  pureWord (.mad ty d a perm b c mk) (fun x _ =>
    outReg (tyLen ty) d.toNat (Lanes.map3 (madLane ty) (x.src (tyLen ty) a perm) (x.src (tyLen ty) b .none)
      (x.src (tyLen ty) c .none))) s

/-- IDIV and IREM (R123): the result and the flag bits, long-latency both. -/
def divWord (i : Instr) (f : Pair → Pair → Pair) (ty : IntTy) (d a : VNum) (perm : Perm) (b : VNum) (flag : MNum)
    (look : BitVec 4) (s : State) : Next :=
  longWord i look 0 ((List.range (tyLen ty)).map (d.toNat + ·)) (if flag = 0#3 then [] else [flag.toNat]) (fun x =>
    let u := x.src (tyLen ty) a perm
    let v := x.src (tyLen ty) b .none
    outReg (tyLen ty) d.toNat (Lanes.map2 f u v) ++
      (if flag = 0#3 then [] else [outMask flag.toNat fun l => divFlag ty (pairLane u l) (pairLane v l)])) s

/-- IDIV (R123). Long-latency integer divide with defined results for zero and overflow and an optional flag mask. -/
def execIdiv (ty : IntTy) (d a : VNum) (perm : Perm) (b : VNum) (flag : MNum) (look : BitVec 4) (mk : MNum) (s : State) :
    Next :=
  divWord (.idiv ty d a perm b flag look mk) (idivLane ty) ty d a perm b flag look s

/-- IREM (R123). Long-latency integer remainder with defined results for zero and overflow. -/
def execIrem (ty : IntTy) (d a : VNum) (perm : Perm) (b : VNum) (flag : MNum) (look : BitVec 4) (mk : MNum) (s : State) :
    Next :=
  divWord (.irem ty d a perm b flag look mk) (iremLane ty) ty d a perm b flag look s

/-- AND (R124). Bitwise AND of two registers. -/
def execAnd (ty : IntTy) (d a : VNum) (perm : Perm) (b : VNum) (mk : MNum) (s : State) : Next :=
  intTwo (.and ty d a perm b mk) ty d a perm b (bitsLane (· &&& ·) ty) s

/-- OR (R124). Bitwise OR of two registers. -/
def execOr (ty : IntTy) (d a : VNum) (perm : Perm) (b : VNum) (mk : MNum) (s : State) : Next :=
  intTwo (.or ty d a perm b mk) ty d a perm b (bitsLane (· ||| ·) ty) s

/-- XOR (R124). Bitwise XOR of two registers. -/
def execXor (ty : IntTy) (d a : VNum) (perm : Perm) (b : VNum) (mk : MNum) (s : State) : Next :=
  intTwo (.xor ty d a perm b mk) ty d a perm b (bitsLane (· ^^^ ·) ty) s

/-- LOGI (R125). Bitwise AND, OR, XOR or ANDN with an immediate or literal. -/
def execLogi (kind : LogiKind) (ty : IntTy) (d a : VNum) (imm : Imm) (mk : MNum) (s : State) : Next :=
  intOne (.logi kind ty d a imm mk) ty d a .none (fun u => bitsLane (logiFn kind) ty u (immPair imm)) s

/-- SHL (R126). Shift left by a register count. -/
def execShl (ty : IntTy) (d a : VNum) (perm : Perm) (b : VNum) (mk : MNum) (s : State) : Next :=
  shiftWord (.shl ty d a perm b mk) .shl ty d a perm b true s

/-- SHR (R126). Logical shift right by a register count. -/
def execShr (ty : IntTy) (d a : VNum) (perm : Perm) (b : VNum) (mk : MNum) (s : State) : Next :=
  shiftWord (.shr ty d a perm b mk) .shr ty d a perm b false s

/-- SAR (R126). Arithmetic shift right by a register count. -/
def execSar (ty : IntTy) (d a : VNum) (perm : Perm) (b : VNum) (mk : MNum) (s : State) : Next :=
  shiftWord (.sar ty d a perm b mk) .sar ty d a perm b false s

/-- ROT (R126). Rotate right by a register count. -/
def execRot (ty : IntTy) (d a : VNum) (perm : Perm) (b : VNum) (mk : MNum) (s : State) : Next :=
  shiftWord (.rot ty d a perm b mk) .rot ty d a perm b false s

/-- SHI (R127). Shift or rotate by an immediate count. -/
def execShi (kind : ShiKind) (ty : IntTy) (d a : VNum) (n : BitVec 24) (mk : MNum) (s : State) : Next :=
  pureWord (.shi kind ty d a n mk) (fun x _ =>
    orAffine d (if kind == .l && tyLen ty == 1 then affShl (x.shape a .none) n.toNat else none)
      (outReg (tyLen ty) d.toNat ((x.src (tyLen ty) a .none).map fun u => shiftLane (shiFn kind) ty u n.toNat))) s

/-- CLZ (R128). Counts leading zero bits. -/
def execClz (ty : IntTy) (d a : VNum) (perm : Perm) (mk : MNum) (s : State) : Next :=
  intOne (.clz ty d a perm mk) ty d a perm (clzLane ty) s

/-- POPC (R128). Counts one bits. -/
def execPopc (ty : IntTy) (d a : VNum) (perm : Perm) (mk : MNum) (s : State) : Next :=
  intOne (.popc ty d a perm mk) ty d a perm (popcLane ty) s

/-- BREV (R128). Reverses the bit order. -/
def execBrev (ty : IntTy) (d a : VNum) (perm : Perm) (mk : MNum) (s : State) : Next :=
  intOne (.brev ty d a perm mk) ty d a perm (brevLane ty) s

/-- MIN (R129). Integer minimum. -/
def execMin (ty : IntTy) (d a : VNum) (perm : Perm) (b : VNum) (mk : MNum) (s : State) : Next :=
  intTwo (.min ty d a perm b mk) ty d a perm b (minLane ty) s

/-- MAX (R129). Integer maximum. -/
def execMax (ty : IntTy) (d a : VNum) (perm : Perm) (b : VNum) (mk : MNum) (s : State) : Next :=
  intTwo (.max ty d a perm b mk) ty d a perm b (maxLane ty) s

/-- ABS (R129). Integer absolute value with optional saturation. -/
def execAbs (ty : IntTy) (sat : Bool) (d a : VNum) (perm : Perm) (mk : MNum) (s : State) : Next :=
  intOne (.abs ty sat d a perm mk) ty d a perm (absLane ty sat) s

/-- SEL (R130): the chosen images; uniform when every active lane chose a uniform source and one image. -/
def selVal (act m : Mask) (u v : Lanes Pair) : Lanes Pair :=
  let pick := fun l => if inMask m l then pairLane u l else pairLane v l
  let uni := fun l => match if inMask m l then u else v with
    | .uni _ => true
    | .gen _ => false
  match maskLanes act with
  | [] => .ofFn pick
  | l :: ls => if (l :: ls).all (fun k => uni k && pick k == pick l) then .uni (pick l) else .ofFn pick

/-- SEL (R130). Selects per lane between two lane images by a mask. -/
def execSel (ty : IntTy) (d a : VNum) (perm : Perm) (b : VNum) (mc mk : MNum) (s : State) : Next :=
  pureWord (.sel ty d a perm b mc mk) (fun x _ =>
    outReg (tyLen ty) d.toNat
      (selVal x.act (x.mask mc.toNat) (x.src (tyLen ty) a perm) (x.src (tyLen ty) b .none))) s

/-- CMP (R131). Compares two registers and sets mask bits. -/
def execCmp (cond : Cond) (ty : IntTy) (md : MNum) (a : VNum) (perm : Perm) (b : VNum) (mk : MNum) (s : State) : Next :=
  pureWord (.cmp cond ty md a perm b mk) (fun x _ =>
    let u := x.src (tyLen ty) a perm
    let v := x.src (tyLen ty) b .none
    [outMask md.toNat fun l => cmpLane cond ty (pairLane u l) (pairLane v l)]) s

/-- CMPI (R131). Compares a register with an immediate or literal and sets mask bits. -/
def execCmpi (cond : Cond) (ty : IntTy) (md : MNum) (a : VNum) (imm : Imm) (mk : MNum) (s : State) : Next :=
  pureWord (.cmpi cond ty md a imm mk) (fun x _ =>
    let u := x.src (tyLen ty) a .none
    [outMask md.toNat fun l => cmpLane cond ty (pairLane u l) (immPair imm)]) s

/-- BFE (R132). Extracts a bit field. -/
def execBfe (ty : IntTy) (d a : VNum) (perm : Perm) (b : VNum) (mk : MNum) (s : State) : Next :=
  pureWord (.bfe ty d a perm b mk) (fun x _ =>
    outReg (tyLen ty) d.toNat (Lanes.map2 (bfeLane ty) (x.src (tyLen ty) a perm) (x.src 1 b .none))) s

/-- BFI (R132). Inserts a bit field. -/
def execBfi (ty : IntTy) (d a : VNum) (perm : Perm) (b c : VNum) (mk : MNum) (s : State) : Next :=
  pureWord (.bfi ty d a perm b c mk) (fun x _ =>
    outReg (tyLen ty) d.toNat (Lanes.map3 (bfiLane ty) (x.src (tyLen ty) a perm) (x.src (tyLen ty) b .none)
      (x.src 1 c .none))) s

/-- The addresses that LEA writes (R133): uniform without an offset register or with a uniform one. -/
def leaVal (x : Seat) (m : MemRef) (size : Nat) : Lanes Pair :=
  let f := fun l => intPair (laneAddr x.g m size l)
  let uni := match m.ofs with
    | none => true
    | some v => match x.g.reg v.toNat with
      | .uniform _ => true
      | _ => false
  if uni then .uni (f 0) else .ofFn f

/-- LEA (R133). Computes memory addresses without accessing memory, long-latency. -/
def execLea (size : Size) (d : VNum) (m : MemRef) (look : BitVec 4) (tok : BitVec 3) (mk : MNum) (s : State) : Next :=
  longWord (.lea size d m look tok mk) look tok.toNat [d.toNat, d.toNat + 1] []
    (fun x => outReg 2 d.toNat (leaVal x m (sizeBytes size))) s

/-- What a query reads (R134): the register for a full write. DESIGN CHOICE (log 103): PART is, for each member, the lowest
of its own slices that has an issuing lane in the part; a slice with none does not count. -/
def idsVal (t : State) (x : Seat) (q : IdsQuery) : VReg :=
  let u := fun (n : Nat) => VReg.uniform (intImg (BitVec.ofNat 32 n))
  match q with
  | .lane => .affine 0#32 1#32
  | .slice => .general (lanes32.map fun l => intImg (BitVec.ofNat 32 (l / 4)))
  | .member => u x.g.member
  | .inst => u x.g.inst
  | .role => u x.g.role
  | .core => u (coreOf x.key)
  | .device => u Config.device.toNat
  | .width => u x.g.width
  | .part => u (x.low0 / 4)
  | .context => u (ctxOf x.key)
  | .partition => u (t.partOf x.g)

/-- IDS (R134). Writes an identity query such as lane, instance or core. -/
def execIds (q : IdsQuery) (d : VNum) (mk : MNum) (s : State) : Next :=
  pureWord (.ids q d mk) (fun x t => [.reg d.toNat (idsVal t x q)]) s

/-- The mask that a kind of MLOG computes (R135). -/
def mlogVal (k : MlogKind) (a b : Mask) : Mask :=
  match k with
  | .land => a &&& b
  | .lor => a ||| b
  | .lxor => a ^^^ b
  | .landn => a &&& ~~~b
  | .lnot => ~~~a
  | .mov => a

/-- MLOG (R135). Logical operation on mask registers. -/
def execMlog (kind : MlogKind) (md ma mb mk : MNum) (s : State) : Next :=
  pureWord (.mlog kind md ma mb mk) (fun x _ => [.mask md.toNat (mlogVal kind (x.mask ma.toNat) (x.mask mb.toNat))]) s

/-- MPOP (R136). Counts active lanes set in a mask. -/
def execMpop (d : VNum) (ma mk : MNum) (s : State) : Next :=
  pureWord (.mpop d ma mk) (fun x _ =>
    [.reg d.toNat (.uniform (intImg (BitVec.ofNat 32 (popMask (x.mask ma.toNat &&& x.act)))))]) s

/-- MFIRST (R136). Writes the lowest active lane set in a mask. -/
def execMfirst (d : VNum) (ma mk : MNum) (s : State) : Next :=
  pureWord (.mfirst d ma mk) (fun x _ =>
    [.reg d.toNat (.uniform (intImg (match lowLane? (x.mask ma.toNat &&& x.act) with
      | some l => BitVec.ofNat 32 l
      | none => 0xFFFFFFFF#32)))]) s

/-- MSET (R137). Sets mask bits from a pattern or a first-n count. -/
def execMset (kind : MsetKind) (md : MNum) (imm : BitVec 24) (mk : MNum) (s : State) : Next :=
  pureWord (.mset kind md imm mk) (fun _ _ =>
    [match kind with
      | .pat => .mask md.toNat (imm.signExtend 32)
      | .first => outMask md.toNat fun l => decide (l < imm.toNat)]) s

/-! ## Pair words (R102-R104) -/

/-- The result of a compact operation of the ALU class (R103): exactly that of its full statement. -/
def compactInt (x : Seat) (c : Compact) (act : Mask) : List Out :=
  let a := c.a.setWidth 8
  let b := c.b.setWidth 8
  let d := c.d.toNat
  let x := { x with act := act }
  let u := x.src 1 a .none
  let v := x.src 1 b .none
  let two := fun (f : Pair → Pair → Pair) => outReg 1 d (Lanes.map2 f u v)
  let sh := fun (f : ShiftFn) (t : IntTy) => outReg 1 d (Lanes.map2 (fun p q => shiftLane f t p (shiftCount q)) u v)
  match c.op with
  | .nop => []
  | .movW32 => [.reg d (x.g.reg a.toNat)]
  | .addS32 => orAffine (c.d.setWidth 8) (affSum false (x.shape a .none) (x.shape b .none)) (two (addLane .s32 .wrap false))
  | .subS32 => orAffine (c.d.setWidth 8) (affSum true (x.shape a .none) (x.shape b .none)) (two (addLane .s32 .wrap true))
  | .mulS32 => orAffine (c.d.setWidth 8) (affMul (x.shape a .none) (x.shape b .none)) (two (mulLane .s32))
  | .mulhS32 => two (mulhLane .s32)
  | .mulhZ32 => two (mulhLane .z32)
  | .andW32 => two (bitsLane (· &&& ·) .w32)
  | .orW32 => two (bitsLane (· ||| ·) .w32)
  | .xorW32 => two (bitsLane (· ^^^ ·) .w32)
  | .shlW32 =>
    let aff := match x.shape b .none with
      | .uniform y => affShl (x.shape a .none) (y.val.toNat % 256)
      | _ => none
    orAffine (c.d.setWidth 8) aff (sh .shl .w32)
  | .shrW32 => sh .shr .w32
  | .sarS32 => sh .sar .s32
  | .rotW32 => sh .rot .w32
  | .minS32 => two (minLane .s32)
  | .maxS32 => two (maxLane .s32)
  | .minZ32 => two (minLane .z32)
  | .maxZ32 => two (maxLane .z32)
  | .absS32 => outReg 1 d (u.map (absLane .s32 false))
  | .clzW32 => outReg 1 d (u.map (clzLane .w32))
  | .popcW32 => outReg 1 d (u.map (popcLane .w32))
  | .brevW32 => outReg 1 d (u.map (brevLane .w32))
  | _ => []

end Sys2Proof.Machine
end

