-- ==== Sys2Proof/Machine/Float.lean ====
section
/-! DEFINITION. The meanings of the floating-point and significance instructions (R192-R219) and of the pair word
(R102-R104). -/

namespace Sys2Proof.Machine

/-- An FP word of two sources of one class. -/
def fpTwo (i : Instr) (c : FpCls) (d a : VNum) (p : Perm) (b : VNum) (f : FpCls → Pair → Pair → Pair)
    (det : FpCls → Pair → Pair → Nat) (s : State) : Next :=
  fpWord i c d.toNat (fun x => Lanes.map2 (f c) (x.src (clsLen c) a p) (x.src (clsLen c) b .none))
    (fun x l => (Lanes.map2 (det c) (x.src (clsLen c) a p) (x.src (clsLen c) b .none)).at 0 l) s

/-- An FP word of one source. -/
def fpOne (i : Instr) (c : FpCls) (d a : VNum) (srcLen : Nat) (p : Perm) (f : Pair → Pair) (det : Pair → Nat)
    (s : State) : Next :=
  fpWord i c d.toNat (fun x => (x.src srcLen a p).map f) (fun x l => ((x.src srcLen a p).map det).at 0 l) s

/-- A long-latency approximation (R204-R207). -/
def approxWord (i : Instr) (f : ApproxFn) (c : FpCls) (d a : VNum) (p : Perm) (look : BitVec 4) (s : State) : Next :=
  fpLongWord i c d.toNat look (fun x => (x.src (clsLen c) a p).map (approx f c))
    (fun x l => ((x.src (clsLen c) a p).map (approxDetail f c)).at 0 l) s

/-- FADD (R197). Floating add rounded to odd with trust tag. -/
def execFadd (cls : FpCls) (d a : VNum) (perm : Perm) (b : VNum) (mk : MNum) (s : State) : Next :=
  fpTwo (.fadd cls d a perm b mk) cls d a perm b faddLane faddDetail s

/-- FSUB (R197). Floating subtract rounded to odd with trust tag. -/
def execFsub (cls : FpCls) (d a : VNum) (perm : Perm) (b : VNum) (mk : MNum) (s : State) : Next :=
  fpTwo (.fsub cls d a perm b mk) cls d a perm b fsubLane fsubDetail s

/-- FMUL (R197). Floating multiply rounded to odd with trust tag. -/
def execFmul (cls : FpCls) (d a : VNum) (perm : Perm) (b : VNum) (mk : MNum) (s : State) : Next :=
  fpTwo (.fmul cls d a perm b mk) cls d a perm b fmulLane fmulDetail s

/-- FMIN (R199). Writes the lesser image whole. -/
def execFmin (cls : FpCls) (d a : VNum) (perm : Perm) (b : VNum) (mk : MNum) (s : State) : Next :=
  fpTwo (.fmin cls d a perm b mk) cls d a perm b (fMinMax false) fminmaxDetail s

/-- FMAX (R199). Writes the greater image whole. -/
def execFmax (cls : FpCls) (d a : VNum) (perm : Perm) (b : VNum) (mk : MNum) (s : State) : Next :=
  fpTwo (.fmax cls d a perm b mk) cls d a perm b (fMinMax true) fminmaxDetail s

/-- FFMA (R198). Fused multiply-add rounded once to odd. -/
def execFfma (cls : FpCls) (d a : VNum) (perm : Perm) (b c : VNum) (mk : MNum) (s : State) : Next :=
  let v := fun (x : Seat) => Lanes.map3 (ffmaLane cls) (x.src (clsLen cls) a perm) (x.src (clsLen cls) b .none)
    (x.src (clsLen cls) c .none)
  let n := fun (x : Seat) => Lanes.map3 (ffmaDetail cls) (x.src (clsLen cls) a perm) (x.src (clsLen cls) b .none)
    (x.src (clsLen cls) c .none)
  fpWord (.ffma cls d a perm b c mk) cls d.toNat v (fun x l => (n x).at 0 l) s

/-- FSCALE (R200). Multiplies by a power of two. -/
def execFscale (cls : FpCls) (d a : VNum) (perm : Perm) (b : VNum) (mk : MNum) (s : State) : Next :=
  let v := fun (x : Seat) => Lanes.map2 (fscaleLane cls) (x.src (clsLen cls) a perm) (x.src 1 b .none)
  let n := fun (x : Seat) => Lanes.map2 (fun y z => oneDetail cls cls (fun p => fscaleLane cls p z) y)
    (x.src (clsLen cls) a perm) (x.src 1 b .none)
  fpWord (.fscale cls d a perm b mk) cls d.toNat v (fun x l => (n x).at 0 l) s

/-- FREXP (R201). Extracts significand or exponent. -/
def execFrexp (part : FrexpSel) (cls : FpCls) (d a : VNum) (perm : Perm) (mk : MNum) (s : State) : Next :=
  match part with
  | .sig => fpOne (.frexp part cls d a perm mk) cls d a (clsLen cls) perm (frexpSigLane cls)
      (oneDetail cls cls (frexpSigLane cls)) s
  | .exp => pureWord (.frexp part cls d a perm mk) (fun x _ =>
      outReg 1 d.toNat ((x.src (clsLen cls) a perm).map (frexpExpLane cls))) s

/-- FCMP (R202). Floating compare into a mask, optionally exact-aware. -/
def execFcmp (cond : FCond) (x : Bool) (cls : FpCls) (md : MNum) (a : VNum) (perm : Perm) (b : VNum) (mk : MNum)
    (s : State) : Next :=
  pureWord (.fcmp cond x cls md a perm b mk) (fun y _ =>
    let u := y.src (clsLen cls) a perm
    let v := y.src (clsLen cls) b .none
    [outMask md.toNat fun l => fcmpLane cond x cls (pairLane u l) (pairLane v l)]) s

/-- FCLASS (R203). Classifies an image and reports tag bits. -/
def execFclass (cls : FpCls) (d a : VNum) (perm : Perm) (mk : MNum) (s : State) : Next :=
  pureWord (.fclass cls d a perm mk) (fun x _ =>
    outReg 1 d.toNat ((x.src (clsLen cls) a perm).map (fclassLane cls))) s

/-- FRCP (R204). Long-latency reciprocal approximation. -/
def execFrcp (cls : FpCls) (d a : VNum) (perm : Perm) (look : BitVec 4) (mk : MNum) (s : State) : Next :=
  approxWord (.frcp cls d a perm look mk) .rcp cls d a perm look s

/-- FRSQ (R204). Long-latency reciprocal square root approximation. -/
def execFrsq (cls : FpCls) (d a : VNum) (perm : Perm) (look : BitVec 4) (mk : MNum) (s : State) : Next :=
  approxWord (.frsq cls d a perm look mk) .rsq cls d a perm look s

/-- FEXP2 (R204). Long-latency base-2 exponential approximation. -/
def execFexp2 (cls : FpCls) (d a : VNum) (perm : Perm) (look : BitVec 4) (mk : MNum) (s : State) : Next :=
  approxWord (.fexp2 cls d a perm look mk) .exp2 cls d a perm look s

/-- FLOG2 (R204). Long-latency base-2 logarithm approximation. -/
def execFlog2 (cls : FpCls) (d a : VNum) (perm : Perm) (look : BitVec 4) (mk : MNum) (s : State) : Next :=
  approxWord (.flog2 cls d a perm look mk) .log2 cls d a perm look s

/-- FSIN (R204). Long-latency sine in half-turns approximation. -/
def execFsin (cls : FpCls) (d a : VNum) (perm : Perm) (look : BitVec 4) (mk : MNum) (s : State) : Next :=
  approxWord (.fsin cls d a perm look mk) .sin cls d a perm look s

/-- FCOS (R204). Long-latency cosine in half-turns approximation. -/
def execFcos (cls : FpCls) (d a : VNum) (perm : Perm) (look : BitVec 4) (mk : MNum) (s : State) : Next :=
  approxWord (.fcos cls d a perm look mk) .cos cls d a perm look s

/-- FCVT (R208). Converts between FP classes, widening exactly or narrowing to odd. -/
def execFcvt (dst src : FpCls) (d a : VNum) (perm : Perm) (mk : MNum) (s : State) : Next :=
  fpOne (.fcvt dst src d a perm mk) dst d a (clsLen src) perm (fcvtLane dst src) (fcvtDetail dst src) s

/-- FCVTI (R209). Converts FP to integer with final rounding and saturation. -/
def execFcvti (ty : IntTy) (cls : FpCls) (d a : VNum) (perm : Perm) (rnd : Rnd) (mk : MNum) (s : State) : Next :=
  pureWord (.fcvti ty cls d a perm rnd mk) (fun x _ =>
    outReg (tyLen ty) d.toNat ((x.src (clsLen cls) a perm).map (fcvtiLane ty cls (modeOf rnd x.g.rndctl)))) s

/-- ICVTF (R210). Converts integer to FP rounded to odd. -/
def execIcvtf (cls : FpCls) (ty : IntTy) (d a : VNum) (perm : Perm) (mk : MNum) (s : State) : Next :=
  fpOne (.icvtf cls ty d a perm mk) cls d a (tyLen ty) perm (icvtfLane cls ty)
    (fun p => kDetail cls (icvtfLane cls ty p) false false) s

/-- FROUND (R211). Rounds to an integral value in a chosen mode. -/
def execFround (cls : FpCls) (d a : VNum) (perm : Perm) (rnd : Rnd) (mk : MNum) (s : State) : Next :=
  let v := fun (x : Seat) => (x.src (clsLen cls) a perm).map (froundLane cls (modeOf rnd x.g.rndctl))
  let n := fun (x : Seat) => (x.src (clsLen cls) a perm).map (oneDetail cls cls (froundLane cls (modeOf rnd x.g.rndctl)))
  fpWord (.fround cls d a perm rnd mk) cls d.toNat v (fun x l => (n x).at 0 l) s

/-- The format of an FPACK; DETAIL 6 where its slot's OFMT does not suit (R452). -/
def fpackFmt (ty : FpackTy) (fmt : BitVec 3) (x : Seat) (t : State) : Except Flaw FpCls :=
  match fpackCls ty (slotOfmt (t.slotOf x.g.launch fmt.toNat)) with
  | none => .error (flaw 0x01 6 x.act (BitVec.ofNat 64 fmt.toNat))
  | some f => .ok f

/-- FPACK (R212): format, rounding and saturation from the slot under `.SLOT`; an unsuitable OFMT traps (R452). DESIGN
CHOICE (log 20): an element pair that the slot's format does not have is DETAIL 3 with the MOD bits, and a nonzero C is
not looked at where the slot's format has 16 bits. -/
def execFpack (ty : FpackTy) (sat : Bool) (d a b c : VNum) (j : BitVec 2) (fmt : BitVec 3) (mk : MNum) (s : State) : Next :=
  seatWord (.fpack ty sat d a b c j fmt mk) (fun x t =>
    match fpackFmt ty fmt x t with
    | .error w => .trap w
    | .ok f =>
      if 16 / laneWidth f ≤ j.toNat then .trap (flaw 0x01 3 x.act 0xF#64)
      else
        let slot := t.slotOf x.g.launch fmt.toNat
        let mode := if ty == .slot then (match rndOfNat (slotOrnd slot) with
            | some r => r
            | none => modeOf .dyn x.g.rndctl) else modeOf .dyn x.g.rndctl
        let sat' := if ty == .slot then slotOsat slot else sat
        let z : Lanes Pair := if laneWidth f = 16 then .uni (zeroOf 1) else x.src 1 c .none
        .ok t { outs := x.give (outReg 1 d.toNat
          (Lanes.map3 (fpackLane f mode sat' j.toNat) (x.src 1 a .none) (x.src 1 b .none) z)) }) s
    (early := fun x t => match fpackFmt ty fmt x t with
      | .error w => some w
      | .ok _ => none)

/-- FUNPACK (R213). Unpacks one narrow FP element as an exact image. -/
def execFunpack (cls : FpCls) (d a : VNum) (perm : Perm) (n : BitVec 3) (mk : MNum) (s : State) : Next :=
  fpWord (.funpack cls d a perm n mk) .f32 d.toNat (fun x => (x.src 1 a perm).map (funpackLane cls n.toNat))
    (fun x l => ((x.src 1 a perm).map (funpackDetail cls n.toNat)).at 0 l) s

/-- FREDUCE (R214). Long-latency tree sum of FP images across lanes. -/
def execFreduce (cls : FpCls) (d a : VNum) (look : BitVec 4) (mk : MNum) (s : State) : Next :=
  let v := fun (x : Seat) => Lanes.uni (freduceVal cls (x.g.rd (clsLen cls) a.toNat) x.act)
  fpLongWord (.freduce cls d a look mk) cls d.toNat look v
    (fun x _ => fredDetail cls (x.g.rd (clsLen cls) a.toNat) x.act) s

/-- KGET (R215). Reads K, Kef, S, G or the tag byte. -/
def execKget (pick : KgetSel) (cls : FpCls) (d a : VNum) (perm : Perm) (mk : MNum) (s : State) : Next :=
  pureWord (.kget pick cls d a perm mk) (fun x _ =>
    outReg 1 d.toNat ((x.src (clsLen cls) a perm).map (kgetLane pick cls))) s

/-- KSET (R216). Lowers the trust count of an image. -/
def execKset (cls : FpCls) (d a : VNum) (perm : Perm) (b : VNum) (mk : MNum) (s : State) : Next :=
  let v := fun (x : Seat) => Lanes.map2 (ksetLane cls) (x.src (clsLen cls) a perm) (x.src 1 b .none)
  fpWord (.kset cls d a perm b mk) cls d.toNat v (fun _ _ => 2) s

/-- KMIN (R217). Attaches another value's doubt to an image. -/
def execKmin (cls : FpCls) (d a : VNum) (perm : Perm) (b : VNum) (mk : MNum) (s : State) : Next :=
  let v := fun (x : Seat) => Lanes.map2 (kminLane cls) (x.src (clsLen cls) a perm) (x.src (clsLen cls) b .none)
  fpWord (.kmin cls d a perm b mk) cls d.toNat v (fun _ _ => 2) s

/-- STICKY (R218). Clears or sets the inexact flag, or reads it into a mask. -/
def execSticky (kind : StickyKind) (cls : FpCls) (d a : VNum) (perm : Perm) (mk : MNum) (s : State) : Next :=
  match kind with
  | .clr => fpOne (.sticky kind cls d a perm mk) cls d a (clsLen cls) perm (stickyClrLane cls)
      (oneDetail cls cls (stickyClrLane cls)) s
  | .set => fpOne (.sticky kind cls d a perm mk) cls d a (clsLen cls) perm (stickySetLane cls) (fun _ => 2) s
  | .mask => pureWord (.sticky kind cls d a perm mk) (fun x _ =>
      let u := x.src (clsLen cls) a perm
      [outMask (d.toNat % 8) fun l => (pairLane u l).1.s]) s

/-! ## Pair words -/

/-- The result of a compact operation of the FP class (R103), with the DETAIL of each lane (R458). -/
def compactFp (x : Seat) (c : Compact) (act : Mask) : Option (Lanes Pair × Lanes Nat) :=
  let x := { x with act := act }
  let u := x.src 1 (c.a.setWidth 8) .none
  let v := x.src 1 (c.b.setWidth 8) .none
  let f := fun (g : FpCls → Pair → Pair → Pair) (n : FpCls → Pair → Pair → Nat) =>
    (Lanes.map2 (g .f32) u v, Lanes.map2 (n .f32) u v)
  match c.op with
  | .faddF32 => some (f faddLane faddDetail)
  | .fsubF32 => some (f fsubLane fsubDetail)
  | .fmulF32 => some (f fmulLane fmulDetail)
  | .fminF32 => some (f (fMinMax false) fminmaxDetail)
  | .fmaxF32 => some (f (fMinMax true) fminmaxDetail)
  | _ => none

/-- One compact operation under its mask: its results, or the significance trap it meets. -/
def compactRes (x : Seat) (c : Compact) : Except Flaw (List (Mask × Out)) :=
  let act := x.m0 &&& x.mask c.msk.toNat
  match compactFp x c act with
  | some v =>
    match floorFlaw { x with act := act } .f32 v.1 (fun l => v.2.at 0 l) with
    | some w => .error w
    | none => .ok ((outReg 1 c.d.toNat v.1).map fun o => (act, o))
  | none => .ok ((compactInt x c act).map fun o => (act, o))

/-- PAIR_WORD (R104). Issues two compact operations as one word. -/
def execPairWord (p q : Compact) (s : State) : Next :=
  seatWord (.pairWord p q) (fun x t =>
    match compactRes x p, compactRes x q with
    | .error w, _ => .trap w
    | .ok _, .error w => .trap w
    | .ok us, .ok vs => .ok t { outs := us ++ vs }) s

end Sys2Proof.Machine
end

