-- ==== Sys2Proof/Machine/Context.lean ====
section
/-! DEFINITION. A gang's context as an image (R440-R442), its size (R445), and what CTXLOAD takes from one (R443). -/

namespace Sys2Proof.Machine

/-! ## Building an image -/

/-- The lowest slice of a lane's part within its gang, over some flow records. -/
def Gang.localPart (g : Gang) (fl : List Flow) (l : Nat) : Nat :=
  (((lanes32.filter fun k => inMask g.live k && (fl.getD k Flow.blank).part == (fl.getD l Flow.blank).part).map
    (· / 4)).min?).getD 0

/-- A lane's flow record (R440), zero for a dead lane. -/
def Gang.flowRecord (g : Gang) (fl : List Flow) (l : Nat) : Word64 :=
  if inMask g.live l then
    let f := fl.getD l Flow.blank
    BitVec.ofNat 64 ((if f.rgw then 2 ^ 63 else 0) + g.localPart fl l % 8 * 2 ^ 60 + f.rem % 32 * 2 ^ 55
      + (if f.rem = 0 then 0 else f.cmask.toNat * 2 ^ 49) + f.yld.toNat * 2 ^ 47 + offOf f.pc)
  else 0#64

/-- The shape byte of a register (R440). -/
def shapeByte : VReg → Byte
  | .uniform _ => 0#8
  | .affine _ _ => 1#8
  | .general _ => 2#8

/-- A register record (R441). -/
def regRecord : VReg → List Byte
  | .uniform x => leBytes 8 (x.val.toNat + x.tag.toNat * 2 ^ 32)
  | .affine b t => leBytes 8 (b.toNat + t.toNat * 2 ^ 32)
  | .general xs =>
    (lanes32.flatMap fun l => leBytes 4 (xs.getD l zeroImg).val.toNat) ++ lanes32.map fun l => (xs.getD l zeroImg).tag

/-- The pending entries of a landed result: one per register and slice (R442). -/
def Pend.records (p : Pend) : List (List Byte) :=
  if !p.landed then []
  else p.outs.flatMap fun o => (List.range 8).filterMap fun sl =>
    let lanes := p.left.toNat / 16 ^ sl % 16
    let win := p.win.getD sl 0 % 16 + 16 * sl
    if lanes = 0 then none
    else match o with
      | .reg n v =>
        some (leBytes 4 (n % 256 + win * 256 + lanes * 2 ^ 24) ++ leBytes 4 0
          ++ ((sliceLanes sl).flatMap fun l => leBytes 4 (v.lane l).val.toNat ++ [(v.lane l).tag]) ++ leBytes 4 0)
      | .mask k bits =>
        some (leBytes 4 (k % 256 + win * 256 + 2 ^ 16 + lanes * 2 ^ 24) ++ leBytes 4 0
          ++ leBytes 20 (bits.toNat / 16 ^ sl % 16) ++ leBytes 4 0)

/-- The registers of a gang's allotment. -/
def Gang.regNums (g : Gang) : List Nat := List.range (16 * g.allot)

/-- The arrival counts of a gang in GANGGRP slot order (R44). -/
def State.arriveWords (s : State) (g : Gang) : List Word64 :=
  let ns := (s.groupsOf g).map (·.1)
  (List.range 4).map fun j => match ns[j]? with
    | some n => BitVec.ofNat 64 (Tab.at g.arr 0 n)
    | none => 0#64

/-- The words of an image up to its shapes. `now` is the flow that LANEPC shows. -/
def State.imageWords (s : State) (g : Gang) (now : List Flow) (prio : Word64) (len npend : Nat) : List Word64 :=
  let pch := (lowLane? g.live).elim 0 fun l => hndOf (now.getD l Flow.blank).pc
  let (since, idem) := match g.idem with
    | some i => (i.live.toNat, 2 ^ 63 + i.keep % 32 * 2 ^ 58 + offOf i.entry)
    | none => (0, 0)
  [BitVec.ofNat 64 (2 ^ 48 + g.allot % 32 * 2 ^ 43 + (g.slices - 1) % 8 * 2 ^ 40 + g.member % 4 * 2 ^ 38 + len % 2 ^ 32),
    BitVec.ofNat 64 (g.desig.toNat * 2 ^ 32), mkAddr pch 0, BitVec.ofNat 64 (since * 2 ^ 32 + g.live.toNat),
    BitVec.ofNat 64 idem, 0#64,
    BitVec.ofNat 64 ((List.range 8).foldl (fun n k => if k = 0 then n else n + g.tok k % 16 * 16 ^ k) 0), 0#64]
  ++ lanes32.map (g.flowRecord now)
  ++ lanes32.map (fun l => if g.inTrap then g.flowRecord g.trapFlow l else 0#64)
  ++ (List.range 8).map (fun k => if k = 0 then 0#64 else (Tab.at g.masks 0#32 k).setWidth 64)
  ++ (List.range 16).map g.hreg
  ++ [g.rndctl, g.sigfloor, g.memctl, g.idxcnt, prio, g.tcause, g.tpc, g.tlane, g.tinfo0, g.tinfo1, g.tinfo2, g.tinfo3,
    g.tstat, 0#64, 0#64, 0#64]
  ++ (List.range 8).map (fun j => Tab.at g.seen 0#32 (2 * j + 1) ++ Tab.at g.seen 0#32 (2 * j))
  ++ s.arriveWords g
  ++ [BitVec.ofNat 64 (npend % 65536), 0#64, 0#64, 0#64]

/-- The image of a gang's context. -/
def State.image (s : State) (g : Gang) (now : List Flow) (prio : Word64) : List Byte :=
  let regs := g.regNums.flatMap fun n => regRecord (g.reg n)
  let pend := g.pend.flatMap Pend.records
  let len := 0x500 + regs.length + 32 * pend.length
  (s.imageWords g now prio len pend.length).flatMap (fun w => leBytes 8 w.toNat)
    ++ ((List.range 256).map fun n => if n < 16 * g.allot then shapeByte (g.reg n) else 0xFF#8)
    ++ regs ++ pend.flatMap fun p => p

/-- The size of a gang's context as its registers stand (R445). -/
def Gang.imageSize (g : Gang) : Nat :=
  0x500 + (g.regNums.map fun n => (regRecord (g.reg n)).length).sum + 32 * (g.pend.flatMap Pend.records).length

/-! ## Checking an image (R443, R449) -/

/-- The word of an image at an offset. -/
def imageWord (bs : List Byte) (o : Nat) : Word64 := leWord ((bs.drop o).take 8)

/-- Bits of an image that are shown as zero, by offset. -/
def imageZeros : List (Nat × Word64) :=
  [(0x000, ones 32 6), (0x008, ones 0 32), (0x010, ones 0 40), (0x020, ones 40 18), (0x028, ones 0 64),
    (0x030, ones 0 4 ||| ones 32 32), (0x038, ones 0 64)]
  ++ (List.range 64).map (fun i => (0x040 + 8 * i, ones 40 7))
  ++ [(0x240, ones 0 64)] ++ (List.range 7).map (fun i => (0x248 + 8 * i, ones 32 32))
  ++ [(0x300, ones 8 56 ||| ones 0 4), (0x308, ones 6 58), (0x310, ones 1 63), (0x318, ones 32 32), (0x320, ones 13 51),
    (0x328, ones 25 39), (0x338, ones 5 27), (0x360, ones 3 61), (0x368, ones 0 64), (0x370, ones 0 64),
    (0x378, ones 0 64), (0x3E0, ones 16 48), (0x3E8, ones 0 64), (0x3F0, ones 0 64), (0x3F8, ones 0 64)]

/-- Whether a flow record holds what R440 allows for a lane. -/
def flowOk (live : BitVec 32) (l : Nat) (w : Word64) : Bool :=
  let rem := fieldOf w 55 5
  decide (rem ≤ 16) && (rem != 0 || fieldOf w 49 6 = 0) && (inMask live l || fieldOf w 0 40 = 0)

/-- The size of a register record by its shape byte. -/
def recordSize (b : Byte) : Option Nat :=
  if b = 0#8 || b = 1#8 then some 8 else if b = 2#8 then some 160 else none

/-- The length that the shapes and the pending count of an image make, none where a shape byte is not one. -/
def imageLength? (g : Gang) (bs : List Byte) : Option Nat :=
  let shapes := (bs.drop 0x400).take 256
  let sizes := (indexFrom 0 shapes).map fun nb =>
    if nb.1 < 16 * g.allot then recordSize nb.2 else if nb.2 = 0xFF#8 then some 0 else none
  if sizes.all Option.isSome then
    some (0x500 + (sizes.map (·.getD 0)).sum + 32 * fieldOf (imageWord bs 0x3E0) 0 16)
  else none

/-- Whether the first 0x500 bytes of an image pass, for a gang. -/
def State.headOk (s : State) (g : Gang) (bs : List Byte) : Bool :=
  let h := imageWord bs 0
  let live := BitVec.ofNat 32 (imageWord bs 0x018).toNat
  let active := (imageWord bs 0x360).getLsbD 0
  fieldOf h 48 16 = 1 && fieldOf h 43 5 = g.allot && fieldOf h 40 3 + 1 = g.slices && fieldOf h 38 2 = g.member
    && imageLength? g bs == some (fieldOf h 0 32)
    && imageZeros.all (fun z => imageWord bs z.1 &&& z.2 == 0#64)
    && (live &&& ~~~g.live) == 0#32
    && lanes32.all (fun l => flowOk live l (imageWord bs (0x040 + 8 * l)) && flowOk live l (imageWord bs (0x140 + 8 * l))
      && (active || imageWord bs (0x140 + 8 * l) == 0#64))
    && (List.range 4).all (fun j => decide (j < (s.groupsOf g).length) || imageWord bs (0x3C0 + 8 * j) == 0#64)
    && decide (fieldOf (imageWord bs 0x300) 5 3 ≤ 4) && decide (fieldOf (imageWord bs 0x308) 0 6 ≤ 55)

/-- Whether a pending entry has its zero fields. -/
def pendOk (p : List Byte) : Bool :=
  let w := imageWord p 0
  (w &&& (ones 15 1 ||| ones 17 7 ||| ones 28 4 ||| ones 32 32)) == 0#64 && leNat ((p.drop 28).take 4) = 0

/-- The register records that follow the shapes: each register with what is left. -/
def takeRegs (shapes : List Byte) (bs : List Byte) : List VReg × List Byte :=
  shapes.foldl (fun (acc : List VReg × List Byte) b =>
    let rest := acc.2
    let w := imageWord rest 0
    if b = 2#8 then
      let xs := lanes32.map fun l => (⟨BitVec.ofNat 32 (leNat ((rest.drop (4 * l)).take 4)), rest.getD (128 + l) 0#8⟩ : Img)
      (acc.1 ++ [.general xs], rest.drop 160)
    else if b = 1#8 then (acc.1 ++ [.affine (BitVec.ofNat 32 (fieldOf w 0 32)) (BitVec.ofNat 32 (fieldOf w 32 32))], rest.drop 8)
    else (acc.1 ++ [.uniform ⟨BitVec.ofNat 32 (fieldOf w 0 32), BitVec.ofNat 8 (fieldOf w 32 8)⟩], rest.drop 8)) ([], bs)

/-- Whether the uniform records among the register records have their zero bits (R441). -/
def regsOk (shapes : List Byte) (bs : List Byte) : Bool :=
  (shapes.foldl (fun (acc : Bool × List Byte) b =>
    if b = 2#8 then (acc.1, acc.2.drop 160)
    else (acc.1 && (b != 0#8 || fieldOf (imageWord acc.2 0) 40 24 == 0), acc.2.drop 8)) (true, bs)).1

/-- Whether the whole of an image passes. -/
def State.imageOk (s : State) (g : Gang) (bs : List Byte) : Bool :=
  s.headOk g bs &&
    let shapes := (bs.drop 0x400).take (16 * g.allot)
    let regs := takeRegs shapes (bs.drop 0x500)
    regsOk shapes (bs.drop 0x500) && (List.range (fieldOf (imageWord bs 0x3E0) 0 16)).all (fun i => pendOk (regs.2.drop (32 * i)))

/-! ## Taking an image (R443) -/

/-- The header of the clause that a word stands in: the nearest one before it. -/
def State.headerBefore (s : State) (pno core : Nat) (pc : Word64) : Word64 :=
  (((List.range 16).map fun k => mkAddr (hndOf pc) ((offOf pc + 2 ^ 40 - 8 * (k + 1)) % 2 ^ 40)).find? fun a =>
    s.headerAt pno core a).getD pc

/-- A lane's flow from its record. The part is named by its slice in the team; the word that a lane waits at is read again. -/
def flowFrom (member pch : Nat) (hdr word : Word64 → Word64) (w : Word64) : Flow :=
  let pc := mkAddr pch (fieldOf w 0 40)
  let rem := fieldOf w 55 5
  ⟨pc, if rem = 0 then 0#64 else hdr pc, rem, BitVec.ofNat 6 (fieldOf w 49 6), BitVec.ofNat 2 (fieldOf w 47 2), w.getLsbD 63,
    8 * member + fieldOf w 60 3, if w.getLsbD 63 then word pc else 0#64⟩

/-- A pending result from its entry. -/
def pendFrom (id : Nat) (p : List Byte) : Pend :=
  let w := imageWord p 0
  let sl := fieldOf w 12 3
  let n := fieldOf w 0 8
  let left : BitVec 32 := BitVec.ofNat 32 (fieldOf w 24 4 * 16 ^ sl)
  let win := (List.range 8).map fun k => if k = sl then fieldOf w 8 4 else 0
  if fieldOf w 16 1 = 1 then
    ⟨id, [], [n], left, win, true, [.mask n (BitVec.ofNat 32 (leNat ((p.drop 8).take 1) % 16 * 16 ^ sl))], 0, false, true⟩
  else
    let img := fun (j : Nat) =>
      (⟨BitVec.ofNat 32 (leNat ((p.drop (8 + 5 * j)).take 4)), BitVec.ofNat 8 (leNat ((p.drop (12 + 5 * j)).take 1))⟩ : Img)
    let v : VReg := .general (lanes32.map fun l => if l / 4 = sl then img (l % 4) else zeroImg)
    ⟨id, [n], [], left, win, true, [.reg n v], 0, false, true⟩

/-- The gang that an image makes of a gang: every field but IDENT, TOKS and ARRIVE. -/
def Gang.takeImage (g : Gang) (bs : List Byte) (hdr word : Word64 → Word64) (next : Nat) : Gang :=
  let w := imageWord bs
  let pch := fieldOf (w 0x010) 40 24
  let live : BitVec 32 := BitVec.ofNat 32 (w 0x018).toNat
  let regs := takeRegs ((bs.drop 0x400).take (16 * g.allot)) (bs.drop 0x500)
  let rt : Tab VReg := (indexFrom 0 regs.1).filter fun r => r.2 != VReg.zero
  let hregs : Tab Word64 := ((List.range 16).map fun k => (k, w (0x280 + 8 * k))).filter fun h => h.2 != 0#64
  let ist := w 0x020
  let keep := fieldOf ist 58 5
  let flow := fun o => lanes32.map fun l =>
    if inMask live l then flowFrom g.member pch hdr word (w (o + 8 * l)) else Flow.blank
  let fate := fun (l : Nat × Life) => if l.2 == .live && !inMask live l.1 then Life.exited else l.2
  let prio := w 0x320
  { g with
    life := (indexFrom 0 g.life).map fate
    flow := flow 0x040
    trapFlow := flow 0x140
    regs := rt
    masks := ((List.range 8).map fun k => (k, BitVec.ofNat 32 (w (0x240 + 8 * k)).toNat)).filter fun m => m.1 != 0 && m.2 != 0#32
    hregs := hregs
    sigfloor := w 0x308
    rndctl := w 0x300
    memctl := w 0x310
    idxcnt := w 0x318
    qpri := fieldOf prio 10 3
    own := fieldOf prio 3 3
    ownNow := fieldOf prio 3 3
    base := fieldOf prio 0 3
    tcause := w 0x328
    tmark := w 0x328
    tpc := w 0x330
    tlane := w 0x338
    tinfo0 := w 0x340
    tinfo1 := w 0x348
    tinfo2 := w 0x350
    tinfo3 := w 0x358
    tstat := w 0x360
    seen := (List.range 16).map fun k => (k, BitVec.ofNat 32 (fieldOf (w (0x380 + 8 * (k / 2))) (32 * (k % 2)) 32))
    idem := if ist.getLsbD 63 then
        some ⟨mkAddr pch (fieldOf ist 0 40), keep, BitVec.ofNat 32 (fieldOf (w 0x018) 32 32),
          rt.filter (fun r => decide (r.1 < 16 * keep)), hregs⟩
      else none
    pend := (g.pend.filter fun p => !p.landed) ++
      (List.range (fieldOf (w 0x3E0) 0 16)).map fun i => pendFrom (next + i) (regs.2.drop (32 * i)) }

/-- A gang's own return from its handler (R431): the loaded flow resumes, and the parts stand as its slices issue. -/
def State.returnAlone (s : State) (key : Nat) : State :=
  match s.gang? key with
  | none => s
  | some g =>
    let g := { g with tgroup := g.trapGroup }
    let s := s.setGang key ((g.leaveTrap false (s.clauseLen (s.partOf g) (coreOf key))).flush s.tick)
    if 1 < g.mates.length then s.resplit key none
    else (((s.gang? key).elim [] fun g => g.sliceNums.filterMap g.slicePart?).dedup).foldl (fun (s : State) p => s.resplit key (some p)) s

/-! ## CTXLOAD (R443) -/

/-- The bytes a CTXLOAD has read. -/
def Entry.image (e : Entry) : List Byte := e.got.map (·.2)

/-- Status 3 in Vd: the image is refused. -/
def ctxRefused (d : Nat) : List Out := outWord d 3#64

end Sys2Proof.Machine
end

