-- ==== Sys2Proof/Machine/SchedOps.lean ====
section
/-! DEFINITION. The meanings of the scheduling instructions: barriers (R371, R372, R460), YIELD and PRIO (R361, R362,
R367), IDEM regions (R374, R451), QPOST (R375, R470), and EXIT (R33, R145). -/

namespace Sys2Proof.Machine

/-! ## Priority classes (R361, R371) -/

/-- The groups that a gang waits on at BARW or BARS: its team's lead keeps the waiting words, and a BARS that is held at
issue while an earlier arrival is open. -/
def State.waitsOn (s : State) (g : Gang) : List Nat :=
  match s.gang? (g.mates.headD 0) with
  | none => []
  | some lead =>
    (lead.fetched.filter fun f =>
      kindOf f.word == 0#2 &&
        ((lead.waitsAt f.part f.pc && (opcOf f.word == 0xE9#8 || opcOf f.word == 0xEA#8))
          || (f.merged && opcOf f.word == 0xEA#8
            && decide (s.phase lead.launch (fieldOf f.word 0 8) < Tab.at lead.arr 0 (fieldOf f.word 0 8))))).map
        fun f => fieldOf f.word 0 8

/-- Whether a gang is an unarrived member of a group (R371). -/
def State.unarrived (s : State) (k n : Nat) (grp : Group) : Bool :=
  match s.gang? k with
  | some g => g.alive && grp.members.contains g.desig && decide (Tab.at g.arr 0 n = s.phase g.launch n)
  | none => false

/-- The class that a gang inherits, given the class that each group of its launch passes on. -/
def State.inherits (s : State) (l : Launch) (cls : List Nat) (k : Nat) : Nat :=
  ((indexFrom 0 l.groups).filter fun ig => s.unarrived k ig.1 ig.2).foldl (fun m ig => max m (cls.getD ig.1 0)) 0

/-- One more round of inheritance: a group passes on the highest effective class of the gangs that wait on it. -/
def State.classRound (s : State) (l : Launch) (cls : List Nat) : List Nat :=
  (indexFrom 0 l.groups).map fun ig =>
    (l.gangs.map (·.2)).foldl (fun m k =>
      match s.gang? k with
      | some g =>
        if g.alive && ig.2.members.contains g.desig && (s.waitsOn g).contains ig.1 then max m (max g.ownNow (s.inherits l cls k))
        else m
      | none => m) 0

/-- The classes that the groups of a launch pass on: as many rounds as there are groups reach them all. -/
def State.groupClasses (s : State) (l : Launch) : List Nat :=
  (List.range (l.groups.length + 1)).foldl (fun cls _ => s.classRound l cls) (l.groups.map fun _ => 0)

/-- The class that a gang inherits (R371). -/
def State.inherited (s : State) (k : Nat) : Nat :=
  match (s.gang? k).bind fun g => s.launch? g.launch with
  | some l => s.inherits l (s.groupClasses l) k
  | none => 0

/-- EFF of a gang (R361): OWN counts from the gang's next clause on (R362). -/
def State.effClass (s : State) (k : Nat) : Nat := max ((s.gang? k).elim 0 (·.ownNow)) (s.inherited k)

/-- GANGPRIO (R361). -/
def State.gangprio (s : State) (k : Nat) : Word64 :=
  match s.gang? k with
  | none => 0#64
  | some g =>
    BitVec.ofNat 64 (g.qpri % 8 * 1024 + (if g.own < s.inherited k then 512 else 0) + s.effClass k % 8 * 64 + g.own % 8 * 8
      + g.base % 8)

/-! ## Barriers (R372, R460) -/

/-- The group of a gang's launch by number. -/
def State.group? (s : State) (x : Seat) (g : Nat) : Option Group := (s.launch? x.g.launch).bind fun l => l.groups[g]?

/-- What the group number of a barrier instruction meets. -/
def State.barFlaw (s : State) (x : Seat) (g : Nat) : Option Flaw :=
  match s.group? x g with
  | none => some (flaw 0x09 1 x.act (BitVec.ofNat 64 g))
  | some grp =>
    if !grp.members.contains x.g.desig then some (flaw 0x09 2 x.act (BitVec.ofNat 64 g))
    else if !grp.bar then some (flaw 0x09 3 x.act (BitVec.ofNat 64 g))
    else none

/-- The arrival count of a seat on a group. -/
def Seat.arrivals (x : Seat) (g : Nat) : Nat := Tab.at x.g.arr 0 g
/-- The phase count of a group as a seat sees it. -/
def State.phaseFor (s : State) (x : Seat) (g : Nat) : Nat := s.phase x.g.launch g

/-- A member arrives: its count rises and its release waits for its gate (R268). -/
def State.arrive (s : State) (x : Seat) (g tok : Nat) : State :=
  (s.updGang x.key fun y => { y with arr := Tab.upd y.arr 0 g (· + 1) }).putRel x (.barrier g) [] (s.openEntries x.key) none tok

/-- BARV (R372): an arrival. -/
def execBarv (g : BitVec 8) (tok : BitVec 3) (s : State) : Next :=
  seatWord (.barv g tok) (fun x t =>
    match t.barFlaw x g.toNat with
    | some f => .trap f
    | none =>
      if !t.rejoined then .wait State.waitRegang
      else if t.phaseFor x g.toNat < x.arrivals g.toNat then stall
      else .ok (t.arrive x g.toNat tok.toNat) {}) s

/-- A member passes its wait (R269, R270). -/
def State.passBarrier (s : State) (x : Seat) (g : Nat) : State := s.acquire x.key (.barrier x.g.launch g)

/-- BARW (R372): a wait. -/
def execBarw (g : BitVec 8) (s : State) : Next :=
  seatWord (.barw g) (fun x t =>
    match t.barFlaw x g.toNat with
    | some f => .trap f
    | none =>
      if x.arrivals g.toNat ≤ t.phaseFor x g.toNat then .ok (t.passBarrier x g.toNat) {}
      else .wait fun s => s.holdWord true false) s

/-- Whether the unit has arrived at its BARS already: it waits at the word. -/
def State.hasArrived (s : State) : Bool :=
  (s.gang? s.cur.key).elim false fun g => g.waitsAt s.cur.part s.cur.pc

/-- All members of the unit arrive and then wait at the word. -/
def State.arriveAll (s : State) (g : Nat) : State :=
  ((s.seats 0).foldl (fun s x => (s.arrive x g 0).endIdem x.key) s).holdWord true true

/-- BARS (R372): an arrival, then a wait. -/
def execBars (g : BitVec 8) (s : State) : Next :=
  seatWord (.bars g) (fun x t =>
    match t.barFlaw x g.toNat with
    | some f => .trap f
    | none =>
      if t.hasArrived then
        if x.arrivals g.toNat ≤ t.phaseFor x g.toNat then .ok (t.passBarrier x g.toNat) {}
        else .wait fun s => s.holdWord true true
      else if !t.rejoined then .wait State.waitRegang
      else if (t.seats 0).any (fun y => decide (t.phaseFor y g.toNat < y.arrivals g.toNat)) then
        .wait fun s => s.holdWord false true
      else .wait fun s => s.arriveAll g.toNat) s

/-- The members of a group that have not arrived. -/
def State.countUnarrived (s : State) (launch n : Nat) (grp : Group) : Nat :=
  match s.launch? launch with
  | none => 0
  | some l => (grp.members.filter fun d => (l.keyOf? d).any fun k => s.unarrived k n grp).length

/-- BARQ (R372). -/
def execBarq (vd : VNum) (g : BitVec 8) (s : State) : Next :=
  seatWord (.barq vd g) (fun x t =>
    match t.barFlaw x g.toNat, t.group? x g.toNat with
    | some f, _ => .trap f
    | none, none => .ok t {}
    | none, some grp =>
      let p := t.phaseFor x g.toNat
      let v := t.countUnarrived x.g.launch g.toNat grp % 2 ^ 24 * 2 ^ 40 + p % 2 ^ 24 * 65536
        + (if p < x.arrivals g.toNat then 32768 else 0) + grp.span % 4 * 256 + grp.wire % 64
      .ok t { outs := x.give (outWord vd.toNat (BitVec.ofNat 64 v)) }) s

/-! ## YIELD and PRIO -/

/-- A gang offers its place (R367). -/
def offerPlace (i : Instr) (when_ : Core → Bool) (s : State) : Next :=
  seatWord i (fun x t =>
    .ok (if when_ (t.core (coreOf x.key)) then t.updGang x.key fun g => { g with offer := true } else t) {}) s

/-- YIELD (R367). -/
def execYield (s : State) : Next := offerPlace .yield (fun _ => true) s

/-- YIELD.BAL (R367). -/
def execYieldBal (s : State) : Next := offerPlace .yieldBal Core.high s

/-- PRIO.SET (R362). -/
def execPrioSet (k : BitVec 3) (s : State) : Next :=
  seatWord (.prioSet k) (fun x t => .ok (t.updGang x.key fun g => { g with own := min k.toNat g.qpri }) {}) s

/-- PRIO.RESTORE (R362). -/
def execPrioRestore (s : State) : Next :=
  seatWord .prioRestore (fun x t => .ok (t.updGang x.key fun g => { g with own := g.base }) {}) s

/-! ## IDEM regions (R374) -/

/-- The registers that a region keeps: V0 to V(16k−1). -/
def Gang.keptRegs (g : Gang) (k : Nat) : Tab VReg := g.regs.filter fun r => decide (r.1 < 16 * k)

/-- IDEM.BEGIN (R374, R451): the entry must be a clause header; a restart at another word traps there (R454). -/
def execIdemBegin (keep : BitVec 8) (disp : BitVec 32) (s : State) : Next :=
  seatWord (.idemBegin keep disp) (fun x t =>
    if !t.united t.cur.key then .trap (flaw 0x01 7 x.act)
    else
      .ok (t.updGang x.key fun g =>
        { g with idem := some ⟨dispTarget t.cur.pc disp, keep.toNat, g.live, g.keptRegs keep.toNat, g.hregs⟩ }) {}) s

/-- IDEM.END (R374): the issue of the word ends the region. -/
def execIdemEnd (s : State) : Next := seatWord .idemEnd (fun _ t => .ok t {}) s

/-! ## QPOST (R375, R470) -/

/-- QPOST: checked, then an entry with no pieces. -/
def execQpost (vq : VNum) (hnd : HNum) (disp : BitVec 12) (stream : BitVec 4) (tok : BitVec 3) (s : State) : Next :=
  let i : Instr := .qpost vq hnd disp stream tok
  onceWord i (fun x t =>
    let queue := (x.g.pairAt vq.toNat x.low0).toNat % 65536
    let src := laneAddr x.g ⟨hnd, none, disp⟩ 16 x.low0
    let acc : Acc := ⟨x.low0, src, 64, false, true, 1, false⟩
    match t.accFlaw x [acc] with
    | some f => .trap { f with lanes := x.act }
    | none =>
      if fieldOf (t.queue queue).w1 0 5 != t.partOf x.g then .trap (flaw 0x0E 1 x.act (BitVec.ofNat 64 queue) src)
      else if offOf src % 64 != 0 then .trap (flaw 0x0E 2 x.act (BitVec.ofNat 64 queue) src)
      else
        let e := { t.newEntry i x with
          vals := [(0, [intImg (BitVec.ofNat 32 queue)])]
          addrs := [(0, src)]
          maps := match t.hnd? x.key src with
            | some h => [(hndOf src, h)]
            | none => [] }
        .ok (t.putStore x stream.toNat tok.toNat e) {}) s

/-! ## EXIT (R33, R145) -/

/-- Lanes exit; the results pending for slices left without a live lane have no window to keep (R105). -/
def Gang.kill (g : Gang) (lanes : Mask) : Gang :=
  let fate := fun (l : Nat × Life) => if inMask lanes l.1 && l.2 == .live then Life.exited else l.2
  let g := { g with life := (indexFrom 0 g.life).map fate }
  { g with pend := g.pend.map fun p =>
      { p with win := (indexFrom 0 p.win).map fun kw => if (g.live &&& sliceMask kw.1) == 0#32 then 0 else kw.2 } }

/-- A gang whose last lane has exited retires: its release waits for its gate (R270), and its team's last retirement
gives up what the team claims once all its outstanding operations have completed (R301). -/
def State.retire (s : State) (x : Seat) : State :=
  let s := s.putRel x .retire [] (s.openEntries x.key) none 0
  let c := s.core (coreOf x.key)
  let lead := s.leadOf x.key
  let held := c.heldBy lead
  if s.teamDead x.key && (held.slots != 0#32 || held.tiles != 0#8 || c.claims.any (fun q => s.sameTeam q.gang x.key)) then
    let all : Names := ⟨BitVec.allOnes 32, BitVec.allOnes 8⟩
    s.updCore (coreOf x.key) fun c =>
      { c with orels := c.orels ++ [⟨lead, all.slots, all.tiles, 0, (s.teamOps lead).map (·.1)⟩] }
  else s

/-- EXIT (R145). -/
def execExit (mk : MNum) (s : State) : Next :=
  seatWord (.exit mk) (fun x t =>
    let high := (t.core (coreOf x.key)).high
    let t := t.updGang x.key fun g =>
      let offer := g.offer || g.offersLeaving x.act high
      { (g.kill x.act).flush t.tick with offer := offer }
    let dead := (t.gang? x.key).elim false fun g => !g.alive
    .ok (if dead then t.retire x else t) {}) s

end Sys2Proof.Machine
end

