-- ==== Sys2Proof/Machine/SystemOps.lean ====
section
/-! DEFINITION. The meanings of the system instructions on a gang's own state: control registers (R427-R429), TRAP, RTE
and HALT (R430-R432), and the saving and loading of a context (R443). -/

namespace Sys2Proof.Machine

/-! ## Control registers (R44, R181, R185, R242, R317, R319, R329, R361, R365, R368, R427) -/

/-- Whether gangs may write a register (R427). -/
def csrWritable : Csr → Bool
  | .rndctl | .sigfloor | .memctl | .idxcnt | .tcause | .tpc => true
  | _ => false

/-- Bits of a writable register that are shown as zero. -/
def csrZeros : Csr → Word64
  | .rndctl => ones 8 56 ||| ones 0 4
  | .sigfloor => ones 6 58
  | .memctl => ones 1 63
  | .idxcnt => ones 32 32
  | .tcause => ones 25 39
  | _ => 0#64

/-- Whether a value may stand in a writable register (R428). -/
def csrAllows (c : Csr) (v : Word64) : Bool :=
  (v &&& csrZeros c) == 0#64 &&
    match c with
    | .rndctl => decide (fieldOf v 5 3 ≤ 4)
    | .sigfloor => decide (fieldOf v 0 6 ≤ 55)
    | _ => true

/-- GANGSTAT (R44). -/
def Gang.gangstat (g : Gang) (part : Nat) : Word64 :=
  let live := (g.sliceNums.filter fun sl => (g.live &&& sliceMask sl) != 0#32).foldl (fun n sl => n + 2 ^ sl) 0
  BitVec.ofNat 64 (g.role % 4 * 2 ^ 62 + g.member % 4 * 2 ^ 60 + g.inst % 2 ^ 28 * 2 ^ 32 + live % 256 * 2 ^ 24
    + g.partSlices part % 256 * 2 ^ 16 + (g.slices - 1) % 8 * 2 ^ 13 + (g.team - 1) % 4 * 2 ^ 11)

/-- GANGLOC (R44). -/
def State.gangloc (s : State) (key : Nat) (g : Gang) : Word64 :=
  BitVec.ofNat 64 (Config.device.toNat * 2 ^ 44 + coreOf key * 2 ^ 34 + ctxOf key * 2 ^ 28 + s.partOf g % 32 * 2 ^ 23)

/-- GANGGRP (R44). -/
def State.ganggrp (s : State) (g : Gang) : Word64 :=
  BitVec.ofNat 64 ((indexFrom 0 (((s.groupsOf g).map (·.1)).take 4)).foldl (fun n jk =>
    n + (32768 + jk.2 % 256) * 65536 ^ jk.1) 0)

/-- MXWAKE (R317). -/
def Core.mxwakeWith (c : Core) (charging : Bool) : Word64 :=
  BitVec.ofNat 64 (340 * 2 ^ 48 + c.idle.toNat * 2 ^ 32 + c.gated.toNat * 2 ^ 28
    + (if charging then 2 ^ 27 else 0) + c.wakes % 2 ^ 24)
def State.mxwake (s : State) (core : Nat) : Word64 := (s.core core).mxwakeWith (s.budgetMode core)

/-- BALSTAT (R368). -/
def Core.balstat (c : Core) : Word64 :=
  BitVec.ofNat 64 (c.stalls % 2 ^ 24 * 2 ^ 40 + c.defers % 2 ^ 24 * 2 ^ 16 + (if c.under then 256 else 0)
    + (if c.high then 128 else 0) + c.imb % 128)

/-- MXBUDGET (R319), NODECFG (R329) and SCHEDCTL (R365). -/
def Core.mxbudget (c : Core) : Word64 := BitVec.ofNat 64 (c.budget % 65536 * 2 ^ 48 + c.left % 65536 * 2 ^ 32 + c.waits % 2 ^ 32)
def Core.nodecfg (c : Core) : Word64 := if c.wplane then 1#64 else 0#64
def Core.schedctl (c : Core) : Word64 := BitVec.ofNat 64 (c.quantum % 256 * 65536 + c.swapthr % 65536)

/-- The value of a register as a member reads it. -/
def State.csrRead (s : State) (x : Seat) (c : Csr) : Word64 :=
  let core := s.core (coreOf x.key)
  match c with
  | .gangstat => x.g.gangstat s.cur.part
  | .gangloc => s.gangloc x.key x.g
  | .ganggrp => s.ganggrp x.g
  | .rndctl => x.g.rndctl
  | .sigfloor => x.g.sigfloor
  | .memctl => x.g.memctl
  | .idxcnt => x.g.idxcnt
  | .gangprio => s.gangprio x.key
  | .tcause => x.g.tcause
  | .tpc => x.g.tpc
  | .tlane => x.g.tlane
  | .tinfo0 => x.g.tinfo0
  | .tinfo1 => x.g.tinfo1
  | .tinfo2 => x.g.tinfo2
  | .tinfo3 => x.g.tinfo3
  | .tstat => x.g.tstat
  | .partsys => (s.part (s.partOf x.g)).partsys
  | .cycle => BitVec.ofNat 64 core.cycle
  | .mxwake => s.mxwake (coreOf x.key)
  | .mxbudget => core.mxbudget
  | .nodecfg => core.nodecfg
  | .schedctl => core.schedctl
  | .balstat => core.balstat

/-- A core's cycle counter moves on by the clocks that have passed (R52). -/
def State.clock (s : State) (core : Nat) : State :=
  s.updCore core fun c => { c with cycle := (c.cycle + Config.clocks s.tick) % 2 ^ 64 }

/-- Writing a register of a gang: a write to TPC is noted, and a write to TCAUSE changes only what is read (R428). -/
def Gang.csrWrite (g : Gang) (c : Csr) (v : Word64) : Gang :=
  match c with
  | .rndctl => { g with rndctl := v }
  | .sigfloor => { g with sigfloor := v }
  | .memctl => { g with memctl := v }
  | .idxcnt => { g with idxcnt := v }
  | .tcause => { g with tcause := v }
  | .tpc => { g with tpc := v, tstat := g.tstat ||| 2#64 }
  | _ => g

/-- CSRRD (R429): all members read their core's one counter in the same clock (R12, R52). -/
def execCsrrd (vd : VNum) (csr : Csr) (s : State) : Next :=
  seatWord (.csrrd vd csr) (fun x t =>
    let t := if csr == .cycle && x.first then t.clock (coreOf x.key) else t
    .ok t { outs := x.give (outWord vd.toNat (t.csrRead x csr)) }) s

/-- A write of a register from the lowest lane of M0 (R428, R429). -/
def csrWord (i : Instr) (csr : Csr) (va : VNum) (f : Word64 → Word64 → Word64) (s : State) : Next :=
  seatWord i (fun x t =>
    let v := f (t.csrRead x csr) (x.g.pairAt va.toNat x.low0)
    if !csrWritable csr then .trap (flaw 0x0F 1 x.act)
    else if !csrAllows csr v then .trap (flaw 0x0F 2 x.act)
    else .ok (t.updGang x.key fun g => g.csrWrite csr v) {}) s

/-- CSRWR (R429). -/
def execCsrwr (csr : Csr) (va : VNum) (s : State) : Next := csrWord (.csrwr csr va) csr va (fun _ v => v) s

/-- CSRWR.SET (R429). -/
def execCsrwrSet (csr : Csr) (va : VNum) (s : State) : Next := csrWord (.csrwrSet csr va) csr va (fun r v => r ||| v) s

/-- CSRWR.CLR (R429). -/
def execCsrwrClr (csr : Csr) (va : VNum) (s : State) : Next := csrWord (.csrwrClr csr va) csr va (fun r v => r &&& ~~~v) s

/-! ## TRAP, RTE, HALT (R430-R432) -/

/-- TRAP (R430): the software trap. -/
def execTrap (code : BitVec 22) (s : State) : Next :=
  seatWord (.trap code) (fun x _ => .trap (flaw 0x10 0 x.act (code.setWidth 64))) s

/-- The return of a team from its handler, once for the merged unit (R431); it leaves the handler's clause (R86). -/
def returnWord (i : Instr) (next : Bool) (s : State) : Next :=
  seatWord i (fun x t =>
    if !s.rejoined then .wait State.waitRegang
    else if !x.g.inTrap then .trap (flaw 0x11 2 x.act)
    else
      let offer := x.g.offersLeaving x.m0 (t.core (coreOf x.key)).high
      let t := if x.first then t.leaveTrap t.cur.key next else t
      .ok (t.updGang x.key fun g => { g with offer := g.offer || offer }) { stay := true }) s

/-- RTE (R431). -/
def execRte (s : State) : Next := returnWord .rte false s

/-- RTE.NEXT (R431). -/
def execRteNext (s : State) : Next := returnWord .rteNext true s

/-- HALT (R432): the launch ends with the code. -/
def execHalt (code : BitVec 8) (s : State) : Next :=
  onceWord (.halt code) (fun x t => .ok (t.haltLaunch x.g.launch code.toNat) {}) s

/-! ## CTXSAVE and CTXLOAD (R433, R443) -/

/-- CTXSAVE: the image as store pieces, once every result has landed. -/
def execCtxsave (va : VNum) (stream : BitVec 4) (tok : BitVec 3) (s : State) : Next :=
  let i : Instr := .ctxsave va stream tok
  seatWord i (fun x t =>
    if !x.g.inTrap then .trap (flaw 0x11 2 x.act)
    else
      let a := x.g.pairAt va.toNat x.low0
      let bs := t.image x.g x.g.trapFlow (t.gangprio x.key)
      match t.accFlaw x [⟨x.low0, a, bs.length, true, false, 1, false⟩] with
      | some f => .trap { f with lanes := x.act }
      | none =>
        if x.g.pend.any fun p => !p.landed then stall
        else
          let todo := t.writePieces x.key x.low0 a bs .other
          .ok (t.putStore x stream.toNat tok.toNat { t.newEntry i x with todo := todo }) {}) s

/-- CTXLOAD: the fixed part of the image is read first. -/
def execCtxload (vd va : VNum) (look stream : BitVec 4) (tok : BitVec 3) (s : State) : Next :=
  let i : Instr := .ctxload vd va look stream tok
  seatWord i (fun x t =>
    if !x.g.inTrap then .trap (flaw 0x11 2 x.act)
    else
      let a := x.g.pairAt va.toNat x.low0
      match t.accFlaw x [⟨x.low0, a, 0x500, false, true, 1, false⟩] with
      | some f => .trap { f with lanes := x.act }
      | none =>
        let e := { t.newEntry i x with
          addrs := [(0, a)]
          maps := match t.hnd? x.key a with
            | some h => [(hndOf a, h)]
            | none => []
          todo := t.readPieces x.key x.low0 a 0x500 false }
        .ok (t.putLoad x stream.toNat look.toNat tok.toNat (resultRegs vd 2) e) {}) s

/-- An image that passed: the gang takes it and returns by it; the status register is not written. Lanes that the image
does not show live have exited. An image whose TSTAT shows no handler meets the system fault of RTE. -/
def State.ctxTaken (s : State) (key : Nat) (e : Entry) (bs : List Byte) : State :=
  match s.gang? key with
  | none => s
  | some g =>
    let tok := ((g.pend.find? (fun (p : Pend) => p.id == e.pend)).map (·.tok)).getD 0
    let s := (s.updGang key fun g => { g with pend := g.pend.filter fun p => p.id != e.pend }).dropTok key tok
    let g := (s.gang? key).getD g
    let g' := g.takeImage bs (s.headerBefore (s.partOf g) (coreOf key)) (s.fetchAt (s.partOf g) (coreOf key)) s.nextId
    let s := { s.setGang key g' with nextId := s.nextId + 65536 }
    let s := if g'.alive then s else s.retire ⟨key, g', 0#32, 0#32, true⟩
    if g'.inTrap then s.returnAlone key
    else s.defer key ⟨0x11, 2, e.act, e.word, 0#64, 0#64, e.wordAt, e.born⟩

/-- The bytes that a CTXLOAD still has to read once it has the fixed part; none where the image's own length does not
fit its handle. -/
def State.ctxMore (s : State) (g : Gang) (e : Entry) (len : Nat) : Option (List Piece) :=
  let a := (Tab.find? e.addrs 0).getD 0#64
  match Tab.find? e.maps (hndOf a) with
  | none => none
  | some h =>
    if (accessFault (some h) (s.part (s.partOf g)).secure false true (offOf a) len).isSome then none
    else some ((piecesOf h none (hndOf a) ((lowLane? e.act).getD 0) false (offOf a + 0x500) (len - 0x500) [] .other).map fun p =>
      { p with pos := p.pos + 0x500 })

/-- A CTXLOAD whose pieces have performed: the fixed part is checked and the rest read, then the whole is checked. -/
def State.ctxRead (s : State) (key : Nat) (e : Entry) : State :=
  match e.instr, s.gang? key with
  | .ctxload vd _ _ stream _, some g =>
    let refuse := fun (s : State) =>
      let s := s.land key e.pend (ctxRefused vd.toNat)
      if e.bad.isEmpty then s else s.defer key e.poisonTrap
    let bs := e.image
    if !e.bad.isEmpty || !s.headOk g bs then refuse s
    else
      let len := fieldOf (imageWord bs 0) 0 32
      if bs.length < len then
        match s.ctxMore g e len with
        | some todo => s.updGang key fun g => g.setStream stream.toNat ({ e with todo := todo } :: g.stream stream.toNat)
        | none => refuse s
      else if s.imageOk g bs then s.ctxTaken key e bs else refuse s
  | _, _ => s

end Sys2Proof.Machine
end

