-- ==== Sys2Proof/Machine/HandleOps.lean ====
section
/-! DEFINITION. The instructions of a system gang: HNEW, HMAP, HREVOKE, HMIGR and CHKPT (R433-R439), and the step that
performs and completes them (HANDLE_OP_COMPLETE). -/

namespace Sys2Proof.Machine

/-! ## Issue (R433, R434) -/

/-- Whether a gang has system rights (R433). -/
def State.sysRights (s : State) (g : Gang) : Bool :=
  let w := (s.part (s.partOf g)).partsys
  w.getLsbD 16 && decide (s.queueOf g.launch = fieldOf w 0 16)

/-- An instruction of a system gang: rights, then its request block of n bytes, then an entry of its stream; every member
of the unit waits for the status. `k` is what it does at issue. -/
def systemWord (i : Instr) (vd va : VNum) (look stream : BitVec 4) (tok : BitVec 3) (n : Nat)
    (k : State → Seat → Word64 → Entry → State × Entry) (s : State) : Next :=
  onceWord i (fun x t =>
    if !t.sysRights x.g then .trap (flaw 0x11 1 x.act)
    else
      let a := x.g.pairAt va.toNat x.low0
      match if n = 0 then none else t.accFlaw x [⟨x.low0, a, n, false, true, 1, false⟩] with
      | some f => .trap { f with lanes := x.act }
      | none =>
        let e := { t.newEntry i x with
          addrs := [(0, a)]
          maps := match t.hnd? x.key a with
            | some h => [(hndOf a, h)]
            | none => [] }
        let (t, e) := k t x a e
        let (id, t) := t.addPendUnit look.toNat (resultRegs vd 2) tok.toNat
        .ok (t.putEntry x.key stream.toNat { e with id := t.nextId, pend := id }) {}) s

/-- Nothing more at issue. -/
def noMore (t : State) (_ : Seat) (_ : Word64) (e : Entry) : State × Entry := (t, e)

/-- HNEW (R435). -/
def execHnew (vd va : VNum) (look stream : BitVec 4) (tok : BitVec 3) (s : State) : Next :=
  systemWord (.hnew vd va look stream tok) vd va look stream tok 16 noMore s

/-- HMAP (R436). -/
def execHmap (vd va : VNum) (look stream : BitVec 4) (tok : BitVec 3) (s : State) : Next :=
  systemWord (.hmap vd va look stream tok) vd va look stream tok 24 noMore s

/-- Whether a handle number is a mapped one's, not predefined (R221). -/
def isMappable (h : Nat) : Bool := decide (h < 0xFFF000)

/-- The byte ranges of an extent's pieces. -/
def Handle.extent (h : Handle) : List (Nat × Nat) := h.pieces.map fun p => (p * 65536, 65536)

/-- The registered stack commands with a range in an extent lose their writes (R437, R472). -/
def State.dropStack (s : State) (pno : Nat) (h : Handle) : State :=
  ((s.rangesOf pno).filter fun r => 3 ≤ r.eng && r.eng ≤ 10 && rangesMeet (r.src ++ r.dst) h.extent).foldl (fun (s : State) r =>
    s.updOp r.core r.eng r.num fun o => { o with dropped := true }) s

/-- HREVOKE (R437, R472): the handle leaves the table at issue. The entry keeps the mapping. -/
def execHrevoke (vd va : VNum) (look stream : BitVec 4) (tok : BitVec 3) (s : State) : Next :=
  systemWord (.hrevoke vd va look stream tok) vd va look stream tok 0 (fun t x a e =>
    let pno := t.partOf x.g
    match if isMappable (hndOf a) then Tab.find? (t.part pno).handles (hndOf a) else none with
    | none => (t, { e with maps := [] })
    | some h =>
      ((t.updPart pno fun p => { p with handles := Tab.del p.handles (hndOf a) }).dropStack pno h,
        { e with maps := [(hndOf a, h)] })) s

/-- HMIGR (R438). -/
def execHmigr (vd va : VNum) (stack : BitVec 3) (look stream : BitVec 4) (tok : BitVec 3) (s : State) : Next :=
  systemWord (.hmigr vd va stack look stream tok) vd va look stream tok 0 noMore s

/-- CHKPT.SAVE (R439). -/
def execChkptSave (vd va : VNum) (look stream : BitVec 4) (tok : BitVec 3) (s : State) : Next :=
  systemWord (.chkptSave vd va look stream tok) vd va look stream tok 16 noMore s

/-- CHKPT.LOAD (R439). -/
def execChkptLoad (vd va : VNum) (look stream : BitVec 4) (tok : BitVec 3) (s : State) : Next :=
  systemWord (.chkptLoad vd va look stream tok) vd va look stream tok 16 noMore s

/-! ## Pieces of device memory (R222, R224, R435) -/

/-- Pieces of device memory, and of one stack, of a package. -/
def devicePieces : Nat := 6291456
def stackPieces : Nat := 786432

/-- The device pieces that an extent names. -/
def Handle.devPieces (h : Handle) : List Nat := if attrSpace h.attr = 0 then h.pieces else []

/-- The extents of a partition that HREVOKE has taken at its issue and whose operation has not reached its stream's head. -/
def State.revoking (s : State) (pno : Nat) : List Handle :=
  (s.gangs.filter fun kg => s.partOf kg.2 == pno).flatMap fun kg => kg.2.streams.flatMap fun st => st.2.flatMap fun e =>
    match e.instr with
    | .hrevoke .. => e.maps.map (·.2)
    | _ => []

/-- The pieces that a partition holds: those of its extents, and those that a revocation has not given back, from its issue
until its operation completes (R437). -/
def State.heldPieces (s : State) (pno : Nat) : List Nat :=
  (((s.part pno).handles.flatMap fun h => h.2.devPieces) ++ (s.revoking pno).flatMap Handle.devPieces ++
    s.hops.flatMap fun o => if o.pno = pno then (o.handle.elim [] fun h => h.2.devPieces) else []).dedup

/-- The pieces of all partitions. -/
def State.allHeld (s : State) : List Nat := (s.parts.flatMap fun p => s.heldPieces p.1)

/-- Candidate pieces of a stack: those moved into it, and as many from its own numbers as surely hold a free one. -/
def State.candidates (s : State) (stack n : Nat) : List Nat :=
  ((s.pieceStack.filter fun m => m.2 == stack).map (·.1)) ++
    ((List.range (min n stackPieces)).map (stack * stackPieces + ·)).filter fun p => s.stackOf p == stack

/-- A free piece of a stack, the free value's choice where it is one. -/
def State.freePiece? (s : State) (taken : List Nat) (stack place : Nat) : Option Nat :=
  let want := Config.pickPiece s.tick place
  if decide (want < devicePieces) && s.stackOf want == stack && !taken.contains want then some want
  else (s.candidates stack (taken.length + s.pieceStack.length + 1)).find? fun p => !taken.contains p

/-- A free piece of one of some stacks: the stack of the free value's choice first. -/
def State.freeOf? (s : State) (taken stacks_ : List Nat) (place : Nat) : Option Nat :=
  let st := s.stackOf (Config.pickPiece s.tick place)
  (if stacks_.contains st then s.freePiece? taken st place else none).orElse fun _ =>
    stacks_.findSome? fun q => s.freePiece? taken q place

/-- The pieces of a new extent: LINEAR with the first in its stack, INTERLEAVED with the eight of each group from the
eight stacks. -/
def State.takePieces (s : State) (lin : Bool) (stack n : Nat) : Option (List Nat) :=
  ((List.range n).foldl (fun (acc : Option (List Nat × List Nat)) k =>
    acc.bind fun tg =>
      let group := tg.2.drop (k / 8 * 8)
      let from_ := if lin then (if k = 0 then [stack] else stack :: (List.range 8).filter (· != stack))
        else (List.range 8).filter fun q => !(group.map s.stackOf).contains q
      (s.freeOf? (tg.1 ++ tg.2) from_ k).map fun p => (tg.1, tg.2 ++ [p])) (some (s.allHeld, []))).map (·.2)

/-- Whether an address lies in a piece. -/
def inPiece (ps : List Nat) (a : Nat) : Bool := ps.contains (a / 65536)

/-- A write without its bytes in some pieces. -/
def GWrite.without (w : GWrite) (ps : List Nat) : GWrite :=
  { w with cells := w.cells.filter (fun c => !inPiece ps c.1), nums := w.nums.filter (fun n => !inPiece ps (n.1 * 16)) }

/-- Filling pieces with zeros: the image, views and copies, with nothing of an earlier extent to come (R435). -/
def State.zeroPieces (s : State) (ps : List Nat) : State :=
  let dev := fun (a : Nat) => decide (a < 5 * 2 ^ 39) && inPiece ps (a % 2 ^ 39)
  { s with
    mem := s.mem.filter fun c => !dev c.1
    held := s.held.filter fun c => !dev (c.1 * 16)
    top := s.top.filter fun c => !inPiece ps (c.1 * 16)
    poison := s.poison.filter fun c => !inPiece ps (c.1 * 16)
    log := (s.log.map fun (w : GWrite) => w.without ps).filter fun (w : GWrite) => !w.nums.isEmpty }.settle

/-! ## Attributes (R221, R228, R435, R436) -/

/-- Whether the tag plane of a request is allowed: mapped or clustsp/diesp, of a VALID extent in device memory or a
scratchpad without a tag plane of its own, a quarter of the length. -/
def State.tagOk (s : State) (pno core : Nat) (a : Word64) : Bool :=
  if attrTagp a then
    mayBeTagh (attrTagh a) &&
      match (s.part pno).handle? core (attrTagh a) with
      | some t => attrValid t.attr && !attrTagp t.attr && attrSpace t.attr != 1 && decide (attrBytes a ≤ 4 * attrBytes t.attr)
      | none => false
  else attrTagh a == 0

/-- Whether the attributes common to HNEW and HMAP are allowed. -/
def State.attrOk (s : State) (pno core : Nat) (a : Word64) : Bool :=
  !attrValid a && !a.getLsbD 51 && attrProp a != 3 && (attrLinear a || fieldOf a 48 3 == 0)
    && (!attrSecure a || (s.part pno).secure) && s.tagOk pno core a

/-- The handle that a request word names: its number, any free one, or none when it is taken or predefined (R435). -/
def State.wantHandle (s : State) (pno : Nat) (w : Word64) : Option Nat :=
  let hs := (s.part pno).handles
  let free := fun (h : Nat) => isMappable h && (Tab.find? hs h).isNone
  let n := fieldOf w 0 24
  if n = 0xFFFFFF then
    if free (Config.pickHandle s.tick) then some (Config.pickHandle s.tick)
    else (List.range (min (hs.length + 1) 0xFFF000)).find? free
  else if free n then some n else none

/-- A status with a handle (R435). -/
def handleWord (status handle : Nat) : Word64 := BitVec.ofNat 64 (status + handle % 2 ^ 24 * 2 ^ 40)

/-- Listing a mapped handle. -/
def State.mapHandle (s : State) (pno n : Nat) (h : Handle) : State :=
  s.updPart pno fun p => { p with handles := Tab.put p.handles n h }

/-- The lowest status code that applies, 0 when none does. -/
def lowestStatus (cs : List (Bool × Nat)) : Nat := (((cs.filter (·.1)).map (·.2)).min?).getD 0

/-- HNEW performs (R435). -/
def State.performHnew (s : State) (pno core : Nat) (attr want : Word64) : State × Word64 :=
  let n := fieldOf attr 0 24 + 1
  let lin := attrLinear attr
  let bad := !s.attrOk pno core attr || attrSpace attr != 0 || attrTso attr || (!lin && n % 8 != 0) || fieldOf want 24 40 != 0
  let room := decide ((s.heldPieces pno).length + n ≤ fieldOf ((s.part pno).word 6) 0 32)
  let ps := if bad || !room then none else s.takePieces lin (fieldOf attr 48 3) n
  match lowestStatus [(!bad && ps.isNone, 1), ((s.wantHandle pno want).isNone, 2), (bad, 3)], s.wantHandle pno want, ps with
  | 0, some h, some ps => ((s.zeroPieces ps).mapHandle pno h ⟨attr ||| ones 63 1, ps, 0⟩, handleWord 0 h)
  | st, _, _ => (s, handleWord st 0)

/-- The attribute word with the stack of a LINEAR extent's first piece (R221). -/
def State.withStack (s : State) (attr : Word64) (ps : List Nat) : Word64 :=
  if attrSpace attr = 0 && attrLinear attr then
    (attr &&& ~~~(ones 48 3)) ||| BitVec.ofNat 64 (s.stackOf (ps.headD 0) % 8 * 2 ^ 48)
  else attr

/-- The pages or pieces that an HMAP names by its source, none when the source is not valid or too short (R436). -/
def State.mapSource (s : State) (pno core : Nat) (attr src : Word64) : Option (List Nat) :=
  let n := fieldOf attr 0 24 + 1
  match s.handleAt pno core src with
  | none => none
  | some h =>
    if attrSpace attr = 1 then
      if (accessFault (some h) (s.part pno).secure false true (offOf src) (8 * n)).isSome then none
      else
        let bus := (List.range n).map fun k => (leWord (s.readBytes pno (quarterOf core) h (offOf src + 8 * k) 8)).toNat
        if bus.all (fun b => b % 65536 == 0) then some (bus.map fun b => (hostBase + b) / 65536) else none
    else
      let first := offOf src / 65536
      if attrValid h.attr && attrSpace h.attr == 0 && offOf src % 65536 == 0 && decide (first + n ≤ h.pieces.length)
          && (!attrSecure h.attr || (s.part pno).secure) then
        some ((h.pieces.drop first).take n)
      else none

/-- HMAP performs (R436). -/
def State.performHmap (s : State) (pno core : Nat) (attr want src : Word64) : State × Word64 :=
  let host := attrSpace attr = 1
  let shape := if host then attrProp attr != 0 || attrLinear attr
    else attrSpace attr != 0 || attrTso attr || (!attrLinear attr && (fieldOf attr 0 24 + 1) % 8 != 0)
  let bad := !s.attrOk pno core attr || shape || fieldOf want 24 40 != 0
  let ps := if bad then none else s.mapSource pno core attr src
  let prop := !host && match s.handleAt pno core src with
    | some h => attrProp h.attr != attrProp attr
    | none => false
  match lowestStatus [((s.wantHandle pno want).isNone, 2), (bad || (prop && ps.isSome), 3), (!bad && ps.isNone, 4)],
      s.wantHandle pno want, ps with
  | 0, some h, some ps =>
    (s.mapHandle pno h ⟨s.withStack attr ps ||| ones 63 1, ps, Config.tsoLink s.tick % 2⟩, handleWord 0 h)
  | st, _, _ => (s, handleWord st 0)

/-! ## Revocation (R437, R472) -/

/-- Whether some mappings hold a revoked one: that of its number and pieces, whose attributes HMIGR may have altered. -/
def usesMap (maps : Tab Handle) (n : Nat) (h : Handle) : Bool := (Tab.find? maps n).any fun m => m.pieces == h.pieces

/-- Whether a piece of an access goes through a revoked mapping, its bytes or its tags. -/
def Piece.through (p : Piece) (n : Nat) (h : Handle) : Bool :=
  let inside := fun (cells : List Nat) => cells.any fun a => h.pieces.contains (a / 65536)
  (hndOf p.haddr == n && inside p.cells) || (hndOf p.taddr == n && inside p.tagCells)

/-- Whether an access or an operation that was issued against a revoked mapping has not performed or completed. -/
def State.mapInUse (s : State) (pno n : Nat) (h : Handle) (self : Nat) : Bool :=
  (s.gangs.any fun kg => s.partOf kg.2 == pno && kg.2.streams.any fun st => st.2.any fun e =>
    e.id != self && (usesMap e.maps n h || e.todo.any fun p => p.through n h)) ||
  (s.atoms.any fun r => r.piece.through n h) ||
  (s.cores.any fun c => c.2.engines.any fun en => en.2.ops.any fun o => o.pno == pno && usesMap o.maps n h) ||
  (s.cores.any fun c => (c.2.mxq ++ c.2.ndq).any fun p => usesMap p.maps n h) ||
  (s.fab.any fun f => usesMap f.entry.maps n h) ||
  s.hops.any fun o => o.entry.id != self && o.pno == pno && usesMap o.entry.maps n h

/-! ## Migration (R438) -/

/-- Whether a stack command is registered on a piece. -/
def State.stackBusy (s : State) (piece : Nat) : Bool :=
  s.ranges.any fun t => t.2.any fun r => 3 ≤ r.eng && r.eng ≤ 10 && rangesMeet (r.src ++ r.dst) [(piece * 65536, 65536)]

/-- A piece stands in another stack: a free piece there takes its place here, and HATTR.STACK follows. -/
def State.movePiece (s : State) (piece stack : Nat) : State :=
  let old := s.stackOf piece
  let other := s.freePiece? s.allHeld stack 0
  let t := Tab.put s.pieceStack piece stack
  let t := match other with
    | some f => Tab.put t f old
    | none => t
  let s := { s with pieceStack := t }
  let again := fun (nh : Nat × Handle) =>
    (nh.1, if nh.2.devPieces.headD devicePieces = piece then { nh.2 with attr := s.withStack nh.2.attr nh.2.pieces } else nh.2)
  { s with parts := s.parts.map fun p => (p.1, { p.2 with handles := p.2.handles.map again }) }

/-! ## Flash saves (R439, R473, R486) -/

/-- The blocks and the pieces of a flash operation: what its request names, or the status that refuses it. -/
def State.chkptArgs (s : State) (pno core : Nat) (load : Bool) (a w : Word64) : Except Nat (Handle × Nat × Nat × Nat) :=
  let n := fieldOf w 0 32
  let first := fieldOf w 32 32
  let region := (s.part pno).word 5
  match s.handleAt pno core a with
  | none => .error 4
  | some h =>
    if attrSpace h.attr != 0 || offOf a % 65536 != 0
        || (accessFault (some h) (s.part pno).secure load (!load) (offOf a) (65536 * n)).isSome then .error 4
    else if fieldOf region 0 32 < first + n then .error 6
    else .ok (h, offOf a, n, fieldOf region 32 32 + first)

/-- The physical range of a flash operation. -/
def chkptRange (h : Handle) (o n : Nat) : List (Nat × Nat) :=
  (List.range (n * 16)).map fun k => (h.phys (o + 4096 * k), 4096)

/-- Copying the poison marks of a run of bytes (R486). -/
def State.copyPoison (s : State) (src dst : Nat → Nat) (n : Nat) : State :=
  if s.poison.isEmpty then s
  else
    { s with poison := (List.range (n / 16)).foldl (fun p k =>
        if (Tab.find? s.poison (src (16 * k) / 16)).isSome then Tab.put p (dst (16 * k) / 16) ()
        else Tab.del p (dst (16 * k) / 16)) s.poison }

/-- Of some addresses read at once, those whose transfer fails (R480, R504), as places in the list; the reads are over then. -/
def State.failedAt (s : State) (cells : List Nat) : List Nat :=
  if s.lost.isEmpty then []
  else ((indexFrom 0 cells).filter fun ia => s.lost.any fun b => poisonUnit ia.2 == poisonUnit b).map (·.1)

/-- The bytes of a flash operation move, with their poison; what fails to arrive counts as poisoned (R480). -/
def State.chkptCopy (s : State) (o : HandleOp) (load : Bool) (h : Handle) (off n block : Nat) : State :=
  let q := quarterOf (coreOf o.gang)
  let flash := fun i => flashBase block + i
  let dev := fun i => h.phys (off + i)
  let len := 65536 * n
  if load then
    let data := (List.range len).map fun i => Memory.get s.mem (flash i)
    let tag := (s.gang? o.gang).bind fun _ => s.tagPlane o.pno (coreOf o.gang) h
    let who : Writer := ⟨o.gang, 0, (s.gang? o.gang).elim 0 (·.launch), some (coreOf o.gang, 11, o.entry.id), o.pno,
      .op (coreOf o.gang) 11 o.entry.id⟩
    let ps := piecesOf h tag 0 0 true off len data .other
    let tags := ps.flatMap (·.tagCells)
    let t := ps.foldl (fun (s : State) p => s.writePiece who q p tags) s
    t.copyPoison flash dev len
  else
    let t := { s with mem := Memory.sets s.mem ((List.range len).map fun i => (flash i, s.readCell o.pno q h.cls (dev i))) }
    ((t.copyPoison dev flash len).poisonCells ((s.failedAt ((List.range len).map dev)).map flash)).heard

/-! ## HANDLE_OP_COMPLETE -/

/-- The result of a handle operation lands. -/
def State.endHandleOp (s : State) (key : Nat) (e : Entry) (w : Word64) : State :=
  match e.instr with
  | .hnew vd .. | .hmap vd .. | .hrevoke vd .. | .hmigr vd .. | .chkptSave vd .. | .chkptLoad vd .. =>
    s.land key e.pend (outWord vd.toNat w)
  | _ => s

/-- The words of a request block, as one snapshot against the mapping of its issue. -/
def State.blockWords (s : State) (pno core : Nat) (e : Entry) (n : Nat) : List Word64 :=
  let a := (Tab.find? e.addrs 0).getD 0#64
  match Tab.find? e.maps (hndOf a) with
  | some h => (List.range n).map fun k => leWord (s.readBytes pno (quarterOf core) h (offOf a + 8 * k) 8)
  | none => List.replicate n 0#64

/-- An operation leaves its stream and goes on outside it. -/
def State.putHop (s : State) (key pno : Nat) (e : Entry) (handle : Option (Nat × Handle)) (target : Nat) : State :=
  { s with hops := s.hops ++ [⟨key, pno, e, 0#64, handle, target⟩] }

/-- The head entry of a stream performs: HNEW and HMAP at once, the others as far as they can go. -/
def State.performHandle (s : State) (core key st pno : Nat) (e : Entry) : State :=
  let a := (Tab.find? e.addrs 0).getD 0#64
  let pop := fun (s : State) => s.updGang key fun g => g.popHead st
  match e.instr with
  | .hnew .. =>
    let b := s.blockWords pno core e 2
    let (s, w) := (pop s).performHnew pno core (b.getD 0 0#64) (b.getD 1 0#64)
    s.endHandleOp key e w
  | .hmap .. =>
    let b := s.blockWords pno core e 3
    let (s, w) := (pop s).performHmap pno core (b.getD 0 0#64) (b.getD 1 0#64) (b.getD 2 0#64)
    s.endHandleOp key e w
  | .hrevoke .. =>
    match Tab.find? e.maps (hndOf a) with
    | none => (pop s).endHandleOp key e 2#64
    | some h => (pop s).putHop key pno e (some (hndOf a, h)) 0
  | .hmigr _ _ stack .. =>
    match if isMappable (hndOf a) then Tab.find? e.maps (hndOf a) else none with
    | none => (pop s).endHandleOp key e 2#64
    | some h =>
      if attrSpace h.attr != 0 || decide (attrBytes h.attr ≤ offOf a) then (pop s).endHandleOp key e 4#64
      else
        let piece := h.phys (offOf a) / 65536
        if s.moving.any (fun m => m.1 == piece) then s
        else if s.stackOf piece = stack.toNat then (pop s).endHandleOp key e 5#64
        else if (s.freePiece? s.allHeld stack.toNat 0).isNone then (pop s).endHandleOp key e 1#64
        else { (pop s).putHop key pno e none piece with moving := s.moving ++ [(piece, stack.toNat)] }
  | .chkptSave .. | .chkptLoad .. =>
    let load := match e.instr with
      | .chkptLoad .. => true
      | _ => false
    let b := s.blockWords pno core e 2
    match s.chkptArgs pno core load (b.getD 0 0#64) (b.getD 1 0#64) with
    | .error c => (pop s).endHandleOp key e (BitVec.ofNat 64 c)
    | .ok (h, o, n, block) =>
      let r := chkptRange h o n
      let (src, dst) := if load then ([], r) else (r, [])
      if !s.rangesFree pno src dst then s
      else
        let e := { e with addrs := [(0, a), (1, b.getD 0 0#64), (2, BitVec.ofNat 64 n), (3, BitVec.ofNat 64 block)]
                          maps := Tab.put e.maps (hndOf (b.getD 0 0#64)) h }
        ((pop s).addRange pno ⟨core, 11, e.id, src, dst⟩).putHop key pno e none 0
  | _ => s

/-- An operation outside its stream goes on: a revocation completes once nothing uses the mapping, a move once no stack
command stands on the piece, a flash save copies and then completes once its writes have drained. -/
def State.finishHandle (s : State) (o : HandleOp) : State :=
  let core := coreOf o.gang
  let e := o.entry
  let drop := fun (s : State) => { s with hops := s.hops.filter fun x => x.entry.id != e.id }
  match e.instr with
  | .hrevoke .. =>
    match o.handle with
    | none => s
    | some (n, h) => if s.mapInUse o.pno n h e.id then s else (drop s).endHandleOp o.gang e 0#64
  | .hmigr .. =>
    match s.moving.find? fun m => m.1 == o.target with
    | none => s
    | some m =>
      if s.stackBusy o.target then s
      else
        let s := { drop s with moving := s.moving.filter fun x => x.1 != o.target }
        (s.movePiece m.1 m.2).endHandleOp o.gang e 0#64
  | .chkptSave .. | .chkptLoad .. =>
    let load := match e.instr with
      | .chkptLoad .. => true
      | _ => false
    if o.target = 0 then
      let a := (Tab.find? e.addrs 1).getD 0#64
      match Tab.find? e.maps (hndOf a) with
      | none => s
      | some h =>
        let t := s.chkptCopy o load h (offOf a) ((Tab.find? e.addrs 2).getD 0#64).toNat ((Tab.find? e.addrs 3).getD 0#64).toNat
        { t with hops := t.hops.map fun x => if x.entry.id = e.id then { x with target := 1 } else x }
    else if !s.opDrained core 11 e.id then s
    else
      let s := ((drop s).dropRange o.pno core 11 e.id).releaseOp core 11 e.id
      -- each member observes the operation when its token clears (R270)
      let owe := fun (g : Gang) => match g.pend.find? fun (p : Pend) => p.id == e.pend with
        | some p => if p.tok = 0 then g else { g with owed := Tab.upd g.owed [] p.tok (· ++ [(11, e.id)]) }
        | none => g
      ((s.team o.gang).foldl (fun s kg => s.updGang kg.1 owe) s).endHandleOp o.gang e 0#64
  | _ => s

/-- Whether an entry is a handle or flash operation. -/
def isHandleOp : Instr → Bool
  | .hnew .. | .hmap .. | .hrevoke .. | .hmigr .. | .chkptSave .. | .chkptLoad .. => true
  | _ => false

/-- HANDLE_OP_COMPLETE (R434): operation `id` of a gang performs at its stream's head, or goes on. -/
def execHandleOpComplete (core ctx id : Nat) (s : State) : Next :=
  .next (match s.keyOf core ctx with
    | none => s
    | some key =>
      match s.gang? key with
      | none => s
      | some g =>
        match s.hops.find? (fun o => o.gang == key && o.entry.id == id) with
        | some o => s.finishHandle o
        | none =>
          match (List.range 16).findSome? fun st => ((g.stream st).head?).bind fun e =>
              if e.id = id && isHandleOp e.instr then some (st, e) else none with
          | none => s
          | some (st, e) => if g.gated e then s else s.performHandle core key st (s.partOf g) e)

end Sys2Proof.Machine
end

