-- ==== Sys2Proof/Machine/Handles.lean ====
section
/-! DEFINITION. The meanings of the handle descriptor instructions (R254). -/

namespace Sys2Proof.Machine

/-- A descriptor of each active lane's address: lane-wise, so one of a uniform address is uniform (R38). -/
def describe (i : Instr) (vd va : VNum) (f : State → Seat → Word64 → Word64) (s : State) : Next :=
  pureWord i (fun x t => outReg 2 vd.toNat ((x.g.rd 2 va.toNat).map fun p => intPair (f t x p.val))) s

/-- HATTR of a handle for a gang, zero when it is not VALID. -/
def State.attrFor (s : State) (x : Seat) (a : Word64) : Word64 :=
  match s.hnd? x.key a with
  | some h => if attrValid h.attr then h.attr else 0#64
  | none => 0#64

/-- OBJ and ID of the object that an address is bound to (R27, R254). -/
def bindWord (o : Obj) : Word64 :=
  match o with
  | .token _ id => BitVec.ofNat 64 (2 ^ 62 + id % 4096 * 2 ^ 50)
  | .barrier _ g => BitVec.ofNat 64 (2 ^ 63 + g % 4096 * 2 ^ 50)
  | _ => 0#64

/-- Where an address lies (R254). -/
def State.locWord (s : State) (x : Seat) (a : Word64) : Word64 :=
  let piece := offOf a / 65536
  match s.hnd? x.key a with
  | some h =>
    if attrValid h.attr && offOf a < attrBytes h.attr then
      let p := h.phys (offOf a) / 65536
      let dev := attrSpace h.attr = 0
      BitVec.ofNat 64 (2 ^ 63 + (if dev then s.stackOf p * 2 ^ 60 else 0)
        + (if dev && s.moving.any (fun m => m.1 == p) then 2 ^ 59 else 0) + piece)
    else BitVec.ofNat 64 piece
  | none => BitVec.ofNat 64 piece

/-- HDESC.ATTR. -/
def execHdescAttr (vd va : VNum) (s : State) : Next := describe (.hdescAttr vd va) vd va (fun t x a => t.attrFor x a) s

/-- HDESC.BIND. -/
def execHdescBind (vd va : VNum) (s : State) : Next :=
  describe (.hdescBind vd va) vd va (fun t x a => bindWord (t.boundTo x.g.launch a)) s

/-- HDESC.LOC. -/
def execHdescLoc (vd va : VNum) (s : State) : Next := describe (.hdescLoc vd va) vd va (fun t x a => t.locWord x a) s

/-- HDESC.SETA: the value of the lowest active lane. -/
def execHdescSeta (ah : HNum) (va : VNum) (s : State) : Next :=
  seatWord (.hdescSeta ah va) (fun x t =>
    let v := x.g.pairAt va.toNat x.low
    .ok (t.updGang x.key fun g => { g with hregs := Tab.put g.hregs ah.toNat v }) {}) s

/-- HDESC.GETA. -/
def execHdescGeta (vd : VNum) (ah : HNum) (s : State) : Next :=
  pureWord (.hdescGeta vd ah) (fun x _ => outWord vd.toNat (x.g.hreg ah.toNat)) s

end Sys2Proof.Machine
end

