-- ==== Sys2Proof/Machine/LaneOps.lean ====
section
/-! DEFINITION. The meanings of the lane, vote, packed and bit-level instructions (R147-R166). -/

namespace Sys2Proof.Machine

/-! ## Shuffles -/

/-- The source lane that a control word names (R150). -/
def shflLane (mode : ShflMode) (b l : Nat) : Int :=
  match mode with
  | .abs => (b % 64 : Nat)
  | .ofs => (l : Int) + toSigned 8 (b % 256)
  | .seg =>
    let g := b / 32 % 8
    if 5 < g then 32 else ((l / 2 ^ g * 2 ^ g + (l + b % 32) % 2 ^ g : Nat) : Int)
  | .xor => (l ^^^ (b % 32) : Nat)

/-- Registers of a lane value, in a general shape. -/
def outGeneral (len d : Nat) (f : Nat → Pair) : List Out := outReg len d (.ofFn f)

/-- SHFL (R150). Moves lane images between lanes by a per-lane control word. -/
def execShfl (mode : ShflMode) (wd : Wd) (d a b : VNum) (mk : MNum) (s : State) : Next :=
  pureWord (.shfl mode wd d a b mk) (fun x _ =>
    let v := x.g.rd (wdLen wd) a.toNat
    outGeneral (wdLen wd) d.toNat fun l =>
      srcLane v x.act (zeroOf (wdLen wd)) (shflLane mode ((x.g.reg b.toNat).lane l).val.toNat l)) s

/-- BCAST (R151). Broadcasts one lane's image to all active lanes. -/
def execBcast (pick : BcastSel) (wd : Wd) (d a b : VNum) (mk : MNum) (s : State) : Next :=
  pureWord (.bcast pick wd d a b mk) (fun x _ =>
    let lane : Int := match pick with
      | .first => ((lowLane? x.act).getD 0 : Nat)
      | .last => ((highLane? x.act).getD 0 : Nat)
      | .idx => (((x.g.reg b.toNat).lane x.low).val.toNat : Int)
    outReg (wdLen wd) d.toNat (.uni (srcLane (x.g.rd (wdLen wd) a.toNat) x.act (zeroOf (wdLen wd)) lane))) s

/-! ## Reductions -/

/-- Registers of a reduction. -/
def redLen (op : RedOp) : Nat := if redWide op then 2 else 1

/-- REDUCE (R152). Long-latency integer tree reduction across lanes. -/
def execReduce (op : RedOp) (d a : VNum) (look : BitVec 4) (mk : MNum) (s : State) : Next :=
  longWord (.reduce op d a look mk) look 0 ((List.range (redLen op)).map (d.toNat + ·)) [] (fun x =>
    outReg (redLen op) d.toNat (.uni (wrWide (redWide op) (reduceVal op (x.g.rd (redLen op) a.toNat) x.act)))) s

/-- SCAN (R153). Long-latency inclusive prefix across lanes. -/
def execScan (op : RedOp) (d a : VNum) (look : BitVec 4) (mk : MNum) (s : State) : Next :=
  longWord (.scan op d a look mk) look 0 ((List.range (redLen op)).map (d.toNat + ·)) [] (fun x =>
    let vs := scanVals op (x.g.rd (redLen op) a.toNat) x.act lanes32 (redIdentity op)
    outGeneral (redLen op) d.toNat fun l => wrWide (redWide op) (vs.getD l 0)) s

/-! ## Votes and ballots -/

/-- The bit of a lane under a vote over a mask (R154): n active lanes, c of them set. -/
def voteBit (kind : VoteKind) (n c : Nat) : Bool :=
  match kind with
  | .any => decide (0 < c)
  | .all => decide (c = n)
  | .none => decide (c = 0)
  | .maj => decide (n < 2 * c)
  | .odd => decide (c % 2 = 1)
  | _ => false

/-- The mask that a vote writes (R154). -/
def voteMask (x : Seat) (kind : VoteKind) (w64 : Bool) (a : MNum ⊕ Nat) : Nat → Bool :=
  match a with
  | .inl m => fun _ => voteBit kind (popMask x.act) (popMask (x.mask m.toNat &&& x.act))
  | .inr n =>
    let v := x.g.rd (if w64 then 2 else 1) n
    let val := fun l => if w64 then (pairLane v l).val else ((pairLane v l).1.val).setWidth 64
    if kind == .same then fun l => val l == val x.low
    else fun _ => (maskLanes x.act).all fun l => val l == val x.low

/-- VOTE (R154). Votes over the active lanes into a mask. -/
def execVote (kind : VoteKind) (w64 : Bool) (md : MNum) (a : VNum) (mk : MNum) (s : State) : Next :=
  pureWord (.vote kind w64 md a mk) (fun x _ =>
    [outMask md.toNat (voteMask x kind w64
      (if kind == .same || kind == .allSame then .inr a.toNat else .inl (a.setWidth 3)))]) s

/-- BALLOT (R155). Turns a mask into a word or a per-lane rank. -/
def execBallot (kind : BallotKind) (d : VNum) (ma mk : MNum) (s : State) : Next :=
  pureWord (.ballot kind d ma mk) (fun x _ =>
    let m := x.mask ma.toNat &&& x.act
    match kind with
    | .word => [.reg d.toNat (.uniform (intImg m))]
    | .rank => [.reg d.toNat (.general (lanes32.map fun l =>
        intImg (BitVec.ofNat 32 (((maskLanes m).filter (· < l)).length))))]) s

/-! ## Packed dot products -/

/-- What a DOT form multiplies; DETAIL 6 where its slot does not suit, or saturates floating-point elements (R452). -/
def dotElem (elem : Nat → Option DotElem) (sat : Bool) (slot : BitVec 3) (x : Seat) (t : State) : Except Flaw DotElem :=
  let bad := flaw 0x01 6 x.act (BitVec.ofNat 64 slot.toNat)
  match elem (slotAfmt (t.slotOf x.g.launch slot.toNat)) with
  | none => .error bad
  | some (.int sg) => .ok (.int sg)
  | some (.fp f) => if sat then .error bad else .ok (.fp f)

/-- DOT4 and DOT8 (R156-R158): an unsuitable slot traps (R452), and a floating-point result is checked against the floor
(R185). -/
def dotWord (i : Instr) (elem : Nat → Option DotElem) (sat : Bool) (e n : Nat) (d a : VNum) (perm : Perm) (b c : VNum)
    (slot : BitVec 3) (s : State) : Next :=
  seatWord i (fun x t =>
    match dotElem elem sat slot x t with
    | .error w => .trap w
    | .ok el =>
      let lanes := fun (α : Type) (f : Pair → Pair → Pair → α) =>
        Lanes.map3 f (x.src 1 a perm) (x.src 1 b .none) (x.src 1 c .none)
      let v := lanes Pair (dotLane el sat e n)
      match (match el with
        | .fp _ => floorFlaw x .f32 v fun l => (lanes Nat (dotDetail el e n)).at 0 l
        | .int _ => none) with
      | some w => .trap w
      | none => .ok t { outs := x.give (outReg 1 d.toNat v) }) s
    (early := fun x t => match dotElem elem sat slot x t with
      | .error w => some w
      | .ok _ => none)

/-- DOT4 (R156). Packed dot product of four 8-bit elements with accumulator. -/
def execDot4 (ty : Dot4Ty) (sat : Bool) (d a : VNum) (perm : Perm) (b c : VNum) (fmt : BitVec 3) (mk : MNum) (s : State) :
    Next :=
  dotWord (.dot4 ty sat d a perm b c fmt mk) (dot4Elem ty) sat 8 4 d a perm b c fmt s

/-- DOT8 (R156). Packed dot product of eight 4-bit elements with accumulator. -/
def execDot8 (ty : Dot8Ty) (sat : Bool) (d a : VNum) (perm : Perm) (b c : VNum) (fmt : BitVec 3) (mk : MNum) (s : State) :
    Next :=
  dotWord (.dot8 ty sat d a perm b c fmt mk) (dot8Elem ty) sat 4 8 d a perm b c fmt s

/-! ## Packing and bits -/

/-- PACK (R159). Narrows and packs integer elements. -/
def execPack (ty : PackTy) (sat : Bool) (d a : VNum) (perm : Perm) (b c : VNum) (j : BitVec 2) (mk : MNum) (s : State) :
    Next :=
  pureWord (.pack ty sat d a perm b c j mk) (fun x _ =>
    let z : Lanes Pair := if ty.width = 16 then .uni (zeroOf 1) else x.src 1 c .none
    outReg 1 d.toNat (Lanes.map3 (packLane ty sat j.toNat) (x.src 1 a perm) (x.src 1 b .none) z)) s

/-- UNPACK (R160). Extracts and widens one packed integer element. -/
def execUnpack (ty : PackTy) (d a : VNum) (perm : Perm) (n : BitVec 3) (mk : MNum) (s : State) : Next :=
  pureWord (.unpack ty d a perm n mk) (fun x _ => outReg 1 d.toNat ((x.src 1 a perm).map (unpackLane ty n.toNat))) s

/-- CLMUL (R161). Carry-less multiplication. -/
def execClmul (wd : Wd) (hi : Bool) (d a : VNum) (perm : Perm) (b : VNum) (mk : MNum) (s : State) : Next :=
  pureWord (.clmul wd hi d a perm b mk) (fun x _ =>
    outReg 2 d.toNat (Lanes.map2 (clmulLane wd hi) (x.src (wdLen wd) a perm) (x.src (wdLen wd) b .none))) s

/-- BYTEPERM (R162). Permutes bytes from two sources by selectors. -/
def execByteperm (d a : VNum) (perm : Perm) (b c : VNum) (mk : MNum) (s : State) : Next :=
  pureWord (.byteperm d a perm b c mk) (fun x _ =>
    outReg 1 d.toNat (Lanes.map3 bytepermLane (x.src 1 a perm) (x.src 1 b .none) (x.src 1 c .none))) s

/-! ## Rebalancing and shape -/

/-- REBAL (R163): the lanes written, and what each receives. -/
def rebalVal (x : Seat) (mode : RebalMode) (v : Lanes Pair) (z : Pair) (pickMask : Mask) : Mask × (Nat → Pair) :=
  let qs := maskLanes x.act
  let ps := maskLanes (pickMask &&& x.act)
  let from_ := fun (src dst : List Nat) (l : Nat) =>
    match dst.findIdx? (· == l) with
    | some k => match src[k]? with
      | some p => srcLane v x.act z p
      | none => z
    | none => z
  match mode with
  | .pack => (x.act, from_ ps qs)
  | .spread => (pickMask &&& x.act, from_ qs ps)

/-- REBAL (R163). Packs or spreads selected lanes' images. -/
def execRebal (mode : RebalMode) (wd : Wd) (d a : VNum) (mc mk : MNum) (s : State) : Next :=
  seatWord (.rebal mode wd d a mc mk) (fun x t =>
    let (lanes, f) := rebalVal x mode (x.g.rd (wdLen wd) a.toNat) (zeroOf (wdLen wd)) (x.mask mc.toNat)
    .ok t { outs := (outGeneral (wdLen wd) d.toNat f).map fun o => (lanes, o) }) s

/-- SHAPE_GET (R164). Writes the shape code of a register. -/
def execShapeGet (d a : VNum) (mk : MNum) (s : State) : Next :=
  pureWord (.shapeGet d a mk) (fun x _ =>
    [.reg d.toNat (.uniform (intImg (BitVec.ofNat 32 (x.g.reg a.toNat).shapeCode)))]) s

/-- The affine shape of some lane values (R164): the stride of the two lowest live lanes, exact in signed integers. -/
def fitAffine (f : Nat → Img) (ls : List Nat) : Option VReg :=
  match ls with
  | j :: k :: _ =>
    if !ls.all (fun l => (f l).tag == intTag) then none
    else
      let diff := ((f k).val - (f j).val).toInt
      let gap : Int := (k - j : Nat)
      if diff % gap != 0 then none
      else
        let stride := BitVec.ofInt 32 (diff / gap)
        let base := (f j).val - BitVec.ofNat 32 j * stride
        if ls.all (fun l => (f l).val == base + BitVec.ofNat 32 l * stride) then some (.affine base stride) else none
  | _ => none

/-- The first shape that fits the live lanes of a register (R164). -/
def fitShape (v : VReg) (live : Mask) (affine : Bool) : VReg :=
  let ls := maskLanes live
  match ls with
  | [] => v
  | l :: _ =>
    if ls.all (fun k => v.lane k == v.lane l) then .uniform (v.lane l)
    else
      match if affine then fitAffine v.lane ls else none with
      | some r => r
      | none => .general (lanes32.map v.lane)

/-- SHAPE.FIT (R164): the move, and then the shape of each register of D. -/
def execShapeFit (wd : Wd) (d a : VNum) (mk : MNum) (s : State) : Next :=
  seatWord (.shapeFit wd d a mk) (fun x t =>
    let regs := List.range (wdLen wd)
    let moved := fun j => writeLanes (x.g.reg (d.toNat + j)) (x.g.reg (a.toNat + j)) x.act x.g.live
      (deadImg t.tick (d.toNat + j))
    .ok (t.updGang x.key fun g => regs.foldl (fun g j =>
      { g with regs := Tab.put g.regs (d.toNat + j) (fitShape (moved j) x.g.live (wdLen wd == 1)) }) g) {}) s

/-- IOTA (R165). Writes an affine sequence base plus lane times stride. -/
def execIota (ty : IntTy) (d : VNum) (base : BitVec 24) (stride : BitVec 6) (mk : MNum) (s : State) : Next :=
  pureWord (.iota ty d base stride mk) (fun _ _ => [.reg d.toNat (.affine (base.signExtend 32) (stride.signExtend 32))]) s

end Sys2Proof.Machine
end

