-- ==== Sys2Proof/Machine/Crypto.lean ====
section
/-! DEFINITION. The published functions that the spec names (R10): SHA-512 (FIPS 180-4) and Ed25519 (RFC 8032), over bytes
and natural numbers. -/

namespace Sys2Proof.Machine

/-! ## SHA-512 -/

/-- The largest r of at most `bits` bits with r^k ≤ n. -/
def iroot (k bits n : Nat) : Nat :=
  (List.range bits).reverse.foldl (fun r b => if (r + 2 ^ b) ^ k ≤ n then r + 2 ^ b else r) 0

/-- The first 80 primes. -/
def shaPrimes : List Nat := (List.range 410).filter fun n => 2 ≤ n && (List.range n).all fun d => d < 2 || n % d != 0

/-- The initial hash value: the first 64 bits of the fractional parts of the square roots of the first 8 primes. -/
def shaInit : List Nat := (shaPrimes.take 8).map fun p => iroot 2 70 (p * 2 ^ 128) % 2 ^ 64

/-- The round constants: the first 64 bits of the fractional parts of the cube roots of the first 80 primes. -/
def shaKeys : List Nat := shaPrimes.map fun p => iroot 3 68 (p * 2 ^ 192) % 2 ^ 64

/-- A 64-bit word rotated right. -/
def rotr (n x : Nat) : Nat := x / 2 ^ n + x % 2 ^ n * 2 ^ (64 - n)

/-- The message schedule, newest word first. -/
def shaSchedule (w : List Nat) : List Nat :=
  (List.range 64).foldl (fun l _ =>
    let a := l.getD 14 0
    let b := l.getD 1 0
    let s0 := rotr 1 a ^^^ rotr 8 a ^^^ (a / 2 ^ 7)
    let s1 := rotr 19 b ^^^ rotr 61 b ^^^ (b / 2 ^ 6)
    (s1 + l.getD 6 0 + s0 + l.getD 15 0) % 2 ^ 64 :: l) w.reverse

/-- One round on the working variables a to h. -/
def shaRound (v : List Nat) (kw : Nat × Nat) : List Nat :=
  match v with
  | [a, b, c, d, e, f, g, h] =>
    let s1 := rotr 14 e ^^^ rotr 18 e ^^^ rotr 41 e
    let ch := (e &&& f) ^^^ ((2 ^ 64 - 1 - e) &&& g)
    let t1 := h + s1 + ch + kw.1 + kw.2
    let s0 := rotr 28 a ^^^ rotr 34 a ^^^ rotr 39 a
    let maj := (a &&& b) ^^^ (a &&& c) ^^^ (b &&& c)
    [(t1 + s0 + maj) % 2 ^ 64, a, b, c, (d + t1) % 2 ^ 64, e, f, g]
  | _ => v

/-- The number of big-endian bytes. -/
def beNat (bs : List Byte) : Nat := bs.foldl (fun n b => n * 256 + b.toNat) 0
/-- n big-endian bytes of a number. -/
def beBytes (n v : Nat) : List Byte := (leBytes n v).reverse

/-- A hash value after one block of 128 bytes. -/
def shaBlock (h : List Nat) (bs : List Byte) : List Nat :=
  let w := shaSchedule ((List.range 16).map fun i => beNat ((bs.drop (8 * i)).take 8))
  List.zipWith (fun x y => (x + y) % 2 ^ 64) h ((List.zip shaKeys w.reverse).foldl shaRound h)

/-- A message padded to whole blocks. -/
def shaPad (bs : List Byte) : List Byte :=
  bs ++ 0x80#8 :: List.replicate ((239 - bs.length % 128) % 128) 0#8 ++ beBytes 16 (8 * bs.length)

/-- The SHA-512 digest of some bytes. -/
def sha512 (bs : List Byte) : List Byte :=
  let m := shaPad bs
  ((List.range (m.length / 128)).foldl (fun h i => shaBlock h ((m.drop (128 * i)).take 128)) shaInit).flatMap (beBytes 8)

/-! ## Ed25519 -/

/-- The field's prime and the order of the base point. -/
def edP : Nat := 2 ^ 255 - 19
def edL : Nat := 2 ^ 252 + 27742317777372353535851937790883648493

/-- Arithmetic modulo the prime. -/
def edMul (a b : Nat) : Nat := a * b % edP
def edAdd (a b : Nat) : Nat := (a + b) % edP
def edSub (a b : Nat) : Nat := (a + (edP - b % edP)) % edP
def edPow (a e : Nat) : Nat :=
  (List.range 256).reverse.foldl (fun r i => let q := edMul r r; if e.testBit i then edMul q a else q) 1
def edInv (a : Nat) : Nat := edPow a (edP - 2)

/-- The curve's d. -/
def edD : Nat := edSub 0 (edMul 121665 (edInv 121666))

/-- A point in extended coordinates. -/
structure EdPoint where
  x : Nat
  y : Nat
  z : Nat
  t : Nat
  deriving DecidableEq, Repr

/-- The neutral point. -/
def EdPoint.zero : EdPoint := ⟨0, 1, 1, 0⟩

/-- The sum of two points. -/
def EdPoint.add (d : Nat) (p q : EdPoint) : EdPoint :=
  let a := edMul (edSub p.y p.x) (edSub q.y q.x)
  let b := edMul (edAdd p.y p.x) (edAdd q.y q.x)
  let c := edMul (edMul p.t (2 * d)) q.t
  let e := edMul (2 * p.z) q.z
  let m := edSub b a
  let f := edSub e c
  let g := edAdd e c
  let h := edAdd b a
  ⟨edMul m f, edMul g h, edMul f g, edMul m h⟩

/-- A multiple of a point. -/
def EdPoint.mul (n : Nat) (p : EdPoint) : EdPoint :=
  let d := edD
  (List.range 256).reverse.foldl (fun q i =>
    let q := EdPoint.add d q q
    if n.testBit i then EdPoint.add d q p else q) EdPoint.zero

/-- Whether two points are one. -/
def EdPoint.same (p q : EdPoint) : Bool :=
  edMul p.x q.z == edMul q.x p.z && edMul p.y q.z == edMul q.y p.z

/-- The 32 bytes of a point. -/
def EdPoint.encode (p : EdPoint) : List Byte :=
  let i := edInv p.z
  leBytes 32 (edMul p.y i + edMul p.x i % 2 * 2 ^ 255)

/-- The x of a point from its y and the sign of x. -/
def edX? (y sign : Nat) : Option Nat :=
  let yy := edMul y y
  let u := edMul (edSub yy 1) (edInv (edAdd (edMul edD yy) 1))
  if edP ≤ y then none
  else if u = 0 then (if sign = 1 then none else some 0)
  else
    let x := edPow u ((edP + 3) / 8)
    let x := if edMul x x = u then x else edMul x (edPow 2 ((edP - 1) / 4))
    if edMul x x != u then none else some (if x % 2 = sign then x else edP - x)

/-- The point of 32 bytes. -/
def EdPoint.decode? (bs : List Byte) : Option EdPoint :=
  let n := leNat bs
  let y := n % 2 ^ 255
  if bs.length != 32 then none
  else (edX? y (n / 2 ^ 255)).map fun x => ⟨x, y, 1, edMul x y⟩

/-- The base point. -/
def EdPoint.base : EdPoint :=
  let y := edMul 4 (edInv 5)
  let x := (edX? y 0).getD 0
  ⟨x, y, 1, edMul x y⟩

/-- The secret scalar of a 32-byte seed. -/
def edScalar (seed : List Byte) : Nat := leNat ((sha512 seed).take 32) % 2 ^ 254 / 8 * 8 + 2 ^ 254

/-- The public key of a seed. -/
def edPublic (seed : List Byte) : List Byte := (EdPoint.mul (edScalar seed) EdPoint.base).encode

/-- The challenge of a signature. -/
def edChallenge (r key msg : List Byte) : Nat := leNat (sha512 (r ++ key ++ msg)) % edL

/-- The signature of a message by a seed. -/
def edSign (seed msg : List Byte) : List Byte :=
  let r := leNat (sha512 ((sha512 seed).drop 32 ++ msg)) % edL
  let rb := (EdPoint.mul r EdPoint.base).encode
  rb ++ leBytes 32 ((r + edChallenge rb (edPublic seed) msg * edScalar seed) % edL)

/-- Whether a signature of a message holds for a public key. -/
def edVerify (key msg sig : List Byte) : Bool :=
  let rb := sig.take 32
  let s := leNat (sig.drop 32)
  match EdPoint.decode? key, EdPoint.decode? rb with
  | some a, some r =>
    sig.length == 64 && decide (s < edL) &&
      EdPoint.same (EdPoint.mul (8 * s % (8 * edL)) EdPoint.base)
        (EdPoint.mul 8 (EdPoint.add edD r (EdPoint.mul (edChallenge rb key msg) a)))
  | _, _ => false

end Sys2Proof.Machine
end

