-- ==== Sys2Proof/Machine/Launch.lean ====
section
/-! DEFINITION. The launch dispatcher (R20-R32, R189, R190, R353-R361, R369, R370, R464): what it reads, the checks of a
packet and of a launch record, the placing of gangs, barrier wires, and the creation of a launch. -/

namespace Sys2Proof.Machine

/-! ## What the dispatcher reads (R20, R353) -/

/-- The extent that an address names for the dispatcher, which stands on no core: a mapped handle or a quarter's
die-scratchpad share. -/
def Part.plainHandle? (p : Part) (h : Nat) : Option Handle :=
  if h < 0xFFF000 || (0xFFFD00 ≤ h && h < 0xFFFD04) then p.handle? 0 h else none

/-- Device memory, a die scratchpad or a TSO host extent. -/
def isRingSpace (attr : Word64) : Bool :=
  attrSpace attr = 0 || attrSpace attr = 4 || (attrSpace attr = 1 && attrTso attr)

/-- The bytes at an address for the dispatcher, the newest that have been written; none where they cannot be read. -/
def State.dispRead? (s : State) (pno : Nat) (ring : Bool) (a : Word64) (n : Nat) : Option (List Byte) :=
  let p := s.part pno
  match p.plainHandle? (hndOf a) with
  | none => none
  | some h =>
    let cells := (List.range n).map fun i => h.phys (offOf a + i)
    if (accessFault (some h) p.secure false true (offOf a) n).isSome || (ring && !isRingSpace h.attr) || s.readsBad cells then none
    else some (cells.map fun c => match h.cls with
      | .tso l => s.readCell pno 0 (.tso l) c
      | k => s.newestByte 0 k c)

/-- Words of some bytes. -/
def wordsOf (bs : List Byte) : List Word64 := (List.range (bs.length / 8)).map fun i => leWord ((bs.drop (8 * i)).take 8)

/-! ## Queues and packets (R353-R358) -/

def Queue.logSlots (q : Queue) : Nat := fieldOf q.w1 59 5
def Queue.prio (q : Queue) : Nat := fieldOf q.w1 56 3
def Queue.vector (q : Queue) : Nat := fieldOf q.w1 17 11
def Queue.hold (q : Queue) : Bool := q.w1.getLsbD 16
/-- Packets written and not taken. -/
def Queue.waiting (q : Queue) : Nat := (q.tail - q.head).toNat
/-- Whether the ring is full (R354). -/
def Queue.full (q : Queue) : Bool := decide (q.waiting = 2 ^ q.logSlots)
/-- The address of the slot of packet k. -/
def Queue.slot (q : Queue) (k : Nat) : Word64 := mkAddr (hndOf q.w0) (offOf q.w0 + 64 * (k % 2 ^ q.logSlots))

/-- A packet as eight words (R356). -/
structure Packet where
  w : List Word64
  deriving DecidableEq, Repr

def Packet.word (p : Packet) (i : Nat) : Word64 := p.w.getD i 0#64
def Packet.kind (p : Packet) : Nat := fieldOf (p.word 0) 56 8
def Packet.nwait (p : Packet) : Nat := fieldOf (p.word 0) 54 2
def Packet.irq (p : Packet) : Bool := (p.word 0).getLsbD 53
def Packet.serial (p : Packet) : Bool := (p.word 0).getLsbD 52

/-- Whether a packet passes the checks of LSTAT 0x01 (R464). -/
def State.packetOk (s : State) (pno : Nat) (p : Packet) : Bool :=
  (p.kind = 1 || p.kind = 2) && fieldOf (p.word 0) 0 52 == 0 && p.word 7 == 0#64
    && (p.kind = 1 || p.word 1 == 0#64)
    && (List.range 3).all fun i =>
      if i < p.nwait then (s.queue (fieldOf (p.word (3 + i)) 48 16)).part == pno else p.word (3 + i) == 0#64

/-- Whether every wait of a packet holds. -/
def State.waitsHold (s : State) (p : Packet) : Bool :=
  (List.range p.nwait).all fun i =>
    let w := p.word (3 + i)
    decide (((s.queue (fieldOf w 48 16)).comp - BitVec.ofNat 48 (fieldOf w 0 48)).toNat < 2 ^ 47)

/-! ## The launch record (R20-R30, R189, R190) -/

def Role.allot (r : Role) : Nat := fieldOf r.rshape 59 5
def Role.team (r : Role) : Nat := fieldOf r.rshape 57 2 + 1
def Role.slices (r : Role) : Nat := fieldOf r.rshape 54 3 + 1
def Role.ncallee (r : Role) : Nat := fieldOf r.rshape 44 10
def Role.instances (r : Role) : Nat := fieldOf r.rshape 0 28
def Role.place (r : Role) : Nat := fieldOf r.rinit 48 2
def Role.floorInit (r : Role) : Nat := fieldOf r.rinit 58 6
def Role.rndInit (r : Role) : Nat := fieldOf r.rinit 50 8

/-- The core for which code is looked up at acceptance: the partition's first. -/
def Part.firstCore (p : Part) : Nat := p.cores.headD 0

/-- A format slot descriptor that passes (R190). -/
def slotOk (d : Word64 × Word64) : Bool :=
  fieldOf d.1 0 48 == 0 && fieldOf d.2 0 24 == 0 && slotAfmt d != 15 && slotBfmt d != 15 && slotOfmt d != 15
    && decide (slotOrnd d < 6) && decide (fieldOf d.2 62 2 < 2) && decide (fieldOf d.2 42 2 < 2)

/-- Whether a designator names a gang of the launch. -/
def desigOk (roles : List Role) (d : Nat) : Bool :=
  match roles[d / 2 ^ 30 % 4]? with
  | some r => decide (d / 2 ^ 28 % 4 < r.team) && decide (d % 2 ^ 28 < r.instances)
  | none => false

/-- The designator of a gang (R23). -/
def desigNat (role member inst : Nat) : Nat := role % 4 * 2 ^ 30 + member % 4 * 2 ^ 28 + inst % 2 ^ 28

/-- A group-table entry (R29), with its members; none where it breaks R29 or R30. -/
def State.groupOf? (s : State) (pno : Nat) (roles : List Role) (w0 w1 : Word64) : Option Group :=
  let count := fieldOf w0 0 24
  let pcv := w0.getLsbD 61
  let bits := (fieldOf w0 54 3 == 0) && (pcv || fieldOf w0 58 3 == 0) && decide (0 < count)
  let members : Option (List (BitVec 32)) :=
    if w0.getLsbD 57 then
      match roles[fieldOf w0 52 2]? with
      | some r =>
        if w1 == 0#64 && decide (fieldOf w0 24 28 + count ≤ r.instances) then
          some ((List.range count).flatMap fun i => (List.range r.team).map fun m =>
            BitVec.ofNat 32 (desigNat (fieldOf w0 52 2) m (fieldOf w0 24 28 + i)))
        else none
      | none => none
    else if fieldOf w0 52 2 != 0 || fieldOf w0 24 28 != 0 then none
    else match s.dispRead? pno false w1 (4 * count) with
      | some bs =>
        let ds := (List.range count).map fun i => leNat ((bs.drop (4 * i)).take 4)
        if ds.all (desigOk roles) && decide ds.Nodup then some (ds.map (BitVec.ofNat 32)) else none
      | none => none
  if bits then members.map fun ms => ⟨w0.getLsbD 63, w0.getLsbD 62, pcv, fieldOf w0 58 3, ms, 0, 0, 0⟩ else none

/-- A table of n entries of two words; none where it cannot be read. -/
def State.table? (s : State) (pno : Nat) (a : Word64) (n : Nat) : Option (List (Word64 × Word64)) :=
  if n = 0 then some []
  else (s.dispRead? pno false a (16 * n)).map fun bs =>
    let ws := wordsOf bs
    (List.range n).map fun i => (ws.getD (2 * i) 0#64, ws.getD (2 * i + 1) 0#64)

/-- A list of optional values, when all are there. -/
def allSome {α : Type} : List (Option α) → Option (List α)
  | [] => some []
  | x :: xs => x.bind fun a => (allSome xs).map (a :: ·)

/-- How many groups hold a designator. -/
def groupCount (gs : List Group) (d : BitVec 32) : Nat := (gs.filter fun g => g.members.contains d).length

/-- The group table (R29, R30). -/
def State.groupTable? (s : State) (pno : Nat) (roles : List Role) (gtab : Word64) (n : Nat) : Option (List Group) :=
  if 256 < n then none
  else
    ((s.table? pno gtab n).bind fun es => allSome (es.map fun e => s.groupOf? pno roles e.1 e.2)).bind fun gs =>
      if (gs.flatMap (·.members)).all fun d => decide (groupCount gs d ≤ 4) then some gs else none

/-- The binding table (R27). -/
def State.bindTable? (s : State) (pno : Nat) (groups : List Group) (btab : Word64) (n : Nat) : Option (List Bind) :=
  if 4096 < n then none
  else
    (s.table? pno btab n).bind fun es =>
      let bs := es.map fun e => (⟨e.1, fieldOf e.2 32 32, fieldOf e.2 30 2, fieldOf e.2 0 12⟩ : Bind)
      let one := fun (e : Word64 × Word64) (b : Bind) =>
        fieldOf e.1 0 16 == 0 && fieldOf e.2 12 18 == 0 && decide (0 < b.pieces) && b.kind != 3
          && (b.kind != 0 || b.id == 0) && (b.kind != 2 || ((groups[b.id]?).elim false fun g => g.bar))
      let meet := fun (x y : Bind) => hndOf x.base == hndOf y.base
        && rangesMeet [(offOf x.base, x.pieces * 65536)] [(offOf y.base, y.pieces * 65536)]
      if (List.zip es bs).all (fun eb => one eb.1 eb.2)
          && (indexFrom 0 bs).all (fun ib => (bs.take ib.1).all fun y => !meet ib.2 y) then some bs
      else none

/-- A role's callee table (R25). -/
def State.calleeTable? (s : State) (pno : Nat) (r : Role) (ctab : Word64) : Option (List (Word64 × Word64)) :=
  (s.table? pno ctab r.ncallee).bind fun es =>
    if es.all fun e => fieldOf e.2 0 59 == 0 && decide (0 < fieldOf e.2 59 5) && decide (fieldOf e.2 59 5 ≤ r.allot)
        && s.headerAt pno (s.part pno).firstCore e.1 then some es
    else none

/-- The record of a launch, checked in the order of R464 up to the callee tables: the plan, or the status. -/
def State.readRecord (s : State) (pno : Nat) (rec : Word64) : Except Nat Plan :=
  match if offOf rec % 64 = 0 then s.dispRead? pno true rec 512 else none with
  | none => .error 0x02
  | some bs =>
    let w := fun (i : Nat) => (wordsOf bs).getD i 0#64
    let h := w 0
    let nrole := fieldOf h 40 2 + 1
    let entry := fun (k j : Nat) => w (24 + 8 * k + j)
    let ks := List.range nrole
    let roles := ks.map fun k => (⟨entry k 0, entry k 1, entry k 3, entry k 4, []⟩ : Role)
    let slots := (List.range 8).map fun k => (w (8 + 2 * k), w (9 + 2 * k))
    let core := (s.part pno).firstCore
    if fieldOf h 48 16 != 1 then .error 0x03
    else if fieldOf h 42 6 != 0 || fieldOf h 0 16 != 0 || ((List.range 5).any fun i => w (3 + i) != 0#64)
        || ((List.range 8).any fun i => w (56 + i) != 0#64)
        || ks.any (fun k => fieldOf (entry k 3) 28 16 != 0 || fieldOf (entry k 4) 0 48 != 0 || entry k 5 != 0#64
          || entry k 6 != 0#64 || entry k 7 != 0#64) then .error 0x04
    else if roles.any (fun r => r.allot = 0 || decide (16 < r.allot) || r.instances = 0 || r.place = 3 || decide (55 < r.floorInit)
        || decide (4 < r.rndInit / 32) || r.rndInit % 16 != 0) then .error 0x05
    else if roles.any (fun r => !s.headerAt pno core r.entry || !s.headerAt pno core r.trapent) then .error 0x06
    else if !slots.all slotOk then .error 0x07
    else
      match s.groupTable? pno roles (w 1) (fieldOf h 31 9) with
      | none => .error 0x08
      | some gs =>
        match s.bindTable? pno gs (w 2) (fieldOf h 16 15) with
        | none => .error 0x09
        | some bs =>
          match allSome (ks.map fun k => s.calleeTable? pno (roles.getD k ⟨0#64, 0#64, 0#64, 0#64, []⟩) (entry k 2)) with
          | none => .error 0x0A
          | some cs => .ok ⟨(List.zip roles cs).map fun rc => { rc.1 with callees := rc.2 }, slots, gs, bs⟩

/-! ## Placing gangs (R24) -/

/-- Where an instance of a role stands. -/
structure Place where
  role : Nat
  inst : Nat
  core : Nat
  deriving DecidableEq, Repr

/-- The cores of a partition in the order of cluster-spread. -/
def Part.spreadCores (p : Part) : List Nat := (List.range 16).flatMap fun i => p.clusters.map fun c => 16 * c + i

/-- Placing the instances of a role, one by one, while there is room: the free contexts left, and the places. -/
def placeRole (order : List Nat) (cyclic : Bool) (role need : Nat) : Nat → Nat → Nat → Tab Nat → List Place → Tab Nat × List Place
  | 0, _, _, free, acc => (free, acc)
  | fuel + 1, inst, pos, free, acc =>
    let ring := if cyclic then order.drop pos ++ order.take pos else order
    match (indexFrom 0 ring).find? fun ic => decide (need ≤ Tab.at free 0 ic.2) with
    | none => (free, acc)
    | some (i, c) =>
      placeRole order cyclic role need fuel (inst + 1) (if cyclic then (pos + i + 1) % order.length else 0)
        (Tab.upd free 0 c (· - need)) (acc ++ [⟨role, inst, c⟩])

/-- Placing every role in turn. No more instances are tried than contexts could hold. -/
def Part.placeAll (p : Part) (roles : List Role) (free : Tab Nat) : List Place :=
  ((indexFrom 0 roles).foldl (fun (acc : Tab Nat × List Place) kr =>
    let r := kr.2
    let order := if r.place = 2 then p.spreadCores else p.cores
    placeRole order (r.place != 0) kr.1 r.team (min r.instances 65537) 0 0 acc.1 acc.2) (free, [])).2

/-- The core of a designator's gang among some places. -/
def placeOf (ps : List Place) (d : BitVec 32) : Option Nat :=
  (ps.find? fun x => x.role == d.toNat / 2 ^ 30 % 4 && x.inst == d.toNat % 2 ^ 28).map (·.core)

/-- Whether every gang has a place. -/
def placedAll (roles : List Role) (ps : List Place) : Bool :=
  decide (ps.length = (roles.map Role.instances).sum)

/-- Free contexts of the partition's cores: all of them, or those that no gang occupies. -/
def Part.allFree (p : Part) : Tab Nat := p.cores.map fun c => (c, 64)
def State.nowFree (s : State) (p : Part) : Tab Nat :=
  p.cores.map fun c => (c, 64 - ((s.gangs.filter fun kg => coreOf kg.1 == c && kg.2.alive).length))

/-! ## Barrier wires (R369) -/

/-- A wire: span code, which unit of that span, and the number. -/
abbrev Wire := Nat × Nat × Nat

/-- The unit of a span that a core belongs to. -/
def spanUnit (span core : Nat) : Nat :=
  if span = 0 then core else if span = 1 then clusterOf core else if span = 2 then quarterOf core else 0

/-- The wires of a partition in a unit of a span. -/
def Part.wires (p : Part) (span unit_ : Nat) : List Nat :=
  if span = 0 then List.range 16 else if span = 1 then List.range 32
  else if span = 2 then p.dieWires.getD unit_ [] else p.pkgWires

/-- A free wire of the smallest span at or above the one that covers some cores. -/
def Part.wireFor (p : Part) (used : List Wire) (cores : List Nat) : Option Wire :=
  (List.range 4).findSome? fun span =>
    match cores with
    | [] => none
    | c :: rest =>
      let u := spanUnit span c
      if rest.all fun d => spanUnit span d == u then
        ((p.wires span u).find? fun n => !used.contains (span, u, n)).map fun n => (span, u, n)
      else none

/-- The groups with their wires given in order; none when one finds no wire. -/
def Part.giveWires (p : Part) (used : List Wire) (ps : List Place) : List Group → Option (List Group)
  | [] => some []
  | g :: gs =>
    if !g.bar then (p.giveWires used ps gs).map (g :: ·)
    else
      (p.wireFor used (g.members.filterMap (placeOf ps))).bind fun w =>
        (p.giveWires (w :: used) ps gs).map ({ g with span := w.1, wire := w.2.2 } :: ·)

/-- The wires that the running launches of a partition use. -/
def State.usedWires (s : State) (pno : Nat) : List Wire :=
  s.launches.flatMap fun l =>
    if l.2.pno != pno then []
    else l.2.groups.filterMap fun g =>
      if g.bar then
        ((g.members.head?).bind l.2.keyOf?).map fun k => (g.span, spanUnit g.span (coreOf k), g.wire)
      else none

/-! ## Accepting (R28, R357, R370, R464) -/

/-- What the dispatcher does with a LAUNCH packet: accept with the groups' wires and the places, reject with a status, or
wait under HOLD. -/
inductive Verdict where
  | accept (p : Plan) (groups : List Group) (ps : List Place)
  | reject (status : Nat)
  | hold (p : Plan)
  deriving DecidableEq, Repr

/-- The checks on a launch as its record gives it, in order. -/
def State.judgePlan (s : State) (pno : Nat) (hold : Bool) (pl : Plan) : Verdict :=
  let p := s.part pno
  let ideal := p.placeAll pl.roles p.allFree
  let bars := pl.groups.filter (·.bar)
  if !(bars.all fun g => g.members.all fun d => (placeOf ideal d).isSome) || (p.giveWires [] ideal pl.groups).isNone then
    .reject 0x0B
  else
    let ps := p.placeAll pl.roles (s.nowFree p)
    let all := placedAll pl.roles ps
    match p.giveWires (s.usedWires pno) (if all then ps else ideal) pl.groups with
    | none => .reject 0x0C
    | some gs =>
      if all then .accept pl gs ps
      else if hold && s.launches.any fun l => l.2.pno == pno then .hold pl
      else .reject 0x0D

/-- The checks on a launch: its record is read once, at the moment of the take, and kept while the packet is held (R357). -/
def State.judge (s : State) (pno : Nat) (hold : Bool) (rec : Word64) (kept : Option Plan) : Verdict :=
  match kept with
  | some pl => s.judgePlan pno hold pl
  | none =>
    match s.readRecord pno rec with
    | .error c => .reject c
    | .ok pl => s.judgePlan pno hold pl

/-! ## Creating gangs (R13, R31, R32, R44, R359, R361) -/

/-- The free contexts of a core, from a free starting point. -/
def State.freeContexts (s : State) (core : Nat) : List Nat :=
  ((List.range 64).map fun i => (i + Config.pickContext s.tick core) % 64).filter fun x => (s.keyAt core x).isNone

/-- The gangs of a core in the active set (R364). -/
def State.activeOn (s : State) (core : Nat) : List (Nat × Gang) :=
  s.gangs.filter fun kg => coreOf kg.1 == core && kg.2.alive && kg.2.st == .active

/-- A gang as it begins (R32). -/
def newGang (launch : Nat) (r : Role) (role member inst : Nat) (mates : List Nat) (arg : Word64) (prio base : Nat)
    (st : GangSt) (since : Nat) (seen : Tab (BitVec 32)) : Gang :=
  { placedGang 0 with
    launch := launch
    role := role
    member := member
    inst := inst
    slices := r.slices
    team := r.team
    mates := mates
    allot := r.allot
    st := st
    since := since
    clauses := 0
    life := lanes32.map fun l => if l < 4 * r.slices then Life.live else Life.never
    flow := lanes32.map fun l => if l < 4 * r.slices then ⟨r.entry, 0#64, 0, 0#6, 0#2, false, 0, 0#64⟩ else Flow.blank
    hregs := if arg == 0#64 then [] else [(0, arg)]
    sigfloor := BitVec.ofNat 64 r.floorInit
    rndctl := BitVec.ofNat 64 r.rndInit
    qpri := prio
    own := base
    ownNow := base
    base := base
    seen := seen }

/-- BASE of a gang (R361): the class of its lowest-numbered group that carries one, capped. -/
def baseClass (groups : List Group) (d : BitVec 32) (prio : Nat) : Nat :=
  match groups.find? fun g => g.pcv && g.members.contains d with
  | some g => min g.pcls prio
  | none => prio

/-- A team is created in the first free contexts of its core. It enters the active set whole, or not at all where there is no
room for every member: R31 speaks of a gang (DESIGN CHOICE, log 150). -/
def State.createTeam (s : State) (n : Nat) (x : Launch) (arg : Word64) (prio : Nat) (pl : Place) : State :=
  match x.roles[pl.role]? with
  | none => s
  | some r =>
    let keys := ((s.freeContexts pl.core).take r.team).map fun c => n * 65536 + pl.core * 64 + c
    let st := if (s.activeOn pl.core).length + r.team ≤ 8 then GangSt.active else .ready
    let seen := (s.core pl.core).lc
    let s := (indexFrom 0 keys).foldl (fun (s : State) mk =>
      let d := desigNat pl.role mk.1 pl.inst
      let g := newGang n r pl.role mk.1 pl.inst keys arg prio (baseClass x.groups (BitVec.ofNat 32 d) prio) st s.tick seen
      (s.setGang mk.2 g).updLaunch n fun y => { y with gangs := Tab.put y.gangs d mk.2 }) s
    -- a gang from a queue of priority 7 begins budget mode (R319)
    if prio = 7 then s.updCore pl.core Core.wake else s

/-- A launch is created; each gang acquires every object (R359). -/
def State.createLaunch (s : State) (pno queue packet prio : Nat) (pl : Plan) (gs : List Group) (ps : List Place)
    (arg : Word64) : State :=
  let n := s.nextId
  let x : Launch := ⟨pno, queue, packet, pl.roles, pl.slots, gs, pl.binds, [], [], none⟩
  let s := { s with nextId := n + 1 }.setLaunch n x
  let s := ps.foldl (fun (s : State) p => s.createTeam n x arg prio p) s
  let objs := s.bufs.map (·.obj)
  (((ps.map fun p => quarterOf p.core).dedup).flatMap fun q => objs.map fun o => (q, o)).foldl (fun (s : State) qo =>
    s.acquireIn qo.1 qo.2) s

end Sys2Proof.Machine
end

