-- ==== Sys2Proof/Machine/OrderEvents.lean ====
section
/-! DEFINITION. The steps of the order machine and of the issuing units (R18, R85, R105, R255-R276, R419, R520): clause
entry, fetching, landing of results, merging, pieces, drains, atomics, fences, releases, tokens, waits, the end of a
launch and host stores. -/

namespace Sys2Proof.Machine

/-! ## Units -/

/-- CLAUSE_ENTRY (R85): a unit at a header enters the clause, waits there, or traps. -/
def execClauseEntry (core ctx part : Nat) (s : State) : Next :=
  .next (match s.unit? core ctx part with
    | some u => if (s.nextDeferred u.key).isSome || u.flow.rem != 0 then s else s.enterClause u part
    | none => s)

/-- FETCH_WORD (R520): a word is fetched ahead of its issue. -/
def execFetchWord (core ctx part : Nat) (s : State) : Next := .next (s.fetchAhead core ctx part)

/-- LONG_LATENCY_WRITE (R105): the result of a long-latency instruction that computes lands. -/
def execLongLatencyWrite (core ctx id : Nat) (s : State) : Next :=
  .next (match s.keyOf core ctx with
    | none => s
    | some key =>
      match (s.gang? key).bind fun g => g.pend.find? fun (p : Pend) => p.id == id with
      | some p => if p.compute && !p.landed then s.land key id p.outs else s
      | none => s)

/-- The lowest address that a slice waits at. -/
def Gang.waitPc? (g : Gang) (sl : Nat) : Option Nat :=
  (((sliceLanes sl).filter (inMask g.live)).map fun l => (g.flowAt l).pc.toNat).min?

/-- Whether a lane waits at a REGANG, and not at a word that rejoins the parts to issue once (R372, R431). -/
def Flow.atRegang (f : Flow) : Bool := kindOf f.word == 0#2 && opcOf f.word == 0x36#8

/-- The slices of a team that wait at one address become one part; behind a REGANG it goes on, and at the other rejoining
words it performs the word once, as it was fetched. `team` is the team as it waits, before any of its slices moves on. -/
def State.mergeAt (s : State) (key : Nat) (team : List (Nat × Gang)) (pc : Nat) : State :=
  let at_ : Word64 := BitVec.ofNat 64 pc
  let here := fun (g : Gang) (sl : Nat) => g.waitPc? sl == some pc
  let name := ((team.flatMap fun kg => (kg.2.sliceNums.filter (here kg.2)).map (8 * kg.2.member + ·)).min?).getD 0
  let lanes := fun (g : Gang) => maskOf fun l => inMask g.live l && here g (l / 4) && (g.flowAt l).pc == at_
  let stay := team.flatMap fun kg => ((maskLanes (lanes kg.2)).map kg.2.flowAt).filter (!·.atRegang)
  let s := team.foldl (fun (s : State) kg =>
    s.updGang kg.1 fun g =>
      let on := maskOf fun l => inMask (lanes kg.2) l && (kg.2.flowAt l).atRegang
      (g.mapFlow fun l f =>
        if inMask g.live l && here kg.2 (l / 4) then
          if inMask (lanes kg.2) l then { f with part := name, rgw := false, word := 0#64 } else { f with part := name }
        else f).advance on 1 [] (s.core (coreOf key)).high) s
  match stay.head? with
  | none => s
  | some f => s.updGang key fun g => { g with fetched := g.fetched ++ [⟨name, at_, f.word, true⟩] }

/-- REGANG_MERGE (R18): every part of a team waits; the slices that wait at one address merge, all at once. -/
def execRegangMerge (core ctx : Nat) (s : State) : Next :=
  .next (match s.leadAt core ctx with
    | none => s
    | some key =>
      let team := s.team key
      if !s.mayIssue key || !(team.all fun kg => kg.2.allWait) || !(team.any fun kg => kg.2.alive) then s
      else
        let pcs := (team.flatMap fun kg => kg.2.sliceNums.filterMap kg.2.waitPc?).dedup
        pcs.foldl (fun (s : State) pc => s.mergeAt key team pc) s)

/-! ## Pieces (R260, R485-R487, R504) -/

/-- What a performed entry does. -/
def State.afterPieces (s : State) (key : Nat) (e : Entry) : State :=
  match e.instr with
  | .ctxload .. => s.ctxRead key e
  | _ => s.finishEntry key e

/-- An error met outside any piece's read: in a register file, operand memory, a tile, a node or an edge record. A lasting
one ends the owner's launch, or poisons the record (R487). It is logged by its byte in the core's part of the store: the file
and the proof tier hold 40 KiB for each context, the tiles lie behind the operand memory and the edge store behind the node
bank; a unit is 16 bytes, and in a node bank or edge store 8 (DESIGN CHOICE, log 146). -/
def State.storeError (s : State) (err : SoftErr) (st pno core byte : Nat) (lasting : State → State) : State :=
  let log := fun (kind : Nat) => s.logStore kind st pno core 0 (byte / 65536) (byte % 65536 / (if st = 7 then 8 else 16))
  match err with
  | .none | .link | .timeout => s
  | .corrected => log 1
  | .transient => log 2
  | .lasting => lasting (log 3)

/-- The partition that has a core, 31 when none has. -/
def State.partOfCore (s : State) (core : Nat) : Nat :=
  ((List.find? (fun (p : Nat × Part) => p.2.formed && p.2.inn && p.2.hasCluster (clusterOf core)) s.parts).map (·.1)).getD 31

/-- The launch of the gang that holds a slot or tile ends. -/
def State.endHolder (s : State) (holder : Option Nat) : State :=
  match holder.bind s.gang? with
  | some g => s.haltLaunch g.launch 0x7D
  | none => s

/-- A lasting error in the fixed part of a shadow bank, by its byte there: the core's scratchpad, operand memory, tiles and
share of the cluster scratchpad, and the rest of the core's state (R445). The unit is marked poisoned, and the launch of the
gang that holds the slot or tile ends (R485, R487). -/
def State.shadowLost (s : State) (pno core : Nat) (h : Shadow) (byte : Nat) : State :=
  let mark := fun (a : Nat) =>
    let h' := { h with poison := (poisonUnit a).foldl (fun t u => Tab.put t u ()) h.poison }
    s.updPart pno fun p => { p with shadow := Tab.put p.shadow core h' }
  let kib := byte / 1024
  if kib < 512 then mark (2 ^ 42 + core * 2 ^ 19 + byte)
  else if kib < 768 then s.endHolder (Tab.find? h.core.slotHeld ((kib - 512) / 8))
  else if kib < 928 then s.endHolder (Tab.find? h.core.tileHeld ((kib - 768) / 20))
  else if kib < 1440 then mark (2 ^ 43 + clusterOf core * 2 ^ 23 + core % 16 * 2 ^ 19 + (byte - 928 * 1024))
  else s

/-- An error in a shadow bank: in the context of a gang that a swap has put away (R487), or, for n from 64 up, in granule
n − 64 of the fixed part; the contexts stand behind it (DESIGN CHOICE, log 146). -/
def State.shadowError (s : State) (err : SoftErr) (pno core n : Nat) : State :=
  match Tab.find? (s.part pno).shadow core with
  | none => s
  | some h =>
    if n < 64 then
      match List.find? (fun (kg : Nat × Gang) => ctxOf kg.1 == n) h.gangs with
      | some kg => s.storeError err 8 pno core (1504 * 1024 + n * 40960) fun s => s.haltLaunch kg.2.launch 0x7D
      | none => s
    else
      let byte := (n - 64) * 16
      if 1504 * 1024 ≤ byte then s else s.storeError err 8 pno core byte fun s => s.shadowLost pno core h byte

/-- An error in a transfer of an agent that has no pieces (R480, R485): a read that fails takes poisoned bytes. -/
def State.memoryError (s : State) (err : SoftErr) (a : Nat) (wr : Bool) : State :=
  if wr then (if err == .link && a < 2 ^ 39 then (s.softError err [a]).poisonCells [a] else s)
  else
    let s := s.softError err [a]
    if (err == .link && a < 2 ^ 39) || (storeCode a = 4 && (err == .lasting || err == .timeout)) then { s with lost := s.lost ++ [a] }
    else s

/-- PERFORM_PIECE (R260): piece n of an entry, an operation or a peer's request performs, or a read outside the order
machine meets an error. -/
def execPerformPiece (agent : Agent) (n : Nat) (err : SoftErr) (s : State) : Next :=
  .next (match agent with
    | .stream core ctx st =>
      if st = 16 then (s.performLoc core ctx n).settleLocs core ctx else s.performStream core ctx st n err State.afterPieces
    | .op core eng num => s.performOp core eng num n err
    | .file core ctx =>
      match s.keyAt core ctx with
      | none => s
      | some key =>
        match s.gang? key with
        | none => s
        | some g => s.storeError err 5 (s.partOf g) core (ctxOf key * 40960) fun s => s.haltLaunch g.launch 0x7D
    | .slot core k => s.storeError err 6 (s.partOfCore core) core (k * 8192) fun s => s.endHolder (Tab.find? (s.core core).slotHeld k)
    | .tile core k => s.storeError err 6 (s.partOfCore core) core (262144 + k * 20480) fun s => s.endHolder (Tab.find? (s.core core).tileHeld k)
    | .node core k =>
      if 8192 ≤ k then s
      else s.storeError err 7 (s.partOfCore core) core (k * 24) fun s =>
        s.setNode (nodeKey core k) { s.node (nodeKey core k) with poison := true }
    | .edge core k =>
      if 524288 ≤ k then s
      else s.storeError err 7 (s.partOfCore core) core (3 * 2 ^ 20 + k * 8) fun s =>
        { s with edgePoison := Tab.put s.edgePoison (edgeKey core k) () }
    | .shadow pno core ctx => s.shadowError err pno core ctx
    | .atomic pno cluster => if (s.part pno).inn then s.performAtomic pno cluster err else s
    | .inbound id => s.performInbound id n err
    | .memory a wr => s.memoryError err a wr)

/-- The piece that an agent would perform. -/
def State.agentPiece? (s : State) (agent : Agent) (n : Nat) : Option Piece :=
  match agent with
  | .stream core ctx st =>
    ((s.keyOf core ctx).bind s.gang?).bind fun g => (g.stream st).head?.bind fun e => e.todo[n]?
  | .op core eng num => (s.op? core eng num).bind fun o => o.todo[n]?
  | .atomic pno cluster => (s.nextAtom pno cluster).map (·.piece)
  | .inbound id => (s.inbox.find? fun (r : Inbound) => r.id == id).bind fun r => r.todo[n]?
  | _ => none

/-- Whether an agent's transfer waits for a completion from host memory: a read, an atomic, or a read of an agent that has no
pieces. -/
def State.awaitsHost (s : State) (agent : Agent) (n : Nat) : Bool :=
  match agent with
  | .memory a wr => !wr && storeCode a == 4
  | .atomic .. => (s.agentPiece? agent n).any fun p => p.space == 1
  | _ => (s.agentPiece? agent n).any fun p => !p.wr && p.space == 1

/-- COMPLETION_TIMEOUT (R504): a read of host memory whose completion does not come: its bytes count as poisoned. -/
def execCompletionTimeout (agent : Agent) (n : Nat) (s : State) : Next :=
  if s.awaitsHost agent n then execPerformPiece agent n .timeout s else .next s

/-- The address in device memory that an agent's transfer across a stack interface concerns. -/
def State.agentAddr? (s : State) (agent : Agent) (n : Nat) : Option Nat :=
  match agent with
  | .memory a _ => if a < 2 ^ 39 then some a else none
  | _ =>
    (s.agentPiece? agent n).bind fun p =>
      match p.cls with
      | .dev _ _ => p.cells.head?
      | _ => none

/-- INTERFACE_RETRY (R480): a transfer across a stack interface failed its CRC; after the fourth failure it has failed
for good, and otherwise a retry succeeded and is logged. -/
def execInterfaceRetry (agent : Agent) (n fails : Nat) (s : State) : Next :=
  match s.agentAddr? agent n with
  | some a => if 4 ≤ fails then execPerformPiece agent n .link s else .next (if fails = 0 then s else s.logError 4 a)
  | none => .next s

/-! ## Drain, propagate, replicate (R261-R264) -/

/-- A write of the log by its identity. -/
def State.write? (s : State) (id : Nat) : Option GWrite := s.log.find? fun w => w.id == id

/-- DRAIN (R261): the oldest write of each of its granules leaves its window path. -/
def execDrain (id : Nat) (s : State) : Next :=
  .next (match s.write? id with
    | some w => if w.inPath && s.oldest w then s.drainWrite w else s
    | none => s)

/-- PROPAGATE (R262). -/
def execPropagate (id quarter : Nat) (s : State) : Next :=
  .next (match s.write? id with
    | some w => if w.prop = 1 && !w.inPath && quarter < 4 then s.propagateWrite w quarter else s
    | none => s)

/-- REPLICATE (R263). -/
def execReplicate (id quarter : Nat) (s : State) : Next :=
  .next (match s.write? id with
    | some w => if w.prop = 2 && !w.inPath && quarter < 4 && !w.got.getLsbD quarter then s.replicateWrite w quarter else s
    | none => s)

/-! ## Atomics and fences (R266, R267) -/

/-- ATOMIC_SEND. -/
def execAtomicSend (core ctx st : Nat) (s : State) : Next := .next (s.sendAtomic core ctx st)

/-- ATOMIC_PERFORM. -/
def execAtomicPerform (pno cluster : Nat) (s : State) : Next := .next (s.performAtomic pno cluster .none)

/-- FENCE_PERFORM. -/
def execFencePerform (core ctx st : Nat) (s : State) : Next := .next (s.performFence core ctx st)

/-! ## Releases (R249, R252, R268, R270, R371) -/

/-- The gangs whose accesses and tokens a release concerns. -/
def Rel.keys (r : Rel) : List Nat := if r.gangs.isEmpty then [r.gang] else r.gangs

/-- Whether every entry of an identity in a gang's queues stands at the head of its queue. -/
def Gang.atHeads (g : Gang) (id : Nat) : Bool :=
  g.streams.all fun st => !(st.2.any fun (e : Entry) => e.id == id) || (st.2.head?.map fun (e : Entry) => e.id) == some id

/-- The entries of an identity leave a gang's queues. -/
def Gang.dropId (g : Gang) (id : Nat) : Gang :=
  (g.streams.map (·.1)).foldl (fun (g : Gang) st => g.setStream st ((g.stream st).filter fun (e : Entry) => e.id != id)) g

/-- Whether a release's gate is open: its entries stand at the head of their queues, the accesses issued before it have
performed, and the writes it covers stand in no window path. A FREE waits for accesses only. -/
def State.gateOf (s : State) (r : Rel) : Bool :=
  r.keys.all fun k =>
    let pending := (s.gang? k).elim [] fun g => g.streams.flatMap fun st => st.2.map fun (e : Entry) => e.id
    (s.gang? k).elim true (·.atHeads r.id) && !(r.after.any pending.contains) &&
      match r.kind with
      | .free .. => true
      | _ => !s.hasUndrained k r.stream

/-- A release step is taken: its entries leave their queues. -/
def State.takeRelease (s : State) (r : Rel) : State :=
  let s := r.keys.foldl (fun (s : State) k => s.updGang k fun g => g.dropId r.id) s
  let drop := fun (s : State) => { s with rels := s.rels.filter fun (x : Rel) => x.id != r.id }
  let tok := fun (s : State) => r.keys.foldl (fun (s : State) k => s.dropTok k r.tok) s
  match r.kind with
  | .token id =>
    { s.releaseObj r.gang (.token r.pno id) with
      rels := s.rels.map fun (x : Rel) => if x.id = r.id then { x with taken := true } else x }
  | .barrier g =>
    let s := s.releaseObj r.gang (.barrier r.launch g)
    tok ((drop (s.updGang r.gang fun x => { x with rel := Tab.upd x.rel 0 g (· + 1) })).rephase r.launch)
  | .retire =>
    ((drop (s.releaseAll r.gang)).updLaunch r.launch fun l => { l with gone := l.gone ++ [r.gang] }).rephase r.launch
  | .commit core cb n =>
    tok ((drop (s.stamp (.slot core cb n) [])).updCb core cb fun b => b.commitSlot n)
  | .free core cb n => tok ((drop (s.stamp (.slot core cb n) [])).updCb core cb fun b => b.freeSlot n)

/-- RELEASE_STEP (R268). -/
def execReleaseStep (id : Nat) (s : State) : Next :=
  .next (match s.rels.find? fun (r : Rel) => r.id == id with
    | some r => if r.taken || !(s.part r.pno).inn || !s.gateOf r then s else s.takeRelease r
    | none => s)

/-- Whether the home may grant a request (R248). -/
def Tok.admits (t : Tok) (excl : Bool) : Bool := if excl then t.held.isEmpty else !(t.held.any (·.2))

/-- The request that a home settles next (R248, R471): one by a gang that holds the token already, at once and without
a change of the hold, else the oldest where the hold admits it. -/
def Tok.next? (t : Tok) : Option ((Nat × Bool × Nat) × Tok) :=
  match t.reqs.find? fun r => t.held.any fun h => h.1 == r.1 with
  | some r => some (r, { t with reqs := t.reqs.erase r })
  | none =>
    match t.reqs with
    | [] => none
    | r :: rest => if t.admits r.2.1 then some (r, ⟨t.held ++ [(r.1, r.2.1)], rest⟩) else none

/-- TOKEN_GRANT (R248, R471): a request for a token is granted, and acquires. -/
def execTokenGrant (pno id : Nat) (s : State) : Next :=
  .next (match (Tab.find? (s.part pno).tokens id).bind Tok.next? with
    | none => s
    | some ((key, _, tok), t) =>
      if !(s.part pno).inn then s
      else
        let s := s.updPart pno fun p => { p with tokens := Tab.put p.tokens id t }
        ((s.updGang key fun g => { g with acqs := g.acqs.erase id }).dropTok key tok).acquire key (.token pno id))

/-- TOKEN_RELEASE_RECORD (R249): the home records a release whose step has been taken. -/
def execTokenReleaseRecord (id : Nat) (s : State) : Next :=
  .next (match s.rels.find? fun (r : Rel) => r.id == id with
    | none => s
    | some r =>
      match r.kind with
      | .token k =>
        if !r.taken || !(s.part r.pno).inn then s
        else
          let give := fun (t : Tok) => { t with held := match t.held.find? fun h => h.1 == r.gang with
            | some h => t.held.erase h
            | none => t.held }
          let s := s.updPart r.pno fun p => { p with tokens := Tab.upd p.tokens ⟨[], []⟩ k give }
          { s.dropTok r.gang r.tok with rels := s.rels.filter fun (x : Rel) => x.id != r.id }
      | _ => s)

/-! ## Waits (R85, R146, R270, R372) -/

/-- A unit that waits at a word it has issued tries the word again. -/
def State.retry (s : State) (core ctx part : Nat) (f : Instr → State → Option Next) : Next :=
  match s.unit? core ctx part with
  | none => .next s
  | some u =>
    if (s.nextDeferred u.key).isSome || !((s.gang? u.key).elim false fun g => g.waitsAt part u.pc) then .next s
    else
      match s.nextWord u part with
      | .run i t => (f i t).getD (.next s)
      | _ => .next s

/-- BARRIER_WAIT_PASS (R372): a unit that waits at BARW or BARS passes once P has reached its count. -/
def execBarrierWaitPass (core ctx part : Nat) (s : State) : Next :=
  s.retry core ctx part fun i t =>
    match i with
    | .barw g => some (execBarw g t)
    | .bars g => some (execBars g t)
    | _ => none

/-- WAIT_SATISFIED (R270): a unit that waits on tokens, an engine, a line, a wave, the fabric, or at a clause header passes
once its condition holds. -/
def execWaitSatisfied (core ctx part : Nat) (s : State) : Next :=
  match s.unit? core ctx part with
  | none => .next s
  | some u =>
    if u.flow.rem = 0 then
      if (s.gang? u.key).elim false fun g => g.waitsAt part u.pc then execClauseEntry core ctx part s else .next s
    else s.retry core ctx part fun i t =>
      match i with
      | .waittok ts => some (execWaittok ts t)
      | .xwait e v => some (execXwait e v t)
      | .sxwait v p r => some (execSxwait v p r t)
      | .evwait l => some (execEvwait l t)
      | .mkwait w => some (execMkwait w t)
      | .fwait => some (execFwait t)
      | _ => none

/-! ## The end of a launch (R33, R271, R358, R432) -/

/-- Whether nothing of a launch remains to be done: every gang has retired, or the launch has been ended early; every
issued access has performed, and every operation, release, fabric and handle operation has completed. -/
def State.launchDone (s : State) (n : Nat) (l : Launch) : Bool :=
  let keys := l.gangs.map (·.2)
  let mine := fun k => keys.contains k
  (l.halt.isSome || keys.all l.gone.contains)
    && keys.all (fun k => (s.gang? k).elim true fun g => g.streams.isEmpty)
    && s.cores.all (fun c => (c.2.engines.all fun e => e.2.ops.all fun (o : Op) => o.launch != n)
      && (c.2.mxq ++ c.2.ndq).all fun (p : Pre) => p.launch != n)
    && s.rels.all (fun (r : Rel) => !mine r.gang) && s.atoms.all (fun (a : AtomReq) => !mine a.gang)
    && s.fab.all (fun (f : FabOp) => !mine f.gang) && s.hops.all (fun (h : HandleOp) => !mine h.gang)

/-- What the gangs of a launch held of a core. -/
def Core.freeGangs (c : Core) (mine : Nat → Bool) : Core :=
  { c with
    slotHeld := c.slotHeld.filter fun h => !mine h.2
    tileHeld := c.tileHeld.filter fun h => !mine h.2
    claims := c.claims.filter fun (q : Claim) => !mine q.gang
    orels := c.orels.filter fun (q : Claim) => !mine q.gang }

/-- The completion of a packet, to be counted in slot order (R358). -/
def State.completePacket (s : State) (queue packet status : Nat) : State :=
  s.updQueue queue fun q =>
    { q with taken := q.taken.map fun (t : Taken) => if t.number = packet && t.status.isNone then { t with status := some status } else t }

/-- LAUNCH_END (R271): every write of the launch reaches every image, view and copy; its contexts, wires and claims are
free; its packet completes. -/
def execLaunchEnd (l : Nat) (s : State) : Next :=
  .next (match s.launch? l with
    | none => s
    | some x =>
      if !s.launchDone l x || !(s.part x.pno).inn then s
      else
        let keys := x.gangs.map (·.2)
        let s := s.drainAll [l] x.pno
        let s := { s with
          gangs := s.gangs.filter fun kg => !keys.contains kg.1
          launches := Tab.del s.launches l
          cores := s.cores.map fun (c : Nat × Core) => (c.1, c.2.freeGangs keys.contains)
          bufs := s.bufs.filter fun b => match b.obj with
            | .barrier n _ => n != l
            | .fin n => n != l
            | _ => true }
        s.completePacket x.queue x.packet (x.halt.getD 0))

/-! ## Host stores and deferred traps (R276, R419, R505) -/

/-- HOST_STORE_DRAIN (R276): the oldest device store of a partition reaches host memory; on a link that is down it is
discarded and logged (R505). -/
def execHostStoreDrain (pno : Nat) (s : State) : Next :=
  .next (match s.hostQ.find? fun h => h.pno == pno with
    | none => s
    | some h => if s.links.getLsbD h.link then s.drainHost pno else { s with hostQ := s.hostQ.erase h }.logHost pno h.link)

/-- TAKE_DEFERRED_TRAP (R419): a deferred trap is taken at a word boundary. -/
def execTakeDeferredTrap (core ctx part : Nat) (s : State) : Next :=
  .next (match s.unit? core ctx part with
    | some u => s.takeDeferred u part
    | none => s)

end Sys2Proof.Machine
end

