-- ==== Sys2Proof/Machine/SchedEvents.lean ====
section
/-! DEFINITION. The steps of the schedulers (R31, R48, R364-R368), of the bandwidth windows (R363), of the work queues
(R354, R357, R358, R360, R414) and of QPOST's delivery (R375). -/

namespace Sys2Proof.Machine

/-! ## The two-level scheduler (R31, R48, R366) -/

/-- The effective class of a team: that of its lead. -/
def State.teamClass (s : State) (key : Nat) : Nat := s.effClass key

/-- The leads of a core's teams in a scheduler state. -/
def State.leadsIn (s : State) (core : Nat) (st : GangSt) : List (Nat × Gang) :=
  s.gangs.filter fun kg => coreOf kg.1 == core && kg.2.alive && kg.2.st == st && kg.2.mates.headD 0 == kg.1

/-! ## Issue slots (R49, R364) -/

/-- Round-robin distance of a requester after the one served last. -/
def turnOf (last who : Nat) : Nat := (who + 65535 - last) % 65536

/-- The place of a round-robin pointer in the table of the arbiters: of a core's issue slots in a class, and of the parts of
the gang in a context. -/
def issueArb (core cls : Nat) : Nat := core * 8 + cls
def partArb (core ctx : Nat) : Nat := 2 ^ 20 + core * 64 + ctx

/-- How far a requester lies behind the one that an arbiter served last. -/
def State.behind (s : State) (pointer who : Nat) : Nat := turnOf ((Tab.find? s.arb pointer).getD 65535) who

/-- A unit's request for issue slots of a clock: its gang's context, its part, its class, the grants that its gang has before
it in the clock, its gang's place in the round, and the slots it takes, one for each member it touches (R12, R17). -/
structure Bid where
  ctx : Nat
  part : Nat
  cls : Nat
  nth : Nat
  place : Nat
  cost : Nat
  deriving DecidableEq, Repr

/-- The order of a clock's grants as one number: class, then the grants a gang has had, then round-robin. -/
def Bid.rank (b : Bid) : Nat := ((7 - b.cls) * 65536 + b.nth) * 65536 + b.place

/-- The parts of a team. -/
def State.partsOf (s : State) (key : Nat) : List Nat :=
  ((s.team key).flatMap fun m => m.2.sliceNums.filterMap m.2.slicePart?).dedup

/-- The members of a team that hold slices of a part. -/
def State.touched (s : State) (key part : Nat) : Nat :=
  ((s.team key).filter fun m => m.2.sliceNums.any fun sl => m.2.slicePart? sl == some part).length

/-- The requests of a core's units that can issue, in the order of their grants; the parts of a gang in turn. -/
def State.bids (s : State) (core : Nat) (can : Nat → Nat → Bool) : List Bid :=
  ((s.leadsIn core .active).flatMap fun kg =>
    let ctx := ctxOf kg.1
    let cls := s.teamClass kg.1
    let parts := ((s.partsOf kg.1).filter (can ctx)).insertionSort fun a b =>
      s.behind (partArb core ctx) a ≤ s.behind (partArb core ctx) b
    (indexFrom 0 parts).map fun np => ⟨ctx, np.2, cls, np.1, s.behind (issueArb core cls) ctx, s.touched kg.1 np.2⟩).insertionSort
      fun a b => a.rank ≤ b.rank

/-- The requests that some slots serve: in order, until the slots left are fewer than the next one takes, for no rule lets a
later one pass it (DESIGN CHOICE, log 144). -/
def grantSlots : Nat → List Bid → List Bid
  | _, [] => []
  | n, b :: bs => if b.cost ≤ n then b :: grantSlots (n - b.cost) bs else []

/-- The grants of the next clock: of four slots, less those left unused; a clock that grants none passes. -/
def State.clockGrants (s : State) (core : Nat) (can : Nat → Nat → Bool) : List Bid :=
  match grantSlots (4 - (s.core core).idleSlots) (s.bids core can) with
  | [] => grantSlots 4 (s.bids core can)
  | bs => bs

/-- Whether a unit can issue as far as its word shows before it runs: it does not wait at a word it has issued, nor at
issue. -/
def State.couldIssue (s : State) (core ctx part : Nat) : Bool :=
  match s.unit? core ctx part with
  | none => false
  | some u =>
    !((s.gang? u.key).elim false fun g => g.waitsAt part u.pc) && match s.turn core ctx part with
      | .run i t => !(t.seats i.maskField).any (·.stalls i)
      | _ => true

/-! ## Clause boundaries and waits -/

/-- Whether every part of a team stands at a clause boundary. -/
def State.atBoundary (s : State) (key : Nat) : Bool :=
  (s.team key).all fun kg => (maskLanes kg.2.live).all fun l => (kg.2.flowAt l).rem == 0

/-- Whether every part of a team waits at a word, and whether one of them waits on something other than tokens. -/
def State.allPartsWait (s : State) (key : Nat) : Bool :=
  match s.gang? key with
  | none => false
  | some lead =>
    (s.team key).all fun kg => (kg.2.sliceNums.filterMap kg.2.slicePart?).all fun p => lead.waits.any fun w => w.part == p

/-- Whether every part of a team stands at a clause boundary or waits at one of the waiting instructions of R85. -/
def State.atRest (s : State) (key : Nat) : Bool :=
  match s.gang? key with
  | none => false
  | some lead =>
    (s.team key).all fun kg => (maskLanes kg.2.live).all fun l =>
      (kg.2.flowAt l).rem == 0 || lead.waits.any fun w => w.part == (kg.2.flowAt l).part

/-- The tokens that a kept word waits on. -/
def waitedToks (f : Fetched) : BitVec 8 :=
  if kindOf f.word == 2#2 then BitVec.ofNat 8 (fieldOf f.word 44 8)
  else match decodeWords [f.word] with
    | .ok (.waittok toks) => toks ++ (0#1 : BitVec 1)
    | _ => 0#8

/-- A wait on tokens: a WAITTOK, or a header without an event line or whose tokens are not all clear, for it waits on those
first (R85). -/
def State.isTokenWait (s : State) (key : Nat) (f : Fetched) : Bool :=
  if kindOf f.word == 2#2 then fieldOf f.word 40 4 == 0 || (s.team key).any fun kg => !kg.2.toksClear (waitedToks f)
  else kindOf f.word == 0#2 && opcOf f.word == 0x38#8

/-- The spaces and the engines that the operations use which some tokens of a team count (R366). -/
def State.awaited (s : State) (key : Nat) (set : BitVec 8) : List Nat × List Nat :=
  let on := fun (t : Nat) => t != 0 && set.getLsbD t
  let entries := (s.team key).flatMap fun kg =>
    kg.2.streams.flatMap fun st => st.2.filter fun e =>
      on e.tok || kg.2.pend.any fun p => p.id == e.pend && on p.tok
  let spaces := entries.flatMap fun e => e.todo.map (·.space) ++ e.maps.map fun m => attrSpace m.2.attr
  let core := s.core (coreOf key)
  let engines := (core.engines.filter fun en => en.2.ops.any fun o => on o.tok && s.sameTeam o.gang key).map (·.1)
  (spaces.dedup.insertionSort (· ≤ ·), engines)

/-- Whether the wait of a team is long (R366): on tokens it is long when the scheduler predicts so, by the spaces and the
engines that the awaited operations use. -/
def State.longWait (s : State) (key : Nat) : Bool :=
  s.allPartsWait key && match s.gang? key with
    | none => false
    | some lead =>
      let held := lead.fetched.filter fun f => lead.waitsAt f.part f.pc
      held.any (fun f => !s.isTokenWait key f) ||
        let aw := s.awaited key (held.foldl (fun m f => m ||| waitedToks f) 0#8)
        Config.longWait (s.core (coreOf key)).swapthr aw.1 aw.2

/-- Whether an active team gives way to a Ready one (R366, cases 2 to 4): at a clause boundary, and where it has made an offer
at a waiting instruction too. -/
def State.givesWay (s : State) (core key : Nat) (g : Gang) : Bool :=
  let ready := (s.leadsIn core .ready).map fun kg => s.teamClass kg.1
  let mine := s.teamClass key
  let actives := (s.leadsIn core .active).filter fun kg => !s.allPartsWait kg.1
  let lowest := actives.all fun kg =>
    decide (mine < s.teamClass kg.1) || (decide (mine = s.teamClass kg.1) && decide (ctxOf key ≤ ctxOf kg.1))
  let equal := ready.any fun c => decide (mine ≤ c)
  s.atBoundary key &&
      (!s.allPartsWait key && (ready.any fun c => decide (mine < c)) && lowest
        || equal && decide ((s.core core).quantum ≤ g.clauses))
    || s.atRest key && equal && (s.team key).any fun kg => kg.2.offer

/-- A team leaves the active set, or enters a scheduler state there. -/
def State.moveTeam (s : State) (key : Nat) (st : GangSt) : State :=
  (s.team key).foldl (fun (s : State) kg =>
    s.updGang kg.1 fun g => { g with st := st, since := s.tick, clauses := 0, offer := false }) s

/-- Whether a waiting unit of a team would go on: a deferred trap is due to it, or its word, tried with the team in
place, waits no more. -/
def State.wouldPass (s : State) (core ctx key : Nat) : Bool :=
  match s.gang? key with
  | none => false
  | some lead =>
    let t := s.moveTeam key .active
    (s.nextDeferred key).isSome || lead.waits.any fun w =>
      let after := fun (n : Next) => match n with
        | .next u => (u.gang? key).elim true fun g => !g.waitsAt w.part w.pc
        | _ => false
      after (execWaitSatisfied core ctx w.part t) || after (execBarrierWaitPass core ctx w.part t)

/-- SWAP_OUT (R366): a gang leaves the active set, Waiting on a long wait and Ready otherwise. -/
def execSwapOut (core ctx : Nat) (s : State) : Next :=
  .next (match s.leadAt core ctx with
    | none => s
    | some key =>
      match s.gang? key with
      | none => s
      | some g =>
        if g.st != .active then s
        else if s.longWait key && !s.wouldPass core ctx key then s.moveTeam key .waiting
        else if s.givesWay core key g then s.moveTeam key .ready
        else s)

/-- Whether a Ready team is the one to admit: highest EFF, then longest Ready, then lowest context (R366). -/
def State.firstReady (s : State) (core key : Nat) (g : Gang) : Bool :=
  let mine := s.teamClass key
  (s.leadsIn core .ready).all fun kg =>
    let c := s.teamClass kg.1
    decide (c < mine) || (decide (c = mine) && (decide (g.since < kg.2.since)
      || (decide (g.since = kg.2.since) && decide (ctxOf key ≤ ctxOf kg.1))))

/-- RECALL (R48, R366): a Waiting gang whose condition has cleared becomes Ready, or the first Ready gang enters the active
set where it has room. -/
def execRecall (core ctx : Nat) (s : State) : Next :=
  .next (match s.leadAt core ctx with
    | none => s
    | some key =>
      match s.gang? key with
      | none => s
      | some g =>
        if g.st == .waiting then (if s.wouldPass core ctx key then s.moveTeam key .ready else s)
        else if g.st == .ready && decide ((s.activeOn core).length + g.mates.length ≤ 8) && s.firstReady core key g then
          s.moveTeam key .active
        else s)

/-! ## Balance (R368) -/

/-- Saturating counters of 24 bits. -/
def bump24 (n : Nat) : Nat := min (n + 1) (2 ^ 24 - 1)

/-- BALANCE_WINDOW: a window has ended with an imbalance of `imb` tenths of a percent. -/
def execBalanceWindow (core imb : Nat) (under : Bool) (s : State) : Next :=
  .next (s.updCore core fun c => { c with imb := min imb 127, under := under })

/-- Whether the next clock of a core, with one slot fewer, loses an issuing unit that stands in a clause of class FP or MXC. -/
def State.drawsMore (s : State) (core : Nat) : Bool :=
  let n := 4 - (s.core core).idleSlots
  let bids := s.bids core (s.couldIssue core)
  (grantSlots n bids).any fun b =>
    !(grantSlots (n - 1) bids).contains b && (s.unit? core b.ctx b.part).any fun u =>
      u.flow.rem != 0 && (u.flow.cmask.getLsbD 1 || u.flow.cmask.getLsbD 3)

/-- BALANCE_STALL: while the compute die draws more, a slot that an issuing unit of a clause with FP or MXC could use is left
unused in the core's next clock; it counts as no grant. -/
def execBalanceStall (core : Nat) (s : State) : Next :=
  let c := s.core core
  .next (if c.under || !s.drawsMore core then s
    else s.updCore core fun c => { c with stalls := bump24 c.stalls, idleSlots := min 4 (c.idleSlots + 1) })

/-- Whether a core has a proof-tier or shadow-bank transfer, or a node-engine event, to put off: a team to swap, or a
message or start at its node bank. -/
def State.defersSome (s : State) (core : Nat) : Bool :=
  s.gangs.any (fun kg => coreOf kg.1 == core && kg.2.alive && kg.2.st != .active)
    || s.parts.any (fun p => p.2.stopping && p.2.hasCluster (clusterOf core))
    || s.waves.any fun w => (Tab.find? w.2.engs core).any fun e => !e.msgs.isEmpty || !e.left.isEmpty

/-- BALANCE_DEFERRAL: while the under die draws more, a transfer or node event is put off by this step. -/
def execBalanceDeferral (core : Nat) (s : State) : Next :=
  .next (if (s.core core).under && s.defersSome core then s.updCore core fun c => { c with defers := bump24 c.defers } else s)

/-- BANDWIDTH_WINDOW (R363): a resource's window ends, and with it every queue's use. -/
def execBandwidthWindow (res : Nat) (s : State) : Next := .next { s with used := s.used.filter fun u => u.1 / 65536 != res }

/-! ## Doorbells and packets (R354, R357, R358, R360, R414) -/

/-- DOORBELL_WRITE (R414): a host write to a queue's doorbell block. -/
def execDoorbellWrite (queue ofs size : Nat) (s : State) : Next :=
  .next (if 65536 ≤ queue || ofs != 0 || size != 4 || (s.queue queue).part == 31 then s else s.ring queue)

/-- Whether a queue has a packet that may become its head packet (R357). -/
def State.hasHead (s : State) (q : Queue) : Bool :=
  let p := s.part q.part
  decide (q.part < 20) && p.formed && p.inn && !p.stopping && decide (0 < q.waiting)
    && (q.taken.getLast?).elim true fun t => !t.serial || t.status.isSome

/-- What taking the head packet comes to: the status it completes with at once, a launch, or a packet held with its record
read; none while its waits are open. -/
inductive Take where
  | done (status : Nat)
  | launch (pl : Plan) (gs : List Group) (ps : List Place)
  | hold (pl : Plan)
  | wait
  deriving DecidableEq, Repr

/-- The head packet of a queue as the dispatcher reads it, once, with its first two checks (R357, R464). -/
def State.readHead (s : State) (q : Queue) : Head :=
  match s.dispRead? q.part true (q.slot q.head.toNat) 64 with
  | none => ⟨[], 0x0E, none⟩
  | some bs => ⟨wordsOf bs, if s.packetOk q.part ⟨wordsOf bs⟩ then 0 else 0x01, none⟩

/-- The head packet of a queue: as it was read, or as it would be read now. -/
def State.headOf (s : State) (q : Queue) : Head := q.packet.getD (s.readHead q)

/-- What taking a head packet comes to (R357, R464). -/
def State.headTake (s : State) (q : Queue) (h : Head) : Take :=
  let p : Packet := ⟨h.words⟩
  if h.flaw != 0 then .done h.flaw
  else if !s.waitsHold p then .wait
  else if p.kind = 2 then .done 0
  else match s.judge q.part q.hold (p.word 1) h.plan with
    | .accept pl gs ps => .launch pl gs ps
    | .reject c => .done c
    | .hold pl => .hold pl

/-- Whether a take goes through. -/
def Take.goes : Take → Bool
  | .done _ => true
  | .launch .. => true
  | _ => false

/-- Whether a queue's head packet can be taken. -/
def State.takeable (s : State) (q : Queue) : Bool := s.hasHead q && (s.headTake q (s.headOf q)).goes

/-- Whether a queue is the one that the dispatcher serves next (R360). -/
def State.servesNext (s : State) (queue : Nat) (q : Queue) : Bool :=
  let last := (Tab.find? (s.part q.part).served q.prio).getD 65535
  s.queues.all fun x =>
    x.1 == queue || x.2.part != q.part || decide (x.2.prio < q.prio)
      || (x.2.prio == q.prio && decide (turnOf last queue < turnOf last x.1)) || !s.takeable x.2

/-- A head packet leaves its queue, and its launch begins (R357, R359). -/
def State.takeHead (s : State) (queue : Nat) (q : Queue) (h : Head) (t : Take) : State :=
  let p : Packet := ⟨h.words⟩
  let n := q.head.toNat
  let status := match t with
    | .done c => some c
    | _ => none
  let taken : Taken := ⟨n, status, p.irq, p.serial⟩
  let s := s.updQueue queue fun x => { x with head := x.head + 1#32, taken := x.taken ++ [taken], packet := none }
  let s := s.updPart q.part fun p => { p with served := Tab.put p.served q.prio queue }
  match t with
  | .launch pl gs ps => s.createLaunch q.part queue n q.prio pl gs ps (p.word 2)
  | _ => s

/-- TAKE_PACKET (R357): the dispatcher reads a queue's head packet, once, and takes it when it may; a launch without room
under HOLD is held, its record read. -/
def execTakePacket (queue : Nat) (s : State) : Next :=
  let q := s.queue queue
  .next (if !s.hasHead q then s
    else
      let h := s.headOf q
      let keep := fun (h : Head) => s.heard.updQueue queue fun x => { x with packet := some h }
      match s.headTake q h with
      | .wait => keep h
      | .hold pl => keep { h with plan := some pl }
      | t => if s.servesNext queue q then s.heard.takeHead queue q h t else keep h)

/-- PACKET_COMPLETE (R358): the oldest packet taken has completed and is counted. -/
def execPacketComplete (queue : Nat) (s : State) : Next :=
  let q := s.queue queue
  .next (match q.taken with
    | [] => s
    | t :: rest =>
      match t.status with
      | none => s
      | some c =>
        let s := s.setQueue queue { q with comp := q.comp + 1#48, lstat := BitVec.ofNat 8 c, taken := rest }
        if t.irq then s.interrupt q.vector else s)

/-! ## QPOST's delivery (R375) -/

/-- The pieces of a packet written into a slot of a ring, with the tags of a tagged extent (R229); none where the ring's extent
is not there. -/
def State.slotPieces (s : State) (pno core : Nat) (a : Word64) (bs : List Byte) : List Piece :=
  match (s.part pno).plainHandle? (hndOf a) with
  | none => []
  | some h =>
    if (accessFault (some h) (s.part pno).secure true false (offOf a) bs.length).isSome then []
    else piecesOf h (s.tagPlane pno core h) (hndOf a) 0 true (offOf a) bs.length bs .other

/-- A packet is written into a slot at once; the sectors are charged (R363), and a piece that its host link loses is logged
(R505). -/
def State.writeSlot (s : State) (who : Writer) (core since : Nat) (ps : List Piece) : State :=
  let s := if ps.any (fun p => match p.cls with
      | .tso _ => true
      | _ => false) then s.drainHostAll who.pno else s
  let all := ps.flatMap fun p => p.cells ++ p.tagCells
  ps.foldl (fun (s : State) p =>
    match s.lostOn? (Config.inFlight s.tick) since p with
    | some link => s.logHost who.pno link
    | none => ((s.clearWhole all p.cells).clearWhole all p.tagCells).atomicPut who (quarterOf core) p p.data p.tags) (s.chargePieces who.launch ps)

/-- The post of an entry that has reached the head of its stream (R375): it releases every object, and reads its source as
one snapshot. -/
def State.readPost (s : State) (key core st : Nat) (g : Gang) (e : Entry) : State :=
  let s := s.releaseAll key
  let a := (Tab.find? e.addrs 0).getD 0#64
  let (bs, ps) := match Tab.find? e.maps (hndOf a) with
    | some h => (s.readBytes (s.partOf g) (quarterOf core) h (offOf a) 64, piecesOf h none (hndOf a) 0 false (offOf a) 64 [] .other)
    | none => (List.replicate 64 0#8, [])
  let bad := s.badPieces ps
  let s := s.heard.chargePieces g.launch ps
  s.updGang key fun g => g.updHead st fun e => { e with sent := true, got := keepBytes e.got 0 0 bs, bad := bad }

/-- A post that has read its source delivers it once its queue is not full (R375). -/
def State.deliverPost (s : State) (key core st : Nat) (g : Gang) (e : Entry) : State :=
  let queue := (((Tab.at e.vals [] 0).getD 0 zeroImg).val).toNat % 65536
  let q := s.queue queue
  let ps := s.slotPieces (s.partOf g) core (q.slot q.tail.toNat) (e.bytes 0 64)
  if q.full || ps.any (fun p => s.atomHolds p.cells) then s
  else
    let who : Writer := ⟨key, st, g.launch, none, s.partOf g, .fin g.launch⟩
    let s := (s.writeSlot who core e.id ps).ring queue
    let s := (s.updGang key fun g => g.popHead st).dropTok key e.tok
    match e.bad with
    | [] => s
    | b :: _ => s.defer key ⟨0x0D, 0, e.act, e.word, b.2.1, BitVec.ofNat 64 (1 + b.2.2 * 256), e.wordAt, e.born⟩

/-- QPOST_DELIVER (R375): the post at the head of its stream, behind the gate of R268, releases every object and reads its
source as one snapshot; it then waits while the target queue is full, and writes the packet. -/
def execQpostDeliver (core ctx st : Nat) (s : State) : Next :=
  .next (match s.keyOf core ctx with
    | none => s
    | some key =>
      match s.gang? key with
      | none => s
      | some g =>
        match g.stream st with
        | [] => s
        | e :: _ =>
          match e.instr with
          | .qpost .. =>
            if e.sent then s.deliverPost key core st g e
            else if g.gated e || (g.streams.any fun t => t.2.any fun (x : Entry) => x.id < e.id && isAccess x.instr)
                || s.hasUndrained key none then s
            else
              let s := s.readPost key core st g e
              match s.gang? key with
              | some g => s.deliverPost key core st g ((g.stream st).headD e)
              | none => s
          | _ => s)

end Sys2Proof.Machine
end

