-- ==== Sys2Proof/Machine/MgmtEvents.lean ====
section
/-! DEFINITION. The management window (R507-R519, R522): its registers and commands, forming and swapping partitions
(R374, R444-R446, R510-R513), worlds (R514), firmware and attestation (R515, R516), the device checkpoint (R517), power
(R518), and the host's accesses to device and host memory (R276, R508). -/

namespace Sys2Proof.Machine

/-! ## The command block (R509, R514) -/

/-- Status codes of commands. -/
def stDone : Nat := 0
def stField : Nat := 2
def stConflict : Nat := 3
def stState : Nat := 4
def stSignature : Nat := 5
def stRoom : Nat := 6
def stWorld : Nat := 7

def Mgmt.busy (m : Mgmt) : Bool := m.mstatus.getLsbD 0
def Mgmt.arg (m : Mgmt) (i : Nat) : Word64 := Tab.at m.marg 0#64 i
def Mgmt.code (m : Mgmt) : Nat := fieldOf m.mcmd 56 8
def Mgmt.part (m : Mgmt) : Nat := fieldOf m.mcmd 51 5
def Mgmt.signed (m : Mgmt) : Bool := m.mcmd.getLsbD 50
def Mgmt.running (m : Mgmt) : Bool := m.fwstat.getLsbD 0

/-- The bytes of some words. -/
def wordBytes (ws : List Word64) : List Byte := ws.flatMap fun w => leBytes 8 w.toNat

/-- Some bytes as n bytes. -/
def fitBytes (n : Nat) (bs : List Byte) : List Byte := (bs ++ List.replicate n 0#8).take n

/-- Changing the window's registers. -/
def State.updMgmt (s : State) (f : Mgmt → Mgmt) : State := { s with mgmt := f s.mgmt }

/-- A command ends with a status. -/
def State.endCmd (s : State) (status : Nat) : State :=
  s.updMgmt fun m => { m with mstatus := BitVec.ofNat 64 (status % 256 * 256) }

/-- Whether the command's signature holds for the owner key (R514). -/
def Mgmt.signatureOk (m : Mgmt) : Bool :=
  edVerify m.owner (sha512 (wordBytes (m.mcmd :: (List.range 24).map m.arg)))
    (wordBytes ((List.range 8).map fun i => m.arg (24 + i)))

/-- What stands against a command before its own rules: reserved bits or a partition number above 19 (R509), a world without
a signature, a signature that fails; 0 when nothing does. -/
def Mgmt.flaw (m : Mgmt) (needs : Bool) : Nat :=
  if fieldOf m.mcmd 0 50 != 0 || 20 ≤ m.part then stField
  else if needs && !m.signed then stWorld
  else if m.signed && !m.signatureOk then stSignature
  else stDone

/-- A command of the window: it runs while MSTATUS.BUSY stands with its code. -/
def State.command (s : State) (code : Nat) (needs : Bool) (run : State → State) : Next :=
  .next (if !s.mgmt.busy || s.mgmt.code != code then s
    else
      let c := s.mgmt.flaw needs
      if c = stDone then run s else s.endCmd c)

/-- Whether the partition that a command names is secure. -/
def State.onSecure (s : State) : Bool := (s.part s.mgmt.part).formed && (s.part s.mgmt.part).secure

/-- Words with zero bits where their map shows zero. -/
def zeroAt (w : Word64) (lo n : Nat) : Bool := fieldOf w lo n == 0

/-! ## Descriptors (R510, R511) -/

def Part.dieBar (p : Part) (q : Nat) : Nat := fieldOf (p.word 3) (8 * q) 8
def Part.pkgBar (p : Part) : Nat := fieldOf (p.word 1) 0 8
def Part.pool (p : Part) : Nat := fieldOf (p.word 6) 0 32
def Part.flashFirst (p : Part) : Nat := fieldOf (p.word 5) 32 32
def Part.flashCount (p : Part) : Nat := fieldOf (p.word 5) 0 32
def Part.ownsNodes (p : Part) : Bool := (p.word 4).getLsbD 0

/-- The formed partitions. -/
def State.formed (s : State) : List Part := (s.parts.map (·.2)).filter fun (p : Part) => p.formed

/-- Whether every field of a descriptor lies in its range. -/
def Part.fieldsOk (p : Part) : Bool :=
  zeroAt (p.word 1) 8 55 && decide (p.pkgBar ≤ 64)
    && (List.range 4).all (fun q => decide (p.dieShare q ≤ 1024) && decide (p.dieBar q ≤ 32))
    && zeroAt (p.word 3) 32 32 && zeroAt (p.word 4) 28 36 && zeroAt (p.word 4) 1 15 && zeroAt (p.word 6) 32 32
    && p.word 7 == 0#64

/-- Whether two partitions share a cluster. -/
def Part.meets (p q : Part) : Bool := p.word 0 &&& q.word 0 != 0#64

/-- Whether a partition's flash region lies where it may, beside those of others. -/
def Part.flashOk (p : Part) (others : List Part) : Bool :=
  p.flashCount = 0 || (decide (6291456 ≤ p.flashFirst) && decide (p.flashFirst + p.flashCount ≤ 0x07FF3000)
    && others.all fun x => !rangesMeet [(p.flashFirst, p.flashCount)] [(x.flashFirst, x.flashCount)])

/-- Whether a partition may stand beside others (R511). -/
def Part.fitsBeside (p : Part) (others : List Part) : Bool :=
  let sum := fun (f : Part → Nat) => f p + (others.map f).sum
  p.word 0 != 0#64
    && (List.range 64).all (fun c => !p.hasCluster c || decide ((others.filter fun x => x.hasCluster c).length ≤ 1))
    && (List.range 4).all (fun q => decide (sum (fun x => x.dieShare q) ≤ 1024) && decide (sum (fun x => x.dieBar q) ≤ 32))
    && decide (sum Part.pkgBar ≤ 64) && decide (sum Part.pool ≤ devicePieces)
    && (!p.ownsNodes || others.all fun x => !x.ownsNodes || !p.meets x)
    && p.flashOk others

/-- The lowest n numbers below `top` that are not taken. -/
def lowestFree (top n : Nat) (taken : List Nat) : List Nat := ((List.range top).filter fun k => !taken.contains k).take n

/-- Bytes from an address read as zero, with no poison. -/
def State.clearBytes (s : State) (lo n : Nat) : State :=
  { s with
    mem := s.mem.filter fun c => !(decide (lo ≤ c.1) && decide (c.1 < lo + n))
    poison := s.poison.filter fun g => !(decide (lo ≤ g.1 * 16) && decide (g.1 * 16 < lo + n)) }

/-- The node banks and edge stores of some cores are zero (R326). -/
def State.clearNodes (s : State) (cores : List Nat) : State :=
  { s with
    nodes := s.nodes.filter fun n => !cores.contains (n.1 / 8192)
    edges := s.edges.filter fun e => !cores.contains (e.1 / 524288)
    edgePoison := s.edgePoison.filter fun e => !cores.contains (e.1 / 524288) }

/-- A partition's tokens and operations leave the order machine. -/
def State.forgetPart (s : State) (pno : Nat) : State :=
  { s with
    ranges := Tab.del s.ranges pno
    bufs := s.bufs.filter fun b => match b.obj with
      | .token p _ => p != pno
      | _ => true }

/-- The pieces of a quarter's die scratchpad that a partition takes beside others: the lowest free ones. -/
def Part.takeDie (d : Part) (others : List Part) (q : Nat) : List Nat :=
  lowestFree 1024 (d.dieShare q) (others.flatMap fun x => x.diePiecesOf q)

/-- The state at formation (R512). -/
def State.form (s : State) (pno : Nat) (d : Part) (others : List Part) : State :=
  let places := (List.range 4).map (d.takeDie others)
  let p : Part := { d with
    formed := true
    diePieces := places
    dieWires := (List.range 4).map fun q => lowestFree 32 (d.dieBar q) (others.flatMap fun x => x.dieWires.getD q [])
    pkgWires := lowestFree 64 d.pkgBar (others.flatMap (·.pkgWires))
    shadow := d.cores.map fun c => (c, ⟨Core.fresh, [], [], [], []⟩) }
  let s := (indexFrom 0 places).foldl (fun (s : State) qs =>
    qs.2.foldl (fun (s : State) k => s.clearBytes (dieBaseOf qs.1 + k * 65536) 65536) s) (s.forgetPart pno)
  let s := if d.ownsNodes then s.clearNodes d.cores else s
  s.setPart pno p

/-- PFORM (R510-R512). -/
def execPform (s : State) : Next :=
  let d : Part := { Part.unformed with desc := (List.range 8).map s.mgmt.arg }
  s.command 0x01 (d.secure || s.onSecure) fun s =>
    let pno := s.mgmt.part
    let others := s.formed
    if !d.fieldsOk then s.endCmd stField
    else if (s.part pno).formed || s.mgmt.power == 3#2 then s.endCmd stState
    else if !d.fitsBeside others then s.endCmd stConflict
    else (s.form pno d others).endCmd stDone

/-- Whether a queue holds no packet (R353). -/
def Queue.idle (q : Queue) : Bool := q.tail == q.head && q.head == BitVec.ofNat 32 q.comp.toNat

/-- A queue with its owner. -/
def Queue.ownedBy (q : Queue) (pno : Nat) : Queue := { q with w1 := (q.w1 &&& ~~~(ones 0 5)) ||| BitVec.ofNat 64 (pno % 32) }

/-- PDISSOLVE (R511): handles, pieces, wires and queues are free. -/
def execPdissolve (s : State) : Next :=
  s.command 0x02 s.onSecure fun s =>
    let pno := s.mgmt.part
    let p := s.part pno
    if !p.formed || p.inn || !(s.queues.all fun q => q.2.part != pno || q.2.idle) then s.endCmd stState
    else
      let s := (s.forgetPart pno).setPart pno Part.unformed
      let s := { s with
        queues := s.queues.map fun (q : Nat × Queue) => (q.1, if q.2.part = pno then q.2.ownedBy 31 else q.2)
        waves := s.waves.filter fun (w : Nat × Wave) => w.2.pno != pno }
      let s := if fieldOf s.mgmt.apbase 59 5 = pno then s.updMgmt fun m => { m with apbase := 0#64 } else s
      s.endCmd stDone

/-! ## Swapping out (R374, R444, R445) -/

/-- The gangs that stand on the cores of a partition. -/
def State.gangsOn (s : State) (p : Part) : List (Nat × Gang) := s.gangs.filter fun kg => p.hasCluster (clusterOf (coreOf kg.1))

/-- Whether the contexts of every core fit its shadow bank (R445). -/
def State.swapFits (s : State) (p : Part) : Bool :=
  let gs := (s.gangsOn p).filter fun kg => kg.2.alive
  p.cores.all fun c => decide (((gs.filter fun kg => coreOf kg.1 == c).map fun kg => kg.2.imageSize).sum ≤ 1568 * 1024)

/-- PSWAPOUT (R374, R445): the partition stops, or the swap is refused. -/
def execPswapout (s : State) : Next :=
  s.command 0x03 s.onSecure fun s =>
    let pno := s.mgmt.part
    let p := s.part pno
    if p.stopping then s
    else if !p.formed || !p.inn then s.endCmd stState
    else if !s.swapFits p then s.endCmd stRoom
    else s.setPart pno { p with stopping := true }

/-- Whether an entry is a post that waits for a full queue. -/
def State.postWaits (s : State) (e : Entry) : Bool :=
  match e.instr with
  | .qpost .. => (s.queue ((((Tab.at e.vals [] 0).getD 0 zeroImg).val).toNat % 65536)).full
  | _ => false

/-- Whether a release step is one that a swap-out waits for. -/
def Rel.holdsSwap (r : Rel) : Bool :=
  match r.kind with
  | .barrier _ | .retire => true
  | _ => false

/-- Whether a wave belongs to an operation that has registered and not started, which a swap saves. -/
def State.unstarted (s : State) (w : Wave) : Bool :=
  !w.foreign && (s.op? w.origin 2 w.num).any fun o => o.phase == .registered && o.gang == w.gang

/-- Whether a result is that of a waiting RES or TAKE request, which a swap saves. -/
def Core.asksFor (c : Core) (pend : Nat) : Bool := c.cbs.any fun cb => (cb.2.waitRes ++ cb.2.waitTake).any fun r => r.pend == pend

/-- Whether the waits of R444 are over for a partition. -/
def State.swapReady (s : State) (pno : Nat) (p : Part) : Bool :=
  let gs := s.gangsOn p
  let mine := fun (k : Nat) => p.hasCluster (clusterOf (coreOf k))
  gs.all (fun kg => kg.2.streams.all fun st => st.2.all s.postWaits)
    && gs.all (fun kg => kg.2.pend.all fun q => q.landed || (s.core (coreOf kg.1)).asksFor q.id)
    && s.cores.all (fun c => !p.hasCluster (clusterOf c.1)
      || c.2.engines.all fun e => e.2.ops.all fun (o : Op) => o.phase == .registered)
    && s.waves.all (fun w => w.2.pno != pno || w.2.ended || s.unstarted w.2 || (w.2.foreign && w.2.engs.isEmpty))
    && s.atoms.all (fun (a : AtomReq) => !mine a.gang) && s.fab.all (fun (f : FabOp) => !mine f.gang)
    && s.hops.all (fun (h : HandleOp) => h.pno != pno)
    && s.rels.all fun (r : Rel) => !(mine r.gang && r.holdsSwap)

/-- A gang that is discarded in an IDEM region, in its restart state (R374). -/
def Gang.restart (g : Gang) (i : Idem) (part : Nat) : Gang :=
  { g with
    regs := i.regs
    hregs := i.hregs
    masks := []
    toks := []
    st := if g.st == .waiting then .ready else g.st
    pend := []
    owed := []
    deferred := []
    waits := []
    fetched := []
    streams := g.streams.map fun st => (st.1, st.2.map fun (e : Entry) => { e with tok := 0 })
    life := (indexFrom 0 g.life).map fun l => if l.2 == .live && !inMask i.live l.1 then Life.exited else l.2
    flow := lanes32.map fun l =>
      if inMask i.live l && inMask g.live l then ⟨i.entry, 0#64, 0, 0#6, 0#2, false, part, 0#64⟩ else g.flowAt l }

/-- The name of the one part of a team. -/
def State.teamPart (s : State) (key : Nat) : Nat :=
  (((s.team key).flatMap fun kg => (maskLanes kg.2.live).map fun l => (kg.2.flowAt l).part).min?).getD 0

/-- A gang as a swap saves it. -/
def State.savedGang (s : State) (key : Nat) (g : Gang) : Gang :=
  match g.idem with
  | some i => g.restart i (s.teamPart key)
  | none => g

/-- The operations of discarded gangs count on no token (R374). -/
def Core.untoken (c : Core) (dead : Nat → Bool) : Core :=
  let pre := fun (p : Pre) => if dead p.gang then { p with tok := 0, pend := 0 } else p
  let claim := fun (q : Claim) => if dead q.gang then { q with tok := 0 } else q
  { c with
    engines := c.engines.map fun e =>
      (e.1, { e.2 with ops := e.2.ops.map fun (o : Op) => if dead o.gang then { o with tok := 0, pend := 0 } else o })
    mxq := c.mxq.map pre
    ndq := c.ndq.map pre
    claims := c.claims.map claim
    orels := c.orels.map claim }

/-- Whether an address lies in what a swap moves with a core: its scratchpad, its operand memory, and its share of its
cluster's scratchpad. -/
def swapBytes (core a : Nat) : Bool :=
  (decide (coreBase core ≤ a) && decide (a < coreBase core + 2 ^ 19))
    || (decide (operandBase core ≤ a) && decide (a < operandBase core + 2 ^ 18))
    || (let b := clusterBase (clusterOf core) + core % 16 * 2 ^ 19
        decide (b ≤ a) && decide (a < b + 2 ^ 19))

/-- What stays with a core while partitions take turns on it: its cycle counter (R52). The balance counters are those since
the partition's formation (R368, R512). -/
def Core.carryTo (old new : Core) : Core := { new with cycle := old.cycle }

/-- What a swap saves of a core. -/
def State.shadowOf (s : State) (core : Nat) : Shadow :=
  let gs := s.gangs.filter fun kg => coreOf kg.1 == core
  let dead := fun (k : Nat) => (s.gang? k).elim false fun g => g.idem.isSome
  ⟨(s.core core).untoken dead, s.mem.filter fun c => swapBytes core c.1, s.poison.filter fun g => swapBytes core (g.1 * 16),
    gs.map fun kg => (kg.1, s.savedGang kg.1 kg.2),
    s.waves.filter fun w => w.2.origin == core && s.unstarted w.2⟩

/-- The token requests and releases of discarded gangs count on no token. -/
def State.untokenPart (s : State) (pno : Nat) (dead : Nat → Bool) : State :=
  let s := s.updPart pno fun p => { p with tokens := p.tokens.map fun t =>
    (t.1, { t.2 with reqs := t.2.reqs.map fun r => if dead r.1 then (r.1, r.2.1, 0) else r }) }
  { s with rels := s.rels.map fun (r : Rel) => if dead r.gang then { r with tok := 0 } else r }

/-- SWAPOUT_SAVE (R444): the state moves to the shadow banks, and the command ends. -/
def execSwapoutSave (pno : Nat) (s : State) : Next :=
  let p := s.part pno
  .next (if !p.formed || !p.inn || !p.stopping || !s.swapReady pno p then s
    else
      let cores := p.cores
      let dead := fun (k : Nat) => p.hasCluster (clusterOf (coreOf k)) && (s.gang? k).elim false fun g => g.idem.isSome
      let shadow := cores.map fun c => (c, s.shadowOf c)
      let s := s.untokenPart pno dead
      let moved := fun (a : Nat) => cores.any fun c => swapBytes c a
      let s := { s with
        mem := s.mem.filter fun c => !moved c.1
        poison := s.poison.filter fun g => !moved (g.1 * 16)
        gangs := s.gangs.filter fun kg => !p.hasCluster (clusterOf (coreOf kg.1))
        cores := cores.foldl (fun t c => Tab.put t c ((s.core c).carryTo Core.fresh)) s.cores
        waves := s.waves.filter fun (w : Nat × Wave) => w.2.pno != pno }
      let s := s.updPart pno fun x => { x with inn := false, stopping := false, shadow := shadow }
      let s := if s.parts.any fun x => x.2.inn then s else s.updMgmt fun m => { m with power := 1#2 }
      s.endCmd stDone)

/-! ## Swapping in (R446, R511) -/

/-- A core's saved state is back in place. -/
def State.restoreCore (s : State) (core : Nat) (h : Shadow) : State :=
  { s with
    cores := Tab.put s.cores core ((s.core core).carryTo h.core)
    mem := Memory.sets s.mem h.mem
    poison := h.poison.foldl (fun t g => Tab.put t g.1 ()) s.poison
    gangs := h.gangs.foldl (fun t kg => Tab.put t kg.1 kg.2) s.gangs
    waves := h.waves.foldl (fun t w => Tab.put t w.1 w.2) s.waves }

/-- PSWAPIN (R446, R511, R518). -/
def execPswapin (s : State) : Next :=
  s.command 0x04 s.onSecure fun s =>
    let pno := s.mgmt.part
    let p := s.part pno
    if !p.formed || p.inn || (s.formed.any fun x => x.inn && x.meets p) then s.endCmd stState
    else
      let s := p.shadow.foldl (fun (s : State) h => s.restoreCore h.1 h.2) s
      let s := s.setPart pno { p with inn := true, shadow := [] }
      (s.updMgmt fun m => { m with power := 0#2 }).endCmd stDone

/-! ## CORESET (R522) -/

/-- The settings of a core: quantum, threshold, budget and weight plane. -/
def Core.setTo (c : Core) (sched budget node : Word64) : Core :=
  { c with quantum := fieldOf sched 16 8, swapthr := fieldOf sched 0 16, budget := fieldOf budget 48 16, wplane := node.getLsbD 0 }

/-- CORESET of a core. -/
def State.setCoreRegs (s : State) (n : Nat) (sched budget node : Word64) : State :=
  if 1024 ≤ n || !zeroAt sched 24 40 || fieldOf sched 16 8 = 0 || !zeroAt budget 0 48 || !zeroAt node 1 63 then s.endCmd stField
  else if s.formed.any fun p => p.inn && p.hasCluster (clusterOf n) then s.endCmd stState
  else
    let s := s.updCore n fun c => c.setTo sched budget node
    let keep := fun (p : Part) =>
      { p with shadow := p.shadow.map fun h => (h.1, if h.1 = n then { h.2 with core := h.2.core.setTo sched budget node } else h.2) }
    State.endCmd { s with parts := s.parts.map fun p => (p.1, keep p.2) } stDone

/-- CORESET of a stack. -/
def State.setStackRegs (s : State) (n : Nat) (w : Word64) : State :=
  if 8 ≤ n || !zeroAt w 40 24 || !zeroAt w 0 28 then s.endCmd stField
  else
    (s.setStack n { s.stack n with thresh := BitVec.ofNat 8 (fieldOf w 32 8), idle16 := BitVec.ofNat 4 (fieldOf w 28 4) }).endCmd stDone

/-- A queue's reserved shares. -/
def Queue.memShare (q : Queue) : Nat := fieldOf q.w1 48 8
def Queue.fabShare (q : Queue) : Nat := fieldOf q.w1 40 8

/-- Whether a descriptor's fields lie in their ranges (R353). -/
def Queue.fieldsOk (q : Queue) : Bool :=
  decide (1 ≤ q.logSlots) && decide (q.logSlots ≤ 16) && zeroAt q.w1 5 11 && (decide (q.part < 20) || q.part == 31)
    && zeroAt q.w0 0 (6 + q.logSlots)

/-- Whether the shares of a queue's partition still fit, with the queue in place. -/
def State.sharesFit (s : State) (n : Nat) (q : Queue) : Bool :=
  let mates := (s.queues.filter fun x => x.1 != n && x.2.part == q.part).map (·.2)
  q.part = 31 || (decide (q.memShare + (mates.map Queue.memShare).sum ≤ 256)
    && decide (q.fabShare + (mates.map Queue.fabShare).sum ≤ 256))

/-- CORESET of a queue. -/
def State.setQueueRegs (s : State) (n : Nat) (w0 w1 : Word64) : State :=
  let old := s.queue n
  let q := { old with w0 := w0, w1 := w1 }
  if 65536 ≤ n || !q.fieldsOk then s.endCmd stField
  else if !old.idle then s.endCmd stState
  else if !s.sharesFit n q then s.endCmd stConflict
  else (s.setQueue n q).endCmd stDone

/-- CORESET of a partition. -/
def State.setPartRegs (s : State) (pno : Nat) (w : Word64) : State :=
  if 20 ≤ pno || !zeroAt w 17 47 then s.endCmd stField
  else if !(s.part pno).formed then s.endCmd stState
  else (s.updPart pno fun p => { p with partsys := w }).endCmd stDone

/-- Whether a CORESET needs a signature: a queue that a secure partition owns or is to own, or a secure partition. -/
def State.coresetSecure (s : State) : Bool :=
  let m := s.mgmt
  let sec := fun (p : Nat) => (s.part p).formed && (s.part p).secure
  (m.arg 0 == 2#64 && (sec (s.queue (m.arg 1).toNat).part || sec (fieldOf (m.arg 3) 0 5)))
    || (m.arg 0 == 3#64 && sec (m.arg 1).toNat)

/-- CORESET (R522). -/
def execCoreset (s : State) : Next :=
  s.command 0x05 s.coresetSecure fun s =>
    let m := s.mgmt
    let n := (m.arg 1).toNat
    if m.part != 0 then s.endCmd stField
    else if m.arg 0 == 0#64 then s.setCoreRegs n (m.arg 2) (m.arg 3) (m.arg 4)
    else if m.arg 0 == 1#64 then s.setStackRegs n (m.arg 2)
    else if m.arg 0 == 2#64 then s.setQueueRegs n (m.arg 2) (m.arg 3)
    else if m.arg 0 == 3#64 then s.setPartRegs n (m.arg 2)
    else s.endCmd stField

/-! ## Device checkpoint (R517) -/

/-- The PROP code of a device-memory piece: that of a handle that maps it. -/
def State.pieceProp (s : State) (piece : Nat) : Nat :=
  ((s.parts.flatMap fun p => p.2.handles.map (·.2)).find? fun (h : Handle) => h.devPieces.contains piece).elim 0
    fun h => attrProp h.attr

/-- Where the newest state of a device byte stands once everything has drained: quarter 0's view for NONATOMIC, the image
otherwise. -/
def State.savedLoc (s : State) (a : Nat) : Nat := if s.pieceProp (a / 65536) = 1 then quarterBase 0 + a else a

/-- Every window path, view, copy and host store queue drains (R271). -/
def State.drainDevice (s : State) : State :=
  let s := (s.log.map fun (w : GWrite) => w.id).foldl (fun (s : State) i => s.everywhere i) s
  ((s.hostQ.map fun (h : HostStore) => h.pno).dedup).foldl (fun (s : State) p => s.drainHostAll p) s

/-- Whether a flash address lies in the device checkpoint. -/
def inCheckpoint (a : Nat) : Bool := decide (flashBase 0 ≤ a) && decide (a < flashBase 6291456)

/-- What the shadow bank of a core holds: what is saved there of each partition, in partition order. -/
def State.bank (s : State) (core : Nat) : List Shadow :=
  (s.parts.filter fun p => p.2.formed).filterMap fun p => Tab.find? p.2.shadow core

/-- The shadow banks. -/
def State.shadows (s : State) : Tab (List Shadow) :=
  ((List.range 1024).map fun c => (c, s.bank c)).filter fun b => !b.2.isEmpty

/-- A partition's saved cores from the flash: of each core's bank, what was saved in the partition's place there. -/
def State.fromFlash (s : State) (pno : Nat) (p : Part) : Part :=
  let place := fun (core : Nat) =>
    (s.parts.filter fun x => x.2.formed && decide (x.1 < pno) && (Tab.find? x.2.shadow core).isSome).length
  { p with shadow := p.shadow.map fun h => (h.1, (Tab.at s.flashShadow [] h.1).getD (place h.1) h.2) }

/-- Device memory as the checkpoint holds it; what fails to arrive counts as poisoned (R480). -/
def State.saveDevice (s : State) : State :=
  let bytes := (s.mem.filter fun c => decide (c.1 < 5 * 2 ^ 39) && s.savedLoc (c.1 % 2 ^ 39) == c.1).map fun c =>
    (flashBase 0 + c.1 % 2 ^ 39, c.2)
  let marks := (s.poison.filter fun g => decide (g.1 < 2 ^ 35)).map fun g => flashBase 0 / 16 + g.1
  let t := { s with
    mem := Memory.sets (s.mem.filter fun c => !inCheckpoint c.1) bytes
    poison := marks.foldl (fun t g => Tab.put t g ()) (s.poison.filter fun g => !inCheckpoint (g.1 * 16)) }
  (t.poisonCells ((s.lost.filter (· < 2 ^ 39)).map (flashBase 0 + ·))).heard

/-- Device memory from the checkpoint. -/
def State.loadDevice (s : State) : State :=
  let bytes := (s.mem.filter fun c => inCheckpoint c.1).map fun c => (c.1 - flashBase 0, c.2)
  let marks := (s.poison.filter fun g => inCheckpoint (g.1 * 16)).map fun g => g.1 - flashBase 0 / 16
  { s with
    mem := Memory.sets (s.mem.filter fun c => !decide (c.1 < 5 * 2 ^ 39))
      ((List.range 5).flatMap fun q => bytes.map fun c => (q * 2 ^ 39 + c.1, c.2))
    poison := marks.foldl (fun t g => Tab.put t g ()) (s.poison.filter fun g => !decide (g.1 < 2 ^ 35)) }

/-- A device checkpoint command: MARG0 holds SHADOW alone, and every partition is swapped out. -/
def State.checkpoint (s : State) (code : Nat) (run : Bool → State → State) : Next :=
  s.command code false fun s =>
    if !zeroAt (s.mgmt.arg 0) 1 63 then s.endCmd stField
    else if s.parts.any fun p => p.2.inn then s.endCmd stState
    else (run ((s.mgmt.arg 0).getLsbD 0) s).endCmd stDone

/-- CKSAVE (R517). -/
def execCksave (s : State) : Next :=
  s.checkpoint 0x06 fun shadow s =>
    let s := s.drainDevice.saveDevice
    if shadow then { s with flashShadow := s.shadows } else s

/-- CKLOAD (R517). -/
def execCkload (s : State) : Next :=
  s.checkpoint 0x07 fun shadow s =>
    let s := s.drainDevice.loadDevice
    if !shadow then s
    else { s with parts := s.parts.map fun p => (p.1, s.fromFlash p.1 p.2) }

/-! ## Firmware and attestation (R515, R516) -/

/-- Bytes of a firmware image, by a reader of its bytes. -/
def imageBytes (f : Nat → Byte) (o n : Nat) : List Byte := (List.range n).map fun i => f (o + i)
/-- A header field as a number. -/
def imageField (f : Nat → Byte) (o n : Nat) : Nat := leNat (imageBytes f o n)
/-- The header is 176 bytes, and the body follows it. -/
def fwHeader : Nat := 0xB0
def fwLength (f : Nat → Byte) : Nat := imageField f 0x0C 4
def fwMagic (f : Nat → Byte) : Bool := imageField f 0 8 == 0x53564E4B46570001
def fwBody (f : Nat → Byte) : List Byte := imageBytes f fwHeader (fwLength f)

/-- Whether an image of at most `room` bytes passes the checks of its header. -/
def fwOk (f : Nat → Byte) (room rollback : Nat) : Bool :=
  fwMagic f && decide (rollback ≤ imageField f 0x08 4) && decide (fwHeader + fwLength f ≤ room)
    && sha512 Config.swenikKey == Config.swenikDigest
    && sha512 (fwBody f) == imageBytes f 0x10 64
    && edVerify Config.swenikKey (sha512 (imageBytes f 0 0x70)) (imageBytes f 0x70 64)

/-- The first flash block of the firmware image, and the room for it. -/
def fwBlock : Nat := 0x07FFF000
def fwRoom : Nat := 0x1000 * 65536
/-- A byte of the image in the flash. -/
def State.fwByte (s : State) (i : Nat) : Byte := Memory.get s.mem (flashBase fwBlock + i)

/-- The Ed25519 seed of a device's identity or recovery key pair, as the device derives it from its fused secret and a
digest. -/
def keySeed (digest : List Byte) : List Byte := fitBytes 32 (Config.deriveSeed Config.fusedSecret (fitBytes 64 digest))
/-- The first eight bytes of a public key, as MID shows them. -/
def midOf (seed : List Byte) : Word64 := leWord (fitBytes 8 (edPublic seed))

/-- PSTATE (R513). -/
def Part.pstate (p : Part) : Word64 := BitVec.ofNat 64 ((if p.inn then 2 else 0) + (if p.formed then 1 else 0))

/-- The seed that signs reports: the running image's, or the recovery key's. -/
def Mgmt.seed (m : Mgmt) : List Byte := keySeed (if m.running then m.fwDigest else [])

/-- The first 192 bytes of a report. -/
def State.reportBody (s : State) : List Byte :=
  let m := s.mgmt
  wordBytes ((List.range 4).map m.arg) ++ fitBytes 64 m.fwDigest
    ++ (if m.running then fitBytes 64 (sha512 (s.formed.flatMap fun p =>
        wordBytes ((List.range 8).map p.word ++ [p.pstate]))) else List.replicate 64 0#8)
    ++ fitBytes 32 (edPublic m.seed)

/-- ATTEST (R516). -/
def execAttest (s : State) : Next :=
  s.command 0x08 false fun s =>
    let body := s.reportBody
    let report := body ++ fitBytes 64 (edSign s.mgmt.seed (sha512 body))
    (s.updMgmt fun m => { m with marg := (List.range 32).map fun i => (i, leWord ((report.drop (8 * i)).take 8)) }).endCmd stDone

/-! ## The aperture (R508) -/

def Mgmt.apPart (m : Mgmt) : Nat := fieldOf m.apbase 59 5
def Mgmt.apBase (m : Mgmt) : Nat := fieldOf m.apbase 22 13 * 2 ^ 27
/-- The length of the aperture. -/
def apLength : Nat := 2 ^ 27

/-- The extent that the aperture admits at some bytes: none where it refuses them. -/
def State.aperture? (s : State) (ofs n : Nat) : Option Handle :=
  let m := s.mgmt
  if !m.apbase.getLsbD 0 then none
  else
    match Tab.find? (s.part m.apPart).handles (fieldOf m.apbase 35 24) with
    | none => none
    | some h =>
      if attrValid h.attr && attrSpace h.attr == 0 && decide (m.apBase + ofs + n ≤ attrBytes h.attr)
          && (!attrSecure h.attr || m.apbase.getLsbD 1) then some h
      else none

/-- A byte that the host reads through the aperture: all ones where it is refused. -/
def State.apByte (s : State) (ofs : Nat) : Byte :=
  match s.aperture? ofs 1 with
  | some h => s.newestByte 0 h.cls (h.phys (s.mgmt.apBase + ofs))
  | none => 0xFF#8

/-- A write piece of the host: numbered, in no window path, and in every image, view and copy at once. -/
def State.hostPiece (s : State) (pno : Nat) (all : List Nat) (p : Piece) : State :=
  let s := (s.clearWhole all p.cells).clearWhole all p.tagCells
  let put := fun (s : State) (c : Cls) (cells : List (Nat × Byte)) =>
    match c with
    | .dev lin prop =>
      if cells.isEmpty then s
      else
        let (t, w) := s.logWrite ⟨0, 0, 0, none, pno, .fin 0⟩ 0 lin prop cells false
        t.everywhere w.id
    | _ => s.writeCells ⟨0, 0, 0, none, pno, .fin 0⟩ 0 c cells
  put (put s p.cls (List.zip p.cells p.data)) p.tagCls (List.zip p.tagCells p.tags)

/-- APERTURE_ACCESS (R508): a read changes nothing; a write performs in host order, or is refused and logged. -/
def execApertureAccess (ofs size : Nat) (wr : Option (List (BitVec 8))) (s : State) : Next :=
  let busy := s.mgmt.busy && (s.mgmt.code = 0x06 || s.mgmt.code = 0x07)
  .next (if busy || size = 0 || apLength < ofs + size then s
    else
      match wr with
      | none => s
      | some bs =>
        if bs.length != size then s
        else
          match s.aperture? ofs size with
          | none => s.logFabric 9 s.mgmt.apPart 0 0 0 0
          | some h =>
            let o := s.mgmt.apBase + ofs
            let ps := piecesOf h (s.tagPlane s.mgmt.apPart 0 h) (fieldOf s.mgmt.apbase 35 24) 0 true o size bs .other
            ps.foldl (fun (s : State) p => s.hostPiece s.mgmt.apPart (ps.flatMap fun p => p.cells ++ p.tagCells) p) s)

/-- APSET (R508, R509). -/
def execApset (s : State) : Next :=
  s.command 0x0A (s.mgmt.arg 0 |>.getLsbD 1) fun s =>
    let w := s.mgmt.arg 0
    if !zeroAt w 2 20 || 20 ≤ fieldOf w 59 5 then s.endCmd stField
    else (s.updMgmt fun m => { m with apbase := w }).endCmd stDone

/-- FWLOAD (R515): the image at the aperture's start is checked and written to the flash. -/
def execFwload (s : State) : Next :=
  s.command 0x09 false fun s =>
    if !fwOk s.apByte apLength s.mgmt.rollback then s.endCmd stSignature
    else
      let n := fwHeader + fwLength s.apByte
      let bytes := (List.range n).map fun i => (flashBase fwBlock + i, s.apByte i)
      let s := { s with
        mem := Memory.sets s.mem bytes
        poison := s.poison.filter fun g => !(decide (flashBase fwBlock ≤ g.1 * 16) && decide (g.1 * 16 < flashBase fwBlock + n)) }
      s.endCmd stDone

/-! ## The window's registers (R507) -/

/-- Whether the fence of R496 has run for a dead plane: its lines have moved, or no plane is live to take them and
nothing is out on it. -/
def State.fenceRun (s : State) (p : Nat) : Bool :=
  (Tab.find? s.planeVia p).isSome || (!((List.range 8).any s.planeLive) && !s.outOn p p)

/-- A write of PLANEDEAD: a bit is cleared only after the plane's fence. -/
def State.setPlaneDead (s : State) (v : BitVec 8) : State :=
  let held : BitVec 8 := BitVec.ofNat 8 (((List.range 8).filter fun p => s.planeDead.getLsbD p && !s.fenceRun p).map (2 ^ ·)).sum
  { s with planeDead := v ||| held }

/-- The commands that are answered: all while firmware runs and the device has power, else ATTEST and FWLOAD alone. -/
def Mgmt.answers (m : Mgmt) (code : Nat) : Bool := (m.running && m.power != 3#2) || code = 0x08 || code = 0x09

/-- A write of MCMD: a command begins, or a reserved code ends at once with status 2. -/
def State.writeMcmd (s : State) (v : Word64) : State :=
  let code := fieldOf v 56 8
  if s.mgmt.busy || !s.mgmt.answers code then s
  else
    let s := s.updMgmt fun m => { m with mcmd := v, mstatus := 1#64 }
    if 1 ≤ code && code ≤ 0x0A then s else s.endCmd stField

/-- BAR0_WRITE (R507): an aligned 8-byte word; any other write, and one to a read-only register, is ignored. -/
def execBar0Write (ofs size : Nat) (v : BitVec 64) (s : State) : Next :=
  let pblock := (ofs - 0x10000) / 0x10000
  let acl := ofs % 0x10000 - 0x8000
  .next (if size != 8 || ofs % 8 != 0 then s
    else if ofs = 0x18 then s.updMgmt fun m => { m with errvec := v &&& ones 0 11 }
    else if ofs = 0x20 then s.setPlaneDead (v.setWidth 8)
    else if ofs = 0x1000 then s.writeMcmd v
    else if 0x1040 ≤ ofs && ofs < 0x1140 then s.updMgmt fun m => { m with marg := Tab.put m.marg ((ofs - 0x1040) / 8) v }
    else if 0x10000 ≤ ofs && pblock < 20 && 0x8000 ≤ ofs % 0x10000 then
      if (s.part pblock).formed then s.updPart pblock fun p => { p with acl := Tab.put p.acl (acl / 8) (v &&& ~~~(ones 1 23)) }
      else s
    else s)

/-- TELEM (R519): the power state, and what the sensors read. -/
def State.telem (s : State) : Word64 :=
  let temp := fun (k : Nat) => (Config.sensorTemp s.tick k).toNat
  BitVec.ofNat 64 (s.mgmt.power.toNat * 2 ^ 62 + (Config.sensorPower s.tick).toNat * 2 ^ 48 + temp 3 * 2 ^ 40 + temp 2 * 2 ^ 32
    + temp 1 * 2 ^ 24 + temp 0 * 2 ^ 16 + temp 4 * 2 ^ 8)

/-- Word i of a log entry that stands at a place of its log, zero where none stands. -/
def logWord (log : List LogRow) (k i : Nat) : Word64 :=
  match log[k]? with
  | none => 0#64
  | some r => if i = 0 then r.w0 else if i = 1 then r.w1 else if i = 2 then r.w2 else 0#64

/-- A core's state as the window shows it (R507), and whether a launch of PRIO 7 is on it: the live one while a partition that
holds the core is swapped in, else what the lowest-numbered partition has saved of it (DESIGN CHOICE, log 148). -/
def State.shownCore (s : State) (k : Nat) : Core × Bool :=
  let saved := s.parts.filterMap fun p => if p.2.formed then Tab.find? p.2.shadow k else none
  if s.parts.any fun p => p.2.formed && p.2.inn && p.2.hasCluster (clusterOf k) then (s.core k, s.budgetMode k)
  else match saved with
    | h :: _ => (h.core, h.gangs.any fun kg => kg.2.alive && kg.2.qpri == 7)
    | [] => (s.core k, s.budgetMode k)

/-- What a read of a register of BAR0 returns (R507): an aligned 8-byte word; any other read returns zero. The logs show
their oldest entry first. -/
def State.bar0Word (s : State) (ofs : Nat) : Word64 :=
  let m := s.mgmt
  let at_ := fun (base : Nat) => (ofs - base) / 8
  if ofs < 0x1000 then [m.mid, m.fwstat, s.telem, m.errvec, s.planeDead.setWidth 64, m.apbase].getD (ofs / 8) 0#64
  else if ofs < 0x2000 then
    if ofs = 0x1000 then m.mcmd else if ofs = 0x1008 then m.mstatus
    else if 0x1040 ≤ ofs && ofs < 0x1140 then m.arg (at_ 0x1040) else 0#64
  else if 0x10000 ≤ ofs && ofs < 0x150000 then
    let p := s.part (at_ 0x10000 / 8192)
    let o := ofs % 0x10000
    if o = 0 then p.pstate else if o = 8 then p.partsys
    else if 0x8000 ≤ o then Tab.at p.acl 0#64 ((o - 0x8000) / 8) else 0#64
  else if 0x400000 ≤ ofs && ofs < 0x600000 then
    let q := s.queue (at_ 0x400000 / 4)
    [q.w0, q.w1, q.tail.setWidth 64 <<< 32 ||| q.head.setWidth 64,
      q.comp.setWidth 64 <<< 16 ||| q.lstat.setWidth 64 <<< 8].getD (at_ 0x400000 % 4) 0#64
  else if 0x600000 ≤ ofs && ofs < 0x640000 then
    let k := at_ 0x600000 / 32
    let (c, charging) := s.shownCore k
    [c.schedctl, c.mxbudget, c.nodecfg, c.balstat, c.mxwakeWith charging].getD (at_ 0x600000 % 32) 0#64
  else if 0x640000 ≤ ofs && ofs < 0x640800 then
    let k := at_ 0x640000 / 32
    let x := s.stack k
    [s.stackWord k, BitVec.ofNat 64 (x.thresh.toNat * 2 ^ 32 + x.idle16.toNat * 2 ^ 28)].getD (at_ 0x640000 % 32) 0#64
  else if 0x680000 ≤ ofs && ofs < 0x688000 then logWord m.errlog (at_ 0x680000 / 4) (at_ 0x680000 % 4)
  else if 0x688000 ≤ ofs && ofs < 0x68A000 then
    let r := logWord m.fablog (at_ 0x688000 / 2)
    if at_ 0x688000 % 2 = 0 then r 0 else r 2
  else 0#64

/-- A host read of BAR0 below the aperture. -/
def State.bar0Read (s : State) (ofs size : Nat) : Word64 := if size = 8 && ofs % 8 = 0 then s.bar0Word ofs else 0#64

/-! ## Reset and power (R515, R516, R518) -/

/-- What lasts without power: the flash, the host's memory, and what is fused. -/
def State.cold (s : State) (m : Mgmt) : State :=
  { State.reset with
    tick := s.tick
    nextId := s.nextId
    agenda := s.agenda
    mem := s.mem.filter fun c => decide (flashBase 0 ≤ c.1)
    poison := s.poison.filter fun g => decide (flashBase 0 ≤ g.1 * 16)
    flashShadow := s.flashShadow
    mgmt := { m with rollback := s.mgmt.rollback, irqs := s.mgmt.irqs } }

/-- The boot ROM checks the image, and runs it or answers in its place. -/
def State.boot (s : State) : State :=
  let f := s.fwByte
  let digest := sha512 (fwBody f)
  let rb := imageField f 0x08 4
  if fwOk f fwRoom s.mgmt.rollback then
    s.updMgmt fun m => { m with
      fwstat := BitVec.ofNat 64 (rb * 2 ^ 32 + 1)
      rollback := max m.rollback rb
      owner := imageBytes f 0x50 32
      fwDigest := digest
      mid := midOf (keySeed digest) }
  else
    s.updMgmt fun m => { m with
      fwstat := 0#64
      fwDigest := if fwMagic f && decide (fwHeader + fwLength f ≤ fwRoom) then digest else List.replicate 64 0#8
      mid := midOf (keySeed []) }

/-- RESET_BOOT (R515): the device is reset, and boots. -/
def execResetBoot (s : State) : Next := .next (s.cold Mgmt.fresh).boot

/-- Whether an address lies in a scratchpad or in operand memory, which lose their bytes when the dies lose power. -/
def inDies (a : Nat) : Bool := decide (2 ^ 42 ≤ a) && decide (a < flashBase 0)

/-- The compute dies and the under-die logic lose power: of them only the shadow banks, the node banks and the edge stores
keep what they hold (R518). -/
def State.powerDown (s : State) : State :=
  { s with
    mem := s.mem.filter fun c => !inDies c.1
    poison := s.poison.filter fun g => !inDies (g.1 * 16)
    cores := [] }

/-- POWER_D3HOT (R518): IDLE becomes HOLD. -/
def execPowerD3hot (s : State) : Next :=
  .next (if s.mgmt.power == 1#2 && !(s.parts.any fun p => p.2.inn) then s.powerDown.updMgmt fun m => { m with power := 2#2 } else s)

/-- POWER_D0 (R518): HOLD becomes IDLE. -/
def execPowerD0 (s : State) : Next :=
  .next (if s.mgmt.power == 2#2 then s.updMgmt fun m => { m with power := 1#2 } else s)

/-- POWER_REMOVED (R518): only the flash and the management window remain, whose registers keep what they hold; a command that
runs is lost (log 84). -/
def execPowerRemoved (s : State) : Next :=
  let m := { s.mgmt with power := 3#2, mstatus := if s.mgmt.busy then 0#64 else s.mgmt.mstatus }
  .next { s.cold m with planeDead := s.planeDead }

/-! ## Pieces that move, and the host's stores (R224, R276, R417) -/

/-- Whether an HMIGR moves a piece. -/
def State.migrates (s : State) (piece : Nat) : Bool :=
  s.hops.any fun o => o.target == piece && match o.entry.instr with
    | .hmigr .. => true
    | _ => false

/-- PIECE_MOVE (R224): the hardware begins to move a piece, or the piece arrives. -/
def execPieceMove (piece stack : Nat) (s : State) : Next :=
  .next (if devicePieces ≤ piece || 8 ≤ stack || s.migrates piece || s.stackBusy piece then s
    else
      match s.moving.find? fun m => m.1 == piece with
      | none => { s with moving := s.moving ++ [(piece, stack)] }
      | some m => State.movePiece { s with moving := s.moving.filter fun x => x.1 != piece } m.1 m.2)

/-- HOST_STORE (R276): the host stores to its own memory. -/
def execHostStore (adr : Nat) (bytes : List (BitVec 8)) (s : State) : Next :=
  let cells := (List.range bytes.length).map fun i => hostBase + adr + i
  .next (if 2 ^ 64 < adr + bytes.length then s
    else { s.clearPoison (cells.filter fun a => coversUnit cells [a]) with mem := Memory.sets s.mem (List.zip cells bytes) })

end Sys2Proof.Machine
end

