-- ==== Sys2Proof/Machine/StackEvents.lean ====
section
/-! DEFINITION. The steps of a stack's base die (R390, R391, R479). -/

namespace Sys2Proof.Machine

/-- DROOP_TRIP (R390): the supply sensor trips while an all-bank command runs; DROOPS rises and the next all-bank command
of the stack is held. -/
def execDroopTrip (stack : Nat) (s : State) : Next :=
  let k := s.stack stack
  .next (if 8 ≤ stack || !s.atStack stack .running then s
    else s.setStack stack { k with held := true, droops := if k.droops == 0xFFFF#16 then k.droops else k.droops + 1#16 })

/-- DROOP_HOLD_END (R390): 256 clocks after the tripping command has ended. -/
def execDroopHoldEnd (stack : Nat) (s : State) : Next :=
  .next (if 8 ≤ stack || s.atStack stack .running then s else s.setStack stack { s.stack stack with held := false })

/-- THERMAL_DUTY (R391): the base die's temperature; from THRESH up its reducers leave row-read slots unused, which
changes no value. -/
def execThermalDuty (stack : Nat) (temp : BitVec 8) (s : State) : Next :=
  .next (if 8 ≤ stack then s else s.setStack stack { s.stack stack with temp := temp })

/-- REFRESH_PAUSE (R479): a command pauses for one row step, which changes no value and no order. -/
def execRefreshPause (_stack : Nat) (s : State) : Next := .next s

end Sys2Proof.Machine
end

