-- ==== Sys2Proof/Machine/Dispatch.lean ====
section
/-! DEFINITION. One arm per instruction and event: its meaning. -/

namespace Sys2Proof.Machine

open Sys2Proof

/-- What an instruction or event does. -/
def exec (i : Instr) (s : State) : Host.Outcome State Fault Refusal :=
  match i with
  | .nop => Sys2Proof.Machine.execNop s
  | .mov ty d a perm mk => Sys2Proof.Machine.execMov ty d a perm mk s
  | .movi ty d imm mk => Sys2Proof.Machine.execMovi ty d imm mk s
  | .add ty am d a perm b mk => Sys2Proof.Machine.execAdd ty am d a perm b mk s
  | .sub ty am d a perm b mk => Sys2Proof.Machine.execSub ty am d a perm b mk s
  | .addi ty am d a imm mk => Sys2Proof.Machine.execAddi ty am d a imm mk s
  | .mul ty d a perm b mk => Sys2Proof.Machine.execMul ty d a perm b mk s
  | .mulh ty d a perm b mk => Sys2Proof.Machine.execMulh ty d a perm b mk s
  | .mad ty d a perm b c mk => Sys2Proof.Machine.execMad ty d a perm b c mk s
  | .idiv ty d a perm b flag look mk => Sys2Proof.Machine.execIdiv ty d a perm b flag look mk s
  | .irem ty d a perm b flag look mk => Sys2Proof.Machine.execIrem ty d a perm b flag look mk s
  | .and ty d a perm b mk => Sys2Proof.Machine.execAnd ty d a perm b mk s
  | .or ty d a perm b mk => Sys2Proof.Machine.execOr ty d a perm b mk s
  | .xor ty d a perm b mk => Sys2Proof.Machine.execXor ty d a perm b mk s
  | .logi kind ty d a imm mk => Sys2Proof.Machine.execLogi kind ty d a imm mk s
  | .shl ty d a perm b mk => Sys2Proof.Machine.execShl ty d a perm b mk s
  | .shr ty d a perm b mk => Sys2Proof.Machine.execShr ty d a perm b mk s
  | .sar ty d a perm b mk => Sys2Proof.Machine.execSar ty d a perm b mk s
  | .rot ty d a perm b mk => Sys2Proof.Machine.execRot ty d a perm b mk s
  | .shi kind ty d a n mk => Sys2Proof.Machine.execShi kind ty d a n mk s
  | .clz ty d a perm mk => Sys2Proof.Machine.execClz ty d a perm mk s
  | .popc ty d a perm mk => Sys2Proof.Machine.execPopc ty d a perm mk s
  | .brev ty d a perm mk => Sys2Proof.Machine.execBrev ty d a perm mk s
  | .min ty d a perm b mk => Sys2Proof.Machine.execMin ty d a perm b mk s
  | .max ty d a perm b mk => Sys2Proof.Machine.execMax ty d a perm b mk s
  | .abs ty sat d a perm mk => Sys2Proof.Machine.execAbs ty sat d a perm mk s
  | .sel ty d a perm b mc mk => Sys2Proof.Machine.execSel ty d a perm b mc mk s
  | .cmp cond ty md a perm b mk => Sys2Proof.Machine.execCmp cond ty md a perm b mk s
  | .cmpi cond ty md a imm mk => Sys2Proof.Machine.execCmpi cond ty md a imm mk s
  | .bfe ty d a perm b mk => Sys2Proof.Machine.execBfe ty d a perm b mk s
  | .bfi ty d a perm b c mk => Sys2Proof.Machine.execBfi ty d a perm b c mk s
  | .lea size d m look tok mk => Sys2Proof.Machine.execLea size d m look tok mk s
  | .ids q d mk => Sys2Proof.Machine.execIds q d mk s
  | .mlog kind md ma mb mk => Sys2Proof.Machine.execMlog kind md ma mb mk s
  | .mpop d ma mk => Sys2Proof.Machine.execMpop d ma mk s
  | .mfirst d ma mk => Sys2Proof.Machine.execMfirst d ma mk s
  | .mset kind md imm mk => Sys2Proof.Machine.execMset kind md imm mk s
  | .br sense mc hint disp => Sys2Proof.Machine.execBr sense mc hint disp s
  | .brm kind mc hint disp => Sys2Proof.Machine.execBrm kind mc hint disp s
  | .call vd hint disp => Sys2Proof.Machine.execCall vd hint disp s
  | .calli vd va mk => Sys2Proof.Machine.execCalli vd va mk s
  | .ret va mk => Sys2Proof.Machine.execRet va mk s
  | .jmpi va mk => Sys2Proof.Machine.execJmpi va mk s
  | .regang => Sys2Proof.Machine.execRegang s
  | .exit mk => Sys2Proof.Machine.execExit mk s
  | .waittok toks => Sys2Proof.Machine.execWaittok toks s
  | .shfl mode wd d a b mk => Sys2Proof.Machine.execShfl mode wd d a b mk s
  | .bcast pick wd d a b mk => Sys2Proof.Machine.execBcast pick wd d a b mk s
  | .reduce op d a look mk => Sys2Proof.Machine.execReduce op d a look mk s
  | .scan op d a look mk => Sys2Proof.Machine.execScan op d a look mk s
  | .vote kind w64 md a mk => Sys2Proof.Machine.execVote kind w64 md a mk s
  | .ballot kind d ma mk => Sys2Proof.Machine.execBallot kind d ma mk s
  | .dot4 ty sat d a perm b c fmt mk => Sys2Proof.Machine.execDot4 ty sat d a perm b c fmt mk s
  | .dot8 ty sat d a perm b c fmt mk => Sys2Proof.Machine.execDot8 ty sat d a perm b c fmt mk s
  | .pack ty sat d a perm b c j mk => Sys2Proof.Machine.execPack ty sat d a perm b c j mk s
  | .unpack ty d a perm n mk => Sys2Proof.Machine.execUnpack ty d a perm n mk s
  | .clmul wd hi d a perm b mk => Sys2Proof.Machine.execClmul wd hi d a perm b mk s
  | .byteperm d a perm b c mk => Sys2Proof.Machine.execByteperm d a perm b c mk s
  | .rebal mode wd d a mc mk => Sys2Proof.Machine.execRebal mode wd d a mc mk s
  | .shapeGet d a mk => Sys2Proof.Machine.execShapeGet d a mk s
  | .shapeFit wd d a mk => Sys2Proof.Machine.execShapeFit wd d a mk s
  | .iota ty d base stride mk => Sys2Proof.Machine.execIota ty d base stride mk s
  | .fadd cls d a perm b mk => Sys2Proof.Machine.execFadd cls d a perm b mk s
  | .fsub cls d a perm b mk => Sys2Proof.Machine.execFsub cls d a perm b mk s
  | .fmul cls d a perm b mk => Sys2Proof.Machine.execFmul cls d a perm b mk s
  | .fmin cls d a perm b mk => Sys2Proof.Machine.execFmin cls d a perm b mk s
  | .fmax cls d a perm b mk => Sys2Proof.Machine.execFmax cls d a perm b mk s
  | .fscale cls d a perm b mk => Sys2Proof.Machine.execFscale cls d a perm b mk s
  | .kset cls d a perm b mk => Sys2Proof.Machine.execKset cls d a perm b mk s
  | .kmin cls d a perm b mk => Sys2Proof.Machine.execKmin cls d a perm b mk s
  | .ffma cls d a perm b c mk => Sys2Proof.Machine.execFfma cls d a perm b c mk s
  | .frexp part cls d a perm mk => Sys2Proof.Machine.execFrexp part cls d a perm mk s
  | .fcmp cond x cls md a perm b mk => Sys2Proof.Machine.execFcmp cond x cls md a perm b mk s
  | .fclass cls d a perm mk => Sys2Proof.Machine.execFclass cls d a perm mk s
  | .frcp cls d a perm look mk => Sys2Proof.Machine.execFrcp cls d a perm look mk s
  | .frsq cls d a perm look mk => Sys2Proof.Machine.execFrsq cls d a perm look mk s
  | .fexp2 cls d a perm look mk => Sys2Proof.Machine.execFexp2 cls d a perm look mk s
  | .flog2 cls d a perm look mk => Sys2Proof.Machine.execFlog2 cls d a perm look mk s
  | .fsin cls d a perm look mk => Sys2Proof.Machine.execFsin cls d a perm look mk s
  | .fcos cls d a perm look mk => Sys2Proof.Machine.execFcos cls d a perm look mk s
  | .fcvt dst src d a perm mk => Sys2Proof.Machine.execFcvt dst src d a perm mk s
  | .fcvti ty cls d a perm rnd mk => Sys2Proof.Machine.execFcvti ty cls d a perm rnd mk s
  | .icvtf cls ty d a perm mk => Sys2Proof.Machine.execIcvtf cls ty d a perm mk s
  | .fround cls d a perm rnd mk => Sys2Proof.Machine.execFround cls d a perm rnd mk s
  | .fpack ty sat d a b c j fmt mk => Sys2Proof.Machine.execFpack ty sat d a b c j fmt mk s
  | .funpack cls d a perm n mk => Sys2Proof.Machine.execFunpack cls d a perm n mk s
  | .freduce cls d a look mk => Sys2Proof.Machine.execFreduce cls d a look mk s
  | .kget pick cls d a perm mk => Sys2Proof.Machine.execKget pick cls d a perm mk s
  | .sticky kind cls d a perm mk => Sys2Proof.Machine.execSticky kind cls d a perm mk s
  | .bsig kind va thr hint disp => Sys2Proof.Machine.execBsig kind va thr hint disp s
  | .pairWord p q => Sys2Proof.Machine.execPairWord p q s
  | .ld size d m stream look tok mk => Sys2Proof.Machine.execLd size d m stream look tok mk s
  | .st size rnd vs m stream tok mk => Sys2Proof.Machine.execSt size rnd vs m stream tok mk s
  | .ldt size d m stream look tok mk => Sys2Proof.Machine.execLdt size d m stream look tok mk s
  | .stt size vs m stream tok mk => Sys2Proof.Machine.execStt size vs m stream tok mk s
  | .ldg size d hnd ofs disp stream look tok mk => Sys2Proof.Machine.execLdg size d hnd ofs disp stream look tok mk s
  | .sts size rnd vs hnd ofs disp stream tok mk => Sys2Proof.Machine.execSts size rnd vs hnd ofs disp stream tok mk s
  | .ldb size d hnd disp stream look tok mk => Sys2Proof.Machine.execLdb size d hnd disp stream look tok mk s
  | .tmov size lc vd m stream tok mk => Sys2Proof.Machine.execTmov size lc vd m stream tok mk s
  | .atom op size vs m stream tok mk => Sys2Proof.Machine.execAtom op size vs m stream tok mk s
  | .atomr op size vs m stream look tok mk => Sys2Proof.Machine.execAtomr op size vs m stream look tok mk s
  | .acq mode id tok => Sys2Proof.Machine.execAcq mode id tok s
  | .rel id tok => Sys2Proof.Machine.execRel id tok s
  | .fence kind set => Sys2Proof.Machine.execFence kind set s
  | .cbdef cb hnd disp logs size => Sys2Proof.Machine.execCbdef cb hnd disp logs size s
  | .cbpushRes vd cb look tok => Sys2Proof.Machine.execCbpushRes vd cb look tok s
  | .cbpushCommit vs cb stream tok => Sys2Proof.Machine.execCbpushCommit vs cb stream tok s
  | .cbpopTake vd cb look tok => Sys2Proof.Machine.execCbpopTake vd cb look tok s
  | .cbpopFree vs cb stream tok => Sys2Proof.Machine.execCbpopFree vs cb stream tok s
  | .cbpopStat vd cb => Sys2Proof.Machine.execCbpopStat vd cb s
  | .hdescAttr vd va => Sys2Proof.Machine.execHdescAttr vd va s
  | .hdescBind vd va => Sys2Proof.Machine.execHdescBind vd va s
  | .hdescLoc vd va => Sys2Proof.Machine.execHdescLoc vd va s
  | .hdescSeta ah va => Sys2Proof.Machine.execHdescSeta ah va s
  | .hdescGeta vd ah => Sys2Proof.Machine.execHdescGeta vd ah s
  | .oclaim first nslot tmask tok => Sys2Proof.Machine.execOclaim first nslot tmask tok s
  | .orel first nslot tmask tok => Sys2Proof.Machine.execOrel first nslot tmask tok s
  | .oload q slot len tok => Sys2Proof.Machine.execOload q slot len tok s
  | .omap slot orient pitch base tok => Sys2Proof.Machine.execOmap slot orient pitch base tok s
  | .mma acc sa sb fmta fmtb kblka kblkb start tok => Sys2Proof.Machine.execMma acc sa sb fmta fmtb kblka kblkb start tok s
  | .aclr cls tmask tok => Sys2Proof.Machine.execAclr cls tmask tok s
  | .aread acc q fmt row0 nrows tok => Sys2Proof.Machine.execAread acc q fmt row0 nrows tok s
  | .awrite acc q fmt row0 nrows tok => Sys2Proof.Machine.execAwrite acc q fmt row0 nrows tok s
  | .astat vd acc row0 nrows look tok => Sys2Proof.Machine.execAstat vd acc row0 nrows look tok s
  | .mwakeNow => Sys2Proof.Machine.execMwakeNow s
  | .mwakeIdle n => Sys2Proof.Machine.execMwakeIdle n s
  | .mstat form vd => Sys2Proof.Machine.execMstat form vd s
  | .xcopy dk srcCb cv slot q len fmt stream tok => Sys2Proof.Machine.execXcopy dk srcCb cv slot q len fmt stream tok s
  | .xcopym fillB q len sa sb acc fmta fmtb kblka kblkb tok => Sys2Proof.Machine.execXcopym fillB q len sa sb acc fmta fmtb kblka kblkb tok s
  | .xseqDone eng vd look tok => Sys2Proof.Machine.execXseqDone eng vd look tok s
  | .xseqIssued eng vd look tok => Sys2Proof.Machine.execXseqIssued eng vd look tok s
  | .xseqLine line vd look tok => Sys2Proof.Machine.execXseqLine line vd look tok s
  | .xseqFault vd look tok => Sys2Proof.Machine.execXseqFault vd look tok s
  | .xwait eng vs => Sys2Proof.Machine.execXwait eng vs s
  | .evrouteSet src line => Sys2Proof.Machine.execEvrouteSet src line s
  | .evrouteClr src line => Sys2Proof.Machine.execEvrouteClr src line s
  | .evrouteGate sink line => Sys2Proof.Machine.execEvrouteGate sink line s
  | .evrouteOpen sink => Sys2Proof.Machine.execEvrouteOpen sink s
  | .evwait line => Sys2Proof.Machine.execEvwait line s
  | .evwaitSync line => Sys2Proof.Machine.execEvwaitSync line s
  | .evfire line count => Sys2Proof.Machine.execEvfire line count s
  | .sxred op ef thnd dhnd q rowlen stream tok mk => Sys2Proof.Machine.execSxred op ef thnd dhnd q rowlen stream tok mk s
  | .sxbulkCopy q len stream tok => Sys2Proof.Machine.execSxbulkCopy q len stream tok s
  | .sxbulkFill q len stream tok => Sys2Proof.Machine.execSxbulkFill q len stream tok s
  | .sxbulkCmp q len rhnd stream tok => Sys2Proof.Machine.execSxbulkCmp q len rhnd stream tok s
  | .sxseqDone vd psel preg look tok => Sys2Proof.Machine.execSxseqDone vd psel preg look tok s
  | .sxseqIssued vd psel preg look tok => Sys2Proof.Machine.execSxseqIssued vd psel preg look tok s
  | .sxseqStack vd psel preg look tok => Sys2Proof.Machine.execSxseqStack vd psel preg look tok s
  | .sxseqFault vd psel preg look tok => Sys2Proof.Machine.execSxseqFault vd psel preg look tok s
  | .sxwait vs psel preg => Sys2Proof.Machine.execSxwait vs psel preg s
  | .mkmatch opt snap dmk q wave scope tok => Sys2Proof.Machine.execMkmatch opt snap dmk q wave scope tok s
  | .mkset form opt all snap dmk smk vv wave scope tok => Sys2Proof.Machine.execMkset form opt all snap dmk smk vv wave scope tok s
  | .mkclr form opt all snap dmk smk wave scope tok => Sys2Proof.Machine.execMkclr form opt all snap dmk smk wave scope tok s
  | .mkprop comb opt all snap dmk smk vt hops wave scope tok => Sys2Proof.Machine.execMkprop comb opt all snap dmk smk vt hops wave scope tok s
  | .mkpropv comb all snap dmk smk vt hops wave scope tok => Sys2Proof.Machine.execMkpropv comb all snap dmk smk vt hops wave scope tok s
  | .mkcollect opt all snap dmk smk q wave scope tok => Sys2Proof.Machine.execMkcollect opt all snap dmk smk q wave scope tok s
  | .mkcount all snap smk wave scope tok => Sys2Proof.Machine.execMkcount all snap smk wave scope tok s
  | .mkwait wave => Sys2Proof.Machine.execMkwait wave s
  | .mkstat vd wave => Sys2Proof.Machine.execMkstat vd wave s
  | .ndrd fi mv d m look tok mk => Sys2Proof.Machine.execNdrd fi mv d m look tok mk s
  | .ndwr fi mv vs m tok mk => Sys2Proof.Machine.execNdwr fi mv vs m tok mk s
  | .edrd fi d m look tok mk => Sys2Proof.Machine.execEdrd fi d m look tok mk s
  | .edwr fi vs m tok mk => Sys2Proof.Machine.execEdwr fi vs m tok mk s
  | .fld sz d vp vo look tok mk => Sys2Proof.Machine.execFld sz d vp vo look tok mk s
  | .fst sz rnd vs vp vo tok mk => Sys2Proof.Machine.execFst sz rnd vs vp vo tok mk s
  | .fstRadd vs vp vo tok mk => Sys2Proof.Machine.execFstRadd vs vp vo tok mk s
  | .fat op sz d vp vo vc look tok mk => Sys2Proof.Machine.execFat op sz d vp vo vc look tok mk s
  | .fmcst q rhnd tok => Sys2Proof.Machine.execFmcst q rhnd tok s
  | .fwait => Sys2Proof.Machine.execFwait s
  | .fpeerExport e va => Sys2Proof.Machine.execFpeerExport e va s
  | .fpeerRevoke e => Sys2Proof.Machine.execFpeerRevoke e s
  | .fpeerStat vd e => Sys2Proof.Machine.execFpeerStat vd e s
  | .fpeerMcdef g va => Sys2Proof.Machine.execFpeerMcdef g va s
  | .fpeerPort vd p => Sys2Proof.Machine.execFpeerPort vd p s
  | .barv g tok => Sys2Proof.Machine.execBarv g tok s
  | .barw g => Sys2Proof.Machine.execBarw g s
  | .bars g => Sys2Proof.Machine.execBars g s
  | .barq vd g => Sys2Proof.Machine.execBarq vd g s
  | .yield => Sys2Proof.Machine.execYield s
  | .yieldBal => Sys2Proof.Machine.execYieldBal s
  | .prioSet k => Sys2Proof.Machine.execPrioSet k s
  | .prioRestore => Sys2Proof.Machine.execPrioRestore s
  | .idemBegin keep disp => Sys2Proof.Machine.execIdemBegin keep disp s
  | .idemEnd => Sys2Proof.Machine.execIdemEnd s
  | .qpost vq hnd disp stream tok => Sys2Proof.Machine.execQpost vq hnd disp stream tok s
  | .csrrd vd csr => Sys2Proof.Machine.execCsrrd vd csr s
  | .csrwr csr va => Sys2Proof.Machine.execCsrwr csr va s
  | .csrwrSet csr va => Sys2Proof.Machine.execCsrwrSet csr va s
  | .csrwrClr csr va => Sys2Proof.Machine.execCsrwrClr csr va s
  | .trap code => Sys2Proof.Machine.execTrap code s
  | .rte => Sys2Proof.Machine.execRte s
  | .rteNext => Sys2Proof.Machine.execRteNext s
  | .halt code => Sys2Proof.Machine.execHalt code s
  | .ctxsave va stream tok => Sys2Proof.Machine.execCtxsave va stream tok s
  | .ctxload vd va look stream tok => Sys2Proof.Machine.execCtxload vd va look stream tok s
  | .hnew vd va look stream tok => Sys2Proof.Machine.execHnew vd va look stream tok s
  | .hmap vd va look stream tok => Sys2Proof.Machine.execHmap vd va look stream tok s
  | .hrevoke vd va look stream tok => Sys2Proof.Machine.execHrevoke vd va look stream tok s
  | .hmigr vd va stack look stream tok => Sys2Proof.Machine.execHmigr vd va stack look stream tok s
  | .chkptSave vd va look stream tok => Sys2Proof.Machine.execChkptSave vd va look stream tok s
  | .chkptLoad vd va look stream tok => Sys2Proof.Machine.execChkptLoad vd va look stream tok s
  | .clauseEntry core ctx part => Sys2Proof.Machine.execClauseEntry core ctx part s
  | .fetchWord core ctx part => Sys2Proof.Machine.execFetchWord core ctx part s
  | .longLatencyWrite core ctx id => Sys2Proof.Machine.execLongLatencyWrite core ctx id s
  | .regangMerge core ctx => Sys2Proof.Machine.execRegangMerge core ctx s
  | .performPiece agent n err => Sys2Proof.Machine.execPerformPiece agent n err s
  | .drain id => Sys2Proof.Machine.execDrain id s
  | .propagate id quarter => Sys2Proof.Machine.execPropagate id quarter s
  | .replicate id quarter => Sys2Proof.Machine.execReplicate id quarter s
  | .atomicSend core ctx st => Sys2Proof.Machine.execAtomicSend core ctx st s
  | .atomicPerform pno cluster => Sys2Proof.Machine.execAtomicPerform pno cluster s
  | .fencePerform core ctx st => Sys2Proof.Machine.execFencePerform core ctx st s
  | .releaseStep id => Sys2Proof.Machine.execReleaseStep id s
  | .tokenGrant pno id => Sys2Proof.Machine.execTokenGrant pno id s
  | .tokenReleaseRecord id => Sys2Proof.Machine.execTokenReleaseRecord id s
  | .barrierWaitPass core ctx part => Sys2Proof.Machine.execBarrierWaitPass core ctx part s
  | .waitSatisfied core ctx part => Sys2Proof.Machine.execWaitSatisfied core ctx part s
  | .launchEnd l => Sys2Proof.Machine.execLaunchEnd l s
  | .hostStoreDrain pno => Sys2Proof.Machine.execHostStoreDrain pno s
  | .engineRegistration core ctx st => Sys2Proof.Machine.execEngineRegistration core ctx st s
  | .engineStart core eng => Sys2Proof.Machine.execEngineStart core eng s
  | .engineCompletion core eng => Sys2Proof.Machine.execEngineCompletion core eng s
  | .cbResServed core cb => Sys2Proof.Machine.execCbResServed core cb s
  | .cbTakeServed core cb => Sys2Proof.Machine.execCbTakeServed core cb s
  | .claimGrant core n => Sys2Proof.Machine.execClaimGrant core n s
  | .claimRelease core n => Sys2Proof.Machine.execClaimRelease core n s
  | .subarrayGate core n => Sys2Proof.Machine.execSubarrayGate core n s
  | .subarrayWake core => Sys2Proof.Machine.execSubarrayWake core s
  | .budgetWindow core => Sys2Proof.Machine.execBudgetWindow core s
  | .bandwidthWindow res => Sys2Proof.Machine.execBandwidthWindow res s
  | .swapOut core ctx => Sys2Proof.Machine.execSwapOut core ctx s
  | .recallGang core ctx => Sys2Proof.Machine.execRecall core ctx s
  | .balanceWindow core imb under => Sys2Proof.Machine.execBalanceWindow core imb under s
  | .balanceStall core => Sys2Proof.Machine.execBalanceStall core s
  | .balanceDeferral core => Sys2Proof.Machine.execBalanceDeferral core s
  | .takeDeferredTrap core ctx part => Sys2Proof.Machine.execTakeDeferredTrap core ctx part s
  | .doorbellWrite queue ofs size => Sys2Proof.Machine.execDoorbellWrite queue ofs size s
  | .queuePortPost src pno ofs size wr => Sys2Proof.Machine.execQueuePortPost src pno ofs size wr s
  | .qpostDeliver core ctx st => Sys2Proof.Machine.execQpostDeliver core ctx st s
  | .takePacket queue => Sys2Proof.Machine.execTakePacket queue s
  | .packetComplete queue => Sys2Proof.Machine.execPacketComplete queue s
  | .waveStart core w slot => Sys2Proof.Machine.execWaveStart core w slot s
  | .waveDelivery core w n => Sys2Proof.Machine.execWaveDelivery core w n s
  | .creditReturn core w back => Sys2Proof.Machine.execCreditReturn core w back s
  | .creditRequest core w => Sys2Proof.Machine.execCreditRequest core w s
  | .creditAnswer core w n => Sys2Proof.Machine.execCreditAnswer core w n s
  | .batchAccept n remote => Sys2Proof.Machine.execBatchAccept n remote s
  | .waveRunaway core w n => Sys2Proof.Machine.execWaveRunaway core w n s
  | .batchRefused n reason => Sys2Proof.Machine.execBatchRefused n reason s
  | .batchReclaimRemap core w dst last => Sys2Proof.Machine.execBatchReclaimRemap core w dst last s
  | .batchReclaimTimeout core w dst => Sys2Proof.Machine.execBatchReclaimTimeout core w dst s
  | .droopTrip stack => Sys2Proof.Machine.execDroopTrip stack s
  | .droopHoldEnd stack => Sys2Proof.Machine.execDroopHoldEnd stack s
  | .thermalDuty stack temp => Sys2Proof.Machine.execThermalDuty stack temp s
  | .refreshPause stack => Sys2Proof.Machine.execRefreshPause stack s
  | .interfaceRetry agent n fails => Sys2Proof.Machine.execInterfaceRetry agent n fails s
  | .mcdefRead core ctx => Sys2Proof.Machine.execMcdefRead core ctx s
  | .handleOpComplete core ctx id => Sys2Proof.Machine.execHandleOpComplete core ctx id s
  | .fabricSend core ctx => Sys2Proof.Machine.execFabricSend core ctx s
  | .fabricTargetPerform src desig u req => Sys2Proof.Machine.execFabricTargetPerform src desig u req s
  | .fabricReply id lane ans => Sys2Proof.Machine.execFabricReply id lane ans s
  | .raddCombine a b => Sys2Proof.Machine.execRaddCombine a b s
  | .mcastAckRecord id n => Sys2Proof.Machine.execMcastAckRecord id n s
  | .flitReplay port => Sys2Proof.Machine.execFlitReplay port s
  | .portRetrain port lanes => Sys2Proof.Machine.execPortRetrain port lanes s
  | .laneSetChange port lanes => Sys2Proof.Machine.execLaneSetChange port lanes s
  | .planeRemap plane => Sys2Proof.Machine.execPlaneRemap plane s
  | .planeRestore plane => Sys2Proof.Machine.execPlaneRestore plane s
  | .switchDiscard id lane => Sys2Proof.Machine.execSwitchDiscard id lane s
  | .requestLost id lane => Sys2Proof.Machine.execRequestLost id lane s
  | .hostLinkDown link => Sys2Proof.Machine.execHostLinkDown link s
  | .completionTimeout agent n => Sys2Proof.Machine.execCompletionTimeout agent n s
  | .pform => Sys2Proof.Machine.execPform s
  | .pdissolve => Sys2Proof.Machine.execPdissolve s
  | .pswapout => Sys2Proof.Machine.execPswapout s
  | .swapoutSave pno => Sys2Proof.Machine.execSwapoutSave pno s
  | .pswapin => Sys2Proof.Machine.execPswapin s
  | .coreset => Sys2Proof.Machine.execCoreset s
  | .cksave => Sys2Proof.Machine.execCksave s
  | .ckload => Sys2Proof.Machine.execCkload s
  | .attest => Sys2Proof.Machine.execAttest s
  | .fwload => Sys2Proof.Machine.execFwload s
  | .apset => Sys2Proof.Machine.execApset s
  | .apertureAccess ofs size wr => Sys2Proof.Machine.execApertureAccess ofs size wr s
  | .bar0Write ofs size v => Sys2Proof.Machine.execBar0Write ofs size v s
  | .resetBoot => Sys2Proof.Machine.execResetBoot s
  | .powerD3hot => Sys2Proof.Machine.execPowerD3hot s
  | .powerRemoved => Sys2Proof.Machine.execPowerRemoved s
  | .pieceMove piece stack => Sys2Proof.Machine.execPieceMove piece stack s
  | .hostStore adr bytes => Sys2Proof.Machine.execHostStore adr bytes s
  | .hostLinkUp link => Sys2Proof.Machine.execHostLinkUp link s
  | .powerD0 => Sys2Proof.Machine.execPowerD0 s
  | .batchAcknowledge core w dst last => Sys2Proof.Machine.execBatchAcknowledge core w dst last s

end Sys2Proof.Machine
end

