-- ==== Sys2Proof/Machine/Arbiter.lean ====
section
/-! DEFINITION. What may happen next: the machine's own steps as choices, the orders in which the shared resources serve
their requesters (R49, R320, R361, R363, R364, R373), the steps that it may hold back no longer (R264), and the choice that
a state takes. Two orders of R373 stand elsewhere: that of the launch dispatcher with its packets, that of the active-set
places with recalls. -/

namespace Sys2Proof.Machine

/-- The instructions of the table's second half: the steps that the machine's agents take by themselves. -/
def isEvent : Instr → Bool
  | .clauseEntry .. | .fetchWord .. | .longLatencyWrite .. | .regangMerge .. | .performPiece .. | .drain ..
  | .propagate .. | .replicate .. | .atomicSend .. | .atomicPerform .. | .fencePerform .. | .releaseStep ..
  | .tokenGrant .. | .tokenReleaseRecord .. | .barrierWaitPass .. | .waitSatisfied .. | .launchEnd ..
  | .hostStoreDrain .. | .engineRegistration .. | .engineStart .. | .engineCompletion .. | .cbResServed ..
  | .cbTakeServed .. | .claimGrant .. | .claimRelease .. | .subarrayGate .. | .subarrayWake ..
  | .budgetWindow .. | .bandwidthWindow .. | .swapOut .. | .recallGang .. | .balanceWindow .. | .balanceStall ..
  | .balanceDeferral .. | .takeDeferredTrap .. | .doorbellWrite .. | .queuePortPost .. | .qpostDeliver ..
  | .takePacket .. | .packetComplete .. | .waveStart .. | .waveDelivery .. | .creditReturn ..
  | .creditRequest .. | .creditAnswer .. | .batchAccept .. | .waveRunaway .. | .batchRefused ..
  | .batchReclaimRemap .. | .batchReclaimTimeout .. | .droopTrip .. | .droopHoldEnd .. | .thermalDuty ..
  | .refreshPause .. | .interfaceRetry .. | .mcdefRead .. | .handleOpComplete .. | .fabricSend ..
  | .fabricTargetPerform .. | .fabricReply .. | .raddCombine .. | .mcastAckRecord .. | .flitReplay ..
  | .portRetrain .. | .laneSetChange .. | .planeRemap .. | .planeRestore .. | .switchDiscard ..
  | .requestLost .. | .hostLinkDown .. | .completionTimeout .. | .pform | .pdissolve | .pswapout
  | .swapoutSave .. | .pswapin | .coreset | .cksave | .ckload | .attest | .fwload | .apset | .apertureAccess ..
  | .bar0Write .. | .resetBoot | .powerD3hot | .powerRemoved | .pieceMove .. | .hostStore .. | .hostLinkUp ..
  | .powerD0 | .batchAcknowledge .. => true
  | _ => false

/-- A choice, performed. -/
def perform (c : Choice) (s : State) : Next :=
  match c with
  | .unit core ctx part =>
    match s.turn core ctx part with
    | .idle => .next s
    | .done t => .next t
    | .run i t => exec i t
  | .event i => if isEvent i then exec i s else .next s

/-- Whether a step would change anything: what a unit stalls at, or an agent waits for, does not. -/
def State.changes (s : State) (f : State → Next) : Bool :=
  match f s with
  | .next t => decide ({ t with cur := s.cur } ≠ s)
  | _ => true

/-- Whether a choice would change anything. -/
def State.moves (s : State) (c : Choice) : Bool := s.changes (perform c)

/-! ## Requests -/

/-- The shared resources of R373 that are ordered here: a core's issue slots, the ports of its scratchpad, of a cluster's
and of a quarter's die scratchpad, the registration at a core's copy engine and matrix unit, a cluster's service requests, a
core's node engine and proof mover, a stack's channel, a fabric plane. -/
inductive Res where
  | issue (core : Nat)
  | corePort (core : Nat)
  | clusterPort (cluster : Nat)
  | diePort (quarter : Nat)
  | copyReg (core : Nat)
  | matrixReg (core : Nat)
  | service (cluster : Nat)
  | node (core : Nat)
  | mover (core : Nat)
  | channel (stack : Nat)
  | plane (plane : Nat)
  deriving DecidableEq, Repr

/-- The place of a resource's pointers in the table of the arbiters. -/
def Res.code : Res → Nat
  | .issue n => n
  | .corePort n => 1024 + n
  | .clusterPort n => 2048 + n
  | .diePort n => 3072 + n
  | .copyReg n => 4096 + n
  | .matrixReg n => 5120 + n
  | .service n => 6144 + n
  | .node n => 7168 + n
  | .mover n => 8192 + n
  | .channel n => 9216 + n
  | .plane n => 10240 + n

/-- A request at a resource: its requester, whose number the round-robin order goes by; 0 for a reserved request and 1 for
another; its class; its place within the class, first and second; and which request of its requester it is. -/
structure Ask where
  res : Res
  who : Nat
  tier : Nat
  cls : Nat
  first : Nat
  second : Nat
  id : Nat
  deriving DecidableEq, Repr

/-- Whether a request is served before another one of the resource: reserved before unreserved, then by class, then by its
place (R363, R373). -/
def Ask.before (a b : Ask) : Bool :=
  a.res == b.res && (decide (a.tier < b.tier) || (a.tier == b.tier && (decide (b.cls < a.cls) || (a.cls == b.cls &&
    (decide (a.first < b.first) || (a.first == b.first && decide (a.second < b.second)))))))

/-- A request as the list of those that have arrived names it. -/
def Ask.key (a : Ask) : Nat × Nat × Nat := (a.res.code, a.who, a.id)

/-- Whether a request waits at its resource: it has arrived there (DEDUCED, log 155). What may issue asks its core in each
clock. -/
def State.waiting (s : State) (a : Ask) : Bool :=
  match a.res with
  | .issue _ => true
  | _ => s.arrived.contains a.key

/-- How many requests reached a resource before one: its place in the order of arrival. -/
def State.arrival (s : State) (r : Res) (who id : Nat) : Nat := s.arrived.findIdx (· == (r.code, who, id))

/-- A request ordered by class and then round-robin. -/
def State.turnAsk (s : State) (r : Res) (who tier cls id : Nat) : Ask :=
  ⟨r, who, tier, cls, s.behind (r.code * 8 + cls) who, 0, id⟩

/-- A request ordered by class and then by arrival. -/
def State.lineAsk (s : State) (r : Res) (who cls id : Nat) : Ask := ⟨r, who, 0, cls, s.arrival r who id, 0, id⟩

/-- A request behind those of its requester that arrived before it. -/
def State.inLine (s : State) (a : Ask) : Ask := { a with second := s.arrival a.res a.who a.id }

/-! ## Issue slots (R12, R17, R42, R49, R364, R450) -/

/-- The units that have been granted slots of a core's current clock and still have to issue. -/
def State.dueUnits (s : State) (core : Nat) : List (Nat × Nat) :=
  ((s.core core).due.map fun d => (d.1, d.2.1)).filter fun u => s.moves (.unit core u.1 u.2)

/-- The grants of a core's next clock. -/
def State.nextGrants (s : State) (core : Nat) : List Bid := s.clockGrants core fun ctx part => s.moves (.unit core ctx part)

/-- Of some units, whether one comes first of its gang, in ascending order of the parts' lowest slices: in that order the parts
that issue in one clock act (R42, R450). -/
def firstOfGang (us : List (Nat × Nat)) (ctx part : Nat) : Bool :=
  us.contains (ctx, part) && us.all fun u => u.1 != ctx || decide (part ≤ u.2)

/-- A unit's request for a slot: first come the units that the current clock has granted slots, then those that the next clock
grants; the others are not served. Gangs that issue in one clock go in a free order. -/
def State.issueAsk (s : State) (key part : Nat) : Ask :=
  let core := coreOf key
  let ctx := ctxOf key
  let tier :=
    if firstOfGang (s.dueUnits core) ctx part then 0
    else if firstOfGang ((s.nextGrants core).map fun b => (b.ctx, b.part)) ctx part then 1 else 2
  ⟨.issue core, ctx, tier, 0, 0, 0, part⟩

/-- The units of a core's active teams. -/
def State.unitsOn (s : State) (core : Nat) : List Choice :=
  (s.leadsIn core .active).flatMap fun kg => (s.partsOf kg.1).map fun p => .unit core (ctxOf kg.1) p

/-- The grants of a clock, each with its first slot. -/
def withSlots : Nat → List Bid → List (Nat × Nat × Nat)
  | _, [] => []
  | n, b :: bs => (b.ctx, b.part, n) :: withSlots (n + b.cost) bs

/-- A unit issues on its slot: one of the current clock, or of the next, whose grants are then made, each arbiter going on from
the gang, and the part of it, that it granted last. -/
def State.grantSlot (s : State) (core ctx part : Nat) : State :=
  let c := s.core core
  let mine := fun (d : Nat × Nat × Nat) => d.1 == ctx && d.2.1 == part
  match if (s.dueUnits core).contains (ctx, part) then c.due.find? mine else none with
  | some d => s.setCore core { c with due := c.due.erase d, slot := d.2.2 }
  | none =>
    let bids := s.nextGrants core
    let all := withSlots 0 bids
    let arb := bids.foldl (fun t b =>
      Tab.put (Tab.put t (issueArb core b.cls) b.ctx) (partArb core b.ctx) b.part) s.arb
    { s with arb := arb }.setCore core
      { c with due := all.filter fun d => !mine d, slot := (all.find? mine).elim 0 (fun d => d.2.2), idleSlots := 0 }

/-! ## Ports and channels (R363, R373) -/

/-- Whether the queue of a launch still has units of its share of a resource in the current window (R363). -/
def State.reserved (s : State) (res l share : Nat) : Bool :=
  (s.launch? l).isSome && decide (Tab.at s.used 0 (res * 65536 + s.queueOf l) < share * 16)

/-- A piece's identity among the requests of its requester: its entry's or operation's, with its place there. -/
def pieceId (id : Nat) (p : Piece) : Nat := ((id * 64 + p.lane) * 2 ^ 21 + p.pos) * 2 + (if p.wr then 1 else 0)

/-- A piece's request at the port or channel of the store it goes to: from a core, by its own requester number at its
core's port, and at a channel from its quarter's path, or from an engine of the stack. -/
def State.pieceAsk (s : State) (core inCore : Nat) (atStack : Option Nat) (service : Bool) (cls launch id : Nat) (p : Piece) :
    List Ask :=
  match p.cells with
  | [] => []
  | a :: _ =>
    let id := pieceId id p
    match storeCode a with
    | 0 =>
      let n := s.stackOf (a / 65536)
      let share := (s.queue (s.queueOf launch)).memShare
      [s.turnAsk (.channel n) (atStack.getD (quarterOf core)) (if s.reserved n launch share then 0 else 1) cls id]
    | 1 => [s.turnAsk (.corePort (storeCore a)) inCore 0 cls id]
    | 2 => [s.turnAsk (.clusterPort ((a - 2 ^ 43) / 2 ^ 23)) (if service then 16 else core % 16) 0 cls id]
    | 3 => [s.turnAsk (.diePort ((a - 2 ^ 44) / 2 ^ 26)) (clusterOf core % 16) 0 cls id]
    | _ => []

/-- The requester number of an engine at its core's scratchpad port, behind the four issue slots. MKCOLLECT's writes, which
the table names under no requester, have the matrix unit's, 5 (DESIGN CHOICE, log 154). -/
def enginePort (eng : Nat) : Nat := if eng = 0 then 4 else if eng < 3 then 5 else 6

/-- The requester number of an operation at a stack's channel: the bulk engine and the reducers have their own. -/
def stackPath (eng : Nat) (i : Instr) : Option Nat :=
  if eng < 3 then none
  else match i with
    | .sxred .. => some 5
    | _ => some 4

/-- The requester that a gang of a node engine's own core is there: one of 30, beside message arrivals, 30, and wave starts, 31
(DESIGN CHOICE, log 154). -/
def nodeGang (key : Nat) : Nat := ctxOf key % 30

/-- A node or edge access at the engine of its core; one of another core's gang comes as a message does (DESIGN CHOICE, log
154). -/
def State.locAsks (s : State) (key : Nat) (g : Gang) (n : Nat) : List Ask :=
  match g.locPieces[n]? with
  | none => []
  | some (e, _, p) =>
    let core := locCore e.instr (p.cells.headD 0)
    [s.turnAsk (.node core) (if core = coreOf key then nodeGang key else 30) 0 (s.effClass key) (pieceId e.id p)]

/-- A piece of an admitted request: an atomic at its home service gang, by the fabric path, which is requester 64 there; any
other at the port or channel of its store, which it reaches by the paths of the gang's quarter, or for a peer of quarter 0
(DESIGN CHOICE, log 154). -/
def State.inboundAsks (s : State) (r : Inbound) (p : Piece) : List Ask :=
  let op := r.own.bind fun o => s.fab.find? fun x => x.entry.id == o.1
  let core := op.elim 0 fun o => coreOf o.gang
  let cls := op.elim 0 fun o => s.effClass o.gang
  let launch := op.elim 0 (·.launch)
  match r.req with
  | .atom .. | .radd .. =>
    let home := s.homeOf r.pno p.space (p.cells.headD 0)
    s.inLine (s.turnAsk (.service home) 64 0 cls r.id) :: s.pieceAsk (16 * home) 4 none true cls launch r.id p
  | _ => s.pieceAsk core 6 none true cls launch r.id p

/-- The requests of an agent's piece. A service gang's atomic, which the table names under no requester of a core's scratchpad
port, has the copy engine's number there, 4 (DESIGN CHOICE, log 154). -/
def State.agentAsks (s : State) (agent : Agent) (n : Nat) : List Ask :=
  match agent with
  | .stream core ctx st =>
    match (s.keyOf core ctx).bind fun k => (s.gang? k).map fun g => (k, g) with
    | none => []
    | some (key, g) =>
      if st = 16 then s.locAsks key g n
      else match (g.stream st).head? with
        | none => []
        | some e => e.todo[n]?.elim [] fun p => s.pieceAsk (coreOf key) (e.slot % 4) none false (s.effClass key) g.launch e.id p
  | .op core eng num =>
    match s.op? core eng num with
    | some o => o.todo[n]?.elim [] fun p =>
      s.pieceAsk core (enginePort eng) (stackPath eng o.instr) false (s.effClass o.gang) o.launch o.seq p
    | none => []
  | .atomic pno cluster =>
    match s.nextAtom pno cluster with
    | some r => s.pieceAsk (16 * cluster) 4 none true (s.effClass r.gang) ((s.gang? r.gang).elim 0 (·.launch)) r.entry r.piece
    | none => []
  | .inbound id => ((s.inbox.find? fun (r : Inbound) => r.id == id).bind fun r => r.todo[n]?.map (s.inboundAsks r)).getD []
  | _ => []

/-! ## The other requests -/

/-- The engine that a command registers at, its identity and the gang that it belongs to. -/
def State.registers (s : State) (core ctx st : Nat) : Option (Nat × Nat × Nat) :=
  (s.keyOf core ctx).bind fun key => (s.gang? key).bind fun g =>
    if st = 17 then
      (((s.core core).mxq.find? fun p => p.follow && s.sameTeam p.gang key).or (s.matrixNext? core key)).map fun p =>
        (1, p.id, key)
    else if st = 18 then ((s.core core).ndq.find? fun q => s.sameTeam q.gang key).map fun p => (2, p.id, key)
    else
      (g.stream st).head?.bind fun e =>
        match e.instr with
        | .xcopy .. | .xcopym .. => some (0, e.id, key)
        | .oload .. | .aread .. | .awrite .. => some (1, e.id, key)
        | .mkcollect .. => some (2, e.id, key)
        | _ => none

/-- A registration's request: at the copy engine by arrival, at the matrix unit as R320 says, at the node engine in turn. The
charge of an MMA and the context are those of the team, by its lead. -/
def State.registerAsks (s : State) (core ctx st : Nat) : List Ask :=
  match s.registers core ctx st with
  | some (0, id, key) => [s.lineAsk (.copyReg (coreOf key)) (ctxOf key) (s.effClass key) id]
  | some (1, id, key) =>
    let core := coreOf key
    let lead := s.leadOf key
    let a := s.lineAsk (.matrixReg core) (ctxOf lead) (s.effClass key) id
    [{ a with first := if s.budgetMode core then Tab.at (s.core core).charges 0 lead else a.first, second := ctxOf lead }]
  | some (2, id, key) => [s.turnAsk (.node (coreOf key)) (nodeGang key) 0 (s.effClass key) id]
  | _ => []

/-- A request for the service gang at the home of an atomic's first piece: the cluster's path in turn, and the path's
requests by arrival. -/
def State.serviceAsks (s : State) (core ctx st : Nat) : List Ask :=
  match (s.keyOf core ctx).bind fun k => (s.gang? k).map fun g => (k, g) with
  | none => []
  | some (key, g) =>
    match g.stream st with
    | [] => []
    | e :: _ =>
      if !isAtomic e.instr || e.sent then []
      else
        match e.todo with
        | [] => []
        | p :: _ =>
          let home := s.homeOf (s.partOf g) p.space (p.cells.headD 0)
          [s.inLine (s.turnAsk (.service home) (clusterOf (coreOf key)) 0 (s.effClass key) e.id)]

/-- A wave's request at a node bank: message arrivals are one requester, wave starts another. -/
def State.nodeAsks (s : State) (core w who n : Nat) : List Ask :=
  match s.wave? w with
  | some x => [s.turnAsk (.node core) who 0 (if x.foreign then 0 else s.effClass x.gang) (w * 2 ^ 20 + n)]
  | none => []

/-- A swap or recall at the proof mover, in the order of the requests. -/
def State.moverAsks (s : State) (core ctx : Nat) : List Ask :=
  match s.leadAt core ctx with
  | some key => [s.lineAsk (.mover (coreOf key)) (ctxOf key) (s.effClass key) key]
  | none => []

/-- A fabric operation's request at the plane of its first packet. -/
def State.planeAsks (s : State) (core ctx : Nat) : List Ask :=
  match (s.keyOf core ctx).bind fun k => (s.gang? k).map fun g => (k, g) with
  | none => []
  | some (key, g) =>
    match g.stream 15 with
    | [] => []
    | e :: _ =>
      let first := match e.instr with
        | .fmcst .. => (e.lines (Tab.at (s.part (s.partOf g)).mcast [] (quadNat (Tab.at e.vals [] 0) 2)) []).head?
        | _ => (s.requests e).head?
      match first with
      | none => []
      | some r =>
        let n := s.planeOf r.home
        let share := (s.queue (s.queueOf g.launch)).fabShare
        [s.inLine (s.turnAsk (.plane n) (quarterOf (coreOf key)) (if s.reserved (8 + n) g.launch share then 0 else 1)
          (s.effClass key) e.id)]

/-- A wave batch's request at its plane, by the node-engine message path, which is requester 4 there (R412). -/
def State.batchAsks (s : State) (id : Nat) : List Ask :=
  match s.batches.find? fun b => b.id == id && b.queued with
  | none => []
  | some b =>
    let n := s.planeOf b.home
    let l := s.batchLaunch b
    let cls := ((s.wave? b.wave).bind fun w => if w.foreign then none else some w.gang).elim 0 s.effClass
    [s.inLine (s.turnAsk (.plane n) 4 (if s.reserved (8 + n) l (s.queue (s.queueOf l)).fabShare then 0 else 1) cls id)]

/-! ## Orders -/

/-- The requests that a choice makes. -/
def State.asks (s : State) (c : Choice) : List Ask :=
  match c with
  | .unit core ctx part => ((s.leadAt core ctx).map fun key => s.issueAsk key part).toList
  | .event i =>
    match i with
    | .clauseEntry core ctx part => ((s.leadAt core ctx).map fun key => s.issueAsk key part).toList
    | .performPiece agent n _ | .completionTimeout agent n | .interfaceRetry agent n _ => s.agentAsks agent n
    | .atomicPerform pno cluster => s.agentAsks (.atomic pno cluster) 0
    | .engineRegistration core ctx st => s.registerAsks core ctx st
    | .atomicSend core ctx st => s.serviceAsks core ctx st
    | .waveDelivery core w n | .waveRunaway core w n => s.nodeAsks core w 30 n
    | .waveStart core w slot => s.nodeAsks core w 31 slot
    | .swapOut core ctx | .recallGang core ctx => s.moverAsks core ctx
    | .fabricSend core ctx => s.planeAsks core ctx
    | .batchAccept n none => s.batchAsks n
    | _ => []

/-- The context by which a choice names a gang, living or retired. -/
def ctxName (key : Nat) : Nat := key / 65536 * 64 + ctxOf key

/-- The pieces that agents might perform now: of streams, operations, service gangs and admitted requests. -/
def State.pieceChoices (s : State) : List Choice :=
  let each := fun (agent : Agent) (n : Nat) => (List.range n).map fun n => Choice.event (.performPiece agent n .none)
  (s.gangs.flatMap fun kg => kg.2.streams.flatMap fun st =>
      each (.stream (coreOf kg.1) (ctxName kg.1) st.1) (if st.1 = 16 then kg.2.locPieces.length else st.2.head?.elim 0 (·.todo.length)))
    ++ (s.cores.flatMap fun c => c.2.engines.flatMap fun en => en.2.ops.flatMap fun o => each (.op c.1 en.1 o.num) o.todo.length)
    ++ (s.inbox.flatMap fun r => each (.inbound r.id) r.todo.length)
    ++ s.atoms.map fun a => .event (.atomicPerform ((s.gang? a.gang).elim 0 s.partOf) a.home)

/-- A choice for every stream of every gang. -/
def State.streamChoices (s : State) (i : Nat → Nat → Nat → Instr) : List Choice :=
  s.gangs.flatMap fun kg => kg.2.streams.map fun st => .event (i (coreOf kg.1) (ctxName kg.1) st.1)

/-- The registrations that wait. -/
def State.registrations (s : State) : List Choice :=
  s.streamChoices .engineRegistration ++ s.gangs.flatMap fun kg =>
    [17, 18].map fun st => .event (.engineRegistration (coreOf kg.1) (ctxName kg.1) st)

/-- The choices that may wait for a resource, planes apart. -/
def State.contenders (s : State) : Res → List Choice
  | .issue core => s.unitsOn core
  | .corePort _ | .clusterPort _ | .diePort _ | .channel _ => s.pieceChoices
  | .copyReg _ | .matrixReg _ => s.registrations
  | .service _ => s.streamChoices .atomicSend ++ s.pieceChoices
  | .node core =>
    s.registrations ++ s.pieceChoices ++ s.waves.flatMap fun w => (Tab.find? w.2.engs core).elim [] fun e =>
      (List.range e.msgs.length).map (fun n => .event (.waveDelivery core w.1 n))
        ++ e.left.map fun slot => .event (.waveStart core w.1 slot)
  | .mover core =>
    (s.gangs.filter fun kg => coreOf kg.1 == core && kg.2.alive).flatMap fun kg =>
      [.event (.swapOut core (ctxOf kg.1)), .event (.recallGang core (ctxOf kg.1))]
  | .plane _ => []

/-- What may wait for a resource: its requests, and what it would do. -/
def State.rivals (s : State) (r : Res) : List (List Ask × (State → Next)) :=
  match r with
  | .plane _ =>
    (s.gangs.map fun kg => (s.planeAsks (coreOf kg.1) (ctxName kg.1), execFabricSend (coreOf kg.1) (ctxName kg.1)))
      ++ (s.batches.filter (·.queued)).map fun b => (s.batchAsks b.id, execBatchAccept b.id none)
  | _ => (s.contenders r).map fun c => (s.asks c, perform c)

/-- Whether the arbiters let a choice go now: no request that would be served, and that comes before one of its own, waits. -/
def State.permits (s : State) (c : Choice) : Bool :=
  (s.asks c).all fun a => (s.rivals a.res).all fun d => !(d.1.any fun b => s.waiting b && b.before a) || !s.changes d.2

/-- A request is granted: a unit takes its slots, one for each member it touches (R12, R17); another resource's arbiter goes on
from its requester, whose request waits there no more. -/
def State.grantAsk (s : State) (c : Choice) (a : Ask) : State :=
  match c with
  | .unit core ctx part | .event (.clauseEntry core ctx part) => s.grantSlot core ctx part
  | _ => { s with arb := Tab.put s.arb (a.res.code * 8 + a.cls) a.who, arrived := s.arrived.filter (· != a.key) }

/-- The grants of a choice. -/
def State.grant (s : State) (c : Choice) : State :=
  if s.moves c then (s.asks c).foldl (fun (s : State) a => s.grantAsk c a) s else s

/-- The requests of a choice reach their resources, to wait there. -/
def State.arriving (s : State) (c : Choice) : State :=
  if !s.moves c then s
  else { s with arrived := (s.asks c).foldl (fun t a => if s.waiting a then t else t ++ [a.key]) s.arrived }

/-! ## What may be held back no longer (R264) -/

/-- The steps of the writes and host stores that have waited as long as the machine may let them. -/
def State.dueSteps (s : State) : List Choice :=
  let due := fun (born id : Nat) => decide (born + Config.patience born id ≤ s.tick)
  (s.log.filter fun w => due w.born w.id).flatMap (fun w =>
      .event (.drain w.id) :: (List.range 4).map (fun q =>
        .event (if w.prop = 1 then .propagate w.id q else .replicate w.id q)))
    ++ (s.hostQ.filter fun h => due h.born h.pno).map fun h => .event (.hostStoreDrain h.pno)

/-- The first such step that is permitted. -/
def State.overdue? (s : State) : Option Choice := s.dueSteps.find? s.moves

/-! ## The choice -/

/-- The choice that a state takes next: the agenda's first; a step that is held back no longer; or a free one, where the
arbiters let it go (R9, R264, R373). -/
def State.choice? (s : State) : Option Choice :=
  match s.agenda with
  | c :: _ => some c
  | [] =>
    match s.overdue? with
    | some c => some c
    | none => if s.permits (Config.nextChoice s.tick) then some (Config.nextChoice s.tick) else none

/-- A moment passes, in which the requests of a free choice reach their resources. -/
def State.pass (s : State) : State := { s.arriving (Config.arrival s.tick) with tick := s.tick + 1 }

/-- The state in which a choice has been taken: granted, where it was free. -/
def State.chosen (s : State) (c : Choice) : State :=
  match s.agenda with
  | _ :: rest => { s with agenda := rest, tick := s.tick + 1 }
  | [] => (s.grant c).pass

end Sys2Proof.Machine
end

