-- ==== Sys2Proof/Safety.lean ====
section
/-! DEFINITION. The terms of the claims: when a word issues, what it leaves in registers, masks and flow, what it leaves
alone, the invariants, and what a safe step is. -/

namespace Sys2Proof.Machine

/-! ## Results, lane by lane -/

/-- What some results, each with the lanes it is written in, put in a lane of a register, if they write it there; the last
one stands. -/
def resultLane (os : List (Mask × Out)) (n l : Nat) : Option Img :=
  os.reverse.findSome? fun mo =>
    match mo.2 with
    | .reg m v => if m = n ∧ inMask mo.1 l = true then some (v.lane l) else none
    | .mask _ _ => none

/-- What some results put in a lane of a mask register; M0 is not written (R41). -/
def resultMask (os : List (Mask × Out)) (k l : Nat) : Option Bool :=
  os.reverse.findSome? fun mo =>
    match mo.2 with
    | .reg _ _ => none
    | .mask m bits => if m = k ∧ m ≠ 0 ∧ inMask mo.1 l = true then some (inMask bits l) else none

/-- A mask register of a gang. -/
def Gang.maskReg (g : Gang) (k : Nat) : Mask := Tab.at g.masks 0#32 k

/-- The pending results of a gang whose windows have closed, each with the lanes that an issued word or a landing writes,
and with what it leaves to be written, in issue order (R105, R106): a result waits behind those that stand `before` it. -/
def dueFrom (before : List Pend) : List Pend → List (Mask × Pend)
  | [] => []
  | p :: ps =>
    let m := p.ready before
    let q := { p with left := p.left &&& ~~~m }
    (m, q) :: dueFrom (if p.landed && q.left == 0#32 then before else before ++ [q]) ps

/-- What a gang's closed windows write, in order. -/
def Gang.dueOuts (g : Gang) : List (Mask × Out) := (dueFrom [] g.pend).flatMap fun mp => mp.2.outs.map fun o => (mp.1, o)

/-- The pending results that remain once the closed windows have been written. -/
def Gang.leftPend (g : Gang) : List Pend :=
  ((dueFrom [] g.pend).map (·.2)).filter fun p => !(p.landed && p.left == 0#32)

/-- A gang `a`, which holds what a word made of a member, has gone on to `g'`: the results `os` were written in their
lanes and after them what its closed windows hold (R105), and the issuing lanes `m0` went on by `n` words, or to where they transfer; `ends` says whether the word ends the
gang's idempotent region (R374). -/
structure Gang.Gone (a g' : Gang) (m0 : Mask) (n : Nat) (os : List (Mask × Out)) (goto : List (Nat × Word64))
    (ends : Bool) : Prop where
  /-- Each live lane of each register: written where a result is, left alone elsewhere (R39). -/
  regs : ∀ r l, inMask a.live l = true → (g'.reg r).lane l = (resultLane (os ++ a.dueOuts) r l).getD ((a.reg r).lane l)
  /-- Each bit of each mask register (R41). -/
  masks : ∀ k l, l < 32 → inMask (g'.maskReg k) l = (resultMask (os ++ a.dueOuts) k l).getD (inMask (a.maskReg k) l)
  /-- A register that no result names is left whole. -/
  others : ∀ r, (∀ mo ∈ os ++ a.dueOuts, ∀ v, mo.2 ≠ .reg r v) → g'.reg r = a.reg r
  /-- The pending results that could not be written stay. -/
  pend : g'.pend = a.leftPend
  /-- The issuing lanes go to their targets, or on by the word's length; every other lane stays where it was. -/
  pcs : ∀ l, (g'.flowAt l).pc =
    if inMask m0 l && inMask a.live l && decide (l < a.flow.length) then
      (((goto.find? fun t => t.1 == l).map (·.2)).getD (addWords (a.flowAt l).pc n))
    else (a.flowAt l).pc
  /-- Everything else of the gang is left alone: special registers, tokens, handle registers, trap registers,
  queues. What the unit kept about the word itself goes. -/
  rest : g' = { a with regs := g'.regs, masks := g'.masks, pend := g'.pend, flow := g'.flow, fetched := g'.fetched
                       waits := g'.waits, offer := g'.offer, idem := if ends then none else a.idem }

/-- A gang that a word of another part leaves alone, but for which part its lanes count to and what its lead keeps. -/
structure Gang.Aside (g g' : Gang) : Prop where
  pcs : ∀ l, (g'.flowAt l).pc = (g.flowAt l).pc
  rest : g' = { g with flow := g'.flow, fetched := g'.fetched, waits := g'.waits }

/-- The state in which a word of the unit has been counted for the windows of its members' pending results (R105). -/
def State.counted (s : State) (mk : Nat) : State :=
  (s.seats mk).foldl (fun s x => s.updGang x.key (fun g => g.count x.m0)) s

/-- At `s` the unit has issued a word with mask field `mk` and `n` words; its members' effects made `u` of the state, and
`t` is `u` once the members have gone on: nothing but gangs changes from `u` to `t`, and of a gang only what `Gang.Gone`
says. -/
structure Moved (s u t : State) (mk n : Nat) (os : Seat → List (Mask × Out)) (goto : Seat → List (Nat × Word64)) (ends : Bool) :
    Prop where
  rest : t = { u with gangs := t.gangs }
  members : ∀ x ∈ s.seats mk, ∃ a g', u.gang? x.key = some a ∧ t.gang? x.key = some g' ∧
    a.Gone g' x.m0 n (os x) (goto x) ends
  aside : ∀ k g, u.gang? k = some g → (∀ x ∈ s.seats mk, x.key ≠ k) → ∃ g', t.gang? k = some g' ∧ g.Aside g'

/-! ## Integers as the claims write them -/

/-- A sum as ADD, SUB and ADDI leave it (R121): the exact integer wrapped, clamped or widened. -/
def sumAs (ty : IntTy) (am : AddMod) (x : Int) : Pair :=
  match am with
  | .wide => wr64 x
  | .sat => wrTy ty (max (tyMin ty) (min (tyMax ty) x))
  | .wrap => wrTy ty x

/-- The six relations of CMP (R131). -/
def relation (c : Cond) (x y : Int) : Bool :=
  match c with
  | .eq => decide (x = y)
  | .ne => decide (x ≠ y)
  | .lt => decide (x < y)
  | .le => decide (x ≤ y)
  | .gt => decide (x > y)
  | .ge => decide (x ≥ y)

/-- The image, or pair of images, of a source in a lane (R147): Src of a lane that is not readable is the zero image. -/
def sourceImage (x : Seat) (len : Nat) (a : VNum) (k : Int) : Pair :=
  if 0 ≤ k ∧ inMask x.act k.toNat = true then (x.g.rd len a.toNat).at (zeroOf len) k.toNat
  else if len = 2 then (⟨0#32, 0x17#8⟩, ⟨0#32, 0x01#8⟩) else (⟨0#32, 0x1A#8⟩, ⟨0#32, 0x1A#8⟩)

/-- The value fields that VOTE.SAME and VOTE.ALLSAME compare (R154). -/
def voteWord (x : Seat) (w64 : Bool) (a : VNum) (l : Nat) : Word64 :=
  if w64 then (pairLane (x.g.rd 2 a.toNat) l).2.val ++ (pairLane (x.g.rd 2 a.toNat) l).1.val
  else ((pairLane (x.g.rd 1 a.toNat) l).1.val).setWidth 64

/-- The values of some lanes combined by a reduction (R152): none gives the identity. -/
def combined (op : RedOp) (x : Seat) (a : VNum) (ls : List Nat) : Pair :=
  let w := if redWide op then 64 else 32
  let v := ls.foldl (fun r l => redApply op r (rawVal w (pairLane (x.g.rd (redLen op) a.toNat) l))) (redIdentity op)
  if redWide op then wr64 v else wr32 v

/-- An integer dot product (R157): n elements of e bits, the exact sum wrapped or clamped to 32 bits. -/
def dotAs (signed sat : Bool) (e n : Nat) (a b c : Pair) : Pair :=
  let el := fun (p : Pair) (i : Nat) =>
    let f := BitVec.ofNat e (p.1.val.toNat / 2 ^ (e * i))
    if signed then f.toInt else (f.toNat : Int)
  let s : Int := (if signed then c.1.val.toInt else (c.1.val.toNat : Int)) +
    ((List.range n).map fun i => el a i * el b i).sum
  let r := if sat then (if signed then max (-2 ^ 31) (min (2 ^ 31 - 1) s) else max 0 (min (2 ^ 32 - 1) s)) else s
  (⟨BitVec.ofInt 32 r, 0x1F#8⟩, zeroImg)

/-- The element that PACK makes of a source (R159), as its low bits. -/
def packAs (ty : PackTy) (sat : Bool) (p : Pair) : Nat :=
  let v : Int := if packSigned ty then p.1.val.toInt else p.1.val.toNat
  let lo : Int := if packSigned ty then -2 ^ (ty.width - 1) else 0
  let hi : Int := if packSigned ty then 2 ^ (ty.width - 1) - 1 else 2 ^ ty.width - 1
  ((if sat then max lo (min hi v) else v) % 2 ^ ty.width).toNat

/-! ## Floating point as the claims write it -/

/-- The rational that a finite value stands for; 0 for the others. -/
def Fp.rat : Fp → ℚ
  | .fin n m e => (if n then -1 else 1) * m * 2 ^ e
  | _ => 0

/-- Whether the value of an image lies below another's in the order of FMIN and FMAX (R199): -0 below +0, a NaN nowhere. -/
def below (c : FpCls) (a b : Pair) : Bool :=
  let u := imgValue c a
  let v := imgValue c b
  Fp.cmp? u v == some .lt || (u.isZero && v.isZero && u.neg? && !v.neg?)

/-- Whether a member's significance floor lets a result pass (R185, R422): it is off, its handler runs, or no active lane
stands below it. -/
def Trusted (x : Seat) (c : FpCls) (v : Lanes Pair) : Prop :=
  x.g.sigfloor.toNat % 64 = 0 ∨ x.g.tstat.getLsbD 0 = true ∨
    ∀ l, inMask x.act l = true → x.g.sigfloor.toNat % 64 ≤ storedK c (pairLane v l)

/-- Whether a compact operation is of the FP class (R103). -/
def isFpCop : COp → Bool
  | .faddF32 | .fsubF32 | .fmulF32 | .fminF32 | .fmaxF32 => true
  | _ => false

/-- The value that a compact operation writes in each lane (R103): that of its full statement. -/
def compactVal (x : Seat) (c : Compact) : Lanes Pair :=
  let y := { x with act := x.m0 &&& x.mask c.msk.toNat }
  let u := y.src 1 (c.a.setWidth 8) .none
  let v := y.src 1 (c.b.setWidth 8) .none
  let shift := fun (f : Nat → Nat → Int) (ty : IntTy) =>
    Lanes.map2 (fun a b => wrTy ty (f (rawVal 32 a) (b.1.val.toNat % 256))) u v
  match c.op with
  | .nop | .movW32 => u
  | .addS32 => Lanes.map2 (fun a b => wrTy .s32 (intVal .s32 a + intVal .s32 b)) u v
  | .subS32 => Lanes.map2 (fun a b => wrTy .s32 (intVal .s32 a - intVal .s32 b)) u v
  | .mulS32 => Lanes.map2 (fun a b => wrTy .s32 (intVal .s32 a * intVal .s32 b)) u v
  | .mulhS32 => Lanes.map2 (fun a b => wrTy .s32 (intVal .s32 a * intVal .s32 b / 2 ^ 32)) u v
  | .mulhZ32 => Lanes.map2 (fun a b => wrTy .z32 (intVal .z32 a * intVal .z32 b / 2 ^ 32)) u v
  | .andW32 => Lanes.map2 (fun a b => wrTy .w32 ((rawVal 32 a &&& rawVal 32 b : Nat) : Int)) u v
  | .orW32 => Lanes.map2 (fun a b => wrTy .w32 ((rawVal 32 a ||| rawVal 32 b : Nat) : Int)) u v
  | .xorW32 => Lanes.map2 (fun a b => wrTy .w32 ((rawVal 32 a ^^^ rawVal 32 b : Nat) : Int)) u v
  | .shlW32 => shift (fun a c => ((a * 2 ^ c : Nat) : Int)) .w32
  | .shrW32 => shift (fun a c => ((a / 2 ^ c : Nat) : Int)) .w32
  | .sarS32 => shift (fun a c => toSigned 32 a / 2 ^ c) .s32
  | .rotW32 => shift (fun a c => (((a * 2 ^ 32 + a) / 2 ^ (c % 32) : Nat) : Int)) .w32
  | .minS32 => Lanes.map2 (fun a b => wrTy .s32 (min (intVal .s32 a) (intVal .s32 b))) u v
  | .maxS32 => Lanes.map2 (fun a b => wrTy .s32 (max (intVal .s32 a) (intVal .s32 b))) u v
  | .minZ32 => Lanes.map2 (fun a b => wrTy .z32 (min (intVal .z32 a) (intVal .z32 b))) u v
  | .maxZ32 => Lanes.map2 (fun a b => wrTy .z32 (max (intVal .z32 a) (intVal .z32 b))) u v
  | .absS32 => u.map fun a => wrTy .s32 |intVal .s32 a|
  | .clzW32 => u.map fun a => wrTy .w32 ((32 - Nat.size (rawVal 32 a) : Nat) : Int)
  | .popcW32 => u.map fun a => wrTy .w32 (((List.range 32).countP fun i => (rawVal 32 a).testBit i : Nat) : Int)
  | .brevW32 => u.map fun a => wrTy .w32 ((BitVec.ofNat 32 (rawVal 32 a)).reverse.toNat : Int)
  | .faddF32 => Lanes.map2 (fun a b => fAdd .f32 (oprOf .f32 a) (oprOf .f32 b)) u v
  | .fsubF32 => Lanes.map2 (fun a b => fAdd .f32 (oprOf .f32 a) (oprOf .f32 b).negate) u v
  | .fmulF32 => Lanes.map2 (fun a b => fMul .f32 (oprOf .f32 a) (oprOf .f32 b)) u v
  | .fminF32 => Lanes.map2 (fMinMax false .f32) u v
  | .fmaxF32 => Lanes.map2 (fMinMax true .f32) u v

/-- Two values are the same number, with the same sign, or the same infinity, or both NaN. -/
def Fp.Is (a b : Fp) : Prop := a.rat = b.rat ∧ a.neg? = b.neg? ∧ a.isNan = b.isNan ∧ a.isInf = b.isInf

/-- S and K of an image `y` that rounds the exact value `x` by a row of its own (R184): `s0` is the S taken over the
operands, `kr` the row's K, `kinf` the K of an infinity taken from an operand. -/
def OwnTrust (c : FpCls) (kr kinf : Nat) (s0 : Bool) (x : Fp) (y : Pair) : Prop :=
  let r := roundOdd c x
  (r.isNan = true ∨ overflows c x = true → y.1.s = true ∧ storedK c y = 0) ∧
  (r.isInf = true → overflows c x = false → y.1.s = s0 ∧ storedK c y = kinf) ∧
  (r.isZero = true → y.1.s = s0 ∧ storedK c y = kr) ∧
  (r.isNum = true → y.1.s = (s0 || !decide (r.rat = x.rat)) ∧
    storedK c y = if r.rat = x.rat then min kr (avail c r) else min (min kr (avail c r)) (avail c r - 1))

/-- S and K of an image `y` that rounds the exact sum `x` of some addends, a product standing as one addend, where no
addend is a dead zero (R183, R184): `kinf` is the K of an infinity taken from an operand. -/
def AddTrust (c : FpCls) (xs : List Opr) (kinf : Nat) (x : Fp) (y : Pair) : Prop :=
  let r := roundOdd c x
  (r.isNan = true ∨ overflows c x = true → y.1.s = true ∧ storedK c y = 0) ∧
  (r.isInf = true → overflows c x = false → y.1.s = xs.any Opr.s ∧ storedK c y = kinf) ∧
  (r.isZero = true → xs.any Opr.dead = false → xs.any (fun a => a.v.isNum) = true → y.1.s = xs.any Opr.s ∧
    storedK c y = if xs.any (fun a => a.v.isNum && a.s) then 0 else precP c) ∧
  (r.isNum = true → xs.any Opr.dead = false → y.1.s = (xs.any Opr.s || !decide (r.rat = x.rat)) ∧
    storedK c y = (let k := match xs.foldl (fun m a => maxFloor m a.floor?) none with
        | none => precP c
        | some fr => (max 0 (min (precP c : Int) (r.lead - fr + 1))).toNat
      if r.rat = x.rat then min k (avail c r) else min (min k (avail c r)) (avail c r - 1)))

/-- Every member's significance floor is off, or its handler runs (R185, R422): no result can trap. -/
def FloorOpen (i : Instr) (s : State) : Prop :=
  ∀ x ∈ s.seats i.maskField, x.g.sigfloor.toNat % 64 = 0 ∨ x.g.tstat.getLsbD 0 = true

/-! ## When a word issues -/

/-- Whether a word issues now (R105, R248, R456): its unit stands, its operands lie within the allotment and are aligned,
no window of a register it touches has closed, its token is not full, and no acquire holds it back. -/
def issues (i : Instr) (s : State) : Bool :=
  let xs := s.seats i.maskField
  !xs.isEmpty && (operandFault (16 * ((xs.head?).elim 0 fun x => x.g.allot)) i.opnds).isNone &&
    xs.all fun x =>
      !(x.g.lookStall x.m0 (opndRegs i.opnds) ((i.maskField :: i.maskReads ++ i.maskWrites).filter (· != 0))) &&
        !(i.tokOf != 0 && x.g.tok i.tokOf == 15) && !(waitsForAcq i && !x.g.acqs.isEmpty)

/-- `exec` completes the word `i` at `s`: the effects of its members make `u` of the state in which it was counted, and
its members go on with the results `os`. -/
def Completes (i : Instr) (s u : State) (os : Seat → List (Mask × Out)) (goto : Seat → List (Nat × Word64)) : Prop :=
  ∃ t, exec i s = .next t ∧ Moved s u t i.maskField s.curWords os goto (endsIdem i)

/-- A word that computes: wherever it issues it completes, its members having the results `os` in their active
lanes and nothing else having changed. -/
def Computes (i : Instr) (os : State → Seat → List Out) : Prop :=
  ∀ s, issues i s = true → Completes i s (s.counted i.maskField) (fun x => x.give (os s x)) (fun _ => [])

/-- A word that writes FP images: wherever it issues and every member's floor lets the result pass, it completes with
it. -/
def FpComputes (i : Instr) (c : FpCls) (d : VNum) (v : Seat → Lanes Pair) : Prop :=
  ∀ s, issues i s = true → (∀ x ∈ s.seats i.maskField, Trusted x c (v x)) →
    Completes i s (s.counted i.maskField) (fun x => x.give (outReg (clsLen c) d.toNat (v x))) (fun _ => [])

/-- A long-latency word that writes FP images: under the same condition it completes and each member keeps the result
pending behind its LOOK window. -/
def FpOpens (i : Instr) (c : FpCls) (d : VNum) (look : BitVec 4) (v : Seat → Lanes Pair) : Prop :=
  ∀ s, issues i s = true → (∀ x ∈ s.seats i.maskField, Trusted x c (v x)) →
    Completes i s ((s.seats i.maskField).foldl (fun u x => (u.addPend x look.toNat
      ((List.range (clsLen c)).map (d.toNat + ·)) [] x.act (outReg (clsLen c) d.toNat (v x)) false true 0).2)
      (s.counted i.maskField)) (fun _ => []) (fun _ => [])

/-- From `u` to `v` a member has come to keep one more pending result `p`, behind the others, and its token counts it
(R105, R107); nothing else has changed but the next identity. -/
def Opens (u v : State) (key : Nat) (p : Pend) : Prop :=
  v = { u with gangs := v.gangs, nextId := u.nextId + 1 } ∧ (∀ k, k ≠ key → v.gang? k = u.gang? k) ∧
  ∀ g, u.gang? key = some g → v.gang? key = some { g with
    pend := g.pend ++ [p], toks := if p.tok = 0 then g.toks else Tab.put g.toks p.tok (g.tok p.tok + 1) }

/-- A word that issues with a member whose active lanes are all its live lanes, and for which no landed result waits: its
writes are full (R39) and no window's result follows them. -/
def FullWrite (i : Instr) (s : State) (x : Seat) : Prop :=
  issues i s = true ∧ x ∈ s.seats i.maskField ∧ (∀ l, inMask x.g.live l = true → inMask x.act l = true) ∧
    ∀ p ∈ x.g.pend, p.landed = false

/-- A word completes and leaves this in a register of a member, shape and all. -/
def Leaves (i : Instr) (s : State) (x : Seat) (d : VNum) (v : VReg) : Prop :=
  ∃ t g', exec i s = .next t ∧ t.gang? x.key = some g' ∧ g'.reg d.toNat = v

/-- A word whose members act: wherever it issues and no member has a reason to trap, it completes with the effect of each
member in member order, each on what the one before left. -/
def Acts (i : Instr) (ok : State → Seat → Bool) (eff : Seat → State → State) : Prop :=
  ∀ s, issues i s = true → (∀ x ∈ s.seats i.maskField, ok s x = true) →
    Completes i s ((s.seats i.maskField).foldl (fun u x => eff x u) (s.counted i.maskField)) (fun _ => []) (fun _ => [])

/-! ## Traps -/

/-- What a trap leaves in a member `g` of the team (R420, R425, R426): the trap registers, the saved flow, the frozen
windows, and every live lane at the handler's entry as one part. -/
structure Gang.Entered (g g' : Gang) (w : TrapAt) (f : Flaw) (handler : Word64) (part : Nat) : Prop where
  code : fieldOf g'.tcause 0 8 = f.code % 256
  detail : fieldOf g'.tcause 8 8 = f.detail % 256
  slices : fieldOf g'.tcause 16 8 = g.partSlices w.part % 256
  deferred : g'.tcause.getLsbD 24 = w.defer
  zero : g'.tcause.toNat < 2 ^ 25
  tpc : g'.tpc = w.tpc
  lanes : fieldOf g'.tlane 32 32 = f.lanes.toNat
  first : fieldOf g'.tlane 0 32 = (lowLane? f.lanes).getD 0
  infos : g'.tinfo0 = w.word ∧ g'.tinfo1 = f.info1 ∧ g'.tinfo2 = f.info2 ∧ g'.tinfo3 = f.info3
  tstat : g'.tstat = if w.lit then 5#64 else 1#64
  saved : ∀ l, l < g.flow.length → inMask g.live l = true → g'.trapFlow.getD l Flow.blank = g.flowAt l
  handler : ∀ l, l < g.flow.length → inMask g.live l = true → g'.flowAt l = ⟨handler, 0#64, 0, 0#6, 0#2, false, part, 0#64⟩
  dead : ∀ l, inMask g.live l = false → g'.flowAt l = g.flowAt l
  frozen : g'.pend = g.pend.map fun p => { p with frozen := true }
  /-- The general registers, masks, handle registers, tokens, streams and the rest stand. -/
  rest : g' = { g with
    flow := g'.flow, trapFlow := g'.trapFlow, tcause := g'.tcause, tmark := g'.tmark, tgroup := g'.tgroup, tpc := g'.tpc
    tlane := g'.tlane, tinfo0 := g'.tinfo0, tinfo1 := g'.tinfo1, tinfo2 := g'.tinfo2, tinfo3 := g'.tinfo3
    tstat := g'.tstat, tborn := g'.tborn, pend := g'.pend, fetched := [], waits := g'.waits }

/-- What each member reports: its own cause, or, where it did not meet it, the first one's with no lanes (R423). -/
def reportOf (fl : List (Nat × Flaw)) (k : Nat) : Flaw :=
  match fl.find? (fun x => x.1 == k), fl with
  | some x, _ => x.2
  | none, f :: _ => { f.2 with lanes := 0#32 }
  | none, [] => flaw 0 0 0#32

/-- A team has taken a trap: each member has entered its role's handler; other gangs and the rest of the machine,
memory included, stand. -/
structure Trapped (s t : State) (key : Nat) (w : TrapAt) (fl : List (Nat × Flaw)) : Prop where
  rest : t = { s with gangs := t.gangs }
  members : ∀ kg ∈ s.team key, ∃ g', t.gang? kg.1 = some g' ∧
    kg.2.Entered g' w (reportOf fl kg.1) (s.roleOf kg.2).trapent (s.lowSlice key)
  aside : ∀ k, (∀ kg ∈ s.team key, kg.1 ≠ k) → t.gang? k = s.gang? k

/-- The current word as a trapping word. -/
def State.wordAt (s : State) : TrapAt := ⟨s.cur.part, s.cur.pc, s.cur.word, s.cur.lit, false, s.cur.pc⟩

/-- The word `i` traps at `s` with the causes `fl`, with no other effect; while a handler of the team runs, the launch
ends with status 0x7E instead (R424). -/
def Traps (i : Instr) (s : State) (fl : List (Nat × Flaw)) : Prop :=
  if (s.team s.cur.key).any (fun kg => kg.2.inTrap) = true then
    exec i s = .next (s.haltLaunch (((s.team s.cur.key).map (·.2.launch)).headD 0) 0x7E)
  else ∃ t, exec i s = .next t ∧ Trapped s t s.cur.key s.wordAt fl

/-- What a member meets before an operand fault in the order of R450: a slot that does not suit (R452), or the target of a
call that can be fetched but holds no clause header (R454). -/
def earlyFlaw (i : Instr) (s : State) (x : Seat) : Option Flaw :=
  let code := fun (d : Word64 × Word64 → Nat) (fmt : BitVec 3) => d (s.slotOf x.g.launch fmt.toNat)
  let slot := fun (fmt : BitVec 3) => flaw 0x01 6 x.act (BitVec.ofNat 64 fmt.toNat)
  let unsuited := fun (e : Option DotElem) (sat : Bool) => match e with
    | none => true
    | some (.int _) => false
    | some (.fp _) => sat
  let headless := fun (t : Nat → Word64) =>
    let bad := (maskLanes x.act).filter fun l => (s.fetchFault (s.partOf x.g) (coreOf x.key) (t l)).isNone &&
      !s.headerAt (s.partOf x.g) (coreOf x.key) (t l)
    (bad.head?).map fun l => flaw 0x02 6 (maskOf fun k => bad.contains k) (t l)
  match i with
  | .dot4 ty sat _ _ _ _ _ fmt _ => if unsuited (dot4Elem ty (code slotAfmt fmt)) sat then some (slot fmt) else none
  | .dot8 ty sat _ _ _ _ _ fmt _ => if unsuited (dot8Elem ty (code slotAfmt fmt)) sat then some (slot fmt) else none
  | .fpack ty _ _ _ _ _ _ fmt _ => if fpackCls ty (code slotOfmt fmt) = none then some (slot fmt) else none
  | .call _ _ disp => headless fun _ => dispTarget s.cur.pc disp
  | .calli _ va _ => if (operandFault (16 * x.g.allot) [oA va 2]).isSome then none else headless (x.g.pairAt va.toNat)
  | _ => none

/-- Every member of the unit meets the cause, with its active lanes. -/
def State.all (s : State) (mk code detail : Nat) (info1 info2 : Word64) : List (Nat × Flaw) :=
  (s.seats mk).map fun x => (x.key, flaw code detail x.act info1 info2)

/-! ## Entries of streams -/

/-- An instruction's entry has entered stream `st` of a gang, at its tail, and its token counts it; nothing else of the
machine changes, memory least of all (R256, R259). -/
structure Queued (u v : State) (key st tok : Nat) (e : Entry) : Prop where
  rest : v = { u with gangs := v.gangs, nextId := v.nextId }
  ids : u.nextId < v.nextId ∧ u.nextId ≤ e.id ∧ e.id < v.nextId
  others : ∀ k, k ≠ key → v.gang? k = u.gang? k
  gang : ∀ g, u.gang? key = some g → ∃ g', v.gang? key = some g' ∧ Tab.at g'.streams [] st = Tab.at g.streams [] st ++ [e] ∧
    (∀ n, n ≠ st → Tab.at g'.streams [] n = Tab.at g.streams [] n) ∧
    g' = { g with streams := g'.streams, pend := g'.pend, toks := (g.tokAdd tok).toks }

end Sys2Proof.Machine
end

