-- ==== Sys2Proof/Certificates/Slice0/Obligations.lean ====
section
/-! DEFINITION. The statements for the provers: what each family of instructions does, what it leaves alone, where it
traps, the invariants, and the encoding. -/

open Sys2Proof Sys2Proof.Machine

/-- R112, Int and Wr (R35, R36): how a typed integer is read from a lane image or a pair, and how one is written. -/
def Obligations.IntegerReadWrite : Prop :=
  (∀ p : Pair, intVal .s32 p = p.1.val.toInt ∧ intVal .z32 p = p.1.val.toNat ∧ intVal .w32 p = p.1.val.toNat) ∧
  (∀ p : Pair, intVal .s16 p = (p.1.val.setWidth 16).toInt ∧ intVal .z16 p = (p.1.val.setWidth 16).toNat ∧
    intVal .s8 p = (p.1.val.setWidth 8).toInt ∧ intVal .z8 p = (p.1.val.setWidth 8).toNat) ∧
  (∀ p : Pair, intVal .s64 p = (p.2.val ++ p.1.val).toInt ∧ intVal .z64 p = (p.2.val ++ p.1.val).toNat ∧
    intVal .w64 p = (p.2.val ++ p.1.val).toNat) ∧
  (∀ ty, ty = .s32 ∨ ty = .z32 ∨ ty = .w32 → ∀ x : Int, (wrTy ty x).1 = ⟨BitVec.ofInt 32 x, 0x1F#8⟩) ∧
  (∀ x : Int, (wrTy .s16 x).1 = ⟨(BitVec.ofInt 16 x).signExtend 32, 0x1F#8⟩ ∧
    (wrTy .z16 x).1 = ⟨(BitVec.ofInt 16 x).setWidth 32, 0x1F#8⟩ ∧
    (wrTy .s8 x).1 = ⟨(BitVec.ofInt 8 x).signExtend 32, 0x1F#8⟩ ∧
    (wrTy .z8 x).1 = ⟨(BitVec.ofInt 8 x).setWidth 32, 0x1F#8⟩) ∧
  (∀ ty, ty = .s64 ∨ ty = .z64 ∨ ty = .w64 → ∀ x : Int,
    wrTy ty x = (⟨(BitVec.ofInt 64 x).extractLsb' 0 32, 0x1F#8⟩, ⟨(BitVec.ofInt 64 x).extractLsb' 32 32, 0x01#8⟩))

/-- R45, R46: the lane that each permutation reads for lane l of a gang w lanes wide, and what a lane that is not readable supplies. A register of independent images holds 32 of them. -/
def Obligations.SourceLanes : Prop :=
  (∀ (w l : Nat) (k : Fin 5) (n : BitVec 3) (m : BitVec 5), Perm.lane .none w l = l ∧ Perm.lane (.bfly k) w l = l ^^^ 2 ^ k.val ∧
    Perm.lane (.rot n) w l = l / 8 * 8 + (l + n.toNat) % 8 ∧ Perm.lane .rev w l = w - 1 - l ∧ Perm.lane (.bc m) w l = m.toNat) ∧
  (∀ (x : Seat) (n : VNum) (p : Perm) (l : Nat), (∀ v xs, v = x.g.reg n.toNat → v = .general xs → xs.length = 32) → l < 32 →
    (p = .none → inMask x.act l = true) →
    (pairLane (x.src 1 n p) l).1 =
      (if inMask x.act (Perm.lane p x.g.width l) then (x.g.reg n.toNat).lane (Perm.lane p x.g.width l)
       else ⟨0#32, 0x1A#8⟩)) ∧
  (∀ (x : Seat) (n : VNum) (p : Perm) (l : Nat),
    (∀ j, j < 2 → ∀ v xs, v = x.g.reg (n.toNat + j) → v = .general xs → xs.length = 32) → l < 32 →
    (p = .none → inMask x.act l = true) →
    pairLane (x.src 2 n p) l =
      (if inMask x.act (Perm.lane p x.g.width l) then
        ((x.g.reg n.toNat).lane (Perm.lane p x.g.width l), (x.g.reg (n.toNat + 1)).lane (Perm.lane p x.g.width l))
       else (⟨0#32, 0x17#8⟩, ⟨0#32, 0x01#8⟩)))

/-- R118-R120, R130, R134: NOP, MOV, MOVI, SEL, IDS complete with these results in the active lanes, and nothing else changes but where the lanes stand. What IDS.PART answers is the model's choice (log 103): the lowest of the member's own slices with a lane in M0. -/
def Obligations.Moves : Prop :=
  Computes .nop (fun _ _ => []) ∧
  (∀ ty d a p mk, Computes (.mov ty d a p mk) fun _ x => outReg (tyLen ty) d.toNat (x.src (tyLen ty) a p)) ∧
  (∀ ty d imm mk, Computes (.movi ty d imm mk) fun _ _ => outReg (tyLen ty) d.toNat (.uni (wrTy ty (immVal imm)))) ∧
  (∀ ty d a p b mc mk, Computes (.sel ty d a p b mc mk) fun _ x => outReg (tyLen ty) d.toNat (.ofFn fun l =>
    if inMask (x.mask mc.toNat) l then pairLane (x.src (tyLen ty) a p) l else pairLane (x.src (tyLen ty) b .none) l)) ∧
  (∀ q d mk, Computes (.ids q d mk) fun s x => [.reg d.toNat (.general (lanes32.map fun l =>
    ⟨BitVec.ofNat 32 (match q with
      | .lane => l
      | .slice => l / 4
      | .member => x.g.member
      | .inst => x.g.inst
      | .role => x.g.role
      | .core => x.key / 64 % 1024
      | .device => Config.device.toNat
      | .width => 4 * x.g.slices
      | .part => ((lowLane? x.m0).getD 0) / 4
      | .context => x.key % 64
      | .partition => s.partOf x.g), 0x1F#8⟩))])

/-- R121, R122: the results of the integer sums and products in the active lanes; nothing else changes. -/
def Obligations.IntegerArithmetic : Prop :=
  (∀ ty am d a p b mk, Computes (.add ty am d a p b mk) fun _ x => outReg (addLen ty am) d.toNat
    (Lanes.map2 (fun u v => sumAs ty am (intVal ty u + intVal ty v)) (x.src (tyLen ty) a p) (x.src (tyLen ty) b .none))) ∧
  (∀ ty am d a p b mk, Computes (.sub ty am d a p b mk) fun _ x => outReg (addLen ty am) d.toNat
    (Lanes.map2 (fun u v => sumAs ty am (intVal ty u - intVal ty v)) (x.src (tyLen ty) a p) (x.src (tyLen ty) b .none))) ∧
  (∀ ty am d a imm mk, Computes (.addi ty am d a imm mk) fun _ x => outReg (addLen ty am) d.toNat
    ((x.src (tyLen ty) a .none).map fun u => sumAs ty am (intVal ty u + intVal ty (immPair imm)))) ∧
  (∀ ty d a p b mk, Computes (.mul ty d a p b mk) fun _ x => outReg (tyLen ty) d.toNat
    (Lanes.map2 (fun u v => wrTy ty (intVal ty u * intVal ty v)) (x.src (tyLen ty) a p) (x.src (tyLen ty) b .none))) ∧
  (∀ ty d a p b mk, Computes (.mulh ty d a p b mk) fun _ x => outReg (tyLen ty) d.toNat
    (Lanes.map2 (fun u v => wrTy ty (intVal ty u * intVal ty v / 2 ^ ty.width)) (x.src (tyLen ty) a p)
      (x.src (tyLen ty) b .none))) ∧
  (∀ ty d a p b c mk, Computes (.mad ty d a p b c mk) fun _ x => outReg (tyLen ty) d.toNat
    (Lanes.map3 (fun u v w => wrTy ty (intVal ty u * intVal ty v + intVal ty w)) (x.src (tyLen ty) a p)
      (x.src (tyLen ty) b .none) (x.src (tyLen ty) c .none)))

/-- R124-R127: logic and shifts in the active lanes; a left shift of any size is a multiplication mod 2^w, a right shift a division, an arithmetic one the floor division of the signed value, a rotation reads two copies side by side. -/
def Obligations.LogicAndShifts : Prop :=
  (∀ ty d a p b mk, Computes (.and ty d a p b mk) fun _ x => outReg (tyLen ty) d.toNat
    (Lanes.map2 (fun u v => wrTy ty ((rawVal ty.width u &&& rawVal ty.width v : Nat) : Int)) (x.src (tyLen ty) a p)
      (x.src (tyLen ty) b .none))) ∧
  (∀ ty d a p b mk, Computes (.or ty d a p b mk) fun _ x => outReg (tyLen ty) d.toNat
    (Lanes.map2 (fun u v => wrTy ty ((rawVal ty.width u ||| rawVal ty.width v : Nat) : Int)) (x.src (tyLen ty) a p)
      (x.src (tyLen ty) b .none))) ∧
  (∀ ty d a p b mk, Computes (.xor ty d a p b mk) fun _ x => outReg (tyLen ty) d.toNat
    (Lanes.map2 (fun u v => wrTy ty ((rawVal ty.width u ^^^ rawVal ty.width v : Nat) : Int)) (x.src (tyLen ty) a p)
      (x.src (tyLen ty) b .none))) ∧
  (∀ kind ty d a imm mk, Computes (.logi kind ty d a imm mk) fun _ x => outReg (tyLen ty) d.toNat
    ((x.src (tyLen ty) a .none).map fun u => wrTy ty ((match kind with
      | .land => rawVal ty.width u &&& rawVal ty.width (immPair imm)
      | .lor => rawVal ty.width u ||| rawVal ty.width (immPair imm)
      | .lxor => rawVal ty.width u ^^^ rawVal ty.width (immPair imm)
      | .landn => rawVal ty.width u &&& (2 ^ ty.width - 1 - rawVal ty.width (immPair imm)) : Nat) : Int))) ∧
  (∀ ty d a p b mk, Computes (.shl ty d a p b mk) fun _ x => outReg (tyLen ty) d.toNat
    (Lanes.map2 (fun u v => wrTy ty ((rawVal ty.width u * 2 ^ (v.1.val.toNat % 256) : Nat) : Int)) (x.src (tyLen ty) a p)
      (x.src 1 b .none))) ∧
  (∀ ty d a p b mk, Computes (.shr ty d a p b mk) fun _ x => outReg (tyLen ty) d.toNat
    (Lanes.map2 (fun u v => wrTy ty ((rawVal ty.width u / 2 ^ (v.1.val.toNat % 256) : Nat) : Int)) (x.src (tyLen ty) a p)
      (x.src 1 b .none))) ∧
  (∀ ty d a p b mk, Computes (.sar ty d a p b mk) fun _ x => outReg (tyLen ty) d.toNat
    (Lanes.map2 (fun u v => wrTy ty (toSigned ty.width (rawVal ty.width u) / 2 ^ (v.1.val.toNat % 256)))
      (x.src (tyLen ty) a p) (x.src 1 b .none))) ∧
  (∀ ty d a p b mk, Computes (.rot ty d a p b mk) fun _ x => outReg (tyLen ty) d.toNat
    (Lanes.map2 (fun u v => wrTy ty (((rawVal ty.width u * 2 ^ ty.width + rawVal ty.width u)
      / 2 ^ (v.1.val.toNat % 256 % ty.width) : Nat) : Int)) (x.src (tyLen ty) a p) (x.src 1 b .none))) ∧
  (∀ kind ty d a n mk, Computes (.shi kind ty d a n mk) fun _ x => outReg (tyLen ty) d.toNat
    ((x.src (tyLen ty) a .none).map fun u => match kind with
      | .l => wrTy ty ((rawVal ty.width u * 2 ^ n.toNat : Nat) : Int)
      | .r => wrTy ty ((rawVal ty.width u / 2 ^ n.toNat : Nat) : Int)
      | .a => wrTy ty (toSigned ty.width (rawVal ty.width u) / 2 ^ n.toNat)
      | .rot => wrTy ty (((rawVal ty.width u * 2 ^ ty.width + rawVal ty.width u) / 2 ^ (n.toNat % ty.width) : Nat) : Int)))

/-- R128, R129, R132: bit counts, minima and maxima, absolute values and bit fields in the active lanes. -/
def Obligations.BitsAndFields : Prop :=
  (∀ ty d a p mk, Computes (.clz ty d a p mk) fun _ x => outReg (tyLen ty) d.toNat
    ((x.src (tyLen ty) a p).map fun u => wrTy ty ((ty.width - Nat.size (rawVal ty.width u) : Nat) : Int))) ∧
  (∀ ty d a p mk, Computes (.popc ty d a p mk) fun _ x => outReg (tyLen ty) d.toNat
    ((x.src (tyLen ty) a p).map fun u =>
      wrTy ty (((List.range ty.width).countP fun i => (rawVal ty.width u).testBit i : Nat) : Int))) ∧
  (∀ ty d a p mk, Computes (.brev ty d a p mk) fun _ x => outReg (tyLen ty) d.toNat
    ((x.src (tyLen ty) a p).map fun u => wrTy ty ((BitVec.ofNat ty.width (rawVal ty.width u)).reverse.toNat : Int))) ∧
  (∀ ty d a p b mk, Computes (.min ty d a p b mk) fun _ x => outReg (tyLen ty) d.toNat
    (Lanes.map2 (fun u v => wrTy ty (if intVal ty u ≤ intVal ty v then intVal ty u else intVal ty v))
      (x.src (tyLen ty) a p) (x.src (tyLen ty) b .none))) ∧
  (∀ ty d a p b mk, Computes (.max ty d a p b mk) fun _ x => outReg (tyLen ty) d.toNat
    (Lanes.map2 (fun u v => wrTy ty (if intVal ty u ≤ intVal ty v then intVal ty v else intVal ty u))
      (x.src (tyLen ty) a p) (x.src (tyLen ty) b .none))) ∧
  (∀ ty sat d a p mk, ty = .s32 ∨ ty = .s64 ∨ ty = .s16 ∨ ty = .s8 → Computes (.abs ty sat d a p mk) fun _ x =>
    outReg (tyLen ty) d.toNat ((x.src (tyLen ty) a p).map fun u =>
      if sat = true ∧ intVal ty u = -2 ^ (ty.width - 1) then wrTy ty (2 ^ (ty.width - 1) - 1)
      else wrTy ty |intVal ty u|)) ∧
  (∀ ty d a p b mk, Computes (.bfe ty d a p b mk) fun _ x => outReg (tyLen ty) d.toNat
    (Lanes.map2 (fun u v =>
      let pos := v.1.val.toNat % 256
      let len := min (v.1.val.toNat / 256 % 256) (ty.width - pos)
      let f := rawVal ty.width u / 2 ^ pos % 2 ^ len
      if len = 0 then wrTy ty 0
      else if tySigned ty && f.testBit (len - 1) then wrTy ty ((f : Int) - 2 ^ len) else wrTy ty f)
      (x.src (tyLen ty) a p) (x.src 1 b .none))) ∧
  (∀ ty d a p b c mk, Computes (.bfi ty d a p b c mk) fun _ x => outReg (tyLen ty) d.toNat
    (Lanes.map3 (fun u v w =>
      let pos := w.1.val.toNat % 256
      let len := min (w.1.val.toNat / 256 % 256) (ty.width - pos)
      let m := (2 ^ len - 1) * 2 ^ pos
      wrTy ty (((rawVal ty.width u - (rawVal ty.width u &&& m)) + (rawVal ty.width v * 2 ^ pos &&& m) : Nat) : Int))
      (x.src (tyLen ty) a p) (x.src (tyLen ty) b .none) (x.src 1 c .none)))

/-- R131, R135-R137: mask results in the active lanes (R115); M0 is never written (R41). -/
def Obligations.Masks : Prop :=
  (∀ cond ty md a p b mk, Computes (.cmp cond ty md a p b mk) fun _ x => [outMask md.toNat fun l =>
    relation cond (intVal ty (pairLane (x.src (tyLen ty) a p) l)) (intVal ty (pairLane (x.src (tyLen ty) b .none) l))]) ∧
  (∀ cond ty md a imm mk, Computes (.cmpi cond ty md a imm mk) fun _ x => [outMask md.toNat fun l =>
    relation cond (intVal ty (pairLane (x.src (tyLen ty) a .none) l)) (intVal ty (immPair imm))]) ∧
  (∀ kind md ma mb mk, Computes (.mlog kind md ma mb mk) fun _ x => [outMask md.toNat fun l =>
    let p := inMask (x.mask ma.toNat) l
    let q := inMask (x.mask mb.toNat) l
    match kind with
    | .land => p && q
    | .lor => p || q
    | .lxor => p != q
    | .landn => p && !q
    | .lnot => !p
    | .mov => p]) ∧
  (∀ kind md imm mk, Computes (.mset kind md imm mk) fun _ _ => [outMask md.toNat fun l => match kind with
    | .pat => imm.getLsbD (min l 23)
    | .first => decide (l < imm.toNat)]) ∧
  (∀ d ma mk, Computes (.mpop d ma mk) fun _ x => [.reg d.toNat (.uniform ⟨BitVec.ofNat 32
    ((List.range 32).countP fun l => inMask (x.mask ma.toNat) l && inMask x.act l), 0x1F#8⟩)]) ∧
  (∀ d ma mk, Computes (.mfirst d ma mk) fun _ x => [.reg d.toNat (.uniform ⟨
    (((List.range 32).find? fun l => inMask (x.mask ma.toNat) l && inMask x.act l).map (BitVec.ofNat 32)).getD 0xFFFFFFFF#32,
    0x1F#8⟩)])

/-- R38, R39: shapes after a full write. D is the register as the member holds it afterwards; R164: the move, then the first shape of the list that fits. -/
def Obligations.ShapesKept : Prop :=
  (∀ s x ty d a b mk p q r u, ty = .s32 ∨ ty = .z32 → FullWrite (.add ty .wrap d a .none b mk) s x →
    x.g.reg a.toNat = .affine p q → x.g.reg b.toNat = .affine r u →
    Leaves (.add ty .wrap d a .none b mk) s x d (.affine (p + r) (q + u))) ∧
  (∀ s x ty d a b mk p q r u, ty = .s32 ∨ ty = .z32 → FullWrite (.sub ty .wrap d a .none b mk) s x →
    x.g.reg a.toNat = .affine p q → x.g.reg b.toNat = .affine r u →
    Leaves (.sub ty .wrap d a .none b mk) s x d (.affine (p - r) (q - u))) ∧
  (∀ s x ty d a b mk p q y, ty = .s32 ∨ ty = .z32 → FullWrite (.mul ty d a .none b mk) s x →
    x.g.reg a.toNat = .affine p q → x.g.reg b.toNat = .uniform y →
    Leaves (.mul ty d a .none b mk) s x d (.affine (p * y.val) (q * y.val))) ∧
  (∀ s x d a b mk p q y, FullWrite (.shl .w32 d a .none b mk) s x →
    x.g.reg a.toNat = .affine p q → x.g.reg b.toNat = .uniform y → y.val.toNat % 256 < 32 →
    Leaves (.shl .w32 d a .none b mk) s x d (.affine (p <<< (y.val.toNat % 256)) (q <<< (y.val.toNat % 256)))) ∧
  (∀ s x d a mk, FullWrite (.mov .w32 d a .none mk) s x → (∀ xs, x.g.reg a.toNat ≠ .general xs) →
    Leaves (.mov .w32 d a .none mk) s x d (x.g.reg a.toNat)) ∧
  (∀ s x ty d imm mk, tyLen ty = 1 → FullWrite (.movi ty d imm mk) s x →
    Leaves (.movi ty d imm mk) s x d (.uniform (wrTy ty (immVal imm)).1)) ∧
  (∀ s x ty d base stride mk, FullWrite (.iota ty d base stride mk) s x →
    Leaves (.iota ty d base stride mk) s x d (.affine (base.signExtend 32) (stride.signExtend 32))) ∧
  (∀ wd d a mk, Acts (.shapeFit wd d a mk) (fun _ _ => true) fun x u => u.updGang x.key fun g =>
    (List.range (wdLen wd)).foldl (fun g j =>
      let v := writeLanes (x.g.reg (d.toNat + j)) (x.g.reg (a.toNat + j)) x.act x.g.live (deadImg u.tick (d.toNat + j))
      { g with regs := Tab.put g.regs (d.toNat + j) (fitShape v x.g.live (wd = .w32)) }) g) ∧
  (∀ v live aff l, inMask live l = true → (fitShape v live aff).lane l = v.lane l) ∧
  (∀ v live aff (x : Img), live ≠ 0#32 → (∀ l, inMask live l = true → v.lane l = x) → fitShape v live aff = .uniform x) ∧
  (∀ (v : VReg) (live : Mask) (j k : Nat) (stride : Int), inMask live j = true → inMask live k = true → j < k →
    (∀ l, inMask live l = true → l = j ∨ k ≤ l) → (∀ l, inMask live l = true → (v.lane l).tag = 0x1F#8) →
    ((v.lane k).val - (v.lane j).val).toInt = stride * ((k : Int) - j) → v.lane k ≠ v.lane j →
    (∀ l, inMask live l = true → (v.lane l).val = (v.lane j).val + BitVec.ofInt 32 (stride * ((l : Int) - j))) →
    fitShape v live true = .affine ((v.lane j).val - BitVec.ofInt 32 (stride * (j : Int))) (BitVec.ofInt 32 stride)) ∧
  (∀ v live, (∃ x, fitShape v live false = .uniform x) ∨ (∃ xs, fitShape v live false = .general xs) ∨ live = 0#32) ∧
  fitShape (.general ([⟨4#32, 0x1F#8⟩, ⟨9#32, 0x1F#8⟩, ⟨0#32, 0x1F#8⟩] ++ List.replicate 29 zeroImg)) 0x5#32 true =
    .affine 4#32 0xFFFFFFFE#32

/-- R123, R133 under R105: the pending result that each member keeps; registers change only when it lands and its window has closed. -/
def Obligations.LongLatencyWords : Prop :=
  (∀ ty d a p b flag look mk, ty = .s32 ∨ ty = .z32 ∨ ty = .s64 ∨ ty = .z64 → ∀ rem : Bool,
    Acts (if rem then .irem ty d a p b flag look mk else .idiv ty d a p b flag look mk) (fun _ _ => true) fun x u =>
      (u.addPend x look.toNat ((List.range (tyLen ty)).map (d.toNat + ·)) (if flag = 0#3 then [] else [flag.toNat]) x.act
        (outReg (tyLen ty) d.toNat (Lanes.map2 (fun v w =>
            let n := intVal ty v
            let m := intVal ty w
            let ovf := tySigned ty && decide (n = -2 ^ (ty.width - 1)) && decide (m = -1)
            if rem then (if m = 0 then wrTy ty n else if ovf then wrTy ty 0 else wrTy ty (n - m * n.tdiv m))
            else if m = 0 then
              (if tySigned ty then wrTy ty (if 0 ≤ n then 2 ^ (ty.width - 1) - 1 else -2 ^ (ty.width - 1))
               else wrTy ty (2 ^ ty.width - 1))
            else if ovf then wrTy ty n else wrTy ty (n.tdiv m))
          (x.src (tyLen ty) a p) (x.src (tyLen ty) b .none)) ++
          (if flag = 0#3 then [] else [outMask flag.toNat fun l =>
            let n := intVal ty (pairLane (x.src (tyLen ty) a p) l)
            let m := intVal ty (pairLane (x.src (tyLen ty) b .none) l)
            decide (m = 0) || (tySigned ty && decide (n = -2 ^ (ty.width - 1)) && decide (m = -1))]))
        false true 0).2) ∧
  (∀ size d m look tok mk, Acts (.lea size d m look tok mk) (fun _ _ => true) fun x u =>
    (u.addPend x look.toNat [d.toNat, d.toNat + 1] [] x.act
      (outReg 2 d.toNat (leaVal x m (sizeBytes size))) false true tok.toNat).2) ∧
  (∀ x m size l, l < 32 → pairLane (leaVal x m (sizeBytes size)) l = intPair (mkAddr (hndOf (x.g.hreg m.hnd.toNat))
    (((offOf (x.g.hreg m.hnd.toNat) : Int) + (m.ofs.elim 0 fun v => ((x.g.reg v.toNat).lane l).val.toInt)
      + m.disp.toInt * (sizeBytes size : Int)) % 2 ^ 40).toNat)) ∧
  (∀ (u : State) (x : Seat) look regs masks lanes outs landed compute tok,
    (u.addPend x look regs masks lanes outs landed compute tok).1 = u.nextId ∧
    Opens u (u.addPend x look regs masks lanes outs landed compute tok).2 x.key
      ⟨u.nextId, regs, masks, lanes, (List.range 8).map (fun sl => if x.m0 &&& sliceMask sl = 0#32 then 0 else look), landed,
        outs, tok, compute, false⟩)

/-- R105, R106: landing, and writing at the first moment when the result has landed and its window is closed, lane by lane and in order; R43, R107: the token is released at landing. -/
def Obligations.LookWindows : Prop :=
  (∀ (p : Pend) (before : List Pend) (l : Nat), inMask (p.ready before) l = true ↔
    (p.landed = true ∧ inMask p.left l = true ∧ p.win.getD (l / 4) 0 = 0 ∧ ∀ q ∈ before,
      (∀ k, k / 4 = l / 4 → inMask q.left k = false) ∨
        ((∀ r ∈ q.regs, r ∉ p.regs) ∧ ∀ m ∈ q.masks, m ∉ p.masks))) ∧
  (∀ s core ctx key g p, s.keyOf core ctx = some key → s.gang? key = some g → key ∈ g.mates → p ∈ g.pend →
    p.compute = true → p.landed = false → (∀ q ∈ g.pend, (q : Pend).id = p.id → q = p) →
    (∀ k ∈ g.mates, k ≠ key → ∀ h, s.gang? k = some h → ∀ q ∈ h.pend, q.id ≠ p.id) →
    (p.tok = 0 ∨ 1 < g.tok p.tok ∨ Tab.at g.owed [] p.tok = []) →
    let h := { g with pend := g.pend.map fun (q : Pend) => if q.id = p.id then { p with landed := true, tok := 0 } else q }
    ∃ t g', exec (.longLatencyWrite core ctx p.id) s = .next t ∧ t = { s with gangs := t.gangs } ∧
      t.gang? key = some g' ∧ (∀ k, k ≠ key → t.gang? k = s.gang? k) ∧
      g' = { g with regs := g'.regs, masks := g'.masks, pend := h.leftPend,
                    toks := if p.tok = 0 then g.toks else Tab.put g.toks p.tok (g.tok p.tok - 1) } ∧
      (∀ r l, inMask g.live l = true → (g'.reg r).lane l = (resultLane h.dueOuts r l).getD ((g.reg r).lane l)) ∧
      (∀ k l, l < 32 → inMask (g'.maskReg k) l = (resultMask h.dueOuts k l).getD (inMask (g.maskReg k) l)) ∧
      (∀ r, (∀ mo ∈ h.dueOuts, ∀ v, mo.2 ≠ .reg r v) → g'.reg r = g.reg r)) ∧
  (∀ (g : Gang) tick, let f := g.flush tick
    f = { g with regs := f.regs, masks := f.masks, pend := g.leftPend } ∧
      (∀ r l, inMask g.live l = true → (f.reg r).lane l = (resultLane g.dueOuts r l).getD ((g.reg r).lane l)) ∧
      ∀ k l, l < 32 → inMask (f.maskReg k) l = (resultMask g.dueOuts k l).getD (inMask (g.maskReg k) l)) ∧
  (∀ (g : Gang) p, g.pend = [p] → p.landed = true → (∀ sl, p.win.getD sl 0 = 0) → g.leftPend = [] ∧
    g.dueOuts = p.outs.map fun o => (p.left, o)) ∧
  (∀ (g : Gang), (∀ p ∈ g.pend, p.landed = false ∨ ∀ l, inMask p.left l = true → p.win.getD (l / 4) 0 ≠ 0) →
    (∀ p ∈ g.pend, p.landed = true → p.left ≠ 0#32) → g.leftPend = g.pend ∧ ∀ mo ∈ g.dueOuts, mo.1 = 0#32) ∧
  (∀ s x p, issues .nop s = true → x ∈ s.seats 0 → x.g.pend = [p] → p.landed = true → p.frozen = false →
    (∀ sl, p.win.getD sl 0 = 0 ∨ (p.win.getD sl 0 = 1 ∧ x.m0 &&& sliceMask sl ≠ 0#32)) →
    ∃ t g', exec .nop s = .next t ∧ t.gang? x.key = some g' ∧ g'.pend = [] ∧
      ∀ r l, inMask x.g.live l = true →
        (g'.reg r).lane l = (resultLane (p.outs.map fun o => (p.left, o)) r l).getD ((x.g.reg r).lane l)) ∧
  (∀ (g : Gang) (m0 : Mask) (p : Pend), p ∈ g.pend → p.frozen = false → p.win.length = 8 → ∃ q ∈ (g.count m0).pend,
    q = { p with win := q.win } ∧ ∀ sl, sl < 8 →
      q.win.getD sl 0 = p.win.getD sl 0 - (if m0 &&& sliceMask sl = 0#32 then 0 else 1)) ∧
  (∀ i body s x, x ∈ s.seats i.maskField → (∀ y ∈ s.seats i.maskField, operandFault (16 * y.g.allot) i.opnds = none) →
    (x.g.lookStall x.m0 (opndRegs i.opnds) ((i.maskField :: i.maskReads ++ i.maskWrites).filter (· != 0)) = true ∨
      (i.tokOf ≠ 0 ∧ x.g.tok i.tokOf = 15)) → issue i body s = s)

/-- R147, R150, R151, R154, R155, R163-R165: what each active lane receives. -/
def Obligations.CrossLane : Prop :=
  (∀ mode wd d a b mk, Computes (.shfl mode wd d a b mk) fun _ x => outReg (wdLen wd) d.toNat (.ofFn fun l =>
    let c := ((x.g.reg b.toNat).lane l).val.toNat
    sourceImage x (wdLen wd) a (match mode with
      | .abs => ((c % 64 : Nat) : Int)
      | .ofs => (l : Int) + (BitVec.ofNat 8 c).toInt
      | .seg => if 5 < c / 32 % 8 then 32
          else ((l - l % 2 ^ (c / 32 % 8) + (l + c % 32) % 2 ^ (c / 32 % 8) : Nat) : Int)
      | .xor => ((l ^^^ (c % 32) : Nat) : Int)))) ∧
  (∀ pick wd d a b mk, Computes (.bcast pick wd d a b mk) fun _ x => outReg (wdLen wd) d.toNat (.uni
    (sourceImage x (wdLen wd) a (match pick with
      | .first => (((maskLanes x.act).head?.getD 0 : Nat) : Int)
      | .last => (((maskLanes x.act).getLast?.getD 0 : Nat) : Int)
      | .idx => (((x.g.reg b.toNat).lane ((maskLanes x.act).head?.getD 0)).val.toNat : Int))))) ∧
  (∀ kind md (a : VNum) mk, (kind = .any ∨ kind = .all ∨ kind = .none ∨ kind = .maj ∨ kind = .odd) →
    Computes (.vote kind false md a mk) fun _ x =>
      let n := (maskLanes x.act).length
      let c := ((maskLanes x.act).filter fun l => inMask (x.mask (a.toNat % 8)) l).length
      [outMask md.toNat fun _ => match kind with
        | .any => decide (0 < c)
        | .all => decide (c = n)
        | .none => decide (c = 0)
        | .maj => decide (n < 2 * c)
        | .odd => decide (c % 2 = 1)
        | _ => false]) ∧
  (∀ w64 md a mk, Computes (.vote .same w64 md a mk) fun _ x => [outMask md.toNat fun l =>
    decide (voteWord x w64 a l = voteWord x w64 a ((maskLanes x.act).head?.getD 0))]) ∧
  (∀ w64 md a mk, Computes (.vote .allSame w64 md a mk) fun _ x => [outMask md.toNat fun _ =>
    decide (∀ l ∈ maskLanes x.act, ∀ k ∈ maskLanes x.act, voteWord x w64 a l = voteWord x w64 a k)]) ∧
  (∀ d ma mk, Computes (.ballot .word d ma mk) fun _ x => [.reg d.toNat (.uniform ⟨x.mask ma.toNat &&& x.act, 0x1F#8⟩)]) ∧
  (∀ d ma mk, Computes (.ballot .rank d ma mk) fun _ x => [.reg d.toNat (.general (lanes32.map fun l =>
    ⟨BitVec.ofNat 32 ((List.range l).countP fun j => inMask (x.mask ma.toNat) j && inMask x.act j), 0x1F#8⟩))]) ∧
  (∀ ty d base stride mk, Computes (.iota ty d base stride mk) fun _ _ => [.reg d.toNat (.general (lanes32.map fun l =>
    ⟨base.signExtend 32 + BitVec.ofNat 32 l * stride.signExtend 32, 0x1F#8⟩))]) ∧
  (∀ s wd d a mc mk, issues (.rebal .pack wd d a mc mk) s = true →
    Completes (.rebal .pack wd d a mc mk) s (s.counted mk.toNat) (fun x => x.give (outReg (wdLen wd) d.toNat (.ofFn fun l =>
      let k := ((maskLanes x.act).filter fun j => decide (j < l)).length
      match (maskLanes (x.mask mc.toNat &&& x.act))[k]? with
      | some p => sourceImage x (wdLen wd) a p
      | none => zeroOf (wdLen wd)))) (fun _ => [])) ∧
  (∀ s wd d a mc mk, issues (.rebal .spread wd d a mc mk) s = true →
    Completes (.rebal .spread wd d a mc mk) s (s.counted mk.toNat)
      (fun x => (outReg (wdLen wd) d.toNat (.ofFn fun l =>
        let k := ((maskLanes (x.mask mc.toNat &&& x.act)).filter fun j => decide (j < l)).length
        match (maskLanes x.act)[k]? with
        | some q => sourceImage x (wdLen wd) a q
        | none => zeroOf (wdLen wd))).map fun o => (x.mask mc.toNat &&& x.act, o)) (fun _ => [])) ∧
  (∀ d a mk, Computes (.shapeGet d a mk) fun _ x => [.reg d.toNat (.uniform ⟨match x.g.reg a.toNat with
    | .uniform _ => 0#32
    | .affine _ _ => 1#32
    | .general _ => 2#32, 0x1F#8⟩)])

/-- R152, R153 under R105: every operation is associative and commutative with its identity, so the pairwise tree gives the fold over the active lanes. -/
def Obligations.Reductions : Prop :=
  (∀ s op d a look mk, issues (.reduce op d a look mk) s = true →
    ∃ t, exec (.reduce op d a look mk) s = .next t ∧
      Moved s ((s.seats mk.toNat).foldl (fun u x => (u.addPend x look.toNat ((List.range (redLen op)).map (d.toNat + ·)) [] x.act
        (outReg (redLen op) d.toNat (.uni (combined op x a (maskLanes x.act)))) false true 0).2) (s.counted mk.toNat))
        t mk.toNat s.curWords (fun _ => []) (fun _ => []) false) ∧
  (∀ s op d a look mk, issues (.scan op d a look mk) s = true →
    ∃ t, exec (.scan op d a look mk) s = .next t ∧
      Moved s ((s.seats mk.toNat).foldl (fun u x => (u.addPend x look.toNat ((List.range (redLen op)).map (d.toNat + ·)) [] x.act
        (outReg (redLen op) d.toNat (.ofFn fun l => combined op x a ((maskLanes x.act).filter fun j => decide (j ≤ l))))
        false true 0).2) (s.counted mk.toNat))
        t mk.toNat s.curWords (fun _ => []) (fun _ => []) false) ∧
  (∀ op, redLen op = (if redWide op then 2 else 1)) ∧
  (∀ x y : BitVec 32, redApply .addW32 x.toNat y.toNat = (x + y).toNat ∧ redApply .andW32 x.toNat y.toNat = (x &&& y).toNat ∧
    redApply .orW32 x.toNat y.toNat = (x ||| y).toNat ∧ redApply .xorW32 x.toNat y.toNat = (x ^^^ y).toNat ∧
    redApply .minS32 x.toNat y.toNat = (if x.toInt ≤ y.toInt then x else y).toNat ∧
    redApply .maxS32 x.toNat y.toNat = (if x.toInt ≤ y.toInt then y else x).toNat ∧
    redApply .minZ32 x.toNat y.toNat = min x.toNat y.toNat ∧ redApply .maxZ32 x.toNat y.toNat = max x.toNat y.toNat) ∧
  (∀ x y : BitVec 64, redApply .addW64 x.toNat y.toNat = (x + y).toNat ∧ redApply .andW64 x.toNat y.toNat = (x &&& y).toNat ∧
    redApply .orW64 x.toNat y.toNat = (x ||| y).toNat ∧ redApply .xorW64 x.toNat y.toNat = (x ^^^ y).toNat ∧
    redApply .minS64 x.toNat y.toNat = (if x.toInt ≤ y.toInt then x else y).toNat ∧
    redApply .maxS64 x.toNat y.toNat = (if x.toInt ≤ y.toInt then y else x).toNat ∧
    redApply .minZ64 x.toNat y.toNat = min x.toNat y.toNat ∧ redApply .maxZ64 x.toNat y.toNat = max x.toNat y.toNat) ∧
  (∀ (op : RedOp) (x : Nat), x < (if redWide op then 2 ^ 64 else 2 ^ 32) → redApply op (redIdentity op) x = x ∧
    redApply op x (redIdentity op) = x)

/-- R156, R157, R159-R162: packed integers and bytes in the active lanes. -/
def Obligations.PackedInteger : Prop :=
  (∀ ty sat d a p b c fmt mk, ty = .s8 ∨ ty = .z8 → Computes (.dot4 ty sat d a p b c fmt mk) fun _ x =>
    outReg 1 d.toNat (Lanes.map3 (fun u v w => dotAs (decide (ty = .s8)) sat 8 4 u v w) (x.src 1 a p) (x.src 1 b .none)
      (x.src 1 c .none))) ∧
  (∀ ty sat d a p b c fmt mk, ty = .s4 ∨ ty = .z4 → Computes (.dot8 ty sat d a p b c fmt mk) fun _ x =>
    outReg 1 d.toNat (Lanes.map3 (fun u v w => dotAs (decide (ty = .s4)) sat 4 8 u v w) (x.src 1 a p) (x.src 1 b .none)
      (x.src 1 c .none))) ∧
  (∀ ty sat d a p b c j mk, Computes (.pack ty sat d a p b c j mk) fun _ x =>
    outReg 1 d.toNat (Lanes.map3 (packLane ty sat j.toNat) (x.src 1 a p) (x.src 1 b .none)
      (if ty.width = 16 then .uni (zeroImg, zeroImg) else x.src 1 c .none))) ∧
  (∀ ty sat (j : Nat) (u v w : Pair) (k : Nat), k < 32 → ty.width * (2 * j + 1) < 32 →
    ((packLane ty sat j u v w).1.val).getLsbD k =
      (if k / ty.width = 2 * j then (packAs ty sat u).testBit (k % ty.width)
       else if k / ty.width = 2 * j + 1 then (packAs ty sat v).testBit (k % ty.width)
       else decide (ty.width ≠ 16) && w.1.val.getLsbD k) ∧ (packLane ty sat j u v w).1.tag = 0x1F#8) ∧
  (∀ ty d a p n mk, Computes (.unpack ty d a p n mk) fun _ x => outReg 1 d.toNat ((x.src 1 a p).map fun u =>
    let f := BitVec.ofNat ty.width (u.1.val.toNat / 2 ^ (ty.width * n.toNat))
    (⟨if packSigned ty then f.signExtend 32 else f.setWidth 32, 0x1F#8⟩, zeroImg))) ∧
  (∀ wd hi d a p b mk, Computes (.clmul wd hi d a p b mk) fun _ x =>
    outReg 2 d.toNat (Lanes.map2 (clmulLane wd hi) (x.src (wdLen wd) a p) (x.src (wdLen wd) b .none))) ∧
  (∀ w a b k, a < 2 ^ w → b < 2 ^ w → (clmulNat w a b).testBit k =
    decide (((List.range (k + 1)).countP fun i => a.testBit i && b.testBit (k - i)) % 2 = 1)) ∧
  (∀ u v : Pair, (clmulLane .w32 false u v).val = BitVec.ofNat 64 (clmulNat 32 u.1.val.toNat v.1.val.toNat) ∧
    (clmulLane .w64 false u v).val = BitVec.ofNat 64 (clmulNat 64 u.val.toNat v.val.toNat) ∧
    (clmulLane .w64 true u v).val = BitVec.ofNat 64 (clmulNat 64 u.val.toNat v.val.toNat / 2 ^ 64)) ∧
  (∀ d a p b c mk, Computes (.byteperm d a p b c mk) fun _ x =>
    outReg 1 d.toNat (Lanes.map3 bytepermLane (x.src 1 a p) (x.src 1 b .none) (x.src 1 c .none))) ∧
  (∀ (u v w : Pair) (k : Nat), k < 32 → ((bytepermLane u v w).1.val).getLsbD k =
    (let q := w.1.val.toNat / 2 ^ (8 * (k / 8)) % 256
     let y := !q.testBit 3 && (v.1.val ++ u.1.val : Word64).getLsbD (8 * (q % 8) + k % 8)
     y != q.testBit 4) ∧ (bytepermLane u v w).1.tag = 0x1F#8)

/-- R175: RoundOdd, on exact rational values, and the exact sums and products that it rounds (R195). -/
def Obligations.RoundOdd : Prop :=
  (∀ c, roundOdd c .nan = .nan ∧ ∀ n, roundOdd c (.inf n) = .inf n ∧ ∀ e, roundOdd c (.fin n 0 e) = .fin n 0 0) ∧
  (∀ (m : Nat) (e : Int), 0 < m → (2 : ℚ) ^ leadExp m e ≤ m * 2 ^ e ∧ (m : ℚ) * 2 ^ e < 2 ^ (leadExp m e + 1)) ∧
  (∀ c n (m : Nat) (e : Int), 0 < m → (2 : ℚ) ^ ((fmtOf c).emax + 1) ≤ m * 2 ^ e → roundOdd c (.fin n m e) = .inf n) ∧
  (∀ c n (m : Nat) (e : Int), 0 < m → (m : ℚ) * 2 ^ e < 2 ^ ((fmtOf c).emax + 1) →
    ∃ k : Nat, roundOdd c (.fin n m e) = .fin n k (max (leadExp m e) (fmtOf c).emin - precP c + 1) ∧
      (let x : ℚ := m * 2 ^ e / 2 ^ (max (leadExp m e) (fmtOf c).emin - precP c + 1)
       (k : Int) = ⌊x⌋ + (if (⌊x⌋ : ℚ) ≠ x ∧ Even ⌊x⌋ then 1 else 0)) ∧ 0 < k) ∧
  (∀ xs : List Fp, (∀ x ∈ xs, x.isNan = false ∧ x.isInf = false) → (Fp.sum xs).rat = (xs.map Fp.rat).sum ∧
    (Fp.sum xs).isNan = false ∧ (Fp.sum xs).isInf = false ∧
    ((xs.map Fp.rat).sum = 0 → (Fp.sum xs).neg? = (xs.all Fp.isZero && xs.all Fp.neg?))) ∧
  (∀ a b : Fp, a.isNan = false → a.isInf = false → b.isNan = false → b.isInf = false →
    (Fp.mul a b).rat = a.rat * b.rat ∧ (Fp.mul a b).neg? = (a.neg? != b.neg?)) ∧
  (∀ a : Fp, Fp.mul .nan a = .nan ∧ Fp.mul a .nan = .nan ∧ Fp.sum [.nan, a] = .nan ∧ Fp.sum [a, .nan] = .nan) ∧
  (∀ n k e, Fp.mul (.inf n) (.fin k 0 e) = .nan ∧ Fp.mul (.fin k 0 e) (.inf n) = .nan ∧
    Fp.sum [.inf n, .inf (!n)] = .nan)

/-- R179, R180: FinalRound on exact rational values. -/
def Obligations.FinalRound : Prop :=
  (∀ (mode : Rnd) (n : Bool) (m : Nat) (k : Int), let x : ℚ := m * 2 ^ k
    ((roundMag mode n m k : Nat) : Int) = (match mode with
      | .rne => if x - ⌊x⌋ < 1 / 2 then ⌊x⌋ else if 1 / 2 < x - ⌊x⌋ then ⌊x⌋ + 1 else if Even ⌊x⌋ then ⌊x⌋ else ⌊x⌋ + 1
      | .rna => if x - ⌊x⌋ < 1 / 2 then ⌊x⌋ else ⌊x⌋ + 1
      | .rz => ⌊x⌋
      | .ru => if n then ⌊x⌋ else ⌈x⌉
      | .rd => if n then ⌈x⌉ else ⌊x⌋
      | .dyn => ⌊x⌋)) ∧
  (∀ c mode sat n (m : Nat) (e : Int), 0 < m →
    let q := max (leadExp m e) (fmtOf c).emin - (fmtOf c).prec + 1
    let r : Fp := .fin n (roundMag mode n m (e - q)) q
    (|r.rat| ≤ |(maxFin c false).rat| → finalRound c mode sat (.fin n m e) = encodeFp c r ∧
      (decodeFp c (encodeFp c r)).rat = r.rat) ∧
    (|(maxFin c false).rat| < |r.rat| → sat = true → finalRound c mode sat (.fin n m e) = encodeFp c (maxFin c n))) ∧
  (∀ c mode n, finalRound c mode true (.inf n) = encodeFp c (maxFin c n)) ∧
  (∀ c mode sat, finalRound c mode sat .nan = (match c with
    | .f32 => 0x7FC00000
    | .f64 => 0x7FF8000000000000
    | .f16 => 0x7E00
    | .bf16 => 0x7FC0
    | .e4m3 => 0x7F
    | .e5m2 => 0x7E
    | .e3m2 | .e2m3 | .e2m1 => 0)) ∧
  (∀ c mode n (m : Nat) (e : Int), 0 < m → mode ≠ .dyn →
    let q := max (leadExp m e) (fmtOf c).emin - (fmtOf c).prec + 1
    let r : Fp := .fin n (roundMag mode n m (e - q)) q
    |(maxFin c false).rat| < |r.rat| → finalRound c mode false (.fin n m e) =
      (if mode = .rne ∨ mode = .rna ∨ (mode = .ru ∧ n = false) ∨ (mode = .rd ∧ n = true) then finalRound c mode false (.inf n)
       else encodeFp c (maxFin c n))) ∧
  (∀ c mode n, finalRound c mode false (.inf n) = (match c with
    | .f32 => if n then 0xFF800000 else 0x7F800000
    | .f64 => if n then 0xFFF0000000000000 else 0x7FF0000000000000
    | .f16 => if n then 0xFC00 else 0x7C00
    | .bf16 => if n then 0xFF80 else 0x7F80
    | .e5m2 => if n then 0xFC else 0x7C
    | .e4m3 => 0x7F
    | .e3m2 | .e2m3 => if n then 0x3F else 0x1F
    | .e2m1 => if n then 0xF else 7)) ∧
  (∀ c n, encodeFp c (maxFin c n) = (match c with
    | .f32 => if n then 0xFF7FFFFF else 0x7F7FFFFF
    | .f64 => if n then 0xFFEFFFFFFFFFFFFF else 0x7FEFFFFFFFFFFFFF
    | .f16 => if n then 0xFBFF else 0x7BFF
    | .bf16 => if n then 0xFF7F else 0x7F7F
    | .e5m2 => if n then 0xFB else 0x7B
    | .e4m3 => if n then 0xFE else 0x7E
    | .e3m2 | .e2m3 => if n then 0x3F else 0x1F
    | .e2m1 => if n then 0xF else 7)) ∧
  (∀ signed w mode, finalRoundInt signed w mode .nan = 0 ∧
    finalRoundInt signed w mode (.inf true) = (if signed then -2 ^ (w - 1) else 0) ∧
    finalRoundInt signed w mode (.inf false) = (if signed then 2 ^ (w - 1) - 1 else 2 ^ w - 1) ∧
    ∀ n m e, finalRoundInt signed w mode (.fin n m e) =
      max (if signed then -2 ^ (w - 1) else 0) (min (if signed then 2 ^ (w - 1) - 1 else 2 ^ w - 1)
        (if n then -(roundMag mode n m e : Int) else roundMag mode n m e)))

/-- R177, R183, R184: S and K of FADD and FMUL results; The worked examples of R184, R182, R158 and R213, as the spec prints them (a sanity statement). -/
def Obligations.TrustRules : Prop :=
  (∀ c (a b : Opr), let x := Fp.sum [a.v, b.v]
    let r := roundOdd c x
    let y := fAdd c a b
    (r = .nan → y.1.s = true ∧ storedK c y = 0) ∧
    (overflows c x = true → y.1.s = true ∧ storedK c y = 0) ∧
    (r.isNum = true → a.dead = false → b.dead = false →
      y.1.s = (a.s || b.s || !decide (r.rat = x.rat)) ∧
      storedK c y = (let k := match maxFloor a.floor? b.floor? with
          | none => precP c
          | some fr => (max 0 (min (precP c : Int) (r.lead - fr + 1))).toNat
        if r.rat = x.rat then min k (avail c r) else min k (avail c r - 1))) ∧
    (r.isZero = true → a.v.isNum = true → a.dead = false → b.dead = false → y.1.s = (a.s || b.s) ∧
      storedK c y = if a.s || (b.v.isNum && b.s) then 0 else precP c) ∧
    (a.dead = true ∨ b.dead = true → r.isNan = false → r.isInf = false → storedK c y = 0)) ∧
  (∀ c (a b : Opr), a.k ≤ precP c → b.k ≤ precP c → let x := Fp.mul a.v b.v
    let r := roundOdd c x
    let y := fMul c a b
    (r = .nan → y.1.s = true ∧ storedK c y = 0) ∧
    (overflows c x = true → y.1.s = true ∧ storedK c y = 0) ∧
    (r.isZero = true → y.1.s = (a.s || b.s) ∧ storedK c y = min (a.kef c) (b.kef c)) ∧
    (r.isNum = true → y.1.s = (a.s || b.s || !decide (r.rat = x.rat)) ∧
      storedK c y = (let k := min (min (a.kef c) (b.kef c)) (avail c r)
        if r.rat = x.rat then k else min k (avail c r - 1)))) ∧
  (faddLane .f32 (⟨0x3F900000#32, 0x2C#8⟩, zeroImg) (⟨0xBF8F8000#32, 0x34#8⟩, zeroImg)).1 = ⟨0x3B800000#32, 0x24#8⟩ ∧
  (faddLane .f32 (⟨0x3F808000#32, 0x1A#8⟩, zeroImg) (⟨0x30800000#32, 0x1A#8⟩, zeroImg)).1 = ⟨0x3F808000#32, 0x79#8⟩ ∧
  (fcvtLane .bf16 .f32 (⟨0x3F808000#32, 0x79#8⟩, zeroImg)).1 = ⟨0x3F800000#32, 0xE9#8⟩ ∧
  finalRound .bf16 .rne false (imgValue .bf16 (⟨0x3F800000#32, 0xE9#8⟩, zeroImg)) = 0x3F81 ∧
  (dotFpLane .e4m3 8 4 (⟨0x30B8403C#32, 0x1F#8⟩, zeroImg) (⟨0x48443040#32, 0x1F#8⟩, zeroImg)
    (⟨0x3E800000#32, 0x1A#8⟩, zeroImg)).1 = ⟨0x40500000#32, 0x1A#8⟩ ∧
  (fpackLane .e4m3 .rne false 1 (⟨0x3F880000#32, 0x1A#8⟩, zeroImg) (⟨0x43E00000#32, 0x1A#8⟩, zeroImg)
    (⟨0x00004038#32, 0x1F#8⟩, zeroImg)).1 = ⟨0x7E384038#32, 0x1F#8⟩ ∧
  (fpackLane .e4m3 .rne false 1 (⟨0x3F880000#32, 0x79#8⟩, zeroImg) (⟨0x43FA0000#32, 0x1A#8⟩, zeroImg)
    (⟨0x00004038#32, 0x1F#8⟩, zeroImg)).1 = ⟨0x7F394038#32, 0x1F#8⟩

/-- R197-R201, R208, R210, R211, R213, with R185 and R194: FP images written in the active lanes. The sign of a zero that FROUND makes of a nonzero value is the model's choice (log 101), and the K of a converted infinity is deduced (log 96). -/
def Obligations.FloatArithmetic : Prop :=
  (∀ s c d a p b e src ty n rnd mk i, i = .fadd c d a p b mk ∨ i = .fsub c d a p b mk ∨ i = .fmul c d a p b mk ∨
    i = .fmin c d a p b mk ∨ i = .fmax c d a p b mk ∨ i = .fscale c d a p b mk ∨ i = .ffma c d a p b e mk ∨
    i = .frexp .sig c d a p mk ∨ i = .fround c d a p rnd mk ∨ i = .fcvt c src d a p mk ∨ i = .icvtf c ty d a p mk ∨
    i = .funpack c d a p n mk → issues i s = true → FloorOpen i s →
    ∃ t os, exec i s = .next t ∧ Moved s (s.counted mk.toNat) t mk.toNat s.curWords os (fun _ => []) false) ∧
  (∀ c d a p b mk, FpComputes (.fadd c d a p b mk) c d fun x =>
    Lanes.map2 (fun u v => fAdd c (oprOf c u) (oprOf c v)) (x.src (clsLen c) a p) (x.src (clsLen c) b .none)) ∧
  (∀ c d a p b mk, FpComputes (.fsub c d a p b mk) c d fun x =>
    Lanes.map2 (fun u v => fAdd c (oprOf c u) (oprOf c v).negate) (x.src (clsLen c) a p) (x.src (clsLen c) b .none)) ∧
  (∀ c d a p b mk, FpComputes (.fmul c d a p b mk) c d fun x =>
    Lanes.map2 (fun u v => fMul c (oprOf c u) (oprOf c v)) (x.src (clsLen c) a p) (x.src (clsLen c) b .none)) ∧
  (∀ c d a p b e mk, FpComputes (.ffma c d a p b e mk) c d fun x =>
    Lanes.map3 (fun u v w => addClass c [prodOpr c (oprOf c u) (oprOf c v), oprOf c w]
      (infsOf [oprOf c u, oprOf c v, oprOf c w]) (Fp.sum [Fp.mul (imgValue c u) (imgValue c v), imgValue c w]))
      (x.src (clsLen c) a p) (x.src (clsLen c) b .none) (x.src (clsLen c) e .none)) ∧
  (∀ c d a p b mk, FpComputes (.fmin c d a p b mk) c d fun x =>
    Lanes.map2 (fun u v => if below c u v then u else if below c v u then v else if (imgValue c u).isNan && !(imgValue c v).isNan then v else u)
      (x.src (clsLen c) a p) (x.src (clsLen c) b .none)) ∧
  (∀ c d a p b mk, FpComputes (.fmax c d a p b mk) c d fun x =>
    Lanes.map2 (fun u v => if below c v u then u else if below c u v then v else if (imgValue c u).isNan && !(imgValue c v).isNan then v else u)
      (x.src (clsLen c) a p) (x.src (clsLen c) b .none)) ∧
  (∀ c d a p b mk, FpComputes (.fscale c d a p b mk) c d fun x =>
    Lanes.map2 (fun u v => ownRow c (oprOf c u).k (oprOf c u).s (infsOf [oprOf c u])
      ((imgValue c u).scale v.1.val.toInt)) (x.src (clsLen c) a p) (x.src 1 b .none)) ∧
  (∀ c d a p mk, FpComputes (.frexp .sig c d a p mk) c d fun x => (x.src (clsLen c) a p).map fun u =>
    if (imgValue c u).isNum then ownRow c (oprOf c u).k (oprOf c u).s [] ((imgValue c u).scale (-(imgValue c u).lead))
    else if (imgValue c u).isNan then mkImg c .nan true 0 else u) ∧
  (∀ c d a p rnd mk, FpComputes (.fround c d a p rnd mk) c d fun x => (x.src (clsLen c) a p).map
    (froundLane c (modeOf rnd x.g.rndctl))) ∧
  (∀ dst src d a p mk, FpComputes (.fcvt dst src d a p mk) dst d fun x => (x.src (clsLen src) a p).map fun u =>
    if dst = src then u
    else if (imgValue src u).isNan then mkImg dst .nan true 0
    else if (imgValue src u).isInf then mkImg dst (imgValue src u) (oprOf src u).s
      (if widens src dst then (oprOf src u).k else min (oprOf src u).k (precP dst))
    else ownRow dst (if widens src dst then (oprOf src u).k else min (oprOf src u).k (precP dst)) (oprOf src u).s []
      (imgValue src u)) ∧
  (∀ c ty d a p mk, FpComputes (.icvtf c ty d a p mk) c d fun x => (x.src (tyLen ty) a p).map fun u =>
    ownRow c (precP c) false [] (.fin (decide (intVal ty u < 0)) (intVal ty u).natAbs 0)) ∧
  (∀ c d a p n mk, FpComputes (.funpack c d a p n mk) .f32 d fun x => (x.src 1 a p).map fun u =>
    let y := decodeFp c (u.1.val.toNat / 2 ^ (laneWidth c * n.toNat) % 2 ^ (fmtOf c).bits)
    if y.isNan then mkImg .f32 .nan true 0 else mkImg .f32 y false 26) ∧
  (∀ src dst, widens src dst = (decide (precP src ≤ precP dst) && decide ((fmtOf dst).emin ≤ (fmtOf src).emin) &&
    decide ((fmtOf src).emax ≤ (fmtOf dst).emax))) ∧
  (∀ c x s k, (imgValue c (mkImg c (roundOdd c x) s k)).Is (roundOdd c x)) ∧
  (∀ c xs infs x, (imgValue c (addClass c xs infs x)).Is (roundOdd c x)) ∧
  (∀ c kr s0 infs x, (imgValue c (ownRow c kr s0 infs x)).Is (roundOdd c x)) ∧
  (∀ c (a b : Opr), (imgValue c (fAdd c a b)).Is (roundOdd c (Fp.sum [a.v, b.v])) ∧
    (imgValue c (fMul c a b)).Is (roundOdd c (Fp.mul a.v b.v))) ∧
  (∀ c mode u, mode ≠ .dyn → let x := rint mode (imgValue c u)
    (imgValue c (froundLane c mode u)).Is (roundOdd c x) ∧ AddTrust c [oprOf c u] ((oprOf c u).kef c) x (froundLane c mode u)) ∧
  (∀ mode n (m : Nat) (e : Int), (rint mode (.fin n m e)).rat = (if n then -(roundMag mode n m e : ℚ) else roundMag mode n m e) ∧
    (rint mode (.fin n m e)).neg? = n) ∧
  (∀ c u v w, let xs := [prodOpr c (oprOf c u) (oprOf c v), oprOf c w]
    let is := infsOf [oprOf c u, oprOf c v, oprOf c w]
    let x := Fp.sum [Fp.mul (imgValue c u) (imgValue c v), imgValue c w]
    AddTrust c xs (minKef c is) x (addClass c xs is x)) ∧
  (∀ c u (n : Int), let x := (imgValue c u).scale n
    OwnTrust c (oprOf c u).k ((oprOf c u).kef c) (oprOf c u).s x (ownRow c (oprOf c u).k (oprOf c u).s (infsOf [oprOf c u]) x)) ∧
  (∀ c u, (imgValue c u).isNum = true → let x := (imgValue c u).scale (-(imgValue c u).lead)
    OwnTrust c (oprOf c u).k (precP c) (oprOf c u).s x (ownRow c (oprOf c u).k (oprOf c u).s [] x)) ∧
  (∀ dst src u, dst ≠ src → let x := imgValue src u
    let a := oprOf src u
    OwnTrust dst (if widens src dst then a.k else min a.k (precP dst))
      (if widens src dst then a.k else min a.k (precP dst)) a.s x (fcvtLane dst src u)) ∧
  (∀ c (k : Int), let x : Fp := .fin (decide (k < 0)) k.natAbs 0
    OwnTrust c (precP c) (precP c) false x (ownRow c (precP c) false [] x))

/-- R201-R203, R209, R212, R215-R218: trust edits, and images read into integers and masks. -/
def Obligations.TrustEdits : Prop :=
  (∀ s c d a p b mk i, i = .kset c d a p b mk ∨ i = .kmin c d a p b mk ∨ i = .sticky .clr c d a p mk ∨ i = .sticky .set c d a p mk →
    issues i s = true → FloorOpen i s →
    ∃ t os, exec i s = .next t ∧ Moved s (s.counted mk.toNat) t mk.toNat s.curWords os (fun _ => []) false) ∧
  (∀ c d a p b mk, FpComputes (.kset c d a p b mk) c d fun x => Lanes.map2 (fun u v =>
    if v.1.val.toNat < precP c then retag c u true (min (storedK c u) v.1.val.toNat) else u)
    (x.src (clsLen c) a p) (x.src 1 b .none)) ∧
  (∀ c d a p b mk, FpComputes (.kmin c d a p b mk) c d fun x => Lanes.map2 (fun u v =>
    let k := min (storedK c u) (if v.1.s then storedK c v else precP c)
    retag c u (u.1.s || v.1.s) (if u.1.s || v.1.s then min k (precP c - 1) else k))
    (x.src (clsLen c) a p) (x.src (clsLen c) b .none)) ∧
  (∀ c d a p mk, FpComputes (.sticky .clr c d a p mk) c d fun x => (x.src (clsLen c) a p).map fun u =>
    if (imgValue c u).isNan then u else retag c u false (precP c)) ∧
  (∀ c d a p mk, FpComputes (.sticky .set c d a p mk) c d fun x => (x.src (clsLen c) a p).map fun u =>
    retag c u true (min (storedK c u) (precP c - 1))) ∧
  (∀ c d a p mk, Computes (.sticky .mask c d a p mk) fun _ x =>
    [outMask (d.toNat % 8) fun l => (pairLane (x.src (clsLen c) a p) l).1.tag.getLsbD 5]) ∧
  (∀ (p : Pair) c s k, c ≠ .f64 → k < 32 → (retag c p s k).1.val = p.1.val ∧ (retag c p s k).1.g = p.1.g ∧
    (retag c p s k).1.s = s ∧ storedK c (retag c p s k) = k) ∧
  (∀ (p : Pair) s k, k < 64 → (retag .f64 p s k).val = p.val ∧ (retag .f64 p s k).1.g = p.1.g ∧
    (retag .f64 p s k).1.s = s ∧ storedK .f64 (retag .f64 p s k) = k) ∧
  (∀ pick c d a p mk, Computes (.kget pick c d a p mk) fun _ x => outReg 1 d.toNat ((x.src (clsLen c) a p).map fun u =>
    (⟨BitVec.ofNat 32 (match pick with
      | .k => storedK c u
      | .kef => if u.1.s then storedK c u else precP c
      | .s => if u.1.s then 1 else 0
      | .g => u.1.g
      | .tag => u.1.tag.toNat + (if c = .f64 then 256 * u.2.tag.toNat else 0)), 0x1F#8⟩, zeroImg))) ∧
  (∀ c d a p mk, Computes (.frexp .exp c d a p mk) fun _ x => outReg 1 d.toNat ((x.src (clsLen c) a p).map fun u =>
    (⟨if (imgValue c u).isNum then BitVec.ofInt 32 (imgValue c u).lead
      else if (imgValue c u).isZero then 0x80000000#32 else 0x7FFFFFFF#32, 0x1F#8⟩, zeroImg))) ∧
  (∀ cond ex c md a p b mk, Computes (.fcmp cond ex c md a p b mk) fun _ y => [outMask md.toNat fun l =>
    let u := pairLane (y.src (clsLen c) a p) l
    let v := pairLane (y.src (clsLen c) b .none) l
    let r := Fp.cmp? (imgValue c u) (imgValue c v)
    let same := decide (r = some .eq) && (!ex || (!u.1.s && !v.1.s))
    match cond with
    | .eq => same
    | .ne => !same
    | .lt => decide (r = some .lt)
    | .le => decide (r = some .lt) || same
    | .gt => decide (r = some .gt)
    | .ge => decide (r = some .gt) || same
    | .un => decide (r = none)
    | .ord => decide (r ≠ none)]) ∧
  (∀ c d a p mk, Computes (.fclass c d a p mk) fun _ x => outReg 1 d.toNat ((x.src (clsLen c) a p).map fun u =>
    let y := imgValue c u
    let sub := decide (y.lead < (fmtOf c).emin)
    (⟨BitVec.ofNat 32 ((if y.isNan then 2 ^ 8 else if y.isInf then (if y.neg? then 2 ^ 0 else 2 ^ 7)
        else if y.isZero then (if y.neg? then 2 ^ 3 else 2 ^ 4)
        else if y.neg? then (if sub then 2 ^ 2 else 2 ^ 1) else (if sub then 2 ^ 5 else 2 ^ 6)) +
      (if u.1.s then 2 ^ 9 else 0) + (if y.isZero && u.1.s && decide (storedK c u = 0) then 2 ^ 10 else 0) +
      (if u.1.g = 0 then 0 else 2 ^ 11)), 0x1F#8⟩, zeroImg))) ∧
  (∀ ty c d a p rnd mk, Computes (.fcvti ty c d a p rnd mk) fun _ x => outReg (tyLen ty) d.toNat
    ((x.src (clsLen c) a p).map fun u =>
      wrTy ty (finalRoundInt (tySigned ty) ty.width (modeOf rnd x.g.rndctl) (imgValue c u)))) ∧
  (∀ s ty sat d a b e j fmt mk, issues (.fpack ty sat d a b e j fmt mk) s = true →
    (∀ x ∈ s.seats mk.toNat, ∃ f, fpackCls ty (slotOfmt (s.slotOf x.g.launch fmt.toNat)) = some f ∧ laneWidth f * (2 * j.toNat + 1) < 32) →
    Completes (.fpack ty sat d a b e j fmt mk) s (s.counted mk.toNat) (fun x => x.give (
      let slot := s.slotOf x.g.launch fmt.toNat
      let f := (fpackCls ty (slotOfmt slot)).getD .f16
      outReg 1 d.toNat (Lanes.map3 (fpackLane f
        (if ty = .slot then (rndOfNat (slotOrnd slot)).getD (modeOf .dyn x.g.rndctl) else modeOf .dyn x.g.rndctl)
        (if ty = .slot then slotOsat slot else sat) j.toNat) (x.src 1 a .none) (x.src 1 b .none)
        (if laneWidth f = 16 then .uni (zeroImg, zeroImg) else x.src 1 e .none)))) (fun _ => []))

/-- R204-R207, R214: the approximations and FREDUCE. The value within the bound is a free value (Config.approxNoise, logged); the statement holds whatever it is. -/
def Obligations.LongFloat : Prop :=
  (∀ s c d a p look mk i, i = .frcp c d a p look mk ∨ i = .frsq c d a p look mk ∨ i = .fexp2 c d a p look mk ∨
    i = .flog2 c d a p look mk ∨ i = .fsin c d a p look mk ∨ i = .fcos c d a p look mk ∨ i = .freduce c d a look mk →
    issues i s = true → FloorOpen i s → ∃ t u, exec i s = .next t ∧ u = { s with gangs := u.gangs, nextId := u.nextId } ∧
      Moved s u t mk.toNat s.curWords (fun _ => []) (fun _ => []) false) ∧
  (∀ f c d a p look mk, FpOpens (match f with
      | ApproxFn.rcp => .frcp c d a p look mk
      | .rsq => .frsq c d a p look mk
      | .exp2 => .fexp2 c d a p look mk
      | .log2 => .flog2 c d a p look mk
      | .sin => .fsin c d a p look mk
      | .cos => .fcos c d a p look mk) c d look fun x => (x.src (clsLen c) a p).map (approx f c)) ∧
  (∀ c d a look mk, FpOpens (.freduce c d a look mk) c d look fun x =>
    .uni (((tree32 (fun u v => match u, v with
        | none, w => w
        | w, none => w
        | some u, some v => some (fAdd c (oprOf c u) (oprOf c v)))
      ((List.range 32).map fun l => if inMask x.act l then some (pairLane (x.g.rd (clsLen c) a.toNat) l) else none)).getD
        none).getD zeroPair)) ∧
  (∀ f c u, let a := oprOf c u
    ∃ noise, match approxOf f c noise a.v with
      | .exact v => (imgValue c (approx f c u)).Is (roundOdd c v) ∧
          OwnTrust c (min (a.kef c) (acc f c)) (precP c) a.s v (approx f c u)
      | .special v => (imgValue c (approx f c u)).Is v ∧
          (v.isNan = true → (approx f c u).1.s = true ∧ storedK c (approx f c u) = 0) ∧
          (v.isNan = false → (approx f c u).1.s = a.s ∧ storedK c (approx f c u) = if a.s then 0 else precP c)
      | .near v => (imgValue c (approx f c u)).Is (roundOdd c v) ∧
          OwnTrust c (min (a.kef c) (acc f c)) (precP c) true v (approx f c u)) ∧
  (∀ f c noise, approxOf f c noise .nan = .special .nan) ∧
  (∀ c noise n e, approxOf .rcp c noise (.fin n 0 e) = .special (.inf n) ∧
    approxOf .rcp c noise (.inf n) = .special (.fin n 0 0) ∧
    approxOf .rsq c noise (.fin n 0 e) = .special (.inf n) ∧ approxOf .rsq c noise (.inf false) = .special (.fin false 0 0) ∧
    approxOf .exp2 c noise (.inf true) = .special (.fin false 0 0) ∧ approxOf .exp2 c noise (.inf false) = .special (.inf false) ∧
    approxOf .log2 c noise (.fin n 0 e) = .special (.inf true) ∧ approxOf .log2 c noise (.inf false) = .special (.inf false) ∧
    approxOf .sin c noise (.inf n) = .special .nan ∧ approxOf .cos c noise (.inf n) = .special .nan ∧
    approxOf .sin c noise (.fin n 0 e) = .exact (.fin n 0 0) ∧ approxOf .cos c noise (.fin n 0 e) = .exact (.fin false 1 0)) ∧
  (∀ c noise m e, 0 < m → approxOf .rsq c noise (.fin true m e) = .special .nan ∧
    approxOf .log2 c noise (.fin true m e) = .special .nan) ∧
  (∀ c noise n (m : Nat) (e : Int), 0 < m → (∀ k, m ≠ 2 ^ k) → (c = .f32 ∨ c = .f64 ∨ c = .f16 ∨ c = .bf16) →
    ∃ y, approxOf .rcp c noise (.fin n m e) = .near y ∧
      |y.rat - 1 / (Fp.fin n m e).rat| < 2 ^ (-(leadExp m e) - 1 - (acc .rcp c : Int) + 1))

/-- R103, R104: the two compact operations read before either writes; their results are those of their full statements. -/
def Obligations.PairWord : Prop :=
  (∀ s p q, issues (.pairWord p q) s = true → FloorOpen (.pairWord p q) s →
    ∃ t os, exec (.pairWord p q) s = .next t ∧ Moved s (s.counted 0) t 0 s.curWords os (fun _ => []) false) ∧
  ∀ s p q, issues (.pairWord p q) s = true →
    (∀ x ∈ s.seats 0, ∀ c, c = p ∨ c = q → isFpCop c.op = true →
      Trusted { x with act := x.m0 &&& x.mask c.msk.toNat } .f32 (compactVal x c)) →
    Completes (.pairWord p q) s (s.counted 0) (fun x =>
      [p, q].flatMap fun c => if c.op = .nop then [] else
        (outReg 1 c.d.toNat (compactVal x c)).map fun o => (x.m0 &&& x.mask c.msk.toNat, o)) (fun _ => [])

/-- R98: the target of a format B word, that it must be a clause header (R83, R454), and the hint. -/
def Obligations.FormatBTargets : Prop :=
  (∀ pc d, hndOf (dispTarget pc d) = hndOf pc ∧ (offOf (dispTarget pc d) : Int) = (offOf pc + 8 * d.toInt) % 2 ^ 40) ∧
  (∀ s sense mc hint disp, issues (.br sense mc hint disp) s = true →
    let target := dispTarget s.cur.pc disp
    let goes := fun (x : Seat) => x.act &&& (match sense with
      | .t => x.mask mc.toNat
      | .f => ~~~(x.mask mc.toNat))
    (∀ x ∈ s.seats 0, s.fetchFault (s.partOf x.g) (coreOf x.key) target = none ∧
      s.headerAt (s.partOf x.g) (coreOf x.key) target = false ∧ goes x ≠ 0#32) →
    Traps (.br sense mc hint disp) s ((s.seats 0).map fun x => (x.key, flaw 0x02 6 (goes x) target))) ∧
  (∀ s kind mc hint disp, issues (.brm kind mc hint disp) s = true →
    let target := dispTarget s.cur.pc disp
    let set := fun (x : Seat) (l : Nat) => inMask (x.mask mc.toNat) l = true
    (match kind with
      | .any => ∃ x ∈ s.seats 0, ∃ l ∈ maskLanes x.act, set x l
      | .all => ∀ x ∈ s.seats 0, ∀ l ∈ maskLanes x.act, set x l
      | .none => ∀ x ∈ s.seats 0, ∀ l ∈ maskLanes x.act, ¬ set x l) →
    (∀ x ∈ s.seats 0, s.fetchFault (s.partOf x.g) (coreOf x.key) target = none ∧
      s.headerAt (s.partOf x.g) (coreOf x.key) target = false) →
    Traps (.brm kind mc hint disp) s (s.all 0 0x02 6 target 0#64)) ∧
  (∀ s kind va thr hint disp, issues (.bsig kind va thr hint disp) s = true →
    let target := dispTarget s.cur.pc disp
    let low := fun (x : Seat) (l : Nat) => (if kind = .anyD ∨ kind = .allD then storedK .f64 (pairLane (x.g.rd 2 va.toNat) l)
      else storedK .f32 (pairLane (x.g.rd 1 va.toNat) l)) < thr.toNat
    (if kind = .any ∨ kind = .anyD then ∃ x ∈ s.seats 0, ∃ l ∈ maskLanes x.act, low x l
      else ∀ x ∈ s.seats 0, ∀ l ∈ maskLanes x.act, low x l) →
    (∀ x ∈ s.seats 0, s.fetchFault (s.partOf x.g) (coreOf x.key) target = none ∧
      s.headerAt (s.partOf x.g) (coreOf x.key) target = false) →
    Traps (.bsig kind va thr hint disp) s (s.all 0 0x02 6 target 0#64)) ∧
  (∀ s vd hint disp, issues (.call vd hint disp) s = true →
    let target := dispTarget s.cur.pc disp
    (∀ x ∈ s.seats 0, s.fetchFault (s.partOf x.g) (coreOf x.key) target = none ∧
      s.headerAt (s.partOf x.g) (coreOf x.key) target = false) →
    Traps (.call vd hint disp) s (s.all 0 0x02 6 target 0#64)) ∧
  (∀ s (h k : Hint) disp, (∀ sense mc, exec (.br sense mc h disp) s = exec (.br sense mc k disp) s) ∧
    (∀ kind mc, exec (.brm kind mc h disp) s = exec (.brm kind mc k disp) s) ∧
    (∀ kind va thr, exec (.bsig kind va thr h disp) s = exec (.bsig kind va thr k disp) s) ∧
    ∀ vd, exec (.call vd h disp) s = exec (.call vd k disp) s)

/-- R138-R143, R219: where each lane goes and what a call writes. -/
def Obligations.Transfers : Prop :=
  (∀ pc d, hndOf (dispTarget pc d) = hndOf pc ∧ (offOf (dispTarget pc d) : Int) = (offOf pc + 8 * d.toInt) % 2 ^ 40) ∧
  (∀ s sense mc hint disp, issues (.br sense mc hint disp) s = true →
    let goes := fun (x : Seat) => (maskLanes x.act).filter fun l => inMask (x.mask mc.toNat) l == (sense == .t)
    let target := dispTarget s.cur.pc disp
    (∀ x ∈ s.seats 0, goes x ≠ [] → s.headerAt (s.partOf x.g) (coreOf x.key) target = true) →
    Completes (.br sense mc hint disp) s (s.counted 0) (fun _ => []) fun x => (goes x).map fun l => (l, target)) ∧
  (∀ s kind mc hint disp, issues (.brm kind mc hint disp) s = true →
    let set := fun (x : Seat) (l : Nat) => inMask (x.mask mc.toNat) l = true
    let taken := match kind with
      | .any => ∃ x ∈ s.seats 0, ∃ l ∈ maskLanes x.act, set x l
      | .all => ∀ x ∈ s.seats 0, ∀ l ∈ maskLanes x.act, set x l
      | .none => ∀ x ∈ s.seats 0, ∀ l ∈ maskLanes x.act, ¬ set x l
    let target := dispTarget s.cur.pc disp
    (taken → (∀ x ∈ s.seats 0, s.headerAt (s.partOf x.g) (coreOf x.key) target = true) →
      Completes (.brm kind mc hint disp) s (s.counted 0) (fun _ => []) fun x => (maskLanes x.act).map fun l => (l, target)) ∧
    (¬ taken → Completes (.brm kind mc hint disp) s (s.counted 0) (fun _ => []) fun _ => [])) ∧
  (∀ s kind va thr hint disp, issues (.bsig kind va thr hint disp) s = true →
    let wide := kind = .anyD ∨ kind = .allD
    let low := fun (x : Seat) (l : Nat) => if wide then storedK .f64 (pairLane (x.g.rd 2 va.toNat) l) < thr.toNat
      else storedK .f32 (pairLane (x.g.rd 1 va.toNat) l) < thr.toNat
    let taken := if kind = .any ∨ kind = .anyD then ∃ x ∈ s.seats 0, ∃ l ∈ maskLanes x.act, low x l
      else ∀ x ∈ s.seats 0, ∀ l ∈ maskLanes x.act, low x l
    let target := dispTarget s.cur.pc disp
    (taken → (∀ x ∈ s.seats 0, s.headerAt (s.partOf x.g) (coreOf x.key) target = true) →
      Completes (.bsig kind va thr hint disp) s (s.counted 0) (fun _ => []) fun x => (maskLanes x.act).map fun l => (l, target)) ∧
    (¬ taken → Completes (.bsig kind va thr hint disp) s (s.counted 0) (fun _ => []) fun _ => [])) ∧
  (∀ s vd hint disp, issues (.call vd hint disp) s = true →
    let target := dispTarget s.cur.pc disp
    (∀ x ∈ s.seats 0, s.headerAt (s.partOf x.g) (coreOf x.key) target = true) →
    Completes (.call vd hint disp) s (s.counted 0)
      (fun x => x.give (outWord vd.toNat (addWords s.cur.pc (x.g.flowAt x.low0).rem)))
      fun x => (maskLanes x.act).map fun l => (l, target)) ∧
  (∀ s vd (va : VNum) mk, issues (.calli vd va mk) s = true →
    (∀ x ∈ s.seats mk.toNat, ∀ l ∈ maskLanes x.act, let a := x.g.pairAt va.toNat l
      s.headerAt (s.partOf x.g) (coreOf x.key) a = true ∧ hndOf a = hndOf s.cur.pc ∧ ∃ c ∈ (s.roleOf x.g).callees, c.1 = a) →
    Completes (.calli vd va mk) s (s.counted mk.toNat)
      (fun x => x.give (outWord vd.toNat (addWords s.cur.pc (x.g.flowAt x.low0).rem)))
      fun x => (maskLanes x.act).map fun l => (l, x.g.pairAt va.toNat l)) ∧
  (∀ s (va : VNum) mk, issues (.jmpi va mk) s = true →
    (∀ x ∈ s.seats mk.toNat, ∀ l ∈ maskLanes x.act, let a := x.g.pairAt va.toNat l
      s.headerAt (s.partOf x.g) (coreOf x.key) a = true ∧ hndOf a = hndOf s.cur.pc ∧ ∃ c ∈ (s.roleOf x.g).callees, c.1 = a) →
    Completes (.jmpi va mk) s (s.counted mk.toNat) (fun _ => [])
      fun x => (maskLanes x.act).map fun l => (l, x.g.pairAt va.toNat l)) ∧
  (∀ s (va : VNum) mk, issues (.ret va mk) s = true →
    (∀ x ∈ s.seats mk.toNat, ∀ l ∈ maskLanes x.act, let a := x.g.pairAt va.toNat l
      s.headerAt (s.partOf x.g) (coreOf x.key) a = true ∧ hndOf a = hndOf s.cur.pc) →
    Completes (.ret va mk) s (s.counted mk.toNat) (fun _ => [])
      fun x => (maskLanes x.act).map fun l => (l, x.g.pairAt va.toNat l))

/-- R456: operand faults. R454, R457 under R423: what a failed transfer reports. What a member that does not meet the cause itself reports (Trapped: the first cause) is the model's choice (log 22). -/
def Obligations.OperandAndTransferTraps : Prop :=
  (∀ s i x0 rest code detail n, s.seats i.maskField = x0 :: rest → operandFault (16 * x0.g.allot) i.opnds = some (code, detail, n) →
    ((∀ x ∈ s.seats i.maskField, earlyFlaw i s x = none) →
      Traps i s (s.all i.maskField code detail (BitVec.ofNat 64 n) (BitVec.ofNat 64 (16 * x0.g.allot)))) ∧
    ((∃ x ∈ s.seats i.maskField, (earlyFlaw i s x).isSome = true) →
      Traps i s ((s.seats i.maskField).filterMap fun x => (earlyFlaw i s x).map fun f => (x.key, f)))) ∧
  (∀ s (va : VNum) mk i, i = .jmpi va mk ∨ (∃ vd, i = .calli vd va mk) → issues i s = true →
    (∀ x ∈ s.seats mk.toNat, ∀ l ∈ maskLanes x.act, let a := x.g.pairAt va.toNat l
      s.headerAt (s.partOf x.g) (coreOf x.key) a = true ∧ hndOf a = hndOf s.cur.pc) →
    let bad := fun (x : Seat) => (maskLanes x.act).filter fun l =>
      !((s.roleOf x.g).callees.any fun c => c.1 == x.g.pairAt va.toNat l)
    (∃ x ∈ s.seats mk.toNat, bad x ≠ []) →
    Traps i s ((s.seats mk.toNat).filterMap fun x => ((bad x).head?).map fun l =>
      (x.key, flaw 0x07 1 (maskOf fun k => (bad x).contains k) (x.g.pairAt va.toNat l)))) ∧
  (∀ s (va : VNum) mk, issues (.ret va mk) s = true →
    (∀ x ∈ s.seats mk.toNat, ∀ l ∈ maskLanes x.act, s.headerAt (s.partOf x.g) (coreOf x.key) (x.g.pairAt va.toNat l) = true) →
    let bad := fun (x : Seat) => (maskLanes x.act).filter fun l => hndOf (x.g.pairAt va.toNat l) != hndOf s.cur.pc
    (∃ x ∈ s.seats mk.toNat, bad x ≠ []) →
    Traps (.ret va mk) s ((s.seats mk.toNat).filterMap fun x => ((bad x).head?).map fun l =>
      (x.key, flaw 0x06 1 (maskOf fun k => (bad x).contains k) (x.g.pairAt va.toNat l)))) ∧
  (∀ s hint disp, issues (.br .t 0#3 hint disp) s = true →
    let target := dispTarget s.cur.pc disp
    (∀ x ∈ s.seats 0, s.fetchFault (s.partOf x.g) (coreOf x.key) target = none ∧
      s.headerAt (s.partOf x.g) (coreOf x.key) target = false) →
    Traps (.br .t 0#3 hint disp) s (s.all 0 0x02 6 target 0#64))

/-- R144 and R18, R146 and R43, R145 and R33. The model's choices: windows of slices left without a live lane close (log 27), a WAITTOK that waits does not count for windows until it passes (log 26), and an EXIT offers the place by the YIELD field of the clause it stands in (log 140). -/
def Obligations.WaitsAndExit : Prop :=
  (∀ s, issues .regang s = true → s.united s.cur.key = true →
    Completes .regang s (s.counted 0) (fun _ => []) fun _ => []) ∧
  (∀ s, issues .regang s = true → s.united s.cur.key = false →
    ∃ t, exec .regang s = .next t ∧ t = { s with gangs := t.gangs } ∧
      ∀ x ∈ s.seats 0, ∃ g', t.gang? x.key = some g' ∧
        g' = { (x.g.count x.m0).flush s.tick with flow := g'.flow, fetched := g'.fetched, waits := g'.waits } ∧
        ∀ l, l < x.g.flow.length → (g'.flowAt l).pc = (x.g.flowAt l).pc ∧
          (g'.flowAt l).rgw = (inMask x.m0 l || (x.g.flowAt l).rgw)) ∧
  (∀ s toks, issues (.waittok toks) s = true →
    let clear := fun (x : Seat) => ∀ k, k < 7 → toks.getLsbD k = true → Tab.at x.g.toks 0 (k + 1) = 0
    ((∀ x ∈ s.seats 0, clear x) → Completes (.waittok toks) s (s.counted 0) (fun _ => []) fun _ => []) ∧
    ((∃ x ∈ s.seats 0, ¬ clear x) → ∃ t, exec (.waittok toks) s = .next t ∧ t = { s with gangs := t.gangs } ∧
      (∀ k, k ≠ s.cur.key → t.gang? k = s.gang? k) ∧
      ∀ g, s.gang? s.cur.key = some g → ∃ g', t.gang? s.cur.key = some g' ∧
        g' = { g with fetched := g'.fetched, waits := g'.waits } ∧ g'.waitsAt s.cur.part s.cur.pc = true)) ∧
  (∀ mk, Acts (.exit mk) (fun _ _ => true) fun x u =>
    let t := u.updGang x.key fun g => { (g.kill x.act).flush u.tick with offer := g.offer || (maskLanes x.act).any fun l =>
      (g.flowAt l).yld == 1#2 || ((g.flowAt l).yld == 2#2 && decide (40 < (u.core (coreOf x.key)).imb)) }
    if x.g.live &&& ~~~x.act = 0#32 then t.retire x else t) ∧
  (∀ (g : Gang) m, (∀ l, inMask (g.kill m).live l = (inMask g.live l && !inMask m l)) ∧
    g.kill m = { g with life := (g.kill m).life, pend := (g.kill m).pend } ∧
    (g.kill m).pend.map (fun p => { p with win := ([] : List Nat) }) = g.pend.map (fun p => { p with win := [] })) ∧
  (∀ (g : Gang) m sl, (∀ l, l / 4 = sl → inMask (g.kill m).live l = false) →
    ∀ p ∈ (g.kill m).pend, p.win.getD sl 0 = 0) ∧
  (∀ (s : State) x, (s.retire x).gangs = (s.updGang x.key fun g => g).gangs ∧ (s.retire x).mem = s.mem ∧
    (s.retire x).rels = s.rels ++ [⟨s.nextId, x.key, x.g.launch, s.partOf x.g, .retire, s.openEntries x.key, none, false, 0, []⟩])

/-- R236-R243 at issue, under R256 and R259: what enters the stream. The addresses are those of laneAddr; the bytes move when the pieces perform. -/
def Obligations.LoadsAndStores : Prop :=
  (∀ size d m stream look tok mk, Acts (.ld size d m stream look tok mk)
    (fun s x => (s.accFlaw x (x.accs (sizeBytes size) false true 1 false (laneAddr x.g m (sizeBytes size)))).isNone)
    fun x u => u.putLoad x stream.toNat look.toNat tok.toNat (resultRegs d (sizeLen size))
      { u.newEntry (.ld size d m stream look tok mk) x with
        todo := (maskLanes x.act).flatMap fun l =>
          u.readPieces x.key l (laneAddr x.g m (sizeBytes size) l) (sizeBytes size) false }) ∧
  (∀ size d m stream look tok mk, Acts (.ldt size d m stream look tok mk)
    (fun s x => (s.accFlaw x (x.accs (sizeBytes size) false true 4 true (laneAddr x.g m (sizeBytes size)))).isNone)
    fun x u => u.putLoad x stream.toNat look.toNat tok.toNat (resultRegs d (sizeLen size))
      { u.newEntry (.ldt size d m stream look tok mk) x with
        todo := (maskLanes x.act).flatMap fun l =>
          u.readPieces x.key l (laneAddr x.g m (sizeBytes size) l) (sizeBytes size) true }) ∧
  (∀ size d hnd disp stream look tok mk, Acts (.ldb size d hnd disp stream look tok mk)
    (fun s x => (s.accFlaw x (x.accs (sizeBytes size) false true 1 false
      (laneAddr x.g ⟨hnd, none, disp⟩ (sizeBytes size)))).isNone)
    fun x u => u.putLoad x stream.toNat look.toNat tok.toNat (resultRegs d (sizeLen size))
      { u.newEntry (.ldb size d hnd disp stream look tok mk) x with
        todo := ((maskLanes x.act).take 1).flatMap fun l =>
          u.readPieces x.key l (laneAddr x.g ⟨hnd, none, disp⟩ (sizeBytes size) l) (sizeBytes size) false }) ∧
  (∀ size rnd vs m stream tok mk, Acts (.st size rnd vs m stream tok mk)
    (fun s x => (s.accFlaw x (x.accs (sizeBytes size) true false 1 false (laneAddr x.g m (sizeBytes size)))).isNone)
    fun x u => u.putStore x stream.toNat tok.toNat
      { u.newEntry (.st size rnd vs m stream tok mk) x with
        todo := (maskLanes x.act).flatMap fun l =>
          u.writePieces x.key l (laneAddr x.g m (sizeBytes size) l)
            (storeBytes size (modeOf rnd x.g.rndctl) (satOf x.g.rndctl) (x.g.imgs vs.toNat (sizeLen size) l)) (sizeTag size) }) ∧
  (∀ size vs m stream tok mk, Acts (.stt size vs m stream tok mk)
    (fun s x => (s.accFlaw x (x.accs (sizeBytes size) true false 4 true (laneAddr x.g m (sizeBytes size)))).isNone)
    fun x u => u.putStore x stream.toNat tok.toNat
      { u.newEntry (.stt size vs m stream tok mk) x with
        todo := (maskLanes x.act).flatMap fun l =>
          u.writePieces x.key l (laneAddr x.g m (sizeBytes size) l) (imgBytes (x.g.imgs vs.toNat (sizeLen size) l))
            (.exact ((x.g.imgs vs.toNat (sizeLen size) l).map (·.tag))) }) ∧
  (∀ size lc (vd : VNum) m stream tok mk, let n := sizeBytes size * 2 ^ lc.toNat
    Acts (.tmov size lc vd m stream tok mk)
    (fun s x => (s.accFlaw x (x.accs n false true 1 false (laneAddr x.g m (sizeBytes size)) ++
      x.accs n true false 1 false (x.g.pairAt vd.toNat))).isNone)
    fun x u => u.putStore x stream.toNat tok.toNat
      { u.newEntry (.tmov size lc vd m stream tok mk) x with
        todo :=
          ((maskLanes x.act).flatMap fun l => u.readPieces x.key l (laneAddr x.g m (sizeBytes size) l) n
            (u.movesTags x.key (laneAddr x.g m (sizeBytes size) l) (x.g.pairAt vd.toNat l) n)) ++
          (maskLanes x.act).flatMap fun l => u.writePieces x.key l (x.g.pairAt vd.toNat l) (List.replicate n 0#8) .other }) ∧
  (∀ (u : State) x st look tok regs e, (u.gang? x.key).isSome = true → ∃ e',
    Queued u (u.putLoad x st look tok regs e) x.key st tok e' ∧
    e' = { e with id := e'.id, pend := u.nextId, gate := e'.gate, wcells := e'.wcells } ∧
    ∀ g, u.gang? x.key = some g → ∃ g' p, (u.putLoad x st look tok regs e).gang? x.key = some g' ∧ g'.pend = g.pend ++ [p] ∧
      p.id = u.nextId ∧ p.regs = regs ∧ p.left = x.act ∧ p.landed = false ∧ p.frozen = false ∧
      ∀ sl, sl < 8 → p.win.getD sl 0 = if x.m0 &&& sliceMask sl = 0#32 then 0 else look) ∧
  (∀ (u : State) x st tok e, (u.gang? x.key).isSome = true → e.id = u.nextId → ∃ e',
    Queued u (u.putStore x st tok e) x.key st tok e' ∧
    e' = { e with tok := tok, gate := e'.gate, wcells := (e.todo.filter (·.wr)).flatMap fun p => p.cells ++ p.tagCells } ∧
    ∀ g, u.gang? x.key = some g → ∃ g', (u.putStore x st tok e).gang? x.key = some g' ∧ g'.pend = g.pend) ∧
  (∀ (u : State) key lane a n tagged h g, u.hnd? key a = some h → u.gang? key = some g →
    (u.readPieces key lane a n tagged).flatMap (·.cells) = (List.range n).map (fun i => h.phys (offOf a + i)) ∧
    ∀ p ∈ u.readPieces key lane a n tagged, p.wr = false ∧ p.lane = lane ∧
      p.cells = (List.range p.cells.length).map fun i => h.phys (offOf a + p.pos + i)) ∧
  (∀ (u : State) key lane a data k h g, u.hnd? key a = some h → u.gang? key = some g →
    (u.writePieces key lane a data k).flatMap (fun p => List.zip p.cells p.data) =
      List.zip ((List.range data.length).map fun i => h.phys (offOf a + i)) data ∧
    ∀ p ∈ u.writePieces key lane a data k, p.wr = true ∧ p.lane = lane)

/-- R236, R237, R239, R240: the conversions between bytes and lane images. -/
def Obligations.DataInMemory : Prop :=
  (∀ bs : List Byte, loadImgs .w8 bs = [⟨BitVec.ofNat 32 (leNat bs), 0x1F#8⟩] ∧ loadImgs .z8 bs = loadImgs .w8 bs ∧
    loadImgs .w16 bs = loadImgs .w8 bs ∧ loadImgs .z16 bs = loadImgs .w8 bs ∧ loadImgs .w32 bs = loadImgs .w8 bs ∧
    loadImgs .s8 bs = [⟨(BitVec.ofNat 8 (leNat bs)).signExtend 32, 0x1F#8⟩] ∧
    loadImgs .s16 bs = [⟨(BitVec.ofNat 16 (leNat bs)).signExtend 32, 0x1F#8⟩] ∧
    loadImgs .w64 bs = [⟨BitVec.ofNat 32 (leNat bs), 0x1F#8⟩, ⟨BitVec.ofNat 32 (leNat bs / 2 ^ 32), 0x01#8⟩] ∧
    loadImgs .w128 bs = [⟨BitVec.ofNat 32 (leNat bs), 0x1F#8⟩, ⟨BitVec.ofNat 32 (leNat bs / 2 ^ 32), 0x01#8⟩,
      ⟨BitVec.ofNat 32 (leNat bs / 2 ^ 64), 0x1F#8⟩, ⟨BitVec.ofNat 32 (leNat bs / 2 ^ 96), 0x01#8⟩]) ∧
  (∀ c : BitVec 32, decodeFp .f32 c.toNat ≠ .nan → loadImgs .f32 (leBytes 4 c.toNat) = [⟨c, 0x1A#8⟩]) ∧
  (∀ c : BitVec 64, decodeFp .f64 c.toNat ≠ .nan → loadImgs .f64 (leBytes 8 c.toNat) =
    [⟨c.extractLsb' 0 32, 0x17#8⟩, ⟨c.extractLsb' 32 32, 0x01#8⟩]) ∧
  (∀ c : BitVec 64, decodeFp .f64 c.toNat = .nan → loadImgs .f64 (leBytes 8 c.toNat) = [⟨0#32, 0x20#8⟩, ⟨0x7FF80000#32, 0x00#8⟩]) ∧
  (∀ n, n < 2 ^ 16 → decodeFp .f16 n ≠ .nan → ∃ v, loadImgs .f16 (leBytes 2 n) = [⟨v, 0x0D#8⟩] ∧
    (imgValue .f32 (⟨v, 0x0D#8⟩, zeroImg)).rat = (decodeFp .f16 n).rat) ∧
  (∀ n, n < 2 ^ 16 → decodeFp .bf16 n ≠ .nan → ∃ v, loadImgs .bf16 (leBytes 2 n) = [⟨v, 0x0A#8⟩] ∧
    (imgValue .f32 (⟨v, 0x0A#8⟩, zeroImg)).rat = (decodeFp .bf16 n).rat) ∧
  (∀ n, n < 2 ^ 8 → decodeFp .e4m3 n ≠ .nan → ∃ v, loadImgs .e4m3 (leBytes 1 n) = [⟨v, 0x06#8⟩] ∧
    (imgValue .f32 (⟨v, 0x06#8⟩, zeroImg)).rat = (decodeFp .e4m3 n).rat) ∧
  (∀ n, n < 2 ^ 8 → decodeFp .e5m2 n ≠ .nan → ∃ v, loadImgs .e5m2 (leBytes 1 n) = [⟨v, 0x05#8⟩] ∧
    (imgValue .f32 (⟨v, 0x05#8⟩, zeroImg)).rat = (decodeFp .e5m2 n).rat) ∧
  (∀ sz c k n, (sz, c, k) ∈ [(Size.f32, FpCls.f32, 4), (.f16, .f16, 2), (.bf16, .bf16, 2), (.e4m3, .e4m3, 1), (.e5m2, .e5m2, 1)] →
    n < 2 ^ (8 * k) → decodeFp c n = .nan → loadImgs sz (leBytes k n) = [⟨0x7FC00000#32, 0x20#8⟩]) ∧
  (∀ mode sat xs, (∀ sz, sz = Size.w8 ∨ sz = .s8 ∨ sz = .z8 → storeBytes sz mode sat xs = (imgBytes xs).take 1) ∧
    (∀ sz, sz = Size.w16 ∨ sz = .s16 ∨ sz = .z16 → storeBytes sz mode sat xs = (imgBytes xs).take 2) ∧
    storeBytes .w32 mode sat xs = (imgBytes xs).take 4 ∧ storeBytes .w64 mode sat xs = (imgBytes xs).take 8 ∧
    storeBytes .w128 mode sat xs = (imgBytes xs).take 16 ∧
    (∀ a rest, xs = a :: rest → storeBytes .f32 mode sat xs = leBytes 4 (finalRound .f32 mode sat (imgValue .f32 (a, rest.headD zeroImg))) ∧
      storeBytes .bf16 mode sat xs = leBytes 2 (finalRound .bf16 mode sat (imgValue .bf16 (a, rest.headD zeroImg))) ∧
      storeBytes .f16 mode sat xs = leBytes 2 (finalRound .f16 mode sat (imgValue .f16 (a, rest.headD zeroImg))) ∧
      storeBytes .e4m3 mode sat xs = leBytes 1 (finalRound .e4m3 mode sat (imgValue .e4m3 (a, rest.headD zeroImg))) ∧
      storeBytes .e5m2 mode sat xs = leBytes 1 (finalRound .e5m2 mode sat (imgValue .e5m2 (a, rest.headD zeroImg)))) ∧
    ∀ a b, xs = [a, b] → storeBytes .f64 mode sat xs = leBytes 8 (finalRound .f64 mode sat (imgValue .f64 (a, b)))) ∧
  (∀ x : Img, x.tag.toNat % 32 ≤ 26 ∨ x.tag.toNat % 32 = 31 → tagImgs .w32 (imgBytes [x]) [x.tag] = [x]) ∧
  (∀ x : Img, 27 ≤ x.tag.toNat % 32 → x.tag.toNat % 32 ≤ 30 →
    tagImgs .w32 (imgBytes [x]) [x.tag] = [⟨x.val, (x.tag &&& 0xE0#8) ||| 26#8⟩]) ∧
  (∀ x y : Img, y.tag.toNat < 2 → tagImgs .w64 (imgBytes [x, y]) [x.tag, y.tag] = [x, y])

/-- R467, R468: the cases in order, the lane, the address and the attributes that the trap reports. A member none of whose lanes is refused reports the first flaw with no lanes: the model's choice (log 22). -/
def Obligations.AccessTraps : Prop :=
  (∀ i s (accs : Seat → List Acc), issues i s = true →
    ((∃ size d m stream look tok mk, i = .ld size d m stream look tok mk ∧
        accs = fun x => x.accs (sizeBytes size) false true 1 false (laneAddr x.g m (sizeBytes size))) ∨
     (∃ size d m stream look tok mk, i = .ldt size d m stream look tok mk ∧
        accs = fun x => x.accs (sizeBytes size) false true 4 true (laneAddr x.g m (sizeBytes size))) ∨
     (∃ size d hnd disp stream look tok mk, i = .ldb size d hnd disp stream look tok mk ∧
        accs = fun x => x.accs (sizeBytes size) false true 1 false (laneAddr x.g ⟨hnd, none, disp⟩ (sizeBytes size))) ∨
     (∃ size rnd vs m stream tok mk, i = .st size rnd vs m stream tok mk ∧
        accs = fun x => x.accs (sizeBytes size) true false 1 false (laneAddr x.g m (sizeBytes size))) ∨
     (∃ size vs m stream tok mk, i = .stt size vs m stream tok mk ∧
        accs = fun x => x.accs (sizeBytes size) true false 4 true (laneAddr x.g m (sizeBytes size))) ∨
     (∃ size lc, ∃ vd : VNum, ∃ m stream tok mk, i = .tmov size lc vd m stream tok mk ∧
        accs = fun x => x.accs (sizeBytes size * 2 ^ lc.toNat) false true 1 false (laneAddr x.g m (sizeBytes size)) ++
          x.accs (sizeBytes size * 2 ^ lc.toNat) true false 1 false (x.g.pairAt vd.toNat))) →
    (∃ x ∈ s.seats i.maskField, (s.accFlaw x (accs x)).isSome = true) →
    Traps i s ((s.seats i.maskField).filterMap fun x => (s.accFlaw x (accs x)).map fun f => (x.key, f))) ∧
  (∀ (s : State) x a, a.lane < 32 → let h := s.handleAt (s.partOf x.g) (coreOf x.key) a.adr
    let one : Mask := maskOf fun l => l == a.lane
    let at_ := fun (o : Nat) => mkAddr (hndOf a.adr) o
    (h = none → s.accFlaw x [a] = some (flaw 0x0C 1 one (at_ (offOf a.adr)) 0#64)) ∧
    (∀ e, h = some e → attrValid e.attr = true →
      let rights := (a.rd = true → attrRd e.attr = true) ∧ (a.wr = true → attrWr e.attr = true)
      let world := attrSecure e.attr = true → (s.part (s.partOf x.g)).secure = true
      let inside := offOf a.adr + a.n ≤ attrBytes e.attr
      let tagged := a.needTag = true → (s.tagPlane (s.partOf x.g) (coreOf x.key) e).isSome = true
      (¬ rights → s.accFlaw x [a] = some (flaw 0x0C 2 one (at_ (offOf a.adr)) e.attr)) ∧
      (rights → ¬ world → s.accFlaw x [a] = some (flaw 0x0C 3 one (at_ (offOf a.adr)) e.attr)) ∧
      (rights → world → ¬ inside → s.accFlaw x [a] = some (flaw 0x0C 4 one (at_ (max (offOf a.adr) (attrBytes e.attr))) e.attr)) ∧
      (rights → world → inside → offOf a.adr % a.align ≠ 0 → s.accFlaw x [a] = some (flaw 0x0C 5 one a.adr e.attr)) ∧
      (rights → world → inside → offOf a.adr % a.align = 0 → attrSpace e.attr < 5 → ¬ tagged →
        s.accFlaw x [a] = some (flaw 0x0C 6 one a.adr e.attr)) ∧
      (rights → world → inside → offOf a.adr % a.align = 0 → attrSpace e.attr < 5 → tagged → s.accFlaw x [a] = none)))

/-- R241, R242: the exact offset, the bound, the count and the trap. A member none of whose lanes is out of range reports the first flaw with no lanes: the model's choice (log 22). -/
def Obligations.GatherScatter : Prop :=
  let adr := fun (x : Seat) (hnd : HNum) (ofs : VNum) (disp : BitVec 12) (n l : Nat) =>
    mkAddr (hndOf (x.g.hreg hnd.toNat)) ((gatherOffset x.g hnd ofs disp n l) % 2 ^ 40).toNat
  let good := fun (s : State) (x : Seat) (hnd : HNum) ofs disp n => maskLanes (x.act &&& ~~~(s.outOfRange x hnd ofs disp n))
  let ok := fun (wr : Bool) (hnd : HNum) (ofs : VNum) (disp : BitVec 12) (n : Nat) (s : State) (x : Seat) =>
    (s.accFlaw x ((good s x hnd ofs disp n).map fun l => ⟨l, adr x hnd ofs disp n l, n, wr, !wr, 1, false⟩)).isNone &&
      (s.outOfRange x hnd ofs disp n == 0#32 || !x.g.memctl.getLsbD 0)
  let counted := fun (x : Seat) (u : State) hnd ofs disp n =>
    if u.outOfRange x hnd ofs disp n = 0#32 then u
    else u.updGang x.key fun g =>
      { g with idxcnt := BitVec.ofNat 64 (min (g.idxcnt.toNat % 2 ^ 32 + (maskLanes (u.outOfRange x hnd ofs disp n)).length) (2 ^ 32 - 1)) }
  (∀ size d hnd ofs disp stream look tok mk, let n := sizeBytes size
    Acts (.ldg size d hnd ofs disp stream look tok mk) (ok false hnd ofs disp n) fun x u =>
      let v := counted x u hnd ofs disp n
      v.putLoad x stream.toNat look.toNat tok.toNat (resultRegs d (sizeLen size))
        { v.newEntry (.ldg size d hnd ofs disp stream look tok mk) x with
          todo := (good u x hnd ofs disp n).flatMap fun l => v.readPieces x.key l (adr x hnd ofs disp n l) n false }) ∧
  (∀ size rnd vs hnd ofs disp stream tok mk, let n := sizeBytes size
    Acts (.sts size rnd vs hnd ofs disp stream tok mk) (ok true hnd ofs disp n) fun x u =>
      let v := counted x u hnd ofs disp n
      v.putStore x stream.toNat tok.toNat { v.newEntry (.sts size rnd vs hnd ofs disp stream tok mk) x with
        todo := (good u x hnd ofs disp n).flatMap fun l => v.writePieces x.key l (adr x hnd ofs disp n l)
          (storeBytes size (modeOf rnd x.g.rndctl) (satOf x.g.rndctl) (x.g.imgs vs.toNat (sizeLen size) l)) (sizeTag size) }) ∧
  (∀ (s : State) x hnd ofs disp n l h, s.hnd? x.key (x.g.hreg hnd.toNat) = some h → (inMask (s.outOfRange x hnd ofs disp n) l = true ↔
    inMask x.act l = true ∧ ¬ (0 ≤ gatherOffset x.g hnd ofs disp n l ∧ gatherOffset x.g hnd ofs disp n l + n ≤ (attrBytes h.attr : Int)))) ∧
  (∀ (x : Seat) (hnd : HNum) (ofs : VNum) (disp : BitVec 12) (n l : Nat), gatherOffset x.g hnd ofs disp n l =
    (offOf (x.g.hreg hnd.toNat) : Int) + ((((x.g.reg ofs.toNat).lane l).val.toNat : Int) + disp.toInt) * n) ∧
  (∀ s i (wr : Bool) size hnd (ofs : VNum) disp (mk : MNum), (wr = false ∧ ∃ d stream look tok, i = .ldg size d hnd ofs disp stream look tok mk) ∨
      (wr = true ∧ ∃ rnd vs stream tok, i = .sts size rnd vs hnd ofs disp stream tok mk) →
    let n := sizeBytes size
    issues i s = true →
    (∀ x ∈ s.seats mk.toNat, x.g.memctl.getLsbD 0 = true ∧ s.accFlaw x ((good s x hnd ofs disp n).map fun l =>
      ⟨l, adr x hnd ofs disp n l, n, wr, !wr, 1, false⟩) = none) →
    (∃ x ∈ s.seats mk.toNat, s.outOfRange x hnd ofs disp n ≠ 0#32) →
    Traps i s ((s.seats mk.toNat).filterMap fun x =>
      (lowLane? (s.outOfRange x hnd ofs disp n)).map fun l => (x.key, flaw 0x0A 0 (s.outOfRange x hnd ofs disp n)
        (((x.g.reg ofs.toNat).lane l).val.setWidth 64) (BitVec.ofInt 64 (gatherOffset x.g hnd ofs disp n l)))))

/-- R245, R248-R250 at issue. That REL enters all 16 streams of the gang is the model's choice (log 110). -/
def Obligations.AtomicsTokensFences : Prop :=
  (∀ op size vs m stream tok mk, let n := sizeBytes size
    Acts (.atom op size vs m stream tok mk)
    (fun s x => (s.accFlaw x (x.accs n true true n false (laneAddr x.g m n))).isNone)
    fun x u => u.putStore x stream.toNat tok.toNat { u.newEntry (.atom op size vs m stream tok mk) x with
      vals := (maskLanes x.act).map fun l => (l, x.g.imgs vs.toNat (atomLen op size) l)
      todo := (maskLanes x.act).flatMap fun l => u.writePieces x.key l (laneAddr x.g m n l) (List.replicate n 0#8) .other }) ∧
  (∀ op size vs m stream look tok mk, let n := sizeBytes size
    Acts (.atomr op size vs m stream look tok mk)
    (fun s x => (s.accFlaw x (x.accs n true true n false (laneAddr x.g m n))).isNone)
    fun x u => u.putLoad x stream.toNat look.toNat tok.toNat (resultRegs vs (sizeLen size))
      { u.newEntry (.atomr op size vs m stream look tok mk) x with
        vals := (maskLanes x.act).map fun l => (l, x.g.imgs vs.toNat (atomLen op size) l)
        todo := (maskLanes x.act).flatMap fun l => u.writePieces x.key l (laneAddr x.g m n l) (List.replicate n 0#8) .other }) ∧
  (∀ mode id tok, Acts (.acq mode id tok) (fun _ x => mode == .sh || x.g.mates.length ≤ 1) fun x u =>
    let t := u.updPart (u.partOf x.g) fun p => { p with tokens := Tab.upd p.tokens ⟨[], []⟩ id.toNat fun k =>
      { k with reqs := k.reqs ++ [(x.key, mode == .x, tok.toNat)] } }
    t.updGang x.key fun g => { g.tokAdd tok.toNat with acqs := g.acqs ++ [id.toNat] }) ∧
  (∀ s id tok, issues (.acq .x id tok) s = true → (∀ x ∈ s.seats 0, 1 < x.g.mates.length) →
    Traps (.acq .x id tok) s (s.all 0 0x01 7 0#64 0#64)) ∧
  (∀ id tok, Acts (.rel id tok) (fun _ _ => true) fun x u =>
    (u.relEntry (.rel id tok) x (List.range 16)).putRel x (.token id.toNat) [x.key] (u.openEntries x.key) none tok.toNat) ∧
  (∀ (u : State) i x sts, sts.Nodup → let v := u.relEntry i x sts
    v = { u with gangs := v.gangs } ∧ (∀ k, k ≠ x.key → v.gang? k = u.gang? k) ∧
      ∀ g, u.gang? x.key = some g → ∃ g', v.gang? x.key = some g' ∧ g' = { g with streams := g'.streams } ∧
        ∀ st, Tab.at g'.streams [] st = Tab.at g.streams [] st ++ (if st ∈ sts then [u.newEntry i x] else [])) ∧
  (∀ (u : State) x kind keys after stream tok, keys.Nodup → keys ≠ [] → let v := u.putRel x kind keys after stream tok
    v = { u with gangs := v.gangs, nextId := u.nextId + 1
                 rels := u.rels ++ [⟨u.nextId, x.key, x.g.launch, u.partOf x.g, kind, after, stream, false, tok, keys⟩] } ∧
      ∀ k, v.gang? k = (u.gang? k).map fun g => if k ∈ keys then g.tokAdd tok else g) ∧
  (∀ kind set, Acts (.fence kind set) (fun _ _ => true) fun x u =>
    let e := { u.newEntry (.fence kind set) x with gate := u.gates x.key }
    let streams := if kind = .s then (List.range 16).filter set.getLsbD else List.range 16
    { streams.foldl (fun (t : State) st => t.enqueue x.key st e) u with nextId := u.nextId + 1 }) ∧
  (∀ (u : State) key st e, Queued u { u.enqueue key st e with nextId := u.nextId + 1 } key st 0 e ∨ e.id ≠ u.nextId)

/-- R251, R252, R477. A word acts once for its unit, through the first seat, for all its members. The model's choices: the offending address stands in TINFO1 shifted left by 4 above the buffer number (log 99), one release stands in the stream of every member (log 110), the pair lands in every member (log 97), and a member without the cause reports the first one's (log 22); R254. That a uniform address gives a uniform descriptor is the model's choice (log 135). -/
def Obligations.BuffersAndHandles : Prop :=
  (∀ cb hnd disp logs size, Acts (.cbdef cb hnd disp logs size)
    (fun s x => !x.first || (
      let slots := 2 ^ (logs.toNat + 1)
      let bytes := 2 ^ (size.toNat + 6)
      let a := laneAddr x.g ⟨hnd, none, disp⟩ bytes x.low
      !(s.core (coreOf x.key)).cbBusy cb.toNat && match s.hnd? x.key a with
        | none => false
        | some h => (!attrSecure h.attr || (s.part (s.partOf x.g)).secure) && offOf a % bytes == 0
            && decide (2 ≤ attrSpace h.attr ∧ attrSpace h.attr ≤ 4 ∧ offOf a + slots * bytes ≤ attrBytes h.attr)))
    fun x u => if x.first then u.updCore (coreOf x.key) fun c =>
        let slots := 2 ^ (logs.toNat + 1)
        let bytes := 2 ^ (size.toNat + 6)
        let a := laneAddr x.g ⟨hnd, none, disp⟩ bytes x.low
        { c with cbs := Tab.put c.cbs cb.toNat { (⟨a, 0, slots, bytes, slots, 0, 0, 0, 0, 0, [], [], [], [], [], []⟩ : CBuf) with
            phys := (u.hnd? x.key a).elim 0 fun h => h.phys (offOf a) } }
      else u) ∧
  (∀ vd cb look tok, Acts (.cbpushRes vd cb look tok) (fun s x => !x.first || (s.cb? x.key cb.toNat).isSome)
    fun x u => if x.first then (u.addPendUnit look.toNat (resultRegs vd 2) tok.toNat).2.updCb (coreOf x.key)
        cb.toNat fun b => { b with waitRes := b.waitRes ++ [⟨some x.key, u.nextId, tok.toNat⟩] }
      else u) ∧
  (∀ vd cb look tok, Acts (.cbpopTake vd cb look tok) (fun s x => !x.first || (s.cb? x.key cb.toNat).isSome)
    fun x u => if x.first then (u.addPendUnit look.toNat (resultRegs vd 2) tok.toNat).2.updCb (coreOf x.key)
        cb.toNat fun b => { b with waitTake := b.waitTake ++ [⟨some x.key, u.nextId, tok.toNat⟩] }
      else u) ∧
  (∀ (u : State) look regs tok, ((u.seats 0).map (·.key)).Nodup → let v := (u.addPendUnit look regs tok).2
    (u.addPendUnit look regs tok).1 = u.nextId ∧ v = { u with gangs := v.gangs, nextId := u.nextId + 1 } ∧
      (∀ k, (∀ x ∈ u.seats 0, x.key ≠ k) → v.gang? k = u.gang? k) ∧
      ∀ x ∈ u.seats 0, ∀ g, u.gang? x.key = some g → v.gang? x.key = some { g with
        pend := g.pend ++ [⟨u.nextId, regs, [], x.act, (List.range 8).map (fun sl => if x.m0 &&& sliceMask sl = 0#32 then 0 else look),
          false, [], tok, false, false⟩]
        toks := if tok = 0 then g.toks else Tab.put g.toks tok (g.tok tok + 1) }) ∧
  (∀ (vs : VNum) cb stream tok, Acts (.cbpushCommit vs cb stream tok)
    (fun s x => !x.first || (match s.cb? x.key cb.toNat with
      | some b => (b.slotAt? (x.g.pairAt vs.toNat x.low)).elim false b.reserved.contains
      | none => false))
    fun x u => if x.first then
        ((u.seats 0).foldl (fun v y => v.relEntry (.cbpushCommit vs cb stream tok) y [stream.toNat]) u).putRel x
          (.commit (coreOf x.key) cb.toNat (((u.cb? x.key cb.toNat).bind fun b => b.slotAt? (x.g.pairAt vs.toNat x.low)).getD 0))
          ((u.seats 0).map (·.key)) ((u.seats 0).flatMap fun y => u.openWrites y.key stream.toNat) (some stream.toNat) tok.toNat
      else u) ∧
  (∀ (vs : VNum) cb stream tok, Acts (.cbpopFree vs cb stream tok)
    (fun s x => !x.first || (match s.cb? x.key cb.toNat with
      | some b => (b.slotAt? (x.g.pairAt vs.toNat x.low)).elim false b.taken.contains
      | none => false))
    fun x u => if x.first then
        ((u.seats 0).foldl (fun v y => v.relEntry (.cbpopFree vs cb stream tok) y [stream.toNat]) u).putRel x
          (.free (coreOf x.key) cb.toNat (((u.cb? x.key cb.toNat).bind fun b => b.slotAt? (x.g.pairAt vs.toNat x.low)).getD 0))
          ((u.seats 0).map (·.key)) ((u.seats 0).flatMap fun y => u.openIn y.key stream.toNat) (some stream.toNat) tok.toNat
      else u) ∧
  (∀ (b : CBuf) a n, b.slotAt? a = some n → n < b.slots ∧ hndOf a = hndOf b.base ∧ offOf a = offOf b.base + n * b.size) ∧
  (∀ vd cb, Acts (.cbpopStat vd cb) (fun s x => (s.cb? x.key cb.toNat).isSome) fun x u =>
    ((u.cb? x.key cb.toNat).map fun b => (u.addPend x 0 [vd.toNat, vd.toNat + 1] [] x.act
      (outWord vd.toNat (BitVec.ofNat 64 (b.free + b.filled * 2 ^ 16 + b.slots * 2 ^ 32))) false true 0).2).getD u) ∧
  (∀ s i cb, (∃ vd look tok, i = .cbpushRes vd cb look tok ∨ i = .cbpopTake vd cb look tok) ∨
      (∃ vs : VNum, ∃ stream tok, i = .cbpushCommit vs cb stream tok ∨ i = .cbpopFree vs cb stream tok) →
    issues i s = true → (∀ x ∈ s.seats 0, x.first = true → s.cb? x.key cb.toNat = none) →
    Traps i s (((s.seats 0).filter (·.first)).map fun x => (x.key, flaw 0x0C 8 x.act (BitVec.ofNat 64 cb.toNat)))) ∧
  (∀ s vd cb, issues (.cbpopStat vd cb) s = true → (∀ x ∈ s.seats 0, s.cb? x.key cb.toNat = none) →
    Traps (.cbpopStat vd cb) s ((s.seats 0).map fun x => (x.key, flaw 0x0C 8 x.act (BitVec.ofNat 64 cb.toNat)))) ∧
  (∀ s i cb (held : CBuf → List Nat), ∀ vs : VNum, (∃ stream tok, (i = .cbpushCommit vs cb stream tok ∧ held = CBuf.reserved) ∨
      (i = .cbpopFree vs cb stream tok ∧ held = CBuf.taken)) →
    issues i s = true → (∀ x ∈ s.seats 0, x.first = true → ∃ b, s.cb? x.key cb.toNat = some b ∧
      ((b.slotAt? (x.g.pairAt vs.toNat x.low)).elim false fun n => (held b).contains n) = false) →
    Traps i s (((s.seats 0).filter (·.first)).map fun x => let a : Word64 := x.g.pairAt vs.toNat x.low
      (x.key, flaw 0x0C 8 x.act (a <<< 4 ||| BitVec.ofNat 64 cb.toNat)
        ((s.hnd? x.key a).elim 0#64 Handle.attr)))) ∧
  (∀ s cb hnd disp logs size, issues (.cbdef cb hnd disp logs size) s = true →
    let bytes := 2 ^ (size.toNat + 6)
    let at_ := fun (x : Seat) => laneAddr x.g ⟨hnd, none, disp⟩ bytes x.low
    let fits := fun (x : Seat) (h : Handle) => (attrSecure h.attr = true → (s.part (s.partOf x.g)).secure = true) ∧
      offOf (at_ x) % bytes = 0 ∧ 2 ≤ attrSpace h.attr ∧ attrSpace h.attr ≤ 4
    ((∀ x ∈ s.seats 0, x.first = true → ∃ h, s.hnd? x.key (at_ x) = some h ∧ fits x h ∧
        attrBytes h.attr < offOf (at_ x) + 2 ^ (logs.toNat + 1) * bytes) →
      Traps (.cbdef cb hnd disp logs size) s (((s.seats 0).filter (·.first)).map fun x =>
        (x.key, flaw 0x0C 8 x.act (at_ x <<< 4 ||| BitVec.ofNat 64 cb.toNat)
          ((s.hnd? x.key (at_ x)).elim 0#64 Handle.attr)))) ∧
    ((∀ x ∈ s.seats 0, x.first = true → (s.core (coreOf x.key)).cbBusy cb.toNat = true ∧ ∃ h, s.hnd? x.key (at_ x) = some h ∧
        fits x h ∧ offOf (at_ x) + 2 ^ (logs.toNat + 1) * bytes ≤ attrBytes h.attr) →
      Traps (.cbdef cb hnd disp logs size) s (((s.seats 0).filter (·.first)).map fun x =>
        (x.key, flaw 0x0C 8 x.act (BitVec.ofNat 64 cb.toNat))))) ∧
  (∀ vd (va : VNum), Computes (.hdescAttr vd va) fun s x => outReg 2 vd.toNat (.ofFn fun l => intPair
    (match s.handleAt (s.partOf x.g) (coreOf x.key) (x.g.pairAt va.toNat l) with
      | some h => if attrValid h.attr = true then h.attr else 0#64
      | none => 0#64))) ∧
  (∀ vd (va : VNum), Computes (.hdescBind vd va) fun s x => outReg 2 vd.toNat (.ofFn fun l => intPair
    (match s.boundTo x.g.launch (x.g.pairAt va.toNat l) with
      | .token _ id => BitVec.ofNat 64 (2 ^ 62 + id % 4096 * 2 ^ 50)
      | .barrier _ g => BitVec.ofNat 64 (2 * 2 ^ 62 + g % 4096 * 2 ^ 50)
      | _ => 0#64))) ∧
  (∀ vd (va : VNum), Computes (.hdescLoc vd va) fun s x => outReg 2 vd.toNat (.ofFn fun l => intPair (
    let a := x.g.pairAt va.toNat l
    match s.handleAt (s.partOf x.g) (coreOf x.key) a with
      | some h => if attrValid h.attr = true ∧ offOf a < attrBytes h.attr then
            let p := h.phys (offOf a) / 65536
            BitVec.ofNat 64 (2 ^ 63 + (if attrSpace h.attr = 0 then s.stackOf p * 2 ^ 60 else 0) +
              (if attrSpace h.attr = 0 ∧ (s.moving.any fun m => m.1 == p) = true then 2 ^ 59 else 0) + offOf a / 65536)
          else BitVec.ofNat 64 (offOf a / 65536)
      | none => BitVec.ofNat 64 (offOf a / 65536)))) ∧
  (∀ s x i vd (va : VNum) y z, i = .hdescAttr vd va ∨ i = .hdescBind vd va ∨ i = .hdescLoc vd va → FullWrite i s x →
    x.g.reg va.toNat = .uniform y → x.g.reg (va.toNat + 1) = .uniform z → ∃ w, Leaves i s x vd (.uniform w)) ∧
  (∀ vd ah, Computes (.hdescGeta vd ah) fun _ x => outReg 2 vd.toNat (.uni (intPair (Tab.at x.g.hregs 0#64 ah.toNat)))) ∧
  (∀ ah (va : VNum), Acts (.hdescSeta ah va) (fun _ _ => true) fun x u => u.updGang x.key fun g =>
    { g with hregs := Tab.put g.hregs ah.toNat (x.g.pairAt va.toNat x.low) })

/-- R156, R158, R452: the FP dot products and the element format under .SLOT. -/
def Obligations.FloatDots : Prop :=
  (∀ s ty sat d a p b c fmt mk f, issues (.dot4 ty sat d a p b c fmt mk) s = true → sat = false →
    let v := fun (x : Seat) => Lanes.map3 (dotFpLane f 8 4) (x.src 1 a p) (x.src 1 b .none) (x.src 1 c .none)
    (∀ x ∈ s.seats mk.toNat, dot4Elem ty (slotAfmt (s.slotOf x.g.launch fmt.toNat)) = some (.fp f) ∧ Trusted x .f32 (v x)) →
    Completes (.dot4 ty sat d a p b c fmt mk) s (s.counted mk.toNat) (fun x => x.give (outReg 1 d.toNat (v x))) fun _ => []) ∧
  (∀ s ty sat d a p b c fmt mk f, issues (.dot8 ty sat d a p b c fmt mk) s = true → sat = false →
    let v := fun (x : Seat) => Lanes.map3 (dotFpLane f 4 8) (x.src 1 a p) (x.src 1 b .none) (x.src 1 c .none)
    (∀ x ∈ s.seats mk.toNat, dot8Elem ty (slotAfmt (s.slotOf x.g.launch fmt.toNat)) = some (.fp f) ∧ Trusted x .f32 (v x)) →
    Completes (.dot8 ty sat d a p b c fmt mk) s (s.counted mk.toNat) (fun x => x.give (outReg 1 d.toNat (v x))) fun _ => []) ∧
  (∀ s sat d a p b c fmt mk signed, issues (.dot4 .slot sat d a p b c fmt mk) s = true →
    (∀ x ∈ s.seats mk.toNat, slotAfmt (s.slotOf x.g.launch fmt.toNat) = if signed = true then 9 else 10) →
    Completes (.dot4 .slot sat d a p b c fmt mk) s (s.counted mk.toNat) (fun x => x.give (outReg 1 d.toNat
      (Lanes.map3 (dotAs signed sat 8 4) (x.src 1 a p) (x.src 1 b .none) (x.src 1 c .none)))) fun _ => []) ∧
  (∀ s sat d a p b c fmt mk signed, issues (.dot8 .slot sat d a p b c fmt mk) s = true →
    (∀ x ∈ s.seats mk.toNat, slotAfmt (s.slotOf x.g.launch fmt.toNat) = if signed = true then 11 else 12) →
    Completes (.dot8 .slot sat d a p b c fmt mk) s (s.counted mk.toNat) (fun x => x.give (outReg 1 d.toNat
      (Lanes.map3 (dotAs signed sat 4 8) (x.src 1 a p) (x.src 1 b .none) (x.src 1 c .none)))) fun _ => []) ∧
  (∀ k, dot4Elem .slot k = (if k = 4 then some (.fp .e4m3) else if k = 5 then some (.fp .e5m2) else if k = 6 then some (.fp .e3m2)
      else if k = 7 then some (.fp .e2m3) else if k = 9 then some (.int true) else if k = 10 then some (.int false) else none) ∧
    dot8Elem .slot k = (if k = 8 then some (.fp .e2m1) else if k = 11 then some (.int true)
      else if k = 12 then some (.int false) else none)) ∧
  (∀ k, dot4Elem .e4m3 k = some (.fp .e4m3) ∧ dot4Elem .e5m2 k = some (.fp .e5m2) ∧ dot4Elem .e3m2 k = some (.fp .e3m2) ∧
    dot4Elem .e2m3 k = some (.fp .e2m3) ∧ dot8Elem .e2m1 k = some (.fp .e2m1)) ∧
  (∀ s i mk fmt, (∃ d a p, ∃ b c : VNum, i = .dot4 .slot false d a p b c fmt mk ∧
      ∀ x ∈ s.seats mk.toNat, dot4Elem .slot (slotAfmt (s.slotOf x.g.launch fmt.toNat)) = none) ∨
    (∃ d a p, ∃ b c : VNum, i = .dot8 .slot false d a p b c fmt mk ∧
      ∀ x ∈ s.seats mk.toNat, dot8Elem .slot (slotAfmt (s.slotOf x.g.launch fmt.toNat)) = none) ∨
    (∃ d a p, ∃ b c : VNum, i = .dot4 .slot true d a p b c fmt mk ∧
      ∀ x ∈ s.seats mk.toNat, ∃ f, dot4Elem .slot (slotAfmt (s.slotOf x.g.launch fmt.toNat)) = some (.fp f)) ∨
    (∃ d a p, ∃ b c : VNum, i = .dot8 .slot true d a p b c fmt mk ∧
      ∀ x ∈ s.seats mk.toNat, ∃ f, dot8Elem .slot (slotAfmt (s.slotOf x.g.launch fmt.toNat)) = some (.fp f)) →
    issues i s = true → Traps i s (s.all mk.toNat 0x01 6 (BitVec.ofNat 64 fmt.toNat) 0#64)) ∧
  (∀ f e n a b c, (∃ i, i < n ∧ (decodeFp f (a.1.val.toNat / 2 ^ (e * i) % 2 ^ (fmtOf f).bits) = .nan ∨
      decodeFp f (b.1.val.toNat / 2 ^ (e * i) % 2 ^ (fmtOf f).bits) = .nan)) →
    imgValue .f32 (dotFpLane f e n a b c) = .nan) ∧
  (∀ f e n a b c, let el := fun (p : Pair) (i : Nat) => decodeFp f (p.1.val.toNat / 2 ^ (e * i) % 2 ^ (fmtOf f).bits)
    let prods : List Fp := (List.range n).map fun i => Fp.mul (el a i) (el b i)
    let x := Fp.sum (imgValue .f32 c :: prods)
    let xs : List Opr := oprOf .f32 c :: prods.map fun v => ⟨v, false, 26⟩
    (imgValue .f32 (dotFpLane f e n a b c)).Is (roundOdd .f32 x) ∧
      AddTrust .f32 xs (minKef .f32 (infsOf xs)) x (dotFpLane f e n a b c)) ∧
  (∀ (xs : List Fp), ((∃ x ∈ xs, x.isNan = true) ∨ (.inf true ∈ xs ∧ .inf false ∈ xs) → Fp.sum xs = .nan) ∧
    ∀ sg, Fp.inf sg ∈ xs → (∀ x ∈ xs, x.isNan = false ∧ x ≠ .inf (!sg)) → Fp.sum xs = .inf sg) ∧
  (∀ (sg : Bool) (x : Fp), x.isZero = true → Fp.mul (.inf sg) x = .nan ∧ Fp.mul x (.inf sg) = .nan) ∧
  (∀ (f : FpCls) a b c u w, f = .e3m2 ∨ f = .e2m3 → u &&& 0x3F3F3F3F#32 = a.1.val &&& 0x3F3F3F3F#32 →
    w &&& 0x3F3F3F3F#32 = b.1.val &&& 0x3F3F3F3F#32 →
    dotFpLane f 8 4 (⟨u, a.1.tag⟩, a.2) (⟨w, b.1.tag⟩, b.2) c = dotFpLane f 8 4 a b c) ∧
  (dotFpLane .e4m3 8 4 (⟨0x30B8403C#32, 0x1F#8⟩, zeroImg) (⟨0x48443040#32, 0x1F#8⟩, zeroImg) (⟨0x3E800000#32, 0x1A#8⟩, zeroImg)).1
    = ⟨0x40500000#32, 0x1A#8⟩

/-- R258 over R257 and R260: reads see the writes in the path above their location; R261-R264, R276: where a write goes from its window path. That a location takes in the writes of several granules whole or not at all, and that a tagged write whose tag plane is of another class reaches every location at once, are the model's choices (log 111). -/
def Obligations.OrderSteps : Prop :=
  (∀ (s : State) who q c cells a b, Memory.wf s.mem = true → q < 4 → (cells.map (·.1)).Nodup → (a, b) ∈ cells →
    (∀ w ∈ s.log, ∀ g, w.num g ≤ Tab.at s.top 0 g) →
    (∀ p k g, g < 2 ^ 35 → s.heldAt (locBase p k) g ≤ Tab.at s.top 0 g) → (∀ lin prop, c = .dev lin prop → a < 2 ^ 39) →
    (s.writeCells who q c cells).readCell who.pno q c a = b) ∧
  (∀ (s : State) who q cells, s.writeCells who q .plain cells =
    if cells = [] then s else { s with mem := Memory.sets s.mem cells }) ∧
  (∀ (s : State) who q lin prop cells, prop ≠ 2 → (s.writeCells who q (.dev lin prop) cells).mem = s.mem) ∧
  (∀ (s : State) who q link cells, cells ≠ [] → ∃ h, s.writeCells who q (.tso link) cells = { s with hostQ := s.hostQ ++ [h] } ∧
    h.gang = who.gang ∧ h.link = link ∧ h.pno = who.pno) ∧
  (∀ s w, Memory.wf s.mem = true → w ∈ s.log → (∀ x ∈ s.log, x.id = w.id → x = w) → Tab.rising w.cells = true → Tab.rising w.nums = true →
    (∀ x ∈ s.log, ∀ g, 0 < w.num g → x.num g = w.num g → x = w) →
    (∀ x ∈ s.log, x.prop = w.prop → x ≠ w → x.nums.length ≤ 1) →
    ∀ loc i, ((i = .drain w.id ∧ w.inPath = true ∧ s.oldest w = true ∧ w.prop ≠ 2 ∧ loc = locBase w.prop w.quarter) ∨
      (∃ q, q < 4 ∧ i = .propagate w.id q ∧ w.inPath = false ∧ w.prop = 1 ∧ loc = quarterBase q)) →
    ∃ t, exec i s = .next t ∧ t = { s with mem := t.mem, held := t.held, log := t.log, bufs := t.bufs } ∧
      (∀ a b, Tab.find? w.cells a = some b → s.heldAt loc (a / 16) < w.num (a / 16) → Memory.get t.mem (loc + a) = b) ∧
      ∀ a, (∀ g, 0 < w.num g → ¬ (loc + 16 * g ≤ a ∧ a < loc + 16 * g + 16)) → Memory.get t.mem a = Memory.get s.mem a) ∧
  (∀ s w, w ∈ s.log → (∀ x ∈ s.log, x.id = w.id → x = w) → Tab.rising w.nums = true →
    ∀ loc i, ((i = .drain w.id ∧ w.inPath = true ∧ s.oldest w = true ∧ w.prop ≠ 2 ∧ loc = locBase w.prop w.quarter) ∨
      (∃ q, q < 4 ∧ i = .propagate w.id q ∧ w.inPath = false ∧ w.prop = 1 ∧ loc = quarterBase q)) →
    let whole := fun (u : State) (x : GWrite) =>
      (∀ gk ∈ x.nums, gk.2 ≤ u.heldAt loc gk.1) ∨ ∀ gk ∈ x.nums, u.heldAt loc gk.1 < gk.2
    (∀ x ∈ s.log, x.prop = w.prop → whole s x) →
    ∃ t, exec i s = .next t ∧ (∀ gk ∈ w.nums, gk.2 ≤ t.heldAt loc gk.1) ∧ ∀ x ∈ s.log, x.prop = w.prop → whole t x) ∧
  (∀ s w, Memory.wf s.mem = true → w ∈ s.log → (∀ x ∈ s.log, x.id = w.id → x = w) → Tab.rising w.cells = true → w.prop = 2 →
    ∀ q i, ((i = .drain w.id ∧ w.inPath = true ∧ s.oldest w = true ∧ q = w.quarter) ∨
      (i = .replicate w.id q ∧ q < 4 ∧ w.inPath = false ∧ w.got.getLsbD q = false)) →
    ∃ t, exec i s = .next t ∧ t = { s with mem := t.mem, log := t.log, bufs := t.bufs } ∧
      (∀ a b, Tab.find? w.cells a = some b → Memory.get t.mem (quarterBase q + a) = b) ∧
      ∀ a, (∀ c ∈ w.cells, a ≠ quarterBase q + c.1) → Memory.get t.mem a = Memory.get s.mem a) ∧
  (∀ s pno h, s.hostQ.find? (fun h => h.pno == pno) = some h →
    (s.links.getLsbD h.link = true → exec (.hostStoreDrain pno) s =
      .next { s with mem := Memory.sets s.mem h.cells, atoms := s.atoms.map (·.behind h.cells), hostQ := s.hostQ.erase h }) ∧
    (s.links.getLsbD h.link = false → ∃ t, exec (.hostStoreDrain pno) s = .next t ∧
      t = { s with hostQ := s.hostQ.erase h, mgmt := { s.mgmt with fablog := t.mgmt.fablog } })) ∧
  (∀ (r : AtomReq) cells, (r.old = none → r.behind cells = r) ∧ ∀ bs, r.old = some bs → ∃ bs', r.behind cells = { r with old := some bs' } ∧
    ∀ (i a : Nat) b, r.piece.cells[i]? = some a → bs[i]? = some b → bs'[i]? = some ((Tab.find? cells a).getD b))

/-- R260: one piece of the head entry, in one step. R480 and R504 for errors on the way. That a completion which does not come leaves host memory itself without a poison mark is the model's choice (log 128). -/
def Obligations.PiecesPerform : Prop :=
  (∀ s core ctx st n key g e rest p, s.keyOf core ctx = some key → s.gang? key = some g → g.stream st = e :: rest → st < 16 →
    byPieces e.instr = true → g.gated e = false → e.todo[n]? = some p → e.mayPerform n p = true →
    (e.checked = true ∨ s.conflicts (s.partOf g) e = []) → s.poison = [] → (∀ sz d h m x y z, e.instr ≠ .tmov sz d h m x y z) →
    (∀ vd va l x k, e.instr ≠ .ctxload vd va l x k) → (∀ link, p.cls ≠ .tso link) → s.atomHolds p.cells = false →
    (e.todo.length ≠ 1 ∨ s.bufs = [] ∨ ∀ kg ∈ s.gangs, kg.2.owed = []) →
    ∃ t, exec (.performPiece (.stream core ctx st) n .none) s = .next t ∧
      (e.todo.length ≠ 1 → ∃ g' e', t.gang? key = some g' ∧ g'.stream st = e' :: rest ∧ e'.todo = e.todo.eraseIdx n ∧
        e' = { e with todo := e'.todo, checked := true, got := e'.got, gotTag := e'.gotTag, bad := e'.bad } ∧
        g' = { g with streams := g'.streams } ∧ (p.wr = true → e'.got = e.got ∧ e'.bad = e.bad)) ∧
      (p.wr = true → p.tagCells = [] → p.cls = .plain →
        t.mem = Memory.sets s.mem (List.zip p.cells p.data) ∧ t.log = s.log ∧ t.hostQ = s.hostQ) ∧
      (∀ lin prop, p.wr = true → p.tagCells = [] → p.cls = .dev lin prop → prop ≠ 2 → p.cells ≠ [] →
        p.data.length = p.cells.length → p.cells.Nodup → t.mem = s.mem ∧ ∃ w, t.log = s.log ++ [w] ∧ w.inPath = true ∧ w.lin = lin ∧ w.prop = prop ∧
        w.quarter = quarterOf (coreOf key) ∧ w.gang = key ∧ (∀ a b, (a, b) ∈ List.zip p.cells p.data → Tab.find? w.cells a = some b) ∧
        ∀ a ∈ p.cells, w.num (a / 16) = Tab.at s.top 0 (a / 16) + 1 ∧ Tab.at t.top 0 (a / 16) = w.num (a / 16)) ∧
      (p.wr = false → t.mem = s.mem ∧ t.log = s.log ∧ t.hostQ = s.hostQ ∧
        (e.todo.length ≠ 1 → ∃ g' e', t.gang? key = some g' ∧ g'.stream st = e' :: rest ∧
          (∀ i, i < p.cells.length → Tab.at e'.got 0#8 (datumKey p.lane (p.pos + i)) =
            (s.readPiece (s.partOf g) (quarterOf (coreOf key)) p).1.getD i 0#8) ∧
          ∀ i, i < p.tagCells.length → Tab.at e'.gotTag 0#8 (datumKey p.lane (p.tagPos + i)) =
            (s.readPiece (s.partOf g) (quarterOf (coreOf key)) p).2.getD i 0#8))) ∧
  (∀ (s : State) pno q p, (p.tagCells = [] ∨ p.cls = .plain ∨ (∃ lin, p.cls = .dev lin 2) ∨ p.tagCls ≠ p.cls) →
    s.readPiece pno q p = (p.cells.map (s.readCell pno q p.cls), p.tagCells.map (s.readCell pno q p.tagCls))) ∧
  (∀ s agent n p, s.agentPiece? agent n = some p →
    let waits := p.space = 1 ∧ (p.wr = false ∨ ∃ pno cluster, agent = .atomic pno cluster)
    (waits → exec (.completionTimeout agent n) s = exec (.performPiece agent n .timeout) s) ∧
    (¬ waits → exec (.completionTimeout agent n) s = .next s)) ∧
  (∀ s core ctx st n key g e rest p, s.keyOf core ctx = some key → s.gang? key = some g → g.stream st = e :: rest → st < 16 →
    byPieces e.instr = true → g.gated e = false → e.todo[n]? = some p → e.todo.length ≠ 1 →
    (e.checked = true ∨ s.conflicts (s.partOf g) e = []) → (∀ sz d h m x y z, e.instr ≠ .tmov sz d h m x y z) →
    p.cls = .plain → p.wr = false → p.space = 1 → s.atomHolds p.cells = false →
    ∃ t g' e', exec (.completionTimeout (.stream core ctx st) n) s = .next t ∧
      t = { s with
        gangs := t.gangs
        used := t.used
        mgmt := { s.mgmt with errlog := t.mgmt.errlog, irqs := t.mgmt.irqs, aer := t.mgmt.aer } } ∧
      t.gang? key = some g' ∧ g' = { g with streams := g'.streams } ∧ g'.stream st = e' :: rest ∧ e'.todo = e.todo.eraseIdx n ∧
      (Tab.find? e'.bad p.lane).isSome = true) ∧
  (∀ (s : State) cells a, a ∈ cells → (s.poisonCells cells).poisoned [a] = true) ∧
  (∀ s agent n fails p lin prop, s.agentPiece? agent n = some p → p.cls = .dev lin prop → p.cells ≠ [] →
    (4 ≤ fails → exec (.interfaceRetry agent n fails) s = exec (.performPiece agent n .link) s) ∧
    (fails = 0 → exec (.interfaceRetry agent n fails) s = .next s) ∧
    (0 < fails → fails < 4 → ∃ t, exec (.interfaceRetry agent n fails) s = .next t ∧
      t = { s with mgmt := { s.mgmt with errlog := t.mgmt.errlog, irqs := t.mgmt.irqs } }))

/-- R244, R245, R266: requests at the home service gang. -/
def Obligations.AtomicsPerform : Prop :=
  (∀ s core ctx st key g e rest, s.keyOf core ctx = some key → s.gang? key = some g → g.stream st = e :: rest → e.todo ≠ [] →
    isAtomic e.instr = true → e.sent = false → g.gated e = false → (∀ p ∈ e.todo, ∀ link, p.cls ≠ .tso link) →
    s.conflicts (s.partOf g) e = [] →
    ∃ t g', exec (.atomicSend core ctx st) s = .next t ∧ t = { s with gangs := t.gangs, atoms := t.atoms } ∧
      t.atoms = s.atoms ++ e.todo.map (fun p => ⟨key, e.id, p.lane, p, s.homeOf (s.partOf g) p.space (p.cells.headD 0), none⟩) ∧
      t.gang? key = some g' ∧ g'.stream st = { e with sent := true, checked := true } :: rest) ∧
  (∀ s pno cluster r g st e op sz vs m stn tok mk, Memory.wf s.mem = true → s.poison = [] →
    s.atoms.find? (fun r => r.home == cluster && ((s.gang? r.gang).elim false fun g => s.partOf g == pno)) = some r →
    s.gang? r.gang = some g → g.streams.findSome? (fun st => (st.2.find? (fun e => e.id == r.entry)).map fun e => (st.1, e)) = some (st, e) →
    e.instr = .atom op sz vs m stn tok mk → sizeCls? sz = none → r.piece.cls = .plain → r.piece.tagCells = [] → r.piece.tagCls = .plain →
    (s.bufs = [] ∨ ∀ kg ∈ s.gangs, kg.2.owed = []) → s.atomHolds r.piece.cells (some r) = false →
    (r.piece.space = 1 → isAtomicOp e.instr = true ∨ r.old ≠ none) →
    let n := sizeBytes sz
    let old := leNat (r.old.getD (r.piece.cells.map (Memory.get s.mem)))
    let xs := imgBytes (Tab.at e.vals [] r.piece.lane)
    let v := leNat (xs.take n)
    let new := match op with
      | .add => (old + v) % 2 ^ (8 * n)
      | .min => min old v
      | .max => max old v
      | .land => old &&& v
      | .lor => old ||| v
      | .lxor => old ^^^ v
      | .swap => v
      | .cas => if old = leNat ((xs.drop n).take n) then v else old
    ∃ t, exec (.atomicPerform pno cluster) s = .next t ∧ t.mem = Memory.sets s.mem (List.zip r.piece.cells (leBytes n new)) ∧
      t.atoms = s.atoms.erase r ∧ t.log = s.log ∧ t.poison = s.poison) ∧
  (∀ s pno cluster r g st e, s.nextAtom pno cluster = some r → s.gang? r.gang = some g → g.entry? r.entry = some (st, e) →
    r.piece.cls = .plain → r.piece.space = 1 → isAtomicOp e.instr = false → r.old = none →
    s.atomHolds r.piece.cells (some r) = false →
    exec (.atomicPerform pno cluster) s = .next { s with atoms := s.atoms.map fun x =>
      if x = r then { r with old := some (r.piece.cells.map (Memory.get s.mem)) } else x }) ∧
  (∀ s pno cluster r g st e, s.nextAtom pno cluster = some r → s.gang? r.gang = some g → g.entry? r.entry = some (st, e) →
    r.piece.cls = .plain → s.atomHolds r.piece.cells (some r) = true → exec (.atomicPerform pno cluster) s = .next s) ∧
  (∀ op sz vs m stn tok mk, isAtomicOp (.atom op sz vs m stn tok mk) = true ↔
    (op = .add ∨ op = .swap ∨ op = .cas) ∧ (sz = .w32 ∨ sz = .w64)) ∧
  (∀ s core ctx st key g e rest k m, s.keyOf core ctx = some key → s.gang? key = some g → g.stream st = e :: rest →
    e.instr = .fence k m → g.gated e = false →
    Tab.rising g.streams = true → (∀ n, n < 16 → (k = .s → m.getLsbD n = true) → ((g.stream n).head?.map (·.id)) = some e.id) →
    (k ≠ .s → s.hasUndrained key none = false) →
    ∃ t g', exec (.fencePerform core ctx st) s = .next t ∧ t = { s with gangs := t.gangs } ∧ t.gang? key = some g' ∧
      g' = { g with streams := g'.streams } ∧ ∀ n, g'.stream n =
        if n < 16 ∧ (k = .s → m.getLsbD n = true) then (g.stream n).drop 1 else g.stream n)

/-- R248, R249, R268-R270, R371: synchronisation objects. -/
def Obligations.ReleasesAndTokens : Prop :=
  (∀ s r, s.rels.find? (fun (x : Rel) => x.id == r.id) = some r → r.taken = false → (s.part r.pno).inn = true → s.gateOf r = true →
    (∀ id, r.kind = .token id → ∃ t, exec (.releaseStep r.id) s = .next t ∧
      t = { s with bufs := t.bufs, rels := t.rels, gangs := t.gangs } ∧
      (∀ k g, s.gang? k = some g → Tab.rising g.streams = true → ∃ g', t.gang? k = some g' ∧ g' = { g with streams := g'.streams } ∧
        ∀ st, g'.stream st = if k ∈ r.keys then (g.stream st).filter (fun e => e.id != r.id) else g.stream st) ∧
      t.rels = s.rels.map (fun (x : Rel) => if x.id = r.id then { x with taken := true } else x) ∧
      (t.buf (.token r.pno id)).next = (s.buf (.token r.pno id)).next + 1 ∧
      (∀ w ∈ s.log, w.gang = r.gang → w.op = none → w.obj = .token r.pno id →
        ∃ n, (n, w.id) ∈ (t.buf (.token r.pno id)).writes)) ∧
    (∀ k g, r.kind = .barrier k → s.gang? r.gang = some g → r.tok = 0 → ∃ t g', exec (.releaseStep r.id) s = .next t ∧
      t.gang? r.gang = some g' ∧ g' = { g with rel := g'.rel, streams := g'.streams } ∧ Tab.at g'.rel 0 k = Tab.at g.rel 0 k + 1 ∧ t.mem = s.mem ∧
      t.rels = s.rels.filter (fun (x : Rel) => x.id != r.id)) ∧
    (∀ core cb n, (r.kind = .commit core cb n ∨ r.kind = .free core cb n) → ∃ t, exec (.releaseStep r.id) s = .next t ∧
      (s.bufs = [] ∨ r.tok = 0 → t.mem = s.mem) ∧ t.rels = s.rels.filter (fun (x : Rel) => x.id != r.id) ∧
      t.cores = ((s.updCb core cb fun b => if r.kind = .commit core cb n then b.commitSlot n else b.freeSlot n)).cores)) ∧
  (∀ s pno id t0 t1 key excl tok g, Tab.find? (s.part pno).tokens id = some t0 → t0.next? = some ((key, excl, tok), t1) →
    (s.part pno).inn = true → s.gang? key = some g →
    ∃ t g', exec (.tokenGrant pno id) s = .next t ∧ Tab.find? (t.part pno).tokens id = some t1 ∧ t.gang? key = some g' ∧
      g' = { g with toks := (g.tokSub tok).toks, acqs := g.acqs.erase id, owed := g'.owed } ∧ (s.bufs = [] → t.mem = s.mem)) ∧
  (∀ (t0 : Tok) key excl tok rest, t0.reqs = (key, excl, tok) :: rest → (∀ h ∈ t0.held, ∀ r ∈ t0.reqs, h.1 ≠ r.1) →
    ((excl = true → t0.held = []) ∧ (excl = false → ∀ h ∈ t0.held, h.2 = false) →
      t0.next? = some ((key, excl, tok), ⟨t0.held ++ [(key, excl)], rest⟩)) ∧
    (¬ ((excl = true → t0.held = []) ∧ (excl = false → ∀ h ∈ t0.held, h.2 = false)) → t0.next? = none)) ∧
  (∀ (t0 : Tok) r, t0.reqs = [r] → (∃ b, (r.1, b) ∈ t0.held) → t0.next? = some (r, { t0 with reqs := [] })) ∧
  (∀ s r id, s.rels.find? (fun (x : Rel) => x.id == r.id) = some r → r.kind = .token id → r.taken = true → (s.part r.pno).inn = true →
    (∀ g, s.gang? r.gang = some g → Tab.at g.owed [] r.tok = []) →
    ∃ t, exec (.tokenReleaseRecord r.id) s = .next t ∧ t = { s with parts := t.parts, gangs := t.gangs, rels := t.rels } ∧
      t.rels = s.rels.filter (fun (x : Rel) => x.id != r.id) ∧
      ∀ t0, Tab.find? (s.part r.pno).tokens id = some t0 → ∃ t1, Tab.find? (t.part r.pno).tokens id = some t1 ∧ t1.reqs = t0.reqs ∧
        ∀ k, (t1.held.map (·.1)).count k = (t0.held.map (·.1)).count k - if k = r.gang then 1 else 0)

/-- R279, R280, R287-R295, R475 at issue. -/
def Obligations.EngineWords : Prop :=
  (∀ dk srcCb cv slot q len fmt stream tok, let i : Instr := .xcopy dk srcCb cv slot q len fmt stream tok
    Acts i (fun s x => !s.claimPending x.key (s.names x.g.launch i)) fun x u =>
      u.putStore x stream.toNat tok.toNat { u.newEntry i x with
        vals := x.quads q
        maps := u.mapsFor (u.partOf x.g) (coreOf x.key) ((x.quads q).flatMap fun lq =>
          (if srcCb then [] else [quadWord lq.2 0]) ++ (if dk = .addr then [quadWord lq.2 2] else [])) }) ∧
  (∀ fillB q len sa sb acc fmta fmtb kblka kblkb tok, let i : Instr := .xcopym fillB q len sa sb acc fmta fmtb kblka kblkb tok
    Acts i (fun s x => !s.claimPending x.key (s.names x.g.launch i)) fun x u =>
      u.putStore x (quadNat (x.lowQuad q) 3 / 2 ^ 20 % 16) tok.toNat { u.newEntry i x with
        vals := x.quads q
        maps := u.mapsFor (u.partOf x.g) (coreOf x.key) ((x.quads q).flatMap fun lq => [quadWord lq.2 0]) }) ∧
  (∀ (vd : VNum) look tok, let gives := fun (x : Seat) (w : Word64) (u : State) =>
      (u.addPend x look.toNat [vd.toNat, vd.toNat + 1] [] x.act (outWord vd.toNat w) false true tok.toNat).2
    (∀ eng, Acts (.xseqDone eng vd look tok) (fun _ _ => true) fun x u =>
      gives x (BitVec.ofNat 64 (u.engine (coreOf x.key) (engCode eng)).done) u) ∧
    (∀ eng, Acts (.xseqIssued eng vd look tok) (fun _ _ => true) fun x u =>
      gives x (BitVec.ofNat 64 (u.engine (coreOf x.key) (engCode eng)).issued) u) ∧
    (∀ line, Acts (.xseqLine line vd look tok) (fun _ _ => true) fun x u =>
      gives x ((Tab.at (u.core (coreOf x.key)).lc 0#32 line.toNat).setWidth 64) u) ∧
    ∀ s, issues (.xseqFault vd look tok) s = true → Completes (.xseqFault vd look tok) s
      ((s.seats 0).foldl (fun u x => (gives x (s.engine (coreOf x.key) 0).fault u).updEngine (coreOf x.key) 0
        fun e => { e with fault := 0#64 }) (s.counted 0)) (fun _ => []) fun _ => []) ∧
  (∀ eng (vs : VNum), Acts (.xwait eng vs) (fun s x =>
      decide ((x.g.pairAt vs.toNat x.low0).toNat ≤ (s.engine (coreOf x.key) (engCode eng)).done % 2 ^ 64)) fun x u =>
    u.observe x.key (coreOf x.key) (engCode eng) (x.g.pairAt vs.toNat x.low0).toNat) ∧
  (∀ src line, Acts (.evrouteSet src line) (fun _ _ => true) fun x u => if x.first then u.updCore (coreOf x.key) fun c =>
    { c with cells := Tab.put c.cells src.toNat (Tab.at c.cells 0#16 src.toNat ||| BitVec.ofNat 16 (2 ^ line.toNat)) } else u) ∧
  (∀ src line, Acts (.evrouteClr src line) (fun _ _ => true) fun x u => if x.first then u.updCore (coreOf x.key) fun c =>
    { c with cells := Tab.put c.cells src.toNat (Tab.at c.cells 0#16 src.toNat &&& ~~~BitVec.ofNat 16 (2 ^ line.toNat)) } else u) ∧
  (∀ sink line, Acts (.evrouteGate sink line) (fun _ _ => true) fun x u => if x.first then u.updCore (coreOf x.key) fun c =>
    { c with gates := Tab.put c.gates sink.toNat ⟨line.toNat, Tab.at c.lc 0#32 line.toNat⟩ } else u) ∧
  (∀ sink, Acts (.evrouteOpen sink) (fun _ _ => true) fun x u => if x.first then u.updCore (coreOf x.key) fun c =>
    { c with gates := Tab.del c.gates sink.toNat } else u) ∧
  (∀ line, Acts (.evwait line) (fun s x => decide (0 < (Tab.at (s.core (coreOf x.key)).lc 0#32 line.toNat -
      Tab.at x.g.seen 0#32 line.toNat).toInt)) fun x u => u.consume x.key line.toNat) ∧
  (∀ (s : State) key line g, s.gang? key = some g → s.bufs = [] → ∃ g', (s.consume key line).gang? key = some g' ∧
    g' = { g with seen := g'.seen } ∧ (s.consume key line).mem = s.mem ∧
    ∀ n, Tab.at g'.seen 0#32 n = if n = line then Tab.at g.seen 0#32 n + 1#32 else Tab.at g.seen 0#32 n) ∧
  (∀ line, Acts (.evwaitSync line) (fun _ _ => true) fun x u => u.updGang x.key fun g =>
    { g with seen := Tab.put g.seen line.toNat (Tab.at (u.core (coreOf x.key)).lc 0#32 line.toNat) }) ∧
  (∀ line count, Acts (.evfire line count) (fun _ _ => true) fun x u => u.updCore (coreOf x.key) fun c =>
    { c with lc := Tab.put c.lc line.toNat (Tab.at c.lc 0#32 line.toNat + count.setWidth 32) }) ∧
  (∀ (c : Core) src op line, line < 16 → Tab.at (c.pulse src op).lc 0#32 line =
    (if (Tab.at c.cells 0#16 src).getLsbD line = true then Tab.at c.lc 0#32 line + 1#32 else Tab.at c.lc 0#32 line)) ∧
  (∀ (c : Core) src op, c.pulse src op = { c with lc := (c.pulse src op).lc, pulses := (c.pulse src op).pulses })

/-- R299-R303, R316-R318, R321, R461, R462 at issue. The model's choices: where the unit holds no lane of member 0 its lowest member acts, and a pair lands in every member (log 97); in the traps of OCLAIM and OREL the other members report the first one's cause with no lanes (log 22). -/
def Obligations.MatrixWords : Prop :=
  (∀ first nslot tmask tok, let n : Names := ⟨claimSlots first.toNat nslot.toNat, tmask⟩
    Acts (.oclaim first nslot tmask tok) (fun s x => !x.first || (
        let c := s.core (coreOf x.key)
        !(c.heldBy (s.leadOf x.key)).meets n && c.claims.all fun k => !s.sameTeam k.gang x.key)) fun x u =>
      if x.first then (u.updCore (coreOf x.key) fun c => { c with claims := c.claims ++ [⟨x.key, n.slots, n.tiles, tok.toNat, []⟩] }).updGang
        x.key fun g => g.tokAdd tok.toNat
      else u) ∧
  (∀ s first nslot tmask tok, let n : Names := ⟨claimSlots first.toNat nslot.toNat, tmask⟩
    issues (.oclaim first nslot tmask tok) s = true →
    let own := fun (x : Seat) => (s.core (coreOf x.key)).heldBy (s.leadOf x.key)
    (∀ x ∈ s.seats 0, x.first = true → (own x).meets n = true) →
    Traps (.oclaim first nslot tmask tok) s (((s.seats 0).filter (·.first)).map fun x => (x.key, flaw 0x13 2 x.act
      (BitVec.ofNat 64 (((own x).slots &&& n.slots).toNat + ((own x).tiles &&& n.tiles).toNat * 2 ^ 32))))) ∧
  (∀ first nslot tmask tok, let n : Names := ⟨claimSlots first.toNat nslot.toNat, tmask⟩
    Acts (.orel first nslot tmask tok) (fun s x => !x.first || (
        let own := (s.core (coreOf x.key)).heldBy (s.leadOf x.key)
        n.slots &&& ~~~own.slots == 0#32 && n.tiles &&& ~~~own.tiles == 0#8)) fun x u =>
      if x.first then (u.updCore (coreOf x.key) fun c =>
        { c with orels := c.orels ++ [⟨x.key, n.slots, n.tiles, tok.toNat, u.opsNaming x.key n⟩] }).updGang x.key fun g => g.tokAdd tok.toNat
      else u) ∧
  (∀ s first nslot tmask tok, let n : Names := ⟨claimSlots first.toNat nslot.toNat, tmask⟩
    issues (.orel first nslot tmask tok) s = true →
    let lack := fun (x : Seat) => let own := (s.core (coreOf x.key)).heldBy (s.leadOf x.key)
      (⟨n.slots &&& ~~~own.slots, n.tiles &&& ~~~own.tiles⟩ : Names)
    (∀ x ∈ s.seats 0, x.first = true → lack x ≠ ⟨0#32, 0#8⟩) →
    Traps (.orel first nslot tmask tok) s (((s.seats 0).filter (·.first)).map fun x => (x.key, flaw 0x13 1 x.act
      (BitVec.ofNat 64 ((lack x).slots.toNat + (lack x).tiles.toNat * 2 ^ 32))))) ∧
  (∀ i tok, ((∃ slot o p b, i = .omap slot o p b tok) ∨ (∃ acc sa sb fa fb ka kb st, i = .mma acc sa sb fa fb ka kb st tok) ∨
      (∃ cls tm, i = .aclr cls tm tok)) →
    Acts i (fun s x => !x.first || !s.claimPending x.key (s.names x.g.launch i)) fun x u =>
      if x.first then u.putPre x (u.newPre i x [] [] tok.toNat none) else u) ∧
  (∀ i q tok, ((∃ slot len, i = .oload q slot len tok) ∨ (∃ acc f r n, i = .aread acc q f r n tok) ∨
      (∃ acc f r n, i = .awrite acc q f r n tok)) →
    Acts i (fun s x => !x.first || !s.claimPending x.key (s.names x.g.launch i)) fun x u =>
      if x.first then u.putPre x (u.newPre i x [(0, x.lowQuad q)] [quadWord (x.lowQuad q) 0] tok.toNat
        (some (quadNat (x.lowQuad q) 3 % 16))) else u) ∧
  (∀ (vd : VNum) acc row0 nrows look tok, let i : Instr := .astat vd acc row0 nrows look tok
    Acts i (fun s x => !x.first || !s.claimPending x.key (s.names x.g.launch i)) fun x u =>
      if x.first then
        let v := (u.addPendUnit look.toNat [vd.toNat, vd.toNat + 1] tok.toNat).2
        v.putPre x { v.newPre i x [] [] 0 none with pend := u.nextId }
      else u) ∧
  (∀ (u : State) x p, (u.putPre x p).mem = u.mem ∧ ((u.putPre x p).core (coreOf x.key)).mxq = (u.core (coreOf x.key)).mxq ++ [p] ∧
    ∀ st g, p.stream = some st → u.gang? x.key = some g → ∃ g' e, (u.putPre x p).gang? x.key = some g' ∧
      g'.stream st = g.stream st ++ [e] ∧ e.id = p.id ∧ e.instr = p.instr ∧ g'.regs = g.regs) ∧
  Acts .mwakeNow (fun _ _ => true) (fun x u => if x.first then u.updCore (coreOf x.key) fun c =>
    if c.gated = 0#4 then c else { c with waking := true } else u) ∧
  (∀ n, Acts (.mwakeIdle n) (fun _ _ => true) fun x u =>
    if x.first then u.updCore (coreOf x.key) fun c => { c with idle := n } else u) ∧
  (∀ s form vd, issues (.mstat form vd) s = true → Completes (.mstat form vd) s
    ((s.seats 0).foldl (fun u x =>
      let v := (u.addPend x 0 [vd.toNat, vd.toNat + 1] [] x.act (outWord vd.toNat (s.mstat x form)) false true 0).2
      if form = .fault then v.updEngine (coreOf x.key) 1 fun e => { e with fault := 0#64 } else v) (s.counted 0))
    (fun _ => []) fun _ => []) ∧
  (∀ (s : State) x, s.mstat x .fault = (s.engine (coreOf x.key) 1).fault) ∧
  (∀ (s : State) x, s.mstat x .claims = BitVec.ofNat 64 (((s.core (coreOf x.key)).heldBy (s.leadOf x.key)).slots.toNat +
    ((s.core (coreOf x.key)).heldBy (s.leadOf x.key)).tiles.toNat * 2 ^ 32 +
    (if (s.core (coreOf x.key)).claims.any (fun k => s.sameTeam k.gang x.key) = true then 2 ^ 40 else 0)))

/-- R304-R316: effects of matrix operations. That an MMA on poisoned operand bytes ends the launch with 0x7D is the model's choice (log 52). -/
def Obligations.MatrixValues : Prop :=
  (∀ (s : State) core o slot orient pitch base tok, o.instr = .omap slot orient pitch base tok → Tab.rising (s.core core).maps = true →
    Tab.at ((s.matrixStart core o).1.core core).maps 0#20 slot.toNat = (if orient = .m then 1#2 else 0#2) ++ pitch ++ base ∧
    (s.matrixStart core o).1.mem = s.mem ∧ ∀ n, n ≠ slot.toNat →
      Tab.at ((s.matrixStart core o).1.core core).maps 0#20 n = Tab.at (s.core core).maps 0#20 n) ∧
  (∀ (s : State) core o cls tmask tok t i j, o.instr = .aclr cls tmask tok → t < 8 → i < 64 → j < 64 →
    ((s.matrixStart core o).1.core core).tileAt t i j = if tmask.getLsbD t = true then
      (if cls = .i then ⟨0#32, 0x1F#8⟩ else ⟨0#32, 0x1A#8⟩) else (s.core core).tileAt t i j) ∧
  (∀ (s : State) kept core (m : MmaCmd) t i j, t < 8 → m.acc < 8 → i < 64 → j < 64 →
    let kr := mmaKr m.fa m.fb
    ((s.mmaTile kept core m).core core).tileAt t i j = if t = m.acc then
      mmaElem m.isInt (s.operand kept core m.sa m.fa kr m.ka m.sca) (s.operand kept core m.sb m.fb kr m.kb m.scb) (min (min m.ka m.kb) kr) i j
        (if m.start = true then (if m.isInt = true then ⟨0#32, 0x1F#8⟩ else ⟨0#32, 0x1A#8⟩) else (s.core core).tileAt t i j)
      else (s.core core).tileAt t i j) ∧
  (∀ (s : State) core o m acc sa sb fa fb ka kb st tok, o.instr = .mma acc sa sb fa fb ka kb st tok → o.fault = 0 →
    s.mmaOf o.launch o.instr = some m →
    (o.bad = false → s.poison = [] → s.matrixEnd core o = s.mmaTile o.got core m) ∧
    (o.bad = true → s.matrixEnd core o = s.haltLaunch o.launch 0x7D) ∧ s.matrixStart core o = (s, 0#64)) ∧
  (∀ (s : State) kept core slot fmt kr blk sc i, i < 8192 * mmaSpan fmt kr → let a := operandBase core + slot * 8192 + i
    (s.operand kept core slot fmt kr blk sc).bits / 256 ^ i % 256 = ((Tab.find? kept a).getD (Memory.get s.mem a)).toNat) ∧
  (∀ (a b : Operand) lsum i j acc, 0 < lsum → lsum ∣ a.kr → (mmaElem true a b lsum i j acc).val = acc.val + BitVec.ofInt 32
    (((List.range a.kr).map fun k => codeInt a.fmt (a.code i k) * codeInt b.fmt (b.code j k)).sum)) ∧
  (∀ (s : State) core o q slot len tok i, o.instr = .oload q slot len tok → o.fault = 0 → Memory.wf s.mem = true → i < (len.toNat + 1) * 64 →
    let quad := Tab.at o.vals [] 0
    Memory.get (s.matrixEnd core o).mem (operandBase core + slot.toNat * 8192 + quadNat quad 2 % 8192 + i) =
      Tab.at o.got 0#8 (datumKey 0 i)) ∧
  (∀ (s : State) core o acc q fmt row0 nrows tok i j, o.instr = .awrite acc q fmt row0 nrows tok → o.fault = 0 →
    row0.toNat ≤ i → i ≤ row0.toNat + nrows.toNat → i < 64 → j < 64 → o.gotTag = [] →
    let d := s.slotOf o.launch fmt.toNat
    let w := codeBits (slotOfmt d)
    ((s.matrixEnd core o).core core).tileAt acc.toNat i j = writeImg (slotAfmt d = 0xE) (slotOfmt d) (slotMode d o.ctl)
      (leNat (o.bytes (i - row0.toNat) 0 (rowBytes (slotOfmt d))) / 2 ^ (w * j) % 2 ^ w) []) ∧
  (∀ xs, xs ≠ [] → (∀ x ∈ xs, x.k ≤ 26) → fieldOf (astatWord xs) 32 16 = (xs.filter Img.s).length % 2 ^ 16 ∧
    (∀ x ∈ xs, fieldOf (astatWord xs) 0 6 ≤ x.k ∧ x.k ≤ fieldOf (astatWord xs) 8 6) ∧
    ((astatWord xs).getLsbD 17 = true ↔ ∃ x ∈ xs, (imgValue .f32 (x, zeroImg)).isNan = true))

/-- R273-R278, R286, R295, R303. -/
def Obligations.EngineSteps : Prop :=
  (∀ s core ctx st key g e rest, s.keyOf core ctx = some key → s.gang? key = some g → g.stream st = e :: rest → st < 16 →
    ((∃ a b c d q l f x y, e.instr = .xcopy a b c d q l f x y) ∨ (∃ a b c d e' f g' h i j k, e.instr = .xcopym a b c d e' f g' h i j k)) →
    let p := Pre.ofEntry e key g.launch st
    let r := s.copyRanges p (s.part (s.partOf g)).secure
    Tab.rising g.streams = true → (s.engine core 0).ops.length < 64 → s.rangesFree (s.partOf g) r.1 r.2 = true →
    ∃ t g', exec (.engineRegistration core ctx st) s = .next t ∧ t = { s with gangs := t.gangs, cores := t.cores, ranges := t.ranges } ∧
      t.gang? key = some g' ∧ g' = { g with streams := g'.streams } ∧ g'.stream st = rest ∧
      (t.engine core 0).issued = (s.engine core 0).issued + 1 ∧
      (t.engine core 0).ops = (s.engine core 0).ops ++ [Op.ofPre p ((s.engine core 0).issued + 1) (s.partOf g)] ∧
      ((r.1 ≠ [] ∨ r.2 ≠ []) → t.rangesOf (s.partOf g) = s.rangesOf (s.partOf g) ++ [⟨core, 0, (s.engine core 0).issued + 1, r.1, r.2⟩])) ∧
  (∀ (s : State) pno src dst, s.rangesFree pno src dst = true ↔ ∀ r ∈ s.rangesOf pno,
    ¬ rangesMeet src r.dst = true ∧ ¬ rangesMeet dst r.dst = true ∧ ¬ rangesMeet dst r.src = true) ∧
  (∀ s core ctx key g p, s.keyOf core ctx = some key → s.gang? key = some g →
    ((s.core core).mxq.find? fun p => p.follow && s.sameTeam p.gang key) = none → s.matrixNext? core key = some p → p.stream = none →
    s.matrixReady core key p = true → ∃ t, exec (.engineRegistration core ctx 17) s = .next t ∧ t = { s with cores := t.cores } ∧
      (t.engine core 1).ops = (s.engine core 1).ops ++ [Op.ofPre p ((s.engine core 1).issued + 1) (s.partOf g)] ∧
      (t.core core).mxq = (s.core core).mxq.filter fun (q : Pre) => q.id != p.id || q.follow) ∧
  (∀ s core o, (s.core core).gateOpen 1 = true → s.stops core = false → (s.engine core 1).starts? = some o →
    (∀ x ∈ (s.engine core 1).ops, x.num < o.num → ¬ (s.names x.launch x.instr).meets (s.names o.launch o.instr) = true) →
    (isMma o.instr = false ∨ ((s.core core).waking = false ∧ (s.core core).gated = 0#4 ∧ s.chargeOf? core o = none) →
      exec (.engineStart core 1) s = .next ((s.takeGate core 1).matrixGo core o)) ∧
    (isMma o.instr = true → (s.core core).waking = true → exec (.engineStart core 1) s = .next s) ∧
    (isMma o.instr = true → (s.core core).waking = false → (s.core core).gated ≠ 0#4 →
      exec (.engineStart core 1) s = .next (s.updCore core fun c => { c with waking := true }))) ∧
  (∀ (s : State) core o code arg, s.opFault core o = some (code, arg) → o ∈ (s.engine core 1).ops →
    (∀ x ∈ (s.engine core 1).ops, x.num = o.num → x = o) →
    (s.matrixGo core o).mem = s.mem ∧ ((s.matrixGo core o).core core).tiles = (s.core core).tiles ∧
    ∃ o', o' ∈ ((s.matrixGo core o).engine core 1).ops ∧ o'.num = o.num ∧ o'.phase = .ended ∧ o'.fault = code ∧ o'.arg = arg) ∧
  (∀ s core o, (s.core core).gateOpen 0 = true → s.stops core = false → (s.engine core 0).starts? = some o →
    (∀ x ∈ (s.engine core 0).ops, x.phase = .running → x.waits = false) → s.copyFault core o = none →
    exec (.engineStart core 0) s = .next ((s.takeGate core 0).runCopy core { o with phase := .running })) ∧
  (∀ s core o, (s.engine core 1).next? = some o → o.phase = .ended → s.opDrained core 1 o.num = true →
    (∀ vd a r n l t, o.instr ≠ .astat vd a r n l t) →
    ∃ t, exec (.engineCompletion core 1) s = .next t ∧ (t.engine core 1).done = o.num ∧
      (t.engine core 1).ops = (s.engine core 1).ops.filter (fun (x : Op) => x.num != o.num)) ∧
  (∀ s core o, (s.engine core 0).next? = some o → o.phase = .ended → s.opDrained core 0 o.num = true → isXcopym o.instr = false →
    o.fault < 8 → o.tok = 0 → ∃ t, exec (.engineCompletion core 0) s = .next t ∧ t.mem = s.mem ∧ (t.engine core 0).done = o.num ∧
      (t.engine core 0).ops = (s.engine core 0).ops.filter (fun (x : Op) => x.num != o.num) ∧
      ∀ r ∈ t.rangesOf o.pno, ¬ (r.core = core ∧ r.eng = 0 ∧ r.num = o.num))

/-- R251-R253, R299, R301, R317-R319. -/
def Obligations.BuffersClaimsPower : Prop :=
  (∀ s core cb b r rest key, Tab.find? (s.core core).cbs cb = some b → b.waitRes = r :: rest → 0 < b.free → r.gang = some key →
    s.bufs = [] → ∃ t, exec (.cbResServed core cb) s = .next t ∧ t.mem = s.mem ∧
      Tab.find? (t.core core).cbs cb = some { b with
        free := b.free - 1
        rp := (b.rp + 1) % b.slots
        reserved := b.reserved ++ [b.rp]
        waitRes := rest } ∧
      ∀ g p, s.gang? key = some g → g.pend.find? (fun (p : Pend) => p.id == r.pend) = some p →
        t.gangs = (s.land key r.pend (outWord (p.regs.headD 0) (b.slotAddr b.rp))).gangs) ∧
  (∀ s core cb b r rest key, Tab.find? (s.core core).cbs cb = some b → b.waitTake = r :: rest → 0 < b.filled → r.gang = some key →
    s.bufs = [] → ∃ t, exec (.cbTakeServed core cb) s = .next t ∧ t.mem = s.mem ∧
      Tab.find? (t.core core).cbs cb = some { b with
        filled := b.filled - 1
        tp := (b.tp + 1) % b.slots
        taken := b.taken ++ [b.tp]
        waitTake := rest } ∧
      ∀ g p, s.gang? key = some g → g.pend.find? (fun (p : Pend) => p.id == r.pend) = some p →
        t.gangs = (s.land key r.pend (outWord (p.regs.headD 0) (b.slotAddr b.tp))).gangs) ∧
  (∀ (b : CBuf) n, n ∈ b.reserved → 0 < b.slots → let c := b.commitSlot n
    c.reserved = b.reserved.erase n ∧ c.free = b.free ∧ c.filled + c.committed.length = b.filled + b.committed.length + 1 ∧
    (b.cp = n → b.committed = [] → b.slots ≠ 1 → c.filled = b.filled + 1 ∧ c.cp = (n + 1) % b.slots) ∧
    (b.cp ≠ n → b.cp ∉ b.committed → c.filled = b.filled ∧ c.cp = b.cp)) ∧
  (∀ s core n k, (s.core core).claims[n]? = some k → let lead := s.leadOf k.gang
    Tab.rising (s.core core).maps = true → ¬ ((s.core core).heldByOthers lead).meets k.names = true →
    (∀ j ∈ (s.core core).claims.take n, ¬ j.names.meets k.names = true) →
    s.teamDead k.gang = false → (∀ g, s.gang? k.gang = some g → Tab.at g.owed [] k.tok = []) →
    ∃ t, exec (.claimGrant core n) s = .next t ∧ t = { s with cores := t.cores, gangs := t.gangs } ∧
      (t.core core).claims = (s.core core).claims.eraseIdx n ∧
      (∀ m, m < 32 → Tab.find? (t.core core).slotHeld m = if k.slots.getLsbD m = true then some lead else Tab.find? (s.core core).slotHeld m) ∧
      (∀ m, m < 8 → Tab.find? (t.core core).tileHeld m = if k.tiles.getLsbD m = true then some lead else Tab.find? (s.core core).tileHeld m) ∧
      (∀ m, m < 32 → Tab.at (t.core core).maps 0#20 m = if k.slots.getLsbD m = true then 0#20 else Tab.at (s.core core).maps 0#20 m)) ∧
  (∀ s core n k, (s.core core).orels[n]? = some k → (∀ o ∈ s.teamOps (s.leadOf k.gang), o.1 ∉ k.after) →
    (∀ g, s.gang? k.gang = some g → Tab.at g.owed [] k.tok = []) →
    ∃ t, exec (.claimRelease core n) s = .next t ∧ t = { s with cores := t.cores, gangs := t.gangs } ∧
      (t.core core).orels = (s.core core).orels.eraseIdx n ∧
      ∀ h, h ∈ (t.core core).slotHeld ↔ h ∈ (s.core core).slotHeld ∧ ¬ (h.2 = s.leadOf k.gang ∧ k.slots.getLsbD h.1 = true)) ∧
  (∀ s core n, n < 4 → s.budgetMode core = false → (s.core core).idle ≠ 0#16 → (s.core core).waking = false →
    ∃ t, exec (.subarrayGate core n) s = .next t ∧ t = { s with cores := t.cores } ∧ (t.core core).gated.getLsbD n = true ∧
      ∀ m, m < 4 → m ≠ n → (t.core core).gated.getLsbD m = (s.core core).gated.getLsbD m) ∧
  (∀ s core, (s.core core).waking = true → exec (.subarrayWake core) s = .next (s.updCore core fun c =>
    { c with gated := 0#4, waking := false, wakes := min (c.wakes + 1) (2 ^ 24 - 1) })) ∧
  (∀ s core, s.budgetMode core = true → exec (.budgetWindow core) s = .next (s.updCore core fun c => { c with left := c.budget }))

/-- R332-R343, R350, R351, R484 at issue. The wave operations act through the first seat. The model's choices: node and edge accesses stand in a stream 16 of the model's own (log 54), and a member none of whose locations is bad reports the first flaw with no lanes (log 22). -/
def Obligations.WaveWords : Prop :=
  (∀ i tok read et st, (∃ opt snap dmk, ∃ q : VNum, ∃ wave scope, i = .mkmatch opt snap dmk q wave scope tok ∧
      read = (fun (x : Seat) => x.g.quad q.toNat x.low0) ∧ et = noVals ∧ st = noStream) ∨
    (∃ form opt all snap dmk smk vv wave scope, i = .mkset form opt all snap dmk smk vv wave scope tok ∧
      read = (fun (x : Seat) => if form = .vec then (List.range 16).map (x.elem vv) else []) ∧ et = noVals ∧ st = noStream) ∨
    (∃ form opt all snap dmk smk wave scope, i = .mkclr form opt all snap dmk smk wave scope tok ∧
      read = noVals ∧ et = noVals ∧ st = noStream) ∨
    (∃ all snap smk wave scope, i = .mkcount all snap smk wave scope tok ∧ read = noVals ∧ et = noVals ∧ st = noStream) ∨
    (∃ comb opt all snap dmk smk vt hops wave scope, i = .mkprop comb opt all snap dmk smk vt hops wave scope tok ∧
      read = noVals ∧ et = (fun (x : Seat) => (List.range 8).map (x.elem vt)) ∧ st = noStream) ∨
    (∃ comb all snap dmk smk vt hops wave scope, i = .mkpropv comb all snap dmk smk vt hops wave scope tok ∧
      read = noVals ∧ et = (fun (x : Seat) => (List.range 8).map (x.elem vt)) ∧ st = noStream) ∨
    (∃ opt all snap dmk smk, ∃ q : VNum, ∃ wave scope, i = .mkcollect opt all snap dmk smk q wave scope tok ∧
      read = (fun (x : Seat) => x.g.quad q.toNat x.low0) ∧ et = noVals ∧
      st = (fun (x : Seat) => some (quadNat (x.g.quad q.toNat x.low0) 3 % 16))) →
    Acts i (fun _ _ => true) fun x u => if x.first then
        let maps := u.mapsFor (u.partOf x.g) (coreOf x.key) (if (st x).isSome then [quadWord (read x) 0] else [])
        u.putNode x { u.newNode i x tok.toNat with vals := [(0, read x), (1, et x)], stream := st x, maps := maps }
      else u) ∧
  (∀ (u : State) x p, (u.putNode x p).mem = u.mem ∧ (u.putNode x p).nodes = u.nodes ∧ (u.putNode x p).edges = u.edges ∧
    ((u.putNode x p).core (coreOf x.key)).ndq = (u.core (coreOf x.key)).ndq ++ [p] ∧
    ∀ g, u.gang? x.key = some g → ∃ g', (u.putNode x p).gang? x.key = some g' ∧
      g' = { g with streams := g'.streams, toks := (g.tokAdd p.tok).toks } ∧
      ∀ n, g'.stream n = g.stream n ∨ (p.stream = some n ∧ ∃ e, g'.stream n = g.stream n ++ [e] ∧ e.id = p.id ∧ e.instr = p.instr)) ∧
  (∀ wave, Acts (.mkwait wave) (fun s x => !x.first ||
      (s.teamOps (s.leadOf x.key)).all fun o => decide (s.issuedAt ≤ o.1) || waveIdOf o.2 != some wave.toNat) fun x u =>
    if x.first then (u.waveDone (u.leadOf x.key) wave.toNat).foldl (fun t n => t.acquire x.key (.op (coreOf x.key) 2 n)) u else u) ∧
  (∀ s vd wave, issues (.mkstat vd wave) s = true → Completes (.mkstat vd wave) s (s.counted 0)
    (fun x => x.give (outWord vd.toNat (Tab.at (s.part (s.partOf x.g)).waves 0#64 wave.toNat))) fun _ => []) ∧
  (∀ i wr mk, ∀ m : MemRef, ∀ find : State → Nat → Word64 → Option Nat, ∀ put : Seat → State → List Piece → State,
    ((∃ fi mv d look tok, i = .ndrd fi mv d m look tok mk ∧ wr = false ∧ find = State.nodeLoc? ∧
        put = fun x t ps => t.putLoad x 16 look.toNat tok.toNat ((List.range (ndLen fi)).map (d.toNat + ·)) { t.newEntry i x with todo := ps }) ∨
      (∃ fi mv, ∃ vs : VNum, ∃ tok, i = .ndwr fi mv vs m tok mk ∧ wr = true ∧ find = State.nodeLoc? ∧
        put = fun x t ps => t.putStore x 16 tok.toNat { t.newEntry i x with todo := ps, vals := x.laneVals vs (ndLen fi) }) ∨
      (∃ fi d look tok, i = .edrd fi d m look tok mk ∧ wr = false ∧ find = (fun t pno w => t.edgeLoc? pno (fi == .weight) w) ∧
        put = fun x t ps => t.putLoad x 16 look.toNat tok.toNat ((List.range (edLen fi)).map (d.toNat + ·)) { t.newEntry i x with todo := ps }) ∨
      (∃ fi, ∃ vs : VNum, ∃ tok, i = .edwr fi vs m tok mk ∧ wr = true ∧ find = (fun t pno w => t.edgeLoc? pno (fi == .weight) w) ∧
        put = fun x t ps => t.putStore x 16 tok.toNat { t.newEntry i x with todo := ps, vals := x.laneVals vs (edLen fi) })) →
    Acts i (fun s x => (maskLanes x.act).all fun l => (find s (s.partOf x.g) (laneLoc x.g m l)).isSome) (fun x u =>
      put x u ((maskLanes x.act).filterMap fun l => (find u (u.partOf x.g) (laneLoc x.g m l)).map fun k => locPiece l k wr (laneLoc x.g m l))) ∧
    (∀ s, issues i s = true → let bad := fun (x : Seat) => maskOf fun l => inMask x.act l && (find s (s.partOf x.g) (laneLoc x.g m l)).isNone
      (∃ x ∈ s.seats mk.toNat, bad x ≠ 0#32) →
      Traps i s ((s.seats mk.toNat).filterMap fun x => (lowLane? (bad x)).map fun l =>
        (x.key, flaw 0x0C 9 (bad x) (laneLoc x.g m l) (x.g.hreg m.hnd.toNat))))) ∧
  (∀ (s : State) pno w k, s.nodeLoc? pno w = some k ↔ w.toNat < 2 ^ 43 ∧ fieldOf w 23 20 = Config.device.toNat ∧
    (s.part pno).ownsBank (fieldOf w 13 10) = true ∧ k = fieldOf w 13 10 * 8192 + fieldOf w 0 13)

/-- R330, R333-R339, R482: events at nodes. -/
def Obligations.NodeEvents : Prop :=
  (∀ s core k slot w, s.wave? k = some w → slot < 8192 → (Tab.at w.engs WaveEng.none core).left.Nodup →
    slot ∈ (Tab.at w.engs WaveEng.none core).left → s.startFree core w = true →
    let key := nodeKey core slot
    let n := s.node key
    n.poison = false → n.type ≠ 0 →
    ∃ t, exec (.waveStart core k slot) s = .next t ∧ (∀ j, j ≠ key → t.node j = s.node j) ∧ t.mem = s.mem ∧
      (∃ w', t.wave? k = some w' ∧ (Tab.at w'.engs WaveEng.none core).left =
        (Tab.at w.engs WaveEng.none core).left.filter (· != slot)) ∧
      (∀ opt all snap dmk smk vv wave scope tok, w.instr = .mkset .bit opt all snap dmk smk vv wave scope tok →
        t.node key = if all = true ∨ n.mb.getLsbD smk.toNat ≠ opt then n.setBit dmk.toNat true else n) ∧
      (∀ opt all snap dmk smk wave scope tok, w.instr = .mkclr .bit opt all snap dmk smk wave scope tok →
        t.node key = if all = true ∨ n.mb.getLsbD smk.toNat ≠ opt then n.setBit dmk.toNat false else n) ∧
      (∀ opt all snap dmk smk vv wave scope tok, w.instr = .mkset .vec opt all snap dmk smk vv wave scope tok →
        t.node key = if all = true ∨ n.mb.getLsbD smk.toNat ≠ opt then n.setVec dmk.toNat w.vals else n) ∧
      (∀ opt snap dmk q wave scope tok, w.instr = .mkmatch opt snap dmk q wave scope tok → patBad w.vals = false →
        t.node key = if patMatches w.vals n = true then n.setBit dmk.toNat true
          else if opt = true then n.setBit dmk.toNat false else n) ∧
      (∀ all snap smk wave scope tok, w.instr = .mkcount all snap smk wave scope tok → t.node key = n)) ∧
  (∀ (s : State) core o w opt snap dmk q wave scope tok, w.instr = .mkmatch opt snap dmk q wave scope tok → patBad w.vals = true →
    w.foreign = false → fieldOf (Tab.at ((s.startNode core o w).part w.pno).waves 0#64 w.wid) 48 8 = 1) ∧
  (∀ (s : State) core pno p c, waveCmd p.instr (readVals p.vals) = some c → c.snap = false →
    waveState (Tab.at ((s.registerNode core pno p).part pno).waves 0#64 c.wid) = 2) ∧
  (∀ (n : Node) m b j, m < 64 → j < 64 → ((n.setBit m b).mb).getLsbD j = if j = m then b else n.mb.getLsbD j) ∧
  (∀ s core k j w m p, s.wave? k = some w → (Tab.at w.engs WaveEng.none core).msgs[j]? = some m → propCmd w.instr = some p →
    Tab.at w.delivered 0 core < 2 ^ 30 → let key := nodeKey core m.slot
    (s.node key).poison = false → (s.node key).type ≠ 0 →
    ∃ t w', exec (.waveDelivery core k j) s = .next t ∧ (∀ i, i ≠ key → t.node i = s.node i) ∧ t.mem = s.mem ∧
      t.node key = (s.node key).setMarker p (combine p.comb ((s.node key).marker p) (msgValue m p)) ∧
      t.wave? k = some w' ∧ Tab.at w'.delivered 0 core = Tab.at w.delivered 0 core + 1) ∧
  (∀ s core k j w m, s.wave? k = some w → (Tab.at w.engs WaveEng.none core).msgs[j]? = some m → 2 ^ 30 ≤ Tab.at w.delivered 0 core →
    ∃ t w', exec (.waveRunaway core k j) s = .next t ∧ t.nodes = s.nodes ∧ t = { s with waves := t.waves, parts := t.parts } ∧
      t.wave? k = some w' ∧ (Tab.at w'.engs WaveEng.none core).msgs = (Tab.at w.engs WaveEng.none core).msgs.eraseIdx j ∧
      (w.foreign = false → t = ({ s with waves := t.waves } : State).updStatus w.pno w.wid fun x => noteStatus x { fault := 6 })) ∧
  (∀ w (n : WaveNote), n.fault < 256 → fieldOf (noteStatus w n) 48 8 = if n.fault = 0 then fieldOf w 48 8
      else if fieldOf w 48 8 = 0 then n.fault else min (fieldOf w 48 8) n.fault) ∧
  (∀ a b, combine .or (.bit a) (.bit b) = .bit (a || b) ∧ combine .and (.bit a) (.bit b) = .bit (a && b)) ∧
  (∀ xs ys, combine .max (.vec xs) (.vec ys) = .vec (List.zipWith (fun a b => (fMinMax true .f32 (a, zeroImg) (b, zeroImg)).1) xs ys) ∧
    combine .min (.vec xs) (.vec ys) = .vec (List.zipWith (fun a b => (fMinMax false .f32 (a, zeroImg) (b, zeroImg)).1) xs ys) ∧
    combine .minplus (.vec xs) (.vec ys) = combine .min (.vec xs) (.vec ys) ∧
    combine .sum (.vec xs) (.vec ys) = .vec (List.zipWith (fun a b => (faddLane .f32 (a, zeroImg) (b, zeroImg)).1) xs ys) ∧
    combine .wsum (.vec xs) (.vec ys) = combine .sum (.vec xs) (.vec ys)) ∧
  (∀ xs w, outAlong .minplus (.vec xs) w = .vec (xs.map fun x => (faddLane .f32 (x, zeroImg) (w, zeroImg)).1) ∧
    outAlong .wsum (.vec xs) w = .vec (xs.map fun x => (fmulLane .f32 (x, zeroImg) (w, zeroImg)).1))

/-- R344-R346, R412, R503: credit and batches. The model's choices: credit of a foreign wave goes back with the status notes (log 117), and a batch refused here is logged at this device too (log 57). -/
def Obligations.WaveCredit : Prop :=
  let total := fun (s : State) (k core : Nat) =>
    ((s.wave? k).elim 0 fun w => (Tab.at w.engs WaveEng.none core).credit) + (s.batches.map (·.credit)).sum
  (∀ (s : State) k core bs, (s.wave? k).isSome = true → total (s.sendBatches k core bs) k core = total s k core) ∧
  (∀ s core k w e, s.wave? k = some w → w.foreign = false → w.ended = false → Tab.find? w.engs core = some e → Tab.rising w.engs = true →
    e.left = [] → e.msgs = [] → e.held = [] → ∃ t w', exec (.creditReturn core k none) s = .next t ∧ t.wave? k = some w' ∧
      t.mem = s.mem ∧ w'.pool = w.pool + e.credit ∧ Tab.find? w'.engs core = none ∧ w'.ended = decide (w.pool + e.credit = 2 ^ 32)) ∧
  (∀ s core k w, s.wave? k = some w → w.foreign = false → core < 1024 → (Tab.at w.engs WaveEng.none core).held ≠ [] →
    (Tab.at w.engs WaveEng.none core).asked = false → ∃ t w', exec (.creditRequest core k) s = .next t ∧ t = { s with waves := t.waves } ∧
      t.wave? k = some w' ∧ w'.asks = w.asks ++ [core] ∧ (Tab.at w'.engs WaveEng.none core).asked = true ∧ w'.pool = w.pool) ∧
  (∀ s core k n w, s.wave? k = some w → w.foreign = false → core < 1024 → core ∈ w.asks → 2 ≤ w.pool →
    ∃ t w', exec (.creditAnswer core k n) s = .next t ∧ t.wave? k = some w' ∧ w'.pool = w.pool - w.pool / 2 ∧
      w'.asks = w.asks.erase core ∧ total t k core = total s k core + w.pool / 2) ∧
  (∀ s n b w, s.batches.find? (fun b => b.id == n && b.dst < 1024) = some b → (∀ x ∈ s.batches, x.id = n → x.queued = false) → s.wave? b.wave = some w → s.canHold b.dst w = true →
    ∃ t w', exec (.batchAccept n none) s = .next t ∧ t = { s with waves := t.waves, batches := t.batches } ∧
      t.batches = s.batches.filter (fun x => x.id != n) ∧ t.wave? b.wave = some w' ∧
      let e := Tab.at w.engs WaveEng.none b.dst
      let e' := Tab.at w'.engs WaveEng.none b.dst
      e'.credit = e.credit + b.credit ∧ e'.msgs = e.msgs ++ b.msgs ∧ e'.left = if b.start = true then List.range 8192 else e.left) ∧
  (∀ s n r reason, s.batchRefusal r = some reason → ∃ t, exec (.batchAccept n (some r)) s = .next t ∧
    t = { s with ports := t.ports, mgmt := { s.mgmt with fablog := t.mgmt.fablog } }) ∧
  (∀ s n b p, s.batches.find? (fun b => b.id == n && b.queued) = some b → p < 8 → s.planeLive p = true →
    (s.batchFree b = true → ∃ t, exec (.batchAccept n none) s = .next t ∧ t = { s with
      ports := t.ports
      used := t.used
      batches := s.batches.map fun x => if x.id = n then { x with sent := true, plane := s.planeOf b.home, moment := s.tick } else x }) ∧
    (s.batchFree b = false → exec (.batchAccept n none) s = .next s)) ∧
  (∀ (s : State) b, s.batchFree b = true ↔ s.linesHeld b.home = false ∧ ∀ x ∈ s.batches.takeWhile (fun x => x.id != b.id),
    x.queued = true → x.src = b.src → x.home ≠ b.home) ∧
  (∀ s n reason b w, s.batches.find? (fun b => b.id == n && b.sent && 1024 ≤ b.dst) = some b → s.wave? b.wave = some w → w.foreign = false →
    ∃ t w', exec (.batchRefused n reason) s = .next t ∧ t.batches = s.batches.filter (fun x => x.id != n) ∧
      t.wave? b.wave = some w' ∧ w'.pool = w.pool + b.credit ∧ w'.away = w.away - b.credit ∧ t.nodes = s.nodes) ∧
  (∀ s core k dst last, exec (.batchAcknowledge core k dst last) s = .next {
    s.takeFlits (s.portOn (s.planeOf (dst % 1024 % 8)) 0) 1 with
    batches := s.batches.filter fun b => !(b.between k core dst && b.sent && !b.gone && decide (b.num ≤ last)) }) ∧
  (∀ s core k dst, (s.batches.map (·.id)).Nodup → (∀ w, s.wave? k = some w → w.foreign = false) → ∃ t, exec (.batchReclaimTimeout core k dst) s = .next t ∧ t.nodes = s.nodes ∧
    t.batches = s.batches.filter fun b => !(b.between k core dst)) ∧
  (∀ s core k dst last, (s.batches.map (·.id)).Nodup → (∀ w, s.wave? k = some w → w.foreign = false) →
    ∃ t, exec (.batchReclaimRemap core k dst last) s = .next t ∧ t.nodes = s.nodes ∧ t.batches = s.batches.filter fun b =>
      !(b.between k core dst && b.sent && b.gone)) ∧
  (∀ s core k w e, s.wave? k = some w → w.foreign = true → Tab.find? w.engs core = some e → e.left = [] → e.msgs = [] → e.held = [] →
    ∃ t b, exec (.creditReturn core k none) s = .next t ∧ t.batches = s.batches ++ [b] ∧
      b.dst = farCore (w.origin / 1024) (w.origin % 1024) ∧ b.credit = e.credit ∧ b.start = false ∧ b.msgs = [] ∧ b.sent = false ∧
      b.back = some { w.noted with credit := e.credit } ∧ b.plane = s.planeOf (w.origin % 1024 % 8) ∧ t.nodes = s.nodes) ∧
  (∀ s core k w b, s.wave? k = some w → w.foreign = false → b.credit ≤ w.away →
    ∃ t w', exec (.creditReturn core k (some b)) s = .next t ∧ t.wave? k = some w' ∧ w'.pool = w.pool + b.credit ∧
      w'.away = w.away - b.credit ∧ (w.pool + b.credit ≠ 2 ^ 32 → Tab.at (t.part w.pno).waves 0#64 w.wid =
        noteStatus (Tab.at (s.part w.pno).waves 0#64 w.wid)
          { count := b.count, depth := b.depth, drops := b.drops, hopcut := b.hopcut, fault := b.fault }))

/-- R378-R391, R478, R479. -/
def Obligations.StackUnit : Prop :=
  (∀ op ef, ∀ thnd dhnd : HNum, ∀ q rowlen stream tok mk, let i : Instr := .sxred op ef thnd dhnd q rowlen stream tok mk
    Acts i (fun _ _ => true) fun x u =>
      let table := x.g.hreg thnd.toNat
      let dest := x.g.hreg dhnd.toNat
      u.putStore x stream.toNat tok.toNat { u.newEntry i x with
        act := x.act
        ctl := x.g.memctl
        vals := x.quads q ++ [(keyTable, pairImgs (intPair table)), (keyDest, pairImgs (intPair dest))]
        maps := u.mapsFor (u.partOf x.g) (coreOf x.key) (table :: dest :: (x.quads q).map fun lq => quadWord lq.2 0) }) ∧
  (∀ i q, ∀ stream : BitVec 4, ∀ tok : BitVec 3, ∀ res : Option HNum, ∀ ends : List Nat,
    ((∃ len, i = .sxbulkCopy q len stream tok ∧ res = none ∧ ends = [0, 2]) ∨ (∃ len, i = .sxbulkFill q len stream tok ∧ res = none ∧ ends = [0]) ∨
      (∃ len r, i = .sxbulkCmp q len r stream tok ∧ res = some r ∧ ends = [0, 2])) →
    Acts i (fun _ _ => true) fun x u => if x.first then
        let kept := (res.map fun h => x.g.hreg h.toNat).toList
        u.putStore x stream.toNat tok.toNat { u.newEntry i x with
          act := x.m0
          ctl := 0#64
          vals := (0, x.lowQuad q) :: kept.map fun w => (keyDest, pairImgs (intPair w))
          maps := u.mapsFor (u.partOf x.g) (coreOf x.key) (ends.map (quadWord (x.lowQuad q)) ++ kept) }
      else u) ∧
  (∀ (vd : VNum) psel preg look tok, let port := fun (x : Seat) => portEng (portOf psel preg x)
    let gives := fun (x : Seat) (w : Word64) (u : State) =>
      (u.addPend x look.toNat [vd.toNat, vd.toNat + 1] [] x.act (outWord vd.toNat w) false true tok.toNat).2
    Acts (.sxseqDone vd psel preg look tok) (fun _ _ => true) (fun x u => gives x (BitVec.ofNat 64 (u.engine (coreOf x.key) (port x)).done) u) ∧
    Acts (.sxseqIssued vd psel preg look tok) (fun _ _ => true)
      (fun x u => gives x (BitVec.ofNat 64 (u.engine (coreOf x.key) (port x)).issued) u) ∧
    Acts (.sxseqStack vd psel preg look tok) (fun _ _ => true) (fun x u => gives x (u.stackWord (portOf psel preg x)) u) ∧
    (∀ s, issues (.sxseqFault vd psel preg look tok) s = true → Completes (.sxseqFault vd psel preg look tok) s
      ((s.seats 0).foldl (fun u x => (gives x (s.engine (coreOf x.key) (port x)).fault u).updEngine (coreOf x.key) (port x)
        fun e => { e with fault := 0#64 }) (s.counted 0)) (fun _ => []) fun _ => []) ∧
    ∀ vs : VNum, Acts (.sxwait vs psel preg) (fun s x => decide ((x.g.pairAt vs.toNat x.low0).toNat ≤
        (s.engine (coreOf x.key) (port x)).done % 2 ^ 64)) fun x u =>
      u.observe x.key (coreOf x.key) (port x) (x.g.pairAt vs.toNat x.low0).toNat) ∧
  (∀ xs ys, xs.length = ys.length → (xs = ys → firstDiff xs ys = 2 ^ 64 - 1) ∧
    ∀ k, k < xs.length → xs.take k = ys.take k → xs.getD k 0#8 ≠ ys.getD k 0#8 → firstDiff xs ys = k) ∧
  (∀ a x : Img, sxJoin .sum .s32 a x = ⟨a.val + x.val, 0x1F#8⟩ ∧
    sxJoin .sum .f32 a x = (faddLane .f32 (a, zeroImg) (x, zeroImg)).1 ∧
    (sxJoin .max .s8 a x).val.toInt = max a.val.toInt x.val.toInt ∧ (sxJoin .max .z8 a x).val.toNat = max a.val.toNat x.val.toNat) ∧
  (∀ s k, k < 8 → s.atStack k .running = true → exec (.droopTrip k) s = .next (s.setStack k { s.stack k with
    held := true
    droops := BitVec.ofNat 16 (min ((s.stack k).droops.toNat + 1) 65535) })) ∧
  (∀ s k, k < 8 → s.atStack k .running = false → exec (.droopHoldEnd k) s = .next (s.setStack k { s.stack k with held := false })) ∧
  (∀ s k temp, k < 8 → exec (.thermalDuty k temp) s = .next (s.setStack k { s.stack k with temp := temp })) ∧
  (∀ s k, exec (.refreshPause k) s = .next s)

/-- R397-R410, R501 at issue. The model's choices: a member without the cause of the traps of FST.RADD, FAT and FMCST reports the first flaw with no lanes (log 22), and FPEER.STAT of entry 4095 reads zero (log 62). -/
def Obligations.FabricWords : Prop :=
  (∀ sz d, ∀ vp vo : VNum, ∀ look tok mk, let i : Instr := .fld sz d vp vo look tok mk
    Acts i (fun _ _ => true) fun x u => u.putLoad x 15 look.toNat tok.toNat (resultRegs d (sizeLen (fszSize sz))) (u.fabEntry i x vp vo fun _ => [])) ∧
  (∀ sz rnd, ∀ vs vp vo : VNum, ∀ tok mk, let i : Instr := .fst sz rnd vs vp vo tok mk
    Acts i (fun _ _ => true) fun x u => u.putStore x 15 tok.toNat
      (u.fabEntry i x vp vo fun l => x.g.imgs vs.toNat (sizeLen (fszSize sz)) l)) ∧
  (∀ vs vp vo : VNum, ∀ tok mk, let i : Instr := .fstRadd vs vp vo tok mk
    Acts i (fun _ x => (maskLanes x.act).all fun l => (x.offset vo l).val.toNat % 4 == 0) (fun x u =>
      u.putStore x 15 tok.toNat (u.fabEntry i x vp vo fun l => x.g.imgs vs.toNat 1 l)) ∧
    ∀ s, issues i s = true → let bad := fun (x : Seat) => x.act &&& maskOf fun l => (x.offset vo l).val.toNat % 4 != 0
      (∃ x ∈ s.seats mk.toNat, bad x ≠ 0#32) →
      Traps i s ((s.seats mk.toNat).filterMap fun x => (lowLane? (bad x)).map fun l =>
        (x.key, flaw 0x12 0x40 (bad x) (x.g.pairAt vp.toNat l) ((x.offset vo l).val.setWidth 64)))) ∧
  (∀ op sz d, ∀ vp vo vc : VNum, ∀ look tok mk, let i : Instr := .fat op sz d vp vo vc look tok mk
    let n := if sz = .w64 then 8 else 4
    Acts i (fun _ x => (maskLanes x.act).all fun l => (x.offset vo l).val.toNat % n == 0) (fun x u =>
      u.putLoad x 15 look.toNat tok.toNat (resultRegs d (sizeLen (fatSize sz)))
        (u.fabEntry i x vp vo fun l => x.g.imgs vc.toNat (atomLen op (fatSize sz)) l)) ∧
    ∀ s, issues i s = true → let bad := fun (x : Seat) => x.act &&& maskOf fun l => (x.offset vo l).val.toNat % n != 0
      (∃ x ∈ s.seats mk.toNat, bad x ≠ 0#32) →
      Traps i s ((s.seats mk.toNat).filterMap fun x => (lowLane? (bad x)).map fun l =>
        (x.key, flaw 0x12 0x40 (bad x) (x.g.pairAt vp.toNat l) ((x.offset vo l).val.setWidth 64)))) ∧
  (∀ q, ∀ rhnd : HNum, ∀ tok, let i : Instr := .fmcst q rhnd tok
    let bad := fun (x : Seat) => let quad := x.lowQuad q
      4096 ≤ quadNat quad 2 ∨ offOf (quadWord quad 0) % 256 ≠ 0 ∨ quadNat quad 3 % 256 ≠ 0 ∨ offOf (x.g.hreg rhnd.toNat) % 8 ≠ 0
    let accs := fun (x : Seat) => ([⟨x.low0, quadWord (x.lowQuad q) 0, 256, false, true, 1, false⟩,
      ⟨x.low0, x.g.hreg rhnd.toNat, 72, true, false, 1, false⟩] : List Acc)
    Acts i (fun s x => !x.first || (!decide (bad x) && (s.accFlaw x (accs x)).isNone)) (fun x u => if x.first then
        let src := quadWord (x.lowQuad q) 0
        let ar := x.g.hreg rhnd.toNat
        u.putStore x 15 tok.toNat { u.newEntry i x with
          vals := [(0, x.lowQuad q), (keyDest, pairImgs (intPair ar))]
          maps := u.mapsFor (u.partOf x.g) (coreOf x.key) [src, ar]
          todo := u.readPieces x.key x.low0 src 256 false ++ u.writePieces x.key x.low0 ar (List.replicate 72 0#8) .other }
      else u) ∧
    ∀ s, issues i s = true → (∀ x ∈ s.seats 0, x.first = true → bad x) →
      Traps i s (((s.seats 0).filter (·.first)).map fun x => (x.key, flaw 0x12 0x41 x.act (quadWord (x.lowQuad q) 0)
        (BitVec.ofNat 64 (quadNat (x.lowQuad q) 3))))) ∧
  (Acts .fwait (fun s x => !s.fabOpen x.key s.issuedAt) fun x u => u.observeFabric x.key) ∧
  (∀ e, ∀ va : VNum, Acts (.fpeerExport e va) (fun _ _ => true) fun x u => if x.first then u.updPart (u.partOf x.g) fun p =>
    { p with exports := Tab.put p.exports e.toNat (exportEntry (x.g.pairAt va.toNat x.low0) (coreOf x.key)) } else u) ∧
  (∀ v core, core < 1024 → (exportEntry v core).getLsbD 63 = true ∧ fieldOf (exportEntry v core) 24 39 = fieldOf v 24 39 ∧
    exportCore (exportEntry v core) = (if coreRelative (fieldOf v 24 24) = true then core else 0)) ∧
  (∀ e, Acts (.fpeerRevoke e) (fun _ _ => true) fun x u => if x.first then u.updPart (u.partOf x.g) fun p =>
    { p with exports := Tab.put p.exports e.toNat (Tab.at p.exports 0#64 e.toNat &&& 0x7FFFFFFFFFFFFFFF#64) } else u) ∧
  (∀ s vd e, issues (.fpeerStat vd e) s = true → Completes (.fpeerStat vd e) s (s.counted 0)
    (fun x => x.give (outWord vd.toNat (Tab.at (s.part (s.partOf x.g)).exports 0#64 e.toNat))) fun _ => []) ∧
  (∀ s vd p, issues (.fpeerPort vd p) s = true → Completes (.fpeerPort vd p) s (s.counted 0)
    (fun x => x.give (outWord vd.toNat (s.portWord p.toNat))) fun _ => []) ∧
  (∀ g, ∀ va : VNum, let i : Instr := .fpeerMcdef g va
    Acts i (fun _ _ => true) fun x u => if x.first then u.putStore x 15 0 { u.newEntry i x with
        addrs := [(0, x.g.pairAt va.toNat x.low0)]
        maps := u.mapsFor (u.partOf x.g) (coreOf x.key) [x.g.pairAt va.toNat x.low0] }
      else u)

/-- R403-R416, R496-R502: requests on the fabric. The model's choices: the order of the refusal reasons (log 59), that a lost request which has arrived performs first (log 124), and that peers' requests of one device to one line perform in the order they arrive (log 147); R492-R496, R505. The model's choices: the ports and planes of lines (log 121), which flit fails and how replays count (log 122), batches held for a fence (log 125), and the bit of the surprise down error (log 145). -/
def Obligations.FabricAndLinks : Prop :=
  (∀ s core ctx key g e rest, s.keyOf core ctx = some key → s.gang? key = some g → g.stream 15 = e :: rest → Tab.rising g.streams = true →
    g.gated e = false → (∃ sz d vp vo l t m, e.instr = .fld sz d vp vo l t m) ∨ (∃ sz r vs vp vo t m, e.instr = .fst sz r vs vp vo t m) →
    s.requests e ≠ [] → (∀ r ∈ s.requests e, s.planeHeld r = false) → s.planeLive 0 = true → s.fab = [] →
    ∃ t o g', exec (.fabricSend core ctx) s = .next t ∧ t.mem = s.mem ∧ t.fab = [o] ∧ o.gang = key ∧ o.entry = e ∧
      o.reqs.map (fun r => (r.lane, r.desig, r.u, r.pos, r.n, r.req)) = (s.requests e).map (fun r => (r.lane, r.desig, r.u, r.pos, r.n, r.req)) ∧
      (∀ r ∈ o.reqs, r.sent = true ∧ r.ans = none ∧ r.plane = s.planeOf r.home ∧ r.port = s.portOn (s.planeOf r.home) r.side) ∧ t.gang? key = some g' ∧ g'.stream 15 = rest) ∧
  (∀ e : Entry, e.replays.Pairwise (· < ·) ∧ ∀ d, d ∈ e.replays ↔ ∃ la ∈ e.addrs, la.2.toNat = d) ∧
  (∀ s src desig u req, src ≠ Config.device.toNat → desigDevice desig = Config.device.toNat → desigExport desig ≠ 4095 →
    (∀ r ∈ s.inbox, r.src ≠ src ∨ r.own ≠ none) →
    let pno := desigPart desig
    let o := desigOffset desig u.toNat
    (∀ n, s.peerRefusal src pno (desigExport desig) o req = some n → ∃ t, exec (.fabricTargetPerform src desig u req) s = .next t ∧
      t = { s with ports := t.ports, mgmt := { s.mgmt with fablog := t.mgmt.fablog } }) ∧
    (s.peerRefusal src pno (desigExport desig) o req = none → ∀ h,
      (s.part pno).exported (Tab.at (s.part pno).exports 0#64 (desigExport desig)) = some h →
      exec (.fabricTargetPerform src desig u req) s = .next { s.takeFlits (s.portOfLine o) (reqFlits req) with
        nextId := s.nextId + 1
        inbox := s.inbox ++ [⟨s.nextId, none, src, desig, o, req, pno,
          s.reqPieces pno (Tab.at (s.part pno).exports 0#64 (desigExport desig)) h o req, []⟩] })) ∧
  (∀ s id r n p, s.inbox.find? (fun r => r.id == id) = some r → r.todo[n]? = some p → s.poison = [] → p.cls = .plain →
    p.tagCells = [] → (∀ x ∈ s.inbox, x.id = id → s.peerBehind x = false) → ((∃ k, r.req = .read k) ∨ (∃ bs x y, r.req = .write bs x y) ∨ ∃ bs, r.req = .line bs) →
    ∃ t, exec (.performPiece (.inbound id) n .none) s = .next t ∧ t = { s with mem := t.mem, inbox := t.inbox, ports := t.ports } ∧
      ((∃ k, r.req = .read k) → t.mem = s.mem) ∧
      ((∀ k, r.req ≠ .read k) → t.mem = Memory.sets s.mem (List.zip p.cells p.data)) ∧
      (r.todo.length ≠ 1 → t.ports = s.ports ∧ ∃ r', t.inbox = s.inbox.map (fun x => if x.id = id then r' else x) ∧
        r' = { r with todo := r.todo.eraseIdx n, got := r'.got }) ∧
      (r.todo.length = 1 → r.own = none → t.inbox = s.inbox.filter fun x => x.id != id)) ∧
  (∀ (s : State) src pno exp o req, (20 ≤ pno → s.peerRefusal src pno exp o req = some 1) ∧
    (pno < 20 → (s.part pno).formed = true → (s.part pno).inn = false → s.peerRefusal src pno exp o req = some 6) ∧
    (pno < 20 → (s.part pno).formed = true → (s.part pno).inn = true →
      ((Tab.at (s.part pno).exports 0#64 exp).getLsbD 63 = false → s.peerRefusal src pno exp o req = some 1) ∧
      ((Tab.at (s.part pno).exports 0#64 exp).getLsbD 63 = true → (Tab.at (s.part pno).exports 0#64 exp).getLsbD (reqGrant req) = false →
        s.peerRefusal src pno exp o req = some 2))) ∧
  (∀ s src pno n, src ≠ Config.device.toNat → pno < 20 → (s.part pno).formed = true → (s.part pno).inn = true → n < 65536 →
    (s.queue n).part = pno → (s.part pno).admits (s.queue n).acl src = true → (∀ r ∈ s.inbox, r.src ≠ src ∨ r.own ≠ none) →
    ∃ t, exec (.queuePortPost src pno (64 * n) 4 true) s = .next t ∧
      t = { (s.updQueue n fun q => { q with tail := q.tail + 1#32 }) with ports := t.ports }) ∧
  (∀ s id lane o r ans, s.fabReq? id lane = some (o, r) → (s.fab.map (·.entry.id)).Nodup → 2 ≤ (o.reqs.filter (·.ans.isNone)).length → o.record = none →
    (∀ x ∈ s.fab, ∀ q ∈ x.reqs, q.into = none) → (∀ x ∈ s.fab, x.record = none → ∃ q ∈ x.reqs, q.ans = none) → r.ans = none → r.into = none → r.gone = false → desigDevice r.desig ≠ Config.device.toNat →
    (∃ b bs, r.req = .write b false false ∧ ans = .pos bs ∧ bs = []) → ∃ t o', exec (.fabricReply id lane ans) s = .next t ∧ t.mem = s.mem ∧
      o' ∈ t.fab ∧ o'.entry.id = id ∧ (o'.reqs[lane]?).map (·.ans) = some (some ans) ∧
      ∀ j, j ≠ lane → (o'.reqs[j]?) = o.reqs[j]?) ∧
  (∀ s id lane o r, s.fabReq? id lane = some (o, r) → r.sent = true → r.ans = none → r.into = none → ∃ t, exec (.switchDiscard id lane) s = .next t ∧
    t = { s with fab := t.fab } ∧ ∀ x ∈ t.fab, x.entry.id = id → ∀ q, x.reqs[lane]? = some q → q.gone = true) ∧
  (∀ s id lane o r, s.fabReq? id lane = some (o, r) → r.sent = true → r.ans = none → r.into = none →
    (r.gone = true ∨ s.planeLive r.plane = false) →
    exec (.requestLost id lane) s = .next ((s.finishLost id lane).answer id lane (.neg 10) false) ∧
    ((∀ x ∈ s.inbox, x.own ≠ some (id, lane)) → s.finishLost id lane = s)) ∧
  (∀ s id lane, s.fabReq? id lane = none → exec (.switchDiscard id lane) s = .next { s with
    batches := s.batches.map fun b => if b.id = id && b.sent && decide (1024 ≤ b.dst) then { b with gone := true } else b }) ∧
  (∀ s a b oa ra ob rb v t v' t' m z, s.fabReq? (a / 64) (a % 64) = some (oa, ra) → s.fabReq? (b / 64) (b % 64) = some (ob, rb) → a ≠ b →
    ra.req = .radd v t m z → rb.req = .radd v' t' m z → (∀ r ∈ [ra, rb], r.sent = true ∧ r.ans = none ∧ r.into = none ∧ r.gone = false) →
    (∀ x ∈ s.inbox, x.own ≠ some (a / 64, a % 64) ∧ x.own ≠ some (b / 64, b % 64)) →
    s.keepsLine (a / 64, a % 64) oa ra (b % 64) ob rb = true → ra.moment ≤ rb.moment → fieldOf ra.desig 27 37 = fieldOf rb.desig 27 37 → ra.offset = rb.offset →
    ∃ w o', exec (.raddCombine a b) s = .next w ∧ w = { s with fab := w.fab } ∧ o' ∈ w.fab ∧ o'.entry.id = a / 64 ∧
      let y := (faddLane .f32 (⟨v, t⟩, zeroImg) (⟨v', t'⟩, zeroImg)).1
      (o'.reqs[a % 64]?).map (·.req) = some (.radd y.val y.tag m z)) ∧
  (∀ s core ctx key g e rest grp va n ws, s.keyOf core ctx = some key → s.gang? key = some g → g.stream 15 = e :: rest →
    e.instr = .fpeerMcdef grp va → g.gated e = false → s.poison = [] → s.lost = [] → s.links = 3#2 → s.rangesOf (s.partOf g) = [] →
    s.mcList (s.partOf g) (quarterOf core) e = (n, some ws) →
    (∀ p ∈ e.mcPieces n, ∀ l, p.cls = .tso l → l < 2) →
    ∃ t, exec (.mcdefRead core ctx) s = .next t ∧ t.mem = s.mem ∧ Tab.find? (t.part (s.partOf g)).mcast grp.toNat = some ws) ∧
  (∀ s id o ps n p, s.fab.find? (fun o => o.entry.id == id) = some o → o.record = some ps → ps[n]? = some p → p.cls = .plain →
    p.tagCells = [] → p.tagCls = .plain → s.poison = [] → s.atomHolds p.cells = false → (p.space = 1 → s.links.getLsbD p.link = true) →
    ∃ t, exec (.mcastAckRecord id n) s = .next t ∧
      t.mem = Memory.sets s.mem (List.zip p.cells p.data) ∧ t.fab = s.fab.map fun x =>
        if x.entry.id = id then { x with record := some (ps.eraseIdx n) } else x) ∧
  (∀ s p, p < 16 → (s.port p).up = true → let x := s.port p
    exec (.flitReplay p) s = .next (s.setPort p { x with awaits := true }) ∨
    (x.acked < x.sent ∧ x.replays < 8 ∧ ∃ f, x.acked ≤ f ∧ f < x.sent ∧ exec (.flitReplay p) s = .next (s.setPort p { x with
      acked := f
      failed := f
      replays := if f = x.failed ∧ 0 < x.replays then x.replays + 1 else 1 })) ∨
    ((x.sent ≤ x.acked ∨ 8 ≤ x.replays) ∧ exec (.flitReplay p) s = .next s)) ∧
  (∀ (s : State) p k, (s.takeFlits p k).port p = { s.port p with expect := (s.port p).expect + BitVec.ofNat 12 k, awaits := false }) ∧
  (∀ x : Port, x.acked < x.sent → (∃ h ∈ x.headers, h ≤ x.acked) →
    x.packetStart ∈ x.headers ∧ x.packetStart ≤ x.acked ∧ ∀ h ∈ x.headers, h ≤ x.acked → h ≤ x.packetStart) ∧
  (∀ s p lanes i, p < 16 → let x := s.port p
    ((i = .portRetrain p lanes ∧ (8 ≤ x.replays ∨ x.lanes &&& ~~~lanes ≠ 0#16)) ∨ i = .laneSetChange p lanes) →
    ∃ t, exec i s = .next t ∧ t = { s with ports := t.ports, mgmt := { s.mgmt with fablog := t.mgmt.fablog } } ∧
      let now := if i = .laneSetChange p lanes then lanes else x.lanes &&& lanes
      t.port p = { x with
        lanes := now
        up := now != 0#16
        replays := 0
        acked := if i = .laneSetChange p lanes then x.sent else if x.lanes &&& ~~~lanes = 0#16 then x.acked else x.packetStart } ∧
      ∀ q, q ≠ p → t.port q = s.port q) ∧
  (∀ (lanes : BitVec 16) i, lanes ≠ 0#16 → let n := ((List.range 16).filter lanes.getLsbD).length
    ∃ l, laneOfByte lanes i = some l ∧ lanes.getLsbD l = true ∧ ((List.range l).filter lanes.getLsbD).length = i % n) ∧
  (∀ (s : State) plane side, side < 2 → s.portOn plane side =
    if (s.port (2 * plane + side)).up = true then 2 * plane + side else 2 * plane + (1 - side)) ∧
  (∀ s p q, p < 8 → s.planeLive p = false → s.planeLive (s.planeOf p) = false → s.outOn p (s.planeOf p) = false → s.partner? p = some q →
    ∃ t, exec (.planeRemap p) s = .next t ∧ t.planeOf p = q ∧ (∀ r, r < 8 → r ≠ p → t.planeOf r = s.planeOf r) ∧
      t.planeHold.getLsbD p = false ∧ t = { s with
        planeVia := t.planeVia
        planeHold := t.planeHold
        batches := s.batches.map fun b => if b.outOn p (s.planeOf p) = true then { b with gone := true } else b
        mgmt := { s.mgmt with fablog := t.mgmt.fablog } }) ∧
  (∀ (s : State) p q, s.partner? p = some q → s.planeLive q = true ∧ q ∈ [4, 2, 6, 1, 5, 3, 7].map (p ^^^ ·)) ∧
  (∀ s p, p < 8 → s.planeOf p ≠ p → s.planeLive p = true → Tab.rising s.planeVia = true →
    (s.planeHold.getLsbD p = false → exec (.planeRestore p) s = .next { s with planeHold := s.planeHold ||| BitVec.ofNat 8 (2 ^ p) }) ∧
    (s.planeHold.getLsbD p = true → s.outOn p (s.planeOf p) = false → ∃ t, exec (.planeRestore p) s = .next t ∧ t.planeOf p = p ∧
      t.planeHold.getLsbD p = false ∧ t = { s with
        planeVia := t.planeVia
        planeHold := t.planeHold
        batches := s.batches.map fun b =>
          if b.outOn p (s.planeOf p) = true ∧ s.planeLive (s.planeOf p) = false then { b with gone := true } else b
        mgmt := { s.mgmt with fablog := t.mgmt.fablog } })) ∧
  (∀ s link, link < 2 → s.links.getLsbD link = true → ∃ t, exec (.hostLinkDown link) s = .next t ∧ t.links.getLsbD link = false ∧
    t.hostQ = s.hostQ.filter (fun h => h.link != link) ∧ t.mem = s.mem ∧
    t = { s with
      links := t.links
      linkAt := Tab.put s.linkAt link s.nextId
      hostQ := t.hostQ
      mgmt := { s.mgmt with fablog := t.mgmt.fablog, aer := Tab.upd s.mgmt.aer 0#32 link (· ||| 0x20#32) } }) ∧
  (∀ (s : State) v, let l := v / 1024 % 2
    (s.links.getLsbD l = true → s.interrupt v = { s with mgmt := { s.mgmt with irqs := Tab.upd s.mgmt.irqs 0 (l * 1024 + v % 1024) (· + 1) } }) ∧
    (s.links.getLsbD l = false → s.links.getLsbD (1 - l) = true →
      s.interrupt v = { s with mgmt := { s.mgmt with irqs := Tab.upd s.mgmt.irqs 0 ((1 - l) * 1024 + v % 1024) (· + 1) } }) ∧
    (s.links = 0#2 → s.interrupt v = s)) ∧
  (∀ s link, link < 2 → ∃ t, exec (.hostLinkUp link) s = .next t ∧ t = { s with links := t.links } ∧ t.links.getLsbD link = true ∧
    ∀ k, k ≠ link → t.links.getLsbD k = s.links.getLsbD k)

/-- R371, R372, R460; R361-R368, R374, R375, R451, R470. The model's choices: in the trap of QPOST the other members report the first one's cause with no lanes (log 22), a stall takes a slot of the core's next clock (log 119), and the target of IDEM.BEGIN is not checked at issue (log 31). -/
def Obligations.BarriersAndScheduling : Prop :=
  (∀ g tok, Acts (.barv g tok) (fun s x => (s.barFlaw x g.toNat).isNone && s.rejoined &&
      decide (Tab.at x.g.arr 0 g.toNat ≤ s.phase x.g.launch g.toNat)) fun x u =>
    (u.updGang x.key fun y => { y with arr := Tab.put y.arr g.toNat (Tab.at y.arr 0 g.toNat + 1) }).putRel x (.barrier g.toNat)
      []
      (u.openEntries x.key) none tok.toNat) ∧
  (∀ g, Acts (.barw g) (fun s x => (s.barFlaw x g.toNat).isNone &&
      decide (Tab.at x.g.arr 0 g.toNat ≤ s.phase x.g.launch g.toNat)) fun x u => u.acquire x.key (.barrier x.g.launch g.toNat)) ∧
  (∀ g, Acts (.bars g) (fun s x => (s.barFlaw x g.toNat).isNone && s.hasArrived &&
      decide (Tab.at x.g.arr 0 g.toNat ≤ s.phase x.g.launch g.toNat)) fun x u => u.acquire x.key (.barrier x.g.launch g.toNat)) ∧
  (∀ s g, issues (.bars g) s = true → s.hasArrived = false → s.rejoined = true →
    (∀ x ∈ s.seats 0, s.barFlaw x g.toNat = none ∧ Tab.at x.g.arr 0 g.toNat ≤ s.phase x.g.launch g.toNat) →
    ∃ t, exec (.bars g) s = .next t ∧ t.mem = s.mem ∧ t.rels.length = s.rels.length + (s.seats 0).length ∧
      ∀ x ∈ s.seats 0, ∃ g', t.gang? x.key = some g' ∧ g' = { x.g with arr := g'.arr, fetched := g'.fetched, waits := g'.waits, idem := none } ∧
        ∀ n, Tab.at g'.arr 0 n = Tab.at x.g.arr 0 n + if n = g.toNat then 1 else 0) ∧
  (∀ s vd g, issues (.barq vd g) s = true → (∀ x ∈ s.seats 0, s.barFlaw x g.toNat = none) →
    Completes (.barq vd g) s (s.counted 0) (fun x => match s.group? x g.toNat with
      | some grp => x.give (outWord vd.toNat (BitVec.ofNat 64 (s.countUnarrived x.g.launch g.toNat grp % 2 ^ 24 * 2 ^ 40 +
          s.phase x.g.launch g.toNat % 2 ^ 24 * 2 ^ 16 + (if s.phase x.g.launch g.toNat < Tab.at x.g.arr 0 g.toNat then 2 ^ 15 else 0) +
          grp.span % 4 * 2 ^ 8 + grp.wire % 64)))
      | none => []) fun _ => []) ∧
  (∀ s i g, ((∃ tok, i = .barv g tok) ∨ i = .barw g ∨ i = .bars g ∨ ∃ vd, i = .barq vd g) → issues i s = true →
    (∀ x ∈ s.seats 0, s.barFlaw x g.toNat ≠ none) →
    Traps i s ((s.seats 0).filterMap fun x => (s.barFlaw x g.toNat).map fun f => (x.key, f))) ∧
  (∀ (s : State) x g, (s.group? x g = none → s.barFlaw x g = some (flaw 0x09 1 x.act (BitVec.ofNat 64 g))) ∧
    ∀ grp, s.group? x g = some grp →
      (x.g.desig ∉ grp.members → s.barFlaw x g = some (flaw 0x09 2 x.act (BitVec.ofNat 64 g))) ∧
      (x.g.desig ∈ grp.members → grp.bar = false → s.barFlaw x g = some (flaw 0x09 3 x.act (BitVec.ofNat 64 g))) ∧
      (x.g.desig ∈ grp.members → grp.bar = true → s.barFlaw x g = none)) ∧
  (Acts .yield (fun _ _ => true) fun x u => u.updGang x.key fun g => { g with offer := true }) ∧
  (Acts .yieldBal (fun _ _ => true) fun x u => if (u.core (coreOf x.key)).high = true then u.updGang x.key fun g => { g with offer := true } else u) ∧
  (∀ k, Acts (.prioSet k) (fun _ _ => true) fun x u => u.updGang x.key fun g => { g with own := min k.toNat g.qpri }) ∧
  (Acts .prioRestore (fun _ _ => true) fun x u => u.updGang x.key fun g => { g with own := g.base }) ∧
  (∀ (g : Gang) part w, (g.enterClause part w).ownNow = g.own) ∧
  (∀ (s : State) key g, s.gang? key = some g → s.effClass key = max g.ownNow (s.inherited key)) ∧
  (∀ keep disp, Acts (.idemBegin keep disp) (fun s _ => s.united s.cur.key) fun x u => u.updGang x.key fun g =>
    { g with idem := some ⟨dispTarget u.cur.pc disp, keep.toNat, g.live, g.regs.filter fun r => decide (r.1 < 16 * keep.toNat), g.hregs⟩ }) ∧
  (∀ s keep disp, issues (.idemBegin keep disp) s = true → s.united s.cur.key = false →
    Traps (.idemBegin keep disp) s (s.all 0 0x01 7 0#64 0#64)) ∧
  (Acts .idemEnd (fun _ _ => true) fun _ u => u) ∧
  (∀ vq : VNum, ∀ hnd disp stream tok, let i : Instr := .qpost vq hnd disp stream tok
    let queue := fun (x : Seat) => (x.g.pairAt vq.toNat x.low0).toNat % 65536
    let src := fun (x : Seat) => laneAddr x.g ⟨hnd, none, disp⟩ 16 x.low0
    Acts i (fun s x => !x.first || ((s.accFlaw x [⟨x.low0, src x, 64, false, true, 1, false⟩]).isNone &&
        fieldOf (s.queue (queue x)).w1 0 5 == s.partOf x.g && offOf (src x) % 64 == 0)) (fun x u => if x.first then
      u.putStore x stream.toNat tok.toNat { u.newEntry i x with
        vals := [(0, [⟨BitVec.ofNat 32 (queue x), 0x1F#8⟩])]
        addrs := [(0, src x)]
        maps := match u.hnd? x.key (src x) with
          | some h => [(hndOf (src x), h)]
          | none => [] } else u) ∧
    ∀ s, issues i s = true → (∀ x ∈ s.seats 0, x.first = true → s.accFlaw x [⟨x.low0, src x, 64, false, true, 1, false⟩] = none ∧
        (fieldOf (s.queue (queue x)).w1 0 5 ≠ s.partOf x.g ∨ offOf (src x) % 64 ≠ 0)) →
      Traps i s (((s.seats 0).filter (·.first)).map fun x => (x.key, flaw 0x0E
        (if fieldOf (s.queue (queue x)).w1 0 5 ≠ s.partOf x.g then 1 else 2) x.act (BitVec.ofNat 64 (queue x)) (src x)))) ∧
  (∀ s core ctx key g, s.leadAt core ctx = some key → s.gang? key = some g → g.st = .active → s.longWait key = true →
    s.wouldPass core ctx key = false → exec (.swapOut core ctx) s = .next (s.moveTeam key .waiting)) ∧
  (∀ s core ctx key g, s.leadAt core ctx = some key → s.gang? key = some g → g.st = .ready → s.firstReady core key g = true →
    (s.activeOn core).length + g.mates.length ≤ 8 → exec (.recallGang core ctx) s = .next (s.moveTeam key .active)) ∧
  (∀ (s : State) key st, s.moveTeam key st = { s with gangs := (s.moveTeam key st).gangs } ∧ ∀ kg ∈ s.team key, s.gang? kg.1 = some kg.2 →
    ((s.team key).map (·.1)).Nodup → (s.moveTeam key st).gang? kg.1 = some { kg.2 with st := st, since := s.tick, clauses := 0, offer := false }) ∧
  (∀ s core imb under, exec (.balanceWindow core imb under) s = .next (s.updCore core fun c => { c with imb := min imb 127, under := under })) ∧
  (∀ s core, exec (.balanceStall core) s = .next (if (s.core core).under = false ∧ s.drawsMore core = true then s.updCore core fun c =>
    { c with stalls := min (c.stalls + 1) (2 ^ 24 - 1), idleSlots := min 4 (c.idleSlots + 1) } else s)) ∧
  (∀ s core, exec (.balanceDeferral core) s = .next (if (s.core core).under = true ∧ s.defersSome core = true then s.updCore core fun c =>
    { c with defers := min (c.defers + 1) (2 ^ 24 - 1) } else s)) ∧
  (∀ s res, ∃ t, exec (.bandwidthWindow res) s = .next t ∧ t = { s with used := t.used } ∧
    ∀ u, u ∈ t.used ↔ u ∈ s.used ∧ u.1 / 65536 ≠ res)

/-- R271, R353-R360, R375, R414, R415. -/
def Obligations.QueuesAndLaunches : Prop :=
  (∀ s q, q < 65536 → (s.queue q).part ≠ 31 → exec (.doorbellWrite q 0 4) s = .next (s.updQueue q fun x => { x with tail := x.tail + 1#32 })) ∧
  (∀ s q ofs size, (65536 ≤ q ∨ ofs ≠ 0 ∨ size ≠ 4 ∨ (s.queue q).part = 31) → exec (.doorbellWrite q ofs size) s = .next s) ∧
  (∀ s n, s.hasHead (s.queue n) = true → let h := s.headOf (s.queue n)
    let keeps := fun (h : Head) => exec (.takePacket n) s = .next ({ s with lost := [] }.updQueue n fun x => { x with packet := some h })
    (s.headTake (s.queue n) h = .wait → keeps h) ∧
    (∀ pl, s.headTake (s.queue n) h = .hold pl → keeps { h with plan := some pl }) ∧
    ((s.headTake (s.queue n) h).goes = true → s.servesNext n (s.queue n) = false → keeps h) ∧
    (s.servesNext n (s.queue n) = true →
      (∀ c, s.headTake (s.queue n) h = .done c → ∃ t, exec (.takePacket n) s = .next t ∧ t = { s with queues := t.queues, parts := t.parts, lost := [] } ∧
        t.queue n = { s.queue n with
          head := (s.queue n).head + 1#32
          taken := (s.queue n).taken ++ [⟨(s.queue n).head.toNat, some c, Packet.irq ⟨h.words⟩, Packet.serial ⟨h.words⟩⟩]
          packet := none } ∧
        ∀ m, m ≠ n → t.queue m = s.queue m) ∧
      ∀ pl gs ps, s.headTake (s.queue n) h = .launch pl gs ps → ∃ t l, exec (.takePacket n) s = .next t ∧ t.launch? s.nextId = some l ∧
        l.pno = (s.queue n).part ∧ l.queue = n ∧ l.halt = none ∧ l.roles = pl.roles ∧ l.groups = gs ∧
        (t.queue n).head = (s.queue n).head + 1#32 ∧ (t.queue n).packet = none)) ∧
  (∀ (s : State) q h, (q.packet = some h → s.headOf q = h) ∧ (h.flaw ≠ 0 → s.headTake q h = .done h.flaw) ∧
    (q.packet = none → s.dispRead? q.part true (q.slot q.head.toNat) 64 = none → s.headOf q = ⟨[], 0x0E, none⟩) ∧
    ∀ bs, q.packet = none → s.dispRead? q.part true (q.slot q.head.toNat) 64 = some bs →
      s.headOf q = ⟨wordsOf bs, if s.packetOk q.part ⟨wordsOf bs⟩ = true then 0 else 1, none⟩) ∧
  (∀ s n t0 rest c, (s.queue n).taken = t0 :: rest → t0.status = some c → ∃ t, exec (.packetComplete n) s = .next t ∧
    t.queue n = { s.queue n with
      comp := (s.queue n).comp + 1#48
      lstat := BitVec.ofNat 8 c
      taken := rest } ∧ (∀ m, m ≠ n → t.queue m = s.queue m) ∧ t.mem = s.mem ∧
    t.mgmt = (if t0.irq = true then (s.interrupt (s.queue n).vector).mgmt else s.mgmt)) ∧
  (∀ (s : State) v k, v < 2048 → let sent : Nat → Prop := fun m => Tab.at (s.interrupt v).mgmt.irqs 0 k =
      (if k = m then Tab.at s.mgmt.irqs 0 k + 1 else Tab.at s.mgmt.irqs 0 k);
    (s.links.getLsbD (v / 1024) = true → sent v) ∧
    (s.links.getLsbD (v / 1024) = false → s.links.getLsbD (1 - v / 1024) = true → sent ((1 - v / 1024) * 1024 + v % 1024)) ∧
    (s.links = 0#2 → s.interrupt v = s)) ∧
  (∀ s core ctx st key g e rest vq hnd disp str tok, s.keyOf core ctx = some key → s.gang? key = some g → g.stream st = e :: rest →
    e.instr = .qpost vq hnd disp str tok → Tab.rising g.streams = true →
    let n := (((Tab.at e.vals [] 0).getD 0 zeroImg).val).toNat % 65536
    let ready := e.sent = true ∨ g.gated e = false ∧ s.hasUndrained key none = false ∧
      ∀ t ∈ g.streams, ∀ x ∈ t.2, x.id < e.id → isAccess x.instr = false
    (ready → (s.queue n).full = false → (∀ r ∈ s.atoms, r.old = none) → ∃ t g', exec (.qpostDeliver core ctx st) s = .next t ∧
      t.queue n = { s.queue n with tail := (s.queue n).tail + 1#32 } ∧ (∀ m, m ≠ n → t.queue m = s.queue m) ∧
      t.gang? key = some g' ∧ g'.stream st = rest ∧ g'.regs = g.regs ∧ (e.bad = [] → (e.sent = true ∨
        s.poison = [] ∧ s.lost = [] ∧ s.links = 3#2 ∧ ∀ m ∈ e.maps, m.2.link < 2) → g'.deferred = g.deferred)) ∧
    (e.sent = true → (s.slotPieces (s.partOf g) core ((s.queue n).slot (s.queue n).tail.toNat) (e.bytes 0 64)).any (fun p => s.atomHolds p.cells) = true →
      exec (.qpostDeliver core ctx st) s = .next s) ∧
    (ready → (s.queue n).full = true → ∃ t g' e', exec (.qpostDeliver core ctx st) s = .next t ∧ t.queues = s.queues ∧ t.mem = s.mem ∧
      t.gang? key = some g' ∧ g' = { g with streams := g'.streams } ∧ g'.stream st = e' :: rest ∧ e'.sent = true ∧
      e' = { e with sent := true, got := e'.got, bad := e'.bad } ∧ (e.sent = true → t = s)) ∧
    (¬ ready → exec (.qpostDeliver core ctx st) s = .next s)) ∧
  (∀ s l x, s.launch? l = some x → s.launchDone l x = true → (s.part x.pno).inn = true → Tab.rising s.launches = true →
    ∃ t, exec (.launchEnd l) s = .next t ∧ t.launch? l = none ∧ (∀ k ∈ x.gangs.map (·.2), t.gang? k = none) ∧
      (∀ k, k ∉ x.gangs.map (·.2) → t.gang? k = s.gang? k) ∧ ∀ y ∈ (s.queue x.queue).taken, y.number = x.packet → y.status = none →
        { y with status := some (x.halt.getD 0) } ∈ (t.queue x.queue).taken)

/-- R427-R429. That a read of CYCLE moves the core's counter by Config.clocks of the step, one count for all members, is the model's choice (log 10). -/
def Obligations.SpecialRegisters : Prop :=
  (∀ s vd csr, csr ≠ .cycle → issues (.csrrd vd csr) s = true → Completes (.csrrd vd csr) s (s.counted 0)
    (fun x => x.give (outWord vd.toNat (s.csrRead x csr))) fun _ => []) ∧
  (∀ s vd core, issues (.csrrd vd .cycle) s = true → (∀ x ∈ s.seats 0, coreOf x.key = core) →
    Completes (.csrrd vd .cycle) s ((s.counted 0).clock core)
      (fun x => x.give (outWord vd.toNat (BitVec.ofNat 64 ((s.core core).cycle + Config.clocks s.tick)))) fun _ => []) ∧
  (∀ i csr, ∀ va : VNum, ∀ f : Word64 → Word64 → Word64, ((i = .csrwr csr va ∧ f = fun _ v => v) ∨ (i = .csrwrSet csr va ∧ f = fun r v => r ||| v) ∨
      (i = .csrwrClr csr va ∧ f = fun r v => r &&& ~~~v)) →
    let value := fun (s : State) (x : Seat) => f (s.csrRead x csr) (x.g.pairAt va.toNat x.low0)
    let writable := csr ∈ [Csr.rndctl, .sigfloor, .memctl, .idxcnt, .tcause, .tpc]
    (writable → Acts i (fun s x => csrAllows csr (value s x)) fun x u => u.updGang x.key fun g => g.csrWrite csr (value u x)) ∧
    (∀ s, issues i s = true → ¬ writable → Traps i s (s.all 0 0x0F 1 0#64 0#64)) ∧
    (∀ s, issues i s = true → writable → (∀ x ∈ s.seats 0, csrAllows csr (value s x) = false) → Traps i s (s.all 0 0x0F 2 0#64 0#64))) ∧
  (∀ (s : State) x v, csrAllows .sigfloor v = decide (v.toNat ≤ 55) ∧ csrAllows .memctl v = decide (v.toNat ≤ 1) ∧
    csrAllows .idxcnt v = decide (v.toNat < 2 ^ 32) ∧ csrAllows .tcause v = decide (v.toNat < 2 ^ 25) ∧ csrAllows .tpc v = true ∧
    csrAllows .rndctl v = decide (v.toNat < 256 ∧ v.toNat % 16 = 0 ∧ v.toNat / 32 ≤ 4) ∧
    s.csrRead x .sigfloor = x.g.sigfloor ∧ s.csrRead x .rndctl = x.g.rndctl ∧ s.csrRead x .tpc = x.g.tpc ∧ s.csrRead x .tcause = x.g.tcause) ∧
  (∀ (g : Gang) v, g.csrWrite .sigfloor v = { g with sigfloor := v } ∧ g.csrWrite .rndctl v = { g with rndctl := v } ∧
    g.csrWrite .memctl v = { g with memctl := v } ∧ g.csrWrite .idxcnt v = { g with idxcnt := v } ∧
    g.csrWrite .tcause v = { g with tcause := v } ∧ g.csrWrite .tpc v = { g with tpc := v, tstat := g.tstat ||| 2#64 })

/-- R430: the encoding, and the software trap at issue. -/
def Obligations.TrapWord : Prop :=
  (∀ code : BitVec 22, encode (.trap code) = [BitVec.ofNat 64 (0xF2 * 2 ^ 54 + code.toNat)] ∧
    decodeWords [BitVec.ofNat 64 (0xF2 * 2 ^ 54 + code.toNat)] = .ok (.trap code)) ∧
  (∀ s code, issues (.trap code) s = true → Traps (.trap code) s (s.all 0 0x10 0 (code.setWidth 64) 0#64))

/-- R431-R433, R443. -/
def Obligations.ReturnsAndContexts : Prop :=
  (∀ s i next, ((i = .rte ∧ next = false) ∨ (i = .rteNext ∧ next = true)) → issues i s = true → s.rejoined = true →
    (∀ x ∈ s.seats 0, x.g.inTrap = true) → ((s.team s.cur.key).map (·.1)).Nodup → ∃ t, exec i s = .next t ∧ t = { s with gangs := t.gangs } ∧
      ∀ kg ∈ s.team s.cur.key, ∃ g', t.gang? kg.1 = some g' ∧ g'.inTrap = false ∧ g'.tcause = kg.2.tcause ∧ g'.tpc = kg.2.tpc ∧
        g'.hregs = kg.2.hregs ∧ g'.live = kg.2.live ∧
        ∀ l, (g'.flowAt l).pc = ((kg.2.leaveTrap next (s.clauseLen (s.partOf kg.2) (coreOf kg.1))).flowAt l).pc) ∧
  (∀ (g : Gang) next len l, l < g.flow.length → l < g.trapFlow.length → inMask g.live l = true →
    (inMask g.tgroup l = false → (g.leaveTrap next len).flowAt l = g.trapFlow.getD l Flow.blank) ∧
    (inMask g.tgroup l = true → g.tstat.getLsbD 1 = true → ((g.leaveTrap next len).flowAt l).pc = g.tpc ∧
      ((g.leaveTrap next len).flowAt l).rem = 0) ∧
    (inMask g.tgroup l = true → g.tstat.getLsbD 1 = false → (g.tmark.getLsbD 24 = true ∨ next = false) →
      (g.leaveTrap next len).flowAt l = g.trapFlow.getD l Flow.blank)) ∧
  (∀ s i, (i = .rte ∨ i = .rteNext) → issues i s = true → s.rejoined = true → (∀ x ∈ s.seats 0, x.g.inTrap = false) →
    Traps i s (s.all 0 0x11 2 0#64 0#64)) ∧
  (∀ s i, ((∃ va : VNum, ∃ st tok, i = .ctxsave va st tok) ∨ (∃ vd, ∃ va : VNum, ∃ l st tok, i = .ctxload vd va l st tok)) → issues i s = true →
    (∀ x ∈ s.seats 0, x.g.inTrap = false) → Traps i s (s.all 0 0x11 2 0#64 0#64)) ∧
  (∀ s code l x, issues (.halt code) s = true → (∀ y ∈ s.seats 0, y.g.launch = l) → s.launch? l = some x →
    ∃ u, Completes (.halt code) s u (fun _ => []) (fun _ => []) ∧ u = { s.counted 0 with launches := u.launches } ∧
      ((∃ y ∈ s.seats 0, y.first = true) → u.launch? l = some { x with halt := some (x.halt.getD code.toNat) })) ∧
  (∀ va : VNum, ∀ stream tok, let i : Instr := .ctxsave va stream tok
    let bytes := fun (s : State) (x : Seat) => s.image x.g x.g.trapFlow (s.gangprio x.key)
    Acts i (fun s x => x.g.inTrap && (s.accFlaw x [⟨x.low0, x.g.pairAt va.toNat x.low0, (bytes s x).length, true, false, 1, false⟩]).isNone &&
        x.g.pend.all (·.landed)) fun x u =>
      u.putStore x stream.toNat tok.toNat { u.newEntry i x with
        todo := u.writePieces x.key x.low0 (x.g.pairAt va.toNat x.low0) (bytes u x) .other }) ∧
  (∀ vd, ∀ va : VNum, ∀ look stream tok, let i : Instr := .ctxload vd va look stream tok
    let a := fun (x : Seat) => x.g.pairAt va.toNat x.low0
    Acts i (fun s x => x.g.inTrap && (s.accFlaw x [⟨x.low0, a x, 0x500, false, true, 1, false⟩]).isNone) fun x u =>
      u.putLoad x stream.toNat look.toNat tok.toNat (resultRegs vd 2) { u.newEntry i x with
        addrs := [(0, a x)]
        maps := match u.hnd? x.key (a x) with
          | some h => [(hndOf (a x), h)]
          | none => []
        todo := u.readPieces x.key x.low0 (a x) 0x500 false })

/-- R433-R439, R472, R473. The model's own: a request block is checked at issue (log 63), the pair lands at every member of the unit (log 97), and what a member other than the first reports in a trap (log 22). -/
def Obligations.HandleOperations : Prop :=
  (∀ i, ∀ vd va : VNum, ∀ look stream : BitVec 4, ∀ tok : BitVec 3, ∀ n, (
      (i = .hnew vd va look stream tok ∧ n = 16) ∨ (i = .hmap vd va look stream tok ∧ n = 24) ∨
      (i = .chkptSave vd va look stream tok ∧ n = 16) ∨ (i = .chkptLoad vd va look stream tok ∧ n = 16) ∨
      (n = 0 ∧ ∃ st, i = .hmigr vd va st look stream tok)) →
    Acts i (fun s x => !x.first || (s.sysRights x.g &&
        (n == 0 || (s.accFlaw x [⟨x.low0, x.g.pairAt va.toNat x.low0, n, false, true, 1, false⟩]).isNone)))
      (fun x u => if x.first then
        let e : Entry := { u.newEntry i x with
          addrs := [(0, x.g.pairAt va.toNat x.low0)]
          maps := match u.hnd? x.key (x.g.pairAt va.toNat x.low0) with
            | some h => [(hndOf (x.g.pairAt va.toNat x.low0), h)]
            | none => [] }
        let r := u.addPendUnit look.toNat (resultRegs vd 2) tok.toNat
        r.2.putEntry x.key stream.toNat { e with id := r.2.nextId, pend := r.1 } else u)) ∧
  (∀ vd va : VNum, ∀ look stream : BitVec 4, ∀ tok : BitVec 3, Acts (.hrevoke vd va look stream tok) (fun s x => !x.first || s.sysRights x.g) fun x u =>
    if x.first then
      let n := hndOf (x.g.pairAt va.toNat x.low0)
      let e : Entry := { u.newEntry (.hrevoke vd va look stream tok) x with addrs := [(0, x.g.pairAt va.toNat x.low0)] }
      let put : State → Entry → State := fun v e =>
        (v.addPendUnit look.toNat (resultRegs vd 2) tok.toNat).2.putEntry x.key stream.toNat
          { e with id := (v.addPendUnit look.toNat (resultRegs vd 2) tok.toNat).2.nextId
                   pend := (v.addPendUnit look.toNat (resultRegs vd 2) tok.toNat).1 }
      match if n < 0xFFF000 then Tab.find? (u.part (u.partOf x.g)).handles n else none with
      | none => put u { e with maps := [] }
      | some h => put ((u.updPart (u.partOf x.g) fun p => { p with handles := Tab.del p.handles n }).dropStack (u.partOf x.g) h)
          { e with maps := [(n, h)] }
    else u) ∧
  (∀ s i, ∀ vd va : VNum, ∀ look stream : BitVec 4, ∀ tok : BitVec 3, (i = .hnew vd va look stream tok ∨ i = .hmap vd va look stream tok ∨
      i = .chkptSave vd va look stream tok ∨ i = .chkptLoad vd va look stream tok ∨ i = .hrevoke vd va look stream tok ∨
      ∃ st, i = .hmigr vd va st look stream tok) → issues i s = true → (∀ x ∈ s.seats 0, x.first = true → s.sysRights x.g = false) →
    Traps i s (((s.seats 0).filter (·.first)).map fun x => (x.key, flaw 0x11 1 x.act))) ∧
  (∀ s core ctx key g st e, st < 16 → s.keyOf core ctx = some key → s.gang? key = some g → g.stream st = e :: (g.stream st).tail →
    g.gated e = false → (s.hops.all fun o => o.gang != key || o.entry.id != e.id) = true →
    (∀ m, m ≠ st → ∀ y ∈ (g.stream m).head?, y.id ≠ e.id) →
    (∀ vd va look str tok, e.instr = .hnew vd va look str tok → let pno := s.partOf g
      let b := s.blockWords pno core e 2
      ∃ t, exec (.handleOpComplete core ctx e.id) s = .next t ∧
        t = (((s.updGang key fun g => g.popHead st).performHnew pno core (b.getD 0 0#64) (b.getD 1 0#64)).1).land key e.pend
          (outWord vd.toNat ((s.updGang key fun g => g.popHead st).performHnew pno core (b.getD 0 0#64) (b.getD 1 0#64)).2)) ∧
    (∀ vd va stack look str tok h, e.instr = .hmigr vd va stack look str tok → let a := (Tab.find? e.addrs 0).getD 0#64
      isMappable (hndOf a) = true → Tab.find? e.maps (hndOf a) = some h → attrSpace h.attr = 0 → offOf a < attrBytes h.attr →
      (∀ m ∈ s.moving, m.1 ≠ h.phys (offOf a) / 65536) → s.stackOf (h.phys (offOf a) / 65536) ≠ stack.toNat →
      s.freePiece? s.allHeld stack.toNat 0 ≠ none → ∃ t, exec (.handleOpComplete core ctx e.id) s = .next t ∧ t.mem = s.mem ∧
        t.moving = s.moving ++ [(h.phys (offOf a) / 65536, stack.toNat)] ∧
        t.hops = s.hops ++ [⟨key, s.partOf g, e, 0#64, none, h.phys (offOf a) / 65536⟩])) ∧
  (∀ (s : State) pno core attr want h ps, s.attrOk pno core attr = true → attrSpace attr = 0 → attrTso attr = false →
    (attrLinear attr = true ∨ (fieldOf attr 0 24 + 1) % 8 = 0) → fieldOf want 24 40 = 0 →
    (s.heldPieces pno).length + (fieldOf attr 0 24 + 1) ≤ fieldOf ((s.part pno).word 6) 0 32 → s.wantHandle pno want = some h →
    s.takePieces (attrLinear attr) (fieldOf attr 48 3) (fieldOf attr 0 24 + 1) = some ps →
    ∃ t, s.performHnew pno core attr want = (t, BitVec.ofNat 64 (h % 2 ^ 24 * 2 ^ 40)) ∧
      Tab.find? (t.part pno).handles h = some ⟨attr ||| BitVec.ofNat 64 (2 ^ 63), ps, 0⟩ ∧ (∀ n, n ≠ pno → t.part n = s.part n) ∧
      (Memory.wf s.mem = true → ∀ q p a, q < 5 → p ∈ ps → p < 2 ^ 23 → a < 65536 → Memory.get t.mem (q * 2 ^ 39 + p * 65536 + a) = 0#8) ∧
      ∀ a, (∀ q p, q < 5 → p ∈ ps → p < 2 ^ 23 → a / 65536 ≠ q * 2 ^ 23 + p) → a < 2 ^ 39 → Memory.get t.mem a = Memory.get s.mem a) ∧
  (∀ s core ctx key g o vd va look str tok n h, s.keyOf core ctx = some key → s.gang? key = some g →
    s.hops.find? (fun x => x.gang == key && x.entry.id == o.entry.id) = some o → o.entry.instr = .hrevoke vd va look str tok →
    o.handle = some (n, h) → s.mapInUse o.pno n h o.entry.id = false → ∃ t, exec (.handleOpComplete core ctx o.entry.id) s = .next t ∧
      t = State.land { s with hops := s.hops.filter fun x => x.entry.id != o.entry.id } o.gang o.entry.pend (outWord vd.toNat 0#64)) ∧
  (∀ s core ctx key g o vd va stack look str tok m, s.keyOf core ctx = some key → s.gang? key = some g →
    s.hops.find? (fun x => x.gang == key && x.entry.id == o.entry.id) = some o → o.entry.instr = .hmigr vd va stack look str tok →
    s.moving.find? (fun x => x.1 == o.target) = some m → s.stackBusy o.target = false → s.stackOf m.1 ≠ m.2 →
    Tab.rising s.pieceStack = true → ∃ t, exec (.handleOpComplete core ctx o.entry.id) s = .next t ∧ t.mem = s.mem ∧ t.stackOf o.target = m.2 ∧
      t.moving = (s.moving.filter fun x => x.1 != o.target) ∧ t.hops = s.hops.filter fun x => x.entry.id != o.entry.id) ∧
  (∀ (s : State) o h off n block, Memory.wf s.mem = true → ∀ k, k < 65536 * n →
    Memory.get (s.chkptCopy o false h off n block).mem (2 ^ 46 + block * 65536 + k) =
      s.readCell o.pno (quarterOf (coreOf o.gang)) h.cls (h.phys (off + k))) ∧
  (∀ s core ctx key g o vd va look str tok, s.keyOf core ctx = some key → s.gang? key = some g →
    s.hops.find? (fun x => x.gang == key && x.entry.id == o.entry.id) = some o → o.entry.instr = .chkptSave vd va look str tok →
    o.target ≠ 0 → s.opDrained (coreOf o.gang) 11 o.entry.id = true → ∃ t, exec (.handleOpComplete core ctx o.entry.id) s = .next t ∧
      t.hops = (s.hops.filter fun x => x.entry.id != o.entry.id))

/-- R444-R446, R509-R512, R514, R518, R522. The model's own: the order of statuses 2, 7 and 5 (log 73), what PFORM takes (log 77), and what a swap saves and waits for (log 80). -/
def Obligations.PartitionCommands : Prop :=
  let begun := fun (s : State) (code : Nat) (needs : Bool) => s.mgmt.busy = true ∧ s.mgmt.code = code ∧ s.mgmt.flaw needs = 0
  (∀ s, let d : Part := { Part.unformed with desc := (List.range 8).map s.mgmt.arg }
    let n := s.mgmt.part
    begun s 1 (d.secure || s.onSecure) → n < 20 → d.fieldsOk = true → (s.part n).formed = false → s.mgmt.power ≠ 3#2 →
    d.fitsBeside s.formed = true →
    ∃ t, exec .pform s = .next t ∧ t.mgmt = { s.mgmt with mstatus := 0#64 } ∧ (∀ m, m ≠ n → t.part m = s.part m) ∧
      t.part n = { d with
        formed := true
        diePieces := (t.part n).diePieces
        dieWires := (t.part n).dieWires
        pkgWires := (t.part n).pkgWires
        shadow := (t.part n).shadow } ∧
      (∀ w ∈ (t.part n).pkgWires, w < 64 ∧ ∀ o ∈ s.formed, w ∉ o.pkgWires) ∧
      (∀ q, q < 4 → (∀ k ∈ (t.part n).diePiecesOf q, k < 1024 ∧ ∀ o ∈ s.formed, k ∉ o.diePiecesOf q) ∧
        ((t.part n).diePiecesOf q).Nodup ∧
        ((∀ o ∈ s.formed, (o.diePiecesOf q).length = o.dieShare q) → ((t.part n).diePiecesOf q).length = d.dieShare q) ∧
        ∀ k ∈ (t.part n).diePiecesOf q, ∀ a, a < 65536 → Memory.get t.mem (2 ^ 44 + q * 2 ^ 26 + k * 65536 + a) = 0#8) ∧
      t.gangs = s.gangs ∧ t.queues = s.queues ∧ t.cores = s.cores ∧ t.launches = s.launches) ∧
  (∀ s, let n := s.mgmt.part
    begun s 2 s.onSecure → n < 20 → (s.part n).formed = true → (s.part n).inn = false →
    (s.queues.all fun q => q.2.part != n || q.2.idle) = true →
    ∃ t, exec .pdissolve s = .next t ∧ t.mgmt.mstatus = 0#64 ∧ t.part n = Part.unformed ∧ (∀ m, m ≠ n → t.part m = s.part m) ∧
      (∀ k, t.queue k = if (s.queue k).part = n then (s.queue k).ownedBy 31 else s.queue k) ∧ t.mem = s.mem ∧ t.gangs = s.gangs) ∧
  (∀ s, let n := s.mgmt.part
    begun s 3 s.onSecure → n < 20 → (s.part n).formed = true → (s.part n).inn = true → (s.part n).stopping = false →
    s.swapFits (s.part n) = true →
    exec .pswapout s = .next (s.setPart n { s.part n with stopping := true })) ∧
  (∀ s n, (s.part n).formed = true → (s.part n).inn = true → (s.part n).stopping = true → s.swapReady n (s.part n) = true →
    ∃ t, exec (.swapoutSave n) s = .next t ∧ t.mgmt.mstatus = 0#64 ∧ (t.part n).inn = false ∧ (t.part n).stopping = false ∧
      (t.part n).handles = (s.part n).handles ∧ (∀ m, m ≠ n → t.part m = s.part m) ∧
      (∀ c ∈ (s.part n).cores, Tab.find? (t.part n).shadow c = some (s.shadowOf c)) ∧
      (∀ k, (s.part n).hasCluster (clusterOf (coreOf k)) = true → t.gang? k = none) ∧
      (∀ k, (s.part n).hasCluster (clusterOf (coreOf k)) = false → t.gang? k = s.gang? k) ∧ t.queues = s.queues ∧ t.launches = s.launches) ∧
  (∀ s, let n := s.mgmt.part
    begun s 4 s.onSecure → n < 20 → (s.part n).formed = true → (s.part n).inn = false →
    (s.formed.any fun x => x.inn && x.meets (s.part n)) = false → ((s.part n).shadow.map (·.1)).Nodup →
    ((s.part n).shadow.flatMap fun h => h.2.gangs.map (·.1)).Nodup →
    ∃ t, exec .pswapin s = .next t ∧ t.mgmt = { s.mgmt with mstatus := 0#64, power := 0#2 } ∧
      t.part n = { s.part n with inn := true, shadow := [] } ∧ (∀ m, m ≠ n → t.part m = s.part m) ∧
      (∀ h ∈ (s.part n).shadow, t.core h.1 = (s.core h.1).carryTo h.2.core ∧ ∀ kg ∈ h.2.gangs, t.gang? kg.1 = some kg.2) ∧
      t.queues = s.queues ∧ t.launches = s.launches) ∧
  (∀ s, begun s 5 s.coresetSecure → s.mgmt.part = 0 → let n := (s.mgmt.arg 1).toNat
    (s.mgmt.arg 0 = 0#64 → n < 1024 → fieldOf (s.mgmt.arg 2) 24 40 = 0 → fieldOf (s.mgmt.arg 2) 16 8 ≠ 0 → fieldOf (s.mgmt.arg 3) 0 48 = 0 →
      fieldOf (s.mgmt.arg 4) 1 63 = 0 → (s.formed.any fun p => p.inn && p.hasCluster (clusterOf n)) = false →
      ∃ t, exec .coreset s = .next t ∧ t.mgmt.mstatus = 0#64 ∧ t.core n = { s.core n with
        quantum := fieldOf (s.mgmt.arg 2) 16 8
        swapthr := fieldOf (s.mgmt.arg 2) 0 16
        budget := fieldOf (s.mgmt.arg 3) 48 16
        wplane := (s.mgmt.arg 4).getLsbD 0 } ∧ (∀ m, m ≠ n → t.core m = s.core m) ∧ t.mem = s.mem ∧ t.gangs = s.gangs ∧ t.queues = s.queues) ∧
    (s.mgmt.arg 0 = 1#64 → n < 8 → fieldOf (s.mgmt.arg 2) 40 24 = 0 → fieldOf (s.mgmt.arg 2) 0 28 = 0 →
      ∃ t, exec .coreset s = .next t ∧ t.mgmt.mstatus = 0#64 ∧ (∀ m, m ≠ n → t.stack m = s.stack m) ∧ t.stack n = { s.stack n with
        thresh := BitVec.ofNat 8 (fieldOf (s.mgmt.arg 2) 32 8)
        idle16 := BitVec.ofNat 4 (fieldOf (s.mgmt.arg 2) 28 4) } ∧ t = { s with stk := t.stk, mgmt := t.mgmt }) ∧
    (s.mgmt.arg 0 = 2#64 → n < 65536 → let q : Queue := { s.queue n with w0 := s.mgmt.arg 2, w1 := s.mgmt.arg 3 }
      q.fieldsOk = true → (s.queue n).idle = true → s.sharesFit n q = true →
      ∃ t, exec .coreset s = .next t ∧ t.mgmt.mstatus = 0#64 ∧ t.queue n = q ∧ (∀ m, m ≠ n → t.queue m = s.queue m) ∧
        t = { s with queues := t.queues, mgmt := t.mgmt }) ∧
    (s.mgmt.arg 0 = 3#64 → n < 20 → fieldOf (s.mgmt.arg 2) 17 47 = 0 → (s.part n).formed = true →
      ∃ t, exec .coreset s = .next t ∧ t.mgmt.mstatus = 0#64 ∧ t.part n = { s.part n with partsys := s.mgmt.arg 2 } ∧
        (∀ m, m ≠ n → t.part m = s.part m) ∧ t = { s with parts := t.parts, mgmt := t.mgmt })) ∧
  (∀ s i code needs, let d : Part := { Part.unformed with desc := (List.range 8).map s.mgmt.arg }
    ((i = .pform ∧ code = 1 ∧ needs = (d.secure || s.onSecure)) ∨ (i = .pdissolve ∧ code = 2 ∧ needs = s.onSecure) ∨
      (i = .pswapout ∧ code = 3 ∧ needs = s.onSecure) ∨ (i = .pswapin ∧ code = 4 ∧ needs = s.onSecure) ∨
      (i = .coreset ∧ code = 5 ∧ needs = s.coresetSecure) ∨ (i = .cksave ∧ code = 6 ∧ needs = false) ∨
      (i = .ckload ∧ code = 7 ∧ needs = false) ∨ (i = .attest ∧ code = 8 ∧ needs = false) ∨ (i = .fwload ∧ code = 9 ∧ needs = false) ∨
      (i = .apset ∧ code = 10 ∧ needs = (s.mgmt.arg 0).getLsbD 1)) →
    ((s.mgmt.busy = false ∨ s.mgmt.code ≠ code) → exec i s = .next s) ∧
    (s.mgmt.busy = true → s.mgmt.code = code →
      let ends := fun (c : Nat) => exec i s = .next { s with mgmt := { s.mgmt with mstatus := BitVec.ofNat 64 (c * 256) } }
      (fieldOf s.mgmt.mcmd 0 50 ≠ 0 ∨ 20 ≤ s.mgmt.part → ends 2) ∧
      (fieldOf s.mgmt.mcmd 0 50 = 0 → s.mgmt.part < 20 → needs = true → s.mgmt.signed = false → ends 7) ∧
      (fieldOf s.mgmt.mcmd 0 50 = 0 → s.mgmt.part < 20 → s.mgmt.signed = true → s.mgmt.signatureOk = false → ends 5)))

/-- R507-R509, R515-R518, R224, R276. The model's own: the offsets of the BAR0 registers (log 75), the bits they keep (log 76), what D3hot and the loss of power drop (log 84), and which state of a core the window shows (log 148). -/
def Obligations.WindowAndPower : Prop :=
  let begun := fun (s : State) (code : Nat) (needs : Bool) => s.mgmt.busy = true ∧ s.mgmt.code = code ∧ s.mgmt.flaw needs = 0
  let device := 6291456 * 65536
  (∀ s, begun s 6 false → fieldOf (s.mgmt.arg 0) 1 63 = 0 → (s.parts.any fun p => p.2.inn) = false → Memory.wf s.drainDevice.mem = true →
    ∃ t, exec .cksave s = .next t ∧ t.mgmt.mstatus = 0#64 ∧ t.gangs = s.gangs ∧
      ∀ a, a < device → Memory.get t.mem (2 ^ 46 + a) = Memory.get s.drainDevice.mem (s.drainDevice.savedLoc a)) ∧
  (∀ s, begun s 7 false → fieldOf (s.mgmt.arg 0) 1 63 = 0 → (s.parts.any fun p => p.2.inn) = false → Memory.wf s.drainDevice.mem = true →
    ∃ t, exec .ckload s = .next t ∧ t.mgmt.mstatus = 0#64 ∧ t.gangs = s.gangs ∧
      ∀ a q, a < device → q < 5 → Memory.get t.mem (q * 2 ^ 39 + a) = Memory.get s.drainDevice.mem (2 ^ 46 + a)) ∧
  (∀ s, begun s 8 false → ∃ t, exec .attest s = .next t ∧ t = { s with mgmt := t.mgmt } ∧ t.mgmt.mstatus = 0#64 ∧
    (∀ i, i < 4 → t.mgmt.arg i = s.mgmt.arg i) ∧ t.mgmt = { s.mgmt with mstatus := 0#64, marg := t.mgmt.marg }) ∧
  (∀ s, begun s 9 false → (fwOk s.apByte (2 ^ 27) s.mgmt.rollback = false →
      exec .fwload s = .next { s with mgmt := { s.mgmt with mstatus := 0x500#64 } }) ∧
    (fwOk s.apByte (2 ^ 27) s.mgmt.rollback = true → Memory.wf s.mem = true → ∃ t, exec .fwload s = .next t ∧ t.mgmt.mstatus = 0#64 ∧
      t = { s with mem := t.mem, poison := t.poison, mgmt := t.mgmt } ∧
      ∀ i, i < 0xB0 + fwLength s.apByte → Memory.get t.mem (2 ^ 46 + 0x07FFF000 * 65536 + i) = s.apByte i)) ∧
  (∀ s, begun s 10 ((s.mgmt.arg 0).getLsbD 1) → fieldOf (s.mgmt.arg 0) 2 20 = 0 → fieldOf (s.mgmt.arg 0) 59 5 < 20 →
    exec .apset s = .next { s with mgmt := { s.mgmt with apbase := s.mgmt.arg 0, mstatus := 0#64 } }) ∧
  (∀ s ofs size, exec (.apertureAccess ofs size none) s = .next s) ∧
  (∀ s ofs size bs h, (s.mgmt.busy = false ∨ (s.mgmt.code ≠ 6 ∧ s.mgmt.code ≠ 7)) → 0 < size → ofs + size ≤ 2 ^ 27 → bs.length = size →
    s.aperture? ofs size = some h → ∃ t, exec (.apertureAccess ofs size (some bs)) s = .next t ∧ t.gangs = s.gangs ∧ t.parts = s.parts ∧
      t.cores = s.cores ∧ t.queues = s.queues ∧ t.launches = s.launches ∧ t.mgmt = s.mgmt) ∧
  (∀ s ofs size v, (size ≠ 8 ∨ ofs % 8 ≠ 0 ∨ ofs = 0 ∨ ofs = 8 ∨ ofs = 0x10 ∨ ofs = 0x28 ∨ ofs = 0x1008) → exec (.bar0Write ofs size v) s = .next s) ∧
  (∀ s v, exec (.bar0Write 0x18 8 v) s = .next { s with mgmt := { s.mgmt with errvec := v &&& 0x7FF#64 } }) ∧
  (∀ s v k, k < 32 → ∃ t, exec (.bar0Write (0x1040 + 8 * k) 8 v) s = .next t ∧ t.mgmt.arg k = v ∧ (∀ j, j ≠ k → t.mgmt.arg j = s.mgmt.arg j) ∧
    t = { s with mgmt := { s.mgmt with marg := t.mgmt.marg } }) ∧
  (∀ s v, s.mgmt.busy = false → s.mgmt.running = true → s.mgmt.power ≠ 3#2 →
    exec (.bar0Write 0x1000 8 v) s = .next { s with mgmt := { s.mgmt with
      mcmd := v
      mstatus := if 1 ≤ fieldOf v 56 8 ∧ fieldOf v 56 8 ≤ 10 then 1#64 else 0x200#64 } }) ∧
  (∀ s v, (s.mgmt.busy = true ∨ ((s.mgmt.running = false ∨ s.mgmt.power = 3#2) ∧ fieldOf v 56 8 ≠ 8 ∧ fieldOf v 56 8 ≠ 9)) →
    exec (.bar0Write 0x1000 8 v) s = .next s) ∧
  (∀ s v, ∃ t, exec (.bar0Write 0x20 8 v) s = .next t ∧ t = { s with planeDead := t.planeDead } ∧
    ∀ p, p < 8 → t.planeDead.getLsbD p = (v.getLsbD p || (s.planeDead.getLsbD p && !s.fenceRun p))) ∧
  (∀ s, ∃ t, exec .resetBoot s = .next t ∧ t.gangs = [] ∧ t.parts = [] ∧ t.queues = [] ∧ t.launches = [] ∧ t.cores = [] ∧ t.mgmt.power = 1#2 ∧
    (Memory.wf s.mem = true → ∀ a, Memory.get t.mem a = if 2 ^ 46 ≤ a then Memory.get s.mem a else 0#8) ∧
    t.mgmt.fwstat.getLsbD 0 = fwOk (State.fwByte { s with mem := t.mem }) (0x1000 * 65536) s.mgmt.rollback ∧ s.mgmt.rollback ≤ t.mgmt.rollback) ∧
  (∀ s, ∃ t, exec .powerRemoved s = .next t ∧ t.gangs = [] ∧ t.parts = [] ∧ t.queues = [] ∧ t.cores = [] ∧ t.mgmt.power = 3#2 ∧
    t.mgmt = { s.mgmt with power := 3#2, mstatus := if s.mgmt.busy then 0#64 else s.mgmt.mstatus } ∧ t.planeDead = s.planeDead ∧
    (Memory.wf s.mem = true → ∀ a, Memory.get t.mem a = if 2 ^ 46 ≤ a then Memory.get s.mem a else 0#8)) ∧
  (∀ s, s.mgmt.power = 1#2 → (s.parts.any fun p => p.2.inn) = false →
    ∃ t, exec .powerD3hot s = .next t ∧ t = { s with mem := t.mem, poison := t.poison, cores := [], mgmt := { s.mgmt with power := 2#2 } } ∧
      (Memory.wf s.mem = true → ∀ a, Memory.get t.mem a = if 2 ^ 42 ≤ a ∧ a < 2 ^ 46 then 0#8 else Memory.get s.mem a)) ∧
  (∀ (s : State) ofs size, (size ≠ 8 ∨ ofs % 8 ≠ 0) → s.bar0Read ofs size = 0#64) ∧
  (∀ (s : State), s.bar0Read 0 8 = s.mgmt.mid ∧ s.bar0Read 8 8 = s.mgmt.fwstat ∧ s.bar0Read 0x10 8 = s.telem ∧
    s.bar0Read 0x18 8 = s.mgmt.errvec ∧ s.bar0Read 0x20 8 = s.planeDead.setWidth 64 ∧ s.bar0Read 0x28 8 = s.mgmt.apbase ∧
    s.bar0Read 0x1000 8 = s.mgmt.mcmd ∧ s.bar0Read 0x1008 8 = s.mgmt.mstatus ∧
    (∀ k, k < 32 → s.bar0Read (0x1040 + 8 * k) 8 = s.mgmt.arg k) ∧
    (∀ n, n < 20 → s.bar0Read (0x10000 + n * 65536) 8 = (s.part n).pstate ∧ s.bar0Read (0x10008 + n * 65536) 8 = (s.part n).partsys) ∧
    (∀ n, n < 65536 → s.bar0Read (0x400000 + n * 32) 8 = (s.queue n).w0 ∧ s.bar0Read (0x400008 + n * 32) 8 = (s.queue n).w1) ∧
    (∀ n, n < 1024 → let c := s.shownCore n
      s.bar0Read (0x600000 + n * 256) 8 = c.1.schedctl ∧ s.bar0Read (0x600008 + n * 256) 8 = c.1.mxbudget ∧
      s.bar0Read (0x600010 + n * 256) 8 = c.1.nodecfg ∧ s.bar0Read (0x600018 + n * 256) 8 = c.1.balstat ∧
      s.bar0Read (0x600020 + n * 256) 8 = c.1.mxwakeWith c.2) ∧
    (∀ n, (s.parts.any fun p => p.2.formed && p.2.inn && p.2.hasCluster (clusterOf n)) = true →
      s.shownCore n = (s.core n, s.budgetMode n)) ∧
    (∀ n h rest, (s.parts.any fun p => p.2.formed && p.2.inn && p.2.hasCluster (clusterOf n)) = false →
      (s.parts.filterMap fun p => if p.2.formed then Tab.find? p.2.shadow n else none) = h :: rest → (s.shownCore n).1 = h.core) ∧
    (∀ n, n < 8 → s.bar0Read (0x640000 + n * 256) 8 = s.stackWord n) ∧
    fieldOf s.telem 62 2 = s.mgmt.power.toNat ∧ fieldOf s.telem 48 14 = (Config.sensorPower s.tick).toNat) ∧
  (∀ s, s.mgmt.power = 2#2 → exec .powerD0 s = .next { s with mgmt := { s.mgmt with power := 1#2 } }) ∧
  (∀ s piece stack, piece < 6291456 → stack < 8 → s.migrates piece = false → s.stackBusy piece = false → (∀ m ∈ s.moving, m.1 ≠ piece) →
    exec (.pieceMove piece stack) s = .next { s with moving := s.moving ++ [(piece, stack)] }) ∧
  (∀ s piece stack m, piece < 6291456 → stack < 8 → s.migrates piece = false → s.stackBusy piece = false →
    s.moving.find? (fun x => x.1 == piece) = some m → s.stackOf piece ≠ m.2 → Tab.rising s.pieceStack = true → ∃ t, exec (.pieceMove piece stack) s = .next t ∧
      t.stackOf piece = m.2 ∧ t.mem = s.mem ∧ t.moving = (s.moving.filter fun x => x.1 != piece) ∧ t.gangs = s.gangs) ∧
  (∀ s adr, ∀ bytes : List Byte, adr + bytes.length ≤ 2 ^ 64 → Memory.wf s.mem = true → ∃ t, exec (.hostStore adr bytes) s = .next t ∧
    t = { s with mem := t.mem, poison := t.poison } ∧
    ∀ a, Memory.get t.mem a = if 2 ^ 65 + adr ≤ a ∧ a < 2 ^ 65 + adr + bytes.length then bytes.getD (a - (2 ^ 65 + adr)) 0#8 else Memory.get s.mem a)

/-- R85, R18, R520, R372, R146, R419. The model's own: the lanes that a trap at a header reports (log 24), the part, TPC and order of a deferred trap (logs 23, 127), and a header's tokens and line tested together (log 104). -/
def Obligations.UnitEvents : Prop :=
  (∀ s core ctx part u, s.unit? core ctx part = some u → s.nextDeferred u.key = none → u.flow.rem = 0 →
    s.kept? u part = none → let pno := ((s.gang? u.key).map s.partOf).getD 0
    s.fetchFault pno (coreOf u.key) u.pc = none → let w := s.fetchAt pno (coreOf u.key) u.pc
    let lanes := fun (g : Gang) => g.unitLanes part
    (kindOf w ≠ 2#2 → (s.team u.key).any (fun kg => kg.2.inTrap) = false → ∃ t, exec (.clauseEntry core ctx part) s = .next t ∧
      Trapped { s with cur := t.cur } t u.key ⟨part, u.pc, w, false, false, u.pc⟩
        ((s.team u.key).map fun kg => (kg.1, flaw 0x02 6 (kg.2.partLanes part) u.pc))) ∧
    (kindOf w = 2#2 → headerBad w = 0#64 →
      (∀ kg ∈ s.team u.key, lanes kg.2 ≠ 0#32 → s.headerReady kg w = true) →
      ∃ t, exec (.clauseEntry core ctx part) s = .next t ∧ t.cores = s.cores ∧ t.queues = s.queues ∧ t.parts = s.parts ∧
        (fieldOf w 40 4 = 0 → t = { s with gangs := t.gangs, cur := t.cur }) ∧
        ∀ kg ∈ s.team u.key, lanes kg.2 ≠ 0#32 → ∃ g', t.gang? kg.1 = some g' ∧
          g' = { kg.2 with
            flow := g'.flow, clauses := kg.2.clauses + 1, ownNow := kg.2.own, fetched := g'.fetched, waits := g'.waits, seen := g'.seen } ∧
          (∀ n, Tab.at g'.seen 0#32 n = Tab.at kg.2.seen 0#32 n + if n = fieldOf w 40 4 ∧ n ≠ 0 then 1#32 else 0#32) ∧
          ∀ l, l < kg.2.flow.length → if inMask (lanes kg.2) l = true then
            g'.flowAt l = { kg.2.flowAt l with
              hdr := (kg.2.flowAt l).pc
              pc := addWords (kg.2.flowAt l).pc 1
              rem := fieldOf w 52 4 + 1
              cmask := BitVec.ofNat 6 (fieldOf w 56 6)
              yld := BitVec.ofNat 2 (fieldOf w 38 2) } else g'.flowAt l = kg.2.flowAt l)) ∧
  (∀ s core ctx part u g, s.unit? core ctx part = some u → s.gang? u.key = some g → s.kept? u part = none →
    s.fetchFault (s.partOf g) (coreOf u.key) u.pc = none → ∃ t f, exec (.fetchWord core ctx part) s = .next t ∧
      t = { s with gangs := t.gangs } ∧ (∀ k, k ≠ u.key → t.gang? k = s.gang? k) ∧
      t.gang? u.key = some { g with fetched := g.fetched ++ [f] } ∧ f.part = part ∧ f.pc = u.pc ∧ f.merged = false ∧
      f.word = s.fetchAt (s.partOf g) (coreOf u.key) u.pc) ∧
  (∀ s core ctx key pc, s.leadAt core ctx = some key → s.mayIssue key = true →
    (s.team key).any (fun kg => kg.2.alive) = true →
    (∀ kg ∈ s.team key, ∀ l, inMask kg.2.live l = true → l / 4 < kg.2.slices ∧ (kg.2.flowAt l).rgw = true ∧ (kg.2.flowAt l).pc = pc) →
    ∃ t, exec (.regangMerge core ctx) s = .next t ∧ t = { s with gangs := t.gangs } ∧
      ∀ kg ∈ s.team key, ∃ g', t.gang? kg.1 = some g' ∧ g' = { kg.2 with flow := g'.flow, fetched := g'.fetched, offer := g'.offer } ∧
        ∀ l, inMask kg.2.live l = true → (g'.flowAt l).part = s.lowSlice key ∧ (g'.flowAt l).rgw = false ∧
          (g'.flowAt l).pc = if (kg.2.flowAt l).atRegang then addWords pc 1 else pc) ∧
  (∀ s core ctx part u g, s.unit? core ctx part = some u → s.nextDeferred u.key = none → s.gang? u.key = some g →
    g.waitsAt part u.pc = true → u.flow.rem ≠ 0 →
    (∀ n t, s.nextWord u part = .run (.barw n) t → issues (.barw n) t = true →
      (∀ x ∈ t.seats 0, t.barFlaw x n.toNat = none ∧ Tab.at x.g.arr 0 n.toNat ≤ t.phase x.g.launch n.toNat) →
      ∃ v, exec (.barrierWaitPass core ctx part) s = .next v ∧ Moved t ((t.seats 0).foldl (fun y x =>
        y.acquire x.key (.barrier x.g.launch n.toNat)) (t.counted 0)) v 0 t.curWords (fun _ => []) (fun _ => []) false) ∧
    (∀ ts t, s.nextWord u part = .run (.waittok ts) t → issues (.waittok ts) t = true →
      (∀ x ∈ t.seats 0, ∀ k, k < 7 → ts.getLsbD k = true → Tab.at x.g.toks 0 (k + 1) = 0) →
      ∃ v, exec (.waitSatisfied core ctx part) s = .next v ∧
        Moved t (t.counted 0) v 0 t.curWords (fun _ => []) (fun _ => []) false)) ∧
  (∀ s core ctx part u k d g l, s.unit? core ctx part = some u → s.nextDeferred u.key = some (k, d) → s.gang? k = some g →
    lowLane? (d.lanes &&& g.live) = some l → ∃ t, exec (.takeDeferredTrap core ctx part) s = .next t ∧
      (k, d) ∈ s.sameWord u.key d ∧
      Trapped ((s.sameWord u.key d).foldl (fun v kd => v.updGang kd.1 fun x => { x with deferred := x.deferred.drop 1 }) s) t u.key
        ⟨(g.flowAt l).part, (g.flowAt l).pc, d.info0, false, true, (g.flowAt l).pc⟩
        ((s.sameWord u.key d).map fun kd => (kd.1, ⟨kd.2.code, kd.2.detail, kd.2.lanes, kd.2.info1, kd.2.info2, kd.2.info3⟩)))

/-- Decode and encode agree over the whole opcode table; it says that no bit of an encoding is dropped. -/
def Obligations.RoundTrip : Prop :=
  ∀ i : Instr, i.wf = true → encode i ≠ [] → decodeWords (encode i) = .ok i

/-- Words from the encodings of the spec. -/
def Obligations.DecodedWords : Prop :=
  decodeWords [0x0140101000000080#64] = .ok (.addi .s32 .wrap 0x04#8 0x04#8 (.short 0x000080#24) 0x0#3) ∧
  decodeWords [0x008C500040000000#64, 0xC00000123456789A#64] = .ok (.movi .z64 0x14#8 (.lit 0x000000123456789a#62) 0x0#3) ∧
  decodeWords [0x0C000000FFFFFFF9#64] = .ok (.br .t 0x0#3 .none 0xfffffff9#32) ∧
  decodeWords [0x0E00000000000002#64] = .ok (.waittok 0x01#7) ∧
  decodeWords [0x1020243480000003#64] = .ok (.shfl .xor .w32 0x09#8 0x0d#8 0x20#8 0x0#3) ∧
  decodeWords [0x18C0302024280000#64] = .ok (.ffma .f32 0x0c#8 0x08#8 .none 0x09#8 0x0a#8 0x0#3) ∧
  decodeWords [0x1C0C787C00000000#64] = .ok (.fcvt .bf16 .f32 0x1e#8 0x1f#8 .none 0x0#3) ∧
  decodeWords [0x250030C244502000#64] = .ok (.ldg .w32 0x0c#8 0x3#4 0x09#8 0x000#12 0x1#4 0x1#4 0x2#3 0x0#3) ∧
  decodeWords [0x2640510180982000#64] = .ok (.atomr .add .w32 0x14#8 { hnd := 0x4#4, ofs := some 0x06#8, disp := 0x000#12 } 0x0#4 0x2#4 0x3#3 0x0#3) ∧
  decodeWords [0x280C14A000000000#64] = .ok (.hdescSeta 0x5#4 0x28#8) ∧
  decodeWords [0x3000010C0021240F#64] = .ok (.xcopy .cb false true 0x00#5 0x04#6 0x00f#10 0x3#3 0x1#4 0x2#3) ∧
  decodeWords [0x3180000000070100#64] = .ok (.evfire 0x7#4 0x01#8) ∧
  decodeWords [0x2C00000000201003#64] = .ok (.oclaim 0x00#5 0x03#6 0x01#8 0x2#3) ∧
  decodeWords [0x2D000104A8000000#64] = .ok (.mma 0x0#3 0x00#5 0x01#5 0x1#3 0x1#3 0x1#2 0x1#2 false 0x0#3) ∧
  decodeWords [0x34C0200300800014#64] = .ok (.mkprop .or true false true 0x02#6 0x00#6 0x0c#8 0x00#8 0x2#4 .core 0x0#3) ∧
  decodeWords [0x3680388040010000#64] = .ok (.ndwr .hdr 0x0#2 0x0e#8 { hnd := 0x2#4, ofs := some 0x01#8, disp := 0x000#12 } 0x0#3 0x1#3) ∧
  decodeWords [0x3A00040000000004#64] = .ok (.barv 0x04#8 0x1#3) ∧
  decodeWords [0x3B00000001000000#64] = .ok (.yieldBal) ∧
  decodeWords [0x3BE050C008084008#64] = .ok (.qpost 0x14#8 0x3#4 0x008#12 0x2#4 0x1#3) ∧
  decodeWords [0x320048C410018040#64] = .ok (.sxred .sum .bf16 0x1#4 0x2#4 0x06#6 0x01#8 0x1#4 0x0#3 0x2#3) ∧
  decodeWords [0x3808305024000012#64] = .ok (.fld .w32 0x0c#8 0x14#8 0x09#8 0x2#4 0x1#3 0x0#3) ∧
  decodeWords [0x38C0000000119800#64] = .ok (.fmcst 0x06#6 0x6#4 0x1#3) ∧
  decodeWords [0x3C00500005400000#64] = .ok (.csrrd 0x14#8 .sigfloor) ∧
  decodeWords [0x3C80000000000123#64] = .ok (.trap 0x000123#22) ∧
  decodeWords [0x3E80007800100005#64] = .ok (.hmigr 0x00#8 0x1e#8 0x5#3 0x0#4 0x0#4 0x2#3) ∧
  decodeWords [0x6014204804304040#64] = .ok (.pairWord { op := .faddF32, d := 0x0a#7, a := 0x08#7, b := 0x09#7, msk := 0x0#3 } { op := .addS32, d := 0x0c#7, a := 0x08#7, b := 0x04#7, msk := 0x0#3 })

/-- The order of R419, R85 and R87; fetching by R520; the choice and the arrival of requests are the model's own (R9; logs 144, 155). -/
def Obligations.StepRuns : Prop :=
  (∀ (s : State) c rest, s.agenda = c :: rest → s.choice? = some c ∧ s.chosen c = { s with agenda := rest, tick := s.tick + 1 }) ∧
  (∀ (s : State), s.agenda = [] → (∀ c, s.chosen c = (s.grant c).pass) ∧
    (∀ c, s.overdue? = some c → s.choice? = some c) ∧
    (s.overdue? = none → (s.permits (Config.nextChoice s.tick) = true → s.choice? = some (Config.nextChoice s.tick)) ∧
      (s.permits (Config.nextChoice s.tick) = false → s.choice? = none))) ∧
  (∀ (s : State) c, s.permits c = true ↔
    ∀ a ∈ s.asks c, ∀ d ∈ s.rivals a.res, (∃ b ∈ d.1, s.waiting b = true ∧ b.before a = true) → s.changes d.2 = false) ∧
  (∀ (s : State) (a : Ask), s.waiting a = true ↔ (∃ n, a.res = .issue n) ∨ a.key ∈ s.arrived) ∧
  (∀ s : State, ∃ more, s.pass = { s with arrived := s.arrived ++ more, tick := s.tick + 1 } ∧
    ∀ k ∈ more, ∃ a ∈ s.asks (Config.arrival s.tick), a.key = k) ∧
  (∀ a b : Ask, a.before b = true ↔ a.res = b.res ∧ (a.tier < b.tier ∨ a.tier = b.tier ∧ (b.cls < a.cls ∨ a.cls = b.cls ∧
    (a.first < b.first ∨ a.first = b.first ∧ a.second < b.second)))) ∧
  (∀ (s : State) key part, (s.issueAsk key part).tier =
    if firstOfGang (s.dueUnits (coreOf key)) (ctxOf key) part = true then 0
    else if firstOfGang ((s.nextGrants (coreOf key)).map fun b => (b.ctx, b.part)) (ctxOf key) part = true then 1 else 2) ∧
  (∀ (s : State) core, ((s.nextGrants core).map (·.cost)).sum ≤ 4) ∧
  (∀ (s : State) core ctx st id key, s.registers core ctx st = some (1, id, key) → s.registerAsks core ctx st =
    [⟨.matrixReg (coreOf key), ctxOf (s.leadOf key), 0, s.effClass key,
      if s.budgetMode (coreOf key) = true then Tab.at (s.core (coreOf key)).charges 0 (s.leadOf key)
      else s.arrival (.matrixReg (coreOf key)) (ctxOf (s.leadOf key)) id, ctxOf (s.leadOf key), id⟩]) ∧
  (∀ (s : State), s.choice? = none → step s = .next s.pass) ∧
  (∀ (s : State) i, s.choice? = some (.event i) → isEvent i = true → step s = exec i (s.chosen (.event i))) ∧
  (∀ (s : State) core ctx part, s.choice? = some (.unit core ctx part) → (s.chosen (.unit core ctx part)).unit? core ctx part = none →
    step s = .next (s.chosen (.unit core ctx part))) ∧
  (∀ (s : State) core ctx part u, s.choice? = some (.unit core ctx part) → let t := s.chosen (.unit core ctx part)
    t.unit? core ctx part = some u →
    ((t.nextDeferred u.key).isSome = true → step s = exec (.takeDeferredTrap core ctx part) t) ∧
    (t.nextDeferred u.key = none → u.flow.rem = 0 → step s = exec (.clauseEntry core ctx part) t) ∧
    (∀ f i, t.nextDeferred u.key = none → u.flow.rem ≠ 0 → t.kept? u part = some f → wantsLiteral f.word = false →
      clauseFault u.flow f.word none = none → decodeWords [f.word] = .ok i →
      step s = exec i { t with cur := ⟨u.key, part, u.pc, u.flow.hdr, f.word, false⟩ }) ∧
    (∀ g h, t.nextDeferred u.key = none → u.flow.rem ≠ 0 → t.kept? u part = none → t.gang? u.key = some g →
      t.handleAt (t.partOf g) (coreOf u.key) u.pc = some h → t.fetchFault (t.partOf g) (coreOf u.key) u.pc = none →
      let w := leWord (t.bytesBeneath (quarterOf (coreOf u.key)) h (offOf u.pc) 8)
      (∀ i, wantsLiteral w = false → clauseFault u.flow w none = none → decodeWords [w] = .ok i →
        step s = exec i { t with cur := ⟨u.key, part, u.pc, u.flow.hdr, w, false⟩ }) ∧
      (∀ i k, wantsLiteral w = true → 1 < u.flow.rem → t.handleAt (t.partOf g) (coreOf u.key) (addWords u.pc 1) = some k →
        t.fetchFault (t.partOf g) (coreOf u.key) (addWords u.pc 1) = none →
        let lit := leWord (t.bytesBeneath (quarterOf (coreOf u.key)) k (offOf (addWords u.pc 1)) 8)
        clauseFault u.flow w (some lit) = none → decodeWords [w, lit] = .ok i →
        step s = exec i { t with cur := ⟨u.key, part, u.pc, u.flow.hdr, w, true⟩ }))) ∧
  (∀ i s, ∃ t, exec i s = .next t) ∧
  (∀ s, ∃ t, step s = .next t)

/-- The form is the model's own, so that what a byte reads as is one datum; the steps are those of the whole table. -/
def Obligations.MemoryCanonical : Prop :=
  ∀ s t, Memory.wf s.mem = true → step s = .next t → Memory.wf t.mem = true

/-- R507, R515, R518 and R391 for the values the spec gives; memory's zero bytes, both host links up and every port up with 16 lanes (log 6) are the model's choices. -/
def Obligations.ResetState : Prop :=
  (∀ p, State.reset.part p = Part.unformed) ∧ (∀ q, State.reset.queue q = Queue.unowned) ∧
  (∀ k, State.reset.gang? k = none) ∧ (∀ l, State.reset.launch? l = none) ∧
  State.reset.mgmt.power = 1#2 ∧ State.reset.mgmt.running = false ∧ State.reset.mgmt.busy = false ∧ State.reset.mgmt.apbase = 0#64 ∧
  State.reset.links = 3#2 ∧ Memory.wf State.reset.mem = true ∧ (∀ a, Memory.get State.reset.mem a = 0#8) ∧
  (∀ n, (State.reset.stack n).thresh = 95#8 ∧ (State.reset.stack n).idle16 = 4#4) ∧
  (∀ c, (State.reset.core c).quantum = 64 ∧ (State.reset.core c).swapthr = 256 ∧ (State.reset.core c).budget = 0 ∧
    (State.reset.core c).wplane = false) ∧ (∀ n, (State.reset.port n).up = true ∧ (State.reset.port n).lanes = 0xFFFF#16)
end

