-- ==== Sys2Proof/Laws/Tab.lean ====
section
/-! SUPPORT. Sparse tables and memory: read after write, and the canonical form that every memory operation keeps. -/

namespace Sys2Proof.Laws

open Sys2Proof.Machine

variable {α β : Type}

/-! ## Reading a table after a write -/

@[simp] theorem find_nil (k : Nat) : Tab.find? ([] : Tab α) k = none := rfl

theorem find_cons (j k : Nat) (v : α) (t : Tab α) : Tab.find? ((j, v) :: t) k = if j = k then some v else Tab.find? t k := rfl

@[simp] theorem find_put_same (t : Tab α) (k : Nat) (v : α) : Tab.find? (Tab.put t k v) k = some v := by
  induction t with
  | nil => simp [Tab.put, find_cons]
  | cons e t ih =>
    obtain ⟨j, w⟩ := e
    simp only [Tab.put]
    split
    · simp [find_cons]
    · split
      · simp [find_cons]
      · rename_i h; rw [find_cons, if_neg (fun h' => h h'.symm)]; exact ih

theorem find_put_ne (t : Tab α) {j k : Nat} (v : α) (h : j ≠ k) : Tab.find? (Tab.put t j v) k = Tab.find? t k := by
  induction t with
  | nil => simp [Tab.put, find_cons, h]
  | cons e t ih =>
    obtain ⟨i, w⟩ := e
    simp only [Tab.put]
    split
    · simp [find_cons, h]
    · split
      · rename_i h'; subst h'; simp [find_cons, h]
      · simp only [find_cons, ih]

theorem find_put (t : Tab α) (j k : Nat) (v : α) :
    Tab.find? (Tab.put t j v) k = if j = k then some v else Tab.find? t k := by
  split
  · rename_i h; subst h; simp
  · rename_i h; exact find_put_ne t v h

@[simp] theorem at_put_same (t : Tab α) (d v : α) (k : Nat) : Tab.at (Tab.put t k v) d k = v := by simp [Tab.at]

theorem at_put_ne (t : Tab α) (d v : α) {j k : Nat} (h : j ≠ k) : Tab.at (Tab.put t j v) d k = Tab.at t d k := by
  simp [Tab.at, find_put_ne t v h]

theorem at_put (t : Tab α) (d v : α) (j k : Nat) :
    Tab.at (Tab.put t j v) d k = if j = k then v else Tab.at t d k := by
  split
  · rename_i h; subst h; simp
  · rename_i h; exact at_put_ne t d v h

/-! ## The canonical form -/

theorem rising_mono {t : Tab α} {a b : Nat} (hab : a ≤ b) (h : Tab.risingFrom b t = true) : Tab.risingFrom a t = true := by
  cases t with
  | nil => rfl
  | cons e t => simp only [Tab.risingFrom, Bool.and_eq_true, decide_eq_true_eq] at *; exact ⟨hab.trans h.1, h.2⟩

theorem risingFrom_put {t : Tab α} {a k : Nat} (v : α) (hk : a ≤ k) (h : Tab.risingFrom a t = true) :
    Tab.risingFrom a (Tab.put t k v) = true := by
  induction t generalizing a with
  | nil => simp [Tab.put, Tab.risingFrom, hk]
  | cons e t ih =>
    obtain ⟨j, w⟩ := e
    simp only [Tab.risingFrom, Bool.and_eq_true, decide_eq_true_eq] at h
    simp only [Tab.put]
    split
    · simp only [Tab.risingFrom, Bool.and_eq_true, decide_eq_true_eq]; exact ⟨hk, by omega, h.2⟩
    · split
      · rename_i h'; subst h'; simp only [Tab.risingFrom, Bool.and_eq_true, decide_eq_true_eq]; exact ⟨hk, h.2⟩
      · simp only [Tab.risingFrom, Bool.and_eq_true, decide_eq_true_eq]; exact ⟨h.1, ih (by omega) h.2⟩

theorem risingFrom_del {t : Tab α} {a k : Nat} (h : Tab.risingFrom a t = true) : Tab.risingFrom a (Tab.del t k) = true := by
  induction t generalizing a with
  | nil => rfl
  | cons e t ih =>
    obtain ⟨j, w⟩ := e
    simp only [Tab.risingFrom, Bool.and_eq_true, decide_eq_true_eq] at h
    simp only [Tab.del]
    split
    · exact rising_mono (by omega) h.2
    · simp only [Tab.risingFrom, Bool.and_eq_true, decide_eq_true_eq]; exact ⟨h.1, ih h.2⟩

theorem risingFrom_filter {t : Tab α} {a : Nat} (p : Nat × α → Bool) (h : Tab.risingFrom a t = true) :
    Tab.risingFrom a (t.filter p) = true := by
  induction t generalizing a with
  | nil => rfl
  | cons e t ih =>
    obtain ⟨j, w⟩ := e
    simp only [Tab.risingFrom, Bool.and_eq_true, decide_eq_true_eq] at h
    rw [List.filter_cons]
    split
    · simp only [Tab.risingFrom, Bool.and_eq_true, decide_eq_true_eq]; exact ⟨h.1, ih h.2⟩
    · exact rising_mono (by omega) (ih h.2)

theorem mem_put {t : Tab α} {k : Nat} {v : α} {e : Nat × α} (h : e ∈ Tab.put t k v) : e = (k, v) ∨ e ∈ t := by
  induction t with
  | nil => simpa [Tab.put] using h
  | cons x t ih =>
    obtain ⟨j, w⟩ := x
    simp only [Tab.put] at h
    split at h
    · simpa using h
    · split at h
      · rcases List.mem_cons.1 h with h | h
        · exact .inl h
        · exact .inr (List.mem_cons_of_mem _ h)
      · rcases List.mem_cons.1 h with h | h
        · exact .inr (h ▸ List.mem_cons_self)
        · exact (ih h).imp_right (List.mem_cons_of_mem _)

theorem mem_del {t : Tab α} {k : Nat} {e : Nat × α} (h : e ∈ Tab.del t k) : e ∈ t := by
  induction t with
  | nil => exact h
  | cons x t ih =>
    obtain ⟨j, w⟩ := x
    simp only [Tab.del] at h
    split at h
    · exact List.mem_cons_of_mem _ h
    · rcases List.mem_cons.1 h with h | h
      · exact h ▸ List.mem_cons_self
      · exact List.mem_cons_of_mem _ (ih h)

theorem wf_nil : Memory.wf [] = true := rfl

theorem wf_set {m : Memory} (h : m.wf = true) (a : Nat) (b : Byte) : (m.set a b).wf = true := by
  simp only [Memory.wf, Bool.and_eq_true, List.all_eq_true, bne_iff_ne, ne_eq] at *
  unfold Memory.set
  split
  · exact ⟨risingFrom_del h.1, fun e he => h.2 e (mem_del he)⟩
  · rename_i hb
    refine ⟨risingFrom_put b (Nat.zero_le _) h.1, fun e he => ?_⟩
    rcases mem_put he with he | he
    · subst he; simpa using hb
    · exact h.2 e he

theorem wf_foldl {m : Memory} (f : β → Nat) (g : β → Byte) (cs : List β) (h : m.wf = true) :
    (cs.foldl (fun m c => Memory.set m (f c) (g c)) m).wf = true := by
  induction cs generalizing m with
  | nil => exact h
  | cons c cs ih => exact ih (wf_set h _ _)

theorem wf_sets {m : Memory} (cs : List (Nat × Byte)) (h : m.wf = true) : (m.sets cs).wf = true :=
  wf_foldl (fun c : Nat × Byte => c.1) (fun c => c.2) cs h

theorem wf_filter {m : Memory} (p : Nat × Byte → Bool) (h : m.wf = true) : Memory.wf (m.filter p) = true := by
  simp only [Memory.wf, Bool.and_eq_true, List.all_eq_true] at *
  exact ⟨risingFrom_filter p h.1, fun e he => h.2 e (List.mem_filter.1 he).1⟩

/-! ## Reading memory after a write -/

theorem find_del_same {t : Tab α} {a k : Nat} (h : Tab.risingFrom a t = true) : Tab.find? (Tab.del t k) k = none := by
  induction t generalizing a with
  | nil => rfl
  | cons x t ih =>
    obtain ⟨j, w⟩ := x
    simp only [Tab.risingFrom, Bool.and_eq_true, decide_eq_true_eq] at h
    simp only [Tab.del]
    split
    · rename_i hj; subst hj
      -- every key of the rest is above the removed one
      have above : ∀ (u : Tab α) (b : Nat), j < b → Tab.risingFrom b u = true → Tab.find? u j = none := by
        intro u
        induction u with
        | nil => intros; rfl
        | cons y u ihu =>
          obtain ⟨i, z⟩ := y
          intro b hb hr
          simp only [Tab.risingFrom, Bool.and_eq_true, decide_eq_true_eq] at hr
          rw [find_cons, if_neg (by omega)]
          exact ihu (i + 1) (by omega) hr.2
      exact above t (j + 1) (by omega) h.2
    · rename_i hj; rw [find_cons, if_neg hj]; exact ih h.2

theorem find_del_ne (t : Tab α) {j k : Nat} (h : j ≠ k) : Tab.find? (Tab.del t j) k = Tab.find? t k := by
  induction t with
  | nil => rfl
  | cons x t ih =>
    obtain ⟨i, w⟩ := x
    simp only [Tab.del]
    split
    · rename_i hi; subst hi; rw [find_cons, if_neg h]
    · simp only [find_cons, ih]

/-- A read after a write to the same place gives the value written. -/
theorem get_set_same {m : Memory} (h : m.wf = true) (a : Nat) (b : Byte) : (m.set a b).get a = b := by
  simp only [Memory.wf, Bool.and_eq_true] at h
  unfold Memory.set Memory.get
  split
  · rename_i hb
    simp [Tab.at, find_del_same h.1, hb]
  · simp

/-- A write leaves every other place alone. -/
theorem get_set_ne (m : Memory) {a c : Nat} (b : Byte) (h : a ≠ c) : (m.set a b).get c = m.get c := by
  unfold Memory.set Memory.get
  split
  · simp [Tab.at, find_del_ne m h]
  · exact at_put_ne m _ b h

theorem get_sets_outside (m : Memory) (cs : List (Nat × Byte)) {a : Nat} (h : ∀ c ∈ cs, c.1 ≠ a) :
    (m.sets cs).get a = m.get a := by
  unfold Memory.sets
  induction cs generalizing m with
  | nil => rfl
  | cons c cs ih =>
    rw [List.foldl_cons, ih _ (fun x hx => h x (List.mem_cons_of_mem _ hx))]
    exact get_set_ne m c.2 (h c List.mem_cons_self)

end Sys2Proof.Laws
end

