-- ==== Sys2Proof/Laws/State.lean ====
section
/-! SUPPORT. The state under its updates: one lemma per field per update, so that no proof unfolds a record update, and
what the updated table then holds. -/

namespace Sys2Proof.Laws

open Sys2Proof.Machine

/-! ### State.setCore -/

@[simp] theorem setCore_tick (s : State) (c : Nat) (x : Core) : (s.setCore c x).tick = s.tick := rfl
@[simp] theorem setCore_nextId (s : State) (c : Nat) (x : Core) : (s.setCore c x).nextId = s.nextId := rfl
@[simp] theorem setCore_agenda (s : State) (c : Nat) (x : Core) : (s.setCore c x).agenda = s.agenda := rfl
@[simp] theorem setCore_cur (s : State) (c : Nat) (x : Core) : (s.setCore c x).cur = s.cur := rfl
@[simp] theorem setCore_mem (s : State) (c : Nat) (x : Core) : (s.setCore c x).mem = s.mem := rfl
@[simp] theorem setCore_held (s : State) (c : Nat) (x : Core) : (s.setCore c x).held = s.held := rfl
@[simp] theorem setCore_top (s : State) (c : Nat) (x : Core) : (s.setCore c x).top = s.top := rfl
@[simp] theorem setCore_poison (s : State) (c : Nat) (x : Core) : (s.setCore c x).poison = s.poison := rfl
@[simp] theorem setCore_log (s : State) (c : Nat) (x : Core) : (s.setCore c x).log = s.log := rfl
@[simp] theorem setCore_bufs (s : State) (c : Nat) (x : Core) : (s.setCore c x).bufs = s.bufs := rfl
@[simp] theorem setCore_rels (s : State) (c : Nat) (x : Core) : (s.setCore c x).rels = s.rels := rfl
@[simp] theorem setCore_ranges (s : State) (c : Nat) (x : Core) : (s.setCore c x).ranges = s.ranges := rfl
@[simp] theorem setCore_atoms (s : State) (c : Nat) (x : Core) : (s.setCore c x).atoms = s.atoms := rfl
@[simp] theorem setCore_hostQ (s : State) (c : Nat) (x : Core) : (s.setCore c x).hostQ = s.hostQ := rfl
@[simp] theorem setCore_gangs (s : State) (c : Nat) (x : Core) : (s.setCore c x).gangs = s.gangs := rfl
@[simp] theorem setCore_nodes (s : State) (c : Nat) (x : Core) : (s.setCore c x).nodes = s.nodes := rfl
@[simp] theorem setCore_edges (s : State) (c : Nat) (x : Core) : (s.setCore c x).edges = s.edges := rfl
@[simp] theorem setCore_edgePoison (s : State) (c : Nat) (x : Core) : (s.setCore c x).edgePoison = s.edgePoison := rfl
@[simp] theorem setCore_waves (s : State) (c : Nat) (x : Core) : (s.setCore c x).waves = s.waves := rfl
@[simp] theorem setCore_batches (s : State) (c : Nat) (x : Core) : (s.setCore c x).batches = s.batches := rfl
@[simp] theorem setCore_launches (s : State) (c : Nat) (x : Core) : (s.setCore c x).launches = s.launches := rfl
@[simp] theorem setCore_queues (s : State) (c : Nat) (x : Core) : (s.setCore c x).queues = s.queues := rfl
@[simp] theorem setCore_parts (s : State) (c : Nat) (x : Core) : (s.setCore c x).parts = s.parts := rfl
@[simp] theorem setCore_stk (s : State) (c : Nat) (x : Core) : (s.setCore c x).stk = s.stk := rfl
@[simp] theorem setCore_ports (s : State) (c : Nat) (x : Core) : (s.setCore c x).ports = s.ports := rfl
@[simp] theorem setCore_planeDead (s : State) (c : Nat) (x : Core) : (s.setCore c x).planeDead = s.planeDead := rfl
@[simp] theorem setCore_planeVia (s : State) (c : Nat) (x : Core) : (s.setCore c x).planeVia = s.planeVia := rfl
@[simp] theorem setCore_planeHold (s : State) (c : Nat) (x : Core) : (s.setCore c x).planeHold = s.planeHold := rfl
@[simp] theorem setCore_fab (s : State) (c : Nat) (x : Core) : (s.setCore c x).fab = s.fab := rfl
@[simp] theorem setCore_inbox (s : State) (c : Nat) (x : Core) : (s.setCore c x).inbox = s.inbox := rfl
@[simp] theorem setCore_hops (s : State) (c : Nat) (x : Core) : (s.setCore c x).hops = s.hops := rfl
@[simp] theorem setCore_pieceStack (s : State) (c : Nat) (x : Core) : (s.setCore c x).pieceStack = s.pieceStack := rfl
@[simp] theorem setCore_moving (s : State) (c : Nat) (x : Core) : (s.setCore c x).moving = s.moving := rfl
@[simp] theorem setCore_flashShadow (s : State) (c : Nat) (x : Core) : (s.setCore c x).flashShadow = s.flashShadow := rfl
@[simp] theorem setCore_used (s : State) (c : Nat) (x : Core) : (s.setCore c x).used = s.used := rfl
@[simp] theorem setCore_links (s : State) (c : Nat) (x : Core) : (s.setCore c x).links = s.links := rfl
@[simp] theorem setCore_linkAt (s : State) (c : Nat) (x : Core) : (s.setCore c x).linkAt = s.linkAt := rfl
@[simp] theorem setCore_arb (s : State) (c : Nat) (x : Core) : (s.setCore c x).arb = s.arb := rfl
@[simp] theorem setCore_arrived (s : State) (c : Nat) (x : Core) : (s.setCore c x).arrived = s.arrived := rfl
@[simp] theorem setCore_lost (s : State) (c : Nat) (x : Core) : (s.setCore c x).lost = s.lost := rfl
@[simp] theorem setCore_mgmt (s : State) (c : Nat) (x : Core) : (s.setCore c x).mgmt = s.mgmt := rfl

/-! ### State.setPart -/

@[simp] theorem setPart_tick (s : State) (p : Nat) (x : Part) : (s.setPart p x).tick = s.tick := rfl
@[simp] theorem setPart_nextId (s : State) (p : Nat) (x : Part) : (s.setPart p x).nextId = s.nextId := rfl
@[simp] theorem setPart_agenda (s : State) (p : Nat) (x : Part) : (s.setPart p x).agenda = s.agenda := rfl
@[simp] theorem setPart_cur (s : State) (p : Nat) (x : Part) : (s.setPart p x).cur = s.cur := rfl
@[simp] theorem setPart_mem (s : State) (p : Nat) (x : Part) : (s.setPart p x).mem = s.mem := rfl
@[simp] theorem setPart_held (s : State) (p : Nat) (x : Part) : (s.setPart p x).held = s.held := rfl
@[simp] theorem setPart_top (s : State) (p : Nat) (x : Part) : (s.setPart p x).top = s.top := rfl
@[simp] theorem setPart_poison (s : State) (p : Nat) (x : Part) : (s.setPart p x).poison = s.poison := rfl
@[simp] theorem setPart_log (s : State) (p : Nat) (x : Part) : (s.setPart p x).log = s.log := rfl
@[simp] theorem setPart_bufs (s : State) (p : Nat) (x : Part) : (s.setPart p x).bufs = s.bufs := rfl
@[simp] theorem setPart_rels (s : State) (p : Nat) (x : Part) : (s.setPart p x).rels = s.rels := rfl
@[simp] theorem setPart_ranges (s : State) (p : Nat) (x : Part) : (s.setPart p x).ranges = s.ranges := rfl
@[simp] theorem setPart_atoms (s : State) (p : Nat) (x : Part) : (s.setPart p x).atoms = s.atoms := rfl
@[simp] theorem setPart_hostQ (s : State) (p : Nat) (x : Part) : (s.setPart p x).hostQ = s.hostQ := rfl
@[simp] theorem setPart_gangs (s : State) (p : Nat) (x : Part) : (s.setPart p x).gangs = s.gangs := rfl
@[simp] theorem setPart_cores (s : State) (p : Nat) (x : Part) : (s.setPart p x).cores = s.cores := rfl
@[simp] theorem setPart_nodes (s : State) (p : Nat) (x : Part) : (s.setPart p x).nodes = s.nodes := rfl
@[simp] theorem setPart_edges (s : State) (p : Nat) (x : Part) : (s.setPart p x).edges = s.edges := rfl
@[simp] theorem setPart_edgePoison (s : State) (p : Nat) (x : Part) : (s.setPart p x).edgePoison = s.edgePoison := rfl
@[simp] theorem setPart_waves (s : State) (p : Nat) (x : Part) : (s.setPart p x).waves = s.waves := rfl
@[simp] theorem setPart_batches (s : State) (p : Nat) (x : Part) : (s.setPart p x).batches = s.batches := rfl
@[simp] theorem setPart_launches (s : State) (p : Nat) (x : Part) : (s.setPart p x).launches = s.launches := rfl
@[simp] theorem setPart_queues (s : State) (p : Nat) (x : Part) : (s.setPart p x).queues = s.queues := rfl
@[simp] theorem setPart_stk (s : State) (p : Nat) (x : Part) : (s.setPart p x).stk = s.stk := rfl
@[simp] theorem setPart_ports (s : State) (p : Nat) (x : Part) : (s.setPart p x).ports = s.ports := rfl
@[simp] theorem setPart_planeDead (s : State) (p : Nat) (x : Part) : (s.setPart p x).planeDead = s.planeDead := rfl
@[simp] theorem setPart_planeVia (s : State) (p : Nat) (x : Part) : (s.setPart p x).planeVia = s.planeVia := rfl
@[simp] theorem setPart_planeHold (s : State) (p : Nat) (x : Part) : (s.setPart p x).planeHold = s.planeHold := rfl
@[simp] theorem setPart_fab (s : State) (p : Nat) (x : Part) : (s.setPart p x).fab = s.fab := rfl
@[simp] theorem setPart_inbox (s : State) (p : Nat) (x : Part) : (s.setPart p x).inbox = s.inbox := rfl
@[simp] theorem setPart_hops (s : State) (p : Nat) (x : Part) : (s.setPart p x).hops = s.hops := rfl
@[simp] theorem setPart_pieceStack (s : State) (p : Nat) (x : Part) : (s.setPart p x).pieceStack = s.pieceStack := rfl
@[simp] theorem setPart_moving (s : State) (p : Nat) (x : Part) : (s.setPart p x).moving = s.moving := rfl
@[simp] theorem setPart_flashShadow (s : State) (p : Nat) (x : Part) : (s.setPart p x).flashShadow = s.flashShadow := rfl
@[simp] theorem setPart_used (s : State) (p : Nat) (x : Part) : (s.setPart p x).used = s.used := rfl
@[simp] theorem setPart_links (s : State) (p : Nat) (x : Part) : (s.setPart p x).links = s.links := rfl
@[simp] theorem setPart_linkAt (s : State) (p : Nat) (x : Part) : (s.setPart p x).linkAt = s.linkAt := rfl
@[simp] theorem setPart_arb (s : State) (p : Nat) (x : Part) : (s.setPart p x).arb = s.arb := rfl
@[simp] theorem setPart_arrived (s : State) (p : Nat) (x : Part) : (s.setPart p x).arrived = s.arrived := rfl
@[simp] theorem setPart_lost (s : State) (p : Nat) (x : Part) : (s.setPart p x).lost = s.lost := rfl
@[simp] theorem setPart_mgmt (s : State) (p : Nat) (x : Part) : (s.setPart p x).mgmt = s.mgmt := rfl

/-! ### State.setQueue -/

@[simp] theorem setQueue_tick (s : State) (q : Nat) (x : Queue) : (s.setQueue q x).tick = s.tick := rfl
@[simp] theorem setQueue_nextId (s : State) (q : Nat) (x : Queue) : (s.setQueue q x).nextId = s.nextId := rfl
@[simp] theorem setQueue_agenda (s : State) (q : Nat) (x : Queue) : (s.setQueue q x).agenda = s.agenda := rfl
@[simp] theorem setQueue_cur (s : State) (q : Nat) (x : Queue) : (s.setQueue q x).cur = s.cur := rfl
@[simp] theorem setQueue_mem (s : State) (q : Nat) (x : Queue) : (s.setQueue q x).mem = s.mem := rfl
@[simp] theorem setQueue_held (s : State) (q : Nat) (x : Queue) : (s.setQueue q x).held = s.held := rfl
@[simp] theorem setQueue_top (s : State) (q : Nat) (x : Queue) : (s.setQueue q x).top = s.top := rfl
@[simp] theorem setQueue_poison (s : State) (q : Nat) (x : Queue) : (s.setQueue q x).poison = s.poison := rfl
@[simp] theorem setQueue_log (s : State) (q : Nat) (x : Queue) : (s.setQueue q x).log = s.log := rfl
@[simp] theorem setQueue_bufs (s : State) (q : Nat) (x : Queue) : (s.setQueue q x).bufs = s.bufs := rfl
@[simp] theorem setQueue_rels (s : State) (q : Nat) (x : Queue) : (s.setQueue q x).rels = s.rels := rfl
@[simp] theorem setQueue_ranges (s : State) (q : Nat) (x : Queue) : (s.setQueue q x).ranges = s.ranges := rfl
@[simp] theorem setQueue_atoms (s : State) (q : Nat) (x : Queue) : (s.setQueue q x).atoms = s.atoms := rfl
@[simp] theorem setQueue_hostQ (s : State) (q : Nat) (x : Queue) : (s.setQueue q x).hostQ = s.hostQ := rfl
@[simp] theorem setQueue_gangs (s : State) (q : Nat) (x : Queue) : (s.setQueue q x).gangs = s.gangs := rfl
@[simp] theorem setQueue_cores (s : State) (q : Nat) (x : Queue) : (s.setQueue q x).cores = s.cores := rfl
@[simp] theorem setQueue_nodes (s : State) (q : Nat) (x : Queue) : (s.setQueue q x).nodes = s.nodes := rfl
@[simp] theorem setQueue_edges (s : State) (q : Nat) (x : Queue) : (s.setQueue q x).edges = s.edges := rfl
@[simp] theorem setQueue_edgePoison (s : State) (q : Nat) (x : Queue) : (s.setQueue q x).edgePoison = s.edgePoison := rfl
@[simp] theorem setQueue_waves (s : State) (q : Nat) (x : Queue) : (s.setQueue q x).waves = s.waves := rfl
@[simp] theorem setQueue_batches (s : State) (q : Nat) (x : Queue) : (s.setQueue q x).batches = s.batches := rfl
@[simp] theorem setQueue_launches (s : State) (q : Nat) (x : Queue) : (s.setQueue q x).launches = s.launches := rfl
@[simp] theorem setQueue_parts (s : State) (q : Nat) (x : Queue) : (s.setQueue q x).parts = s.parts := rfl
@[simp] theorem setQueue_stk (s : State) (q : Nat) (x : Queue) : (s.setQueue q x).stk = s.stk := rfl
@[simp] theorem setQueue_ports (s : State) (q : Nat) (x : Queue) : (s.setQueue q x).ports = s.ports := rfl
@[simp] theorem setQueue_planeDead (s : State) (q : Nat) (x : Queue) : (s.setQueue q x).planeDead = s.planeDead := rfl
@[simp] theorem setQueue_planeVia (s : State) (q : Nat) (x : Queue) : (s.setQueue q x).planeVia = s.planeVia := rfl
@[simp] theorem setQueue_planeHold (s : State) (q : Nat) (x : Queue) : (s.setQueue q x).planeHold = s.planeHold := rfl
@[simp] theorem setQueue_fab (s : State) (q : Nat) (x : Queue) : (s.setQueue q x).fab = s.fab := rfl
@[simp] theorem setQueue_inbox (s : State) (q : Nat) (x : Queue) : (s.setQueue q x).inbox = s.inbox := rfl
@[simp] theorem setQueue_hops (s : State) (q : Nat) (x : Queue) : (s.setQueue q x).hops = s.hops := rfl
@[simp] theorem setQueue_pieceStack (s : State) (q : Nat) (x : Queue) : (s.setQueue q x).pieceStack = s.pieceStack := rfl
@[simp] theorem setQueue_moving (s : State) (q : Nat) (x : Queue) : (s.setQueue q x).moving = s.moving := rfl
@[simp] theorem setQueue_flashShadow (s : State) (q : Nat) (x : Queue) : (s.setQueue q x).flashShadow = s.flashShadow := rfl
@[simp] theorem setQueue_used (s : State) (q : Nat) (x : Queue) : (s.setQueue q x).used = s.used := rfl
@[simp] theorem setQueue_links (s : State) (q : Nat) (x : Queue) : (s.setQueue q x).links = s.links := rfl
@[simp] theorem setQueue_linkAt (s : State) (q : Nat) (x : Queue) : (s.setQueue q x).linkAt = s.linkAt := rfl
@[simp] theorem setQueue_arb (s : State) (q : Nat) (x : Queue) : (s.setQueue q x).arb = s.arb := rfl
@[simp] theorem setQueue_arrived (s : State) (q : Nat) (x : Queue) : (s.setQueue q x).arrived = s.arrived := rfl
@[simp] theorem setQueue_lost (s : State) (q : Nat) (x : Queue) : (s.setQueue q x).lost = s.lost := rfl
@[simp] theorem setQueue_mgmt (s : State) (q : Nat) (x : Queue) : (s.setQueue q x).mgmt = s.mgmt := rfl

/-! ### State.setStack -/

@[simp] theorem setStack_tick (s : State) (n : Nat) (x : Stack) : (s.setStack n x).tick = s.tick := rfl
@[simp] theorem setStack_nextId (s : State) (n : Nat) (x : Stack) : (s.setStack n x).nextId = s.nextId := rfl
@[simp] theorem setStack_agenda (s : State) (n : Nat) (x : Stack) : (s.setStack n x).agenda = s.agenda := rfl
@[simp] theorem setStack_cur (s : State) (n : Nat) (x : Stack) : (s.setStack n x).cur = s.cur := rfl
@[simp] theorem setStack_mem (s : State) (n : Nat) (x : Stack) : (s.setStack n x).mem = s.mem := rfl
@[simp] theorem setStack_held (s : State) (n : Nat) (x : Stack) : (s.setStack n x).held = s.held := rfl
@[simp] theorem setStack_top (s : State) (n : Nat) (x : Stack) : (s.setStack n x).top = s.top := rfl
@[simp] theorem setStack_poison (s : State) (n : Nat) (x : Stack) : (s.setStack n x).poison = s.poison := rfl
@[simp] theorem setStack_log (s : State) (n : Nat) (x : Stack) : (s.setStack n x).log = s.log := rfl
@[simp] theorem setStack_bufs (s : State) (n : Nat) (x : Stack) : (s.setStack n x).bufs = s.bufs := rfl
@[simp] theorem setStack_rels (s : State) (n : Nat) (x : Stack) : (s.setStack n x).rels = s.rels := rfl
@[simp] theorem setStack_ranges (s : State) (n : Nat) (x : Stack) : (s.setStack n x).ranges = s.ranges := rfl
@[simp] theorem setStack_atoms (s : State) (n : Nat) (x : Stack) : (s.setStack n x).atoms = s.atoms := rfl
@[simp] theorem setStack_hostQ (s : State) (n : Nat) (x : Stack) : (s.setStack n x).hostQ = s.hostQ := rfl
@[simp] theorem setStack_gangs (s : State) (n : Nat) (x : Stack) : (s.setStack n x).gangs = s.gangs := rfl
@[simp] theorem setStack_cores (s : State) (n : Nat) (x : Stack) : (s.setStack n x).cores = s.cores := rfl
@[simp] theorem setStack_nodes (s : State) (n : Nat) (x : Stack) : (s.setStack n x).nodes = s.nodes := rfl
@[simp] theorem setStack_edges (s : State) (n : Nat) (x : Stack) : (s.setStack n x).edges = s.edges := rfl
@[simp] theorem setStack_edgePoison (s : State) (n : Nat) (x : Stack) : (s.setStack n x).edgePoison = s.edgePoison := rfl
@[simp] theorem setStack_waves (s : State) (n : Nat) (x : Stack) : (s.setStack n x).waves = s.waves := rfl
@[simp] theorem setStack_batches (s : State) (n : Nat) (x : Stack) : (s.setStack n x).batches = s.batches := rfl
@[simp] theorem setStack_launches (s : State) (n : Nat) (x : Stack) : (s.setStack n x).launches = s.launches := rfl
@[simp] theorem setStack_queues (s : State) (n : Nat) (x : Stack) : (s.setStack n x).queues = s.queues := rfl
@[simp] theorem setStack_parts (s : State) (n : Nat) (x : Stack) : (s.setStack n x).parts = s.parts := rfl
@[simp] theorem setStack_ports (s : State) (n : Nat) (x : Stack) : (s.setStack n x).ports = s.ports := rfl
@[simp] theorem setStack_planeDead (s : State) (n : Nat) (x : Stack) : (s.setStack n x).planeDead = s.planeDead := rfl
@[simp] theorem setStack_planeVia (s : State) (n : Nat) (x : Stack) : (s.setStack n x).planeVia = s.planeVia := rfl
@[simp] theorem setStack_planeHold (s : State) (n : Nat) (x : Stack) : (s.setStack n x).planeHold = s.planeHold := rfl
@[simp] theorem setStack_fab (s : State) (n : Nat) (x : Stack) : (s.setStack n x).fab = s.fab := rfl
@[simp] theorem setStack_inbox (s : State) (n : Nat) (x : Stack) : (s.setStack n x).inbox = s.inbox := rfl
@[simp] theorem setStack_hops (s : State) (n : Nat) (x : Stack) : (s.setStack n x).hops = s.hops := rfl
@[simp] theorem setStack_pieceStack (s : State) (n : Nat) (x : Stack) : (s.setStack n x).pieceStack = s.pieceStack := rfl
@[simp] theorem setStack_moving (s : State) (n : Nat) (x : Stack) : (s.setStack n x).moving = s.moving := rfl
@[simp] theorem setStack_flashShadow (s : State) (n : Nat) (x : Stack) : (s.setStack n x).flashShadow = s.flashShadow := rfl
@[simp] theorem setStack_used (s : State) (n : Nat) (x : Stack) : (s.setStack n x).used = s.used := rfl
@[simp] theorem setStack_links (s : State) (n : Nat) (x : Stack) : (s.setStack n x).links = s.links := rfl
@[simp] theorem setStack_linkAt (s : State) (n : Nat) (x : Stack) : (s.setStack n x).linkAt = s.linkAt := rfl
@[simp] theorem setStack_arb (s : State) (n : Nat) (x : Stack) : (s.setStack n x).arb = s.arb := rfl
@[simp] theorem setStack_arrived (s : State) (n : Nat) (x : Stack) : (s.setStack n x).arrived = s.arrived := rfl
@[simp] theorem setStack_lost (s : State) (n : Nat) (x : Stack) : (s.setStack n x).lost = s.lost := rfl
@[simp] theorem setStack_mgmt (s : State) (n : Nat) (x : Stack) : (s.setStack n x).mgmt = s.mgmt := rfl

/-! ### State.setPort -/

@[simp] theorem setPort_tick (s : State) (n : Nat) (x : Port) : (s.setPort n x).tick = s.tick := rfl
@[simp] theorem setPort_nextId (s : State) (n : Nat) (x : Port) : (s.setPort n x).nextId = s.nextId := rfl
@[simp] theorem setPort_agenda (s : State) (n : Nat) (x : Port) : (s.setPort n x).agenda = s.agenda := rfl
@[simp] theorem setPort_cur (s : State) (n : Nat) (x : Port) : (s.setPort n x).cur = s.cur := rfl
@[simp] theorem setPort_mem (s : State) (n : Nat) (x : Port) : (s.setPort n x).mem = s.mem := rfl
@[simp] theorem setPort_held (s : State) (n : Nat) (x : Port) : (s.setPort n x).held = s.held := rfl
@[simp] theorem setPort_top (s : State) (n : Nat) (x : Port) : (s.setPort n x).top = s.top := rfl
@[simp] theorem setPort_poison (s : State) (n : Nat) (x : Port) : (s.setPort n x).poison = s.poison := rfl
@[simp] theorem setPort_log (s : State) (n : Nat) (x : Port) : (s.setPort n x).log = s.log := rfl
@[simp] theorem setPort_bufs (s : State) (n : Nat) (x : Port) : (s.setPort n x).bufs = s.bufs := rfl
@[simp] theorem setPort_rels (s : State) (n : Nat) (x : Port) : (s.setPort n x).rels = s.rels := rfl
@[simp] theorem setPort_ranges (s : State) (n : Nat) (x : Port) : (s.setPort n x).ranges = s.ranges := rfl
@[simp] theorem setPort_atoms (s : State) (n : Nat) (x : Port) : (s.setPort n x).atoms = s.atoms := rfl
@[simp] theorem setPort_hostQ (s : State) (n : Nat) (x : Port) : (s.setPort n x).hostQ = s.hostQ := rfl
@[simp] theorem setPort_gangs (s : State) (n : Nat) (x : Port) : (s.setPort n x).gangs = s.gangs := rfl
@[simp] theorem setPort_cores (s : State) (n : Nat) (x : Port) : (s.setPort n x).cores = s.cores := rfl
@[simp] theorem setPort_nodes (s : State) (n : Nat) (x : Port) : (s.setPort n x).nodes = s.nodes := rfl
@[simp] theorem setPort_edges (s : State) (n : Nat) (x : Port) : (s.setPort n x).edges = s.edges := rfl
@[simp] theorem setPort_edgePoison (s : State) (n : Nat) (x : Port) : (s.setPort n x).edgePoison = s.edgePoison := rfl
@[simp] theorem setPort_waves (s : State) (n : Nat) (x : Port) : (s.setPort n x).waves = s.waves := rfl
@[simp] theorem setPort_batches (s : State) (n : Nat) (x : Port) : (s.setPort n x).batches = s.batches := rfl
@[simp] theorem setPort_launches (s : State) (n : Nat) (x : Port) : (s.setPort n x).launches = s.launches := rfl
@[simp] theorem setPort_queues (s : State) (n : Nat) (x : Port) : (s.setPort n x).queues = s.queues := rfl
@[simp] theorem setPort_parts (s : State) (n : Nat) (x : Port) : (s.setPort n x).parts = s.parts := rfl
@[simp] theorem setPort_stk (s : State) (n : Nat) (x : Port) : (s.setPort n x).stk = s.stk := rfl
@[simp] theorem setPort_planeDead (s : State) (n : Nat) (x : Port) : (s.setPort n x).planeDead = s.planeDead := rfl
@[simp] theorem setPort_planeVia (s : State) (n : Nat) (x : Port) : (s.setPort n x).planeVia = s.planeVia := rfl
@[simp] theorem setPort_planeHold (s : State) (n : Nat) (x : Port) : (s.setPort n x).planeHold = s.planeHold := rfl
@[simp] theorem setPort_fab (s : State) (n : Nat) (x : Port) : (s.setPort n x).fab = s.fab := rfl
@[simp] theorem setPort_inbox (s : State) (n : Nat) (x : Port) : (s.setPort n x).inbox = s.inbox := rfl
@[simp] theorem setPort_hops (s : State) (n : Nat) (x : Port) : (s.setPort n x).hops = s.hops := rfl
@[simp] theorem setPort_pieceStack (s : State) (n : Nat) (x : Port) : (s.setPort n x).pieceStack = s.pieceStack := rfl
@[simp] theorem setPort_moving (s : State) (n : Nat) (x : Port) : (s.setPort n x).moving = s.moving := rfl
@[simp] theorem setPort_flashShadow (s : State) (n : Nat) (x : Port) : (s.setPort n x).flashShadow = s.flashShadow := rfl
@[simp] theorem setPort_used (s : State) (n : Nat) (x : Port) : (s.setPort n x).used = s.used := rfl
@[simp] theorem setPort_links (s : State) (n : Nat) (x : Port) : (s.setPort n x).links = s.links := rfl
@[simp] theorem setPort_linkAt (s : State) (n : Nat) (x : Port) : (s.setPort n x).linkAt = s.linkAt := rfl
@[simp] theorem setPort_arb (s : State) (n : Nat) (x : Port) : (s.setPort n x).arb = s.arb := rfl
@[simp] theorem setPort_arrived (s : State) (n : Nat) (x : Port) : (s.setPort n x).arrived = s.arrived := rfl
@[simp] theorem setPort_lost (s : State) (n : Nat) (x : Port) : (s.setPort n x).lost = s.lost := rfl
@[simp] theorem setPort_mgmt (s : State) (n : Nat) (x : Port) : (s.setPort n x).mgmt = s.mgmt := rfl

/-! ### State.setGang -/

@[simp] theorem setGang_tick (s : State) (k : Nat) (x : Gang) : (s.setGang k x).tick = s.tick := rfl
@[simp] theorem setGang_nextId (s : State) (k : Nat) (x : Gang) : (s.setGang k x).nextId = s.nextId := rfl
@[simp] theorem setGang_agenda (s : State) (k : Nat) (x : Gang) : (s.setGang k x).agenda = s.agenda := rfl
@[simp] theorem setGang_cur (s : State) (k : Nat) (x : Gang) : (s.setGang k x).cur = s.cur := rfl
@[simp] theorem setGang_mem (s : State) (k : Nat) (x : Gang) : (s.setGang k x).mem = s.mem := rfl
@[simp] theorem setGang_held (s : State) (k : Nat) (x : Gang) : (s.setGang k x).held = s.held := rfl
@[simp] theorem setGang_top (s : State) (k : Nat) (x : Gang) : (s.setGang k x).top = s.top := rfl
@[simp] theorem setGang_poison (s : State) (k : Nat) (x : Gang) : (s.setGang k x).poison = s.poison := rfl
@[simp] theorem setGang_log (s : State) (k : Nat) (x : Gang) : (s.setGang k x).log = s.log := rfl
@[simp] theorem setGang_bufs (s : State) (k : Nat) (x : Gang) : (s.setGang k x).bufs = s.bufs := rfl
@[simp] theorem setGang_rels (s : State) (k : Nat) (x : Gang) : (s.setGang k x).rels = s.rels := rfl
@[simp] theorem setGang_ranges (s : State) (k : Nat) (x : Gang) : (s.setGang k x).ranges = s.ranges := rfl
@[simp] theorem setGang_atoms (s : State) (k : Nat) (x : Gang) : (s.setGang k x).atoms = s.atoms := rfl
@[simp] theorem setGang_hostQ (s : State) (k : Nat) (x : Gang) : (s.setGang k x).hostQ = s.hostQ := rfl
@[simp] theorem setGang_cores (s : State) (k : Nat) (x : Gang) : (s.setGang k x).cores = s.cores := rfl
@[simp] theorem setGang_nodes (s : State) (k : Nat) (x : Gang) : (s.setGang k x).nodes = s.nodes := rfl
@[simp] theorem setGang_edges (s : State) (k : Nat) (x : Gang) : (s.setGang k x).edges = s.edges := rfl
@[simp] theorem setGang_edgePoison (s : State) (k : Nat) (x : Gang) : (s.setGang k x).edgePoison = s.edgePoison := rfl
@[simp] theorem setGang_waves (s : State) (k : Nat) (x : Gang) : (s.setGang k x).waves = s.waves := rfl
@[simp] theorem setGang_batches (s : State) (k : Nat) (x : Gang) : (s.setGang k x).batches = s.batches := rfl
@[simp] theorem setGang_launches (s : State) (k : Nat) (x : Gang) : (s.setGang k x).launches = s.launches := rfl
@[simp] theorem setGang_queues (s : State) (k : Nat) (x : Gang) : (s.setGang k x).queues = s.queues := rfl
@[simp] theorem setGang_parts (s : State) (k : Nat) (x : Gang) : (s.setGang k x).parts = s.parts := rfl
@[simp] theorem setGang_stk (s : State) (k : Nat) (x : Gang) : (s.setGang k x).stk = s.stk := rfl
@[simp] theorem setGang_ports (s : State) (k : Nat) (x : Gang) : (s.setGang k x).ports = s.ports := rfl
@[simp] theorem setGang_planeDead (s : State) (k : Nat) (x : Gang) : (s.setGang k x).planeDead = s.planeDead := rfl
@[simp] theorem setGang_planeVia (s : State) (k : Nat) (x : Gang) : (s.setGang k x).planeVia = s.planeVia := rfl
@[simp] theorem setGang_planeHold (s : State) (k : Nat) (x : Gang) : (s.setGang k x).planeHold = s.planeHold := rfl
@[simp] theorem setGang_fab (s : State) (k : Nat) (x : Gang) : (s.setGang k x).fab = s.fab := rfl
@[simp] theorem setGang_inbox (s : State) (k : Nat) (x : Gang) : (s.setGang k x).inbox = s.inbox := rfl
@[simp] theorem setGang_hops (s : State) (k : Nat) (x : Gang) : (s.setGang k x).hops = s.hops := rfl
@[simp] theorem setGang_pieceStack (s : State) (k : Nat) (x : Gang) : (s.setGang k x).pieceStack = s.pieceStack := rfl
@[simp] theorem setGang_moving (s : State) (k : Nat) (x : Gang) : (s.setGang k x).moving = s.moving := rfl
@[simp] theorem setGang_flashShadow (s : State) (k : Nat) (x : Gang) : (s.setGang k x).flashShadow = s.flashShadow := rfl
@[simp] theorem setGang_used (s : State) (k : Nat) (x : Gang) : (s.setGang k x).used = s.used := rfl
@[simp] theorem setGang_links (s : State) (k : Nat) (x : Gang) : (s.setGang k x).links = s.links := rfl
@[simp] theorem setGang_linkAt (s : State) (k : Nat) (x : Gang) : (s.setGang k x).linkAt = s.linkAt := rfl
@[simp] theorem setGang_arb (s : State) (k : Nat) (x : Gang) : (s.setGang k x).arb = s.arb := rfl
@[simp] theorem setGang_arrived (s : State) (k : Nat) (x : Gang) : (s.setGang k x).arrived = s.arrived := rfl
@[simp] theorem setGang_lost (s : State) (k : Nat) (x : Gang) : (s.setGang k x).lost = s.lost := rfl
@[simp] theorem setGang_mgmt (s : State) (k : Nat) (x : Gang) : (s.setGang k x).mgmt = s.mgmt := rfl

/-! ### State.setLaunch -/

@[simp] theorem setLaunch_tick (s : State) (l : Nat) (x : Launch) : (s.setLaunch l x).tick = s.tick := rfl
@[simp] theorem setLaunch_nextId (s : State) (l : Nat) (x : Launch) : (s.setLaunch l x).nextId = s.nextId := rfl
@[simp] theorem setLaunch_agenda (s : State) (l : Nat) (x : Launch) : (s.setLaunch l x).agenda = s.agenda := rfl
@[simp] theorem setLaunch_cur (s : State) (l : Nat) (x : Launch) : (s.setLaunch l x).cur = s.cur := rfl
@[simp] theorem setLaunch_mem (s : State) (l : Nat) (x : Launch) : (s.setLaunch l x).mem = s.mem := rfl
@[simp] theorem setLaunch_held (s : State) (l : Nat) (x : Launch) : (s.setLaunch l x).held = s.held := rfl
@[simp] theorem setLaunch_top (s : State) (l : Nat) (x : Launch) : (s.setLaunch l x).top = s.top := rfl
@[simp] theorem setLaunch_poison (s : State) (l : Nat) (x : Launch) : (s.setLaunch l x).poison = s.poison := rfl
@[simp] theorem setLaunch_log (s : State) (l : Nat) (x : Launch) : (s.setLaunch l x).log = s.log := rfl
@[simp] theorem setLaunch_bufs (s : State) (l : Nat) (x : Launch) : (s.setLaunch l x).bufs = s.bufs := rfl
@[simp] theorem setLaunch_rels (s : State) (l : Nat) (x : Launch) : (s.setLaunch l x).rels = s.rels := rfl
@[simp] theorem setLaunch_ranges (s : State) (l : Nat) (x : Launch) : (s.setLaunch l x).ranges = s.ranges := rfl
@[simp] theorem setLaunch_atoms (s : State) (l : Nat) (x : Launch) : (s.setLaunch l x).atoms = s.atoms := rfl
@[simp] theorem setLaunch_hostQ (s : State) (l : Nat) (x : Launch) : (s.setLaunch l x).hostQ = s.hostQ := rfl
@[simp] theorem setLaunch_gangs (s : State) (l : Nat) (x : Launch) : (s.setLaunch l x).gangs = s.gangs := rfl
@[simp] theorem setLaunch_cores (s : State) (l : Nat) (x : Launch) : (s.setLaunch l x).cores = s.cores := rfl
@[simp] theorem setLaunch_nodes (s : State) (l : Nat) (x : Launch) : (s.setLaunch l x).nodes = s.nodes := rfl
@[simp] theorem setLaunch_edges (s : State) (l : Nat) (x : Launch) : (s.setLaunch l x).edges = s.edges := rfl
@[simp] theorem setLaunch_edgePoison (s : State) (l : Nat) (x : Launch) : (s.setLaunch l x).edgePoison = s.edgePoison := rfl
@[simp] theorem setLaunch_waves (s : State) (l : Nat) (x : Launch) : (s.setLaunch l x).waves = s.waves := rfl
@[simp] theorem setLaunch_batches (s : State) (l : Nat) (x : Launch) : (s.setLaunch l x).batches = s.batches := rfl
@[simp] theorem setLaunch_queues (s : State) (l : Nat) (x : Launch) : (s.setLaunch l x).queues = s.queues := rfl
@[simp] theorem setLaunch_parts (s : State) (l : Nat) (x : Launch) : (s.setLaunch l x).parts = s.parts := rfl
@[simp] theorem setLaunch_stk (s : State) (l : Nat) (x : Launch) : (s.setLaunch l x).stk = s.stk := rfl
@[simp] theorem setLaunch_ports (s : State) (l : Nat) (x : Launch) : (s.setLaunch l x).ports = s.ports := rfl
@[simp] theorem setLaunch_planeDead (s : State) (l : Nat) (x : Launch) : (s.setLaunch l x).planeDead = s.planeDead := rfl
@[simp] theorem setLaunch_planeVia (s : State) (l : Nat) (x : Launch) : (s.setLaunch l x).planeVia = s.planeVia := rfl
@[simp] theorem setLaunch_planeHold (s : State) (l : Nat) (x : Launch) : (s.setLaunch l x).planeHold = s.planeHold := rfl
@[simp] theorem setLaunch_fab (s : State) (l : Nat) (x : Launch) : (s.setLaunch l x).fab = s.fab := rfl
@[simp] theorem setLaunch_inbox (s : State) (l : Nat) (x : Launch) : (s.setLaunch l x).inbox = s.inbox := rfl
@[simp] theorem setLaunch_hops (s : State) (l : Nat) (x : Launch) : (s.setLaunch l x).hops = s.hops := rfl
@[simp] theorem setLaunch_pieceStack (s : State) (l : Nat) (x : Launch) : (s.setLaunch l x).pieceStack = s.pieceStack := rfl
@[simp] theorem setLaunch_moving (s : State) (l : Nat) (x : Launch) : (s.setLaunch l x).moving = s.moving := rfl
@[simp] theorem setLaunch_flashShadow (s : State) (l : Nat) (x : Launch) : (s.setLaunch l x).flashShadow = s.flashShadow := rfl
@[simp] theorem setLaunch_used (s : State) (l : Nat) (x : Launch) : (s.setLaunch l x).used = s.used := rfl
@[simp] theorem setLaunch_links (s : State) (l : Nat) (x : Launch) : (s.setLaunch l x).links = s.links := rfl
@[simp] theorem setLaunch_linkAt (s : State) (l : Nat) (x : Launch) : (s.setLaunch l x).linkAt = s.linkAt := rfl
@[simp] theorem setLaunch_arb (s : State) (l : Nat) (x : Launch) : (s.setLaunch l x).arb = s.arb := rfl
@[simp] theorem setLaunch_arrived (s : State) (l : Nat) (x : Launch) : (s.setLaunch l x).arrived = s.arrived := rfl
@[simp] theorem setLaunch_lost (s : State) (l : Nat) (x : Launch) : (s.setLaunch l x).lost = s.lost := rfl
@[simp] theorem setLaunch_mgmt (s : State) (l : Nat) (x : Launch) : (s.setLaunch l x).mgmt = s.mgmt := rfl

/-! ### State.setNode -/

@[simp] theorem setNode_tick (s : State) (n : Nat) (x : Node) : (s.setNode n x).tick = s.tick := rfl
@[simp] theorem setNode_nextId (s : State) (n : Nat) (x : Node) : (s.setNode n x).nextId = s.nextId := rfl
@[simp] theorem setNode_agenda (s : State) (n : Nat) (x : Node) : (s.setNode n x).agenda = s.agenda := rfl
@[simp] theorem setNode_cur (s : State) (n : Nat) (x : Node) : (s.setNode n x).cur = s.cur := rfl
@[simp] theorem setNode_mem (s : State) (n : Nat) (x : Node) : (s.setNode n x).mem = s.mem := rfl
@[simp] theorem setNode_held (s : State) (n : Nat) (x : Node) : (s.setNode n x).held = s.held := rfl
@[simp] theorem setNode_top (s : State) (n : Nat) (x : Node) : (s.setNode n x).top = s.top := rfl
@[simp] theorem setNode_poison (s : State) (n : Nat) (x : Node) : (s.setNode n x).poison = s.poison := rfl
@[simp] theorem setNode_log (s : State) (n : Nat) (x : Node) : (s.setNode n x).log = s.log := rfl
@[simp] theorem setNode_bufs (s : State) (n : Nat) (x : Node) : (s.setNode n x).bufs = s.bufs := rfl
@[simp] theorem setNode_rels (s : State) (n : Nat) (x : Node) : (s.setNode n x).rels = s.rels := rfl
@[simp] theorem setNode_ranges (s : State) (n : Nat) (x : Node) : (s.setNode n x).ranges = s.ranges := rfl
@[simp] theorem setNode_atoms (s : State) (n : Nat) (x : Node) : (s.setNode n x).atoms = s.atoms := rfl
@[simp] theorem setNode_hostQ (s : State) (n : Nat) (x : Node) : (s.setNode n x).hostQ = s.hostQ := rfl
@[simp] theorem setNode_gangs (s : State) (n : Nat) (x : Node) : (s.setNode n x).gangs = s.gangs := rfl
@[simp] theorem setNode_cores (s : State) (n : Nat) (x : Node) : (s.setNode n x).cores = s.cores := rfl
@[simp] theorem setNode_edges (s : State) (n : Nat) (x : Node) : (s.setNode n x).edges = s.edges := rfl
@[simp] theorem setNode_edgePoison (s : State) (n : Nat) (x : Node) : (s.setNode n x).edgePoison = s.edgePoison := rfl
@[simp] theorem setNode_waves (s : State) (n : Nat) (x : Node) : (s.setNode n x).waves = s.waves := rfl
@[simp] theorem setNode_batches (s : State) (n : Nat) (x : Node) : (s.setNode n x).batches = s.batches := rfl
@[simp] theorem setNode_launches (s : State) (n : Nat) (x : Node) : (s.setNode n x).launches = s.launches := rfl
@[simp] theorem setNode_queues (s : State) (n : Nat) (x : Node) : (s.setNode n x).queues = s.queues := rfl
@[simp] theorem setNode_parts (s : State) (n : Nat) (x : Node) : (s.setNode n x).parts = s.parts := rfl
@[simp] theorem setNode_stk (s : State) (n : Nat) (x : Node) : (s.setNode n x).stk = s.stk := rfl
@[simp] theorem setNode_ports (s : State) (n : Nat) (x : Node) : (s.setNode n x).ports = s.ports := rfl
@[simp] theorem setNode_planeDead (s : State) (n : Nat) (x : Node) : (s.setNode n x).planeDead = s.planeDead := rfl
@[simp] theorem setNode_planeVia (s : State) (n : Nat) (x : Node) : (s.setNode n x).planeVia = s.planeVia := rfl
@[simp] theorem setNode_planeHold (s : State) (n : Nat) (x : Node) : (s.setNode n x).planeHold = s.planeHold := rfl
@[simp] theorem setNode_fab (s : State) (n : Nat) (x : Node) : (s.setNode n x).fab = s.fab := rfl
@[simp] theorem setNode_inbox (s : State) (n : Nat) (x : Node) : (s.setNode n x).inbox = s.inbox := rfl
@[simp] theorem setNode_hops (s : State) (n : Nat) (x : Node) : (s.setNode n x).hops = s.hops := rfl
@[simp] theorem setNode_pieceStack (s : State) (n : Nat) (x : Node) : (s.setNode n x).pieceStack = s.pieceStack := rfl
@[simp] theorem setNode_moving (s : State) (n : Nat) (x : Node) : (s.setNode n x).moving = s.moving := rfl
@[simp] theorem setNode_flashShadow (s : State) (n : Nat) (x : Node) : (s.setNode n x).flashShadow = s.flashShadow := rfl
@[simp] theorem setNode_used (s : State) (n : Nat) (x : Node) : (s.setNode n x).used = s.used := rfl
@[simp] theorem setNode_links (s : State) (n : Nat) (x : Node) : (s.setNode n x).links = s.links := rfl
@[simp] theorem setNode_linkAt (s : State) (n : Nat) (x : Node) : (s.setNode n x).linkAt = s.linkAt := rfl
@[simp] theorem setNode_arb (s : State) (n : Nat) (x : Node) : (s.setNode n x).arb = s.arb := rfl
@[simp] theorem setNode_arrived (s : State) (n : Nat) (x : Node) : (s.setNode n x).arrived = s.arrived := rfl
@[simp] theorem setNode_lost (s : State) (n : Nat) (x : Node) : (s.setNode n x).lost = s.lost := rfl
@[simp] theorem setNode_mgmt (s : State) (n : Nat) (x : Node) : (s.setNode n x).mgmt = s.mgmt := rfl

/-! ### State.updCore -/

@[simp] theorem updCore_tick (s : State) (c : Nat) (f : Core → Core) : (s.updCore c f).tick = s.tick := rfl
@[simp] theorem updCore_nextId (s : State) (c : Nat) (f : Core → Core) : (s.updCore c f).nextId = s.nextId := rfl
@[simp] theorem updCore_agenda (s : State) (c : Nat) (f : Core → Core) : (s.updCore c f).agenda = s.agenda := rfl
@[simp] theorem updCore_cur (s : State) (c : Nat) (f : Core → Core) : (s.updCore c f).cur = s.cur := rfl
@[simp] theorem updCore_mem (s : State) (c : Nat) (f : Core → Core) : (s.updCore c f).mem = s.mem := rfl
@[simp] theorem updCore_held (s : State) (c : Nat) (f : Core → Core) : (s.updCore c f).held = s.held := rfl
@[simp] theorem updCore_top (s : State) (c : Nat) (f : Core → Core) : (s.updCore c f).top = s.top := rfl
@[simp] theorem updCore_poison (s : State) (c : Nat) (f : Core → Core) : (s.updCore c f).poison = s.poison := rfl
@[simp] theorem updCore_log (s : State) (c : Nat) (f : Core → Core) : (s.updCore c f).log = s.log := rfl
@[simp] theorem updCore_bufs (s : State) (c : Nat) (f : Core → Core) : (s.updCore c f).bufs = s.bufs := rfl
@[simp] theorem updCore_rels (s : State) (c : Nat) (f : Core → Core) : (s.updCore c f).rels = s.rels := rfl
@[simp] theorem updCore_ranges (s : State) (c : Nat) (f : Core → Core) : (s.updCore c f).ranges = s.ranges := rfl
@[simp] theorem updCore_atoms (s : State) (c : Nat) (f : Core → Core) : (s.updCore c f).atoms = s.atoms := rfl
@[simp] theorem updCore_hostQ (s : State) (c : Nat) (f : Core → Core) : (s.updCore c f).hostQ = s.hostQ := rfl
@[simp] theorem updCore_gangs (s : State) (c : Nat) (f : Core → Core) : (s.updCore c f).gangs = s.gangs := rfl
@[simp] theorem updCore_nodes (s : State) (c : Nat) (f : Core → Core) : (s.updCore c f).nodes = s.nodes := rfl
@[simp] theorem updCore_edges (s : State) (c : Nat) (f : Core → Core) : (s.updCore c f).edges = s.edges := rfl
@[simp] theorem updCore_edgePoison (s : State) (c : Nat) (f : Core → Core) : (s.updCore c f).edgePoison = s.edgePoison := rfl
@[simp] theorem updCore_waves (s : State) (c : Nat) (f : Core → Core) : (s.updCore c f).waves = s.waves := rfl
@[simp] theorem updCore_batches (s : State) (c : Nat) (f : Core → Core) : (s.updCore c f).batches = s.batches := rfl
@[simp] theorem updCore_launches (s : State) (c : Nat) (f : Core → Core) : (s.updCore c f).launches = s.launches := rfl
@[simp] theorem updCore_queues (s : State) (c : Nat) (f : Core → Core) : (s.updCore c f).queues = s.queues := rfl
@[simp] theorem updCore_parts (s : State) (c : Nat) (f : Core → Core) : (s.updCore c f).parts = s.parts := rfl
@[simp] theorem updCore_stk (s : State) (c : Nat) (f : Core → Core) : (s.updCore c f).stk = s.stk := rfl
@[simp] theorem updCore_ports (s : State) (c : Nat) (f : Core → Core) : (s.updCore c f).ports = s.ports := rfl
@[simp] theorem updCore_planeDead (s : State) (c : Nat) (f : Core → Core) : (s.updCore c f).planeDead = s.planeDead := rfl
@[simp] theorem updCore_planeVia (s : State) (c : Nat) (f : Core → Core) : (s.updCore c f).planeVia = s.planeVia := rfl
@[simp] theorem updCore_planeHold (s : State) (c : Nat) (f : Core → Core) : (s.updCore c f).planeHold = s.planeHold := rfl
@[simp] theorem updCore_fab (s : State) (c : Nat) (f : Core → Core) : (s.updCore c f).fab = s.fab := rfl
@[simp] theorem updCore_inbox (s : State) (c : Nat) (f : Core → Core) : (s.updCore c f).inbox = s.inbox := rfl
@[simp] theorem updCore_hops (s : State) (c : Nat) (f : Core → Core) : (s.updCore c f).hops = s.hops := rfl
@[simp] theorem updCore_pieceStack (s : State) (c : Nat) (f : Core → Core) : (s.updCore c f).pieceStack = s.pieceStack := rfl
@[simp] theorem updCore_moving (s : State) (c : Nat) (f : Core → Core) : (s.updCore c f).moving = s.moving := rfl
@[simp] theorem updCore_flashShadow (s : State) (c : Nat) (f : Core → Core) : (s.updCore c f).flashShadow = s.flashShadow := rfl
@[simp] theorem updCore_used (s : State) (c : Nat) (f : Core → Core) : (s.updCore c f).used = s.used := rfl
@[simp] theorem updCore_links (s : State) (c : Nat) (f : Core → Core) : (s.updCore c f).links = s.links := rfl
@[simp] theorem updCore_linkAt (s : State) (c : Nat) (f : Core → Core) : (s.updCore c f).linkAt = s.linkAt := rfl
@[simp] theorem updCore_arb (s : State) (c : Nat) (f : Core → Core) : (s.updCore c f).arb = s.arb := rfl
@[simp] theorem updCore_arrived (s : State) (c : Nat) (f : Core → Core) : (s.updCore c f).arrived = s.arrived := rfl
@[simp] theorem updCore_lost (s : State) (c : Nat) (f : Core → Core) : (s.updCore c f).lost = s.lost := rfl
@[simp] theorem updCore_mgmt (s : State) (c : Nat) (f : Core → Core) : (s.updCore c f).mgmt = s.mgmt := rfl

/-! ### State.updPart -/

@[simp] theorem updPart_tick (s : State) (p : Nat) (f : Part → Part) : (s.updPart p f).tick = s.tick := rfl
@[simp] theorem updPart_nextId (s : State) (p : Nat) (f : Part → Part) : (s.updPart p f).nextId = s.nextId := rfl
@[simp] theorem updPart_agenda (s : State) (p : Nat) (f : Part → Part) : (s.updPart p f).agenda = s.agenda := rfl
@[simp] theorem updPart_cur (s : State) (p : Nat) (f : Part → Part) : (s.updPart p f).cur = s.cur := rfl
@[simp] theorem updPart_mem (s : State) (p : Nat) (f : Part → Part) : (s.updPart p f).mem = s.mem := rfl
@[simp] theorem updPart_held (s : State) (p : Nat) (f : Part → Part) : (s.updPart p f).held = s.held := rfl
@[simp] theorem updPart_top (s : State) (p : Nat) (f : Part → Part) : (s.updPart p f).top = s.top := rfl
@[simp] theorem updPart_poison (s : State) (p : Nat) (f : Part → Part) : (s.updPart p f).poison = s.poison := rfl
@[simp] theorem updPart_log (s : State) (p : Nat) (f : Part → Part) : (s.updPart p f).log = s.log := rfl
@[simp] theorem updPart_bufs (s : State) (p : Nat) (f : Part → Part) : (s.updPart p f).bufs = s.bufs := rfl
@[simp] theorem updPart_rels (s : State) (p : Nat) (f : Part → Part) : (s.updPart p f).rels = s.rels := rfl
@[simp] theorem updPart_ranges (s : State) (p : Nat) (f : Part → Part) : (s.updPart p f).ranges = s.ranges := rfl
@[simp] theorem updPart_atoms (s : State) (p : Nat) (f : Part → Part) : (s.updPart p f).atoms = s.atoms := rfl
@[simp] theorem updPart_hostQ (s : State) (p : Nat) (f : Part → Part) : (s.updPart p f).hostQ = s.hostQ := rfl
@[simp] theorem updPart_gangs (s : State) (p : Nat) (f : Part → Part) : (s.updPart p f).gangs = s.gangs := rfl
@[simp] theorem updPart_cores (s : State) (p : Nat) (f : Part → Part) : (s.updPart p f).cores = s.cores := rfl
@[simp] theorem updPart_nodes (s : State) (p : Nat) (f : Part → Part) : (s.updPart p f).nodes = s.nodes := rfl
@[simp] theorem updPart_edges (s : State) (p : Nat) (f : Part → Part) : (s.updPart p f).edges = s.edges := rfl
@[simp] theorem updPart_edgePoison (s : State) (p : Nat) (f : Part → Part) : (s.updPart p f).edgePoison = s.edgePoison := rfl
@[simp] theorem updPart_waves (s : State) (p : Nat) (f : Part → Part) : (s.updPart p f).waves = s.waves := rfl
@[simp] theorem updPart_batches (s : State) (p : Nat) (f : Part → Part) : (s.updPart p f).batches = s.batches := rfl
@[simp] theorem updPart_launches (s : State) (p : Nat) (f : Part → Part) : (s.updPart p f).launches = s.launches := rfl
@[simp] theorem updPart_queues (s : State) (p : Nat) (f : Part → Part) : (s.updPart p f).queues = s.queues := rfl
@[simp] theorem updPart_stk (s : State) (p : Nat) (f : Part → Part) : (s.updPart p f).stk = s.stk := rfl
@[simp] theorem updPart_ports (s : State) (p : Nat) (f : Part → Part) : (s.updPart p f).ports = s.ports := rfl
@[simp] theorem updPart_planeDead (s : State) (p : Nat) (f : Part → Part) : (s.updPart p f).planeDead = s.planeDead := rfl
@[simp] theorem updPart_planeVia (s : State) (p : Nat) (f : Part → Part) : (s.updPart p f).planeVia = s.planeVia := rfl
@[simp] theorem updPart_planeHold (s : State) (p : Nat) (f : Part → Part) : (s.updPart p f).planeHold = s.planeHold := rfl
@[simp] theorem updPart_fab (s : State) (p : Nat) (f : Part → Part) : (s.updPart p f).fab = s.fab := rfl
@[simp] theorem updPart_inbox (s : State) (p : Nat) (f : Part → Part) : (s.updPart p f).inbox = s.inbox := rfl
@[simp] theorem updPart_hops (s : State) (p : Nat) (f : Part → Part) : (s.updPart p f).hops = s.hops := rfl
@[simp] theorem updPart_pieceStack (s : State) (p : Nat) (f : Part → Part) : (s.updPart p f).pieceStack = s.pieceStack := rfl
@[simp] theorem updPart_moving (s : State) (p : Nat) (f : Part → Part) : (s.updPart p f).moving = s.moving := rfl
@[simp] theorem updPart_flashShadow (s : State) (p : Nat) (f : Part → Part) : (s.updPart p f).flashShadow = s.flashShadow := rfl
@[simp] theorem updPart_used (s : State) (p : Nat) (f : Part → Part) : (s.updPart p f).used = s.used := rfl
@[simp] theorem updPart_links (s : State) (p : Nat) (f : Part → Part) : (s.updPart p f).links = s.links := rfl
@[simp] theorem updPart_linkAt (s : State) (p : Nat) (f : Part → Part) : (s.updPart p f).linkAt = s.linkAt := rfl
@[simp] theorem updPart_arb (s : State) (p : Nat) (f : Part → Part) : (s.updPart p f).arb = s.arb := rfl
@[simp] theorem updPart_arrived (s : State) (p : Nat) (f : Part → Part) : (s.updPart p f).arrived = s.arrived := rfl
@[simp] theorem updPart_lost (s : State) (p : Nat) (f : Part → Part) : (s.updPart p f).lost = s.lost := rfl
@[simp] theorem updPart_mgmt (s : State) (p : Nat) (f : Part → Part) : (s.updPart p f).mgmt = s.mgmt := rfl

/-! ### State.updQueue -/

@[simp] theorem updQueue_tick (s : State) (q : Nat) (f : Queue → Queue) : (s.updQueue q f).tick = s.tick := rfl
@[simp] theorem updQueue_nextId (s : State) (q : Nat) (f : Queue → Queue) : (s.updQueue q f).nextId = s.nextId := rfl
@[simp] theorem updQueue_agenda (s : State) (q : Nat) (f : Queue → Queue) : (s.updQueue q f).agenda = s.agenda := rfl
@[simp] theorem updQueue_cur (s : State) (q : Nat) (f : Queue → Queue) : (s.updQueue q f).cur = s.cur := rfl
@[simp] theorem updQueue_mem (s : State) (q : Nat) (f : Queue → Queue) : (s.updQueue q f).mem = s.mem := rfl
@[simp] theorem updQueue_held (s : State) (q : Nat) (f : Queue → Queue) : (s.updQueue q f).held = s.held := rfl
@[simp] theorem updQueue_top (s : State) (q : Nat) (f : Queue → Queue) : (s.updQueue q f).top = s.top := rfl
@[simp] theorem updQueue_poison (s : State) (q : Nat) (f : Queue → Queue) : (s.updQueue q f).poison = s.poison := rfl
@[simp] theorem updQueue_log (s : State) (q : Nat) (f : Queue → Queue) : (s.updQueue q f).log = s.log := rfl
@[simp] theorem updQueue_bufs (s : State) (q : Nat) (f : Queue → Queue) : (s.updQueue q f).bufs = s.bufs := rfl
@[simp] theorem updQueue_rels (s : State) (q : Nat) (f : Queue → Queue) : (s.updQueue q f).rels = s.rels := rfl
@[simp] theorem updQueue_ranges (s : State) (q : Nat) (f : Queue → Queue) : (s.updQueue q f).ranges = s.ranges := rfl
@[simp] theorem updQueue_atoms (s : State) (q : Nat) (f : Queue → Queue) : (s.updQueue q f).atoms = s.atoms := rfl
@[simp] theorem updQueue_hostQ (s : State) (q : Nat) (f : Queue → Queue) : (s.updQueue q f).hostQ = s.hostQ := rfl
@[simp] theorem updQueue_gangs (s : State) (q : Nat) (f : Queue → Queue) : (s.updQueue q f).gangs = s.gangs := rfl
@[simp] theorem updQueue_cores (s : State) (q : Nat) (f : Queue → Queue) : (s.updQueue q f).cores = s.cores := rfl
@[simp] theorem updQueue_nodes (s : State) (q : Nat) (f : Queue → Queue) : (s.updQueue q f).nodes = s.nodes := rfl
@[simp] theorem updQueue_edges (s : State) (q : Nat) (f : Queue → Queue) : (s.updQueue q f).edges = s.edges := rfl
@[simp] theorem updQueue_edgePoison (s : State) (q : Nat) (f : Queue → Queue) : (s.updQueue q f).edgePoison = s.edgePoison := rfl
@[simp] theorem updQueue_waves (s : State) (q : Nat) (f : Queue → Queue) : (s.updQueue q f).waves = s.waves := rfl
@[simp] theorem updQueue_batches (s : State) (q : Nat) (f : Queue → Queue) : (s.updQueue q f).batches = s.batches := rfl
@[simp] theorem updQueue_launches (s : State) (q : Nat) (f : Queue → Queue) : (s.updQueue q f).launches = s.launches := rfl
@[simp] theorem updQueue_parts (s : State) (q : Nat) (f : Queue → Queue) : (s.updQueue q f).parts = s.parts := rfl
@[simp] theorem updQueue_stk (s : State) (q : Nat) (f : Queue → Queue) : (s.updQueue q f).stk = s.stk := rfl
@[simp] theorem updQueue_ports (s : State) (q : Nat) (f : Queue → Queue) : (s.updQueue q f).ports = s.ports := rfl
@[simp] theorem updQueue_planeDead (s : State) (q : Nat) (f : Queue → Queue) : (s.updQueue q f).planeDead = s.planeDead := rfl
@[simp] theorem updQueue_planeVia (s : State) (q : Nat) (f : Queue → Queue) : (s.updQueue q f).planeVia = s.planeVia := rfl
@[simp] theorem updQueue_planeHold (s : State) (q : Nat) (f : Queue → Queue) : (s.updQueue q f).planeHold = s.planeHold := rfl
@[simp] theorem updQueue_fab (s : State) (q : Nat) (f : Queue → Queue) : (s.updQueue q f).fab = s.fab := rfl
@[simp] theorem updQueue_inbox (s : State) (q : Nat) (f : Queue → Queue) : (s.updQueue q f).inbox = s.inbox := rfl
@[simp] theorem updQueue_hops (s : State) (q : Nat) (f : Queue → Queue) : (s.updQueue q f).hops = s.hops := rfl
@[simp] theorem updQueue_pieceStack (s : State) (q : Nat) (f : Queue → Queue) : (s.updQueue q f).pieceStack = s.pieceStack := rfl
@[simp] theorem updQueue_moving (s : State) (q : Nat) (f : Queue → Queue) : (s.updQueue q f).moving = s.moving := rfl
@[simp] theorem updQueue_flashShadow (s : State) (q : Nat) (f : Queue → Queue) : (s.updQueue q f).flashShadow = s.flashShadow := rfl
@[simp] theorem updQueue_used (s : State) (q : Nat) (f : Queue → Queue) : (s.updQueue q f).used = s.used := rfl
@[simp] theorem updQueue_links (s : State) (q : Nat) (f : Queue → Queue) : (s.updQueue q f).links = s.links := rfl
@[simp] theorem updQueue_linkAt (s : State) (q : Nat) (f : Queue → Queue) : (s.updQueue q f).linkAt = s.linkAt := rfl
@[simp] theorem updQueue_arb (s : State) (q : Nat) (f : Queue → Queue) : (s.updQueue q f).arb = s.arb := rfl
@[simp] theorem updQueue_arrived (s : State) (q : Nat) (f : Queue → Queue) : (s.updQueue q f).arrived = s.arrived := rfl
@[simp] theorem updQueue_lost (s : State) (q : Nat) (f : Queue → Queue) : (s.updQueue q f).lost = s.lost := rfl
@[simp] theorem updQueue_mgmt (s : State) (q : Nat) (f : Queue → Queue) : (s.updQueue q f).mgmt = s.mgmt := rfl

/-! ### State.updEngine -/

@[simp] theorem updEngine_tick (s : State) (c e : Nat) (f : Engine → Engine) : (s.updEngine c e f).tick = s.tick := rfl
@[simp] theorem updEngine_nextId (s : State) (c e : Nat) (f : Engine → Engine) : (s.updEngine c e f).nextId = s.nextId := rfl
@[simp] theorem updEngine_agenda (s : State) (c e : Nat) (f : Engine → Engine) : (s.updEngine c e f).agenda = s.agenda := rfl
@[simp] theorem updEngine_cur (s : State) (c e : Nat) (f : Engine → Engine) : (s.updEngine c e f).cur = s.cur := rfl
@[simp] theorem updEngine_mem (s : State) (c e : Nat) (f : Engine → Engine) : (s.updEngine c e f).mem = s.mem := rfl
@[simp] theorem updEngine_held (s : State) (c e : Nat) (f : Engine → Engine) : (s.updEngine c e f).held = s.held := rfl
@[simp] theorem updEngine_top (s : State) (c e : Nat) (f : Engine → Engine) : (s.updEngine c e f).top = s.top := rfl
@[simp] theorem updEngine_poison (s : State) (c e : Nat) (f : Engine → Engine) : (s.updEngine c e f).poison = s.poison := rfl
@[simp] theorem updEngine_log (s : State) (c e : Nat) (f : Engine → Engine) : (s.updEngine c e f).log = s.log := rfl
@[simp] theorem updEngine_bufs (s : State) (c e : Nat) (f : Engine → Engine) : (s.updEngine c e f).bufs = s.bufs := rfl
@[simp] theorem updEngine_rels (s : State) (c e : Nat) (f : Engine → Engine) : (s.updEngine c e f).rels = s.rels := rfl
@[simp] theorem updEngine_ranges (s : State) (c e : Nat) (f : Engine → Engine) : (s.updEngine c e f).ranges = s.ranges := rfl
@[simp] theorem updEngine_atoms (s : State) (c e : Nat) (f : Engine → Engine) : (s.updEngine c e f).atoms = s.atoms := rfl
@[simp] theorem updEngine_hostQ (s : State) (c e : Nat) (f : Engine → Engine) : (s.updEngine c e f).hostQ = s.hostQ := rfl
@[simp] theorem updEngine_gangs (s : State) (c e : Nat) (f : Engine → Engine) : (s.updEngine c e f).gangs = s.gangs := rfl
@[simp] theorem updEngine_nodes (s : State) (c e : Nat) (f : Engine → Engine) : (s.updEngine c e f).nodes = s.nodes := rfl
@[simp] theorem updEngine_edges (s : State) (c e : Nat) (f : Engine → Engine) : (s.updEngine c e f).edges = s.edges := rfl
@[simp] theorem updEngine_edgePoison (s : State) (c e : Nat) (f : Engine → Engine) : (s.updEngine c e f).edgePoison = s.edgePoison := rfl
@[simp] theorem updEngine_waves (s : State) (c e : Nat) (f : Engine → Engine) : (s.updEngine c e f).waves = s.waves := rfl
@[simp] theorem updEngine_batches (s : State) (c e : Nat) (f : Engine → Engine) : (s.updEngine c e f).batches = s.batches := rfl
@[simp] theorem updEngine_launches (s : State) (c e : Nat) (f : Engine → Engine) : (s.updEngine c e f).launches = s.launches := rfl
@[simp] theorem updEngine_queues (s : State) (c e : Nat) (f : Engine → Engine) : (s.updEngine c e f).queues = s.queues := rfl
@[simp] theorem updEngine_parts (s : State) (c e : Nat) (f : Engine → Engine) : (s.updEngine c e f).parts = s.parts := rfl
@[simp] theorem updEngine_stk (s : State) (c e : Nat) (f : Engine → Engine) : (s.updEngine c e f).stk = s.stk := rfl
@[simp] theorem updEngine_ports (s : State) (c e : Nat) (f : Engine → Engine) : (s.updEngine c e f).ports = s.ports := rfl
@[simp] theorem updEngine_planeDead (s : State) (c e : Nat) (f : Engine → Engine) : (s.updEngine c e f).planeDead = s.planeDead := rfl
@[simp] theorem updEngine_planeVia (s : State) (c e : Nat) (f : Engine → Engine) : (s.updEngine c e f).planeVia = s.planeVia := rfl
@[simp] theorem updEngine_planeHold (s : State) (c e : Nat) (f : Engine → Engine) : (s.updEngine c e f).planeHold = s.planeHold := rfl
@[simp] theorem updEngine_fab (s : State) (c e : Nat) (f : Engine → Engine) : (s.updEngine c e f).fab = s.fab := rfl
@[simp] theorem updEngine_inbox (s : State) (c e : Nat) (f : Engine → Engine) : (s.updEngine c e f).inbox = s.inbox := rfl
@[simp] theorem updEngine_hops (s : State) (c e : Nat) (f : Engine → Engine) : (s.updEngine c e f).hops = s.hops := rfl
@[simp] theorem updEngine_pieceStack (s : State) (c e : Nat) (f : Engine → Engine) : (s.updEngine c e f).pieceStack = s.pieceStack := rfl
@[simp] theorem updEngine_moving (s : State) (c e : Nat) (f : Engine → Engine) : (s.updEngine c e f).moving = s.moving := rfl
@[simp] theorem updEngine_flashShadow (s : State) (c e : Nat) (f : Engine → Engine) : (s.updEngine c e f).flashShadow = s.flashShadow := rfl
@[simp] theorem updEngine_used (s : State) (c e : Nat) (f : Engine → Engine) : (s.updEngine c e f).used = s.used := rfl
@[simp] theorem updEngine_links (s : State) (c e : Nat) (f : Engine → Engine) : (s.updEngine c e f).links = s.links := rfl
@[simp] theorem updEngine_linkAt (s : State) (c e : Nat) (f : Engine → Engine) : (s.updEngine c e f).linkAt = s.linkAt := rfl
@[simp] theorem updEngine_arb (s : State) (c e : Nat) (f : Engine → Engine) : (s.updEngine c e f).arb = s.arb := rfl
@[simp] theorem updEngine_arrived (s : State) (c e : Nat) (f : Engine → Engine) : (s.updEngine c e f).arrived = s.arrived := rfl
@[simp] theorem updEngine_lost (s : State) (c e : Nat) (f : Engine → Engine) : (s.updEngine c e f).lost = s.lost := rfl
@[simp] theorem updEngine_mgmt (s : State) (c e : Nat) (f : Engine → Engine) : (s.updEngine c e f).mgmt = s.mgmt := rfl

/-! ### State.updGang -/

@[simp] theorem updGang_tick (s : State) (k : Nat) (f : Gang → Gang) : (s.updGang k f).tick = s.tick := by unfold State.updGang; split <;> rfl
@[simp] theorem updGang_nextId (s : State) (k : Nat) (f : Gang → Gang) : (s.updGang k f).nextId = s.nextId := by unfold State.updGang; split <;> rfl
@[simp] theorem updGang_agenda (s : State) (k : Nat) (f : Gang → Gang) : (s.updGang k f).agenda = s.agenda := by unfold State.updGang; split <;> rfl
@[simp] theorem updGang_cur (s : State) (k : Nat) (f : Gang → Gang) : (s.updGang k f).cur = s.cur := by unfold State.updGang; split <;> rfl
@[simp] theorem updGang_mem (s : State) (k : Nat) (f : Gang → Gang) : (s.updGang k f).mem = s.mem := by unfold State.updGang; split <;> rfl
@[simp] theorem updGang_held (s : State) (k : Nat) (f : Gang → Gang) : (s.updGang k f).held = s.held := by unfold State.updGang; split <;> rfl
@[simp] theorem updGang_top (s : State) (k : Nat) (f : Gang → Gang) : (s.updGang k f).top = s.top := by unfold State.updGang; split <;> rfl
@[simp] theorem updGang_poison (s : State) (k : Nat) (f : Gang → Gang) : (s.updGang k f).poison = s.poison := by unfold State.updGang; split <;> rfl
@[simp] theorem updGang_log (s : State) (k : Nat) (f : Gang → Gang) : (s.updGang k f).log = s.log := by unfold State.updGang; split <;> rfl
@[simp] theorem updGang_bufs (s : State) (k : Nat) (f : Gang → Gang) : (s.updGang k f).bufs = s.bufs := by unfold State.updGang; split <;> rfl
@[simp] theorem updGang_rels (s : State) (k : Nat) (f : Gang → Gang) : (s.updGang k f).rels = s.rels := by unfold State.updGang; split <;> rfl
@[simp] theorem updGang_ranges (s : State) (k : Nat) (f : Gang → Gang) : (s.updGang k f).ranges = s.ranges := by unfold State.updGang; split <;> rfl
@[simp] theorem updGang_atoms (s : State) (k : Nat) (f : Gang → Gang) : (s.updGang k f).atoms = s.atoms := by unfold State.updGang; split <;> rfl
@[simp] theorem updGang_hostQ (s : State) (k : Nat) (f : Gang → Gang) : (s.updGang k f).hostQ = s.hostQ := by unfold State.updGang; split <;> rfl
@[simp] theorem updGang_cores (s : State) (k : Nat) (f : Gang → Gang) : (s.updGang k f).cores = s.cores := by unfold State.updGang; split <;> rfl
@[simp] theorem updGang_nodes (s : State) (k : Nat) (f : Gang → Gang) : (s.updGang k f).nodes = s.nodes := by unfold State.updGang; split <;> rfl
@[simp] theorem updGang_edges (s : State) (k : Nat) (f : Gang → Gang) : (s.updGang k f).edges = s.edges := by unfold State.updGang; split <;> rfl
@[simp] theorem updGang_edgePoison (s : State) (k : Nat) (f : Gang → Gang) : (s.updGang k f).edgePoison = s.edgePoison := by unfold State.updGang; split <;> rfl
@[simp] theorem updGang_waves (s : State) (k : Nat) (f : Gang → Gang) : (s.updGang k f).waves = s.waves := by unfold State.updGang; split <;> rfl
@[simp] theorem updGang_batches (s : State) (k : Nat) (f : Gang → Gang) : (s.updGang k f).batches = s.batches := by unfold State.updGang; split <;> rfl
@[simp] theorem updGang_launches (s : State) (k : Nat) (f : Gang → Gang) : (s.updGang k f).launches = s.launches := by unfold State.updGang; split <;> rfl
@[simp] theorem updGang_queues (s : State) (k : Nat) (f : Gang → Gang) : (s.updGang k f).queues = s.queues := by unfold State.updGang; split <;> rfl
@[simp] theorem updGang_parts (s : State) (k : Nat) (f : Gang → Gang) : (s.updGang k f).parts = s.parts := by unfold State.updGang; split <;> rfl
@[simp] theorem updGang_stk (s : State) (k : Nat) (f : Gang → Gang) : (s.updGang k f).stk = s.stk := by unfold State.updGang; split <;> rfl
@[simp] theorem updGang_ports (s : State) (k : Nat) (f : Gang → Gang) : (s.updGang k f).ports = s.ports := by unfold State.updGang; split <;> rfl
@[simp] theorem updGang_planeDead (s : State) (k : Nat) (f : Gang → Gang) : (s.updGang k f).planeDead = s.planeDead := by unfold State.updGang; split <;> rfl
@[simp] theorem updGang_planeVia (s : State) (k : Nat) (f : Gang → Gang) : (s.updGang k f).planeVia = s.planeVia := by unfold State.updGang; split <;> rfl
@[simp] theorem updGang_planeHold (s : State) (k : Nat) (f : Gang → Gang) : (s.updGang k f).planeHold = s.planeHold := by unfold State.updGang; split <;> rfl
@[simp] theorem updGang_fab (s : State) (k : Nat) (f : Gang → Gang) : (s.updGang k f).fab = s.fab := by unfold State.updGang; split <;> rfl
@[simp] theorem updGang_inbox (s : State) (k : Nat) (f : Gang → Gang) : (s.updGang k f).inbox = s.inbox := by unfold State.updGang; split <;> rfl
@[simp] theorem updGang_hops (s : State) (k : Nat) (f : Gang → Gang) : (s.updGang k f).hops = s.hops := by unfold State.updGang; split <;> rfl
@[simp] theorem updGang_pieceStack (s : State) (k : Nat) (f : Gang → Gang) : (s.updGang k f).pieceStack = s.pieceStack := by unfold State.updGang; split <;> rfl
@[simp] theorem updGang_moving (s : State) (k : Nat) (f : Gang → Gang) : (s.updGang k f).moving = s.moving := by unfold State.updGang; split <;> rfl
@[simp] theorem updGang_flashShadow (s : State) (k : Nat) (f : Gang → Gang) : (s.updGang k f).flashShadow = s.flashShadow := by unfold State.updGang; split <;> rfl
@[simp] theorem updGang_used (s : State) (k : Nat) (f : Gang → Gang) : (s.updGang k f).used = s.used := by unfold State.updGang; split <;> rfl
@[simp] theorem updGang_links (s : State) (k : Nat) (f : Gang → Gang) : (s.updGang k f).links = s.links := by unfold State.updGang; split <;> rfl
@[simp] theorem updGang_linkAt (s : State) (k : Nat) (f : Gang → Gang) : (s.updGang k f).linkAt = s.linkAt := by unfold State.updGang; split <;> rfl
@[simp] theorem updGang_arb (s : State) (k : Nat) (f : Gang → Gang) : (s.updGang k f).arb = s.arb := by unfold State.updGang; split <;> rfl
@[simp] theorem updGang_arrived (s : State) (k : Nat) (f : Gang → Gang) : (s.updGang k f).arrived = s.arrived := by unfold State.updGang; split <;> rfl
@[simp] theorem updGang_lost (s : State) (k : Nat) (f : Gang → Gang) : (s.updGang k f).lost = s.lost := by unfold State.updGang; split <;> rfl
@[simp] theorem updGang_mgmt (s : State) (k : Nat) (f : Gang → Gang) : (s.updGang k f).mgmt = s.mgmt := by unfold State.updGang; split <;> rfl

/-! ### State.updLaunch -/

@[simp] theorem updLaunch_tick (s : State) (l : Nat) (f : Launch → Launch) : (s.updLaunch l f).tick = s.tick := by unfold State.updLaunch; split <;> rfl
@[simp] theorem updLaunch_nextId (s : State) (l : Nat) (f : Launch → Launch) : (s.updLaunch l f).nextId = s.nextId := by unfold State.updLaunch; split <;> rfl
@[simp] theorem updLaunch_agenda (s : State) (l : Nat) (f : Launch → Launch) : (s.updLaunch l f).agenda = s.agenda := by unfold State.updLaunch; split <;> rfl
@[simp] theorem updLaunch_cur (s : State) (l : Nat) (f : Launch → Launch) : (s.updLaunch l f).cur = s.cur := by unfold State.updLaunch; split <;> rfl
@[simp] theorem updLaunch_mem (s : State) (l : Nat) (f : Launch → Launch) : (s.updLaunch l f).mem = s.mem := by unfold State.updLaunch; split <;> rfl
@[simp] theorem updLaunch_held (s : State) (l : Nat) (f : Launch → Launch) : (s.updLaunch l f).held = s.held := by unfold State.updLaunch; split <;> rfl
@[simp] theorem updLaunch_top (s : State) (l : Nat) (f : Launch → Launch) : (s.updLaunch l f).top = s.top := by unfold State.updLaunch; split <;> rfl
@[simp] theorem updLaunch_poison (s : State) (l : Nat) (f : Launch → Launch) : (s.updLaunch l f).poison = s.poison := by unfold State.updLaunch; split <;> rfl
@[simp] theorem updLaunch_log (s : State) (l : Nat) (f : Launch → Launch) : (s.updLaunch l f).log = s.log := by unfold State.updLaunch; split <;> rfl
@[simp] theorem updLaunch_bufs (s : State) (l : Nat) (f : Launch → Launch) : (s.updLaunch l f).bufs = s.bufs := by unfold State.updLaunch; split <;> rfl
@[simp] theorem updLaunch_rels (s : State) (l : Nat) (f : Launch → Launch) : (s.updLaunch l f).rels = s.rels := by unfold State.updLaunch; split <;> rfl
@[simp] theorem updLaunch_ranges (s : State) (l : Nat) (f : Launch → Launch) : (s.updLaunch l f).ranges = s.ranges := by unfold State.updLaunch; split <;> rfl
@[simp] theorem updLaunch_atoms (s : State) (l : Nat) (f : Launch → Launch) : (s.updLaunch l f).atoms = s.atoms := by unfold State.updLaunch; split <;> rfl
@[simp] theorem updLaunch_hostQ (s : State) (l : Nat) (f : Launch → Launch) : (s.updLaunch l f).hostQ = s.hostQ := by unfold State.updLaunch; split <;> rfl
@[simp] theorem updLaunch_gangs (s : State) (l : Nat) (f : Launch → Launch) : (s.updLaunch l f).gangs = s.gangs := by unfold State.updLaunch; split <;> rfl
@[simp] theorem updLaunch_cores (s : State) (l : Nat) (f : Launch → Launch) : (s.updLaunch l f).cores = s.cores := by unfold State.updLaunch; split <;> rfl
@[simp] theorem updLaunch_nodes (s : State) (l : Nat) (f : Launch → Launch) : (s.updLaunch l f).nodes = s.nodes := by unfold State.updLaunch; split <;> rfl
@[simp] theorem updLaunch_edges (s : State) (l : Nat) (f : Launch → Launch) : (s.updLaunch l f).edges = s.edges := by unfold State.updLaunch; split <;> rfl
@[simp] theorem updLaunch_edgePoison (s : State) (l : Nat) (f : Launch → Launch) : (s.updLaunch l f).edgePoison = s.edgePoison := by unfold State.updLaunch; split <;> rfl
@[simp] theorem updLaunch_waves (s : State) (l : Nat) (f : Launch → Launch) : (s.updLaunch l f).waves = s.waves := by unfold State.updLaunch; split <;> rfl
@[simp] theorem updLaunch_batches (s : State) (l : Nat) (f : Launch → Launch) : (s.updLaunch l f).batches = s.batches := by unfold State.updLaunch; split <;> rfl
@[simp] theorem updLaunch_queues (s : State) (l : Nat) (f : Launch → Launch) : (s.updLaunch l f).queues = s.queues := by unfold State.updLaunch; split <;> rfl
@[simp] theorem updLaunch_parts (s : State) (l : Nat) (f : Launch → Launch) : (s.updLaunch l f).parts = s.parts := by unfold State.updLaunch; split <;> rfl
@[simp] theorem updLaunch_stk (s : State) (l : Nat) (f : Launch → Launch) : (s.updLaunch l f).stk = s.stk := by unfold State.updLaunch; split <;> rfl
@[simp] theorem updLaunch_ports (s : State) (l : Nat) (f : Launch → Launch) : (s.updLaunch l f).ports = s.ports := by unfold State.updLaunch; split <;> rfl
@[simp] theorem updLaunch_planeDead (s : State) (l : Nat) (f : Launch → Launch) : (s.updLaunch l f).planeDead = s.planeDead := by unfold State.updLaunch; split <;> rfl
@[simp] theorem updLaunch_planeVia (s : State) (l : Nat) (f : Launch → Launch) : (s.updLaunch l f).planeVia = s.planeVia := by unfold State.updLaunch; split <;> rfl
@[simp] theorem updLaunch_planeHold (s : State) (l : Nat) (f : Launch → Launch) : (s.updLaunch l f).planeHold = s.planeHold := by unfold State.updLaunch; split <;> rfl
@[simp] theorem updLaunch_fab (s : State) (l : Nat) (f : Launch → Launch) : (s.updLaunch l f).fab = s.fab := by unfold State.updLaunch; split <;> rfl
@[simp] theorem updLaunch_inbox (s : State) (l : Nat) (f : Launch → Launch) : (s.updLaunch l f).inbox = s.inbox := by unfold State.updLaunch; split <;> rfl
@[simp] theorem updLaunch_hops (s : State) (l : Nat) (f : Launch → Launch) : (s.updLaunch l f).hops = s.hops := by unfold State.updLaunch; split <;> rfl
@[simp] theorem updLaunch_pieceStack (s : State) (l : Nat) (f : Launch → Launch) : (s.updLaunch l f).pieceStack = s.pieceStack := by unfold State.updLaunch; split <;> rfl
@[simp] theorem updLaunch_moving (s : State) (l : Nat) (f : Launch → Launch) : (s.updLaunch l f).moving = s.moving := by unfold State.updLaunch; split <;> rfl
@[simp] theorem updLaunch_flashShadow (s : State) (l : Nat) (f : Launch → Launch) : (s.updLaunch l f).flashShadow = s.flashShadow := by unfold State.updLaunch; split <;> rfl
@[simp] theorem updLaunch_used (s : State) (l : Nat) (f : Launch → Launch) : (s.updLaunch l f).used = s.used := by unfold State.updLaunch; split <;> rfl
@[simp] theorem updLaunch_links (s : State) (l : Nat) (f : Launch → Launch) : (s.updLaunch l f).links = s.links := by unfold State.updLaunch; split <;> rfl
@[simp] theorem updLaunch_linkAt (s : State) (l : Nat) (f : Launch → Launch) : (s.updLaunch l f).linkAt = s.linkAt := by unfold State.updLaunch; split <;> rfl
@[simp] theorem updLaunch_arb (s : State) (l : Nat) (f : Launch → Launch) : (s.updLaunch l f).arb = s.arb := by unfold State.updLaunch; split <;> rfl
@[simp] theorem updLaunch_arrived (s : State) (l : Nat) (f : Launch → Launch) : (s.updLaunch l f).arrived = s.arrived := by unfold State.updLaunch; split <;> rfl
@[simp] theorem updLaunch_lost (s : State) (l : Nat) (f : Launch → Launch) : (s.updLaunch l f).lost = s.lost := by unfold State.updLaunch; split <;> rfl
@[simp] theorem updLaunch_mgmt (s : State) (l : Nat) (f : Launch → Launch) : (s.updLaunch l f).mgmt = s.mgmt := by unfold State.updLaunch; split <;> rfl

/-! ### The tables themselves -/

@[simp] theorem setGang_gangs (s : State) (k : Nat) (x : Gang) : (s.setGang k x).gangs = Tab.put s.gangs k x := rfl
theorem gang_setGang (s : State) (k j : Nat) (x : Gang) :
    (s.setGang k x).gang? j = if k = j then some x else s.gang? j := find_put s.gangs k j x
theorem gang_updGang (s : State) (k j : Nat) (f : Gang → Gang) :
    (s.updGang k f).gang? j = if k = j then (s.gang? j).map f else s.gang? j := by
  unfold State.updGang
  split
  · rename_i g h
    rw [gang_setGang]
    split
    · rename_i hk; subst hk; simp [h]
    · rfl
  · rename_i h
    split
    · rename_i hk; subst hk; simp [h]
    · rfl
theorem launch_setLaunch (s : State) (l j : Nat) (x : Launch) :
    (s.setLaunch l x).launch? j = if l = j then some x else s.launch? j := find_put s.launches l j x
theorem core_setCore (s : State) (c j : Nat) (x : Core) :
    (s.setCore c x).core j = if c = j then x else s.core j := at_put s.cores _ x c j
theorem core_updCore (s : State) (c j : Nat) (f : Core → Core) :
    (s.updCore c f).core j = if c = j then f (s.core c) else s.core j := core_setCore s c j _
theorem part_setPart (s : State) (p j : Nat) (x : Part) :
    (s.setPart p x).part j = if p = j then x else s.part j := at_put s.parts _ x p j
theorem part_updPart (s : State) (p j : Nat) (f : Part → Part) :
    (s.updPart p f).part j = if p = j then f (s.part p) else s.part j := part_setPart s p j _
theorem queue_setQueue (s : State) (q j : Nat) (x : Queue) :
    (s.setQueue q x).queue j = if q = j then x else s.queue j := at_put s.queues _ x q j
theorem queue_updQueue (s : State) (q j : Nat) (f : Queue → Queue) :
    (s.updQueue q f).queue j = if q = j then f (s.queue q) else s.queue j := queue_setQueue s q j _
theorem stack_setStack (s : State) (n j : Nat) (x : Stack) :
    (s.setStack n x).stack j = if n = j then x else s.stack j := at_put s.stk _ x n j
theorem port_setPort (s : State) (n j : Nat) (x : Port) :
    (s.setPort n x).port j = if n = j then x else s.port j := at_put s.ports _ x n j
theorem node_setNode (s : State) (n j : Nat) (x : Node) :
    (s.setNode n x).node j = if n = j then x else s.node j := at_put s.nodes _ x n j

end Sys2Proof.Laws
end

