-- ==== Sys2Proof/Laws/Issue.lean ====
section
/-! SUPPORT. What the issue of a word can do: the seats of a unit, the updates of gangs, and the effect of a word whose
members compute results at once. -/

namespace Sys2Proof.Laws

open Sys2Proof Sys2Proof.Machine

/-! ## Masks -/

@[simp] theorem inMask_maskOf (f : Nat → Bool) (l : Nat) : inMask (maskOf f) l = (decide (l < 32) && f l) := by
  unfold inMask maskOf
  by_cases h : l < 32
  · simp [h]
  · simp [h, BitVec.getLsbD_of_ge _ _ (Nat.le_of_not_lt h)]

theorem inMask_lt {m : Mask} {l : Nat} (h : inMask m l = true) : l < 32 := by
  by_contra hl
  simp [inMask, BitVec.getLsbD_of_ge _ _ (Nat.le_of_not_lt hl)] at h

@[simp] theorem inMask_zero (l : Nat) : inMask 0#32 l = false := by simp [inMask]
@[simp] theorem inMask_and (a b : Mask) (l : Nat) : inMask (a &&& b) l = (inMask a l && inMask b l) := by simp [inMask]
@[simp] theorem inMask_or (a b : Mask) (l : Nat) : inMask (a ||| b) l = (inMask a l || inMask b l) := by simp [inMask]
theorem inMask_not (a : Mask) {l : Nat} (h : l < 32) : inMask (~~~a) l = !inMask a l := by simp [inMask, h]

theorem maskOf_false : maskOf (fun _ => false) = 0#32 := by decide

/-! ## Lists of gang updates -/

/-- Updates of gangs, one after another. -/
def upds (s : State) (L : List (Nat × (Gang → Gang))) : State := L.foldl (fun s e => s.updGang e.1 e.2) s

theorem updGang_rest (s : State) (k : Nat) (f : Gang → Gang) :
    s.updGang k f = { s with gangs := (s.updGang k f).gangs } := by
  unfold State.updGang; split <;> rfl

theorem rest_trans {a b s : State} (ha : a = { s with gangs := a.gangs }) (hb : b = { a with gangs := b.gangs }) :
    b = { s with gangs := b.gangs } :=
  hb.trans (congrArg (fun u : State => { u with gangs := b.gangs }) ha)

theorem upds_rest (s : State) (L : List (Nat × (Gang → Gang))) : upds s L = { s with gangs := (upds s L).gangs } := by
  induction L generalizing s with
  | nil => rfl
  | cons e L ih =>
    have h : upds s (e :: L) = upds (s.updGang e.1 e.2) L := rfl
    rw [h, ih, updGang_rest]

theorem upds_gang_other (s : State) (L : List (Nat × (Gang → Gang))) (k : Nat) (h : ∀ e ∈ L, e.1 ≠ k) :
    (upds s L).gang? k = s.gang? k := by
  induction L generalizing s with
  | nil => rfl
  | cons e L ih =>
    have hs : upds s (e :: L) = upds (s.updGang e.1 e.2) L := rfl
    rw [hs, ih _ (fun x hx => h x (List.mem_cons_of_mem _ hx)), gang_updGang, if_neg (h e List.mem_cons_self)]

theorem upds_gang (s : State) (L : List (Nat × (Gang → Gang))) (hn : (L.map (·.1)).Nodup) (e : Nat × (Gang → Gang))
    (he : e ∈ L) : (upds s L).gang? e.1 = (s.gang? e.1).map e.2 := by
  induction L generalizing s with
  | nil => cases he
  | cons x L ih =>
    have hs : upds s (x :: L) = upds (s.updGang x.1 x.2) L := rfl
    rw [List.map_cons, List.nodup_cons] at hn
    rcases List.mem_cons.1 he with h | h
    · subst h
      rw [hs, upds_gang_other _ _ _ (fun y hy h => hn.1 (by rw [← h]; exact List.mem_map_of_mem hy)), gang_updGang, if_pos rfl]
    · rw [hs, ih _ hn.2 h, gang_updGang, if_neg]
      intro hx
      exact hn.1 (hx ▸ List.mem_map_of_mem h)

/-! ## Teams and seats -/

theorem team_gang {s : State} {key : Nat} {kg : Nat × Gang} (h : kg ∈ s.team key) : s.gang? kg.1 = some kg.2 := by
  unfold State.team at h
  split at h
  · obtain ⟨k, -, hk⟩ := List.mem_filterMap.1 h
    cases hg : s.gang? k with
    | none => simp [hg] at hk
    | some m => simp [hg] at hk; subst hk; exact hg
  · cases h

theorem nodup_filterMap_keys {α : Type} (f : Nat → Option α) (L : List Nat) (h : L.Nodup) :
    ((L.filterMap fun k => (f k).map fun m => (k, m)).map (·.1)).Nodup := by
  induction L with
  | nil => simp
  | cons k L ih =>
    rw [List.nodup_cons] at h
    rw [List.filterMap_cons]
    cases hf : f k with
    | none => simpa [hf] using ih h.2
    | some m =>
      simp only [Option.map_some, List.map_cons, List.nodup_cons]
      refine ⟨fun hk => ?_, ih h.2⟩
      obtain ⟨e, he, hek⟩ := List.mem_map.1 hk
      obtain ⟨j, hj, hje⟩ := List.mem_filterMap.1 he
      cases hfj : f j with
      | none => simp [hfj] at hje
      | some m' => simp [hfj] at hje; subst hje; exact h.1 (hek ▸ hj)

theorem team_nodup (s : State) (key : Nat) : ((s.team key).map (·.1)).Nodup := by
  unfold State.team
  split
  · exact nodup_filterMap_keys _ _ (List.nodup_dedup _)
  · simp

theorem mem_indexFrom {α : Type} {k : Nat} {L : List α} {e : Nat × α} (h : e ∈ indexFrom k L) : e.2 ∈ L := by
  induction L generalizing k with
  | nil => cases h
  | cons x L ih =>
    rcases List.mem_cons.1 h with h | h
    · subst h; exact List.mem_cons_self
    · exact List.mem_cons_of_mem _ (ih h)

theorem map_snd_indexFrom {α β : Type} (k : Nat) (L : List α) (f : α → β) :
    (indexFrom k L).map (fun e => f e.2) = L.map f := by
  induction L generalizing k with
  | nil => rfl
  | cons x L ih => simp [indexFrom, ih]

/-- What a seat says is so: its gang stands in the state, and its active lanes are among its issuing lanes. -/
theorem seat_facts {s : State} {mk : Nat} {x : Seat} (h : x ∈ s.seats mk) :
    s.gang? x.key = some x.g ∧ x.m0 = x.g.unitLanes s.cur.part ∧
      (x.act = if mk % 8 = 0 then x.m0 else x.m0 &&& Tab.at x.g.masks 0#32 (mk % 8)) ∧ (x.key, x.g) ∈ s.team s.cur.key := by
  unfold State.seats at h
  obtain ⟨e, he, rfl⟩ := List.mem_map.1 h
  obtain ⟨kg, hkg, hm⟩ := List.mem_filterMap.1 (mem_indexFrom he)
  simp only at hm
  split at hm
  · cases hm
  · simp only [Option.some.injEq] at hm
    rw [← hm]
    exact ⟨team_gang hkg, rfl, rfl, hkg⟩

theorem seats_nodup (s : State) (mk : Nat) : ((s.seats mk).map (·.key)).Nodup := by
  unfold State.seats
  rw [List.map_map]
  rw [show ((fun x : Seat => x.key) ∘ fun ix : Nat × (Nat × Gang × Mask × Mask) =>
      (⟨ix.2.1, ix.2.2.1, ix.2.2.2.1, ix.2.2.2.2, ix.1 == 0⟩ : Seat)) = fun e => (fun t => t.1) e.2 from rfl,
    map_snd_indexFrom]
  have h := team_nodup s s.cur.key
  generalize s.team s.cur.key = T at h
  induction T with
  | nil => simp
  | cons kg T ih =>
    rw [List.map_cons, List.nodup_cons] at h
    rw [List.filterMap_cons]
    split
    · exact ih h.2
    · rename_i b hb
      simp only at hb
      split at hb
      · cases hb
      · simp only [Option.some.injEq] at hb
        subst hb
        rw [List.map_cons, List.nodup_cons]
        refine ⟨fun hk => ?_, ih h.2⟩
        obtain ⟨e, he, hek⟩ := List.mem_map.1 hk
        obtain ⟨kg', hkg', hm⟩ := List.mem_filterMap.1 he
        simp only at hm
        split at hm
        · cases hm
        · simp only [Option.some.injEq] at hm
          subst hm
          exact h.1 (List.mem_map.2 ⟨kg', hkg', hek⟩)

/-! ## Writing results -/

theorem lane_range_map (f : Nat → Img) {l : Nat} (h : l < 32) : (VReg.general (lanes32.map f)).lane l = f l := by
  simp [VReg.lane, lanes32, h]

/-- A live lane after a register write (R39): the result in the active lanes, the old image in the others. -/
theorem writeLanes_lane (old r : VReg) {act live : Mask} (dead : Nat → Img) {l : Nat} (hl : inMask live l = true) :
    (writeLanes old r act live dead).lane l = if inMask act l then r.lane l else old.lane l := by
  have h32 := inMask_lt hl
  unfold writeLanes
  split
  · rename_i hfull
    have hact : inMask act l = true := by
      simp only [beq_iff_eq] at hfull
      have := congrArg (fun m => inMask m l) hfull
      simpa [inMask_not _ h32, hl] using this
    rw [if_pos hact]
    split
    · rw [lane_range_map _ h32, if_pos hact]
    · rfl
  · split
    · rename_i h0; simp only [beq_iff_eq] at h0; simp [h0]
    · split
      · rename_i x y
        split
        · rename_i hxy; simp only [beq_iff_eq] at hxy; subst hxy; simp [VReg.lane]
        · rw [lane_range_map _ h32]; simp [VReg.lane]
      · rename_i b s c t
        split
        · rename_i hbs; simp only [Bool.and_eq_true, beq_iff_eq] at hbs; obtain ⟨rfl, rfl⟩ := hbs; simp
        · rw [lane_range_map _ h32]
      · rw [lane_range_map _ h32]

@[simp] theorem write_live (g : Gang) (t : Nat) (m : Mask) (o : Out) : (g.write t m o).live = g.live := by
  unfold Gang.write; cases o with
  | reg => rfl
  | mask k b => dsimp only; split <;> rfl

/-- Results written in order, each in its lanes. -/
def puts (g : Gang) (t : Nat) (os : List (Mask × Out)) : Gang := os.foldl (fun g mo => g.write t mo.1 mo.2) g

theorem puts_snoc (g : Gang) (t : Nat) (os : List (Mask × Out)) (mo : Mask × Out) :
    puts g t (os ++ [mo]) = (puts g t os).write t mo.1 mo.2 := by simp [puts]

@[simp] theorem puts_live (g : Gang) (t : Nat) (os : List (Mask × Out)) : (puts g t os).live = g.live := by
  induction os using List.reverseRecOn with
  | nil => rfl
  | append_singleton os o ih => rw [puts_snoc, write_live, ih]

theorem puts_rest (g : Gang) (t : Nat) (os : List (Mask × Out)) :
    puts g t os = { g with regs := (puts g t os).regs, masks := (puts g t os).masks } := by
  induction os using List.reverseRecOn with
  | nil => rfl
  | append_singleton os mo ih =>
    rw [puts_snoc]
    generalize puts g t os = g' at *
    rw [ih]
    obtain ⟨m, o⟩ := mo
    unfold Gang.write
    cases o with
    | reg => rfl
    | mask k b => dsimp only; split <;> rfl

theorem puts_lane (g : Gang) (t : Nat) (os : List (Mask × Out)) (r : Nat) {l : Nat} (hl : inMask g.live l = true) :
    ((puts g t os).reg r).lane l = (resultLane os r l).getD ((g.reg r).lane l) := by
  induction os using List.reverseRecOn with
  | nil => simp [puts, resultLane]
  | append_singleton os mo ih =>
    rw [puts_snoc]
    have hl' : inMask (puts g t os).live l = true := by simpa using hl
    obtain ⟨m, o⟩ := mo
    cases o with
    | reg n v =>
      have hr : resultLane (os ++ [(m, .reg n v)]) r l =
          if n = r ∧ inMask m l = true then some (v.lane l) else resultLane os r l := by
        simp only [resultLane, List.reverse_append, List.reverse_cons, List.reverse_nil, List.nil_append,
          List.cons_append, List.findSome?_cons]
        split <;> simp_all
      rw [hr]
      show (Tab.at (Tab.put _ n _) VReg.zero r).lane l = _
      rw [at_put]
      by_cases hn : n = r
      · subst hn
        rw [if_pos rfl, writeLanes_lane _ _ _ hl', ih]
        cases inMask m l <;> simp
      · rw [if_neg hn, if_neg (fun h => hn h.1)]
        exact ih
    | mask k b =>
      have hr : resultLane (os ++ [(m, .mask k b)]) r l = resultLane os r l := by simp [resultLane]
      rw [hr, ← ih]
      unfold Gang.write; dsimp only; split <;> rfl

theorem puts_mask (g : Gang) (t : Nat) (os : List (Mask × Out)) (k : Nat) {l : Nat} (h32 : l < 32) :
    inMask ((puts g t os).maskReg k) l = (resultMask os k l).getD (inMask (g.maskReg k) l) := by
  induction os using List.reverseRecOn with
  | nil => simp [puts, resultMask]
  | append_singleton os mo ih =>
    rw [puts_snoc]
    obtain ⟨m, o⟩ := mo
    cases o with
    | reg n v =>
      have hr : resultMask (os ++ [(m, .reg n v)]) k l = resultMask os k l := by simp [resultMask]
      rw [hr, ← ih]; rfl
    | mask n b =>
      have hr : resultMask (os ++ [(m, .mask n b)]) k l =
          if n = k ∧ n ≠ 0 ∧ inMask m l = true then some (inMask b l) else resultMask os k l := by
        simp only [resultMask, List.reverse_append, List.reverse_cons, List.reverse_nil, List.nil_append,
          List.cons_append, List.findSome?_cons]
        by_cases h : n = k ∧ n ≠ 0 ∧ inMask m l = true
        · rw [if_pos h, if_pos h]
        · rw [if_neg h, if_neg h]
      rw [hr]
      unfold Gang.write
      dsimp only
      by_cases hn : n = 0
      · subst hn; simpa using ih
      · rw [if_neg hn]
        show inMask (Tab.at (Tab.put _ n _) 0#32 k) l = _
        rw [at_put]
        by_cases hk : n = k
        · subst hk
          rw [if_pos rfl]
          simp only [inMask_or, inMask_and, inMask_not _ h32]
          have ih' : inMask (Tab.at (puts g t os).masks 0#32 n) l = _ := ih
          rw [ih']
          cases inMask m l <;> simp [hn]
        · rw [if_neg hk, if_neg (fun h => hk h.1)]
          exact ih

theorem puts_other (g : Gang) (t : Nat) (os : List (Mask × Out)) (r : Nat)
    (h : ∀ mo ∈ os, ∀ v, mo.2 ≠ .reg r v) : (puts g t os).reg r = g.reg r := by
  induction os using List.reverseRecOn with
  | nil => rfl
  | append_singleton os mo ih =>
    rw [puts_snoc]
    have ih := ih (fun o ho v => h o (List.mem_append_left _ ho) v)
    have hm := h mo (by simp)
    obtain ⟨m, o⟩ := mo
    cases o with
    | reg n v =>
      have hn : n ≠ r := fun hn => hm v (by rw [hn])
      show Tab.at (Tab.put _ n _) VReg.zero r = _
      rw [at_put_ne _ _ _ hn]; exact ih
    | mask k b => rw [← ih]; unfold Gang.write; dsimp only; split <;> rfl

/-! ## What closed windows write -/

theorem resultLane_append (xs ys : List (Mask × Out)) (r l : Nat) :
    resultLane (xs ++ ys) r l = (resultLane ys r l).or (resultLane xs r l) := by
  simp [resultLane, List.findSome?_append]

theorem resultMask_append (xs ys : List (Mask × Out)) (k l : Nat) :
    resultMask (xs ++ ys) k l = (resultMask ys k l).or (resultMask xs k l) := by
  simp [resultMask, List.findSome?_append]

/-- What due results write, each with its lanes. -/
def dueAll (L : List (Mask × Pend)) : List (Mask × Out) := L.flatMap fun mp => mp.2.outs.map fun o => (mp.1, o)

/-- Those of them that have lanes to write. -/
def dueSome (L : List (Mask × Pend)) : List (Mask × Out) := dueAll (L.filter fun mp => mp.1 != 0#32)

theorem resultLane_none (os : List Out) (r l : Nat) : resultLane (os.map fun o => ((0#32 : Mask), o)) r l = none := by
  unfold resultLane
  rw [List.findSome?_eq_none_iff]
  intro mo hmo
  obtain ⟨o, -, rfl⟩ := List.mem_map.1 (List.mem_reverse.1 hmo)
  cases o <;> simp

theorem resultMask_none (os : List Out) (k l : Nat) : resultMask (os.map fun o => ((0#32 : Mask), o)) k l = none := by
  unfold resultMask
  rw [List.findSome?_eq_none_iff]
  intro mo hmo
  obtain ⟨o, -, rfl⟩ := List.mem_map.1 (List.mem_reverse.1 hmo)
  cases o <;> simp

theorem due_lane (L : List (Mask × Pend)) (r l : Nat) : resultLane (dueSome L) r l = resultLane (dueAll L) r l := by
  induction L with
  | nil => rfl
  | cons mp L ih =>
    have ha : dueAll (mp :: L) = (mp.2.outs.map fun o => (mp.1, o)) ++ dueAll L := rfl
    by_cases h : mp.1 = 0#32
    · have hs : dueSome (mp :: L) = dueSome L := by simp [dueSome, h]
      rw [hs, ih, ha, resultLane_append, h, resultLane_none, Option.or_none]
    · have hs : dueSome (mp :: L) = (mp.2.outs.map fun o => (mp.1, o)) ++ dueSome L := by
        simp [dueSome, h, dueAll]
      rw [hs, ha, resultLane_append, resultLane_append, ih]

theorem due_mask (L : List (Mask × Pend)) (k l : Nat) : resultMask (dueSome L) k l = resultMask (dueAll L) k l := by
  induction L with
  | nil => rfl
  | cons mp L ih =>
    have ha : dueAll (mp :: L) = (mp.2.outs.map fun o => (mp.1, o)) ++ dueAll L := rfl
    by_cases h : mp.1 = 0#32
    · have hs : dueSome (mp :: L) = dueSome L := by simp [dueSome, h]
      rw [hs, ih, ha, resultMask_append, h, resultMask_none, Option.or_none]
    · have hs : dueSome (mp :: L) = (mp.2.outs.map fun o => (mp.1, o)) ++ dueSome L := by
        simp [dueSome, h, dueAll]
      rw [hs, ha, resultMask_append, resultMask_append, ih]

theorem dueSome_sub (L : List (Mask × Pend)) {mo : Mask × Out} (h : mo ∈ dueSome L) : mo ∈ dueAll L := by
  obtain ⟨mp, hmp, ho⟩ := List.mem_flatMap.1 h
  exact List.mem_flatMap.2 ⟨mp, (List.mem_filter.1 hmp).1, ho⟩

theorem writes_puts (g : Gang) (t : Nat) (m : Mask) (os : List Out) : g.writes t m os = puts g t (os.map fun o => (m, o)) := by
  unfold Gang.writes puts; rw [List.foldl_map]

theorem puts_append (g : Gang) (t : Nat) (xs ys : List (Mask × Out)) : puts g t (xs ++ ys) = puts (puts g t xs) t ys := by
  unfold puts; rw [List.foldl_append]

/-- The windows that have closed are written, in issue order, and what could not be written stays. -/
theorem flush_eq (g : Gang) (t : Nat) :
    g.flush t = { puts g t (dueSome (dueFrom [] g.pend)) with pend := g.leftPend } := by
  have key : ∀ (L : List Pend) (h : Gang) (before : List Pend),
      L.foldl (fun (acc : Gang × List Pend) p =>
        let lanes := p.ready acc.2
        let g := if lanes == 0#32 then acc.1 else acc.1.writes t lanes p.outs
        let p := { p with left := p.left &&& ~~~lanes }
        (g, if p.landed && p.left == 0#32 then acc.2 else acc.2 ++ [p])) (h, before) =
      (puts h t (dueSome (dueFrom before L)),
        before ++ ((dueFrom before L).map (·.2)).filter fun p => !(p.landed && p.left == 0#32)) := by
    intro L
    induction L with
    | nil => intro h before; simp [dueFrom, dueSome, dueAll, puts]
    | cons p L ih =>
      intro h before
      rw [List.foldl_cons]
      dsimp only
      rw [ih]
      generalize hb : (if p.landed && p.left &&& ~~~p.ready before == 0#32 then before
        else before ++ [{ p with left := p.left &&& ~~~p.ready before }]) = b'
      have hd : dueFrom before (p :: L) =
          (p.ready before, { p with left := p.left &&& ~~~p.ready before }) :: dueFrom b' L := by rw [← hb]; rfl
      rw [hd]
      refine Prod.ext ?_ ?_
      · dsimp only
        by_cases hm : p.ready before = 0#32
        · simp [hm, dueSome]
        · have hs : dueSome ((p.ready before, { p with left := p.left &&& ~~~p.ready before }) :: dueFrom b' L) =
              (p.outs.map fun o => (p.ready before, o)) ++ dueSome (dueFrom b' L) := by simp [dueSome, hm, dueAll]
          rw [hs, puts_append, ← writes_puts]
          simp [hm]
      · dsimp only
        rw [List.map_cons, List.filter_cons, ← hb]
        cases hc : (p.landed && p.left &&& ~~~p.ready before == 0#32) <;> simp
  unfold Gang.flush
  rw [key g.pend g []]
  rfl

/-! ## Flow -/

theorem flowAt_mapFlow (g : Gang) (f : Nat → Flow → Flow) (l : Nat) :
    (g.mapFlow f).flowAt l = if l < g.flow.length then f l (g.flowAt l) else g.flowAt l := by
  have key : ∀ (L : List Flow) (k j : Nat),
      ((indexFrom k L).map fun lf => f lf.1 lf.2).getD j Flow.blank
        = if j < L.length then f (k + j) (L.getD j Flow.blank) else L.getD j Flow.blank := by
    intro L
    induction L with
    | nil => intro k j; simp [indexFrom]
    | cons x L ih =>
      intro k j
      cases j with
      | zero => simp [indexFrom]
      | succ j =>
        have := ih (k + 1) j
        simp only [indexFrom, List.map_cons, List.getD_cons_succ, List.length_cons, Nat.add_lt_add_iff_right]
        rw [this]
        rw [show k + 1 + j = k + (j + 1) from by omega]
  have := key g.flow 0 l
  simpa [Gang.mapFlow, Gang.flowAt] using this

theorem mapFlow_rest (g : Gang) (f : Nat → Flow → Flow) : g.mapFlow f = { g with flow := (g.mapFlow f).flow } := rfl

theorem next_pc (f : Flow) (n : Nat) : (f.next n none).pc = addWords f.pc n := by
  unfold Flow.next; dsimp only; split <;> rfl

/-! ## Parts -/

/-- A gang whose lanes of a part count to the parts that their slices' keys name. -/
def splitBy (part : Option Nat) (name : Bool × Nat → Option Nat) (g : Gang) : Gang :=
  g.mapFlow fun l f =>
    if inMask g.live l && (part.isNone || some f.part == part) then
      { f with part := ((g.sliceKey (l / 4)).bind name).getD f.part }
    else f

theorem splitBy_pc (part : Option Nat) (name : Bool × Nat → Option Nat) (g : Gang) (l : Nat) :
    ((splitBy part name g).flowAt l).pc = (g.flowAt l).pc := by
  unfold splitBy
  rw [flowAt_mapFlow]
  split
  · split <;> rfl
  · rfl

/-- The names of the parts that a split makes: the lowest slice over the team with a key. -/
def partNames (s : State) (key : Nat) (part : Option Nat) (k : Bool × Nat) : Option Nat :=
  let keys := (s.team key).flatMap fun kg => kg.2.sliceNums.filterMap fun sl =>
    if part.isNone || kg.2.slicePart? sl == part then
      (kg.2.sliceKey sl).map fun k => (k, 8 * kg.2.member + sl)
    else none
  ((keys.filter (fun x => x.1 == k)).map (·.2)).min?

/-- Splitting parts changes only which part a lane counts to (R16). -/
theorem resplit_upds (s : State) (key : Nat) (part : Option Nat) :
    s.resplit key part = upds s ((s.team key).map fun kg => (kg.1, splitBy part (partNames s key part))) := by
  unfold State.resplit upds
  rw [List.foldl_map]
  rfl

theorem resplit_rest (s : State) (key : Nat) (part : Option Nat) :
    s.resplit key part = { s with gangs := (s.resplit key part).gangs } := by
  rw [resplit_upds]; exact upds_rest _ _

theorem resplit_gang {s : State} {k : Nat} {g : Gang} (key : Nat) (part : Option Nat) (h : s.gang? k = some g) :
    ∃ g', (s.resplit key part).gang? k = some g' ∧ g' = { g with flow := g'.flow } ∧
      ∀ l, (g'.flowAt l).pc = (g.flowAt l).pc := by
  rw [resplit_upds]
  generalize hF : splitBy part (partNames s key part) = F
  by_cases hk : k ∈ (s.team key).map (·.1)
  · obtain ⟨kg, hkg, rfl⟩ := List.mem_map.1 hk
    have := upds_gang s ((s.team key).map fun kg => (kg.1, F))
      (by rw [List.map_map]; exact team_nodup s key) (kg.1, F) (List.mem_map.2 ⟨kg, hkg, rfl⟩)
    rw [h] at this
    exact ⟨F g, this, by rw [← hF]; rfl, fun l => by rw [← hF]; exact splitBy_pc _ _ _ _⟩
  · refine ⟨g, ?_, rfl, fun _ => rfl⟩
    rw [upds_gang_other, h]
    intro e he hek
    obtain ⟨kg, hkg, rfl⟩ := List.mem_map.1 he
    exact hk (List.mem_map.2 ⟨kg, hkg, hek⟩)

/-! ## The issue of a word -/

theorem count_rest (g : Gang) (m : Mask) : g.count m = { g with pend := (g.count m).pend } := rfl

theorem advance_rest (g : Gang) (m : Mask) (n : Nat) (gt : List (Nat × Word64)) (hi : Bool) :
    g.advance m n gt hi = { g with flow := (g.advance m n gt hi).flow, offer := (g.advance m n gt hi).offer } := rfl

theorem advance_pc' (g : Gang) (m : Mask) (n : Nat) (gt : List (Nat × Word64)) (hi : Bool) (l : Nat) :
    ((g.advance m n gt hi).flowAt l).pc =
      if inMask m l && inMask g.live l && decide (l < g.flow.length) then
        (((gt.find? fun t => t.1 == l).map (·.2)).getD (addWords (g.flowAt l).pc n))
      else (g.flowAt l).pc := by
  show ((g.mapFlow fun l f => if inMask m l && inMask g.live l then
    f.next n ((gt.find? fun t => t.1 == l).map (·.2)) else f).flowAt l).pc = _
  rw [flowAt_mapFlow]
  by_cases hl : l < g.flow.length
  · rw [if_pos hl]
    by_cases hm : inMask m l && inMask g.live l
    · simp only [hm, hl, decide_true, Bool.and_self, if_true]
      cases (gt.find? fun t => t.1 == l).map (·.2) with
      | none => exact next_pc _ _
      | some a => rfl
    · simp only [hm, Bool.false_and, Bool.false_eq_true, if_false]
  · rw [if_neg hl]; simp [hl]

/-- What finishing does to a member with an effect that does not stay. -/
def ended (tick n : Nat) (high : Bool) (x : Seat) (e : Eff) (g : Gang) : Gang :=
  ((e.outs.foldl (fun g mo => g.write tick mo.1 mo.2) g).flush tick).advance x.m0 n e.goto high

/-- A member that has written its results and those of its closed windows, and gone on. -/
theorem ended_gone (a : Gang) (tick n : Nat) (high : Bool) (x : Seat) (os : List (Mask × Out))
    (goto : List (Nat × Word64)) :
    a.Gone (ended tick n high x { outs := os, goto := goto } a) x.m0 n os goto false := by
  have hp : (puts a tick os).pend = a.pend := by rw [puts_rest]
  have hl : (puts a tick os).leftPend = a.leftPend := by unfold Gang.leftPend; rw [hp]
  have hfl : ended tick n high x { outs := os, goto := goto } a =
      ({ puts a tick (os ++ dueSome (dueFrom [] a.pend)) with pend := a.leftPend } : Gang).advance x.m0 n goto high := by
    unfold ended
    dsimp only
    show ((puts a tick os).flush tick).advance _ _ _ _ = _
    rw [flush_eq, hp, hl, ← puts_append]
  have hlane : ∀ r l, resultLane (os ++ dueSome (dueFrom [] a.pend)) r l = resultLane (os ++ a.dueOuts) r l := by
    intro r l; rw [resultLane_append, resultLane_append, due_lane]; rfl
  have hmask : ∀ k l, resultMask (os ++ dueSome (dueFrom [] a.pend)) k l = resultMask (os ++ a.dueOuts) k l := by
    intro k l; rw [resultMask_append, resultMask_append, due_mask]; rfl
  rw [hfl]
  constructor
  · intro r l hl; rw [← hlane]; exact puts_lane a tick _ r hl
  · intro k l hl; rw [← hmask]; exact puts_mask a tick _ k hl
  · intro r hr
    refine puts_other a tick _ r fun mo hmo => hr mo ?_
    rcases List.mem_append.1 hmo with h | h
    · exact List.mem_append_left _ h
    · exact List.mem_append_right _ (dueSome_sub _ h)
  · rfl
  · intro l
    rw [advance_pc']
    show (if inMask x.m0 l && inMask (puts a tick _).live l && decide (l < (puts a tick _).flow.length) then _ else _) = _
    rw [puts_live, puts_rest]; rfl
  · rw [advance_rest, puts_rest]; rfl

theorem gone_regroup {a b c : Gang} {m0 : Mask} {n : Nat} {os : List (Mask × Out)} {goto : List (Nat × Word64)} {ends : Bool}
    (h : a.Gone b m0 n os goto false)
    (hc : c = { b with flow := c.flow, fetched := c.fetched, waits := c.waits, idem := if ends then none else b.idem })
    (hpc : ∀ l, (c.flowAt l).pc = (b.flowAt l).pc) : a.Gone c m0 n os goto ends := by
  have hi : b.idem = a.idem := by rw [h.rest]; rfl
  constructor
  · intro r l hl; rw [hc]; exact h.regs r l hl
  · intro k l hl; rw [hc]; exact h.masks k l hl
  · intro r hr; rw [hc]; exact h.others r hr
  · rw [hc]; exact h.pend
  · intro l; rw [hpc]; exact h.pcs l
  · rw [hc, hi]
    conv_lhs => rw [h.rest]

/-- Running members that all succeed. -/
theorem runSeats_ok {body : Seat → State → SeatRes} (eff : Seat → State → State) (e : Seat → Eff) (J : State → Prop)
    (g0 : Seat → Gang) (xs : List Seat) (hn : (xs.map (·.key)).Nodup) (r : Ran) (hj : J r.state)
    (hg : ∀ x ∈ xs, r.state.gang? x.key = some (g0 x))
    (hb : ∀ x ∈ xs, ∀ u, J u → u.gang? x.key = some (g0 x) → body x u = .ok (eff x u) (e x) ∧ J (eff x u) ∧
      ∀ k, k ≠ x.key → (eff x u).gang? k = u.gang? k) :
    runSeats body xs r = { r with state := xs.foldl (fun u x => eff x u) r.state
                                  effs := r.effs ++ xs.map fun x => (x, e x) } ∧
      J (xs.foldl (fun u x => eff x u) r.state) := by
  induction xs generalizing r with
  | nil => simp [runSeats, hj]
  | cons x xs ih =>
    rw [List.map_cons, List.nodup_cons] at hn
    obtain ⟨h1, h2, h3⟩ := hb x List.mem_cons_self r.state hj (hg x List.mem_cons_self)
    simp only [runSeats]
    rw [h1]
    dsimp only
    obtain ⟨i1, i2⟩ := ih hn.2 { r with state := eff x r.state, effs := r.effs ++ [(x, e x)] } h2
      (fun y hy => by
        show (eff x r.state).gang? y.key = _
        rw [h3 _ (fun h => hn.1 (h ▸ List.mem_map_of_mem hy)), hg y (List.mem_cons_of_mem _ hy)])
      (fun y hy => hb y (List.mem_cons_of_mem _ hy))
    rw [i1]
    exact ⟨by simp, i2⟩

theorem counted_upds (s : State) (mk : Nat) :
    s.counted mk = upds s ((s.seats mk).map fun x => (x.key, fun g => g.count x.m0)) := by
  unfold State.counted upds; rw [List.foldl_map]

theorem counted_rest (s : State) (mk : Nat) : s.counted mk = { s with gangs := (s.counted mk).gangs } := by
  rw [counted_upds]; exact upds_rest _ _

theorem keys_map {β : Type} (xs : List Seat) (G : Seat → β) : (xs.map fun x => (x.key, G x)).map (·.1) = xs.map (·.key) := by
  rw [List.map_map]; rfl

theorem counted_gang {s : State} {mk : Nat} {x : Seat} (hx : x ∈ s.seats mk) :
    (s.counted mk).gang? x.key = some (x.g.count x.m0) := by
  rw [counted_upds]
  have := upds_gang s ((s.seats mk).map fun x => (x.key, fun g => g.count x.m0))
    (by rw [keys_map]; exact seats_nodup s _) (x.key, fun g => g.count x.m0) (List.mem_map.2 ⟨x, hx, rfl⟩)
  rw [(seat_facts hx).1] at this
  exact this

theorem counted_other {s : State} {mk k : Nat} (hk : ∀ x ∈ s.seats mk, x.key ≠ k) :
    (s.counted mk).gang? k = s.gang? k := by
  rw [counted_upds, upds_gang_other]
  intro e he
  obtain ⟨x, hx, rfl⟩ := List.mem_map.1 he
  exact hk x hx

theorem foldl_finish' (s w : State) (hc : w.cur = s.cur) (xs : List Seat) (e : Seat → Eff) (hst : ∀ x, (e x).stay = false)
    (t : State) (ht : t = { w with gangs := t.gangs }) :
    (xs.map fun x => (x, e x)).foldl (fun t xe => t.finishSeat xe.1 xe.2) t =
      upds t (xs.map fun x => (x.key, ended w.tick s.curWords (w.core (coreOf x.key)).high x (e x))) := by
  induction xs generalizing t with
  | nil => rfl
  | cons x xs ih =>
    have h1 : t.tick = w.tick := by rw [ht]
    have h2 : t.curWords = s.curWords := by rw [ht]; unfold State.curWords; rw [← hc]
    have h3 : ∀ c, t.core c = w.core c := fun c => by rw [ht]; rfl
    have hx : t.finishSeat x (e x) = t.updGang x.key (ended w.tick s.curWords (w.core (coreOf x.key)).high x (e x)) := by
      unfold State.finishSeat ended
      simp only [hst x, Bool.false_eq_true, if_false, h1, h2, h3]
    rw [List.map_cons, List.foldl_cons, hx, List.map_cons]
    show _ = upds (t.updGang x.key _) _
    rw [ih]
    rw [updGang_rest, ht]

/-- The issue of a word whose members all act: its effects in member order, then its results, windows and flow. -/
theorem issue_moved {i : Instr} {s : State} {body : Seat → State → SeatRes} (eff : Seat → State → State)
    (os : Seat → List (Mask × Out)) (goto : Seat → List (Nat × Word64)) (J : State → Prop) (hi : issues i s = true)
    (h0 : J (s.counted i.maskField))
    (hb : ∀ x ∈ s.seats i.maskField, ∀ u, J u → u.gang? x.key = some (x.g.count x.m0) →
      body x u = .ok (eff x u) { outs := os x, goto := goto x } ∧ J (eff x u) ∧
      (∀ k, k ≠ x.key → (eff x u).gang? k = u.gang? k) ∧ (eff x u).cur = u.cur ∧
      ∃ a, (eff x u).gang? x.key = some a) :
    Moved s ((s.seats i.maskField).foldl (fun u x => eff x u) (s.counted i.maskField)) (issue i body s) i.maskField
      s.curWords os goto (endsIdem i) := by
  simp only [issues, Bool.and_eq_true, Bool.not_eq_true', List.all_eq_true] at hi
  obtain ⟨⟨hne, hop⟩, hall⟩ := hi
  set xs := s.seats i.maskField with hxs
  set e : Seat → Eff := fun x => { outs := os x, goto := goto x } with he
  -- the members' run
  have hcur0 : (s.counted i.maskField).cur = s.cur := by rw [counted_rest]
  obtain ⟨hrun, hju⟩ := runSeats_ok (body := body) eff e (fun u => J u ∧ u.cur = s.cur) (fun x => x.g.count x.m0) xs
    (seats_nodup s _) ⟨s.counted i.maskField, [], [], []⟩ ⟨h0, hcur0⟩ (fun x hx => counted_gang hx)
    (fun x hx u hu hg => by
      obtain ⟨b1, b2, b3, b4, -⟩ := hb x hx u hu.1 hg
      exact ⟨b1, ⟨b2, b4.trans hu.2⟩, b3⟩)
  -- what each member is after the effects
  have hmem : ∀ (ys : List Seat) (u : State), (ys.map (·.key)).Nodup → (∀ y ∈ ys, y ∈ xs) → J u →
      (∀ y ∈ ys, u.gang? y.key = some (y.g.count y.m0)) →
      (∀ y ∈ ys, ∃ a, (ys.foldl (fun u x => eff x u) u).gang? y.key = some a) ∧
        ∀ k, (∀ y ∈ ys, y.key ≠ k) → (ys.foldl (fun u x => eff x u) u).gang? k = u.gang? k := by
    intro ys
    induction ys with
    | nil => intro u _ _ _ _; exact ⟨fun y hy => absurd hy (List.not_mem_nil), fun _ _ => rfl⟩
    | cons y ys ih =>
      intro u hn hys hju hg
      rw [List.map_cons, List.nodup_cons] at hn
      obtain ⟨-, b2, b3, -, a, ha⟩ := hb y (hys y List.mem_cons_self) u hju (hg y List.mem_cons_self)
      have hny : ∀ z ∈ ys, z.key ≠ y.key := fun z hz h => hn.1 (h ▸ List.mem_map_of_mem hz)
      obtain ⟨i1, i2⟩ := ih (eff y u) hn.2 (fun z hz => hys z (List.mem_cons_of_mem _ hz)) b2
        (fun z hz => by rw [b3 _ (hny z hz), hg z (List.mem_cons_of_mem _ hz)])
      refine ⟨fun z hz => ?_, fun k hk => ?_⟩
      · rcases List.mem_cons.1 hz with h | h
        · subst h
          exact ⟨a, by rw [List.foldl_cons, i2 _ hny, ha]⟩
        · exact i1 z h
      · rw [List.foldl_cons, i2 k (fun z hz => hk z (List.mem_cons_of_mem _ hz)), b3 k (hk y List.mem_cons_self).symm]
  obtain ⟨hma, hmo⟩ := hmem xs (s.counted i.maskField) (seats_nodup s _) (fun _ h => h) h0 (fun x hx => counted_gang hx)
  set w := xs.foldl (fun u x => eff x u) (s.counted i.maskField) with hw
  have hcur : w.cur = s.cur := hju.2
  unfold issue
  rw [← hxs]
  cases hs : xs with
  | nil => simp [hs] at hne
  | cons x0 xs' =>
    simp only [hs, List.head?_cons, Option.elim_some, Option.isNone_iff_eq_none] at hop
    have hstall : (xs.any fun x => x.stalls i) = false := by
      rw [List.any_eq_false]
      intro x hx
      have := hall x hx
      rw [Seat.stalls, this.1.1, this.1.2, this.2]; simp
    dsimp only
    rw [hop]
    dsimp only
    rw [← hs, if_neg (by rw [hstall]; simp)]
    show Moved s w _ _ _ _ _ _
    have hfold : xs.foldl (fun s x => s.updGang x.key (fun g => g.count x.m0)) s = s.counted i.maskField := rfl
    rw [hfold, hrun]
    dsimp only
    rw [List.nil_append, foldl_finish' s w hcur xs e (fun _ => rfl) w rfl]
    have hstay : (xs.map fun x => (x, e x)).all (fun xe => xe.2.stay) = false := by rw [hs]; simp [he]
    rw [hstay]
    simp only [Bool.false_eq_true, if_false]
    set G : Seat → Gang → Gang := fun x => ended w.tick s.curWords (w.core (coreOf x.key)).high x (e x) with hG
    set s2 := upds w (xs.map fun x => (x.key, G x)) with hs2
    have r2 : s2 = { w with gangs := s2.gangs } := upds_rest _ _
    -- the end of an idempotent region
    have hidem : ∃ s2', s2' = (if endsIdem i = true then xs.foldl (fun t x => t.endIdem x.key) s2 else s2) ∧
        s2' = { w with gangs := s2'.gangs } ∧
        (∀ x ∈ xs, s2'.gang? x.key = (s2.gang? x.key).map fun a =>
          { a with idem := if endsIdem i then none else a.idem }) ∧
        ∀ k, (∀ x ∈ xs, x.key ≠ k) → s2'.gang? k = s2.gang? k := by
      refine ⟨_, rfl, ?_⟩
      cases hidem : endsIdem i with
      | false =>
        simp only [Bool.false_eq_true, if_false]
        refine ⟨r2, fun x _ => ?_, fun _ _ => trivial⟩
        cases s2.gang? x.key <;> rfl
      | true =>
        simp only [if_true]
        have hf : xs.foldl (fun t x => t.endIdem x.key) s2 =
            upds s2 (xs.map fun x => (x.key, fun g => { g with idem := none })) := by
          unfold upds; rw [List.foldl_map]; rfl
        rw [hf]
        refine ⟨rest_trans r2 (upds_rest _ _), ?_, ?_⟩
        · intro x hx
          exact upds_gang s2 (xs.map fun x => (x.key, fun g : Gang => { g with idem := none }))
            (by rw [keys_map]; exact seats_nodup s _) (x.key, fun g : Gang => { g with idem := none })
            (List.mem_map.2 ⟨x, hx, rfl⟩)
        · intro k hk
          apply upds_gang_other
          intro e he
          obtain ⟨x, hx, rfl⟩ := List.mem_map.1 he
          exact hk x hx
    obtain ⟨s2', hs2', r2', hm2, ho2⟩ := hidem
    rw [← hs2']
    set s3 := s2'.updGang s.cur.key (fun g => g.forget s.cur.part) with hs3
    have r3 : s3 = { w with gangs := s3.gangs } := rest_trans r2' (updGang_rest _ _ _)
    have forget_gang : ∀ k g, s2'.gang? k = some g →
        ∃ g', s3.gang? k = some g' ∧ g' = { g with fetched := g'.fetched, waits := g'.waits } := by
      intro k g hg
      rw [hs3, gang_updGang]
      split
      · exact ⟨g.forget s.cur.part, by rw [hg]; rfl, rfl⟩
      · exact ⟨g, hg, rfl⟩
    constructor
    · exact rest_trans r3 (resplit_rest _ _ _)
    · intro x hx
      obtain ⟨a, ha⟩ := hma x hx
      have g2 : s2.gang? x.key = some (G x a) := by
        have := upds_gang w (xs.map fun x => (x.key, G x))
          (by rw [keys_map]; exact seats_nodup s _) (x.key, G x) (List.mem_map.2 ⟨x, hx, rfl⟩)
        rw [ha] at this
        exact this
      have g2' := hm2 x hx
      have hgone : a.Gone (G x a) x.m0 s.curWords (os x) (goto x) false :=
        ended_gone a w.tick s.curWords (w.core (coreOf x.key)).high x (os x) (goto x)
      rw [g2] at g2'
      generalize G x a = b at g2' hgone
      obtain ⟨g3, h3, e3⟩ := forget_gang _ _ g2'
      obtain ⟨g4, h4, e4, p4⟩ := resplit_gang s.cur.key (some s.cur.part) h3
      refine ⟨a, g4, ha, h4, gone_regroup hgone ?_ fun l => ?_⟩
      · rw [e4, e3]
      · rw [p4 l, e3]; rfl
    · intro k g hg hk
      have g2 : s2'.gang? k = some g := by
        rw [ho2 k hk, hs2, upds_gang_other, hg]
        intro e he
        obtain ⟨x, hx, rfl⟩ := List.mem_map.1 he
        exact hk x hx
      obtain ⟨g3, h3, e3⟩ := forget_gang _ _ g2
      obtain ⟨g4, h4, e4, p4⟩ := resplit_gang s.cur.key (some s.cur.part) h3
      refine ⟨g4, h4, ⟨fun l => ?_, ?_⟩⟩
      · rw [p4 l, e3]; rfl
      · rw [e4, e3]

/-! ## Completion -/

theorem gone_congr {a g' : Gang} {m0 : Mask} {n : Nat} {os os' : List (Mask × Out)} {goto : List (Nat × Word64)}
    {ends : Bool} (h : a.Gone g' m0 n os goto ends)
    (hr : ∀ r l, l < 32 → resultLane os r l = resultLane os' r l)
    (hm : ∀ k l, l < 32 → resultMask os k l = resultMask os' k l)
    (ho : ∀ r, (∀ mo ∈ os', ∀ v, mo.2 ≠ .reg r v) → ∀ mo ∈ os, ∀ v, mo.2 ≠ .reg r v) : a.Gone g' m0 n os' goto ends := by
  refine ⟨fun r l hl => ?_, fun k l hl => ?_, fun r hn => h.others r fun mo hmo => ?_, h.pend, h.pcs, h.rest⟩
  · rw [h.regs r l hl, resultLane_append, resultLane_append, hr r l (inMask_lt hl)]
  · rw [h.masks k l hl, resultMask_append, resultMask_append, hm k l hl]
  · rcases List.mem_append.1 hmo with hmo | hmo
    · exact ho r (fun mo' h' => hn mo' (List.mem_append_left _ h')) mo hmo
    · exact hn mo (List.mem_append_right _ hmo)

/-- Results that agree lane by lane are as good. -/
theorem moved_congr {s u t : State} {mk n : Nat} {os os' : Seat → List (Mask × Out)} {goto : Seat → List (Nat × Word64)}
    {ends : Bool} (h : Moved s u t mk n os goto ends)
    (hr : ∀ x ∈ s.seats mk, (∀ r l, l < 32 → resultLane (os x) r l = resultLane (os' x) r l) ∧
      (∀ k l, l < 32 → resultMask (os x) k l = resultMask (os' x) k l) ∧
      ∀ r, (∀ mo ∈ os' x, ∀ v, mo.2 ≠ .reg r v) → ∀ mo ∈ os x, ∀ v, mo.2 ≠ .reg r v) : Moved s u t mk n os' goto ends :=
  ⟨h.rest, fun x hx => by
    obtain ⟨a, g', ha, hg, hgo⟩ := h.members x hx
    obtain ⟨h1, h2, h3⟩ := hr x hx
    exact ⟨a, g', ha, hg, gone_congr hgo h1 h2 h3⟩, h.aside⟩

/-- A word whose members answer with results and change nothing. -/
theorem issue_results {i : Instr} {s : State} {body : Seat → State → SeatRes} (os : Seat → List (Mask × Out))
    (goto : Seat → List (Nat × Word64)) (hi : issues i s = true)
    (hb : ∀ x ∈ s.seats i.maskField, ∀ u, u = { s with gangs := u.gangs } → u.gang? x.key = some (x.g.count x.m0) →
      body x u = .ok u { outs := os x, goto := goto x }) :
    Moved s (s.counted i.maskField) (issue i body s) i.maskField s.curWords os goto (endsIdem i) := by
  have h := issue_moved (i := i) (s := s) (body := body) (fun _ u => u) os goto (fun u => u = { s with gangs := u.gangs })
    hi (counted_rest s _) (fun x hx u hu hg =>
      ⟨hb x hx u hu hg, hu, fun _ _ => rfl, rfl, _, hg⟩)
  have hf : ∀ (xs : List Seat) (u : State), xs.foldl (fun u _ => u) u = u := by
    intro xs; induction xs with
    | nil => intro u; rfl
    | cons x xs ih => intro u; exact ih u
  rwa [hf] at h

/-- Results of one member that agree in its active lanes. -/
def Agree (act : Mask) (os os' : List Out) : Prop :=
  (∀ r l, inMask act l = true → resultLane ((os.map fun o => (act, o))) r l = resultLane (os'.map fun o => (act, o)) r l) ∧
    (∀ k l, inMask act l = true → resultMask (os.map fun o => (act, o)) k l = resultMask (os'.map fun o => (act, o)) k l) ∧
    ∀ r, (∀ o ∈ os', ∀ v, o ≠ .reg r v) → ∀ o ∈ os, ∀ v, o ≠ .reg r v

theorem resultLane_inactive {act : Mask} (os : List Out) (r : Nat) {l : Nat} (h : inMask act l = false) :
    resultLane (os.map fun o => (act, o)) r l = none := by
  unfold resultLane
  rw [List.findSome?_eq_none_iff]
  intro mo hmo
  obtain ⟨o, -, rfl⟩ := List.mem_map.1 (List.mem_reverse.1 hmo)
  cases o <;> simp [h]

theorem resultMask_inactive {act : Mask} (os : List Out) (k : Nat) {l : Nat} (h : inMask act l = false) :
    resultMask (os.map fun o => (act, o)) k l = none := by
  unfold resultMask
  rw [List.findSome?_eq_none_iff]
  intro mo hmo
  obtain ⟨o, -, rfl⟩ := List.mem_map.1 (List.mem_reverse.1 hmo)
  cases o <;> simp [h]

/-- A word whose meaning is a pure word computes what agrees with it in the active lanes. -/
theorem computes_of {i : Instr} {os : State → Seat → List Out} (f : Seat → State → List Out)
    (he : ∀ s, exec i s = pureWord i f s)
    (hf : ∀ s, ∀ x ∈ s.seats i.maskField, ∀ u, u = { s with gangs := u.gangs } → f x u = f x s)
    (hr : ∀ s, ∀ x ∈ s.seats i.maskField, Agree x.act (f x s) (os s x)) : Computes i os := by
  intro s hi
  refine ⟨_, he s, moved_congr (issue_results (fun x => x.give (f x s)) _ hi
    (fun x hx u hu _ => by rw [hf s x hx u hu])) fun x hx => ?_⟩
  obtain ⟨h1, h2, h3⟩ := hr s x hx
  refine ⟨fun r l _ => ?_, fun k l _ => ?_, fun r hn mo hmo v => ?_⟩
  · cases ha : inMask x.act l with
    | true => exact h1 r l ha
    | false => exact (resultLane_inactive _ r ha).trans (resultLane_inactive _ r ha).symm
  · cases ha : inMask x.act l with
    | true => exact h2 k l ha
    | false => exact (resultMask_inactive _ k ha).trans (resultMask_inactive _ k ha).symm
  · obtain ⟨o, ho, rfl⟩ := List.mem_map.1 hmo
    exact h3 r (fun o' ho' w => hn (x.act, o') (List.mem_map.2 ⟨o', ho', rfl⟩) w) o ho v

theorem agree_refl (act : Mask) (os : List Out) : Agree act os os := ⟨fun _ _ _ => rfl, fun _ _ _ => rfl, fun _ h => h⟩

/-- A word whose meaning is a pure word of fixed results computes them. -/
theorem computes_pure {i : Instr} (f : Seat → List Out) (he : ∀ s, exec i s = pureWord i (fun x _ => f x) s) :
    Computes i fun _ => f :=
  computes_of (fun x _ => f x) he (fun _ _ _ _ _ => rfl) (fun _ x _ => agree_refl x.act _)

/-- Members that act, one after another. -/
theorem acts_of {i : Instr} {body : Seat → State → SeatRes} {ok : State → Seat → Bool} (eff : Seat → State → State)
    (J : State → State → Prop) (he : ∀ s, exec i s = .next (issue i body s))
    (h0 : ∀ s, J s (s.counted i.maskField))
    (hb : ∀ s, ∀ x ∈ s.seats i.maskField, ok s x = true → ∀ u, J s u →
      u.gang? x.key = some (x.g.count x.m0) →
      body x u = .ok (eff x u) {} ∧ J s (eff x u) ∧
      (∀ k, k ≠ x.key → (eff x u).gang? k = u.gang? k) ∧ (eff x u).cur = u.cur ∧
      ∃ a, (eff x u).gang? x.key = some a) : Acts i ok eff := by
  intro s hi hok
  exact ⟨_, he s, issue_moved eff (fun _ => []) (fun _ => []) (J s) hi (h0 s)
    (fun x hx u hu hg => hb s x hx (hok x hx) u hu hg)⟩

/-! ## Members that change only themselves -/

/-- A change of one gang and the next unused identity. -/
theorem upd_next_gang (u : State) (k j : Nat) (f : Gang → Gang) (n : Nat) :
    ({ u.updGang k f with nextId := n } : State).gang? j = if k = j then (u.gang? j).map f else u.gang? j :=
  gang_updGang u k j f

/-- Members that each change themselves by what the state's fixed parts, the next identity and they themselves give. -/
theorem acts_self {i : Instr} {body : Seat → State → SeatRes} {ok : State → Seat → Bool} (F : Seat → State → Gang → Gang)
    (d : Nat) (he : ∀ s, exec i s = .next (issue i body s))
    (hb : ∀ s, ∀ x ∈ s.seats i.maskField, ok s x = true → ∀ u, u = { s with gangs := u.gangs, nextId := u.nextId } →
      u.gang? x.key = some (x.g.count x.m0) →
      body x u = .ok { u.updGang x.key (F x u) with nextId := u.nextId + d } {}) :
    Acts i ok (fun x u => { u.updGang x.key (F x u) with nextId := u.nextId + d }) := by
  refine acts_of _ (fun s u => u = { s with gangs := u.gangs, nextId := u.nextId }) he ?_ ?_
  · intro s
    have h := counted_rest s i.maskField
    generalize s.counted i.maskField = u at h
    have hn : u.nextId = s.nextId := by rw [h]
    rw [hn]; exact h
  · intro s x hx hok u hu hg
    refine ⟨hb s x hx hok u hu hg, ?_, fun k hk => ?_, ?_, F x u (x.g.count x.m0), ?_⟩
    · have h := updGang_rest u x.key (F x u)
      generalize u.updGang x.key (F x u) = v at h
      have hv := h.trans (congrArg (fun w : State => { w with gangs := v.gangs }) hu)
      exact congrArg (fun w : State => { w with nextId := u.nextId + d }) hv
    · rw [upd_next_gang, if_neg (fun h => hk h.symm)]
    · have h := updGang_rest u x.key (F x u)
      show (u.updGang x.key (F x u)).cur = u.cur
      rw [h]
    · rw [upd_next_gang, if_pos rfl, hg]; rfl

/-- A long-latency word opens a window for each member. -/
theorem acts_long {i : Instr} {ok : State → Seat → Bool} {body : Seat → State → SeatRes} (look : Nat) (regs masks : List Nat) (outs : Seat → List Out)
    (compute : Bool) (tok : Nat) (he : ∀ s, exec i s = .next (issue i body s))
    (hb : ∀ s, ∀ x ∈ s.seats i.maskField, ok s x = true → ∀ u, u = { s with gangs := u.gangs, nextId := u.nextId } →
      u.gang? x.key = some (x.g.count x.m0) →
      body x u = .ok (u.addPend x look regs masks x.act (outs x) false compute tok).2 {}) :
    Acts i ok (fun x u => (u.addPend x look regs masks x.act (outs x) false compute tok).2) :=
  acts_self (fun x u g => (({ g with pend := g.pend ++ [⟨u.nextId, regs, masks, x.act,
      (List.range 8).map fun sl => if (x.m0 &&& sliceMask sl) == 0#32 then 0 else look, false, outs x, tok, compute,
      false⟩] } : Gang).tokAdd tok)) 1 he hb

end Sys2Proof.Laws
end

