-- ==== Sys2Proof/Laws/Alu.lean ====
section
/-! SUPPORT. Typed integers, shapes and the affine results of R38. -/

namespace Sys2Proof.Laws

open Sys2Proof Sys2Proof.Machine

theorem toSigned_toNat {w : Nat} (x : BitVec w) : toSigned w x.toNat = x.toInt := by
  unfold toSigned
  rw [BitVec.toInt_eq_toNat_cond, Nat.mod_eq_of_lt x.isLt]
  have hx := x.isLt
  rcases w with _ | w
  · have : x.toNat = 0 := by omega
    simp [this]
  · simp only [Nat.add_sub_cancel]
    have h2 : 2 ^ (w + 1) = 2 * 2 ^ w := by rw [Nat.pow_succ]; omega
    have e : ((x.toNat : Int) % 2 ^ (w + 1)) = x.toNat := by
      rw [Int.emod_eq_of_lt (by omega)]; exact_mod_cast hx
    rw [e]
    split <;> split <;> first | rfl | omega

theorem wrTy32 {t : IntTy} (ht : isInt32 t = true) (x : Int) : wrTy t x = (intImg (BitVec.ofInt 32 x), zeroImg) := by
  have : t = .s32 ∨ t = .z32 := by simpa [isInt32] using ht
  rcases this with rfl | rfl
  · simp only [wrTy, tyWide, tySigned, wr32]
    simp only [IntTy.width, show (32 == 64) = false from rfl, Bool.false_eq_true, if_false, if_true]
    congr 2
    apply BitVec.eq_of_toInt_eq
    have hm : (x % 2 ^ 32).toNat = (BitVec.ofInt 32 x).toNat := by simp [BitVec.toNat_ofInt]
    rw [hm, toSigned_toNat, BitVec.ofInt_toInt]
  · simp only [wrTy, tyWide, tySigned, wr32]
    simp only [IntTy.width, show (32 == 64) = false from rfl, Bool.false_eq_true, if_false]
    congr 2
    apply BitVec.eq_of_toNat_eq
    simp only [BitVec.toNat_ofInt]
    omega

theorem intVal32 {t : IntTy} (ht : isInt32 t = true) (p : Pair) : BitVec.ofInt 32 (intVal t p) = p.1.val := by
  have : t = .s32 ∨ t = .z32 := by simpa [isInt32] using ht
  have hr : rawVal 32 p = p.1.val.toNat := by
    have := p.1.val.isLt
    simp only [rawVal, show ¬ (32 = 64) from by omega, if_false]; omega
  rcases this with rfl | rfl
  · show BitVec.ofInt 32 (toSigned 32 (rawVal 32 p)) = _
    rw [hr, toSigned_toNat, BitVec.ofInt_toInt]
  · show BitVec.ofInt 32 ((rawVal 32 p : Nat) : Int) = _
    rw [hr]; simp

theorem shape_affine {x : Seat} {n : VNum} {p : Perm} {b s : Val32} (h : x.shape n p = .affine b s) :
    x.src 1 n p = .gen (lanes32.map fun l => (intImg (b + BitVec.ofNat 32 l * s), zeroImg)) := by
  cases p with
  | none =>
    have h : x.g.reg n.toNat = .affine b s := h
    simp only [Seat.src, permuted, Gang.rd, h, VReg.lanes, Lanes.ofFn]
    simp [Lanes.map]
    exact fun _ _ => rfl
  | bc k => simp [Seat.shape, permuted, VReg.ofLanes] at h
  | bfly k => simp [Seat.shape, permuted, VReg.ofLanes, Lanes.ofFn] at h
  | rot k => simp [Seat.shape, permuted, VReg.ofLanes, Lanes.ofFn] at h
  | rev => simp [Seat.shape, permuted, VReg.ofLanes, Lanes.ofFn] at h

theorem shape_uniform {x : Seat} {n : VNum} {p : Perm} {y : Img} (h : x.shape n p = .uniform y) :
    x.src 1 n p = .uni (y, zeroImg) := by
  cases p with
  | none =>
    have h : x.g.reg n.toNat = .uniform y := h
    simp [Seat.src, permuted, Gang.rd, h, VReg.lanes, Lanes.map]
  | bc k =>
    simp only [Seat.shape, permuted, VReg.ofLanes, VReg.uniform.injEq] at h
    simp only [Seat.src, permuted, Gang.rd, zeroOf]
    subst h
    split
    · congr 1
      cases (x.g.reg n.toNat).lanes with
      | uni z => rfl
      | gen zs =>
        simp only [show ¬ (1 = 2) from by omega, if_false, Lanes.map, Lanes.at, List.getD_eq_getElem?_getD, List.getElem?_map]
        cases zs[k.toNat]? <;> rfl
    · rfl
  | bfly k => simp [Seat.shape, permuted, VReg.ofLanes, Lanes.ofFn] at h
  | rot k => simp [Seat.shape, permuted, VReg.ofLanes, Lanes.ofFn] at h
  | rev => simp [Seat.shape, permuted, VReg.ofLanes, Lanes.ofFn] at h

/-- Results with an affine register agree with the lane-wise ones. -/
theorem orAffine_agree {d : VNum} {v : Option VReg} {f : Lanes Pair} {act : Mask} (hv : ∀ r, v = some r → ∀ l, l < 32 →
    r.lane l = (VReg.ofLanes (f.map (·.1))).lane l) : Agree act (orAffine d v (outReg 1 d.toNat f)) (outReg 1 d.toNat f) := by
  cases v with
  | none => exact agree_refl _ _
  | some r0 =>
    refine ⟨fun r l hl => ?_, fun _ _ _ => rfl, fun r h => ?_⟩
    · simp only [orAffine, outReg, resultLane, show ¬ (1 = 2) from by omega, if_false]
      simp [hv r0 rfl l (inMask_lt hl)]
    · intro o ho w hw
      simp only [orAffine, List.mem_singleton] at ho
      subst ho
      simp only [Out.reg.injEq] at hw
      exact h (.reg d.toNat (VReg.ofLanes (f.map (·.1)))) (by simp [outReg]) (VReg.ofLanes (f.map (·.1))) (by simp [hw.1])

theorem lane_gen (f : Nat → Pair) {l : Nat} (h : l < 32) : (VReg.ofLanes ((Lanes.gen (lanes32.map f)).map (·.1))).lane l = (f l).1 := by
  simp [Lanes.map, VReg.ofLanes, VReg.lane, lanes32, h]

theorem map2_lanes (f : Pair → Pair → Pair) (a b : Nat → Pair) :
    Lanes.map2 f (.gen (lanes32.map a)) (.gen (lanes32.map b)) = .gen (lanes32.map fun l => f (a l) (b l)) := by
  simp [Lanes.map2, List.zipWith_map]

/-- The affine sum or difference has the lanes of the lane-wise one. -/
theorem affSum_lane {x : Seat} {t : IntTy} (ht : isInt32 t = true) {sub : Bool} {a b : VNum} {p : Perm} {r : VReg}
    (h : affSum sub (x.shape a p) (x.shape b .none) = some r) {l : Nat} (hl : l < 32) :
    r.lane l = (VReg.ofLanes ((Lanes.map2 (addLane t .wrap sub) (x.src 1 a p) (x.src 1 b .none)).map (·.1))).lane l := by
  have hadd : ∀ u v : Pair, (addLane t .wrap sub u v).1 = intImg (if sub then u.1.val - v.1.val else u.1.val + v.1.val) := by
    intro u v
    simp only [addLane, wrTy32 ht]
    congr 1
    cases sub
    · simp [BitVec.ofInt_add, intVal32 ht]
    · simp [sub_eq_add_neg, BitVec.ofInt_add, BitVec.ofInt_neg, intVal32 ht]
  cases ha : x.shape a p with
  | uniform y =>
    cases hb : x.shape b .none with
    | affine c s =>
      rw [ha, hb] at h
      simp only [affSum, Option.some.injEq] at h
      subst h
      rw [shape_uniform ha, shape_affine hb]
      simp only [Lanes.map2, List.map_map]
      rw [lane_gen _ hl]
      simp only [Function.comp, hadd, VReg.lane, intImg]
      cases sub
      · simp; ring
      · simp; ring
    | uniform z => rw [ha, hb] at h; simp [affSum] at h
    | general z => rw [ha, hb] at h; simp [affSum] at h
  | affine c s =>
    cases hb : x.shape b .none with
    | affine c' s' =>
      rw [ha, hb] at h
      simp only [affSum, Option.some.injEq] at h
      subst h
      rw [shape_affine ha, shape_affine hb, map2_lanes, lane_gen _ hl]
      simp only [hadd, VReg.lane, intImg]
      cases sub
      · simp; ring
      · simp; ring
    | uniform z =>
      rw [ha, hb] at h
      simp only [affSum, Option.some.injEq] at h
      subst h
      rw [shape_affine ha, shape_uniform hb]
      simp only [Lanes.map2, List.map_map]
      rw [lane_gen _ hl]
      simp only [Function.comp, hadd, VReg.lane, intImg]
      cases sub
      · simp; ring
      · simp; ring
    | general z => rw [ha, hb] at h; simp [affSum] at h
  | general z => rw [ha] at h; cases hb : x.shape b .none <;> rw [hb] at h <;> simp [affSum] at h

/-- The affine product has the lanes of the lane-wise one. -/
theorem affMul_lane {x : Seat} {t : IntTy} (ht : isInt32 t = true) {a b : VNum} {p : Perm} {r : VReg}
    (h : affMul (x.shape a p) (x.shape b .none) = some r) {l : Nat} (hl : l < 32) :
    r.lane l = (VReg.ofLanes ((Lanes.map2 (mulLane t) (x.src 1 a p) (x.src 1 b .none)).map (·.1))).lane l := by
  have hmul : ∀ u v : Pair, (mulLane t u v).1 = intImg (u.1.val * v.1.val) := by
    intro u v
    simp only [mulLane, wrTy32 ht]
    simp [BitVec.ofInt_mul, intVal32 ht]
  cases ha : x.shape a p with
  | uniform y =>
    cases hb : x.shape b .none with
    | affine c s =>
      rw [ha, hb] at h
      simp only [affMul, Option.some.injEq] at h
      subst h
      rw [shape_uniform ha, shape_affine hb]
      simp only [Lanes.map2, List.map_map]
      rw [lane_gen _ hl]
      simp only [Function.comp, hmul, VReg.lane, intImg]
      congr 1; ring
    | uniform z => rw [ha, hb] at h; simp [affMul] at h
    | general z => rw [ha, hb] at h; simp [affMul] at h
  | affine c s =>
    cases hb : x.shape b .none with
    | uniform z =>
      rw [ha, hb] at h
      simp only [affMul, Option.some.injEq] at h
      subst h
      rw [shape_affine ha, shape_uniform hb]
      simp only [Lanes.map2, List.map_map]
      rw [lane_gen _ hl]
      simp only [Function.comp, hmul, VReg.lane, intImg]
      congr 1; ring
    | affine c' s' => rw [ha, hb] at h; simp [affMul] at h
    | general z => rw [ha, hb] at h; simp [affMul] at h
  | general z => rw [ha] at h; cases hb : x.shape b .none <;> rw [hb] at h <;> simp [affMul] at h

/-- A 32-bit word shifted left by a count of any size. -/
theorem shl_img {t : IntTy} (ht : tyLen t = 1) (hw : t.width = 32) (u : Pair) (c : Nat) :
    (shiftLane .shl t u c).1 = intImg (if c < 32 then u.1.val <<< c else 0#32) := by
  have hty : tyWide t = false := by simp [tyWide, hw]
  simp only [shiftLane, wrTy, hty, hw, Bool.false_eq_true, if_false, wr32]
  have hr : rawVal 32 u = u.1.val.toNat := by
    have := u.1.val.isLt
    simp only [rawVal, show ¬ (32 = 64) from by omega, if_false]; omega
  rw [hr]
  congr 1
  apply BitVec.eq_of_toNat_eq
  by_cases hc : c < 32
  · simp only [hc, if_true, BitVec.toNat_ofInt, BitVec.toNat_shiftLeft, Nat.shiftLeft_eq]
    generalize u.1.val.toNat * 2 ^ c = m
    cases tySigned t
    · simp only [Bool.false_eq_true, if_false]; norm_cast; omega
    · have hk : (m : Int) % 2 ^ 32 = ((m % 4294967296 : Nat) : Int) := by norm_num
      have hk2 : m % 4294967296 < 4294967296 := Nat.mod_lt _ (by omega)
      simp only [if_true, toSigned, hk, Int.toNat_natCast]
      generalize m % 4294967296 = k at hk2
      norm_num
      split <;> omega
  · simp only [hc, if_false, BitVec.toNat_ofInt]
    cases tySigned t <;> simp [toSigned]

end Sys2Proof.Laws
end

