-- ==== Sys2Proof/Laws/Decode.lean ====
section
/-! SUPPORT. What the encoder's pieces decode to: each enumerated code, each format's fields, each permutation,
immediate and memory operand. -/

set_option linter.unusedSimpArgs false

namespace Sys2Proof

theorem cat_hi {w n m s k : Nat} (x : BitVec n) (y : BitVec m) (h : m ≤ s) (h2 : s + k ≤ w) :
    (cat w x y).extractLsb' s k = x.extractLsb' (s - m) k := by
  apply BitVec.eq_of_getLsbD_eq
  intro i hi
  simp [cat, BitVec.getLsbD_append, hi, show ¬ s + i < m by omega, show s + i < w by omega]
  congr 1
  omega

theorem cat_lo {w n m s k : Nat} (x : BitVec n) (y : BitVec m) (h : s + k ≤ m) (h2 : s + k ≤ w) :
    (cat w x y).extractLsb' s k = y.extractLsb' s k := by
  apply BitVec.eq_of_getLsbD_eq
  intro i hi
  simp [cat, BitVec.getLsbD_append, hi, show s + i < m by omega, show s + i < w by omega]

theorem worst_eq_none (cs : List Check) : worst cs = none ↔ ∀ c ∈ cs, c.1 = false := by
  induction cs with
  | nil => simp [worst]
  | cons c cs ih =>
    obtain ⟨b, d, m⟩ := c
    cases b
    · simp [worst, ih]
    · simp only [worst, List.forall_mem_cons, Bool.true_eq_false, false_and, iff_false]
      split
      · simp
      · split
        · simp
        · split <;> simp

/-- A verdict is the instruction exactly when no check fails. -/
@[simp] theorem verdict_eq_ok (cs : List Check) (i j : Instr) :
    verdict cs i = .ok j ↔ (∀ c ∈ cs, c.1 = false) ∧ i = j := by
  unfold verdict
  rw [← worst_eq_none]
  split <;> simp_all

@[simp] theorem bad_fst (c : Bool) (d pos n : Nat) : (bad c d pos n).1 = c := rfl
@[simp] theorem zeroF_fst {n : Nat} (x : BitVec n) (pos : Nat) : (zeroF x pos).1 = (x != 0#n) := rfl
@[simp] theorem zeroIf_fst (c : Bool) {n : Nat} (x : BitVec n) (pos : Nat) : (zeroIf c x pos).1 = (c && x != 0#n) := rfl
@[simp] theorem bit_eq_one (b : Bool) : (bit b == 1#1) = b := by cases b <;> rfl
@[simp] theorem permBad_bits (p : Perm) : permBad p.bits.1 = false := by cases p <;> rfl
@[simp] theorem parmBad_bits (p : Perm) : parmBad p.bits.1 p.bits.2 = false := by
  cases p with
  | none => rfl
  | bfly k => revert k; decide
  | rot n => revert n; decide
  | rev => rfl
  | bc l => rfl
@[simp] theorem ofBits_bits (p : Perm) : Perm.ofBits p.bits.1 p.bits.2 = p := by
  cases p with
  | none => rfl
  | bfly k => revert k; decide
  | rot n => revert n; decide
  | rev => rfl
  | bc l => rfl

@[simp] theorem MemRef.ofBits_bits (m : MemRef) : MemRef.ofBits m.noofsBit m.hnd m.ofsBits m.disp = m := by
  obtain ⟨h, o, d⟩ := m
  cases o <;> rfl
@[simp] theorem MemRef.bits_ok (m : MemRef) : (m.noofsBit == 1#1 && m.ofsBits != 0#8) = false := by
  obtain ⟨h, o, d⟩ := m
  cases o <;> rfl

@[simp] theorem IntTy.ofCode_code (v : IntTy) : IntTy.ofCode? v.code = some v := by cases v <;> rfl
@[simp] theorem FpCls.ofCode_code (v : FpCls) : FpCls.ofCode? v.code = some v := by cases v <;> rfl
@[simp] theorem AddMod.ofCode_code (v : AddMod) : AddMod.ofCode? v.code = some v := by cases v <;> rfl
@[simp] theorem LogiKind.ofCode_code (v : LogiKind) : LogiKind.ofCode? v.code = some v := by cases v <;> rfl
@[simp] theorem ShiKind.ofCode_code (v : ShiKind) : ShiKind.ofCode? v.code = some v := by cases v <;> rfl
@[simp] theorem Cond.ofCode_code (v : Cond) : Cond.ofCode? v.code = some v := by cases v <;> rfl
@[simp] theorem IdsQuery.ofCode_code (v : IdsQuery) : IdsQuery.ofCode? v.code = some v := by cases v <;> rfl
@[simp] theorem MlogKind.ofCode_code (v : MlogKind) : MlogKind.ofCode? v.code = some v := by cases v <;> rfl
@[simp] theorem MsetKind.ofCode_code (v : MsetKind) : MsetKind.ofCode? v.code = some v := by cases v <;> rfl
@[simp] theorem BrSense.ofCode_code (v : BrSense) : BrSense.ofCode? v.code = some v := by cases v <;> rfl
@[simp] theorem BrmKind.ofCode_code (v : BrmKind) : BrmKind.ofCode? v.code = some v := by cases v <;> rfl
@[simp] theorem Hint.ofCode_code (v : Hint) : Hint.ofCode? v.code = some v := by cases v <;> rfl
@[simp] theorem Wd.ofCode_code (v : Wd) : Wd.ofCode? v.code = some v := by cases v <;> rfl
@[simp] theorem ShflMode.ofCode_code (v : ShflMode) : ShflMode.ofCode? v.code = some v := by cases v <;> rfl
@[simp] theorem BcastSel.ofCode_code (v : BcastSel) : BcastSel.ofCode? v.code = some v := by cases v <;> rfl
@[simp] theorem RedOp.ofCode_code (v : RedOp) : RedOp.ofCode? v.code = some v := by cases v <;> rfl
@[simp] theorem VoteKind.ofCode_code (v : VoteKind) : VoteKind.ofCode? v.code = some v := by cases v <;> rfl
@[simp] theorem BallotKind.ofCode_code (v : BallotKind) : BallotKind.ofCode? v.code = some v := by cases v <;> rfl
@[simp] theorem Dot4Ty.ofCode_code (v : Dot4Ty) : Dot4Ty.ofCode? v.code = some v := by cases v <;> rfl
@[simp] theorem Dot8Ty.ofCode_code (v : Dot8Ty) : Dot8Ty.ofCode? v.code = some v := by cases v <;> rfl
@[simp] theorem PackTy.ofCode_code (v : PackTy) : PackTy.ofCode? v.code = some v := by cases v <;> rfl
@[simp] theorem RebalMode.ofCode_code (v : RebalMode) : RebalMode.ofCode? v.code = some v := by cases v <;> rfl
@[simp] theorem FrexpSel.ofCode_code (v : FrexpSel) : FrexpSel.ofCode? v.code = some v := by cases v <;> rfl
@[simp] theorem FCond.ofCode_code (v : FCond) : FCond.ofCode? v.code = some v := by cases v <;> rfl
@[simp] theorem KgetSel.ofCode_code (v : KgetSel) : KgetSel.ofCode? v.code = some v := by cases v <;> rfl
@[simp] theorem StickyKind.ofCode_code (v : StickyKind) : StickyKind.ofCode? v.code = some v := by cases v <;> rfl
@[simp] theorem BsigKind.ofCode_code (v : BsigKind) : BsigKind.ofCode? v.code = some v := by cases v <;> rfl
@[simp] theorem Rnd.ofCode_code (v : Rnd) : Rnd.ofCode? v.code = some v := by cases v <;> rfl
@[simp] theorem FpackTy.ofCode_code (v : FpackTy) : FpackTy.ofCode? v.code = some v := by cases v <;> rfl
@[simp] theorem Size.ofCode_code (v : Size) : Size.ofCode? v.code = some v := by cases v <;> rfl
@[simp] theorem AtomOp.ofCode_code (v : AtomOp) : AtomOp.ofCode? v.code = some v := by cases v <;> rfl
@[simp] theorem TokMode.ofCode_code (v : TokMode) : TokMode.ofCode? v.code = some v := by cases v <;> rfl
@[simp] theorem FenceKind.ofCode_code (v : FenceKind) : FenceKind.ofCode? v.code = some v := by cases v <;> rfl
@[simp] theorem CopyDst.ofCode_code (v : CopyDst) : CopyDst.ofCode? v.code = some v := by cases v <;> rfl
@[simp] theorem Eng.ofCode_code (v : Eng) : Eng.ofCode? v.code = some v := by cases v <;> rfl
@[simp] theorem Orient.ofCode_code (v : Orient) : Orient.ofCode? v.code = some v := by cases v <;> rfl
@[simp] theorem TileCls.ofCode_code (v : TileCls) : TileCls.ofCode? v.code = some v := by cases v <;> rfl
@[simp] theorem MstatSel.ofCode_code (v : MstatSel) : MstatSel.ofCode? v.code = some v := by cases v <;> rfl
@[simp] theorem SxOp.ofCode_code (v : SxOp) : SxOp.ofCode? v.code = some v := by cases v <;> rfl
@[simp] theorem SxFmt.ofCode_code (v : SxFmt) : SxFmt.ofCode? v.code = some v := by cases v <;> rfl
@[simp] theorem Comb.ofCode_code (v : Comb) : Comb.ofCode? v.code = some v := by cases v <;> rfl
@[simp] theorem Scope.ofCode_code (v : Scope) : Scope.ofCode? v.code = some v := by cases v <;> rfl
@[simp] theorem MkForm.ofCode_code (v : MkForm) : MkForm.ofCode? v.code = some v := by cases v <;> rfl
@[simp] theorem NdField.ofCode_code (v : NdField) : NdField.ofCode? v.code = some v := by cases v <;> rfl
@[simp] theorem EdField.ofCode_code (v : EdField) : EdField.ofCode? v.code = some v := by cases v <;> rfl
@[simp] theorem FldSz.ofCode_code (v : FldSz) : FldSz.ofCode? v.code = some v := by cases v <;> rfl
@[simp] theorem FatSz.ofCode_code (v : FatSz) : FatSz.ofCode? v.code = some v := by cases v <;> rfl
@[simp] theorem Csr.ofCode_code (v : Csr) : Csr.ofCode? v.code = some v := by cases v <;> rfl
@[simp] theorem COp.ofCode_code (v : COp) : COp.ofCode? v.code = some v := by cases v <;> rfl

@[simp] theorem FormatA.of_pack (f : FormatA) : FormatA.of f.pack = f := by
  cases f
  simp [FormatA.of, FormatA.pack, cat_hi, cat_lo]
@[simp] theorem FormatA.kind_pack (f : FormatA) : f.pack.extractLsb' 62 2 = 0#2 := by
  simp [FormatA.pack, cat_hi, cat_lo]
@[simp] theorem FormatA.opc_pack (f : FormatA) : f.pack.extractLsb' 54 8 = f.opc := by
  simp [FormatA.pack, cat_hi, cat_lo]
@[simp] theorem FormatA.hi_pack (f : FormatA) : f.pack.extractLsb' 58 4 = f.opc.extractLsb' 4 4 := by
  simp [FormatA.pack, cat_hi, cat_lo]
@[simp] theorem FormatA.lo_pack (f : FormatA) : f.pack.extractLsb' 54 4 = f.opc.extractLsb' 0 4 := by
  simp [FormatA.pack, cat_hi, cat_lo]
@[simp] theorem FormatI.of_pack (f : FormatI) : FormatI.of f.pack = f := by
  cases f
  simp [FormatI.of, FormatI.pack, cat_hi, cat_lo]
@[simp] theorem FormatI.kind_pack (f : FormatI) : f.pack.extractLsb' 62 2 = 0#2 := by
  simp [FormatI.pack, cat_hi, cat_lo]
@[simp] theorem FormatI.opc_pack (f : FormatI) : f.pack.extractLsb' 54 8 = f.opc := by
  simp [FormatI.pack, cat_hi, cat_lo]
@[simp] theorem FormatI.hi_pack (f : FormatI) : f.pack.extractLsb' 58 4 = f.opc.extractLsb' 4 4 := by
  simp [FormatI.pack, cat_hi, cat_lo]
@[simp] theorem FormatI.lo_pack (f : FormatI) : f.pack.extractLsb' 54 4 = f.opc.extractLsb' 0 4 := by
  simp [FormatI.pack, cat_hi, cat_lo]
@[simp] theorem FormatM.of_pack (f : FormatM) : FormatM.of f.pack = f := by
  cases f
  simp [FormatM.of, FormatM.pack, cat_hi, cat_lo]
@[simp] theorem FormatM.kind_pack (f : FormatM) : f.pack.extractLsb' 62 2 = 0#2 := by
  simp [FormatM.pack, cat_hi, cat_lo]
@[simp] theorem FormatM.opc_pack (f : FormatM) : f.pack.extractLsb' 54 8 = f.opc := by
  simp [FormatM.pack, cat_hi, cat_lo]
@[simp] theorem FormatM.hi_pack (f : FormatM) : f.pack.extractLsb' 58 4 = f.opc.extractLsb' 4 4 := by
  simp [FormatM.pack, cat_hi, cat_lo]
@[simp] theorem FormatM.lo_pack (f : FormatM) : f.pack.extractLsb' 54 4 = f.opc.extractLsb' 0 4 := by
  simp [FormatM.pack, cat_hi, cat_lo]
@[simp] theorem FormatB.of_pack (f : FormatB) : FormatB.of f.pack = f := by
  cases f
  simp [FormatB.of, FormatB.pack, cat_hi, cat_lo]
@[simp] theorem FormatB.kind_pack (f : FormatB) : f.pack.extractLsb' 62 2 = 0#2 := by
  simp [FormatB.pack, cat_hi, cat_lo]
@[simp] theorem FormatB.opc_pack (f : FormatB) : f.pack.extractLsb' 54 8 = f.opc := by
  simp [FormatB.pack, cat_hi, cat_lo]
@[simp] theorem FormatB.hi_pack (f : FormatB) : f.pack.extractLsb' 58 4 = f.opc.extractLsb' 4 4 := by
  simp [FormatB.pack, cat_hi, cat_lo]
@[simp] theorem FormatB.lo_pack (f : FormatB) : f.pack.extractLsb' 54 4 = f.opc.extractLsb' 0 4 := by
  simp [FormatB.pack, cat_hi, cat_lo]
@[simp] theorem FormatX.of_pack (f : FormatX) : FormatX.of f.pack = f := by
  cases f
  simp [FormatX.of, FormatX.pack, cat_hi, cat_lo]
@[simp] theorem FormatX.kind_pack (f : FormatX) : f.pack.extractLsb' 62 2 = 0#2 := by
  simp [FormatX.pack, cat_hi, cat_lo]
@[simp] theorem FormatX.opc_pack (f : FormatX) : f.pack.extractLsb' 54 8 = f.opc := by
  simp [FormatX.pack, cat_hi, cat_lo]
@[simp] theorem FormatX.hi_pack (f : FormatX) : f.pack.extractLsb' 58 4 = f.opc.extractLsb' 4 4 := by
  simp [FormatX.pack, cat_hi, cat_lo]
@[simp] theorem FormatX.lo_pack (f : FormatX) : f.pack.extractLsb' 54 4 = f.opc.extractLsb' 0 4 := by
  simp [FormatX.pack, cat_hi, cat_lo]
@[simp] theorem FormatW.of_pack (f : FormatW) : FormatW.of f.pack = f := by
  cases f
  simp [FormatW.of, FormatW.pack, cat_hi, cat_lo]
@[simp] theorem FormatW.kind_pack (f : FormatW) : f.pack.extractLsb' 62 2 = 0#2 := by
  simp [FormatW.pack, cat_hi, cat_lo]
@[simp] theorem FormatW.opc_pack (f : FormatW) : f.pack.extractLsb' 54 8 = f.opc := by
  simp [FormatW.pack, cat_hi, cat_lo]
@[simp] theorem FormatW.hi_pack (f : FormatW) : f.pack.extractLsb' 58 4 = f.opc.extractLsb' 4 4 := by
  simp [FormatW.pack, cat_hi, cat_lo]
@[simp] theorem FormatW.lo_pack (f : FormatW) : f.pack.extractLsb' 54 4 = f.opc.extractLsb' 0 4 := by
  simp [FormatW.pack, cat_hi, cat_lo]
@[simp] theorem FormatS.of_pack (f : FormatS) : FormatS.of f.pack = f := by
  cases f
  simp [FormatS.of, FormatS.pack, cat_hi, cat_lo]
@[simp] theorem FormatS.kind_pack (f : FormatS) : f.pack.extractLsb' 62 2 = 0#2 := by
  simp [FormatS.pack, cat_hi, cat_lo]
@[simp] theorem FormatS.opc_pack (f : FormatS) : f.pack.extractLsb' 54 8 = f.opc := by
  simp [FormatS.pack, cat_hi, cat_lo]
@[simp] theorem FormatS.hi_pack (f : FormatS) : f.pack.extractLsb' 58 4 = f.opc.extractLsb' 4 4 := by
  simp [FormatS.pack, cat_hi, cat_lo]
@[simp] theorem FormatS.lo_pack (f : FormatS) : f.pack.extractLsb' 54 4 = f.opc.extractLsb' 0 4 := by
  simp [FormatS.pack, cat_hi, cat_lo]
@[simp] theorem FormatR.of_pack (f : FormatR) : FormatR.of f.pack = f := by
  cases f
  simp [FormatR.of, FormatR.pack, cat_hi, cat_lo]
@[simp] theorem FormatR.kind_pack (f : FormatR) : f.pack.extractLsb' 62 2 = 0#2 := by
  simp [FormatR.pack, cat_hi, cat_lo]
@[simp] theorem FormatR.opc_pack (f : FormatR) : f.pack.extractLsb' 54 8 = f.opc := by
  simp [FormatR.pack, cat_hi, cat_lo]
@[simp] theorem FormatR.hi_pack (f : FormatR) : f.pack.extractLsb' 58 4 = f.opc.extractLsb' 4 4 := by
  simp [FormatR.pack, cat_hi, cat_lo]
@[simp] theorem FormatR.lo_pack (f : FormatR) : f.pack.extractLsb' 54 4 = f.opc.extractLsb' 0 4 := by
  simp [FormatR.pack, cat_hi, cat_lo]
@[simp] theorem FormatK.of_pack (f : FormatK) : FormatK.of f.pack = f := by
  cases f
  simp [FormatK.of, FormatK.pack, cat_hi, cat_lo]
@[simp] theorem FormatK.kind_pack (f : FormatK) : f.pack.extractLsb' 62 2 = 0#2 := by
  simp [FormatK.pack, cat_hi, cat_lo]
@[simp] theorem FormatK.opc_pack (f : FormatK) : f.pack.extractLsb' 54 8 = f.opc := by
  simp [FormatK.pack, cat_hi, cat_lo]
@[simp] theorem FormatK.hi_pack (f : FormatK) : f.pack.extractLsb' 58 4 = f.opc.extractLsb' 4 4 := by
  simp [FormatK.pack, cat_hi, cat_lo]
@[simp] theorem FormatK.lo_pack (f : FormatK) : f.pack.extractLsb' 54 4 = f.opc.extractLsb' 0 4 := by
  simp [FormatK.pack, cat_hi, cat_lo]
@[simp] theorem FormatI.lit_pack (f : FormatI) : f.pack.extractLsb' 30 1 = f.lit := by
  simp [FormatI.pack, cat_hi, cat_lo]
@[simp] theorem CompactBits.of_pack (f : CompactBits) : CompactBits.of f.pack = f := by
  cases f
  simp [CompactBits.of, CompactBits.pack, cat_hi, cat_lo]

/-- A full word of an opcode without a literal decodes by its opcode. -/
theorem decodeWords_plain (w : Word64) (hk : w.extractLsb' 62 2 = 0#2) (hl : takesLiteral (w.extractLsb' 54 8) = false) :
    decodeWords [w] = decFull w 0#62 := by
  simp [decodeWords, wantsLiteral, kindOf, opcOf, hk, hl]

/-- A full word with LIT clear decodes by its opcode. -/
theorem decodeWords_short (w : Word64) (hk : w.extractLsb' 62 2 = 0#2) (hl : w.extractLsb' 30 1 = 0#1) :
    decodeWords [w] = decFull w 0#62 := by
  simp [decodeWords, wantsLiteral, kindOf, litOf, hk, hl]

/-- A full word with LIT set decodes with its literal. -/
theorem decodeWords_lit (w : Word64) (v : BitVec 62) (hk : w.extractLsb' 62 2 = 0#2)
    (ht : takesLiteral (w.extractLsb' 54 8) = true) (hl : w.extractLsb' 30 1 = 1#1) :
    decodeWords [w, litWord v] = decFull w v := by
  simp [decodeWords, wantsLiteral, kindOf, opcOf, litOf, litWord, hk, hl, ht, cat_hi, cat_lo]

end Sys2Proof
end

