-- ==== Sys2Proof/Laws/PerInstr.lean ====
section
/-! SUPPORT. The round trip of every instruction through the encoder and the decoder, one lemma per constructor. -/

set_option linter.unusedSimpArgs false
set_option linter.unusedVariables false
set_option Elab.async false

namespace Sys2Proof.Laws.RoundTrip

/-- Decoding the words of a well-formed instruction gives the instruction back; an event has no words. -/
def Statement (i : Instr) : Prop := i.wf = true → encode i ≠ [] → decodeWords (encode i) = .ok i

theorem nop  : Statement (.nop ) := by
  intro h _
  simp_all [encode, Instr.wf, decodeWords_plain, takesLiteral, voteSub, decFull, row0, dec00, cat_hi, cat_lo]
theorem mov (ty : IntTy) (d : VNum) (a : VNum) (perm : Perm) (mk : MNum) : Statement (.mov ty d a perm mk) := by
  intro h _
  simp_all [encode, Instr.wf, decodeWords_plain, takesLiteral, voteSub, decFull, row0, dec01, cat_hi, cat_lo]
theorem movi (ty : IntTy) (d : VNum) (imm : Imm) (mk : MNum) : Statement (.movi ty d imm mk) := by
  intro h _
  cases imm <;>
  simp_all [encode, Instr.wf, Imm.words, Imm.litBit, Imm.short24, Imm.ofBits, decodeWords_short, decodeWords_lit, takesLiteral, decFull, row0, dec02, cat_hi, cat_lo]
theorem add (ty : IntTy) (am : AddMod) (d : VNum) (a : VNum) (perm : Perm) (b : VNum) (mk : MNum) : Statement (.add ty am d a perm b mk) := by
  intro h _
  simp_all [encode, Instr.wf, decodeWords_plain, takesLiteral, voteSub, decFull, row0, dec03, cat_hi, cat_lo] <;> grind
theorem sub (ty : IntTy) (am : AddMod) (d : VNum) (a : VNum) (perm : Perm) (b : VNum) (mk : MNum) : Statement (.sub ty am d a perm b mk) := by
  intro h _
  simp_all [encode, Instr.wf, decodeWords_plain, takesLiteral, voteSub, decFull, row0, dec04, cat_hi, cat_lo] <;> grind
theorem addi (ty : IntTy) (am : AddMod) (d : VNum) (a : VNum) (imm : Imm) (mk : MNum) : Statement (.addi ty am d a imm mk) := by
  intro h _
  cases imm <;>
  simp_all [encode, Instr.wf, Imm.words, Imm.litBit, Imm.short24, Imm.ofBits, decodeWords_short, decodeWords_lit, takesLiteral, decFull, row0, dec05, cat_hi, cat_lo] <;> grind
theorem mul (ty : IntTy) (d : VNum) (a : VNum) (perm : Perm) (b : VNum) (mk : MNum) : Statement (.mul ty d a perm b mk) := by
  intro h _
  simp_all [encode, Instr.wf, decodeWords_plain, takesLiteral, voteSub, decFull, row0, dec06, cat_hi, cat_lo]
theorem mulh (ty : IntTy) (d : VNum) (a : VNum) (perm : Perm) (b : VNum) (mk : MNum) : Statement (.mulh ty d a perm b mk) := by
  intro h _
  simp_all [encode, Instr.wf, decodeWords_plain, takesLiteral, voteSub, decFull, row0, dec07, cat_hi, cat_lo]
theorem mad (ty : IntTy) (d : VNum) (a : VNum) (perm : Perm) (b : VNum) (c : VNum) (mk : MNum) : Statement (.mad ty d a perm b c mk) := by
  intro h _
  simp_all [encode, Instr.wf, decodeWords_plain, takesLiteral, voteSub, decFull, row0, dec08, cat_hi, cat_lo]
theorem idiv (ty : IntTy) (d : VNum) (a : VNum) (perm : Perm) (b : VNum) (flag : MNum) (look : BitVec 4) (mk : MNum) : Statement (.idiv ty d a perm b flag look mk) := by
  intro h _
  simp_all [encode, Instr.wf, decodeWords_plain, takesLiteral, voteSub, decFull, row0, dec09, cat_hi, cat_lo]
theorem irem (ty : IntTy) (d : VNum) (a : VNum) (perm : Perm) (b : VNum) (flag : MNum) (look : BitVec 4) (mk : MNum) : Statement (.irem ty d a perm b flag look mk) := by
  intro h _
  simp_all [encode, Instr.wf, decodeWords_plain, takesLiteral, voteSub, decFull, row0, dec0A, cat_hi, cat_lo]
theorem and (ty : IntTy) (d : VNum) (a : VNum) (perm : Perm) (b : VNum) (mk : MNum) : Statement (.and ty d a perm b mk) := by
  intro h _
  simp_all [encode, Instr.wf, decodeWords_plain, takesLiteral, voteSub, decFull, row0, dec0B, cat_hi, cat_lo]
theorem or (ty : IntTy) (d : VNum) (a : VNum) (perm : Perm) (b : VNum) (mk : MNum) : Statement (.or ty d a perm b mk) := by
  intro h _
  simp_all [encode, Instr.wf, decodeWords_plain, takesLiteral, voteSub, decFull, row0, dec0C, cat_hi, cat_lo]
theorem xor (ty : IntTy) (d : VNum) (a : VNum) (perm : Perm) (b : VNum) (mk : MNum) : Statement (.xor ty d a perm b mk) := by
  intro h _
  simp_all [encode, Instr.wf, decodeWords_plain, takesLiteral, voteSub, decFull, row0, dec0D, cat_hi, cat_lo]
theorem logi (kind : LogiKind) (ty : IntTy) (d : VNum) (a : VNum) (imm : Imm) (mk : MNum) : Statement (.logi kind ty d a imm mk) := by
  intro h _
  cases imm <;>
  simp_all [encode, Instr.wf, Imm.words, Imm.litBit, Imm.short24, Imm.ofBits, decodeWords_short, decodeWords_lit, takesLiteral, decFull, row0, dec0E, cat_hi, cat_lo]
theorem shl (ty : IntTy) (d : VNum) (a : VNum) (perm : Perm) (b : VNum) (mk : MNum) : Statement (.shl ty d a perm b mk) := by
  intro h _
  simp_all [encode, Instr.wf, decodeWords_plain, takesLiteral, voteSub, decFull, row0, dec0F, cat_hi, cat_lo]
theorem shr (ty : IntTy) (d : VNum) (a : VNum) (perm : Perm) (b : VNum) (mk : MNum) : Statement (.shr ty d a perm b mk) := by
  intro h _
  simp_all [encode, Instr.wf, decodeWords_plain, takesLiteral, voteSub, decFull, row1, dec10, cat_hi, cat_lo]
theorem sar (ty : IntTy) (d : VNum) (a : VNum) (perm : Perm) (b : VNum) (mk : MNum) : Statement (.sar ty d a perm b mk) := by
  intro h _
  simp_all [encode, Instr.wf, decodeWords_plain, takesLiteral, voteSub, decFull, row1, dec11, cat_hi, cat_lo]
theorem rot (ty : IntTy) (d : VNum) (a : VNum) (perm : Perm) (b : VNum) (mk : MNum) : Statement (.rot ty d a perm b mk) := by
  intro h _
  simp_all [encode, Instr.wf, decodeWords_plain, takesLiteral, voteSub, decFull, row1, dec12, cat_hi, cat_lo]
theorem shi (kind : ShiKind) (ty : IntTy) (d : VNum) (a : VNum) (n : BitVec 24) (mk : MNum) : Statement (.shi kind ty d a n mk) := by
  intro h _
  simp_all [encode, Instr.wf, decodeWords_plain, takesLiteral, voteSub, decFull, row1, dec13, cat_hi, cat_lo] <;> grind
theorem clz (ty : IntTy) (d : VNum) (a : VNum) (perm : Perm) (mk : MNum) : Statement (.clz ty d a perm mk) := by
  intro h _
  simp_all [encode, Instr.wf, decodeWords_plain, takesLiteral, voteSub, decFull, row1, dec14, cat_hi, cat_lo]
theorem popc (ty : IntTy) (d : VNum) (a : VNum) (perm : Perm) (mk : MNum) : Statement (.popc ty d a perm mk) := by
  intro h _
  simp_all [encode, Instr.wf, decodeWords_plain, takesLiteral, voteSub, decFull, row1, dec15, cat_hi, cat_lo]
theorem brev (ty : IntTy) (d : VNum) (a : VNum) (perm : Perm) (mk : MNum) : Statement (.brev ty d a perm mk) := by
  intro h _
  simp_all [encode, Instr.wf, decodeWords_plain, takesLiteral, voteSub, decFull, row1, dec16, cat_hi, cat_lo]
theorem min (ty : IntTy) (d : VNum) (a : VNum) (perm : Perm) (b : VNum) (mk : MNum) : Statement (.min ty d a perm b mk) := by
  intro h _
  simp_all [encode, Instr.wf, decodeWords_plain, takesLiteral, voteSub, decFull, row1, dec17, cat_hi, cat_lo]
theorem max (ty : IntTy) (d : VNum) (a : VNum) (perm : Perm) (b : VNum) (mk : MNum) : Statement (.max ty d a perm b mk) := by
  intro h _
  simp_all [encode, Instr.wf, decodeWords_plain, takesLiteral, voteSub, decFull, row1, dec18, cat_hi, cat_lo]
theorem abs (ty : IntTy) (sat : Bool) (d : VNum) (a : VNum) (perm : Perm) (mk : MNum) : Statement (.abs ty sat d a perm mk) := by
  intro h _
  simp_all [encode, Instr.wf, decodeWords_plain, takesLiteral, voteSub, decFull, row1, dec19, cat_hi, cat_lo]
theorem sel (ty : IntTy) (d : VNum) (a : VNum) (perm : Perm) (b : VNum) (mc : MNum) (mk : MNum) : Statement (.sel ty d a perm b mc mk) := by
  intro h _
  simp_all [encode, Instr.wf, decodeWords_plain, takesLiteral, voteSub, decFull, row1, dec1A, cat_hi, cat_lo]
theorem cmp (cond : Cond) (ty : IntTy) (md : MNum) (a : VNum) (perm : Perm) (b : VNum) (mk : MNum) : Statement (.cmp cond ty md a perm b mk) := by
  intro h _
  simp_all [encode, Instr.wf, decodeWords_plain, takesLiteral, voteSub, decFull, row1, dec1B, cat_hi, cat_lo]
theorem cmpi (cond : Cond) (ty : IntTy) (md : MNum) (a : VNum) (imm : Imm) (mk : MNum) : Statement (.cmpi cond ty md a imm mk) := by
  intro h _
  cases imm <;>
  simp_all [encode, Instr.wf, Imm.words, Imm.litBit, Imm.short24, Imm.ofBits, decodeWords_short, decodeWords_lit, takesLiteral, decFull, row1, dec1C, cat_hi, cat_lo]
theorem bfe (ty : IntTy) (d : VNum) (a : VNum) (perm : Perm) (b : VNum) (mk : MNum) : Statement (.bfe ty d a perm b mk) := by
  intro h _
  simp_all [encode, Instr.wf, decodeWords_plain, takesLiteral, voteSub, decFull, row1, dec1D, cat_hi, cat_lo]
theorem bfi (ty : IntTy) (d : VNum) (a : VNum) (perm : Perm) (b : VNum) (c : VNum) (mk : MNum) : Statement (.bfi ty d a perm b c mk) := by
  intro h _
  simp_all [encode, Instr.wf, decodeWords_plain, takesLiteral, voteSub, decFull, row1, dec1E, cat_hi, cat_lo]
theorem lea (size : Size) (d : VNum) (m : MemRef) (look : BitVec 4) (tok : BitVec 3) (mk : MNum) : Statement (.lea size d m look tok mk) := by
  intro h _
  simp_all [encode, Instr.wf, decodeWords_plain, takesLiteral, voteSub, decFull, row1, dec1F, cat_hi, cat_lo]
theorem ids (q : IdsQuery) (d : VNum) (mk : MNum) : Statement (.ids q d mk) := by
  intro h _
  simp_all [encode, Instr.wf, decodeWords_plain, takesLiteral, voteSub, decFull, row2, dec20, cat_hi, cat_lo]
theorem mlog (kind : MlogKind) (md : MNum) (ma : MNum) (mb : MNum) (mk : MNum) : Statement (.mlog kind md ma mb mk) := by
  intro h _
  simp_all [encode, Instr.wf, decodeWords_plain, takesLiteral, voteSub, decFull, row2, dec21, cat_hi, cat_lo] <;> grind
theorem mpop (d : VNum) (ma : MNum) (mk : MNum) : Statement (.mpop d ma mk) := by
  intro h _
  simp_all [encode, Instr.wf, decodeWords_plain, takesLiteral, voteSub, decFull, row2, dec22, cat_hi, cat_lo]
theorem mfirst (d : VNum) (ma : MNum) (mk : MNum) : Statement (.mfirst d ma mk) := by
  intro h _
  simp_all [encode, Instr.wf, decodeWords_plain, takesLiteral, voteSub, decFull, row2, dec23, cat_hi, cat_lo]
theorem mset (kind : MsetKind) (md : MNum) (imm : BitVec 24) (mk : MNum) : Statement (.mset kind md imm mk) := by
  intro h _
  simp_all [encode, Instr.wf, decodeWords_plain, takesLiteral, voteSub, decFull, row2, dec24, cat_hi, cat_lo] <;> grind
theorem br (sense : BrSense) (mc : MNum) (hint : Hint) (disp : BitVec 32) : Statement (.br sense mc hint disp) := by
  intro h _
  simp_all [encode, Instr.wf, decodeWords_plain, takesLiteral, voteSub, decFull, row3, dec30, cat_hi, cat_lo]
theorem brm (kind : BrmKind) (mc : MNum) (hint : Hint) (disp : BitVec 32) : Statement (.brm kind mc hint disp) := by
  intro h _
  simp_all [encode, Instr.wf, decodeWords_plain, takesLiteral, voteSub, decFull, row3, dec31, cat_hi, cat_lo]
theorem call (vd : VNum) (hint : Hint) (disp : BitVec 32) : Statement (.call vd hint disp) := by
  intro h _
  simp_all [encode, Instr.wf, decodeWords_plain, takesLiteral, voteSub, decFull, row3, dec32, cat_hi, cat_lo]
theorem calli (vd : VNum) (va : VNum) (mk : MNum) : Statement (.calli vd va mk) := by
  intro h _
  simp_all [encode, Instr.wf, decodeWords_plain, takesLiteral, voteSub, decFull, row3, dec33, cat_hi, cat_lo]
theorem ret (va : VNum) (mk : MNum) : Statement (.ret va mk) := by
  intro h _
  simp_all [encode, Instr.wf, decodeWords_plain, takesLiteral, voteSub, decFull, row3, dec34, cat_hi, cat_lo]
theorem jmpi (va : VNum) (mk : MNum) : Statement (.jmpi va mk) := by
  intro h _
  simp_all [encode, Instr.wf, decodeWords_plain, takesLiteral, voteSub, decFull, row3, dec35, cat_hi, cat_lo]
theorem regang  : Statement (.regang ) := by
  intro h _
  simp_all [encode, Instr.wf, decodeWords_plain, takesLiteral, voteSub, decFull, row3, dec36, cat_hi, cat_lo]
theorem exit (mk : MNum) : Statement (.exit mk) := by
  intro h _
  simp_all [encode, Instr.wf, decodeWords_plain, takesLiteral, voteSub, decFull, row3, dec37, cat_hi, cat_lo]
theorem waittok (toks : BitVec 7) : Statement (.waittok toks) := by
  intro h _
  simp_all [encode, Instr.wf, decodeWords_plain, takesLiteral, voteSub, decFull, row3, dec38, cat_hi, cat_lo]
theorem shfl (mode : ShflMode) (wd : Wd) (d : VNum) (a : VNum) (b : VNum) (mk : MNum) : Statement (.shfl mode wd d a b mk) := by
  intro h _
  simp_all [encode, Instr.wf, decodeWords_plain, takesLiteral, voteSub, decFull, row4, dec40, cat_hi, cat_lo]
theorem bcast (pick : BcastSel) (wd : Wd) (d : VNum) (a : VNum) (b : VNum) (mk : MNum) : Statement (.bcast pick wd d a b mk) := by
  intro h _
  simp_all [encode, Instr.wf, decodeWords_plain, takesLiteral, voteSub, decFull, row4, dec41, cat_hi, cat_lo] <;> grind
theorem reduce (op : RedOp) (d : VNum) (a : VNum) (look : BitVec 4) (mk : MNum) : Statement (.reduce op d a look mk) := by
  intro h _
  simp_all [encode, Instr.wf, decodeWords_plain, takesLiteral, voteSub, decFull, row4, dec42, cat_hi, cat_lo]
theorem scan (op : RedOp) (d : VNum) (a : VNum) (look : BitVec 4) (mk : MNum) : Statement (.scan op d a look mk) := by
  intro h _
  simp_all [encode, Instr.wf, decodeWords_plain, takesLiteral, voteSub, decFull, row4, dec43, cat_hi, cat_lo]
theorem vote (kind : VoteKind) (w64 : Bool) (md : MNum) (a : VNum) (mk : MNum) : Statement (.vote kind w64 md a mk) := by
  intro h _
  cases kind <;> cases w64 <;>
  simp_all [encode, Instr.wf, decodeWords_plain, takesLiteral, voteSub, decFull, row4, dec44, cat_hi, cat_lo] <;> grind
theorem ballot (kind : BallotKind) (d : VNum) (ma : MNum) (mk : MNum) : Statement (.ballot kind d ma mk) := by
  intro h _
  simp_all [encode, Instr.wf, decodeWords_plain, takesLiteral, voteSub, decFull, row4, dec45, cat_hi, cat_lo]
theorem dot4 (ty : Dot4Ty) (sat : Bool) (d : VNum) (a : VNum) (perm : Perm) (b : VNum) (c : VNum) (fmt : BitVec 3) (mk : MNum) : Statement (.dot4 ty sat d a perm b c fmt mk) := by
  intro h _
  simp_all [encode, Instr.wf, decodeWords_plain, takesLiteral, voteSub, decFull, row4, dec46, cat_hi, cat_lo] <;> grind
theorem dot8 (ty : Dot8Ty) (sat : Bool) (d : VNum) (a : VNum) (perm : Perm) (b : VNum) (c : VNum) (fmt : BitVec 3) (mk : MNum) : Statement (.dot8 ty sat d a perm b c fmt mk) := by
  intro h _
  simp_all [encode, Instr.wf, decodeWords_plain, takesLiteral, voteSub, decFull, row4, dec47, cat_hi, cat_lo] <;> grind
theorem pack (ty : PackTy) (sat : Bool) (d : VNum) (a : VNum) (perm : Perm) (b : VNum) (c : VNum) (j : BitVec 2) (mk : MNum) : Statement (.pack ty sat d a perm b c j mk) := by
  intro h _
  simp_all [encode, Instr.wf, decodeWords_plain, takesLiteral, voteSub, decFull, row4, dec48, cat_hi, cat_lo] <;> grind
theorem unpack (ty : PackTy) (d : VNum) (a : VNum) (perm : Perm) (n : BitVec 3) (mk : MNum) : Statement (.unpack ty d a perm n mk) := by
  intro h _
  simp_all [encode, Instr.wf, decodeWords_plain, takesLiteral, voteSub, decFull, row4, dec49, cat_hi, cat_lo] <;> grind
theorem clmul (wd : Wd) (hi : Bool) (d : VNum) (a : VNum) (perm : Perm) (b : VNum) (mk : MNum) : Statement (.clmul wd hi d a perm b mk) := by
  intro h _
  simp_all [encode, Instr.wf, decodeWords_plain, takesLiteral, voteSub, decFull, row4, dec4A, cat_hi, cat_lo] <;> grind
theorem byteperm (d : VNum) (a : VNum) (perm : Perm) (b : VNum) (c : VNum) (mk : MNum) : Statement (.byteperm d a perm b c mk) := by
  intro h _
  simp_all [encode, Instr.wf, decodeWords_plain, takesLiteral, voteSub, decFull, row4, dec4B, cat_hi, cat_lo]
theorem rebal (mode : RebalMode) (wd : Wd) (d : VNum) (a : VNum) (mc : MNum) (mk : MNum) : Statement (.rebal mode wd d a mc mk) := by
  intro h _
  simp_all [encode, Instr.wf, decodeWords_plain, takesLiteral, voteSub, decFull, row4, dec4C, cat_hi, cat_lo]
theorem shapeGet (d : VNum) (a : VNum) (mk : MNum) : Statement (.shapeGet d a mk) := by
  intro h _
  simp_all [encode, Instr.wf, decodeWords_plain, takesLiteral, voteSub, decFull, row4, dec4D, cat_hi, cat_lo]
theorem shapeFit (wd : Wd) (d : VNum) (a : VNum) (mk : MNum) : Statement (.shapeFit wd d a mk) := by
  intro h _
  simp_all [encode, Instr.wf, decodeWords_plain, takesLiteral, voteSub, decFull, row4, dec4D, cat_hi, cat_lo]
theorem iota (ty : IntTy) (d : VNum) (base : BitVec 24) (stride : BitVec 6) (mk : MNum) : Statement (.iota ty d base stride mk) := by
  intro h _
  simp_all [encode, Instr.wf, decodeWords_plain, takesLiteral, voteSub, decFull, row4, dec4E, cat_hi, cat_lo]
theorem fadd (cls : FpCls) (d : VNum) (a : VNum) (perm : Perm) (b : VNum) (mk : MNum) : Statement (.fadd cls d a perm b mk) := by
  intro h _
  simp_all [encode, Instr.wf, decodeWords_plain, takesLiteral, voteSub, decFull, row6, dec60, cat_hi, cat_lo]
theorem fsub (cls : FpCls) (d : VNum) (a : VNum) (perm : Perm) (b : VNum) (mk : MNum) : Statement (.fsub cls d a perm b mk) := by
  intro h _
  simp_all [encode, Instr.wf, decodeWords_plain, takesLiteral, voteSub, decFull, row6, dec61, cat_hi, cat_lo]
theorem fmul (cls : FpCls) (d : VNum) (a : VNum) (perm : Perm) (b : VNum) (mk : MNum) : Statement (.fmul cls d a perm b mk) := by
  intro h _
  simp_all [encode, Instr.wf, decodeWords_plain, takesLiteral, voteSub, decFull, row6, dec62, cat_hi, cat_lo]
theorem fmin (cls : FpCls) (d : VNum) (a : VNum) (perm : Perm) (b : VNum) (mk : MNum) : Statement (.fmin cls d a perm b mk) := by
  intro h _
  simp_all [encode, Instr.wf, decodeWords_plain, takesLiteral, voteSub, decFull, row6, dec64, cat_hi, cat_lo]
theorem fmax (cls : FpCls) (d : VNum) (a : VNum) (perm : Perm) (b : VNum) (mk : MNum) : Statement (.fmax cls d a perm b mk) := by
  intro h _
  simp_all [encode, Instr.wf, decodeWords_plain, takesLiteral, voteSub, decFull, row6, dec65, cat_hi, cat_lo]
theorem fscale (cls : FpCls) (d : VNum) (a : VNum) (perm : Perm) (b : VNum) (mk : MNum) : Statement (.fscale cls d a perm b mk) := by
  intro h _
  simp_all [encode, Instr.wf, decodeWords_plain, takesLiteral, voteSub, decFull, row6, dec6E, cat_hi, cat_lo]
theorem kset (cls : FpCls) (d : VNum) (a : VNum) (perm : Perm) (b : VNum) (mk : MNum) : Statement (.kset cls d a perm b mk) := by
  intro h _
  simp_all [encode, Instr.wf, decodeWords_plain, takesLiteral, voteSub, decFull, row7, dec77, cat_hi, cat_lo]
theorem kmin (cls : FpCls) (d : VNum) (a : VNum) (perm : Perm) (b : VNum) (mk : MNum) : Statement (.kmin cls d a perm b mk) := by
  intro h _
  simp_all [encode, Instr.wf, decodeWords_plain, takesLiteral, voteSub, decFull, row7, dec78, cat_hi, cat_lo]
theorem ffma (cls : FpCls) (d : VNum) (a : VNum) (perm : Perm) (b : VNum) (c : VNum) (mk : MNum) : Statement (.ffma cls d a perm b c mk) := by
  intro h _
  simp_all [encode, Instr.wf, decodeWords_plain, takesLiteral, voteSub, decFull, row6, dec63, cat_hi, cat_lo]
theorem frexp (part : FrexpSel) (cls : FpCls) (d : VNum) (a : VNum) (perm : Perm) (mk : MNum) : Statement (.frexp part cls d a perm mk) := by
  intro h _
  simp_all [encode, Instr.wf, decodeWords_plain, takesLiteral, voteSub, decFull, row6, dec6F, cat_hi, cat_lo]
theorem fcmp (cond : FCond) (x : Bool) (cls : FpCls) (md : MNum) (a : VNum) (perm : Perm) (b : VNum) (mk : MNum) : Statement (.fcmp cond x cls md a perm b mk) := by
  intro h _
  simp_all [encode, Instr.wf, decodeWords_plain, takesLiteral, voteSub, decFull, row6, dec66, cat_hi, cat_lo]
theorem fclass (cls : FpCls) (d : VNum) (a : VNum) (perm : Perm) (mk : MNum) : Statement (.fclass cls d a perm mk) := by
  intro h _
  simp_all [encode, Instr.wf, decodeWords_plain, takesLiteral, voteSub, decFull, row6, dec67, cat_hi, cat_lo]
theorem frcp (cls : FpCls) (d : VNum) (a : VNum) (perm : Perm) (look : BitVec 4) (mk : MNum) : Statement (.frcp cls d a perm look mk) := by
  intro h _
  simp_all [encode, Instr.wf, decodeWords_plain, takesLiteral, voteSub, decFull, row6, dec68, cat_hi, cat_lo]
theorem frsq (cls : FpCls) (d : VNum) (a : VNum) (perm : Perm) (look : BitVec 4) (mk : MNum) : Statement (.frsq cls d a perm look mk) := by
  intro h _
  simp_all [encode, Instr.wf, decodeWords_plain, takesLiteral, voteSub, decFull, row6, dec69, cat_hi, cat_lo]
theorem fexp2 (cls : FpCls) (d : VNum) (a : VNum) (perm : Perm) (look : BitVec 4) (mk : MNum) : Statement (.fexp2 cls d a perm look mk) := by
  intro h _
  simp_all [encode, Instr.wf, decodeWords_plain, takesLiteral, voteSub, decFull, row6, dec6A, cat_hi, cat_lo]
theorem flog2 (cls : FpCls) (d : VNum) (a : VNum) (perm : Perm) (look : BitVec 4) (mk : MNum) : Statement (.flog2 cls d a perm look mk) := by
  intro h _
  simp_all [encode, Instr.wf, decodeWords_plain, takesLiteral, voteSub, decFull, row6, dec6B, cat_hi, cat_lo]
theorem fsin (cls : FpCls) (d : VNum) (a : VNum) (perm : Perm) (look : BitVec 4) (mk : MNum) : Statement (.fsin cls d a perm look mk) := by
  intro h _
  simp_all [encode, Instr.wf, decodeWords_plain, takesLiteral, voteSub, decFull, row6, dec6C, cat_hi, cat_lo]
theorem fcos (cls : FpCls) (d : VNum) (a : VNum) (perm : Perm) (look : BitVec 4) (mk : MNum) : Statement (.fcos cls d a perm look mk) := by
  intro h _
  simp_all [encode, Instr.wf, decodeWords_plain, takesLiteral, voteSub, decFull, row6, dec6D, cat_hi, cat_lo]
theorem fcvt (dst : FpCls) (src : FpCls) (d : VNum) (a : VNum) (perm : Perm) (mk : MNum) : Statement (.fcvt dst src d a perm mk) := by
  intro h _
  simp_all [encode, Instr.wf, decodeWords_plain, takesLiteral, voteSub, decFull, row7, dec70, cat_hi, cat_lo]
theorem fcvti (ty : IntTy) (cls : FpCls) (d : VNum) (a : VNum) (perm : Perm) (rnd : Rnd) (mk : MNum) : Statement (.fcvti ty cls d a perm rnd mk) := by
  intro h _
  simp_all [encode, Instr.wf, decodeWords_plain, takesLiteral, voteSub, decFull, row7, dec71, cat_hi, cat_lo]
theorem icvtf (cls : FpCls) (ty : IntTy) (d : VNum) (a : VNum) (perm : Perm) (mk : MNum) : Statement (.icvtf cls ty d a perm mk) := by
  intro h _
  simp_all [encode, Instr.wf, decodeWords_plain, takesLiteral, voteSub, decFull, row7, dec72, cat_hi, cat_lo]
theorem fround (cls : FpCls) (d : VNum) (a : VNum) (perm : Perm) (rnd : Rnd) (mk : MNum) : Statement (.fround cls d a perm rnd mk) := by
  intro h _
  simp_all [encode, Instr.wf, decodeWords_plain, takesLiteral, voteSub, decFull, row7, dec7B, cat_hi, cat_lo]
theorem fpack (ty : FpackTy) (sat : Bool) (d : VNum) (a : VNum) (b : VNum) (c : VNum) (j : BitVec 2) (fmt : BitVec 3) (mk : MNum) : Statement (.fpack ty sat d a b c j fmt mk) := by
  intro h _
  simp_all [encode, Instr.wf, decodeWords_plain, takesLiteral, voteSub, decFull, row7, dec73, cat_hi, cat_lo] <;> grind
theorem funpack (cls : FpCls) (d : VNum) (a : VNum) (perm : Perm) (n : BitVec 3) (mk : MNum) : Statement (.funpack cls d a perm n mk) := by
  intro h _
  simp_all [encode, Instr.wf, decodeWords_plain, takesLiteral, voteSub, decFull, row7, dec74, cat_hi, cat_lo] <;> grind
theorem freduce (cls : FpCls) (d : VNum) (a : VNum) (look : BitVec 4) (mk : MNum) : Statement (.freduce cls d a look mk) := by
  intro h _
  simp_all [encode, Instr.wf, decodeWords_plain, takesLiteral, voteSub, decFull, row7, dec75, cat_hi, cat_lo]
theorem kget (pick : KgetSel) (cls : FpCls) (d : VNum) (a : VNum) (perm : Perm) (mk : MNum) : Statement (.kget pick cls d a perm mk) := by
  intro h _
  simp_all [encode, Instr.wf, decodeWords_plain, takesLiteral, voteSub, decFull, row7, dec76, cat_hi, cat_lo]
theorem sticky (kind : StickyKind) (cls : FpCls) (d : VNum) (a : VNum) (perm : Perm) (mk : MNum) : Statement (.sticky kind cls d a perm mk) := by
  intro h _
  simp_all [encode, Instr.wf, decodeWords_plain, takesLiteral, voteSub, decFull, row7, dec79, cat_hi, cat_lo] <;> grind
theorem bsig (kind : BsigKind) (va : VNum) (thr : BitVec 6) (hint : Hint) (disp : BitVec 32) : Statement (.bsig kind va thr hint disp) := by
  intro h _
  simp_all [encode, Instr.wf, decodeWords_plain, takesLiteral, voteSub, decFull, row7, dec7A, cat_hi, cat_lo]
theorem pairWord (p q : Compact) : Statement (.pairWord p q) := by
  intro h _
  obtain ⟨po, pd, pa, pb, pm⟩ := p
  obtain ⟨qo, qd, qa, qb, qm⟩ := q
  cases hm : po.isMul <;>
  simp_all [encode, Instr.wf, decodeWords, kindOf, decPair, Compact.bits, CompactBits.op, CompactBits.checks, pairChecks,
    cat_hi, cat_lo, firstBad]
theorem ld (size : Size) (d : VNum) (m : MemRef) (stream : BitVec 4) (look : BitVec 4) (tok : BitVec 3) (mk : MNum) : Statement (.ld size d m stream look tok mk) := by
  intro h _
  simp_all [encode, Instr.wf, decodeWords_plain, takesLiteral, voteSub, decFull, row9, dec90, cat_hi, cat_lo]
theorem st (size : Size) (rnd : Rnd) (vs : VNum) (m : MemRef) (stream : BitVec 4) (tok : BitVec 3) (mk : MNum) : Statement (.st size rnd vs m stream tok mk) := by
  intro h _
  simp_all [encode, Instr.wf, decodeWords_plain, takesLiteral, voteSub, decFull, row9, dec91, cat_hi, cat_lo] <;> grind
theorem ldt (size : Size) (d : VNum) (m : MemRef) (stream : BitVec 4) (look : BitVec 4) (tok : BitVec 3) (mk : MNum) : Statement (.ldt size d m stream look tok mk) := by
  intro h _
  simp_all [encode, Instr.wf, decodeWords_plain, takesLiteral, voteSub, decFull, row9, dec92, cat_hi, cat_lo]
theorem stt (size : Size) (vs : VNum) (m : MemRef) (stream : BitVec 4) (tok : BitVec 3) (mk : MNum) : Statement (.stt size vs m stream tok mk) := by
  intro h _
  simp_all [encode, Instr.wf, decodeWords_plain, takesLiteral, voteSub, decFull, row9, dec93, cat_hi, cat_lo]
theorem ldg (size : Size) (d : VNum) (hnd : HNum) (ofs : VNum) (disp : BitVec 12) (stream : BitVec 4) (look : BitVec 4) (tok : BitVec 3) (mk : MNum) : Statement (.ldg size d hnd ofs disp stream look tok mk) := by
  intro h _
  simp_all [encode, Instr.wf, decodeWords_plain, takesLiteral, voteSub, decFull, row9, dec94, cat_hi, cat_lo]
theorem sts (size : Size) (rnd : Rnd) (vs : VNum) (hnd : HNum) (ofs : VNum) (disp : BitVec 12) (stream : BitVec 4) (tok : BitVec 3) (mk : MNum) : Statement (.sts size rnd vs hnd ofs disp stream tok mk) := by
  intro h _
  simp_all [encode, Instr.wf, decodeWords_plain, takesLiteral, voteSub, decFull, row9, dec95, cat_hi, cat_lo] <;> grind
theorem ldb (size : Size) (d : VNum) (hnd : HNum) (disp : BitVec 12) (stream : BitVec 4) (look : BitVec 4) (tok : BitVec 3) (mk : MNum) : Statement (.ldb size d hnd disp stream look tok mk) := by
  intro h _
  simp_all [encode, Instr.wf, decodeWords_plain, takesLiteral, voteSub, decFull, row9, dec96, cat_hi, cat_lo]
theorem tmov (size : Size) (lc : BitVec 3) (vd : VNum) (m : MemRef) (stream : BitVec 4) (tok : BitVec 3) (mk : MNum) : Statement (.tmov size lc vd m stream tok mk) := by
  intro h _
  simp_all [encode, Instr.wf, decodeWords_plain, takesLiteral, voteSub, decFull, row9, dec97, cat_hi, cat_lo]
theorem atom (op : AtomOp) (size : Size) (vs : VNum) (m : MemRef) (stream : BitVec 4) (tok : BitVec 3) (mk : MNum) : Statement (.atom op size vs m stream tok mk) := by
  intro h _
  simp_all [encode, Instr.wf, decodeWords_plain, takesLiteral, voteSub, decFull, row9, dec98, cat_hi, cat_lo] <;> grind
theorem atomr (op : AtomOp) (size : Size) (vs : VNum) (m : MemRef) (stream : BitVec 4) (look : BitVec 4) (tok : BitVec 3) (mk : MNum) : Statement (.atomr op size vs m stream look tok mk) := by
  intro h _
  simp_all [encode, Instr.wf, decodeWords_plain, takesLiteral, voteSub, decFull, row9, dec99, cat_hi, cat_lo] <;> grind
theorem acq (mode : TokMode) (id : BitVec 12) (tok : BitVec 3) : Statement (.acq mode id tok) := by
  intro h _
  simp_all [encode, Instr.wf, decodeWords_plain, takesLiteral, voteSub, decFull, row9, dec9A, cat_hi, cat_lo]
theorem rel (id : BitVec 12) (tok : BitVec 3) : Statement (.rel id tok) := by
  intro h _
  simp_all [encode, Instr.wf, decodeWords_plain, takesLiteral, voteSub, decFull, row9, dec9B, cat_hi, cat_lo]
theorem fence (kind : FenceKind) (set : BitVec 16) : Statement (.fence kind set) := by
  intro h _
  simp_all [encode, Instr.wf, decodeWords_plain, takesLiteral, voteSub, decFull, row9, dec9C, cat_hi, cat_lo] <;> grind
theorem cbdef (cb : BitVec 4) (hnd : HNum) (disp : BitVec 12) (logs : BitVec 3) (size : BitVec 4) : Statement (.cbdef cb hnd disp logs size) := by
  intro h _
  simp_all [encode, Instr.wf, decodeWords_plain, takesLiteral, voteSub, decFull, row9, dec9F, cat_hi, cat_lo] <;> grind
theorem cbpushRes (vd : VNum) (cb : BitVec 4) (look : BitVec 4) (tok : BitVec 3) : Statement (.cbpushRes vd cb look tok) := by
  intro h _
  simp_all [encode, Instr.wf, decodeWords_plain, takesLiteral, voteSub, decFull, row9, dec9D, cat_hi, cat_lo]
theorem cbpushCommit (vs : VNum) (cb : BitVec 4) (stream : BitVec 4) (tok : BitVec 3) : Statement (.cbpushCommit vs cb stream tok) := by
  intro h _
  simp_all [encode, Instr.wf, decodeWords_plain, takesLiteral, voteSub, decFull, row9, dec9D, cat_hi, cat_lo]
theorem cbpopTake (vd : VNum) (cb : BitVec 4) (look : BitVec 4) (tok : BitVec 3) : Statement (.cbpopTake vd cb look tok) := by
  intro h _
  simp_all [encode, Instr.wf, decodeWords_plain, takesLiteral, voteSub, decFull, row9, dec9E, cat_hi, cat_lo]
theorem cbpopFree (vs : VNum) (cb : BitVec 4) (stream : BitVec 4) (tok : BitVec 3) : Statement (.cbpopFree vs cb stream tok) := by
  intro h _
  simp_all [encode, Instr.wf, decodeWords_plain, takesLiteral, voteSub, decFull, row9, dec9E, cat_hi, cat_lo]
theorem cbpopStat (vd : VNum) (cb : BitVec 4) : Statement (.cbpopStat vd cb) := by
  intro h _
  simp_all [encode, Instr.wf, decodeWords_plain, takesLiteral, voteSub, decFull, row9, dec9E, cat_hi, cat_lo]
theorem hdescAttr (vd : VNum) (va : VNum) : Statement (.hdescAttr vd va) := by
  intro h _
  simp_all [encode, Instr.wf, decodeWords_plain, takesLiteral, voteSub, decFull, rowA, decA0, cat_hi, cat_lo]
theorem hdescBind (vd : VNum) (va : VNum) : Statement (.hdescBind vd va) := by
  intro h _
  simp_all [encode, Instr.wf, decodeWords_plain, takesLiteral, voteSub, decFull, rowA, decA0, cat_hi, cat_lo]
theorem hdescLoc (vd : VNum) (va : VNum) : Statement (.hdescLoc vd va) := by
  intro h _
  simp_all [encode, Instr.wf, decodeWords_plain, takesLiteral, voteSub, decFull, rowA, decA0, cat_hi, cat_lo]
theorem hdescSeta (ah : HNum) (va : VNum) : Statement (.hdescSeta ah va) := by
  intro h _
  simp_all [encode, Instr.wf, decodeWords_plain, takesLiteral, voteSub, decFull, rowA, decA0, cat_hi, cat_lo]
theorem hdescGeta (vd : VNum) (ah : HNum) : Statement (.hdescGeta vd ah) := by
  intro h _
  simp_all [encode, Instr.wf, decodeWords_plain, takesLiteral, voteSub, decFull, rowA, decA0, cat_hi, cat_lo]
theorem oclaim (first : BitVec 5) (nslot : BitVec 6) (tmask : BitVec 8) (tok : BitVec 3) : Statement (.oclaim first nslot tmask tok) := by
  intro h _
  simp_all [encode, Instr.wf, decodeWords_plain, takesLiteral, voteSub, decFull, rowB, decB0, cat_hi, cat_lo] <;> grind
theorem orel (first : BitVec 5) (nslot : BitVec 6) (tmask : BitVec 8) (tok : BitVec 3) : Statement (.orel first nslot tmask tok) := by
  intro h _
  simp_all [encode, Instr.wf, decodeWords_plain, takesLiteral, voteSub, decFull, rowB, decB1, cat_hi, cat_lo] <;> grind
theorem oload (q : BitVec 6) (slot : BitVec 5) (len : BitVec 7) (tok : BitVec 3) : Statement (.oload q slot len tok) := by
  intro h _
  simp_all [encode, Instr.wf, decodeWords_plain, takesLiteral, voteSub, decFull, rowB, decB2, cat_hi, cat_lo]
theorem omap (slot : BitVec 5) (orient : Orient) (pitch : BitVec 9) (base : BitVec 9) (tok : BitVec 3) : Statement (.omap slot orient pitch base tok) := by
  intro h _
  simp_all [encode, Instr.wf, decodeWords_plain, takesLiteral, voteSub, decFull, rowB, decB3, cat_hi, cat_lo]
theorem mma (acc : BitVec 3) (sa : BitVec 5) (sb : BitVec 5) (fmta : BitVec 3) (fmtb : BitVec 3) (kblka : BitVec 2) (kblkb : BitVec 2) (start : Bool) (tok : BitVec 3) : Statement (.mma acc sa sb fmta fmtb kblka kblkb start tok) := by
  intro h _
  simp_all [encode, Instr.wf, decodeWords_plain, takesLiteral, voteSub, decFull, rowB, decB4, cat_hi, cat_lo]
theorem aclr (cls : TileCls) (tmask : BitVec 8) (tok : BitVec 3) : Statement (.aclr cls tmask tok) := by
  intro h _
  simp_all [encode, Instr.wf, decodeWords_plain, takesLiteral, voteSub, decFull, rowB, decB5, cat_hi, cat_lo] <;> grind
theorem aread (acc : BitVec 3) (q : BitVec 6) (fmt : BitVec 3) (row0 : BitVec 6) (nrows : BitVec 6) (tok : BitVec 3) : Statement (.aread acc q fmt row0 nrows tok) := by
  intro h _
  simp_all [encode, Instr.wf, decodeWords_plain, takesLiteral, voteSub, decFull, rowB, decB6, cat_hi, cat_lo] <;> grind
theorem awrite (acc : BitVec 3) (q : BitVec 6) (fmt : BitVec 3) (row0 : BitVec 6) (nrows : BitVec 6) (tok : BitVec 3) : Statement (.awrite acc q fmt row0 nrows tok) := by
  intro h _
  simp_all [encode, Instr.wf, decodeWords_plain, takesLiteral, voteSub, decFull, rowB, decB7, cat_hi, cat_lo] <;> grind
theorem astat (vd : VNum) (acc : BitVec 3) (row0 : BitVec 6) (nrows : BitVec 6) (look : BitVec 4) (tok : BitVec 3) : Statement (.astat vd acc row0 nrows look tok) := by
  intro h _
  simp_all [encode, Instr.wf, decodeWords_plain, takesLiteral, voteSub, decFull, rowB, decB8, cat_hi, cat_lo] <;> grind
theorem mwakeNow  : Statement (.mwakeNow ) := by
  intro h _
  simp_all [encode, Instr.wf, decodeWords_plain, takesLiteral, voteSub, decFull, rowB, decB9, cat_hi, cat_lo]
theorem mwakeIdle (n : BitVec 16) : Statement (.mwakeIdle n) := by
  intro h _
  simp_all [encode, Instr.wf, decodeWords_plain, takesLiteral, voteSub, decFull, rowB, decB9, cat_hi, cat_lo]
theorem mstat (form : MstatSel) (vd : VNum) : Statement (.mstat form vd) := by
  intro h _
  simp_all [encode, Instr.wf, decodeWords_plain, takesLiteral, voteSub, decFull, rowB, decBA, cat_hi, cat_lo]
theorem xcopy (dk : CopyDst) (srcCb : Bool) (cv : Bool) (slot : BitVec 5) (q : BitVec 6) (len : BitVec 10) (fmt : BitVec 3) (stream : BitVec 4) (tok : BitVec 3) : Statement (.xcopy dk srcCb cv slot q len fmt stream tok) := by
  intro h _
  simp_all [encode, Instr.wf, decodeWords_plain, takesLiteral, voteSub, decFull, rowC, decC0, cat_hi, cat_lo] <;> grind
theorem xcopym (fillB : Bool) (q : BitVec 6) (len : BitVec 10) (sa : BitVec 5) (sb : BitVec 5) (acc : BitVec 3) (fmta : BitVec 3) (fmtb : BitVec 3) (kblka : BitVec 2) (kblkb : BitVec 2) (tok : BitVec 3) : Statement (.xcopym fillB q len sa sb acc fmta fmtb kblka kblkb tok) := by
  intro h _
  simp_all [encode, Instr.wf, decodeWords_plain, takesLiteral, voteSub, decFull, rowC, decC1, cat_hi, cat_lo]
theorem xseqDone (eng : Eng) (vd : VNum) (look : BitVec 4) (tok : BitVec 3) : Statement (.xseqDone eng vd look tok) := by
  intro h _
  simp_all [encode, Instr.wf, decodeWords_plain, takesLiteral, voteSub, decFull, rowC, decC2, cat_hi, cat_lo]
theorem xseqIssued (eng : Eng) (vd : VNum) (look : BitVec 4) (tok : BitVec 3) : Statement (.xseqIssued eng vd look tok) := by
  intro h _
  simp_all [encode, Instr.wf, decodeWords_plain, takesLiteral, voteSub, decFull, rowC, decC2, cat_hi, cat_lo]
theorem xseqLine (line : BitVec 4) (vd : VNum) (look : BitVec 4) (tok : BitVec 3) : Statement (.xseqLine line vd look tok) := by
  intro h _
  simp_all [encode, Instr.wf, decodeWords_plain, takesLiteral, voteSub, decFull, rowC, decC2, cat_hi, cat_lo]
theorem xseqFault (vd : VNum) (look : BitVec 4) (tok : BitVec 3) : Statement (.xseqFault vd look tok) := by
  intro h _
  simp_all [encode, Instr.wf, decodeWords_plain, takesLiteral, voteSub, decFull, rowC, decC2, cat_hi, cat_lo]
theorem xwait (eng : Eng) (vs : VNum) : Statement (.xwait eng vs) := by
  intro h _
  simp_all [encode, Instr.wf, decodeWords_plain, takesLiteral, voteSub, decFull, rowC, decC3, cat_hi, cat_lo]
theorem evrouteSet (src : BitVec 4) (line : BitVec 4) : Statement (.evrouteSet src line) := by
  intro h _
  simp_all [encode, Instr.wf, decodeWords_plain, takesLiteral, voteSub, decFull, rowC, decC4, cat_hi, cat_lo] <;> grind
theorem evrouteClr (src : BitVec 4) (line : BitVec 4) : Statement (.evrouteClr src line) := by
  intro h _
  simp_all [encode, Instr.wf, decodeWords_plain, takesLiteral, voteSub, decFull, rowC, decC4, cat_hi, cat_lo]
theorem evrouteGate (sink : BitVec 4) (line : BitVec 4) : Statement (.evrouteGate sink line) := by
  intro h _
  simp_all [encode, Instr.wf, decodeWords_plain, takesLiteral, voteSub, decFull, rowC, decC4, cat_hi, cat_lo] <;> grind
theorem evrouteOpen (sink : BitVec 4) : Statement (.evrouteOpen sink) := by
  intro h _
  simp_all [encode, Instr.wf, decodeWords_plain, takesLiteral, voteSub, decFull, rowC, decC4, cat_hi, cat_lo] <;> grind
theorem evwait (line : BitVec 4) : Statement (.evwait line) := by
  intro h _
  simp_all [encode, Instr.wf, decodeWords_plain, takesLiteral, voteSub, decFull, rowC, decC5, cat_hi, cat_lo]
theorem evwaitSync (line : BitVec 4) : Statement (.evwaitSync line) := by
  intro h _
  simp_all [encode, Instr.wf, decodeWords_plain, takesLiteral, voteSub, decFull, rowC, decC5, cat_hi, cat_lo]
theorem evfire (line : BitVec 4) (count : BitVec 8) : Statement (.evfire line count) := by
  intro h _
  simp_all [encode, Instr.wf, decodeWords_plain, takesLiteral, voteSub, decFull, rowC, decC6, cat_hi, cat_lo] <;> grind
theorem sxred (op : SxOp) (ef : SxFmt) (thnd : HNum) (dhnd : HNum) (q : BitVec 6) (rowlen : BitVec 8) (stream : BitVec 4) (tok : BitVec 3) (mk : MNum) : Statement (.sxred op ef thnd dhnd q rowlen stream tok mk) := by
  intro h _
  simp_all [encode, Instr.wf, decodeWords_plain, takesLiteral, voteSub, decFull, rowC, decC8, cat_hi, cat_lo]
theorem sxbulkCopy (q : BitVec 6) (len : BitVec 14) (stream : BitVec 4) (tok : BitVec 3) : Statement (.sxbulkCopy q len stream tok) := by
  intro h _
  simp_all [encode, Instr.wf, decodeWords_plain, takesLiteral, voteSub, decFull, rowC, decC9, cat_hi, cat_lo]
theorem sxbulkFill (q : BitVec 6) (len : BitVec 14) (stream : BitVec 4) (tok : BitVec 3) : Statement (.sxbulkFill q len stream tok) := by
  intro h _
  simp_all [encode, Instr.wf, decodeWords_plain, takesLiteral, voteSub, decFull, rowC, decC9, cat_hi, cat_lo]
theorem sxbulkCmp (q : BitVec 6) (len : BitVec 14) (rhnd : HNum) (stream : BitVec 4) (tok : BitVec 3) : Statement (.sxbulkCmp q len rhnd stream tok) := by
  intro h _
  simp_all [encode, Instr.wf, decodeWords_plain, takesLiteral, voteSub, decFull, rowC, decC9, cat_hi, cat_lo]
theorem sxseqDone (vd : VNum) (psel : BitVec 4) (preg : VNum) (look : BitVec 4) (tok : BitVec 3) : Statement (.sxseqDone vd psel preg look tok) := by
  intro h _
  simp_all [encode, Instr.wf, decodeWords_plain, takesLiteral, voteSub, decFull, rowC, decCA, cat_hi, cat_lo] <;> grind
theorem sxseqIssued (vd : VNum) (psel : BitVec 4) (preg : VNum) (look : BitVec 4) (tok : BitVec 3) : Statement (.sxseqIssued vd psel preg look tok) := by
  intro h _
  simp_all [encode, Instr.wf, decodeWords_plain, takesLiteral, voteSub, decFull, rowC, decCA, cat_hi, cat_lo] <;> grind
theorem sxseqStack (vd : VNum) (psel : BitVec 4) (preg : VNum) (look : BitVec 4) (tok : BitVec 3) : Statement (.sxseqStack vd psel preg look tok) := by
  intro h _
  simp_all [encode, Instr.wf, decodeWords_plain, takesLiteral, voteSub, decFull, rowC, decCA, cat_hi, cat_lo] <;> grind
theorem sxseqFault (vd : VNum) (psel : BitVec 4) (preg : VNum) (look : BitVec 4) (tok : BitVec 3) : Statement (.sxseqFault vd psel preg look tok) := by
  intro h _
  simp_all [encode, Instr.wf, decodeWords_plain, takesLiteral, voteSub, decFull, rowC, decCA, cat_hi, cat_lo] <;> grind
theorem sxwait (vs : VNum) (psel : BitVec 4) (preg : VNum) : Statement (.sxwait vs psel preg) := by
  intro h _
  simp_all [encode, Instr.wf, decodeWords_plain, takesLiteral, voteSub, decFull, rowC, decCB, cat_hi, cat_lo] <;> grind
theorem mkmatch (opt : Bool) (snap : Bool) (dmk : BitVec 6) (q : VNum) (wave : BitVec 4) (scope : Scope) (tok : BitVec 3) : Statement (.mkmatch opt snap dmk q wave scope tok) := by
  intro h _
  simp_all [encode, Instr.wf, decodeWords_plain, takesLiteral, voteSub, decFull, rowD, decD0, cat_hi, cat_lo]
theorem mkset (form : MkForm) (opt : Bool) (all : Bool) (snap : Bool) (dmk : BitVec 6) (smk : BitVec 6) (vv : VNum) (wave : BitVec 4) (scope : Scope) (tok : BitVec 3) : Statement (.mkset form opt all snap dmk smk vv wave scope tok) := by
  intro h _
  simp_all [encode, Instr.wf, decodeWords_plain, takesLiteral, voteSub, decFull, rowD, decD1, cat_hi, cat_lo] <;> grind
theorem mkclr (form : MkForm) (opt : Bool) (all : Bool) (snap : Bool) (dmk : BitVec 6) (smk : BitVec 6) (wave : BitVec 4) (scope : Scope) (tok : BitVec 3) : Statement (.mkclr form opt all snap dmk smk wave scope tok) := by
  intro h _
  simp_all [encode, Instr.wf, decodeWords_plain, takesLiteral, voteSub, decFull, rowD, decD2, cat_hi, cat_lo] <;> grind
theorem mkprop (comb : Comb) (opt : Bool) (all : Bool) (snap : Bool) (dmk : BitVec 6) (smk : BitVec 6) (vt : VNum) (hops : BitVec 8) (wave : BitVec 4) (scope : Scope) (tok : BitVec 3) : Statement (.mkprop comb opt all snap dmk smk vt hops wave scope tok) := by
  intro h _
  simp_all [encode, Instr.wf, decodeWords_plain, takesLiteral, voteSub, decFull, rowD, decD3, cat_hi, cat_lo] <;> grind
theorem mkpropv (comb : Comb) (all : Bool) (snap : Bool) (dmk : BitVec 6) (smk : BitVec 6) (vt : VNum) (hops : BitVec 8) (wave : BitVec 4) (scope : Scope) (tok : BitVec 3) : Statement (.mkpropv comb all snap dmk smk vt hops wave scope tok) := by
  intro h _
  simp_all [encode, Instr.wf, decodeWords_plain, takesLiteral, voteSub, decFull, rowD, decD4, cat_hi, cat_lo] <;> grind
theorem mkcollect (opt : Bool) (all : Bool) (snap : Bool) (dmk : BitVec 6) (smk : BitVec 6) (q : VNum) (wave : BitVec 4) (scope : Scope) (tok : BitVec 3) : Statement (.mkcollect opt all snap dmk smk q wave scope tok) := by
  intro h _
  simp_all [encode, Instr.wf, decodeWords_plain, takesLiteral, voteSub, decFull, rowD, decD5, cat_hi, cat_lo] <;> grind
theorem mkcount (all : Bool) (snap : Bool) (smk : BitVec 6) (wave : BitVec 4) (scope : Scope) (tok : BitVec 3) : Statement (.mkcount all snap smk wave scope tok) := by
  intro h _
  simp_all [encode, Instr.wf, decodeWords_plain, takesLiteral, voteSub, decFull, rowD, decD6, cat_hi, cat_lo] <;> grind
theorem mkwait (wave : BitVec 4) : Statement (.mkwait wave) := by
  intro h _
  simp_all [encode, Instr.wf, decodeWords_plain, takesLiteral, voteSub, decFull, rowD, decD7, cat_hi, cat_lo]
theorem mkstat (vd : VNum) (wave : BitVec 4) : Statement (.mkstat vd wave) := by
  intro h _
  simp_all [encode, Instr.wf, decodeWords_plain, takesLiteral, voteSub, decFull, rowD, decD8, cat_hi, cat_lo]
theorem ndrd (fi : NdField) (mv : BitVec 2) (d : VNum) (m : MemRef) (look : BitVec 4) (tok : BitVec 3) (mk : MNum) : Statement (.ndrd fi mv d m look tok mk) := by
  intro h _
  simp_all [encode, Instr.wf, decodeWords_plain, takesLiteral, voteSub, decFull, rowD, decD9, cat_hi, cat_lo] <;> grind
theorem ndwr (fi : NdField) (mv : BitVec 2) (vs : VNum) (m : MemRef) (tok : BitVec 3) (mk : MNum) : Statement (.ndwr fi mv vs m tok mk) := by
  intro h _
  simp_all [encode, Instr.wf, decodeWords_plain, takesLiteral, voteSub, decFull, rowD, decDA, cat_hi, cat_lo] <;> grind
theorem edrd (fi : EdField) (d : VNum) (m : MemRef) (look : BitVec 4) (tok : BitVec 3) (mk : MNum) : Statement (.edrd fi d m look tok mk) := by
  intro h _
  simp_all [encode, Instr.wf, decodeWords_plain, takesLiteral, voteSub, decFull, rowD, decDB, cat_hi, cat_lo]
theorem edwr (fi : EdField) (vs : VNum) (m : MemRef) (tok : BitVec 3) (mk : MNum) : Statement (.edwr fi vs m tok mk) := by
  intro h _
  simp_all [encode, Instr.wf, decodeWords_plain, takesLiteral, voteSub, decFull, rowD, decDC, cat_hi, cat_lo]
theorem fld (sz : FldSz) (d : VNum) (vp : VNum) (vo : VNum) (look : BitVec 4) (tok : BitVec 3) (mk : MNum) : Statement (.fld sz d vp vo look tok mk) := by
  intro h _
  simp_all [encode, Instr.wf, decodeWords_plain, takesLiteral, voteSub, decFull, rowE, decE0, cat_hi, cat_lo]
theorem fst (sz : FldSz) (rnd : Rnd) (vs : VNum) (vp : VNum) (vo : VNum) (tok : BitVec 3) (mk : MNum) : Statement (.fst sz rnd vs vp vo tok mk) := by
  intro h _
  cases sz <;>
  simp_all [encode, Instr.wf, decodeWords_plain, takesLiteral, voteSub, decFull, rowE, decE1, cat_hi, cat_lo, FldSz.code, fszStore, FldSz.ofCode?] <;> grind
theorem fstRadd (vs : VNum) (vp : VNum) (vo : VNum) (tok : BitVec 3) (mk : MNum) : Statement (.fstRadd vs vp vo tok mk) := by
  intro h _
  simp_all [encode, Instr.wf, decodeWords_plain, takesLiteral, voteSub, decFull, rowE, decE1, cat_hi, cat_lo]
theorem fat (op : AtomOp) (sz : FatSz) (d : VNum) (vp : VNum) (vo : VNum) (vc : VNum) (look : BitVec 4) (tok : BitVec 3) (mk : MNum) : Statement (.fat op sz d vp vo vc look tok mk) := by
  intro h _
  simp_all [encode, Instr.wf, decodeWords_plain, takesLiteral, voteSub, decFull, rowE, decE2, cat_hi, cat_lo]
theorem fmcst (q : BitVec 6) (rhnd : HNum) (tok : BitVec 3) : Statement (.fmcst q rhnd tok) := by
  intro h _
  simp_all [encode, Instr.wf, decodeWords_plain, takesLiteral, voteSub, decFull, rowE, decE3, cat_hi, cat_lo]
theorem fwait  : Statement (.fwait ) := by
  intro h _
  simp_all [encode, Instr.wf, decodeWords_plain, takesLiteral, voteSub, decFull, rowE, decE4, cat_hi, cat_lo]
theorem fpeerExport (e : BitVec 12) (va : VNum) : Statement (.fpeerExport e va) := by
  intro h _
  simp_all [encode, Instr.wf, decodeWords_plain, takesLiteral, voteSub, decFull, rowE, decE5, cat_hi, cat_lo] <;> grind
theorem fpeerRevoke (e : BitVec 12) : Statement (.fpeerRevoke e) := by
  intro h _
  simp_all [encode, Instr.wf, decodeWords_plain, takesLiteral, voteSub, decFull, rowE, decE5, cat_hi, cat_lo] <;> grind
theorem fpeerStat (vd : VNum) (e : BitVec 12) : Statement (.fpeerStat vd e) := by
  intro h _
  simp_all [encode, Instr.wf, decodeWords_plain, takesLiteral, voteSub, decFull, rowE, decE5, cat_hi, cat_lo]
theorem fpeerMcdef (g : BitVec 12) (va : VNum) : Statement (.fpeerMcdef g va) := by
  intro h _
  simp_all [encode, Instr.wf, decodeWords_plain, takesLiteral, voteSub, decFull, rowE, decE5, cat_hi, cat_lo]
theorem fpeerPort (vd : VNum) (p : BitVec 4) : Statement (.fpeerPort vd p) := by
  intro h _
  simp_all [encode, Instr.wf, decodeWords_plain, takesLiteral, voteSub, decFull, rowE, decE5, cat_hi, cat_lo]
theorem barv (g : BitVec 8) (tok : BitVec 3) : Statement (.barv g tok) := by
  intro h _
  simp_all [encode, Instr.wf, decodeWords_plain, takesLiteral, voteSub, decFull, rowE, decE8, cat_hi, cat_lo]
theorem barw (g : BitVec 8) : Statement (.barw g) := by
  intro h _
  simp_all [encode, Instr.wf, decodeWords_plain, takesLiteral, voteSub, decFull, rowE, decE9, cat_hi, cat_lo]
theorem bars (g : BitVec 8) : Statement (.bars g) := by
  intro h _
  simp_all [encode, Instr.wf, decodeWords_plain, takesLiteral, voteSub, decFull, rowE, decEA, cat_hi, cat_lo]
theorem barq (vd : VNum) (g : BitVec 8) : Statement (.barq vd g) := by
  intro h _
  simp_all [encode, Instr.wf, decodeWords_plain, takesLiteral, voteSub, decFull, rowE, decEB, cat_hi, cat_lo]
theorem yield  : Statement (.yield ) := by
  intro h _
  simp_all [encode, Instr.wf, decodeWords_plain, takesLiteral, voteSub, decFull, rowE, decEC, cat_hi, cat_lo]
theorem yieldBal  : Statement (.yieldBal ) := by
  intro h _
  simp_all [encode, Instr.wf, decodeWords_plain, takesLiteral, voteSub, decFull, rowE, decEC, cat_hi, cat_lo]
theorem prioSet (k : BitVec 3) : Statement (.prioSet k) := by
  intro h _
  simp_all [encode, Instr.wf, decodeWords_plain, takesLiteral, voteSub, decFull, rowE, decED, cat_hi, cat_lo]
theorem prioRestore  : Statement (.prioRestore ) := by
  intro h _
  simp_all [encode, Instr.wf, decodeWords_plain, takesLiteral, voteSub, decFull, rowE, decED, cat_hi, cat_lo]
theorem idemBegin (keep : BitVec 8) (disp : BitVec 32) : Statement (.idemBegin keep disp) := by
  intro h _
  simp_all [encode, Instr.wf, decodeWords_plain, takesLiteral, voteSub, decFull, rowE, decEE, cat_hi, cat_lo] <;> grind
theorem idemEnd  : Statement (.idemEnd ) := by
  intro h _
  simp_all [encode, Instr.wf, decodeWords_plain, takesLiteral, voteSub, decFull, rowE, decEE, cat_hi, cat_lo]
theorem qpost (vq : VNum) (hnd : HNum) (disp : BitVec 12) (stream : BitVec 4) (tok : BitVec 3) : Statement (.qpost vq hnd disp stream tok) := by
  intro h _
  simp_all [encode, Instr.wf, decodeWords_plain, takesLiteral, voteSub, decFull, rowE, decEF, cat_hi, cat_lo]
theorem csrrd (vd : VNum) (csr : Csr) : Statement (.csrrd vd csr) := by
  intro h _
  simp_all [encode, Instr.wf, decodeWords_plain, takesLiteral, voteSub, decFull, rowF, decF0, cat_hi, cat_lo]
theorem csrwr (csr : Csr) (va : VNum) : Statement (.csrwr csr va) := by
  intro h _
  simp_all [encode, Instr.wf, decodeWords_plain, takesLiteral, voteSub, decFull, rowF, decF1, cat_hi, cat_lo]
theorem csrwrSet (csr : Csr) (va : VNum) : Statement (.csrwrSet csr va) := by
  intro h _
  simp_all [encode, Instr.wf, decodeWords_plain, takesLiteral, voteSub, decFull, rowF, decF1, cat_hi, cat_lo]
theorem csrwrClr (csr : Csr) (va : VNum) : Statement (.csrwrClr csr va) := by
  intro h _
  simp_all [encode, Instr.wf, decodeWords_plain, takesLiteral, voteSub, decFull, rowF, decF1, cat_hi, cat_lo]
theorem trap (code : BitVec 22) : Statement (.trap code) := by
  intro h _
  simp_all [encode, Instr.wf, decodeWords_plain, takesLiteral, voteSub, decFull, rowF, decF2, cat_hi, cat_lo]
theorem rte  : Statement (.rte ) := by
  intro h _
  simp_all [encode, Instr.wf, decodeWords_plain, takesLiteral, voteSub, decFull, rowF, decF3, cat_hi, cat_lo]
theorem rteNext  : Statement (.rteNext ) := by
  intro h _
  simp_all [encode, Instr.wf, decodeWords_plain, takesLiteral, voteSub, decFull, rowF, decF3, cat_hi, cat_lo]
theorem halt (code : BitVec 8) : Statement (.halt code) := by
  intro h _
  simp_all [encode, Instr.wf, decodeWords_plain, takesLiteral, voteSub, decFull, rowF, decF4, cat_hi, cat_lo] <;> grind
theorem ctxsave (va : VNum) (stream : BitVec 4) (tok : BitVec 3) : Statement (.ctxsave va stream tok) := by
  intro h _
  simp_all [encode, Instr.wf, decodeWords_plain, takesLiteral, voteSub, decFull, rowF, decF5, cat_hi, cat_lo]
theorem ctxload (vd : VNum) (va : VNum) (look : BitVec 4) (stream : BitVec 4) (tok : BitVec 3) : Statement (.ctxload vd va look stream tok) := by
  intro h _
  simp_all [encode, Instr.wf, decodeWords_plain, takesLiteral, voteSub, decFull, rowF, decF6, cat_hi, cat_lo]
theorem hnew (vd : VNum) (va : VNum) (look : BitVec 4) (stream : BitVec 4) (tok : BitVec 3) : Statement (.hnew vd va look stream tok) := by
  intro h _
  simp_all [encode, Instr.wf, decodeWords_plain, takesLiteral, voteSub, decFull, rowF, decF7, cat_hi, cat_lo]
theorem hmap (vd : VNum) (va : VNum) (look : BitVec 4) (stream : BitVec 4) (tok : BitVec 3) : Statement (.hmap vd va look stream tok) := by
  intro h _
  simp_all [encode, Instr.wf, decodeWords_plain, takesLiteral, voteSub, decFull, rowF, decF8, cat_hi, cat_lo]
theorem hrevoke (vd : VNum) (va : VNum) (look : BitVec 4) (stream : BitVec 4) (tok : BitVec 3) : Statement (.hrevoke vd va look stream tok) := by
  intro h _
  simp_all [encode, Instr.wf, decodeWords_plain, takesLiteral, voteSub, decFull, rowF, decF9, cat_hi, cat_lo]
theorem hmigr (vd : VNum) (va : VNum) (stack : BitVec 3) (look : BitVec 4) (stream : BitVec 4) (tok : BitVec 3) : Statement (.hmigr vd va stack look stream tok) := by
  intro h _
  simp_all [encode, Instr.wf, decodeWords_plain, takesLiteral, voteSub, decFull, rowF, decFA, cat_hi, cat_lo]
theorem chkptSave (vd : VNum) (va : VNum) (look : BitVec 4) (stream : BitVec 4) (tok : BitVec 3) : Statement (.chkptSave vd va look stream tok) := by
  intro h _
  simp_all [encode, Instr.wf, decodeWords_plain, takesLiteral, voteSub, decFull, rowF, decFB, cat_hi, cat_lo]
theorem chkptLoad (vd : VNum) (va : VNum) (look : BitVec 4) (stream : BitVec 4) (tok : BitVec 3) : Statement (.chkptLoad vd va look stream tok) := by
  intro h _
  simp_all [encode, Instr.wf, decodeWords_plain, takesLiteral, voteSub, decFull, rowF, decFB, cat_hi, cat_lo]
theorem clauseEntry (core : Nat) (ctx : Nat) (part : Nat) : Statement (.clauseEntry core ctx part) := fun _ h => absurd rfl h
theorem fetchWord (core : Nat) (ctx : Nat) (part : Nat) : Statement (.fetchWord core ctx part) := fun _ h => absurd rfl h
theorem longLatencyWrite (core : Nat) (ctx : Nat) (id : Nat) : Statement (.longLatencyWrite core ctx id) := fun _ h => absurd rfl h
theorem regangMerge (core : Nat) (ctx : Nat) : Statement (.regangMerge core ctx) := fun _ h => absurd rfl h
theorem performPiece (agent : Agent) (n : Nat) (err : SoftErr) : Statement (.performPiece agent n err) := fun _ h => absurd rfl h
theorem drain (id : Nat) : Statement (.drain id) := fun _ h => absurd rfl h
theorem propagate (id : Nat) (quarter : Nat) : Statement (.propagate id quarter) := fun _ h => absurd rfl h
theorem replicate (id : Nat) (quarter : Nat) : Statement (.replicate id quarter) := fun _ h => absurd rfl h
theorem atomicSend (core : Nat) (ctx : Nat) (st : Nat) : Statement (.atomicSend core ctx st) := fun _ h => absurd rfl h
theorem atomicPerform (pno : Nat) (cluster : Nat) : Statement (.atomicPerform pno cluster) := fun _ h => absurd rfl h
theorem fencePerform (core : Nat) (ctx : Nat) (st : Nat) : Statement (.fencePerform core ctx st) := fun _ h => absurd rfl h
theorem releaseStep (id : Nat) : Statement (.releaseStep id) := fun _ h => absurd rfl h
theorem tokenGrant (pno : Nat) (id : Nat) : Statement (.tokenGrant pno id) := fun _ h => absurd rfl h
theorem tokenReleaseRecord (id : Nat) : Statement (.tokenReleaseRecord id) := fun _ h => absurd rfl h
theorem barrierWaitPass (core : Nat) (ctx : Nat) (part : Nat) : Statement (.barrierWaitPass core ctx part) := fun _ h => absurd rfl h
theorem waitSatisfied (core : Nat) (ctx : Nat) (part : Nat) : Statement (.waitSatisfied core ctx part) := fun _ h => absurd rfl h
theorem launchEnd (l : Nat) : Statement (.launchEnd l) := fun _ h => absurd rfl h
theorem hostStoreDrain (pno : Nat) : Statement (.hostStoreDrain pno) := fun _ h => absurd rfl h
theorem engineRegistration (core : Nat) (ctx : Nat) (st : Nat) : Statement (.engineRegistration core ctx st) := fun _ h => absurd rfl h
theorem engineStart (core : Nat) (eng : Nat) : Statement (.engineStart core eng) := fun _ h => absurd rfl h
theorem engineCompletion (core : Nat) (eng : Nat) : Statement (.engineCompletion core eng) := fun _ h => absurd rfl h
theorem cbResServed (core : Nat) (cb : Nat) : Statement (.cbResServed core cb) := fun _ h => absurd rfl h
theorem cbTakeServed (core : Nat) (cb : Nat) : Statement (.cbTakeServed core cb) := fun _ h => absurd rfl h
theorem claimGrant (core : Nat) (n : Nat) : Statement (.claimGrant core n) := fun _ h => absurd rfl h
theorem claimRelease (core : Nat) (n : Nat) : Statement (.claimRelease core n) := fun _ h => absurd rfl h
theorem subarrayGate (core : Nat) (n : Nat) : Statement (.subarrayGate core n) := fun _ h => absurd rfl h
theorem subarrayWake (core : Nat) : Statement (.subarrayWake core) := fun _ h => absurd rfl h
theorem budgetWindow (core : Nat) : Statement (.budgetWindow core) := fun _ h => absurd rfl h
theorem bandwidthWindow (res : Nat) : Statement (.bandwidthWindow res) := fun _ h => absurd rfl h
theorem swapOut (core : Nat) (ctx : Nat) : Statement (.swapOut core ctx) := fun _ h => absurd rfl h
theorem recallGang (core : Nat) (ctx : Nat) : Statement (.recallGang core ctx) := fun _ h => absurd rfl h
theorem balanceWindow (core : Nat) (imb : Nat) (under : Bool) : Statement (.balanceWindow core imb under) := fun _ h => absurd rfl h
theorem balanceStall (core : Nat) : Statement (.balanceStall core) := fun _ h => absurd rfl h
theorem balanceDeferral (core : Nat) : Statement (.balanceDeferral core) := fun _ h => absurd rfl h
theorem takeDeferredTrap (core : Nat) (ctx : Nat) (part : Nat) : Statement (.takeDeferredTrap core ctx part) := fun _ h => absurd rfl h
theorem doorbellWrite (queue : Nat) (ofs : Nat) (size : Nat) : Statement (.doorbellWrite queue ofs size) := fun _ h => absurd rfl h
theorem queuePortPost (src : Nat) (pno : Nat) (ofs : Nat) (size : Nat) (wr : Bool) : Statement (.queuePortPost src pno ofs size wr) := fun _ h => absurd rfl h
theorem qpostDeliver (core : Nat) (ctx : Nat) (st : Nat) : Statement (.qpostDeliver core ctx st) := fun _ h => absurd rfl h
theorem takePacket (queue : Nat) : Statement (.takePacket queue) := fun _ h => absurd rfl h
theorem packetComplete (queue : Nat) : Statement (.packetComplete queue) := fun _ h => absurd rfl h
theorem waveStart (core : Nat) (w : Nat) (slot : Nat) : Statement (.waveStart core w slot) := fun _ h => absurd rfl h
theorem waveDelivery (core : Nat) (w : Nat) (n : Nat) : Statement (.waveDelivery core w n) := fun _ h => absurd rfl h
theorem creditReturn (core : Nat) (w : Nat) (back : Option RemoteBack) : Statement (.creditReturn core w back) := fun _ h => absurd rfl h
theorem creditRequest (core : Nat) (w : Nat) : Statement (.creditRequest core w) := fun _ h => absurd rfl h
theorem creditAnswer (core : Nat) (w : Nat) (n : Nat) : Statement (.creditAnswer core w n) := fun _ h => absurd rfl h
theorem batchAccept (n : Nat) (remote : Option RemoteBatch) : Statement (.batchAccept n remote) := fun _ h => absurd rfl h
theorem waveRunaway (core : Nat) (w : Nat) (n : Nat) : Statement (.waveRunaway core w n) := fun _ h => absurd rfl h
theorem batchRefused (n : Nat) (reason : Nat) : Statement (.batchRefused n reason) := fun _ h => absurd rfl h
theorem batchReclaimRemap (core : Nat) (w : Nat) (dst : Nat) (last : Nat) : Statement (.batchReclaimRemap core w dst last) := fun _ h => absurd rfl h
theorem batchReclaimTimeout (core : Nat) (w : Nat) (dst : Nat) : Statement (.batchReclaimTimeout core w dst) := fun _ h => absurd rfl h
theorem droopTrip (stack : Nat) : Statement (.droopTrip stack) := fun _ h => absurd rfl h
theorem droopHoldEnd (stack : Nat) : Statement (.droopHoldEnd stack) := fun _ h => absurd rfl h
theorem thermalDuty (stack : Nat) (temp : BitVec 8) : Statement (.thermalDuty stack temp) := fun _ h => absurd rfl h
theorem refreshPause (stack : Nat) : Statement (.refreshPause stack) := fun _ h => absurd rfl h
theorem interfaceRetry (agent : Agent) (n : Nat) (fails : Nat) : Statement (.interfaceRetry agent n fails) := fun _ h => absurd rfl h
theorem mcdefRead (core : Nat) (ctx : Nat) : Statement (.mcdefRead core ctx) := fun _ h => absurd rfl h
theorem handleOpComplete (core : Nat) (ctx : Nat) (id : Nat) : Statement (.handleOpComplete core ctx id) := fun _ h => absurd rfl h
theorem fabricSend (core : Nat) (ctx : Nat) : Statement (.fabricSend core ctx) := fun _ h => absurd rfl h
theorem fabricTargetPerform (src : Nat) (desig : BitVec 64) (u : BitVec 32) (req : PeerReq) : Statement (.fabricTargetPerform src desig u req) := fun _ h => absurd rfl h
theorem fabricReply (id : Nat) (lane : Nat) (ans : PeerAns) : Statement (.fabricReply id lane ans) := fun _ h => absurd rfl h
theorem raddCombine (a : Nat) (b : Nat) : Statement (.raddCombine a b) := fun _ h => absurd rfl h
theorem mcastAckRecord (id : Nat) (n : Nat) : Statement (.mcastAckRecord id n) := fun _ h => absurd rfl h
theorem flitReplay (port : Nat) : Statement (.flitReplay port) := fun _ h => absurd rfl h
theorem portRetrain (port : Nat) (lanes : BitVec 16) : Statement (.portRetrain port lanes) := fun _ h => absurd rfl h
theorem laneSetChange (port : Nat) (lanes : BitVec 16) : Statement (.laneSetChange port lanes) := fun _ h => absurd rfl h
theorem planeRemap (plane : Nat) : Statement (.planeRemap plane) := fun _ h => absurd rfl h
theorem planeRestore (plane : Nat) : Statement (.planeRestore plane) := fun _ h => absurd rfl h
theorem switchDiscard (id : Nat) (lane : Nat) : Statement (.switchDiscard id lane) := fun _ h => absurd rfl h
theorem requestLost (id : Nat) (lane : Nat) : Statement (.requestLost id lane) := fun _ h => absurd rfl h
theorem hostLinkDown (link : Nat) : Statement (.hostLinkDown link) := fun _ h => absurd rfl h
theorem completionTimeout (agent : Agent) (n : Nat) : Statement (.completionTimeout agent n) := fun _ h => absurd rfl h
theorem pform  : Statement (.pform) := fun _ h => absurd rfl h
theorem pdissolve  : Statement (.pdissolve) := fun _ h => absurd rfl h
theorem pswapout  : Statement (.pswapout) := fun _ h => absurd rfl h
theorem swapoutSave (pno : Nat) : Statement (.swapoutSave pno) := fun _ h => absurd rfl h
theorem pswapin  : Statement (.pswapin) := fun _ h => absurd rfl h
theorem coreset  : Statement (.coreset) := fun _ h => absurd rfl h
theorem cksave  : Statement (.cksave) := fun _ h => absurd rfl h
theorem ckload  : Statement (.ckload) := fun _ h => absurd rfl h
theorem attest  : Statement (.attest) := fun _ h => absurd rfl h
theorem fwload  : Statement (.fwload) := fun _ h => absurd rfl h
theorem apset  : Statement (.apset) := fun _ h => absurd rfl h
theorem apertureAccess (ofs : Nat) (size : Nat) (wr : Option (List (BitVec 8))) : Statement (.apertureAccess ofs size wr) := fun _ h => absurd rfl h
theorem bar0Write (ofs : Nat) (size : Nat) (v : BitVec 64) : Statement (.bar0Write ofs size v) := fun _ h => absurd rfl h
theorem resetBoot  : Statement (.resetBoot) := fun _ h => absurd rfl h
theorem powerD3hot  : Statement (.powerD3hot) := fun _ h => absurd rfl h
theorem powerRemoved  : Statement (.powerRemoved) := fun _ h => absurd rfl h
theorem pieceMove (piece : Nat) (stack : Nat) : Statement (.pieceMove piece stack) := fun _ h => absurd rfl h
theorem hostStore (adr : Nat) (bytes : List (BitVec 8)) : Statement (.hostStore adr bytes) := fun _ h => absurd rfl h
theorem hostLinkUp (link : Nat) : Statement (.hostLinkUp link) := fun _ h => absurd rfl h
theorem powerD0  : Statement (.powerD0) := fun _ h => absurd rfl h
theorem batchAcknowledge (core : Nat) (w : Nat) (dst : Nat) (last : Nat) : Statement (.batchAcknowledge core w dst last) := fun _ h => absurd rfl h

end Sys2Proof.Laws.RoundTrip
end

