-- ==== Sys2Proof/Tests/Slice0.lean ====
section
/-! SUPPORT. Tests: words written out from the spec's formats and what they decode to, ill-formed terms that the check
refuses, states that meet the statements' hypotheses, and single steps with results worked out from the spec. -/

namespace Sys2Proof.Tests

set_option Elab.async false

open Sys2Proof Sys2Proof.Machine

/-! ## Words from the formats of R91-R101 and the entries' field tables -/

/-- Words of the integer family and what they stand for. -/
def integerWordsA : List (List Word64 × Instr) :=
  [([0x0000000000000000#64], .nop),
   ([0x006428300001B000#64], .mov .w64 10#8 12#8 .rev 3#3),
   ([0x00C4181014009802#64], .add .z32 .wide 6#8 4#8 (.bfly 4) 5#8 1#3),
   ([0x0110181014002281#64], .sub .s16 .sat 6#8 4#8 (.rot 5#3) 5#8 0#3),
   ([0x015C040840000000#64, 0xDFFFFFFFFFFFFFFF#64], .addi .z8 .wrap 1#8 2#8 (.lit 0x1FFFFFFFFFFFFFFF#62) 0#3),
   ([0x0188181020000000#64], .mul .s64 6#8 4#8 .none 8#8 0#3),
   ([0x01CC181020000000#64], .mulh .z64 6#8 4#8 .none 8#8 0#3),
   ([0x02041810141FCF80#64], .mad .z32 6#8 4#8 (.bc 31#5) 5#8 7#8 7#3),
   ([0x028C181020140009#64], .irem .z64 6#8 4#8 .none 8#8 5#3 9#4 0#3),
   ([0x02E0181014000000#64], .and .w32 6#8 4#8 .none 5#8 0#3),
   ([0x0324181020000000#64], .or .w64 6#8 4#8 .none 8#8 0#3),
   ([0x0360181014000000#64], .xor .w32 6#8 4#8 .none 5#8 0#3),
   ([0x03A4181103FFFFFE#64], .logi .landn .w64 6#8 4#8 (.short 0xFFFFFE#24) 2#3),
   ([0x03E0181014000000#64], .shl .w32 6#8 4#8 .none 5#8 0#3)]

def integerWordsB : List (List Word64 × Instr) :=
  [([0x0424181014000000#64], .shr .w64 6#8 4#8 .none 5#8 0#3),
   ([0x0448181014000000#64], .sar .s64 6#8 4#8 .none 5#8 0#3),
   ([0x04A0181014000000#64], .rot .w32 6#8 4#8 .none 5#8 0#3),
   ([0x04C818100200003F#64], .shi .a .s64 6#8 4#8 63#24 0#3),
   ([0x0524181000000000#64], .clz .w64 6#8 4#8 .none 0#3),
   ([0x0560181000000000#64], .popc .w32 6#8 4#8 .none 0#3),
   ([0x05A0181000000000#64], .brev .w32 6#8 4#8 .none 0#3),
   ([0x05D8181014000000#64], .min .s8 6#8 4#8 .none 5#8 0#3),
   ([0x0614181014000000#64], .max .z16 6#8 4#8 .none 5#8 0#3),
   ([0x0640181000000001#64], .abs .s32 true 6#8 4#8 .none 0#3),
   ([0x06A4181020108000#64], .sel .w64 6#8 4#8 .none 8#8 4#3 1#3),
   ([0x07040C1005000064#64], .cmpi .ge .z32 3#3 4#8 (.short 100#24) 0#3),
   ([0x0740181014000000#64], .bfe .s32 6#8 4#8 .none 5#8 0#3),
   ([0x07A01810141C0000#64], .bfi .w32 6#8 4#8 .none 5#8 7#8 0#3)]

def integerWordsC : List (List Word64 × Instr) :=
  [([0x080018000001000A#64], .ids .partition 6#8 2#3),
   ([0x08400C1000000004#64], .mlog .lnot 3#3 4#3 0#3 0#3),
   ([0x08400C1014000003#64], .mlog .landn 3#3 4#3 5#3 0#3),
   ([0x0880181000000000#64], .mpop 6#8 4#3 0#3),
   ([0x08C0181000000000#64], .mfirst 6#8 4#3 0#3),
   ([0x09000C0001000020#64], .mset .first 3#3 32#24 0#3),
   ([0x0140101000000080#64], .addi .s32 .wrap 0x04#8 0x04#8 (.short 0x000080#24) 0x0#3),
   ([0x008C500040000000#64, 0xC00000123456789A#64], .movi .z64 0x14#8 (.lit 0x000000123456789a#62) 0x0#3),
   ([0x0240181014080003#64], .idiv .s32 0x06#8 0x04#8 .none 0x05#8 0x2#3 0x3#4 0x0#3),
   ([0x06C00C1014000002#64], .cmp .lt .s32 0x3#3 0x04#8 .none 0x05#8 0x0#3),
   ([0x07C028C1C0502010#64], .lea .w32 0x0a#8 { hnd := 0x3#4, ofs := some 0x07#8, disp := 0x010#12 } 0x1#4 0x2#3 0x0#3)]

def integerWords : List (List Word64 × Instr) := integerWordsA ++ integerWordsB ++ integerWordsC

theorem test_decode_integer : ∀ p ∈ integerWords, decodeWords p.1 = .ok p.2 := by decide +kernel

/-- Words of the control family and what they stand for. -/
def controlWords : List (List Word64 × Instr) :=
  [([0x0C04080100000003#64], .br .f 2#3 .taken 3#32),
   ([0x0C480C02FFFFFFFF#64], .brm .none 3#3 .notTaken 0xFFFFFFFF#32),
   ([0x0CC0A0A800000000#64], .calli 40#8 42#8 0#3),
   ([0x0D0000A000008000#64], .ret 40#8 1#3),
   ([0x0D4000A800000000#64], .jmpi 42#8 0#3),
   ([0x0D80000000000000#64], .regang),
   ([0x0DC0000000020000#64], .exit 4#3),
   ([0x0E00000000000082#64], .waittok 0x41#7),
   ([0x0C000000FFFFFFF9#64], .br .t 0x0#3 .none 0xfffffff9#32),
   ([0x0C80A00000000018#64], .call 0x28#8 .none 0x00000018#32),
   ([0x0E00000000000002#64], .waittok 0x01#7)]

theorem test_decode_control : ∀ p ∈ controlWords, decodeWords p.1 = .ok p.2 := by decide +kernel

/-- Words of the lanes family and what they stand for. -/
def lanesWordsA : List (List Word64 × Instr) :=
  [([0x1064181024000002#64], .bcast .idx .w64 6#8 4#8 9#8 0#3),
   ([0x10FC18100000000F#64], .scan .xorW64 6#8 4#8 15#4 0#3),
   ([0x11000C1000000003#64], .vote .maj false 3#3 4#8 0#3),
   ([0x11240CA000000006#64], .vote .allSame true 3#3 40#8 0#3),
   ([0x1140181000000001#64], .ballot .rank 6#8 4#3 0#3),
   ([0x11C01810141C0001#64], .dot8 .s4 true 6#8 4#8 .none 5#8 7#8 0#3 0#3),
   ([0x122C1810141C000B#64], .pack .z4 true 6#8 4#8 .none 5#8 7#8 3#2 0#3),
   ([0x1268181000000007#64], .unpack .s4 6#8 4#8 .none 7#3 0#3),
   ([0x12A4181020000001#64], .clmul .w64 true 6#8 4#8 .none 8#8 0#3),
   ([0x12E01810141C0000#64], .byteperm 6#8 4#8 .none 5#8 7#8 0#3),
   ([0x1320181000140001#64], .rebal .spread .w32 6#8 4#8 5#3 0#3),
   ([0x1340181000000000#64], .shapeGet 6#8 4#8 0#3),
   ([0x1364181000000001#64], .shapeFit .w64 6#8 4#8 0#3),
   ([0x1020243480000003#64], .shfl .xor .w32 0x09#8 0x0d#8 0x20#8 0x0#3)]

def lanesWordsB : List (List Word64 × Instr) :=
  [([0x1080A0A400000002#64], .reduce .addW32 0x28#8 0x29#8 0x2#4 0x0#3),
   ([0x1190C8CCD0D40000#64], .dot4 .e4m3 false 0x32#8 0x33#8 .none 0x34#8 0x35#8 0x0#3 0x0#3),
   ([0x12A038282C000000#64], .clmul .w32 false 0x0e#8 0x0a#8 .none 0x0b#8 0x0#3),
   ([0x1384A00004000064#64], .iota .z32 0x28#8 0x000064#24 0x04#6 0x0#3)]

def lanesWords : List (List Word64 × Instr) := lanesWordsA ++ lanesWordsB

theorem test_decode_lanes : ∀ p ∈ lanesWords, decodeWords p.1 = .ok p.2 := by decide +kernel

/-- Words of the float family and what they stand for. -/
def floatWordsA : List (List Word64 × Instr) :=
  [([0x1844181020000000#64], .fsub .f64 6#8 4#8 .none 8#8 0#3),
   ([0x18A0181014000000#64], .fmul .e2m1 6#8 4#8 .none 5#8 0#3),
   ([0x1908181014000000#64], .fmin .f16 6#8 4#8 .none 5#8 0#3),
   ([0x194C181014000000#64], .fmax .bf16 6#8 4#8 .none 5#8 0#3),
   ([0x1B80181014000000#64], .fscale .f32 6#8 4#8 .none 5#8 0#3),
   ([0x1BC4181000000001#64], .frexp .exp .f64 6#8 4#8 .none 0#3),
   ([0x19D0181000000000#64], .fclass .e4m3 6#8 4#8 .none 0#3),
   ([0x1A44181000000001#64], .frsq .f64 6#8 4#8 .none 1#4 0#3),
   ([0x1A88181000000002#64], .fexp2 .f16 6#8 4#8 .none 2#4 0#3),
   ([0x1ACC181000000000#64], .flog2 .bf16 6#8 4#8 .none 0#4 0#3),
   ([0x1B00181000003000#64], .fsin .f32 6#8 4#8 .rev 0#4 0#3),
   ([0x1B40181000030000#64], .fcos .f32 6#8 4#8 .none 0#4 6#3),
   ([0x1C481810000C0003#64], .fcvti .z64 .f16 6#8 4#8 .none .ru 0#3),
   ([0x1C84181000000006#64], .icvtf .f64 .s8 6#8 4#8 .none 0#3)]

def floatWordsB : List (List Word64 × Instr) :=
  [([0x1EC0181000000002#64], .fround .f32 6#8 4#8 .none .rz 0#3),
   ([0x1CFC1810141C0052#64], .fpack .slot false 6#8 4#8 5#8 7#8 2#2 5#3 0#3),
   ([0x1D20181000000007#64], .funpack .e2m1 6#8 4#8 .none 7#3 0#3),
   ([0x1D44181000000004#64], .freduce .f64 6#8 4#8 4#4 0#3),
   ([0x1D841C1000000004#64], .kget .tag .f64 7#8 4#8 .none 0#3),
   ([0x1DC0181014000000#64], .kset .f32 6#8 4#8 .none 5#8 0#3),
   ([0x1E08181014000000#64], .kmin .f16 6#8 4#8 .none 5#8 0#3),
   ([0x1E400C1000000002#64], .sticky .mask .f32 3#8 4#8 .none 0#3),
   ([0x1E8C3850FFFFFFFE#64], .bsig .allD 14#8 20#6 .none 0xFFFFFFFE#32),
   ([0x1800282024004000#64], .fadd .f32 0x0a#8 0x08#8 (.bc 0x00#5) 0x09#8 0x0#3),
   ([0x18C0302024280000#64], .ffma .f32 0x0c#8 0x08#8 .none 0x09#8 0x0a#8 0x0#3),
   ([0x19800C101400000A#64], .fcmp .lt true .f32 0x3#3 0x04#8 .none 0x05#8 0x0#3),
   ([0x1A00505400000002#64], .frcp .f32 0x14#8 0x15#8 .none 0x2#4 0x0#3),
   ([0x1C0C787C00000000#64], .fcvt .bf16 .f32 0x1e#8 0x1f#8 .none 0x0#3)]

def floatWordsC : List (List Word64 × Instr) :=
  [([0x1CD0A0A4A8AC0001#64], .fpack .e4m3 false 0x28#8 0x29#8 0x2a#8 0x2b#8 0x1#2 0x0#3 0x0#3),
   ([0x1E80342000000005#64], .bsig .any 0x0d#8 0x08#6 .none 0x00000005#32)]

def floatWords : List (List Word64 × Instr) := floatWordsA ++ floatWordsB ++ floatWordsC

theorem test_decode_float : ∀ p ∈ floatWords, decodeWords p.1 = .ok p.2 := by decide +kernel

/-- Words of the pair family and what they stand for. -/
def pairWords : List (List Word64 × Instr) :=
  [([0x430A143144102870#64], .pairWord ⟨.subS32, 5#7, 5#7, 6#7, 1#3⟩ ⟨.fmulF32, 4#7, 5#7, 7#7, 0#3⟩),
   ([0x6014204804304040#64], .pairWord { op := .faddF32, d := 0x0a#7, a := 0x08#7, b := 0x09#7, msk := 0x0#3 } { op := .addS32, d := 0x0c#7, a := 0x08#7, b := 0x04#7, msk := 0x0#3 })]

theorem test_decode_pair : ∀ p ∈ pairWords, decodeWords p.1 = .ok p.2 := by decide +kernel

/-- Words of the memory family and what they stand for. -/
def memoryWordsA : List (List Word64 × Instr) :=
  [([0x248018410C8A3001#64], .ldt .w64 6#8 ⟨1#4, (some 4#8), 1#12⟩ 3#4 2#4 1#3 2#3),
   ([0x24E01BC000002000#64], .stt .w32 6#8 ⟨15#4, none, 0#12⟩ 0#4 0#3 0#3),
   ([0x255418410000DFFE#64], .sts .f64 .dyn 6#8 1#4 4#8 0xFFE#12 0#4 0#3 0#3),
   ([0x25A0188000008002#64], .ldb .z16 6#8 2#4 2#12 0#4 0#4 0#3 0#3),
   ([0x25DC188100384000#64], .tmov .w128 7#3 6#8 ⟨2#4, (some 4#8), 0#12⟩ 0#4 7#3 0#3),
   ([0x261C208100003000#64], .atom .cas .w64 8#8 ⟨2#4, (some 4#8), 0#12⟩ 0#4 0#3 0#3),
   ([0x266420800400E000#64], .atomr .min .f32 8#8 ⟨2#4, none, 0#12⟩ 1#4 0#4 0#3 0#3),
   ([0x2680000001000FFF#64], .acq .sh 4095#12 0#3),
   ([0x26C0080000000011#64], .rel 17#12 2#3),
   ([0x2700000002000000#64], .fence .all 0#16),
   ([0x27E40C4000004002#64], .cbdef 3#4 1#4 2#12 1#3 4#4),
   ([0x2800181000000000#64], .hdescAttr 6#8 4#8),
   ([0x2804181000000000#64], .hdescBind 6#8 4#8),
   ([0x2808181000000000#64], .hdescLoc 6#8 4#8)]

def memoryWordsB : List (List Word64 × Instr) :=
  [([0x2810183C00000000#64], .hdescGeta 6#8 15#4),
   ([0x276018C000500000#64], .cbpushRes 6#8 3#4 1#4 2#3),
   ([0x276418C010100000#64], .cbpushCommit 6#8 3#4 4#4 2#3),
   ([0x27A018C000500000#64], .cbpopTake 6#8 3#4 1#4 2#3),
   ([0x27A418C010100000#64], .cbpopFree 6#8 3#4 4#4 2#3),
   ([0x27A81BC000000000#64], .cbpopStat 6#8 15#4),
   ([0x2400204104082000#64], .ld .w32 0x08#8 { hnd := 0x1#4, ofs := some 0x04#8, disp := 0x000#12 } 0x1#4 0x0#4 0x1#3 0x0#3),
   ([0x250030C244502000#64], .ldg .w32 0x0c#8 0x3#4 0x09#8 0x000#12 0x1#4 0x1#4 0x2#3 0x0#3),
   ([0x246078800800A020#64], .st .bf16 .rne 0x1e#8 { hnd := 0x2#4, ofs := none, disp := 0x020#12 } 0x2#4 0x0#3 0x0#3),
   ([0x2640510180982000#64], .atomr .add .w32 0x14#8 { hnd := 0x4#4, ofs := some 0x06#8, disp := 0x000#12 } 0x0#4 0x2#4 0x3#3 0x0#3),
   ([0x2680040000000011#64], .acq .x 0x011#12 0x1#3),
   ([0x2700000000000006#64], .fence .s 0x0006#16),
   ([0x280C14A000000000#64], .hdescSeta 0x5#4 0x28#8),
   ([0x2440100780004000#64], .st .w128 .rne 0x04#8 { hnd := 0x0#4, ofs := some 0x1e#8, disp := 0x000#12 } 0x0#4 0x0#3 0x0#3)]

def memoryWordsC : List (List Word64 × Instr) :=
  [([0x2400500780004000#64], .ld .w128 0x14#8 { hnd := 0x0#4, ofs := some 0x1e#8, disp := 0x000#12 } 0x0#4 0x0#4 0x0#3 0x0#3)]

def memoryWords : List (List Word64 × Instr) := memoryWordsA ++ memoryWordsB ++ memoryWordsC

theorem test_decode_memory : ∀ p ∈ memoryWords, decodeWords p.1 = .ok p.2 := by decide +kernel

/-- Words of the engines family and what they stand for. -/
def enginesWordsA : List (List Word64 × Instr) :=
  [([0x2C40800000381002#64], .orel 4#5 2#6 0x81#8 3#3),
   ([0x2CC0A00000142020#64], .omap 5#5 .m 16#9 32#9 1#3),
   ([0x2D4400000020F000#64], .aclr .i 0x0F#8 2#3),
   ([0x2DC000640001080C#64], .awrite 3#3 4#6 1#3 8#6 3#6 0#3),
   ([0x2E40000000000000#64], .mwakeNow),
   ([0x2E4400000000FFFF#64], .mwakeIdle 65535#16),
   ([0x2E88000000006000#64], .mstat .fault 6#8),
   ([0x30402272C8612001#64], .xcopym true 4#6 1#10 1#5 2#5 3#3 4#3 5#3 2#2 1#2 6#3),
   ([0x3084000001A06100#64], .xseqIssued .mx 6#8 3#4 2#3),
   ([0x3088000000006F00#64], .xseqLine 15#4 6#8 0#4 0#3),
   ([0x308C000000806000#64], .xseqFault 6#8 1#4 0#3),
   ([0x31040000000B5000#64], .evrouteClr 11#4 5#4),
   ([0x310C0000000A0000#64], .evrouteOpen 10#4),
   ([0x3144000000090000#64], .evwaitSync 9#4)]

def enginesWordsB : List (List Word64 × Instr) :=
  [([0x3000010C0021240F#64], .xcopy .cb false true 0x00#5 0x04#6 0x00f#10 0x3#3 0x1#4 0x2#3),
   ([0x3080000000828000#64], .xseqDone .copy 0x28#8 0x1#4 0x0#3),
   ([0x30C0000000028000#64], .xwait .copy 0x28#8),
   ([0x3100000000005000#64], .evrouteSet 0x0#4 0x5#4),
   ([0x3108000000015000#64], .evrouteGate 0x1#4 0x5#4),
   ([0x3140000000050000#64], .evwait 0x5#4),
   ([0x3180000000070100#64], .evfire 0x7#4 0x01#8),
   ([0x2C00000000201003#64], .oclaim 0x00#5 0x03#6 0x01#8 0x2#3),
   ([0x2C8000000011807F#64], .oload 0x06#6 0x00#5 0x7f#7 0x1#3),
   ([0x2D000104A8000000#64], .mma 0x0#3 0x00#5 0x01#5 0x1#3 0x1#3 0x1#2 0x1#2 false 0x0#3),
   ([0x2D800008003280FC#64], .aread 0x0#3 0x0a#6 0x2#3 0x00#6 0x3f#6 0x3#3),
   ([0x2E0000000002403F#64], .astat 0x24#8 0x0#3 0x00#6 0x3f#6 0x0#4 0x0#3)]

def enginesWords : List (List Word64 × Instr) := enginesWordsA ++ enginesWordsB

theorem test_decode_engines : ∀ p ∈ enginesWords, decodeWords p.1 = .ok p.2 := by decide +kernel

/-- Words of the stacks family and what they stand for. -/
def stacksWords : List (List Word64 × Instr) :=
  [([0x3240000800317FFF#64], .sxbulkCopy 5#6 16383#14 2#4 3#3),
   ([0x3249C00000014001#64], .sxbulkCmp 5#6 1#14 7#4 0#4 0#3),
   ([0x3288000000808300#64], .sxseqStack 8#8 3#4 0#8 1#4 0#3),
   ([0x328C000000008806#64], .sxseqFault 8#8 8#4 6#8 0#4 0#3),
   ([0x320048C410018040#64], .sxred .sum .bf16 0x1#4 0x2#4 0x06#6 0x01#8 0x1#4 0x0#3 0x2#3),
   ([0x3244000400014000#64], .sxbulkFill 0x05#6 0x0000#14 0x1#4 0x0#3),
   ([0x3284000000008806#64], .sxseqIssued 0x08#8 0x8#4 0x06#8 0x0#4 0x0#3),
   ([0x328000000000E806#64], .sxseqDone 0x0e#8 0x8#4 0x06#8 0x0#4 0x0#3),
   ([0x32C0000000008806#64], .sxwait 0x08#8 0x8#4 0x06#8)]

theorem test_decode_stacks : ∀ p ∈ stacksWords, decodeWords p.1 = .ok p.2 := by decide +kernel

/-- Words of the waves family and what they stand for. -/
def wavesWords : List (List Word64 × Instr) :=
  [([0x3444300503C0100A#64], .mkset .vec false true false 3#6 0#6 20#8 15#4 .part 2#3),
   ([0x3500124310FFC001#64], .mkpropv .minplus false false 1#6 9#6 12#8 255#8 3#4 .cluster 0#3),
   ([0x35800FC000400004#64], .mkcount false true 63#6 1#4 .core 0#3),
   ([0x364C188040513000#64], .ndrd .mv 3#2 6#8 ⟨2#4, (some 1#8), 0#12⟩ 1#4 2#3 1#3),
   ([0x3644188040000000#64], .ndrd .attr 0#2 6#8 ⟨2#4, (some 1#8), 0#12⟩ 0#4 0#3 0#3),
   ([0x36C0188040000000#64], .edrd .edge 6#8 ⟨2#4, (some 1#8), 0#12⟩ 0#4 0#3 0#3),
   ([0x37041C8040080000#64], .edwr .weight 7#8 ⟨2#4, (some 1#8), 0#12⟩ 1#3 0#3),
   ([0x3400000600000010#64], .mkmatch true false 0x00#6 0x18#8 0x0#4 .core 0x0#3),
   ([0x34C0200300800014#64], .mkprop .or true false true 0x02#6 0x00#6 0x0c#8 0x00#8 0x2#4 .core 0x0#3),
   ([0x348020C001000014#64], .mkclr .bit true false true 0x02#6 0x03#6 0x4#4 .core 0x0#3),
   ([0x3540008801400804#64], .mkcollect false false true 0x00#6 0x02#6 0x20#8 0x5#4 .core 0x1#3),
   ([0x35C0000001400000#64], .mkwait 0x5#4),
   ([0x3600000901400000#64], .mkstat 0x24#8 0x5#4),
   ([0x3680388040010000#64], .ndwr .hdr 0x0#2 0x0e#8 { hnd := 0x2#4, ofs := some 0x01#8, disp := 0x000#12 } 0x0#3 0x1#3)]

theorem test_decode_waves : ∀ p ∈ wavesWords, decodeWords p.1 = .ok p.2 := by decide +kernel

/-- Words of the fabric family and what they stand for. -/
def fabricWords : List (List Word64 × Instr) :=
  [([0x3868785024010040#64], .fstRadd 30#8 20#8 9#8 4#3 2#3),
   ([0x3948A00000000FFF#64], .fpeerStat 40#8 4095#12),
   ([0x3950A0000000000F#64], .fpeerPort 40#8 15#4),
   ([0x3808305024000012#64], .fld .w32 0x0c#8 0x14#8 0x09#8 0x2#4 0x1#3 0x0#3),
   ([0x385C785024000000#64], .fst .f32 .rne 0x1e#8 0x14#8 0x09#8 0x0#3 0x0#3),
   ([0x38A0A05024B00021#64], .fat .add .w64 0x28#8 0x14#8 0x09#8 0x2c#8 0x1#4 0x2#3 0x0#3),
   ([0x38C0000000119800#64], .fmcst 0x06#6 0x6#4 0x1#3),
   ([0x3900000000000000#64], .fwait),
   ([0x394000A000000007#64], .fpeerExport 0x007#12 0x28#8),
   ([0x3944000000000007#64], .fpeerRevoke 0x007#12),
   ([0x394C000800000009#64], .fpeerMcdef 0x009#12 0x02#8),
   ([0x38C0000000104800#64], .fmcst 0x01#6 0x2#4 0x1#3)]

theorem test_decode_fabric : ∀ p ∈ fabricWords, decodeWords p.1 = .ok p.2 := by decide +kernel

/-- Words of the scheduling family and what they stand for. -/
def schedulingWords : List (List Word64 × Instr) :=
  [([0x3B00000000000000#64], .yield),
   ([0x3B40000001000000#64], .prioRestore),
   ([0x3A00040000000004#64], .barv 0x04#8 0x1#3),
   ([0x3A40000000000004#64], .barw 0x04#8),
   ([0x3A80000000000004#64], .bars 0x04#8),
   ([0x3AC0500000000004#64], .barq 0x14#8 0x04#8),
   ([0x3B00000001000000#64], .yieldBal),
   ([0x3B40000000000005#64], .prioSet 0x5#3),
   ([0x3B800800FFFFFFFF#64], .idemBegin 0x02#8 0xffffffff#32),
   ([0x3B84000000000000#64], .idemEnd),
   ([0x3BE050C008084008#64], .qpost 0x14#8 0x3#4 0x008#12 0x2#4 0x1#3)]

theorem test_decode_scheduling : ∀ p ∈ schedulingWords, decodeWords p.1 = .ok p.2 := by decide +kernel

/-- Words of the system family and what they stand for. -/
def systemWordsA : List (List Word64 × Instr) :=
  [([0x3C00500011000000#64], .csrrd 20#8 .balstat),
   ([0x3C44005805000000#64], .csrwrSet .rndctl 22#8),
   ([0x3C48005805C00000#64], .csrwrClr .idxcnt 22#8),
   ([0x3CC0000000000000#64], .rte),
   ([0x3D40001000081000#64], .ctxsave 4#8 2#4 1#3),
   ([0x3D80181000189000#64], .ctxload 6#8 4#8 1#4 2#4 3#3),
   ([0x3DC0181000189000#64], .hnew 6#8 4#8 1#4 2#4 3#3),
   ([0x3E00181000000000#64], .hmap 6#8 4#8 0#4 0#4 0#3),
   ([0x3E40181000000000#64], .hrevoke 6#8 4#8 0#4 0#4 0#3),
   ([0x3E80181000007807#64], .hmigr 6#8 4#8 7#3 0#4 15#4 0#3),
   ([0x3EC0181000078000#64], .chkptSave 6#8 4#8 15#4 0#4 0#3),
   ([0x3EC4181000380000#64], .chkptLoad 6#8 4#8 0#4 0#4 7#3),
   ([0x3C00500005400000#64], .csrrd 0x14#8 .sigfloor),
   ([0x3C40005805400000#64], .csrwr .sigfloor 0x16#8)]

def systemWordsB : List (List Word64 × Instr) :=
  [([0x3C80000000000123#64], .trap 0x000123#22),
   ([0x3CC4000000000000#64], .rteNext),
   ([0x3D00000000000081#64], .halt 0x81#8),
   ([0x3E80007800100005#64], .hmigr 0x00#8 0x1e#8 0x5#3 0x0#4 0x0#4 0x2#3)]

def systemWords : List (List Word64 × Instr) := systemWordsA ++ systemWordsB

theorem test_decode_system : ∀ p ∈ systemWords, decodeWords p.1 = .ok p.2 := by decide +kernel
/-! ## Words that decode to no instruction -/

/-- R91, R451: the first major opcode of a gap, kind 3 alone, a set bit outside the fields, a reserved type code. -/
theorem test_decode_reserved : ([[0x3FC0000000000000#64], [0xC000000000000000#64], [0x0000000000000001#64], [0x00E0000000000000#64]] :
    List (List Word64)).all (fun ws => match decodeWords ws with | .ok _ => false | .error _ => true) = true := by
  decide +kernel

/-! ## Terms that the encodings do not admit, one for each check -/

def illTypedA : List Instr :=
  [.mov .s32 6#8 4#8 .none 0#3, .movi .s16 6#8 (.short 1#24) 0#3, .add .w32 .wrap 6#8 4#8 .none 5#8 0#3,
   .add .s64 .wide 6#8 4#8 .none 8#8 0#3, .sub .w32 .wrap 6#8 4#8 .none 5#8 0#3, .sub .z16 .wide 6#8 4#8 .none 5#8 0#3,
   .addi .w64 .wrap 6#8 4#8 (.short 1#24) 0#3, .addi .s8 .wide 6#8 4#8 (.short 1#24) 0#3, .mul .s16 6#8 4#8 .none 5#8 0#3,
   .mulh .w32 6#8 4#8 .none 5#8 0#3, .mad .s8 6#8 4#8 .none 5#8 7#8 0#3, .idiv .z16 6#8 4#8 .none 5#8 0#3 0#4 0#3,
   .irem .w32 6#8 4#8 .none 5#8 0#3 0#4 0#3, .and .s32 6#8 4#8 .none 5#8 0#3, .or .z32 6#8 4#8 .none 5#8 0#3]
def illTypedB : List Instr :=
  [.xor .s64 6#8 4#8 .none 8#8 0#3, .logi .land .s32 6#8 4#8 (.short 1#24) 0#3, .shl .s32 6#8 4#8 .none 5#8 0#3,
   .shr .z32 6#8 4#8 .none 5#8 0#3, .sar .w32 6#8 4#8 .none 5#8 0#3, .rot .s32 6#8 4#8 .none 5#8 0#3, .clz .s32 6#8 4#8 .none 0#3,
   .popc .z64 6#8 4#8 .none 0#3, .brev .s8 6#8 4#8 .none 0#3, .min .w32 6#8 4#8 .none 5#8 0#3, .max .w64 6#8 4#8 .none 8#8 0#3,
   .abs .z32 false 6#8 4#8 .none 0#3, .sel .s32 6#8 4#8 .none 5#8 1#3 0#3, .cmp .eq .w32 1#3 4#8 .none 5#8 0#3,
   .cmpi .eq .w32 1#3 4#8 (.short 1#24) 0#3]
def illTypedC : List Instr :=
  [.bfe .w32 6#8 4#8 .none 5#8 0#3, .bfi .s32 6#8 4#8 .none 5#8 7#8 0#3, .shi .l .z32 6#8 4#8 1#24 0#3,
   .lea .s16 6#8 ⟨1#4, none, 0#12⟩ 0#4 0#3 0#3, .iota .s64 6#8 0#24 0#6 0#3, .frcp .e4m3 6#8 4#8 .none 0#4 0#3,
   .frsq .e5m2 6#8 4#8 .none 0#4 0#3, .fexp2 .f64 6#8 4#8 .none 0#4 0#3, .flog2 .f64 6#8 4#8 .none 0#4 0#3,
   .fsin .f64 6#8 4#8 .none 0#4 0#3, .fcos .e2m1 6#8 4#8 .none 0#4 0#3, .fcvti .w32 .f32 6#8 4#8 .none .rne 0#3,
   .icvtf .f32 .w64 6#8 4#8 .none 0#3, .funpack .f32 6#8 4#8 .none 0#3 0#3, .freduce .e4m3 6#8 4#8 0#4 0#3]
def illTypedD : List Instr :=
  [.tmov .s8 0#3 6#8 ⟨1#4, none, 0#12⟩ 0#4 0#3 0#3, .st .s16 .rne 6#8 ⟨1#4, none, 0#12⟩ 0#4 0#3 0#3,
   .sts .z8 .rne 6#8 1#4 4#8 0#12 0#4 0#3 0#3, .ldt .w8 6#8 ⟨1#4, none, 0#12⟩ 0#4 0#4 0#3 0#3, .stt .w128 6#8 ⟨1#4, none, 0#12⟩ 0#4 0#3 0#3,
   .atom .add .w8 6#8 ⟨1#4, none, 0#12⟩ 0#4 0#3 0#3, .atomr .add .f16 6#8 ⟨1#4, none, 0#12⟩ 0#4 0#4 0#3 0#3,
   .fst .s8 .rne 6#8 8#8 9#8 0#3 0#3, .mkprop .max false true false 0#6 0#6 0#8 0#8 0#4 .core 0#3,
   .mkpropv .or true false 0#6 0#6 0#8 1#8 0#4 .core 0#3]

theorem test_ill_typed : ∀ l ∈ [illTypedA, illTypedB, illTypedC, illTypedD], l.all (fun i => !i.wf) = true := by decide +kernel

def illBoundedA : List Instr :=
  [.shi .l .w32 6#8 4#8 32#24 0#3, .shi .a .w32 6#8 4#8 1#24 0#3, .shi .r .s32 6#8 4#8 1#24 0#3, .cmp .eq .s32 0#3 4#8 .none 5#8 0#3,
   .cmpi .eq .s32 0#3 4#8 (.short 1#24) 0#3, .mlog .land 0#3 1#3 2#3 0#3, .mlog .lnot 1#3 1#3 2#3 0#3, .mlog .mov 1#3 1#3 2#3 0#3,
   .mset .pat 0#3 1#24 0#3, .mset .first 1#3 33#24 0#3, .bcast .first .w32 6#8 4#8 5#8 0#3, .vote .any false 0#3 1#8 0#3,
   .vote .any true 1#3 1#8 0#3, .vote .odd false 1#3 8#8 0#3, .dot4 .e4m3 true 6#8 4#8 .none 5#8 7#8 0#3 0#3]
def illBoundedB : List Instr :=
  [.dot4 .s8 false 6#8 4#8 .none 5#8 7#8 1#3 0#3, .dot8 .e2m1 true 6#8 4#8 .none 5#8 7#8 0#3 0#3,
   .dot8 .z4 false 6#8 4#8 .none 5#8 7#8 7#3 0#3, .pack .s16 false 6#8 4#8 .none 5#8 0#8 1#2 0#3,
   .pack .z16 false 6#8 4#8 .none 5#8 7#8 0#2 0#3, .pack .s8 false 6#8 4#8 .none 5#8 7#8 2#2 0#3, .unpack .s8 6#8 4#8 .none 4#3 0#3,
   .clmul .w32 true 6#8 4#8 .none 5#8 0#3, .fcmp .eq false .f32 0#3 4#8 .none 5#8 0#3, .fpack .slot true 6#8 4#8 5#8 7#8 0#2 0#3 0#3,
   .fpack .e4m3 false 6#8 4#8 5#8 7#8 2#2 0#3 0#3, .fpack .e4m3 false 6#8 4#8 5#8 7#8 0#2 1#3 0#3,
   .fpack .f16 false 6#8 4#8 5#8 7#8 0#2 0#3 0#3, .funpack .e4m3 6#8 4#8 .none 4#3 0#3, .sticky .mask .f32 0#8 4#8 .none 0#3]
def illBoundedC : List Instr :=
  [.sticky .mask .f32 8#8 4#8 .none 0#3, .pairWord ⟨.movW32, 1#7, 2#7, 3#7, 0#3⟩ ⟨.nop, 0#7, 0#7, 0#7, 0#3⟩,
   .pairWord ⟨.nop, 0#7, 0#7, 0#7, 0#3⟩ ⟨.nop, 1#7, 0#7, 0#7, 0#3⟩, .pairWord ⟨.addS32, 1#7, 2#7, 3#7, 0#3⟩ ⟨.addS32, 5#7, 2#7, 3#7, 0#3⟩,
   .pairWord ⟨.addS32, 1#7, 2#7, 3#7, 0#3⟩ ⟨.addS32, 4#7, 5#7, 6#7, 0#3⟩,
   .pairWord ⟨.mulS32, 1#7, 2#7, 3#7, 0#3⟩ ⟨.fmulF32, 4#7, 2#7, 3#7, 0#3⟩, .st .w32 .rz 6#8 ⟨1#4, none, 0#12⟩ 0#4 0#3 0#3,
   .sts .w32 .ru 6#8 1#4 4#8 0#12 0#4 0#3 0#3, .atom .cas .f32 6#8 ⟨1#4, none, 0#12⟩ 0#4 0#3 0#3,
   .atomr .land .f64 6#8 ⟨1#4, none, 0#12⟩ 0#4 0#4 0#3 0#3, .fence .s 0#16, .fence .all 1#16, .cbdef 0#4 1#4 0#12 0#3 11#4,
   .oclaim 0#5 0#6 0#8 0#3, .oclaim 30#5 3#6 0#8 0#3]
def illBoundedD : List Instr :=
  [.orel 0#5 0#6 0#8 0#3, .orel 1#5 32#6 0#8 0#3, .aclr .f 0#8 0#3, .aread 0#3 0#6 0#3 1#6 63#6 0#3, .awrite 0#3 0#6 0#3 63#6 1#6 0#3,
   .astat 6#8 0#3 32#6 32#6 0#4 0#3, .xcopy .addr false true 1#5 0#6 0#10 0#3 0#4 0#3, .xcopy .slot false false 1#5 0#6 0#10 1#3 0#4 0#3,
   .evrouteSet 12#4 0#4, .evrouteGate 11#4 0#4, .evrouteOpen 11#4, .evfire 0#4 0#8, .sxseqDone 6#8 9#4 0#8 0#4 0#3,
   .sxseqIssued 6#8 0#4 1#8 0#4 0#3, .sxseqStack 6#8 15#4 0#8 0#4 0#3]
def illBoundedE : List Instr :=
  [.sxseqFault 6#8 7#4 1#8 0#4 0#3, .sxwait 6#8 9#4 0#8, .mkset .bit false true false 0#6 1#6 0#8 0#4 .core 0#3,
   .mkset .bit true true false 0#6 0#6 0#8 0#4 .core 0#3, .mkset .vec false true false 4#6 0#6 0#8 0#4 .core 0#3,
   .mkset .bit false false false 0#6 0#6 1#8 0#4 .core 0#3, .mkclr .bit false true false 0#6 1#6 0#4 .core 0#3,
   .mkclr .bit true true false 0#6 0#6 0#4 .core 0#3, .mkclr .vec false false false 4#6 0#6 0#4 .core 0#3,
   .mkprop .or false true false 0#6 1#6 0#8 0#8 0#4 .core 0#3, .mkpropv .max true false 0#6 1#6 0#8 1#8 0#4 .core 0#3,
   .mkpropv .max false false 4#6 0#6 0#8 1#8 0#4 .core 0#3, .mkpropv .sum false false 0#6 0#6 0#8 0#8 0#4 .core 0#3,
   .mkcollect false true false 0#6 1#6 0#8 0#4 .core 0#3, .mkcollect true false false 4#6 0#6 0#8 0#4 .core 0#3]
def illBoundedF : List Instr :=
  [.mkcollect false false false 1#6 0#6 0#8 0#4 .core 0#3, .mkcount true false 1#6 0#4 .core 0#3,
   .ndrd .hdr 1#2 6#8 ⟨1#4, none, 0#12⟩ 0#4 0#3 0#3, .ndwr .mb 1#2 6#8 ⟨1#4, none, 0#12⟩ 0#3 0#3, .fst .w32 .rz 6#8 8#8 9#8 0#3 0#3,
   .fpeerExport 4095#12 6#8, .fpeerRevoke 4095#12, .idemBegin 17#8 0#32, .halt 127#8]

theorem test_ill_bounded : ∀ l ∈ [illBoundedA, illBoundedB, illBoundedC, illBoundedD, illBoundedE, illBoundedF], l.all (fun i => !i.wf) = true := by decide +kernel

/-! ## States that meet the statements' hypotheses -/

/-- The state in which the unit has fetched a word and is about to run it. -/
def before (ws : List Word64) : State :=
  let s := State.reset.withFetchWord 128 ((ws.getD 0 0#64).toNat + (ws.getD 1 0#64).toNat * 2 ^ 64)
  match (s.chosen (.unit 0 0 0)).turn 0 0 0 with
  | .run _ t => t
  | _ => s

/-- Register pairs: those at 40 and 42 hold the address of the clause, every other one offset 0 under handle 2. -/
def pairRegs : Tab VReg := (List.range 60).map fun n => (n, .uniform (if n % 2 = 0 then ⟨0#32, 0x1F#8⟩
  else ⟨if n = 41 ∨ n = 43 then 0x100#32 else 0x200#32, 0x01#8⟩))

/-- Handle 1 is the code, handle 2 four pieces of global memory with their tag plane at handle 3, handle 5 is secure, handle 6 may
only be read, handle 7 is host memory, handles 8 and 10 are device memory with PROP 2 and 1, handle 11 is a TSO host extent. -/
def someHandles : Tab Handle :=
  [(1, ⟨BitVec.ofNat 64 (2 ^ 63 + 3 * 2 ^ 52), [0], 0⟩), (2, ⟨BitVec.ofNat 64 (2 ^ 63 + 2 ^ 54 + 3 * 2 ^ 52 + 3 * 2 ^ 24 + 3), [4, 5, 6, 7], 0⟩),
   (3, ⟨BitVec.ofNat 64 (2 ^ 63 + 3 * 2 ^ 52), [8], 0⟩), (5, ⟨BitVec.ofNat 64 (2 ^ 63 + 2 ^ 55 + 3 * 2 ^ 52), [9], 0⟩),
   (6, ⟨BitVec.ofNat 64 (2 ^ 63 + 2 ^ 53), [10], 0⟩), (7, ⟨BitVec.ofNat 64 (2 ^ 63 + 2 ^ 60 + 3 * 2 ^ 52), [11], 0⟩),
   (8, ⟨BitVec.ofNat 64 (2 ^ 63 + 2 * 2 ^ 57 + 3 * 2 ^ 52), [12], 0⟩), (10, ⟨BitVec.ofNat 64 (2 ^ 63 + 2 ^ 57 + 3 * 2 ^ 52), [13], 0⟩),
   (11, ⟨BitVec.ofNat 64 (2 ^ 63 + 2 ^ 60 + 2 ^ 56 + 3 * 2 ^ 52), [14], 1⟩)]

/-- A circular buffer of four slots: one reserved, one taken. -/
def someBuffer : CBuf := ⟨mkAddr 2 0, 0, 4, 256, 2, 0, 1, 0, 1, 0, [0], [], [0], [], [], []⟩

/-- A unit of one gang of four lanes in a clause, with registers, handles, buffers, a role and groups to act on. -/
def stand : State :=
  let s := (before (encode .nop)).updGang 65536 fun g => { g with
    regs := pairRegs, hregs := (List.range 16).map fun k => (k, mkAddr 2 4096) }
  let s := s.updPart 0 fun p => { p with handles := someHandles }
  let s := s.updCore 0 fun c => { c with cbs := [(3, someBuffer), (15, someBuffer)] }
  s.updLaunch 1 fun l => { l with
    roles := [⟨mkAddr 1 0, mkAddr 1 0, 0#64, 0#64, [(mkAddr 1 0, 0#64)]⟩]
    groups := List.replicate 4 ⟨false, false, false, 0, [1#32], 0, 0, 0⟩ ++
      [⟨true, false, false, 0, [0#32], 0, 0, 0⟩, ⟨false, false, false, 0, [0#32], 0, 0, 0⟩] }

/-- That unit with this word fetched. -/
def ready (i : Instr) : State :=
  { stand with cur := { stand.cur with word := (encode i).headD 0#64, lit := (encode i).length == 2 } }

/-- A word issues at a state, and no member of its unit has a reason to trap. -/
def acts (i : Instr) (s : State) (ok : State → Seat → Bool) : Bool := issues i s && (s.seats i.maskField).all (ok s)

/-- A change of the one gang. -/
def gangWith (f : Gang → Gang) (s : State) : State := s.updGang 65536 f

/-- The state after a word or an event. -/
def after (i : Instr) (s : State) : State :=
  match exec i s with
  | .next t => t
  | _ => s

/-- The unit's handle registers all at the start of one handle. -/
def under (h : Nat) (s : State) : State := gangWith (fun g => { g with hregs := (List.range 16).map fun k => (k, mkAddr h 0) }) s

/-- The head of a stream of the one gang. -/
def headOf (s : State) (st : Nat) : Option (Gang × Entry) := (s.gang? 65536).bind fun g => (g.stream st).head?.map fun e => (g, e)

/-- The state with some words' entries in the streams, with what they reach all under one handle. -/
def entered (h : Nat) (is : List Instr) : State := is.foldl (fun s i => after i s) (under h stand)

/-! ## Witnesses: the words that compute

The premise of `Computes`, `FpComputes`, `FpOpens` and `Acts` is that the word issues, for FP words that every member's floor
lets the result pass, and for words that may trap that no member has a reason to. -/

theorem witness_IntegerReadWrite : (∃ ty : IntTy, ty = .s32 ∨ ty = .z32 ∨ ty = .w32) ∧ (∃ ty : IntTy, ty = .s64 ∨ ty = .z64 ∨ ty = .w64) ∧
    (wrTy .s32 (-2 ^ 31)).1 = ⟨0x80000000#32, 0x1F#8⟩ ∧
    wrTy .w64 (2 ^ 64 - 1) = (⟨0xFFFFFFFF#32, 0x1F#8⟩, ⟨0xFFFFFFFF#32, 0x01#8⟩) :=
  ⟨⟨.s32, .inl rfl⟩, ⟨.w64, .inr (.inr rfl)⟩, by decide, by decide⟩

/-- The seat of the one gang. -/
def seat : Seat := ⟨65536, placedGang 1, 0xF#32, 0xF#32, true⟩

theorem witness_SourceLanes : (∀ n < 3, ∀ v xs, v = seat.g.reg n → v = .general xs → xs.length = 32) ∧
    (∀ n < 3, ∀ v xs, v = ({ seat.g with regs := (List.range 3).map fun n => (n, .general (List.replicate 32 zeroImg)) } : Gang).reg n →
      v = .general xs → xs.length = 32) ∧
    ∀ l ∈ [0, 3], l < 32 ∧ inMask seat.act l = true := by
  refine ⟨fun n hn v xs hv hg => ?_, fun n hn v xs hv hg => ?_, by decide⟩
  · have h : ∀ n < 3, seat.g.reg n = .uniform zeroImg := by decide
    rw [h n hn] at hv
    rw [hv] at hg
    cases hg
  · have h : ∀ n < 3, ({ seat.g with regs := (List.range 3).map fun n => (n, VReg.general (List.replicate 32 zeroImg)) } : Gang).reg n =
        .general (List.replicate 32 zeroImg) := by decide
    rw [h n hn] at hv
    rw [hv] at hg
    cases hg
    rfl

theorem witness_Moves : ∀ i ∈ ([.nop, .mov .w64 10#8 12#8 .rev 0#3, .movi .s32 6#8 (.short 0xFFFFFF#24) 0#3,
    .sel .w32 6#8 4#8 (.bfly 4) 5#8 1#3 0#3, .ids .partition 6#8 0#3] : List Instr), issues i (ready i) = true := by decide +kernel

theorem witness_IntegerArithmetic : ∀ i ∈ ([.add .z32 .wide 6#8 4#8 (.bfly 4) 5#8 0#3, .sub .s16 .sat 6#8 4#8 .none 5#8 0#3,
    .addi .z8 .wrap 1#8 2#8 (.lit 0x1FFFFFFFFFFFFFFF#62) 0#3, .mul .s64 6#8 4#8 .none 8#8 0#3, .mulh .z64 6#8 4#8 .none 8#8 0#3,
    .mad .z32 255#8 4#8 (.bc 31#5) 5#8 7#8 7#3] : List Instr), issues i (ready i) = true := by decide +kernel

theorem witness_LogicAndShifts : ∀ i ∈ ([.and .w32 6#8 4#8 .none 5#8 0#3, .or .w64 6#8 4#8 .none 8#8 0#3, .xor .w32 6#8 4#8 .none 5#8 0#3,
    .logi .landn .w64 6#8 4#8 (.short 0xFFFFFE#24) 0#3, .shl .w32 6#8 4#8 .none 5#8 0#3, .shr .w64 6#8 4#8 .none 5#8 0#3,
    .sar .s64 254#8 4#8 .none 5#8 0#3, .rot .w32 6#8 4#8 .none 5#8 0#3, .shi .a .s64 6#8 4#8 63#24 0#3] : List Instr),
    issues i (ready i) = true := by decide +kernel

theorem witness_BitsAndFields : ∀ i ∈ ([.clz .w64 6#8 4#8 .none 0#3, .popc .w32 6#8 4#8 .none 0#3, .brev .w32 6#8 4#8 .none 0#3,
    .min .s8 6#8 4#8 .none 5#8 0#3, .max .z16 6#8 4#8 .none 5#8 0#3, .abs .s32 true 6#8 4#8 .none 0#3, .bfe .s32 6#8 4#8 .none 5#8 0#3,
    .bfi .w32 6#8 4#8 .none 5#8 7#8 0#3] : List Instr), issues i (ready i) = true := by decide +kernel

theorem witness_Masks : ∀ i ∈ ([.cmp .lt .s32 3#3 4#8 .none 5#8 0#3, .cmpi .ge .z32 3#3 4#8 (.short 100#24) 0#3,
    .mlog .lnot 3#3 4#3 0#3 0#3, .mset .first 7#3 32#24 0#3, .mpop 6#8 4#3 0#3, .mfirst 6#8 4#3 0#3] : List Instr),
    issues i (ready i) = true := by decide +kernel

/-- A word that issues with all live lanes active. -/
def fullWrite (i : Instr) (s : State) : Bool :=
  issues i s && (s.seats i.maskField).any fun x => lanes32.all fun l => !inMask x.g.live l || inMask x.act l

/-- Registers of a kept shape: V4, V5 affine, V7 uniform. -/
def shaped (i : Instr) : State := gangWith (fun g => { g with
  regs := [(4, .affine 16#32 4#32), (5, .affine 0xFFFFFFFF#32 0x80000000#32), (7, .uniform ⟨31#32, 0x1F#8⟩)] }) (ready i)

theorem witness_ShapesKept : (∀ i ∈ ([.add .s32 .wrap 6#8 4#8 .none 5#8 0#3, .sub .z32 .wrap 6#8 4#8 .none 5#8 0#3, .mul .s32 6#8 4#8 .none 7#8 0#3,
      .shl .w32 6#8 4#8 .none 7#8 0#3, .mov .w32 6#8 4#8 .none 0#3, .movi .w32 6#8 (.short 1#24) 0#3, .iota .s32 6#8 4#24 63#6 0#3] : List Instr),
      fullWrite i (shaped i) = true ∧ ∀ x ∈ (shaped i).seats 0, x.g.reg 4 = .affine 16#32 4#32 ∧ x.g.reg 5 = .affine 0xFFFFFFFF#32 0x80000000#32 ∧
      x.g.reg 7 = .uniform ⟨31#32, 0x1F#8⟩) ∧
    (31#32).toNat % 256 < 32 ∧ tyLen .w32 = 1 ∧
    issues (.shapeFit .w64 6#8 4#8 0#3) (shaped (.shapeFit .w64 6#8 4#8 0#3)) = true ∧
    (let v : VReg := .general ([⟨4#32, 0x1F#8⟩, zeroImg, ⟨0#32, 0x1F#8⟩] ++ List.replicate 29 zeroImg)
     inMask 5#32 0 = true ∧ inMask 5#32 2 = true ∧ (lanes32.all fun l => !inMask 5#32 l || decide (l = 0 ∨ 2 ≤ l)) = true ∧
     (lanes32.all fun l => !inMask 5#32 l || decide ((v.lane l).tag = 0x1F#8)) = true ∧ ((v.lane 2).val - (v.lane 0).val).toInt = -2 * 2 ∧
     v.lane 2 ≠ v.lane 0 ∧ (lanes32.all fun l => !inMask 5#32 l || decide ((v.lane l).val = (v.lane 0).val + BitVec.ofInt 32 (-2 * l))) = true) ∧
    (∀ l < 32, inMask 5#32 l = true → (VReg.uniform zeroImg).lane l = zeroImg) := by
  decide +kernel

theorem witness_LongLatencyWords : ∀ i ∈ ([.idiv .s32 6#8 4#8 .none 5#8 2#3 3#4 0#3, .irem .z64 6#8 4#8 .none 8#8 0#3 15#4 0#3,
    .lea .w32 10#8 ⟨3#4, some 7#8, 16#12⟩ 1#4 2#3 0#3] : List Instr), issues i (ready i) = true := by decide +kernel

theorem witness_CrossLane : ∀ i ∈ ([.shfl .xor .w32 9#8 13#8 32#8 0#3, .bcast .idx .w64 6#8 4#8 9#8 0#3, .vote .maj false 3#3 4#8 0#3,
    .vote .same false 3#3 4#8 0#3, .vote .allSame true 3#3 40#8 0#3, .ballot .word 6#8 4#3 0#3, .ballot .rank 6#8 4#3 0#3,
    .iota .z32 40#8 100#24 4#6 0#3, .rebal .pack .w32 6#8 4#8 5#3 0#3, .rebal .spread .w64 6#8 4#8 5#3 0#3, .shapeGet 6#8 4#8 0#3] :
    List Instr), issues i (ready i) = true := by decide +kernel

theorem witness_Reductions : ∀ i ∈ ([.reduce .addW32 40#8 41#8 2#4 0#3, .scan .xorW64 6#8 4#8 15#4 0#3] : List Instr),
    issues i (ready i) = true := by decide +kernel

theorem witness_PackedInteger : (∀ i ∈ ([.dot4 .s8 true 6#8 4#8 .none 5#8 7#8 0#3 0#3, .dot8 .z4 false 6#8 4#8 .none 5#8 7#8 0#3 0#3,
      .pack .z4 true 6#8 4#8 .none 5#8 7#8 3#2 0#3, .unpack .s4 6#8 4#8 .none 7#3 0#3, .clmul .w64 true 6#8 4#8 .none 8#8 0#3,
      .byteperm 6#8 4#8 .none 5#8 7#8 0#3] : List Instr), issues i (ready i) = true) ∧
    (∀ k ∈ [0, 31], k < 32) ∧ PackTy.z4.width * (2 * 3 + 1) < 32 ∧ PackTy.s16.width * (2 * 0 + 1) < 32 ∧ 2 ^ 32 - 1 < 2 ^ 32 := by
  decide +kernel

/-! ## Witnesses: floating point -/

theorem witness_RoundOdd : (0 < 1 ∧ (2 : ℚ) ^ ((fmtOf .e2m1).emax + 1) ≤ (8 : Nat) * 2 ^ (0 : Int)) ∧
    ((7 : Nat) : ℚ) * 2 ^ (0 : Int) < 2 ^ ((fmtOf .e2m1).emax + 1) ∧
    (∀ x ∈ [Fp.fin false 0 0, .fin true 3 (-5)], x.isNan = false ∧ x.isInf = false) ∧ (([Fp.fin false 0 0].map Fp.rat).sum = 0) := by
  have h : (fmtOf .e2m1).emax = 2 := by decide
  rw [h]
  refine ⟨⟨by decide, by norm_num⟩, by norm_num, by decide, by simp [Fp.rat]⟩

theorem witness_FinalRound : (0 < 6 ∧ |(Fp.fin false (roundMag .rne false 6 (0 - 1)) 1).rat| ≤ |(maxFin .e2m1 false).rat|) ∧
    |(maxFin .e2m1 false).rat| < |(Fp.fin false (roundMag .ru false 7 (0 - 1)) 1).rat| := by decide +kernel

/-- An F32 operand as its image gives it. -/
def f32 (v : BitVec 32) (t : Byte) : Opr := oprOf .f32 (⟨v, t⟩, zeroImg)

theorem witness_TrustRules :
    roundOdd .f32 (Fp.sum [(f32 0x7F800000#32 0x1A#8).v, (f32 0xFF800000#32 0x1A#8).v]) = .nan ∧
    overflows .f32 (Fp.sum [(f32 0x7F7FFFFF#32 0x1A#8).v, (f32 0x7F7FFFFF#32 0x1A#8).v]) = true ∧
    (let a := f32 0x3F900000#32 0x2C#8
     let b := f32 0xBF8F8000#32 0x34#8
     (roundOdd .f32 (Fp.sum [a.v, b.v])).isNum = true ∧ a.dead = false ∧ b.dead = false ∧ a.k ≤ precP .f32 ∧ b.k ≤ precP .f32 ∧
     (roundOdd .f32 (Fp.mul a.v b.v)).isNum = true) ∧
    (let a := f32 0x3F800000#32 0x1A#8
     let b := f32 0xBF800000#32 0x1A#8
     (roundOdd .f32 (Fp.sum [a.v, b.v])).isZero = true ∧ a.v.isNum = true ∧ a.dead = false ∧ b.dead = false) ∧
    (let a := f32 0#32 0x20#8
     let b := f32 0x3F800000#32 0x1A#8
     a.dead = true ∧ (roundOdd .f32 (Fp.sum [a.v, b.v])).isNan = false ∧ (roundOdd .f32 (Fp.sum [a.v, b.v])).isInf = false) ∧
    roundOdd .f32 (Fp.mul (f32 0x7F800000#32 0x1A#8).v (f32 0#32 0x1A#8).v) = .nan ∧
    overflows .f32 (Fp.mul (f32 0x7F7FFFFF#32 0x1A#8).v (f32 0x40000000#32 0x1A#8).v) = true ∧
    (roundOdd .f32 (Fp.mul (f32 0#32 0x1A#8).v (f32 0x3F800000#32 0x1A#8).v)).isZero = true := by decide +kernel

/-- No floor is set in a unit. -/
def noFloor (i : Instr) (s : State) : Bool := acts i s fun _ x => x.g.sigfloor.toNat % 64 == 0

/-- A floor of 26 that F32 images of full trust pass. -/
def trusted : State := gangWith (fun g => { g with
  sigfloor := 26#64, regs := [(8, .uniform ⟨0x3F800000#32, 0x1A#8⟩), (9, .uniform ⟨0x3F800000#32, 0x1A#8⟩)] }) (ready (.fadd .f32 10#8 8#8 .none 9#8 0#3))

theorem witness_FloatArithmetic : (∀ i ∈ ([.fadd .f64 10#8 8#8 .none 4#8 0#3, .fsub .f64 6#8 4#8 .none 8#8 0#3, .fmul .e2m1 6#8 4#8 .none 5#8 0#3,
      .ffma .f32 12#8 8#8 .none 9#8 10#8 0#3, .fmin .f16 6#8 4#8 .none 5#8 0#3, .fmax .bf16 6#8 4#8 .none 5#8 0#3,
      .fscale .f32 6#8 4#8 .none 5#8 0#3, .frexp .sig .f64 6#8 4#8 .none 0#3, .fround .f32 6#8 4#8 .none .rz 0#3, .fcvt .bf16 .f32 30#8 31#8 .none 0#3,
      .icvtf .f64 .s8 6#8 4#8 .none 0#3, .funpack .e2m1 6#8 4#8 .none 7#3 0#3] : List Instr), noFloor i (ready i) = true) ∧
    acts (.fadd .f32 10#8 8#8 .none 9#8 0#3) trusted (fun _ x => lanes32.all fun l => !inMask x.act l ||
      decide (x.g.sigfloor.toNat % 64 ≤ storedK .f32 (pairLane (Lanes.map2 (fun u v => fAdd .f32 (oprOf .f32 u) (oprOf .f32 v))
        (x.src 1 8#8 .none) (x.src 1 9#8 .none)) l))) = true := by decide +kernel

theorem witness_TrustEdits : (∀ i ∈ ([.kset .f32 6#8 4#8 .none 5#8 0#3, .kmin .f16 6#8 4#8 .none 5#8 0#3, .sticky .clr .f32 6#8 4#8 .none 0#3,
      .sticky .set .f64 6#8 4#8 .none 0#3] : List Instr), noFloor i (ready i) = true) ∧
    (∀ i ∈ ([.sticky .mask .f32 7#8 4#8 .none 0#3, .kget .tag .f64 7#8 4#8 .none 0#3, .frexp .exp .f64 6#8 4#8 .none 0#3,
      .fcmp .lt true .f32 3#3 4#8 .none 5#8 0#3, .fclass .e4m3 6#8 4#8 .none 0#3, .fcvti .z64 .f16 6#8 4#8 .none .ru 0#3] : List Instr),
      issues i (ready i) = true) ∧
    acts (.fpack .e2m1 false 6#8 4#8 5#8 7#8 3#2 0#3 0#3) (ready (.fpack .e2m1 false 6#8 4#8 5#8 7#8 3#2 0#3 0#3)) (fun s x =>
      match fpackCls .e2m1 (slotOfmt (s.slotOf x.g.launch 0)) with
      | some f => laneWidth f * (2 * 3 + 1) < 32
      | none => false) = true ∧ (FpCls.f32 ≠ .f64 ∧ 31 < 32 ∧ 63 < 64) := by decide +kernel

theorem witness_LongFloat : (∀ i ∈ ([.frcp .f32 20#8 21#8 .none 2#4 0#3, .frsq .f64 6#8 4#8 .none 1#4 0#3, .fexp2 .f16 6#8 4#8 .none 2#4 0#3,
      .flog2 .bf16 6#8 4#8 .none 0#4 0#3, .fsin .f32 6#8 4#8 .rev 0#4 0#3, .fcos .f32 6#8 4#8 .none 0#4 6#3, .freduce .f64 6#8 4#8 15#4 0#3] :
      List Instr), noFloor i (ready i) = true) ∧ 0 < 3 ∧ ∀ k, 3 ≠ 2 ^ k := by
  refine ⟨by decide +kernel, by decide, fun k => ?_⟩
  cases k with
  | zero => decide
  | succ k => rw [pow_succ]; omega

theorem witness_PairWord : ∀ i ∈ ([.pairWord ⟨.subS32, 5#7, 5#7, 6#7, 1#3⟩ ⟨.fmulF32, 4#7, 5#7, 7#7, 0#3⟩,
    .pairWord ⟨.nop, 0#7, 0#7, 0#7, 0#3⟩ ⟨.movW32, 127#7, 5#7, 0#7, 0#3⟩] : List Instr), noFloor i (ready i) = true := by decide +kernel

theorem witness_FloatDots :
    (let i : Instr := .dot4 .e4m3 false 50#8 51#8 .none 52#8 53#8 0#3 0#3
     noFloor i (ready i) = true ∧ dot4Elem .e4m3 0 = some (.fp .e4m3)) ∧
    (let i : Instr := .dot8 .e2m1 false 50#8 51#8 .none 52#8 53#8 0#3 0#3
     noFloor i (ready i) = true ∧ dot8Elem .e2m1 0 = some (.fp .e2m1)) ∧
    (∀ a ∈ [(0x9#64, 9), (0xA#64, 10), (0#64, 0), (0x4#64, 4)], let i : Instr := .dot4 .slot (decide (a.2 = 4)) 50#8 51#8 .none 52#8 53#8 7#3 0#3
      acts i ((ready i).updLaunch 1 fun l => { l with slots := List.replicate 8 (a.1 <<< 60, 0#64) })
        (fun s x => slotAfmt (s.slotOf x.g.launch 7) == a.2) = true) ∧
    dot4Elem .slot 0 = none ∧ dot4Elem .slot 4 = some (.fp .e4m3) ∧ decodeFp .e4m3 (0x7F#32).toNat = .nan ∧
    (0xC1C2C3C4#32 &&& 0x3F3F3F3F#32) = (0x01020304#32 &&& 0x3F3F3F3F#32) := by decide +kernel

/-! ## Witnesses: windows, transfers, waits -/

/-- A long-latency result that has not landed. -/
def aPend (win : Nat) : Pend := ⟨7, [6], [2], 0xF#32, List.replicate 8 win, false, [.reg 6 (.uniform zeroImg), .mask 2 0xF#32], 3, true, false⟩

theorem witness_LookWindows : (∀ n ∈ [0, 15], let s := gangWith (fun g => { g with pend := [aPend n], toks := [(3, 1)] }) stand
      s.keyOf 0 0 = some 65536 ∧ (s.gang? 65536).map (·.pend) = some [aPend n] ∧ (aPend n).compute = true ∧ (aPend n).landed = false) ∧
    (∀ sl < 8, (aPend 0).win.getD sl 0 = 0) ∧ (aPend 15).left ≠ 0#32 ∧
    (∀ l < 32, inMask (aPend 15).left l = true → (aPend 15).win.getD (l / 4) 0 ≠ 0) ∧ (aPend 15).frozen = false ∧ (aPend 15).win.length = 8 ∧
    (let i : Instr := .mov .w32 10#8 6#8 .none 0#3
     let s := gangWith (fun g => { g with pend := [aPend 0] }) (ready i)
     (s.seats 0).any (fun x => (operandFault (16 * x.g.allot) i.opnds).isNone && x.g.lookStall x.m0 (opndRegs i.opnds) []) = true) ∧
    (let i : Instr := .rel 0#12 7#3
     let s := gangWith (fun g => { g with toks := [(7, 15)] }) (ready i)
     i.tokOf ≠ 0 ∧ (s.seats 0).any (fun x => x.g.tok i.tokOf == 15) = true) := by decide +kernel

/-- Whether an address holds a header for a member. -/
def headed (s : State) (x : Seat) (a : Word64) : Bool := s.headerAt (s.partOf x.g) (coreOf x.key) a

/-- The target of a word one word back: the clause's header. -/
def headerTarget (s : State) : Word64 := dispTarget s.cur.pc 0xFFFFFFFF#32

theorem witness_Transfers : (∀ i ∈ ([.br .t 0#3 .none 0xFFFFFFFF#32, .call 40#8 .none 0xFFFFFFFF#32, .brm .any 0#3 .taken 0xFFFFFFFF#32,
      .brm .all 0#3 .none 0xFFFFFFFF#32, .bsig .any 4#8 63#6 .none 0xFFFFFFFF#32, .bsig .all 4#8 63#6 .none 0xFFFFFFFF#32] : List Instr),
      acts i (ready i) (fun s x => headed s x (headerTarget s) && (maskLanes x.act).all fun l => inMask (x.mask 0) l &&
        decide (storedK .f32 (pairLane (x.g.rd 1 4) l) < 63)) = true) ∧
    (∀ i ∈ ([.br .f 0#3 .none 9#32, .brm .none 0#3 .none 9#32, .brm .any 5#3 .none 9#32, .bsig .allD 4#8 0#6 .none 9#32] : List Instr),
      acts i (ready i) (fun _ x => (maskLanes x.act).all fun l => inMask (x.mask 0) l && !inMask (x.mask 5) l &&
        decide (¬ storedK .f64 (pairLane (x.g.rd 2 4) l) < 0)) = true) ∧
    (∀ i ∈ ([.calli 44#8 42#8 0#3, .jmpi 42#8 0#3, .ret 40#8 0#3] : List Instr), acts i (ready i) (fun s x => (maskLanes x.act).all fun l =>
      [40, 42].all fun n => headed s x (x.g.pairAt n l) && hndOf (x.g.pairAt n l) == hndOf s.cur.pc &&
        (s.roleOf x.g).callees.any fun c => c.1 == x.g.pairAt n l) = true) := by decide +kernel

theorem witness_FormatBTargets : (∀ i ∈ ([.br .t 0#3 .none 0#32, .br .f 5#3 .taken 0#32, .brm .any 0#3 .none 0#32, .brm .all 0#3 .none 0#32, .brm .none 5#3 .none 0#32,
      .bsig .any 4#8 63#6 .none 0#32, .bsig .all 4#8 63#6 .none 0#32, .call 40#8 .none 0#32] : List Instr),
      acts i (ready i) (fun s x => (s.fetchFault (s.partOf x.g) (coreOf x.key) (dispTarget s.cur.pc 0#32)).isNone && !headed s x (dispTarget s.cur.pc 0#32) &&
        x.act != 0#32 && (maskLanes x.act).all fun l => inMask (x.mask 0) l && !inMask (x.mask 5) l && decide (storedK .f32 (pairLane (x.g.rd 1 4) l) < 63)) = true) ∧
    (∀ i ∈ ([.bsig .anyD 4#8 63#6 .none 0#32, .bsig .allD 4#8 63#6 .none 0#32] : List Instr),
      acts i (gangWith (fun g => { g with regs := [(4, .uniform ⟨0#32, 0x1A#8⟩), (5, .uniform ⟨0x3FF00000#32, 0x1A#8⟩)] }) (ready i)) (fun s x =>
      !headed s x (dispTarget s.cur.pc 0#32) && (maskLanes x.act).all fun l => decide (storedK .f64 (pairLane (x.g.rd 2 4) l) < 63)) = true) ∧
    (∀ i ∈ ([.bsig .anyD 4#8 63#6 .none 0xFFFFFFFF#32, .bsig .allD 4#8 63#6 .none 0xFFFFFFFF#32] : List Instr), acts i (ready i) (fun s x => headed s x (headerTarget s)) = true) := by
  decide +kernel

theorem witness_OperandAndTransferTraps :
    (let i : Instr := .mov .w32 16#8 4#8 .none 0#3
     ((gangWith (fun g => { g with allot := 1 }) (ready i)).seats i.maskField).any (fun x => (operandFault (16 * x.g.allot) i.opnds).isSome) = true) ∧
    (let i : Instr := .mov .w64 7#8 4#8 .none 0#3
     ((ready i).seats i.maskField).any (fun x => (operandFault (16 * x.g.allot) i.opnds).isSome) = true) ∧
    (∀ i ∈ ([.jmpi 42#8 0#3, .calli 44#8 42#8 0#3] : List Instr),
      acts i ((ready i).updLaunch 1 fun l => { l with roles := [⟨mkAddr 1 0, mkAddr 1 0, 0#64, 0#64, []⟩] }) (fun s x =>
        (maskLanes x.act).all fun l => headed s x (x.g.pairAt 42 l) && hndOf (x.g.pairAt 42 l) == hndOf s.cur.pc &&
          !((s.roleOf x.g).callees.any fun c => c.1 == x.g.pairAt 42 l)) = true) ∧
    (let i : Instr := .ret 4#8 0#3
     acts i ((ready i).updPart 0 fun p => { p with handles := [(1, ⟨BitVec.ofNat 64 (2 ^ 63 + 3 * 2 ^ 52), [0], 0⟩),
        (2, ⟨BitVec.ofNat 64 (2 ^ 63 + 3 * 2 ^ 52), [0], 0⟩)] }) (fun s x =>
      (maskLanes x.act).all fun l => headed s x (x.g.pairAt 4 l) && hndOf (x.g.pairAt 4 l) != hndOf s.cur.pc) = true) ∧
    (∀ i ∈ ([.call 40#8 .none 0#32, .br .t 0#3 .none 0#32] : List Instr), acts i (ready i) (fun s x =>
      (s.fetchFault (s.partOf x.g) (coreOf x.key) (dispTarget s.cur.pc 0#32)).isNone && !headed s x (dispTarget s.cur.pc 0#32)) = true) := by
  decide +kernel

/-- Two slices of which the second stands elsewhere as part 1. -/
def parted (i : Instr) : State := gangWith (fun g => { g with
  slices := 2
  life := List.replicate 8 .live ++ List.replicate 24 .never
  flow := (List.range 32).map fun l => if l / 4 = 1 then { g.flowAt 0 with part := 1, pc := addWords (g.flowAt 0).pc 5 } else g.flowAt 0 }) (ready i)

theorem witness_WaitsAndExit : (issues .regang (ready .regang) = true ∧ (ready .regang).united (ready .regang).cur.key = true) ∧
    (issues .regang (parted .regang) = true ∧ (parted .regang).united (parted .regang).cur.key = false) ∧
    (let i : Instr := .waittok 0x41#7
     acts i (ready i) (fun _ x => (List.range 7).all fun k => Tab.at x.g.toks 0 (k + 1) == 0) = true ∧
     acts i (gangWith (fun g => { g with toks := [(7, 1)] }) (ready i)) (fun _ x => Tab.at x.g.toks 0 (6 + 1) != 0) = true) ∧
    (∀ i ∈ ([.exit 0#3, .exit 4#3] : List Instr), issues i (ready i) = true) := by decide +kernel

/-! ## Witnesses: memory -/

/-- No byte range of a member's access is at fault. -/
def allowed (accs : Seat → List Acc) (s : State) (x : Seat) : Bool := (s.accFlaw x (accs x)).isNone

theorem witness_LoadsAndStores :
    (let i : Instr := .ld .w128 8#8 ⟨1#4, some 4#8, 0xFFF#12⟩ 1#4 15#4 1#3 0#3
     acts i (ready i) (allowed fun x => x.accs 16 false true 1 false (laneAddr x.g ⟨1#4, some 4#8, 0xFFF#12⟩ 16)) = true) ∧
    (let i : Instr := .ldt .w64 6#8 ⟨1#4, some 4#8, 1#12⟩ 3#4 2#4 1#3 0#3
     acts i (ready i) (allowed fun x => x.accs 8 false true 4 true (laneAddr x.g ⟨1#4, some 4#8, 1#12⟩ 8)) = true) ∧
    (let i : Instr := .ldb .z16 6#8 2#4 2#12 0#4 0#4 0#3 0#3
     acts i (ready i) (allowed fun x => x.accs 2 false true 1 false (laneAddr x.g ⟨2#4, none, 2#12⟩ 2)) = true) ∧
    (let i : Instr := .st .bf16 .rne 30#8 ⟨2#4, none, 32#12⟩ 2#4 0#3 0#3
     acts i (ready i) (allowed fun x => x.accs 2 true false 1 false (laneAddr x.g ⟨2#4, none, 32#12⟩ 2)) = true) ∧
    (let i : Instr := .stt .w32 6#8 ⟨15#4, none, 0#12⟩ 0#4 0#3 0#3
     acts i (ready i) (allowed fun x => x.accs 4 true false 4 true (laneAddr x.g ⟨15#4, none, 0#12⟩ 4)) = true) ∧
    (let i : Instr := .tmov .w128 7#3 6#8 ⟨2#4, some 4#8, 0#12⟩ 0#4 7#3 0#3
     acts i (ready i) (allowed fun x => x.accs 2048 false true 1 false (laneAddr x.g ⟨2#4, some 4#8, 0#12⟩ 16) ++
       x.accs 2048 true false 1 false (x.g.pairAt 6)) = true) ∧
    ((stand.gang? 65536).isSome = true ∧ (stand.hnd? 65536 (mkAddr 2 0)).isSome = true) ∧
    ∀ i ∈ ([.nop] : List Instr), ∀ x ∈ stand.seats 0, (stand.newEntry i x).id = stand.nextId := by decide +kernel

theorem witness_DataInMemory : decodeFp .f32 (0x7F800000#32).toNat ≠ .nan ∧ (0x7C00 < 2 ^ 16 ∧ decodeFp .f16 0x7C00 ≠ .nan) ∧
    decodeFp .bf16 0xFF80 ≠ .nan ∧ (0x7E < 2 ^ 8 ∧ decodeFp .e4m3 0x7E ≠ .nan ∧ decodeFp .e5m2 0xFC ≠ .nan) ∧
    (∀ p ∈ [(FpCls.f32, 4, 0xFFFFFFFF), (.f16, 2, 0xFFFF), (.bf16, 2, 0x7F81), (.e4m3, 1, 0xFF), (.e5m2, 1, 0x7D)],
      p.2.2 < 2 ^ (8 * p.2.1) ∧ decodeFp p.1 p.2.2 = .nan) ∧ ((0xFA#8).toNat % 32 ≤ 26 ∧ (0x3F#8).toNat % 32 = 31) ∧
    (27 ≤ (0xFB#8).toNat % 32 ∧ (0xFE#8).toNat % 32 ≤ 30) ∧ (1#8).toNat < 2 := by decide +kernel

/-- One access of lane 3 at an offset under a handle. -/
def oneAcc (h o n : Nat) (rd wr : Bool) (align : Nat) (tag : Bool) : Acc := ⟨3, mkAddr h o, n, wr, rd, align, tag⟩

theorem witness_AccessTraps :
    (∀ i ∈ ([.ld .w32 8#8 ⟨1#4, some 4#8, 0#12⟩ 1#4 0#4 1#3 0#3, .ldt .w32 8#8 ⟨1#4, some 4#8, 0#12⟩ 1#4 0#4 1#3 0#3,
      .ldb .w32 8#8 1#4 0#12 0#4 0#4 0#3 0#3, .st .w32 .rne 8#8 ⟨1#4, some 4#8, 0#12⟩ 1#4 1#3 0#3,
      .stt .w32 8#8 ⟨1#4, some 4#8, 0#12⟩ 1#4 1#3 0#3, .tmov .w32 0#3 8#8 ⟨1#4, some 4#8, 0#12⟩ 0#4 7#3 0#3] : List Instr),
      acts i (gangWith (fun g => { g with hregs := [(1, mkAddr 9 0)] }) (ready i)) (fun s x =>
        (s.accFlaw x (x.accs 4 false true 1 false (laneAddr x.g ⟨1#4, none, 0#12⟩ 4))).isSome) = true) ∧
    (∀ x ∈ stand.seats 0, let h := fun (a : Acc) => stand.handleAt (stand.partOf x.g) (coreOf x.key) a.adr
      h (oneAcc 9 0 4 true false 1 false) = none ∧
      (∀ a ∈ [oneAcc 2 0 4 true true 1 false, oneAcc 6 0 4 false true 1 false, oneAcc 5 0 4 true false 1 false,
          oneAcc 2 262141 4 true false 1 false, oneAcc 2 262140 4 true false 4 true, oneAcc 2 2 4 true false 4 false, oneAcc 3 0 4 true false 4 true],
        (h a).any (fun e => attrValid e.attr && decide (attrSpace e.attr < 5)) = true) ∧
      (h (oneAcc 6 0 4 false true 1 false)).any (fun e => !attrWr e.attr) = true ∧
      (h (oneAcc 5 0 4 true false 1 false)).any (fun e => attrSecure e.attr && !(stand.part (stand.partOf x.g)).secure && attrRd e.attr) = true ∧
      (h (oneAcc 2 0 4 true false 1 false)).any (fun e => 262141 + 4 > attrBytes e.attr && 262140 + 4 == attrBytes e.attr &&
        (stand.tagPlane (stand.partOf x.g) (coreOf x.key) e).isSome) = true ∧
      (h (oneAcc 3 0 4 true false 4 true)).any (fun e => (stand.tagPlane (stand.partOf x.g) (coreOf x.key) e).isNone) = true) := by
  decide +kernel

/-- The lanes of a member that a gather or scatter with these operands serves, and their accesses. -/
def gathers (n : Nat) (wr : Bool) (hnd : HNum) (ofs : VNum) (disp : BitVec 12) (s : State) (x : Seat) : Bool :=
  (s.accFlaw x ((maskLanes (x.act &&& ~~~(s.outOfRange x hnd ofs disp n))).map fun l =>
    ⟨l, mkAddr (hndOf (x.g.hreg hnd.toNat)) ((gatherOffset x.g hnd ofs disp n l) % 2 ^ 40).toNat, n, wr, !wr, 1, false⟩)).isNone

/-- Offset registers for a gather: V9 reaches the last word of handle 2 from offset 4096, V11 the byte past it, V12 a negative offset. -/
def gathering (i : Instr) (trap : Bool) : State := gangWith (fun g => { g with
  memctl := if trap then 1#64 else 0#64
  regs := [(9, .uniform ⟨64511#32, 0x1F#8⟩), (11, .uniform ⟨64512#32, 0x1F#8⟩), (12, .uniform ⟨0#32, 0x1F#8⟩)] }) (ready i)

theorem witness_GatherScatter :
    (let i : Instr := .ldg .w32 14#8 3#4 9#8 0#12 1#4 1#4 2#3 0#3
     acts i (gathering i true) (fun s x => gathers 4 false 3#4 9#8 0#12 s x && s.outOfRange x 3#4 9#8 0#12 4 == 0#32) = true) ∧
    (let i : Instr := .ldg .w32 14#8 3#4 11#8 0#12 1#4 1#4 2#3 0#3
     acts i (gathering i false) (fun s x => gathers 4 false 3#4 11#8 0#12 s x && s.outOfRange x 3#4 11#8 0#12 4 != 0#32 && !x.g.memctl.getLsbD 0) = true ∧
     acts i (gathering i true) (fun s x => gathers 4 false 3#4 11#8 0#12 s x && s.outOfRange x 3#4 11#8 0#12 4 != 0#32 && x.g.memctl.getLsbD 0) = true) ∧
    (let i : Instr := .sts .f64 .dyn 6#8 1#4 12#8 0x800#12 0#4 0#3 0#3
     acts i (gathering i false) (fun s x => gathers 8 true 1#4 12#8 0x800#12 s x && s.outOfRange x 1#4 12#8 0x800#12 8 != 0#32) = true) ∧
    (stand.hnd? 65536 (mkAddr 2 4096)).isSome = true := by decide +kernel

/-- A team of two in one core. -/
def paired (i : Instr) : State :=
  let s := gangWith (fun g => { g with team := 2, mates := [65536, 65537] }) (ready i)
  match s.gang? 65536 with
  | some g => { s with gangs := Tab.put s.gangs 65537 { g with member := 1 } }
  | none => s

theorem witness_AtomicsTokensFences :
    (let i : Instr := .atom .cas .w64 8#8 ⟨2#4, some 4#8, 0#12⟩ 0#4 0#3 0#3
     acts i (ready i) (allowed fun x => x.accs 8 true true 8 false (laneAddr x.g ⟨2#4, some 4#8, 0#12⟩ 8)) = true) ∧
    (let i : Instr := .atomr .add .w32 20#8 ⟨4#4, some 6#8, 0#12⟩ 0#4 2#4 3#3 0#3
     acts i (ready i) (allowed fun x => x.accs 4 true true 4 false (laneAddr x.g ⟨4#4, some 6#8, 0#12⟩ 4)) = true) ∧
    (∀ i ∈ ([.acq .x 17#12 1#3, .acq .sh 4095#12 0#3] : List Instr), acts i (ready i) (fun _ x => x.g.mates.length ≤ 1) = true) ∧
    (let i : Instr := .acq .x 17#12 1#3
     acts i (paired i) (fun _ x => decide (1 < x.g.mates.length)) = true ∧ ((paired i).seats 0).length = 2) ∧
    (∀ i ∈ ([.rel 17#12 2#3, .fence .s 0x8001#16, .fence .w 0#16, .fence .all 0#16] : List Instr), issues i (ready i) = true) := by decide +kernel

theorem witness_BuffersAndHandles :
    (let i : Instr := .cbdef 4#4 1#4 2#12 1#3 4#4
     acts i (gangWith (fun g => { g with hregs := [(1, mkAddr 0xFFFF00 (512 * 1024 - 4096 - 2048))] }) (ready i)) (fun s x =>
       let a := laneAddr x.g ⟨1#4, none, 2#12⟩ 1024 x.low
       !(s.core (coreOf x.key)).cbBusy 4 && match s.hnd? x.key a with
         | none => false
         | some h => (!attrSecure h.attr || (s.part (s.partOf x.g)).secure) && offOf a % 1024 == 0 &&
             decide (2 ≤ attrSpace h.attr ∧ attrSpace h.attr ≤ 4 ∧ offOf a + 4 * 1024 ≤ attrBytes h.attr)) = true) ∧
    (∀ i ∈ ([.cbpushRes 6#8 3#4 1#4 2#3, .cbpopTake 6#8 15#4 1#4 2#3, .cbpopStat 6#8 15#4] : List Instr),
      acts i (ready i) (fun s x => x.first && (s.cb? x.key 3).isSome && (s.cb? x.key 15).isSome) = true) ∧
    (∀ i ∈ ([.cbpushCommit 6#8 3#4 4#4 2#3, .cbpopFree 6#8 3#4 4#4 2#3] : List Instr), acts i (ready i) (fun s x =>
      match s.cb? x.key 3 with
      | some b => (b.slotAt? (x.g.pairAt 6 x.low)).elim false fun n => b.reserved.contains n && b.taken.contains n
      | none => false) = true) ∧
    (let i : Instr := .cbpushRes 6#8 2#4 1#4 2#3
     acts i (ready i) (fun s x => x.first && (s.cb? x.key 2).isNone) = true) ∧
    someBuffer.slotAt? (mkAddr 2 768) = some 3 ∧
    (∀ i ∈ ([.hdescAttr 6#8 4#8, .hdescBind 6#8 4#8, .hdescLoc 6#8 4#8, .hdescGeta 6#8 15#4, .hdescSeta 5#4 40#8] : List Instr),
      issues i (ready i) = true) := by decide +kernel

/-! ## Witnesses: the order machine -/

/-- A store of V4 of four lanes side by side. -/
def aStore : Instr := .st .w32 .rne 4#8 ⟨1#4, some 20#8, 0#12⟩ 2#4 1#3 0#3
/-- A load of a word per lane. -/
def aLoad : Instr := .ld .w32 8#8 ⟨1#4, some 20#8, 0#12⟩ 3#4 2#4 1#3 0#3
/-- Lane offsets of 0, 4, 8, 12 in V20. -/
def spread (s : State) : State := gangWith (fun g => { g with regs := Tab.put g.regs 20 (.affine 0#32 4#32) }) s

/-- Entries under a handle, with the lanes' bytes side by side. -/
def beside (h : Nat) (is : List Instr) : State := is.foldl (fun s i => after i s) (under h (spread stand))

/-- The state after that store's first piece has performed. -/
def performed (h : Nat) : State := after (.performPiece (.stream 0 0 2) 0 .none) (beside h [aStore])

/-- What the log's only write meets. -/
def loneWrite (s : State) (f : GWrite → Bool) : Bool :=
  match s.log with
  | [w] => f w && Tab.rising w.cells && Tab.rising w.nums
  | _ => false

theorem witness_OrderSteps :
    (Memory.wf (performed 2).mem = true ∧ ([(2 ^ 39 - 1, 7#8), (4 * 65536, 9#8)].map (·.1)).Nodup ∧
      (∀ w ∈ (performed 2).log, ∀ g ∈ w.nums.map (·.1), w.num g ≤ Tab.at (performed 2).top 0 g) ∧
      (∀ g ∈ (performed 2).top.map (·.1), (performed 2).heldAt (locBase 0 0) g ≤ Tab.at (performed 2).top 0 g) ∧ (performed 2).log ≠ [] ∧ (performed 2).held = []) ∧
    loneWrite (performed 2) (fun w => w.inPath && (performed 2).oldest w && decide (w.prop = 0)) = true ∧
    loneWrite (performed 10) (fun w => w.inPath && (performed 10).oldest w && decide (w.prop = 1)) = true ∧
    (let s := after (.drain (((performed 10).log.map (·.id)).headD 0)) (performed 10)
     loneWrite s (fun w => !w.inPath && decide (w.prop = 1)) = true) ∧
    loneWrite (performed 8) (fun w => w.inPath && (performed 8).oldest w && decide (w.prop = 2)) = true ∧
    (let s := after (.drain (((performed 8).log.map (·.id)).headD 0)) (performed 8)
     loneWrite s (fun w => !w.inPath && decide (w.prop = 2) && !w.got.getLsbD 3) = true) ∧
    ((performed 11).hostQ.any (fun h => h.pno == 0) = true ∧ (performed 11).links.getLsbD 1 = true ∧
      ({ performed 11 with links := 1#2 } : State).links.getLsbD 1 = false) := by decide +kernel

/-- A piece of the head entry of a stream may perform now. -/
def piece (s : State) (st n : Nat) (f : Gang → Entry → Piece → Bool) : Bool :=
  s.keyOf 0 0 == some 65536 && (headOf s st).any fun ge => byPieces ge.2.instr && !ge.1.gated ge.2 && (s.conflicts (s.partOf ge.1) ge.2).isEmpty &&
    s.poison.isEmpty && (ge.2.todo[n]?).any fun p => ge.2.mayPerform n p && f ge.1 ge.2 p

theorem witness_PiecesPerform :
    (∀ n ∈ [0, 3], piece (beside 2 [aStore]) 2 n (fun _ e p => p.wr && p.cls == .dev false 0 && p.tagCls == p.cls && decide (e.todo.length ≠ 1) &&
      p.cells != [] && p.data.length == p.cells.length && decide p.cells.Nodup) = true) ∧
    piece (beside 3 [aStore]) 2 0 (fun _ _ p => p.wr && p.tagCells == [] && p.cls == .dev false 0) = true ∧
    piece (beside 0xFFFF00 [aStore]) 2 3 (fun _ _ p => p.wr && p.tagCells == [] && p.cls == .plain) = true ∧
    piece (beside 2 [aLoad]) 3 3 (fun _ e p => !p.wr && decide (e.todo.length ≠ 1)) = true ∧
    piece (beside 2 [.ld .w8 8#8 ⟨1#4, none, 0#12⟩ 15#4 2#4 1#3 0#3]) 15 0 (fun _ _ p => !p.wr) = true ∧
    (((beside 7 [aLoad]).agentPiece? (.stream 0 0 3) 0).any fun p => !p.wr && p.space == 1) = true ∧
    (((beside 2 [aLoad]).agentPiece? (.stream 0 0 3) 0).any fun p => p.cls == .dev false 0 && p.cells != []) = true := by decide +kernel

/-- The requests of an atomic at an address under a handle, sent. -/
def requested (i : Instr) : State := after (.atomicSend 0 0 0) (beside 0xFFFF00 [i])

theorem witness_AtomicsPerform :
    (∀ h ∈ [2, 0xFFFF00], let s := beside h [.atom .cas .w64 8#8 ⟨1#4, none, 0#12⟩ 0#4 0#3 0#3]
      s.keyOf 0 0 = some 65536 ∧ (headOf s 0).any (fun ge => ge.2.todo != [] && isAtomic ge.2.instr && !ge.2.sent && !ge.1.gated ge.2 &&
        (ge.2.todo.all fun p => match p.cls with | .tso _ => false | _ => true) && (s.conflicts (s.partOf ge.1) ge.2).isEmpty) = true) ∧
    (∀ op ∈ [AtomOp.add, .min, .max, .land, .lor, .lxor, .swap, .cas], ∀ sz ∈ [Size.w32, .w64],
      let s := requested (.atom op sz 8#8 ⟨1#4, none, 0#12⟩ 0#4 0#3 0#3)
      Memory.wf s.mem = true ∧ s.poison = [] ∧ sizeCls? sz = none ∧
      (s.atoms.find? fun r => r.home == 0 && ((s.gang? r.gang).elim false fun g => s.partOf g == 0)).any (fun r =>
        r.piece.cls == .plain && r.piece.tagCells == [] && r.piece.tagCls == .plain && (s.gang? r.gang).any fun g =>
          ((g.streams.findSome? fun st => (st.2.find? fun e => e.id == r.entry).map fun e => (st.1, e)).map (·.2.instr)) ==
            some (.atom op sz 8#8 ⟨1#4, none, 0#12⟩ 0#4 0#3 0#3)) = true) ∧
    (∀ i ∈ ([.fence .all 0#16, .fence .w 0#16, .fence .s 0x8001#16] : List Instr), let s := beside 2 [i]
      s.keyOf 0 0 = some 65536 ∧ (headOf s 0).any (fun ge => ge.2.instr == i && !ge.1.gated ge.2 && Tab.rising ge.1.streams &&
        (List.range 16).all fun n => (i == .fence .s 0x8001#16 && !(0x8001#16).getLsbD n) || ((ge.1.stream n).head?.map (·.id)) == some ge.2.id) = true ∧
      s.hasUndrained 65536 none = false) := by decide +kernel

theorem witness_ReleasesAndTokens :
    (∀ p ∈ ([(.rel 17#12 2#3, .token 17), (.barv 4#8 0#3, .barrier 4), (.cbpushCommit 6#8 3#4 4#4 0#3, .commit 0 3 0),
        (.cbpopFree 6#8 3#4 4#4 2#3, .free 0 3 0)] : List (Instr × RelKind)), let s := after p.1 (ready p.1)
      s.rels.any (fun r => r.kind == p.2 && !r.taken && (s.part r.pno).inn && s.gateOf r && s.rels.find? (fun (x : Rel) => x.id == r.id) == some r &&
        (s.gang? r.gang).isSome) = true) ∧
    (let s := after (.acq .x 17#12 1#3) (ready (.acq .x 17#12 1#3))
     ((Tab.find? (s.part 0).tokens 17).bind Tok.next?).any (fun n => n.1 == (65536, true, 1)) = true ∧ (s.part 0).inn = true ∧
       (s.gang? 65536).isSome = true ∧ s.bufs = []) ∧
    (let t : Tok := ⟨[(1, false)], [(2, false, 3), (3, true, 4)]⟩
     (∀ h ∈ t.held, ∀ r ∈ t.reqs, h.1 ≠ r.1) ∧ ∀ h ∈ t.held, h.2 = false) ∧
    (let t : Tok := ⟨[(1, false)], [(3, true, 4)]⟩
     (∀ h ∈ t.held, ∀ r ∈ t.reqs, h.1 ≠ r.1) ∧ t.held ≠ []) ∧
    (let t : Tok := ⟨[(1, false)], [(1, true, 4)]⟩
     ∃ b, ((1, true, 4) : Nat × Bool × Nat).1 = 1 ∧ (1, b) ∈ t.held) ∧
    (let s := after (.rel 17#12 2#3) (ready (.rel 17#12 2#3))
     let t := after (.releaseStep ((s.rels.map (·.id)).headD 0)) s
     t.rels.any (fun r => r.kind == .token 17 && r.taken && (t.part r.pno).inn && t.rels.find? (fun (x : Rel) => x.id == r.id) == some r) = true) := by
  refine ⟨by decide +kernel, by decide +kernel, by decide, by decide, ⟨false, by decide⟩, by decide +kernel⟩

/-! ## Witnesses: the engines of a core -/

/-- A copy of 64 bytes under handle 2, without conversion. -/
def aCopy : Instr := .xcopy .addr false false 0#5 5#6 0#10 0#3 1#4 0#3
/-- Quads in V20 to V23: a source at offset 0 and a destination at offset 4096 of handle 2. -/
def quads (s : State) : State := gangWith (fun g => { g with regs := Tab.put g.regs 22 (.uniform ⟨4096#32, 0x1F#8⟩) }) s
/-- The copy's entry at the head of stream 1, then registered, then ended. -/
def copying : State := after aCopy (quads stand)
def copyRegistered : State := after (.engineRegistration 0 0 1) copying
def copyEnded : State := copyRegistered.updOp 0 0 1 fun o => { o with phase := .ended, fault := 7 }
/-- Operand maps and tiles: a command in the matrix queue, then registered. -/
def mapping : State := after (.omap 5#5 .m 16#9 32#9 1#3) stand
def mapRegistered : State := after (.engineRegistration 0 0 17) mapping
/-- The unit's team holds slots 4 and 5 and tiles 0 and 7. -/
def holding (s : State) : State := s.updCore 0 fun c => { c with slotHeld := [(4, 65536), (5, 65536)], tileHeld := [(0, 65536), (7, 65536)] }

theorem witness_EngineWords : (∀ i ∈ ([aCopy, .xcopy .cb false true 0#5 4#6 15#10 3#3 1#4 2#3, .xcopy .slot true false 31#5 4#6 15#10 0#3 1#4 2#3,
      .xcopym true 4#6 1#10 1#5 2#5 3#3 4#3 5#3 2#2 1#2 6#3] : List Instr), acts i (ready i) (fun s x => !s.claimPending x.key (s.names x.g.launch i)) = true) ∧
    (∀ i ∈ ([.xseqDone .copy 40#8 1#4 0#3, .xseqIssued .mx 6#8 3#4 2#3, .xseqLine 15#4 6#8 0#4 0#3, .xseqFault 6#8 1#4 0#3, .evrouteSet 0#4 5#4,
      .evrouteClr 11#4 5#4, .evrouteGate 10#4 15#4, .evrouteOpen 10#4, .evwaitSync 9#4, .evfire 7#4 255#8] : List Instr), issues i (ready i) = true) ∧
    (∀ n ∈ [5, 6], let i : Instr := .xwait .copy 40#8
      let s := (gangWith (fun g => { g with regs := [(40, .uniform ⟨5#32, 0x1F#8⟩)] }) (ready i)).updEngine 0 0 fun e => { e with done := n }
      acts i s (fun s x => decide ((x.g.pairAt 40 x.low0).toNat ≤ (s.engine (coreOf x.key) (engCode .copy)).done % 2 ^ 64)) = true) ∧
    (let i : Instr := .evwait 5#4
     let s := (gangWith (fun g => { g with seen := [(5, 0xFFFFFFFF#32)] }) (ready i)).updCore 0 fun c => { c with lc := [(5, 0#32)] }
     acts i s (fun s x => decide (0 < (Tab.at (s.core (coreOf x.key)).lc 0#32 5 - Tab.at x.g.seen 0#32 5).toInt)) = true) ∧
    ((stand.gang? 65536).isSome = true ∧ stand.bufs = []) := by decide +kernel

theorem witness_MatrixWords :
    (∀ i ∈ ([.oclaim 0#5 32#6 255#8 2#3, .oclaim 6#5 0#6 2#8 0#3] : List Instr), acts i (ready i) (fun s x =>
      !((s.core (coreOf x.key)).heldBy (s.leadOf x.key)).meets ⟨0xFFFFFFFF#32, 255#8⟩ && (s.core (coreOf x.key)).claims.isEmpty) = true) ∧
    (let i : Instr := .oclaim 5#5 1#6 2#8 0#3
     acts i (holding (ready i)) (fun s x => x.first && ((s.core (coreOf x.key)).heldBy (s.leadOf x.key)).meets ⟨claimSlots 5 1, 2#8⟩) = true) ∧
    (let i : Instr := .orel 4#5 2#6 0x81#8 3#3
     acts i (holding (ready i)) (fun s x => let own := (s.core (coreOf x.key)).heldBy (s.leadOf x.key)
       claimSlots 4 2 &&& ~~~own.slots == 0#32 && 0x81#8 &&& ~~~own.tiles == 0#8) = true) ∧
    (let i : Instr := .orel 3#5 2#6 0x81#8 3#3
     acts i (holding (ready i)) (fun s x => let own := (s.core (coreOf x.key)).heldBy (s.leadOf x.key)
       (⟨claimSlots 3 2 &&& ~~~own.slots, 0x81#8 &&& ~~~own.tiles⟩ : Names) != ⟨0#32, 0#8⟩) = true) ∧
    (∀ i ∈ ([.omap 31#5 .m 511#9 511#9 1#3, .mma 0#3 0#5 1#5 1#3 1#3 1#2 1#2 false 0#3, .aclr .i 0x0F#8 2#3, .oload 6#6 0#5 127#7 1#3,
      .aread 0#3 10#6 2#3 0#6 63#6 3#3, .awrite 3#3 4#6 1#3 8#6 3#6 0#3, .astat 36#8 0#3 0#6 63#6 0#4 0#3] : List Instr),
      acts i (ready i) (fun s x => !s.claimPending x.key (s.names x.g.launch i)) = true) ∧
    (∀ i ∈ ([.mwakeNow, .mwakeIdle 65535#16, .mstat .claims 6#8, .mstat .unit 6#8, .mstat .fault 6#8] : List Instr), issues i (ready i) = true) ∧
    MstatSel.unit ≠ .fault := by decide +kernel

/-- An operation of the matrix unit with an instruction. -/
def anOp (i : Instr) : Op := Op.ofPre ⟨9, 65536, 1, i, 0xF#32, [], 0#64, 0, 0, [], none, false, false⟩ 1 0

theorem witness_MatrixValues : ((anOp (.omap 5#5 .m 16#9 32#9 1#3)).instr = .omap 5#5 .m 16#9 32#9 1#3 ∧ Tab.rising (stand.core 0).maps = true) ∧
    ((anOp (.aclr .i 0x81#8 0#3)).instr = .aclr .i 0x81#8 0#3 ∧ 7 < 8 ∧ 63 < 64) ∧
    (0 < mmaKr 9 9 ∧ min (min 128 128) (mmaKr 9 9) ∣ mmaKr 9 9) ∧
    ((anOp (.oload 5#6 31#5 127#7 0#3)).instr = .oload 5#6 31#5 127#7 0#3 ∧ (anOp (.oload 5#6 31#5 127#7 0#3)).fault = 0 ∧ Memory.wf stand.mem = true ∧
      8191 < ((127#7).toNat + 1) * 64) ∧
    (let o := anOp (.awrite 7#3 5#6 0#3 0#6 63#6 0#3)
     o.instr = .awrite 7#3 5#6 0#3 0#6 63#6 0#3 ∧ o.fault = 0 ∧ (0#6).toNat ≤ 63 ∧ 63 ≤ (0#6).toNat + (63#6).toNat ∧ o.gotTag = []) ∧
    ([⟨0x7FC00000#32, 0x3A#8⟩, zeroImg] ≠ ([] : List Img) ∧ ∀ x ∈ ([⟨0x7FC00000#32, 0x3A#8⟩, zeroImg] : List Img), x.k ≤ 26) := by decide +kernel

theorem witness_EngineSteps :
    (copying.keyOf 0 0 = some 65536 ∧ (headOf copying 1).any (fun ge => ge.2.instr == aCopy && Tab.rising ge.1.streams &&
      (let r := copying.copyRanges (Pre.ofEntry ge.2 65536 ge.1.launch 1) (copying.part (copying.partOf ge.1)).secure
       copying.rangesFree (copying.partOf ge.1) r.1 r.2 && r.1 != [] && r.2 != [])) = true ∧ (copying.engine 0 0).ops.length < 64 ∧
      (((List.range 63).foldl (fun s n => s.updEngine 0 0 fun e => { e with ops := e.ops ++ [{ anOp aCopy with num := n + 1 }] }) copying).engine 0 0).ops.length < 64) ∧
    (mapping.keyOf 0 0 = some 65536 ∧ ((mapping.core 0).mxq.find? fun p => p.follow && mapping.sameTeam p.gang 65536) = none ∧
      (mapping.matrixNext? 0 65536).any (fun p => p.stream.isNone && mapping.matrixReady 0 65536 p) = true) ∧
    ((mapRegistered.core 0).gateOpen 1 = true ∧ mapRegistered.stops 0 = false ∧ (mapRegistered.core 0).waking = false ∧
      ((mapRegistered.engine 0 1).starts?).any (fun o => (mapRegistered.engine 0 1).ops == [o] && !isMma o.instr &&
        (mapRegistered.opFault 0 o).isSome && ((holding mapRegistered).opFault 0 o).isNone) = true) ∧
    ((copyRegistered.core 0).gateOpen 0 = true ∧ copyRegistered.stops 0 = false ∧ ((copyRegistered.engine 0 0).starts?).any (fun o =>
      (copyRegistered.engine 0 0).ops == [o] && (copyRegistered.copyFault 0 o).isNone) = true) ∧
    (let s := after (.engineStart 0 1) mapRegistered
     ((s.engine 0 1).next?).any (fun o => o.phase == .ended && s.opDrained 0 1 o.num && o.instr == .omap 5#5 .m 16#9 32#9 1#3) = true) ∧
    (((copyEnded.engine 0 0).next?).any fun o => o.phase == .ended && copyEnded.opDrained 0 0 o.num && !isXcopym o.instr && decide (o.fault < 8) &&
      decide (o.tok = 0)) = true := by decide +kernel

/-- A reservation and a claim that wait. -/
def reserving : State := after (.cbpushRes 6#8 3#4 1#4 2#3) stand
def taking : State := (after (.cbpopTake 6#8 3#4 1#4 2#3) stand).updCb 0 3 fun b => { b with filled := 1 }
def claiming : State := after (.oclaim 31#5 1#6 64#8 2#3) (holding stand)
def releasing : State := after (.orel 4#5 2#6 0x81#8 3#3) (holding stand)

theorem witness_BuffersClaimsPower :
    ((Tab.find? (reserving.core 0).cbs 3).any (fun b => decide (0 < b.free) && (b.waitRes.any fun r => r.gang == some 65536 &&
      (reserving.gang? 65536).any fun g => (g.pend.find? fun (p : Pend) => p.id == r.pend).isSome)) = true ∧ reserving.bufs = []) ∧
    ((Tab.find? (taking.core 0).cbs 3).any (fun b => decide (0 < b.filled) && (b.waitTake.any fun r => r.gang == some 65536 &&
      (taking.gang? 65536).any fun g => (g.pend.find? fun (p : Pend) => p.id == r.pend).isSome)) = true ∧ taking.bufs = []) ∧
    (0 ∈ someBuffer.reserved ∧ 0 < someBuffer.slots ∧ someBuffer.cp = 0 ∧ someBuffer.committed = [] ∧ someBuffer.slots ≠ 1 ∧
      ({ someBuffer with cp := 3 } : CBuf).cp ≠ 0 ∧ 3 ∉ ({ someBuffer with cp := 3 } : CBuf).committed) ∧
    ((claiming.core 0).claims.any (fun k => !((claiming.core 0).heldByOthers (claiming.leadOf k.gang)).meets k.names) = true ∧
      (claiming.core 0).claims.length = 1 ∧ Tab.rising (claiming.core 0).maps = true) ∧
    ((releasing.core 0).orels.any (fun k => ((releasing.teamOps (releasing.leadOf k.gang)).all fun o => !k.after.contains o.1) &&
      !releasing.teamDead k.gang) = true) ∧
    (3 < 4 ∧ stand.budgetMode 0 = false ∧ (stand.core 0).idle ≠ 0#16 ∧ (stand.core 0).waking = false) ∧
    ((stand.updCore 0 fun c => { c with waking := true }).core 0).waking = true ∧
    (gangWith (fun g => { g with qpri := 7 }) stand).budgetMode 0 = true := by decide +kernel

/-! ## Witnesses: nodes, edges and waves -/

theorem device_lt : Config.device.toNat < 1048576 := by
  have h := Config.device.isLt
  omega
/-- The location of slot 0 and of edge 0 of core 0 of a device read back. -/
theorem loc_fields (n : Nat) (h : n < 1048576) : (BitVec.ofNat 64 (n * 8388608)).toNat < 8796093022208 ∧ fieldOf (BitVec.ofNat 64 (n * 8388608)) 23 20 = n ∧
    fieldOf (BitVec.ofNat 64 (n * 8388608)) 13 10 = 0 ∧ fieldOf (BitVec.ofNat 64 (n * 8388608)) 0 13 = 0 := by
  unfold fieldOf
  rw [BitVec.toNat_ofNat]
  refine ⟨?_, ?_, ?_, ?_⟩ <;> omega
theorem edge_fields (n : Nat) (h : n < 1048576) : (BitVec.ofNat 64 (n * 536870912)).toNat < 562949953421312 ∧
    fieldOf (BitVec.ofNat 64 (n * 536870912)) 29 20 = n ∧ fieldOf (BitVec.ofNat 64 (n * 536870912)) 19 10 = 0 ∧
    fieldOf (BitVec.ofNat 64 (n * 536870912)) 0 19 = 0 := by
  unfold fieldOf
  rw [BitVec.toNat_ofNat]
  refine ⟨?_, ?_, ?_, ?_⟩ <;> omega
/-- The node slot 0 and the edge 0 of core 0 on this device. -/
def hereNode : Word64 := BitVec.ofNat 64 (Config.device.toNat * 8388608)
def hereEdge : Word64 := BitVec.ofNat 64 (Config.device.toNat * 536870912)
theorem hereNode_loc (s : State) (h : (s.part 0).ownsBank 0 = true) : s.nodeLoc? 0 hereNode = some 0 := by
  obtain ⟨h1, h2, h3, h4⟩ := loc_fields _ device_lt
  unfold State.nodeLoc?
  rw [show fieldOf hereNode 13 10 = 0 from h3, show fieldOf hereNode 23 20 = _ from h2, show fieldOf hereNode 0 13 = 0 from h4]
  simp [h, nodeKey]
  exact h1
theorem hereEdge_loc (s : State) (h : (s.part 0).ownsBank 0 = true) (h0 : 0 < s.edgeLimit 0) : s.edgeLoc? 0 false hereEdge = some 0 := by
  obtain ⟨h1, h2, h3, h4⟩ := edge_fields _ device_lt
  unfold State.edgeLoc?
  rw [show fieldOf hereEdge 19 10 = 0 from h3, show fieldOf hereEdge 29 20 = _ from h2, show fieldOf hereEdge 0 19 = 0 from h4]
  simp [h, h0, edgeKey]
  exact h1
/-- The unit's partition has node banks, and its handle register 2 holds a location. -/
def locating (w : Word64) (i : Instr) : State :=
  gangWith (fun g => { g with hregs := [(2, w)] }) ((ready i).updPart 0 fun p => { p with desc := [1#64, 0#64, 0#64, 0#64, 1#64] })
/-- The lanes of a unit reach the location that its handle register holds. -/
theorem locating_loc (w : Word64) (i : Instr) (mk l : Nat) (x : Seat) (h : x ∈ (locating w i).seats mk) (hk : x.key = 65536) :
    laneLoc x.g ⟨2#4, none, 0#12⟩ l = w := by
  have hg := (Laws.seat_facts h).1
  rw [hk] at hg
  have hh : x.g.hregs = [(2, w)] := by
    unfold locating gangWith at hg
    rw [Laws.gang_updGang, if_pos rfl] at hg
    obtain ⟨g, -, h⟩ := Option.map_eq_some_iff.1 hg
    rw [← h]
  simp [laneLoc, Gang.hreg, hh, Tab.at, Tab.find?]

/-- Node and edge words of every form, at lanes that hold a location. -/
def nodeReads : List Instr := [.ndrd .hdr 0#2 8#8 ⟨2#4, none, 0#12⟩ 1#4 0#3 0#3, .ndrd .mv 3#2 8#8 ⟨2#4, none, 0#12⟩ 1#4 2#3 0#3]
def nodeWrites : List Instr := [.ndwr .mb 0#2 8#8 ⟨2#4, none, 0#12⟩ 0#3 0#3, .ndwr .mv 3#2 8#8 ⟨2#4, none, 0#12⟩ 0#3 0#3]
def edgeWords : List Instr := [.edrd .edge 8#8 ⟨2#4, none, 0#12⟩ 1#4 2#3 0#3, .edwr .edge 8#8 ⟨2#4, none, 0#12⟩ 2#3 0#3]

theorem locating_units : (∀ i ∈ nodeReads ++ nodeWrites, issues i (locating hereNode i) = true ∧
      (∀ x ∈ (locating hereNode i).seats i.maskField, x.key = 65536 ∧ (locating hereNode i).partOf x.g = 0) ∧
      ((locating hereNode i).part 0).ownsBank 0 = true) ∧
    (∀ i ∈ edgeWords, issues i (locating hereEdge i) = true ∧
      (∀ x ∈ (locating hereEdge i).seats i.maskField, x.key = 65536 ∧ (locating hereEdge i).partOf x.g = 0) ∧
      ((locating hereEdge i).part 0).ownsBank 0 = true ∧ 0 < (locating hereEdge i).edgeLimit 0) := by decide +kernel

theorem witness_WaveWords_locations :
    (∀ i ∈ nodeReads ++ nodeWrites, let s := locating hereNode i
      issues i s = true ∧ ∀ x ∈ s.seats i.maskField, ∀ l, s.nodeLoc? (s.partOf x.g) (laneLoc x.g ⟨2#4, none, 0#12⟩ l) = some 0) ∧
    (∀ i ∈ edgeWords, let s := locating hereEdge i
      issues i s = true ∧ ∀ x ∈ s.seats i.maskField, ∀ l, s.edgeLoc? (s.partOf x.g) false (laneLoc x.g ⟨2#4, none, 0#12⟩ l) = some 0) := by
  constructor
  · intro i hi
    obtain ⟨h, hs, hb⟩ := locating_units.1 i hi
    refine ⟨h, fun x hx l => ?_⟩
    rw [locating_loc _ _ _ l x hx (hs x hx).1, (hs x hx).2]
    exact hereNode_loc _ hb
  · intro i hi
    obtain ⟨h, hs, hb, h0⟩ := locating_units.2 i hi
    refine ⟨h, fun x hx l => ?_⟩
    rw [locating_loc _ _ _ l x hx (hs x hx).1, (hs x hx).2]
    exact hereEdge_loc _ hb h0

theorem witness_WaveWords_nowhere : (∀ i ∈ nodeReads ++ nodeWrites, let s := locating 0x8000000000000000#64 i
      issues i s = true ∧ (s.seats i.maskField).any (fun x => maskOf (fun l => inMask x.act l &&
        (s.nodeLoc? (s.partOf x.g) (laneLoc x.g ⟨2#4, none, 0#12⟩ l)).isNone) != 0#32) = true) ∧
    (∀ i ∈ edgeWords, let s := locating 0x8000000000000000#64 i
      issues i s = true ∧ (s.seats i.maskField).any (fun x => maskOf (fun l => inMask x.act l &&
        (s.edgeLoc? (s.partOf x.g) false (laneLoc x.g ⟨2#4, none, 0#12⟩ l)).isNone) != 0#32) = true) := by decide +kernel

/-- The operations that start waves. -/
def waveWords : List Instr := [.mkmatch true false 3#6 20#8 2#4 .core 1#3, .mkset .vec false true false 3#6 0#6 20#8 2#4 .part 1#3,
  .mkset .bit true false true 3#6 4#6 20#8 2#4 .core 0#3, .mkclr .bit true false true 3#6 4#6 2#4 .cluster 0#3, .mkcount true false 4#6 2#4 .core 0#3,
  .mkprop .or true false true 2#6 0#6 12#8 0#8 2#4 .core 0#3, .mkpropv .minplus false true 2#6 0#6 12#8 3#8 2#4 .core 0#3,
  .mkcollect true false true 0#6 4#6 20#8 2#4 .core 0#3]

theorem witness_WaveWords : (∀ i ∈ waveWords, acts i (ready i) (fun _ _ => true) = true) ∧
    (let i : Instr := .mkwait 2#4
     acts i (ready i) (fun s x => !x.first || (s.teamOps (s.leadOf x.key)).all fun o => waveIdOf o.2 != some (2#4).toNat) = true) ∧
    issues (.mkstat 30#8 2#4) (ready (.mkstat 30#8 2#4)) = true ∧ (stand.gang? 65536).isSome = true := by decide +kernel

/-- Nodes in slots 3 and 4 of core 0. -/
def nodes : State := { stand.updPart 0 fun p => { p with desc := [1#64, 0#64, 0#64, 0#64, 1#64] } with
  nodes := [(3, { Node.empty with w0 := BitVec.ofNat 64 (2 ^ 48) }), (4, { Node.empty with w0 := BitVec.ofNat 64 (2 ^ 48), mb := 0x10#64 })] }
/-- A pattern without condition. -/
def anyType : List Img := [zeroImg, zeroImg, zeroImg, zeroImg]

/-- A wave with two starts and one message left. -/
def aWave (i : Instr) : Wave where
  pno := 0
  wid := 2
  foreign := false
  origin := 0
  num := 1
  seq := 5
  gang := 65536
  instr := i
  etypes := []
  vals := anyType
  engs := [(0, ⟨16, [3, 4], [⟨4, true, List.replicate 16 (0x40000000#32, 0x1A#8), 1⟩], [], false⟩)]
  scope := [0]
  started := []
  pool := 2 ^ 32 - 24
  away := 8
  asks := []
  lowhop := []
  delivered := []
  sent := []
  heard := []
  blocked := []
  sel := []
  ended := false
  noted := RemoteBack.none
def waving (i : Instr) (f : Wave → Wave) : State := { nodes with waves := [(5, f (aWave i))] }
theorem witness_NodeEvents :
    (∀ i ∈ waveWords, let s := waving i id
      (s.wave? 5).any (fun w => (Tab.at w.engs WaveEng.none 0).left.Nodup && (Tab.at w.engs WaveEng.none 0).left.contains 4 && s.startFree 0 w &&
        w.instr == i && !patBad w.vals) = true ∧ (s.node (nodeKey 0 4)).poison = false ∧ (s.node (nodeKey 0 4)).type ≠ 0) ∧
    (∀ i ∈ ([.mkprop .or true false true 2#6 0#6 12#8 0#8 2#4 .core 0#3, .mkpropv .minplus false true 2#6 0#6 12#8 3#8 2#4 .core 0#3] : List Instr),
      let s := waving i id
      (s.wave? 5).any (fun w => (propCmd w.instr).isSome && decide (Tab.at w.delivered 0 0 < 2 ^ 30) &&
        (Tab.at w.engs WaveEng.none 0).msgs.any fun m => !(s.node (nodeKey 0 m.slot)).poison && (s.node (nodeKey 0 m.slot)).type != 0) = true) ∧
    (let s := waving (.mkprop .or true false true 2#6 0#6 12#8 0#8 2#4 .core 0#3) fun w => { w with delivered := [(0, 2 ^ 30)] }
     (s.wave? 5).any (fun w => decide (2 ^ 30 ≤ Tab.at w.delivered 0 0) && !(Tab.at w.engs WaveEng.none 0).msgs.isEmpty && !w.foreign) = true) ∧
    (7 < 256 ∧ 63 < 64) := by decide +kernel

/-- A wave whose engine is idle, one that holds batches, and one whose pool answers. -/
def idleWave : State := waving (.mkclr .bit true true false 3#6 0#6 2#4 .core 0#3) fun w => { w with engs := [(0, ⟨16, [], [], [], false⟩)], away := 0, pool := 2 ^ 32 - 16 }
def holdingWave : State := waving (.mkprop .or true true false 2#6 0#6 12#8 0#8 2#4 .core 0#3) fun w =>
  { w with engs := [(0, ⟨1, [], [], [(1, false, [])], false⟩)] }
def askingWave : State := waving (.mkprop .or true true false 2#6 0#6 12#8 0#8 2#4 .core 0#3) fun w =>
  { w with engs := [(0, ⟨1, [], [], [(1, false, [])], true⟩)], asks := [0] }
/-- Batches: one to core 0 and one to a core of another device. -/
def batched : State := { holdingWave with batches := [⟨60, 5, 1, 0, 1, 0, 4, true, [⟨3, true, [], 1⟩], true, 0, false, none⟩,
    ⟨61, 5, 0, 1024 + 1024 * 9, 1, 0, 4, false, [], true, 0, false, none⟩] }
/-- A batch of another device. -/
def farBatch : RemoteBatch := ⟨3 * 1024, 3 * 1024, 0, 1, 2, 1, 5, 0#64, [], 4, []⟩

theorem witness_WaveCredit : (holdingWave.wave? 5).isSome = true ∧
    (idleWave.wave? 5).any (fun w => !w.foreign && !w.ended && Tab.rising w.engs &&
      (Tab.find? w.engs 0).any fun e => e.left.isEmpty && e.msgs.isEmpty && e.held.isEmpty) = true ∧
    (holdingWave.wave? 5).any (fun w => !w.foreign && !(Tab.at w.engs WaveEng.none 0).held.isEmpty && !(Tab.at w.engs WaveEng.none 0).asked) = true ∧
    (askingWave.wave? 5).any (fun w => !w.foreign && w.asks.contains 0 && decide (2 ≤ w.pool)) = true ∧
    (batched.batches.all fun b => b.id != 60 || !b.queued) = true ∧ (batched.batches.find? (fun b => b.id == 60 && b.dst < 1024)).any (fun b => (batched.wave? b.wave).any fun w => batched.canHold b.dst w) = true ∧
    batched.batchRefusal farBatch = some 1 ∧
    (batched.batches.find? (fun b => b.id == 61 && b.sent && 1024 ≤ b.dst)).any (fun b => (batched.wave? b.wave).any fun w => !w.foreign) = true ∧
    (batched.batches.map (·.id)).Nodup ∧ 0 < 1024 := by decide +kernel

theorem witness_StackUnit : (∀ i ∈ ([.sxred .sum .bf16 1#4 2#4 6#6 1#8 1#4 0#3 2#3, .sxred .max .z8 1#4 2#4 6#6 15#8 3#4 2#3 0#3,
      .sxbulkCopy 6#6 3#14 1#4 2#3, .sxbulkFill 6#6 3#14 1#4 2#3, .sxbulkCmp 6#6 3#14 4#4 1#4 0#3,
      .sxseqDone 36#8 2#4 40#8 1#4 1#3, .sxseqIssued 36#8 8#4 40#8 1#4 0#3, .sxseqStack 36#8 7#4 40#8 1#4 0#3, .sxseqFault 36#8 0#4 40#8 1#4 2#3] : List Instr),
      acts i (ready i) (fun _ _ => true) = true) ∧
    (∀ n ∈ [512, 600], let i : Instr := .sxwait 36#8 2#4 40#8
      let s := (gangWith (fun g => { g with regs := [(36, .uniform ⟨512#32, 0x1F#8⟩)] }) (ready i)).updEngine 0 (portEng 2) fun e => { e with done := n }
      acts i s (fun s x => decide ((x.g.pairAt 36 x.low0).toNat ≤ (s.engine (coreOf x.key) (portEng (portOf 2#4 40#8 x))).done % 2 ^ 64)) = true) ∧
    ([1#8, 2#8, 3#8].length = [1#8, 2#8, 4#8].length ∧ [1#8, 2#8, 3#8].take 2 = [1#8, 2#8, 4#8].take 2 ∧
      [1#8, 2#8, 3#8].getD 2 0#8 ≠ [1#8, 2#8, 4#8].getD 2 0#8) ∧
    ((stand.updEngine 0 (portEng 7) fun e => { e with ops := [{ anOp (.sxbulkFill 6#6 3#14 1#4 2#3) with phase := .running }] }).atStack 7 .running = true ∧
      (stand.setStack 7 { stand.stack 7 with held := false }).atStack 7 .running = false ∧ 7 < 8) := by decide +kernel
/-! ## Witnesses: the fabric and the links -/

/-- A quad in V28 to V31 with a group number and an offset. -/
def grouped (group ofs : Nat) (s : State) : State := gangWith (fun g => { g with
  regs := Tab.put (Tab.put g.regs 30 (.uniform ⟨BitVec.ofNat 32 group, 0x1F#8⟩)) 31 (.uniform ⟨BitVec.ofNat 32 ofs, 0x1F#8⟩) }) s
/-- The offsets in V20 are no multiples of 4. -/
def oddOffsets (s : State) : State := gangWith (fun g => { g with regs := Tab.put g.regs 20 (.uniform ⟨6#32, 0x1F#8⟩) }) s

theorem witness_FabricWords : (∀ i ∈ ([.fld .w32 12#8 8#8 20#8 2#4 1#3 0#3, .fld .w128 12#8 8#8 20#8 2#4 0#3 3#3, .fst .f32 .dyn 12#8 8#8 20#8 1#3 0#3,
      .fst .w64 .dyn 12#8 8#8 20#8 0#3 0#3, .fpeerExport 5#12 12#8, .fpeerRevoke 5#12, .fpeerMcdef 5#12 8#8] : List Instr), acts i (ready i) (fun _ _ => true) = true) ∧
    (let i : Instr := .fstRadd 12#8 8#8 20#8 1#3 0#3
     acts i (ready i) (fun _ x => (maskLanes x.act).all fun l => (x.offset 20#8 l).val.toNat % 4 == 0) = true) ∧
    (∀ op ∈ [AtomOp.add, .cas], ∀ sn ∈ [(FatSz.w32, 4), (.w64, 8)], let i : Instr := .fat op sn.1 12#8 8#8 20#8 16#8 2#4 1#3 0#3
     acts i (ready i) (fun _ x => (maskLanes x.act).all fun l => (x.offset 20#8 l).val.toNat % sn.2 == 0) = true ∧
     issues i (oddOffsets (ready i)) = true ∧ ((oddOffsets (ready i)).seats 0).any (fun x =>
       x.act &&& maskOf (fun l => (x.offset 20#8 l).val.toNat % sn.2 != 0) != 0#32) = true) ∧
    (let i : Instr := .fmcst 7#6 4#4 1#3
     let bad := fun (x : Seat) => let quad := x.lowQuad 7#6
       decide (4096 ≤ quadNat quad 2) || offOf (quadWord quad 0) % 256 != 0 || quadNat quad 3 % 256 != 0 || offOf (x.g.hreg 4) % 8 != 0
     acts i (grouped 4095 512 (ready i)) (fun s x => x.first && !bad x && (s.accFlaw x [⟨x.low0, quadWord (x.lowQuad 7#6) 0, 256, false, true, 1, false⟩,
       ⟨x.low0, x.g.hreg 4, 72, true, false, 1, false⟩]).isNone) = true ∧
     acts i (grouped 4096 512 (ready i)) (fun _ x => x.first && bad x) = true ∧ acts i (grouped 0 513 (ready i)) (fun _ x => x.first && bad x) = true) ∧
    (acts .fwait (ready .fwait) (fun s x => !s.fabOpen x.key s.issuedAt) = true) ∧
    (∀ i ∈ ([.fpeerStat 12#8 5#12, .fpeerPort 12#8 15#4] : List Instr), issues i (ready i) = true) ∧ 1023 < 1024 := by decide +kernel

/-- A designator of export 5 of partition 0 of a device. -/
def toward (dev : Nat) : Word64 := BitVec.ofNat 64 (dev * 17592186044416 + 671088640)
theorem toward_fields (n : Nat) (h : n < 1048576) : desigDevice (toward n) = n ∧ desigExport (toward n) = 5 ∧ desigPart (toward n) = 0 ∧ desigOffset (toward n) 0 = 0 := by
  unfold desigDevice desigExport desigPart desigOffset fieldOf toward
  rw [BitVec.toNat_ofNat]
  refine ⟨?_, ?_, ?_, ?_⟩ <;> omega
/-- One of two devices is another one. -/
theorem other_device : ∃ n ∈ [1, 2], n ≠ Config.device.toNat := by
  by_cases h : Config.device.toNat = 1
  · exact ⟨2, by decide, by omega⟩
  · exact ⟨1, by decide, Ne.symm h⟩

/-- Partition 0 admits every device to the scratchpad of core 0, and queue 3. -/
def exporting : State :=
  let s := stand.updPart 0 fun p => { p with
    exports := [(5, exportEntry (BitVec.ofNat 64 (7 * 2 ^ 60 + 2 ^ 48 + 0xFFFF00 * 2 ^ 24)) 0)]
    acl := [(1, BitVec.ofNat 64 (0xFFFFF * 2 ^ 24 + 1))] }
  s.updQueue 3 fun q => { q with w1 := BitVec.ofNat 64 (2 ^ 28) }

theorem witness_FabricAndLinks_serving : (∃ desig src, src ≠ Config.device.toNat ∧ desigDevice desig = Config.device.toNat ∧ desigExport desig ≠ 4095 ∧
      desigPart desig = 0 ∧ desigExport desig = 5 ∧ desigOffset desig 0 = 0 ∧ src ∈ [1, 2]) ∧
    (∀ src ∈ [1, 2], exporting.peerRefusal src 0 5 0 (.read 4) = none ∧ exporting.peerRefusal src 0 5 0 (.write [1#8, 2#8] false false) = none ∧
      exporting.peerRefusal src 0 5 8589934592 (.read 4) = some 5 ∧ exporting.poison = [] ∧
      ((exporting.part 0).exported (Tab.at (exporting.part 0).exports 0#64 5)).any (fun h => h.cls == .plain &&
        exporting.tagPlane 0 (exportCore (Tab.at (exporting.part 0).exports 0#64 5)) h == none) = true ∧
      (exporting.part 0).formed = true ∧ (exporting.part 0).inn = true ∧ (exporting.queue 3).part = 0 ∧
      (exporting.part 0).admits (exporting.queue 3).acl src = true) ∧
    ((stand.part 0).formed = true ∧ (stand.part 0).inn = true ∧ ((stand.updPart 0 fun p => { p with inn := false }).part 0).inn = false ∧
      (Tab.at (stand.part 0).exports 0#64 5).getLsbD 63 = false ∧
      let p := (stand.updPart 0 fun p => { p with exports := [(5, 0x8000000000000000#64)] }).part 0
      (Tab.at p.exports 0#64 5).getLsbD 63 = true ∧ (Tab.at p.exports 0#64 5).getLsbD (reqGrant (.read 4)) = false) := by
  refine ⟨?_, by decide +kernel, by decide +kernel⟩
  obtain ⟨n, h, hn⟩ := other_device
  obtain ⟨h1, h2, h3, h4⟩ := toward_fields _ device_lt
  exact ⟨_, n, hn, h1, by rw [h2]; decide, h3, h2, h4, h⟩

/-- Operations whose entries are at the head of stream 15. -/
def sending (i : Instr) : State := after i (ready i)
/-- A request that has been sent, and an operation of such requests. -/
def aReq (dev : Nat) (r : PeerReq) : FReq := { newReq 0 (toward dev) 0#32 0 4 r with sent := true }
def anFab (id : Nat) (rs : List FReq) : FabOp := ⟨65536, 1, { bareEntry (.fst .w32 .dyn 12#8 8#8 20#8 1#3 0#3) [] 0#64 with id := id }, rs, none, 0⟩
def twoOps (dev : Nat) (r : PeerReq) : State := { stand with fab := [anFab 70 [aReq dev r, aReq dev r], anFab 71 [aReq dev r]] }
/-- One such request of each of two gangs. -/
def twoGangs (dev : Nat) (r : PeerReq) : State := { stand with fab := [anFab 70 [aReq dev r], { anFab 71 [aReq dev r] with gang := 131072 }] }
/-- A list of one member for group 5. -/
def listed : State :=
  let s := under 2 stand
  let s := { s with mem := Memory.sets s.mem [(262144, 1#8), (262152, 9#8)] }
  after (.fpeerMcdef 5#12 8#8) s
/-- The record of a multicast stands to be written. -/
def recording : State := { stand with fab := [{ anFab 70 [aReq 3 (.line [])] with
  record := some [⟨0, true, .plain, 2, 0, [17592186044416], [1#8], .plain, 0, [], 0#64, [], 0#64⟩] }] }

theorem witness_FabricAndLinks_requests :
    (∀ i ∈ ([.fld .w32 12#8 8#8 20#8 2#4 1#3 0#3, .fst .w64 .dyn 12#8 8#8 20#8 0#3 0#3] : List Instr),
      (sending i).keyOf 0 0 = some 65536 ∧ (sending i).planeLive 0 = true ∧ (sending i).fab = [] ∧ (headOf (sending i) 15).any (fun ge =>
        ge.2.instr == i && Tab.rising ge.1.streams && !ge.1.gated ge.2 && (sending i).requests ge.2 != [] && ((sending i).requests ge.2).all fun r => !(sending i).planeHeld r) = true) ∧
    (∀ dev ∈ [1, 2], let s := twoOps dev (.write [1#8] false false)
      ((s.fabReq? 70 1).any fun or => (or.1.reqs.filter (·.ans.isNone)).length == 2 && or.1.record.isNone && or.2.ans.isNone && or.2.into.isNone && !or.2.gone &&
        desigDevice or.2.desig == dev && or.2.req == .write [1#8] false false && or.2.sent) = true ∧
      (s.fab.map (·.entry.id)).Nodup ∧ (∀ x ∈ s.fab, ∀ q ∈ x.reqs, q.into = none) ∧
      (({ s with planeDead := 255#8 } : State).fabReq? 70 1).any (fun or => !({ s with planeDead := 255#8 } : State).planeLive or.2.plane) = true) ∧
    (let s := twoGangs 1 (.radd 0x3F800000#32 0x1A#8 .rne false)
     (s.fabReq? (4480 / 64) (4480 % 64)).any (fun a => (s.fabReq? (4544 / 64) (4544 % 64)).any fun b =>
       a.2.req == .radd 0x3F800000#32 0x1A#8 .rne false && b.2.req == a.2.req && ([a.2, b.2].all fun r => r.sent && r.ans.isNone && r.into.isNone && !r.gone) &&
       s.inbox.isEmpty && s.keepsLine (70, 0) a.1 a.2 0 b.1 b.2 && decide (a.2.moment ≤ b.2.moment) && fieldOf a.2.desig 27 37 == fieldOf b.2.desig 27 37 && a.2.offset == b.2.offset) = true) ∧
    (listed.keyOf 0 0 = some 65536 ∧ listed.poison = [] ∧ listed.lost = [] ∧ listed.links = 3#2 ∧ (headOf listed 15).any (fun ge => ge.2.instr == .fpeerMcdef 5#12 8#8 &&
      !ge.1.gated ge.2 && (listed.rangesOf (listed.partOf ge.1)).isEmpty && listed.mcList (listed.partOf ge.1) (quarterOf 0) ge.2 == (1, some [9#64]) &&
      (ge.2.mcPieces 1).all fun p => p.cls == .dev false 0) = true) ∧
    ((recording.fab.find? (fun o => o.entry.id == 70)).any (fun o => o.record.any fun ps => (ps[0]?).any fun p =>
      p.cls == .plain && p.tagCells.isEmpty && p.tagCls == .plain && !recording.atomHolds p.cells && (p.space != 1 || recording.links.getLsbD p.link)) = true ∧
      recording.poison = []) := by decide +kernel

theorem witness_FabricAndLinks_planes : (15 < 16 ∧ (stand.port 15).up = true ∧ (stand.port 15).replays < 8 ∧
      8 ≤ ((stand.setPort 15 { stand.port 15 with replays := 8 }).port 15).replays) ∧
    (let s : State := { stand with planeDead := 1#8 }
     s.planeLive (s.planeOf 0) = false ∧ s.outOn 0 (s.planeOf 0) = false ∧ s.partner? 0 = some 4) ∧
    (let s : State := { stand with planeVia := [(0, 4)] }
     s.planeOf 0 ≠ 0 ∧ s.planeLive 0 = true ∧ Tab.rising s.planeVia = true ∧ s.planeHold.getLsbD 0 = false ∧ s.outOn 0 (s.planeOf 0) = false ∧
       ({ s with planeHold := 1#8 } : State).planeHold.getLsbD 0 = true) ∧
    (1 < 2 ∧ stand.links.getLsbD 1 = true) := by decide +kernel
/-! ## Witnesses: scheduling, queues and the system -/

/-- The gang has arrived at group 4 once, and its phase is over, or is still open. -/
def arrived (s : State) : State := gangWith (fun g => { g with arr := [(4, 1)] }) s
def opened (s : State) : State := s.updLaunch 1 fun l => { l with groups := l.groups.map fun x => { x with phase := 1 } }
/-- The unit's word waits. -/
def waitingAt (s : State) : State := gangWith (fun g => { g with waits := [⟨s.cur.part, s.cur.pc, 0⟩] }) s
/-- Lane 1 is in a part of its own. -/
def divided (s : State) : State := gangWith (fun g => { g with flow := g.flow.set 1 { g.flowAt 1 with part := 1 } }) s
/-- Queue 0 belongs to partition 0. -/
def owned (s : State) : State := s.updQueue 0 fun q => { q with w0 := mkAddr 2 0, w1 := 0#64 }
/-- A team in the ready set. -/
def readied : State := gangWith (fun g => { g with st := .ready }) stand
/-- A team that waits at a BARW of group 4. -/
def barred : State := after (.barw 4#8) (arrived (ready (.barw 4#8)))

theorem witness_BarriersAndScheduling :
    (let i : Instr := .barv 4#8 1#3
     acts i (arrived (opened (ready i))) (fun s x => (s.barFlaw x 4).isNone && s.rejoined && decide (Tab.at x.g.arr 0 4 ≤ s.phase x.g.launch 4)) = true) ∧
    (let i : Instr := .barw 4#8
     acts i (arrived (opened (ready i))) (fun s x => (s.barFlaw x 4).isNone && decide (Tab.at x.g.arr 0 4 ≤ s.phase x.g.launch 4)) = true) ∧
    (let i : Instr := .bars 4#8
     acts i (waitingAt (arrived (opened (ready i)))) (fun s x => (s.barFlaw x 4).isNone && s.hasArrived && decide (Tab.at x.g.arr 0 4 ≤ s.phase x.g.launch 4)) = true ∧
     acts i (ready i) (fun s x => (s.barFlaw x 4).isNone && !s.hasArrived && s.rejoined && decide (Tab.at x.g.arr 0 4 ≤ s.phase x.g.launch 4)) = true) ∧
    (∀ s ∈ [ready (.barq 12#8 4#8), arrived (ready (.barq 12#8 4#8))], acts (.barq 12#8 4#8) s (fun s x => (s.barFlaw x 4).isNone) = true) ∧
    (∀ g ∈ [0#8, 5#8, 6#8, 255#8], ∀ i ∈ ([.barv g 1#3, .barw g, .bars g, .barq 12#8 g] : List Instr),
      acts i (ready i) (fun s x => (s.barFlaw x g.toNat).isSome) = true) ∧
    ((stand.seats 0).any (fun x => (stand.group? x 6).isNone && (stand.group? x 0).any (fun g => !g.members.contains x.g.desig) &&
      (stand.group? x 5).any (fun g => g.members.contains x.g.desig && !g.bar) && (stand.group? x 4).any fun g => g.members.contains x.g.desig && g.bar) = true) ∧
    (∀ i ∈ ([.yield, .yieldBal, .prioSet 3#3, .prioRestore, .idemEnd] : List Instr), acts i (ready i) (fun _ _ => true) = true) ∧
    (let i : Instr := .idemBegin 2#8 16#32
     acts i (ready i) (fun s _ => s.united s.cur.key) = true ∧ issues i (divided (ready i)) = true ∧ (divided (ready i)).united (ready i).cur.key = false) ∧
    (let i : Instr := .qpost 8#8 4#4 0#12 2#4 1#3
     let src := fun (x : Seat) => laneAddr x.g ⟨4#4, none, 0#12⟩ 16 x.low0
     let sound := fun (s : State) (x : Seat) => x.first && (s.accFlaw x [⟨x.low0, src x, 64, false, true, 1, false⟩]).isNone
     let mine := fun (s : State) (x : Seat) => fieldOf (s.queue ((x.g.pairAt 8 x.low0).toNat % 65536)).w1 0 5 == s.partOf x.g
     acts i (owned (ready i)) (fun s x => sound s x && mine s x && offOf (src x) % 64 == 0) = true ∧
     acts i (ready i) (fun s x => sound s x && !mine s x) = true ∧
     let shifted := gangWith (fun g => { g with hregs := [(4, mkAddr 2 4100)] }) (owned (ready i))
     acts i shifted (fun s x => sound s x && mine s x && offOf (src x) % 64 != 0) = true) ∧
    (barred.leadAt 0 0 = some 65536 ∧ (barred.gang? 65536).any (fun g => g.st == .active) = true ∧ barred.longWait 65536 = true ∧
      barred.wouldPass 0 0 65536 = false) ∧
    (readied.leadAt 0 0 = some 65536 ∧ (readied.gang? 65536).any (fun g => g.st == .ready && readied.firstReady 0 65536 g &&
      decide ((readied.activeOn 0).length + g.mates.length ≤ 8)) = true) ∧
    (((stand.team 65536).map (·.1)).Nodup ∧ (stand.team 65536).all (fun kg => stand.gang? kg.1 == some kg.2) = true ∧ stand.team 65536 ≠ []) ∧
    (stand.core 0).under = false ∧ ((stand.updCore 0 fun c => { c with under := true }).core 0).under = true := by decide +kernel

/-- Queue 0 with one packet in its ring, which no check admits; and one with a launch of one gang. -/
def ringing : State := (owned stand).updQueue 0 fun q => { q with tail := 1#32 }
def launchRecord : List Word64 := [BitVec.ofNat 64 (2 ^ 48)] ++ List.replicate 23 0#64 ++
  [mkAddr 1 0, mkAddr 1 0, 0#64, BitVec.ofNat 64 (2 ^ 59 + 1), 0#64] ++ List.replicate 35 0#64
def launching : State := { ringing with
  mem := Memory.sets ringing.mem (wordCells 262144 [BitVec.ofNat 64 (2 ^ 56), mkAddr 2 8192] ++ wordCells 393216 launchRecord) }
/-- A queue with a packet that has been taken and has ended. -/
def doneQueue : State := (owned stand).updQueue 0 fun q => { q with tail := 1#32, head := 1#32, taken := [⟨0, some 0, true, false⟩] }
/-- A post at the head of stream 2. -/
def posting : State := after (.qpost 8#8 4#4 0#12 2#4 1#3) (owned (ready (.qpost 8#8 4#4 0#12 2#4 1#3)))
/-- A launch with nothing left. -/
def lastOne : State := { doneQueue with launches := [(1, { placedLaunch with gangs := [(0, 65536)], gone := [65536] })] }.updQueue 0 fun q =>
  { q with taken := [⟨0, none, false, false⟩] }

theorem witness_QueuesAndLaunches : ((ringing.queue 0).part ≠ 31 ∧ (stand.queue 9).part = 31) ∧
    (ringing.takeable (ringing.queue 0) = true ∧ ringing.servesNext 0 (ringing.queue 0) = true ∧ ringing.headTake (ringing.queue 0) (ringing.headOf (ringing.queue 0)) = .done 1) ∧
    (launching.takeable (launching.queue 0) = true ∧ launching.servesNext 0 (launching.queue 0) = true ∧
      (match launching.headTake (launching.queue 0) (launching.headOf (launching.queue 0)) with
        | .launch _ _ ps => ps == [⟨0, 0, 0⟩]
        | _ => false) = true) ∧
    ((doneQueue.queue 0).taken.any (fun t => t.status == some 0) = true) ∧
    (posting.keyOf 0 0 = some 65536 ∧ posting.poison = [] ∧ posting.hasUndrained 65536 none = false ∧ (posting.queue 0).full = false ∧
      (headOf posting 2).any (fun ge => ge.2.instr == .qpost 8#8 4#4 0#12 2#4 1#3 && !ge.1.gated ge.2 && Tab.rising ge.1.streams &&
        ge.1.streams.all (fun t => t.2.all fun x => !decide (x.id < ge.2.id)) && (((Tab.at ge.2.vals [] 0).getD 0 zeroImg).val).toNat % 65536 == 0) = true) ∧
    ((lastOne.launch? 1).any (fun x => lastOne.launchDone 1 x && (lastOne.part x.pno).inn) = true ∧ Tab.rising lastOne.launches = true) := by decide +kernel

/-- Every special register that may be written, at the bounds of what it admits. -/
def writables : List (Csr × Nat) := [(.rndctl, 144), (.sigfloor, 55), (.memctl, 1), (.idxcnt, 4294967295), (.tcause, 33554431), (.tpc, 18446744073709551615)]
/-- V8 and V9 hold a word. -/
def holdsWord (n : Nat) (s : State) : State := gangWith (fun g => { g with
  regs := [(8, .uniform ⟨BitVec.ofNat 32 n, 0x1F#8⟩), (9, .uniform ⟨BitVec.ofNat 32 (n / 4294967296), 0x1F#8⟩)] }) s

theorem witness_SpecialRegisters : (∀ c ∈ [Csr.gangstat, .gangloc, .ganggrp, .rndctl, .sigfloor, .memctl, .idxcnt, .gangprio, .tcause, .tpc, .tlane, .tinfo0],
      issues (.csrrd 12#8 c) (ready (.csrrd 12#8 c)) = true) ∧
    (∀ c ∈ [Csr.tinfo1, .tinfo2, .tinfo3, .tstat, .partsys, .mxwake, .mxbudget, .nodecfg, .schedctl, .balstat, .cycle],
      issues (.csrrd 12#8 c) (ready (.csrrd 12#8 c)) = true ∧ ((ready (.csrrd 12#8 c)).seats 0).length = 1) ∧
    (∀ cn ∈ writables, ∀ i ∈ ([.csrwr cn.1 8#8, .csrwrSet cn.1 8#8] : List Instr),
      acts i (holdsWord cn.2 (ready i)) (fun s x => csrAllows cn.1 (x.g.pairAt 8 x.low0) && csrAllows cn.1 (s.csrRead x cn.1 ||| x.g.pairAt 8 x.low0)) = true) ∧
    (∀ cn ∈ writables, acts (.csrwrClr cn.1 8#8) (holdsWord cn.2 (ready (.csrwrClr cn.1 8#8))) (fun s x =>
      csrAllows cn.1 (s.csrRead x cn.1 &&& ~~~x.g.pairAt 8 x.low0)) = true) ∧
    (∀ cn ∈ writables.take 5, acts (.csrwr cn.1 8#8) (holdsWord (cn.2 + 1) (ready (.csrwr cn.1 8#8))) (fun _ x => !csrAllows cn.1 (x.g.pairAt 8 x.low0)) = true) ∧
    (∀ c ∈ [Csr.gangstat, .tlane, .balstat], ∀ i ∈ ([.csrwr c 8#8, .csrwrSet c 8#8, .csrwrClr c 8#8] : List Instr),
      issues i (ready i) = true ∧ c ∉ [Csr.rndctl, .sigfloor, .memctl, .idxcnt, .tcause, .tpc]) := by decide +kernel

theorem witness_TrapWord : issues (.trap 0x3FFFFF#22) (ready (.trap 0x3FFFFF#22)) = true := by decide +kernel

/-- The gang is in its trap handler, the whole gang's flow kept. -/
def handling (s : State) : State := gangWith (fun g => { g with
  tstat := 1#64, trapFlow := g.flow, tgroup := 3#32, tpc := mkAddr 1 64, hregs := Tab.put g.hregs 4 (mkAddr 2 0) }) s

theorem witness_ReturnsAndContexts :
    (∀ i ∈ ([.rte, .rteNext] : List Instr), acts i (handling (ready i)) (fun s x => s.rejoined && x.g.inTrap) = true ∧
      (((handling (ready i)).team (ready i).cur.key).map (·.1)).Nodup ∧ (handling (ready i)).team (ready i).cur.key ≠ [] ∧
      acts i (ready i) (fun s x => s.rejoined && !x.g.inTrap) = true) ∧
    ((handling stand).gang? 65536).any (fun g => decide (0 < g.flow.length) && decide (0 < g.trapFlow.length) && inMask g.live 0 && inMask g.tgroup 0 &&
      inMask g.live 3 && !inMask g.tgroup 3 && !g.tstat.getLsbD 1 && decide (3 < g.trapFlow.length)) = true ∧
    ((gangWith (fun g => { g with tstat := 3#64, tmark := 0x1000000#64 }) (handling stand)).gang? 65536).any (fun g => g.tstat.getLsbD 1 && g.tmark.getLsbD 24) = true ∧
    (∀ i ∈ ([.ctxsave 8#8 2#4 1#3, .ctxload 12#8 8#8 3#4 2#4 1#3] : List Instr), acts i (ready i) (fun _ x => !x.g.inTrap) = true) ∧
    (issues (.halt 9#8) (ready (.halt 9#8)) = true ∧ ((ready (.halt 9#8)).seats 0).all (fun y => y.g.launch == 1 && y.first) = true ∧ (stand.launch? 1).isSome = true) ∧
    (let i : Instr := .ctxsave 8#8 2#4 1#3
     acts i (handling (ready i)) (fun s x => x.g.inTrap && x.g.pend.all (·.landed) && (s.accFlaw x [⟨x.low0, x.g.pairAt 8 x.low0,
       (s.image x.g x.g.trapFlow (s.gangprio x.key)).length, true, false, 1, false⟩]).isNone) = true) ∧
    (let i : Instr := .ctxload 12#8 8#8 3#4 2#4 1#3
     acts i (handling (ready i)) (fun s x => x.g.inTrap && (s.accFlaw x [⟨x.low0, x.g.pairAt 8 x.low0, 0x500, false, true, 1, false⟩]).isNone) = true) := by decide +kernel
/-! ## Witnesses: handles, partitions, the window and the unit's own steps -/

/-- The unit is a system gang. -/
def system (s : State) : State := s.updPart 0 fun p => { p with partsys := 0x10000#64, desc := (p.desc ++ List.replicate 8 0#64).take 6 ++ [100#64] }
/-- The state that an event leaves. -/
def out (n : Next) : State :=
  match n with
  | .next t => t
  | _ => stand

/-- A handle operation at the head of stream 2, its address at handle 2. -/
def asking (i : Instr) : State := after i (system (ready i))
def aHnew : Instr := .hnew 12#8 8#8 3#4 2#4 1#3
def aHrevoke : Instr := .hrevoke 12#8 8#8 3#4 2#4 1#3
def aHmigr : Instr := .hmigr 12#8 8#8 5#3 3#4 2#4 1#3
def aSave : Instr := .chkptSave 12#8 8#8 3#4 2#4 1#3
/-- The operation of an entry, gone on outside its stream. -/
def aHop (i : Instr) (h : Option (Nat × Handle)) (target : Nat) : HandleOp := ⟨65536, 0, bareEntry i [] 0#64, 0#64, h, target⟩
def hopped (i : Instr) (h : Option (Nat × Handle)) (target : Nat) : State := { stand with hops := [aHop i h target], moving := [(target, 5)] }

theorem witness_HandleOperations :
    (∀ i ∈ ([aHnew, .hmap 12#8 8#8 3#4 2#4 1#3, aSave, .chkptLoad 12#8 8#8 3#4 2#4 1#3, aHmigr, aHrevoke] : List Instr),
      acts i (system (ready i)) (fun s x => x.first && s.sysRights x.g && [16, 24].all fun n =>
        (s.accFlaw x [⟨x.low0, x.g.pairAt 8 x.low0, n, false, true, 1, false⟩]).isNone) = true ∧
      acts i (ready i) (fun s x => x.first && !s.sysRights x.g) = true) ∧
    (∀ i ∈ ([aHnew, aHmigr] : List Instr), let s := asking i
      s.keyOf 0 0 = some 65536 ∧ s.hops = [] ∧ (s.gang? 65536).any (fun g => (g.stream 2).head?.any (fun e => e.instr == i && !g.gated e &&
        (g.stream 2 == e :: (g.stream 2).tail)) && (List.range 17).all fun m => m == 2 || (g.stream m).isEmpty) = true) ∧
    ((headOf (asking aHmigr) 2).any (fun ge => let s := asking aHmigr
      let a := (Tab.find? ge.2.addrs 0).getD 0#64
      isMappable (hndOf a) && (Tab.find? ge.2.maps (hndOf a)).any fun h => attrSpace h.attr == 0 && decide (offOf a < attrBytes h.attr) &&
        s.stackOf (h.phys (offOf a) / 65536) != 5) = true ∧ (asking aHmigr).moving = []) ∧
    (let s := hopped aHrevoke (some (2, ⟨0#64, [20], 0⟩)) 0
     let o := aHop aHrevoke (some (2, ⟨0#64, [20], 0⟩)) 0
     s.keyOf 0 0 = some 65536 ∧ s.hops.find? (fun x => x.gang == 65536 && x.entry.id == o.entry.id) = some o ∧ o.entry.instr = aHrevoke ∧
       s.mapInUse o.pno 2 ⟨0#64, [20], 0⟩ o.entry.id = false) ∧
    (let s := hopped aHmigr none 4
     let o := aHop aHmigr none 4
     s.hops.find? (fun x => x.gang == 65536 && x.entry.id == o.entry.id) = some o ∧ s.moving.find? (fun x => x.1 == o.target) = some (4, 5) ∧
       s.stackBusy o.target = false ∧ s.stackOf 4 ≠ 5 ∧ Tab.rising s.pieceStack = true) ∧
    (let s := hopped aSave none 1
     let o := aHop aSave none 1
     s.hops.find? (fun x => x.gang == 65536 && x.entry.id == o.entry.id) = some o ∧ o.target ≠ 0 ∧ s.opDrained (coreOf o.gang) 11 o.entry.id = true) ∧
    (Memory.wf stand.mem = true ∧ stand.poison = [] ∧ 65535 < 65536 * 1) ∧
    (let s := system stand
     let attr : Word64 := BitVec.ofNat 64 (2 ^ 59 + 3 * 2 ^ 52)
     s.attrOk 0 0 attr = true ∧ attrSpace attr = 0 ∧ attrTso attr = false ∧ attrLinear attr = true ∧ fieldOf 40#64 24 40 = 0 ∧
       (s.heldPieces 0).length + (fieldOf attr 0 24 + 1) ≤ fieldOf ((s.part 0).word 6) 0 32 ∧ s.wantHandle 0 40#64 = some 40 ∧
       fieldOf attr 48 3 = 0 ∧ fieldOf attr 0 24 + 1 = 1) := by decide +kernel

/-- Whatever the free value is, a stack with a free piece among its candidates gives one. -/
theorem a_free_piece (s : State) (taken : List Nat) (stack place : Nat)
    (h : ((s.candidates stack (taken.length + s.pieceStack.length + 1)).find? fun p => !taken.contains p).isSome = true) :
    (s.freePiece? taken stack place).isSome = true := by
  unfold State.freePiece?
  dsimp only
  split
  · rfl
  · exact h
theorem a_first_piece (s : State) (taken : List Nat) (h : (s.freePiece? taken 0 0).isSome = true) : (s.freeOf? taken [0] 0).isSome = true := by
  obtain ⟨p, hp⟩ := Option.isSome_iff_exists.1 h
  unfold State.freeOf?
  dsimp only
  split
  · rename_i hc
    rw [show s.stackOf (Config.pickPiece s.tick 0) = 0 by simpa using hc, hp]
    rfl
  · simp only [List.findSome?_cons, hp]
    rfl
theorem one_piece (s : State) (h : (s.freeOf? (s.allHeld ++ []) [0] 0).isSome = true) : ∃ ps, s.takePieces true 0 1 = some ps := by
  obtain ⟨q, hq⟩ := Option.isSome_iff_exists.1 h
  refine ⟨[q], ?_⟩
  unfold State.takePieces
  simp only [List.range_succ, List.range_zero, List.nil_append, List.foldl_cons, List.foldl_nil, Option.bind_some, if_true, hq, Option.map_some]
theorem some_candidate : (((system stand).candidates 0 (((system stand).allHeld ++ []).length + (system stand).pieceStack.length + 1)).find?
      fun p => !((system stand).allHeld ++ []).contains p).isSome = true ∧
    (((asking aHmigr).candidates 5 ((asking aHmigr).allHeld.length + (asking aHmigr).pieceStack.length + 1)).find?
      fun p => !(asking aHmigr).allHeld.contains p).isSome = true := by decide +kernel
theorem witness_HandleOperations_pieces : (∃ ps, (system stand).takePieces true 0 1 = some ps) ∧ (asking aHmigr).freePiece? (asking aHmigr).allHeld 5 0 ≠ none :=
  ⟨one_piece _ (a_first_piece _ _ (a_free_piece _ _ 0 0 some_candidate.1)), Option.isSome_iff_ne_none.1 (a_free_piece _ _ 5 0 some_candidate.2)⟩
/-- A command of the management window with its arguments, under way. -/
def commanded (code pno : Nat) (args : List Word64) (s : State) : State := { s with mgmt := { s.mgmt with
  mcmd := BitVec.ofNat 64 (code * 2 ^ 56 + pno * 2 ^ 51), mstatus := 1#64, marg := (indexFrom 0 args).filter fun a => a.2 != 0#64 } }
def begun (s : State) (code : Nat) (needs : Bool) : Bool := s.mgmt.busy && s.mgmt.code == code && s.mgmt.flaw needs == 0
/-- Partition 0 holds one cluster, and is swapped in, out or stopping. -/
def small (f : Part → Part) (s : State) : State := s.updPart 0 fun p => f { p with desc := [1#64] }
def away (p : Part) : Part := { p with inn := false, shadow := [(0, ⟨Core.fresh, [], [], [(65536, placedGang 1)], []⟩)] }

/-- PFORM of partition 3 with cluster 2 and a piece of quarter 0's die scratchpad, beside no other. -/
def forming : State := commanded 1 3 [4#64, 0#64, 1#64] State.reset
def descriptor : Part := { Part.unformed with desc := (List.range 8).map forming.mgmt.arg }
theorem witness_PartitionCommands_form : (begun forming 1 (descriptor.secure || forming.onSecure) = true ∧ forming.mgmt.part = 3 ∧ descriptor.fieldsOk = true ∧
      (forming.part 3).formed = false ∧ forming.mgmt.power ≠ 3#2 ∧ descriptor.fitsBeside forming.formed = true) ∧
    descriptor.dieShare 0 = 1 ∧ (∀ o ∈ forming.formed, (o.diePiecesOf 0).length = o.dieShare 0) ∧ Memory.wf forming.mem = true := by
  decide +kernel
theorem witness_PartitionCommands :
    (let s := commanded 2 0 [] (small away stand)
     begun s 2 s.onSecure = true ∧ s.mgmt.part = 0 ∧ (s.part 0).formed = true ∧ (s.part 0).inn = false ∧
       (s.queues.all fun q => q.2.part != 0 || q.2.idle) = true) ∧
    (let s := commanded 3 0 [] (small id stand)
     begun s 3 s.onSecure = true ∧ (s.part 0).formed = true ∧ (s.part 0).inn = true ∧ (s.part 0).stopping = false ∧ s.swapFits (s.part 0) = true) ∧
    (let s := small (fun p => { p with stopping := true }) stand
     (s.part 0).formed = true ∧ (s.part 0).inn = true ∧ (s.part 0).stopping = true ∧ s.swapReady 0 (s.part 0) = true ∧
       (s.part 0).hasCluster (clusterOf (coreOf 65536)) = true ∧ (s.part 0).hasCluster (clusterOf 16) = false) ∧
    (let s := commanded 4 0 [] (small away stand)
     begun s 4 s.onSecure = true ∧ (s.part 0).formed = true ∧ (s.part 0).inn = false ∧ (s.formed.any fun x => x.inn && x.meets (s.part 0)) = false ∧
       ((s.part 0).shadow.map (·.1)).Nodup ∧ ((s.part 0).shadow.flatMap fun h => h.2.gangs.map (·.1)).Nodup) := by decide +kernel

theorem witness_PartitionCommands_coreset :
    (let s := commanded 5 0 [0#64, 1023#64, 0x10064#64, 0x5000000000000#64, 1#64] (small id stand)
     begun s 5 s.coresetSecure = true ∧ s.mgmt.part = 0 ∧ s.mgmt.arg 0 = 0#64 ∧ fieldOf (s.mgmt.arg 2) 24 40 = 0 ∧ fieldOf (s.mgmt.arg 2) 16 8 ≠ 0 ∧
       fieldOf (s.mgmt.arg 3) 0 48 = 0 ∧ fieldOf (s.mgmt.arg 4) 1 63 = 0 ∧ (s.formed.any fun p => p.inn && p.hasCluster (clusterOf 1023)) = false) ∧
    (let s := commanded 5 0 [1#64, 7#64, 0x5030000000#64] stand
     begun s 5 s.coresetSecure = true ∧ s.mgmt.arg 0 = 1#64 ∧ (s.mgmt.arg 1).toNat < 8 ∧ fieldOf (s.mgmt.arg 2) 40 24 = 0 ∧ fieldOf (s.mgmt.arg 2) 0 28 = 0) ∧
    (let s := commanded 5 0 [2#64, 65535#64, mkAddr 2 0, 0x0800000000000000#64] stand
     let q : Queue := { s.queue 65535 with w0 := s.mgmt.arg 2, w1 := s.mgmt.arg 3 }
     begun s 5 s.coresetSecure = true ∧ s.mgmt.arg 0 = 2#64 ∧ q.fieldsOk = true ∧ (s.queue 65535).idle = true ∧ s.sharesFit 65535 q = true) ∧
    (let s := commanded 5 0 [3#64, 0#64, 0x10003#64] stand
     begun s 5 s.coresetSecure = true ∧ s.mgmt.arg 0 = 3#64 ∧ fieldOf (s.mgmt.arg 2) 17 47 = 0 ∧ (s.part 0).formed = true) := by decide +kernel

theorem witness_PartitionCommands_refused : (stand.mgmt.busy = false ∧ (commanded 9 0 [] stand).mgmt.busy = true ∧ (commanded 9 0 [] stand).mgmt.code ≠ 8 ∧
      (let s : State := { commanded 8 0 [] stand with mgmt := { (commanded 8 0 [] stand).mgmt with mcmd := 0x0800000000000001#64 } }
       s.mgmt.busy = true ∧ s.mgmt.code = 8 ∧ fieldOf s.mgmt.mcmd 0 50 ≠ 0) ∧
      let s := commanded 10 0 [2#64] stand
      s.mgmt.busy = true ∧ s.mgmt.code = 10 ∧ fieldOf s.mgmt.mcmd 0 50 = 0 ∧ (s.mgmt.arg 0).getLsbD 1 = true ∧ s.mgmt.signed = false) := by decide +kernel

theorem witness_WindowAndPower :
    (∀ c ∈ [6, 7], let s := commanded c 0 [1#64] (small away stand)
      begun s c false = true ∧ fieldOf (s.mgmt.arg 0) 1 63 = 0 ∧ (s.parts.any fun p => p.2.inn) = false ∧ Memory.wf s.drainDevice.mem = true) ∧
    begun (commanded 8 0 [1#64] stand) 8 false = true ∧
    (let s := commanded 9 0 [] stand
     begun s 9 false = true ∧ fwOk s.apByte (2 ^ 27) s.mgmt.rollback = false ∧ Memory.wf s.mem = true) ∧
    (let s := commanded 10 0 [1#64] stand
     begun s 10 ((s.mgmt.arg 0).getLsbD 1) = true ∧ fieldOf (s.mgmt.arg 0) 2 20 = 0 ∧ fieldOf (s.mgmt.arg 0) 59 5 < 20) ∧
    (let s : State := { stand with mgmt := { stand.mgmt with apbase := BitVec.ofNat 64 (2 * 2 ^ 35 + 1) } }
     s.mgmt.busy = false ∧ (s.aperture? 262136 8).isSome = true ∧ 262136 + 8 ≤ 2 ^ 27) ∧
    (let s : State := { stand with mgmt := { stand.mgmt with fwstat := 1#64 } }
     s.mgmt.busy = false ∧ s.mgmt.running = true ∧ s.mgmt.power ≠ 3#2) ∧
    (stand.mgmt.running = false ∧ fieldOf 0x0600000000000000#64 56 8 ≠ 8 ∧ fieldOf 0x0600000000000000#64 56 8 ≠ 9) ∧
    (stand.mgmt.power = 1#2 ∧ ((small away stand).parts.any fun p => p.2.inn) = false ∧ (small away stand).mgmt.power = 1#2 ∧
      ({ stand with mgmt := { stand.mgmt with power := 2#2 } } : State).mgmt.power = 2#2) ∧
    (6291455 < 6291456 ∧ 7 < 8 ∧ stand.migrates 6291455 = false ∧ stand.stackBusy 6291455 = false ∧ (∀ m ∈ stand.moving, m.1 ≠ 6291455) ∧
      let s : State := { stand with moving := [(9, 5)] }
      s.migrates 9 = false ∧ s.stackBusy 9 = false ∧ s.moving.find? (fun x => x.1 == 9) = some (9, 5) ∧ s.stackOf 9 ≠ 5 ∧ Tab.rising s.pieceStack = true) ∧
    (31 < 32 ∧ 18446744073709551615 + [1#8].length ≤ 2 ^ 64 ∧ Memory.wf stand.mem = true) := by decide +kernel

/-- The unit stands at a word outside a clause, or at its clause's header. -/
def atWord : State := gangWith (fun g => { g with flow := g.flow.map fun f => { f with rem := 0 } }) (State.reset.withFetchWord 64 0)
def atHeader : State := gangWith (fun g => { g with flow := g.flow.map fun f => { f with rem := 0, pc := mkAddr 1 0 } }) (State.reset.withFetchWord 64 0)
/-- Every lane waits at a REGANG. -/
def regang : State := gangWith (fun g => { g with flow := g.flow.map fun f => { f with rgw := true } }) (State.reset.withFetchWord 64 (0x36 * 2 ^ 54))
/-- A unit that waits at BARW or WAITTOK, its condition met since. -/
def barPassable : State := (out (step (gangWith (fun g => { g with arr := [(0, 1)] }) (State.reset.withFetchWord 64 ((encode (.barw 0#8)).headD 0#64).toNat)))).updLaunch 1
  fun l => { l with groups := l.groups.map fun g => { g with phase := 1 } }
def tokPassable : State := gangWith (fun g => { g with toks := [] })
  (out (step (gangWith (fun g => { g with toks := [(1, 1)] }) (State.reset.withFetchWord 64 ((encode (.waittok 1#7)).headD 0#64).toNat))))
/-- A trap that waits for the next word boundary. -/
def deferring : State := gangWith (fun g => { g with deferred := [{ code := 0x0D, detail := 0, lanes := 2#32, info0 := 0#64, info1 := 0#64, info2 := 0#64, info3 := 0#64 }] })
  (State.reset.withFetchWord 64 0)
/-- The unit whose turn it is. -/
def theUnit (s : State) : Option (Machine.Unit × Gang) := (s.unit? 0 0 0).bind fun u => (s.gang? u.key).map fun g => (u, g)

theorem witness_UnitEvents :
    ((theUnit atWord).any fun ug => (atWord.nextDeferred ug.1.key).isNone && ug.1.flow.rem == 0 && (atWord.kept? ug.1 0).isNone &&
      (atWord.fetchFault (atWord.partOf ug.2) (coreOf ug.1.key) ug.1.pc).isNone && kindOf (atWord.fetchAt (atWord.partOf ug.2) (coreOf ug.1.key) ug.1.pc) != 2#2 &&
      !((atWord.team ug.1.key).any fun kg => kg.2.inTrap)) = true ∧
    ((theUnit atHeader).any fun ug => (atHeader.nextDeferred ug.1.key).isNone && ug.1.flow.rem == 0 && (atHeader.kept? ug.1 0).isNone &&
      (atHeader.fetchFault (atHeader.partOf ug.2) (coreOf ug.1.key) ug.1.pc).isNone &&
      (let w := atHeader.fetchAt (atHeader.partOf ug.2) (coreOf ug.1.key) ug.1.pc
       kindOf w == 2#2 && headerBad w == 0#64 && fieldOf w 40 4 == 0 && (atHeader.team ug.1.key).all fun kg => atHeader.headerReady kg w)) = true ∧
    (regang.leadAt 0 0 = some 65536 ∧ regang.mayIssue 65536 = true ∧ (regang.team 65536).any (fun kg => kg.2.alive) = true ∧
      (regang.team 65536).all (fun kg => (maskLanes kg.2.live).all fun l => decide (l / 4 < kg.2.slices) && (kg.2.flowAt l).rgw &&
        (kg.2.flowAt l).pc == mkAddr 1 8) = true) ∧
    ((theUnit barPassable).any fun ug => (barPassable.nextDeferred ug.1.key).isNone && ug.2.waitsAt 0 ug.1.pc && ug.1.flow.rem != 0 &&
      match barPassable.nextWord ug.1 0 with
      | .run i t => i == Instr.barw 0#8 && issues i t && (t.seats 0).all fun x => (t.barFlaw x 0).isNone && decide (Tab.at x.g.arr 0 0 ≤ t.phase x.g.launch 0)
      | _ => false) = true ∧
    ((theUnit tokPassable).any fun ug => (tokPassable.nextDeferred ug.1.key).isNone && ug.2.waitsAt 0 ug.1.pc && ug.1.flow.rem != 0 &&
      match tokPassable.nextWord ug.1 0 with
      | .run i t => i == Instr.waittok 1#7 && issues i t && (t.seats 0).all fun x => Tab.at x.g.toks 0 1 == 0
      | _ => false) = true ∧
    ((theUnit deferring).any fun ug => (deferring.nextDeferred ug.1.key).any fun kd => kd.1 == 65536 && (lowLane? (kd.2.lanes &&& ug.2.live)).isSome) = true := by
  decide +kernel
/-! ## Witnesses: encodings, steps and memory -/

theorem witness_RoundTrip : (Instr.addi .s32 .wrap 4#8 4#8 (.short 128#24) 0#3).wf = true ∧ encode (.addi .s32 .wrap 4#8 4#8 (.short 128#24) 0#3) ≠ [] ∧
    (Instr.movi .z64 20#8 (.lit 0x123456789A#62) 0#3).wf = true ∧ encode (.movi .z64 20#8 (.lit 0x123456789A#62) 0#3) ≠ [] := by decide +kernel

/-- The placed state whose clause holds one word, or a word with its literal word. -/
def oneWord : State := State.reset.withFetchWord 64 0x0E00000000000002
def twoWords : State := State.reset.withFetchWord 128 (0x008C500040000000 + 0xC00000123456789A * 2 ^ 64)
/-- The first lane's handle and word at an address of the unit. -/
def wordUnder (s : State) (u : Machine.Unit) (g : Gang) (pc : Word64) : Option Word64 :=
  (s.handleAt (s.partOf g) (coreOf u.key) pc).map fun h => leWord (s.bytesBeneath (quarterOf (coreOf u.key)) h (offOf pc) 8)

theorem witness_StepRuns : oneWord.agenda = [.unit 0 0 0] ∧ State.reset.agenda = [] ∧
    (({ State.reset with agenda := [.event (.refreshPause 0)] } : State).choice? = some (.event (.refreshPause 0)) ∧ isEvent (.refreshPause 0) = true) ∧
    (({ State.reset with agenda := [.unit 0 0 0] } : State).choice? = some (.unit 0 0 0) ∧
      (({ State.reset with agenda := [.unit 0 0 0] } : State).chosen (.unit 0 0 0)).unit? 0 0 0 = none) ∧
    oneWord.choice? = some (.unit 0 0 0) ∧ ((theUnit deferring).any fun ug => (deferring.nextDeferred ug.1.key).isSome) = true ∧
    ((theUnit atHeader).any fun ug => (atHeader.nextDeferred ug.1.key).isNone && ug.1.flow.rem == 0) = true ∧
    ((theUnit (oneWord.chosen (.unit 0 0 0))).any fun ug => let t := oneWord.chosen (.unit 0 0 0)
      (t.nextDeferred ug.1.key).isNone && ug.1.flow.rem != 0 && (t.kept? ug.1 0).isNone && (t.fetchFault (t.partOf ug.2) (coreOf ug.1.key) ug.1.pc).isNone &&
        (wordUnder t ug.1 ug.2 ug.1.pc).any fun w => !wantsLiteral w && (clauseFault ug.1.flow w none).isNone &&
          (match decodeWords [w] with
            | .ok i => i == .waittok 1#7
            | .error _ => false)) = true ∧
    ((theUnit (twoWords.chosen (.unit 0 0 0))).any fun ug => let t := twoWords.chosen (.unit 0 0 0)
      (t.nextDeferred ug.1.key).isNone && decide (1 < ug.1.flow.rem) && (t.kept? ug.1 0).isNone && (t.fetchFault (t.partOf ug.2) (coreOf ug.1.key) ug.1.pc).isNone &&
        (t.fetchFault (t.partOf ug.2) (coreOf ug.1.key) (addWords ug.1.pc 1)).isNone &&
        (wordUnder t ug.1 ug.2 ug.1.pc).any fun w => (wordUnder t ug.1 ug.2 (addWords ug.1.pc 1)).any fun lit =>
          wantsLiteral w && (clauseFault ug.1.flow w (some lit)).isNone &&
            (match decodeWords [w, lit] with
              | .ok i => i == .movi .z64 20#8 (.lit 0x123456789A#62) 0#3
              | .error _ => false)) = true := by decide +kernel

/-- The placed memory is canonical, and a step goes on from it. -/
theorem witness_MemoryCanonical : Memory.wf oneWord.mem = true ∧ oneWord.mem ≠ [] ∧ (match step oneWord with
    | .next t => Memory.wf t.mem
    | _ => false) = true := by decide +kernel
/-! ## Witnesses: further clauses of the statements about words that compute -/

/-- A result that has landed, its windows open or closed by slice. -/
def landedPend (win : Nat → Nat) : Pend := { aPend 0 with landed := true, win := (List.range 8).map win, tok := 0 }

theorem witness_LookWindows_landed :
    (∀ tk ∈ [0, 3], let s := gangWith (fun g => { g with pend := [{ aPend 0 with tok := tk }], toks := [(3, 2)] }) stand
      (s.gang? 65536).any (fun g => g.mates == [65536] && (g.pend.all fun (q : Pend) => q.id != 7 || q == { aPend 0 with tok := tk }) &&
        (tk == 0 || decide (1 < g.tok tk) || Tab.at g.owed [] tk == [])) = true) ∧
    (let p := landedPend fun sl => if sl = 0 then 0 else 5
     inMask (p.ready [aPend 3]) 0 = false ∧ p.landed = true ∧ inMask p.left 0 = true ∧ p.win.getD (0 / 4) 0 = 0 ∧
      (∀ k < 32, k / 4 = 8 / 4 → inMask (aPend 3).left k = false) ∧ (∃ r ∈ (aPend 3).regs, r ∈ p.regs) ∧
      inMask (p.ready [{ aPend 3 with regs := [9], masks := [1] }]) 0 = true) ∧
    ((landedPend fun _ => 0).landed = true ∧ (List.replicate 8 0).all (fun n => n == 0) = true ∧ ∀ sl < 8, (landedPend fun _ => 0).win.getD sl 0 = 0) ∧
    (let g : Gang := { placedGang 1 with pend := [aPend 0, landedPend fun _ => 2] }
     (∀ p ∈ g.pend, p.landed = false ∨ (lanes32.all fun l => !inMask p.left l || p.win.getD (l / 4) 0 != 0) = true) ∧
       ∀ p ∈ g.pend, p.landed = true → p.left ≠ 0#32) ∧
    (∀ w ∈ [0, 1], let p := landedPend fun sl => if sl = 0 then w else 0
     let s := gangWith (fun g => { g with pend := [p] }) (ready .nop)
     issues .nop s = true ∧ (s.seats 0).any (fun x => x.g.pend == [p] && p.landed && !p.frozen &&
       (List.range 9).all fun sl => p.win.getD sl 0 == 0 || (p.win.getD sl 0 == 1 && x.m0 &&& sliceMask sl != 0#32)) = true) := by decide +kernel

theorem witness_Reductions_operands : ((2 : Nat) ^ 32 - 1 < 2 ^ 32 ∧ redWide .addW32 = false) ∧ ((2 : Nat) ^ 64 - 1 < 2 ^ 64 ∧ redWide .minS64 = true) := by decide

theorem witness_FinalRound_overflow : ∀ mode ∈ [Rnd.rne, .rna, .rz, .ru, .rd], 0 < 7 ∧ mode ≠ .dyn ∧
    (let q := max (leadExp 7 1) (fmtOf .e2m1).emin - (fmtOf .e2m1).prec + 1
     |(maxFin .e2m1 false).rat| < |(Fp.fin true (roundMag mode true 7 (1 - q)) q).rat|) := by decide +kernel

theorem witness_FloatArithmetic_opens : (∀ i ∈ ([.fadd .f32 10#8 8#8 .none 4#8 0#3, .kset .f32 6#8 4#8 .none 5#8 0#3,
      .frcp .f32 20#8 21#8 .none 2#4 0#3, .pairWord ⟨.subS32, 5#7, 5#7, 6#7, 1#3⟩ ⟨.fmulF32, 4#7, 5#7, 7#7, 0#3⟩] : List Instr),
      let s := gangWith (fun g => { g with sigfloor := 26#64, tstat := 1#64 }) (ready i)
      acts i s (fun _ x => x.g.sigfloor.toNat % 64 == 0 || x.g.tstat.getLsbD 0) = true) ∧
    (Rnd.rna ≠ .dyn ∧ (imgValue .f32 (⟨0x3F900000#32, 0x2C#8⟩, zeroImg)).isNum = true ∧ FpCls.bf16 ≠ .f32 ∧
      (imgValue .bf16 (⟨0x3F900000#32, 0x2C#8⟩, zeroImg)).isNan = false) ∧
    (let a := f32 0x3F800000#32 0x1A#8
     let x := Fp.sum [a.v, a.v]
     (roundOdd .f32 x).isNum = true ∧ ([a, a].any Opr.dead) = false) ∧
    (let a := f32 0x3F800000#32 0x1A#8
     let b := f32 0xBF800000#32 0x1A#8
     (roundOdd .f32 (Fp.sum [a.v, b.v])).isZero = true ∧ ([a, b].any Opr.dead) = false ∧ ([a, b].any fun a => a.v.isNum) = true) ∧
    ((roundOdd .f32 (f32 0x7F800000#32 0x1A#8).v).isInf = true ∧ overflows .f32 (f32 0x7F800000#32 0x1A#8).v = false) := by decide +kernel

theorem witness_FloatDots_slot :
    (∀ a ∈ [(0xB#64, 11), (0xC#64, 12), (0x8#64, 8), (0#64, 0)], ∀ sat ∈ [false, true], let i : Instr := .dot8 .slot sat 50#8 51#8 .none 52#8 53#8 7#3 0#3
      acts i ((ready i).updLaunch 1 fun l => { l with slots := List.replicate 8 (a.1 <<< 60, 0#64) })
        (fun s x => slotAfmt (s.slotOf x.g.launch 7) == a.2 && x.g.sigfloor == 0#64) = true) ∧
    dot8Elem .slot 0 = none ∧ dot8Elem .slot 8 = some (.fp .e2m1) ∧
    ((∃ x ∈ [Fp.nan, .inf true], x.isNan = true) ∧ (Fp.inf true ∈ [Fp.inf true, .inf false] ∧ Fp.inf false ∈ [Fp.inf true, .inf false]) ∧
      Fp.inf true ∈ [Fp.fin false 1 0, .inf true] ∧ ∀ x ∈ [Fp.fin false 1 0, .inf true], x.isNan = false ∧ x ≠ .inf (!true)) ∧
    (Fp.fin true 0 3).isZero = true := by decide +kernel

theorem witness_OperandAndTransferTraps_early :
    (let i : Instr := .mov .w32 16#8 4#8 .none 0#3
     let s := gangWith (fun g => { g with allot := 1 }) (ready i)
     s.seats i.maskField ≠ [] ∧ (s.seats i.maskField).all (fun x => (operandFault (16 * x.g.allot) i.opnds).isSome && (earlyFlaw i s x).isNone) = true) ∧
    (∀ i ∈ ([.call 7#8 .none 0#32, .dot4 .slot false 50#8 51#8 .none 52#8 255#8 7#3 0#3] : List Instr),
      let s := gangWith (fun g => { g with allot := 4 }) (ready i)
      (s.seats i.maskField).any (fun x => (operandFault (16 * x.g.allot) i.opnds).isSome && (earlyFlaw i s x).isSome) = true) := by decide +kernel

theorem witness_WaitsAndExit_kill : (∀ l < 32, l / 4 = 0 → inMask ((placedGang 1).kill 0xF#32).live l = false) ∧
    ({ placedGang 1 with pend := [aPend 3] } : Gang).pend ≠ [] := by decide +kernel

theorem witness_DataInMemory_f64 : decodeFp .f64 (0x7FF0000000000000#64).toNat ≠ .nan ∧ decodeFp .f64 (0x7FF0000000000001#64).toNat = .nan ∧
    [zeroImg, zeroImg] = zeroImg :: [zeroImg] := by decide +kernel

theorem witness_GatherScatter_trap : let i : Instr := .sts .w32 .dyn 14#8 3#4 11#8 0#12 1#4 1#3 0#3
    acts i (gathering i true) (fun s x => gathers 4 true 3#4 11#8 0#12 s x && x.g.memctl.getLsbD 0 && s.outOfRange x 3#4 11#8 0#12 4 != 0#32) = true := by
  decide +kernel

theorem witness_AtomicsTokensFences_keys : (List.range 16).Nodup ∧ [3].Nodup ∧ [65536, 65537].Nodup ∧ [65536, 65537] ≠ ([] : List Nat) ∧
    (stand.gang? 65536).isSome = true := by decide +kernel

theorem witness_BuffersAndHandles_more :
    (((stand.seats 0).map (·.key)).Nodup ∧ (paired .nop).seats 0 ≠ [] ∧ (((paired .nop).seats 0).map (·.key)).Nodup) ∧
    (let s := ready (.cbpopStat 6#8 3#4)
     issues (.cbpopStat 6#8 3#4) s = true ∧ ∀ x ∈ s.seats 0, s.cb? x.key 3 = some someBuffer) ∧
    (∀ i ∈ ([.cbpushRes 6#8 2#4 1#4 2#3, .cbpopTake 6#8 2#4 1#4 2#3, .cbpushCommit 6#8 2#4 4#4 2#3, .cbpopFree 6#8 2#4 4#4 2#3, .cbpopStat 6#8 2#4] :
      List Instr), issues i (ready i) = true ∧ ∀ x ∈ (ready i).seats 0, (ready i).cb? x.key 2 = none) ∧
    (∀ i ∈ ([.cbpushCommit 6#8 3#4 4#4 2#3, .cbpopFree 6#8 3#4 4#4 2#3] : List Instr),
      let s := gangWith (fun g => { g with regs := [] }) (ready i)
      issues i s = true ∧ (s.seats 0).any (·.first) = true ∧ ∀ x ∈ s.seats 0, s.cb? x.key 3 = some someBuffer ∧
        (someBuffer.slotAt? (x.g.pairAt 6 x.low)).elim false (fun n => someBuffer.reserved.contains n || someBuffer.taken.contains n) = false) ∧
    (∀ i ∈ ([.hdescAttr 6#8 4#8, .hdescBind 6#8 4#8, .hdescLoc 6#8 4#8] : List Instr), fullWrite i (ready i) = true ∧
      (ready i).seats i.maskField ≠ [] ∧ ∀ x ∈ (ready i).seats i.maskField, x.g.reg 4 = .uniform ⟨0#32, 0x1F#8⟩ ∧ x.g.reg 5 = .uniform ⟨0x200#32, 0x01#8⟩ ∧
        x.g.pend = []) := by decide +kernel

/-- Where a buffer of four slots of 1 KiB is to be defined: past the extent's end, and on one that is in use. -/
def defining (ofs : Nat) (busy : Bool) : State :=
  let s := gangWith (fun g => { g with hregs := [(1, mkAddr 0xFFFF00 ofs)] }) (ready (.cbdef 4#4 1#4 0#12 1#3 4#4))
  if busy then s.updCore 0 fun c => { c with cbs := [(4, someBuffer)] } else s

theorem witness_BuffersAndHandles_defined : ∀ b ∈ [(512 * 1024 - 2048, false), (0, true)], let s := defining b.1 b.2
    issues (.cbdef 4#4 1#4 0#12 1#3 4#4) s = true ∧ (s.seats 0).any (·.first) = true ∧ (s.seats 0).all (fun x =>
      let a := laneAddr x.g ⟨1#4, none, 0#12⟩ 1024 x.low
      (s.core (coreOf x.key)).cbBusy 4 == b.2 && (s.hnd? x.key a).any fun h => !attrSecure h.attr && offOf a % 1024 == 0 && decide (2 ≤ attrSpace h.attr) &&
        decide (attrSpace h.attr ≤ 4) && decide (attrBytes h.attr < offOf a + 4 * 1024) == !b.2) = true := by decide +kernel

/-! ## Witnesses: further clauses of the statements about steps of the order machine and the engines -/

/-- A read piece of a tagged load under a handle. -/
def taggedLoad : Instr := .ldt .w32 8#8 ⟨1#4, none, 0#12⟩ 3#4 2#4 1#3 0#3

theorem witness_OrderSteps_alone : (∀ h ∈ [2, 10], loneWrite (performed h) (fun w => decide (w.nums.length ≤ 2) &&
      (performed h).log.all fun x => x == w || decide (x.nums.length ≤ 1)) = true) ∧
    (∀ h ∈ [(2, 2), (10, 1)], let s := performed h.1
     loneWrite s (fun w => let loc := locBase w.prop w.quarter
       w.inPath && s.oldest w && w.prop != 2 && w.nums.length == h.2 && s.log.all fun x => x.prop != w.prop ||
         (x.nums.all fun gk => decide (gk.2 ≤ s.heldAt loc gk.1)) || x.nums.all fun gk => decide (s.heldAt loc gk.1 < gk.2)) = true) := by decide +kernel

theorem witness_PiecesPerform_more :
    (∀ n ∈ [0, 3], piece (beside 2 [aStore]) 2 n (fun _ e p => !(beside 2 [aStore]).atomHolds p.cells &&
      (decide (e.todo.length ≠ 1) || (beside 2 [aStore]).bufs.isEmpty)) = true) ∧
    piece (beside 3 [aLoad]) 3 0 (fun _ _ p => p.tagCells.isEmpty) = true ∧
    piece (beside 2 [taggedLoad]) 3 0 (fun _ _ p => !p.tagCells.isEmpty && p.tagCls == p.cls && p.cls == .dev false 0) = true ∧
    (∀ h ∈ [7, 11], let s := beside h [aLoad]
     piece s 3 0 (fun _ e p => !p.wr && p.space == 1 && (h == 11 || p.cls == .plain) && decide (e.todo.length ≠ 1) && !s.atomHolds p.cells) = true) ∧
    ((((beside 7 [aStore]).agentPiece? (.stream 0 0 2) 0).any fun p => p.wr) = true) ∧
    (5 ∈ [5] ∧ 4 ≤ 4 ∧ 0 < 3 ∧ 3 < 4) := by decide +kernel

/-- A host atomic that has been read, and not yet written. -/
def hostRequested : State := after (.atomicSend 0 0 0) (beside 7 [.atom .min .w64 8#8 ⟨1#4, none, 0#12⟩ 0#4 0#3 0#3])

theorem witness_AtomicsPerform_host : (hostRequested.nextAtom 0 ((hostRequested.atoms.map fun (r : AtomReq) => r.home).headD 0)).any (fun r =>
      r.piece.cls == .plain && r.piece.space == 1 && r.old.isNone && r.piece.tagCells.isEmpty && (hostRequested.gang? r.gang).any fun g =>
        (g.entry? r.entry).any fun se => !isAtomicOp se.2.instr) = true ∧
    ((after (.atomicPerform 0 ((hostRequested.atoms.map fun (r : AtomReq) => r.home).headD 0)) hostRequested).atoms.any fun r => r.old.isSome && r.piece.space == 1) = true ∧
    hostRequested.bufs = [] ∧ isAtomicOp (.atom .add .w64 8#8 ⟨1#4, none, 0#12⟩ 0#4 0#3 0#3) = true := by decide +kernel

/-- Another atomic has read the bytes and has not yet written them. -/
def midAtomic : State := { hostRequested with atoms := hostRequested.atoms ++ (hostRequested.atoms.take 1).map fun r => { r with home := 63, old := some [] } }
theorem witness_AtomicsPerform_waits : (midAtomic.nextAtom 0 ((midAtomic.atoms.map fun (r : AtomReq) => r.home).headD 0)).any (fun r =>
      r.piece.cls == .plain && midAtomic.atomHolds r.piece.cells (some r) && !hostRequested.atomHolds r.piece.cells (some r) && (midAtomic.gang? r.gang).any fun g =>
        (g.entry? r.entry).isSome) = true := by decide +kernel

theorem witness_ReleasesAndTokens_more :
    (∀ p ∈ ([(.rel 17#12 2#3, .token 17), (.barv 4#8 0#3, .barrier 4), (.cbpushCommit 6#8 3#4 4#4 0#3, .commit 0 3 0)] : List (Instr × RelKind)),
      let s := after p.1 (ready p.1)
      s.rels.any (fun r => r.kind == p.2 && (s.gang? 65536).any fun g => Tab.rising g.streams && Tab.at g.owed [] r.tok == [] &&
        (p.1.tokOf != 0 || r.tok == 0)) = true ∧ s.bufs = []) := by decide +kernel

theorem witness_MatrixValues_more :
    (let i : Instr := .mma 1#3 0#5 1#5 1#3 1#3 1#2 1#2 true 0#3
     let s := stand.updLaunch 1 fun l => { l with slots := List.replicate 8 (0x5 <<< 60, 0#64) }
     let o := anOp i
     o.instr = i ∧ o.fault = 0 ∧ o.bad = false ∧ { o with bad := true }.bad = true ∧ s.poison = [] ∧ (s.mmaOf o.launch o.instr).any (fun m =>
       decide (m.acc < 8) && decide (8191 < 8192 * mmaSpan m.fa (mmaKr m.fa m.fb))) = true) := by decide +kernel

/-- An MMA at the head of the started operations, with the subarrays awake, waking, or off. -/
def mmaReady (f : Core → Core) : State :=
  (stand.updEngine 0 1 fun e => { e with ops := [anOp (.mma 1#3 0#5 1#5 1#3 1#3 1#2 1#2 true 0#3)] }).updCore 0 f

theorem witness_EngineSteps_mma : (∀ c ∈ [(false, 0#4), (true, 0#4), (false, 2#4)], let s := mmaReady fun k => { k with waking := c.1, gated := c.2 }
      (s.core 0).gateOpen 1 = true ∧ s.stops 0 = false ∧ (s.core 0).waking = c.1 ∧ (s.core 0).gated = c.2 ∧ ((s.engine 0 1).starts?).any (fun o =>
        isMma o.instr && (s.engine 0 1).ops == [o] && (s.chargeOf? 0 o).isNone) = true) ∧
    (copyRegistered.engine 0 0).ops.all (fun x => x.phase != .running || !x.waits) = true := by decide +kernel

theorem witness_BuffersClaimsPower_more :
    ((claiming.core 0).claims.any (fun k => !claiming.teamDead k.gang && (claiming.gang? k.gang).any fun g => Tab.at g.owed [] k.tok == []) = true) ∧
    ((releasing.core 0).orels.any (fun k => (releasing.gang? k.gang).any fun g => Tab.at g.owed [] k.tok == []) = true) := by decide +kernel

/-! ## Witnesses: further clauses of the statements about waves, the fabric, queues, partitions and steps -/

theorem witness_WaveWords_mkwait : let i : Instr := .mkwait 2#4
    acts i (ready i) (fun s x => !x.first || (s.teamOps (s.leadOf x.key)).all fun o => decide (s.issuedAt ≤ o.1) || waveIdOf o.2 != some 2) = true := by
  decide +kernel

/-- Register a match at the nodes, without a snapshot. -/
def matchPre : Pre := { Pre.ofEntry (bareEntry (.mkmatch true false 3#6 20#8 2#4 .core 1#3) [] 0#64) 65536 1 18 with vals := [(0, anyType), (1, [])] }

theorem witness_NodeEvents_more :
    (patBad [⟨0x80000000#32, 0x1F#8⟩, ⟨0xFFFFFFFF#32, 0x1F#8⟩, ⟨0xFFFFFFFF#32, 0x1F#8⟩, ⟨0xFFFFFFFF#32, 0x1F#8⟩] = true ∧
      (waving (.mkmatch true false 3#6 20#8 2#4 .core 1#3) id).waves.all (fun w => !w.2.foreign) = true) ∧
    (waveCmd matchPre.instr (readVals matchPre.vals)).any (fun c => !c.snap) = true := by decide +kernel

/-- A wave of core 5 of another device, its engine here idle; a wave of this device whose credit is away. -/
def foreignWave : State := waving (.mkclr .bit true true false 3#6 0#6 2#4 .core 0#3) fun w =>
  { w with foreign := true, origin := 3 * 1024 + 5, engs := [(0, ⟨16, [], [], [], false⟩)] }
def someBack : RemoteBack := { RemoteBack.none with credit := 8 }

theorem witness_WaveCredit_remote :
    (foreignWave.wave? 5).any (fun w => w.foreign && (Tab.find? w.engs 0).any fun e => e.left.isEmpty && e.msgs.isEmpty && e.held.isEmpty) = true ∧
    (7 < 8 ∧ foreignWave.planeLive 7 = true) ∧
    (holdingWave.wave? 5).any (fun w => !w.foreign && decide (someBack.credit ≤ w.away) && w.pool + someBack.credit != 2 ^ 32) = true ∧
    (batched.batches.map (·.id)).Nodup ∧ (batched.wave? 5).all (fun w => !w.foreign) = true := by decide +kernel

/-- Two batches of core 0 for one line of another device, in its message path: the second stands behind the first. -/
def queueing : State := { holdingWave with batches := [⟨61, 5, 0, 1024 + 1024 * 9, 1, 0, 4, false, [], false, 0, false, none⟩,
    ⟨62, 5, 0, 1024 + 1024 * 9, 2, 0, 4, false, [], false, 0, false, none⟩] }
theorem witness_WaveCredit_queued : (0 < 8 ∧ queueing.planeLive 0 = true) ∧ (queueing.batches.find? (fun b => b.id == 61 && b.queued)).any queueing.batchFree = true ∧
    (queueing.batches.find? (fun b => b.id == 62 && b.queued)).any (fun b => !queueing.batchFree b) = true := by decide +kernel

theorem witness_FabricWords_misaligned : let i : Instr := .fstRadd 12#8 8#8 20#8 1#3 0#3
    issues i (oddOffsets (ready i)) = true ∧ ((oddOffsets (ready i)).seats 0).any (fun x =>
      x.act &&& maskOf (fun l => (x.offset 20#8 l).val.toNat % 4 != 0) != 0#32) = true := by decide +kernel

/-- A peer's request that has been admitted, with two pieces of host memory, or one. -/
def admitted (req : PeerReq) (n : Nat) : State := { stand with
  inbox := [⟨40, none, 3, toward 1, 0, req, 0, List.replicate n ⟨0, req != .read 1, .plain, 2, 0, [17592186044416], [1#8], .plain, 0, [], 0#64, [], 0#64⟩, []⟩] }

theorem witness_FabricAndLinks_more :
    (exporting.inbox = [] ∧ (stand.inbox.all fun r => r.src != 1 || r.own.isSome) = true ∧
      (∀ r ∈ (admitted (.read 1) 1).inbox, r.src ≠ 1 ∨ r.own ≠ none)) ∧
    (∀ n ∈ [1, 2], ∀ req ∈ [PeerReq.read 1, .write [1#8] false false, .line [1#8]], let s := admitted req n
      (s.inbox.find? fun r => r.id == 40).any (fun r => !s.peerBehind r && r.req == req && r.todo.length == n && r.own.isNone && (r.todo[0]?).any fun p =>
        p.cls == .plain && p.tagCells.isEmpty) = true ∧ s.poison = []) ∧
    (20 ≤ 31 ∧ 65535 < 65536 ∧ exporting.peerRefusal 1 31 5 0 (.read 4) = some 1) ∧
    (∀ dev ∈ [1, 2], let s := twoOps dev (.write [1#8] false false)
      (s.fab.all fun x => x.record.isSome || x.reqs.any (·.ans.isNone)) = true ∧ (s.inbox.all fun x => x.own != some (70, 1)) = true ∧
      (({ s with fab := s.fab.map fun o => { o with reqs := o.reqs.map fun r => { r with gone := true } } } : State).fabReq? 70 1).any
        (fun or => or.2.gone && or.2.sent && or.2.ans.isNone && or.2.into.isNone) = true) ∧
    ((batched.fabReq? 61 0).isNone = true ∧ batched.batches.any (fun b => b.id == 61 && b.sent && decide (1024 ≤ b.dst)) = true) ∧
    (let s := stand.setPort 15 { stand.port 15 with sent := 3, acked := 2, lanes := 0x00FF#16, headers := [0, 1, 3] }
     (s.port 15).up = true ∧ (s.port 15).acked < (s.port 15).sent ∧ (∃ h ∈ (s.port 15).headers, h ≤ (s.port 15).acked) ∧ (s.port 15).lanes &&& ~~~0x000F#16 ≠ 0#16 ∧
       (s.port 15).lanes &&& ~~~0xFFFF#16 = 0#16) ∧
    (0x8001#16 ≠ 0#16 ∧ 1 < 2) ∧
    (let s : State := { stand with links := 2#2 }
     s.links.getLsbD 0 = false ∧ s.links.getLsbD (1 - 0) = true ∧ ({ stand with links := 0#2 } : State).links = 0#2) := by decide +kernel

/-- A queue whose head packet has been read: one that waits for a count; one with a launch for more registers than are free,
while another one runs. -/
def headRead (h : Head) : State := ringing.updQueue 0 fun q => { q with packet := some h, w1 := q.w1 ||| 0x10000#64 }
def waitingHead : Head := ⟨[BitVec.ofNat 64 (2 ^ 56 + 2 ^ 54), mkAddr 2 8192, 0#64, 5#64, 0#64, 0#64, 0#64, 0#64], 0, none⟩
def crowdedPlan : Plan := ⟨[⟨mkAddr 1 0, mkAddr 1 0, BitVec.ofNat 64 (16 * 2 ^ 59 + 3 * 2 ^ 57 + 257), 0#64, []⟩], [], [], []⟩
def heldHead : Head := ⟨[BitVec.ofNat 64 (2 ^ 56), mkAddr 2 8192, 0#64, 0#64, 0#64, 0#64, 0#64, 0#64], 0, some crowdedPlan⟩
/-- Two queues of which another one is served first. -/
def behind : State := launching.updQueue 5 fun q => { q with w0 := mkAddr 2 0, w1 := BitVec.ofNat 64 (7 * 2 ^ 56), tail := 1#32 }

theorem witness_QueuesAndLaunches_heads :
    (let s := headRead waitingHead
     s.hasHead (s.queue 0) = true ∧ s.headOf (s.queue 0) = waitingHead ∧ s.headTake (s.queue 0) waitingHead = .wait) ∧
    ((launching.queue 0).packet = none ∧ (launching.dispRead? 0 true ((launching.queue 0).slot 0) 64).isSome = true ∧
      (let s := launching.updQueue 0 fun q => { q with w0 := mkAddr 9 0 }
       (s.queue 0).packet = none ∧ s.dispRead? (s.queue 0).part true ((s.queue 0).slot (s.queue 0).head.toNat) 64 = none)) ∧
    (waitingHead.flaw = 0 ∧ ({ waitingHead with flaw := 0x0E } : Head).flaw ≠ 0) ∧
    (2047 < 2048 ∧ stand.links.getLsbD (2047 / 1024) = true ∧ ({ stand with links := 1#2 } : State).links.getLsbD (2047 / 1024) = false ∧
      ({ stand with links := 1#2 } : State).links.getLsbD (1 - 2047 / 1024) = true) := by decide +kernel
theorem witness_QueuesAndLaunches_behind : behind.hasHead (behind.queue 0) = true ∧
    (behind.headTake (behind.queue 0) (behind.headOf (behind.queue 0))).goes = true ∧ behind.servesNext 0 (behind.queue 0) = false := by decide +kernel
theorem witness_QueuesAndLaunches_held : let s := small id (headRead heldHead)
    s.hasHead (s.queue 0) = true ∧ s.headTake (s.queue 0) heldHead = .hold crowdedPlan := by decide +kernel

/-- A post whose queue is full, and one that follows a store of its gang. -/
def fullPost : State := posting.updQueue 0 fun q => { q with tail := BitVec.ofNat 32 (2 ^ q.logSlots) }
theorem witness_QueuesAndLaunches_posts : ((fullPost.queue 0).full = true ∧ fullPost.hasUndrained 65536 none = false ∧ (headOf fullPost 2).any (fun ge =>
      !ge.1.gated ge.2 && Tab.rising ge.1.streams && ge.1.streams.all (fun t => t.2.all fun x => !decide (x.id < ge.2.id) || !isAccess x.instr)) = true) ∧
    (let s := after (.qpostDeliver 0 0 2) fullPost
     (s.queue 0).full = true ∧ (headOf s 2).any (fun ge => ge.2.sent) = true ∧
       (headOf (s.updQueue 0 fun q => { q with tail := 0#32 }) 2).any (fun ge => ge.2.sent) = true) ∧
    (let i : Instr := .qpost 8#8 4#4 0#12 2#4 1#3
     let s := after i (owned (after aLoad (ready i)))
     (headOf s 2).any (fun ge => ge.2.instr == i && !ge.2.sent && ge.1.streams.any fun t => t.2.any fun x => decide (x.id < ge.2.id) && isAccess x.instr) = true) := by
  decide +kernel

/-- A post that has been read, for a slot whose bytes an atomic has read and not yet written. -/
def heldPost : State :=
  let s := (after (.qpostDeliver 0 0 2) fullPost).updQueue 0 fun q => { q with tail := 0#32 }
  { s with atoms := (headOf s 2).toList.flatMap fun ge =>
    (s.slotPieces 0 0 ((s.queue 0).slot 0) (ge.2.bytes 0 64)).map fun p => ⟨65536, 99, 0, p, 0, some []⟩ }
theorem witness_QueuesAndLaunches_hold : posting.atoms = [] ∧ (headOf heldPost 2).any (fun ge => ge.2.sent &&
    (heldPost.slotPieces (heldPost.partOf ge.1) 0 ((heldPost.queue 0).slot (heldPost.queue 0).tail.toNat) (ge.2.bytes 0 64)).any fun p =>
      heldPost.atomHolds p.cells) = true := by decide +kernel

theorem witness_SpecialRegisters_cycle : issues (.csrrd 6#8 .cycle) (ready (.csrrd 6#8 .cycle)) = true ∧
    (ready (.csrrd 6#8 .cycle)).seats 0 ≠ [] ∧ ∀ x ∈ (ready (.csrrd 6#8 .cycle)).seats 0, coreOf x.key = 0 := by decide +kernel

theorem witness_PartitionCommands_part : ∀ c ∈ [1, 2, 3, 4, 5, 6, 7, 8, 9, 10], let s := commanded c 31 [] stand
    s.mgmt.busy = true ∧ s.mgmt.code = c ∧ fieldOf s.mgmt.mcmd 0 50 = 0 ∧ 20 ≤ s.mgmt.part := by decide +kernel

theorem witness_WindowAndPower_more : (stand.mgmt.power = 1#2 ∧ ((small away stand).parts.any fun p => p.2.inn) = false ∧ Memory.wf stand.mem = true) ∧
    ((4 : Nat) ≠ 8 ∧ 4 % 8 ≠ 0 ∧ 31 < 32 ∧ 19 < 20 ∧ 65535 < 65536 ∧ 1023 < 1024 ∧ 7 < 8) ∧
    (stand.mgmt.busy = false ∧ (commanded 6 0 [] stand).mgmt.code ≠ 7) ∧
    (stand.parts.any fun p => p.2.formed && p.2.inn && p.2.hasCluster (clusterOf 0)) = true ∧
    ((small away stand).parts.any fun p => p.2.formed && p.2.inn && p.2.hasCluster (clusterOf 0)) = false ∧
    ((small away stand).parts.filterMap fun p => if p.2.formed then Tab.find? p.2.shadow 0 else none) ≠ [] := by decide +kernel

/-- A header that waits for an event line. -/
def lineHeader : State := (gangWith (fun g => { g with flow := g.flow.map fun f => { f with rem := 0, pc := mkAddr 1 0 } })
  { State.reset.withFetchWord 64 0 with mem := Memory.sets (State.reset.withFetchWord 64 0).mem (wordCells 0 [0xBF08050000000000#64]) }).updCore 0 fun c =>
    { c with lc := [(5, 1#32)] }

/-- Lane 1 waits at the address with the REGANG that stood there when it was fetched; the others wait to issue their word once. -/
def regangOnce : State := gangWith (fun g => { g with flow := g.flow.set 1 { g.flowAt 1 with word := 0x0D80000000000000#64 } }) regang
theorem witness_UnitEvents_merge : regangOnce.leadAt 0 0 = some 65536 ∧ regangOnce.mayIssue 65536 = true ∧
    ((regangOnce.gang? 65536).any fun g => (g.flowAt 1).atRegang && !(g.flowAt 0).atRegang && (maskLanes g.live).all fun l => (g.flowAt l).rgw) = true ∧
    (let s := after (.regangMerge 0 0) regangOnce
     (s.gang? 65536).any fun g => (g.flowAt 1).pc == mkAddr 1 16 && (g.flowAt 0).pc == mkAddr 1 8 && !(g.flowAt 0).rgw) = true := by decide +kernel

theorem witness_UnitEvents_more :
    ((theUnit lineHeader).any fun ug => (lineHeader.nextDeferred ug.1.key).isNone && ug.1.flow.rem == 0 && (lineHeader.kept? ug.1 0).isNone &&
      (lineHeader.fetchFault (lineHeader.partOf ug.2) (coreOf ug.1.key) ug.1.pc).isNone &&
      (let w := lineHeader.fetchAt (lineHeader.partOf ug.2) (coreOf ug.1.key) ug.1.pc
       kindOf w == 2#2 && headerBad w == 0#64 && fieldOf w 40 4 == 5 && (lineHeader.team ug.1.key).all fun kg => lineHeader.headerReady kg w)) = true ∧
    ((theUnit oneWord).any fun ug => (oneWord.kept? ug.1 0).isNone && (oneWord.fetchFault (oneWord.partOf ug.2) (coreOf ug.1.key) ug.1.pc).isNone) = true := by
  decide +kernel

/-- A word that waits is kept by its unit, which runs next. -/
def keptWord : State := { barPassable with agenda := [.unit 0 0 0] }
theorem witness_StepRuns_kept : keptWord.choice? = some (.unit 0 0 0) ∧ ((theUnit (keptWord.chosen (.unit 0 0 0))).any fun ug =>
    let t := keptWord.chosen (.unit 0 0 0)
    (t.nextDeferred ug.1.key).isNone && ug.1.flow.rem != 0 && (t.kept? ug.1 0).any fun f => !wantsLiteral f.word && (clauseFault ug.1.flow f.word none).isNone &&
      (match decodeWords [f.word] with
        | .ok i => i == Instr.barw 0#8
        | .error _ => false)) = true ∧
    (mapping.registers 0 0 17).any (fun r => r.1 == 1) = true := by decide +kernel

/-- From an empty agenda with no step overdue, the free choice is taken or not; the machine then stands. -/
theorem witness_StepRuns_free : State.reset.agenda = [] ∧ State.reset.overdue? = none ∧
    (State.reset.permits (Config.nextChoice State.reset.tick) = true ∨ State.reset.permits (Config.nextChoice State.reset.tick) = false) :=
  ⟨rfl, rfl, by cases State.reset.permits (Config.nextChoice State.reset.tick) <;> simp⟩

/-- A host store that has waited as long as the machine may let it. -/
def lateStore : HostStore := ⟨[(17592186044416, 1#8)], 65536, 0, 0, 7⟩
def late : State := { State.reset with hostQ := [lateStore], tick := 7 + Config.patience 7 0 }
theorem witness_StepRuns_overdue : late.agenda = [] ∧ late.overdue? = some (.event (.hostStoreDrain 0)) := by
  refine ⟨rfl, ?_⟩
  have hd : late.dueSteps = [.event (.hostStoreDrain 0)] := by simp [State.dueSteps, late, lateStore, State.reset]
  have he : exec (.hostStoreDrain 0) late = .next (late.drainHost 0) := rfl
  have hm : late.moves (.event (.hostStoreDrain 0)) = true := by
    simp only [State.moves, State.changes, perform, isEvent, if_true, he]
    exact decide_eq_true fun h => absurd (congrArg State.hostQ h) (by decide +kernel)
  simp [State.overdue?, hd, hm]

/-! ## Single steps, with results from the spec's worked examples -/

/-- A word run with these lanes in some registers. -/
def ran (rs : Tab (List Img)) (i : Instr) (f : Gang → Gang := id) : State :=
  after i (gangWith (fun g => f { g with regs := rs.map fun r => (r.1, .general (r.2 ++ List.replicate (32 - r.2.length) zeroImg)) }) (ready i))
/-- The live lanes of a register. -/
def lanesOf (s : State) (r : Nat) : List (Nat × Nat) :=
  (s.gang? 65536).elim [] fun g => (List.range 4).map fun l => let x := (g.reg r).lane l; (x.val.toNat, x.tag.toNat)
/-- Integers as images. -/
def ints (xs : List Nat) : List Img := xs.map fun x => ⟨BitVec.ofNat 32 x, 0x1F#8⟩
/-- One image in four lanes. -/
def every (val : Nat) (tag : Nat) : List Img := List.replicate 4 ⟨BitVec.ofNat 32 val, BitVec.ofNat 8 tag⟩
/-- A field of the gang. -/
def ofGang {α : Type} (s : State) (f : Gang → α) (d : α) : α := (s.gang? 65536).elim d f

/-- R121: sums are taken modulo 2^32. -/
theorem test_add_wraps : lanesOf (ran [(4, ints [0x7FFFFFFF, 0xFFFFFFFF, 1, 0]), (5, ints [1, 1, 2, 0])] (.add .s32 .wrap 6#8 4#8 .none 5#8 0#3)) 6 =
    [(0x80000000, 0x1F), (0, 0x1F), (3, 0x1F), (0, 0x1F)] := by decide +kernel
/-- R122's example. -/
theorem test_mulh : lanesOf (ran [(4, ints [0x80000000, 0x80000000, 2, 0]), (5, ints [0x80000000, 1, 3, 0])] (.mulh .s32 6#8 4#8 .none 5#8 0#3)) 6 =
    [(0x40000000, 0x1F), (0xFFFFFFFF, 0x1F), (0, 0x1F), (0, 0x1F)] ∧
    lanesOf (ran [(4, ints [0x80000000, 0x80000000, 2, 0]), (5, ints [0x80000000, 1, 3, 0])] (.mulh .z32 6#8 4#8 .none 5#8 0#3)) 6 =
    [(0x40000000, 0x1F), (0, 0x1F), (0, 0x1F), (0, 0x1F)] := by decide +kernel

/-- The worked DOT4.E4M3 of R158: V50 receives 3.25, exact. -/
theorem test_dot4 : lanesOf (ran [(51, ints (List.replicate 4 0x30B8403C)), (52, ints (List.replicate 4 0x48443040)), (53, every 0x3E800000 0x1A)]
    (.dot4 .e4m3 false 50#8 51#8 .none 52#8 53#8 0#3 0#3)) 50 = List.replicate 4 (0x40500000, 0x1A) := by decide +kernel

/-- The worked chain of R182: FADD.F32 of 1 + 2^-8 and 2^-30, then FCVT.BF16. -/
theorem test_fadd_round_odd : lanesOf (ran [(4, every 0x3F808000 0x1A), (5, every 0x30800000 0x1A)] (.fadd .f32 13#8 4#8 .none 5#8 0#3)) 13 =
    List.replicate 4 (0x3F808000, 0x79) := by decide +kernel
theorem test_fcvt_round_odd : lanesOf (ran [(13, every 0x3F808000 0x79)] (.fcvt .bf16 .f32 14#8 13#8 .none 0#3)) 14 =
    List.replicate 4 (0x3F800000, 0xE9) := by decide +kernel

/-- The worked cancellation of R184: four bits of trust are left; under SIGFLOOR = 8 it traps, as the example of R421 says. -/
theorem test_fadd_cancels : lanesOf (ran [(4, every 0x3F900000 0x2C), (5, every 0xBF8F8000 0x34)] (.fadd .f32 13#8 4#8 .none 5#8 0#3)) 13 =
    List.replicate 4 (0x3B800000, 0x24) := by decide +kernel
theorem test_fadd_floor :
    let s := ran [(4, every 0x3F900000 0x2C), (5, every 0xBF8F8000 0x34), (13, ints [5, 5, 5, 5])] (.fadd .f32 13#8 4#8 .none 5#8 0#3) fun g => { g with sigfloor := 8#64 }
    lanesOf s 13 = List.replicate 4 (5, 0x1F) ∧ ofGang s (·.tcause) 0#64 = 0x0000000000010008#64 ∧ ofGang s (·.tlane) 0#64 = 0x0000000F00000000#64 ∧
    ofGang s (·.tinfo0) 0#64 = 0x1800341014000000#64 ∧ ofGang s (·.inTrap) false = true ∧ ofGang s (·.tpc) 0#64 = stand.cur.pc := by decide +kernel

/-- The worked FPACK.E4M3 of R212, lane 0. -/
theorem test_fpack : (lanesOf (ran [(41, every 0x3F880000 0x1A), (42, every 0x43E00000 0x1A), (43, ints (List.replicate 4 0x4038))]
    (.fpack .e4m3 false 40#8 41#8 42#8 43#8 1#2 0#3 0#3)) 40).map (·.1) = List.replicate 4 0x7E384038 := by decide +kernel

/-- R165: IOTA with base 7 and stride -2. -/
theorem test_iota : lanesOf (ran [] (.iota .s32 6#8 7#24 0x3E#6 0#3)) 6 = [(7, 0x1F), (5, 0x1F), (3, 0x1F), (1, 0x1F)] := by decide +kernel
/-- R164's example: values 4 and 0 in live lanes 0 and 2 give stride -2 and base 4. -/
theorem test_shape_fit : ofGang (ran [(4, ints [4, 2, 0, 0xFFFFFFFE])] (.shapeFit .w32 6#8 4#8 0#3)) (fun g => g.reg 6) VReg.zero = .affine 4#32 0xFFFFFFFE#32 := by
  decide +kernel

/-- R150: lanes exchanged by exclusive or with 1. -/
theorem test_shfl : lanesOf (ran [(4, ints [10, 11, 12, 13]), (5, ints [1, 1, 1, 1])] (.shfl .xor .w32 6#8 4#8 5#8 0#3)) 6 =
    [(11, 0x1F), (10, 0x1F), (13, 0x1F), (12, 0x1F)] := by decide +kernel

/-- R430: CODE 0x10 with TINFO1 the code, and TPC the word. -/
theorem test_trap : let s := ran [] (.trap 0x155#22)
    ofGang s (·.tcause) 0#64 &&& 0xFFFF#64 = 0x0010#64 ∧ ofGang s (·.tinfo1) 0#64 = 0x155#64 ∧ ofGang s (·.tlane) 0#64 = 0x0000000F00000000#64 ∧
    ofGang s (·.tpc) 0#64 = stand.cur.pc := by decide +kernel
/-- R428: a floor of 56 is no value of SIGFLOOR; 55 is. -/
theorem test_csrwr : ofGang (ran [(8, ints [55, 55, 55, 55])] (.csrwr .sigfloor 8#8)) (·.sigfloor) 0#64 = 55#64 ∧
    (let s := ran [(8, ints [56, 56, 56, 56])] (.csrwr .sigfloor 8#8)
     ofGang s (·.sigfloor) 0#64 = 0#64 ∧ ofGang s (·.inTrap) false = true) := by decide +kernel

/-- The worked gather of R241: lanes 2 and 3 lie past the extent, and IDXCNT counts them. -/
theorem test_ldg_counts : ofGang (ran [(9, ints [5, 16383, 16384, 0xFFFFFFFF])] (.ldg .w32 12#8 7#4 9#8 0#12 1#4 1#4 2#3 0#3) fun g =>
    { g with hregs := [(7, mkAddr 8 0)] }) (·.idxcnt) 0#64 = 2#64 := by decide +kernel

end Sys2Proof.Tests
end

section
/-! SUPPORT. Which operations on the state leave memory as it is. -/

namespace Sys2Proof.Laws

open Sys2Proof Sys2Proof.Machine

/-- Steps taken one after another leave memory as it is when each does. -/
@[simp] theorem foldl_mem {β : Type} (f : State → β → State) (l : List β) (s : State) (h : ∀ s x, (f s x).mem = s.mem) :
    (l.foldl f s).mem = s.mem :=
  List.foldlRecOn (motive := fun t => t.mem = s.mem) l f rfl fun t ht x _ => (h t x).trans ht

/-! ### Mem -/

@[simp] theorem heard_mem (s : State) : s.heard.mem = s.mem := rfl
@[simp] theorem poisonCells_mem (s : State) (cells : List Nat) : (s.poisonCells cells).mem = s.mem := rfl
@[simp] theorem clearPoison_mem (s : State) (cells : List Nat) : (s.clearPoison cells).mem = s.mem := rfl
@[simp] theorem settle_mem (s : State) : s.settle.mem = s.mem := rfl
@[simp] theorem setWrite_mem (s : State) (w : GWrite) : (s.setWrite w).mem = s.mem := rfl
@[simp] theorem clearWhole_mem (s : State) (all cells : List Nat) : (s.clearWhole all cells).mem = s.mem := by
  unfold State.clearWhole; split <;> simp

/-! ### Ops -/

@[simp] theorem addPend_mem (s : State) (x : Seat) (look : Nat) (regs masks : List Nat) (lanes : Mask) (outs : List Out)
    (landed compute : Bool) (tok : Nat) :
    (s.addPend x look regs masks lanes outs landed compute tok).2.mem = s.mem := by simp [State.addPend]
@[simp] theorem addPendUnit_mem (s : State) (look : Nat) (regs : List Nat) (tok : Nat) :
    (s.addPendUnit look regs tok).2.mem = s.mem := by simp [State.addPendUnit]
@[simp] theorem resplit_mem (s : State) (key : Nat) (part : Option Nat) : (s.resplit key part).mem = s.mem := by
  simp [State.resplit]
@[simp] theorem haltLaunch_mem (s : State) (l code : Nat) : (s.haltLaunch l code).mem = s.mem := by simp [State.haltLaunch]
@[simp] theorem takeTrap_mem (s : State) (key : Nat) (at_ : TrapAt) (fl : List (Nat × Flaw)) :
    (s.takeTrap key at_ fl).mem = s.mem := by
  (unfold State.takeTrap; dsimp only; repeat' split) <;> simp
@[simp] theorem trapNow_mem (s : State) (fl : List (Nat × Flaw)) : (s.trapNow fl).mem = s.mem := by
  unfold State.trapNow; split <;> simp
@[simp] theorem trapWord_mem (s : State) (maskField code detail : Nat) (info1 info2 : Word64) :
    (s.trapWord maskField code detail info1 info2).mem = s.mem := by simp [State.trapWord]
@[simp] theorem leaveTrap_mem (s : State) (key : Nat) (next : Bool) : (s.leaveTrap key next).mem = s.mem := by
  simp [State.leaveTrap]
@[simp] theorem finishSeat_mem (s : State) (x : Seat) (e : Eff) : (s.finishSeat x e).mem = s.mem := by simp [State.finishSeat]
@[simp] theorem endIdem_mem (s : State) (key : Nat) : (s.endIdem key).mem = s.mem := by simp [State.endIdem]
@[simp] theorem holdWord_mem (s : State) (waits merged : Bool) : (s.holdWord waits merged).mem = s.mem := by
  simp [State.holdWord]
@[simp] theorem waitRegang_mem (s : State) : s.waitRegang.mem = s.mem := by simp [State.waitRegang]

/-! ### Order -/

@[simp] theorem enqueue_mem (s : State) (key st : Nat) (e : Entry) : (s.enqueue key st e).mem = s.mem := by simp [State.enqueue]
@[simp] theorem stamp_mem (s : State) (o : Obj) (ws : List Nat) : (s.stamp o ws).mem = s.mem := rfl
@[simp] theorem releaseObj_mem (s : State) (key : Nat) (o : Obj) : (s.releaseObj key o).mem = s.mem := rfl
@[simp] theorem releaseAll_mem (s : State) (key : Nat) : (s.releaseAll key).mem = s.mem := foldl_mem _ _ _ fun _ _ => rfl
@[simp] theorem releaseOp_mem (s : State) (core eng num : Nat) : (s.releaseOp core eng num).mem = s.mem := rfl
@[simp] theorem addRange_mem (s : State) (pno : Nat) (r : Range) : (s.addRange pno r).mem = s.mem := rfl
@[simp] theorem dropRange_mem (s : State) (pno core eng num : Nat) : (s.dropRange pno core eng num).mem = s.mem := rfl
@[simp] theorem defer_mem (s : State) (key : Nat) (d : Deferred) : (s.defer key d).mem = s.mem := by
  (unfold State.defer; repeat' split) <;> simp
@[simp] theorem rephase_mem (s : State) (l : Nat) : (s.rephase l).mem = s.mem := by simp [State.rephase]
@[simp] theorem charge_mem (s : State) (res l units : Nat) : (s.charge res l units).mem = s.mem := by
  unfold State.charge; split <;> simp
@[simp] theorem chargeSector_mem (s : State) (l : Nat) (c : Cls) (cells rest : List Nat) :
    (s.chargeSector l c cells rest).mem = s.mem := by
  (unfold State.chargeSector; repeat' split) <;> simp
@[simp] theorem chargePiece_mem (s : State) (l : Nat) (p : Piece) (rest : List Piece) :
    (s.chargePiece l p rest).mem = s.mem := by simp [State.chargePiece]
@[simp] theorem chargePieces_mem (s : State) (l : Nat) (ps : List Piece) : (s.chargePieces l ps).mem = s.mem := by
  simp [State.chargePieces]

/-! ### Access -/

@[simp] theorem putEntry_mem (s : State) (key st : Nat) (e : Entry) : (s.putEntry key st e).mem = s.mem := by
  simp [State.putEntry]
@[simp] theorem putLoad_mem (s : State) (x : Seat) (st look tok : Nat) (regs : List Nat) (e : Entry) :
    (s.putLoad x st look tok regs e).mem = s.mem := by simp [State.putLoad]
@[simp] theorem putStore_mem (s : State) (x : Seat) (st tok : Nat) (e : Entry) : (s.putStore x st tok e).mem = s.mem := by
  simp [State.putStore]
@[simp] theorem interrupt_mem (s : State) (vector : Nat) : (s.interrupt vector).mem = s.mem := by
  (unfold State.interrupt; dsimp only; repeat' split) <;> simp
@[simp] theorem logStore_mem (s : State) (kind st pno core stack piece unit : Nat) :
    (s.logStore kind st pno core stack piece unit).mem = s.mem := by
  (unfold State.logStore; repeat' split) <;> simp
@[simp] theorem logError_mem (s : State) (kind a : Nat) : (s.logError kind a).mem = s.mem := by simp [State.logError]
@[simp] theorem aerError_mem (s : State) (link bit : Nat) : (s.aerError link bit).mem = s.mem := rfl
@[simp] theorem softError_mem (s : State) (err : SoftErr) (cells : List Nat) (link : Nat) :
    (s.softError err cells link).mem = s.mem := by
  (unfold State.softError; repeat' split) <;> simp
@[simp] theorem readError_mem (s : State) (err : SoftErr) (p : Piece) : (s.readError err p).mem = s.mem := by
  simp [State.readError]
@[simp] theorem logFabric_mem (s : State) (kind pno plane port reason peer : Nat) :
    (s.logFabric kind pno plane port reason peer).mem = s.mem := by simp [State.logFabric]
@[simp] theorem logHost_mem (s : State) (pno link : Nat) : (s.logHost pno link).mem = s.mem := by simp [State.logHost]
@[simp] theorem performFence_mem (s : State) (core ctx st : Nat) : (s.performFence core ctx st).mem = s.mem := by
  (unfold State.performFence; repeat' split) <;> simp

/-! ### Fetch -/

@[simp] theorem setCur_mem (s : State) (u : Machine.Unit) (part : Nat) (w : Word64) (lit : Bool) :
    (s.setCur u part w lit).mem = s.mem := by simp [State.setCur]
@[simp] theorem takeDeferred_mem (s : State) (u : Machine.Unit) (part : Nat) : (s.takeDeferred u part).mem = s.mem := by
  unfold State.takeDeferred; split <;> simp
@[simp] theorem fetchTrap_mem (s : State) (u : Machine.Unit) (part : Nat) (at_ : Word64) (d : Nat × Word64) :
    (s.fetchTrap u part at_ d).mem = s.mem := by simp [State.fetchTrap]
@[simp] theorem headerTrap_mem (s : State) (u : Machine.Unit) (part : Nat) (w : Word64) (detail : Nat) (info : Word64) :
    (s.headerTrap u part w detail info).mem = s.mem := by simp [State.headerTrap]
@[simp] theorem wordTrap_mem (s : State) (w : Word64) (code detail : Nat) (info : Word64) :
    (s.wordTrap w code detail info).mem = s.mem := by simp [State.wordTrap]
@[simp] theorem fetchAhead_mem (s : State) (core ctx part : Nat) : (s.fetchAhead core ctx part).mem = s.mem := by
  (unfold State.fetchAhead; dsimp only; repeat' split) <;> simp

/-! ### Control -/

@[simp] theorem countUnit_mem (s : State) : s.countUnit.mem = s.mem := by simp [State.countUnit]

/-! ### Engine -/

@[simp] theorem register_mem (s : State) (core eng pno : Nat) (p : Pre) : (s.register core eng pno p).mem = s.mem := rfl
@[simp] theorem updOp_mem (s : State) (core eng num : Nat) (f : Op → Op) : (s.updOp core eng num f).mem = s.mem := rfl
@[simp] theorem noteOp_mem (s : State) (core eng opc : Nat) (o : Op) (code arg : Nat) :
    (s.noteOp core eng opc o code arg).mem = s.mem := rfl
@[simp] theorem sendFlits_mem (s : State) (port k : Nat) : (s.sendFlits port k).mem = s.mem := rfl
@[simp] theorem takeFlits_mem (s : State) (port k : Nat) : (s.takeFlits port k).mem = s.mem := rfl

/-! ### MatrixOps -/

@[simp] theorem putPre_mem (s : State) (x : Seat) (p : Pre) : (s.putPre x p).mem = s.mem := by
  unfold State.putPre; split <;> simp
@[simp] theorem mmaTile_mem (s : State) (kept : Tab Byte) (core : Nat) (m : MmaCmd) : (s.mmaTile kept core m).mem = s.mem := rfl
@[simp] theorem keepOld_mem (s : State) (core slot : Nat) (cells : List Nat) : (s.keepOld core slot cells).mem = s.mem := rfl
@[simp] theorem matrixStart_mem (s : State) (core : Nat) (o : Op) : (s.matrixStart core o).1.mem = s.mem := by
  unfold State.matrixStart; split <;> simp

/-! ### MemoryOps -/

@[simp] theorem putRel_mem (s : State) (x : Seat) (kind : RelKind) (gangs : List Nat) (after : List Nat) (stream : Option Nat)
    (tok : Nat) : (s.putRel x kind gangs after stream tok).mem = s.mem := by simp [State.putRel]
@[simp] theorem relEntry_mem (s : State) (i : Instr) (x : Seat) (streams : List Nat) :
    (s.relEntry i x streams).mem = s.mem := by simp [State.relEntry]
@[simp] theorem updCb_mem (s : State) (core cb : Nat) (f : CBuf → CBuf) : (s.updCb core cb f).mem = s.mem := rfl
@[simp] theorem handOver_mem (s : State) (i : Instr) (x : Seat) (kind : RelKind) (open_ : State → Nat → List Nat)
    (st tok : Nat) : (s.handOver i x kind open_ st tok).mem = s.mem := by simp [State.handOver]

/-! ### CopyOps -/

@[simp] theorem handBack_mem (s : State) (core : Nat) (o : Op) (q : List Img) : (s.handBack core o q).mem = s.mem := by
  (unfold State.handBack; repeat' split) <;> simp

/-! ### WaveOps -/

@[simp] theorem setEdge_mem (s : State) (core idx : Nat) (w : Word64) : (s.setEdge core idx w).mem = s.mem := rfl
@[simp] theorem putNode_mem (s : State) (x : Seat) (p : Pre) : (s.putNode x p).mem = s.mem := by
  unfold State.putNode; split <;> simp
@[simp] theorem locWrite_mem (s : State) (i : Instr) (key lane : Nat) (xs : List Img) :
    (s.locWrite i key lane xs).mem = s.mem := by
  (unfold State.locWrite; repeat' split) <;> simp
@[simp] theorem updStatus_mem (s : State) (pno wid : Nat) (f : Word64 → Word64) : (s.updStatus pno wid f).mem = s.mem := rfl

/-! ### WaveEvents -/

@[simp] theorem updWave_mem (s : State) (k : Nat) (f : Wave → Wave) : (s.updWave k f).mem = s.mem := by
  unfold State.updWave; split <;> simp
@[simp] theorem note_mem (s : State) (w : Wave) (n : WaveNote) : (s.note w n).mem = s.mem := by
  unfold State.note; split <;> simp
@[simp] theorem checkEnd_mem (s : State) (k : Nat) : (s.checkEnd k).mem = s.mem := by
  (unfold State.checkEnd; dsimp only; repeat' split) <;> simp
@[simp] theorem poolAdd_mem (s : State) (k c : Nat) : (s.poolAdd k c).mem = s.mem := by simp [State.poolAdd]
@[simp] theorem putBatch_mem (s : State) (k core credit : Nat) (b : Nat × Bool × List WaveMsg) (back : Option RemoteBack) :
    (s.putBatch k core credit b back).mem = s.mem := by
  unfold State.putBatch; split <;> simp
@[simp] theorem sendBatches_mem (s : State) (k core : Nat) (bs : List (Nat × Bool × List WaveMsg)) :
    (s.sendBatches k core bs).mem = s.mem := by
  (unfold State.sendBatches; dsimp only; repeat' split) <;> simp
@[simp] theorem dispatch_mem (s : State) (k core : Nat) (out : List (Nat × WaveMsg)) : (s.dispatch k core out).mem = s.mem := by
  (unfold State.dispatch; dsimp only; repeat' split) <;> simp
@[simp] theorem registerNode_mem (s : State) (core pno : Nat) (p : Pre) : (s.registerNode core pno p).mem = s.mem := by
  unfold State.registerNode; split <;> simp
@[simp] theorem startNode_mem (s : State) (core : Nat) (o : Op) (w : Wave) : (s.startNode core o w).mem = s.mem := by
  (unfold State.startNode; dsimp only; repeat' split) <;> simp
@[simp] theorem applyEvent_mem (s : State) (k core slot : Nat) (w : Wave) (ev : NodeEvent) :
    (s.applyEvent k core slot w ev).mem = s.mem := by simp [State.applyEvent]
@[simp] theorem waveStart_mem (s : State) (core k slot : Nat) : (s.waveStart core k slot).mem = s.mem := by
  (unfold State.waveStart; dsimp only; repeat' split) <;> simp
@[simp] theorem creditHome_mem (s : State) (core k c : Nat) : (s.creditHome core k c).mem = s.mem := by
  unfold State.creditHome; split <;> simp
@[simp] theorem returnCredit_mem (s : State) (core k : Nat) : (s.returnCredit core k).mem = s.mem := by
  (unfold State.returnCredit; repeat' split) <;> simp
@[simp] theorem creditBack_mem (s : State) (k : Nat) (b : RemoteBack) : (s.creditBack k b).mem = s.mem := by
  (unfold State.creditBack; repeat' split) <;> simp
@[simp] theorem creditTo_mem (s : State) (core k c : Nat) : (s.creditTo core k c).mem = s.mem := by
  unfold State.creditTo; split <;> simp
@[simp] theorem enterBatch_mem (s : State) (k core credit : Nat) (start : Bool) (msgs : List WaveMsg) :
    (s.enterBatch k core credit start msgs).mem = s.mem := by simp [State.enterBatch]
@[simp] theorem acceptBatch_mem (s : State) (n : Nat) : (s.acceptBatch n).mem = s.mem := by
  (unfold State.acceptBatch; repeat' split) <;> simp
theorem takeMsg_mem (s : State) (core k n : Nat) {f : State → Wave → WaveMsg → State} (late : Bool)
    (hf : ∀ s v m, (f s v m).mem = s.mem) : (s.takeMsg core k n f late).mem = s.mem := by
  (unfold State.takeMsg; repeat' split) <;> simp [hf]
@[simp] theorem batchFlits_mem (s : State) (r : RemoteBatch) : (s.batchFlits r).mem = s.mem := rfl
@[simp] theorem acceptRemote_mem (s : State) (r : RemoteBatch) : (s.acceptRemote r).mem = s.mem := by
  (unfold State.acceptRemote; dsimp only; repeat' split) <;> simp
@[simp] theorem reclaim_mem (s : State) (b : Batch) : (s.reclaim b).mem = s.mem := by
  (unfold State.reclaim; dsimp only; repeat' split) <;> simp
@[simp] theorem refuseBatch_mem (s : State) (b : Batch) (reason : Nat) : (s.refuseBatch b reason).mem = s.mem := by
  simp [State.refuseBatch]
@[simp] theorem sendFar_mem (s : State) (b : Batch) : (s.sendFar b).mem = s.mem := by
  (unfold State.sendFar; repeat' split) <;> simp
@[simp] theorem reclaimBatches_mem (s : State) (lost : Batch → Bool) : (s.reclaimBatches lost).mem = s.mem := by
  simp [State.reclaimBatches]

/-! ### EngineEvents -/

@[simp] theorem dropPre_mem (s : State) (core id : Nat) : (s.dropPre core id).mem = s.mem := rfl
@[simp] theorem registerRanges_mem (s : State) (core eng pno : Nat) (p : Pre) (r : List (Nat × Nat) × List (Nat × Nat)) :
    (s.registerRanges core eng pno p r).mem = s.mem := by
  unfold State.registerRanges; split <;> simp
@[simp] theorem registerStack_mem (s : State) (core key pno st : Nat) (p : Pre) (e : Entry) :
    (s.registerStack core key pno st p e).mem = s.mem := by
  (unfold State.registerStack; dsimp only; repeat' split) <;> simp
@[simp] theorem registerHead_mem (s : State) (core key st : Nat) (g : Gang) (e : Entry) :
    (s.registerHead core key st g e).mem = s.mem := by
  (unfold State.registerHead; dsimp only; repeat' split) <;> simp
@[simp] theorem registerFollow_mem (s : State) (core pno : Nat) (p : Pre) : (s.registerFollow core pno p).mem = s.mem := by
  unfold State.registerFollow; split <;> simp
@[simp] theorem registerMatrix_mem (s : State) (core key pno : Nat) : (s.registerMatrix core key pno).mem = s.mem := by
  (unfold State.registerMatrix; repeat' split) <;> simp
@[simp] theorem registerWave_mem (s : State) (core key pno : Nat) : (s.registerWave core key pno).mem = s.mem := by
  (unfold State.registerWave; repeat' split) <;> simp
@[simp] theorem takeGate_mem (s : State) (core sink : Nat) : (s.takeGate core sink).mem = s.mem := rfl
@[simp] theorem matrixGo_mem (s : State) (core : Nat) (o : Op) : (s.matrixGo core o).mem = s.mem := by
  unfold State.matrixGo; split <;> simp
@[simp] theorem startMatrix_mem (s : State) (core : Nat) : (s.startMatrix core).mem = s.mem := by
  (unfold State.startMatrix; dsimp only; repeat' split) <;> simp
@[simp] theorem startStack_mem (s : State) (core port : Nat) : (s.startStack core port).mem = s.mem := by
  (unfold State.startStack; dsimp only; repeat' split) <;> simp
@[simp] theorem opPoison_mem (s : State) (eng : Nat) (o : Op) (p : Piece) (err : SoftErr) :
    (s.opPoison eng o p err).1.mem = s.mem := by
  (unfold State.opPoison; repeat' split) <;> simp

/-! ### FabricEvents -/

@[simp] theorem ring_mem (s : State) (q : Nat) : (s.ring q).mem = s.mem := by simp [State.ring]
@[simp] theorem portServe_mem (s : State) (src pno o : Nat) (req : PeerReq) : (s.portServe src pno o req).1.mem = s.mem := by
  (unfold State.portServe; dsimp only; repeat' split) <;> simp
@[simp] theorem refusePeer_mem (s : State) (src pno o n : Nat) : (s.refusePeer src pno o n).mem = s.mem := by
  simp [State.refusePeer]
@[simp] theorem peerArrive_mem (s : State) (own : Option (Nat × Nat)) (src : Nat) (desig : Word64) (o : Nat) (req : PeerReq) :
    (s.peerArrive own src desig o req).1.mem = s.mem := by
  have hp := portServe_mem s src (desigPart desig) o req
  unfold State.peerArrive; dsimp only
  generalize s.portServe src (desigPart desig) o req = r at *
  split
  · (repeat' split) <;> simp_all
  · (repeat' split) <;> simp
@[simp] theorem replyPeer_mem (s : State) (r : Inbound) (a : PeerAns) : (s.replyPeer r a).mem = s.mem := rfl
@[simp] theorem dropFab_mem (s : State) (id : Nat) : (s.dropFab id).mem = s.mem := rfl
@[simp] theorem logLate_mem (s : State) (o : FabOp) (r : FReq) (a : PeerAns) : (s.logLate o r a).mem = s.mem := by
  (unfold State.logLate; repeat' split) <;> simp
@[simp] theorem setLanes_mem (s : State) (port : Nat) (lanes : BitVec 16) : (s.setLanes port lanes).mem = s.mem := by
  (unfold State.setLanes; dsimp only; repeat' split) <;> simp
@[simp] theorem holdPlane_mem (s : State) (plane : Nat) (on : Bool) : (s.holdPlane plane on).mem = s.mem := rfl
@[simp] theorem moveLines_mem (s : State) (plane via q : Nat) : (s.moveLines plane via q).mem = s.mem := rfl

/-! ### Context -/

@[simp] theorem returnAlone_mem (s : State) (key : Nat) : (s.returnAlone key).mem = s.mem := by
  (unfold State.returnAlone; dsimp only; repeat' split) <;> simp

/-! ### SchedOps -/

@[simp] theorem arrive_mem (s : State) (x : Seat) (g tok : Nat) : (s.arrive x g tok).mem = s.mem := by simp [State.arrive]
@[simp] theorem arriveAll_mem (s : State) (g : Nat) : (s.arriveAll g).mem = s.mem := by simp [State.arriveAll]
@[simp] theorem retire_mem (s : State) (x : Seat) : (s.retire x).mem = s.mem := by
  (unfold State.retire; dsimp only; repeat' split) <;> simp

/-! ### SystemOps -/

@[simp] theorem clock_mem (s : State) (core : Nat) : (s.clock core).mem = s.mem := rfl

/-! ### HandleOps -/

@[simp] theorem noMore_mem (s : State) (x : Seat) (w : Word64) (e : Entry) : (noMore s x w e).1.mem = s.mem := rfl
@[simp] theorem dropStack_mem (s : State) (pno : Nat) (h : Handle) : (s.dropStack pno h).mem = s.mem :=
  foldl_mem _ _ _ fun _ _ => rfl
@[simp] theorem mapHandle_mem (s : State) (pno n : Nat) (h : Handle) : (s.mapHandle pno n h).mem = s.mem := rfl
@[simp] theorem performHmap_mem (s : State) (pno core : Nat) (attr want src : Word64) :
    (s.performHmap pno core attr want src).1.mem = s.mem := by
  unfold State.performHmap; dsimp only; split <;> simp
@[simp] theorem movePiece_mem (s : State) (piece stack : Nat) : (s.movePiece piece stack).mem = s.mem := rfl
@[simp] theorem copyPoison_mem (s : State) (src dst : Nat → Nat) (n : Nat) : (s.copyPoison src dst n).mem = s.mem := by
  unfold State.copyPoison; split <;> simp
@[simp] theorem putHop_mem (s : State) (key pno : Nat) (e : Entry) (handle : Option (Nat × Handle)) (target : Nat) :
    (s.putHop key pno e handle target).mem = s.mem := rfl

/-! ### Launch -/

@[simp] theorem createTeam_mem (s : State) (n : Nat) (x : Launch) (arg : Word64) (prio : Nat) (pl : Place) :
    (s.createTeam n x arg prio pl).mem = s.mem := by
  (unfold State.createTeam; repeat' split) <;> simp

/-! ### OrderEvents -/

@[simp] theorem mergeAt_mem (s : State) (key : Nat) (team : List (Nat × Gang)) (pc : Nat) :
    (s.mergeAt key team pc).mem = s.mem := by
  (unfold State.mergeAt; dsimp only; repeat' split) <;> simp
@[simp] theorem endHolder_mem (s : State) (holder : Option Nat) : (s.endHolder holder).mem = s.mem := by
  unfold State.endHolder; split <;> simp
@[simp] theorem shadowLost_mem (s : State) (pno core : Nat) (h : Shadow) (byte : Nat) :
    (s.shadowLost pno core h byte).mem = s.mem := by
  (unfold State.shadowLost; dsimp only; repeat' split) <;> simp
theorem storeError_mem (s : State) (err : SoftErr) (st pno core byte : Nat) {f : State → State}
    (hf : ∀ t, (f t).mem = t.mem) : (s.storeError err st pno core byte f).mem = s.mem := by
  cases err <;> simp [State.storeError, hf]
@[simp] theorem shadowError_mem (s : State) (err : SoftErr) (pno core n : Nat) :
    (s.shadowError err pno core n).mem = s.mem := by
  (unfold State.shadowError; dsimp only; repeat' split) <;> simp [storeError_mem]
@[simp] theorem memoryError_mem (s : State) (err : SoftErr) (a : Nat) (wr : Bool) : (s.memoryError err a wr).mem = s.mem := by
  (unfold State.memoryError; repeat' split) <;> simp
@[simp] theorem completePacket_mem (s : State) (queue packet status : Nat) :
    (s.completePacket queue packet status).mem = s.mem := rfl

/-! ### SchedEvents -/

@[simp] theorem moveTeam_mem (s : State) (key : Nat) (st : GangSt) : (s.moveTeam key st).mem = s.mem := by simp [State.moveTeam]
@[simp] theorem readPost_mem (s : State) (key core st : Nat) (g : Gang) (e : Entry) :
    (s.readPost key core st g e).mem = s.mem := by simp [State.readPost]

/-! ### MgmtEvents -/

@[simp] theorem updMgmt_mem (s : State) (f : Mgmt → Mgmt) : (s.updMgmt f).mem = s.mem := rfl
@[simp] theorem endCmd_mem (s : State) (status : Nat) : (s.endCmd status).mem = s.mem := rfl
@[simp] theorem clearNodes_mem (s : State) (cores : List Nat) : (s.clearNodes cores).mem = s.mem := rfl
@[simp] theorem forgetPart_mem (s : State) (pno : Nat) : (s.forgetPart pno).mem = s.mem := rfl
@[simp] theorem untokenPart_mem (s : State) (pno : Nat) (dead : Nat → Bool) : (s.untokenPart pno dead).mem = s.mem := rfl
@[simp] theorem setCoreRegs_mem (s : State) (n : Nat) (sched budget node : Word64) :
    (s.setCoreRegs n sched budget node).mem = s.mem := by
  (unfold State.setCoreRegs; repeat' split) <;> simp
@[simp] theorem setStackRegs_mem (s : State) (n : Nat) (w : Word64) : (s.setStackRegs n w).mem = s.mem := by
  unfold State.setStackRegs; split <;> simp
@[simp] theorem setQueueRegs_mem (s : State) (n : Nat) (w0 w1 : Word64) : (s.setQueueRegs n w0 w1).mem = s.mem := by
  (unfold State.setQueueRegs; dsimp only; repeat' split) <;> simp
@[simp] theorem setPartRegs_mem (s : State) (pno : Nat) (w : Word64) : (s.setPartRegs pno w).mem = s.mem := by
  (unfold State.setPartRegs; repeat' split) <;> simp
@[simp] theorem setPlaneDead_mem (s : State) (v : BitVec 8) : (s.setPlaneDead v).mem = s.mem := rfl
@[simp] theorem writeMcmd_mem (s : State) (v : Word64) : (s.writeMcmd v).mem = s.mem := by
  (unfold State.writeMcmd; dsimp only; repeat' split) <;> simp
@[simp] theorem boot_mem (s : State) : s.boot.mem = s.mem := by
  unfold State.boot; dsimp only; split
  · exact updMgmt_mem _ _
  · exact updMgmt_mem _ _

/-! ### Arbiter -/

@[simp] theorem grantSlot_mem (s : State) (core ctx part : Nat) : (s.grantSlot core ctx part).mem = s.mem := by
  (unfold State.grantSlot; dsimp only; repeat' split) <;> simp
@[simp] theorem grantAsk_mem (s : State) (c : Choice) (a : Ask) : (s.grantAsk c a).mem = s.mem := by
  unfold State.grantAsk; split <;> simp
@[simp] theorem grant_mem (s : State) (c : Choice) : (s.grant c).mem = s.mem := by
  unfold State.grant; split <;> simp
@[simp] theorem arriving_mem (s : State) (c : Choice) : (s.arriving c).mem = s.mem := by
  unfold State.arriving; split <;> simp
@[simp] theorem pass_mem (s : State) : s.pass.mem = s.mem := by simp [State.pass]
@[simp] theorem chosen_mem (s : State) (c : Choice) : (s.chosen c).mem = s.mem := by
  unfold State.chosen; split <;> simp

end Sys2Proof.Laws
end

section
/-! SUPPORT. Which operations on the state write memory and keep its canonical form. -/

namespace Sys2Proof.Laws

open Sys2Proof Sys2Proof.Machine

variable {s : State}

/-- Steps taken one after another keep memory canonical when each does. -/
@[simp] theorem foldl_wf {β : Type} (f : State → β → State) (l : List β) (h : ∀ s x, Memory.wf s.mem → Memory.wf (f s x).mem)
    (hm : Memory.wf s.mem) : Memory.wf (l.foldl f s).mem :=
  List.foldlRecOn (motive := fun t => Memory.wf t.mem) l f hm fun t ht x _ => h t x ht

/-! ### Mem -/

@[simp] theorem applyGranule_wf (loc g k : Nat) (hm : Memory.wf s.mem) : Memory.wf (s.applyGranule loc g k).mem := by
  unfold State.applyGranule; dsimp only; split
  · exact hm
  · exact List.foldlRecOn (motive := fun m => Memory.wf m) _ _ hm fun m hm w _ => wf_foldl _ _ _ hm
@[simp] theorem applyTo_wf (loc : Nat) (w : GWrite) (hm : Memory.wf s.mem) : Memory.wf (s.applyTo loc w).mem :=
  foldl_wf _ _ (fun _ gk h => applyGranule_wf loc gk.1 gk.2 h) hm
@[simp] theorem layOver_wf (q : Nat) (w : GWrite) (hm : Memory.wf s.mem) : Memory.wf (s.layOver q w).mem := wf_foldl _ _ _ hm
@[simp] theorem logWrite_wf (who : Writer) (q : Nat) (lin : Bool) (prop : Nat) (cells : List (Nat × Byte)) (inPath : Bool)
    (hm : Memory.wf s.mem) : Memory.wf (s.logWrite who q lin prop cells inPath).1.mem := by
  unfold State.logWrite; split <;> simp [wf_sets, hm]
@[simp] theorem writeCells_wf (who : Writer) (q : Nat) (c : Cls) (cells : List (Nat × Byte)) (hm : Memory.wf s.mem) :
    Memory.wf (s.writeCells who q c cells).mem := by
  (unfold State.writeCells; repeat' split) <;> simp [wf_sets, hm]
@[simp] theorem drainWrite_wf (w : GWrite) (hm : Memory.wf s.mem) : Memory.wf (s.drainWrite w).mem := by
  unfold State.drainWrite; split <;> simp [hm]
@[simp] theorem propagateWrite_wf (w : GWrite) (q : Nat) (hm : Memory.wf s.mem) : Memory.wf (s.propagateWrite w q).mem := by
  simp [State.propagateWrite, hm]
@[simp] theorem replicateWrite_wf (w : GWrite) (q : Nat) (hm : Memory.wf s.mem) : Memory.wf (s.replicateWrite w q).mem := by
  simp [State.replicateWrite, hm]
@[simp] theorem drainUpTo_wf (w : GWrite) (hm : Memory.wf s.mem) : Memory.wf (s.drainUpTo w).mem :=
  foldl_wf _ _ (fun _ _ h => by split <;> simp [h]) hm
@[simp] theorem everywhere_wf (id : Nat) (hm : Memory.wf s.mem) : Memory.wf (s.everywhere id).mem := by
  unfold State.everywhere; split
  · exact hm
  · refine foldl_wf _ _ (fun t q ht => ?_) ?_
    · (repeat' split) <;> simp [ht]
    · split <;> simp [hm]
@[simp] theorem drainHost_wf (pno : Nat) (hm : Memory.wf s.mem) : Memory.wf (s.drainHost pno).mem := by
  unfold State.drainHost; split <;> simp [wf_sets, hm]
@[simp] theorem drainHostAll_wf (pno : Nat) (hm : Memory.wf s.mem) : Memory.wf (s.drainHostAll pno).mem :=
  foldl_wf _ _ (fun _ _ h => drainHost_wf pno h) hm
/-- A write that goes beneath the window paths at once. -/
@[simp] theorem logWrite_everywhere_wf (who : Writer) (q : Nat) (lin : Bool) (prop : Nat) (cells : List (Nat × Byte))
    (inPath : Bool) (id : Nat) (hm : Memory.wf s.mem) :
    Memory.wf ((s.logWrite who q lin prop cells inPath).1.everywhere id).mem := everywhere_wf _ (logWrite_wf _ _ _ _ _ _ hm)
@[simp] theorem settleFrom_wf (first pno : Nat) (hm : Memory.wf s.mem) : Memory.wf (s.settleFrom first pno).mem :=
  drainHostAll_wf _ (foldl_wf _ _ (fun _ i h => everywhere_wf i h) hm)
@[simp] theorem writePiece_wf (who : Writer) (q : Nat) (p : Piece) (all : List Nat) (hm : Memory.wf s.mem) :
    Memory.wf (s.writePiece who q p all).mem := by
  have hc : Memory.wf ((s.clearWhole all p.cells).clearWhole all p.tagCells).mem := by simpa using hm
  unfold State.writePiece; dsimp only; split
  · exact writeCells_wf _ _ _ _ hc
  · exact settleFrom_wf _ _ (writeCells_wf _ _ _ _ (writeCells_wf _ _ _ _ hc))

/-! ### Order -/

@[simp] theorem acquireWrite_wf (q id : Nat) (hm : Memory.wf s.mem) : Memory.wf (s.acquireWrite q id).mem := by
  (unfold State.acquireWrite; repeat' split) <;> simp [hm]
@[simp] theorem acquireIn_wf (q : Nat) (o : Obj) (hm : Memory.wf s.mem) : Memory.wf (s.acquireIn q o).mem :=
  foldl_wf _ _ (fun _ w h => acquireWrite_wf q w.2 h) hm
@[simp] theorem acquire_wf (key : Nat) (o : Obj) (hm : Memory.wf s.mem) : Memory.wf (s.acquire key o).mem := by
  simp [State.acquire, hm]
@[simp] theorem observe_wf (key core eng v : Nat) (hm : Memory.wf s.mem) : Memory.wf (s.observe key core eng v).mem := by
  simp +contextual [State.observe, hm]
@[simp] theorem observeLine_wf (key core line : Nat) (n : BitVec 32) (hm : Memory.wf s.mem) :
    Memory.wf (s.observeLine key core line n).mem := by simp +contextual [State.observeLine, hm]
@[simp] theorem dropTok_wf (key tok : Nat) (hm : Memory.wf s.mem) : Memory.wf (s.dropTok key tok).mem := by
  (unfold State.dropTok; dsimp only; repeat' split) <;> simp +contextual [hm]
@[simp] theorem land_wf (key id : Nat) (outs : List Out) (hm : Memory.wf s.mem) : Memory.wf (s.land key id outs).mem :=
  foldl_wf _ _ (fun _ _ h => by split <;> simp [h]) hm
@[simp] theorem drainAll_wf (launches : List Nat) (pno : Nat) (hm : Memory.wf s.mem) :
    Memory.wf (s.drainAll launches pno).mem := by
  refine drainHostAll_wf _ (foldl_wf _ _ (fun _ i h => everywhere_wf i h) (foldl_wf _ _ (fun _ i h => ?_) hm))
  (repeat' split) <;> simp [h]

/-! ### Access -/

@[simp] theorem finishEntry_wf (key : Nat) (e : Entry) (hm : Memory.wf s.mem) : Memory.wf (s.finishEntry key e).mem := by
  (unfold State.finishEntry; repeat' split) <;> simp [hm]
@[simp] theorem dropEntry_wf (key st : Nat) (e : Entry) (d : Deferred) (hm : Memory.wf s.mem) :
    Memory.wf (s.dropEntry key st e d).mem := by
  unfold State.dropEntry; split <;> simp [hm]
@[simp] theorem performOne_wf (key st : Nat) (g : Gang) (e : Entry) (n : Nat) (p : Piece) (err : SoftErr)
    (hm : Memory.wf s.mem) : Memory.wf (s.performOne key st g e n p err).1.mem := by
  (unfold State.performOne; dsimp only; repeat' split) <;> simp [hm]
theorem performStream_wf (core ctx st n : Nat) (err : SoftErr) {done : State → Nat → Entry → State}
    (hd : ∀ (t : State) key e, Memory.wf t.mem → Memory.wf (done t key e).mem) (hm : Memory.wf s.mem) :
    Memory.wf (s.performStream core ctx st n err done).mem := by
  (unfold State.performStream; dsimp only; repeat' split) <;> simp [hd, hm]
@[simp] theorem sendAtomic_wf (core ctx st : Nat) (hm : Memory.wf s.mem) : Memory.wf (s.sendAtomic core ctx st).mem := by
  (unfold State.sendAtomic; dsimp only; repeat' split) <;> simp [hm]
@[simp] theorem atomicWrite_wf (who : Writer) (q : Nat) (c : Cls) (cells : List (Nat × Byte)) (hm : Memory.wf s.mem) :
    Memory.wf (s.atomicWrite who q c cells).mem := by
  (unfold State.atomicWrite; dsimp only; repeat' split) <;> simp [wf_sets, hm]
@[simp] theorem atomicPut_wf (who : Writer) (q : Nat) (p : Piece) (new tags : List Byte) (hm : Memory.wf s.mem) :
    Memory.wf (s.atomicPut who q p new tags).mem := by
  unfold State.atomicPut; dsimp only; split
  · exact atomicWrite_wf _ _ _ _ hm
  · exact settleFrom_wf _ _ (atomicWrite_wf _ _ _ _ (atomicWrite_wf _ _ _ _ hm))
@[simp] theorem performLane_wf (r : AtomReq) (g : Gang) (st : Nat) (e : Entry) (err : SoftErr) (hm : Memory.wf s.mem) :
    Memory.wf (s.performLane r g st e err).1.mem := by
  (unfold State.performLane; dsimp only; repeat' split) <;> simp [hm]
@[simp] theorem performAtomic_wf (pno cluster : Nat) (err : SoftErr) (hm : Memory.wf s.mem) :
    Memory.wf (s.performAtomic pno cluster err).mem := by
  have hd := drainHostAll_wf pno hm
  (unfold State.performAtomic; dsimp only; repeat' split) <;> simp [hd, hm]

/-! ### Fetch -/

@[simp] theorem consume_wf (key line : Nat) (hm : Memory.wf s.mem) : Memory.wf (s.consume key line).mem := by
  unfold State.consume; split <;> simp [hm]
@[simp] theorem enterClause_wf (u : Machine.Unit) (part : Nat) (hm : Memory.wf s.mem) :
    Memory.wf (s.enterClause u part).mem := by
  (unfold State.enterClause; dsimp only; repeat' split) <;> simp +contextual [hm]

/-! ### Engine -/

@[simp] theorem releaseTok_wf (key tok eng num : Nat) (hm : Memory.wf s.mem) :
    Memory.wf (s.releaseTok key tok eng num).mem := by
  unfold State.releaseTok; split <;> simp [hm]
@[simp] theorem completeOp_wf (core eng : Nat) (o : Op) (hm : Memory.wf s.mem) : Memory.wf (s.completeOp core eng o).mem := by
  simp [State.completeOp, hm]

/-! ### MatrixOps -/

@[simp] theorem putSlot_wf (core slot ofs : Nat) (bs : List Byte) (hm : Memory.wf s.mem) :
    Memory.wf (s.putSlot core slot ofs bs).mem := wf_sets _ hm
@[simp] theorem matrixEnd_wf (core : Nat) (o : Op) (hm : Memory.wf s.mem) : Memory.wf (s.matrixEnd core o).mem := by
  (unfold State.matrixEnd; repeat' split) <;> simp [hm]

/-! ### CopyOps -/

@[simp] theorem putUnit_wf (core slot start ofs : Nat) (bs : List Byte) (bad : Nat → Nat → Bool) (hm : Memory.wf s.mem) :
    Memory.wf (s.putUnit core slot start ofs bs bad).mem := by
  refine foldl_wf _ _ (fun _ _ h => ?_) (by simp [hm])
  dsimp only; (repeat' split) <;> simp [h]

/-! ### WaveEvents -/

@[simp] theorem performLoc_wf (core ctx n : Nat) (hm : Memory.wf s.mem) : Memory.wf (s.performLoc core ctx n).mem := by
  (unfold State.performLoc; dsimp only; repeat' split) <;> simp [hm]
@[simp] theorem settleLocs_wf (core ctx : Nat) (hm : Memory.wf s.mem) : Memory.wf (s.settleLocs core ctx).mem := by
  (unfold State.settleLocs; repeat' split) <;> simp [hm]

/-! ### EngineEvents -/

theorem copyAdvance_wf (core fuel : Nat) (o : Op) (hm : Memory.wf s.mem) :
    Memory.wf (State.copyAdvance core fuel s o).1.mem := by
  induction fuel generalizing s o with
  | zero => exact hm
  | succ fuel ih => (unfold State.copyAdvance; dsimp only; repeat' split) <;> simp [ih, hm]
@[simp] theorem runCopy_wf (core : Nat) (o : Op) (hm : Memory.wf s.mem) : Memory.wf (s.runCopy core o).mem := by
  simp [State.runCopy, copyAdvance_wf, hm]
@[simp] theorem startCopy_wf (core : Nat) (hm : Memory.wf s.mem) : Memory.wf (s.startCopy core).mem := by
  (unfold State.startCopy; dsimp only; repeat' split) <;> simp [hm]
@[simp] theorem writeBeneath_wf (who : Writer) (q : Nat) (p : Piece) (all : List Nat) (hm : Memory.wf s.mem) :
    Memory.wf (s.writeBeneath who q p all).mem := by simp [State.writeBeneath, hm]
@[simp] theorem opPiece_wf (core eng : Nat) (o : Op) (n : Nat) (p : Piece) (err : SoftErr) (hm : Memory.wf s.mem) :
    Memory.wf (s.opPiece core eng o n p err).1.mem := by
  (unfold State.opPiece; dsimp only; repeat' split) <;> simp [hm]
@[simp] theorem opGoOn_wf (core eng : Nat) (o : Op) (hm : Memory.wf s.mem) : Memory.wf (s.opGoOn core eng o).mem := by
  (unfold State.opGoOn; dsimp only; repeat' split) <;> simp [hm]
@[simp] theorem performOp_wf (core eng num n : Nat) (err : SoftErr) (hm : Memory.wf s.mem) :
    Memory.wf (s.performOp core eng num n err).mem := by
  (unfold State.performOp; dsimp only; repeat' split) <;> simp [hm]
@[simp] theorem completeCopy_wf (core : Nat) (o : Op) (hm : Memory.wf s.mem) : Memory.wf (s.completeCopy core o).mem := by
  (unfold State.completeCopy; repeat' split) <;> simp [hm]
@[simp] theorem completeWave_wf (core : Nat) (o : Op) (hm : Memory.wf s.mem) : Memory.wf (s.completeWave core o).mem := by
  unfold State.completeWave; split <;> simp [hm]
@[simp] theorem completeStack_wf (core eng : Nat) (o : Op) (hm : Memory.wf s.mem) :
    Memory.wf (s.completeStack core eng o).mem := by
  (unfold State.completeStack; repeat' split) <;> simp [hm]
@[simp] theorem serve_wf (core cb slot : Nat) (b : CBuf) (r : CbReq) (give : Op → Op) (hm : Memory.wf s.mem) :
    Memory.wf (s.serve core cb slot b r give).mem := by
  (unfold State.serve; dsimp only; repeat' split) <;> simp [hm]

/-! ### FabricOps -/

@[simp] theorem observeFabric_wf (key : Nat) (hm : Memory.wf s.mem) : Memory.wf (s.observeFabric key).mem := by
  simp +contextual [State.observeFabric, hm]

/-! ### FabricEvents -/

@[simp] theorem imageWrite_wf (pno : Nat) (all : List Nat) (p : Piece) (hm : Memory.wf s.mem) :
    Memory.wf (s.imageWrite pno all p).mem := by simp [State.imageWrite, hm]
@[simp] theorem peerAtomic_wf (pno : Nat) (p : Piece) (req : PeerReq) (hm : Memory.wf s.mem) :
    Memory.wf (s.peerAtomic pno p req).1.mem := by simp [State.peerAtomic, hm]
@[simp] theorem inboundPiece_wf (r : Inbound) (n : Nat) (err : SoftErr) (hm : Memory.wf s.mem) :
    Memory.wf (s.inboundPiece r n err).1.mem := by
  (unfold State.inboundPiece; dsimp only; repeat' split) <;> simp [hm]
theorem performInboundWith_wf (id n : Nat) (err : SoftErr) {late : State → Inbound → PeerAns → State}
    (hl : ∀ (t : State) r a, Memory.wf t.mem → Memory.wf (late t r a).mem) (hm : Memory.wf s.mem) :
    Memory.wf (s.performInboundWith id n err late).mem := by
  (unfold State.performInboundWith; dsimp only; repeat' split) <;> simp [hl, hm]
@[simp] theorem finishFab_wf (o : FabOp) (hm : Memory.wf s.mem) : Memory.wf (s.finishFab o).mem := by
  (unfold State.finishFab; repeat' split) <;> simp [hm]
@[simp] theorem settleFab_wf (hm : Memory.wf s.mem) : Memory.wf s.settleFab.mem := by simp +contextual [State.settleFab, hm]
@[simp] theorem answer_wf (id k : Nat) (a : PeerAns) (came : Bool) (hm : Memory.wf s.mem) :
    Memory.wf (s.answer id k a came).mem := by
  refine settleFab_wf (foldl_wf _ _ (fun _ _ h => foldl_wf _ _ (fun _ _ h => ?_) h) hm)
  dsimp only; (repeat' split) <;> simp [h]
@[simp] theorem replyOwn_wf (r : Inbound) (a : PeerAns) (hm : Memory.wf s.mem) : Memory.wf (s.replyOwn r a).mem := by
  unfold State.replyOwn; split <;> simp [hm]
@[simp] theorem performInbound_wf (id n : Nat) (err : SoftErr) (hm : Memory.wf s.mem) :
    Memory.wf (s.performInbound id n err).mem := by
  unfold State.performInbound; split
  · exact hm
  · exact performInboundWith_wf _ _ _ (fun _ r a h => replyOwn_wf r a h) hm
@[simp] theorem ownRequest_wf (o : FabOp) (k : Nat) (r : FReq) (hm : Memory.wf s.mem) :
    Memory.wf (s.ownRequest o k r).mem := by
  have ha := peerArrive_mem (s.takeFlits (s.portOfLine r.offset) (reqFlits r.req)) (some (o.entry.id, k))
    Config.device.toNat r.desig r.offset r.req
  unfold State.ownRequest; dsimp only
  generalize State.peerArrive _ _ _ _ _ _ = t at *
  (repeat' split) <;> simp_all
@[simp] theorem peerRequest_wf (src : Nat) (desig : Word64) (o : Nat) (req : PeerReq) (hm : Memory.wf s.mem) :
    Memory.wf (s.peerRequest src desig o req).mem := by
  have ha := peerArrive_mem (s.takeFlits (s.portOfLine o) (reqFlits req)) none src desig o req
  unfold State.peerRequest
  generalize State.peerArrive _ _ _ _ _ _ = t at *
  (repeat' split) <;> simp_all
@[simp] theorem sendOut_wf (key : Nat) (g : Gang) (e : Entry) (rs : List FReq) (hm : Memory.wf s.mem) :
    Memory.wf (s.sendOut key g e rs).mem := by
  (unfold State.sendOut; repeat' split) <;> simp [hm]
@[simp] theorem finishLost_wf (id lane : Nat) (hm : Memory.wf s.mem) : Memory.wf (s.finishLost id lane).mem := by
  unfold State.finishLost; split
  · exact hm
  · exact foldl_wf _ _ (fun _ _ h => performInboundWith_wf _ _ _ (fun _ _ _ h => h) h) hm

/-! ### SchedOps -/

@[simp] theorem passBarrier_wf (x : Seat) (g : Nat) (hm : Memory.wf s.mem) : Memory.wf (s.passBarrier x g).mem := by
  simp [State.passBarrier, hm]

/-! ### SystemOps -/

@[simp] theorem ctxTaken_wf (key : Nat) (e : Entry) (bs : List Byte) (hm : Memory.wf s.mem) :
    Memory.wf (s.ctxTaken key e bs).mem := by
  (unfold State.ctxTaken; dsimp only; repeat' split) <;> simp [hm]
@[simp] theorem ctxRead_wf (key : Nat) (e : Entry) (hm : Memory.wf s.mem) : Memory.wf (s.ctxRead key e).mem := by
  (unfold State.ctxRead; dsimp only; repeat' split) <;> simp [hm]

/-! ### HandleOps -/

@[simp] theorem zeroPieces_wf (ps : List Nat) (hm : Memory.wf s.mem) : Memory.wf (s.zeroPieces ps).mem := wf_filter _ hm
@[simp] theorem performHnew_wf (pno core : Nat) (attr want : Word64) (hm : Memory.wf s.mem) :
    Memory.wf (s.performHnew pno core attr want).1.mem := by
  unfold State.performHnew; dsimp only; split <;> simp [hm]
@[simp] theorem chkptCopy_wf (o : HandleOp) (load : Bool) (h : Handle) (off n block : Nat) (hm : Memory.wf s.mem) :
    Memory.wf (s.chkptCopy o load h off n block).mem := by
  unfold State.chkptCopy; dsimp only; split
  · simpa using foldl_wf _ _ (fun _ p h => writePiece_wf _ _ p _ h) hm
  · simp [wf_sets, hm]
@[simp] theorem endHandleOp_wf (key : Nat) (e : Entry) (w : Word64) (hm : Memory.wf s.mem) :
    Memory.wf (s.endHandleOp key e w).mem := by
  unfold State.endHandleOp; split <;> simp [hm]
@[simp] theorem performHandle_wf (core key st pno : Nat) (e : Entry) (hm : Memory.wf s.mem) :
    Memory.wf (s.performHandle core key st pno e).mem := by
  (unfold State.performHandle; dsimp only; repeat' split) <;> simp [hm]
@[simp] theorem finishHandle_wf (o : HandleOp) (hm : Memory.wf s.mem) : Memory.wf (s.finishHandle o).mem := by
  (unfold State.finishHandle; dsimp only; repeat' split) <;> simp [hm]

/-! ### Launch -/

@[simp] theorem createLaunch_wf (pno queue packet prio : Nat) (pl : Plan) (gs : List Group) (ps : List Place) (arg : Word64)
    (hm : Memory.wf s.mem) :
    Memory.wf (s.createLaunch pno queue packet prio pl gs ps arg).mem := by simp +contextual [State.createLaunch, hm]

/-! ### OrderEvents -/

theorem storeError_wf (err : SoftErr) (st pno core byte : Nat) {f : State → State} (hf : ∀ t, (f t).mem = t.mem)
    (hm : Memory.wf s.mem) : Memory.wf (s.storeError err st pno core byte f).mem := by
  rwa [storeError_mem _ _ _ _ _ _ hf]
@[simp] theorem afterPieces_wf (key : Nat) (e : Entry) (hm : Memory.wf s.mem) : Memory.wf (s.afterPieces key e).mem := by
  unfold State.afterPieces; split <;> simp [hm]
@[simp] theorem takeRelease_wf (r : Rel) (hm : Memory.wf s.mem) : Memory.wf (s.takeRelease r).mem := by
  (unfold State.takeRelease; repeat' split) <;> simp +contextual [hm]

/-! ### SchedEvents -/

@[simp] theorem takeHead_wf (queue : Nat) (q : Queue) (h : Head) (t : Take) (hm : Memory.wf s.mem) :
    Memory.wf (s.takeHead queue q h t).mem := by
  (unfold State.takeHead; repeat' split) <;> simp [hm]
@[simp] theorem writeSlot_wf (who : Writer) (core since : Nat) (ps : List Piece) (hm : Memory.wf s.mem) :
    Memory.wf (s.writeSlot who core since ps).mem := by
  refine foldl_wf _ _ (fun _ _ h => ?_) ?_
  · split <;> simp [h]
  · rw [chargePieces_mem]; split <;> simp [hm]
@[simp] theorem deliverPost_wf (key core st : Nat) (g : Gang) (e : Entry) (hm : Memory.wf s.mem) :
    Memory.wf (s.deliverPost key core st g e).mem := by
  simp only [State.deliverPost]; split
  · exact hm
  · split <;> simp [hm]

/-! ### MgmtEvents -/

@[simp] theorem clearBytes_wf (lo n : Nat) (hm : Memory.wf s.mem) : Memory.wf (s.clearBytes lo n).mem := wf_filter _ hm
@[simp] theorem form_wf (pno : Nat) (d : Part) (others : List Part) (hm : Memory.wf s.mem) :
    Memory.wf (s.form pno d others).mem := by
  have hc : Memory.wf ((indexFrom 0 ((List.range 4).map (d.takeDie others))).foldl (fun (s : State) qs =>
      qs.2.foldl (fun (s : State) k => s.clearBytes (dieBaseOf qs.1 + k * 65536) 65536) s) (s.forgetPart pno)).mem :=
    foldl_wf _ _ (fun _ _ h => foldl_wf _ _ (fun _ _ h => clearBytes_wf _ _ h) h) hm
  unfold State.form; dsimp only; split <;> simpa using hc
@[simp] theorem restoreCore_wf (core : Nat) (h : Shadow) (hm : Memory.wf s.mem) : Memory.wf (s.restoreCore core h).mem :=
  wf_sets _ hm
@[simp] theorem drainDevice_wf (hm : Memory.wf s.mem) : Memory.wf s.drainDevice.mem :=
  foldl_wf _ _ (fun _ p h => drainHostAll_wf p h) (foldl_wf _ _ (fun _ i h => everywhere_wf i h) hm)
@[simp] theorem saveDevice_wf (hm : Memory.wf s.mem) : Memory.wf s.saveDevice.mem := by
  simp [State.saveDevice, wf_sets, wf_filter, hm]
@[simp] theorem loadDevice_wf (hm : Memory.wf s.mem) : Memory.wf s.loadDevice.mem := by
  simp [State.loadDevice, wf_sets, wf_filter, hm]
@[simp] theorem hostPiece_wf (pno : Nat) (all : List Nat) (p : Piece) (hm : Memory.wf s.mem) :
    Memory.wf (s.hostPiece pno all p).mem := by
  (unfold State.hostPiece; dsimp only; repeat' split) <;> simp [hm]
@[simp] theorem cold_wf (m : Mgmt) (hm : Memory.wf s.mem) : Memory.wf (s.cold m).mem := wf_filter _ hm
@[simp] theorem powerDown_wf (hm : Memory.wf s.mem) : Memory.wf s.powerDown.mem := wf_filter _ hm

end Sys2Proof.Laws
end

section
/-! SUPPORT. What a word's issue keeps: memory's canonical form, by the shape of the word. -/

namespace Sys2Proof.Laws

open Sys2Proof Sys2Proof.Machine

/-- A step answers a next state, whose memory is canonical if it was so before. -/
def KeepsMem (s : State) (o : Next) : Prop := ∃ t, o = .next t ∧ (Memory.wf s.mem → Memory.wf t.mem)

/-- A member's answer at issue keeps memory canonical: the state with its effect does, and so does what a wait leaves. -/
def KeepsSeat (t : State) : SeatRes → Prop
  | .ok u _ => Memory.wf t.mem → Memory.wf u.mem
  | .trap _ => True
  | .wait f => ∀ u : State, Memory.wf u.mem → Memory.wf (f u).mem

@[simp] theorem keepsMem_next {s t : State} : KeepsMem s (.next t) ↔ (Memory.wf s.mem → Memory.wf t.mem) :=
  ⟨fun ⟨_, h, hm⟩ => by cases h; exact hm, fun hm => ⟨t, rfl, hm⟩⟩
@[simp] theorem keepsSeat_ok {t u : State} {e : Eff} : KeepsSeat t (.ok u e) ↔ (Memory.wf t.mem → Memory.wf u.mem) := Iff.rfl
@[simp] theorem keepsSeat_trap {t : State} {f : Flaw} : KeepsSeat t (.trap f) := trivial
@[simp] theorem keepsSeat_wait {t : State} {f : State → State} :
    KeepsSeat t (.wait f) ↔ ∀ u : State, Memory.wf u.mem → Memory.wf (f u).mem := Iff.rfl
@[simp] theorem keepsSeat_stall {t : State} : KeepsSeat t stall := fun _ h => h

/-! ### The issue of a word -/

/-- Running the members keeps memory canonical, and what each wait leaves does. -/
theorem runSeats_keeps {body : Seat → State → SeatRes} (hb : ∀ x t, KeepsSeat t (body x t)) (xs : List Seat) (r : Ran)
    (hr : Memory.wf r.state.mem) (hw : ∀ f ∈ r.waits, ∀ u : State, Memory.wf u.mem → Memory.wf (f u).mem) :
    Memory.wf (runSeats body xs r).state.mem ∧
      ∀ f ∈ (runSeats body xs r).waits, ∀ u : State, Memory.wf u.mem → Memory.wf (f u).mem := by
  induction xs generalizing r with
  | nil => exact ⟨hr, hw⟩
  | cons x xs ih =>
    have hx := hb x r.state
    unfold runSeats
    split
    · next h => rw [h] at hx; exact ih _ (hx hr) hw
    · exact ih _ hr hw
    · next f h =>
      rw [h] at hx
      refine ih _ hr fun g hg => ?_
      rcases List.mem_append.1 hg with hg | hg
      · exact hw g hg
      · rw [List.mem_singleton.1 hg]; exact hx

theorem issue_wf {i : Instr} {body : Seat → State → SeatRes} {s : State} {early : Seat → State → Option Flaw}
    (hb : ∀ x t, KeepsSeat t (body x t)) (hm : Memory.wf s.mem) : Memory.wf (issue i body s early).mem := by
  obtain ⟨hr, hw⟩ := runSeats_keeps hb (s.seats i.maskField)
    ⟨(s.seats i.maskField).foldl (fun s x => s.updGang x.key fun g => g.count x.m0) s, [], [], []⟩ (by simp [hm]) (by simp)
  unfold issue; dsimp only; split
  · exact hm
  · split
    · split <;> simp [hm]
    · split
      · exact hm
      · split
        · simp [hm]
        · next w _ _ h => exact hw w (h ▸ List.mem_cons_self) s hm
        · (repeat' split) <;> simp [hr]

/-! ### The shapes of words -/

section
variable {i : Instr} {s : State}

theorem seatWord_keeps {f : Seat → State → SeatRes} {early : Seat → State → Option Flaw} (hf : ∀ x t, KeepsSeat t (f x t)) :
    KeepsMem s (seatWord i f s early) := keepsMem_next.2 (issue_wf hf)

theorem onceWord_keeps {f : Seat → State → SeatRes} (hf : ∀ x t, KeepsSeat t (f x t)) : KeepsMem s (onceWord i f s) :=
  keepsMem_next.2 (issue_wf fun x t => by
    split
    · exact hf x t
    · simp)

theorem pureWord_keeps {f : Seat → State → List Out} : KeepsMem s (pureWord i f s) :=
  keepsMem_next.2 (issue_wf fun _ _ => by simp)

theorem longWord_keeps {look : BitVec 4} {tok : Nat} {regs masks : List Nat} {f : Seat → List Out} :
    KeepsMem s (longWord i look tok regs masks f s) := seatWord_keeps fun _ _ => by simp

theorem fpWord_keeps {c : FpCls} {d : Nat} {f : Seat → Lanes Pair} {detail : Seat → Nat → Nat} :
    KeepsMem s (fpWord i c d f detail s) := seatWord_keeps fun _ _ => by split <;> simp

theorem fpLongWord_keeps {c : FpCls} {d : Nat} {look : BitVec 4} {f : Seat → Lanes Pair} {detail : Seat → Nat → Nat} :
    KeepsMem s (fpLongWord i c d look f detail s) := seatWord_keeps fun _ _ => by split <;> simp
end

/-! ### The parts that words share -/

section
variable {i : Instr} {x : Seat} {s t : State}

@[simp] theorem transfer_keeps {reg callee : Bool} {tg : List (Nat × Word64)} {outs : List Out} :
    KeepsSeat t (transfer reg callee x t tg outs) := by
  unfold transfer; split <;> simp

theorem checked_keeps {accs : List Acc} {k : State → State} (hk : (k t).mem = t.mem) : KeepsSeat t (checked x t accs k) := by
  unfold checked; split <;> simp [hk]

theorem gather_keeps {wr : Bool} {hnd : HNum} {ofs : VNum} {disp : BitVec 12} {n : Nat}
    {k : State → List (Nat × Word64) → State} (hk : ∀ t l, (k t l).mem = t.mem) :
    KeepsSeat t (gather x t wr hnd ofs disp n k) := by
  (unfold gather; dsimp only; repeat' split) <;> simp [hk]

@[simp] theorem putCommand_keeps {stream : BitVec 4} {tok : BitVec 3} {act : Mask} {ctl : Word64} {vals : Tab (List Img)}
    {addrs : List Word64} : KeepsSeat t (putCommand x t i stream tok act ctl vals addrs) := by simp [putCommand]

theorem locWord_keeps {m : MemRef} {find : State → Nat → Word64 → Option Nat} {wr : Bool}
    {put : Seat → State → List Piece → State} (hp : ∀ x t ps, (put x t ps).mem = t.mem) :
    KeepsMem s (locWord i m find wr put s) := seatWord_keeps fun _ _ => by dsimp only; split <;> simp [hp]

theorem valueWord_keeps {vd : VNum} {look : BitVec 4} {tok : BitVec 3} {v : Seat → State → Word64} {k : Seat → State → State}
    (hk : ∀ x t, (k x t).mem = t.mem) : KeepsMem s (valueWord i vd look tok v k s) := seatWord_keeps fun _ _ => by simp [hk]

theorem systemWord_keeps {vd va : VNum} {look stream : BitVec 4} {tok : BitVec 3} {n : Nat}
    {k : State → Seat → Word64 → Entry → State × Entry} (hk : ∀ t x w e, (k t x w e).1.mem = t.mem) :
    KeepsMem s (systemWord i vd va look stream tok n k s) := onceWord_keeps fun _ _ => by
  (dsimp only; repeat' split) <;> simp [hk]

theorem csrWord_keeps {csr : Csr} {va : VNum} {f : Word64 → Word64 → Word64} : KeepsMem s (csrWord i csr va f s) :=
  seatWord_keeps fun _ _ => by (dsimp only; repeat' split) <;> simp

theorem offerPlace_keeps {when_ : Core → Bool} : KeepsMem s (offerPlace i when_ s) :=
  seatWord_keeps fun _ _ => by rw [keepsSeat_ok]; split <;> simp

theorem returnWord_keeps {next : Bool} : KeepsMem s (returnWord i next s) := seatWord_keeps fun _ _ => by
  (dsimp only; repeat' split) <;> simp

theorem exportWord_keeps {e : Nat} {f : Seat → Word64 → Word64} : KeepsMem s (exportWord i e f s) :=
  onceWord_keeps fun _ _ => by simp

theorem routeWord_keeps {f : Core → Core} : KeepsMem s (routeWord i f s) := onceWord_keeps fun _ _ => by simp

theorem copyWord_keeps {q : BitVec 6} {stream : Seat → Nat} {tok : BitVec 3} : KeepsMem s (copyWord i q stream tok s) :=
  seatWord_keeps fun _ _ => by (repeat' split) <;> simp

theorem doneWait_keeps {vs : VNum} {eng : Seat → Nat} : KeepsMem s (doneWait i vs eng s) := seatWord_keeps fun _ _ => by
  dsimp only; split
  · exact fun h => observe_wf _ _ _ _ h
  · simp

theorem waveWord_keeps {tok : BitVec 3} {vals etypes : Seat → List Img} {stream : Seat → Option Nat} :
    KeepsMem s (waveWord i tok vals etypes stream s) := onceWord_keeps fun _ _ => by simp

theorem bulkWord_keeps {q : BitVec 6} {result : Option HNum} {stream : BitVec 4} {tok : BitVec 3}
    {ends : List Img → List Word64} : KeepsMem s (bulkWord i q result stream tok ends s) := onceWord_keeps fun _ _ => by simp

theorem matrixMemWord_keeps {q : BitVec 6} {tok : BitVec 3} : KeepsMem s (matrixMemWord i q tok s) :=
  onceWord_keeps fun _ _ => by split <;> simp

theorem matrixWord_keeps {tok : BitVec 3} : KeepsMem s (matrixWord i tok s) := onceWord_keeps fun _ _ => by split <;> simp

theorem cbHand_keeps {vs : VNum} {cb : Nat} {held : CBuf → List Nat} {k : State → Seat → Nat → State}
    (hk : ∀ t x n, (k t x n).mem = t.mem) : KeepsMem s (cbHand i vs cb held k s) := onceWord_keeps fun _ _ => by
  (dsimp only; repeat' split) <;> simp [hk]

theorem cbRequest_keeps {vd : VNum} {cb look tok : Nat} {ask : CBuf → CbReq → CBuf} :
    KeepsMem s (cbRequest i vd cb look tok ask s) := onceWord_keeps fun _ _ => by split <;> simp

theorem dotWord_keeps {elem : Nat → Option DotElem} {sat : Bool} {e n : Nat} {d a : VNum} {perm : Perm} {b c : VNum}
    {slot : BitVec 3} : KeepsMem s (dotWord i elem sat e n d a perm b c slot s) := seatWord_keeps fun _ _ => by
  (dsimp only; repeat' split) <;> simp

theorem command_keeps {code : Nat} {needs : Bool} {run : State → State}
    (hr : ∀ t, Memory.wf t.mem → Memory.wf (run t).mem) : KeepsMem s (s.command code needs run) := by
  rw [State.command, keepsMem_next]; intro hm
  (dsimp only; repeat' split) <;> simp [hr, hm]

theorem checkpoint_keeps {code : Nat} {run : Bool → State → State}
    (hr : ∀ b t, Memory.wf t.mem → Memory.wf (run b t).mem) : KeepsMem s (s.checkpoint code run) :=
  command_keeps fun t hm => by (repeat' split) <;> simp [hr, hm]
end

/-! ### Turns -/

/-- The state that a unit's turn comes to. -/
def turnState (s : State) : Turn → State
  | .idle => s
  | .done t => t
  | .run _ t => t

@[simp] theorem nextWord_mem (s : State) (u : Machine.Unit) (part : Nat) : (turnState s (s.nextWord u part)).mem = s.mem := by
  unfold State.nextWord; dsimp only; split
  · simp [turnState]
  · split
    · simp [turnState]
    · split
      · simp [turnState]
      · split <;> simp [turnState]
@[simp] theorem turn_mem (s : State) (core ctx part : Nat) : (turnState s (s.turn core ctx part)).mem = s.mem := by
  unfold State.turn; split
  · rfl
  · split
    · rfl
    · split
      · rfl
      · exact nextWord_mem s _ _

/-- A wait that is tried again, its word decoded anew: what the word then does. -/
theorem retry_keeps {s : State} {core ctx part : Nat} {f : Instr → State → Option Next}
    (hf : ∀ i t, (f i t).elim True (KeepsMem t)) : KeepsMem s (s.retry core ctx part f) := by
  unfold State.retry; split
  · simp
  · next u _ =>
    have hu := nextWord_mem s u part
    split
    · simp
    · split
      · next i t h =>
        rw [h] at hu; change t.mem = s.mem at hu
        have ht := hf i t
        cases ho : f i t with
        | none => simp
        | some o => rw [ho] at ht; obtain ⟨v, rfl, hv⟩ := ht; simpa [hu] using hv
      · simp
end Sys2Proof.Laws
end

section
/-! SUPPORT. The words that wait or look at a location, and the events: each keeps memory canonical. -/

namespace Sys2Proof.Laws

open Sys2Proof Sys2Proof.Machine

section
variable {s : State}

/-! ### Words that wait at issue -/

theorem execWaittok_keeps {toks : BitVec 7} : KeepsMem s (execWaittok toks s) := seatWord_keeps fun _ _ => by split <;> simp
theorem execEvwait_keeps {line : BitVec 4} : KeepsMem s (execEvwait line s) :=
  seatWord_keeps fun _ _ => by split <;> simp +contextual
theorem execMkwait_keeps {wave : BitVec 4} : KeepsMem s (execMkwait wave s) := onceWord_keeps fun x t => by
  dsimp only; split
  · simp
  · exact fun h => foldl_wf _ _ (fun _ n h => acquire_wf x.key (.op (coreOf x.key) 2 n) h) h
theorem execFwait_keeps : KeepsMem s (execFwait s) := seatWord_keeps fun _ _ => by split <;> simp +contextual
theorem execBarw_keeps {g : BitVec 8} : KeepsMem s (execBarw g s) :=
  seatWord_keeps fun _ _ => by (repeat' split) <;> simp +contextual
theorem execBars_keeps {g : BitVec 8} : KeepsMem s (execBars g s) :=
  seatWord_keeps fun _ _ => by (repeat' split) <;> simp +contextual

/-! ### Words that answer a value at once, and words at node locations -/

theorem execXseqDone_keeps {eng : Eng} {vd : VNum} {look : BitVec 4} {tok : BitVec 3} :
    KeepsMem s (execXseqDone eng vd look tok s) := valueWord_keeps fun _ _ => rfl
theorem execXseqIssued_keeps {eng : Eng} {vd : VNum} {look : BitVec 4} {tok : BitVec 3} :
    KeepsMem s (execXseqIssued eng vd look tok s) := valueWord_keeps fun _ _ => rfl
theorem execXseqLine_keeps {line : BitVec 4} {vd : VNum} {look : BitVec 4} {tok : BitVec 3} :
    KeepsMem s (execXseqLine line vd look tok s) := valueWord_keeps fun _ _ => rfl
theorem execXseqFault_keeps {vd : VNum} {look : BitVec 4} {tok : BitVec 3} :
    KeepsMem s (execXseqFault vd look tok s) :=
  valueWord_keeps fun _ _ => by simp
theorem execSxseqDone_keeps {vd : VNum} {psel : BitVec 4} {preg : VNum} {look : BitVec 4} {tok : BitVec 3} :
    KeepsMem s (execSxseqDone vd psel preg look tok s) := valueWord_keeps fun _ _ => rfl
theorem execSxseqIssued_keeps {vd : VNum} {psel : BitVec 4} {preg : VNum} {look : BitVec 4} {tok : BitVec 3} :
    KeepsMem s (execSxseqIssued vd psel preg look tok s) := valueWord_keeps fun _ _ => rfl
theorem execSxseqStack_keeps {vd : VNum} {psel : BitVec 4} {preg : VNum} {look : BitVec 4} {tok : BitVec 3} :
    KeepsMem s (execSxseqStack vd psel preg look tok s) := valueWord_keeps fun _ _ => rfl
theorem execSxseqFault_keeps {vd : VNum} {psel : BitVec 4} {preg : VNum} {look : BitVec 4} {tok : BitVec 3} :
    KeepsMem s (execSxseqFault vd psel preg look tok s) :=
  valueWord_keeps fun _ _ => by simp
theorem execMstat_keeps {form : MstatSel} {vd : VNum} : KeepsMem s (execMstat form vd s) :=
  valueWord_keeps fun _ _ => by split <;> simp
theorem execNdrd_keeps {fi : NdField} {mv : BitVec 2} {d : VNum} {m : MemRef} {look : BitVec 4} {tok : BitVec 3} {mk : MNum} :
    KeepsMem s (execNdrd fi mv d m look tok mk s) := by
  unfold execNdrd; exact locWord_keeps fun _ _ _ => by simp
theorem execNdwr_keeps {fi : NdField} {mv : BitVec 2} {vs : VNum} {m : MemRef} {tok : BitVec 3} {mk : MNum} :
    KeepsMem s (execNdwr fi mv vs m tok mk s) := by
  unfold execNdwr; exact locWord_keeps fun _ _ _ => by simp
theorem execEdrd_keeps {fi : EdField} {d : VNum} {m : MemRef} {look : BitVec 4} {tok : BitVec 3} {mk : MNum} :
    KeepsMem s (execEdrd fi d m look tok mk s) := by
  unfold execEdrd; exact locWord_keeps fun _ _ _ => by simp
theorem execEdwr_keeps {fi : EdField} {vs : VNum} {m : MemRef} {tok : BitVec 3} {mk : MNum} :
    KeepsMem s (execEdwr fi vs m tok mk s) := by
  unfold execEdwr; exact locWord_keeps fun _ _ _ => by simp
theorem execHrevoke_keeps {vd va : VNum} {look stream : BitVec 4} {tok : BitVec 3} :
    KeepsMem s (execHrevoke vd va look stream tok s) :=
  systemWord_keeps fun _ _ _ _ => by dsimp only; split <;> simp
theorem execQpost_keeps {vq : VNum} {hnd : HNum} {disp : BitVec 12} {stream : BitVec 4} {tok : BitVec 3} :
    KeepsMem s (execQpost vq hnd disp stream tok s) := onceWord_keeps fun x t => by
  cases h : t.accFlaw x [⟨x.low0, laneAddr x.g ⟨hnd, none, disp⟩ 16 x.low0, 64, false, true, 1, false⟩] with
  | some f => simp [h]
  | none => simp only [h]; (repeat' split) <;> simp

/-! ### WaveEvents -/

theorem execWaveStart_keeps (core w slot : Nat) : KeepsMem s (execWaveStart core w slot s) := by simp [execWaveStart]
theorem execWaveDelivery_keeps (core w n : Nat) : KeepsMem s (execWaveDelivery core w n s) := by
  unfold execWaveDelivery; rw [keepsMem_next, takeMsg_mem _ _ _ _ _ fun _ _ _ => by simp]; exact id
theorem execWaveRunaway_keeps (core w n : Nat) : KeepsMem s (execWaveRunaway core w n s) := by
  unfold execWaveRunaway; rw [keepsMem_next, takeMsg_mem _ _ _ _ _ fun _ _ _ => by simp]; exact id
theorem execCreditReturn_keeps (core w : Nat) (back : Option RemoteBack) : KeepsMem s (execCreditReturn core w back s) := by
  unfold execCreditReturn; split <;> simp
theorem execCreditRequest_keeps (core w : Nat) : KeepsMem s (execCreditRequest core w s) := by
  (unfold execCreditRequest; dsimp only; repeat' split) <;> simp +contextual
theorem execCreditAnswer_keeps (core w n : Nat) : KeepsMem s (execCreditAnswer core w n s) := by
  (unfold execCreditAnswer; repeat' split) <;> simp
theorem execBatchAccept_keeps (n : Nat) (remote : Option RemoteBatch) : KeepsMem s (execBatchAccept n remote s) := by
  (unfold execBatchAccept; repeat' split) <;> simp
theorem execBatchRefused_keeps (n reason : Nat) : KeepsMem s (execBatchRefused n reason s) := by
  unfold execBatchRefused; split <;> simp
theorem execBatchAcknowledge_keeps (core w dst last : Nat) : KeepsMem s (execBatchAcknowledge core w dst last s) := by
  simp [execBatchAcknowledge]
theorem execBatchReclaimRemap_keeps (core w dst last : Nat) : KeepsMem s (execBatchReclaimRemap core w dst last s) := by
  simp [execBatchReclaimRemap]
theorem execBatchReclaimTimeout_keeps (core w dst : Nat) : KeepsMem s (execBatchReclaimTimeout core w dst s) := by
  simp [execBatchReclaimTimeout]

/-! ### EngineEvents -/

theorem execEngineRegistration_keeps (core ctx st : Nat) : KeepsMem s (execEngineRegistration core ctx st s) := by
  (unfold execEngineRegistration; repeat' split) <;> simp
theorem execEngineStart_keeps (core eng : Nat) : KeepsMem s (execEngineStart core eng s) := by
  (unfold execEngineStart; repeat' split) <;> simp +contextual
theorem execEngineCompletion_keeps (core eng : Nat) : KeepsMem s (execEngineCompletion core eng s) := by
  (unfold execEngineCompletion; repeat' split) <;> simp +contextual
theorem execCbResServed_keeps (core cb : Nat) : KeepsMem s (execCbResServed core cb s) := by
  (unfold execCbResServed; repeat' split) <;> simp +contextual
theorem execCbTakeServed_keeps (core cb : Nat) : KeepsMem s (execCbTakeServed core cb s) := by
  (unfold execCbTakeServed; repeat' split) <;> simp +contextual
theorem execClaimGrant_keeps (core n : Nat) : KeepsMem s (execClaimGrant core n s) := by
  (unfold execClaimGrant; dsimp only; repeat' split) <;> simp +contextual
theorem execClaimRelease_keeps (core n : Nat) : KeepsMem s (execClaimRelease core n s) := by
  (unfold execClaimRelease; dsimp only; repeat' split) <;> simp +contextual
theorem execSubarrayGate_keeps (core n : Nat) : KeepsMem s (execSubarrayGate core n s) := by
  (unfold execSubarrayGate; dsimp only; repeat' split) <;> simp +contextual
theorem execSubarrayWake_keeps (core : Nat) : KeepsMem s (execSubarrayWake core s) := by
  unfold execSubarrayWake; split <;> simp
theorem execBudgetWindow_keeps (core : Nat) : KeepsMem s (execBudgetWindow core s) := by
  unfold execBudgetWindow; split <;> simp

/-! ### FabricEvents -/

theorem execFabricReply_keeps (id lane : Nat) (ans : PeerAns) : KeepsMem s (execFabricReply id lane ans s) := by
  (unfold execFabricReply; repeat' split) <;> simp +contextual
theorem execFabricTargetPerform_keeps (src : Nat) (desig : BitVec 64) (u : BitVec 32) (req : PeerReq) :
    KeepsMem s (execFabricTargetPerform src desig u req s) := by
  unfold execFabricTargetPerform; split <;> simp +contextual
theorem execQueuePortPost_keeps (src pno ofs size : Nat) (wr : Bool) :
    KeepsMem s (execQueuePortPost src pno ofs size wr s) := by
  unfold execQueuePortPost; split <;> simp +contextual
theorem execFabricSend_keeps (core ctx : Nat) : KeepsMem s (execFabricSend core ctx s) := by
  (unfold execFabricSend; repeat' split) <;> simp +contextual
theorem execMcdefRead_keeps (core ctx : Nat) : KeepsMem s (execMcdefRead core ctx s) := by
  (unfold execMcdefRead; dsimp only; repeat' split) <;> simp +contextual
theorem execMcastAckRecord_keeps (id n : Nat) : KeepsMem s (execMcastAckRecord id n s) := by
  (unfold execMcastAckRecord; dsimp only; repeat' split) <;> simp +contextual
theorem execRaddCombine_keeps (a b : Nat) : KeepsMem s (execRaddCombine a b s) := by
  (unfold execRaddCombine; dsimp only; repeat' split) <;> simp +contextual
theorem execFlitReplay_keeps (port : Nat) : KeepsMem s (execFlitReplay port s) := by
  (unfold execFlitReplay; dsimp only; repeat' split) <;> simp +contextual
theorem execPortRetrain_keeps (port : Nat) (lanes : BitVec 16) : KeepsMem s (execPortRetrain port lanes s) := by
  (unfold execPortRetrain; dsimp only; repeat' split) <;> simp +contextual
theorem execLaneSetChange_keeps (port : Nat) (lanes : BitVec 16) : KeepsMem s (execLaneSetChange port lanes s) := by
  unfold execLaneSetChange; split <;> simp
theorem execPlaneRemap_keeps (plane : Nat) : KeepsMem s (execPlaneRemap plane s) := by
  (unfold execPlaneRemap; dsimp only; repeat' split) <;> simp +contextual
theorem execPlaneRestore_keeps (plane : Nat) : KeepsMem s (execPlaneRestore plane s) := by
  (unfold execPlaneRestore; dsimp only; repeat' split) <;> simp +contextual
theorem execSwitchDiscard_keeps (id lane : Nat) : KeepsMem s (execSwitchDiscard id lane s) := by
  (unfold execSwitchDiscard; repeat' split) <;> simp
theorem execRequestLost_keeps (id lane : Nat) : KeepsMem s (execRequestLost id lane s) := by
  (unfold execRequestLost; repeat' split) <;> simp +contextual
theorem execHostLinkDown_keeps (link : Nat) : KeepsMem s (execHostLinkDown link s) := by
  unfold execHostLinkDown; split <;> simp
theorem execHostLinkUp_keeps (link : Nat) : KeepsMem s (execHostLinkUp link s) := by
  unfold execHostLinkUp; split <;> simp

/-! ### HandleOps -/

theorem execHandleOpComplete_keeps (core ctx id : Nat) : KeepsMem s (execHandleOpComplete core ctx id s) := by
  (unfold execHandleOpComplete; repeat' split) <;> simp +contextual

/-! ### OrderEvents -/

theorem execClauseEntry_keeps (core ctx part : Nat) : KeepsMem s (execClauseEntry core ctx part s) := by
  (unfold execClauseEntry; repeat' split) <;> simp +contextual
theorem execFetchWord_keeps (core ctx part : Nat) : KeepsMem s (execFetchWord core ctx part s) := by simp [execFetchWord]
theorem execLongLatencyWrite_keeps (core ctx id : Nat) : KeepsMem s (execLongLatencyWrite core ctx id s) := by
  (unfold execLongLatencyWrite; repeat' split) <;> simp +contextual
theorem execRegangMerge_keeps (core ctx : Nat) : KeepsMem s (execRegangMerge core ctx s) := by
  (unfold execRegangMerge; dsimp only; repeat' split) <;> simp +contextual
theorem execPerformPiece_keeps (agent : Agent) (n : Nat) (err : SoftErr) : KeepsMem s (execPerformPiece agent n err s) := by
  refine keepsMem_next.2 fun hm => ?_
  cases agent with
  | stream core ctx st =>
    dsimp only; split
    · simp [hm]
    · exact performStream_wf _ _ _ _ _ (fun _ key e h => afterPieces_wf key e h) hm
  | op core eng num => simp [hm]
  | file core ctx => (dsimp only; repeat' split) <;> simp [storeError_mem, hm]
  | slot core k => simp [storeError_mem, hm]
  | tile core k => simp [storeError_mem, hm]
  | node core k | edge core k =>
    dsimp only; split
    · exact hm
    · exact storeError_wf _ _ _ _ _ (fun _ => rfl) hm
  | shadow pno core ctx => simp [hm]
  | atomic pno cluster => dsimp only; split <;> simp [hm]
  | inbound id => simp [hm]
  | memory a wr => simp [hm]
theorem execCompletionTimeout_keeps (agent : Agent) (n : Nat) : KeepsMem s (execCompletionTimeout agent n s) := by
  unfold execCompletionTimeout; split
  · exact execPerformPiece_keeps ..
  · simp
theorem execInterfaceRetry_keeps (agent : Agent) (n fails : Nat) : KeepsMem s (execInterfaceRetry agent n fails s) := by
  unfold execInterfaceRetry; split
  · split
    · exact execPerformPiece_keeps ..
    · split <;> simp
  · simp
theorem execDrain_keeps (id : Nat) : KeepsMem s (execDrain id s) := by
  (unfold execDrain; repeat' split) <;> simp +contextual
theorem execPropagate_keeps (id quarter : Nat) : KeepsMem s (execPropagate id quarter s) := by
  (unfold execPropagate; repeat' split) <;> simp +contextual
theorem execReplicate_keeps (id quarter : Nat) : KeepsMem s (execReplicate id quarter s) := by
  (unfold execReplicate; repeat' split) <;> simp +contextual
theorem execAtomicSend_keeps (core ctx st : Nat) : KeepsMem s (execAtomicSend core ctx st s) := by
  simp +contextual [execAtomicSend]
theorem execAtomicPerform_keeps (pno cluster : Nat) : KeepsMem s (execAtomicPerform pno cluster s) := by
  simp +contextual [execAtomicPerform]
theorem execFencePerform_keeps (core ctx st : Nat) : KeepsMem s (execFencePerform core ctx st s) := by simp [execFencePerform]
theorem execReleaseStep_keeps (id : Nat) : KeepsMem s (execReleaseStep id s) := by
  (unfold execReleaseStep; repeat' split) <;> simp +contextual
theorem execTokenGrant_keeps (pno id : Nat) : KeepsMem s (execTokenGrant pno id s) := by
  (unfold execTokenGrant; repeat' split) <;> simp +contextual
theorem execTokenReleaseRecord_keeps (id : Nat) : KeepsMem s (execTokenReleaseRecord id s) := by
  (unfold execTokenReleaseRecord; repeat' split) <;> simp +contextual
theorem execBarrierWaitPass_keeps (core ctx part : Nat) : KeepsMem s (execBarrierWaitPass core ctx part s) :=
  retry_keeps fun i t => by
    split
    · exact execBarw_keeps
    · exact execBars_keeps
    · trivial
theorem execWaitSatisfied_keeps (core ctx part : Nat) : KeepsMem s (execWaitSatisfied core ctx part s) := by
  unfold execWaitSatisfied; split
  · simp
  · split
    · split
      · exact execClauseEntry_keeps ..
      · simp
    · refine retry_keeps fun i t => ?_
      cases i
      case waittok => exact execWaittok_keeps
      case xwait | sxwait => exact doneWait_keeps
      case evwait => exact execEvwait_keeps
      case mkwait => exact execMkwait_keeps
      case fwait => exact execFwait_keeps
      all_goals trivial
theorem execLaunchEnd_keeps (l : Nat) : KeepsMem s (execLaunchEnd l s) := by
  (unfold execLaunchEnd; repeat' split) <;> simp +contextual
theorem execHostStoreDrain_keeps (pno : Nat) : KeepsMem s (execHostStoreDrain pno s) := by
  (unfold execHostStoreDrain; repeat' split) <;> simp +contextual
theorem execTakeDeferredTrap_keeps (core ctx part : Nat) : KeepsMem s (execTakeDeferredTrap core ctx part s) := by
  unfold execTakeDeferredTrap; split <;> simp

/-! ### SchedEvents -/

theorem execSwapOut_keeps (core ctx : Nat) : KeepsMem s (execSwapOut core ctx s) := by
  (unfold execSwapOut; repeat' split) <;> simp
theorem execRecall_keeps (core ctx : Nat) : KeepsMem s (execRecall core ctx s) := by
  (unfold execRecall; repeat' split) <;> simp
theorem execBalanceWindow_keeps (core imb : Nat) (under : Bool) : KeepsMem s (execBalanceWindow core imb under s) := by
  simp [execBalanceWindow]
theorem execBalanceStall_keeps (core : Nat) : KeepsMem s (execBalanceStall core s) := by
  (unfold execBalanceStall; dsimp only; repeat' split) <;> simp +contextual
theorem execBalanceDeferral_keeps (core : Nat) : KeepsMem s (execBalanceDeferral core s) := by
  unfold execBalanceDeferral; split <;> simp
theorem execBandwidthWindow_keeps (res : Nat) : KeepsMem s (execBandwidthWindow res s) := by simp [execBandwidthWindow]
theorem execDoorbellWrite_keeps (queue ofs size : Nat) : KeepsMem s (execDoorbellWrite queue ofs size s) := by
  unfold execDoorbellWrite; split <;> simp
theorem execTakePacket_keeps (queue : Nat) : KeepsMem s (execTakePacket queue s) := by
  (unfold execTakePacket; dsimp only; repeat' split) <;> simp +contextual
theorem execPacketComplete_keeps (queue : Nat) : KeepsMem s (execPacketComplete queue s) := by
  (unfold execPacketComplete; dsimp only; repeat' split) <;> simp +contextual
theorem execQpostDeliver_keeps (core ctx st : Nat) : KeepsMem s (execQpostDeliver core ctx st s) := by
  (unfold execQpostDeliver; dsimp only; repeat' split) <;> simp +contextual

/-! ### MgmtEvents -/

theorem execPform_keeps : KeepsMem s (execPform s) := by
  unfold execPform; extract_lets d
  refine command_keeps fun t h => ?_
  extract_lets pno others
  (repeat' split) <;> simp [h]
theorem execPdissolve_keeps : KeepsMem s (execPdissolve s) :=
  command_keeps fun _ h => by (dsimp only; repeat' split) <;> simp [h]
theorem execPswapout_keeps : KeepsMem s (execPswapout s) := command_keeps fun _ h => by (dsimp only; repeat' split) <;> simp [h]
theorem execSwapoutSave_keeps (pno : Nat) : KeepsMem s (execSwapoutSave pno s) := by
  rw [execSwapoutSave, keepsMem_next]; intro hm
  have hf (p : Nat × Byte → Bool) : Memory.wf (s.mem.filter p) := wf_filter p hm
  split
  · exact hm
  · dsimp only; split <;> simp [hf]
theorem execPswapin_keeps : KeepsMem s (execPswapin s) := command_keeps fun t h => by
  have hr (l : List (Nat × Shadow)) : Memory.wf (l.foldl (fun (s : State) h => s.restoreCore h.1 h.2) t).mem :=
    foldl_wf _ _ (fun _ c h => restoreCore_wf c.1 c.2 h) h
  dsimp only; split <;> simp [hr, h]
theorem execCoreset_keeps : KeepsMem s (execCoreset s) := command_keeps fun _ h => by (dsimp only; repeat' split) <;> simp [h]
theorem execCksave_keeps : KeepsMem s (execCksave s) := checkpoint_keeps fun _ _ h => by dsimp only; split <;> simp [h]
theorem execCkload_keeps : KeepsMem s (execCkload s) := checkpoint_keeps fun _ _ h => by dsimp only; split <;> simp [h]
theorem execAttest_keeps : KeepsMem s (execAttest s) := command_keeps fun _ h => by simp [h]
theorem execApertureAccess_keeps (ofs size : Nat) (wr : Option (List (BitVec 8))) :
    KeepsMem s (execApertureAccess ofs size wr s) := by
  (unfold execApertureAccess; dsimp only; repeat' split) <;> simp +contextual
theorem execApset_keeps : KeepsMem s (execApset s) := command_keeps fun _ h => by (dsimp only; repeat' split) <;> simp [h]
theorem execFwload_keeps : KeepsMem s (execFwload s) := command_keeps fun _ h => by dsimp only; split <;> simp [wf_sets, h]
theorem execBar0Write_keeps (ofs size : Nat) (v : BitVec 64) : KeepsMem s (execBar0Write ofs size v s) := by
  (unfold execBar0Write; dsimp only; repeat' split) <;> simp +contextual
theorem execResetBoot_keeps : KeepsMem s (execResetBoot s) := by simp +contextual [execResetBoot]
theorem execPowerD3hot_keeps : KeepsMem s (execPowerD3hot s) := by
  unfold execPowerD3hot; split <;> simp +contextual
theorem execPowerD0_keeps : KeepsMem s (execPowerD0 s) := by
  unfold execPowerD0; split <;> simp
theorem execPowerRemoved_keeps : KeepsMem s (execPowerRemoved s) := by simp +contextual [execPowerRemoved]
theorem execPieceMove_keeps (piece stack : Nat) : KeepsMem s (execPieceMove piece stack s) := by
  (unfold execPieceMove; repeat' split) <;> simp
theorem execHostStore_keeps (adr : Nat) (bytes : List (BitVec 8)) : KeepsMem s (execHostStore adr bytes s) := by
  rw [execHostStore, keepsMem_next]; intro hm
  split <;> simp [wf_sets, hm]

/-! ### StackEvents -/

theorem execDroopTrip_keeps (stack : Nat) : KeepsMem s (execDroopTrip stack s) := by
  unfold execDroopTrip; split <;> simp
theorem execDroopHoldEnd_keeps (stack : Nat) : KeepsMem s (execDroopHoldEnd stack s) := by
  unfold execDroopHoldEnd; split <;> simp
theorem execThermalDuty_keeps (stack : Nat) (temp : BitVec 8) : KeepsMem s (execThermalDuty stack temp s) := by
  unfold execThermalDuty; split <;> simp
theorem execRefreshPause_keeps (_stack : Nat) : KeepsMem s (execRefreshPause _stack s) := by simp [execRefreshPause]
end
end Sys2Proof.Laws
end

section
/-! SUPPORT. The whole table of instructions and events, the step, and the settled statement. -/

namespace Sys2Proof.Laws
open Sys2Proof Sys2Proof.Machine

/-- Every instruction and every event answers a next state and keeps memory canonical. -/
theorem exec_keeps (i : Instr) (s : State) : KeepsMem s (exec i s) := by
  cases i <;> unfold exec
  case
      mkstat | fpeerStat | fpeerPort | nop | mov | movi | add | sub | addi | mul | mulh | mad | and | or | xor | logi |
      shl | shr | sar | rot | shi | clz | popc | brev | min | max | abs | sel | cmp | cmpi | bfe | bfi | ids | mlog | mpop
      | mfirst | mset | fcmp | fclass | fcvti | kget | hdescAttr | hdescBind | hdescLoc | hdescGeta | shfl | bcast | vote
      | ballot | pack | unpack | clmul | byteperm | shapeGet | iota =>
    exact pureWord_keeps
  case
      br | brm | call | calli | jmpi | ret | bsig | rel | fence | evwaitSync | evfire | sxred | fld | fst | prioSet |
      prioRestore | idemEnd | trap | hdescSeta | rebal | shapeFit =>
    exact seatWord_keeps fun _ _ => by simp
  case fadd | fsub | fmul | fmin | fmax | ffma | fscale | fcvt | icvtf | fround | funpack | kset | kmin => exact fpWord_keeps
  case
      regang | acq | cbpopStat | fstRadd | fat | pairWord | barq | idemBegin | csrrd =>
    exact seatWord_keeps fun _ _ => by split <;> simp
  case ld | st | ldt | stt | ldb | tmov | atom | atomr => exact seatWord_keeps fun _ _ => checked_keeps (by simp)
  case mkmatch | mkset | mkclr | mkprop | mkpropv | mkcollect | mkcount => exact waveWord_keeps
  case frcp | frsq | fexp2 | flog2 | fsin | fcos | freduce => exact fpLongWord_keeps
  case idiv | irem | lea | reduce | scan => exact longWord_keeps
  case hnew | hmap | hmigr | chkptSave | chkptLoad => exact systemWord_keeps fun _ _ _ _ => rfl
  case mwakeNow | mwakeIdle | fpeerMcdef | halt => exact onceWord_keeps fun _ _ => by simp
  case evrouteSet | evrouteClr | evrouteGate | evrouteOpen => exact routeWord_keeps
  case oclaim | orel | cbdef => exact onceWord_keeps fun _ _ => by (dsimp only; repeat' split) <;> simp
  case omap | mma | aclr => exact matrixWord_keeps
  case oload | aread | awrite => exact matrixMemWord_keeps
  case sxbulkCopy | sxbulkFill | sxbulkCmp => exact bulkWord_keeps
  case exit | ctxsave | ctxload => exact seatWord_keeps fun _ _ => by (dsimp only; repeat' split) <;> simp
  case csrwr | csrwrSet | csrwrClr => exact csrWord_keeps
  case ldg | sts => exact seatWord_keeps fun _ _ => by dsimp only; simp [gather_keeps]
  case cbpushRes | cbpopTake => exact cbRequest_keeps
  case cbpushCommit | cbpopFree => exact cbHand_keeps fun _ _ _ => by simp
  case xcopy | xcopym => exact copyWord_keeps
  case xwait | sxwait => exact doneWait_keeps
  case fpeerExport | fpeerRevoke => exact exportWord_keeps
  case fpack | barv => exact seatWord_keeps fun _ _ => by (repeat' split) <;> simp
  case yield | yieldBal => exact offerPlace_keeps
  case rte | rteNext => exact returnWord_keeps
  case dot4 | dot8 => exact dotWord_keeps
  case astat => exact onceWord_keeps fun _ _ => by split <;> simp
  case fmcst => exact onceWord_keeps fun _ _ => by (dsimp only; repeat' split) <;> simp [checked_keeps]
  case waittok => exact execWaittok_keeps
  case evwait => exact execEvwait_keeps
  case mkwait => exact execMkwait_keeps
  case fwait => exact execFwait_keeps
  case barw => exact execBarw_keeps
  case bars => exact execBars_keeps
  case qpost => exact execQpost_keeps
  case mstat => exact execMstat_keeps
  case ndrd => exact execNdrd_keeps
  case ndwr => exact execNdwr_keeps
  case edrd => exact execEdrd_keeps
  case edwr => exact execEdwr_keeps
  case hrevoke => exact execHrevoke_keeps
  case xseqDone => exact execXseqDone_keeps
  case xseqIssued => exact execXseqIssued_keeps
  case xseqLine => exact execXseqLine_keeps
  case xseqFault => exact execXseqFault_keeps
  case sxseqDone => exact execSxseqDone_keeps
  case sxseqIssued => exact execSxseqIssued_keeps
  case sxseqStack => exact execSxseqStack_keeps
  case sxseqFault => exact execSxseqFault_keeps
  case frexp part _ _ _ _ _ =>
    cases part
    · exact fpWord_keeps
    · exact pureWord_keeps
  case sticky kind _ _ _ _ _ =>
    cases kind
    · exact fpWord_keeps
    · exact fpWord_keeps
    · exact pureWord_keeps
  case waveStart => exact execWaveStart_keeps ..
  case waveDelivery => exact execWaveDelivery_keeps ..
  case waveRunaway => exact execWaveRunaway_keeps ..
  case creditReturn => exact execCreditReturn_keeps ..
  case creditRequest => exact execCreditRequest_keeps ..
  case creditAnswer => exact execCreditAnswer_keeps ..
  case batchAccept => exact execBatchAccept_keeps ..
  case batchRefused => exact execBatchRefused_keeps ..
  case batchAcknowledge => exact execBatchAcknowledge_keeps ..
  case batchReclaimRemap => exact execBatchReclaimRemap_keeps ..
  case batchReclaimTimeout => exact execBatchReclaimTimeout_keeps ..
  case engineRegistration => exact execEngineRegistration_keeps ..
  case engineStart => exact execEngineStart_keeps ..
  case engineCompletion => exact execEngineCompletion_keeps ..
  case cbResServed => exact execCbResServed_keeps ..
  case cbTakeServed => exact execCbTakeServed_keeps ..
  case claimGrant => exact execClaimGrant_keeps ..
  case claimRelease => exact execClaimRelease_keeps ..
  case subarrayGate => exact execSubarrayGate_keeps ..
  case subarrayWake => exact execSubarrayWake_keeps ..
  case budgetWindow => exact execBudgetWindow_keeps ..
  case fabricReply => exact execFabricReply_keeps ..
  case fabricTargetPerform => exact execFabricTargetPerform_keeps ..
  case queuePortPost => exact execQueuePortPost_keeps ..
  case fabricSend => exact execFabricSend_keeps ..
  case mcdefRead => exact execMcdefRead_keeps ..
  case mcastAckRecord => exact execMcastAckRecord_keeps ..
  case raddCombine => exact execRaddCombine_keeps ..
  case flitReplay => exact execFlitReplay_keeps ..
  case portRetrain => exact execPortRetrain_keeps ..
  case laneSetChange => exact execLaneSetChange_keeps ..
  case planeRemap => exact execPlaneRemap_keeps ..
  case planeRestore => exact execPlaneRestore_keeps ..
  case switchDiscard => exact execSwitchDiscard_keeps ..
  case requestLost => exact execRequestLost_keeps ..
  case hostLinkDown => exact execHostLinkDown_keeps ..
  case hostLinkUp => exact execHostLinkUp_keeps ..
  case handleOpComplete => exact execHandleOpComplete_keeps ..
  case clauseEntry => exact execClauseEntry_keeps ..
  case fetchWord => exact execFetchWord_keeps ..
  case longLatencyWrite => exact execLongLatencyWrite_keeps ..
  case regangMerge => exact execRegangMerge_keeps ..
  case performPiece => exact execPerformPiece_keeps ..
  case completionTimeout => exact execCompletionTimeout_keeps ..
  case interfaceRetry => exact execInterfaceRetry_keeps ..
  case drain => exact execDrain_keeps ..
  case propagate => exact execPropagate_keeps ..
  case replicate => exact execReplicate_keeps ..
  case atomicSend => exact execAtomicSend_keeps ..
  case atomicPerform => exact execAtomicPerform_keeps ..
  case fencePerform => exact execFencePerform_keeps ..
  case releaseStep => exact execReleaseStep_keeps ..
  case tokenGrant => exact execTokenGrant_keeps ..
  case tokenReleaseRecord => exact execTokenReleaseRecord_keeps ..
  case barrierWaitPass => exact execBarrierWaitPass_keeps ..
  case waitSatisfied => exact execWaitSatisfied_keeps ..
  case launchEnd => exact execLaunchEnd_keeps ..
  case hostStoreDrain => exact execHostStoreDrain_keeps ..
  case takeDeferredTrap => exact execTakeDeferredTrap_keeps ..
  case swapOut => exact execSwapOut_keeps ..
  case recallGang => exact execRecall_keeps ..
  case balanceWindow => exact execBalanceWindow_keeps ..
  case balanceStall => exact execBalanceStall_keeps ..
  case balanceDeferral => exact execBalanceDeferral_keeps ..
  case bandwidthWindow => exact execBandwidthWindow_keeps ..
  case doorbellWrite => exact execDoorbellWrite_keeps ..
  case takePacket => exact execTakePacket_keeps ..
  case packetComplete => exact execPacketComplete_keeps ..
  case qpostDeliver => exact execQpostDeliver_keeps ..
  case pform => exact execPform_keeps ..
  case pdissolve => exact execPdissolve_keeps ..
  case pswapout => exact execPswapout_keeps ..
  case swapoutSave => exact execSwapoutSave_keeps ..
  case pswapin => exact execPswapin_keeps ..
  case coreset => exact execCoreset_keeps ..
  case cksave => exact execCksave_keeps ..
  case ckload => exact execCkload_keeps ..
  case attest => exact execAttest_keeps ..
  case apertureAccess => exact execApertureAccess_keeps ..
  case apset => exact execApset_keeps ..
  case fwload => exact execFwload_keeps ..
  case bar0Write => exact execBar0Write_keeps ..
  case resetBoot => exact execResetBoot_keeps ..
  case powerD3hot => exact execPowerD3hot_keeps ..
  case powerD0 => exact execPowerD0_keeps ..
  case powerRemoved => exact execPowerRemoved_keeps ..
  case pieceMove => exact execPieceMove_keeps ..
  case hostStore => exact execHostStore_keeps ..
  case droopTrip => exact execDroopTrip_keeps ..
  case droopHoldEnd => exact execDroopHoldEnd_keeps ..
  case thermalDuty => exact execThermalDuty_keeps ..
  case refreshPause => exact execRefreshPause_keeps ..

/-- What the agenda or the free choice names answers a next state and keeps memory canonical. -/
theorem perform_keeps (c : Choice) (s : State) : KeepsMem s (perform c s) := by
  cases c with
  | unit core ctx part =>
    have ht := turn_mem s core ctx part
    unfold perform; dsimp only; split
    · simp
    · next h => rw [h] at ht; exact keepsMem_next.2 fun hm => ht ▸ hm
    · next i t h =>
      rw [h] at ht
      obtain ⟨v, hv, hm⟩ := exec_keeps i t
      exact ⟨v, hv, fun h => hm (ht ▸ h)⟩
  | event i =>
    unfold perform; dsimp only; split
    · exact exec_keeps i s
    · simp

/-- Every step answers a next state and keeps memory canonical. -/
theorem step_keeps (s : State) : KeepsMem s (step s) := by
  unfold step; split
  · next c _ =>
    obtain ⟨t, ht, hm⟩ := perform_keeps c (s.chosen c)
    exact ⟨t, ht, fun h => hm (by simpa using h)⟩
  · simp

/-- Settles O59: each exec keeps memory canonical (`exec_keeps`), and a step is one exec or no change of memory. -/
theorem memoryCanonical : Obligations.MemoryCanonical := by
  intro s t hm hs
  obtain ⟨u, hu, h⟩ := step_keeps s
  rw [hu] at hs
  cases hs
  exact h hm

end Sys2Proof.Laws
end

section
/-! SUPPORT. What a step runs: the choice, the requests and their order, a unit's turn, and the settled statement. -/

namespace Sys2Proof.Laws

open Sys2Proof Sys2Proof.Machine

/-! ### The choice -/

section
variable {s : State} {c : Choice}

theorem choice?_of_agenda {rest : List Choice} (h : s.agenda = c :: rest) : s.choice? = some c := by simp [State.choice?, h]
theorem chosen_of_agenda {d : Choice} {rest : List Choice} (h : s.agenda = d :: rest) :
    s.chosen c = { s with agenda := rest, tick := s.tick + 1 } := by simp [State.chosen, h]
theorem chosen_of_free (h : s.agenda = []) : s.chosen c = (s.grant c).pass := by simp [State.chosen, h]

theorem choice?_of_overdue (h : s.agenda = []) (ho : s.overdue? = some c) : s.choice? = some c := by
  simp [State.choice?, h, ho]
theorem choice?_of_free (h : s.agenda = []) (ho : s.overdue? = none) :
    s.choice? = if s.permits (Config.nextChoice s.tick) then some (Config.nextChoice s.tick) else none := by
  simp [State.choice?, h, ho]

/-! ### Requests -/

/-- R363 and R373: a choice goes unless a request that waits, and that is served before one of its own, would do something. -/
theorem permits_iff : s.permits c = true ↔
    ∀ a ∈ s.asks c, ∀ d ∈ s.rivals a.res, (∃ b ∈ d.1, s.waiting b = true ∧ b.before a = true) → s.changes d.2 = false := by
  simp only [State.permits, List.all_eq_true, Bool.or_eq_true, Bool.not_eq_true', ← Bool.not_eq_true, List.any_eq_true,
    Bool.and_eq_true, imp_iff_not_or]

theorem waiting_iff {a : Ask} : s.waiting a = true ↔ (∃ n, a.res = .issue n) ∨ a.key ∈ s.arrived := by
  unfold State.waiting
  cases a.res <;> simp

theorem before_iff {a b : Ask} : a.before b = true ↔ a.res = b.res ∧ (a.tier < b.tier ∨ a.tier = b.tier ∧ (b.cls < a.cls ∨
    a.cls = b.cls ∧ (a.first < b.first ∨ a.first = b.first ∧ a.second < b.second))) := by
  simp [Ask.before]

/-- The list of arrived requests with those of a choice that do not wait yet. -/
theorem foldl_arrive (asks : List Ask) (l : List (Nat × Nat × Nat)) : ∃ more,
    asks.foldl (fun t a => if s.waiting a then t else t ++ [a.key]) l = l ++ more ∧ ∀ k ∈ more, ∃ a ∈ asks, a.key = k := by
  induction asks generalizing l with
  | nil => exact ⟨[], by simp⟩
  | cons a asks ih =>
    rw [List.foldl_cons]
    split
    · obtain ⟨more, he, hm⟩ := ih l
      exact ⟨more, he, fun k hk => (hm k hk).imp fun b hb => ⟨List.mem_cons_of_mem a hb.1, hb.2⟩⟩
    · obtain ⟨more, he, hm⟩ := ih (l ++ [a.key])
      refine ⟨a.key :: more, by simp [he], fun k hk => ?_⟩
      rcases List.mem_cons.1 hk with rfl | hk
      · exact ⟨a, List.mem_cons_self, rfl⟩
      · exact (hm k hk).imp fun b hb => ⟨List.mem_cons_of_mem a hb.1, hb.2⟩

/-- A moment changes the arrived requests, which only grow, and the tick. -/
theorem pass_eq : ∃ more, s.pass = { s with arrived := s.arrived ++ more, tick := s.tick + 1 } ∧
    ∀ k ∈ more, ∃ a ∈ s.asks (Config.arrival s.tick), a.key = k := by
  unfold State.pass State.arriving
  split
  · exact ⟨[], by simp⟩
  · obtain ⟨more, he, hm⟩ := foldl_arrive (s := s) (s.asks (Config.arrival s.tick)) s.arrived
    exact ⟨more, by rw [he], hm⟩

end

/-- R12: the bids that some slots serve take no more slots than there are. -/
theorem grantSlots_cost_le (n : Nat) (bs : List Bid) : ((grantSlots n bs).map (·.cost)).sum ≤ n := by
  induction bs generalizing n with
  | nil => simp [grantSlots]
  | cons b bs ih =>
    unfold grantSlots
    split
    · have := ih (n - b.cost)
      simp only [List.map_cons, List.sum_cons]
      omega
    · simp

theorem clockGrants_cost_le (s : State) (core : Nat) (can : Nat → Nat → Bool) :
    ((s.clockGrants core can).map (·.cost)).sum ≤ 4 := by
  unfold State.clockGrants
  split
  · exact grantSlots_cost_le ..
  · exact (grantSlots_cost_le ..).trans (Nat.sub_le ..)

/-- R320: at a matrix unit in budget mode a registration goes by its team's charge, else by arrival; then by the context. -/
theorem registerAsks_matrix {s : State} {core ctx st id key : Nat} (h : s.registers core ctx st = some (1, id, key)) :
    s.registerAsks core ctx st = [⟨.matrixReg (coreOf key), ctxOf (s.leadOf key), 0, s.effClass key,
      if s.budgetMode (coreOf key) = true then Tab.at (s.core (coreOf key)).charges 0 (s.leadOf key)
      else s.arrival (.matrixReg (coreOf key)) (ctxOf (s.leadOf key)) id, ctxOf (s.leadOf key), id⟩] := by
  simp [State.registerAsks, h, State.lineAsk]

/-! ### A unit's turn -/

section
variable {t : State} {u : Machine.Unit} {part : Nat} {i : Instr}

/-- The word at the unit's address, kept or fetched now without a fault, that asks for no literal: it runs with that word
current. -/
theorem nextWord_of_plain (hf : (if (t.kept? u part).isSome then none
      else t.fetchFault (((t.gang? u.key).map t.partOf).getD 0) (coreOf u.key) u.pc) = none)
    (hl : wantsLiteral (t.unitWord u part) = false) (hc : clauseFault u.flow (t.unitWord u part) none = none)
    (hd : decodeWords [t.unitWord u part] = .ok i) :
    t.nextWord u part = .run i (t.setCur u part (t.unitWord u part) false) := by
  simp [State.nextWord, hf, hl, hc, hd]

/-- A literal that meets no clause fault is a literal word (R453). -/
theorem kindOf_of_clauseFault {f : Flow} {w l : Word64} (hl : wantsLiteral w = true) (h : clauseFault f w (some l) = none) :
    kindOf l = 3#2 := by
  by_contra hk
  simp only [clauseFault, hl, Option.map_some, Bool.true_and] at h
  rw [if_pos (c := (_ || _) = true) (by simp [hk])] at h
  (repeat' split at h) <;> cases h

theorem fetchAt_of_handle {pno core : Nat} {a : Word64} {h : Handle} (hh : t.handleAt pno core a = some h) :
    t.fetchAt pno core a = leWord (t.bytesBeneath (quarterOf core) h (offOf a) 8) := by
  simp [State.fetchAt, hh]

/-- A word with a literal behind it, both fetched without a fault, runs as the pair's instruction. -/
theorem nextWord_of_literal {g : Gang} (hk : t.kept? u part = none) (hg : t.gang? u.key = some g) {w l : Word64}
    (hw : t.fetchAt (t.partOf g) (coreOf u.key) u.pc = w) (hf : t.fetchFault (t.partOf g) (coreOf u.key) u.pc = none)
    (hll : t.fetchAt (t.partOf g) (coreOf u.key) (addWords u.pc 1) = l)
    (hfl : t.fetchFault (t.partOf g) (coreOf u.key) (addWords u.pc 1) = none)
    (hl : wantsLiteral w = true) (hr : 1 < u.flow.rem) (hc : clauseFault u.flow w (some l) = none)
    (hd : decodeWords [w, l] = .ok i) : t.nextWord u part = .run i (t.setCur u part w true) := by
  have hu : t.unitWord u part = w := by simp [State.unitWord, hk, hg, hw]
  simp [State.nextWord, hk, hg, hf, hu, hl, hr, hfl, hll, hc, hd, kindOf_of_clauseFault hl hc]

variable {core ctx : Nat} (hu : t.unit? core ctx part = some u)
include hu

/-- R419: a deferred trap comes first. -/
theorem turn_of_deferred (hd : (t.nextDeferred u.key).isSome = true) :
    t.turn core ctx part = .run (.takeDeferredTrap core ctx part) t := by simp [State.turn, hu, hd]
/-- R85: at a clause's end the turn is the clause entry. -/
theorem turn_of_boundary (hd : t.nextDeferred u.key = none) (hr : u.flow.rem = 0) :
    t.turn core ctx part = .run (.clauseEntry core ctx part) t := by simp [State.turn, hu, hd, hr]
/-- R87: within a clause the turn is the next word. -/
theorem turn_of_clause (hd : t.nextDeferred u.key = none) (hr : u.flow.rem ≠ 0) :
    t.turn core ctx part = t.nextWord u part := by simp [State.turn, hu, hd, hr]

end

/-! ### The step -/

section
variable {s : State} {core ctx part : Nat}

theorem step_of_pass (h : s.choice? = none) : step s = .next s.pass := by simp [step, h]
theorem step_of_choice {c : Choice} (h : s.choice? = some c) : step s = perform c (s.chosen c) := by simp [step, h]
theorem step_of_event {i : Instr} (h : s.choice? = some (.event i)) (hi : isEvent i = true) :
    step s = exec i (s.chosen (.event i)) := by simp [step_of_choice h, perform, hi]
theorem step_of_noUnit (h : s.choice? = some (.unit core ctx part))
    (hu : (s.chosen (.unit core ctx part)).unit? core ctx part = none) :
    step s = .next (s.chosen (.unit core ctx part)) := by simp [step_of_choice h, perform, State.turn, hu]
/-- What a unit's turn says to run is what the step runs. -/
theorem step_of_run {i : Instr} {t : State} (h : s.choice? = some (.unit core ctx part))
    (ht : (s.chosen (.unit core ctx part)).turn core ctx part = .run i t) : step s = exec i t := by
  simp [step_of_choice h, perform, ht]

end

/-- Settles O58, from the lemmas above in the order of its clauses. -/
theorem stepRuns : Obligations.StepRuns := by
  refine ⟨fun s c rest h => ⟨choice?_of_agenda h, chosen_of_agenda h⟩,
    fun s h => ⟨fun c => chosen_of_free h, fun c => choice?_of_overdue h, fun ho => ⟨fun hp => ?_, fun hp => ?_⟩⟩,
    fun s c => permits_iff, fun s a => waiting_iff, fun s => pass_eq, fun a b => before_iff, fun s key part => rfl,
    fun s core => clockGrants_cost_le .., fun s core ctx st id key => registerAsks_matrix, fun s => step_of_pass,
    fun s i => step_of_event, fun s core ctx part => step_of_noUnit, fun s core ctx part u h => ?_,
    fun i s => ?_, fun s => ?_⟩
  · simp [choice?_of_free h ho, hp]
  · simp [choice?_of_free h ho, hp]
  · intro t hu
    refine ⟨fun hd => step_of_run h (turn_of_deferred hu hd), fun hd hr => step_of_run h (turn_of_boundary hu hd hr),
      fun f i hd hr hk hl hc hi => ?_, fun g hn hd hr hk hg hh hf => ⟨fun i hl hc hi => ?_, fun i k hl h1 hh' hf' => ?_⟩⟩
    · have hw : t.unitWord u part = f.word := by simp [State.unitWord, hk]
      refine step_of_run h ((turn_of_clause hu hd hr).trans ?_)
      rw [← hw] at hl hc hi ⊢
      exact nextWord_of_plain (by simp [hk]) hl hc hi
    · have hw : t.unitWord u part = leWord (t.bytesBeneath (quarterOf (coreOf u.key)) hn (offOf u.pc) 8) := by
        simp [State.unitWord, hk, hg, fetchAt_of_handle hh]
      refine step_of_run h ((turn_of_clause hu hd hr).trans ?_)
      rw [← hw] at hl hc hi ⊢
      exact nextWord_of_plain (by simp [hk, hg, hf]) hl hc hi
    · intro lit hc hi
      exact step_of_run h ((turn_of_clause hu hd hr).trans (nextWord_of_literal hk hg (fetchAt_of_handle hh) hf
        (fetchAt_of_handle hh') hf' hl h1 hc hi))
  · obtain ⟨t, ht, _⟩ := exec_keeps i s
    exact ⟨t, ht⟩
  · obtain ⟨t, ht, _⟩ := step_keeps s
    exact ⟨t, ht⟩

end Sys2Proof.Laws
end

section
/-! SUPPORT. Values lane by lane, what a source supplies in a lane (R45, R46), and the settled statement. -/

namespace Sys2Proof.Laws

open Sys2Proof Sys2Proof.Machine

/-! ### Values in all 32 lanes -/

/-- A value that stands for each of the 32 lanes. -/
def Full {α : Type} : Lanes α → Prop
  | .uni _ => True
  | .gen xs => xs.length = 32

section
variable {α β γ : Type} {l : Nat}

theorem at_ofFn (f : Nat → α) (d : α) (hl : l < 32) : (Lanes.ofFn f).at d l = f l := by
  simp [Lanes.ofFn, Lanes.at, lanes32, hl]

theorem full_ofFn (f : Nat → α) : Full (Lanes.ofFn f) := by simp [Full, Lanes.ofFn, lanes32]

theorem full_map {v : Lanes α} (hv : Full v) (f : α → β) : Full (v.map f) := by
  cases v with
  | uni x => trivial
  | gen xs => simpa [Full, Lanes.map] using hv

theorem full_map2 {u : Lanes α} {v : Lanes β} (hu : Full u) (hv : Full v) (f : α → β → γ) : Full (Lanes.map2 f u v) := by
  cases u <;> cases v <;> simp_all [Full, Lanes.map2]

/-- What stands beyond the 32 lanes does not matter within them. -/
theorem at_default {v : Lanes α} (hv : Full v) (d e : α) (hl : l < 32) : v.at d l = v.at e l := by
  cases v with
  | uni x => rfl
  | gen xs =>
    have hx : l < xs.length := hl.trans_eq (Eq.symm hv)
    simp [Lanes.at, hx]

theorem at_map {v : Lanes α} (hv : Full v) (f : α → β) (d : α) (e : β) (hl : l < 32) : (v.map f).at e l = f (v.at d l) := by
  cases v with
  | uni x => rfl
  | gen xs =>
    have hx : l < xs.length := hl.trans_eq (Eq.symm hv)
    simp [Lanes.map, Lanes.at, hx]

theorem at_map2 {u : Lanes α} {v : Lanes β} (hu : Full u) (hv : Full v) (f : α → β → γ) (c : α) (d : β) (e : γ) (hl : l < 32) :
    (Lanes.map2 f u v).at e l = f (u.at c l) (v.at d l) := by
  cases u with
  | uni x =>
    cases v with
    | uni y => rfl
    | gen ys => exact at_map (v := .gen ys) hv (f x) d e hl
  | gen xs =>
    cases v with
    | uni y => exact at_map (v := .gen xs) hu (fun x => f x y) c e hl
    | gen ys =>
      have hx : l < xs.length := hl.trans_eq (Eq.symm hu)
      have hy : l < ys.length := hl.trans_eq (Eq.symm hv)
      simp [Lanes.map2, Lanes.at, hx, hy]

/-- R45: the lane that the permutation names where it is active, the zero image elsewhere. -/
theorem at_permuted {v : Lanes α} (hv : Full v) {p : Perm} (w : Nat) {act : Mask} (z d : α) (hl : l < 32)
    (hp : p = .none → inMask act l = true) :
    (permuted v p w act z).at d l = if inMask act (Perm.lane p w l) then v.at z (Perm.lane p w l) else z := by
  have hgeneral : (Lanes.ofFn fun l =>
      if Perm.lane p w l < 32 && inMask act (Perm.lane p w l) then v.at z (Perm.lane p w l) else z).at d l =
      if inMask act (Perm.lane p w l) then v.at z (Perm.lane p w l) else z := by
    rw [at_ofFn _ _ hl]
    cases h : inMask act (Perm.lane p w l) with
    | false => simp
    | true => simp [inMask_lt h]
  cases p with
  | none => exact (at_default hv d z hl).trans (if_pos (hp rfl)).symm
  | bc n => rfl
  | bfly k => exact hgeneral
  | rot n => exact hgeneral
  | rev => exact hgeneral

end

/-! ### Registers as sources -/

section
variable {v : VReg} {l : Nat}

theorem full_lanes (hv : ∀ xs, v = .general xs → xs.length = 32) : Full v.lanes := by
  cases v with
  | uniform x => trivial
  | affine b s => exact full_ofFn _
  | general xs => exact hv xs rfl

theorem at_lanes (v : VReg) (hl : l < 32) : v.lanes.at zeroImg l = v.lane l := by
  cases v with
  | uniform x => rfl
  | affine b s => exact at_ofFn _ _ hl
  | general xs => rfl

end

section
variable {x : Seat} {n : VNum} {p : Perm} {l : Nat}

theorem src_one_lane (hv : ∀ v xs, v = x.g.reg n.toNat → v = .general xs → xs.length = 32) (hl : l < 32)
    (hp : p = .none → inMask x.act l = true) :
    (pairLane (x.src 1 n p) l).1 =
      if inMask x.act (Perm.lane p x.g.width l) then (x.g.reg n.toNat).lane (Perm.lane p x.g.width l) else ⟨0#32, 0x1A#8⟩ := by
  have hf : Full (x.g.reg n.toNat).lanes := full_lanes fun xs => hv _ xs rfl
  have hrd : x.g.rd 1 n.toNat = (x.g.reg n.toNat).lanes.map fun y => (y, zeroImg) := rfl
  have h := at_permuted (full_map hf fun y => (y, zeroImg)) (p := p) x.g.width (zeroOf 1) zeroPair hl hp
  rw [pairLane, Seat.src, hrd, h]
  split
  case isTrue ha => rw [at_map hf _ zeroImg _ (inMask_lt ha), at_lanes _ (inMask_lt ha)]
  case isFalse => rfl

theorem src_two_lane (hv : ∀ j, j < 2 → ∀ v xs, v = x.g.reg (n.toNat + j) → v = .general xs → xs.length = 32) (hl : l < 32)
    (hp : p = .none → inMask x.act l = true) :
    pairLane (x.src 2 n p) l =
      if inMask x.act (Perm.lane p x.g.width l) then
        ((x.g.reg n.toNat).lane (Perm.lane p x.g.width l), (x.g.reg (n.toNat + 1)).lane (Perm.lane p x.g.width l))
      else (⟨0#32, 0x17#8⟩, ⟨0#32, 0x01#8⟩) := by
  have h0 : Full (x.g.reg n.toNat).lanes := full_lanes fun xs => hv 0 (by omega) _ xs rfl
  have h1 : Full (x.g.reg (n.toNat + 1)).lanes := full_lanes fun xs => hv 1 (by omega) _ xs rfl
  have hrd : x.g.rd 2 n.toNat = Lanes.map2 Prod.mk (x.g.reg n.toNat).lanes (x.g.reg (n.toNat + 1)).lanes := rfl
  have h := at_permuted (full_map2 h0 h1 Prod.mk) (p := p) x.g.width (zeroOf 2) zeroPair hl hp
  rw [pairLane, Seat.src, hrd, h]
  split
  case isTrue ha =>
    rw [at_map2 h0 h1 _ zeroImg zeroImg _ (inMask_lt ha), at_lanes _ (inMask_lt ha), at_lanes _ (inMask_lt ha)]
  case isFalse => rfl

end

/-- Settles O2: the lanes of the permutations by definition, and what a source supplies from `at_permuted`. -/
theorem sourceLanes : Obligations.SourceLanes :=
  ⟨fun _ _ _ _ _ => ⟨rfl, rfl, rfl, rfl, rfl⟩, fun _ _ _ _ => src_one_lane, fun _ _ _ _ => src_two_lane⟩

end Sys2Proof.Laws
end

section
/-! SUPPORT. The lanes of a mask in order, the results of the mask words (R131, R135-R137), and the settled statement. -/

namespace Sys2Proof.Laws

open Sys2Proof Sys2Proof.Machine

/-! ### Masks by their lanes -/

theorem mask_ext {a b : Mask} (h : ∀ l, l < 32 → inMask a l = inMask b l) : a = b := BitVec.eq_of_getLsbD_eq h

theorem popMask_and (a b : Mask) :
    popMask (a &&& b) = (List.range 32).countP fun l => inMask a l && inMask b l := by
  simp [popMask, maskLanes, lanes32, List.countP_eq_length_filter, funext (inMask_and a b)]

theorem lowLane_and (a b : Mask) :
    lowLane? (a &&& b) = (List.range 32).find? fun l => inMask a l && inMask b l := by
  simp [lowLane?, maskLanes, lanes32, List.head?_filter, funext (inMask_and a b)]

/-! ### The mask words -/

theorem condHolds_eq_relation (c : Cond) (u v : Int) : condHolds c u v = relation c u v := by
  cases c with
  | eq => exact beq_eq_decide u v
  | ne => simp [condHolds, relation, bne, beq_eq_decide]
  | lt => rfl
  | le => rfl
  | gt => rfl
  | ge => rfl

/-- R131: CMP's bit in a lane. -/
theorem cmpLane_eq_relation (c : Cond) (t : IntTy) (u v : Pair) : cmpLane c t u v = relation c (intVal t u) (intVal t v) :=
  condHolds_eq_relation c _ _

/-- R135: MLOG's bit in a lane. -/
theorem inMask_mlogVal (k : MlogKind) (a b : Mask) {l : Nat} (hl : l < 32) :
    inMask (mlogVal k a b) l = match k with
      | .land => inMask a l && inMask b l
      | .lor => inMask a l || inMask b l
      | .lxor => inMask a l != inMask b l
      | .landn => inMask a l && !inMask b l
      | .lnot => !inMask a l
      | .mov => inMask a l := by
  cases k with
  | land => exact inMask_and a b l
  | lor => exact inMask_or a b l
  | lxor => exact BitVec.getLsbD_xor
  | landn => exact (inMask_and a _ l).trans (congrArg _ (inMask_not b hl))
  | lnot => exact inMask_not a hl
  | mov => rfl

/-- R137: the pattern of MSET repeats its highest bit. -/
theorem inMask_signExtend (imm : BitVec 24) {l : Nat} (hl : l < 32) :
    inMask (imm.signExtend 32) l = imm.getLsbD (min l 23) := by
  rw [inMask, BitVec.getLsbD_signExtend]
  by_cases h : l < 24
  · have hm : min l 23 = l := by omega
    simp [hl, h, hm]
  · have hm : min l 23 = 23 := by omega
    simp [hl, h, hm, BitVec.msb_eq_getLsbD_last]

/-- A pure word of fixed results computes results equal to them. -/
theorem computes_eq {i : Instr} {f g : Seat → List Out} (he : ∀ s, exec i s = pureWord i (fun x _ => f x) s)
    (h : ∀ x, f x = g x) : Computes i fun _ => g :=
  funext h ▸ computes_pure f he

/-- A pure word that writes a mask register computes its bits. -/
theorem computes_mask {i : Instr} {k : Nat} {m : Seat → Mask} {f : Seat → Nat → Bool}
    (he : ∀ s, exec i s = pureWord i (fun x _ => [.mask k (m x)]) s) (h : ∀ x l, l < 32 → inMask (m x) l = f x l) :
    Computes i fun _ x => [outMask k (f x)] :=
  computes_eq he fun x => by
    have hm : m x = maskOf (f x) := mask_ext fun l hl => by simp [h x l hl, hl]
    rw [hm, outMask]

/-- Settles O7: each word is pure, and its mask or count is this one bit by bit. -/
theorem masks : Obligations.Masks := by
  refine ⟨fun cond ty md a p b mk => ?_, fun cond ty md a imm mk => ?_, fun kind md ma mb mk => ?_,
    fun kind md imm mk => ?_, fun d ma mk => ?_, fun d ma mk => ?_⟩
  · exact computes_mask (fun _ => rfl) fun x l hl => by simp [hl, cmpLane_eq_relation]
  · exact computes_mask (fun _ => rfl) fun x l hl => by simp [hl, cmpLane_eq_relation]
  · exact computes_mask (fun _ => rfl) fun x l => inMask_mlogVal kind _ _
  · cases kind with
    | pat => exact computes_mask (fun _ => rfl) fun x l => inMask_signExtend imm
    | first => exact computes_pure _ fun _ => rfl
  · exact computes_eq (fun _ => rfl) fun x => by rw [popMask_and]; rfl
  · refine computes_eq (fun _ => rfl) fun x => ?_
    rw [← lowLane_and]
    cases lowLane? (x.mask ma.toNat &&& x.act) <;> rfl

end Sys2Proof.Laws
end

section
/-! SUPPORT. What a pure word's full write leaves in a register, shape and all (R38, R39). -/

namespace Sys2Proof.Laws

open Sys2Proof Sys2Proof.Machine

/-! ### No landed result, no window's write -/

theorem ready_eq_zero {p : Pend} (h : p.landed = false) (before : List Pend) : p.ready before = 0#32 := by
  simp [Pend.ready, h, maskOf_false]

theorem dueSome_eq_nil {L : List Pend} (h : ∀ p ∈ L, p.landed = false) (before : List Pend) :
    dueSome (dueFrom before L) = [] := by
  induction L generalizing before with
  | nil => rfl
  | cons p L ih =>
    obtain ⟨hp, hL⟩ := List.forall_mem_cons.1 h
    have hz := ready_eq_zero hp before
    have hi := ih hL
    simp only [dueSome, dueFrom, hz] at hi ⊢
    exact hi _

theorem count_landed {g : Gang} (h : ∀ p ∈ g.pend, p.landed = false) (m : Mask) : ∀ p ∈ (g.count m).pend, p.landed = false := by
  intro p hp
  obtain ⟨q, hq, rfl⟩ := List.mem_map.1 hp
  split
  · exact h q hq
  · exact h q hq

theorem ended_regs {g : Gang} (h : ∀ p ∈ g.pend, p.landed = false) (tick n : Nat) (high : Bool) (x : Seat) (e : Eff) :
    (ended tick n high x e g).regs = (puts g tick e.outs).regs := by
  have hp : (puts g tick e.outs).pend = g.pend := by rw [puts_rest]
  show ((puts g tick e.outs).flush tick).regs = _
  rw [flush_eq, hp, dueSome_eq_nil h]
  rfl

/-! ### The registers after a pure word -/

theorem forget_regs {u : State} {k key part : Nat} {g : Gang} (h : u.gang? k = some g) :
    ∃ g', (u.updGang key fun g => g.forget part).gang? k = some g' ∧ g'.regs = g.regs := by
  rw [gang_updGang, h]
  split
  · exact ⟨_, rfl, rfl⟩
  · exact ⟨_, rfl, rfl⟩

/-- The issue of a pure word: each member ends with its results, then the unit's word is forgotten and its part split. -/
theorem issue_pure {i : Instr} {s : State} (os : Seat → List (Mask × Out)) (hi : issues i s = true) (he : endsIdem i = false) :
    issue i (fun x t => .ok t { outs := os x }) s =
      ((upds (s.counted i.maskField) ((s.seats i.maskField).map fun x =>
          (x.key, ended s.tick s.curWords (s.core (coreOf x.key)).high x { outs := os x }))).updGang s.cur.key
        fun g => g.forget s.cur.part).resplit s.cur.key (some s.cur.part) := by
  simp only [issues, Bool.and_eq_true, Bool.not_eq_true', List.all_eq_true, Option.isNone_iff_eq_none] at hi
  obtain ⟨⟨hne, hop⟩, hall⟩ := hi
  have hstall : ((s.seats i.maskField).any fun x => x.stalls i) = false := by
    rw [List.any_eq_false]
    intro x hx
    obtain ⟨⟨hlook, htok⟩, hacq⟩ := hall x hx
    rw [Seat.stalls, hlook, htok, hacq]
    decide
  obtain ⟨hrun, -⟩ := runSeats_ok (body := fun x t => .ok t { outs := os x }) (fun _ u => u) (fun x => { outs := os x })
    (fun _ => True) (fun x => x.g.count x.m0) _ (seats_nodup s i.maskField) ⟨s.counted i.maskField, [], [], []⟩ trivial
    (fun _ => counted_gang) (fun _ _ _ _ _ => ⟨rfl, trivial, fun _ _ => rfl⟩)
  have hfin := foldl_finish' s s rfl (s.seats i.maskField) (fun x => { outs := os x }) (fun _ => rfl)
    (s.counted i.maskField) (counted_rest s _)
  have hsame : ∀ (xs : List Seat) (u : State), xs.foldl (fun u _ => u) u = u := fun xs u => by
    induction xs with
    | nil => rfl
    | cons x xs ih => exact ih
  rw [hsame, List.nil_append] at hrun
  unfold State.counted at hrun hfin ⊢
  unfold issue
  cases hs : s.seats i.maskField with
  | nil => simp [hs] at hne
  | cons x0 xs =>
    rw [hs] at hop hstall hrun hfin
    have hop : operandFault (16 * x0.g.allot) i.opnds = none := hop
    dsimp only
    rw [hop]
    dsimp only
    rw [hstall, hrun]
    dsimp only
    rw [hfin, he]
    rfl

/-- What a member's registers are after a pure word. -/
theorem issue_pure_regs {i : Instr} {s : State} {x : Seat} (os : Seat → List (Mask × Out)) (hi : issues i s = true)
    (he : endsIdem i = false) (hx : x ∈ s.seats i.maskField) :
    ∃ g', (issue i (fun x t => .ok t { outs := os x }) s).gang? x.key = some g' ∧
      g'.regs = (ended s.tick s.curWords (s.core (coreOf x.key)).high x { outs := os x } (x.g.count x.m0)).regs := by
  have hend := upds_gang (s.counted i.maskField) ((s.seats i.maskField).map fun x =>
    (x.key, ended s.tick s.curWords (s.core (coreOf x.key)).high x { outs := os x }))
    (by rw [keys_map]; exact seats_nodup s _) _ (List.mem_map_of_mem hx)
  rw [counted_gang hx] at hend
  obtain ⟨g1, h1, e1⟩ := forget_regs (key := s.cur.key) (part := s.cur.part) hend
  obtain ⟨g2, h2, e2, -⟩ := resplit_gang s.cur.key (some s.cur.part) h1
  refine ⟨g2, ?_, ?_⟩
  · rw [issue_pure os hi he]; exact h2
  · rw [e2]; exact e1

/-! ### Full writes -/

/-- R39: a full write takes the shape of its result. -/
theorem writeLanes_full {r : VReg} {act live : Mask} (old : VReg) (dead : Nat → Img)
    (h : ∀ l, inMask live l = true → inMask act l = true) (hr : ∀ xs, r ≠ .general xs) : writeLanes old r act live dead = r := by
  have hfull : live &&& ~~~act = 0#32 := mask_ext fun l hl => by
    rw [inMask_and, inMask_not _ hl, inMask_zero]
    cases hv : inMask live l with
    | false => rfl
    | true => rw [h l hv]; rfl
  unfold writeLanes
  rw [if_pos (beq_iff_eq.2 hfull)]
  cases r with
  | uniform x => rfl
  | affine b t => rfl
  | general xs => exact absurd rfl (hr xs)

/-- A pure word whose full write of one register is not general leaves its result there, shape and all. -/
theorem leaves_of {i : Instr} {f : Seat → List Out} {s : State} {x : Seat} {d : VNum} {v : VReg}
    (he : exec i s = pureWord i (fun x _ => f x) s) (hend : endsIdem i = false) (hw : FullWrite i s x)
    (hf : f x = [.reg d.toNat v]) (hv : ∀ xs, v ≠ .general xs) : Leaves i s x d v := by
  obtain ⟨hi, hx, hfull, hland⟩ := hw
  obtain ⟨g', hg, hregs⟩ := issue_pure_regs (fun x => x.give (f x)) hi hend hx
  refine ⟨_, g', he, hg, ?_⟩
  rw [ended_regs (count_landed hland _), hf] at hregs
  have hput : g'.regs = Tab.put x.g.regs d.toNat (writeLanes (x.g.reg d.toNat) v x.act x.g.live (deadImg s.tick d.toNat)) := hregs
  rw [Gang.reg, hput, at_put_same, writeLanes_full _ _ hfull hv]

end Sys2Proof.Laws
end

section
/-! SUPPORT. The first shape that fits (R164), and the settled statement. -/

namespace Sys2Proof.Laws

open Sys2Proof Sys2Proof.Machine

/-! ### The live lanes in order -/

section
variable {m : Mask} {j k l : Nat}

theorem mem_maskLanes : l ∈ maskLanes m ↔ inMask m l = true := by
  simp only [maskLanes, lanes32, List.mem_filter, List.mem_range]
  exact ⟨fun h => h.2, fun h => ⟨inMask_lt h, h⟩⟩

theorem maskLanes_sorted (m : Mask) : (maskLanes m).Pairwise (· < ·) := List.pairwise_lt_range.filter _

theorem maskLanes_eq_nil : maskLanes m = [] ↔ m = 0#32 := by
  refine ⟨fun h => mask_ext fun l _ => ?_, fun h => List.eq_nil_iff_forall_not_mem.2 fun l hl => ?_⟩
  · rw [inMask_zero, Bool.eq_false_iff, Ne, ← mem_maskLanes, h]
    exact List.not_mem_nil
  · rw [mem_maskLanes, h, inMask_zero] at hl
    cases hl

/-- The two lowest lanes of a mask lead its list. -/
theorem maskLanes_two (hj : inMask m j = true) (hk : inMask m k = true) (hjk : j < k)
    (hlow : ∀ l, inMask m l = true → l = j ∨ k ≤ l) : ∃ ls, maskLanes m = j :: k :: ls := by
  have hs := maskLanes_sorted m
  rw [← mem_maskLanes] at hj hk
  simp only [← mem_maskLanes] at hlow
  match h : maskLanes m with
  | [] => simp [h] at hj
  | [a] => simp only [h, List.mem_singleton] at hj hk; omega
  | a :: b :: ls =>
    rw [h] at hs hj hk hlow
    simp only [List.pairwise_cons, List.mem_cons, forall_eq_or_imp] at hs hj hk hlow
    obtain ⟨⟨hab, ha⟩, hb, -⟩ := hs
    obtain ⟨hla, hlb, -⟩ := hlow
    have haj : a = j := by
      rcases hj with rfl | rfl | hj
      · rfl
      · omega
      · have := ha j hj; omega
    have hbk : b = k := by
      rcases hk with rfl | rfl | hk
      · omega
      · rfl
      · have := hb k hk; omega
    exact ⟨ls, by rw [haj, hbk]⟩

end

/-! ### The shapes -/

section
variable {v r : VReg} {f : Nat → Img} {live : Mask} {ls : List Nat} {l : Nat}

/-- What a fit gives: the register itself where no lane lives, else the uniform shape, an affine one, or the general one. -/
theorem fitShape_cases (v : VReg) (live : Mask) (aff : Bool) :
    (live = 0#32 ∧ fitShape v live aff = v) ∨
    (∃ x, (∀ l, inMask live l = true → v.lane l = x) ∧ fitShape v live aff = .uniform x) ∨
    (∃ r, aff = true ∧ fitAffine v.lane (maskLanes live) = some r ∧ fitShape v live aff = r) ∨
    fitShape v live aff = .general (lanes32.map v.lane) := by
  unfold fitShape
  cases h : maskLanes live with
  | nil => exact .inl ⟨maskLanes_eq_nil.1 h, rfl⟩
  | cons j ls =>
    dsimp only
    split
    case isTrue hall =>
      refine .inr (.inl ⟨_, fun l hl => ?_, rfl⟩)
      exact beq_iff_eq.1 (List.all_eq_true.1 hall l (h ▸ mem_maskLanes.2 hl))
    case isFalse =>
      split
      case h_1 r hr =>
        cases aff with
        | true => exact .inr (.inr (.inl ⟨r, rfl, by simpa using hr, rfl⟩))
        | false => simp at hr
      case h_2 => exact .inr (.inr (.inr rfl))

/-- A register in the affine shape has the images that it was fitted to. -/
theorem fitAffine_lane (h : fitAffine f ls = some r) (hl : l ∈ ls) : r.lane l = f l := by
  unfold fitAffine at h
  split at h
  case h_2 => cases h
  case h_1 j k ls =>
    split at h
    case isTrue => cases h
    case isFalse htag =>
      dsimp only at h
      split at h
      case isTrue => cases h
      case isFalse =>
        split at h
        case isFalse => cases h
        case isTrue hval =>
          cases h
          have ht : (f l).tag = intTag := by
            simp only [Bool.not_eq_true', Bool.not_eq_false, List.all_eq_true, beq_iff_eq] at htag
            exact htag l hl
          have hv := beq_iff_eq.1 (List.all_eq_true.1 hval l hl)
          rw [VReg.lane, intImg, ← hv, ← ht]

/-- R164: the shape never changes the image of a live lane. -/
theorem fitShape_lane (v : VReg) (live : Mask) (aff : Bool) (l : Nat) (hl : inMask live l = true) :
    (fitShape v live aff).lane l = v.lane l := by
  rcases fitShape_cases v live aff with ⟨-, h⟩ | ⟨x, hx, h⟩ | ⟨r, -, hr, h⟩ | h
  · rw [h]
  · rw [h, hx l hl]; rfl
  · rw [h, fitAffine_lane hr (mem_maskLanes.2 hl)]
  · rw [h, lane_range_map _ (inMask_lt hl)]

theorem fitShape_uniform (v : VReg) (live : Mask) (aff : Bool) (x : Img) (hlive : live ≠ 0#32)
    (h : ∀ l, inMask live l = true → v.lane l = x) : fitShape v live aff = .uniform x := by
  obtain ⟨j, ls, hls⟩ := List.exists_cons_of_ne_nil (mt maskLanes_eq_nil.1 hlive)
  have hx : ∀ l ∈ j :: ls, v.lane l = x := fun l hl => h l (mem_maskLanes.1 (hls ▸ hl))
  have hj : v.lane j = x := hx j List.mem_cons_self
  have hall : (j :: ls).all (fun k => v.lane k == v.lane j) = true :=
    List.all_eq_true.2 fun l hl => by simp [hx l hl, hj]
  rw [fitShape, hls]
  dsimp only
  rw [if_pos hall, hj]

/-- The line through the images of two lanes, its stride in exact integers. -/
theorem fitAffine_line {j k : Nat} {stride : Int} (hjk : j < k) (hdiff : ((f k).val - (f j).val).toInt = stride * ((k : Int) - j))
    (htag : ∀ l ∈ j :: k :: ls, (f l).tag = intTag)
    (hval : ∀ l ∈ j :: k :: ls, (f l).val = (f j).val + BitVec.ofInt 32 (stride * ((l : Int) - j))) :
    fitAffine f (j :: k :: ls) = some (.affine ((f j).val - BitVec.ofInt 32 (stride * (j : Int))) (BitVec.ofInt 32 stride)) := by
  have hgap : ((k - j : Nat) : Int) = (k : Int) - j := by omega
  have hne : (k : Int) - j ≠ 0 := by omega
  have hmul : ∀ n : Nat, BitVec.ofNat 32 n * BitVec.ofInt 32 stride = BitVec.ofInt 32 (stride * (n : Int)) := fun n => by
    rw [mul_comm, BitVec.ofInt_mul, BitVec.ofInt_natCast]
  have htags : (j :: k :: ls).all (fun l => (f l).tag == intTag) = true :=
    List.all_eq_true.2 fun l hl => beq_iff_eq.2 (htag l hl)
  have hline : ∀ l ∈ j :: k :: ls, (f l).val =
      (f j).val - BitVec.ofInt 32 (stride * (j : Int)) + BitVec.ofInt 32 (stride * (l : Int)) := fun l hl => by
    rw [hval l hl, mul_sub, sub_eq_add_neg, BitVec.ofInt_add, BitVec.ofInt_neg]
    ring
  have hvals : (j :: k :: ls).all (fun l => (f l).val == (f j).val - BitVec.ofInt 32 (stride * (j : Int))
      + BitVec.ofInt 32 (stride * (l : Int))) = true := List.all_eq_true.2 fun l hl => beq_iff_eq.2 (hline l hl)
  unfold fitAffine
  simp only [htags, hdiff, hgap, Int.mul_emod_left, Int.mul_ediv_cancel _ hne, hmul, hvals]
  rfl

/-- R164: integers on the line through the two lowest live lanes fit the affine shape. -/
theorem fitShape_affine (v : VReg) (live : Mask) (j k : Nat) (stride : Int) (hj : inMask live j = true)
    (hk : inMask live k = true) (hjk : j < k) (hlow : ∀ l, inMask live l = true → l = j ∨ k ≤ l)
    (htag : ∀ l, inMask live l = true → (v.lane l).tag = 0x1F#8)
    (hdiff : ((v.lane k).val - (v.lane j).val).toInt = stride * ((k : Int) - j)) (hne : v.lane k ≠ v.lane j)
    (hval : ∀ l, inMask live l = true → (v.lane l).val = (v.lane j).val + BitVec.ofInt 32 (stride * ((l : Int) - j))) :
    fitShape v live true = .affine ((v.lane j).val - BitVec.ofInt 32 (stride * (j : Int))) (BitVec.ofInt 32 stride) := by
  obtain ⟨ls, hls⟩ := maskLanes_two hj hk hjk hlow
  have hin : ∀ l ∈ j :: k :: ls, inMask live l = true := fun l hl => mem_maskLanes.1 (hls ▸ hl)
  have hall : ¬ (j :: k :: ls).all (fun l => v.lane l == v.lane j) = true := fun h =>
    hne (beq_iff_eq.1 (List.all_eq_true.1 h k (by simp)))
  rw [fitShape, hls]
  dsimp only
  rw [if_neg hall, if_pos rfl, fitAffine_line hjk hdiff (fun l hl => htag l (hin l hl)) fun l hl => hval l (hin l hl)]

end

theorem decide_w32_eq_wdLen (wd : Wd) : decide (wd = .w32) = (wdLen wd == 1) := by cases wd <;> rfl

/-- R164: SHAPE.FIT moves each register of D and fits it. -/
theorem shapeFit_acts (wd : Wd) (d a : VNum) (mk : MNum) :
    Acts (.shapeFit wd d a mk) (fun _ _ => true) fun x u => u.updGang x.key fun g =>
      (List.range (wdLen wd)).foldl (fun g j =>
        let v := writeLanes (x.g.reg (d.toNat + j)) (x.g.reg (a.toNat + j)) x.act x.g.live (deadImg u.tick (d.toNat + j))
        { g with regs := Tab.put g.regs (d.toNat + j) (fitShape v x.g.live (wd = .w32)) }) g := by
  refine acts_of _ (fun _ _ => True) (fun _ => rfl) (fun _ => trivial) fun s x _ _ u _ hg =>
    ⟨by simp only [decide_w32_eq_wdLen], trivial, fun k hk => ?_, ?_, ?_⟩
  · rw [gang_updGang, if_neg hk.symm]
  · rw [updGang_rest]
  · exact ⟨_, by rw [gang_updGang, if_pos rfl, hg]; rfl⟩

/-- Settles O8: full writes by `leaves_of`, SHAPE.FIT by the cases of `fitShape`. -/
theorem shapesKept : Obligations.ShapesKept := by
  have h32 : ∀ {ty : IntTy}, ty = .s32 ∨ ty = .z32 → isInt32 ty = true := by rintro _ (rfl | rfl) <;> rfl
  refine ⟨?_, ?_, ?_, ?_, ?_, ?_, ?_, shapeFit_acts, fitShape_lane, fitShape_uniform, fitShape_affine, ?_, by decide⟩
  · intro s x ty d a b mk p q r u hty hw ha hb
    exact leaves_of rfl rfl hw (by simp [h32 hty, Seat.shape, ha, hb, affSum, orAffine]) (by simp)
  · intro s x ty d a b mk p q r u hty hw ha hb
    exact leaves_of rfl rfl hw (by simp [h32 hty, Seat.shape, ha, hb, affSum, orAffine]) (by simp)
  · intro s x ty d a b mk p q y hty hw ha hb
    exact leaves_of rfl rfl hw (by simp [h32 hty, Seat.shape, ha, hb, affMul, orAffine]) (by simp)
  · intro s x d a b mk p q y hw ha hb hc
    exact leaves_of rfl rfl hw (by simp [Seat.shape, ha, hb, hc, affShl, orAffine, tyLen, IntTy.width]) (by simp)
  · intro s x d a mk hw ha
    exact leaves_of rfl rfl hw rfl ha
  · intro s x ty d imm mk hty hw
    exact leaves_of rfl rfl hw (by rw [hty]; rfl) (by simp)
  · intro s x ty d base stride mk hw
    exact leaves_of rfl rfl hw rfl (by simp)
  · intro v live
    rcases fitShape_cases v live false with ⟨h, -⟩ | ⟨x, -, h⟩ | ⟨_, h, -⟩ | h
    · exact .inr (.inr h)
    · exact .inl ⟨x, h⟩
    · cases h
    · exact .inr (.inl ⟨_, h⟩)

end Sys2Proof.Laws
end

section
/-! SUPPORT. What a long-latency word keeps for each member (R105, R123, R133), and the settled statement. -/

namespace Sys2Proof.Laws

open Sys2Proof Sys2Proof.Machine

/-! ### Long-latency words -/

/-- A long-latency word acts by keeping, for each member, a pending result equal to the one it computes. -/
theorem acts_longWord {i : Instr} {look : BitVec 4} {tok : Nat} {regs masks : List Nat} {f g : Seat → List Out}
    (he : ∀ s, exec i s = longWord i look tok regs masks f s) (h : ∀ x, f x = g x) :
    Acts i (fun _ _ => true) fun x u => (u.addPend x look.toNat regs masks x.act (g x) false true tok).2 :=
  funext h ▸ acts_long look.toNat regs masks f true tok he fun _ _ _ _ _ _ _ => rfl

/-- R105, R107: what opening a window changes. -/
theorem addPend_opens (u : State) (x : Seat) (look : Nat) (regs masks : List Nat) (lanes : Mask) (outs : List Out)
    (landed compute : Bool) (tok : Nat) :
    Opens u (u.addPend x look regs masks lanes outs landed compute tok).2 x.key
      ⟨u.nextId, regs, masks, lanes, (List.range 8).map (fun sl => if x.m0 &&& sliceMask sl = 0#32 then 0 else look), landed,
        outs, tok, compute, false⟩ := by
  refine ⟨?_, fun k hk => ?_, fun g hg => ?_⟩
  · exact congrArg (fun v : State => { v with nextId := u.nextId + 1 }) (updGang_rest u x.key _)
  · exact (upd_next_gang u x.key k _ _).trans (if_neg hk.symm)
  · refine (upd_next_gang u x.key x.key _ _).trans ?_
    simp only [if_pos, hg, Option.map_some, beq_iff_eq, Gang.tokAdd]
    split <;> rfl

/-! ### Division (R123) -/

section
variable {ty : IntTy}

/-- R123: the quotient in a lane; a division by zero gives the largest value, or the least of a negative dividend, and
the overflow gives its dividend. -/
theorem idivLane_eq (u v : Pair) : idivLane ty u v =
    (if intVal ty v = 0 then
      (if tySigned ty then wrTy ty (if 0 ≤ intVal ty u then 2 ^ (ty.width - 1) - 1 else -2 ^ (ty.width - 1))
       else wrTy ty (2 ^ ty.width - 1))
    else if tySigned ty && decide (intVal ty u = -2 ^ (ty.width - 1)) && decide (intVal ty v = -1) then wrTy ty (intVal ty u)
    else wrTy ty ((intVal ty u).tdiv (intVal ty v))) := by
  cases hs : tySigned ty with
  | false => simp [idivLane, tyMax, intMax, hs]
  | true =>
    simp only [idivLane, tyMax, tyMin, intMax, intMin, hs, Bool.true_and, beq_eq_decide, if_true]
    split
    · rfl
    · split
      case isTrue h => simp only [Bool.and_eq_true, decide_eq_true_eq] at h; rw [h.1]
      case isFalse => rfl

/-- R123: the remainder in a lane; a division by zero gives its dividend, and the overflow gives 0. -/
theorem iremLane_eq (u v : Pair) : iremLane ty u v =
    (if intVal ty v = 0 then wrTy ty (intVal ty u)
    else if tySigned ty && decide (intVal ty u = -2 ^ (ty.width - 1)) && decide (intVal ty v = -1) then wrTy ty 0
    else wrTy ty (intVal ty u - intVal ty v * (intVal ty u).tdiv (intVal ty v))) := by
  cases hs : tySigned ty <;> simp [iremLane, tyMin, intMin, hs, beq_eq_decide, Int.tmod_def]

/-- R123: the flag bit of a lane. -/
theorem divFlag_eq (u v : Pair) : divFlag ty u v = (decide (intVal ty v = 0) ||
    (tySigned ty && decide (intVal ty u = -2 ^ (ty.width - 1)) && decide (intVal ty v = -1))) := by
  cases hs : tySigned ty <;> simp [divFlag, tyMin, intMin, hs, beq_eq_decide]

end

/-! ### Addresses (R133) -/

/-- R133: the address that LEA writes in a lane; a uniform value stands for the lane as well. -/
theorem leaVal_lane (x : Seat) (m : MemRef) (size : Nat) {l : Nat} (hl : l < 32) :
    pairLane (leaVal x m size) l = intPair (laneAddr x.g m size l) := by
  have hlane : pairLane (.ofFn fun l => intPair (laneAddr x.g m size l)) l = intPair (laneAddr x.g m size l) := at_ofFn _ _ hl
  cases ho : m.ofs with
  | none => simp only [leaVal, laneAddr, laneOffset, ho]; rfl
  | some v =>
    cases hr : x.g.reg v.toNat with
    | uniform y => simp only [leaVal, laneAddr, laneOffset, ho, hr]; rfl
    | affine b t => simpa only [leaVal, ho, hr, Bool.false_eq_true, if_false] using hlane
    | general xs => simpa only [leaVal, ho, hr, Bool.false_eq_true, if_false] using hlane

/-- Settles O9: the words open the windows that `addPend_opens` describes, with the division's table lane by lane. -/
theorem longLatencyWords : Obligations.LongLatencyWords := by
  refine ⟨fun ty d a p b flag look mk _ rem => ?_, fun size d m look tok mk => ?_, fun x m size l hl => ?_,
    fun u x look regs masks lanes outs landed compute tok => ⟨rfl, addPend_opens u x look regs masks lanes outs landed compute tok⟩⟩
  · cases rem with
    | true =>
      refine acts_longWord (fun _ => rfl) fun x => ?_
      simp only [funext₂ (iremLane_eq (ty := ty)), divFlag_eq, if_true]
    | false =>
      refine acts_longWord (fun _ => rfl) fun x => ?_
      simp only [funext₂ (idivLane_eq (ty := ty)), divFlag_eq, Bool.false_eq_true, if_false]
  · exact acts_longWord (fun _ => rfl) fun _ => rfl
  · rw [leaVal_lane x m _ hl, laneAddr, laneOffset]
    cases m.ofs <;> rfl

end Sys2Proof.Laws
end

section
/-! SUPPORT. Reductions over the active lanes (R152, R153), and the settled statement. -/

namespace Sys2Proof.Laws

open Sys2Proof Sys2Proof.Machine

/-! ### Operations with an identity on the values of a width -/

/-- An operation that keeps the numbers of `w` bits, associative there, with an identity. -/
structure MonoidBelow (w : Nat) (f : Nat → Nat → Nat) (e : Nat) : Prop where
  closed : ∀ x y, x < 2 ^ w → y < 2 ^ w → f x y < 2 ^ w
  assoc : ∀ x y z, x < 2 ^ w → y < 2 ^ w → z < 2 ^ w → f (f x y) z = f x (f y z)
  ident_lt : e < 2 ^ w
  left : ∀ x, x < 2 ^ w → f e x = x
  right : ∀ x, x < 2 ^ w → f x e = x

theorem monoid_add (w : Nat) : MonoidBelow w (fun x y => (x + y) % 2 ^ w) 0 where
  closed _ _ _ _ := Nat.mod_lt _ (Nat.two_pow_pos w)
  assoc x y z _ _ _ := by simp [Nat.add_assoc]
  ident_lt := Nat.two_pow_pos w
  left x hx := by simp [Nat.mod_eq_of_lt hx]
  right x hx := by simp [Nat.mod_eq_of_lt hx]

theorem monoid_and (w : Nat) : MonoidBelow w (fun x y => x &&& y) (2 ^ w - 1) where
  closed _ _ _ hy := Nat.and_lt_two_pow _ hy
  assoc x y z _ _ _ := Nat.land_assoc x y z
  ident_lt := Nat.sub_lt (Nat.two_pow_pos w) Nat.one_pos
  left x hx := by rw [Nat.land_comm, Nat.and_two_pow_sub_one_eq_mod, Nat.mod_eq_of_lt hx]
  right x hx := by rw [Nat.and_two_pow_sub_one_eq_mod, Nat.mod_eq_of_lt hx]

theorem monoid_or (w : Nat) : MonoidBelow w (fun x y => x ||| y) 0 where
  closed _ _ hx hy := Nat.or_lt_two_pow hx hy
  assoc x y z _ _ _ := Nat.lor_assoc x y z
  ident_lt := Nat.two_pow_pos w
  left x _ := Nat.zero_or x
  right x _ := Nat.or_zero x

theorem monoid_xor (w : Nat) : MonoidBelow w (fun x y => x ^^^ y) 0 where
  closed _ _ hx hy := Nat.xor_lt_two_pow hx hy
  assoc x y z _ _ _ := Nat.xor_assoc x y z
  ident_lt := Nat.two_pow_pos w
  left x _ := Nat.zero_xor x
  right x _ := Nat.xor_zero x

theorem monoid_min (w : Nat) : MonoidBelow w min (2 ^ w - 1) where
  closed x y hx _ := by omega
  assoc x y z _ _ _ := min_assoc x y z
  ident_lt := Nat.sub_lt (Nat.two_pow_pos w) Nat.one_pos
  left x hx := by omega
  right x hx := by omega

theorem monoid_max (w : Nat) : MonoidBelow w max 0 where
  closed x y hx hy := by omega
  assoc x y z _ _ _ := max_assoc x y z
  ident_lt := Nat.two_pow_pos w
  left x _ := Nat.zero_max x
  right x _ := Nat.max_zero x

/-- The signed value of a number of w + 1 bits, without the power of w + 1. -/
theorem toSigned_succ {w x : Nat} (hx : x < 2 ^ (w + 1)) :
    toSigned (w + 1) x = if 2 ^ w ≤ x then (x : Int) - 2 * (2 ^ w : Nat) else x := by
  have hm : ((x : Int) % 2 ^ (w + 1)) = x := by exact_mod_cast congrArg Nat.cast (Nat.mod_eq_of_lt hx)
  rw [toSigned, Nat.mod_eq_of_lt hx, hm, pow_succ']
  push_cast
  rfl

/-- The smaller or the larger of two signed numbers. -/
theorem monoid_minSigned (w : Nat) :
    MonoidBelow (w + 1) (fun x y => if toSigned (w + 1) x ≤ toSigned (w + 1) y then x else y) (2 ^ w - 1) := by
  have hp : 2 ^ (w + 1) = 2 * 2 ^ w := pow_succ' 2 w
  have h0 : 0 < 2 ^ w := Nat.two_pow_pos w
  have hid : 2 ^ w - 1 < 2 ^ (w + 1) := by omega
  refine ⟨fun x y hx hy => ?_, fun x y z _ _ _ => ?_, hid, fun x hx => ?_, fun x hx => ?_⟩
  · split <;> assumption
  · grind
  · rw [toSigned_succ hid, toSigned_succ hx]; grind
  · rw [toSigned_succ hid, toSigned_succ hx]; grind

theorem monoid_maxSigned (w : Nat) :
    MonoidBelow (w + 1) (fun x y => if toSigned (w + 1) x ≤ toSigned (w + 1) y then y else x) (2 ^ w) := by
  have hp : 2 ^ (w + 1) = 2 * 2 ^ w := pow_succ' 2 w
  have h0 : 0 < 2 ^ w := Nat.two_pow_pos w
  have hid : 2 ^ w < 2 ^ (w + 1) := by omega
  refine ⟨fun x y hx hy => ?_, fun x y z _ _ _ => ?_, hid, fun x hx => ?_, fun x hx => ?_⟩
  · split <;> assumption
  · grind
  · rw [toSigned_succ hid, toSigned_succ hx]; grind
  · rw [toSigned_succ hid, toSigned_succ hx]; grind

/-- The width of a REDUCE operation's values. -/
def redBits (op : RedOp) : Nat := if redWide op then 64 else 32

/-- R152: every operation is associative with its identity on the values of its width. -/
theorem redApply_monoid (op : RedOp) : MonoidBelow (redBits op) (redApply op) (redIdentity op) := by
  cases op with
  | addW32 => exact monoid_add 32
  | addW64 => exact monoid_add 64
  | minS32 => exact monoid_minSigned 31
  | minS64 => exact monoid_minSigned 63
  | minZ32 => exact monoid_min 32
  | minZ64 => exact monoid_min 64
  | maxS32 => exact monoid_maxSigned 31
  | maxS64 => exact monoid_maxSigned 63
  | maxZ32 => exact monoid_max 32
  | maxZ64 => exact monoid_max 64
  | andW32 => exact monoid_and 32
  | andW64 => exact monoid_and 64
  | orW32 => exact monoid_or 32
  | orW64 => exact monoid_or 64
  | xorW32 => exact monoid_xor 32
  | xorW64 => exact monoid_xor 64

/-! ### The pairwise tree (R152) -/

section
variable {w e a : Nat} {f : Nat → Nat → Nat} {xs : List Nat}

/-- A level of the tree leaves the fold as it is. -/
theorem foldl_pairUp (hf : MonoidBelow w f e) (ha : a < 2 ^ w) (hxs : ∀ x ∈ xs, x < 2 ^ w) :
    (pairUp f xs).foldl f a = xs.foldl f a ∧ ∀ x ∈ pairUp f xs, x < 2 ^ w := by
  induction xs using pairUp.induct generalizing a with
  | case1 x y rest ih =>
    simp only [List.forall_mem_cons] at hxs
    obtain ⟨hx, hy, hrest⟩ := hxs
    have hxy := hf.closed x y hx hy
    obtain ⟨h1, h2⟩ := ih (hf.closed a (f x y) ha hxy) hrest
    simp only [pairUp, List.foldl_cons, List.forall_mem_cons]
    exact ⟨by rw [h1, hf.assoc a x y ha hx hy], hxy, h2⟩
  | case2 xs hshort => rw [pairUp.eq_2 _ _ hshort]; exact ⟨rfl, hxs⟩

theorem length_pairUp (f : Nat → Nat → Nat) (xs : List Nat) : (pairUp f xs).length = (xs.length + 1) / 2 := by
  induction xs using pairUp.induct with
  | case1 x y rest ih => simp only [pairUp, List.length_cons, ih]; omega
  | case2 xs hxs =>
    rw [pairUp.eq_2 _ _ hxs]
    match xs, hxs with
    | [], _ => rfl
    | [_], _ => simp
    | x :: y :: rest, hxs => exact (hxs x y rest rfl).elim

/-- R152: the five levels of the tree over 32 values give their fold. -/
theorem tree32_eq_foldl (hf : MonoidBelow w f e) (hlen : xs.length = 32) (hxs : ∀ x ∈ xs, x < 2 ^ w) :
    tree32 f xs = some (xs.foldl f e) := by
  obtain ⟨h1, b1⟩ := foldl_pairUp hf hf.ident_lt hxs
  obtain ⟨h2, b2⟩ := foldl_pairUp hf hf.ident_lt b1
  obtain ⟨h3, b3⟩ := foldl_pairUp hf hf.ident_lt b2
  obtain ⟨h4, b4⟩ := foldl_pairUp hf hf.ident_lt b3
  obtain ⟨h5, b5⟩ := foldl_pairUp hf hf.ident_lt b4
  rw [h4, h3, h2, h1] at h5
  have hone : (pairUp f (pairUp f (pairUp f (pairUp f (pairUp f xs))))).length = 1 := by simp only [length_pairUp, hlen]
  obtain ⟨z, hz⟩ := List.length_eq_one_iff.1 hone
  rw [hz] at h5 b5
  rw [tree32, hz, ← h5, List.foldl_cons, List.foldl_nil, hf.left z (b5 z List.mem_cons_self)]
  rfl

/-- Values that give way to the identity add nothing. -/
theorem foldl_ident {α : Type} (hf : MonoidBelow w f e) (p : α → Bool) (g : α → Nat) (hg : ∀ l, g l < 2 ^ w) (ls : List α)
    (ha : a < 2 ^ w) :
    (ls.map fun l => if p l then g l else e).foldl f a = (ls.filter p).foldl (fun r l => f r (g l)) a := by
  induction ls generalizing a with
  | nil => rfl
  | cons l ls ih =>
    cases hp : p l with
    | true =>
      simp only [List.map_cons, List.foldl_cons, hp, if_true, List.filter_cons_of_pos]
      exact ih (hf.closed _ _ ha (hg l))
    | false =>
      simp only [List.map_cons, List.foldl_cons, hp, Bool.false_eq_true, if_false, not_false_eq_true, List.filter_cons_of_neg,
        hf.right a ha]
      exact ih ha

end

/-! ### The words -/

theorem ofFn_congr {α : Type} {f g : Nat → α} (h : ∀ l, l < 32 → f l = g l) : Lanes.ofFn f = Lanes.ofFn g :=
  congrArg Lanes.gen (List.map_congr_left fun l hl => h l (List.mem_range.1 hl))

section
variable {op : RedOp} {v : Lanes Pair} {act : Mask}

/-- The value that a lane adds to a reduction. -/
def redLane (op : RedOp) (v : Lanes Pair) (l : Nat) : Nat := rawVal (redBits op) (pairLane v l)

/-- The values of some lanes combined in order. -/
def redFold (op : RedOp) (v : Lanes Pair) (ls : List Nat) : Nat :=
  ls.foldl (fun r l => redApply op r (redLane op v l)) (redIdentity op)

theorem redLane_lt (l : Nat) : redLane op v l < 2 ^ redBits op := Nat.mod_lt _ (Nat.two_pow_pos _)

/-- R152: the tree of REDUCE is the fold over the active lanes. -/
theorem reduceVal_eq_redFold : reduceVal op v act = redFold op v (maskLanes act) := by
  have hm := redApply_monoid op
  have hb : ∀ x ∈ lanes32.map fun l => if inMask act l then redLane op v l else redIdentity op, x < 2 ^ redBits op := by
    intro x hx
    obtain ⟨l, -, rfl⟩ := List.mem_map.1 hx
    split
    · exact redLane_lt l
    · exact hm.ident_lt
  have ht := tree32_eq_foldl hm (by simp [lanes32]) hb
  rw [foldl_ident hm _ _ redLane_lt _ hm.ident_lt] at ht
  show (tree32 (redApply op) (lanes32.map fun l => if inMask act l then redLane op v l else redIdentity op)).getD (redIdentity op) = _
  rw [ht]
  rfl

/-- R153: SCAN's prefixes fold the active lanes up to each. -/
theorem scanVals_getD (ls : List Nat) (a i : Nat) (hi : i < ls.length) :
    (scanVals op v act ls a).getD i 0 =
      ((ls.take (i + 1)).filter (inMask act)).foldl (fun r l => redApply op r (redLane op v l)) a := by
  induction ls generalizing a i with
  | nil => simp at hi
  | cons l ls ih =>
    have hhead : (if inMask act l then redApply op a (rawVal (if redWide op then 64 else 32) (v.at zeroPair l)) else a) =
        ([l].filter (inMask act)).foldl (fun r l => redApply op r (redLane op v l)) a := by
      cases hl : inMask act l <;> simp [hl, redLane, redBits, pairLane]
    rw [List.take_succ_cons, ← List.singleton_append (l := List.take i ls), List.filter_append, List.foldl_append, ← hhead]
    cases i with
    | zero => rfl
    | succ i => exact ih _ i (Nat.lt_of_succ_lt_succ hi)

/-- The active lanes up to a lane. -/
theorem filter_maskLanes_le (act : Mask) {l : Nat} (hl : l < 32) :
    (maskLanes act).filter (fun j => decide (j ≤ l)) = ((lanes32.take (l + 1)).filter (inMask act)) := by
  have hrange : lanes32.filter (fun j => decide (j ≤ l)) = lanes32.take (l + 1) := by
    rw [lanes32, List.take_range, min_eq_left (by omega), ← List.Ico.zero_bot, ← List.Ico.zero_bot,
      ← List.Ico.filter_lt_of_ge (n := 0) (show l + 1 ≤ 32 from hl)]
    simp only [Nat.lt_succ_iff]
  rw [← hrange, maskLanes, List.filter_filter, List.filter_filter]
  simp only [Bool.and_comm]

/-- R153: SCAN's value in a lane is the fold over the active lanes up to it. -/
theorem scanVals_eq_redFold {l : Nat} (hl : l < 32) : (scanVals op v act lanes32 (redIdentity op)).getD l 0 =
    redFold op v ((maskLanes act).filter fun j => decide (j ≤ l)) := by
  rw [scanVals_getD _ _ _ (by simpa [lanes32] using hl), filter_maskLanes_le act hl, redFold]

theorem combined_eq (x : Seat) (a : VNum) (ls : List Nat) :
    combined op x a ls = wrWide (redWide op) (redFold op (x.g.rd (redLen op) a.toNat) ls) := rfl

end

/-- Settles O12: the pending results are the folds over the active lanes, whatever the tree. -/
theorem reductions : Obligations.Reductions := by
  refine ⟨fun s op d a look mk hi => ?_, fun s op d a look mk hi => ?_, fun op => rfl, fun x y => ?_, fun x y => ?_, fun op x hx => ?_⟩
  · exact acts_longWord (fun _ => rfl) (fun x => by rw [combined_eq, reduceVal_eq_redFold]) s hi fun _ _ => rfl
  · exact acts_longWord (fun _ => rfl) (fun x => by
      simp only [combined_eq]
      exact congrArg (outReg _ _) (ofFn_congr fun l hl => by rw [scanVals_eq_redFold hl])) s hi fun _ _ => rfl
  · simp [redApply, toSigned_toNat, apply_ite BitVec.toNat]
  · simp [redApply, toSigned_toNat, apply_ite BitVec.toNat]
  · have hm := redApply_monoid op
    have hx' : x < 2 ^ redBits op := by unfold redBits; split <;> simp_all
    exact ⟨hm.left x hx', hm.right x hx'⟩

end Sys2Proof.Laws
end

section
/-! SUPPORT. Landing, closed windows and the waits at issue (R105, R106), and the settled statement. -/

namespace Sys2Proof.Laws

open Sys2Proof Sys2Proof.Machine

/-! ### Lists numbered from a start -/

theorem getElem?_map_indexFrom {α β : Type} (f : Nat → α → β) (L : List α) (k j : Nat) :
    ((indexFrom k L).map fun e => f e.1 e.2)[j]? = L[j]?.map (f (k + j)) := by
  induction L generalizing k j with
  | nil => rfl
  | cons x L ih =>
    cases j with
    | zero => rfl
    | succ j =>
      rw [show k + (j + 1) = k + 1 + j by omega]
      exact ih (k + 1) j

/-! ### The lanes of a slice -/

/-- R11: a slice holds four lanes. -/
theorem inMask_sliceMask {sl : Nat} (hs : sl < 8) (k : Nat) : inMask (sliceMask sl) k = decide (k / 4 = sl) := by
  by_cases hk : k < 32
  · have h : ∀ sl < 8, ∀ k < 32, inMask (sliceMask sl) k = decide (k / 4 = sl) := by decide
    exact h sl hs k hk
  · rw [decide_eq_false (by omega), Bool.eq_false_iff]
    exact fun h => hk (inMask_lt h)

/-- No lane of a slice is in a mask. -/
theorem and_sliceMask_eq_zero {m : Mask} {sl : Nat} (hs : sl < 8) :
    m &&& sliceMask sl = 0#32 ↔ ∀ k, k / 4 = sl → inMask m k = false := by
  refine ⟨fun h k hk => ?_, fun h => mask_ext fun k _ => ?_⟩
  · have hz := congrArg (inMask · k) h
    simpa [inMask_sliceMask hs, hk] using hz
  · rw [inMask_and, inMask_sliceMask hs, inMask_zero]
    by_cases hk : k / 4 = sl
    · rw [h k hk, Bool.false_and]
    · rw [decide_eq_false hk, Bool.and_false]

/-! ### What can be written (R106) -/

/-- R106: the lanes of a pending result that can be written behind those before it. -/
theorem inMask_ready (p : Pend) (before : List Pend) (l : Nat) : inMask (p.ready before) l = true ↔
    (p.landed = true ∧ inMask p.left l = true ∧ p.win.getD (l / 4) 0 = 0 ∧ ∀ q ∈ before,
      (∀ k, k / 4 = l / 4 → inMask q.left k = false) ∨
        ((∀ r ∈ q.regs, r ∉ p.regs) ∧ ∀ m ∈ q.masks, m ∉ p.masks)) := by
  by_cases hl : l < 32
  · simp only [Pend.ready, inMask_maskOf, hl, decide_true, Bool.true_and, Bool.and_eq_true, beq_iff_eq, List.all_eq_true,
      Bool.or_eq_true, and_sliceMask_eq_zero (show l / 4 < 8 by omega), Bool.not_eq_true', Bool.or_eq_false_iff,
      List.any_eq_false, List.contains_iff_mem, and_assoc]
  · have hready : inMask (p.ready before) l = false := Bool.eq_false_iff.2 fun h => hl (inMask_lt h)
    simp only [hready, Bool.false_eq_true, false_iff]
    exact fun h => hl (inMask_lt h.2.1)

/-- A result that has landed, with its windows closed and nothing before it, is written whole. -/
theorem ready_closed {p : Pend} (hp : p.landed = true) (hw : ∀ sl, p.win.getD sl 0 = 0) : p.ready [] = p.left :=
  mask_ext fun l _ => by
    rw [Bool.eq_iff_iff, inMask_ready]
    simp only [hp, hw, List.not_mem_nil, false_implies, implies_true, true_and, and_true]

/-- A result whose windows are all open is not written. -/
theorem ready_open {p : Pend} (h : p.landed = false ∨ ∀ l, inMask p.left l = true → p.win.getD (l / 4) 0 ≠ 0)
    (before : List Pend) : p.ready before = 0#32 :=
  mask_ext fun l _ => by
    rw [inMask_zero, Bool.eq_false_iff, Ne, inMask_ready]
    rintro ⟨hp, hl, hw, -⟩
    rcases h with h | h
    · rw [hp] at h; cases h
    · exact h l hl hw

section
variable {g : Gang}

/-- What a gang's closed windows leave and write when its one result has landed behind them. -/
theorem due_closed {p : Pend} (hg : g.pend = [p]) (hp : p.landed = true) (hw : ∀ sl, p.win.getD sl 0 = 0) :
    g.leftPend = [] ∧ g.dueOuts = p.outs.map fun o => (p.left, o) := by
  have hl : p.left &&& ~~~p.left = 0#32 := by simp
  simp [Gang.leftPend, Gang.dueOuts, hg, dueFrom, ready_closed hp hw, hp, hl]

theorem due_open (ho : ∀ p ∈ g.pend, p.landed = false ∨ ∀ l, inMask p.left l = true → p.win.getD (l / 4) 0 ≠ 0)
    (hl : ∀ p ∈ g.pend, p.landed = true → p.left ≠ 0#32) : g.leftPend = g.pend ∧ ∀ mo ∈ g.dueOuts, mo.1 = 0#32 := by
  have key : ∀ (L before : List Pend), (∀ p ∈ L, p ∈ g.pend) → dueFrom before L = L.map fun p => (0#32, p) := by
    intro L
    induction L with
    | nil => intros; rfl
    | cons p L ih =>
      intro before hL
      rw [List.forall_mem_cons] at hL
      rw [dueFrom]
      simp only [ready_open (ho p hL.1), BitVec.not_zero, BitVec.and_allOnes, List.map_cons]
      rw [ih _ hL.2]
  have hd := key g.pend [] fun _ h => h
  refine ⟨?_, fun mo hmo => ?_⟩
  · rw [Gang.leftPend, hd, List.map_map]
    simp only [Function.comp_def, List.map_id', List.filter_eq_self]
    intro p hp
    cases hland : p.landed with
    | false => rfl
    | true => simpa using hl p hp hland
  · rw [Gang.dueOuts, hd] at hmo
    obtain ⟨mp, hmp, hmo⟩ := List.mem_flatMap.1 hmo
    obtain ⟨p, -, rfl⟩ := List.mem_map.1 hmp
    obtain ⟨o, -, rfl⟩ := List.mem_map.1 hmo
    rfl

/-! ### Writing closed windows -/

variable (g) (tick : Nat)

theorem flush_rest : g.flush tick =
    { g with regs := (g.flush tick).regs, masks := (g.flush tick).masks, pend := g.leftPend } := by
  rw [flush_eq, puts_rest]

theorem flush_lane (r l : Nat) (hl : inMask g.live l = true) :
    ((g.flush tick).reg r).lane l = (resultLane g.dueOuts r l).getD ((g.reg r).lane l) := by
  rw [flush_eq]
  exact (puts_lane g tick _ r hl).trans (by rw [due_lane]; rfl)

theorem flush_mask (k l : Nat) (hl : l < 32) :
    inMask ((g.flush tick).maskReg k) l = (resultMask g.dueOuts k l).getD (inMask (g.maskReg k) l) := by
  rw [flush_eq]
  exact (puts_mask g tick _ k hl).trans (by rw [due_mask]; rfl)

theorem flush_other (r : Nat) (h : ∀ mo ∈ g.dueOuts, ∀ v, mo.2 ≠ .reg r v) : (g.flush tick).reg r = g.reg r := by
  rw [flush_eq]
  exact puts_other g tick _ r fun mo hmo => h mo (dueSome_sub _ hmo)

end

/-! ### Counting an issued word (R105) -/

/-- A pending result whose windows have counted one word of some issuing lanes. -/
def countPend (m0 : Mask) (p : Pend) : Pend :=
  { p with win := (indexFrom 0 p.win).map fun kw => if (m0 &&& sliceMask kw.1) == 0#32 then kw.2 else kw.2 - 1 }

theorem countPend_win (m0 : Mask) (p : Pend) (sl : Nat) :
    (countPend m0 p).win.getD sl 0 = p.win.getD sl 0 - (if m0 &&& sliceMask sl = 0#32 then 0 else 1) := by
  have h := getElem?_map_indexFrom (fun k (w : Nat) => if (m0 &&& sliceMask k) == 0#32 then w else w - 1) p.win 0 sl
  rw [Nat.zero_add] at h
  rw [countPend, List.getD_eq_getElem?_getD, h, List.getD_eq_getElem?_getD]
  cases p.win[sl]? with
  | none => simp
  | some w => simp only [Option.map_some, Option.getD_some, beq_iff_eq]; split <;> rfl

theorem count_pend {g : Gang} (h : ∀ p ∈ g.pend, p.frozen = false) (m0 : Mask) :
    (g.count m0).pend = g.pend.map (countPend m0) :=
  List.map_congr_left fun p hp => if_neg (by simp [h p hp])

theorem mem_count {g : Gang} {m0 : Mask} {p : Pend} (hp : p ∈ g.pend) (hf : p.frozen = false) :
    countPend m0 p ∈ (g.count m0).pend :=
  List.mem_map.2 ⟨p, hp, if_neg (by simp [hf])⟩

/-- A word whose issue closes a landed result's last windows writes it. -/
theorem count_due {g : Gang} {m0 : Mask} {p : Pend} (hg : g.pend = [p]) (hp : p.landed = true) (hf : p.frozen = false)
    (hw : ∀ sl, p.win.getD sl 0 = 0 ∨ (p.win.getD sl 0 = 1 ∧ m0 &&& sliceMask sl ≠ 0#32)) :
    (g.count m0).leftPend = [] ∧ (g.count m0).dueOuts = p.outs.map fun o => (p.left, o) := by
  have hc : (g.count m0).pend = [countPend m0 p] := by rw [count_pend (by simp [hg, hf]), hg]; rfl
  refine due_closed (p := countPend m0 p) hc hp fun sl => ?_
  rw [countPend_win]
  rcases hw sl with h | ⟨h, hm⟩
  · rw [h, Nat.zero_sub]
  · rw [h, if_neg hm]

/-- R105: NOP writes a landed result whose windows stand at one. -/
theorem nop_writes {s : State} {x : Seat} {p : Pend} (hi : issues .nop s = true) (hx : x ∈ s.seats 0) (hg : x.g.pend = [p])
    (hp : p.landed = true) (hf : p.frozen = false)
    (hw : ∀ sl, p.win.getD sl 0 = 0 ∨ (p.win.getD sl 0 = 1 ∧ x.m0 &&& sliceMask sl ≠ 0#32)) :
    ∃ t g', exec .nop s = .next t ∧ t.gang? x.key = some g' ∧ g'.pend = [] ∧
      ∀ r l, inMask x.g.live l = true →
        (g'.reg r).lane l = (resultLane (p.outs.map fun o => (p.left, o)) r l).getD ((x.g.reg r).lane l) := by
  obtain ⟨t, he, hm⟩ := computes_pure (i := .nop) (fun _ => []) (fun _ => rfl) s hi
  obtain ⟨a, g', ha, hg', hgone⟩ := hm.members x hx
  obtain ⟨hleft, hdue⟩ := count_due hg hp hf hw
  cases (counted_gang hx).symm.trans ha
  refine ⟨t, g', he, hg', hgone.pend.trans hleft, fun r l hl => (hgone.regs r l hl).trans ?_⟩
  rw [hdue]
  rfl

/-! ### Landing (R105) -/

theorem team_of_mates {s : State} {key : Nat} {g : Gang} (hg : s.gang? key = some g) (hk : key ∈ g.mates) :
    (key, g) ∈ s.team key := by
  simp only [State.team, hg]
  exact List.mem_filterMap.2 ⟨key, List.mem_dedup.2 hk, by rw [hg]; rfl⟩

theorem foldl_same {α β : Type} {f : α → β → α} {L : List β} (h : ∀ x ∈ L, ∀ a, f a x = a) (a : α) : L.foldl f a = a := by
  induction L with
  | nil => rfl
  | cons x L ih =>
    rw [List.forall_mem_cons] at h
    rw [List.foldl_cons, h.1, ih h.2]

/-- A result that one member alone waits for lands there. -/
theorem land_one {s : State} {key id : Nat} {outs : List Out} {g : Gang} {p : Pend} (hteam : (key, g) ∈ s.team key)
    (hp : g.pend.find? (fun q => q.id == id) = some p)
    (ho : ∀ kg ∈ s.team key, kg.1 ≠ key → kg.2.pend.find? (fun q => q.id == id) = none) :
    s.land key id outs = (s.updGang key fun g => g.land s.tick id outs).dropTok key p.tok := by
  obtain ⟨L, R, hL⟩ := List.append_of_mem hteam
  have hn := team_nodup s key
  rw [hL] at hn ho
  simp only [List.map_append, List.map_cons, List.nodup_append, List.nodup_cons, List.mem_map, List.mem_cons] at hn
  obtain ⟨-, ⟨hR, -⟩, hne⟩ := hn
  have hstill : ∀ kg ∈ L ++ R, kg.2.pend.find? (fun q => q.id == id) = none := fun kg hkg => by
    rcases List.mem_append.1 hkg with h | h
    · exact ho kg (by simp [h]) fun hk => hne kg.1 ⟨kg, h, rfl⟩ key (.inl rfl) hk
    · exact ho kg (by simp [h]) fun hk => hR ⟨kg, h, hk⟩
  rw [State.land, hL, List.foldl_append, List.foldl_cons, foldl_same, foldl_same]
  · dsimp only; rw [hp]
  · intro kg hkg u; rw [hstill kg (List.mem_append_left _ hkg)]
  · intro kg hkg u; rw [hstill kg (List.mem_append_right _ hkg)]

theorem tokSub_rest (g : Gang) (t : Nat) :
    g.tokSub t = { g with toks := if t = 0 then g.toks else Tab.put g.toks t (g.tok t - 1) } := by
  unfold Gang.tokSub; split <;> rfl

/-- A token that does not clear, or that has counted no operation, only counts one less. -/
theorem dropTok_quiet {u : State} {key tok : Nat} {g : Gang} (hg : u.gang? key = some g)
    (h : tok = 0 ∨ 1 < g.tok tok ∨ Tab.at g.owed [] tok = []) :
    u.dropTok key tok = u.updGang key fun g => g.tokSub tok := by
  have hu : (u.updGang key fun g => g.tokSub tok).gang? key = some (g.tokSub tok) := by rw [gang_updGang, if_pos rfl, hg]; rfl
  have hquiet : (decide (tok = 0) || (g.tokSub tok).tok tok != 0 || (Tab.at (g.tokSub tok).owed [] tok).isEmpty) = true := by
    rw [tokSub_rest]
    rcases h with h | h | h
    · simp [h]
    · have h1 : Tab.at g.toks 0 tok - 1 ≠ 0 := Nat.sub_ne_zero_of_lt h
      by_cases h0 : tok = 0
      · simp [h0]
      · simp [h0, Gang.tok, at_put_same, h1]
    · simp [h]
  unfold State.dropTok
  dsimp only
  rw [hu]
  exact if_pos hquiet

/-- The one result of its identity lands with the value it was opened with. -/
theorem land_eq {g : Gang} {p : Pend} (hu : ∀ q ∈ g.pend, (q : Pend).id = p.id → q = p) (tick : Nat) :
    g.land tick p.id p.outs = ({ g with pend := g.pend.map fun (q : Pend) =>
      if q.id = p.id then { p with landed := true, tok := 0 } else q } : Gang).flush tick := by
  have hpend : (g.pend.map fun (q : Pend) => if q.id = p.id then { q with landed := true, outs := p.outs, tok := 0 } else q) =
      g.pend.map fun (q : Pend) => if q.id = p.id then { p with landed := true, tok := 0 } else q :=
    List.map_congr_left fun q hq => by
      split
      case isTrue h => rw [hu q hq h]
      case isFalse => rfl
  rw [Gang.land, hpend]

section
variable {s : State} {core ctx key : Nat} {g : Gang} {p : Pend}

/-- R43, R105, R107: the landing of a result that one gang waits for, and the release of its token. -/
theorem longLatencyWrite_eq (hk : s.keyOf core ctx = some key)
    (hg : s.gang? key = some g) (hm : key ∈ g.mates) (hp : p ∈ g.pend) (hc : p.compute = true) (hl : p.landed = false)
    (hu : ∀ q ∈ g.pend, (q : Pend).id = p.id → q = p)
    (ho : ∀ k ∈ g.mates, k ≠ key → ∀ h, s.gang? k = some h → ∀ q ∈ h.pend, q.id ≠ p.id)
    (ht : p.tok = 0 ∨ 1 < g.tok p.tok ∨ Tab.at g.owed [] p.tok = []) :
    exec (.longLatencyWrite core ctx p.id) s = .next ((s.updGang key fun g => g.land s.tick p.id p.outs).updGang key
      fun g => g.tokSub p.tok) := by
  have hfind : g.pend.find? (fun q => q.id == p.id) = some p := by
    cases hf : g.pend.find? (fun q => q.id == p.id) with
    | none => exact absurd (beq_self_eq_true p.id) (List.find?_eq_none.1 hf p hp)
    | some q =>
      have hq := List.find?_some hf
      rw [hu q (List.mem_of_find?_eq_some hf) (beq_iff_eq.1 hq)]
  have hland : s.land key p.id p.outs = (s.updGang key fun g => g.land s.tick p.id p.outs).dropTok key p.tok := by
    refine land_one (team_of_mates hg hm) hfind fun kg hkg hne => List.find?_eq_none.2 fun q hq h => ?_
    refine ho kg.1 ?_ hne kg.2 (team_gang hkg) q hq (beq_iff_eq.1 h)
    simp only [State.team, hg] at hkg
    obtain ⟨k, hk, hkg⟩ := List.mem_filterMap.1 hkg
    obtain ⟨m, -, rfl⟩ := Option.map_eq_some_iff.1 hkg
    exact List.mem_dedup.1 hk
  have hu : (s.updGang key fun g => g.land s.tick p.id p.outs).gang? key = some (g.land s.tick p.id p.outs) := by
    rw [gang_updGang, if_pos rfl, hg]; rfl
  have hquiet : p.tok = 0 ∨ 1 < (g.land s.tick p.id p.outs).tok p.tok ∨
      Tab.at (g.land s.tick p.id p.outs).owed [] p.tok = [] := by
    rw [Gang.land, flush_rest]; exact ht
  rw [← dropTok_quiet hu hquiet, ← hland]
  show Host.Outcome.next (match s.keyOf core ctx with | none => _ | some key => _) = _
  rw [hk]
  dsimp only
  rw [hg, Option.bind_some, hfind]
  dsimp only
  rw [hc, hl]
  rfl

end

/-! ### Waiting at issue -/

/-- A word that waits at a member leaves the state as it is. -/
theorem issue_waits {i : Instr} {s : State} {x : Seat} (body : Seat → State → SeatRes) (hx : x ∈ s.seats i.maskField)
    (hop : ∀ y ∈ s.seats i.maskField, operandFault (16 * y.g.allot) i.opnds = none) (hw : x.stalls i = true) :
    issue i body s = s := by
  unfold issue
  cases hs : s.seats i.maskField with
  | nil => rfl
  | cons x0 xs =>
    have hstall : ((x0 :: xs).any fun x => x.stalls i) = true := List.any_eq_true.2 ⟨x, hs ▸ hx, hw⟩
    dsimp only
    rw [hop x0 (hs ▸ List.mem_cons_self)]
    exact if_pos hstall

/-- Settles O10: landing and issue both write what `dueFrom` lists, and `Seat.stalls` holds a word that must wait. -/
theorem lookWindows : Obligations.LookWindows := by
  refine ⟨inMask_ready, ?_, fun g tick => ⟨flush_rest g tick, flush_lane g tick, flush_mask g tick⟩,
    fun g p => due_closed, fun g => due_open, fun s x p => nop_writes,
    fun g m0 p hp hf _ => ⟨_, mem_count hp hf, rfl, fun sl _ => countPend_win m0 p sl⟩, ?_⟩
  · intro s core ctx key g p hk hg hm hp hc hl hu ho ht h
    have hkey : ((s.updGang key fun g => g.land s.tick p.id p.outs).updGang key fun g => g.tokSub p.tok).gang? key =
        some ((h.flush s.tick).tokSub p.tok) := by
      rw [gang_updGang, if_pos rfl, gang_updGang, if_pos rfl, hg, Option.map_some, Option.map_some, land_eq hu]
    refine ⟨_, _, longLatencyWrite_eq hk hg hm hp hc hl hu ho ht, rest_trans (updGang_rest _ _ _) (updGang_rest _ _ _),
      hkey, fun k hk => ?_, ?_, ?_, ?_, ?_⟩
    · rw [gang_updGang, if_neg hk.symm, gang_updGang, if_neg hk.symm]
    · rw [tokSub_rest, flush_rest]; rfl
    · rw [tokSub_rest]; exact flush_lane h s.tick
    · rw [tokSub_rest]; exact flush_mask h s.tick
    · rw [tokSub_rest]; exact flush_other h s.tick
  · intro i body s x hx hop hw
    refine issue_waits body hx hop ?_
    rw [Seat.stalls]
    rcases hw with hw | ⟨ht, hfull⟩
    · rw [hw]; rfl
    · simp [ht, hfull]

end Sys2Proof.Laws
end

section
/-! SUPPORT. What a trap leaves in a team (R419-R426), and a word at which every member of its unit traps. -/

namespace Sys2Proof.Laws

open Sys2Proof Sys2Proof.Machine

/-! ### The trap registers (R425, R426) -/

/-- R426: the fields of TCAUSE, as the model puts them together. -/
theorem cause_fields (defer : Bool) (slices detail code : Nat) :
    let w := BitVec.ofNat 64 ((if defer then 2 ^ 24 else 0) + slices % 256 * 65536 + detail % 256 * 256 + code % 256)
    fieldOf w 0 8 = code % 256 ∧ fieldOf w 8 8 = detail % 256 ∧ fieldOf w 16 8 = slices % 256 ∧ w.getLsbD 24 = defer ∧
      w.toNat < 2 ^ 25 := by
  intro w
  have hs : slices % 256 < 256 := Nat.mod_lt _ (by omega)
  have hd : detail % 256 < 256 := Nat.mod_lt _ (by omega)
  have hc : code % 256 < 256 := Nat.mod_lt _ (by omega)
  have hw : w.toNat = (if defer then 2 ^ 24 else 0) + slices % 256 * 65536 + detail % 256 * 256 + code % 256 := by
    rw [BitVec.toNat_ofNat, Nat.mod_eq_of_lt]
    split <;> omega
  have hbit : w.getLsbD 24 = decide (w.toNat / 2 ^ 24 % 2 = 1) := Nat.testBit_eq_decide_div_mod_eq
  simp only [hbit, fieldOf, hw]
  generalize slices % 256 = a at *
  generalize detail % 256 = b at *
  generalize code % 256 = c at *
  cases defer <;> simp <;> omega

/-- R426: the fields of TLANE. -/
theorem tlane_fields (m : Mask) :
    fieldOf (tlaneOf m) 32 32 = m.toNat ∧ fieldOf (tlaneOf m) 0 32 = (lowLane? m).getD 0 := by
  have hm := m.isLt
  have hl : (lowLane? m).getD 0 < 32 := by
    unfold lowLane?
    cases h : (maskLanes m).head? with
    | none => decide
    | some l => exact inMask_lt (mem_maskLanes.1 (List.mem_of_head? h))
  have hw : (tlaneOf m).toNat = m.toNat * 2 ^ 32 + (lowLane? m).getD 0 := by
    rw [tlaneOf, BitVec.toNat_ofNat, Nat.mod_eq_of_lt]; omega
  simp only [fieldOf, hw]
  omega

/-- A member that enters the handler, register by register. -/
theorem enterTrap_entered (g : Gang) (w : TrapAt) (f : Flaw) (entry : Word64) (part tick : Nat) :
    g.Entered (g.enterTrap w f entry part tick) w f entry part := by
  obtain ⟨h1, h2, h3, h4, h5⟩ := cause_fields w.defer (g.partSlices w.part) f.detail f.code
  obtain ⟨h6, h7⟩ := tlane_fields f.lanes
  have hflow : ∀ l, (g.enterTrap w f entry part tick).flowAt l = if l < g.flow.length then
      (if inMask g.live l then ⟨entry, 0#64, 0, 0#6, 0#2, false, part, 0#64⟩ else g.flowAt l) else g.flowAt l :=
    flowAt_mapFlow g fun l f => if inMask g.live l then ⟨entry, 0#64, 0, 0#6, 0#2, false, part, 0#64⟩ else f
  have hsaved : ∀ l, (g.enterTrap w f entry part tick).trapFlow.getD l Flow.blank = if l < g.flow.length then
      (if inMask g.live l then g.flowAt l else Flow.blank) else g.flowAt l :=
    flowAt_mapFlow g fun l f => if inMask g.live l then f else Flow.blank
  exact {
    code := h1, detail := h2, slices := h3, deferred := h4, zero := h5, tpc := rfl, lanes := h6, first := h7
    infos := ⟨rfl, rfl, rfl, rfl⟩
    tstat := by unfold Gang.enterTrap; cases w.lit <;> rfl
    saved := fun l hl hv => by rw [hsaved, if_pos hl, if_pos hv]
    handler := fun l hl hv => by rw [hflow, if_pos hl, if_pos hv]
    dead := fun l hv => by rw [hflow, hv]; simp
    frozen := rfl
    rest := rfl }

/-! ### A team takes a trap -/

section
variable {s : State} {key : Nat} {w : TrapAt} {fl : List (Nat × Flaw)}

/-- R423, R424: what a team does with a trap, each member's report by `reportOf`. -/
theorem takeTrap_eq : s.takeTrap key w fl =
    if (s.team key).any (fun kg => kg.2.inTrap) then s.haltLaunch (((s.team key).map (·.2.launch)).headD 0) 0x7E
    else (s.team key).foldl (fun (u : State) kg => u.updGang kg.1 fun g =>
      g.enterTrap w (reportOf fl kg.1) (u.roleOf g).trapent (s.lowSlice key) u.tick) s := by
  cases fl with
  | nil => rfl
  | cons f fs =>
    have hrep : ∀ k, (((f :: fs).find? fun x => x.1 == k).map (·.2)).getD { f.2 with lanes := 0#32 } =
        reportOf (f :: fs) k := fun k => by
      unfold reportOf
      cases (f :: fs).find? fun x => x.1 == k <;> rfl
    unfold State.takeTrap
    simp only [hrep]

/-- Each member enters its own role's handler. -/
theorem takeTrap_upds (h : (s.team key).any (fun kg => kg.2.inTrap) = false) : s.takeTrap key w fl =
    upds s ((s.team key).map fun kg => (kg.1, fun g =>
      g.enterTrap w (reportOf fl kg.1) (s.roleOf g).trapent (s.lowSlice key) s.tick)) := by
  have hfold : ∀ (T : List (Nat × Gang)) (t : State), t = { s with gangs := t.gangs } →
      T.foldl (fun (u : State) kg => u.updGang kg.1 fun g =>
        g.enterTrap w (reportOf fl kg.1) (u.roleOf g).trapent (s.lowSlice key) u.tick) t =
      upds t (T.map fun kg => (kg.1, fun g =>
        g.enterTrap w (reportOf fl kg.1) (s.roleOf g).trapent (s.lowSlice key) s.tick)) := by
    intro T
    induction T with
    | nil => intros; rfl
    | cons kg T ih =>
      intro t ht
      have hr : ∀ g, t.roleOf g = s.roleOf g := fun g => by rw [ht]; rfl
      have hk : t.tick = s.tick := by rw [ht]
      rw [List.foldl_cons, ih _ (rest_trans ht (updGang_rest _ _ _))]
      simp only [hr, hk]
      rfl
  rw [takeTrap_eq, if_neg (by rw [h]; decide), hfold _ s rfl]

theorem takeTrap_trapped (h : (s.team key).any (fun kg => kg.2.inTrap) = false) :
    Trapped s (s.takeTrap key w fl) key w fl := by
  rw [takeTrap_upds h]
  refine ⟨upds_rest _ _, fun kg hkg => ?_, fun k hk => ?_⟩
  · have hu := upds_gang s ((s.team key).map fun kg => (kg.1, fun g =>
      g.enterTrap w (reportOf fl kg.1) (s.roleOf g).trapent (s.lowSlice key) s.tick))
      (by rw [List.map_map]; exact team_nodup s key) _ (List.mem_map_of_mem hkg)
    rw [team_gang hkg] at hu
    exact ⟨_, hu, enterTrap_entered _ _ _ _ _ _⟩
  · refine upds_gang_other _ _ _ fun e he => ?_
    obtain ⟨kg, hkg, rfl⟩ := List.mem_map.1 he
    exact hk kg hkg

/-- Causes of one code are all taken. -/
theorem trapNow_eq {code : Nat} (hne : fl ≠ []) (hc : ∀ x ∈ fl, x.2.code = code) :
    s.trapNow fl = s.takeTrap s.cur.key s.wordAt fl := by
  have hfold : ∀ (L : List Flaw) (f : Flaw), f.code = code → (∀ x ∈ L, x.code = code) →
      L.foldl (fun a f => Flaw.first? a (some f)) (some f) = some f := by
    intro L f hf
    induction L with
    | nil => intro _; rfl
    | cons x L ih =>
      intro hL
      rw [List.forall_mem_cons] at hL
      rw [List.foldl_cons, Flaw.first?, if_neg (by rw [hL.1, hf]; exact lt_irrefl _), ih hL.2]
  cases fl with
  | nil => exact absurd rfl hne
  | cons x fl =>
    rw [List.forall_mem_cons] at hc
    have hfirst : ((x :: fl).map (·.2)).foldl (fun a f => Flaw.first? a (some f)) none = some x.2 := by
      rw [List.map_cons, List.foldl_cons]
      exact hfold _ _ hc.1 (List.forall_mem_map.2 hc.2)
    have hall : (x :: fl).filter (fun y => y.2.code == x.2.code) = x :: fl :=
      List.filter_eq_self.2 (List.forall_mem_cons.2 ⟨beq_self_eq_true _, fun y hy => by rw [hc.2 y hy, hc.1]; simp⟩)
    unfold State.trapNow
    rw [hfirst]
    dsimp only
    rw [hall]
    rfl

end

/-! ### A word at which every member traps -/

section
variable {i : Instr} {s : State} {body : Seat → State → SeatRes} {early : Seat → State → Option Flaw} {f : Seat → Flaw}

/-- Members that all trap leave the state they ran on and their causes. -/
theorem runSeats_traps {xs : List Seat} {r : Ran} (h : ∀ x ∈ xs, body x r.state = .trap (f x)) :
    runSeats body xs r = { r with flaws := r.flaws ++ xs.map fun x => (x.key, f x) } := by
  induction xs generalizing r with
  | nil => simp [runSeats]
  | cons x xs ih =>
    rw [List.forall_mem_cons] at h
    rw [runSeats, h.1]
    dsimp only
    rw [ih (r := { r with flaws := r.flaws ++ [(x.key, f x)] }) h.2]
    simp

theorem issue_traps (hi : issues i s = true)
    (hb : ∀ x ∈ s.seats i.maskField, body x (s.counted i.maskField) = .trap (f x)) :
    issue i body s early = s.trapNow ((s.seats i.maskField).map fun x => (x.key, f x)) := by
  simp only [issues, Bool.and_eq_true, Bool.not_eq_true', List.all_eq_true, Option.isNone_iff_eq_none] at hi
  obtain ⟨⟨hne, hop⟩, hall⟩ := hi
  have hstall : ((s.seats i.maskField).any fun x => x.stalls i) = false := by
    rw [List.any_eq_false]
    intro x hx
    obtain ⟨⟨hlook, htok⟩, hacq⟩ := hall x hx
    rw [Seat.stalls, hlook, htok, hacq]
    decide
  have hrun := runSeats_traps (r := ⟨s.counted i.maskField, [], [], []⟩) hb
  unfold State.counted at hrun
  unfold issue
  cases hs : s.seats i.maskField with
  | nil => simp [hs] at hne
  | cons x0 xs =>
    rw [hs] at hop hstall hrun
    have hop : operandFault (16 * x0.g.allot) i.opnds = none := hop
    dsimp only
    rw [hop]
    dsimp only
    rw [hstall, hrun]
    rfl

/-- R419, R423: a word at which every member meets a cause of one code traps, and has no other effect. -/
theorem traps_of {code : Nat} (he : exec i s = .next (issue i body s early)) (hi : issues i s = true)
    (hc : ∀ x, (f x).code = code)
    (hb : ∀ x ∈ s.seats i.maskField, body x (s.counted i.maskField) = .trap (f x)) :
    Traps i s ((s.seats i.maskField).map fun x => (x.key, f x)) := by
  have hne : (s.seats i.maskField).map (fun x => (x.key, f x)) ≠ [] := fun h => by
    rw [List.map_eq_nil_iff] at h
    simp [issues, h] at hi
  have htrap : exec i s = .next (s.takeTrap s.cur.key s.wordAt ((s.seats i.maskField).map fun x => (x.key, f x))) := by
    rw [he, issue_traps hi hb, trapNow_eq hne fun y hy => by obtain ⟨x, -, rfl⟩ := List.mem_map.1 hy; exact hc x]
  unfold Traps
  split
  case isTrue h => rw [htrap, takeTrap_eq, if_pos h]
  case isFalse h => exact ⟨_, htrap, takeTrap_trapped (Bool.eq_false_iff.2 h)⟩

end

end Sys2Proof.Laws
end

section
/-! SUPPORT. The seats of a unit once its word is counted, and how many of its active lanes pass a test (R140, R219). -/

namespace Sys2Proof.Laws

open Sys2Proof Sys2Proof.Machine

/-! ### Teams and seats after a change of gangs -/

section
variable {s t : State} {F : Nat → Gang → Gang}

/-- A gang after updates: those of its key, in order. -/
theorem gang_upds (s : State) (L : List (Nat × (Gang → Gang))) (k : Nat) :
    (upds s L).gang? k = (s.gang? k).map fun g => L.foldl (fun g e => if e.1 = k then e.2 g else g) g := by
  induction L generalizing s with
  | nil => exact Option.map_id_fun'.symm ▸ rfl
  | cons e L ih =>
    refine (ih (s.updGang e.1 e.2)).trans ?_
    rw [gang_updGang]
    split <;> cases s.gang? k <;> simp_all

theorem team_map (hg : ∀ k, t.gang? k = (s.gang? k).map (F k)) (hm : ∀ k g, (F k g).mates = g.mates) (key : Nat) :
    t.team key = (s.team key).map fun kg => (kg.1, F kg.1 kg.2) := by
  unfold State.team
  rw [hg key]
  cases s.gang? key with
  | none => rfl
  | some g =>
    simp only [Option.map_some, hm, List.map_filterMap, hg]
    refine List.filterMap_congr fun k _ => ?_
    cases s.gang? k <;> rfl

theorem indexFrom_map {α β : Type} (f : α → β) (k : Nat) (L : List α) :
    indexFrom k (L.map f) = (indexFrom k L).map fun e => (e.1, f e.2) := by
  induction L generalizing k with
  | nil => rfl
  | cons x L ih => rw [List.map_cons, indexFrom, ih]; rfl

theorem seats_map (hg : ∀ k, t.gang? k = (s.gang? k).map (F k)) (hm : ∀ k g, (F k g).mates = g.mates)
    (hu : ∀ k g part, (F k g).unitLanes part = g.unitLanes part) (hmask : ∀ k g, (F k g).masks = g.masks)
    (hcur : t.cur = s.cur) (mk : Nat) : t.seats mk = (s.seats mk).map fun x => { x with g := F x.key x.g } := by
  have hms : (t.team s.cur.key).filterMap (fun kg =>
      let m0 := kg.2.unitLanes s.cur.part
      if m0 == 0#32 then none
      else some (kg.1, kg.2, m0, if mk % 8 = 0 then m0 else m0 &&& Tab.at kg.2.masks 0#32 (mk % 8))) =
      ((s.team s.cur.key).filterMap fun kg =>
        let m0 := kg.2.unitLanes s.cur.part
        if m0 == 0#32 then none
        else some (kg.1, kg.2, m0, if mk % 8 = 0 then m0 else m0 &&& Tab.at kg.2.masks 0#32 (mk % 8))).map
        fun q => (q.1, F q.1 q.2.1, q.2.2) := by
    rw [team_map hg hm, List.filterMap_map, List.map_filterMap]
    refine List.filterMap_congr fun kg _ => ?_
    simp only [Function.comp, hu, hmask]
    split <;> rfl
  have hseats : t.seats mk = (indexFrom 0 ((t.team s.cur.key).filterMap (fun kg =>
      let m0 := kg.2.unitLanes s.cur.part
      if m0 == 0#32 then none
      else some (kg.1, kg.2, m0, if mk % 8 = 0 then m0 else m0 &&& Tab.at kg.2.masks 0#32 (mk % 8))))).map
      fun ix => ⟨ix.2.1, ix.2.2.1, ix.2.2.2.1, ix.2.2.2.2, ix.1 == 0⟩ := by rw [← hcur]; rfl
  rw [hseats, hms, indexFrom_map, List.map_map, State.seats, List.map_map]
  rfl

/-- Counting a word changes only what is pending. -/
theorem counted_gangs (s : State) (mk : Nat) : ∃ F : Nat → Gang → Gang,
    (∀ k, (s.counted mk).gang? k = (s.gang? k).map (F k)) ∧ ∀ k g, F k g = { g with pend := (F k g).pend } := by
  rw [counted_upds]
  refine ⟨_, gang_upds s _, fun k g => ?_⟩
  rw [List.foldl_map]
  refine List.foldlRecOn (motive := fun a : Gang => a = { g with pend := a.pend }) _ _ rfl fun a ha x _ => ?_
  split
  · exact (count_rest a x.m0).trans (by rw [ha])
  · exact ha

end

/-! ### Active lanes that pass a test -/

section
variable {s : State} {test : Seat → Nat → Bool}

/-- The active lanes of the whole unit, each with its member. -/
def unitActive (s : State) : List (Seat × Nat) := (s.seats 0).flatMap fun x => (maskLanes x.act).map fun l => (x, l)

theorem mem_unitActive {xl : Seat × Nat} : xl ∈ unitActive s ↔ xl.1 ∈ s.seats 0 ∧ xl.2 ∈ maskLanes xl.1.act := by
  obtain ⟨x, l⟩ := xl
  simp only [unitActive, List.mem_flatMap, List.mem_map, Prod.mk.injEq]
  exact ⟨fun ⟨y, hy, k, hk, hyx, hkl⟩ => hyx ▸ hkl ▸ ⟨hy, hk⟩, fun ⟨hx, hl⟩ => ⟨x, hx, l, hl, rfl, rfl⟩⟩

theorem unitCount_eq : s.unitCount test = ((unitActive s).length, (unitActive s).countP fun xl => test xl.1 xl.2) := by
  have h : ∀ (xs : List Seat) (a b : Nat), xs.foldl (fun n x =>
      (n.1 + popMask x.act, n.2 + ((maskLanes x.act).filter (test x)).length)) (a, b) =
      (a + (xs.flatMap fun x => (maskLanes x.act).map fun l => (x, l)).length,
        b + (xs.flatMap fun x => (maskLanes x.act).map fun l => (x, l)).countP fun xl => test xl.1 xl.2) := by
    intro xs
    induction xs with
    | nil => intros; rfl
    | cons x xs ih =>
      intro a b
      rw [List.foldl_cons, ih]
      rw [List.flatMap_cons, List.length_append, List.length_map, List.countP_append, List.countP_map,
        ← List.countP_eq_length_filter, Nat.add_assoc, Nat.add_assoc]
      rfl
  exact (h _ 0 0).trans (by rw [Nat.zero_add, Nat.zero_add]; rfl)

theorem unitCount_any (h : ∃ x ∈ s.seats 0, ∃ l ∈ maskLanes x.act, test x l = true) : 0 < (s.unitCount test).2 := by
  obtain ⟨x, hx, l, hl, ht⟩ := h
  rw [unitCount_eq]
  exact List.countP_pos_iff.2 ⟨(x, l), mem_unitActive.2 ⟨hx, hl⟩, ht⟩

theorem unitCount_all (h : ∀ x ∈ s.seats 0, ∀ l ∈ maskLanes x.act, test x l = true) :
    (s.unitCount test).2 = (s.unitCount test).1 := by
  rw [unitCount_eq]
  refine List.countP_eq_length.2 fun xl hxl => ?_
  obtain ⟨hx, hl⟩ := mem_unitActive.1 hxl
  exact h _ hx _ hl

theorem unitCount_none (h : ∀ x ∈ s.seats 0, ∀ l ∈ maskLanes x.act, ¬ test x l = true) : (s.unitCount test).2 = 0 := by
  rw [unitCount_eq]
  refine List.countP_eq_zero.2 fun xl hxl => ?_
  obtain ⟨hx, hl⟩ := mem_unitActive.1 hxl
  exact h _ hx _ hl

/-- Counting a word does not change which lanes pass a test of registers and masks. -/
theorem unitCount_counted (mk : Nat) (h : ∀ (x : Seat) ps, test { x with g := { x.g with pend := ps } } = test x) :
    (s.counted mk).unitCount test = s.unitCount test := by
  obtain ⟨F, hg, hF⟩ := counted_gangs s mk
  have hseats := seats_map (mk := 0) hg (fun k g => by rw [hF]) (fun k g _ => by rw [hF]; rfl) (fun k g => by rw [hF])
    (by rw [counted_rest])
  have htest : ∀ x : Seat, test { x with g := F x.key x.g } = test x := fun x => by rw [hF]; exact h x _
  simp only [State.unitCount, hseats, List.foldl_map, htest]

end

end Sys2Proof.Laws
end
section
/-! SUPPORT. The targets of format B words (R98) that hold no clause header (R454), and the settled statement. -/

namespace Sys2Proof.Laws

open Sys2Proof Sys2Proof.Machine

/-! ### Targets (R98) -/

theorem mkAddr_fields (h o : Nat) : hndOf (mkAddr h o) = h % 2 ^ 24 ∧ offOf (mkAddr h o) = o % 2 ^ 40 := by
  simp only [hndOf, offOf, fieldOf, mkAddr, BitVec.toNat_ofNat]
  omega

/-- R98: a target keeps the handle and moves by eight bytes a word, mod 2^40. -/
theorem dispTarget_fields (pc : Word64) (d : BitVec 32) : hndOf (dispTarget pc d) = hndOf pc ∧
    (offOf (dispTarget pc d) : Int) = (offOf pc + 8 * d.toInt) % 2 ^ 40 := by
  have hh : hndOf pc < 2 ^ 24 := Nat.mod_lt _ (by decide)
  obtain ⟨h1, h2⟩ := mkAddr_fields (hndOf pc) (((offOf pc : Int) + 8 * d.toInt) % 2 ^ 40).toNat
  rw [dispTarget, h1, h2]
  omega

section
variable {s t : State} {x : Seat} {m : Mask} {target : Word64}

/-- R454: lanes whose target can be fetched and holds no clause header trap with that target. -/
theorem transfer_headless (reg callee : Bool) (outs : List Out) (ht : t = { s with gangs := t.gangs })
    (hf : s.fetchFault (s.partOf x.g) (coreOf x.key) target = none)
    (hh : s.headerAt (s.partOf x.g) (coreOf x.key) target = false) (hm : m ≠ 0#32) :
    transfer reg callee x t (laneTargets m target) outs = .trap (flaw 0x02 6 m target) := by
  have hf' : t.fetchFault (t.partOf x.g) (coreOf x.key) target = none := by rw [ht]; exact hf
  have hh' : t.headerAt (t.partOf x.g) (coreOf x.key) target = false := by rw [ht]; exact hh
  have hall : ((laneTargets m target).filter fun p => (t.fetchFault (t.partOf x.g) (coreOf x.key) p.2).isNone &&
      !t.headerAt (t.partOf x.g) (coreOf x.key) p.2) = laneTargets m target :=
    List.filter_eq_self.2 fun p hp => by
      obtain ⟨l, -, rfl⟩ := List.mem_map.1 hp
      rw [hf', hh']
      rfl
  have hflaw : targetFlaw 0x02 6 (laneTargets m target) 0#64 = some (flaw 0x02 6 m target) := by
    have hmask : (maskOf fun l => (laneTargets m target).any fun b => b.1 == l) = m := mask_ext fun l hl => by
      rw [inMask_maskOf, decide_eq_true hl, Bool.true_and, Bool.eq_iff_iff]
      simp [laneTargets, mem_maskLanes]
    obtain ⟨l, ls, hls⟩ := List.exists_cons_of_ne_nil (mt maskLanes_eq_nil.1 hm)
    have hcons : laneTargets m target = (l, target) :: ls.map fun l => (l, target) := by rw [laneTargets, hls]; rfl
    rw [hcons] at hmask ⊢
    rw [targetFlaw, hmask]
  have htransfer : t.transferFlaw x reg callee (laneTargets m target) = some (flaw 0x02 6 m target) := by
    unfold State.transferFlaw
    dsimp only
    rw [hall, hflaw]
    rfl
  rw [transfer, htransfer]

/-- A seat has an issuing lane, so under the mask of all of them it has an active one. -/
theorem seat_act_ne_zero (hx : x ∈ s.seats 0) : x.act ≠ 0#32 := by
  unfold State.seats at hx
  obtain ⟨e, he, rfl⟩ := List.mem_map.1 hx
  obtain ⟨kg, -, hm⟩ := List.mem_filterMap.1 (mem_indexFrom he)
  simp only at hm
  split at hm
  case isTrue => cases hm
  case isFalse h =>
    simp only [Option.some.injEq] at hm
    rw [← hm]
    simpa using h

end

/-! ### The words -/

section
variable {i : Instr} {s : State} {body : Seat → State → SeatRes} {early : Seat → State → Option Flaw} {target : Word64}

/-- A word whose active lanes all go to one target that holds no clause header. -/
theorem traps_headless (outs : Seat → List Out) (hmk : i.maskField = 0) (he : exec i s = .next (issue i body s early))
    (hi : issues i s = true)
    (h : ∀ x ∈ s.seats 0, s.fetchFault (s.partOf x.g) (coreOf x.key) target = none ∧
      s.headerAt (s.partOf x.g) (coreOf x.key) target = false)
    (hb : ∀ x ∈ s.seats 0, body x (s.counted 0) =
      transfer false false x (s.counted 0) (laneTargets x.act target) (outs x)) :
    Traps i s (s.all 0 0x02 6 target 0#64) := by
  have ht := traps_of (f := fun x => flaw 0x02 6 x.act target) he hi (fun _ => rfl) (by
    rw [hmk]
    intro x hx
    obtain ⟨hf, hh⟩ := h x hx
    rw [hb x hx, transfer_headless false false _ (counted_rest s 0) hf hh (seat_act_ne_zero hx)])
  rwa [hmk] at ht

theorem br_headless {sense : BrSense} {mc : MNum} {hint : Hint} {disp : BitVec 32}
    (goes : Seat → Mask)
    (hg : ∀ x, goes x = x.act &&& (match sense with
      | .t => x.mask mc.toNat
      | .f => ~~~(x.mask mc.toNat)))
    (hi : issues (.br sense mc hint disp) s = true)
    (h : ∀ x ∈ s.seats 0, s.fetchFault (s.partOf x.g) (coreOf x.key) (dispTarget s.cur.pc disp) = none ∧
      s.headerAt (s.partOf x.g) (coreOf x.key) (dispTarget s.cur.pc disp) = false ∧ goes x ≠ 0#32) :
    Traps (.br sense mc hint disp) s
      ((s.seats 0).map fun x => (x.key, flaw 0x02 6 (goes x) (dispTarget s.cur.pc disp))) := by
  refine traps_of (i := .br sense mc hint disp) (f := fun x => flaw 0x02 6 (goes x) (dispTarget s.cur.pc disp)) rfl hi
    (fun _ => rfl) fun x hx => ?_
  obtain ⟨hf, hh, hne⟩ := h x hx
  have hpc : (s.counted 0).cur.pc = s.cur.pc := by rw [counted_rest]
  rw [← transfer_headless false false [] (counted_rest s 0) hf hh hne, hg]
  show transfer false false x _ (laneTargets _ (dispTarget (s.counted 0).cur.pc disp)) [] = _
  rw [hpc]
  cases sense <;> rfl

theorem brm_headless {kind : BrmKind} {mc : MNum} {hint : Hint} {disp : BitVec 32}
    (set : Seat → Nat → Prop)
    (hs : ∀ x l, set x l ↔ inMask (x.mask mc.toNat) l = true)
    (hk : match kind with
      | .any => ∃ x ∈ s.seats 0, ∃ l ∈ maskLanes x.act, set x l
      | .all => ∀ x ∈ s.seats 0, ∀ l ∈ maskLanes x.act, set x l
      | .none => ∀ x ∈ s.seats 0, ∀ l ∈ maskLanes x.act, ¬ set x l)
    (hi : issues (.brm kind mc hint disp) s = true)
    (h : ∀ x ∈ s.seats 0, s.fetchFault (s.partOf x.g) (coreOf x.key) (dispTarget s.cur.pc disp) = none ∧
      s.headerAt (s.partOf x.g) (coreOf x.key) (dispTarget s.cur.pc disp) = false) :
    Traps (.brm kind mc hint disp) s (s.all 0 0x02 6 (dispTarget s.cur.pc disp) 0#64) := by
  have hpc : (s.counted 0).cur.pc = s.cur.pc := by rw [counted_rest]
  have hcount := unitCount_counted (s := s) (test := fun y l => inMask (y.mask mc.toNat) l) 0 fun _ _ => rfl
  simp only [hs] at hk
  refine traps_headless (fun _ => []) rfl rfl hi h fun x _ => ?_
  dsimp only
  rw [hcount, hpc]
  cases kind with
  | any => simp only [unitCount_any hk, decide_true, if_true]
  | all => simp only [unitCount_all hk, decide_true, if_true]
  | none => simp only [unitCount_none hk, decide_true, if_true]

/-- R219: the stored K that BSIG compares in a lane. -/
def bsigLow (kind : BsigKind) (va : VNum) (thr : BitVec 6) (x : Seat) (l : Nat) : Bool :=
  let wide := kind == .anyD || kind == .allD
  decide (storedK (if wide then .f64 else .f32) (pairLane (x.g.rd (if wide then 2 else 1) va.toNat) l) < thr.toNat)

theorem bsigLow_iff {kind : BsigKind} {va : VNum} {thr : BitVec 6} {x : Seat} {l : Nat} : bsigLow kind va thr x l = true ↔
    (if kind = .anyD ∨ kind = .allD then storedK .f64 (pairLane (x.g.rd 2 va.toNat) l)
      else storedK .f32 (pairLane (x.g.rd 1 va.toNat) l)) < thr.toNat := by
  cases kind <;> simp [bsigLow]

theorem bsig_headless {kind : BsigKind} {va : VNum} {thr : BitVec 6} {hint : Hint} {disp : BitVec 32}
    (hi : issues (.bsig kind va thr hint disp) s = true)
    (hk : if kind = .any ∨ kind = .anyD then ∃ x ∈ s.seats 0, ∃ l ∈ maskLanes x.act, bsigLow kind va thr x l = true
      else ∀ x ∈ s.seats 0, ∀ l ∈ maskLanes x.act, bsigLow kind va thr x l = true)
    (h : ∀ x ∈ s.seats 0, s.fetchFault (s.partOf x.g) (coreOf x.key) (dispTarget s.cur.pc disp) = none ∧
      s.headerAt (s.partOf x.g) (coreOf x.key) (dispTarget s.cur.pc disp) = false) :
    Traps (.bsig kind va thr hint disp) s (s.all 0 0x02 6 (dispTarget s.cur.pc disp) 0#64) := by
  have hpc : (s.counted 0).cur.pc = s.cur.pc := by rw [counted_rest]
  have hcount := unitCount_counted (s := s) (test := bsigLow kind va thr) 0 fun _ _ => rfl
  have htaken : (if kind == .any || kind == .anyD then decide (0 < ((s.counted 0).unitCount (bsigLow kind va thr)).2)
      else decide (((s.counted 0).unitCount (bsigLow kind va thr)).2 = ((s.counted 0).unitCount (bsigLow kind va thr)).1)) =
      true := by
    rw [hcount]
    cases kind with
    | any => exact decide_eq_true (unitCount_any hk)
    | anyD => exact decide_eq_true (unitCount_any hk)
    | all => exact decide_eq_true (unitCount_all hk)
    | allD => exact decide_eq_true (unitCount_all hk)
  refine traps_headless (fun _ => []) rfl rfl hi h fun x _ => ?_
  exact (congrArg (transfer false false x (s.counted 0) · []) (if_pos htaken)).trans (by rw [hpc])

end

/-- Settles O21: every member's transfer meets `transfer_headless`; the hint stands in no part of a meaning. -/
theorem formatBTargets : Obligations.FormatBTargets := by
  refine ⟨dispTarget_fields, fun s sense mc hint disp hi => ?_, fun s kind mc hint disp hi => ?_,
    fun s kind va thr hint disp hi => ?_, fun s vd hint disp hi => ?_,
    fun s h k disp => ⟨fun _ _ => rfl, fun _ _ => rfl, fun _ _ _ => rfl, fun _ => rfl⟩⟩
  · intro target goes h
    exact br_headless goes (fun _ => rfl) hi h
  · intro target set hk h
    exact brm_headless set (fun _ _ => Iff.rfl) hk hi h
  · intro target low hk h
    refine bsig_headless hi ?_ h
    simp only [bsigLow_iff]
    exact hk
  · intro target h
    have hpc : (s.counted 0).cur.pc = s.cur.pc := by rw [counted_rest]
    exact traps_headless _ rfl rfl hi h fun x _ => by rw [hpc]

end Sys2Proof.Laws
end


section
/-! SUPPORT. The pair word (R102-R104): each compact operation gives lane by lane what its full statement gives. -/

namespace Sys2Proof.Laws

open Sys2Proof Sys2Proof.Machine

/-! ### Integer lanes -/

/-- A result is taken mod 2^w (R112). -/
theorem wrTy_congr {t : IntTy} {x y : Int} (h : x % 2 ^ t.width = y % 2 ^ t.width) : wrTy t x = wrTy t y := by
  unfold wrTy
  split
  case isFalse => rw [h]
  case isTrue ht =>
    have hw : t.width = 64 := by simpa [tyWide] using ht
    rw [hw] at h
    rw [wr64, wr64, word64, word64]
    congr 1
    apply BitVec.eq_of_toNat_eq
    simp only [BitVec.toNat_ofInt]
    exact congrArg Int.toNat h

theorem rawVal_lt (w : Nat) (p : Pair) : rawVal w p < 2 ^ w := Nat.mod_lt _ (by positivity)

theorem bitsLane_and (a b : Pair) : bitsLane (· &&& ·) .w32 a b =
    wrTy .w32 ((rawVal 32 a &&& rawVal 32 b : Nat) : Int) := by
  have ha := rawVal_lt 32 a
  have hb := rawVal_lt 32 b
  have hab := Nat.and_lt_two_pow (rawVal 32 a) hb
  simp only [bitsLane, IntTy.width, BitVec.toNat_and, BitVec.toNat_ofNat]
  rw [Nat.mod_eq_of_lt (by omega), Nat.mod_eq_of_lt (by omega)]

theorem bitsLane_or (a b : Pair) : bitsLane (· ||| ·) .w32 a b =
    wrTy .w32 ((rawVal 32 a ||| rawVal 32 b : Nat) : Int) := by
  have ha := rawVal_lt 32 a
  have hb := rawVal_lt 32 b
  simp only [bitsLane, IntTy.width, BitVec.toNat_or, BitVec.toNat_ofNat]
  rw [Nat.mod_eq_of_lt (by omega), Nat.mod_eq_of_lt (by omega)]

theorem bitsLane_xor (a b : Pair) : bitsLane (· ^^^ ·) .w32 a b =
    wrTy .w32 ((rawVal 32 a ^^^ rawVal 32 b : Nat) : Int) := by
  have ha := rawVal_lt 32 a
  have hb := rawVal_lt 32 b
  simp only [bitsLane, IntTy.width, BitVec.toNat_xor, BitVec.toNat_ofNat]
  rw [Nat.mod_eq_of_lt (by omega), Nat.mod_eq_of_lt (by omega)]

theorem shiftLane_shl (t : IntTy) (a : Pair) (c : Nat) :
    shiftLane .shl t a c = wrTy t ((rawVal t.width a * 2 ^ c : Nat) : Int) := by
  unfold shiftLane
  dsimp only
  split
  case isTrue => rfl
  case isFalse h =>
    refine wrTy_congr ?_
    have hd : 2 ^ t.width ∣ rawVal t.width a * 2 ^ c := Dvd.dvd.mul_left (pow_dvd_pow 2 (by omega)) _
    have hi : (2 ^ t.width : Int) ∣ ((rawVal t.width a * 2 ^ c : Nat) : Int) := by exact_mod_cast hd
    rw [Int.emod_eq_zero_of_dvd hi]
    rfl

theorem shiftLane_shr (t : IntTy) (a : Pair) (c : Nat) :
    shiftLane .shr t a c = wrTy t ((rawVal t.width a / 2 ^ c : Nat) : Int) := by
  unfold shiftLane
  dsimp only
  split
  case isTrue => rfl
  case isFalse h =>
    have hle : 2 ^ t.width ≤ 2 ^ c := Nat.pow_le_pow_right (by omega) (by omega)
    rw [Nat.div_eq_of_lt (lt_of_lt_of_le (rawVal_lt _ a) hle)]

theorem toSigned_bounds (w : Nat) (x : Nat) : -2 ^ w ≤ toSigned w x ∧ toSigned w x < 2 ^ w := by
  unfold toSigned
  have h0 : (0 : Int) < 2 ^ w := by positivity
  have h1 := Int.emod_nonneg (x : Int) h0.ne'
  have h2 := Int.emod_lt_of_pos (x : Int) h0
  split <;> constructor <;> linarith

/-- Shifts past the width leave copies of the sign, as the shift by the width does. -/
theorem div_two_pow_min {w : Nat} {x : Int} (hl : -2 ^ w ≤ x) (hh : x < 2 ^ w) (c : Nat) : x / 2 ^ min c w = x / 2 ^ c := by
  rcases le_total c w with h | h
  · rw [min_eq_left h]
  · rw [min_eq_right h]
    have hw : (0 : Int) < 2 ^ w := by positivity
    have hc : (2 ^ w : Int) ≤ 2 ^ c := pow_le_pow_right₀ (by norm_num) h
    rcases lt_or_ge x 0 with hx | hx
    · have hneg : ∀ m : Int, 2 ^ w ≤ m → x / m = -1 := fun m hm => by
        rw [Int.ediv_eq_iff_of_pos (by linarith)]
        constructor <;> linarith
      rw [hneg _ le_rfl, hneg _ hc]
    · rw [Int.ediv_eq_zero_of_lt hx hh, Int.ediv_eq_zero_of_lt hx (by linarith)]

theorem shiftLane_sar (t : IntTy) (a : Pair) (c : Nat) :
    shiftLane .sar t a c = wrTy t (toSigned t.width (rawVal t.width a) / 2 ^ c) := by
  obtain ⟨hl, hh⟩ := toSigned_bounds t.width (rawVal t.width a)
  rw [shiftLane, div_two_pow_min hl hh]

theorem shiftLane_rot (a : Pair) (c : Nat) : shiftLane .rot .w32 a c =
    wrTy .w32 (((rawVal 32 a * 2 ^ 32 + rawVal 32 a) / 2 ^ (c % 32) : Nat) : Int) := by
  refine wrTy_congr ?_
  simp only [IntTy.width]
  generalize rawVal 32 a = x
  have hk : c % 32 < 32 := Nat.mod_lt _ (by omega)
  generalize c % 32 = k at hk
  have hpow : 2 ^ 32 = 2 ^ (32 - k) * 2 ^ k := by rw [← pow_add]; congr 1; omega
  have hdiv : (x * 2 ^ 32 + x) / 2 ^ k = x / 2 ^ k + x * 2 ^ (32 - k) := by
    rw [hpow, ← mul_assoc, Nat.add_comm, Nat.add_mul_div_right _ _ (Nat.two_pow_pos k)]
  rw [hdiv]
  push_cast
  rw [Int.add_emod, Int.emod_emod, ← Int.add_emod]

theorem absLane_wrap (a : Pair) : absLane .s32 false a = wrTy .s32 |intVal .s32 a| := by
  unfold absLane
  dsimp only
  split
  case isTrue h =>
    have hx : intVal .s32 a = tyMin .s32 := by simpa using h
    rw [hx]
    exact wrTy_congr (by decide)
  case isFalse => rw [Int.abs_eq_natAbs]

/-- Leading zeros, by the length of the number. -/
theorem clzNat_eq {w x : Nat} : clzNat w x = w - Nat.size x := by
  unfold clzNat
  split
  case isTrue h => rw [h, Nat.size_zero, Nat.sub_zero]
  case isFalse h =>
    have hsize : x.size = x.log2 + 1 := le_antisymm (Nat.size_le.2 (Nat.lt_log2_self)) (Nat.lt_size.2 (Nat.log2_self_le h))
    omega

theorem popNat_eq (w x : Nat) : popNat w x = (List.range w).countP fun i => x.testBit i := List.countP_eq_length_filter.symm

/-- The first `n` bits moved, as the model folds over them, are those bits reversed at the top. -/
theorem brev_fold {w x n : Nat} (hn : n ≤ w) :
    (List.range n).foldl (fun r i => if x.testBit i then r + 2 ^ (w - 1 - i) else r) 0 =
      2 ^ (w - n) * (BitVec.ofNat n x).reverse.toNat := by
  induction n with
  | zero => rw [BitVec.eq_nil (BitVec.ofNat 0 x).reverse]; rfl
  | succ n ih =>
    have hrev : (BitVec.ofNat (n + 1) x).reverse.toNat =
        2 * (BitVec.ofNat n x).reverse.toNat + (x.testBit n).toNat := by
      rw [BitVec.reverse, BitVec.toNat_concat]
      have htr : (BitVec.ofNat (n + 1) x).setWidth n = BitVec.ofNat n x := by
        apply BitVec.eq_of_getLsbD_eq
        intro i hi
        simp [hi]
      have hmsb : (BitVec.ofNat (n + 1) x).msb = x.testBit n := by rw [BitVec.msb_eq_getLsbD_last, BitVec.getLsbD_ofNat]; simp
      rw [← htr, hmsb, mul_comm]
    have hpow : 2 ^ (w - n) = 2 ^ (w - (n + 1)) * 2 := by rw [← pow_succ]; congr 1; omega
    have hexp : w - 1 - n = w - (n + 1) := by omega
    rw [List.range_succ, List.foldl_append, ih (by omega), hrev, hpow]
    simp only [List.foldl_cons, List.foldl_nil, hexp]
    cases x.testBit n
    · simp only [Bool.false_eq_true, if_false, Bool.toNat_false]; ring
    · simp only [if_true, Bool.toNat_true]; ring

theorem brevNat_eq (w x : Nat) : brevNat w x = (BitVec.ofNat w x).reverse.toNat := by
  rw [brevNat, brev_fold le_rfl, Nat.sub_self, pow_zero, one_mul]

/-! ### The integer operations -/

/-- A register as it stands agrees with its lanes read as a source. -/
theorem reg_agree (x : Seat) (d : Nat) (a : VNum) (act : Mask) :
    Agree act [.reg d (x.g.reg a.toNat)] (outReg 1 d (x.src 1 a .none)) := by
  refine ⟨fun r l hl => ?_, fun _ _ _ => rfl, fun r h o ho v hv => ?_⟩
  · have hlane : (x.g.reg a.toNat).lane l = (VReg.ofLanes ((x.src 1 a .none).map (·.1))).lane l := by
      have hlanes := at_lanes (x.g.reg a.toNat) (inMask_lt hl)
      simp only [Seat.src, permuted, Gang.rd, show ¬ (1 = 2) from by omega, if_false]
      rw [← hlanes]
      cases (x.g.reg a.toNat).lanes with
      | uni z => rfl
      | gen zs => simp [Lanes.map, VReg.ofLanes, VReg.lane, Lanes.at, Function.comp_def]
    simp [outReg, resultLane, hlane]
  · rw [List.mem_singleton] at ho
    rw [ho, Out.reg.injEq] at hv
    exact h (.reg d _) (by simp [outReg]; rfl) _ (by rw [hv.1])

/-- The affine shift has the lanes of the lane-wise one (R38). -/
theorem affShl_lane {x : Seat} {a b : VNum} {y : Img} (hb : x.shape b .none = .uniform y) {r : VReg}
    (h : affShl (x.shape a .none) (y.val.toNat % 256) = some r) {l : Nat} (hl : l < 32) :
    r.lane l = (VReg.ofLanes ((Lanes.map2 (fun p q => shiftLane .shl .w32 p (shiftCount q)) (x.src 1 a .none)
      (x.src 1 b .none)).map (·.1))).lane l := by
  cases ha : x.shape a .none with
  | uniform z => rw [ha] at h; cases h
  | general z => rw [ha] at h; cases h
  | affine p q =>
    rw [ha] at h
    simp only [affShl, Option.some.injEq] at h
    rw [shape_uniform hb, shape_affine ha]
    simp only [Lanes.map2, List.map_map]
    rw [lane_gen _ hl, ← h]
    simp only [Function.comp, shl_img (t := .w32) rfl rfl, shiftCount, intImg]
    split
    case isTrue =>
      simp only [VReg.lane, intImg]
      congr 1
      simp only [BitVec.shiftLeft_eq_mul_twoPow]
      ring
    case isFalse => simp [VReg.lane, intImg]

/-- The results of a compact operation that is not of the FP class. -/
theorem compactInt_agree {x : Seat} {c : Compact} (hf : isFpCop c.op = false) (hn : c.op ≠ .nop) :
    Agree (x.m0 &&& x.mask c.msk.toNat) (compactInt x c (x.m0 &&& x.mask c.msk.toNat))
      (outReg 1 c.d.toNat (compactVal x c)) := by
  have hd : (c.d.setWidth 8).toNat = c.d.toNat := by
    rw [BitVec.toNat_setWidth, Nat.mod_eq_of_lt (by omega)]
  unfold compactInt compactVal
  cases ho : c.op <;> simp only [ho] at hf hn ⊢
  case nop => exact absurd rfl hn
  case faddF32 | fsubF32 | fmulF32 | fminF32 | fmaxF32 => cases hf
  case movW32 => exact reg_agree _ _ _ _
  case addS32 => rw [← hd]; exact orAffine_agree fun r hr l hl => affSum_lane rfl hr hl
  case subS32 => rw [← hd]; exact orAffine_agree fun r hr l hl => affSum_lane rfl hr hl
  case mulS32 => rw [← hd]; exact orAffine_agree fun r hr l hl => affMul_lane rfl hr hl
  case mulhS32 | mulhZ32 | minS32 | maxS32 | minZ32 | maxZ32 => exact agree_refl _ _
  case andW32 => simp only [← bitsLane_and]; exact agree_refl _ _
  case orW32 => simp only [← bitsLane_or]; exact agree_refl _ _
  case xorW32 => simp only [← bitsLane_xor]; exact agree_refl _ _
  case shlW32 =>
    have hlane : ∀ a n, shiftLane .shl .w32 a n = wrTy .w32 ((rawVal 32 a * 2 ^ n : Nat) : Int) := shiftLane_shl .w32
    simp only [← hlane]
    rw [← hd]
    refine orAffine_agree fun r hr l hl => ?_
    split at hr
    case h_1 hb => exact affShl_lane hb hr hl
    case h_2 => cases hr
  case shrW32 =>
    have hlane : ∀ a n, shiftLane .shr .w32 a n = wrTy .w32 ((rawVal 32 a / 2 ^ n : Nat) : Int) := shiftLane_shr .w32
    simp only [← hlane]
    exact agree_refl _ _
  case sarS32 =>
    have hlane : ∀ a n, shiftLane .sar .s32 a n = wrTy .s32 (toSigned 32 (rawVal 32 a) / 2 ^ n) := shiftLane_sar .s32
    simp only [← hlane]
    exact agree_refl _ _
  case rotW32 => simp only [← shiftLane_rot]; exact agree_refl _ _
  case absS32 => simp only [← absLane_wrap]; exact agree_refl _ _
  case clzW32 => simp only [← clzNat_eq]; exact agree_refl _ _
  case popcW32 => simp only [← popNat_eq]; exact agree_refl _ _
  case brevW32 => simp only [← brevNat_eq]; exact agree_refl _ _

/-! ### The significance floor -/

/-- A trusted result meets no significance trap (R185). -/
theorem floorFlaw_of_trusted {x : Seat} {c : FpCls} {v : Lanes Pair} (h : Trusted x c v) (detail : Nat → Nat) :
    floorFlaw x c v detail = none := by
  have hfloor : x.g.floor = x.g.sigfloor.toNat % 64 := by
    simp [Gang.floor, fieldOf]
  unfold floorFlaw
  rw [hfloor]
  obtain h | h | h := h
  · rw [h]; rfl
  · have htrap : x.g.inTrap = true := h
    rw [htrap, Bool.or_true]
    rfl
  · have hlow : (maskOf fun l => inMask x.act l && decide (storedK c (pairLane v l) < x.g.sigfloor.toNat % 64)) = 0#32 :=
      mask_ext fun l hl => by
        rw [inMask_maskOf, decide_eq_true hl, Bool.true_and]
        cases ha : inMask x.act l with
        | false => simp [inMask]
        | true => simp [inMask, h l ha]
    dsimp only
    rw [hlow]
    exact ite_self _

/-- A compact operation of the FP class gives the value of its full statement. -/
theorem compactFp_eq {x : Seat} {c : Compact} (hf : isFpCop c.op = true) :
    ∃ n, compactFp x c (x.m0 &&& x.mask c.msk.toNat) = some (compactVal x c, n) := by
  unfold compactFp compactVal
  cases ho : c.op <;> simp only [ho] at hf ⊢
  case faddF32 | fsubF32 | fmulF32 | fminF32 | fmaxF32 => exact ⟨_, rfl⟩
  all_goals cases hf

theorem compactFp_none {x : Seat} {c : Compact} {act : Mask} (hf : isFpCop c.op = false) : compactFp x c act = none := by
  unfold compactFp
  cases ho : c.op <;> simp only [ho] at hf ⊢
  all_goals cases hf

/-! ### The word -/

/-- The results that the statement gives a compact operation. -/
def compactOuts (x : Seat) (c : Compact) : List Out := if c.op = .nop then [] else outReg 1 c.d.toNat (compactVal x c)

/-- A compact operation whose floor lets it pass gives results that agree with those of its full statement. -/
theorem compactRes_ok {x : Seat} {c : Compact}
    (h : isFpCop c.op = true → Trusted { x with act := x.m0 &&& x.mask c.msk.toNat } .f32 (compactVal x c)) :
    ∃ os, compactRes x c = .ok (os.map fun o => (x.m0 &&& x.mask c.msk.toNat, o)) ∧
      Agree (x.m0 &&& x.mask c.msk.toNat) os (compactOuts x c) := by
  unfold compactRes compactOuts
  dsimp only
  cases hf : isFpCop c.op with
  | true =>
    obtain ⟨n, hn⟩ := compactFp_eq (x := x) hf
    have hop : c.op ≠ .nop := by rintro ho; rw [ho] at hf; cases hf
    refine ⟨outReg 1 c.d.toNat (compactVal x c), ?_, by rw [if_neg hop]; exact agree_refl _ _⟩
    rw [hn]
    dsimp only
    rw [floorFlaw_of_trusted (h hf)]
  | false =>
    refine ⟨compactInt x c (x.m0 &&& x.mask c.msk.toNat), by rw [compactFp_none hf], ?_⟩
    split
    case isTrue hop => simp only [compactInt, hop]; exact agree_refl _ _
    case isFalse hop => exact compactInt_agree hf hop

/-- Results with their lanes that no register or mask tells apart. -/
def SameResults (os os' : List (Mask × Out)) : Prop :=
  (∀ r l, l < 32 → resultLane os r l = resultLane os' r l) ∧ (∀ k l, l < 32 → resultMask os k l = resultMask os' k l) ∧
    ∀ r, (∀ mo ∈ os', ∀ v, mo.2 ≠ .reg r v) → ∀ mo ∈ os, ∀ v, mo.2 ≠ .reg r v

theorem sameResults_of_agree {act : Mask} {os os' : List Out} (h : Agree act os os') :
    SameResults (os.map fun o => (act, o)) (os'.map fun o => (act, o)) := by
  obtain ⟨h1, h2, h3⟩ := h
  refine ⟨fun r l _ => ?_, fun k l _ => ?_, fun r hn mo hmo v => ?_⟩
  · cases ha : inMask act l with
    | true => exact h1 r l ha
    | false => exact (resultLane_inactive _ r ha).trans (resultLane_inactive _ r ha).symm
  · cases ha : inMask act l with
    | true => exact h2 k l ha
    | false => exact (resultMask_inactive _ k ha).trans (resultMask_inactive _ k ha).symm
  · obtain ⟨o, ho, rfl⟩ := List.mem_map.1 hmo
    exact h3 r (fun o' ho' w => hn (act, o') (List.mem_map.2 ⟨o', ho', rfl⟩) w) o ho v

theorem sameResults_append {us us' vs vs' : List (Mask × Out)} (hu : SameResults us us') (hv : SameResults vs vs') :
    SameResults (us ++ vs) (us' ++ vs') := by
  obtain ⟨hu1, hu2, hu3⟩ := hu
  obtain ⟨hv1, hv2, hv3⟩ := hv
  refine ⟨fun r l hl => ?_, fun k l hl => ?_, fun r hn mo hmo => ?_⟩
  · rw [resultLane_append, resultLane_append, hu1 r l hl, hv1 r l hl]
  · rw [resultMask_append, resultMask_append, hu2 k l hl, hv2 k l hl]
  · obtain hmo | hmo := List.mem_append.1 hmo
    · exact hu3 r (fun mo h => hn mo (List.mem_append_left _ h)) mo hmo
    · exact hv3 r (fun mo h => hn mo (List.mem_append_right _ h)) mo hmo

/-- The results that a member's pair word has in the model; none where it traps. -/
def pairOuts (p q : Compact) (x : Seat) : List (Mask × Out) :=
  match compactRes x p, compactRes x q with
  | .ok us, .ok vs => us ++ vs
  | _, _ => []

/-- Both operations of a trusted pair word pass, each from the registers as they were (R104). -/
theorem pairWord_completes {s : State} {p q : Compact} (hi : issues (.pairWord p q) s = true)
    (h : ∀ x ∈ s.seats 0, ∀ c, c = p ∨ c = q → isFpCop c.op = true →
      Trusted { x with act := x.m0 &&& x.mask c.msk.toNat } .f32 (compactVal x c)) :
    Completes (.pairWord p q) s (s.counted 0) (fun x =>
      [p, q].flatMap fun c => (compactOuts x c).map fun o => (x.m0 &&& x.mask c.msk.toNat, o)) (fun _ => []) := by
  refine ⟨_, rfl, moved_congr (issue_results (pairOuts p q) _ hi fun x hx u _ _ => ?_) fun x hx => ?_⟩
  · obtain ⟨us, hus, -⟩ := compactRes_ok (h x hx p (.inl rfl))
    obtain ⟨vs, hvs, -⟩ := compactRes_ok (h x hx q (.inr rfl))
    simp only [pairOuts, hus, hvs]
  · obtain ⟨us, hus, hu⟩ := compactRes_ok (h x hx p (.inl rfl))
    obtain ⟨vs, hvs, hv⟩ := compactRes_ok (h x hx q (.inr rfl))
    have hsame := sameResults_append (sameResults_of_agree hu) (sameResults_of_agree hv)
    simp only [pairOuts, hus, hvs, List.flatMap_cons, List.flatMap_nil, List.append_nil]
    exact hsame

/-- Settles O20: both operations read one state; each result agrees with its full statement's lane by lane. -/
theorem pairWord : Obligations.PairWord := by
  refine ⟨fun s p q hi hopen => ?_, fun s p q hi h => ?_⟩
  · obtain ⟨t, he, hmoved⟩ := pairWord_completes hi fun x hx c _ _ => (hopen x hx).imp_right .inl
    exact ⟨t, _, he, hmoved⟩
  · have houts : ∀ x : Seat, ∀ c : Compact, ((compactOuts x c).map fun o => (x.m0 &&& x.mask c.msk.toNat, o)) =
        if c.op = .nop then [] else (outReg 1 c.d.toNat (compactVal x c)).map fun o => (x.m0 &&& x.mask c.msk.toNat, o) :=
      fun x c => by
        unfold compactOuts
        split <;> rfl
    simpa only [houts] using pairWord_completes hi h

end Sys2Proof.Laws
end


section
/-! SUPPORT. What an acquire leaves alone (R268, R269), and the entry of a clause (R85). -/

namespace Sys2Proof.Laws

open Sys2Proof Sys2Proof.Machine

/-! ### Acquires -/

/-- Only memory and what locations and buffers hold of the writes has changed. -/
def OnlyViews (s t : State) : Prop := t = { s with mem := t.mem, held := t.held, log := t.log, bufs := t.bufs }

theorem onlyViews_refl (s : State) : OnlyViews s s := rfl

theorem onlyViews_trans {s t u : State} (h : OnlyViews s t) (h' : OnlyViews t u) : OnlyViews s u := by
  unfold OnlyViews at h h' ⊢
  rw [h', h]

theorem onlyViews_foldl {α : Type} (f : State → α → State) (h : ∀ s a, OnlyViews s (f s a)) (L : List α) (s : State) :
    OnlyViews s (L.foldl f s) :=
  List.foldlRecOn L f (motive := OnlyViews s) (onlyViews_refl s) fun _ hb a _ => onlyViews_trans hb (h _ a)

theorem applyGranule_views (s : State) (loc g k : Nat) : OnlyViews s (s.applyGranule loc g k) := by
  unfold State.applyGranule
  dsimp only
  split <;> rfl

theorem propagateWrite_views (s : State) (w : GWrite) (q : Nat) : OnlyViews s (s.propagateWrite w q) :=
  onlyViews_trans (onlyViews_foldl _ (fun _ _ => applyGranule_views _ _ _ _) _ s) rfl

theorem replicateWrite_views (s : State) (w : GWrite) (q : Nat) : OnlyViews s (s.replicateWrite w q) := rfl

theorem acquireWrite_views (s : State) (q id : Nat) : OnlyViews s (s.acquireWrite q id) := by
  unfold State.acquireWrite
  split
  case h_1 => rfl
  case h_2 w _ =>
    split
    case isTrue => exact propagateWrite_views s w q
    case isFalse =>
      split
      case isFalse => rfl
      case isTrue =>
        split
        case isTrue => rfl
        case isFalse => exact replicateWrite_views s w q

theorem acquire_views (s : State) (key : Nat) (o : Obj) : OnlyViews s (s.acquire key o) :=
  onlyViews_foldl _ (fun _ _ => acquireWrite_views _ _ _) _ s

theorem observeLine_views (s : State) (key core line : Nat) (n : BitVec 32) : OnlyViews s (s.observeLine key core line n) :=
  onlyViews_foldl _ (fun _ _ => acquire_views _ _ _) _ s

theorem gang_views {s t : State} (h : OnlyViews s t) (k : Nat) : t.gang? k = s.gang? k := by rw [h]; rfl

/-! ### A member enters a clause -/

/-- A member once it has consumed an event of the header's line, if the header names one (R291). -/
def lineSeen (line : Nat) (g : Gang) : Gang :=
  if line = 0 then g else { g with seen := Tab.put g.seen line (Tab.at g.seen 0#32 line + 1#32) }

theorem lineSeen_at (line : Nat) (g : Gang) (n : Nat) : Tab.at (lineSeen line g).seen 0#32 n =
    Tab.at g.seen 0#32 n + if n = line ∧ n ≠ 0 then 1#32 else 0#32 := by
  unfold lineSeen
  split
  case isTrue h =>
    rw [if_neg (by rw [h]; exact fun ⟨hn, hne⟩ => hne hn), BitVec.add_zero]
  case isFalse h =>
    dsimp only
    rw [at_put]
    split
    case isTrue hn => rw [if_pos ⟨hn.symm, hn ▸ h⟩, hn]
    case isFalse hn => rw [if_neg fun hc => hn hc.1.symm, BitVec.add_zero]

/-- What the model does to one member at a header. -/
def entersClause (part : Nat) (w : Word64) (s : State) (key : Nat) : State :=
  (if fieldOf w 40 4 = 0 then s else s.consume key (fieldOf w 40 4)).updGang key fun g => g.enterClause part w

/-- One state follows another as a member's entry leaves it: cores, queues and the rest stand, and without a line all but
the gangs. -/
structure EntryRest (w : Word64) (s t : State) : Prop where
  rest : t = { s with gangs := t.gangs, mem := t.mem, held := t.held, log := t.log, bufs := t.bufs }
  plain : fieldOf w 40 4 = 0 → t = { s with gangs := t.gangs }

theorem EntryRest.trans {w : Word64} {s t u : State} (h : EntryRest w s t) (h' : EntryRest w t u) : EntryRest w s u :=
  ⟨by rw [h'.rest, h.rest], fun hw => rest_trans (h.plain hw) (h'.plain hw)⟩

theorem consume_gang (s : State) (key line k : Nat) (hl : line ≠ 0) :
    (s.consume key line).gang? k = if key = k then (s.gang? k).map (lineSeen line) else s.gang? k := by
  unfold State.consume
  cases hg : s.gang? key with
  | none =>
    dsimp only
    split
    case isTrue h => rw [← h, hg]; rfl
    case isFalse => rfl
  | some g =>
    dsimp only
    rw [gang_views (observeLine_views _ _ _ _ _), gang_setGang]
    split
    case isTrue h => rw [← h, hg, Option.map_some, lineSeen, if_neg hl]
    case isFalse => rfl

theorem consume_rest (s : State) (key line : Nat) : s.consume key line = { s with
    gangs := (s.consume key line).gangs, mem := (s.consume key line).mem, held := (s.consume key line).held,
    log := (s.consume key line).log, bufs := (s.consume key line).bufs } := by
  unfold State.consume
  split
  case h_1 => rfl
  case h_2 g _ =>
    have h := observeLine_views (s.setGang key { g with seen := Tab.put g.seen line (Tab.at g.seen 0#32 line + 1#32) })
      key (coreOf key) line (Tab.at g.seen 0#32 line + 1#32)
    dsimp only
    generalize State.observeLine _ key (coreOf key) line _ = t at h ⊢
    rw [h]
    rfl

theorem entersClause_gang (part : Nat) (w : Word64) (s : State) (key k : Nat) : (entersClause part w s key).gang? k =
    if key = k then (s.gang? k).map (fun g => (lineSeen (fieldOf w 40 4) g).enterClause part w) else s.gang? k := by
  unfold entersClause
  rw [gang_updGang]
  by_cases hw : fieldOf w 40 4 = 0
  · simp only [hw, if_true, lineSeen]
  · rw [if_neg hw, consume_gang _ _ _ _ hw]
    split
    case isTrue => rw [Option.map_map]; rfl
    case isFalse => rfl

theorem entersClause_rest (part : Nat) (w : Word64) (s : State) (key : Nat) : EntryRest w s (entersClause part w s key) := by
  unfold entersClause
  by_cases hw : fieldOf w 40 4 = 0
  · rw [if_pos hw]
    have h := updGang_rest s key (fun g => g.enterClause part w)
    exact ⟨by rw [h], fun _ => h⟩
  · rw [if_neg hw]
    refine ⟨?_, fun h => absurd h hw⟩
    rw [updGang_rest, consume_rest]

/-- Members enter one after another, each as it stood. -/
theorem entersClause_fold (part : Nat) (w : Word64) (ks : List Nat) (hn : ks.Nodup) (s : State) :
    EntryRest w s (ks.foldl (entersClause part w) s) ∧ ∀ k, (ks.foldl (entersClause part w) s).gang? k =
      if k ∈ ks then (s.gang? k).map (fun g => (lineSeen (fieldOf w 40 4) g).enterClause part w) else s.gang? k := by
  induction ks generalizing s with
  | nil => exact ⟨⟨rfl, fun _ => rfl⟩, fun k => (if_neg List.not_mem_nil).symm⟩
  | cons key ks ih =>
    obtain ⟨hkey, hks⟩ := List.nodup_cons.1 hn
    obtain ⟨hrest, hgang⟩ := ih hks (entersClause part w s key)
    refine ⟨(entersClause_rest part w s key).trans hrest, fun k => ?_⟩
    rw [List.foldl_cons, hgang, entersClause_gang]
    by_cases h : key = k
    · rw [if_neg (h ▸ hkey), if_pos h, if_pos (List.mem_cons.2 (.inl h.symm))]
    · simp only [if_neg h, List.mem_cons, Ne.symm h, false_or]

/-! ### A unit at a header -/

section
variable {s : State} {core ctx part : Nat} {u : Machine.Unit}

theorem clauseEntry_eq (hu : s.unit? core ctx part = some u) (hd : s.nextDeferred u.key = none) (hr : u.flow.rem = 0) :
    exec (.clauseEntry core ctx part) s = .next (s.enterClause u part) := by
  show execClauseEntry core ctx part s = _
  simp only [execClauseEntry, hu, hd, hr, Option.isSome_none, Bool.false_or, bne_self_eq_false, Bool.false_eq_true, if_false]

theorem unit_team_ne_nil (hu : s.unit? core ctx part = some u) : s.team u.key ≠ [] := by
  unfold State.unit? at hu
  split at hu
  case h_1 => cases hu
  case h_2 key _ =>
    split at hu
    case isTrue => cases hu
    case isFalse =>
      obtain ⟨kg, hkg, hv⟩ := List.exists_of_findSome?_eq_some hu
      obtain ⟨l, -, rfl⟩ := Option.map_eq_some_iff.1 hv
      exact List.ne_nil_of_mem hkg

theorem unitWord_eq (hk : s.kept? u part = none) :
    s.unitWord u part = s.fetchAt (((s.gang? u.key).map s.partOf).getD 0) (coreOf u.key) u.pc := by
  rw [State.unitWord, hk]

/-- A word that is no header traps, with itself in TINFO0 (R454). -/
theorem enterClause_headless (hk : s.kept? u part = none)
    (hf : s.fetchFault (((s.gang? u.key).map s.partOf).getD 0) (coreOf u.key) u.pc = none)
    (hw : kindOf (s.unitWord u part) ≠ 2#2) :
    s.enterClause u part = s.headerTrap u part (s.unitWord u part) 6 u.pc := by
  unfold State.enterClause
  simp only [hk, Option.isSome_none, Bool.false_eq_true, if_false, hf, bne_iff_ne, ne_eq, hw, not_false_eq_true, if_true]

theorem headerTrap_trapped (w : Word64) (detail : Nat) (info : Word64) (hne : s.team u.key ≠ [])
    (ht : (s.team u.key).any (fun kg => kg.2.inTrap) = false) :
    Trapped (s.setCur u part w false) (s.headerTrap u part w detail info) u.key ⟨part, u.pc, w, false, false, u.pc⟩
      ((s.team u.key).map fun kg => (kg.1, flaw 0x02 detail (kg.2.partLanes part) info)) := by
  have htrap : s.headerTrap u part w detail info = (s.setCur u part w false).takeTrap u.key
      ⟨part, u.pc, w, false, false, u.pc⟩
      ((s.team u.key).map fun kg => (kg.1, flaw 0x02 detail (kg.2.partLanes part) info)) :=
    trapNow_eq (code := 0x02) (mt List.map_eq_nil_iff.1 hne) (List.forall_mem_map.2 fun _ _ => rfl)
  rw [htrap]
  exact takeTrap_trapped ht

/-- The keys of the members that have lanes of a unit. -/
def enteringKeys (s : State) (key part : Nat) : List Nat :=
  ((s.team key).filter fun kg => kg.2.unitLanes part != 0#32).map (·.1)

theorem enteringKeys_nodup (s : State) (key part : Nat) : (enteringKeys s key part).Nodup :=
  (team_nodup s key).sublist (List.filter_sublist.map _)

/-- The state in which the members of a unit enter: the unit's word is the current one, and what was kept of it is gone. -/
def enteringState (s : State) (u : Machine.Unit) (part : Nat) : State :=
  (s.setCur u part (s.unitWord u part) false).updGang u.key fun g => g.forget part

/-- A unit whose members are all ready enters (R85). -/
theorem enterClause_ready (hk : s.kept? u part = none)
    (hf : s.fetchFault (((s.gang? u.key).map s.partOf).getD 0) (coreOf u.key) u.pc = none)
    (hw : kindOf (s.unitWord u part) = 2#2) (hb : headerBad (s.unitWord u part) = 0#64)
    (hready : ∀ kg ∈ s.team u.key, kg.2.unitLanes part ≠ 0#32 → s.headerReady kg (s.unitWord u part) = true) :
    s.enterClause u part = (enteringKeys s u.key part).foldl (entersClause part (s.unitWord u part))
      (enteringState s u part) := by
  have hall : ((s.team u.key).filter fun kg => kg.2.unitLanes part != 0#32).all
      (fun kg => (s.setCur u part (s.unitWord u part) false).headerReady kg (s.unitWord u part)) = true :=
    List.all_eq_true.2 fun kg hkg => by
      obtain ⟨hmem, hne⟩ := List.mem_filter.1 hkg
      exact hready kg hmem (bne_iff_ne.1 hne)
  have hteam : (s.setCur u part (s.unitWord u part) false).team u.key = s.team u.key := rfl
  unfold State.enterClause
  simp only [hk, Option.isSome_none, Bool.false_eq_true, if_false, hf, hw, bne_self_eq_false, hb, hteam, hall, Bool.not_true]
  rw [enteringKeys, List.foldl_map]
  rfl

/-- What the entry of a clause leaves in a member. -/
theorem enterClause_member (g : Gang) (w : Word64) (line : Nat) :
    (lineSeen line g).enterClause part w = { g with
      flow := (g.enterClause part w).flow, clauses := g.clauses + 1, ownNow := g.own, seen := (lineSeen line g).seen } := by
  unfold lineSeen
  split <;> rfl

theorem enterClause_flow (g : Gang) (w : Word64) {l : Nat} (hl : l < g.flow.length) :
    (g.enterClause part w).flowAt l = if inMask (g.unitLanes part) l = true then
      { g.flowAt l with
        hdr := (g.flowAt l).pc, pc := addWords (g.flowAt l).pc 1, rem := fieldOf w 52 4 + 1
        cmask := BitVec.ofNat 6 (fieldOf w 56 6), yld := BitVec.ofNat 2 (fieldOf w 38 2) }
      else g.flowAt l := by
  unfold Gang.enterClause
  dsimp only
  rw [flowAt_mapFlow, if_pos hl]
  rfl

/-- Before the entry a member has lost at most what it kept of the word. -/
theorem enteringState_gang {k : Nat} {g : Gang} (hg : s.gang? k = some g) :
    ∃ g0, (enteringState s u part).gang? k = some g0 ∧ g0 = { g with fetched := g0.fetched, waits := g0.waits } := by
  unfold enteringState
  rw [gang_updGang, show (s.setCur u part (s.unitWord u part) false).gang? k = some g from hg]
  split
  · exact ⟨g.forget part, rfl, rfl⟩
  · exact ⟨g, rfl, rfl⟩

/-- The entry of a clause, member by member (R85, R291, R362). -/
theorem entered_member {kg : Nat × Gang} (w : Word64) (hkg : kg ∈ s.team u.key) (hne : kg.2.unitLanes part ≠ 0#32) :
    ∃ g', ((enteringKeys s u.key part).foldl (entersClause part w) (enteringState s u part)).gang? kg.1 = some g' ∧
      g' = { kg.2 with
        flow := g'.flow, clauses := kg.2.clauses + 1, ownNow := kg.2.own, fetched := g'.fetched, waits := g'.waits
        seen := g'.seen } ∧
      (∀ n, Tab.at g'.seen 0#32 n = Tab.at kg.2.seen 0#32 n + if n = fieldOf w 40 4 ∧ n ≠ 0 then 1#32 else 0#32) ∧
      ∀ l, l < kg.2.flow.length → if inMask (kg.2.unitLanes part) l = true then
        g'.flowAt l = { kg.2.flowAt l with
          hdr := (kg.2.flowAt l).pc, pc := addWords (kg.2.flowAt l).pc 1, rem := fieldOf w 52 4 + 1
          cmask := BitVec.ofNat 6 (fieldOf w 56 6), yld := BitVec.ofNat 2 (fieldOf w 38 2) }
        else g'.flowAt l = kg.2.flowAt l := by
  obtain ⟨-, hgang⟩ := entersClause_fold part w _ (enteringKeys_nodup s u.key part) (enteringState s u part)
  obtain ⟨g0, hg0, he0⟩ := enteringState_gang (u := u) (part := part) (team_gang hkg)
  have hmem : kg.1 ∈ enteringKeys s u.key part := List.mem_map_of_mem (List.mem_filter.2 ⟨hkg, bne_iff_ne.2 hne⟩)
  have hflow : g0.flow = kg.2.flow := by rw [he0]
  have hat : ∀ l, g0.flowAt l = kg.2.flowAt l := fun l => by rw [Gang.flowAt, hflow]; rfl
  have hlanes : g0.unitLanes part = kg.2.unitLanes part := by rw [he0]; rfl
  have hseen : g0.seen = kg.2.seen := by rw [he0]
  have hentered := enterClause_member (part := part) g0 w (fieldOf w 40 4)
  refine ⟨(lineSeen (fieldOf w 40 4) g0).enterClause part w, by rw [hgang, if_pos hmem, hg0]; rfl, ?_, fun n => ?_,
    fun l hl => ?_⟩
  · rw [hentered, he0]
  · have hs : ((lineSeen (fieldOf w 40 4) g0).enterClause part w).seen = (lineSeen (fieldOf w 40 4) g0).seen := by rw [hentered]
    rw [hs, lineSeen_at, hseen]
  · have hf : ((lineSeen (fieldOf w 40 4) g0).enterClause part w).flowAt l = (g0.enterClause part w).flowAt l := by
      rw [hentered]; rfl
    rw [hf, enterClause_flow g0 w (hflow ▸ hl), hlanes, hat]
    split <;> rfl

/-- What a unit's entry leaves of the rest of the machine. -/
theorem entered_rest (w : Word64) :
    let t := (enteringKeys s u.key part).foldl (entersClause part w) (enteringState s u part)
    t.cores = s.cores ∧ t.queues = s.queues ∧ t.parts = s.parts ∧
      (fieldOf w 40 4 = 0 → t = { s with gangs := t.gangs, cur := t.cur }) := by
  obtain ⟨⟨hrest, hplain⟩, -⟩ := entersClause_fold part w _ (enteringKeys_nodup s u.key part) (enteringState s u part)
  have hstate : enteringState s u part = { s with gangs := (enteringState s u part).gangs, cur := (enteringState s u part).cur } := by
    unfold enteringState
    rw [updGang_rest]
    rfl
  dsimp only
  refine ⟨?_, ?_, ?_, fun hw => ?_⟩
  · rw [hrest, hstate]
  · rw [hrest, hstate]
  · rw [hrest, hstate]
  · rw [hplain hw, hstate]

end

end Sys2Proof.Laws
end


section
/-! SUPPORT. Words fetched ahead, parts that merge, waits that pass and deferred traps (R18, R419, R520), and the settled
statement. -/

namespace Sys2Proof.Laws

open Sys2Proof Sys2Proof.Machine

/-! ### Parts that merge (R18) -/

section
variable {s : State} {key : Nat} {g : Gang} {pc : Word64}

/-- A gang whose live lanes all wait at one address. -/
def WaitsTogether (g : Gang) (pc : Word64) : Prop :=
  ∀ l, inMask g.live l = true → l / 4 < g.slices ∧ (g.flowAt l).rgw = true ∧ (g.flowAt l).pc = pc

theorem allWait_of_together (h : WaitsTogether g pc) : g.allWait = true :=
  List.all_eq_true.2 fun l _ => by
    cases hl : inMask g.live l with
    | false => rfl
    | true => rw [(h l hl).2.1]; rfl

theorem mem_sliceLanes {sl l : Nat} : l ∈ sliceLanes sl ↔ l / 4 = sl := by
  simp only [sliceLanes, List.mem_map, List.mem_range]
  exact ⟨fun ⟨k, hk, hl⟩ => by omega, fun h => ⟨l % 4, by omega, by omega⟩⟩

/-- Whether a slice has a live lane. -/
def sliceLive (g : Gang) (sl : Nat) : Bool := (sliceLanes sl).any (inMask g.live)

theorem waitPc_of_together (h : WaitsTogether g pc) (sl : Nat) :
    g.waitPc? sl = if sliceLive g sl = true then some pc.toNat else none := by
  have hmap : ((sliceLanes sl).filter (inMask g.live)).map (fun l => (g.flowAt l).pc.toNat) =
      List.replicate ((sliceLanes sl).filter (inMask g.live)).length pc.toNat := by
    rw [List.eq_replicate_iff, List.length_map]
    refine ⟨rfl, List.forall_mem_map.2 fun l hl => ?_⟩
    rw [(h l (List.mem_filter.1 hl).2).2.2]
  rw [Gang.waitPc?, hmap, sliceLive]
  split
  case isTrue hlive =>
    obtain ⟨l, hl, hin⟩ := List.any_eq_true.1 hlive
    have hpos : 0 < ((sliceLanes sl).filter (inMask g.live)).length :=
      List.length_pos_of_mem (List.mem_filter.2 ⟨hl, hin⟩)
    exact List.min?_replicate_of_pos hpos
  case isFalse hlive =>
    have hnil : (sliceLanes sl).filter (inMask g.live) = [] :=
      List.filter_eq_nil_iff.2 fun l hl hin => hlive (List.any_eq_true.2 ⟨l, hl, hin⟩)
    rw [hnil]
    rfl

theorem slicePart_isSome (g : Gang) (sl : Nat) : (g.slicePart? sl).isSome = sliceLive g sl := by
  rw [Gang.slicePart?, Option.isSome_map, sliceLive, Bool.eq_iff_iff, List.find?_isSome, List.any_eq_true]

/-- All that wait, wait at one address. -/
theorem waitPcs_together (h : ∀ kg ∈ s.team key, WaitsTogether kg.2 pc)
    (ha : (s.team key).any (fun kg => kg.2.alive) = true) :
    ((s.team key).flatMap fun kg => kg.2.sliceNums.filterMap kg.2.waitPc?).dedup = [pc.toNat] := by
  obtain ⟨kg, hkg, halive⟩ := List.any_eq_true.1 ha
  have hlanes : maskLanes kg.2.live ≠ [] := mt maskLanes_eq_nil.1 (bne_iff_ne.1 halive)
  obtain ⟨l, hl⟩ := List.exists_mem_of_ne_nil _ hlanes
  have hin := mem_maskLanes.1 hl
  have hmem : pc.toNat ∈ (s.team key).flatMap fun kg => kg.2.sliceNums.filterMap kg.2.waitPc? := by
    refine List.mem_flatMap.2 ⟨kg, hkg, List.mem_filterMap.2 ⟨l / 4, List.mem_range.2 (h kg hkg l hin).1, ?_⟩⟩
    rw [waitPc_of_together (h kg hkg), if_pos]
    exact List.any_eq_true.2 ⟨l, mem_sliceLanes.2 rfl, hin⟩
  have hall : ∀ a ∈ (s.team key).flatMap fun kg => kg.2.sliceNums.filterMap kg.2.waitPc?, a = pc.toNat := by
    intro a hmem
    obtain ⟨kg, hkg, hv⟩ := List.mem_flatMap.1 hmem
    obtain ⟨sl, -, hsl⟩ := List.mem_filterMap.1 hv
    rw [waitPc_of_together (h kg hkg)] at hsl
    split at hsl
    case isTrue => exact (Option.some.inj hsl).symm
    case isFalse => cases hsl
  rw [List.eq_replicate_of_mem hall, List.replicate_dedup (List.length_pos_of_mem hmem).ne']

/-- The slices at the one address are those with a live lane, so the new part is the team's lowest slice. -/
theorem mergeName_together (h : ∀ kg ∈ s.team key, WaitsTogether kg.2 pc) :
    (((s.team key).flatMap fun kg => (kg.2.sliceNums.filter fun sl => kg.2.waitPc? sl == some pc.toNat).map
      (8 * kg.2.member + ·)).min?).getD 0 = s.lowSlice key := by
  have hslices : ∀ kg ∈ s.team key, (kg.2.sliceNums.filter fun sl => kg.2.waitPc? sl == some pc.toNat) =
      kg.2.sliceNums.filter fun sl => (kg.2.slicePart? sl).isSome := fun kg hkg =>
    List.filter_congr fun sl _ => by
      rw [waitPc_of_together (h kg hkg), slicePart_isSome]
      cases sliceLive kg.2 sl <;> simp
  unfold State.lowSlice
  rw [List.flatMap_congr fun kg hkg => by rw [hslices kg hkg]]

/-- A live lane of a member, as the merge finds it. -/
theorem mergeLane (h : WaitsTogether g pc) {l : Nat} (hl : inMask g.live l = true) :
    (g.waitPc? (l / 4) == some pc.toNat) = true ∧ l < g.flow.length := by
  obtain ⟨-, hw, -⟩ := h l hl
  constructor
  · have hlive : sliceLive g (l / 4) = true := List.any_eq_true.2 ⟨l, mem_sliceLanes.2 rfl, hl⟩
    rw [waitPc_of_together h, if_pos hlive, beq_self_eq_true]
  · by_contra hlen
    rw [Gang.flowAt, List.getD_eq_default _ _ (not_lt.1 hlen)] at hw
    cases hw

/-- The lanes of a member that a merge takes on. -/
def mergeLanes (g : Gang) (pc : Nat) : Mask :=
  maskOf fun l => inMask g.live l && (g.waitPc? (l / 4) == some pc) && (g.flowAt l).pc == BitVec.ofNat 64 pc

theorem mapFlow_length (g : Gang) (f : Nat → Flow → Flow) : (g.mapFlow f).flow.length = g.flow.length := by
  have h := congrArg List.length (map_snd_indexFrom 0 g.flow id)
  rw [List.length_map, List.map_id] at h
  rw [Gang.mapFlow, List.length_map, h]

/-- A lane that goes on by some words, and one that stays. -/
theorem advance_flow (g : Gang) (m : Mask) (n : Nat) (high : Bool) (l : Nat) : (g.advance m n [] high).flowAt l =
    if l < g.flow.length then (if inMask m l && inMask g.live l then (g.flowAt l).next n none else g.flowAt l)
    else g.flowAt l :=
  flowAt_mapFlow g (fun l f => if inMask m l && inMask g.live l then f.next n none else f) l

/-- What a merge does to a member, `old` being the member as it waits. -/
def mergeMember (name pc : Nat) (high : Bool) (old g : Gang) : Gang :=
  (g.mapFlow fun l f =>
    if inMask g.live l && old.waitPc? (l / 4) == some pc then
      if inMask (mergeLanes old pc) l then { f with part := name, rgw := false, word := 0#64 } else { f with part := name }
    else f).advance (maskOf fun l => inMask (mergeLanes old pc) l && (old.flowAt l).atRegang) 1 [] high

theorem mergeLanes_together (h : WaitsTogether g pc) : mergeLanes g pc.toNat = g.live := mask_ext fun l hl => by
  rw [mergeLanes, inMask_maskOf, decide_eq_true hl, Bool.true_and, BitVec.ofNat_toNat, BitVec.setWidth_eq]
  cases hin : inMask g.live l with
  | false => rfl
  | true => rw [(mergeLane h hin).1, (h l hin).2.2, beq_self_eq_true]; rfl

theorem mergeMember_rest (name pc : Nat) (high : Bool) (old g : Gang) : mergeMember name pc high old g =
    { g with flow := (mergeMember name pc high old g).flow, offer := (mergeMember name pc high old g).offer } := rfl

/-- A live lane of a merging member: in the new part, no longer waiting, and past the REGANG where it stood at one. -/
theorem mergeMember_flow (h : WaitsTogether g pc) (name : Nat) (high : Bool) {l : Nat} (hl : inMask g.live l = true) :
    ((mergeMember name pc.toNat high g g).flowAt l).part = name ∧
      ((mergeMember name pc.toNat high g g).flowAt l).rgw = false ∧
      ((mergeMember name pc.toNat high g g).flowAt l).pc = if (g.flowAt l).atRegang then addWords pc 1 else pc := by
  obtain ⟨hhere, hlen⟩ := mergeLane h hl
  obtain ⟨-, -, hpc⟩ := h l hl
  have hlt := inMask_lt hl
  generalize hm : (g.mapFlow fun l f => if inMask g.live l && g.waitPc? (l / 4) == some pc.toNat then
      if inMask (mergeLanes g pc.toNat) l then { f with part := name, rgw := false, word := 0#64 }
      else { f with part := name } else f) = m
  have hmlen : m.flow.length = g.flow.length := by
    rw [← hm, mapFlow_length]
  have hmlive : m.live = g.live := by rw [← hm]; rfl
  have hmat : m.flowAt l = { g.flowAt l with part := name, rgw := false, word := 0#64 } := by
    rw [← hm, flowAt_mapFlow, if_pos hlen, hl, hhere, mergeLanes_together h, hl]
    rfl
  have hflow : (mergeMember name pc.toNat high g g).flowAt l =
      if (g.flowAt l).atRegang then (m.flowAt l).next 1 none else m.flowAt l := by
    rw [mergeMember, hm, advance_flow, if_pos (hmlen ▸ hlen), inMask_maskOf, decide_eq_true hlt, mergeLanes_together h, hmlive, hl,
      Bool.true_and, Bool.true_and, Bool.and_true]
  rw [hflow, hmat]
  split
  case isTrue =>
    unfold Flow.next
    dsimp only
    split <;> simp [hpc]
  case isFalse => exact ⟨rfl, rfl, hpc⟩

/-- The word that a merged part performs once, as its lead keeps it. -/
def mergeKept (name pc : Nat) (team : List (Nat × Gang)) : Option Fetched :=
  (team.flatMap fun kg => ((maskLanes (mergeLanes kg.2 pc)).map kg.2.flowAt).filter (!·.atRegang)).head?.map fun f =>
    ⟨name, BitVec.ofNat 64 pc, f.word, true⟩

/-- The update of a lead that keeps a word, if there is one. -/
def keepUpds (key : Nat) (o : Option Fetched) : List (Nat × (Gang → Gang)) :=
  o.toList.map fun f => (key, fun g => { g with fetched := g.fetched ++ [f] })

/-- A merge, as one update of each member and one of the lead. -/
theorem mergeAt_eq (s : State) (key : Nat) (team : List (Nat × Gang)) (pc : Nat) :
    let name := ((team.flatMap fun kg => (kg.2.sliceNums.filter fun sl => kg.2.waitPc? sl == some pc).map
      (8 * kg.2.member + ·)).min?).getD 0
    s.mergeAt key team pc = upds s ((team.map fun kg =>
        (kg.1, mergeMember name pc (s.core (coreOf key)).high kg.2)) ++
      keepUpds key (mergeKept name pc team)) := by
  intro name
  have hfold : ∀ (T : List (Nat × Gang)) (u : State), u = { s with gangs := u.gangs } →
      T.foldl (fun (u : State) kg => u.updGang kg.1 (mergeMember name pc (u.core (coreOf key)).high kg.2)) u =
      upds u (T.map fun kg => (kg.1, mergeMember name pc (s.core (coreOf key)).high kg.2)) := by
    intro T
    induction T with
    | nil => intros; rfl
    | cons kg T ih =>
      intro u hu
      have hc : u.core (coreOf key) = s.core (coreOf key) := by rw [hu]; rfl
      rw [List.foldl_cons, ih _ (rest_trans hu (updGang_rest _ _ _)), hc]
      rfl
  unfold upds at hfold ⊢
  rw [List.foldl_append, ← hfold team s rfl]
  unfold State.mergeAt
  dsimp only
  split
  case h_1 hstay =>
    have hkept : mergeKept name pc team = none := congrArg (Option.map _) hstay
    rw [hkept]
    rfl
  case h_2 f hstay =>
    have hkept : mergeKept name pc team = some ⟨name, BitVec.ofNat 64 pc, f.word, true⟩ := congrArg (Option.map _) hstay
    rw [hkept]
    rfl

/-- Parts that wait at one address are one part that goes on (R18). -/
theorem regangMerge_together {core ctx : Nat} (hlead : s.leadAt core ctx = some key) (hmay : s.mayIssue key = true)
    (ha : (s.team key).any (fun kg => kg.2.alive) = true) (h : ∀ kg ∈ s.team key, WaitsTogether kg.2 pc) :
    exec (.regangMerge core ctx) s = .next (s.mergeAt key (s.team key) pc.toNat) := by
  have hall : (s.team key).all (fun kg => kg.2.allWait) = true :=
    List.all_eq_true.2 fun kg hkg => allWait_of_together (h kg hkg)
  show execRegangMerge core ctx s = _
  simp only [execRegangMerge, hlead, hmay, hall, ha, Bool.not_true, Bool.or_false, Bool.false_eq_true, if_false,
    waitPcs_together h ha, List.foldl_cons, List.foldl_nil]

theorem with_fetched {g m : Gang} (h : m = { g with flow := m.flow, offer := m.offer }) (fs : List Fetched) :
    ({ m with fetched := fs } : Gang) = { g with flow := m.flow, fetched := fs, offer := m.offer } :=
  congrArg (fun x : Gang => { x with fetched := fs }) h

theorem upds_append (s : State) (L M : List (Nat × (Gang → Gang))) : upds s (L ++ M) = upds (upds s L) M :=
  List.foldl_append

/-- Updates of each member of a team, at one of them. -/
theorem upds_team (F : Nat × Gang → Gang → Gang) {kg : Nat × Gang} (hkg : kg ∈ s.team key) :
    (upds s ((s.team key).map fun kg => (kg.1, F kg))).gang? kg.1 = some (F kg kg.2) := by
  have h := upds_gang s ((s.team key).map fun kg => (kg.1, F kg)) (by rw [List.map_map]; exact team_nodup s key)
    (kg.1, F kg) (List.mem_map_of_mem hkg)
  rw [team_gang hkg] at h
  exact h

theorem keepUpds_gang {v : State} {k : Nat} {m : Gang} (hv : v.gang? k = some m) (o : Option Fetched) :
    ∃ fs, (upds v (keepUpds key o)).gang? k = some { m with fetched := fs } := by
  cases o with
  | none => exact ⟨m.fetched, hv⟩
  | some f =>
    have hlead := gang_updGang v key k fun g => { g with fetched := g.fetched ++ [f] }
    rw [hv] at hlead
    split at hlead
    case isTrue => exact ⟨_, hlead⟩
    case isFalse => exact ⟨m.fetched, hlead⟩

/-- A member after the merge; the lead has also kept what its part performs. -/
theorem merged_gang {kg : Nat × Gang} (hkg : kg ∈ s.team key) (h : ∀ kg ∈ s.team key, WaitsTogether kg.2 pc) :
    ∃ m fs, m = mergeMember (s.lowSlice key) pc.toNat (s.core (coreOf key)).high kg.2 kg.2 ∧
      (s.mergeAt key (s.team key) pc.toNat).gang? kg.1 = some { m with fetched := fs } := by
  rw [mergeAt_eq, mergeName_together h, upds_append]
  obtain ⟨fs, hfs⟩ := keepUpds_gang (key := key) (upds_team
    (fun kg => mergeMember (s.lowSlice key) pc.toNat (s.core (coreOf key)).high kg.2) hkg)
    (mergeKept (s.lowSlice key) pc.toNat (s.team key))
  exact ⟨_, fs, rfl, hfs⟩

/-- What the merge leaves in a member. -/
theorem merged_member {kg : Nat × Gang} (hkg : kg ∈ s.team key) (h : ∀ kg ∈ s.team key, WaitsTogether kg.2 pc) :
    ∃ g', (s.mergeAt key (s.team key) pc.toNat).gang? kg.1 = some g' ∧
      g' = { kg.2 with flow := g'.flow, fetched := g'.fetched, offer := g'.offer } ∧
      ∀ l, inMask kg.2.live l = true → (g'.flowAt l).part = s.lowSlice key ∧ (g'.flowAt l).rgw = false ∧
        (g'.flowAt l).pc = if (kg.2.flowAt l).atRegang then addWords pc 1 else pc := by
  obtain ⟨m, fs, hm, hg⟩ := merged_gang hkg h
  have hrest : m = { kg.2 with flow := m.flow, offer := m.offer } := by rw [hm]; exact mergeMember_rest _ _ _ _ _
  refine ⟨_, hg, with_fetched hrest fs, fun l hl => ?_⟩
  have hflow := mergeMember_flow (h kg hkg) (s.lowSlice key) (s.core (coreOf key)).high hl
  rw [← hm] at hflow
  exact hflow

end

/-! ### Words fetched ahead (R520) -/

section
variable {s : State} {core ctx part : Nat} {u : Machine.Unit}

theorem fetchWord_keeps {g : Gang} (hu : s.unit? core ctx part = some u) (hg : s.gang? u.key = some g)
    (hk : s.kept? u part = none) (hf : s.fetchFault (s.partOf g) (coreOf u.key) u.pc = none) :
    exec (.fetchWord core ctx part) s = .next (s.updGang u.key fun g' => { g' with fetched := g'.fetched ++
      [⟨part, u.pc, s.fetchAt (s.partOf g) (coreOf u.key) u.pc, false⟩] }) := by
  show execFetchWord core ctx part s = _
  simp only [execFetchWord, State.fetchAhead, hu, hg, hk, hf, Option.map_some, Option.getD_some, Option.isSome_none,
    Bool.or_false, Bool.false_eq_true, if_false]

/-! ### Waits that pass (R146, R270, R372) -/

/-- A unit that waits at its word tries it again. -/
theorem retry_run {f : Instr → State → Option Next} {i : Instr} {g : Gang} {t : State} {n : Next}
    (hu : s.unit? core ctx part = some u) (hd : s.nextDeferred u.key = none) (hg : s.gang? u.key = some g)
    (hw : g.waitsAt part u.pc = true) (hr : s.nextWord u part = .run i t) (hf : f i t = some n) :
    s.retry core ctx part f = n := by
  simp only [State.retry, hu, hd, hg, hw, hr, hf, Option.isSome_none, Option.elim_some, Bool.not_true, Bool.or_false,
    Bool.false_eq_true, if_false, Option.getD_some]

/-- A BARW whose phase has reached every member's count passes, and acquires the barrier for each. -/
theorem barw_passes {n : BitVec 8} (hi : issues (.barw n) s = true)
    (h : ∀ x ∈ s.seats 0, s.barFlaw x n.toNat = none ∧ Tab.at x.g.arr 0 n.toNat ≤ s.phase x.g.launch n.toNat) :
    ∃ v, execBarw n s = .next v ∧ Moved s ((s.seats 0).foldl (fun y x =>
      y.acquire x.key (.barrier x.g.launch n.toNat)) (s.counted 0)) v 0 s.curWords (fun _ => []) (fun _ => []) false := by
  refine ⟨_, rfl, issue_moved (i := .barw n) (fun x y => y.passBarrier x n.toNat) _ _ (fun y => y.launches = s.launches) hi
    (by rw [counted_rest]) fun x hx y hy hg => ?_⟩
  obtain ⟨hflaw, hphase⟩ := h x hx
  have hacq : OnlyViews y (y.passBarrier x n.toNat) := acquire_views _ _ _
  have hlaunch : ∀ l, y.launch? l = s.launch? l := fun l => by unfold State.launch?; rw [hy]
  have hflaw' : y.barFlaw x n.toNat = none := by
    unfold State.barFlaw State.group? at hflaw ⊢
    rw [hlaunch]
    exact hflaw
  have hphase' : x.arrivals n.toNat ≤ y.phaseFor x n.toNat := by
    unfold State.phaseFor State.phase
    rw [hlaunch]
    exact hphase
  refine ⟨?_, by rw [hacq]; exact hy, fun k _ => gang_views hacq k, by rw [hacq], _, (gang_views hacq _).trans hg⟩
  rw [hflaw']
  exact if_pos hphase'

theorem toksClear_of_zero {g : Gang} {ts : BitVec 7} (h : ∀ k, k < 7 → ts.getLsbD k = true → Tab.at g.toks 0 (k + 1) = 0) :
    g.toksClear (ts ++ (0#1 : BitVec 1)) = true := by
  refine List.all_eq_true.2 fun k hk => ?_
  cases k with
  | zero => rfl
  | succ k =>
    have hbit : (ts ++ (0#1 : BitVec 1)).getLsbD (k + 1) = ts.getLsbD k := by
      rw [BitVec.getLsbD_append, if_neg (by omega), Nat.add_sub_cancel]
    rw [hbit]
    cases ht : ts.getLsbD k with
    | false => simp
    | true =>
      have hz : g.tok (k + 1) = 0 := h k (by have := List.mem_range.1 hk; omega) ht
      rw [hz]
      simp

/-- A WAITTOK whose tokens are clear passes. -/
theorem waittok_passes {ts : BitVec 7} (hi : issues (.waittok ts) s = true)
    (h : ∀ x ∈ s.seats 0, ∀ k, k < 7 → ts.getLsbD k = true → Tab.at x.g.toks 0 (k + 1) = 0) :
    ∃ v, execWaittok ts s = .next v ∧ Moved s (s.counted 0) v 0 s.curWords (fun _ => []) (fun _ => []) false := by
  refine ⟨_, rfl, issue_results (i := .waittok ts) _ _ hi fun x hx y _ _ => ?_⟩
  rw [if_pos (toksClear_of_zero (h x hx))]

/-! ### Deferred traps (R419, R502) -/

/-- A team that may take a deferred trap runs no handler; the trap it takes is one of its word's. -/
theorem nextDeferred_some {key k : Nat} {d : Deferred} (h : s.nextDeferred key = some (k, d)) :
    (s.team key).any (fun kg => kg.2.inTrap) = false ∧ (k, d) ∈ s.sameWord key d := by
  unfold State.nextDeferred at h
  split at h
  case isTrue => cases h
  case isFalse hno =>
    refine ⟨Bool.eq_false_iff.2 hno, List.mem_filter.2 ⟨List.mem_of_find?_eq_some h, ?_⟩⟩
    simp

/-- The state in which the deferred traps of a word are gone. -/
def undeferred (s : State) (ds : List (Nat × Deferred)) : State :=
  ds.foldl (fun v kd => v.updGang kd.1 fun x => { x with deferred := x.deferred.drop 1 }) s

theorem undeferred_gang (s : State) (ds : List (Nat × Deferred)) : ∃ F : Nat → Gang → Gang,
    (∀ k, (undeferred s ds).gang? k = (s.gang? k).map (F k)) ∧ ∀ k g, F k g = { g with deferred := (F k g).deferred } := by
  have hupds : undeferred s ds = upds s (ds.map fun kd => (kd.1, fun x : Gang => { x with deferred := x.deferred.drop 1 })) := by
    unfold undeferred upds
    rw [List.foldl_map]
  rw [hupds]
  refine ⟨_, gang_upds s _, fun k g => ?_⟩
  rw [List.foldl_map]
  refine List.foldlRecOn (motive := fun a : Gang => a = { g with deferred := a.deferred }) _ _ rfl fun a ha kd _ => ?_
  split
  · rw [ha]
  · exact ha

theorem undeferred_trap (s : State) (ds : List (Nat × Deferred)) (key : Nat) :
    ((undeferred s ds).team key).any (fun kg => kg.2.inTrap) = (s.team key).any fun kg => kg.2.inTrap := by
  obtain ⟨F, hg, hF⟩ := undeferred_gang s ds
  rw [team_map hg (fun k g => by rw [hF]) key, List.any_map]
  refine List.any_congr rfl fun kg => ?_
  show (F kg.1 kg.2).inTrap = _
  rw [hF]
  rfl

/-- A deferred trap is taken where its lowest lane stands. -/
theorem takeDeferred_eq {k l : Nat} {d : Deferred} {g : Gang} (hn : s.nextDeferred u.key = some (k, d))
    (hg : s.gang? k = some g) (hl : lowLane? (d.lanes &&& g.live) = some l) : s.takeDeferred u part =
    (undeferred s (s.sameWord u.key d)).takeTrap u.key
      ⟨(g.flowAt l).part, (g.flowAt l).pc, d.info0, false, true, (g.flowAt l).pc⟩
      ((s.sameWord u.key d).map fun kd => (kd.1, ⟨kd.2.code, kd.2.detail, kd.2.lanes, kd.2.info1, kd.2.info2, kd.2.info3⟩)) := by
  obtain ⟨F, hgang, hF⟩ := undeferred_gang s (s.sameWord u.key d)
  have hg' : (undeferred s (s.sameWord u.key d)).gang? k = some (F k g) := by rw [hgang, hg]; rfl
  have hlive : (F k g).live = g.live := by rw [hF]; rfl
  have hflow : (F k g).flowAt l = g.flowAt l := by rw [hF]; rfl
  unfold undeferred at hg' ⊢
  unfold State.takeDeferred
  simp only [hn, hg', hlive, hl, hflow]

theorem takeDeferredTrap_eq (hu : s.unit? core ctx part = some u) :
    exec (.takeDeferredTrap core ctx part) s = .next (s.takeDeferred u part) := by
  show execTakeDeferredTrap core ctx part s = _
  rw [execTakeDeferredTrap, hu]

end

/-- Settles O55: each event meets the lemma about what the model makes of a unit, a team or a member there. -/
theorem unitEvents : Obligations.UnitEvents := by
  refine ⟨fun s core ctx part u hu hd hr hk => ?_, fun s core ctx part u g hu hg hk hf => ?_,
    fun s core ctx key pc hlead hmay ha h => ?_, fun s core ctx part u g hu hd hg hw hr => ⟨fun n t hn hi h => ?_,
    fun ts t hn hi h => ?_⟩, fun s core ctx part u k d g l hu hn hg hl => ?_⟩
  · intro pno hf w lanes
    have hword : s.unitWord u part = w := unitWord_eq hk
    refine ⟨fun hw ht => ?_, fun hw hb hready => ?_⟩
    · refine ⟨_, clauseEntry_eq hu hd hr, ?_⟩
      rw [enterClause_headless hk hf (hword.symm ▸ hw), hword]
      have htrap := headerTrap_trapped (u := u) (part := part) w 6 u.pc (unit_team_ne_nil hu) ht
      have hcur : (s.headerTrap u part w 6 u.pc).cur = (s.setCur u part w false).cur := by rw [htrap.rest]
      rw [hcur]
      exact htrap
    · rw [← hword] at hw hb hready
      obtain ⟨hcores, hqueues, hparts, hplain⟩ := entered_rest (s := s) (u := u) (part := part) w
      refine ⟨_, (clauseEntry_eq hu hd hr).trans (by rw [enterClause_ready hk hf hw hb hready, hword]), hcores, hqueues,
        hparts, hplain, fun kg hkg hne => entered_member w hkg hne⟩
  · refine ⟨_, ⟨part, u.pc, s.fetchAt (s.partOf g) (coreOf u.key) u.pc, false⟩, fetchWord_keeps hu hg hk hf,
      updGang_rest _ _ _, fun k hne => ?_, ?_, rfl, rfl, rfl, rfl⟩
    · rw [gang_updGang, if_neg (Ne.symm hne)]
    · rw [gang_updGang, if_pos rfl, hg, Option.map_some]
  · refine ⟨_, regangMerge_together hlead hmay ha h, ?_, fun kg hkg => merged_member hkg h⟩
    rw [mergeAt_eq]
    exact upds_rest _ _
  · obtain ⟨v, hv, hmoved⟩ := barw_passes hi h
    exact ⟨v, (retry_run hu hd hg hw hn rfl).trans hv, hmoved⟩
  · obtain ⟨v, hv, hmoved⟩ := waittok_passes hi h
    refine ⟨v, ?_, hmoved⟩
    show execWaitSatisfied core ctx part s = _
    unfold execWaitSatisfied
    rw [hu]
    exact (if_neg hr).trans ((retry_run hu hd hg hw hn rfl).trans hv)
  · obtain ⟨hno, hmem⟩ := nextDeferred_some hn
    refine ⟨_, (takeDeferredTrap_eq hu).trans (congrArg _ (takeDeferred_eq hn hg hl)), hmem, takeTrap_trapped ?_⟩
    exact (undeferred_trap s _ u.key).trans hno

end Sys2Proof.Laws
end

section
/-! SUPPORT. How typed integers are read and written (R112), and the settled statement. -/

namespace Sys2Proof.Laws

open Sys2Proof Sys2Proof.Machine

/-! ### Reading (R112) -/

theorem rawVal_narrow {w : Nat} (h : w ≠ 64) (p : Pair) : rawVal w p = (p.1.val.setWidth w).toNat := by
  rw [rawVal, if_neg h, BitVec.toNat_setWidth]

theorem rawVal_wide (p : Pair) : rawVal 64 p = (p.2.val ++ p.1.val).toNat := by
  rw [rawVal, if_pos rfl]
  exact Nat.mod_eq_of_lt p.val.isLt

section
variable {t : IntTy} (p : Pair)

theorem intVal_signed (hs : tySigned t = true) (hw : t.width ≠ 64) : intVal t p = (p.1.val.setWidth t.width).toInt := by
  rw [intVal, if_pos hs, rawVal_narrow hw, toSigned_toNat]

theorem intVal_unsigned (hs : tySigned t = false) (hw : t.width ≠ 64) :
    intVal t p = (p.1.val.setWidth t.width).toNat := by
  rw [intVal, if_neg (by simp [hs]), rawVal_narrow hw]

theorem intVal_signed_wide (hs : tySigned t = true) (hw : t.width = 64) : intVal t p = (p.2.val ++ p.1.val).toInt := by
  rw [intVal, if_pos hs, hw, rawVal_wide, toSigned_toNat]

theorem intVal_unsigned_wide (hs : tySigned t = false) (hw : t.width = 64) : intVal t p = (p.2.val ++ p.1.val).toNat := by
  rw [intVal, if_neg (by simp [hs]), hw, rawVal_wide]

end

/-! ### Writing (R112) -/

section
variable {t : IntTy} (x : Int)

theorem toNat_emod_two_pow (w : Nat) : (x % 2 ^ w).toNat = (BitVec.ofInt w x).toNat := by
  rw [BitVec.toNat_ofInt]
  norm_cast

theorem wrTy_signed (hs : tySigned t = true) (hw : t.width ≠ 64) :
    (wrTy t x).1 = ⟨(BitVec.ofInt t.width x).signExtend 32, 0x1F#8⟩ := by
  have hwide : tyWide t = false := beq_eq_false_iff_ne.2 hw
  simp only [wrTy, hwide, hs, Bool.false_eq_true, if_false, if_true, toNat_emod_two_pow, toSigned_toNat]
  rfl

theorem wrTy_unsigned (hs : tySigned t = false) (hw : t.width ≠ 64) :
    (wrTy t x).1 = ⟨(BitVec.ofInt t.width x).setWidth 32, 0x1F#8⟩ := by
  have hwide : tyWide t = false := beq_eq_false_iff_ne.2 hw
  simp only [wrTy, hwide, hs, Bool.false_eq_true, if_false, toNat_emod_two_pow]
  rw [wr32, BitVec.ofInt_natCast, BitVec.ofNat_toNat]
  rfl

theorem wrTy_wide (hw : t.width = 64) :
    wrTy t x = (⟨(BitVec.ofInt 64 x).extractLsb' 0 32, 0x1F#8⟩, ⟨(BitVec.ofInt 64 x).extractLsb' 32 32, 0x01#8⟩) :=
  if_pos (beq_iff_eq.2 hw)

/-- A 32-bit type, signed or not, leaves x mod 2^32 as it is. -/
theorem wrTy_whole (hw : t.width = 32) : (wrTy t x).1 = ⟨BitVec.ofInt 32 x, 0x1F#8⟩ := by
  have h64 : t.width ≠ 64 := by omega
  cases hs : tySigned t with
  | true => rw [wrTy_signed x hs h64, hw, BitVec.signExtend_eq]
  | false => rw [wrTy_unsigned x hs h64, hw, BitVec.setWidth_eq]

end

/-- Settles O1: each type reads and writes by its width and its sign. -/
theorem integerReadWrite : Obligations.IntegerReadWrite := by
  refine ⟨fun p => ⟨?_, ?_, ?_⟩, fun p => ⟨?_, ?_, ?_, ?_⟩, fun p => ⟨?_, ?_, ?_⟩, fun ty hty x => wrTy_whole x ?_,
    fun x => ⟨?_, ?_, ?_, ?_⟩, fun ty hty x => wrTy_wide x ?_⟩
  · rw [intVal_signed p rfl (by decide)]; simp [IntTy.width]
  · rw [intVal_unsigned p rfl (by decide)]; simp [IntTy.width]
  · rw [intVal_unsigned p rfl (by decide)]; simp [IntTy.width]
  · exact intVal_signed p rfl (by decide)
  · exact intVal_unsigned p rfl (by decide)
  · exact intVal_signed p rfl (by decide)
  · exact intVal_unsigned p rfl (by decide)
  · exact intVal_signed_wide p rfl rfl
  · exact intVal_unsigned_wide p rfl rfl
  · exact intVal_unsigned_wide p rfl rfl
  · rcases hty with rfl | rfl | rfl <;> rfl
  · exact wrTy_signed x rfl (by decide)
  · exact wrTy_unsigned x rfl (by decide)
  · exact wrTy_signed x rfl (by decide)
  · exact wrTy_unsigned x rfl (by decide)
  · rcases hty with rfl | rfl | rfl <;> rfl

end Sys2Proof.Laws
end

section
/-! SUPPORT. Integer sums and products (R121, R122), bit counts, minima, magnitudes and fields (R128, R129, R132) lane by
lane, and the settled statements. -/

namespace Sys2Proof.Laws

open Sys2Proof Sys2Proof.Machine

/-! ### Sums (R121) -/

theorem clampInt_eq {lo hi : Int} (h : lo ≤ hi) (x : Int) : clampInt lo hi x = max lo (min hi x) := by
  unfold clampInt
  split
  case isTrue => omega
  case isFalse => split <;> omega

theorem tyMin_le_tyMax (t : IntTy) : tyMin t ≤ tyMax t := by cases t <;> decide

theorem addLane_eq_sumAs (t : IntTy) (am : AddMod) (sub : Bool) (u v : Pair) :
    addLane t am sub u v = sumAs t am (if sub then intVal t u - intVal t v else intVal t u + intVal t v) := by
  cases am with
  | wide => rfl
  | sat => simp only [addLane, sumAs, clampInt_eq (tyMin_le_tyMax t)]
  | wrap => rfl

theorem tyLen_of_isInt32 {t : IntTy} (h : isInt32 t = true) : tyLen t = 1 := by
  cases t
  case s32 | z32 => rfl
  all_goals cases h

/-- The low half of an immediate, as a 32-bit integer. -/
theorem immPair_low (imm : Imm) : (immPair imm).1 = intImg (BitVec.ofInt 32 (immVal imm)) := by
  have h : (BitVec.ofInt 64 (immVal imm)).extractLsb' 0 32 = BitVec.ofInt 32 (immVal imm) := by
    apply BitVec.eq_of_toNat_eq
    simp only [BitVec.extractLsb'_toNat, BitVec.toNat_ofInt]
    omega
  simp only [immPair, intPair, word64, h, intImg]

/-! ### Affine results as lanes (R38) -/

/-- A pure word of one register, written affine where it can be, computes its lanes. -/
theorem computes_affine {i : Instr} {len : Nat} {d : VNum} {v : Seat → Option VReg} {f g : Seat → Lanes Pair}
    (he : ∀ s, exec i s = pureWord i (fun x _ => orAffine d (v x) (outReg len d.toNat (f x))) s) (hfg : ∀ x, f x = g x)
    (hv : ∀ x r, v x = some r → len = 1 ∧ ∀ l, l < 32 → r.lane l = (VReg.ofLanes ((f x).map (·.1))).lane l) :
    Computes i fun _ x => outReg len d.toNat (g x) :=
  computes_of (fun x _ => orAffine d (v x) (outReg len d.toNat (f x))) he (fun _ _ _ _ _ => rfl) fun s x _ => by
    rw [← hfg x]
    cases hr : v x with
    | none => exact agree_refl _ _
    | some r =>
      obtain ⟨rfl, hlane⟩ := hv x r hr
      exact orAffine_agree fun r' hr' l hl => by cases hr'; exact hlane l hl

theorem add_computes {i : Instr} {sub : Bool} {t : IntTy} {am : AddMod} {d a b : VNum} {p : Perm}
    (he : ∀ s, exec i s = addWord i sub t am d a p b s) :
    Computes i fun _ x => outReg (addLen t am) d.toNat (Lanes.map2
      (fun u v => sumAs t am (if sub then intVal t u - intVal t v else intVal t u + intVal t v))
      (x.src (tyLen t) a p) (x.src (tyLen t) b .none)) := by
  refine computes_affine (fun s => he s) (fun x => ?_) fun x r hr => ?_
  · simp only [← addLane_eq_sumAs]
  · split at hr
    case isFalse => cases hr
    case isTrue h =>
      rw [Bool.and_eq_true, beq_iff_eq] at h
      obtain ⟨rfl, ht⟩ := h
      have hlen := tyLen_of_isInt32 ht
      rw [hlen]
      exact ⟨hlen, fun l hl => affSum_lane ht hr hl⟩

theorem addi_computes (t : IntTy) (am : AddMod) (d a : VNum) (imm : Imm) (mk : MNum) :
    Computes (.addi t am d a imm mk) fun _ x => outReg (addLen t am) d.toNat
      ((x.src (tyLen t) a .none).map fun u => sumAs t am (intVal t u + intVal t (immPair imm))) := by
  refine computes_affine (fun s => rfl) (fun x => ?_) fun x r hr => ?_
  · simp only [addLane_eq_sumAs, Bool.false_eq_true, if_false]
  · split at hr
    case isFalse => cases hr
    case isTrue h =>
      rw [Bool.and_eq_true, beq_iff_eq] at h
      obtain ⟨rfl, ht⟩ := h
      have hlen := tyLen_of_isInt32 ht
      refine ⟨hlen, fun l hl => ?_⟩
      cases ha : x.shape a .none with
      | uniform y => rw [ha] at hr; cases hr
      | general ys => rw [ha] at hr; cases hr
      | affine c s =>
        rw [ha] at hr
        simp only [affSum, Option.some.injEq] at hr
        rw [hlen, shape_affine ha, Lanes.map, List.map_map, lane_gen _ hl, ← hr]
        have himm : BitVec.ofInt 32 (intVal t (immPair imm)) = BitVec.ofInt 32 (immVal imm) := by
          rw [intVal32 ht, immPair_low]; rfl
        simp only [Function.comp, addLane, wrTy32 ht, VReg.lane, Bool.false_eq_true, if_false, BitVec.ofInt_add,
          himm, intVal32 ht, intImg]
        congr 1
        ring

theorem mul_computes (t : IntTy) (d a : VNum) (p : Perm) (b : VNum) (mk : MNum) :
    Computes (.mul t d a p b mk) fun _ x => outReg (tyLen t) d.toNat
      (Lanes.map2 (mulLane t) (x.src (tyLen t) a p) (x.src (tyLen t) b .none)) := by
  refine computes_affine (fun s => rfl) (fun x => rfl) fun x r hr => ?_
  split at hr
  case isFalse => cases hr
  case isTrue ht =>
    have hlen := tyLen_of_isInt32 ht
    rw [hlen]
    exact ⟨rfl, fun l hl => affMul_lane ht hr hl⟩

/-- Settles O4: a wrapped 32-bit result may be written affine, with the lanes of the lane-wise one. -/
theorem integerArithmetic : Obligations.IntegerArithmetic :=
  ⟨fun _ _ _ _ _ _ _ => add_computes (sub := false) fun _ => rfl,
    fun _ _ _ _ _ _ _ => add_computes (sub := true) fun _ => rfl, addi_computes, mul_computes,
    fun _ _ _ _ _ _ => computes_pure _ fun _ => rfl, fun _ _ _ _ _ _ _ => computes_pure _ fun _ => rfl⟩

/-! ### Counts, minima and magnitudes (R128, R129) -/

theorem clzLane_eq (t : IntTy) (u : Pair) :
    clzLane t u = wrTy t ((t.width - Nat.size (rawVal t.width u) : Nat) : Int) := by rw [clzLane, clzNat_eq]

theorem popcLane_eq (t : IntTy) (u : Pair) :
    popcLane t u = wrTy t (((List.range t.width).countP fun i => (rawVal t.width u).testBit i : Nat) : Int) := by
  rw [popcLane, popNat_eq]

theorem brevLane_eq (t : IntTy) (u : Pair) :
    brevLane t u = wrTy t ((BitVec.ofNat t.width (rawVal t.width u)).reverse.toNat : Int) := by rw [brevLane, brevNat_eq]

theorem minLane_eq (t : IntTy) (u v : Pair) :
    minLane t u v = wrTy t (if intVal t u ≤ intVal t v then intVal t u else intVal t v) := by rw [minLane, min_def]

theorem maxLane_eq (t : IntTy) (u v : Pair) :
    maxLane t u v = wrTy t (if intVal t u ≤ intVal t v then intVal t v else intVal t u) := by rw [maxLane, max_def]

/-- Min of a signed type is its own magnitude mod 2^w. -/
theorem wrTy_tyMin {t : IntTy} (hs : tySigned t = true) : wrTy t (tyMin t) = wrTy t |tyMin t| := by
  refine wrTy_congr ?_
  cases t
  case s32 | s64 | s16 | s8 => decide
  all_goals cases hs

theorem absLane_eq {t : IntTy} (hs : tySigned t = true) (sat : Bool) (u : Pair) :
    absLane t sat u = if sat = true ∧ intVal t u = -2 ^ (t.width - 1) then wrTy t (2 ^ (t.width - 1) - 1)
      else wrTy t |intVal t u| := by
  have hmin : tyMin t = -2 ^ (t.width - 1) := if_pos hs
  have hmax : tyMax t = 2 ^ (t.width - 1) - 1 := if_pos hs
  unfold absLane
  rw [← hmin, ← hmax]
  by_cases h : intVal t u = tyMin t
  · cases sat with
    | true => simp [h]
    | false => simp [h, wrTy_tyMin hs]
  · simp [h]

/-! ### Fields (R132) -/

/-- A field of `len` bits read as two's complement, by its top bit. -/
theorem toSigned_field {len f : Nat} (hl : len ≠ 0) (hf : f < 2 ^ len) :
    toSigned len f = if f.testBit (len - 1) then (f : Int) - 2 ^ len else f := by
  have hmod : ((f : Int) % 2 ^ len) = f := Int.emod_eq_of_lt (by omega) (by exact_mod_cast hf)
  have hbit : f.testBit (len - 1) = decide (2 ^ (len - 1) ≤ f) := by
    have hpow : 2 ^ len = 2 ^ (len - 1) * 2 := by rw [← pow_succ]; congr 1; omega
    have hdiv : f / 2 ^ (len - 1) < 2 := Nat.div_lt_of_lt_mul (by rw [← hpow]; exact hf)
    rw [Nat.testBit_eq_decide_div_mod_eq, Nat.mod_eq_of_lt hdiv, decide_eq_decide,
      ← Nat.one_le_div_iff (Nat.two_pow_pos _)]
    omega
  simp only [toSigned, hmod, Nat.mod_eq_of_lt hf, hbit, decide_eq_true_eq]

theorem bfeLane_eq (t : IntTy) (u v : Pair) : bfeLane t u v =
    (let pos := v.1.val.toNat % 256
     let len := min (v.1.val.toNat / 256 % 256) (t.width - pos)
     let f := rawVal t.width u / 2 ^ pos % 2 ^ len
     if len = 0 then wrTy t 0
     else if tySigned t && f.testBit (len - 1) then wrTy t ((f : Int) - 2 ^ len) else wrTy t f) := by
  unfold bfeLane fieldLen fieldPos
  dsimp only
  generalize v.1.val.toNat % 256 = pos
  generalize v.1.val.toNat / 256 % 256 = n
  have hcond : (decide (n = 0) || decide (t.width ≤ pos)) = decide (min n (t.width - pos) = 0) := by
    rw [← Bool.decide_or, decide_eq_decide]; omega
  simp only [hcond, decide_eq_true_eq]
  generalize min n (t.width - pos) = len
  split
  case isTrue => rfl
  case isFalse hl =>
    rw [toSigned_field hl (Nat.mod_lt _ (Nat.two_pow_pos _))]
    cases tySigned t with
    | false => simp
    | true => simp only [if_true, Bool.true_and]; split <;> rfl

/-- The bits of a run of `len` ones at `pos`. -/
theorem testBit_run (len pos i : Nat) :
    ((2 ^ len - 1) * 2 ^ pos).testBit i = (decide (pos ≤ i) && decide (i < pos + len)) := by
  rw [Nat.testBit_mul_two_pow, Nat.testBit_two_pow_sub_one]
  by_cases h : pos ≤ i
  · simp only [h, decide_true, Bool.true_and, decide_eq_decide]; omega
  · simp [h]

/-- A number with a run of its bits cleared: those above it and those below. -/
theorem sub_and_run (x len pos : Nat) :
    x - (x &&& (2 ^ len - 1) * 2 ^ pos) = x / 2 ^ (pos + len) * 2 ^ (pos + len) + x % 2 ^ pos := by
  have hand : (x &&& (2 ^ len - 1) * 2 ^ pos) = x / 2 ^ pos % 2 ^ len * 2 ^ pos := by
    apply Nat.eq_of_testBit_eq
    intro i
    rw [Nat.testBit_and, testBit_run, Nat.testBit_mul_two_pow, Nat.testBit_mod_two_pow, Nat.testBit_div_two_pow]
    by_cases h : pos ≤ i
    · have hi : i - pos + pos = i := by omega
      have hlt : (i - pos < len) ↔ i < pos + len := by omega
      simp [h, hi, hlt, Bool.and_comm]
    · simp [h]
  have h1 := Nat.div_add_mod x (2 ^ pos)
  have h2 := Nat.div_add_mod (x / 2 ^ pos) (2 ^ len)
  rw [Nat.div_div_eq_div_mul, ← pow_add] at h2
  have h3 : x = x / 2 ^ (pos + len) * 2 ^ (pos + len) + x / 2 ^ pos % 2 ^ len * 2 ^ pos + x % 2 ^ pos := by
    calc x = 2 ^ pos * (x / 2 ^ pos) + x % 2 ^ pos := h1.symm
      _ = 2 ^ pos * (2 ^ len * (x / 2 ^ (pos + len)) + x / 2 ^ pos % 2 ^ len) + x % 2 ^ pos := by rw [h2]
      _ = _ := by ring
  rw [hand]
  omega

theorem shifted_and_run (y len pos : Nat) : (y * 2 ^ pos &&& (2 ^ len - 1) * 2 ^ pos) = y % 2 ^ len * 2 ^ pos := by
  apply Nat.eq_of_testBit_eq
  intro i
  rw [Nat.testBit_and, testBit_run, Nat.testBit_mul_two_pow, Nat.testBit_mul_two_pow, Nat.testBit_mod_two_pow]
  by_cases h : pos ≤ i
  · have hlt : (i - pos < len) ↔ i < pos + len := by omega
    simp [h, hlt, Bool.and_comm]
  · simp [h]

theorem bfiLane_eq (t : IntTy) (u v w : Pair) : bfiLane t u v w =
    (let pos := w.1.val.toNat % 256
     let len := min (w.1.val.toNat / 256 % 256) (t.width - pos)
     let m := (2 ^ len - 1) * 2 ^ pos
     wrTy t (((rawVal t.width u - (rawVal t.width u &&& m)) + (rawVal t.width v * 2 ^ pos &&& m) : Nat) : Int)) := by
  unfold bfiLane fieldLen fieldPos
  dsimp only
  generalize w.1.val.toNat % 256 = pos
  generalize w.1.val.toNat / 256 % 256 = n
  have hcond : (decide (n = 0) || decide (t.width ≤ pos)) = decide (min n (t.width - pos) = 0) := by
    rw [← Bool.decide_or, decide_eq_decide]; omega
  simp only [hcond, decide_eq_true_eq]
  generalize min n (t.width - pos) = len
  split
  case isTrue h => subst h; simp
  case isFalse => rw [sub_and_run, shifted_and_run, Nat.add_right_comm]

/-- Settles O6: each word is pure, and its lane function is the one stated. -/
theorem bitsAndFields : Obligations.BitsAndFields := by
  refine ⟨fun ty d a p mk => ?_, fun ty d a p mk => ?_, fun ty d a p mk => ?_, fun ty d a p b mk => ?_,
    fun ty d a p b mk => ?_, fun ty sat d a p mk hty => ?_, fun ty d a p b mk => ?_, fun ty d a p b c mk => ?_⟩
  · exact computes_eq (fun _ => rfl) fun x => by simp only [← clzLane_eq]
  · exact computes_eq (fun _ => rfl) fun x => by simp only [← popcLane_eq]
  · exact computes_eq (fun _ => rfl) fun x => by simp only [← brevLane_eq]
  · exact computes_eq (fun _ => rfl) fun x => by simp only [← minLane_eq]
  · exact computes_eq (fun _ => rfl) fun x => by simp only [← maxLane_eq]
  · have hs : tySigned ty = true := by rcases hty with rfl | rfl | rfl | rfl <;> rfl
    exact computes_eq (fun _ => rfl) fun x => by simp only [← absLane_eq hs]
  · refine computes_eq (fun _ => rfl) fun x => ?_
    rw [funext₂ (bfeLane_eq ty)]
  · refine computes_eq (fun _ => rfl) fun x => ?_
    rw [funext₃ (bfiLane_eq ty)]

end Sys2Proof.Laws
end

section
/-! SUPPORT. Two statements that fail: what two accounts of one word's results must share, a state that tells them apart,
and the refutations. -/

namespace Sys2Proof.Laws

open Sys2Proof Sys2Proof.Machine

/-! ### Two accounts of one word -/

/-- A word that computes some results computes no others: where its lanes are active and no window closes, both accounts
leave the same image. -/
theorem computes_unique {i : Instr} {os os' : State → Seat → List Out} (h : Computes i os) (h' : Computes i os') {s : State}
    {x : Seat} (hi : issues i s = true) (hx : x ∈ s.seats i.maskField) (hp : x.g.pend = []) {r l : Nat}
    (hl : inMask x.g.live l = true) :
    (resultLane (x.give (os s x)) r l).getD ((x.g.reg r).lane l) =
      (resultLane (x.give (os' s x)) r l).getD ((x.g.reg r).lane l) := by
  obtain ⟨t, he, hm⟩ := h s hi
  obtain ⟨t', he', hm'⟩ := h' s hi
  cases he.symm.trans he'
  obtain ⟨a, g, ha, hg, hgone⟩ := hm.members x hx
  obtain ⟨a', g', ha', hg', hgone'⟩ := hm'.members x hx
  cases ha.symm.trans (counted_gang hx)
  cases ha'.symm.trans (counted_gang hx)
  cases hg.symm.trans hg'
  have hdue : (x.g.count x.m0).dueOuts = [] := by simp [Gang.dueOuts, Gang.count, hp, dueFrom]
  have h1 := hgone.regs r l hl
  have h2 := hgone'.regs r l hl
  rw [hdue, List.append_nil] at h1 h2
  exact h1.symm.trans h2

/-- The state in which a gang of four lanes stands alone, its unit at its word, with these registers. -/
def alone (regs : Tab VReg) : State :=
  { State.reset with cur := ⟨65536, 0, mkAddr 1 8, mkAddr 1 0, 0#64, false⟩
                     gangs := [(65536, { placedGang 1 with regs := regs })] }

/-- Its one seat. -/
def aloneSeat (regs : Tab VReg) : Seat := ⟨65536, { placedGang 1 with regs := regs }, 0xF#32, 0xF#32, true⟩

/-! ### MOV of a pair (R119) -/

/-- A pair of registers of independent images, of which the second lists none. -/
def raggedPair : Tab VReg := [(4, .general (List.replicate 32 ⟨5#32, 0x1F#8⟩)), (5, .general [])]

/-- MOV of a pair whose two shapes agree writes each register whole. -/
theorem mov_pair_computes (d a : VNum) (mk : MNum) :
    Computes (.mov .w64 d a .none mk) fun _ x => movRegs x 2 d.toNat a.toNat := computes_pure _ fun _ => rfl

/-- Refutes O3: MOV copies a register of a pair whole, where the statement reads the pair lane by lane, which ends with the
shorter of two lists of images. A state that lists 32 images in one register and none in the other tells them apart. -/
theorem not_moves : ¬ Obligations.Moves := by
  rintro ⟨-, hmov, -⟩
  have h := computes_unique (mov_pair_computes 6#8 4#8 0#3) (hmov .w64 6#8 4#8 .none 0#3) (s := alone raggedPair)
    (x := aloneSeat raggedPair) (r := 6) (l := 0) (by decide +kernel) (by decide +kernel) rfl (by decide +kernel)
  exact absurd h (by decide +kernel)

/-! ### Shifts of an affine register (R38, R126) -/

/-- An affine register whose base is 2^16. -/
def highAffine : Tab VReg := [(4, .affine 0x10000#32 0#32)]

/-- SHL of an affine register by a uniform count, for a type narrower than 32 bits. -/
theorem shl_computes (d a b : VNum) (mk : MNum) : Computes (.shl .s16 d a .none b mk) fun _ x =>
    orAffine d (match x.shape b .none with
      | .uniform y => affShl (x.shape a .none) (y.val.toNat % 256)
      | _ => none) (outReg 1 d.toNat
        (Lanes.map2 (fun u v => shiftLane .shl .s16 u (shiftCount v)) (x.src 1 a .none) (x.src 1 b .none))) :=
  computes_pure _ fun _ => rfl

/-- Refutes O5: the statement gives SHL at every integer type, and the model keeps an affine register affine at 32 bits
(R38) whatever the type's width. At S16, a type that no word of SHL encodes (R113), 2^16 shifted by 0 stays 2^16. -/
theorem not_logicAndShifts : ¬ Obligations.LogicAndShifts := by
  rintro ⟨-, -, -, -, hshl, -⟩
  have h := computes_unique (shl_computes 6#8 4#8 5#8 0#3) (hshl .s16 6#8 4#8 .none 5#8 0#3) (s := alone highAffine)
    (x := aloneSeat highAffine) (r := 6) (l := 0) (by decide +kernel) (by decide +kernel) rfl (by decide +kernel)
  exact absurd h (by decide +kernel)

end Sys2Proof.Laws
end

section
/-! SUPPORT. Transfers whose targets all hold a clause header (R138-R143, R219), and the settled statement. -/

namespace Sys2Proof.Laws

open Sys2Proof Sys2Proof.Machine

/-! ### A member's transfer -/

theorem maskLanes_and (a b : Mask) : maskLanes (a &&& b) = (maskLanes a).filter (inMask b) := by
  simp only [maskLanes, List.filter_filter, Bool.and_comm, funext (inMask_and a b)]

theorem maskLanes_and_not (a b : Mask) : maskLanes (a &&& ~~~b) = (maskLanes a).filter fun l => !inMask b l := by
  rw [maskLanes_and]
  exact List.filter_congr fun l hl => inMask_not b (inMask_lt (mem_maskLanes.1 hl))

section
variable {s u : State} {x : Seat} {reg callee : Bool}

/-- What R138, R142 and R143 ask of the target of a transfer: a clause header, under the word's own handle when a register
supplies it, listed among the role's callees when the word is a CALLI or a JMPI. -/
def GoodTarget (s : State) (x : Seat) (reg callee : Bool) (a : Word64) : Prop :=
  s.headerAt (s.partOf x.g) (coreOf x.key) a = true ∧ (reg = true → hndOf a = hndOf s.cur.pc) ∧
    (callee = true → ∃ c ∈ (s.roleOf x.g).callees, c.1 = a)

theorem transferFlaw_none {tg : List (Nat × Word64)} (h : ∀ p ∈ tg, GoodTarget s x reg callee p.2) :
    s.transferFlaw x reg callee tg = none := by
  have hfetch : ∀ p ∈ tg, s.fetchFault (s.partOf x.g) (coreOf x.key) p.2 = none := fun p hp => by
    have hheader := (h p hp).1
    simp only [State.headerAt, Bool.and_eq_true, Option.isNone_iff_eq_none] at hheader
    exact hheader.1
  have hheaderless : (tg.filter fun p => (s.fetchFault (s.partOf x.g) (coreOf x.key) p.2).isNone &&
      !s.headerAt (s.partOf x.g) (coreOf x.key) p.2) = [] :=
    List.filter_eq_nil_iff.2 fun p hp => by simp [(h p hp).1]
  have hforeign : (tg.filter fun p => reg && hndOf p.2 != hndOf s.cur.pc) = [] :=
    List.filter_eq_nil_iff.2 fun p hp => by
      cases reg with
      | false => simp
      | true => simp [(h p hp).2.1 rfl]
  have hunlisted : (tg.filter fun p => callee && !((s.roleOf x.g).callees.any fun c => c.1 == p.2)) = [] :=
    List.filter_eq_nil_iff.2 fun p hp => by
      cases callee with
      | false => simp
      | true => simpa using (h p hp).2.2 rfl
  have hunread : (tg.filter fun p => (s.fetchFault (s.partOf x.g) (coreOf x.key) p.2).isSome) = [] :=
    List.filter_eq_nil_iff.2 fun p hp => by simp [hfetch p hp]
  simp only [State.transferFlaw, hheaderless, hforeign, hunlisted, hunread]
  rfl

/-- A transfer to good targets goes, in any state that differs in its gangs alone. -/
theorem transfer_good {tg : List (Nat × Word64)} (outs : List Out) (hu : u = { s with gangs := u.gangs })
    (h : ∀ p ∈ tg, GoodTarget s x reg callee p.2) :
    transfer reg callee x u tg outs = .ok u { outs := x.give outs, goto := tg } := by
  have hgood : ∀ p ∈ tg, GoodTarget u x reg callee p.2 := by rw [hu]; exact h
  rw [transfer, transferFlaw_none hgood]

end

/-! ### A word at which every member transfers -/

section
variable {i : Instr} {s : State} {body : Seat → State → SeatRes} {early : Seat → State → Option Flaw} {reg callee : Bool}

/-- What a word that issues has: a first member, no operand at fault, and no member that waits. -/
theorem issues_seats (hi : issues i s = true) : ∃ x0 xs, s.seats i.maskField = x0 :: xs ∧
    operandFault (16 * x0.g.allot) i.opnds = none ∧ (x0 :: xs).any (·.stalls i) = false := by
  simp only [issues, Bool.and_eq_true, Bool.not_eq_true', List.all_eq_true, Option.isNone_iff_eq_none] at hi
  obtain ⟨⟨hne, hop⟩, hall⟩ := hi
  cases hs : s.seats i.maskField with
  | nil => simp [hs] at hne
  | cons x0 xs =>
    rw [hs] at hop hall
    refine ⟨x0, xs, rfl, hop, List.any_eq_false.2 fun x hx => ?_⟩
    obtain ⟨⟨hlook, htok⟩, hacq⟩ := hall x hx
    rw [Seat.stalls, hlook, htok, hacq]
    decide

/-- A word that issues has no operand at fault, so no cause stands before one. -/
theorem issue_early (hi : issues i s = true) : issue i body s early = issue i body s := by
  obtain ⟨x0, xs, hs, hop, -⟩ := issues_seats hi
  unfold issue
  rw [hs]
  dsimp only
  rw [hop]

/-- Members that answer with results and change nothing of the state in which their word was counted. -/
theorem issue_counted (os : Seat → List (Mask × Out)) (goto : Seat → List (Nat × Word64)) (hi : issues i s = true)
    (hb : ∀ x ∈ s.seats i.maskField, body x (s.counted i.maskField) =
      .ok (s.counted i.maskField) { outs := os x, goto := goto x }) :
    Moved s (s.counted i.maskField) (issue i body s) i.maskField s.curWords os goto (endsIdem i) := by
  have hmoved := issue_moved (i := i) (s := s) (body := body) (fun _ u => u) os goto
    (fun u => u = s.counted i.maskField) hi rfl fun x hx u hu hg => by
      subst hu
      exact ⟨hb x hx, rfl, fun _ _ => rfl, rfl, _, hg⟩
  rwa [foldl_same fun _ _ _ => rfl] at hmoved

theorem transfer_completes {mk : Nat} {outs : Seat → List Out} {tg : Seat → List (Nat × Word64)} (hmk : i.maskField = mk)
    (he : exec i s = .next (issue i body s early)) (hi : issues i s = true)
    (hb : ∀ x ∈ s.seats mk, body x (s.counted mk) = transfer reg callee x (s.counted mk) (tg x) (outs x))
    (ht : ∀ x ∈ s.seats mk, ∀ p ∈ tg x, GoodTarget s x reg callee p.2) :
    Completes i s (s.counted mk) (fun x => x.give (outs x)) tg := by
  subst hmk
  refine ⟨_, he.trans (congrArg _ (issue_early hi)), issue_counted (fun x => x.give (outs x)) tg hi fun x hx => ?_⟩
  rw [hb x hx, transfer_good (outs x) (counted_rest s _) (ht x hx)]

theorem counted_pc (s : State) (mk : Nat) : (s.counted mk).cur.pc = s.cur.pc := by rw [counted_rest]

/-- The active lanes of a member all go to one target. -/
theorem goodTarget_lanes {x : Seat} {m : Mask} {target : Word64} (h : s.headerAt (s.partOf x.g) (coreOf x.key) target = true) :
    ∀ p ∈ laneTargets m target, GoodTarget s x false false p.2 := fun p hp => by
  obtain ⟨l, -, rfl⟩ := List.mem_map.1 hp
  exact ⟨h, nofun, nofun⟩

end

/-! ### How many lanes pass a test (R140, R219) -/

section
variable {s : State} {test : Seat → Nat → Bool}

theorem unitCount_pos_iff : 0 < (s.unitCount test).2 ↔ ∃ x ∈ s.seats 0, ∃ l ∈ maskLanes x.act, test x l = true := by
  refine ⟨fun h => ?_, unitCount_any⟩
  by_contra hnone
  push Not at hnone
  exact absurd (unitCount_none fun x hx l hl => hnone x hx l hl) (by omega)

theorem unitCount_zero_iff : (s.unitCount test).2 = 0 ↔ ∀ x ∈ s.seats 0, ∀ l ∈ maskLanes x.act, ¬ test x l = true := by
  refine ⟨fun h x hx l hl ht => ?_, unitCount_none⟩
  exact absurd (unitCount_any ⟨x, hx, l, hl, ht⟩) (by omega)

theorem unitCount_all_iff :
    (s.unitCount test).2 = (s.unitCount test).1 ↔ ∀ x ∈ s.seats 0, ∀ l ∈ maskLanes x.act, test x l = true := by
  refine ⟨fun h x hx l hl => ?_, unitCount_all⟩
  rw [unitCount_eq] at h
  exact List.countP_eq_length.1 h (x, l) (mem_unitActive.2 ⟨hx, hl⟩)

end

/-! ### BR, BRM and BSIG -/

section
variable {s : State}

/-- The lanes that BR sends: those whose bit agrees with its sense (R139). -/
theorem br_lanes (sense : BrSense) (act bits : Mask) :
    maskLanes (match sense with
      | .t => act &&& bits
      | .f => act &&& ~~~bits) = (maskLanes act).filter fun l => inMask bits l == (sense == .t) := by
  cases sense with
  | t => exact (maskLanes_and act bits).trans (List.filter_congr fun l _ => (beq_true _).symm)
  | f => exact (maskLanes_and_not act bits).trans (List.filter_congr fun l _ => (beq_false _).symm)

theorem br_completes {sense : BrSense} {mc : MNum} {hint : Hint} {disp : BitVec 32} {goes : Seat → List Nat}
    (hgoes : ∀ x, goes x = (maskLanes x.act).filter fun l => inMask (x.mask mc.toNat) l == (sense == .t))
    (hi : issues (.br sense mc hint disp) s = true)
    (h : ∀ x ∈ s.seats 0, goes x ≠ [] → s.headerAt (s.partOf x.g) (coreOf x.key) (dispTarget s.cur.pc disp) = true) :
    Completes (.br sense mc hint disp) s (s.counted 0) (fun _ => [])
      fun x => (goes x).map fun l => (l, dispTarget s.cur.pc disp) := by
  refine transfer_completes (i := .br sense mc hint disp) (outs := fun _ => []) (reg := false) (callee := false) rfl rfl hi
    (fun x hx => ?_) fun x hx p hp => ?_
  · rw [hgoes, ← br_lanes, ← counted_pc s 0]
    rfl
  · obtain ⟨l, hl, rfl⟩ := List.mem_map.1 hp
    exact ⟨h x hx (List.ne_nil_of_mem hl), nofun, nofun⟩

/-- A word by which all active lanes of the unit go to one target, or none. -/
theorem unit_transfer {i : Instr} {body : Seat → State → SeatRes} {taken : Bool} {target : Word64} {P : Prop}
    (hmk : i.maskField = 0) (he : exec i s = .next (issue i body s)) (hi : issues i s = true)
    (hb : ∀ x ∈ s.seats 0, body x (s.counted 0) =
      transfer false false x (s.counted 0) (if taken then laneTargets x.act target else []) []) (hP : taken = true ↔ P) :
    (P → (∀ x ∈ s.seats 0, s.headerAt (s.partOf x.g) (coreOf x.key) target = true) →
      Completes i s (s.counted 0) (fun _ => []) fun x => (maskLanes x.act).map fun l => (l, target)) ∧
    (¬ P → Completes i s (s.counted 0) (fun _ => []) fun _ => []) := by
  rw [← hP]
  refine ⟨fun htaken h => ?_, fun hnot => ?_⟩
  · exact transfer_completes (outs := fun _ => []) hmk he hi (fun x hx => (hb x hx).trans (by rw [if_pos htaken]; rfl))
      fun x hx => goodTarget_lanes (h x hx)
  · exact transfer_completes (outs := fun _ => []) (tg := fun _ => []) hmk he hi
      (fun x hx => (hb x hx).trans (by rw [if_neg hnot])) fun _ _ => nofun

/-- Whether BRM is taken, by how many active lanes stand and how many have their bit set (R140). -/
def brmTaken (kind : BrmKind) (n : Nat × Nat) : Bool :=
  match kind with
  | .any => decide (0 < n.2)
  | .all => decide (n.2 = n.1)
  | .none => decide (n.2 = 0)

theorem brmTaken_iff {kind : BrmKind} {test : Seat → Nat → Bool} : brmTaken kind (s.unitCount test) = true ↔
    match kind with
      | .any => ∃ x ∈ s.seats 0, ∃ l ∈ maskLanes x.act, test x l = true
      | .all => ∀ x ∈ s.seats 0, ∀ l ∈ maskLanes x.act, test x l = true
      | .none => ∀ x ∈ s.seats 0, ∀ l ∈ maskLanes x.act, ¬ test x l = true := by
  cases kind with
  | any => exact decide_eq_true_iff.trans unitCount_pos_iff
  | all => exact decide_eq_true_iff.trans unitCount_all_iff
  | none => exact decide_eq_true_iff.trans unitCount_zero_iff

theorem brm_body (kind : BrmKind) (mc : MNum) (hint : Hint) (disp : BitVec 32) :
    exec (.brm kind mc hint disp) s = .next (issue (.brm kind mc hint disp) (fun x t => transfer false false x t
      (if brmTaken kind (t.unitCount fun y l => inMask (y.mask mc.toNat) l) then
        laneTargets x.act (dispTarget t.cur.pc disp) else []) []) s) := by
  cases kind <;> rfl

/-- Whether BSIG is taken, by how many active lanes stand and how many lie below the threshold (R219). -/
def bsigTaken (kind : BsigKind) (n : Nat × Nat) : Bool :=
  if kind == .any || kind == .anyD then decide (0 < n.2) else decide (n.2 = n.1)

theorem bsigTaken_iff {kind : BsigKind} {test : Seat → Nat → Bool} : bsigTaken kind (s.unitCount test) = true ↔
    if kind = .any ∨ kind = .anyD then ∃ x ∈ s.seats 0, ∃ l ∈ maskLanes x.act, test x l = true
    else ∀ x ∈ s.seats 0, ∀ l ∈ maskLanes x.act, test x l = true := by
  cases kind with
  | any => exact decide_eq_true_iff.trans unitCount_pos_iff
  | anyD => exact decide_eq_true_iff.trans unitCount_pos_iff
  | all => exact decide_eq_true_iff.trans unitCount_all_iff
  | allD => exact decide_eq_true_iff.trans unitCount_all_iff

theorem bsig_body (kind : BsigKind) (va : VNum) (thr : BitVec 6) (hint : Hint) (disp : BitVec 32) :
    exec (.bsig kind va thr hint disp) s = .next (issue (.bsig kind va thr hint disp) (fun x t => transfer false false x t
      (if bsigTaken kind (t.unitCount (bsigLow kind va thr)) then laneTargets x.act (dispTarget t.cur.pc disp) else []) [])
      s) := rfl

/-! ### Words whose target stands in a register (R142, R143) -/

theorem call_completes {vd : VNum} {hint : Hint} {disp : BitVec 32} (hi : issues (.call vd hint disp) s = true)
    (h : ∀ x ∈ s.seats 0, s.headerAt (s.partOf x.g) (coreOf x.key) (dispTarget s.cur.pc disp) = true) :
    Completes (.call vd hint disp) s (s.counted 0)
      (fun x => x.give (outWord vd.toNat (addWords s.cur.pc (x.g.flowAt x.low0).rem)))
      fun x => (maskLanes x.act).map fun l => (l, dispTarget s.cur.pc disp) :=
  transfer_completes (i := .call vd hint disp) rfl rfl hi
    (fun x _ => by rw [State.returnAddr, counted_pc]; rfl) fun x hx => goodTarget_lanes (h x hx)

/-- A word by which each active lane goes where its pair names. -/
theorem pair_transfer {i : Instr} {body : Seat → State → SeatRes} {early : Seat → State → Option Flaw} {mk : MNum}
    {va : VNum} {callee : Bool} (outs : Seat → List Out) (hmk : i.maskField = mk.toNat)
    (he : exec i s = .next (issue i body s early)) (hi : issues i s = true)
    (hb : ∀ x, body x (s.counted mk.toNat) = transfer true callee x (s.counted mk.toNat) (x.pairTargets va) (outs x))
    (h : ∀ x ∈ s.seats mk.toNat, ∀ l ∈ maskLanes x.act, GoodTarget s x true callee (x.g.pairAt va.toNat l)) :
    Completes i s (s.counted mk.toNat) (fun x => x.give (outs x))
      fun x => (maskLanes x.act).map fun l => (l, x.g.pairAt va.toNat l) :=
  transfer_completes hmk he hi (fun x _ => hb x) fun x hx p hp => by
    obtain ⟨l, hl, rfl⟩ := List.mem_map.1 hp
    exact h x hx l hl

end

/-- Settles O22: every member's transfer meets `transfer_good`. -/
theorem transfers : Obligations.Transfers := by
  refine ⟨dispTarget_fields, fun s sense mc hint disp hi => ?_, fun s kind mc hint disp hi => ?_,
    fun s kind va thr hint disp hi => ?_, fun s vd hint disp hi => ?_, fun s vd va mk hi h => ?_, fun s va mk hi h => ?_,
    fun s va mk hi h => ?_⟩
  · intro goes target h
    exact br_completes (fun _ => rfl) hi h
  · intro set taken target
    refine unit_transfer (taken := brmTaken kind (s.unitCount fun y l => inMask (y.mask mc.toNat) l)) rfl
      (brm_body kind mc hint disp) hi (fun x _ => ?_) ?_
    · rw [unitCount_counted 0 fun _ _ => rfl, counted_pc]
    · exact brmTaken_iff.trans (by cases kind <;> rfl)
  · intro wide low taken target
    refine unit_transfer (taken := bsigTaken kind (s.unitCount (bsigLow kind va thr))) rfl
      (bsig_body kind va thr hint disp) hi (fun x _ => ?_) ?_
    · rw [unitCount_counted 0 fun _ _ => rfl, counted_pc]
    · have hlow : ∀ x l, bsigLow kind va thr x l = true ↔ low x l := fun x l => by
        rw [bsigLow_iff]
        by_cases hw : kind = .anyD ∨ kind = .allD
        · simp only [low, wide, if_pos hw]
        · simp only [low, wide, if_neg hw]
      simp only [bsigTaken_iff, hlow]
      rfl
  · intro target h
    exact call_completes hi h
  · refine pair_transfer (i := .calli vd va mk) (callee := true) _ rfl rfl hi (fun x => ?_) fun x hx l hl => ?_
    · rw [State.returnAddr, counted_pc]
    · obtain ⟨hheader, hhandle, hlisted⟩ := h x hx l hl
      exact ⟨hheader, fun _ => hhandle, fun _ => hlisted⟩
  · refine pair_transfer (i := .jmpi va mk) (callee := true) (fun _ => []) rfl rfl hi (fun _ => rfl) fun x hx l hl => ?_
    obtain ⟨hheader, hhandle, hlisted⟩ := h x hx l hl
    exact ⟨hheader, fun _ => hhandle, fun _ => hlisted⟩
  · refine pair_transfer (i := .ret va mk) (callee := false) (fun _ => []) rfl rfl hi (fun _ => rfl) fun x hx l hl => ?_
    obtain ⟨hheader, hhandle⟩ := h x hx l hl
    exact ⟨hheader, fun _ => hhandle, nofun⟩

end Sys2Proof.Laws
end

section
/-! SUPPORT. REGANG, WAITTOK and EXIT (R18, R33, R43, R144-R146): the words of the control family that may wait at their
addresses or end their lanes, and the settled statement. -/

namespace Sys2Proof.Laws

open Sys2Proof Sys2Proof.Machine

/-! ### Members that wait -/

section
variable {i : Instr} {s : State} {body : Seat → State → SeatRes} {early : Seat → State → Option Flaw} {f : State → State}

/-- Members of which each goes on without effect or waits as `f` says: what the waiting ones leave is `f`. -/
theorem runSeats_waits {xs : List Seat} {r : Ran}
    (h : ∀ x ∈ xs, body x r.state = .ok r.state {} ∨ body x r.state = .wait f) :
    ∃ effs ws, runSeats body xs r = { r with effs := effs, waits := r.waits ++ ws } ∧ (∀ w ∈ ws, w = f) ∧
      ((∃ x ∈ xs, body x r.state = .wait f) → ws ≠ []) := by
  induction xs generalizing r with
  | nil => exact ⟨r.effs, [], by simp [runSeats], nofun, fun ⟨_, hx, _⟩ => absurd hx List.not_mem_nil⟩
  | cons x xs ih =>
    rw [List.forall_mem_cons] at h
    obtain ⟨hx, hxs⟩ := h
    rw [runSeats]
    rcases hx with hx | hx
    · obtain ⟨effs, ws, hrun, hall, hne⟩ := ih (r := { r with effs := r.effs ++ [(x, {})] }) hxs
      refine ⟨effs, ws, by rw [hx]; exact hrun, hall, fun ⟨y, hy, hwait⟩ => ?_⟩
      rcases List.mem_cons.1 hy with rfl | hy
      · rw [hx] at hwait; cases hwait
      · exact hne ⟨y, hy, hwait⟩
    · obtain ⟨effs, ws, hrun, hall, -⟩ := ih (r := { r with waits := r.waits ++ [f] }) hxs
      refine ⟨effs, f :: ws, by rw [hx]; exact hrun.trans (by simp), fun w hw => ?_, fun _ => List.cons_ne_nil _ _⟩
      rcases List.mem_cons.1 hw with rfl | hw
      · rfl
      · exact hall w hw

/-- A word at which a member of the unit waits: the state is what the wait leaves of the one before the word. -/
theorem issue_holds (hi : issues i s = true)
    (h : ∀ x ∈ s.seats i.maskField, body x (s.counted i.maskField) = .ok (s.counted i.maskField) {} ∨
      body x (s.counted i.maskField) = .wait f)
    (hw : ∃ x ∈ s.seats i.maskField, body x (s.counted i.maskField) = .wait f) : issue i body s = f s := by
  obtain ⟨x0, xs, hs, hop, hstall⟩ := issues_seats hi
  obtain ⟨effs, ws, hrun, hsame, hne⟩ := runSeats_waits (r := ⟨s.counted i.maskField, [], [], []⟩) h
  obtain ⟨w, ws, rfl⟩ := List.exists_cons_of_ne_nil (hne hw)
  cases hsame w List.mem_cons_self
  unfold State.counted at hrun
  unfold issue
  rw [hs] at hrun ⊢
  dsimp only
  rw [hop]
  dsimp only
  rw [hstall, hrun]
  rfl

end

/-! ### Teams and lanes under changes of what they do not read -/

section
variable {s t : State} {F : Nat → Gang → Gang}

theorem united_map (hg : ∀ k, t.gang? k = (s.gang? k).map (F k)) (hm : ∀ k g, (F k g).mates = g.mates)
    (hlife : ∀ k g, (F k g).life = g.life) (hflow : ∀ k g, (F k g).flow = g.flow) (key : Nat) :
    t.united key = s.united key := by
  have hlanes : (t.team key).flatMap (fun kg => (maskLanes kg.2.live).map kg.2.flowAt) =
      (s.team key).flatMap fun kg => (maskLanes kg.2.live).map kg.2.flowAt := by
    have hat : ∀ k g, (F k g).flowAt = g.flowAt := fun k g => by unfold Gang.flowAt; rw [hflow]
    rw [team_map hg hm, List.flatMap_map]
    simp only [Gang.live, hat, hlife]
  simp only [State.united, hlanes]

theorem united_counted (s : State) (mk key : Nat) : (s.counted mk).united key = s.united key := by
  obtain ⟨F, hg, hF⟩ := counted_gangs s mk
  exact united_map hg (fun k g => by rw [hF]) (fun k g => by rw [hF]) (fun k g => by rw [hF]) key

/-- The members of a unit and their issuing lanes, whatever the mask field. -/
theorem seats_lanes (s : State) (mk : Nat) : (s.seats mk).map (fun x => (x.key, x.m0)) =
    (s.team s.cur.key).filterMap fun kg =>
      if kg.2.unitLanes s.cur.part == 0#32 then none else some (kg.1, kg.2.unitLanes s.cur.part) := by
  unfold State.seats
  dsimp only
  rw [List.map_map, Function.comp_def, map_snd_indexFrom (f := fun q : Nat × Gang × Mask × Mask => (q.1, q.2.2.1)),
    List.map_filterMap]
  refine List.filterMap_congr fun kg _ => ?_
  split <;> rfl

theorem seats_lanes_map (hg : ∀ k, t.gang? k = (s.gang? k).map (F k)) (hm : ∀ k g, (F k g).mates = g.mates)
    (hu : ∀ k g part, (F k g).unitLanes part = g.unitLanes part) (hcur : t.cur = s.cur) (mk : Nat) :
    (t.seats mk).map (fun x => (x.key, x.m0)) = (s.seats mk).map fun x => (x.key, x.m0) := by
  rw [seats_lanes, seats_lanes, hcur, team_map hg hm, List.filterMap_map]
  simp only [Function.comp_def, hu]

/-- Changes of gangs, each by what the state holds besides its gangs. -/
theorem foldl_updGang (F : State → Seat → Gang → Gang) (hF : ∀ u : State, u = { s with gangs := u.gangs } → F u = F s)
    (xs : List Seat) (ht : t = { s with gangs := t.gangs }) :
    xs.foldl (fun u x => u.updGang x.key (F u x)) t = upds t (xs.map fun x => (x.key, F s x)) := by
  induction xs generalizing t with
  | nil => rfl
  | cons x xs ih =>
    rw [List.foldl_cons, hF t ht]
    exact ih (rest_trans ht (updGang_rest _ _ _))

theorem splitBy_flowAt (part : Option Nat) (name : Bool × Nat → Option Nat) (g : Gang) (l : Nat) :
    ∃ p, (splitBy part name g).flowAt l = { g.flowAt l with part := p } := by
  unfold splitBy
  rw [flowAt_mapFlow]
  split
  · split
    · exact ⟨_, rfl⟩
    · exact ⟨_, rfl⟩
  · exact ⟨_, rfl⟩

/-- Splitting parts changes nothing of a lane but its part (R16). -/
theorem resplit_flow {k : Nat} {g : Gang} (key : Nat) (part : Option Nat) (h : s.gang? k = some g) :
    ∃ g', (s.resplit key part).gang? k = some g' ∧ g' = { g with flow := g'.flow } ∧
      ∀ l, ∃ p, g'.flowAt l = { g.flowAt l with part := p } := by
  rw [resplit_upds, gang_upds, h, Option.map_some, List.foldl_map]
  refine ⟨_, rfl, List.foldlRecOn (motive := fun a : Gang => a = { g with flow := a.flow } ∧
    ∀ l, ∃ p, a.flowAt l = { g.flowAt l with part := p }) _ _ ⟨rfl, fun l => ⟨_, rfl⟩⟩ fun a ha kg _ => ?_⟩
  obtain ⟨hrest, hlane⟩ := ha
  split
  case isFalse => exact ⟨hrest, hlane⟩
  case isTrue =>
    refine ⟨congrArg (fun h : Gang => { h with flow := (splitBy part (partNames s key part) a).flow }) hrest, fun l => ?_⟩
    obtain ⟨p, hp⟩ := hlane l
    obtain ⟨q, hq⟩ := splitBy_flowAt part (partNames s key part) a l
    exact ⟨q, hq.trans (by rw [hp])⟩

theorem forget_gang {k key part : Nat} {g : Gang} (h : s.gang? k = some g) :
    ∃ g', (s.updGang key fun g => g.forget part).gang? k = some g' ∧
      g' = { g with fetched := g'.fetched, waits := g'.waits } := by
  rw [gang_updGang, h]
  split
  · exact ⟨_, rfl, rfl⟩
  · exact ⟨_, rfl, rfl⟩

end

/-! ### REGANG (R18, R144) -/

theorem regang_passes {s : State} (hi : issues .regang s = true) (hu : s.united s.cur.key = true) :
    Completes .regang s (s.counted 0) (fun _ => []) fun _ => [] := by
  refine ⟨_, rfl, issue_counted _ _ hi fun x _ => ?_⟩
  have hcur : (s.counted Instr.regang.maskField).cur = s.cur := by rw [counted_rest]
  rw [hcur, united_counted, if_pos hu]

section
variable {s : State} {x : Seat}

/-- A gang whose issuing lanes wait as at a REGANG, each with the word. -/
def waitLanes (m0 : Mask) (word : Word64) (g : Gang) : Gang :=
  g.mapFlow fun l f => if inMask m0 l then { f with rgw := true, word := word } else f

theorem waitLanes_flowAt (m0 : Mask) (word : Word64) (g : Gang) {l : Nat} (hl : l < g.flow.length) :
    ((waitLanes m0 word g).flowAt l).pc = (g.flowAt l).pc ∧
      ((waitLanes m0 word g).flowAt l).rgw = (inMask m0 l || (g.flowAt l).rgw) := by
  rw [waitLanes, flowAt_mapFlow, if_pos hl]
  cases inMask m0 l with
  | true => exact ⟨rfl, rfl⟩
  | false => exact ⟨rfl, rfl⟩

theorem flush_frame (g : Gang) (tick : Nat) : g.flush tick =
    { g with regs := (g.flush tick).regs, masks := (g.flush tick).masks, pend := (g.flush tick).pend } := by
  have hpend : (g.flush tick).pend = g.leftPend := congrArg Gang.pend (flush_rest g tick)
  rw [hpend]
  exact flush_rest g tick

theorem countUnit_upds (s : State) :
    s.countUnit = upds s ((s.seats 0).map fun x => (x.key, fun g => (g.count x.m0).flush s.tick)) :=
  foldl_updGang (fun u x g => (g.count x.m0).flush u.tick) (fun u hu => by rw [hu]) _ rfl

/-- Counting the unit's word and writing what closes leaves every lane where it is. -/
theorem countUnit_gangs (s : State) : ∃ F : Nat → Gang → Gang, (∀ k, s.countUnit.gang? k = (s.gang? k).map (F k)) ∧
    ∀ k g, F k g = { g with regs := (F k g).regs, masks := (F k g).masks, pend := (F k g).pend } := by
  rw [countUnit_upds]
  refine ⟨_, gang_upds s _, fun k g => ?_⟩
  rw [List.foldl_map]
  refine List.foldlRecOn (motive := fun a : Gang => a = { g with regs := a.regs, masks := a.masks, pend := a.pend }) _ _
    rfl fun a ha x _ => ?_
  split
  case isFalse => exact ha
  case isTrue =>
    exact (flush_frame (a.count x.m0) s.tick).trans (congrArg (fun h : Gang => { h with
      regs := ((a.count x.m0).flush s.tick).regs, masks := ((a.count x.m0).flush s.tick).masks
      pend := ((a.count x.m0).flush s.tick).pend }) ha)

theorem countUnit_gang (hx : x ∈ s.seats 0) : s.countUnit.gang? x.key = some ((x.g.count x.m0).flush s.tick) := by
  have h := upds_gang s ((s.seats 0).map fun x => (x.key, fun g => (g.count x.m0).flush s.tick))
    (by rw [keys_map]; exact seats_nodup s _) _ (List.mem_map_of_mem hx)
  rw [(seat_facts hx).1] at h
  rw [countUnit_upds]
  exact h

theorem countUnit_rest (s : State) : s.countUnit = { s with gangs := s.countUnit.gangs } := by
  rw [countUnit_upds]; exact upds_rest _ _

theorem countUnit_lanes (s : State) :
    (s.countUnit.seats 0).map (fun x => (x.key, x.m0)) = (s.seats 0).map fun x => (x.key, x.m0) := by
  obtain ⟨F, hg, hF⟩ := countUnit_gangs s
  exact seats_lanes_map hg (fun k g => by rw [hF]) (fun k g part => by rw [hF]; rfl) (by rw [countUnit_rest]) 0

theorem waitRegang_eq (s : State) : s.waitRegang =
    (upds (s.updGang s.cur.key fun g => g.forget s.cur.part)
      ((s.seats 0).map fun x => (x.key, waitLanes x.m0 s.cur.word))).resplit s.cur.key (some s.cur.part) := by
  have hfold := foldl_updGang (s := s) (fun u x => waitLanes x.m0 u.cur.word) (fun u hu => by rw [hu]) (s.seats 0)
    (updGang_rest s s.cur.key fun g => g.forget s.cur.part)
  rw [← hfold]
  rfl

/-- A member whose lanes wait at the REGANG. -/
theorem waitRegang_gang {v : State} {k : Nat} {m0 : Mask} {g : Gang} (hg : v.gang? k = some g)
    (hk : (k, m0) ∈ (v.seats 0).map fun x => (x.key, x.m0)) :
    ∃ g', v.waitRegang.gang? k = some g' ∧ g' = { g with flow := g'.flow, fetched := g'.fetched, waits := g'.waits } ∧
      ∀ l, l < g.flow.length → (g'.flowAt l).pc = (g.flowAt l).pc ∧
        (g'.flowAt l).rgw = (inMask m0 l || (g.flowAt l).rgw) := by
  obtain ⟨x, hx, hxk⟩ := List.mem_map.1 hk
  cases hxk
  obtain ⟨g1, h1, e1⟩ := forget_gang (key := v.cur.key) (part := v.cur.part) hg
  have h2 := upds_gang (v.updGang v.cur.key fun g => g.forget v.cur.part)
    ((v.seats 0).map fun x => (x.key, waitLanes x.m0 v.cur.word)) (by rw [keys_map]; exact seats_nodup v _) _
    (List.mem_map_of_mem hx)
  rw [h1] at h2
  obtain ⟨g3, h3, e3, hlane⟩ := resplit_flow v.cur.key (some v.cur.part) h2
  have hflow : g1.flow = g.flow := by rw [e1]
  refine ⟨g3, by rw [waitRegang_eq]; exact h3, by rw [e3, e1]; rfl, fun l hl => ?_⟩
  obtain ⟨p, hp⟩ := hlane l
  obtain ⟨hpc, hrgw⟩ := waitLanes_flowAt x.m0 v.cur.word g1 (hflow ▸ hl)
  have hat : g1.flowAt l = g.flowAt l := by rw [Gang.flowAt, hflow]; rfl
  rw [hat] at hpc hrgw
  rw [hp]
  exact ⟨hpc, hrgw⟩

theorem waitRegang_rest (s : State) : s.waitRegang = { s with gangs := s.waitRegang.gangs } := by
  rw [waitRegang_eq]
  exact rest_trans (rest_trans (updGang_rest _ _ _) (upds_rest _ _)) (resplit_rest _ _ _)

theorem regang_waits (hi : issues .regang s = true) (hu : s.united s.cur.key = false) :
    exec .regang s = .next s.countUnit.waitRegang := by
  have hcur : (s.counted Instr.regang.maskField).cur = s.cur := by rw [counted_rest]
  have hne : ∃ x, x ∈ s.seats Instr.regang.maskField := by
    refine List.exists_mem_of_ne_nil _ fun h => ?_
    simp [issues, h] at hi
  have hbody : (if (s.counted Instr.regang.maskField).united (s.counted Instr.regang.maskField).cur.key then
      SeatRes.ok (s.counted Instr.regang.maskField) {} else .wait fun s => s.countUnit.waitRegang) =
      .wait fun s => s.countUnit.waitRegang := by
    rw [hcur, united_counted, if_neg (by simp [hu])]
  obtain ⟨x, hx⟩ := hne
  exact congrArg Host.Outcome.next (issue_holds (f := fun s => s.countUnit.waitRegang) hi
    (fun _ _ => .inr hbody) ⟨x, hx, hbody⟩)

end

/-! ### WAITTOK (R43, R146) -/

section
variable {s : State}

theorem zero_of_toksClear {g : Gang} {ts : BitVec 7} (h : g.toksClear (ts ++ (0#1 : BitVec 1)) = true) :
    ∀ k, k < 7 → ts.getLsbD k = true → Tab.at g.toks 0 (k + 1) = 0 := by
  intro k hk ht
  have hbit : (ts ++ (0#1 : BitVec 1)).getLsbD (k + 1) = true := by
    rw [BitVec.getLsbD_append, if_neg (by omega), Nat.add_sub_cancel, ht]
  have hall := List.all_eq_true.1 h (k + 1) (List.mem_range.2 (by omega))
  simpa [hbit, Gang.tok] using hall

theorem waittok_waits {ts : BitVec 7} (hi : issues (.waittok ts) s = true)
    (h : ∃ x ∈ s.seats 0, ¬ ∀ k, k < 7 → ts.getLsbD k = true → Tab.at x.g.toks 0 (k + 1) = 0) :
    exec (.waittok ts) s = .next (s.holdWord true false) := by
  obtain ⟨x, hx, hnot⟩ := h
  refine congrArg Host.Outcome.next (issue_holds (f := fun s => s.holdWord true false) hi (fun y _ => ?_) ⟨x, hx, ?_⟩)
  · by_cases hclear : y.g.toksClear (ts ++ (0#1 : BitVec 1)) = true
    · exact .inl (if_pos hclear)
    · exact .inr (if_neg hclear)
  · exact if_neg fun hclear => hnot (zero_of_toksClear hclear)

/-- The lead of a unit that waits at its word keeps the word, and the part counts as waiting (R85). -/
theorem holdWord_gang {g : Gang} (hg : s.gang? s.cur.key = some g) :
    ∃ g', (s.holdWord true false).gang? s.cur.key = some g' ∧
      g' = { g with fetched := g'.fetched, waits := g'.waits } ∧ g'.waitsAt s.cur.part s.cur.pc = true := by
  unfold State.holdWord
  rw [gang_updGang, if_pos rfl, hg]
  exact ⟨_, rfl, rfl, by simp [Gang.waitsAt, Gang.waitAt?]⟩

end

/-! ### EXIT (R13, R33, R105, R145) -/

section
variable (g : Gang) (m : Mask)

theorem kill_live (l : Nat) : inMask (g.kill m).live l = (inMask g.live l && !inMask m l) := by
  have h := getElem?_map_indexFrom (fun k (v : Life) => if inMask m k && v == .live then Life.exited else v) g.life 0 l
  rw [Nat.zero_add] at h
  have hlife : (g.kill m).live = maskOf fun k => (((indexFrom 0 g.life).map fun e =>
    if inMask m e.1 && e.2 == .live then Life.exited else e.2).getD k .never) == .live := rfl
  rw [hlife, Gang.live, inMask_maskOf, inMask_maskOf, List.getD_eq_getElem?_getD, h, List.getD_eq_getElem?_getD,
    Bool.and_assoc]
  congr 1
  cases g.life[l]? with
  | none => rfl
  | some v => cases v <;> cases inMask m l <;> rfl

theorem kill_live_mask : (g.kill m).live = g.live &&& ~~~m := mask_ext fun l hl => by
  rw [kill_live, inMask_and, inMask_not _ hl]

theorem sliceMask_beyond {sl : Nat} (h : 8 ≤ sl) : sliceMask sl = 0#32 := by
  have hpow : 15 * 16 ^ sl = 2 ^ 32 * (15 * 16 ^ (sl - 8)) := by
    have hsl : sl = 8 + (sl - 8) := by omega
    conv_lhs => rw [hsl, pow_add]
    ring
  apply BitVec.eq_of_toNat_eq
  rw [sliceMask, BitVec.toNat_ofNat, hpow, Nat.mul_mod_right]
  rfl

/-- R105: a result pending for a slice without a live lane has no window there. -/
theorem kill_win {sl : Nat} (h : ∀ l, l / 4 = sl → inMask (g.kill m).live l = false) :
    ∀ p ∈ (g.kill m).pend, p.win.getD sl 0 = 0 := by
  intro p hp
  obtain ⟨q, -, rfl⟩ := List.mem_map.1 hp
  have hslice : ((g.kill m).live &&& sliceMask sl) = 0#32 := by
    by_cases hs : sl < 8
    · exact (and_sliceMask_eq_zero hs).2 h
    · rw [sliceMask_beyond (by omega), BitVec.and_zero]
  have hwin := getElem?_map_indexFrom (fun k (w : Nat) => if ((g.kill m).live &&& sliceMask k) == 0#32 then 0 else w)
    q.win 0 sl
  rw [Nat.zero_add, hslice] at hwin
  refine (List.getD_eq_getElem?_getD ..).trans ((congrArg (·.getD 0) hwin).trans ?_)
  cases q.win[sl]? with
  | none => rfl
  | some w => rfl

theorem kill_pend : (g.kill m).pend.map (fun p => { p with win := ([] : List Nat) }) = g.pend.map fun p => { p with win := [] } :=
  List.map_map

end

/-- What a retirement does: it puts its release (R270), and cores may come to give up claims (R301). -/
theorem retire_eq (s : State) (x : Seat) :
    ∃ cs, s.retire x = { s.putRel x .retire [] (s.openEntries x.key) none 0 with cores := cs } := by
  unfold State.retire
  dsimp only
  split
  · exact ⟨_, rfl⟩
  · exact ⟨_, rfl⟩

theorem retire_gangs (s : State) (x : Seat) : (s.retire x).gangs = (s.updGang x.key fun g => g).gangs := by
  obtain ⟨cs, h⟩ := retire_eq s x
  rw [h]
  rfl

theorem retire_rels (s : State) (x : Seat) : (s.retire x).rels = s.rels ++
    [⟨s.nextId, x.key, x.g.launch, s.partOf x.g, .retire, s.openEntries x.key, none, false, 0, []⟩] := by
  obtain ⟨cs, h⟩ := retire_eq s x
  rw [h]
  rfl

theorem retire_cur (s : State) (x : Seat) : (s.retire x).cur = s.cur := by
  obtain ⟨cs, h⟩ := retire_eq s x
  rw [h]
  exact updGang_cur _ _ _

theorem retire_gang (s : State) (x : Seat) (k : Nat) : (s.retire x).gang? k = s.gang? k := by
  have h : (s.retire x).gang? k = (s.updGang x.key fun g => g).gang? k := congrArg (Tab.find? · k) (retire_gangs s x)
  rw [h, gang_updGang]
  split
  · exact Option.map_id'
  · rfl

/-- A member's gang after an EXIT of its active lanes: they are exited, what closes is written, and the clause's YIELD
offers the place (R86). -/
def exited (x : Seat) (u : State) (g : Gang) : Gang :=
  { (g.kill x.act).flush u.tick with offer := g.offer || (maskLanes x.act).any fun l =>
      (g.flowAt l).yld == 1#2 || ((g.flowAt l).yld == 2#2 && decide (40 < (u.core (coreOf x.key)).imb)) }

/-- What an EXIT makes of the state at a member. -/
def exitStep (x : Seat) (u : State) : State :=
  if x.g.live &&& ~~~x.act = 0#32 then (u.updGang x.key (exited x u)).retire x else u.updGang x.key (exited x u)

theorem exited_alive (x : Seat) (u : State) (g : Gang) : (exited x u g).alive = !decide (g.live &&& ~~~x.act = 0#32) := by
  have hlive : (exited x u g).live = g.live &&& ~~~x.act := by
    have h : (exited x u g).live = ((g.kill x.act).flush u.tick).live := rfl
    rw [h, flush_rest]
    exact kill_live_mask g x.act
  rw [Gang.alive, hlive, bne, beq_eq_decide]

theorem exit_acts (mk : MNum) : Acts (.exit mk) (fun _ _ => true) exitStep := by
  refine acts_of exitStep (fun _ _ => True) (fun _ => rfl) (fun _ => trivial) fun s x _ _ u _ hg => ?_
  have hgang : ∀ k, (exitStep x u).gang? k = (u.updGang x.key (exited x u)).gang? k := fun k => by
    unfold exitStep
    split
    · exact retire_gang _ x k
    · rfl
  have hself : (u.updGang x.key (exited x u)).gang? x.key = some (exited x u (x.g.count x.m0)) := by
    rw [gang_updGang, if_pos rfl, hg, Option.map_some]
  have hdead : ((u.updGang x.key (exited x u)).gang? x.key).elim false (fun g => !g.alive) =
      decide (x.g.live &&& ~~~x.act = 0#32) := by
    rw [hself, Option.elim_some, exited_alive, Bool.not_not]
    rfl
  refine ⟨?_, trivial, fun k hk => ?_, ?_, _, (hgang x.key).trans hself⟩
  · have hstep : exitStep x u = if decide (x.g.live &&& ~~~x.act = 0#32) then
        (u.updGang x.key (exited x u)).retire x else u.updGang x.key (exited x u) := by
      simp only [exitStep, decide_eq_true_eq]
    rw [hstep, ← hdead]
    rfl
  · rw [hgang, gang_updGang, if_neg hk.symm]
  · unfold exitStep
    split
    · rw [retire_cur, updGang_cur]
    · rw [updGang_cur]

/-- Settles O24: a REGANG or a WAITTOK passes or holds its unit, and EXIT acts member by member. -/
theorem waitsAndExit : Obligations.WaitsAndExit := by
  refine ⟨fun s hi hu => regang_passes hi hu, fun s hi hu => ?_, fun s toks hi => ⟨fun h => waittok_passes hi h, fun h => ?_⟩,
    exit_acts, fun g m => ⟨kill_live g m, rfl, kill_pend g m⟩, fun g m sl h => kill_win g m h,
    fun s x => ⟨retire_gangs s x, retire_mem s x, retire_rels s x⟩⟩
  · refine ⟨_, regang_waits hi hu, rest_trans (countUnit_rest s) (waitRegang_rest _), fun x hx => ?_⟩
    have hflow : ((x.g.count x.m0).flush s.tick).flow = x.g.flow := by rw [flush_rest]; rfl
    obtain ⟨g', hg', hrest, hlane⟩ := waitRegang_gang (m0 := x.m0) (countUnit_gang hx)
      (by rw [countUnit_lanes]; exact List.mem_map_of_mem hx)
    refine ⟨g', hg', hrest, fun l hl => ?_⟩
    have hat : ((x.g.count x.m0).flush s.tick).flowAt l = x.g.flowAt l := by rw [Gang.flowAt, hflow]; rfl
    rw [← hat]
    exact hlane l (hflow.symm ▸ hl)
  · refine ⟨_, waittok_waits hi h, updGang_rest _ _ _, fun k hk => ?_, fun g hg => holdWord_gang hg⟩
    exact (gang_updGang _ _ _ _).trans (if_neg (Ne.symm hk))

end Sys2Proof.Laws
end

section
/-! SUPPORT. What lanes take from one another (R147-R155, R163-R165), and the settled statement. -/

namespace Sys2Proof.Laws

open Sys2Proof Sys2Proof.Machine

/-! ### The image of a source lane (R147) -/

theorem srcLane_eq_sourceImage (x : Seat) {len : Nat} (hlen : len = 1 ∨ len = 2) (a : VNum) (k : Int) :
    srcLane (x.g.rd len a.toNat) x.act (zeroOf len) k = sourceImage x len a k := by
  have hcond : (decide (0 ≤ k) && decide (k < 32) && inMask x.act k.toNat) =
      decide (0 ≤ k ∧ inMask x.act k.toNat = true) := by
    cases hm : inMask x.act k.toNat with
    | false => simp
    | true =>
      have hlt := inMask_lt hm
      have hk : 0 ≤ k → k < 32 := fun _ => by omega
      simpa using hk
  unfold srcLane sourceImage
  simp only [hcond, decide_eq_true_eq]
  obtain rfl | rfl := hlen <;> rfl

theorem wdLen_cases (wd : Wd) : wdLen wd = 1 ∨ wdLen wd = 2 := by cases wd <;> simp [wdLen]

/-- R150: the lane that a control word names, as the claims write it. -/
theorem shflLane_eq (mode : ShflMode) (c l : Nat) : shflLane mode c l = match mode with
    | .abs => ((c % 64 : Nat) : Int)
    | .ofs => (l : Int) + (BitVec.ofNat 8 c).toInt
    | .seg => if 5 < c / 32 % 8 then 32
        else ((l - l % 2 ^ (c / 32 % 8) + (l + c % 32) % 2 ^ (c / 32 % 8) : Nat) : Int)
    | .xor => ((l ^^^ (c % 32) : Nat) : Int) := by
  cases mode with
  | abs => rfl
  | ofs =>
    have hmod : toSigned 8 (c % 256) = (BitVec.ofNat 8 c).toInt := by rw [← toSigned_toNat, BitVec.toNat_ofNat]
    simp only [shflLane, hmod]
  | seg =>
    have hblock : l / 2 ^ (c / 32 % 8) * 2 ^ (c / 32 % 8) = l - l % 2 ^ (c / 32 % 8) := by
      rw [Nat.mul_comm]; exact Nat.mul_div_self_eq_mod_sub_self
    simp only [shflLane, hblock]
  | xor => rfl

/-! ### Votes and ranks (R154, R155) -/

theorem popMask_and_act (m act : Mask) : popMask (m &&& act) = ((maskLanes act).filter (inMask m)).length := by
  rw [BitVec.and_comm, popMask, maskLanes_and]

/-- A vote over a mask counts its active lanes. -/
theorem voteMask_count (x : Seat) {kind : VoteKind} (w64 : Bool) (a : VNum) :
    voteMask x kind w64 (.inl (a.setWidth 3)) = fun _ => voteBit kind (maskLanes x.act).length
      ((maskLanes x.act).filter fun l => inMask (x.mask (a.toNat % 8)) l).length := by
  simp only [voteMask, popMask_and_act]
  rfl

/-- The lowest active lane agrees with every active lane exactly when all of them agree. -/
theorem all_eq_low_iff {β : Type} [DecidableEq β] (f : Nat → β) (act : Mask) :
    (maskLanes act).all (fun l => f l == f ((lowLane? act).getD 0)) =
      decide (∀ l ∈ maskLanes act, ∀ k ∈ maskLanes act, f l = f k) := by
  unfold lowLane?
  cases maskLanes act with
  | nil => rfl
  | cons j ls =>
    rw [Bool.eq_iff_iff, decide_eq_true_eq]
    simp only [List.all_eq_true, beq_iff_eq, List.head?_cons, Option.getD_some]
    exact ⟨fun h l hl k hk => (h l hl).trans (h k hk).symm, fun h l hl => h l hl j List.mem_cons_self⟩

theorem voteWord_eq (x : Seat) (w64 : Bool) (a : VNum) (l : Nat) :
    (if w64 then (pairLane (x.g.rd (if w64 then 2 else 1) a.toNat) l).val
      else ((pairLane (x.g.rd (if w64 then 2 else 1) a.toNat) l).1.val).setWidth 64) = voteWord x w64 a l := by
  unfold voteWord
  cases w64 with
  | false => simp only [Bool.false_eq_true, if_false]
  | true => simp only [if_true, Pair.val]

theorem voteMask_same (x : Seat) (w64 : Bool) (a : VNum) : voteMask x .same w64 (.inr a.toNat) = fun l =>
    decide (voteWord x w64 a l = voteWord x w64 a ((maskLanes x.act).head?.getD 0)) := by
  funext l
  simp only [voteMask, voteWord_eq]
  exact beq_eq_decide _ _

theorem voteMask_allSame (x : Seat) (w64 : Bool) (a : VNum) : voteMask x .allSame w64 (.inr a.toNat) = fun _ =>
    decide (∀ l ∈ maskLanes x.act, ∀ k ∈ maskLanes x.act, voteWord x w64 a l = voteWord x w64 a k) := by
  rw [← all_eq_low_iff]
  funext l
  simp only [← voteWord_eq]
  rfl

/-- R155: the rank of a lane is the number of the mask's lanes below it. -/
theorem rank_eq_countP (m act : Mask) {l : Nat} (hl : l < 32) :
    ((maskLanes (m &&& act)).filter (fun j => decide (j < l))).length =
      (List.range l).countP fun j => inMask m j && inMask act j := by
  have hrange : lanes32.filter (fun j => decide (j < l)) = List.range l := by
    rw [lanes32, ← List.Ico.zero_bot, ← List.Ico.zero_bot, List.Ico.filter_lt, min_eq_right (by omega)]
  rw [List.countP_eq_length_filter, ← hrange, maskLanes, List.filter_filter, List.filter_filter]
  simp only [funext (inMask_and m act), Bool.and_comm]

/-! ### REBAL (R163) -/

/-- The place of a lane in a mask's list is the number of the mask's lanes below it. -/
theorem findIdx_sorted {ls : List Nat} (hs : ls.Pairwise (· < ·)) {l : Nat} (hl : l ∈ ls) :
    ls.findIdx? (· == l) = some (ls.filter fun j => decide (j < l)).length := by
  induction ls with
  | nil => cases hl
  | cons j ls ih =>
    obtain ⟨hj, hs⟩ := List.pairwise_cons.1 hs
    rw [List.findIdx?_cons, List.filter_cons]
    obtain rfl | hl := List.mem_cons.1 hl
    · have hnone : ls.filter (fun k => decide (k < l)) = [] :=
        List.filter_eq_nil_iff.2 fun k hk => by have := hj k hk; simp only [decide_eq_true_eq]; omega
      simp [hnone]
    · have hlt := hj l hl
      simp [hlt, Nat.ne_of_lt hlt, ih hs hl]

/-- What a lane of `dst` receives: the image of the lane in its place in `src`. -/
def rebalImage (x : Seat) (len : Nat) (a : VNum) (src dst : List Nat) (l : Nat) : Pair :=
  match src[(dst.filter fun j => decide (j < l)).length]? with
  | some p => sourceImage x len a p
  | none => zeroOf len

theorem rebalVal_lane (x : Seat) (mode : RebalMode) (wd : Wd) (a : VNum) (m : Mask) {l : Nat}
    (hl : inMask (rebalVal x mode (x.g.rd (wdLen wd) a.toNat) (zeroOf (wdLen wd)) m).1 l = true) :
    (rebalVal x mode (x.g.rd (wdLen wd) a.toNat) (zeroOf (wdLen wd)) m).2 l = match mode with
      | .pack => rebalImage x (wdLen wd) a (maskLanes (m &&& x.act)) (maskLanes x.act) l
      | .spread => rebalImage x (wdLen wd) a (maskLanes x.act) (maskLanes (m &&& x.act)) l := by
  cases mode with
  | pack =>
    have hl : inMask x.act l = true := hl
    simp only [rebalVal, rebalImage, findIdx_sorted (maskLanes_sorted _) (mem_maskLanes.2 hl),
      srcLane_eq_sourceImage x (wdLen_cases wd)] <;> rfl
  | spread =>
    have hl : inMask (m &&& x.act) l = true := hl
    simp only [rebalVal, rebalImage, findIdx_sorted (maskLanes_sorted _) (mem_maskLanes.2 hl),
      srcLane_eq_sourceImage x (wdLen_cases wd)] <;> rfl

/-- Results agree when they write the same registers, with the same images in the lanes written. -/
theorem agree_cons {act : Mask} {n : Nat} {v w : VReg} {os os' : List Out}
    (h : ∀ l, inMask act l = true → v.lane l = w.lane l) (ho : Agree act os os') :
    Agree act (.reg n v :: os) (.reg n w :: os') := by
  obtain ⟨h1, h2, h3⟩ := ho
  refine ⟨fun r l hl => ?_, fun k l hl => ?_, fun r hn o ho u => ?_⟩
  · have hhead : resultLane [(act, .reg n v)] r l = resultLane [(act, .reg n w)] r l := by simp [resultLane, h l hl]
    rw [List.map_cons, List.map_cons, ← List.singleton_append, ← List.singleton_append (x := (act, Out.reg n w)),
      resultLane_append, resultLane_append, h1 r l hl, hhead]
  · rw [List.map_cons, List.map_cons, ← List.singleton_append, ← List.singleton_append (x := (act, Out.reg n w)),
      resultMask_append, resultMask_append, h2 k l hl]
    rfl
  · obtain ⟨hhead, htail⟩ := List.forall_mem_cons.1 hn
    obtain rfl | ho := List.mem_cons.1 ho
    · intro he
      cases he
      exact hhead w rfl
    · exact h3 r htail o ho u

/-- Values that agree in the lanes written make results that agree. -/
theorem outReg_agree {len d : Nat} {act : Mask} {f g : Nat → Pair} (h : ∀ l, inMask act l = true → f l = g l) :
    Agree act (outReg len d (.ofFn f)) (outReg len d (.ofFn g)) := by
  have hreg (k : Pair → Img) (l : Nat) (hl : inMask act l = true) :
      (VReg.ofLanes ((Lanes.ofFn f).map k)).lane l = (VReg.ofLanes ((Lanes.ofFn g).map k)).lane l := by
    simp [Lanes.ofFn, Lanes.map, VReg.ofLanes, VReg.lane, lanes32, inMask_lt hl, h l hl]
  unfold outReg
  split
  · exact agree_cons (hreg _) (agree_cons (hreg _) (agree_refl _ _))
  · exact agree_cons (hreg _) (agree_refl _ _)

/-- R163: REBAL completes, each member writing in its own lanes any value that agrees there with what they receive. -/
theorem rebal_completes {s : State} {mode : RebalMode} {wd : Wd} {d a : VNum} {mc mk : MNum}
    (hi : issues (.rebal mode wd d a mc mk) s = true) {lanes : Seat → Mask} {f : Seat → Nat → Pair}
    (hl : ∀ x, (rebalVal x mode (x.g.rd (wdLen wd) a.toNat) (zeroOf (wdLen wd)) (x.mask mc.toNat)).1 = lanes x)
    (hf : ∀ x l, inMask (lanes x) l = true →
      (rebalVal x mode (x.g.rd (wdLen wd) a.toNat) (zeroOf (wdLen wd)) (x.mask mc.toNat)).2 l = f x l) :
    Completes (.rebal mode wd d a mc mk) s (s.counted mk.toNat)
      (fun x => (outReg (wdLen wd) d.toNat (.ofFn (f x))).map fun o => (lanes x, o)) (fun _ => []) := by
  refine ⟨_, rfl, moved_congr (issue_results (fun x => (outGeneral (wdLen wd) d.toNat
    (rebalVal x mode (x.g.rd (wdLen wd) a.toNat) (zeroOf (wdLen wd)) (x.mask mc.toNat)).2).map fun o =>
      ((rebalVal x mode (x.g.rd (wdLen wd) a.toNat) (zeroOf (wdLen wd)) (x.mask mc.toNat)).1, o)) _ hi
    fun _ _ _ _ _ => rfl) fun x _ => ?_⟩
  rw [hl x]
  exact sameResults_of_agree (outReg_agree (hf x))

/-! ### The words -/

/-- R165: the affine run that IOTA writes, lane by lane. -/
theorem iota_computes (ty : IntTy) (d : VNum) (base : BitVec 24) (stride : BitVec 6) (mk : MNum) :
    Computes (.iota ty d base stride mk) fun _ _ => [.reg d.toNat (.general (lanes32.map fun l =>
      ⟨base.signExtend 32 + BitVec.ofNat 32 l * stride.signExtend 32, 0x1F#8⟩))] :=
  computes_of (fun _ _ => [.reg d.toNat (.affine (base.signExtend 32) (stride.signExtend 32))]) (fun _ => rfl)
    (fun _ _ _ _ _ => rfl) fun _ _ _ => agree_cons (fun _ hl => (lane_range_map _ (inMask_lt hl)).symm) (agree_refl _ _)

/-- Settles O11: each word is pure or writes in lanes of its own, and its value is the stated one in those lanes. -/
theorem crossLane : Obligations.CrossLane := by
  refine ⟨fun mode wd d a b mk => ?_, fun pick wd d a b mk => ?_, fun kind md a mk hkind => ?_, fun w64 md a mk => ?_,
    fun w64 md a mk => ?_, fun d ma mk => ?_, fun d ma mk => ?_, iota_computes, fun s wd d a mc mk hi => ?_,
    fun s wd d a mc mk hi => ?_, fun d a mk => ?_⟩
  · refine computes_eq (fun _ => rfl) fun x => ?_
    exact congrArg (outReg _ _) (ofFn_congr fun l _ =>
      (srcLane_eq_sourceImage x (wdLen_cases wd) a _).trans (congrArg (sourceImage x (wdLen wd) a) (shflLane_eq _ _ _)))
  · refine computes_eq (fun _ => rfl) fun x => ?_
    rw [srcLane_eq_sourceImage x (wdLen_cases wd)]
    rfl
  · refine computes_eq (fun _ => rfl) fun x => ?_
    have hcount : (kind == .same || kind == .allSame) = false := by rcases hkind with rfl | rfl | rfl | rfl | rfl <;> rfl
    simp only [hcount, Bool.false_eq_true, if_false, voteMask_count]
    rfl
  · exact computes_eq (fun _ => rfl) fun x => congrArg (fun f => [outMask md.toNat f]) (voteMask_same x w64 a)
  · exact computes_eq (fun _ => rfl) fun x => congrArg (fun f => [outMask md.toNat f]) (voteMask_allSame x w64 a)
  · exact computes_pure _ fun _ => rfl
  · refine computes_eq (fun _ => rfl) fun x => ?_
    simp only [intImg, intTag]
    exact congrArg (fun xs => [Out.reg d.toNat (.general xs)]) (List.map_congr_left fun l hl => by
      rw [rank_eq_countP _ _ (List.mem_range.1 hl)])
  · exact rebal_completes hi (fun _ => rfl) fun x l hl => rebalVal_lane x .pack wd a _ hl
  · exact rebal_completes hi (fun _ => rfl) fun x l hl => rebalVal_lane x .spread wd a _ hl
  · refine computes_eq (fun _ => rfl) fun x => ?_
    cases x.g.reg a.toNat <;> rfl

end Sys2Proof.Laws
end

section
/-! SUPPORT. Packed integers and bytes lane by lane (R156-R162), and the settled statement. -/

namespace Sys2Proof.Laws

open Sys2Proof Sys2Proof.Machine

/-! ### Words as integers (R112) -/

/-- A signed or unsigned field as Wr extends it to 32 bits. -/
theorem wr32_field (signed : Bool) (e n : Nat) :
    wr32 (if signed then toSigned e (n % 2 ^ e) else ((n % 2 ^ e : Nat) : Int)) =
      (⟨if signed then (BitVec.ofNat e n).signExtend 32 else (BitVec.ofNat e n).setWidth 32, 0x1F#8⟩, zeroImg) := by
  have hn : n % 2 ^ e = (BitVec.ofNat e n).toNat := (BitVec.toNat_ofNat n e).symm
  rw [hn, toSigned_toNat]
  cases signed with
  | true => rfl
  | false => simp only [Bool.false_eq_true, if_false, wr32, BitVec.ofInt_natCast, BitVec.ofNat_toNat, intImg, intTag]

theorem val_wr64 (n : Nat) : (wr64 n).val = BitVec.ofNat 64 n := by
  simp only [wr64, intPair, Pair.val, word64, BitVec.ofInt_natCast]
  exact BitVec.extractLsb'_append_extractLsb'

/-- The bits of a number that Wr writes in 32 bits. -/
theorem getLsbD_wr32 (n : Nat) {k : Nat} (hk : k < 32) : (wr32 n).1.val.getLsbD k = n.testBit k := by
  rw [wr32, intImg, BitVec.ofInt_natCast, BitVec.getLsbD_ofNat, decide_eq_true hk, Bool.true_and]

/-! ### Dot products (R156, R157) -/

theorem foldl_range_add (f : Nat → Int) (c : Int) (n : Nat) :
    (List.range n).foldl (fun s i => s + f i) c = c + ((List.range n).map f).sum := by
  induction n with
  | zero => simp
  | succ n ih => rw [List.range_succ, List.foldl_append, ih]; simp [add_assoc]

theorem intMin_le_intMax (signed : Bool) (w : Nat) : intMin signed w ≤ intMax signed w := by
  have h (n : Nat) : (0 : Int) < 2 ^ n := by positivity
  have h1 := h (w - 1)
  have h2 := h w
  unfold intMin intMax
  split <;> omega

theorem dotIntLane_eq_dotAs (signed sat : Bool) (e n : Nat) : dotIntLane signed sat e n = dotAs signed sat e n := by
  funext a b c
  have hel (p : Pair) (i : Nat) :
      (if signed then toSigned e (p.1.val.toNat / 2 ^ (e * i) % 2 ^ e) else ((p.1.val.toNat / 2 ^ (e * i) % 2 ^ e : Nat) : Int)) =
        if signed then (BitVec.ofNat e (p.1.val.toNat / 2 ^ (e * i))).toInt
        else ((BitVec.ofNat e (p.1.val.toNat / 2 ^ (e * i))).toNat : Int) := by
    rw [← toSigned_toNat, BitVec.toNat_ofNat]
  unfold dotIntLane dotAs
  simp only [hel, foldl_range_add, clampInt_eq (intMin_le_intMax signed 32)]
  cases signed <;> cases sat <;> rfl

/-- What a member writes for a dot product of elements `el`. -/
def dotVal (x : Seat) (el : DotElem) (sat : Bool) (e n : Nat) (a : VNum) (p : Perm) (b c : VNum) : Lanes Pair :=
  Lanes.map3 (dotLane el sat e n) (x.src 1 a p) (x.src 1 b .none) (x.src 1 c .none)

/-- A dot product whose elements suit every member, and whose floating-point result every floor lets pass, completes. -/
theorem dotWord_completes {i : Instr} {elem : Nat → Option DotElem} {sat : Bool} {e n : Nat} {d a : VNum} {p : Perm} {b c : VNum}
    {slot : BitVec 3} {s : State} {el : DotElem} (he : exec i s = dotWord i elem sat e n d a p b c slot s)
    (hi : issues i s = true) (hel : ∀ x ∈ s.seats i.maskField, dotElem elem sat slot x s = .ok el)
    (hfloor : ∀ x ∈ s.seats i.maskField, ∀ f, el = .fp f → Trusted x .f32 (dotVal x el sat e n a p b c)) :
    Completes i s (s.counted i.maskField) (fun x => x.give (outReg 1 d.toNat (dotVal x el sat e n a p b c))) (fun _ => []) := by
  refine ⟨_, he.trans (congrArg Host.Outcome.next (issue_early hi)), issue_results _ _ hi fun x hx u hu _ => ?_⟩
  have hu' : dotElem elem sat slot x u = .ok el := by
    rw [hu]
    exact hel x hx
  rw [hu']
  cases el with
  | int sg => rfl
  | fp f =>
    have hnone := floorFlaw_of_trusted (hfloor x hx f rfl)
    unfold dotVal at hnone
    simp only [hnone, dotVal]

/-- R157: a dot product of integer elements computes the exact sum, wrapped or clamped. -/
theorem dotWord_int {i : Instr} {elem : Nat → Option DotElem} {sat : Bool} {e n : Nat} {d a : VNum} {p : Perm} {b c : VNum}
    {slot : BitVec 3} {s : State} {signed : Bool} (he : exec i s = dotWord i elem sat e n d a p b c slot s)
    (hi : issues i s = true)
    (hel : ∀ x ∈ s.seats i.maskField, elem (slotAfmt (s.slotOf x.g.launch slot.toNat)) = some (.int signed)) :
    Completes i s (s.counted i.maskField) (fun x => x.give (outReg 1 d.toNat
      (Lanes.map3 (dotAs signed sat e n) (x.src 1 a p) (x.src 1 b .none) (x.src 1 c .none)))) (fun _ => []) := by
  rw [← dotIntLane_eq_dotAs]
  refine dotWord_completes (el := .int signed) he hi (fun x hx => ?_) fun x hx f hf => ?_
  · rw [dotElem, hel x hx]
  · cases hf

/-! ### PACK and UNPACK (R159, R160) -/

theorem testBit_setField (base k f i : Nat) {e : Nat} (he : 0 < e) :
    (setField base e k f).testBit i = if i / e = k then f.testBit (i % e) else base.testBit i := by
  have hlow : base % 2 ^ (e * k) < 2 ^ (e * k) := Nat.mod_lt _ (Nat.two_pow_pos _)
  have hfield : f % 2 ^ e < 2 ^ e := Nat.mod_lt _ (Nat.two_pow_pos _)
  have hform : setField base e k f = 2 ^ (e * k) * (2 ^ e * (base / 2 ^ (e * k + e)) + f % 2 ^ e) + base % 2 ^ (e * k) := by
    unfold setField
    rw [pow_add]
    ring
  have hdiv : i / e = k ↔ e * k ≤ i ∧ i < e * k + e := by
    rw [Nat.div_eq_iff he, Nat.mul_comm k e]
    omega
  rw [hform, Nat.testBit_two_pow_mul_add _ hlow, Nat.testBit_two_pow_mul_add _ hfield, Nat.testBit_div_two_pow]
  by_cases h1 : i < e * k
  · have hne : ¬ i / e = k := by omega
    simp [h1, hne]
  · by_cases h2 : i < e * k + e
    · have heq : i / e = k := hdiv.2 ⟨by omega, h2⟩
      have hmod : i % e = i - e * k := by
        have := Nat.div_add_mod i e
        rw [heq] at this
        omega
      have hlt : i - e * k < e := by omega
      simp [h1, heq, hmod, hlt]
    · have hne : ¬ i / e = k := by omega
      have hge : ¬ i - e * k < e := by omega
      have hsum : i - e * k - e + (e * k + e) = i := by omega
      simp [h1, hne, hge, hsum]

theorem packTy_width_pos (t : PackTy) : 0 < t.width := by cases t <;> decide

/-- R159: PACK replaces elements 2j and 2j+1 of C's value. -/
theorem packLane_bit (t : PackTy) (sat : Bool) (j : Nat) (u v w : Pair) {k : Nat} (hk : k < 32) :
    ((packLane t sat j u v w).1.val).getLsbD k =
      if k / t.width = 2 * j then (packAs t sat u).testBit (k % t.width)
      else if k / t.width = 2 * j + 1 then (packAs t sat v).testBit (k % t.width)
      else decide (t.width ≠ 16) && w.1.val.getLsbD k := by
  have hbase : (if t.width = 16 then 0 else w.1.val.toNat).testBit k = (decide (t.width ≠ 16) && w.1.val.getLsbD k) := by
    split
    case isTrue h => simp [h]
    case isFalse h => simp [h, BitVec.testBit_toNat]
  unfold packLane
  simp only [getLsbD_wr32 _ hk, testBit_setField _ _ _ _ (packTy_width_pos t), hbase, clampInt_eq (intMin_le_intMax _ _)]
  by_cases h0 : k / t.width = 2 * j
  · have h1 : k / t.width ≠ 2 * j + 1 := by omega
    rw [if_neg h1, if_pos h0, if_pos h0]
    rfl
  · rw [if_neg h0, if_neg h0]
    rfl

/-! ### CLMUL (R161) -/

/-- A test that fails from `m` on counts no more there. -/
theorem countP_range_of_le {p : Nat → Bool} {m n : Nat} (hmn : m ≤ n) (h : ∀ i, m ≤ i → p i = false) :
    (List.range n).countP p = (List.range m).countP p := by
  obtain ⟨r, rfl⟩ := Nat.exists_eq_add_of_le hmn
  rw [List.range_add, List.countP_append, Nat.add_eq_left, List.countP_eq_zero]
  intro i hi
  obtain ⟨j, -, rfl⟩ := List.mem_map.1 hi
  simp [h (m + j) (by omega)]

theorem countP_range_reflect (p : Nat → Bool) (k : Nat) :
    (List.range (k + 1)).countP (fun i => p (k - i)) = (List.range (k + 1)).countP p := by
  have hrev : (List.range (k + 1)).map (fun i => k - i) = (List.range (k + 1)).reverse := by
    rw [List.range_eq_range', List.reverse_range', List.range_eq_range']
    simp
  calc (List.range (k + 1)).countP (fun i => p (k - i))
      = ((List.range (k + 1)).map fun i => k - i).countP p := (List.countP_map ..).symm
    _ = (List.range (k + 1)).countP p := by rw [hrev, List.countP_reverse]

/-- The bits of a sum of shifted copies mod 2. -/
theorem testBit_clmulNat (w a b k : Nat) : (clmulNat w a b).testBit k =
    decide (((List.range w).countP fun i => b.testBit i && (decide (i ≤ k) && a.testBit (k - i))) % 2 = 1) := by
  unfold clmulNat
  induction w with
  | zero => simp
  | succ w ih =>
    rw [List.range_succ, List.foldl_append, List.countP_append, List.foldl_cons, List.foldl_nil]
    generalize (List.range w).countP _ = c at ih ⊢
    have hbit : (a * 2 ^ w).testBit k = (decide (w ≤ k) && a.testBit (k - w)) := Nat.testBit_mul_two_pow ..
    cases hb : b.testBit w with
    | false => simpa [hb] using ih
    | true =>
      rw [if_pos rfl, Nat.testBit_xor, ih, hbit, List.countP_singleton, hb, Bool.true_and]
      cases decide (w ≤ k) && a.testBit (k - w) with
      | false => simp
      | true =>
        rw [Bool.xor_true, if_pos rfl, ← decide_not, decide_eq_decide]
        omega

/-- R161: the product of two polynomials over GF(2), bit by bit. -/
theorem testBit_clmulNat_poly {w a b : Nat} (hb : b < 2 ^ w) (k : Nat) : (clmulNat w a b).testBit k =
    decide (((List.range (k + 1)).countP fun i => a.testBit i && b.testBit (k - i)) % 2 = 1) := by
  have hhigh (i : Nat) (hi : w ≤ i) : b.testBit i = false :=
    Nat.testBit_lt_two_pow (hb.trans_le (Nat.pow_le_pow_right (by decide) hi))
  have hw := countP_range_of_le (p := fun i => b.testBit i && (decide (i ≤ k) && a.testBit (k - i)))
    (le_max_left w (k + 1)) fun i hi => by simp [hhigh i hi]
  have hk := countP_range_of_le (p := fun i => b.testBit i && (decide (i ≤ k) && a.testBit (k - i)))
    (le_max_right w (k + 1)) fun i hi => by simp [show ¬ i ≤ k by omega]
  have hterm : (List.range (k + 1)).countP (fun i => b.testBit i && (decide (i ≤ k) && a.testBit (k - i))) =
      (List.range (k + 1)).countP fun i => (fun j => a.testBit j && b.testBit (k - j)) (k - i) :=
    List.countP_congr fun i hi => by
      have hle : i ≤ k := Nat.lt_succ_iff.1 (List.mem_range.1 hi)
      simp [hle, Nat.sub_sub_self hle, and_comm]
  rw [testBit_clmulNat, ← hw, hk, hterm, countP_range_reflect fun j => a.testBit j && b.testBit (k - j)]

theorem clmulLane_val (u v : Pair) :
    (clmulLane .w32 false u v).val = BitVec.ofNat 64 (clmulNat 32 u.1.val.toNat v.1.val.toNat) ∧
      (clmulLane .w64 false u v).val = BitVec.ofNat 64 (clmulNat 64 u.val.toNat v.val.toNat) ∧
      (clmulLane .w64 true u v).val = BitVec.ofNat 64 (clmulNat 64 u.val.toNat v.val.toNat / 2 ^ 64) := by
  refine ⟨val_wr64 _, (val_wr64 _).trans ?_, val_wr64 _⟩
  apply BitVec.eq_of_toNat_eq
  simp

/-! ### BYTEPERM (R162) -/

/-- Four bytes put together. -/
def fourBytes (f : Nat → Nat) : Nat := f 0 + 2 ^ 8 * f 1 + 2 ^ 16 * f 2 + 2 ^ 24 * f 3

theorem testBit_fourBytes {f : Nat → Nat} (hf : ∀ i, f i < 2 ^ 8) {k : Nat} (hk : k < 32) :
    (fourBytes f).testBit k = (f (k / 8)).testBit (k % 8) := by
  have hform : fourBytes f = 2 ^ 8 * (2 ^ 8 * (2 ^ 8 * f 3 + f 2) + f 1) + f 0 := by unfold fourBytes; ring
  rw [hform, Nat.testBit_two_pow_mul_add _ (hf 0), Nat.testBit_two_pow_mul_add _ (hf 1), Nat.testBit_two_pow_mul_add _ (hf 2)]
  split_ifs
  case pos h => rw [Nat.div_eq_of_lt h, Nat.mod_eq_of_lt h]
  case pos h1 h2 => rw [show k / 8 = 1 by omega, show k % 8 = k - 8 by omega]
  case pos h1 h2 h3 => rw [show k / 8 = 2 by omega, show k % 8 = k - 8 - 8 by omega]
  case neg h1 h2 h3 => rw [show k / 8 = 3 by omega, show k % 8 = k - 8 - 8 - 8 by omega]

/-- The byte that a selector of BYTEPERM makes of eight. -/
def permByte (y : Word64) (q : Nat) : Nat :=
  let v := if q.testBit 3 then 0 else y.toNat / 2 ^ (8 * (q % 8)) % 256
  if q.testBit 4 then 255 - v else v

theorem permByte_lt (y : Word64) (q : Nat) : permByte y q < 2 ^ 8 := by
  unfold permByte
  dsimp only
  split_ifs <;> omega

theorem testBit_permByte (y : Word64) (q : Nat) {k : Nat} (hk : k < 8) :
    (permByte y q).testBit k = ((!q.testBit 3 && y.getLsbD (8 * (q % 8) + k)) != q.testBit 4) := by
  have hchosen : (if q.testBit 3 then 0 else y.toNat / 2 ^ (8 * (q % 8)) % 256).testBit k =
      (!q.testBit 3 && y.getLsbD (8 * (q % 8) + k)) := by
    cases q.testBit 3 with
    | true => simp
    | false =>
      have h256 : 256 = 2 ^ 8 := rfl
      simp only [Bool.false_eq_true, if_false, h256, Nat.testBit_mod_two_pow, Nat.testBit_div_two_pow, BitVec.testBit_toNat, hk]
      simp [Nat.add_comm]
  have hlt : (if q.testBit 3 then 0 else y.toNat / 2 ^ (8 * (q % 8)) % 256) < 2 ^ 8 := by split <;> omega
  unfold permByte
  dsimp only
  rw [← hchosen]
  generalize (if q.testBit 3 then 0 else y.toNat / 2 ^ (8 * (q % 8)) % 256) = v at hlt
  cases q.testBit 4 with
  | true =>
    have h255 : 255 - v = 2 ^ 8 - (v + 1) := by omega
    rw [if_pos rfl, h255, Nat.testBit_two_pow_sub_succ hlt]
    simp [hk]
  | false => simp

theorem bytepermLane_eq (u v w : Pair) : bytepermLane u v w =
    wr32 (fourBytes fun i => permByte (v.1.val ++ u.1.val) (w.1.val.toNat / 2 ^ (8 * i) % 256)) := rfl

/-- Settles O13: each word is pure, its lane function the stated one, and that function's bits follow from the fields it is
made of. -/
theorem packedInteger : Obligations.PackedInteger := by
  refine ⟨fun ty sat d a p b c fmt mk hty s hi => ?_, fun ty sat d a p b c fmt mk hty s hi => ?_,
    fun ty sat d a p b c j mk => computes_pure _ fun _ => rfl,
    fun ty sat j u v w k hk _ => ⟨packLane_bit ty sat j u v w hk, rfl⟩, fun ty d a p n mk => ?_,
    fun wd high d a p b mk => computes_pure _ fun _ => rfl, fun w a b k _ hb => testBit_clmulNat_poly hb k, clmulLane_val,
    fun d a p b c mk => computes_pure _ fun _ => rfl, fun u v w k hk => ⟨?_, rfl⟩⟩
  · refine dotWord_int (elem := dot4Elem ty) rfl hi fun _ _ => ?_
    rcases hty with rfl | rfl <;> rfl
  · refine dotWord_int (elem := dot8Elem ty) rfl hi fun _ _ => ?_
    rcases hty with rfl | rfl <;> rfl
  · exact computes_eq (fun _ => rfl) fun x => congrArg (fun f => outReg 1 d.toNat ((x.src 1 a p).map f))
      (funext fun u => wr32_field _ _ _)
  · rw [bytepermLane_eq, getLsbD_wr32 _ hk, testBit_fourBytes (fun _ => permByte_lt _ _) hk,
      testBit_permByte _ _ (Nat.mod_lt _ (by decide))]

end Sys2Proof.Laws
end

section
/-! SUPPORT. What RoundOdd makes of an exact value, and that an image of it reads back as that value (R168, R173-R175). -/

namespace Sys2Proof.Laws

open Sys2Proof Sys2Proof.Machine

/-! ### Magnitudes and their leading bits (R172) -/

theorem two_zpow_pos (e : Int) : (0 : ℚ) < 2 ^ e := zpow_pos (by norm_num) e

section
variable {m : Nat} {e : Int}

theorem leadExp_bounds (hm : 0 < m) (e : Int) :
    (2 : ℚ) ^ leadExp m e ≤ m * 2 ^ e ∧ (m : ℚ) * 2 ^ e < 2 ^ (leadExp m e + 1) := by
  have hlow : 2 ^ m.log2 ≤ m := Nat.log2_self_le hm.ne'
  have hhigh : m < 2 ^ (m.log2 + 1) := Nat.lt_log2_self
  have hpos := two_zpow_pos e
  unfold leadExp
  rw [show (m.log2 : Int) + e + 1 = ((m.log2 + 1 : Nat) : Int) + e by push_cast; ring, zpow_add₀ (by norm_num),
    zpow_add₀ (by norm_num), zpow_natCast, zpow_natCast]
  exact ⟨mul_le_mul_of_nonneg_right (by exact_mod_cast hlow) hpos.le, mul_lt_mul_of_pos_right (by exact_mod_cast hhigh) hpos⟩

/-- A number lies between the powers of two about its leading bit and no others. -/
theorem leadExp_eq_iff (hm : 0 < m) (k : Int) :
    leadExp m e = k ↔ (2 : ℚ) ^ k ≤ m * 2 ^ e ∧ (m : ℚ) * 2 ^ e < 2 ^ (k + 1) := by
  obtain ⟨hlow, hhigh⟩ := leadExp_bounds hm e
  refine ⟨fun h => h ▸ ⟨hlow, hhigh⟩, fun ⟨h1, h2⟩ => ?_⟩
  have ha := (zpow_lt_zpow_iff_right₀ (by norm_num : (1 : ℚ) < 2)).1 (hlow.trans_lt h2)
  have hb := (zpow_lt_zpow_iff_right₀ (by norm_num : (1 : ℚ) < 2)).1 (h1.trans_lt hhigh)
  omega

/-- The leading bit depends on the number alone. -/
theorem leadExp_congr {n : Nat} {f : Int} (hm : 0 < m) (hn : 0 < n) (h : (m : ℚ) * 2 ^ e = n * 2 ^ f) :
    leadExp m e = leadExp n f :=
  (leadExp_eq_iff hm _).2 (h ▸ leadExp_bounds hn f)

/-- A shift that comes out whole gives that number. -/
theorem shiftMag_of_eq {x : Nat} {k : Int} (h : (m : ℚ) * 2 ^ k = x) : shiftMag m k = x := by
  cases k with
  | ofNat n =>
    have h : ((m * 2 ^ n : Nat) : ℚ) = x := by rw [← h]; simp
    exact Nat.cast_injective h
  | negSucc n =>
    have h : ((x * 2 ^ (n + 1) : Nat) : ℚ) = m := by
      rw [Nat.cast_mul, ← h, zpow_negSucc]
      push_cast
      exact inv_mul_cancel_right₀ (by positivity) _
    have hm : m = x * 2 ^ (n + 1) := (Nat.cast_injective h).symm
    have hshift : shiftMag m (.negSucc n) = if m.log2 < n + 1 then 0 else m / 2 ^ (n + 1) := rfl
    rw [hshift]
    split
    case isTrue hlog =>
      have hlt : m < 2 ^ (n + 1) := Nat.lt_log2_self.trans_le (Nat.pow_le_pow_right (by decide) hlog)
      rw [hm] at hlt
      by_contra hx
      have := Nat.le_mul_of_pos_left (2 ^ (n + 1)) (Nat.pos_of_ne_zero (Ne.symm hx))
      omega
    case isFalse => rw [hm, Nat.mul_div_cancel _ (Nat.two_pow_pos _)]

/-- A shift that leaves something leaves the leading bit where it lies. -/
theorem leadExp_shiftMag {k : Int} (h : shiftMag m k ≠ 0) (q : Int) : leadExp (shiftMag m k) q = leadExp m (q + k) := by
  have hm : m ≠ 0 := by
    rintro rfl
    cases k <;> simp [shiftMag] at h
  obtain ⟨hlow, hhigh⟩ : 2 ^ m.log2 ≤ m ∧ m < 2 ^ (m.log2 + 1) := ⟨Nat.log2_self_le hm, Nat.lt_log2_self⟩
  unfold leadExp
  cases k with
  | ofNat n =>
    have hlog : (shiftMag m (.ofNat n)).log2 = m.log2 + n := (Nat.log2_eq_iff h).2 (by
      show 2 ^ (m.log2 + n) ≤ m * 2 ^ n ∧ m * 2 ^ n < 2 ^ (m.log2 + n + 1)
      rw [Nat.add_right_comm, pow_add, pow_add _ _ n]
      exact ⟨Nat.mul_le_mul_right _ hlow, Nat.mul_lt_mul_of_pos_right hhigh (Nat.two_pow_pos _)⟩)
    rw [hlog, Int.ofNat_eq_natCast]
    omega
  | negSucc n =>
    have hle : n + 1 ≤ m.log2 := by
      by_contra hlt
      simp [shiftMag, show m.log2 < n + 1 by omega] at h
    have hlog : (shiftMag m (.negSucc n)).log2 = m.log2 - (n + 1) := (Nat.log2_eq_iff h).2 (by
      rw [shiftMag, if_neg (by omega)]
      have h1 : 2 ^ (m.log2 - (n + 1)) * 2 ^ (n + 1) = 2 ^ m.log2 := by rw [← pow_add]; congr 1; omega
      have h2 : 2 ^ (m.log2 - (n + 1) + 1) * 2 ^ (n + 1) = 2 ^ (m.log2 + 1) := by rw [← pow_add]; congr 1; omega
      rw [Nat.le_div_iff_mul_le (Nat.two_pow_pos _), Nat.div_lt_iff_lt_mul (Nat.two_pow_pos _), h1, h2]
      exact ⟨hlow, hhigh⟩)
    rw [hlog]
    omega

/-- A shift that leaves nothing takes the leading bit below the point, and loses it. -/
theorem shiftMag_eq_zero {k : Int} (hm : 0 < m) (h : shiftMag m k = 0) : leadExp m k < 0 ∧ shiftLoses m k = true := by
  cases k with
  | ofNat n => simp [shiftMag, hm.ne'] at h
  | negSucc n =>
    have hlt : m.log2 < n + 1 := by
      by_contra hle
      rw [shiftMag, if_neg hle, Nat.div_eq_zero_iff, ← Nat.log2_lt hm.ne'] at h
      have := Nat.two_pow_pos (n + 1)
      omega
    refine ⟨?_, ?_⟩
    · unfold leadExp
      omega
    · simp [shiftLoses, hlt, hm.ne']

/-- An odd bit added to an even number leaves its leading bit. -/
theorem leadExp_succ_even (hm : m ≠ 0) (heven : m % 2 = 0) (q : Int) : leadExp (m + 1) q = leadExp m q := by
  have hlog : (m + 1).log2 = m.log2 := (Nat.log2_eq_iff (Nat.succ_ne_zero m)).2 (by
    obtain ⟨hlow, hhigh⟩ := (Nat.log2_eq_iff hm).1 rfl
    rw [pow_succ] at hhigh ⊢
    omega)
  rw [leadExp, hlog, leadExp]

end

/-! ### The grid of a class (R172, R175) -/

/-- A nonzero magnitude on the grid of a class, in units of its quantum. -/
structure OnGrid (c : FpCls) (m : Nat) (e : Int) : Prop where
  pos : 0 < m
  quantum : e = max (leadExp m e) (fmtOf c).emin - precP c + 1
  bound : leadExp m e ≤ (fmtOf c).emax

theorem roundOdd_num {c : FpCls} {m : Nat} {e : Int} (hm : 0 < m) (n : Bool) : roundOdd c (.fin n m e) =
    if (fmtOf c).emax + 1 ≤ leadExp m e then .inf n
    else
      let q := max (leadExp m e) (fmtOf c).emin - precP c + 1
      let k := shiftMag m (e - q)
      if shiftLoses m (e - q) && k % 2 == 0 then .fin n (k + 1) q else .fin n k q := by
  unfold roundOdd
  exact if_neg hm.ne'

theorem roundOdd_overflow {c : FpCls} {m : Nat} {e : Int} (hm : 0 < m) (n : Bool) (h : (fmtOf c).emax < leadExp m e) :
    roundOdd c (.fin n m e) = .inf n := by
  rw [roundOdd_num hm, if_pos (by omega)]

/-- RoundOdd puts a nonzero value that does not overflow on the grid. -/
theorem roundOdd_onGrid {c : FpCls} {m : Nat} {e : Int} (hm : 0 < m) (n : Bool) (h : leadExp m e ≤ (fmtOf c).emax) :
    ∃ k q, roundOdd c (.fin n m e) = .fin n k q ∧ OnGrid c k q := by
  have hprec : 1 ≤ (precP c : Int) := by cases c <;> decide
  have hemin : (fmtOf c).emin ≤ (fmtOf c).emax := by cases c <;> decide
  set q := max (leadExp m e) (fmtOf c).emin - precP c + 1 with hq
  set k := shiftMag m (e - q) with hk
  have hround : roundOdd c (.fin n m e) =
      if shiftLoses m (e - q) && k % 2 == 0 then .fin n (k + 1) q else .fin n k q := by
    rw [roundOdd_num hm, if_neg (by omega)]
  by_cases hz : k = 0
  · obtain ⟨hlead, hloses⟩ := shiftMag_eq_zero hm hz
    have hone : leadExp 1 q = q := (leadExp_eq_iff Nat.one_pos q).2 (by simp [zpow_add₀, two_zpow_pos])
    have hsplit : leadExp m (e - q) = leadExp m e - q := by unfold leadExp; omega
    refine ⟨1, q, by simp [hround, hloses, hz], Nat.one_pos, ?_, ?_⟩
    · rw [hone]; omega
    · rw [hone]; omega
  · have hlead : leadExp k q = leadExp m e := by rw [hk, leadExp_shiftMag hz]; congr 1; omega
    cases hb : shiftLoses m (e - q) && k % 2 == 0 with
    | true =>
      simp only [Bool.and_eq_true, beq_iff_eq] at hb
      have hsucc := leadExp_succ_even hz hb.2 q
      exact ⟨k + 1, q, by simp [hround, hb], Nat.succ_pos k, by rw [hsucc, hlead], by rw [hsucc, hlead]; exact h⟩
    | false => exact ⟨k, q, by simp [hround, hb], Nat.pos_of_ne_zero hz, by rw [hlead], by rw [hlead]; exact h⟩

/-! ### Codes (R168) -/

/-- The value that a sign, an exponent field and a fraction stand for. -/
def fpOfFields (c : FpCls) (neg : Bool) (ex fr : Nat) : Fp :=
  let f := fmtOf c
  let top := 2 ^ (f.bits - 1 - f.frac) - 1
  if f.hasInf && ex == top then (if fr == 0 then .inf neg else .nan)
  else if c == .e4m3 && ex == top && fr == 7 then .nan
  else if ex == 0 then .fin neg fr (f.emin - f.frac)
  else .fin neg (fr + 2 ^ f.frac) ((ex : Int) - f.bias - f.frac)

theorem decodeFp_fields (c : FpCls) (code : Nat) : decodeFp c code = fpOfFields c (code / 2 ^ ((fmtOf c).bits - 1) % 2 == 1)
    (code / 2 ^ (fmtOf c).frac % 2 ^ ((fmtOf c).bits - 1 - (fmtOf c).frac)) (code % 2 ^ (fmtOf c).frac) := rfl

/-- A binade below the top one holds finite values. -/
theorem fpOfFields_finite {c : FpCls} {ex : Nat} (hex : ex < 2 ^ ((fmtOf c).bits - 1 - (fmtOf c).frac) - 1) (n : Bool) (fr : Nat) :
    fpOfFields c n ex fr = if ex = 0 then .fin n fr ((fmtOf c).emin - (fmtOf c).frac)
      else .fin n (fr + 2 ^ (fmtOf c).frac) ((ex : Int) - (fmtOf c).bias - (fmtOf c).frac) := by
  have htop : (ex == 2 ^ ((fmtOf c).bits - 1 - (fmtOf c).frac) - 1) = false := by
    rw [beq_eq_false_iff_ne]
    omega
  simp only [fpOfFields, htop, Bool.and_false, Bool.false_and, Bool.false_eq_true, if_false, beq_iff_eq]

/-- The code made of a sign, an exponent field and a fraction. -/
def codeOf (c : FpCls) (n : Bool) (ex fr : Nat) : Nat :=
  (if n then 2 ^ ((fmtOf c).bits - 1) else 0) + ex * 2 ^ (fmtOf c).frac + fr

/-- The code bits of a format: the sign, the exponent field and the fraction. -/
theorem fmtOf_bits (c : FpCls) : (fmtOf c).bits - 1 = (fmtOf c).frac + ((fmtOf c).bits - 1 - (fmtOf c).frac) ∧
    (fmtOf c).bits = (fmtOf c).bits - 1 + 1 := by cases c <;> decide

theorem one_lt_fields (c : FpCls) : 1 < 2 ^ ((fmtOf c).bits - 1 - (fmtOf c).frac) := by cases c <;> decide

theorem decodeFp_codeOf (c : FpCls) (n : Bool) {ex fr : Nat} (hex : ex < 2 ^ ((fmtOf c).bits - 1 - (fmtOf c).frac))
    (hfr : fr < 2 ^ (fmtOf c).frac) : decodeFp c (codeOf c n ex fr) = fpOfFields c n ex fr := by
  rw [decodeFp_fields, codeOf]
  obtain ⟨hbits, -⟩ := fmtOf_bits c
  generalize (fmtOf c).bits - 1 - (fmtOf c).frac = w at hex hbits
  have hcode : (if n then 2 ^ ((fmtOf c).bits - 1) else 0) + ex * 2 ^ (fmtOf c).frac + fr =
      2 ^ (fmtOf c).frac * (2 ^ w * n.toNat + ex) + fr := by
    rw [hbits, pow_add]
    cases n with
    | false => simp [Nat.mul_comm]
    | true => simp; ring
  have hdiv : (2 ^ (fmtOf c).frac * (2 ^ w * n.toNat + ex) + fr) / 2 ^ (fmtOf c).frac = 2 ^ w * n.toNat + ex := by
    rw [Nat.mul_add_div (Nat.two_pow_pos _), Nat.div_eq_of_lt hfr, Nat.add_zero]
  have hneg : ((2 ^ w * n.toNat + ex) / 2 ^ w % 2 == 1) = n := by
    rw [Nat.mul_add_div (Nat.two_pow_pos _), Nat.div_eq_of_lt hex]
    cases n <;> rfl
  have hsign : (2 ^ (fmtOf c).frac * (2 ^ w * n.toNat + ex) + fr) / 2 ^ ((fmtOf c).bits - 1) = (2 ^ w * n.toNat + ex) / 2 ^ w := by
    rw [hbits, pow_add, ← Nat.div_div_eq_div_mul, hdiv]
  rw [hcode, hsign, hneg, hdiv, Nat.mul_add_mod _ _ ex, Nat.mod_eq_of_lt hex, Nat.mul_add_mod _ _ fr, Nat.mod_eq_of_lt hfr]

/-- Only the bits of its format count in a code. -/
theorem decodeFp_mod (c : FpCls) (code : Nat) : decodeFp c (code % 2 ^ (fmtOf c).bits) = decodeFp c code := by
  obtain ⟨hbits, hsign⟩ := fmtOf_bits c
  generalize (fmtOf c).bits - 1 - (fmtOf c).frac = w at hbits
  have hw : (fmtOf c).bits = (fmtOf c).frac + (w + 1) := by omega
  have hneg : code % 2 ^ (fmtOf c).bits / 2 ^ ((fmtOf c).bits - 1) % 2 = code / 2 ^ ((fmtOf c).bits - 1) % 2 := by
    have hpow : 2 ^ (fmtOf c).bits = 2 ^ ((fmtOf c).bits - 1) * 2 := by rw [← pow_succ, ← hsign]
    rw [hpow, Nat.mod_mul_right_div_self, Nat.mod_mod]
  have hf : code % 2 ^ (fmtOf c).bits % 2 ^ (fmtOf c).frac = code % 2 ^ (fmtOf c).frac :=
    Nat.mod_mod_of_dvd _ (pow_dvd_pow 2 (by omega))
  have he : code % 2 ^ (fmtOf c).bits / 2 ^ (fmtOf c).frac % 2 ^ w = code / 2 ^ (fmtOf c).frac % 2 ^ w := by
    rw [hw, pow_add, Nat.mod_mul_right_div_self, Nat.mod_mod_of_dvd _ (pow_dvd_pow 2 (Nat.le_succ w))]
  have hw' : (fmtOf c).bits - 1 - (fmtOf c).frac = w := by omega
  rw [decodeFp_fields, decodeFp_fields, hw', hneg, hf, he]

section
variable {m : Nat} {e : Int}

theorem mul_two_zpow_lt_iff (k : Nat) : (m : ℚ) * 2 ^ e < 2 ^ (e + k) ↔ m < 2 ^ k := by
  rw [add_comm, zpow_add₀ (by norm_num), mul_lt_mul_iff_left₀ (two_zpow_pos e), zpow_natCast]
  exact_mod_cast Iff.rfl

theorem two_zpow_le_mul_iff (k : Nat) : (2 : ℚ) ^ (e + k) ≤ m * 2 ^ e ↔ 2 ^ k ≤ m := by
  rw [add_comm, zpow_add₀ (by norm_num), mul_le_mul_iff_left₀ (two_zpow_pos e), zpow_natCast]
  exact_mod_cast Iff.rfl

/-- A magnitude in units of another power of two. -/
theorem shiftMag_of_rescaled {f : Nat} {q : Int} (h : (m : ℚ) * 2 ^ e = f * 2 ^ q) : shiftMag m (e - q) = f :=
  shiftMag_of_eq (by rw [zpow_sub₀ (by norm_num), ← mul_div_assoc, h, mul_div_cancel_right₀ _ (two_zpow_pos q).ne'])

/-- A value that a format with infinities holds is read back from its code. -/
theorem decodeFp_encodeFp {c : FpCls} (hc : (fmtOf c).hasInf = true) (n : Bool) {f : Nat} (hm : 0 < m)
    (hb : leadExp m e ≤ (fmtOf c).emax)
    (hf : (m : ℚ) * 2 ^ e = f * 2 ^ (max (leadExp m e) (fmtOf c).emin - (fmtOf c).frac)) :
    decodeFp c (encodeFp c (.fin n m e)) = .fin n f (max (leadExp m e) (fmtOf c).emin - (fmtOf c).frac) := by
  have hbias : (fmtOf c).emin + (fmtOf c).bias = 1 := by cases c <;> rfl
  have htop : (fmtOf c).emax + (fmtOf c).bias + 2 = (2 ^ ((fmtOf c).bits - 1 - (fmtOf c).frac) : Nat) := by
    cases c
    case f32 | f64 | f16 | bf16 | e5m2 => rfl
    all_goals cases hc
  obtain ⟨hlow, hhigh⟩ := leadExp_bounds hm e
  have henc : encodeFp c (.fin n m e) = if leadExp m e < (fmtOf c).emin
      then (if n then 2 ^ ((fmtOf c).bits - 1) else 0) + shiftMag m (e - ((fmtOf c).emin - (fmtOf c).frac))
      else (if n then 2 ^ ((fmtOf c).bits - 1) else 0) + (leadExp m e + (fmtOf c).bias).toNat * 2 ^ (fmtOf c).frac +
        (shiftMag m (e - (leadExp m e - (fmtOf c).frac)) - 2 ^ (fmtOf c).frac) := by
    show (if m = 0 then _ else _) = _
    rw [if_neg hm.ne']
  rw [henc]
  generalize leadExp m e = x at hb hf hlow hhigh ⊢
  by_cases hx : x < (fmtOf c).emin
  · rw [max_eq_right hx.le] at hf ⊢
    have hlt : f < 2 ^ (fmtOf c).frac := by
      rw [← mul_two_zpow_lt_iff (e := (fmtOf c).emin - (fmtOf c).frac), ← hf, sub_add_cancel]
      exact hhigh.trans_le (zpow_le_zpow_right₀ (by norm_num) (by omega))
    have hfield := one_lt_fields c
    have hcode := decodeFp_codeOf c n (Nat.zero_lt_of_lt hfield) hlt
    rw [fpOfFields_finite (by omega), if_pos rfl, codeOf, Nat.zero_mul, Nat.add_zero] at hcode
    rw [if_pos hx, shiftMag_of_rescaled hf, hcode]
  · have hx := not_lt.1 hx
    rw [max_eq_left hx] at hf ⊢
    have hle : 2 ^ (fmtOf c).frac ≤ f := by
      rw [← two_zpow_le_mul_iff (e := x - (fmtOf c).frac), ← hf, sub_add_cancel]
      exact hlow
    have hlt : f < 2 ^ ((fmtOf c).frac + 1) := by
      rw [← mul_two_zpow_lt_iff (e := x - (fmtOf c).frac), ← hf]
      exact hhigh.trans_le (by push_cast; rw [← add_assoc, sub_add_cancel])
    have hcode := decodeFp_codeOf c n (ex := (x + (fmtOf c).bias).toNat) (fr := f - 2 ^ (fmtOf c).frac) (by omega)
      (by rw [pow_succ] at hlt; omega)
    rw [fpOfFields_finite (by omega), if_neg (by omega), codeOf, Nat.sub_add_cancel hle] at hcode
    rw [if_neg (by omega), shiftMag_of_rescaled hf, hcode]
    congr 1
    omega

theorem decodeFp_encodeFp_zero (c : FpCls) (n : Bool) (q : Int) :
    decodeFp c (encodeFp c (.fin n 0 q)) = .fin n 0 ((fmtOf c).emin - (fmtOf c).frac) := by
  have hfield := one_lt_fields c
  have hcode := decodeFp_codeOf c n (ex := 0) (fr := 0) (by omega) (Nat.two_pow_pos _)
  rw [fpOfFields_finite (by omega), if_pos rfl, codeOf, Nat.zero_mul] at hcode
  exact hcode

end

/-! ### Images (R173) -/

section
variable (g : Nat) (s : Bool) (k : Nat) (val : Val32)

theorem mkTag_toNat : (mkTag g s k).toNat = g % 4 * 64 + (if s then 32 else 0) + k % 32 := by
  rw [mkTag, BitVec.toNat_ofNat, Nat.mod_eq_of_lt]
  split <;> omega

theorem g_mkTag : Img.g ⟨val, mkTag g s k⟩ = g % 4 := by
  rw [Img.g, mkTag_toNat]
  split <;> omega

theorem s_mkTag : Img.s ⟨val, mkTag g s k⟩ = s := by
  rw [Img.s, mkTag_toNat]
  cases s with
  | false => simp; omega
  | true => simp; omega

theorem k_mkTag : Img.k ⟨val, mkTag g s k⟩ = k % 32 := by
  rw [Img.k, mkTag_toNat]
  split <;> omega

end

/-- An image of a code of the value format, with G, S and K. -/
def packImg (c : FpCls) (code g : Nat) (s : Bool) (k : Nat) : Pair :=
  if c == .f64 then
    let w : Word64 := BitVec.ofNat 64 code
    (⟨w.extractLsb' 0 32, mkTag g s k⟩, ⟨w.extractLsb' 32 32, if 32 ≤ k then 0x01#8 else 0x00#8⟩)
  else (⟨BitVec.ofNat 32 code, mkTag g s k⟩, zeroImg)

/-- A decoded value with G quarter quanta of the class added to its magnitude. -/
def withG (c : FpCls) (g : Nat) : Fp → Fp
  | .fin n m e =>
    if g = 0 then .fin n m e
    else
      let q := (if m = 0 then (fmtOf c).emin else max (leadExp m e) (fmtOf c).emin) - precP c + 1
      let b := min q e
      if m = 0 then .fin n g q
      else .fin n (m * 2 ^ (e - b).toNat + g * 2 ^ (q - b).toNat) b
  | x => x

theorem imgValue_eq_withG (c : FpCls) (p : Pair) : imgValue c p =
    withG c p.1.g (decodeFp (valueFmt c) (if c == .f64 then p.val.toNat else p.1.val.toNat)) := by
  unfold imgValue withG
  rfl

theorem valueFmt_bits (c : FpCls) : (fmtOf (valueFmt c)).bits = if c == .f64 then 64 else 32 := by cases c <;> rfl

/-- R173: an image reads back as its code's value with G added. -/
theorem imgValue_packImg (c : FpCls) (code g : Nat) (s : Bool) (k : Nat) :
    imgValue c (packImg c code g s k) = withG c (g % 4) (decodeFp (valueFmt c) code) := by
  rw [imgValue_eq_withG, ← decodeFp_mod, valueFmt_bits, packImg, ← decodeFp_mod _ code, valueFmt_bits]
  cases hc : c == .f64 with
  | true =>
    simp only [if_true, g_mkTag, Pair.val]
    rw [BitVec.extractLsb'_append_extractLsb' (w := 32) (len := 32), BitVec.toNat_ofNat, Nat.mod_mod]
  | false => simp only [Bool.false_eq_true, if_false, g_mkTag, BitVec.toNat_ofNat, Nat.mod_mod]

/-- R173: the image of a magnitude on the grid truncates to four quanta and leaves the rest to G. -/
theorem mkImg_onGrid {c : FpCls} {m : Nat} {e : Int} (h : OnGrid c m e) (n s : Bool) (k : Nat) :
    mkImg c (.fin n m e) s k = packImg c (encodeFp (valueFmt c) (.fin n (m / 4 * 4) e)) (m % 4) s k := by
  have hunits : shiftMag m (e - e) = m := by simp [shiftMag]
  unfold mkImg packImg
  dsimp only
  rw [if_neg h.pos.ne', ← h.quantum, hunits]

/-! ### Equal values -/

theorem Fp.Is.refl (a : Fp) : a.Is a := ⟨rfl, rfl, rfl, rfl⟩

/-- Two magnitudes of one number, under one sign. -/
theorem is_fin_of_eq {n : Bool} {m k : Nat} {e f : Int} (h : (m : ℚ) * 2 ^ e = k * 2 ^ f) : Fp.Is (.fin n m e) (.fin n k f) := by
  refine ⟨?_, rfl, rfl, rfl⟩
  simp only [Fp.rat, mul_assoc, h]

/-- A magnitude without its two lowest bits keeps its leading bit. -/
theorem leadExp_quarters {m : Nat} (hm : m / 4 ≠ 0) (e : Int) : leadExp (m / 4 * 4) e = leadExp m e := by
  have hlog : (m / 4 * 4).log2 = m.log2 := (Nat.log2_eq_iff (by omega)).2 (by
    obtain ⟨hlow, hhigh⟩ := (Nat.log2_eq_iff (n := m) (by omega)).1 rfl
    have hlog : 2 ≤ m.log2 := (Nat.le_log2 (by omega)).2 (by omega)
    obtain ⟨r, hr⟩ := Nat.exists_eq_add_of_le hlog
    rw [hr, pow_add] at hlow ⊢
    rw [hr] at hhigh
    omega)
  rw [leadExp, hlog, leadExp]

/-- The value format of a class holds four quanta of the class. -/
theorem valueFmt_holds (c : FpCls) : (fmtOf (valueFmt c)).hasInf = true ∧ (fmtOf c).emax ≤ (fmtOf (valueFmt c)).emax ∧
    (fmtOf (valueFmt c)).emin ≤ (fmtOf c).emin ∧ (precP c : Int) ≤ (fmtOf (valueFmt c)).frac + 3 ∧
    (fmtOf (valueFmt c)).emin - (fmtOf (valueFmt c)).frac ≤ (fmtOf c).emin - precP c + 3 := by cases c <;> decide

/-- What the value format holds of a magnitude on the grid: its quarters, in the value format's own units. -/
theorem decodeFp_quarters {c : FpCls} {m : Nat} {e : Int} (h : OnGrid c m e) (hz : m / 4 ≠ 0) (n : Bool) :
    ∃ f q, decodeFp (valueFmt c) (encodeFp (valueFmt c) (.fin n (m / 4 * 4) e)) = .fin n f q ∧ 0 < f ∧
      ((m / 4 * 4 : Nat) : ℚ) * 2 ^ e = f * 2 ^ q := by
  obtain ⟨-, he, hb⟩ := h
  obtain ⟨hinf, hemax, hemin, hprec, hsub⟩ := valueFmt_holds c
  rw [← leadExp_quarters hz] at he hb
  set E := max (leadExp (m / 4 * 4) e) (fmtOf (valueFmt c)).emin - (fmtOf (valueFmt c)).frac with hE
  have hle : E ≤ e + 2 := by omega
  have hval : ((m / 4 * 4 : Nat) : ℚ) * 2 ^ e = (m / 4 * 2 ^ (e + 2 - E).toNat : Nat) * 2 ^ E := by
    have hexp : e + 2 = ((e + 2 - E).toNat : Int) + E := by omega
    have hpow : (2 : ℚ) ^ (e + 2) = 2 ^ (e + 2 - E).toNat * 2 ^ E := by
      rw [hexp, zpow_add₀ (by norm_num), zpow_natCast, ← hexp]
    have h4 : (2 : ℚ) ^ (2 : Int) = 4 := by norm_num
    push_cast
    rw [mul_assoc ((m / 4 : Nat) : ℚ) _ (2 ^ E), ← hpow, zpow_add₀ (by norm_num), h4]
    ring
  exact ⟨_, E, decodeFp_encodeFp hinf n (by omega) (by omega) hval,
    Nat.mul_pos (Nat.pos_of_ne_zero hz) (Nat.two_pow_pos _), hval⟩

/-- A sum of two magnitudes, each in units of its own, in the smaller unit. -/
theorem rescaled_add (f g : Nat) (q e b : Int) (hq : b ≤ q) (he : b ≤ e) :
    ((f * 2 ^ (q - b).toNat + g * 2 ^ (e - b).toNat : Nat) : ℚ) * 2 ^ b = f * 2 ^ q + g * 2 ^ e := by
  have hpow (x : Int) (hx : b ≤ x) : (2 : ℚ) ^ (x - b).toNat * 2 ^ b = 2 ^ x := by
    rw [← zpow_natCast, ← zpow_add₀ (by norm_num)]
    congr 1
    omega
  push_cast
  rw [add_mul, mul_assoc, mul_assoc, hpow q hq, hpow e he]

/-- R173, R174: the image of a magnitude on the grid reads back as it. -/
theorem imgValue_mkImg_onGrid {c : FpCls} {m : Nat} {e : Int} (h : OnGrid c m e) (n s : Bool) (k : Nat) :
    (imgValue c (mkImg c (.fin n m e) s k)).Is (.fin n m e) := by
  rw [mkImg_onGrid h, imgValue_packImg, Nat.mod_mod]
  have hm := h.pos
  have he := h.quantum
  by_cases hz : m / 4 = 0
  · have hprec : 3 ≤ precP c := by cases c <;> decide
    have hlog : m.log2 < 2 := (Nat.log2_lt hm.ne').2 (by omega)
    have hq : (fmtOf c).emin - precP c + 1 = e := by unfold leadExp at he; omega
    have hlow : m % 4 = m := by omega
    rw [hz, Nat.zero_mul, decodeFp_encodeFp_zero, hlow]
    simp only [withG, if_neg hm.ne', if_true, hq]
    exact Fp.Is.refl _
  · obtain ⟨f, q, hdec, hf, hval⟩ := decodeFp_quarters h hz n
    have hlead : leadExp f q = leadExp m e := by
      rw [← leadExp_quarters hz]
      exact leadExp_congr hf (by omega) hval.symm
    have hsum : (f : ℚ) * 2 ^ q + (m % 4 : Nat) * 2 ^ e = m * 2 ^ e := by
      rw [← hval, ← add_mul, ← Nat.cast_add, Nat.div_add_mod']
    rw [hdec]
    simp only [withG, if_neg hf.ne', hlead, ← he]
    split
    case isTrue hg => exact is_fin_of_eq (by rw [← hsum, hg]; simp)
    case isFalse => exact is_fin_of_eq (by rw [rescaled_add f (m % 4) q e _ (min_le_right _ _) (min_le_left _ _), hsum])

/-- A NaN or an infinity of a class reads back from its image. -/
theorem imgValue_mkImg_special (c : FpCls) (s : Bool) (k : Nat) : imgValue c (mkImg c .nan s k) = .nan ∧
    ∀ n, imgValue c (mkImg c (.inf n) s k) = .inf n := by
  have hnan : mkImg c .nan s k = packImg c (encodeFp (valueFmt c) .nan) 0 s k := rfl
  have hinf (n : Bool) : mkImg c (.inf n) s k = packImg c (encodeFp (valueFmt c) (.inf n)) 0 s k := rfl
  have hdnan : decodeFp (valueFmt c) (encodeFp (valueFmt c) .nan) = .nan := by cases c <;> decide
  have hdinf (n : Bool) : decodeFp (valueFmt c) (encodeFp (valueFmt c) (.inf n)) = .inf n := by cases c <;> cases n <;> decide
  refine ⟨by rw [hnan, imgValue_packImg, hdnan]; rfl, fun n => by rw [hinf, imgValue_packImg, hdinf]; rfl⟩

theorem imgValue_mkImg_zero (c : FpCls) (n s : Bool) (k : Nat) : (imgValue c (mkImg c (.fin n 0 0) s k)).Is (.fin n 0 0) := by
  have hzero : mkImg c (.fin n 0 0) s k = packImg c (encodeFp (valueFmt c) (.fin n 0 0)) 0 s k := rfl
  rw [hzero, imgValue_packImg, decodeFp_encodeFp_zero]
  exact is_fin_of_eq (by simp)

/-- R173-R175: the image of what RoundOdd makes of a value reads back as it. -/
theorem imgValue_mkImg_roundOdd (c : FpCls) (x : Fp) (s : Bool) (k : Nat) :
    (imgValue c (mkImg c (roundOdd c x) s k)).Is (roundOdd c x) := by
  obtain ⟨hnan, hinf⟩ := imgValue_mkImg_special c s k
  have hsame {y : Fp} (h : imgValue c (mkImg c y s k) = y) : (imgValue c (mkImg c y s k)).Is y := by
    rw [h]
    exact Fp.Is.refl y
  cases x with
  | nan => exact hsame hnan
  | inf n => exact hsame (hinf n)
  | fin n m e =>
    rcases Nat.eq_zero_or_pos m with rfl | hm
    · exact imgValue_mkImg_zero c n s k
    · by_cases hb : leadExp m e ≤ (fmtOf c).emax
      · obtain ⟨r, q, hr, hgrid⟩ := roundOdd_onGrid hm n hb
        rw [hr]
        exact imgValue_mkImg_onGrid hgrid n s k
      · rw [roundOdd_overflow hm n (not_le.1 hb)]
        exact hsame (hinf n)

end Sys2Proof.Laws
end

section
/-! SUPPORT. S and K of a result of the add class (R183, R184), and exact sums and products with NaNs and infinities (R175,
R195). -/

namespace Sys2Proof.Laws

open Sys2Proof Sys2Proof.Machine

/-! ### S and K of an image -/

/-- The number of values that K can take in an image of a class (R36). -/
def kLimit (c : FpCls) : Nat := if c == .f64 then 64 else 32

theorem precP_lt_kLimit (c : FpCls) : precP c < kLimit c := by cases c <;> decide

theorem mkImg_eq_packImg (c : FpCls) (v : Fp) (s : Bool) (k : Nat) : ∃ code g, mkImg c v s k = packImg c code g s k := by
  cases v with
  | nan => exact ⟨_, _, rfl⟩
  | inf n => exact ⟨_, _, rfl⟩
  | fin n m e =>
    by_cases hm : m = 0
    · subst hm
      exact ⟨_, _, rfl⟩
    · unfold mkImg packImg
      simp only [if_neg hm]
      exact ⟨_, _, rfl⟩

theorem mkImg_s (c : FpCls) (v : Fp) (s : Bool) (k : Nat) : (mkImg c v s k).1.s = s := by
  obtain ⟨code, g, h⟩ := mkImg_eq_packImg c v s k
  rw [h, packImg]
  split
  · exact s_mkTag ..
  · exact s_mkTag ..

theorem storedK_mkImg {c : FpCls} {k : Nat} (hk : k < kLimit c) (v : Fp) (s : Bool) : storedK c (mkImg c v s k) = k := by
  obtain ⟨code, g, h⟩ := mkImg_eq_packImg c v s k
  rw [h, packImg, storedK]
  unfold kLimit at hk
  cases hc : c == .f64 with
  | true =>
    rw [hc, if_pos rfl] at hk
    simp only [if_true, Pair.k, k_mkTag]
    by_cases h32 : 32 ≤ k
    · simp [h32]
      omega
    · simp [h32]
      omega
  | false =>
    rw [hc, if_neg (by decide)] at hk
    simp only [Bool.false_eq_true, if_false, k_mkTag]
    omega

/-! ### What RoundOdd keeps -/

section
variable {c : FpCls} {x : Fp}

theorem isInf_of_overflows (h : overflows c x = true) : (roundOdd c x).isInf = true := by
  match x, h with
  | .fin n (m + 1) e, h =>
    have hlead : (fmtOf c).emax + 1 ≤ leadExp (m + 1) e := of_decide_eq_true h
    rw [roundOdd_overflow (Nat.succ_pos m) n (Int.lt_of_add_one_le hlead)]
    rfl

/-- A value is a NaN, an infinity, a zero or a number. -/
theorem isNum_exclusive (h : x.isNum = true) : x.isNan = false ∧ x.isInf = false ∧ x.isZero = false := by
  match x, h with
  | .fin n (m + 1) e, _ => exact ⟨rfl, rfl, rfl⟩

theorem isZero_exclusive (h : x.isZero = true) : x.isNan = false ∧ x.isInf = false := by
  match x, h with
  | .fin n 0 e, _ => exact ⟨rfl, rfl⟩

theorem isInf_exclusive (h : x.isInf = true) : x.isNan = false := by
  match x, h with
  | .inf n, _ => rfl

theorem overflows_of_finite (h : (roundOdd c x).isInf = false) : overflows c x = false := by
  by_contra hover
  rw [isInf_of_overflows (by simpa using hover)] at h
  cases h

/-- A finite number in a unit no larger than its own. -/
theorem scaled_mul {q : Int} {n : Bool} {m : Nat} {e : Int} (hq : q ≤ e) :
    (Fp.scaled q (.fin n m e) : ℚ) * 2 ^ q = Fp.rat (.fin n m e) := by
  have hpow : (2 : ℚ) ^ (e - q).toNat * 2 ^ q = 2 ^ e := by
    rw [← zpow_natCast, ← zpow_add₀ (by norm_num)]
    congr 1
    omega
  cases n with
  | false => simp [Fp.scaled, Fp.rat, mul_assoc, hpow]
  | true => simp [Fp.scaled, Fp.rat, mul_assoc, hpow]

/-- Two numbers of one sign compare equal when they are the same number (R199). -/
theorem same_fin {n : Bool} {m k : Nat} {e f : Int} (hm : 0 < m) (hk : 0 < k) :
    Fp.same (.fin n m e) (.fin n k f) = decide (Fp.rat (.fin n m e) = Fp.rat (.fin n k f)) := by
  have hsame : Fp.same (.fin n m e) (.fin n k f) = (Fp.cmp? (.fin n m e) (.fin n k f) == some .eq) := rfl
  have hrat : Fp.rat (.fin n m e) = Fp.rat (.fin n k f) ↔ (m : ℚ) * 2 ^ e = k * 2 ^ f := by
    cases n <;> simp [Fp.rat]
  rw [hsame, Fp.cmp?, if_neg hm.ne', if_neg hk.ne', bne_self_eq_false, if_neg (by decide)]
  by_cases hlead : leadExp m e = leadExp k f
  · have hpos := two_zpow_pos (min e f)
    rw [hlead, bne_self_eq_false, if_neg (by decide), ← scaled_mul (min_le_left e f), ← scaled_mul (min_le_right e f),
      Bool.eq_iff_iff]
    simp only [beq_iff_eq, decide_eq_true_eq, Option.some.injEq, compare_eq_iff_eq, mul_left_inj' hpos.ne', Int.cast_inj]
  · have hne : ¬ Fp.rat (.fin n m e) = Fp.rat (.fin n k f) := fun h => hlead (leadExp_congr hm hk (hrat.1 h))
    rw [if_pos (by simpa using hlead), decide_eq_false hne]
    split <;> rfl

/-- A rounded number is inexact when it is not the number that was rounded (R177). -/
theorem same_roundOdd (h : (roundOdd c x).isNum = true) : Fp.same (roundOdd c x) x = decide ((roundOdd c x).rat = x.rat) := by
  match x, h with
  | .fin n (m + 1) e, h =>
    by_cases hb : leadExp (m + 1) e ≤ (fmtOf c).emax
    · obtain ⟨k, q, hr, hgrid⟩ := roundOdd_onGrid (Nat.succ_pos m) n hb
      rw [hr]
      exact same_fin hgrid.pos (Nat.succ_pos m)
    · rw [roundOdd_overflow (Nat.succ_pos m) n (not_le.1 hb)] at h
      cases h

end

/-! ### The add class (R184) -/

section
variable {c : FpCls} {xs is : List Opr} {x : Fp}

theorem addClass_eq_mkImg (c : FpCls) (xs is : List Opr) (x : Fp) : ∃ s k, addClass c xs is x = mkImg c (roundOdd c x) s k := by
  unfold addClass roundTo
  dsimp only
  split_ifs <;> exact ⟨_, _, rfl⟩

/-- R175: the value of a result of the add class is the exact sum rounded once. -/
theorem imgValue_addClass (c : FpCls) (xs is : List Opr) (x : Fp) : (imgValue c (addClass c xs is x)).Is (roundOdd c x) := by
  obtain ⟨s, k, h⟩ := addClass_eq_mkImg c xs is x
  rw [h]
  exact imgValue_mkImg_roundOdd c x s k

theorem addClass_nan (h : (roundOdd c x).isNan = true ∨ overflows c x = true) :
    addClass c xs is x = mkImg c (roundOdd c x) true 0 := by
  unfold addClass roundTo
  dsimp only
  rw [if_pos (by simpa using h)]

theorem addClass_inf (h : (roundOdd c x).isInf = true) (ho : overflows c x = false) :
    addClass c xs is x = mkImg c (roundOdd c x) (xs.any Opr.s) (minKef c is) := by
  unfold addClass roundTo
  dsimp only
  rw [isInf_exclusive h, ho, if_neg (by decide), if_pos h]

/-- The K that the floor of the addends gives a number (R184): P when every addend is exact. -/
def sumK (c : FpCls) (r : Fp) (floor? : Option Int) : Nat :=
  match floor? with
  | none => precP c
  | some fr => (max 0 (min (precP c : Int) (r.lead - fr + 1))).toNat

theorem sumK_le (c : FpCls) (r : Fp) (floor? : Option Int) : sumK c r floor? ≤ precP c := by
  unfold sumK
  split
  · exact le_refl _
  · omega

theorem addClass_zero (h : (roundOdd c x).isZero = true) (hd : xs.any Opr.dead = false) (hn : xs.any (fun a => a.v.isNum) = true) :
    addClass c xs is x =
      mkImg c (roundOdd c x) (xs.any Opr.s) (if xs.any (fun a => a.v.isNum && a.s) then 0 else precP c) := by
  obtain ⟨hnan, hinf⟩ := isZero_exclusive h
  unfold addClass roundTo
  dsimp only
  rw [hnan, overflows_of_finite hinf, if_neg (by decide), hinf, if_neg (by decide), hd, if_neg (by decide), if_pos h, if_pos hn]

theorem addClass_num (h : (roundOdd c x).isNum = true) (hd : xs.any Opr.dead = false) :
    addClass c xs is x = mkImg c (roundOdd c x) (xs.any Opr.s || !decide ((roundOdd c x).rat = x.rat))
      (capK c (roundOdd c x) (!decide ((roundOdd c x).rat = x.rat))
        (sumK c (roundOdd c x) (xs.foldl (fun m a => maxFloor m a.floor?) none))) := by
  obtain ⟨hnan, hinf, hzero⟩ := isNum_exclusive h
  rw [← same_roundOdd h]
  unfold addClass roundTo
  dsimp only
  rw [hnan, overflows_of_finite hinf, if_neg (by decide), hinf, if_neg (by decide), hd, if_neg (by decide), hzero,
    if_neg (by decide)]
  simp only [clampInt_eq (Int.natCast_nonneg (precP c))]
  rfl

theorem capK_not_eq (c : FpCls) (r : Fp) {p : Prop} [Decidable p] (k : Nat) :
    capK c r (!decide p) k = if p then min k (avail c r) else min (min k (avail c r)) (avail c r - 1) := by
  unfold capK
  by_cases h : p <;> simp [h]

theorem capK_le (c : FpCls) (r : Fp) (inexact : Bool) (k : Nat) : capK c r inexact k ≤ k := by
  unfold capK
  dsimp only
  split
  · omega
  · omega

/-- R183, R184: S and K of a result of the add class. -/
theorem addClass_addTrust (hk : minKef c is < kLimit c) : AddTrust c xs (minKef c is) x (addClass c xs is x) := by
  have hprec := precP_lt_kLimit c
  have hpos : 0 < kLimit c := Nat.zero_lt_of_lt hprec
  refine ⟨fun h => ?_, fun h ho => ?_, fun h hd hn => ?_, fun h hd => ?_⟩
  · rw [addClass_nan h]
    exact ⟨mkImg_s .., storedK_mkImg hpos ..⟩
  · rw [addClass_inf h ho]
    exact ⟨mkImg_s .., storedK_mkImg hk ..⟩
  · rw [addClass_zero h hd hn]
    exact ⟨mkImg_s .., storedK_mkImg (by split <;> omega) ..⟩
  · have hle : capK c (roundOdd c x) (!decide ((roundOdd c x).rat = x.rat))
        (sumK c (roundOdd c x) (xs.foldl (fun m a => maxFloor m a.floor?) none)) < kLimit c :=
      ((capK_le ..).trans (sumK_le ..)).trans_lt hprec
    rw [addClass_num h hd]
    refine ⟨mkImg_s .., (storedK_mkImg hle ..).trans ?_⟩
    rw [capK_not_eq]
    rfl

/-- No operand's Kef reaches the limit of K. -/
theorem minKef_lt (h : ∀ a ∈ is, a.kef c < kLimit c) : minKef c is < kLimit c := by
  unfold minKef
  cases hm : (is.map (Opr.kef c)).min? with
  | none => exact precP_lt_kLimit c
  | some k =>
    obtain ⟨a, ha, rfl⟩ := List.mem_map.1 (List.min?_mem hm)
    exact h a ha

theorem kef_oprOf_lt {c : FpCls} (hc : c ≠ .f64) (p : Pair) : (oprOf c p).kef c < kLimit c := by
  have hk : (oprOf c p).k = p.1.tag.toNat % 32 := by
    have hb : (c == .f64) = false := by simpa using hc
    simp only [oprOf, hb, Bool.false_eq_true, if_false, Img.k]
  have hlim : 32 ≤ kLimit c := by unfold kLimit; split <;> omega
  unfold Opr.kef
  split
  · omega
  · exact precP_lt_kLimit c

end

/-! ### Exact sums and products (R175, R195) -/

section
variable {xs : List Fp}

theorem sum_nan (h : (∃ x ∈ xs, x.isNan = true) ∨ (.inf true ∈ xs ∧ .inf false ∈ xs)) : Fp.sum xs = .nan := by
  unfold Fp.sum
  rcases h with ⟨x, hx, hn⟩ | ⟨ht, hf⟩
  · rw [if_pos (List.any_eq_true.2 ⟨x, hx, hn⟩)]
  · have hboth : (xs.any (fun x => x == .inf true) && xs.any (fun x => x == .inf false)) = true := by
      rw [Bool.and_eq_true, List.any_eq_true, List.any_eq_true]
      exact ⟨⟨_, ht, beq_self_eq_true _⟩, _, hf, beq_self_eq_true _⟩
    rw [hboth, if_pos rfl]
    exact ite_self _

/-- An infinity stands where no NaN and no opposite infinity meets it. -/
theorem sum_inf {sg : Bool} (h : .inf sg ∈ xs) (hall : ∀ x ∈ xs, x.isNan = false ∧ x ≠ .inf (!sg)) :
    Fp.sum xs = .inf sg := by
  have hnan : xs.any Fp.isNan = false := List.any_eq_false.2 fun x hx => by simp [(hall x hx).1]
  have hopp : xs.any (fun x => x == .inf (!sg)) = false := List.any_eq_false.2 fun x hx => by simp [(hall x hx).2]
  have hboth : (xs.any (fun x => x == .inf true) && xs.any (fun x => x == .inf false)) = false := by
    cases sg with
    | true => rw [show xs.any (fun x => x == .inf false) = false from hopp, Bool.and_false]
    | false => rw [show xs.any (fun x => x == .inf true) = false from hopp, Bool.false_and]
  have hfind : xs.find? Fp.isInf = some (.inf sg) := by
    cases hf : xs.find? Fp.isInf with
    | none => exact absurd rfl (List.find?_eq_none.1 hf _ h)
    | some y =>
      have hy := hall y (List.mem_of_find?_eq_some hf)
      match y, hy, List.find?_some hf with
      | .inf k, ⟨_, hk⟩, _ =>
        have hks : k = sg := by cases k <;> cases sg <;> simp at hk ⊢
        rw [hks]
  unfold Fp.sum
  rw [hnan, if_neg (by decide), hboth, if_neg (by decide), hfind]

theorem mul_nan {x y : Fp} (h : x = .nan ∨ y = .nan) : Fp.mul x y = .nan := by
  rcases h with rfl | rfl
  · rfl
  · cases x <;> rfl

theorem mul_inf_zero (sg : Bool) {x : Fp} (h : x.isZero = true) : Fp.mul (.inf sg) x = .nan ∧ Fp.mul x (.inf sg) = .nan := by
  match x, h with
  | .fin n 0 e, _ => exact ⟨rfl, rfl⟩

theorem eq_nan_of_is {x y : Fp} (h : x.Is y) (hy : y = .nan) : x = .nan := by
  obtain ⟨-, -, hn, -⟩ := h
  subst hy
  match x, hn with
  | .nan, _ => rfl

end

end Sys2Proof.Laws
end

section
/-! SUPPORT. Dot products of FP elements (R156, R158, R185, R452), and the settled statement. -/

namespace Sys2Proof.Laws

open Sys2Proof Sys2Proof.Machine

/-! ### One lane (R158) -/

section
variable (f : FpCls) (e n : Nat) (a b c : Pair)

/-- Element `i` of a packed source. -/
def dotEl (p : Pair) (i : Nat) : Fp := decodeFp f (p.1.val.toNat / 2 ^ (e * i) % 2 ^ (fmtOf f).bits)

/-- The exact products of the elements. -/
def dotProds : List Fp := (List.range n).map fun i => Fp.mul (dotEl f e a i) (dotEl f e b i)

/-- The addends of a dot product: C, and each product as an exact operand. -/
def dotOprs : List Opr := oprOf .f32 c :: (dotProds f e n a b).map fun v => ⟨v, false, 26⟩

/-- R158: a dot product is one sum of the add class over C and the products. -/
theorem dotFpLane_eq : dotFpLane f e n a b c =
    addClass .f32 (dotOprs f e n a b c) (infsOf (dotOprs f e n a b c)) (Fp.sum (imgValue .f32 c :: dotProds f e n a b)) := by
  have hprods : ((List.range n).map fun i => (⟨Fp.mul (dotEl f e a i) (dotEl f e b i), false, precP .f32⟩ : Opr)) =
      (dotProds f e n a b).map fun v => ⟨v, false, 26⟩ := by
    rw [dotProds, List.map_map]
    rfl
  have hvals : ((dotProds f e n a b).map fun v => (⟨v, false, 26⟩ : Opr)).map Opr.v = dotProds f e n a b := by
    rw [List.map_map]
    exact List.map_id _
  have hlane : dotFpLane f e n a b c =
      (let prods := (List.range n).map fun i => (⟨Fp.mul (dotEl f e a i) (dotEl f e b i), false, precP .f32⟩ : Opr)
       addClass .f32 (oprOf .f32 c :: prods) (infsOf (oprOf .f32 c :: prods)) (Fp.sum (imgValue .f32 c :: prods.map Opr.v))) := rfl
  rw [hlane, hprods]
  dsimp only
  rw [hvals]
  rfl

theorem imgValue_dotFpLane :
    (imgValue .f32 (dotFpLane f e n a b c)).Is (roundOdd .f32 (Fp.sum (imgValue .f32 c :: dotProds f e n a b))) := by
  rw [dotFpLane_eq]
  exact imgValue_addClass ..

theorem dotFpLane_addTrust : AddTrust .f32 (dotOprs f e n a b c) (minKef .f32 (infsOf (dotOprs f e n a b c)))
    (Fp.sum (imgValue .f32 c :: dotProds f e n a b)) (dotFpLane f e n a b c) := by
  rw [dotFpLane_eq]
  refine addClass_addTrust (minKef_lt fun x hx => ?_)
  obtain rfl | hx := List.mem_cons.1 (List.mem_of_mem_filter hx)
  · exact kef_oprOf_lt (by decide) c
  · obtain ⟨v, -, rfl⟩ := List.mem_map.1 hx
    exact precP_lt_kLimit .f32

/-- A NaN element makes the whole dot product NaN. -/
theorem imgValue_dotFpLane_nan (h : ∃ i, i < n ∧ (dotEl f e a i = .nan ∨ dotEl f e b i = .nan)) :
    imgValue .f32 (dotFpLane f e n a b c) = .nan := by
  obtain ⟨i, hi, hnan⟩ := h
  have hmem : Fp.nan ∈ imgValue .f32 c :: dotProds f e n a b :=
    List.mem_cons_of_mem _ (List.mem_map.2 ⟨i, List.mem_range.2 hi, mul_nan hnan⟩)
  refine eq_nan_of_is (imgValue_dotFpLane ..) ?_
  rw [sum_nan (.inl ⟨_, hmem, rfl⟩)]
  rfl

end

/-! ### FP6 elements (R171) -/

/-- The low six bits of each byte do not see bits 7-6. -/
theorem fp6_field {u w : Val32} (h : u &&& 0x3F3F3F3F#32 = w &&& 0x3F3F3F3F#32) {i : Nat} (hi : i < 4) :
    u.toNat / 2 ^ (8 * i) % 2 ^ 6 = w.toNat / 2 ^ (8 * i) % 2 ^ 6 := by
  have hmask : ∀ i < 4, ∀ j < 6, (0x3F3F3F3F#32).getLsbD (j + 8 * i) = true := by decide
  apply Nat.eq_of_testBit_eq
  intro j
  rw [Nat.testBit_mod_two_pow, Nat.testBit_mod_two_pow, Nat.testBit_div_two_pow, Nat.testBit_div_two_pow,
    BitVec.testBit_toNat, BitVec.testBit_toNat]
  by_cases hj : j < 6
  · have hbit := congrArg (fun x : Val32 => x.getLsbD (j + 8 * i)) h
    simp only [BitVec.getLsbD_and, hmask i hi j hj, Bool.and_true] at hbit
    rw [hbit]
  · simp [hj]

theorem dotEl_fp6 {f : FpCls} (hf : f = .e3m2 ∨ f = .e2m3) {p q : Pair}
    (h : p.1.val &&& 0x3F3F3F3F#32 = q.1.val &&& 0x3F3F3F3F#32) {i : Nat} (hi : i < 4) : dotEl f 8 p i = dotEl f 8 q i := by
  have hbits : (fmtOf f).bits = 6 := by rcases hf with rfl | rfl <;> rfl
  rw [dotEl, dotEl, hbits, fp6_field h hi]

/-- R171: bits 7-6 of a byte that holds an FP6 element are ignored. -/
theorem dotFpLane_fp6 {f : FpCls} (hf : f = .e3m2 ∨ f = .e2m3) {a a' b b' : Pair} (c : Pair)
    (ha : a'.1.val &&& 0x3F3F3F3F#32 = a.1.val &&& 0x3F3F3F3F#32) (hb : b'.1.val &&& 0x3F3F3F3F#32 = b.1.val &&& 0x3F3F3F3F#32) :
    dotFpLane f 8 4 a' b' c = dotFpLane f 8 4 a b c := by
  have hprods : dotProds f 8 4 a' b' = dotProds f 8 4 a b := List.map_congr_left fun i hi => by
    rw [dotEl_fp6 hf ha (List.mem_range.1 hi), dotEl_fp6 hf hb (List.mem_range.1 hi)]
  rw [dotFpLane_eq, dotFpLane_eq, dotOprs, hprods]
  rfl

/-! ### The words -/

section
variable {i : Instr} {elem : Nat → Option DotElem} {sat : Bool} {e n : Nat} {d a : VNum} {p : Perm} {b c : VNum}
  {slot : BitVec 3} {s : State} {f : FpCls}

/-- R158, R185: a dot product of FP elements, none of them saturated, that every floor lets pass completes with its value. -/
theorem dotWord_fp (he : exec i s = dotWord i elem sat e n d a p b c slot s) (hi : issues i s = true) (hsat : sat = false)
    (h : ∀ x ∈ s.seats i.maskField, elem (slotAfmt (s.slotOf x.g.launch slot.toNat)) = some (.fp f) ∧
      Trusted x .f32 (Lanes.map3 (dotFpLane f e n) (x.src 1 a p) (x.src 1 b .none) (x.src 1 c .none))) :
    Completes i s (s.counted i.maskField) (fun x => x.give (outReg 1 d.toNat
      (Lanes.map3 (dotFpLane f e n) (x.src 1 a p) (x.src 1 b .none) (x.src 1 c .none)))) (fun _ => []) := by
  subst hsat
  refine dotWord_completes (el := .fp f) he hi (fun x hx => ?_) fun x hx g hg => ?_
  · rw [dotElem, (h x hx).1]
    rfl
  · exact (h x hx).2

/-- R452: a dot product traps where no member's slot suits it. -/
theorem dotWord_traps (he : exec i s = dotWord i elem sat e n d a p b c slot s) (hi : issues i s = true)
    (h : ∀ x ∈ s.seats i.maskField, elem (slotAfmt (s.slotOf x.g.launch slot.toNat)) = none ∨
      (sat = true ∧ ∃ f, elem (slotAfmt (s.slotOf x.g.launch slot.toNat)) = some (.fp f))) :
    Traps i s (s.all i.maskField 0x01 6 (BitVec.ofNat 64 slot.toNat) 0#64) := by
  refine traps_of (f := fun x => flaw 0x01 6 x.act (BitVec.ofNat 64 slot.toNat)) he hi (fun _ => rfl) fun x hx => ?_
  have hslot : (s.counted i.maskField).slotOf x.g.launch slot.toNat = s.slotOf x.g.launch slot.toNat := by
    rw [counted_rest]
    rfl
  have hbad : dotElem elem sat slot x (s.counted i.maskField) = .error (flaw 0x01 6 x.act (BitVec.ofNat 64 slot.toNat)) := by
    rw [dotElem, hslot]
    obtain hnone | ⟨rfl, f, hf⟩ := h x hx
    · rw [hnone]
    · rw [hf]
      rfl
  rw [hbad]

end

/-- R156, R452: what a DOT4 under .SLOT multiplies. -/
theorem dot4Elem_slot (k : Nat) : dot4Elem .slot k = if k = 4 then some (.fp .e4m3) else if k = 5 then some (.fp .e5m2)
    else if k = 6 then some (.fp .e3m2) else if k = 7 then some (.fp .e2m3) else if k = 9 then some (.int true)
    else if k = 10 then some (.int false) else none := by
  unfold dot4Elem
  dsimp only
  split <;> simp_all

/-- R156, R452: what a DOT8 under .SLOT multiplies. -/
theorem dot8Elem_slot (k : Nat) : dot8Elem .slot k = if k = 8 then some (.fp .e2m1) else if k = 11 then some (.int true)
    else if k = 12 then some (.int false) else none := by
  unfold dot8Elem
  dsimp only
  split <;> simp_all

/-- Settles O31: an FP dot product is one sum of the add class, and a slot gives the elements of its AFMT or the trap. -/
theorem floatDots : Obligations.FloatDots := by
  refine ⟨fun s ty sat d a p b c fmt mk f hi hsat h => dotWord_fp (elem := dot4Elem ty) rfl hi hsat h,
    fun s ty sat d a p b c fmt mk f hi hsat h => dotWord_fp (elem := dot8Elem ty) rfl hi hsat h,
    fun s sat d a p b c fmt mk signed hi h => ?_, fun s sat d a p b c fmt mk signed hi h => ?_,
    fun k => ⟨dot4Elem_slot k, dot8Elem_slot k⟩, fun k => ⟨rfl, rfl, rfl, rfl, rfl⟩, fun s i mk fmt h hi => ?_,
    imgValue_dotFpLane_nan, fun f e n a b c => ⟨imgValue_dotFpLane f e n a b c, dotFpLane_addTrust f e n a b c⟩,
    fun xs => ⟨sum_nan, fun sg => sum_inf⟩, fun sg x => mul_inf_zero sg,
    fun f a b c u w hf hu hw => dotFpLane_fp6 hf c hu hw, by decide +kernel⟩
  · refine dotWord_int (elem := dot4Elem .slot) rfl hi fun x hx => ?_
    rw [h x hx]
    cases signed <;> rfl
  · refine dotWord_int (elem := dot8Elem .slot) rfl hi fun x hx => ?_
    rw [h x hx]
    cases signed <;> rfl
  · obtain ⟨d, a, p, b, c, rfl, h⟩ | ⟨d, a, p, b, c, rfl, h⟩ | ⟨d, a, p, b, c, rfl, h⟩ |
      ⟨d, a, p, b, c, rfl, h⟩ := h
    · exact dotWord_traps (elem := dot4Elem .slot) rfl hi fun x hx => .inl (h x hx)
    · exact dotWord_traps (elem := dot8Elem .slot) rfl hi fun x hx => .inl (h x hx)
    · exact dotWord_traps (elem := dot4Elem .slot) rfl hi fun x hx => .inr ⟨rfl, h x hx⟩
    · exact dotWord_traps (elem := dot8Elem .slot) rfl hi fun x hx => .inr ⟨rfl, h x hx⟩

end Sys2Proof.Laws
end

section
/-! SUPPORT. Shifted magnitudes as floors, and exact sums and products as rationals (R175, R195). -/

namespace Sys2Proof.Laws

open Sys2Proof Sys2Proof.Machine

/-! ### Truncation -/

/-- A shift truncates toward zero. -/
theorem shiftMag_floor (m : Nat) (k : Int) : (shiftMag m k : Int) = ⌊(m : ℚ) * 2 ^ k⌋ := by
  cases k with
  | ofNat n =>
    have hx : (m : ℚ) * 2 ^ Int.ofNat n = ((m * 2 ^ n : Nat) : ℚ) := by simp
    rw [hx, Int.floor_natCast, shiftMag]
  | negSucc n =>
    have hx : (m : ℚ) * 2 ^ Int.negSucc n = (m : ℚ) / (2 ^ (n + 1) : Nat) := by
      rw [zpow_negSucc, div_eq_mul_inv, Nat.cast_pow, Nat.cast_ofNat]
    rw [hx, Rat.floor_natCast_div_natCast, ← Int.natCast_ediv, shiftMag]
    split
    case isTrue hlog => rw [Nat.div_eq_of_lt (Nat.lt_log2_self.trans_le (Nat.pow_le_pow_right (by decide) hlog))]
    case isFalse => rfl

/-- A shift loses something just where the shifted number is not whole. -/
theorem shiftLoses_eq (m : Nat) (k : Int) : shiftLoses m k = decide ((⌊(m : ℚ) * 2 ^ k⌋ : ℚ) ≠ m * 2 ^ k) := by
  rw [← shiftMag_floor, Int.cast_natCast]
  cases k with
  | ofNat n => simp [shiftLoses, shiftMag]
  | negSucc n =>
    have hpos : (0 : ℚ) < 2 ^ (n + 1) := by positivity
    have hwhole (t : Nat) : ((t : ℚ) = m * 2 ^ Int.negSucc n) ↔ t * 2 ^ (n + 1) = m := by
      rw [zpow_negSucc, ← div_eq_mul_inv, eq_div_iff hpos.ne']
      exact_mod_cast Iff.rfl
    have hdvd : m / 2 ^ (n + 1) * 2 ^ (n + 1) = m ↔ m % 2 ^ (n + 1) = 0 := by
      rw [← Nat.dvd_iff_mod_eq_zero]
      exact ⟨Dvd.intro_left _, Nat.div_mul_cancel⟩
    rw [Bool.eq_iff_iff, decide_eq_true_eq, ne_eq, hwhole, shiftLoses, shiftMag]
    split
    case isTrue => rw [bne_iff_ne, Nat.zero_mul, ne_comm]
    case isFalse => rw [bne_iff_ne, hdvd]

/-! ### Leading bits and powers of two -/

/-- A number reaches a power of two when its leading bit does. -/
theorem le_leadExp_iff {m : Nat} (hm : 0 < m) (e k : Int) : k ≤ leadExp m e ↔ (2 : ℚ) ^ k ≤ m * 2 ^ e := by
  obtain ⟨hlow, hhigh⟩ := leadExp_bounds hm e
  refine ⟨fun h => (zpow_le_zpow_right₀ (by norm_num) h).trans hlow, fun h => ?_⟩
  have := (zpow_lt_zpow_iff_right₀ (by norm_num : (1 : ℚ) < 2)).1 (h.trans_lt hhigh)
  omega

theorem leadExp_lt_iff {m : Nat} (hm : 0 < m) (e k : Int) : leadExp m e < k ↔ (m : ℚ) * 2 ^ e < 2 ^ k := by
  rw [← not_le, le_leadExp_iff hm, not_le]

/-! ### RoundOdd -/

/-- R175: the truncated quotient, one more when something was lost and it is even. -/
theorem roundOdd_quotient {c : FpCls} {m : Nat} {e : Int} (hm : 0 < m) (n : Bool) (h : leadExp m e ≤ (fmtOf c).emax) :
    ∃ k : Nat, roundOdd c (.fin n m e) = .fin n k (max (leadExp m e) (fmtOf c).emin - precP c + 1) ∧
      (let x : ℚ := m * 2 ^ e / 2 ^ (max (leadExp m e) (fmtOf c).emin - precP c + 1)
       (k : Int) = ⌊x⌋ + (if (⌊x⌋ : ℚ) ≠ x ∧ Even ⌊x⌋ then 1 else 0)) ∧ 0 < k := by
  rw [roundOdd_num hm, if_neg (by omega)]
  generalize max (leadExp m e) (fmtOf c).emin - precP c + 1 = q
  have hx : (m : ℚ) * 2 ^ e / 2 ^ q = m * 2 ^ (e - q) := by rw [zpow_sub₀ (by norm_num), mul_div_assoc]
  have hup : (shiftLoses m (e - q) && shiftMag m (e - q) % 2 == 0) = true ↔
      (⌊(m : ℚ) * 2 ^ (e - q)⌋ : ℚ) ≠ m * 2 ^ (e - q) ∧ Even ⌊(m : ℚ) * 2 ^ (e - q)⌋ := by
    rw [shiftLoses_eq, ← shiftMag_floor, Int.even_coe_nat, Nat.even_iff]
    simp
  dsimp only
  rw [hx]
  by_cases hodd : (⌊(m : ℚ) * 2 ^ (e - q)⌋ : ℚ) ≠ m * 2 ^ (e - q) ∧ Even ⌊(m : ℚ) * 2 ^ (e - q)⌋
  · rw [if_pos (hup.2 hodd), if_pos hodd, ← shiftMag_floor]
    exact ⟨_, rfl, rfl, Nat.succ_pos _⟩
  · rw [if_neg (mt hup.1 hodd), if_neg hodd, ← shiftMag_floor, add_zero]
    refine ⟨_, rfl, rfl, Nat.pos_of_ne_zero fun hz => hodd ?_⟩
    rw [← hup, (shiftMag_eq_zero hm hz).2, hz]
    rfl

/-! ### Exact sums (R175, R195) -/

/-- The lower of an exponent and that of a number. -/
def lowerExp (q : Int) : Fp → Int
  | .fin _ (_ + 1) e => min q e
  | _ => q

theorem minExp_eq (xs : List Fp) : ∃ q, minExp xs = xs.foldl lowerExp q := by
  refine ⟨_, congrArg (fun f => List.foldl f _ xs) (funext fun q => funext fun x => ?_)⟩
  match x with
  | .nan | .inf _ | .fin _ 0 _ => rfl
  | .fin n (m + 1) e =>
    show (if e < q then e else q) = min q e
    omega

theorem foldl_lowerExp_le (xs : List Fp) (q : Int) : xs.foldl lowerExp q ≤ q ∧
    ∀ n m e, Fp.fin n (m + 1) e ∈ xs → xs.foldl lowerExp q ≤ e := by
  induction xs generalizing q with
  | nil => simp
  | cons x xs ih =>
    obtain ⟨hle, hmem⟩ := ih (lowerExp q x)
    have hx : lowerExp q x ≤ q := by unfold lowerExp; split <;> omega
    refine ⟨hle.trans hx, fun n m e h => ?_⟩
    obtain rfl | h := List.mem_cons.1 h
    · exact hle.trans (min_le_right q e)
    · exact hmem n m e h

/-- No number's exponent lies below the lowest. -/
theorem minExp_le {xs : List Fp} {n : Bool} {m : Nat} {e : Int} (h : Fp.fin n (m + 1) e ∈ xs) : minExp xs ≤ e := by
  obtain ⟨q, hq⟩ := minExp_eq xs
  rw [hq]
  exact (foldl_lowerExp_le xs q).2 n m e h

/-- A term of a sum in units of 2^q. -/
def termUnits (q : Int) (x : Fp) : Int := if x.isZero then 0 else Fp.scaled q x

/-- The sum of some terms in units of the lowest exponent. -/
def sumUnits (xs : List Fp) : Int := (xs.map (termUnits (minExp xs))).sum

/-- The rational sum is the sum of the units. -/
theorem sumUnits_rat {xs : List Fp} (h : ∀ x ∈ xs, x.isNan = false ∧ x.isInf = false) :
    (sumUnits xs : ℚ) * 2 ^ minExp xs = (xs.map Fp.rat).sum := by
  rw [sumUnits, Int.cast_list_sum, List.map_map, ← List.sum_map_mul_right]
  congr 1
  refine List.map_congr_left fun x hx => ?_
  match x, hx, h x hx with
  | .fin n 0 e, _, _ => simp [termUnits, Fp.isZero, Fp.rat]
  | .fin n (m + 1) e, hx, _ => exact scaled_mul (minExp_le hx)

/-- The value of a signed whole number of units. -/
theorem rat_ofUnits (t q : Int) : (Fp.fin (decide (t < 0)) t.natAbs q).rat = t * 2 ^ q := by
  have ht : (t.natAbs : ℚ) = |(t : ℚ)| := by rw [Nat.cast_natAbs, Int.cast_abs]
  rcases lt_or_ge t 0 with hneg | hnn
  · simp [Fp.rat, ht, hneg, abs_of_neg (Int.cast_lt_zero.2 hneg : (t : ℚ) < 0)]
  · simp [Fp.rat, ht, not_lt.2 hnn, abs_of_nonneg (Int.cast_nonneg hnn : (0 : ℚ) ≤ t)]

/-- A sum of finite terms, by whether they cancel. -/
theorem sum_finite {xs : List Fp} (h : ∀ x ∈ xs, x.isNan = false ∧ x.isInf = false) :
    Fp.sum xs = if sumUnits xs = 0 then .fin (xs.all Fp.isZero && xs.all Fp.neg?) 0 0
      else .fin (decide (sumUnits xs < 0)) (sumUnits xs).natAbs (minExp xs) := by
  have hnan : xs.any Fp.isNan = false := List.any_eq_false.2 fun x hx => by simp [(h x hx).1]
  have hopp : xs.any (fun x => x == .inf true) = false := List.any_eq_false.2 fun x hx => by
    rw [beq_iff_eq]
    rintro rfl
    exact Bool.noConfusion (h _ hx).2
  have hfind : xs.find? Fp.isInf = none := List.find?_eq_none.2 fun x hx => by simp [(h x hx).2]
  have hunits : xs.foldl (fun a x => a + (if x.isZero then 0 else Fp.scaled (minExp xs) x)) (0 : Int) = sumUnits xs := by
    rw [sumUnits, List.sum_eq_foldl, List.foldl_map]
    rfl
  unfold Fp.sum
  rw [hnan, if_neg (by decide), hopp, Bool.false_and, if_neg (by decide), hfind]
  dsimp only
  rw [hunits]

/-- R175: a sum of finite terms is their exact sum; one that cancels is +0, or -0 when every term is -0. -/
theorem sum_exact {xs : List Fp} (h : ∀ x ∈ xs, x.isNan = false ∧ x.isInf = false) :
    (Fp.sum xs).rat = (xs.map Fp.rat).sum ∧ (Fp.sum xs).isNan = false ∧ (Fp.sum xs).isInf = false ∧
    ((xs.map Fp.rat).sum = 0 → (Fp.sum xs).neg? = (xs.all Fp.isZero && xs.all Fp.neg?)) := by
  rw [sum_finite h, ← sumUnits_rat h]
  by_cases ht : sumUnits xs = 0
  · rw [if_pos ht, ht]
    exact ⟨by simp [Fp.rat], rfl, rfl, fun _ => rfl⟩
  · rw [if_neg ht]
    refine ⟨rat_ofUnits _ _, rfl, rfl, fun hz => absurd hz ?_⟩
    exact mul_ne_zero (Int.cast_ne_zero.2 ht) (two_zpow_pos _).ne'

/-- R195: a product of finite values is their exact product, its sign the XOR of theirs. -/
theorem mul_exact {a b : Fp} (ha : a.isNan = false) (ha' : a.isInf = false) (hb : b.isNan = false) (hb' : b.isInf = false) :
    (Fp.mul a b).rat = a.rat * b.rat ∧ (Fp.mul a b).neg? = (a.neg? != b.neg?) := by
  match a, ha, ha', b, hb, hb' with
  | .fin n m e, _, _, .fin k l f, _, _ =>
    have hsign : ((if (n != k) = true then -1 else 1 : ℚ)) = (if n then -1 else 1) * (if k then -1 else 1) := by
      cases n <;> cases k <;> simp
    refine ⟨?_, rfl⟩
    show (if (n != k) = true then -1 else 1 : ℚ) * (m * l : Nat) * 2 ^ (e + f) = _
    rw [hsign, zpow_add₀ (by norm_num), Fp.rat, Fp.rat, Nat.cast_mul]
    ring

/-- Settles O14: RoundOdd by its cases, a sum through its units of the lowest exponent. -/
theorem roundOdd_spec : Obligations.RoundOdd := by
  refine ⟨fun c => ⟨rfl, fun n => ⟨rfl, fun e => rfl⟩⟩, fun m e hm => leadExp_bounds hm e,
    fun c n m e hm h => roundOdd_overflow hm n (Int.lt_of_add_one_le ((le_leadExp_iff hm e _).2 h)),
    fun c n m e hm h => roundOdd_quotient hm n (Int.lt_add_one_iff.1 ((leadExp_lt_iff hm e _).2 h)),
    fun xs h => sum_exact h, fun a b ha ha' hb hb' => mul_exact ha ha' hb hb', fun a => ?_, fun n k e => ?_⟩
  · exact ⟨rfl, mul_nan (.inr rfl), sum_nan (.inl ⟨.nan, by simp, rfl⟩), sum_nan (.inl ⟨.nan, by simp, rfl⟩)⟩
  · obtain ⟨hl, hr⟩ := mul_inf_zero n (x := .fin k 0 e) rfl
    exact ⟨hl, hr, sum_nan (.inr (by cases n <;> simp))⟩

end Sys2Proof.Laws
end

section
/-! SUPPORT. FinalRound on exact rational values: the modes on whole numbers, the comparison with a format's maximum, and
the codes that read back (R168, R179, R180). -/

namespace Sys2Proof.Laws

open Sys2Proof Sys2Proof.Machine

/-! ### The modes (R180) -/

/-- The floor of twice a number tells in which half of its unit the number lies. -/
theorem floor_double (x : ℚ) : ⌊x * 2⌋ = 2 * ⌊x⌋ + if 1 / 2 ≤ x - ⌊x⌋ then 1 else 0 := by
  have hlow := Int.floor_le x
  have hhigh := Int.lt_floor_add_one x
  rw [Int.floor_eq_iff]
  split
  · constructor <;> push_cast <;> linarith
  · constructor <;> push_cast <;> linarith

section
variable (m : Nat) (k : Int)

theorem mul_two_zpow_succ : (m : ℚ) * 2 ^ (k + 1) = m * 2 ^ k * 2 := by
  rw [zpow_add_one₀ (by norm_num), mul_assoc]

/-- The bit below the point is the half. -/
theorem halfBit_eq : (shiftMag m (k + 1) % 2 == 1) = decide (1 / 2 ≤ (m : ℚ) * 2 ^ k - ⌊(m : ℚ) * 2 ^ k⌋) := by
  have hfloor := shiftMag_floor m (k + 1)
  rw [mul_two_zpow_succ, floor_double] at hfloor
  rw [Bool.eq_iff_iff, beq_iff_eq, decide_eq_true_eq]
  split at hfloor
  case isTrue h => exact ⟨fun _ => h, fun _ => by omega⟩
  case isFalse h => exact ⟨fun _ => by omega, fun h' => absurd h' h⟩

/-- What stands below the half bit of the upper half puts the number above the middle. -/
theorem below_eq (h : 1 / 2 ≤ (m : ℚ) * 2 ^ k - ⌊(m : ℚ) * 2 ^ k⌋) :
    shiftLoses m (k + 1) = decide (1 / 2 < (m : ℚ) * 2 ^ k - ⌊(m : ℚ) * 2 ^ k⌋) := by
  rw [shiftLoses_eq, mul_two_zpow_succ, floor_double, if_pos h]
  generalize (m : ℚ) * 2 ^ k = x at h ⊢
  rw [Bool.eq_iff_iff, decide_eq_true_eq, decide_eq_true_eq, lt_iff_le_and_ne, and_iff_right h, not_iff_not]
  push_cast
  constructor
  · intro _
    linarith
  · intro _
    linarith

variable (n : Bool)

theorem roundMag_rne : let x : ℚ := m * 2 ^ k
    (roundMag .rne n m k : Int) = if x - ⌊x⌋ < 1 / 2 then ⌊x⌋ else if 1 / 2 < x - ⌊x⌋ then ⌊x⌋ + 1
      else if Even ⌊x⌋ then ⌊x⌋ else ⌊x⌋ + 1 := by
  intro x
  have hround : roundMag .rne n m k = if (shiftMag m (k + 1) % 2 == 1) && (shiftLoses m (k + 1) || shiftMag m k % 2 == 1)
      then shiftMag m k + 1 else shiftMag m k := rfl
  have hodd : Even ⌊x⌋ ↔ ¬ shiftMag m k % 2 = 1 := by
    rw [← shiftMag_floor, Int.even_coe_nat, Nat.even_iff]
    omega
  rw [hround, halfBit_eq]
  by_cases hlow : x - ⌊x⌋ < 1 / 2
  · rw [if_pos hlow, decide_eq_false (not_le.2 hlow), Bool.false_and, if_neg (by decide), shiftMag_floor]
  · rw [if_neg hlow, decide_eq_true (not_lt.1 hlow), Bool.true_and, below_eq m k (not_lt.1 hlow), apply_ite Nat.cast,
      Nat.cast_succ, shiftMag_floor]
    by_cases hhigh : 1 / 2 < x - ⌊x⌋
    · rw [if_pos hhigh, decide_eq_true hhigh, Bool.true_or, if_pos rfl]
    · rw [if_neg hhigh, decide_eq_false hhigh, Bool.false_or]
      by_cases heven : Even ⌊x⌋
      · rw [if_pos heven, if_neg (by simpa using hodd.1 heven)]
      · rw [if_neg heven, if_pos (by simpa using mt hodd.2 heven)]

theorem roundMag_rna : let x : ℚ := m * 2 ^ k
    (roundMag .rna n m k : Int) = if x - ⌊x⌋ < 1 / 2 then ⌊x⌋ else ⌊x⌋ + 1 := by
  intro x
  have hround : roundMag .rna n m k = if shiftMag m (k + 1) % 2 == 1 then shiftMag m k + 1 else shiftMag m k := rfl
  rw [hround, halfBit_eq, apply_ite Nat.cast, Nat.cast_succ, shiftMag_floor]
  simp only [decide_eq_true_eq, ← not_lt, ite_not]
  rfl

/-- A number that is not whole has its ceiling above its floor. -/
theorem ceil_eq_floor (x : ℚ) : ⌈x⌉ = if (⌊x⌋ : ℚ) ≠ x then ⌊x⌋ + 1 else ⌊x⌋ := by
  have hlow := Int.floor_le x
  have hhigh := Int.lt_floor_add_one x
  rw [Int.ceil_eq_iff]
  split
  case isTrue h =>
    have := lt_of_le_of_ne hlow h
    constructor <;> push_cast <;> linarith
  case isFalse h =>
    rw [not_not] at h
    constructor <;> linarith

/-- A directed mode goes up in magnitude, or truncates. -/
theorem roundMag_directed : (roundMag .ru n m k : Int) = (if n then ⌊(m : ℚ) * 2 ^ k⌋ else ⌈(m : ℚ) * 2 ^ k⌉) ∧
    (roundMag .rd n m k : Int) = (if n then ⌈(m : ℚ) * 2 ^ k⌉ else ⌊(m : ℚ) * 2 ^ k⌋) := by
  have hup : roundMag .ru n m k = if shiftLoses m k && !n then shiftMag m k + 1 else shiftMag m k := rfl
  have hdown : roundMag .rd n m k = if shiftLoses m k && n then shiftMag m k + 1 else shiftMag m k := rfl
  rw [hup, hdown, ceil_eq_floor, shiftLoses_eq, apply_ite Nat.cast, apply_ite Nat.cast, Nat.cast_succ, shiftMag_floor]
  cases n with
  | true => simp
  | false => simp

theorem roundMag_le (mode : Rnd) : roundMag mode n m k ≤ shiftMag m k + 1 := by
  have hround : ∃ up : Bool, roundMag mode n m k = if up then shiftMag m k + 1 else shiftMag m k := ⟨_, rfl⟩
  obtain ⟨up, hup⟩ := hround
  rw [hup]
  split <;> omega

end

/-! ### Comparison with the maximum (R179) -/

theorem abs_rat (n : Bool) (m : Nat) (e : Int) : |Fp.rat (.fin n m e)| = m * 2 ^ e := by
  have hnn : (0 : ℚ) ≤ m * 2 ^ e := mul_nonneg (Nat.cast_nonneg m) (two_zpow_pos e).le
  rw [Fp.rat, mul_assoc]
  cases n with
  | true => rw [if_pos rfl, neg_one_mul, abs_neg, abs_of_nonneg hnn]
  | false => rw [if_neg (by decide), one_mul, abs_of_nonneg hnn]

/-- R199: the order of two magnitudes, the second not zero. -/
theorem cmp_gt_iff {k l : Nat} {x y : Int} (hl : 0 < l) :
    Fp.cmp? (.fin false k x) (.fin false l y) = some .gt ↔ (l : ℚ) * 2 ^ y < k * 2 ^ x := by
  rw [Fp.cmp?]
  rcases Nat.eq_zero_or_pos k with rfl | hk
  · have hpos : (0 : ℚ) < l * 2 ^ y := mul_pos (Nat.cast_pos.2 hl) (two_zpow_pos y)
    rw [if_pos rfl, if_neg hl.ne']
    simp [hpos.le]
  · rw [if_neg hk.ne', if_neg hl.ne', bne_self_eq_false, if_neg (by decide)]
    by_cases hlead : leadExp k x = leadExp l y
    · have hpos := two_zpow_pos (min x y)
      have hrat (m : Nat) (e : Int) : (m : ℚ) * 2 ^ e = Fp.rat (.fin false m e) := by simp [Fp.rat]
      rw [hlead, bne_self_eq_false, if_neg (by decide), hrat, hrat, ← scaled_mul (min_le_left x y),
        ← scaled_mul (min_le_right x y), mul_lt_mul_iff_left₀ hpos, Int.cast_lt]
      simp [compare_gt_iff_gt]
    · rw [if_pos (bne_iff_ne.2 hlead)]
      rcases lt_or_gt_of_ne hlead with hlt | hgt
      · have hle : (k : ℚ) * 2 ^ x < l * 2 ^ y :=
          ((leadExp_lt_iff hk x _).1 hlt).trans_le (leadExp_bounds hl y).1
        simp [hlt, hle.le]
      · have hle : (l : ℚ) * 2 ^ y < k * 2 ^ x :=
          ((leadExp_lt_iff hl y _).1 hgt).trans_le (leadExp_bounds hk x).1
        simp [not_lt.2 (le_of_lt hgt), hle]

/-- The significand of a format's largest finite value. -/
def topMag (c : FpCls) : Nat := if c == .e4m3 then 14 else 2 ^ (fmtOf c).prec - 1

theorem maxFin_eq (c : FpCls) (n : Bool) : maxFin c n = .fin n (topMag c) ((fmtOf c).emax - (fmtOf c).frac) := by
  cases c <;> rfl

theorem topMag_bounds (c : FpCls) : 0 < topMag c ∧ topMag c < 2 ^ ((fmtOf c).frac + 1) := by cases c <;> decide

/-- The unit of a format's grid about a number. -/
def gridExp (c : FpCls) (m : Nat) (e : Int) : Int := max (leadExp m e) (fmtOf c).emin - (fmtOf c).prec + 1

/-- A finite value rounded to the precision and subnormal grid of a format. -/
def toGrid (c : FpCls) (mode : Rnd) (n : Bool) (m : Nat) (e : Int) : Fp :=
  .fin n (roundMag mode n m (e - gridExp c m e)) (gridExp c m e)

section
variable {c : FpCls} {mode : Rnd} {n : Bool} {m : Nat} {e : Int}

/-- Whether a number's rounding passes the maximum, as FinalRound asks it. -/
def passesMax (c : FpCls) (mode : Rnd) (n : Bool) (m : Nat) (e : Int) : Bool :=
  Fp.cmp? (.fin false (roundMag mode n m (e - gridExp c m e)) (gridExp c m e)) (maxFin c false) == some .gt

theorem passesMax_iff : passesMax c mode n m e = true ↔ |(maxFin c false).rat| < |(toGrid c mode n m e).rat| := by
  rw [passesMax, beq_iff_eq, toGrid, abs_rat, maxFin_eq, abs_rat]
  exact cmp_gt_iff (topMag_bounds c).1

/-- R179: a number whose rounding keeps within the maximum. -/
theorem finalRound_fits (hm : 0 < m) (sat : Bool) (h : |(toGrid c mode n m e).rat| ≤ |(maxFin c false).rat|) :
    finalRound c mode sat (.fin n m e) = encodeFp c (toGrid c mode n m e) := by
  have hpass : ¬ passesMax c mode n m e = true := fun hp => not_lt.2 h (passesMax_iff.1 hp)
  show (if m = 0 then _ else if !passesMax c mode n m e then _ else _) = _
  rw [if_neg hm.ne', if_pos (by simpa using hpass)]
  rfl

/-- R179: with saturation an overflow gives the maximum of its sign. -/
theorem finalRound_over_sat (hm : 0 < m) (h : |(maxFin c false).rat| < |(toGrid c mode n m e).rat|) :
    finalRound c mode true (.fin n m e) = encodeFp c (maxFin c n) := by
  show (if m = 0 then _ else if !passesMax c mode n m e then _ else _) = _
  rw [if_neg hm.ne', passesMax_iff.2 h]
  rfl

/-- R179: a format without NaNs gives its maximum for an infinity. -/
theorem finalRound_inf_of_noNan (h : (fmtOf c).nan?.isNone = true) :
    finalRound c mode false (.inf n) = encodeFp c (maxFin c n) := by
  cases c
  case e3m2 | e2m3 | e2m1 => rfl
  all_goals cases h

/-- R179: without saturation an overflow goes to infinity, unless the mode rounds toward zero. -/
theorem finalRound_over (hm : 0 < m) (hmode : mode ≠ .dyn) (h : |(maxFin c false).rat| < |(toGrid c mode n m e).rat|) :
    finalRound c mode false (.fin n m e) =
      if mode = .rne ∨ mode = .rna ∨ (mode = .ru ∧ n = false) ∨ (mode = .rd ∧ n = true) then finalRound c mode false (.inf n)
      else encodeFp c (maxFin c n) := by
  show (if m = 0 then _ else if !passesMax c mode n m e then _ else if (fmtOf c).nan?.isNone then _ else _) = _
  rw [if_neg hm.ne', passesMax_iff.2 h, if_neg (by decide)]
  cases hnan : (fmtOf c).nan?.isNone with
  | true => rw [if_pos rfl, finalRound_inf_of_noNan hnan, ite_self]
  | false =>
    rw [if_neg (by decide)]
    cases mode with
    | rne | rna | rz => rfl
    | ru | rd => cases n <;> rfl
    | dyn => exact absurd rfl hmode

end

/-! ### Codes that read back (R168) -/

section
variable {c : FpCls} {m f : Nat} {e : Int}

/-- The code of a number below the normal range. -/
theorem encodeFp_subnormal (hm : 0 < m) (n : Bool) (hx : leadExp m e < (fmtOf c).emin)
    (hf : (m : ℚ) * 2 ^ e = f * 2 ^ ((fmtOf c).emin - (fmtOf c).frac)) :
    encodeFp c (.fin n m e) = codeOf c n 0 f ∧ f < 2 ^ (fmtOf c).frac := by
  constructor
  · show (if m = 0 then _ else if leadExp m e < (fmtOf c).emin then _ else _) = _
    rw [if_neg hm.ne', if_pos hx, shiftMag_of_rescaled hf, codeOf, Nat.zero_mul, Nat.add_zero]
  · rw [← mul_two_zpow_lt_iff (e := (fmtOf c).emin - (fmtOf c).frac), ← hf, sub_add_cancel]
    exact (leadExp_lt_iff hm e _).1 hx

/-- The code of a number in the normal range. -/
theorem encodeFp_normal (hm : 0 < m) (n : Bool) (hx : (fmtOf c).emin ≤ leadExp m e)
    (hf : (m : ℚ) * 2 ^ e = f * 2 ^ (leadExp m e - (fmtOf c).frac)) :
    encodeFp c (.fin n m e) = codeOf c n (leadExp m e + (fmtOf c).bias).toNat (f - 2 ^ (fmtOf c).frac) ∧
      2 ^ (fmtOf c).frac ≤ f ∧ f < 2 ^ ((fmtOf c).frac + 1) := by
  obtain ⟨hlow, hhigh⟩ := leadExp_bounds hm e
  refine ⟨?_, ?_, ?_⟩
  · show (if m = 0 then _ else if leadExp m e < (fmtOf c).emin then _ else _) = _
    rw [if_neg hm.ne', if_neg (not_lt.2 hx), shiftMag_of_rescaled hf, codeOf]
  · rwa [← two_zpow_le_mul_iff (e := leadExp m e - (fmtOf c).frac), ← hf, sub_add_cancel]
  · rw [← mul_two_zpow_lt_iff (e := leadExp m e - (fmtOf c).frac), ← hf, Nat.cast_succ, ← add_assoc, sub_add_cancel]
    exact hhigh

/-- The fields of a number that is neither an infinity's nor a NaN's. -/
theorem fpOfFields_normal {ex fr : Nat} (hpos : ex ≠ 0)
    (hinf : (fmtOf c).hasInf = true → ex ≠ 2 ^ ((fmtOf c).bits - 1 - (fmtOf c).frac) - 1)
    (hnan : c = .e4m3 → ¬ (ex = 15 ∧ fr = 7)) (n : Bool) :
    fpOfFields c n ex fr = .fin n (fr + 2 ^ (fmtOf c).frac) ((ex : Int) - (fmtOf c).bias - (fmtOf c).frac) := by
  have hinf' : ((fmtOf c).hasInf && ex == 2 ^ ((fmtOf c).bits - 1 - (fmtOf c).frac) - 1) = false := by
    rw [Bool.and_eq_false_imp]
    exact fun h => beq_eq_false_iff_ne.2 (hinf h)
  have hnan' : (c == .e4m3 && ex == 2 ^ ((fmtOf c).bits - 1 - (fmtOf c).frac) - 1 && fr == 7) = false := by
    rw [Bool.and_assoc, Bool.and_eq_false_imp]
    intro hc
    obtain rfl := eq_of_beq hc
    have htop : 2 ^ ((fmtOf .e4m3).bits - 1 - (fmtOf .e4m3).frac) - 1 = 15 := rfl
    rw [htop]
    simpa using hnan rfl
  rw [fpOfFields, hinf', hnan']
  simp [hpos]

/-- A number that keeps within the maximum and lies on the format's grid is read back from its code. -/
theorem decodeFp_encodeFp_held (hm : 0 < m) (n : Bool)
    (hf : (m : ℚ) * 2 ^ e = f * 2 ^ (max (leadExp m e) (fmtOf c).emin - (fmtOf c).frac))
    (hmax : (m : ℚ) * 2 ^ e ≤ topMag c * 2 ^ ((fmtOf c).emax - (fmtOf c).frac)) :
    decodeFp c (encodeFp c (.fin n m e)) = .fin n f (max (leadExp m e) (fmtOf c).emin - (fmtOf c).frac) := by
  have hbias : (fmtOf c).emin + (fmtOf c).bias = 1 := by cases c <;> rfl
  have hfield := one_lt_fields c
  by_cases hx : leadExp m e < (fmtOf c).emin
  · rw [max_eq_right hx.le] at hf ⊢
    obtain ⟨henc, hlt⟩ := encodeFp_subnormal hm n hx hf
    rw [henc, decodeFp_codeOf c n (Nat.zero_lt_of_lt hfield) hlt, fpOfFields_finite (by omega), if_pos rfl]
  · have hx := not_lt.1 hx
    rw [max_eq_left hx] at hf ⊢
    obtain ⟨henc, hlow, hhigh⟩ := encodeFp_normal hm n hx hf
    have hlead : leadExp m e < (fmtOf c).emax + 1 := by
      rw [leadExp_lt_iff hm]
      refine hmax.trans_lt ?_
      have := (mul_two_zpow_lt_iff (e := (fmtOf c).emax - (fmtOf c).frac) _).2 (topMag_bounds c).2
      rwa [Nat.cast_succ, ← add_assoc, sub_add_cancel] at this
    have htop : (fmtOf c).emax + (fmtOf c).bias + (if (fmtOf c).hasInf then 2 else 1) =
        (2 ^ ((fmtOf c).bits - 1 - (fmtOf c).frac) : Nat) := by cases c <;> rfl
    have hnan : c = .e4m3 → ¬ ((leadExp m e + (fmtOf c).bias).toNat = 15 ∧ f - 2 ^ (fmtOf c).frac = 7) := by
      rintro rfl ⟨hex, hfr⟩
      change (leadExp m e + 7).toNat = 15 at hex
      change f - 8 = 7 at hfr
      obtain rfl : f = 15 := by omega
      rw [hf, show leadExp m e = (fmtOf .e4m3).emax by change _ = 8; omega,
        mul_le_mul_iff_left₀ (two_zpow_pos _), Nat.cast_le] at hmax
      exact absurd hmax (by decide)
    have hlim : leadExp m e + (fmtOf c).bias + (if (fmtOf c).hasInf then 2 else 1) ≤
        (2 ^ ((fmtOf c).bits - 1 - (fmtOf c).frac) : Nat) := by omega
    rw [henc, decodeFp_codeOf c n (by split at hlim <;> omega) (by rw [pow_succ] at hhigh; omega),
      fpOfFields_normal (by omega) (fun h => by rw [if_pos h] at hlim; omega) hnan, Nat.sub_add_cancel hlow]
    congr 1
    omega

end

theorem fmtOf_prec (c : FpCls) : (fmtOf c).prec = (fmtOf c).frac + 1 := by cases c <;> rfl

/-- A whole number of units, up to a full binade of them, lies on the format's grid. -/
theorem onFmtGrid {c : FpCls} {k : Nat} {q : Int} (hk : 0 < k) (hle : k ≤ 2 ^ (fmtOf c).prec)
    (hq : (fmtOf c).emin - (fmtOf c).prec + 1 ≤ q) :
    ∃ f : Nat, (k : ℚ) * 2 ^ q = f * 2 ^ (max (leadExp k q) (fmtOf c).emin - (fmtOf c).frac) := by
  rw [fmtOf_prec] at hle hq
  obtain rfl | hlt := hle.eq_or_lt
  · have hlead : leadExp (2 ^ ((fmtOf c).frac + 1)) q = (fmtOf c).frac + 1 + q := by rw [leadExp, Nat.log2_two_pow]; rfl
    refine ⟨2 ^ (fmtOf c).frac, ?_⟩
    rw [hlead, max_eq_left (by omega), Nat.cast_pow, Nat.cast_pow, ← zpow_natCast, ← zpow_natCast, Nat.cast_ofNat,
      ← zpow_add₀ (by norm_num), ← zpow_add₀ (by norm_num)]
    congr 1
    push_cast
    ring
  · have hlead : leadExp k q < q + ((fmtOf c).frac + 1 : Nat) := (leadExp_lt_iff hk q _).2 ((mul_two_zpow_lt_iff _).2 hlt)
    have hE : max (leadExp k q) (fmtOf c).emin - (fmtOf c).frac ≤ q := by omega
    refine ⟨k * 2 ^ (q - (max (leadExp k q) (fmtOf c).emin - (fmtOf c).frac)).toNat, ?_⟩
    have h := rescaled_add k 0 q q _ hE hE
    rw [Nat.zero_mul, Nat.add_zero, Nat.cast_zero, zero_mul, add_zero] at h
    exact h.symm

/-- Rounding to a whole number of units gives at most a full binade of them. -/
theorem toGrid_le {c : FpCls} {m : Nat} {e : Int} (hm : 0 < m) (mode : Rnd) (n : Bool) :
    roundMag mode n m (e - gridExp c m e) ≤ 2 ^ (fmtOf c).prec := by
  refine (roundMag_le m _ n mode).trans ?_
  have hlt : (m : ℚ) * 2 ^ e < 2 ^ (gridExp c m e + (fmtOf c).prec) :=
    (leadExp_lt_iff hm e _).1 (by unfold gridExp; omega)
  have hfloor : (shiftMag m (e - gridExp c m e) : Int) < (2 ^ (fmtOf c).prec : Nat) := by
    rw [shiftMag_floor, Int.floor_lt, zpow_sub₀ (by norm_num), ← mul_div_assoc, div_lt_iff₀ (two_zpow_pos _)]
    rw [add_comm, zpow_add₀ (by norm_num), zpow_natCast] at hlt
    exact_mod_cast hlt
  omega

/-- R179: a rounded number that keeps within the maximum is read back from its code. -/
theorem decodeFp_encodeFp_toGrid {c : FpCls} {mode : Rnd} {n : Bool} {m : Nat} {e : Int} (hm : 0 < m)
    (h : |(toGrid c mode n m e).rat| ≤ |(maxFin c false).rat|) :
    (decodeFp c (encodeFp c (toGrid c mode n m e))).rat = (toGrid c mode n m e).rat := by
  rw [toGrid, abs_rat, maxFin_eq, abs_rat] at h
  have hle := toGrid_le (c := c) (e := e) hm mode n
  rw [toGrid]
  generalize roundMag mode n m (e - gridExp c m e) = k at h hle ⊢
  rcases Nat.eq_zero_or_pos k with rfl | hk
  · rw [decodeFp_encodeFp_zero]
    simp [Fp.rat]
  · obtain ⟨f, hf⟩ := onFmtGrid hk hle (show _ ≤ gridExp c m e by unfold gridExp; omega)
    rw [decodeFp_encodeFp_held hk n hf h]
    exact (is_fin_of_eq hf.symm).1

/-! ### The statement -/

/-- Settles O15: the modes through the floor of the shifted magnitude, the codes through the grid of the format. -/
theorem finalRound_spec : Obligations.FinalRound := by
  refine ⟨fun mode n m k => ?_, fun c mode sat n m e hm => ⟨fun h => ⟨finalRound_fits hm sat h, decodeFp_encodeFp_toGrid hm h⟩,
      fun h hsat => ?_⟩, fun c mode n => rfl, fun c mode sat => ?_, fun c mode n m e hm hmode h => finalRound_over hm hmode h,
    fun c mode n => ?_, fun c n => ?_, fun signed w mode => ⟨rfl, rfl, rfl, fun n m e => ?_⟩⟩
  · cases mode with
    | rne => exact roundMag_rne m k n
    | rna => exact roundMag_rna m k n
    | rz | dyn => exact shiftMag_floor m k
    | ru => exact (roundMag_directed m k n).1
    | rd => exact (roundMag_directed m k n).2
  · rw [hsat]
    exact finalRound_over_sat hm h
  · cases c <;> rfl
  · cases c <;> cases n <;> rfl
  · cases c <;> cases n <;> rfl
  · exact clampInt_eq (intMin_le_intMax signed w) _

end Sys2Proof.Laws
end

section
/-! SUPPORT. S and K of sums, of products and of the other results with a row of their own (R177, R183, R184, R197). -/

namespace Sys2Proof.Laws

open Sys2Proof Sys2Proof.Machine

/-! ### Results with a row of their own (R184) -/

section
variable {c : FpCls} {kr : Nat} {s0 : Bool} {is : List Opr} {x : Fp}

theorem ownRow_nan (h : (roundOdd c x).isNan = true ∨ overflows c x = true) :
    ownRow c kr s0 is x = mkImg c (roundOdd c x) true 0 := by
  unfold ownRow roundTo
  dsimp only
  rw [if_pos (by simpa using h)]

theorem ownRow_inf (h : (roundOdd c x).isInf = true) (ho : overflows c x = false) :
    ownRow c kr s0 is x = mkImg c (roundOdd c x) s0 (minKef c is) := by
  unfold ownRow roundTo
  dsimp only
  rw [isInf_exclusive h, ho, if_neg (by decide), if_pos h]

theorem ownRow_zero (h : (roundOdd c x).isZero = true) : ownRow c kr s0 is x = mkImg c (roundOdd c x) s0 kr := by
  obtain ⟨hnan, hinf⟩ := isZero_exclusive h
  unfold ownRow roundTo
  dsimp only
  rw [hnan, overflows_of_finite hinf, if_neg (by decide), hinf, if_neg (by decide), if_pos h]

theorem ownRow_num (h : (roundOdd c x).isNum = true) :
    ownRow c kr s0 is x = mkImg c (roundOdd c x) (s0 || !decide ((roundOdd c x).rat = x.rat))
      (capK c (roundOdd c x) (!decide ((roundOdd c x).rat = x.rat)) kr) := by
  obtain ⟨hnan, hinf, hzero⟩ := isNum_exclusive h
  rw [← same_roundOdd h]
  unfold ownRow roundTo
  dsimp only
  rw [hnan, overflows_of_finite hinf, if_neg (by decide), hinf, if_neg (by decide), hzero, if_neg (by decide)]

/-- R183, R184: S and K of a result with a row of its own. -/
theorem ownRow_ownTrust (hkr : kr < kLimit c) (hk : minKef c is < kLimit c) :
    OwnTrust c kr (minKef c is) s0 x (ownRow c kr s0 is x) := by
  refine ⟨fun h => ?_, fun h ho => ?_, fun h => ?_, fun h => ?_⟩
  · rw [ownRow_nan h]
    exact ⟨mkImg_s .., storedK_mkImg (Nat.zero_lt_of_lt hkr) ..⟩
  · rw [ownRow_inf h ho]
    exact ⟨mkImg_s .., storedK_mkImg hk ..⟩
  · rw [ownRow_zero h]
    exact ⟨mkImg_s .., storedK_mkImg hkr ..⟩
  · rw [ownRow_num h, ← capK_not_eq]
    exact ⟨mkImg_s .., storedK_mkImg ((capK_le ..).trans_lt hkr) ..⟩

end

/-! ### Sums (R184, R197) -/

section
variable {c : FpCls} {xs is : List Opr} {x : Fp}

/-- R184: a dead zero among the addends takes all trust from a finite result. -/
theorem addClass_dead (hnan : (roundOdd c x).isNan = false) (hinf : (roundOdd c x).isInf = false) (hd : xs.any Opr.dead = true) :
    ∃ s, addClass c xs is x = mkImg c (roundOdd c x) s 0 := by
  unfold addClass roundTo
  dsimp only
  rw [hnan, overflows_of_finite hinf, if_neg (by decide), hinf, if_neg (by decide), if_pos hd]
  exact ⟨_, rfl⟩

end

section
variable {c : FpCls} {a b : Opr}

theorem zero_lt_kLimit (c : FpCls) : 0 < kLimit c := Nat.zero_lt_of_lt (precP_lt_kLimit c)

/-- R177: a NaN or an overflow of a sum has S 1 and K 0. -/
theorem fAdd_nan (h : (roundOdd c (Fp.sum [a.v, b.v])).isNan = true ∨ overflows c (Fp.sum [a.v, b.v]) = true) :
    (fAdd c a b).1.s = true ∧ storedK c (fAdd c a b) = 0 := by
  rw [fAdd, addClass_nan h]
  exact ⟨mkImg_s .., storedK_mkImg (zero_lt_kLimit c) ..⟩

theorem any_dead_pair (ha : a.dead = false) (hb : b.dead = false) : [a, b].any Opr.dead = false := by simp [ha, hb]

/-- R184: a number that is a sum takes its K from the greater floor. -/
theorem fAdd_num (h : (roundOdd c (Fp.sum [a.v, b.v])).isNum = true) (ha : a.dead = false) (hb : b.dead = false) :
    let r := roundOdd c (Fp.sum [a.v, b.v])
    (fAdd c a b).1.s = (a.s || b.s || !decide (r.rat = (Fp.sum [a.v, b.v]).rat)) ∧
      storedK c (fAdd c a b) = capK c r (!decide (r.rat = (Fp.sum [a.v, b.v]).rat)) (sumK c r (maxFloor a.floor? b.floor?)) := by
  intro r
  have hs : [a, b].any Opr.s = (a.s || b.s) := by simp
  have hfloor : [a, b].foldl (fun m a => maxFloor m a.floor?) none = maxFloor a.floor? b.floor? := rfl
  rw [fAdd, addClass_num h (any_dead_pair ha hb), hs, hfloor]
  exact ⟨mkImg_s .., storedK_mkImg (((capK_le ..).trans (sumK_le ..)).trans_lt (precP_lt_kLimit c)) ..⟩

/-- R184: a sum that cancels. -/
theorem fAdd_zero (h : (roundOdd c (Fp.sum [a.v, b.v])).isZero = true) (hn : a.v.isNum = true) (ha : a.dead = false)
    (hb : b.dead = false) : (fAdd c a b).1.s = (a.s || b.s) ∧
      storedK c (fAdd c a b) = if a.s || (b.v.isNum && b.s) then 0 else precP c := by
  have hs : [a, b].any Opr.s = (a.s || b.s) := by simp
  have hnum : [a, b].any (fun a => a.v.isNum && a.s) = (a.s || (b.v.isNum && b.s)) := by simp [hn]
  rw [fAdd, addClass_zero h (any_dead_pair ha hb) (by simp [hn]), hs, hnum]
  refine ⟨mkImg_s .., storedK_mkImg ?_ ..⟩
  split
  · exact zero_lt_kLimit c
  · exact precP_lt_kLimit c

/-- R184: a sum with a dead zero. -/
theorem fAdd_dead (h : a.dead = true ∨ b.dead = true) (hnan : (roundOdd c (Fp.sum [a.v, b.v])).isNan = false)
    (hinf : (roundOdd c (Fp.sum [a.v, b.v])).isInf = false) : storedK c (fAdd c a b) = 0 := by
  obtain ⟨s, hs⟩ := addClass_dead (xs := [a, b]) (is := infsOf [a, b]) hnan hinf (by simpa using h)
  rw [fAdd, hs]
  exact storedK_mkImg (zero_lt_kLimit c) ..

/-- R184: the caps of a sum, the inexact one's as one minimum. -/
theorem capK_not_eq_min (c : FpCls) (r : Fp) {p : Prop} [Decidable p] (k : Nat) :
    capK c r (!decide p) k = if p then min k (avail c r) else min k (avail c r - 1) := by
  have hmin : min (min k (avail c r)) (avail c r - 1) = min k (avail c r - 1) := by omega
  rw [capK_not_eq, hmin]

/-! ### Products (R184, R197) -/

theorem kef_le (h : a.k ≤ precP c) : a.kef c ≤ precP c := by
  unfold Opr.kef
  split
  · exact h
  · exact le_refl _

/-- R184: S and K of a product of operands whose K the class can hold. -/
theorem fMul_ownTrust (ha : a.k ≤ precP c) (hb : b.k ≤ precP c) :
    OwnTrust c (min (a.kef c) (b.kef c)) (minKef c (infsOf [a, b])) (a.s || b.s) (Fp.mul a.v b.v) (fMul c a b) := by
  have hlim := precP_lt_kLimit c
  have hka := kef_le ha
  have hkb := kef_le hb
  refine ownRow_ownTrust (by omega) (minKef_lt fun y hy => ?_)
  have hy : y = a ∨ y = b := by simpa using List.mem_of_mem_filter hy
  rcases hy with rfl | rfl
  · omega
  · omega

end

/-- Settles O16: a sum by the add class, a product by its own row, the worked examples by running the lanes. -/
theorem trustRules : Obligations.TrustRules := by
  refine ⟨fun c a b => ⟨fun h => fAdd_nan (.inl (by rw [h]; rfl)), fun h => fAdd_nan (.inr h), fun h ha hb => ?_,
    fun h hn ha hb => fAdd_zero h hn ha hb, fun h hnan hinf => fAdd_dead h hnan hinf⟩, fun c a b ha hb => ?_, by decide +kernel⟩
  · obtain ⟨hs, hk⟩ := fAdd_num h ha hb
    exact ⟨hs, hk.trans (capK_not_eq_min ..)⟩
  · obtain ⟨hnan, -, hzero, hnum⟩ := fMul_ownTrust (c := c) ha hb
    exact ⟨fun h => hnan (.inl (by rw [h]; rfl)), fun h => hnan (.inr h), hzero, hnum⟩

end Sys2Proof.Laws
end

section
/-! SUPPORT. FP words whose results every floor lets pass (R185, R192), each FP lane as its entry gives it (R197-R201, R208-R213),
and the settled statement. -/

namespace Sys2Proof.Laws

open Sys2Proof Sys2Proof.Machine

/-! ### Words that write FP images (R185, R192) -/

section
variable {i : Instr} {c : FpCls} {d : VNum} {v w : Seat → Lanes Pair} {detail : Seat → Nat → Nat} {s : State}

/-- R185, R422: where no floor is in force every result is trusted. -/
theorem trusted_of_floorOpen (ho : FloorOpen i s) (c : FpCls) (v : Seat → Lanes Pair) :
    ∀ x ∈ s.seats i.maskField, Trusted x c (v x) := fun x hx => (ho x hx).imp_right .inl

/-- An FP word computes its lanes wherever the floors let them pass. -/
theorem fpComputes_of (he : ∀ s, exec i s = fpWord i c d.toNat v detail s) : FpComputes i c d v := fun s hi h => by
  refine ⟨_, he s, issue_results (fun x => x.give (outReg (clsLen c) d.toNat (v x))) _ hi fun x hx u _ _ => ?_⟩
  rw [floorFlaw_of_trusted (h x hx)]

theorem fpComputes_eq (he : ∀ s, exec i s = fpWord i c d.toNat v detail s) (h : ∀ x, v x = w x) : FpComputes i c d w :=
  funext h ▸ fpComputes_of he

/-- An FP word completes where no floor is in force. -/
theorem fpWord_floorOpen (he : ∀ s, exec i s = fpWord i c d.toNat v detail s) (hi : issues i s = true) (ho : FloorOpen i s) :
    ∃ t os, exec i s = .next t ∧ Moved s (s.counted i.maskField) t i.maskField s.curWords os (fun _ => []) (endsIdem i) := by
  obtain ⟨t, ht, hmoved⟩ := fpComputes_of he s hi (trusted_of_floorOpen ho c v)
  exact ⟨t, _, ht, hmoved⟩

end

/-! ### Comparison, minimum and maximum (R199) -/

section
variable {x y : Fp}

theorem cmp_eq_none : Fp.cmp? x y = none ↔ x.isNan = true ∨ y.isNan = true := by
  match x, y with
  | .nan, y => simp [Fp.cmp?, Fp.isNan]
  | .inf _, .nan | .fin _ _ _, .nan => simp [Fp.cmp?, Fp.isNan]
  | .inf n, .inf k => simp [Fp.cmp?, Fp.isNan]
  | .inf n, .fin _ _ _ | .fin _ _ _, .inf n => simp [Fp.cmp?, Fp.isNan]
  | .fin n m e, .fin k l f =>
    simp only [Fp.cmp?, Fp.isNan, Bool.false_eq_true, or_self, iff_false]
    split_ifs
    all_goals simp

theorem cmp_zeros (hx : x.isZero = true) (hy : y.isZero = true) : Fp.cmp? x y = some .eq := by
  match x, y, hx, hy with
  | .fin n 0 e, .fin k 0 f, _, _ => rfl

/-- Two finite values compare the other way round when they change places. -/
theorem cmp_fin_swap (n k : Bool) (m l : Nat) (e f : Int) :
    Fp.cmp? (.fin k l f) (.fin n m e) = (Fp.cmp? (.fin n m e) (.fin k l f)).map Ordering.swap := by
  unfold Fp.cmp?
  dsimp only
  by_cases hm : m = 0
  · by_cases hl : l = 0
    · simp only [if_pos hm, if_pos hl]
      rfl
    · simp only [if_pos hm, if_neg hl]
      cases k <;> rfl
  · by_cases hl : l = 0
    · simp only [if_neg hm, if_pos hl]
      cases n <;> rfl
    · simp only [if_neg hm, if_neg hl]
      by_cases hs : n = k
      · subst hs
        simp only [bne_self_eq_false, Bool.false_eq_true, if_false]
        rcases lt_trichotomy (leadExp m e) (leadExp l f) with hlt | heq | hgt
        · simp only [bne_iff_ne.2 hlt.ne, bne_iff_ne.2 hlt.ne', if_true, decide_eq_true hlt, decide_eq_false hlt.not_gt]
          cases n <;> rfl
        · simp only [heq, bne_self_eq_false, Bool.false_eq_true, if_false, min_comm f e, Option.map_some]
          exact congrArg some Std.OrientedOrd.eq_swap
        · simp only [bne_iff_ne.2 hgt.ne, bne_iff_ne.2 hgt.ne', if_true, decide_eq_true hgt, decide_eq_false hgt.not_gt]
          cases n <;> rfl
      · have hk : k = !n := by cases n <;> cases k <;> simp at hs ⊢
        subst hk
        cases n <;> rfl

theorem cmp_swap (x y : Fp) : Fp.cmp? y x = (Fp.cmp? x y).map Ordering.swap := by
  match x, y with
  | .nan, y => cases y <;> rfl
  | .inf _, .nan | .fin _ _ _, .nan => rfl
  | .inf n, .inf k => cases n <;> cases k <;> rfl
  | .inf n, .fin _ _ _ | .fin _ _ _, .inf n => cases n <;> rfl
  | .fin n m e, .fin k l f => exact cmp_fin_swap n k m l e f

theorem isZero_of_isNan (h : x.isNan = true) : x.isZero = false := by
  match x, h with
  | .nan, _ => rfl

end

/-- R199: A wins when it lies on its side of B, and else when B does not and A is no NaN that meets a number. -/
theorem aWins_eq (isMax : Bool) (c : FpCls) (u v : Pair) : aWins isMax (imgValue c u) (imgValue c v) =
    ((if isMax then below c v u else below c u v) ||
      (!(if isMax then below c u v else below c v u) && !((imgValue c u).isNan && !(imgValue c v).isNan))) := by
  unfold aWins below
  dsimp only
  generalize imgValue c u = x
  generalize imgValue c v = y
  rw [cmp_swap x y]
  cases hx : x.isNan with
  | true =>
    rw [cmp_eq_none.2 (.inl hx), isZero_of_isNan hx]
    cases isMax <;> cases y.isNan <;> simp
  | false =>
    cases hy : y.isNan with
    | true =>
      rw [cmp_eq_none.2 (.inr hy), isZero_of_isNan hy]
      cases isMax <;> simp
    | false =>
      cases hz : x.isZero && y.isZero with
      | true =>
        obtain ⟨hzx, hzy⟩ := Bool.and_eq_true_iff.1 hz
        rw [cmp_zeros hzx hzy, hzx, hzy]
        cases isMax <;> cases x.neg? <;> cases y.neg? <;> rfl
      | false =>
        rw [Bool.and_comm y.isZero, hz]
        cases hc : Fp.cmp? x y with
        | none => exact absurd (cmp_eq_none.1 hc) (by simp [hx, hy])
        | some o => cases o <;> cases isMax <;> rfl

/-- FMIN gives the operand that lies below, a NaN losing to a number. -/
theorem fMinMax_min (c : FpCls) (u v : Pair) : fMinMax false c u v =
    if below c u v then u else if below c v u then v else if (imgValue c u).isNan && !(imgValue c v).isNan then v else u := by
  rw [fMinMax, aWins_eq]
  cases below c u v <;> cases below c v u <;> cases (imgValue c u).isNan && !(imgValue c v).isNan <;> rfl

/-- FMAX gives the operand that lies above, a NaN losing to a number. -/
theorem fMinMax_max (c : FpCls) (u v : Pair) : fMinMax true c u v =
    if below c v u then u else if below c u v then v else if (imgValue c u).isNan && !(imgValue c v).isNan then v else u := by
  rw [fMinMax, aWins_eq]
  cases below c u v <;> cases below c v u <;> cases (imgValue c u).isNan && !(imgValue c v).isNan <;> rfl

/-! ### What RoundOdd makes of infinities and NaNs (R175) -/

section
variable {c : FpCls} {x : Fp}

theorem isInf_of_roundOdd (h : (roundOdd c x).isInf = true) (ho : overflows c x = false) : x.isInf = true := by
  match x with
  | .nan => cases h
  | .inf n => rfl
  | .fin n 0 e => cases h
  | .fin n (m + 1) e =>
    by_cases hb : leadExp (m + 1) e ≤ (fmtOf c).emax
    · obtain ⟨k, q, hr, -⟩ := roundOdd_onGrid (Nat.succ_pos m) n hb
      rw [hr] at h
      cases h
    · rw [overflows, decide_eq_true (Int.add_one_le_of_lt (not_le.1 hb))] at ho
      cases ho

theorem roundOdd_isNan (c : FpCls) (x : Fp) : (roundOdd c x).isNan = x.isNan := by
  match x with
  | .nan | .inf n | .fin n 0 e => rfl
  | .fin n (m + 1) e =>
    by_cases hb : leadExp (m + 1) e ≤ (fmtOf c).emax
    · obtain ⟨k, q, hr, -⟩ := roundOdd_onGrid (Nat.succ_pos m) n hb
      rw [hr]
      rfl
    · rw [roundOdd_overflow (Nat.succ_pos m) n (not_le.1 hb)]
      rfl

end

/-! ### S and K of operands and results (R183, R184) -/

@[simp] theorem oprOf_v (c : FpCls) (p : Pair) : (oprOf c p).v = imgValue c p := rfl

theorem oprOf_k_lt (c : FpCls) (p : Pair) : (oprOf c p).k < kLimit c := by
  have hk : p.1.k < 32 := Nat.mod_lt _ (by decide)
  unfold oprOf kLimit
  dsimp only
  split
  · unfold Pair.k
    split <;> omega
  · exact hk

theorem oprOf_kef_lt (c : FpCls) (p : Pair) : (oprOf c p).kef c < kLimit c := by
  unfold Opr.kef
  split
  · exact oprOf_k_lt c p
  · exact precP_lt_kLimit c

section
variable {c : FpCls} {kr k k' : Nat} {s0 : Bool} {x : Fp} {y : Pair} {xs : List Opr}

/-- The K of an infinity matters only where the exact value is one. -/
theorem ownTrust_congr (h : OwnTrust c kr k s0 x y) (hk : x.isInf = true → k = k') : OwnTrust c kr k' s0 x y := by
  obtain ⟨hnan, hinf, hrest⟩ := h
  exact ⟨hnan, fun hr ho => hk (isInf_of_roundOdd hr ho) ▸ hinf hr ho, hrest⟩

theorem addTrust_congr (h : AddTrust c xs k x y) (hk : x.isInf = true → k = k') : AddTrust c xs k' x y := by
  obtain ⟨hnan, hinf, hrest⟩ := h
  exact ⟨hnan, fun hr ho => hk (isInf_of_roundOdd hr ho) ▸ hinf hr ho, hrest⟩

theorem minKef_infsOf_one {a : Opr} (h : a.v.isInf = true) : minKef c (infsOf [a]) = a.kef c := by
  simp [minKef, infsOf, h]

theorem minKef_infsOf_lt (h : ∀ a ∈ xs, a.kef c < kLimit c) : minKef c (infsOf xs) < kLimit c :=
  minKef_lt fun a ha => h a (List.mem_of_mem_filter ha)

/-- A row that no infinite operand enters. -/
theorem ownRow_nil_ownTrust (h : kr < kLimit c) : OwnTrust c kr (precP c) s0 x (ownRow c kr s0 [] x) :=
  ownRow_ownTrust h (precP_lt_kLimit c)

/-- An infinity that is written with its S and K. -/
theorem mkImg_inf_ownTrust (hk : k < kLimit c) (kr : Nat) (s0 n : Bool) :
    OwnTrust c kr k s0 (.inf n) (mkImg c (.inf n) s0 k) := by
  have hr : roundOdd c (.inf n) = .inf n := rfl
  have ho : overflows c (.inf n) = false := rfl
  unfold OwnTrust
  rw [hr, ho]
  exact ⟨fun h => by simp [Fp.isNan] at h, fun _ _ => ⟨mkImg_s .., storedK_mkImg hk ..⟩, nofun, nofun⟩

theorem imgValue_ownRow (c : FpCls) (kr : Nat) (s0 : Bool) (is : List Opr) (x : Fp) :
    (imgValue c (ownRow c kr s0 is x)).Is (roundOdd c x) := by
  unfold ownRow roundTo
  dsimp only
  split_ifs
  all_goals exact imgValue_mkImg_roundOdd c x _ _

end

/-! ### FFMA, FSCALE and FREXP (R198, R200, R201) -/

theorem ffmaLane_addTrust (c : FpCls) (u v w : Pair) :
    AddTrust c [prodOpr c (oprOf c u) (oprOf c v), oprOf c w] (minKef c (infsOf [oprOf c u, oprOf c v, oprOf c w]))
      (Fp.sum [Fp.mul (imgValue c u) (imgValue c v), imgValue c w]) (ffmaLane c u v w) :=
  addClass_addTrust (minKef_infsOf_lt (by simp [oprOf_kef_lt]))

theorem scale_isInf (x : Fp) (n : Int) : (x.scale n).isInf = x.isInf := by cases x <;> rfl

theorem fscale_ownTrust (c : FpCls) (u : Pair) (n : Int) :
    OwnTrust c (oprOf c u).k ((oprOf c u).kef c) (oprOf c u).s ((imgValue c u).scale n)
      (ownRow c (oprOf c u).k (oprOf c u).s (infsOf [oprOf c u]) ((imgValue c u).scale n)) := by
  refine ownTrust_congr (ownRow_ownTrust (oprOf_k_lt c u) (minKef_infsOf_lt ?_)) fun h => minKef_infsOf_one ?_
  · simpa using oprOf_kef_lt c u
  · rwa [scale_isInf] at h

theorem frexpSigLane_eq (c : FpCls) (u : Pair) : frexpSigLane c u =
    if (imgValue c u).isNum then ownRow c (oprOf c u).k (oprOf c u).s [] ((imgValue c u).scale (-(imgValue c u).lead))
    else if (imgValue c u).isNan then mkImg c .nan true 0 else u := by
  unfold frexpSigLane
  rw [← oprOf_v]
  generalize oprOf c u = a
  obtain ⟨v, s0, k⟩ := a
  match v with
  | .nan | .inf n | .fin n 0 e | .fin n (m + 1) e => rfl

/-! ### FCVT and FUNPACK (R208, R213) -/

/-- The K with which a value goes from class `s` to class `d`. -/
def cvtK (d s : FpCls) (k : Nat) : Nat := if widens s d then k else min k (precP d)

theorem cvtK_lt {d s : FpCls} {k : Nat} (h : k < kLimit s) : cvtK d s k < kLimit d := by
  have hwide : widens s d = true → kLimit s ≤ kLimit d := by cases s <;> cases d <;> decide
  have hprec := precP_lt_kLimit d
  unfold cvtK
  split
  case isTrue hw => exact h.trans_le (hwide hw)
  case isFalse => omega

theorem fcvtLane_same (c : FpCls) (u : Pair) : fcvtLane c c u = u := if_pos (beq_self_eq_true c)

theorem fcvtLane_ne {d s : FpCls} (h : d ≠ s) (u : Pair) : fcvtLane d s u =
    if (imgValue s u).isNan then mkImg d .nan true 0
    else if (imgValue s u).isInf then mkImg d (imgValue s u) (oprOf s u).s (cvtK d s (oprOf s u).k)
    else ownRow d (cvtK d s (oprOf s u).k) (oprOf s u).s [] (imgValue s u) := if_neg (by simpa using h)

theorem fcvtLane_ownTrust {d s : FpCls} (h : d ≠ s) (u : Pair) :
    OwnTrust d (cvtK d s (oprOf s u).k) (cvtK d s (oprOf s u).k) (oprOf s u).s (imgValue s u) (fcvtLane d s u) := by
  have hk : cvtK d s (oprOf s u).k < kLimit d := cvtK_lt (oprOf_k_lt s u)
  rw [fcvtLane_ne h]
  cases imgValue s u with
  | inf n => exact mkImg_inf_ownTrust hk _ _ n
  | nan => exact ownTrust_congr (ownRow_nil_ownTrust hk) nofun
  | fin n m e => exact ownTrust_congr (ownRow_nil_ownTrust hk) nofun

theorem funpackLane_eq (f : FpCls) (n : Nat) (u : Pair) : funpackLane f n u =
    (let y := decodeFp f (u.1.val.toNat / 2 ^ (laneWidth f * n) % 2 ^ (fmtOf f).bits)
    if y.isNan then mkImg .f32 .nan true 0 else mkImg .f32 y false 26) := by
  unfold funpackLane
  dsimp only
  generalize decodeFp f (u.1.val.toNat / 2 ^ (laneWidth f * n) % 2 ^ (fmtOf f).bits) = y
  cases y with
  | nan => rfl
  | inf n => exact (if_neg Bool.false_ne_true).symm
  | fin n m e => exact (if_neg Bool.false_ne_true).symm

/-! ### FROUND (R211) -/

theorem rint_fin (mode : Rnd) (n : Bool) (m : Nat) (e : Int) :
    (rint mode (.fin n m e)).rat = (if n then -(roundMag mode n m e : ℚ) else roundMag mode n m e) ∧
      (rint mode (.fin n m e)).neg? = n := by
  refine ⟨?_, rfl⟩
  cases n <;> simp [rint, Fp.rat]

theorem roundMag_zero (mode : Rnd) (n : Bool) (k : Int) : roundMag mode n 0 k = 0 := by
  have hmag (k : Int) : shiftMag 0 k = 0 := by cases k <;> simp [shiftMag]
  have hloses (k : Int) : shiftLoses 0 k = false := by cases k <;> simp [shiftLoses]
  unfold roundMag
  cases mode <;> simp [hmag, hloses]

theorem imgValue_froundLane (c : FpCls) (mode : Rnd) (u : Pair) :
    (imgValue c (froundLane c mode u)).Is (roundOdd c (rint mode (imgValue c u))) := by
  have hmade : ∃ s k, froundLane c mode u = mkImg c (roundOdd c (rint mode (imgValue c u))) s k := by
    unfold froundLane
    rw [← oprOf_v]
    generalize oprOf c u = a
    obtain ⟨v, s0, k⟩ := a
    cases v with
    | nan | inf n => exact ⟨_, _, rfl⟩
    | fin n m e =>
      dsimp only [roundTo]
      split_ifs
      all_goals exact ⟨_, _, rfl⟩
  obtain ⟨s, k, h⟩ := hmade
  rw [h]
  exact imgValue_mkImg_roundOdd ..

/-- R211: FROUND of anything but a zero is a result of the add class with one addend. -/
theorem froundLane_eq_addClass {c : FpCls} {u : Pair} (hz : (imgValue c u).isZero = false) (mode : Rnd) :
    froundLane c mode u = addClass c [oprOf c u] (infsOf [oprOf c u]) (rint mode (imgValue c u)) := by
  unfold froundLane
  rw [← oprOf_v] at hz ⊢
  generalize oprOf c u = a at hz ⊢
  obtain ⟨v, s0, k⟩ := a
  match v, hz with
  | .nan, _ => rfl
  | .inf n, _ =>
    have hrint : rint mode (.inf n) = .inf n := rfl
    rw [hrint, addClass_inf rfl rfl, minKef_infsOf_one rfl]
    simp [roundOdd]
  | .fin n (m + 1) e, _ =>
    unfold addClass
    dsimp only [roundTo]
    rw [roundOdd_isNan]
    cases ho : overflows c (rint mode (.fin n (m + 1) e)) with
    | true => rfl
    | false =>
      have hinf : (roundOdd c (rint mode (.fin n (m + 1) e))).isInf = false :=
        Bool.eq_false_iff.2 fun h => Bool.false_ne_true (isInf_of_roundOdd h ho)
      rw [hinf]
      simp only [List.any_cons, List.any_nil, Bool.or_false]
      rfl

theorem froundLane_addTrust (c : FpCls) (mode : Rnd) (u : Pair) :
    AddTrust c [oprOf c u] ((oprOf c u).kef c) (rint mode (imgValue c u)) (froundLane c mode u) := by
  cases hz : (imgValue c u).isZero with
  | false =>
    rw [froundLane_eq_addClass hz]
    refine addTrust_congr (addClass_addTrust (minKef_infsOf_lt (by simpa using oprOf_kef_lt c u))) fun h => minKef_infsOf_one ?_
    rw [oprOf_v]
    cases hx : imgValue c u <;> rw [hx] at h <;> exact h
  | true =>
    match hx : imgValue c u, hz with
    | .fin n 0 e, _ =>
      have hnum : [oprOf c u].any (fun a => a.v.isNum) = false := by simp [hx, Fp.isNum]
      have hr : roundOdd c (rint mode (.fin n 0 e)) = .fin n 0 0 := by simp [rint, roundMag_zero, roundOdd]
      have ho : overflows c (rint mode (.fin n 0 e)) = false := by simp [rint, roundMag_zero, overflows]
      unfold AddTrust
      rw [hr, ho, hnum]
      exact ⟨fun h => by simp [Fp.isNan] at h, nofun, nofun, nofun⟩

/-- Settles O17: each word is one FP word whose lanes are these, and each row's image has the S and K of R184. -/
theorem floatArithmetic : Obligations.FloatArithmetic := by
  refine ⟨fun s c d a p b e src ty n rnd mk i h hi ho => ?_, fun c d a p b mk => fpComputes_of fun _ => rfl,
    fun c d a p b mk => fpComputes_of fun _ => rfl, fun c d a p b mk => fpComputes_of fun _ => rfl,
    fun c d a p b e mk => fpComputes_of fun _ => rfl, fun c d a p b mk => ?_, fun c d a p b mk => ?_,
    fun c d a p b mk => fpComputes_of fun _ => rfl, fun c d a p mk => ?_,
    fun c d a p rnd mk => fpComputes_of fun _ => rfl, fun dst src d a p mk => ?_,
    fun c ty d a p mk => fpComputes_of fun _ => rfl, fun c d a p n mk => ?_, fun src dst => rfl,
    imgValue_mkImg_roundOdd, imgValue_addClass, imgValue_ownRow,
    fun c a b => ⟨imgValue_addClass .., imgValue_ownRow ..⟩,
    fun c mode u _ => ⟨imgValue_froundLane c mode u, froundLane_addTrust c mode u⟩, rint_fin, ffmaLane_addTrust,
    fscale_ownTrust, fun c u _ => ownRow_nil_ownTrust (oprOf_k_lt c u), fun dst src u h => fcvtLane_ownTrust h u,
    fun c k => ownRow_nil_ownTrust (precP_lt_kLimit c)⟩
  · obtain rfl | rfl | rfl | rfl | rfl | rfl | rfl | rfl | rfl | rfl | rfl | rfl := h
    all_goals exact fpWord_floorOpen (fun _ => rfl) hi ho
  · exact fpComputes_eq (fun _ => rfl) fun x => by rw [funext₂ (fMinMax_min c)]
  · exact fpComputes_eq (fun _ => rfl) fun x => by rw [funext₂ (fMinMax_max c)]
  · exact fpComputes_eq (fun _ => rfl) fun x => by rw [funext (frexpSigLane_eq c)]
  · refine fpComputes_eq (fun _ => rfl) fun x => congrArg (Lanes.map · _) (funext fun u => ?_)
    split
    case isTrue h => rw [h, fcvtLane_same]
    case isFalse h => exact fcvtLane_ne h u
  · exact fpComputes_eq (fun _ => rfl) fun x => by rw [funext (funpackLane_eq c n.toNat)]

end Sys2Proof.Laws
end

section
/-! SUPPORT. Tag edits and reads of images into integers and masks lane by lane (R201-R203, R209, R212, R215-R218), FPACK, and the
settled statement. -/

namespace Sys2Proof.Laws

open Sys2Proof Sys2Proof.Machine

/-! ### Tags (R35, R36, R215-R218) -/

/-- S is bit 5 of the tag. -/
theorem s_eq_getLsbD (y : Img) : y.s = y.tag.getLsbD 5 := by
  simp [Img.s, BitVec.getLsbD, Nat.testBit_eq_decide_div_mod_eq, beq_eq_decide]

theorem g_lt_four (y : Img) : y.g < 4 := by unfold Img.g; omega

/-- An image of a class of one register keeps value and G and takes S and K. -/
theorem retag_narrow {c : FpCls} (hc : c ≠ .f64) (p : Pair) (s : Bool) {k : Nat} (hk : k < 32) :
    (retag c p s k).1.val = p.1.val ∧ (retag c p s k).1.g = p.1.g ∧ (retag c p s k).1.s = s ∧
      storedK c (retag c p s k) = k := by
  refine ⟨rfl, (g_mkTag ..).trans (Nat.mod_eq_of_lt (g_lt_four p.1)), s_mkTag .., ?_⟩
  rw [storedK, if_neg (by simpa using hc)]
  exact (k_mkTag ..).trans (Nat.mod_eq_of_lt hk)

/-- A pair keeps value and G and takes S and K, whose bit 5 stands in the odd tag (R36). -/
theorem retag_wide (p : Pair) (s : Bool) {k : Nat} (hk : k < 64) :
    (retag .f64 p s k).val = p.val ∧ (retag .f64 p s k).1.g = p.1.g ∧ (retag .f64 p s k).1.s = s ∧
      storedK .f64 (retag .f64 p s k) = k := by
  refine ⟨rfl, (g_mkTag ..).trans (Nat.mod_eq_of_lt (g_lt_four p.1)), s_mkTag .., ?_⟩
  have hlow : (retag .f64 p s k).1.k = k % 32 := k_mkTag ..
  have hodd : (retag .f64 p s k).2.tag = if 32 ≤ k then 0x01#8 else 0x00#8 := rfl
  rw [storedK, if_pos (beq_self_eq_true _), Pair.k, hlow, hodd]
  split
  · rw [if_pos (by decide)]
    omega
  · rw [if_neg (by decide)]
    omega

/-! ### Images read into integers and masks (R201-R203, R215) -/

/-- A pure word of one source computes lanes equal to its own. -/
theorem computes_lanes {i : Instr} {d a : VNum} {p : Perm} {len : Nat} {f g : Pair → Pair}
    (he : ∀ s, exec i s = pureWord i (fun x _ => outReg 1 d.toNat ((x.src len a p).map f)) s) (h : ∀ u, f u = g u) :
    Computes i fun _ x => outReg 1 d.toNat ((x.src len a p).map g) :=
  computes_eq he fun x => by rw [funext h]

theorem wr32_natCast (n : Nat) : wr32 n = (⟨BitVec.ofNat 32 n, 0x1F#8⟩, zeroImg) := by
  unfold wr32
  rw [BitVec.ofInt_natCast]
  rfl

/-- R215: what KGET reads in a lane. -/
theorem kgetLane_eq (pick : KgetSel) (c : FpCls) (u : Pair) : kgetLane pick c u =
    (⟨BitVec.ofNat 32 (match pick with
      | .k => storedK c u
      | .kef => if u.1.s then storedK c u else precP c
      | .s => if u.1.s then 1 else 0
      | .g => u.1.g
      | .tag => u.1.tag.toNat + (if c = .f64 then 256 * u.2.tag.toNat else 0)), 0x1F#8⟩, zeroImg) := by
  unfold kgetLane
  dsimp only
  cases pick with
  | k | kef | g => exact wr32_natCast _
  | s =>
    rw [← wr32_natCast]
    cases hs : u.1.s <;> simp [oprOf, hs]
  | tag =>
    rw [← wr32_natCast]
    simp only [beq_iff_eq]

/-- R201: the exponent of a number; a zero and the special values have codes of their own. -/
theorem frexpExpLane_eq (c : FpCls) (u : Pair) : frexpExpLane c u =
    (⟨if (imgValue c u).isNum then BitVec.ofInt 32 (imgValue c u).lead
      else if (imgValue c u).isZero then 0x80000000#32 else 0x7FFFFFFF#32, 0x1F#8⟩, zeroImg) := by
  unfold frexpExpLane
  match imgValue c u with
  | .nan | .inf n | .fin n 0 e | .fin n (m + 1) e => rfl

/-- R202: the relations; under .X two equal values count only where both are exact. -/
theorem fcmpLane_eq (cond : FCond) (ex : Bool) (c : FpCls) (u v : Pair) : fcmpLane cond ex c u v =
    (let r := Fp.cmp? (imgValue c u) (imgValue c v)
    let same := decide (r = some .eq) && (!ex || (!u.1.s && !v.1.s))
    match cond with
    | .eq => same
    | .ne => !same
    | .lt => decide (r = some .lt)
    | .le => decide (r = some .lt) || same
    | .gt => decide (r = some .gt)
    | .ge => decide (r = some .gt) || same
    | .un => decide (r = none)
    | .ord => decide (r ≠ none)) := by
  unfold fcmpLane
  cases Fp.cmp? (imgValue c u) (imgValue c v) with
  | none => cases cond <;> rfl
  | some o => cases o <;> cases cond <;> rfl

theorem oprOf_dead (c : FpCls) (u : Pair) : (oprOf c u).dead = ((imgValue c u).isZero && u.1.s && decide (storedK c u = 0)) := rfl

/-- R203: the class bit of the value, then S, a dead zero and G. -/
theorem fclassLane_eq (c : FpCls) (u : Pair) : fclassLane c u =
    (let y := imgValue c u
    let sub := decide (y.lead < (fmtOf c).emin)
    (⟨BitVec.ofNat 32 ((if y.isNan then 2 ^ 8 else if y.isInf then (if y.neg? then 2 ^ 0 else 2 ^ 7)
        else if y.isZero then (if y.neg? then 2 ^ 3 else 2 ^ 4)
        else if y.neg? then (if sub then 2 ^ 2 else 2 ^ 1) else (if sub then 2 ^ 5 else 2 ^ 6)) +
      (if u.1.s then 2 ^ 9 else 0) + (if y.isZero && u.1.s && decide (storedK c u = 0) then 2 ^ 10 else 0) +
      (if u.1.g = 0 then 0 else 2 ^ 11)), 0x1F#8⟩, zeroImg)) := by
  have hs : (oprOf c u).s = u.1.s := rfl
  have hv : imgValue c u = (oprOf c u).v := rfl
  unfold fclassLane
  dsimp only
  rw [wr32_natCast, oprOf_dead, hs, hv]
  generalize (oprOf c u).v = y
  congr 4
  · congr 2
    match y with
    | .nan => rfl
    | .inf n | .fin n 0 e => cases n <;> rfl
    | .fin n (m + 1) e =>
      have hlead : (Fp.fin n (m + 1) e).lead = leadExp (m + 1) e := rfl
      dsimp only
      rw [hlead]
      generalize decide (leadExp (m + 1) e < (fmtOf c).emin) = sub
      cases n <;> cases sub <;> rfl
  · cases u.1.g <;> rfl

/-! ### FPACK (R212) -/

/-- A pair of elements that lies within a word is one that the format has. -/
theorem pair_within {f : FpCls} {j : Nat} (h : laneWidth f * (2 * j + 1) < 32) : ¬ 16 / laneWidth f ≤ j := by
  have hw : laneWidth f = 64 ∨ laneWidth f = 32 ∨ laneWidth f = 16 ∨ laneWidth f = 8 ∨ laneWidth f = 4 := by
    cases f <;> decide
  rcases hw with hw | hw | hw | hw | hw
  all_goals rw [hw] at h ⊢; omega

/-- R212: FPACK into a format that its slot suits, at a pair of elements that it has, completes. -/
theorem fpack_completes {s : State} {ty : FpackTy} {sat : Bool} {d a b e : VNum} {j : BitVec 2} {fmt : BitVec 3} {mk : MNum}
    (hi : issues (.fpack ty sat d a b e j fmt mk) s = true) (h : ∀ x ∈ s.seats mk.toNat,
      ∃ f, fpackCls ty (slotOfmt (s.slotOf x.g.launch fmt.toNat)) = some f ∧ laneWidth f * (2 * j.toNat + 1) < 32) :
    Completes (.fpack ty sat d a b e j fmt mk) s (s.counted mk.toNat) (fun x => x.give (
      let slot := s.slotOf x.g.launch fmt.toNat
      let f := (fpackCls ty (slotOfmt slot)).getD .f16
      outReg 1 d.toNat (Lanes.map3 (fpackLane f
        (if ty = .slot then (rndOfNat (slotOrnd slot)).getD (modeOf .dyn x.g.rndctl) else modeOf .dyn x.g.rndctl)
        (if ty = .slot then slotOsat slot else sat) j.toNat) (x.src 1 a .none) (x.src 1 b .none)
        (if laneWidth f = 16 then .uni (zeroImg, zeroImg) else x.src 1 e .none)))) (fun _ => []) := by
  refine ⟨_, congrArg Host.Outcome.next (issue_early hi), issue_results _ _ hi fun x hx u hu _ => ?_⟩
  obtain ⟨f, hf, hj⟩ := h x hx
  have hslot : u.slotOf x.g.launch fmt.toNat = s.slotOf x.g.launch fmt.toNat := by
    rw [hu]
    rfl
  rw [fpackFmt, hslot, hf]
  dsimp only
  rw [if_neg (pair_within hj), hf]
  cases rndOfNat (slotOrnd (s.slotOf x.g.launch fmt.toNat)) with
  | none | some r => cases ty <;> rfl

/-- Settles O18: tag edits are FP words over `retag`, the readings are pure words whose lanes these tables give. -/
theorem trustEdits : Obligations.TrustEdits := by
  refine ⟨fun s c d a p b mk i h hi ho => ?_, fun c d a p b mk => fpComputes_of fun _ => rfl,
    fun c d a p b mk => fpComputes_of fun _ => rfl, fun c d a p mk => fpComputes_of fun _ => rfl,
    fun c d a p mk => fpComputes_of fun _ => rfl, fun c d a p mk => ?_, fun p c s k hc hk => retag_narrow hc p s hk,
    fun p s k hk => retag_wide p s hk, fun pick c d a p mk => ?_, fun c d a p mk => ?_,
    fun cond ex c md a p b mk => ?_, fun c d a p mk => ?_, fun ty c d a p rnd mk => computes_pure _ fun _ => rfl,
    fun s ty sat d a b e j fmt mk hi h => fpack_completes hi h⟩
  · obtain rfl | rfl | rfl | rfl := h
    all_goals exact fpWord_floorOpen (fun _ => rfl) hi ho
  · exact computes_eq (fun _ => rfl) fun x => congrArg (fun m => [outMask (d.toNat % 8) m]) (funext fun l => s_eq_getLsbD _)
  · refine computes_lanes (fun _ => rfl) fun u => (kgetLane_eq pick c u).trans ?_
    cases pick <;> rfl
  · exact computes_lanes (fun _ => rfl) (frexpExpLane_eq c)
  · exact computes_eq (fun _ => rfl) fun x =>
      congrArg (fun m => [outMask md.toNat m]) (funext fun l => fcmpLane_eq cond ex c _ _)
  · exact computes_lanes (fun _ => rfl) (fclassLane_eq c)

end Sys2Proof.Laws
end

section
/-! SUPPORT. Long-latency FP words (R105, R185), the approximations and the bound of FRCP (R204-R207), FREDUCE (R186, R214),
and the settled statement. -/

namespace Sys2Proof.Laws

open Sys2Proof Sys2Proof.Machine

/-! ### Long-latency FP words (R105, R185) -/

section
variable {i : Instr} {c : FpCls} {d : VNum} {look : BitVec 4} {v : Seat → Lanes Pair} {detail : Seat → Nat → Nat} {s : State}

/-- A long-latency FP word opens a window for each member wherever the floors let its lanes pass. -/
theorem fpOpens_of (he : ∀ s, exec i s = fpLongWord i c d.toNat look v detail s) :
    FpOpens i c d look v := fun s hi h => by
  have hacts : Acts i (fun _ x => (floorFlaw x c (v x) (detail x)).isNone) fun x u => (u.addPend x look.toNat
      ((List.range (clsLen c)).map (d.toNat + ·)) [] x.act (outReg (clsLen c) d.toNat (v x)) false true 0).2 :=
    acts_long look.toNat _ [] _ true 0 he fun s x _ hok u _ _ => by rw [Option.isNone_iff_eq_none.1 hok]
  exact hacts s hi fun x hx => Option.isNone_iff_eq_none.2 (floorFlaw_of_trusted (h x hx) _)

/-- Windows that open, one member after another, change gangs and the next identity alone. -/
theorem foldl_addPend_rest (look : Nat) (regs masks : List Nat) (outs : Seat → List Out) (xs : List Seat) {u : State}
    (h : u = { s with gangs := u.gangs, nextId := u.nextId }) :
    let t := xs.foldl (fun u x => (u.addPend x look regs masks x.act (outs x) false true 0).2) u
    t = { s with gangs := t.gangs, nextId := t.nextId } := by
  induction xs generalizing u with
  | nil => exact h
  | cons x xs ih =>
    refine ih ?_
    dsimp only
    obtain ⟨hrest, -, -⟩ := addPend_opens u x look regs masks x.act (outs x) false true 0
    generalize (u.addPend x look regs masks x.act (outs x) false true 0).2 = t at hrest ⊢
    rw [hrest, h]

/-- A long-latency FP word completes where no floor is in force. -/
theorem fpLongWord_floorOpen (he : ∀ s, exec i s = fpLongWord i c d.toNat look v detail s) (hi : issues i s = true)
    (ho : FloorOpen i s) : ∃ t u, exec i s = .next t ∧ u = { s with gangs := u.gangs, nextId := u.nextId } ∧
      Moved s u t i.maskField s.curWords (fun _ => []) (fun _ => []) (endsIdem i) := by
  obtain ⟨t, ht, hmoved⟩ := fpOpens_of he s hi (trusted_of_floorOpen ho c v)
  refine ⟨t, _, ht, foldl_addPend_rest _ _ _ _ _ ?_, hmoved⟩
  rw [counted_rest]

end

/-! ### What an approximation writes (R204-R206) -/

section
variable {f : ApproxFn} {c : FpCls} {noise : Int} {x v : Fp}

theorem special_of_ite {p : Prop} [Decidable p] {y w : ApproxOut} (h : (if p then y else w) = .special v)
    (hy : y ≠ .special v) : w = .special v := by
  by_cases hp : p
  · exact absurd ((if_pos hp).symm.trans h) hy
  · exact (if_neg hp).symm.trans h

/-- R206: a special result is a NaN, an infinity or a zero, which RoundOdd leaves. -/
theorem roundOdd_of_special (h : approxOf f c noise x = .special v) : roundOdd c v = v := by
  cases x with
  | nan => cases f <;> cases h <;> rfl
  | inf n => cases f <;> cases n <;> cases h <;> rfl
  | fin n m e =>
    cases m with
    | zero => cases f <;> cases h <;> rfl
    | succ m =>
      cases f with
      | rcp => nomatch special_of_ite h nofun
      | exp2 | sin => nomatch special_of_ite (special_of_ite h nofun) nofun
      | cos => nomatch special_of_ite (special_of_ite (special_of_ite h nofun) nofun) nofun
      | rsq | log2 =>
        cases n with
        | true => cases h; rfl
        | false => nomatch special_of_ite h nofun

/-- The image of what an approximation gives, for an operand. -/
def outImage (c : FpCls) (acc : Nat) (a : Opr) : ApproxOut → Pair
  | .exact v => ownRow c (min (a.kef c) acc) a.s [] v
  | .special .nan => mkImg c .nan true 0
  | .special v => mkImg c v a.s (if a.s then 0 else precP c)
  | .near v => ownRow c (min (a.kef c) acc) true [] v

theorem approx_eq_outImage (f : ApproxFn) (c : FpCls) (u : Pair) :
    ∃ noise, approx f c u = outImage c (acc f c) (oprOf c u) (approxOf f c noise (imgValue c u)) :=
  ⟨_, rfl⟩

theorem outImage_special (c : FpCls) (acc : Nat) (a : Opr) (v : Fp) : outImage c acc a (.special v) =
    mkImg c v (v.isNan || a.s) (if v.isNan || a.s then 0 else precP c) := by
  cases v <;> rfl

end

/-! ### FRCP (R204, R205) -/

section
variable {m : Nat}

theorem clampInt_abs_le {b : Int} (hb : 0 ≤ b) (x : Int) : |clampInt (-b) b x| ≤ b := by
  rw [clampInt_eq (by omega), abs_le]
  omega

/-- The reference is cut by less than one unit of 2^(b - 64) and moved by at most 2^64 - 2 of them. -/
theorem perturb_sub_lt (neg : Bool) (m : Nat) (e b noise : Int) :
    |(perturb neg m e b noise).rat - (Fp.fin neg m e).rat| < (2 ^ 64 - 1) * 2 ^ (b - 64) := by
  have hpos := two_zpow_pos (b - 64)
  have hfloor := shiftMag_floor m (e - (b - 64))
  have hunits : (m : ℚ) * 2 ^ e = m * 2 ^ (e - (b - 64)) * 2 ^ (b - 64) := by
    rw [mul_assoc, ← zpow_add₀ (by norm_num), sub_add_cancel]
  have hnoise := clampInt_abs_le (by norm_num : (0 : Int) ≤ 2 ^ 64 - 2) noise
  unfold perturb
  dsimp only
  rw [rat_ofUnits, hfloor, Fp.rat, mul_assoc, hunits]
  generalize (m : ℚ) * 2 ^ (e - (b - 64)) = y
  generalize clampInt (-(2 ^ 64 - 2)) (2 ^ 64 - 2) noise = d at hnoise ⊢
  have hd : |(d : ℚ)| ≤ 2 ^ 64 - 2 := by exact_mod_cast hnoise
  obtain ⟨hdl, hdr⟩ := abs_le.1 hd
  have hle := Int.floor_le y
  have hlt := Int.lt_floor_add_one y
  rw [← mul_assoc, ← sub_mul, abs_mul, abs_of_pos hpos]
  refine mul_lt_mul_of_pos_right (abs_lt.2 ?_) hpos
  cases neg with
  | false =>
    simp only [Bool.false_eq_true, if_false]
    push_cast
    constructor <;> linarith
  | true =>
    simp only [if_true]
    push_cast
    constructor <;> linarith

/-- A reference within one unit of a number gives an approximation within 2^b of it. -/
theorem perturb_near {neg : Bool} {e b : Int} {x : ℚ} (h : |(Fp.fin neg m e).rat - x| ≤ 2 ^ (b - 64)) (noise : Int) :
    |(perturb neg m e b noise).rat - x| < 2 ^ b := by
  have hb : (2 : ℚ) ^ b = 2 ^ 64 * 2 ^ (b - 64) := by
    rw [← zpow_natCast, ← zpow_add₀ (by norm_num)]
    congr 1
    norm_num
  have hcut := perturb_sub_lt neg m e b noise
  have htri := abs_sub_le (perturb neg m e b noise).rat (Fp.fin neg m e).rat x
  rw [hb]
  linarith

/-- The quotient of a power of two by a number that is none. -/
theorem log2_quotient (hm : 0 < m) (hp : m ≠ 2 ^ m.log2) (w : Nat) : (2 ^ (m.log2 + (w + 1)) / m).log2 = w := by
  have hlow : 2 ^ m.log2 < m := lt_of_le_of_ne (Nat.log2_self_le hm.ne') hp.symm
  have hhigh : m < 2 ^ (m.log2 + 1) := Nat.lt_log2_self
  have hle : 2 ^ w ≤ 2 ^ (m.log2 + (w + 1)) / m := by
    rw [Nat.le_div_iff_mul_le hm, show m.log2 + (w + 1) = w + (m.log2 + 1) by omega, pow_add]
    exact Nat.mul_le_mul_left _ hhigh.le
  have hlt : 2 ^ (m.log2 + (w + 1)) / m < 2 ^ (w + 1) := by
    rw [Nat.div_lt_iff_lt_mul hm, pow_add, Nat.mul_comm]
    exact Nat.mul_lt_mul_of_pos_left hlow (Nat.two_pow_pos _)
  exact (Nat.log2_eq_iff ((Nat.two_pow_pos w).trans_le hle).ne').2 ⟨hle, hlt⟩

/-- A truncated quotient lies within its unit of the reciprocal. -/
theorem quotient_near (hm : 0 < m) (n : Bool) (e : Int) (k : Nat) :
    |(Fp.fin n (2 ^ k / m) (-e - k)).rat - 1 / (Fp.fin n m e).rat| ≤ 2 ^ (-e - k) := by
  have hm' : (0 : ℚ) < m := by exact_mod_cast hm
  have hpos := two_zpow_pos (-e - k)
  have hle : ((2 ^ k / m : Nat) : ℚ) ≤ 2 ^ k / m := by exact_mod_cast Nat.cast_div_le (α := ℚ)
  have hlt : (2 : ℚ) ^ k / m < (2 ^ k / m : Nat) + 1 := by
    rw [div_lt_iff₀ hm', mul_comm]
    exact_mod_cast Nat.lt_mul_div_succ (2 ^ k) hm
  have hinv : 1 / ((m : ℚ) * 2 ^ e) = 2 ^ k / m * 2 ^ (-e - k) := by
    rw [sub_eq_add_neg, zpow_add₀ (by norm_num), zpow_neg, zpow_neg, zpow_natCast]
    field_simp
  have habs : |((2 ^ k / m : Nat) : ℚ) - 2 ^ k / m| ≤ 1 := abs_le.2 ⟨by linarith, by linarith⟩
  have hdiff : |((2 ^ k / m : Nat) : ℚ) * 2 ^ (-e - k) - 1 / (m * 2 ^ e)| ≤ 2 ^ (-e - k) := by
    rw [hinv, ← sub_mul, abs_mul, abs_of_pos hpos]
    exact mul_le_of_le_one_left hpos.le habs
  cases n with
  | false =>
    have hrat (a : Nat) (f : Int) : (Fp.fin false a f).rat = a * 2 ^ f := by simp [Fp.rat]
    rw [hrat, hrat]
    exact hdiff
  | true =>
    have hrat (a : Nat) (f : Int) : (Fp.fin true a f).rat = -(a * 2 ^ f) := by simp [Fp.rat]
    rw [hrat, hrat, div_neg, sub_neg_eq_add, neg_add_eq_sub, abs_sub_comm]
    exact hdiff

theorem isPow2_eq_false (h : ∀ k, m ≠ 2 ^ k) : isPow2 m = false := by
  rw [isPow2, beq_false_of_ne (h m.log2), Bool.and_false]

/-- R204, R205: FRCP of a number that is no power of two lies within its bound, whatever the free value is. -/
theorem rcp_near (c : FpCls) (noise : Int) (n : Bool) (e : Int) (hm : 0 < m) (hp : ∀ k, m ≠ 2 ^ k) :
    ∃ y, approxOf .rcp c noise (.fin n m e) = .near y ∧
      |y.rat - 1 / (Fp.fin n m e).rat| < 2 ^ (-(leadExp m e) - 1 - (acc .rcp c : Int) + 1) := by
  have hacc : acc .rcp c ≤ 96 := by cases c <;> decide
  have hlead : leadExp (2 ^ (m.log2 + wp) / m) (-e - (m.log2 + wp : Nat)) = -(leadExp m e) - 1 := by
    rw [leadExp, wp, log2_quotient hm (hp _), leadExp]
    push_cast
    ring
  have happrox : approxOf .rcp c noise (.fin n m e) = .near (perturb n (2 ^ (m.log2 + wp) / m) (-e - (m.log2 + wp : Nat))
      (-(leadExp m e) - 1 - acc .rcp c + 1) noise) := by
    obtain ⟨k, rfl⟩ := Nat.exists_eq_succ_of_ne_zero hm.ne'
    rw [← hlead]
    exact if_neg (by rw [isPow2_eq_false hp]; simp)
  refine ⟨_, happrox, perturb_near ((quotient_near hm n e _).trans (zpow_le_zpow_right₀ (by norm_num) ?_)) noise⟩
  unfold leadExp wp
  push_cast
  omega

end

/-- Settles O19: each word opens windows over its lanes, an approximation's image rounds what `approxOf` gives, and FRCP
keeps its bound. -/
theorem longFloat : Obligations.LongFloat := by
  refine ⟨fun s c d a p look mk i h hi ho => ?_, fun f c d a p look mk => ?_, fun c d a look mk => fpOpens_of fun _ => rfl,
    fun f c u => ?_, fun f c noise => by cases f <;> rfl,
    fun c noise n e => ⟨rfl, rfl, rfl, rfl, rfl, rfl, rfl, rfl, rfl, rfl, rfl, rfl⟩, fun c noise m e hm => ?_,
    fun c noise n m e hm hp _ => rcp_near c noise n e hm hp⟩
  · obtain rfl | rfl | rfl | rfl | rfl | rfl | rfl := h
    all_goals exact fpLongWord_floorOpen (fun _ => rfl) hi ho
  · cases f
    all_goals exact fpOpens_of fun _ => rfl
  · obtain ⟨noise, himg⟩ := approx_eq_outImage f c u
    refine ⟨noise, ?_⟩
    have hk : min ((oprOf c u).kef c) (acc f c) < kLimit c := (min_le_left _ _).trans_lt (oprOf_kef_lt c u)
    rw [himg, oprOf_v]
    cases ho : approxOf f c noise (imgValue c u) with
    | exact v => exact ⟨imgValue_ownRow .., ownRow_nil_ownTrust hk⟩
    | near v => exact ⟨imgValue_ownRow .., ownRow_nil_ownTrust hk⟩
    | special v =>
      have his := imgValue_mkImg_roundOdd c v
      rw [roundOdd_of_special ho] at his
      rw [outImage_special]
      refine ⟨his _ _, fun hn => ?_, fun hn => ?_⟩
      · rw [hn, Bool.true_or, if_pos rfl]
        exact ⟨mkImg_s .., storedK_mkImg (zero_lt_kLimit c) ..⟩
      · rw [hn, Bool.false_or]
        refine ⟨mkImg_s .., storedK_mkImg ?_ ..⟩
        split
        · exact zero_lt_kLimit c
        · exact precP_lt_kLimit c
  · obtain ⟨m, rfl⟩ := Nat.exists_eq_succ_of_ne_zero hm.ne'
    exact ⟨rfl, rfl⟩

end Sys2Proof.Laws
end

section
/-! SUPPORT. Words of a member's own accesses at issue (R236-R243, R256, R259): what enters a stream, and the pieces of a
range. -/

namespace Sys2Proof.Laws

open Sys2Proof Sys2Proof.Machine

/-! ### One member acts -/

section
variable {s u v w : State} {x : Seat} {key mk : Nat}

/-- Nothing has changed but gangs and the next identity. -/
def OnlyGangs (s u : State) : Prop := u = { s with gangs := u.gangs, nextId := u.nextId }

theorem OnlyGangs.trans (h : OnlyGangs s u) (h' : OnlyGangs u v) : OnlyGangs s v := by
  unfold OnlyGangs at *
  rw [h', h]

theorem OnlyGangs.cur (h : OnlyGangs s u) : u.cur = s.cur := by
  unfold OnlyGangs at h
  rw [h]

theorem onlyGangs_of_gangs (h : u = { s with gangs := u.gangs }) : OnlyGangs s u := by
  unfold OnlyGangs
  rw [h]

theorem onlyGangs_counted (s : State) (mk : Nat) : OnlyGangs s (s.counted mk) :=
  onlyGangs_of_gangs (counted_rest s mk)

theorem onlyGangs_updGang (u : State) (key : Nat) (f : Gang → Gang) : OnlyGangs u (u.updGang key f) := by
  unfold OnlyGangs
  rw [updGang_rest]

/-- Nothing has changed but one gang, which stands, and the next identity. -/
structure OnlyMember (u v : State) (key : Nat) : Prop where
  rest : OnlyGangs u v
  others : ∀ k, k ≠ key → v.gang? k = u.gang? k
  stands : (u.gang? key).isSome = true → (v.gang? key).isSome = true

theorem OnlyMember.trans (h : OnlyMember u v key) (h' : OnlyMember v w key) : OnlyMember u w key :=
  ⟨h.rest.trans h'.rest, fun k hk => (h'.others k hk).trans (h.others k hk), fun hs => h'.stands (h.stands hs)⟩

theorem onlyMember_refl (u : State) (key : Nat) : OnlyMember u u key := ⟨rfl, fun _ _ => rfl, fun h => h⟩

theorem onlyMember_updGang (u : State) (key : Nat) (f : Gang → Gang) : OnlyMember u (u.updGang key f) key :=
  ⟨onlyGangs_updGang u key f, fun k hk => by rw [gang_updGang, if_neg hk.symm],
    fun h => by rw [gang_updGang, if_pos rfl, Option.isSome_map, h]⟩

theorem onlyMember_nextId (h : OnlyMember u v key) (n : Nat) : OnlyMember u { v with nextId := n } key :=
  ⟨by have hr := h.rest; unfold OnlyGangs at *; rw [hr], h.others, h.stands⟩

theorem onlyMember_addPend (u : State) (x : Seat) (look : Nat) (regs masks : List Nat) (lanes : Mask) (outs : List Out)
    (landed compute : Bool) (tok : Nat) :
    OnlyMember u (u.addPend x look regs masks lanes outs landed compute tok).2 x.key :=
  onlyMember_nextId (onlyMember_updGang _ _ _) _

theorem onlyMember_putEntry (u : State) (key st : Nat) (e : Entry) : OnlyMember u (u.putEntry key st e) key :=
  onlyMember_nextId (onlyMember_updGang _ _ _) _

theorem onlyMember_putLoad (u : State) (x : Seat) (st look tok : Nat) (regs : List Nat) (e : Entry) :
    OnlyMember u (u.putLoad x st look tok regs e) x.key :=
  (onlyMember_addPend u x look regs [] x.act [] false false tok).trans (onlyMember_putEntry _ _ _ _)

theorem onlyMember_putStore (u : State) (x : Seat) (st tok : Nat) (e : Entry) :
    OnlyMember u (u.putStore x st tok e) x.key :=
  (onlyMember_updGang u x.key fun g => g.tokAdd tok).trans (onlyMember_putEntry _ _ _ _)

/-- A word whose members each change nothing but themselves. -/
theorem acts_member {i : Instr} {body : Seat → State → SeatRes} {ok : State → Seat → Bool} {eff : Seat → State → State}
    (he : ∀ s, exec i s = .next (issue i body s)) (hm : ∀ x u, OnlyMember u (eff x u) x.key)
    (hb : ∀ s, ∀ x ∈ s.seats i.maskField, ok s x = true → ∀ u, OnlyGangs s u → u.gang? x.key = some (x.g.count x.m0) →
      body x u = .ok (eff x u) {}) : Acts i ok eff :=
  acts_of eff OnlyGangs he (fun s => onlyGangs_counted s _) fun s x hx hok u hu hg =>
    ⟨hb s x hx hok u hu hg, hu.trans (hm x u).rest, (hm x u).others, by rw [(hm x u).rest],
      Option.isSome_iff_exists.1 ((hm x u).stands (by rw [hg]; rfl))⟩

/-! ### Checked accesses (R467, R468) -/

/-- What a member's accesses meet depends on no gang. -/
theorem accFlaw_onlyGangs (h : OnlyGangs s u) (x : Seat) (accs : List Acc) : u.accFlaw x accs = s.accFlaw x accs := by
  unfold OnlyGangs at h
  rw [h]
  rfl

/-- A word whose members act where their accesses meet no case of the memory access trap. -/
theorem acts_checked {i : Instr} (accs : Seat → List Acc) (k : Seat → State → State)
    (he : ∀ s, exec i s = seatWord i (fun x t => checked x t (accs x) (k x)) s) (hm : ∀ x u, OnlyMember u (k x u) x.key) :
    Acts i (fun s x => (s.accFlaw x (accs x)).isNone) k :=
  acts_member he hm fun s x _ hok u hu _ => by
    rw [checked, accFlaw_onlyGangs hu, Option.isNone_iff_eq_none.1 hok]

/-- The handle of an address for a gang that stands. -/
theorem hnd_eq {g : Gang} (hg : s.gang? key = some g) (a : Word64) :
    s.hnd? key a = s.handleAt (s.partOf g) (coreOf key) a := by
  rw [State.hnd?, hg, Option.bind_some]

/-- The issue of a word changes no mapping. -/
theorem hnd_onlyGangs (hx : x ∈ s.seats mk) (hu : OnlyGangs s u) (hg : u.gang? x.key = some (x.g.count x.m0)) (a : Word64) :
    u.hnd? x.key a = s.hnd? x.key a := by
  unfold OnlyGangs at hu
  rw [hnd_eq hg, hnd_eq (seat_facts hx).1, hu]
  rfl

end

/-! ### Entering a stream (R256, R259) -/

section
variable {u v : State} {key st tok : Nat} {e : Entry}

/-- A stream queue after another of its gang, or its own, has taken a list that is not empty. -/
theorem at_setStream (g : Gang) (st : Nat) {es : List Entry} (h : es ≠ []) (n : Nat) :
    Tab.at (g.setStream st es).streams [] n = if st = n then es else Tab.at g.streams [] n := by
  have hs : (g.setStream st es).streams = Tab.put g.streams st es := by
    rw [Gang.setStream, List.isEmpty_eq_false_iff.2 h]; rfl
  rw [hs, at_put]

/-- A gang that has readied itself for an entry: its token counts it, and a result may wait for it. -/
structure Readied (u v : State) (key tok : Nat) : Prop where
  member : OnlyMember u v key
  nextId : u.nextId ≤ v.nextId
  gang : ∀ g, u.gang? key = some g → ∃ g', v.gang? key = some g' ∧ g' = { g with pend := g'.pend, toks := (g.tokAdd tok).toks }

/-- An entry of the next identity enters the tail of its stream. -/
theorem enqueue_queued (h : Readied u v key tok) (hid : e.id = v.nextId) :
    Queued u { v.enqueue key st e with nextId := v.nextId + 1 } key st tok e := by
  have hm : OnlyMember u { v.enqueue key st e with nextId := v.nextId + 1 } key :=
    h.member.trans (onlyMember_nextId (onlyMember_updGang _ _ _) _)
  refine ⟨hm.rest, ⟨Nat.lt_succ_of_le h.nextId, hid ▸ h.nextId, by rw [hid]; exact Nat.lt_succ_self _⟩, hm.others,
    fun g hg => ?_⟩
  obtain ⟨g', hg', he⟩ := h.gang g hg
  have hstreams : g'.streams = g.streams := by rw [he]
  have hat := at_setStream g' st (List.append_ne_nil_of_right_ne_nil (g'.stream st) (List.cons_ne_nil e []))
  have hself : g'.stream st = Tab.at g.streams [] st := by rw [Gang.stream, hstreams]
  have hgang : ({ v.enqueue key st e with nextId := v.nextId + 1 } : State).gang? key =
      some (g'.setStream st (g'.stream st ++ [e])) := by
    refine (gang_updGang v key key _).trans ?_
    rw [if_pos rfl, hg', Option.map_some]
  refine ⟨_, hgang, ?_, fun n hn => ?_, ?_⟩
  · rw [hat, if_pos rfl, hself]
  · rw [hat, if_neg hn.symm, hstreams]
  · exact congrArg (fun h : Gang => { h with streams := (g'.setStream st (g'.stream st ++ [e])).streams }) he

theorem tokAdd_rest (g : Gang) (t : Nat) : g.tokAdd t = { g with toks := (g.tokAdd t).toks } := by
  unfold Gang.tokAdd; split <;> rfl

theorem tokAdd_pend (g : Gang) (t : Nat) : (g.tokAdd t).pend = g.pend := by
  unfold Gang.tokAdd; split <;> rfl

theorem readied_tokAdd (u : State) (key tok : Nat) : Readied u (u.updGang key fun g => g.tokAdd tok) key tok :=
  ⟨onlyMember_updGang _ _ _, by rw [updGang_nextId], fun g hg =>
    ⟨g.tokAdd tok, by rw [gang_updGang, if_pos rfl, hg]; rfl, by unfold Gang.tokAdd; split <;> rfl⟩⟩

theorem readied_addPend (u : State) (x : Seat) (look : Nat) (regs masks : List Nat) (lanes : Mask) (outs : List Out)
    (landed compute : Bool) (tok : Nat) :
    Readied u (u.addPend x look regs masks lanes outs landed compute tok).2 x.key tok :=
  ⟨onlyMember_addPend _ _ _ _ _ _ _ _ _ _, Nat.le_succ _, fun g hg => by
    obtain ⟨-, -, hgang⟩ := addPend_opens u x look regs masks lanes outs landed compute tok
    exact ⟨_, hgang g hg, by simp only [Gang.tokAdd]; split <;> rfl⟩⟩

/-- An entry that enters leaves its gang's results as they are. -/
theorem putEntry_pend {g : Gang} (hg : v.gang? key = some g) (st : Nat) (e : Entry) :
    ∃ g', (v.putEntry key st e).gang? key = some g' ∧ g'.pend = g.pend :=
  ⟨_, (gang_updGang v key key _).trans ((if_pos rfl).trans (congrArg (Option.map _) hg)), rfl⟩

/-- A store's entry enters its stream, with every address that it writes; no result waits for it. -/
theorem putStore_queued (u : State) (x : Seat) (st tok : Nat) (e : Entry) (hid : e.id = u.nextId) : ∃ e',
    Queued u (u.putStore x st tok e) x.key st tok e' ∧
    e' = { e with tok := tok, gate := e'.gate, wcells := (e.todo.filter (·.wr)).flatMap fun p => p.cells ++ p.tagCells } ∧
    ∀ g, u.gang? x.key = some g → ∃ g', (u.putStore x st tok e).gang? x.key = some g' ∧ g'.pend = g.pend := by
  refine ⟨_, enqueue_queued (readied_tokAdd u x.key tok) (by rw [updGang_nextId]; exact hid), rfl, fun g hg => ?_⟩
  have hg' : (u.updGang x.key fun g => g.tokAdd tok).gang? x.key = some (g.tokAdd tok) := by
    rw [gang_updGang, if_pos rfl, hg, Option.map_some]
  obtain ⟨g', hput, hpend⟩ := putEntry_pend hg' st { e with tok := tok }
  exact ⟨g', hput, hpend.trans (tokAdd_pend g tok)⟩

/-- A load's entry enters its stream, and its result waits behind its windows (R105). -/
theorem putLoad_queued (u : State) (x : Seat) (st look tok : Nat) (regs : List Nat) (e : Entry) : ∃ e',
    Queued u (u.putLoad x st look tok regs e) x.key st tok e' ∧
    e' = { e with id := e'.id, pend := u.nextId, gate := e'.gate, wcells := e'.wcells } ∧
    ∀ g, u.gang? x.key = some g → ∃ g' p, (u.putLoad x st look tok regs e).gang? x.key = some g' ∧ g'.pend = g.pend ++ [p] ∧
      p.id = u.nextId ∧ p.regs = regs ∧ p.left = x.act ∧ p.landed = false ∧ p.frozen = false ∧
      ∀ sl, sl < 8 → p.win.getD sl 0 = if x.m0 &&& sliceMask sl = 0#32 then 0 else look := by
  refine ⟨_, enqueue_queued (readied_addPend u x look regs [] x.act [] false false tok) rfl, rfl, fun g hg => ?_⟩
  obtain ⟨-, -, hopen⟩ := addPend_opens u x look regs [] x.act [] false false tok
  obtain ⟨g', hput, hpend⟩ := putEntry_pend (hopen g hg) st
    { e with id := (u.addPend x look regs [] x.act [] false false tok).2.nextId, pend := u.nextId }
  refine ⟨g', _, hput, hpend, rfl, rfl, rfl, rfl, rfl, fun sl hsl => ?_⟩
  simp [List.getD_eq_getElem?_getD, hsl]

end

end Sys2Proof.Laws
end

section
/-! SUPPORT. The pieces of a range (R472), and the loads and stores at issue. -/

namespace Sys2Proof.Laws

open Sys2Proof Sys2Proof.Machine

/-! ### Cutting a range at granules -/

/-- The first byte of a granule's part of a range, counted from the range's first granule, or the range's end. -/
def cutAt (o n i : Nat) : Nat := min (o + n) (max o (16 * (o / 16 + i)))

theorem cutAt_mono (o n : Nat) : Monotone (cutAt o n) := fun i j hij => by
  unfold cutAt; omega

/-- Parts of a range between rising cuts make up the range. -/
theorem range_cuts {α : Type} (f : Nat → α) {b : Nat → Nat} (hb : Monotone b) (c : Nat) :
    ((List.range c).flatMap fun i => (List.range (b (i + 1) - b i)).map fun j => f (b i + j)) =
      (List.range (b c - b 0)).map fun j => f (b 0 + j) := by
  induction c with
  | zero => simp
  | succ c ih =>
    have h0 : b 0 ≤ b c := hb (Nat.zero_le c)
    have hc : b c ≤ b (c + 1) := hb (Nat.le_succ c)
    have hlen : b (c + 1) - b 0 = (b c - b 0) + (b (c + 1) - b c) := by omega
    rw [List.range_succ, List.flatMap_append, ih, hlen, List.range_add, List.map_append, List.map_map]
    refine congrArg _ ?_
    rw [List.flatMap_cons, List.flatMap_nil, List.append_nil]
    refine List.map_congr_left fun j _ => congrArg f ?_
    show b c + j = b 0 + (b c - b 0 + j)
    omega

/-- The granules of a range make up the range. -/
theorem granules_cover {α : Type} (f : Nat → α) {o n : Nat} (hn : n ≠ 0) :
    ((List.range ((o + n - 1) / 16 - o / 16 + 1)).flatMap fun i =>
      (List.range (min (o + n) (16 * (o / 16 + i) + 16) - max o (16 * (o / 16 + i)))).map fun j =>
        f (max o (16 * (o / 16 + i)) + j)) = (List.range n).map fun j => f (o + j) := by
  have hpos : 0 < n := Nat.pos_of_ne_zero hn
  have hcut := range_cuts f (cutAt_mono o n) ((o + n - 1) / 16 - o / 16 + 1)
  have hlast : cutAt o n ((o + n - 1) / 16 - o / 16 + 1) - cutAt o n 0 = n := by unfold cutAt; omega
  have hfirst : cutAt o n 0 = o := by unfold cutAt; omega
  rw [hlast, hfirst] at hcut
  refine .trans (List.flatMap_congr fun i hi => ?_) hcut
  have hlo : max o (16 * (o / 16 + i)) = cutAt o n i := by
    have := List.mem_range.1 hi; unfold cutAt; omega
  have hhi : min (o + n) (16 * (o / 16 + i) + 16) = cutAt o n (i + 1) := by
    unfold cutAt; omega
  rw [hlo, hhi]

/-- Cells paired with the data that begin at a place of a list. -/
theorem zip_cells (c : Nat → Nat) (ds : List Byte) (a m : Nat) (h : a + m ≤ ds.length) :
    List.zip ((List.range m).map c) ((ds.drop a).take m) = (List.range m).map fun j => (c j, ds.getD (a + j) 0#8) := by
  refine List.ext_getElem (by simp; omega) fun j _ hj => ?_
  have hjm : j < m := by simpa using hj
  simp [List.getD_eq_getElem?_getD, List.getElem?_eq_getElem (show a + j < ds.length by omega)]

/-! ### Pieces -/

section
variable {h : Handle} {t : Option Handle} {hn lane o n : Nat} {wr : Bool} {data : List Byte} {k : WrTag}

theorem piecesOf_zero : piecesOf h t hn lane wr o 0 data k = [] := rfl

/-- The cells of a range's pieces are the range's bytes in order. -/
theorem piecesOf_cells :
    (piecesOf h t hn lane wr o n data k).flatMap (·.cells) = (List.range n).map fun i => h.phys (o + i) := by
  by_cases hn0 : n = 0
  · rw [hn0]; rfl
  · rw [piecesOf, if_neg hn0, List.flatMap_map]
    exact granules_cover h.phys hn0

/-- A write's pieces carry the datum's bytes in order. -/
theorem piecesOf_data : (piecesOf h t hn lane true o data.length data k).flatMap (fun p => List.zip p.cells p.data) =
    List.zip ((List.range data.length).map fun i => h.phys (o + i)) data := by
  by_cases hn0 : data.length = 0
  · rw [hn0, List.length_eq_zero_iff.1 hn0]; rfl
  · have hall := zip_cells (fun i => h.phys (o + i)) data 0 data.length (by omega)
    rw [List.drop_zero, List.take_length] at hall
    rw [hall, piecesOf, if_neg hn0, List.flatMap_map]
    refine .trans (List.flatMap_congr fun i hi => ?_)
      ((granules_cover (fun b => (h.phys b, data.getD (b - o) 0#8)) hn0).trans
        (List.map_congr_left fun j _ => by rw [Nat.add_sub_cancel_left, Nat.zero_add]))
    have hi' := List.mem_range.1 hi
    refine (zip_cells (fun j => h.phys (max o (16 * (o / 16 + i)) + j)) data _ _ (by omega)).trans
      (List.map_congr_left fun j _ => ?_)
    rw [show max o (16 * (o / 16 + i)) - o + j = max o (16 * (o / 16 + i)) + j - o by omega]

/-- What every piece of a range says of itself: its direction, its lane, and its cells from its place in the range on. -/
theorem piecesOf_mem {p : Piece} (hp : p ∈ piecesOf h t hn lane wr o n data k) : p.wr = wr ∧ p.lane = lane ∧
    p.cells = (List.range p.cells.length).map fun i => h.phys (o + p.pos + i) := by
  by_cases hn0 : n = 0
  · rw [hn0, piecesOf_zero] at hp; exact absurd hp List.not_mem_nil
  · rw [piecesOf, if_neg hn0, List.mem_map] at hp
    obtain ⟨i, -, rfl⟩ := hp
    refine ⟨rfl, rfl, ?_⟩
    simp only [List.length_map, List.length_range]
    rw [show o + (max o (16 * (o / 16 + i)) - o) = max o (16 * (o / 16 + i)) by omega]

end

section
variable {u : State} {key : Nat} {a : Word64} {h : Handle} {g : Gang}

theorem readPieces_eq (hh : u.hnd? key a = some h) (hg : u.gang? key = some g) (lane n : Nat) (tagged : Bool) :
    u.readPieces key lane a n tagged = piecesOf h (if tagged then u.tagPlane (u.partOf g) (coreOf key) h else none) (hndOf a)
      lane false (offOf a) n [] .other := by
  rw [State.readPieces, hh, hg]

theorem writePieces_eq (hh : u.hnd? key a = some h) (hg : u.gang? key = some g) (lane : Nat) (data : List Byte) (k : WrTag) :
    u.writePieces key lane a data k = piecesOf h (u.tagPlane (u.partOf g) (coreOf key) h) (hndOf a)
      lane true (offOf a) data.length data k := by
  rw [State.writePieces, hh, hg]

end

/-- Settles O25: each word is its members' checked accesses; the entries are those of `putLoad_queued` and `putStore_queued`,
and their pieces those of `piecesOf_cells` and `piecesOf_data`. -/
theorem loadsAndStores : Obligations.LoadsAndStores := by
  refine ⟨fun size d m stream look tok mk => ?_, fun size d m stream look tok mk => ?_,
    fun size d hnd disp stream look tok mk => ?_, fun size rnd vs m stream tok mk => ?_, fun size vs m stream tok mk => ?_,
    fun size lc vd m stream tok mk => ?_, fun u x st look tok regs e _ => putLoad_queued u x st look tok regs e,
    fun u x st tok e _ hid => putStore_queued u x st tok e hid, fun u key lane a n tagged h g hh hg => ?_,
    fun u key lane a data k h g hh hg => ?_⟩
  · exact acts_checked _ _ (fun _ => rfl) fun x u => onlyMember_putLoad _ _ _ _ _ _ _
  · exact acts_checked _ _ (fun _ => rfl) fun x u => onlyMember_putLoad _ _ _ _ _ _ _
  · exact acts_checked _ _ (fun _ => rfl) fun x u => onlyMember_putLoad _ _ _ _ _ _ _
  · exact acts_checked _ _ (fun _ => rfl) fun x u => onlyMember_putStore _ _ _ _ _
  · exact acts_checked _ _ (fun _ => rfl) fun x u => onlyMember_putStore _ _ _ _ _
  · exact acts_checked _ _ (fun _ => rfl) fun x u => onlyMember_putStore _ _ _ _ _
  · rw [readPieces_eq hh hg]
    exact ⟨piecesOf_cells, fun p hp => piecesOf_mem hp⟩
  · rw [writePieces_eq hh hg]
    exact ⟨piecesOf_data, fun p hp => ⟨(piecesOf_mem hp).1, (piecesOf_mem hp).2.1⟩⟩

end Sys2Proof.Laws
end

section
/-! SUPPORT. The descriptor of an address that a pair of unlike registers holds (R254), and the refutation of the statement on
buffers and handles. -/

namespace Sys2Proof.Laws

open Sys2Proof Sys2Proof.Machine

/-- HDESC.ATTR describes the pair as its lanes of pairs, however many images its registers list (R38, R254). -/
theorem hdescAttr_computes (vd va : VNum) : Computes (.hdescAttr vd va) fun s x =>
    outReg 2 vd.toNat ((x.g.rd 2 va.toNat).map fun p => intPair (s.attrFor x p.val)) := by
  refine fun s hi => ⟨_, rfl, issue_results _ _ hi fun x hx u hu hg => ?_⟩
  have hattr : u.attrFor x = s.attrFor x := funext fun a => by
    rw [State.attrFor, hnd_onlyGangs hx (onlyGangs_of_gangs hu) hg, State.attrFor]
  simp only [hattr]

/-- Refutes O30: HDESC.ATTR describes the lanes that both registers of the pair list, where the statement describes the address
that each register holds in a lane by itself. A state that lists 32 images in one register and none in the other tells them
apart: the word leaves an image with tag 0x1A, the statement asks for an integer zero with tag 0x1F. -/
theorem not_buffersAndHandles : ¬ Obligations.BuffersAndHandles := by
  rintro ⟨-, -, -, -, -, -, -, -, -, -, -, -, hattr, -⟩
  have h := computes_unique (hdescAttr_computes 6#8 4#8) (hattr 6#8 4#8) (s := alone raggedPair)
    (x := aloneSeat raggedPair) (r := 6) (l := 0) (by decide +kernel) (by decide +kernel) rfl (by decide +kernel)
  exact absurd h (by decide +kernel)

end Sys2Proof.Laws
end

section
/-! SUPPORT. Gathers and scatters at issue (R241, R242), and a word at which some members of its unit trap. -/

namespace Sys2Proof.Laws

open Sys2Proof Sys2Proof.Machine

/-! ### A word at which some members trap (R419) -/

section
variable {i : Instr} {s : State} {body : Seat → State → SeatRes} {early : Seat → State → Option Flaw}

/-- A member meets its cause and traps, or completes and leaves the other members alone. -/
def Meets (J : State → Prop) (u : State) (x : Seat) : Option Flaw → SeatRes → Prop
  | some f, r => r = .trap f
  | none, r => ∃ v e, r = .ok v e ∧ J v ∧ ∀ k, k ≠ x.key → v.gang? k = u.gang? k

/-- The causes of members that each meet a cause or complete, in member order. -/
theorem runSeats_flaws (fl : Seat → Option Flaw) (J : State → Prop) (xs : List Seat) (hn : (xs.map (·.key)).Nodup) (r : Ran)
    (hj : J r.state) (hg : ∀ x ∈ xs, r.state.gang? x.key = some (x.g.count x.m0))
    (hb : ∀ x ∈ xs, ∀ u, J u → u.gang? x.key = some (x.g.count x.m0) → Meets J u x (fl x) (body x u)) :
    (runSeats body xs r).flaws = r.flaws ++ xs.filterMap fun x => (fl x).map fun f => (x.key, f) := by
  induction xs generalizing r with
  | nil => simp [runSeats]
  | cons x xs ih =>
    rw [List.map_cons, List.nodup_cons] at hn
    rw [List.forall_mem_cons] at hg
    have hx := hb x List.mem_cons_self r.state hj hg.1
    have hxs : ∀ y ∈ xs, ∀ u, J u → u.gang? y.key = some (y.g.count y.m0) → Meets J u y (fl y) (body y u) :=
      fun y hy => hb y (List.mem_cons_of_mem _ hy)
    rw [runSeats, List.filterMap_cons]
    cases hf : fl x with
    | some f =>
      rw [hf] at hx
      rw [show body x r.state = .trap f from hx]
      exact (ih hn.2 { r with flaws := r.flaws ++ [(x.key, f)] } hj hg.2 hxs).trans (by simp)
    | none =>
      rw [hf] at hx
      obtain ⟨v, e, hr, hv, hothers⟩ := hx
      rw [hr]
      refine ih hn.2 { r with state := v, effs := r.effs ++ [(x, e)] } hv (fun y hy => ?_) hxs
      exact (hothers _ fun he => hn.1 (he ▸ List.mem_map_of_mem hy)).trans (hg.2 y hy)

/-- R419: where a member meets a cause, the members' causes are what the word does. -/
theorem issue_flaws (fl : Seat → Option Flaw) (J : State → Prop) (hi : issues i s = true) (h0 : J (s.counted i.maskField))
    (hb : ∀ x ∈ s.seats i.maskField, ∀ u, J u → u.gang? x.key = some (x.g.count x.m0) → Meets J u x (fl x) (body x u))
    (hsome : ∃ x ∈ s.seats i.maskField, (fl x).isSome = true) :
    issue i body s early = s.trapNow ((s.seats i.maskField).filterMap fun x => (fl x).map fun f => (x.key, f)) := by
  simp only [issues, Bool.and_eq_true, Bool.not_eq_true', List.all_eq_true, Option.isNone_iff_eq_none] at hi
  obtain ⟨⟨hne, hop⟩, hall⟩ := hi
  have hstall : ((s.seats i.maskField).any fun x => x.stalls i) = false := by
    rw [List.any_eq_false]
    intro x hx
    obtain ⟨⟨hlook, htok⟩, hacq⟩ := hall x hx
    rw [Seat.stalls, hlook, htok, hacq]
    decide
  have hrun := runSeats_flaws (body := body) fl J _ (seats_nodup s i.maskField) ⟨s.counted i.maskField, [], [], []⟩ h0
    (fun x hx => counted_gang hx) hb
  unfold State.counted at hrun
  unfold issue
  cases hs : s.seats i.maskField with
  | nil => simp [hs] at hne
  | cons x0 xs =>
    rw [hs] at hop hstall hrun
    have hop : operandFault (16 * x0.g.allot) i.opnds = none := hop
    dsimp only
    rw [hop]
    dsimp only
    rw [hstall]
    rw [List.nil_append] at hrun
    cases hfl : (x0 :: xs).filterMap fun x => (fl x).map fun f => (x.key, f) with
    | nil =>
      obtain ⟨x, hx, hf⟩ := hsome
      obtain ⟨f, hf⟩ := Option.isSome_iff_exists.1 hf
      exact absurd (List.filterMap_eq_nil_iff.1 hfl x (hs ▸ hx)) (by rw [hf]; exact Option.some_ne_none _)
    | cons f fs =>
      rw [hfl] at hrun
      simp only [Bool.false_eq_true, if_false, hrun]

/-- R419, R423: a word traps with the causes of the members that meet one, all of one code. -/
theorem traps_where {code : Nat} (fl : Seat → Option Flaw) (J : State → Prop) (he : exec i s = .next (issue i body s early))
    (hi : issues i s = true) (h0 : J (s.counted i.maskField))
    (hb : ∀ x ∈ s.seats i.maskField, ∀ u, J u → u.gang? x.key = some (x.g.count x.m0) → Meets J u x (fl x) (body x u))
    (hsome : ∃ x ∈ s.seats i.maskField, (fl x).isSome = true) (hc : ∀ x f, fl x = some f → f.code = code) :
    Traps i s ((s.seats i.maskField).filterMap fun x => (fl x).map fun f => (x.key, f)) := by
  have hne : (s.seats i.maskField).filterMap (fun x => (fl x).map fun f => (x.key, f)) ≠ [] := fun h => by
    obtain ⟨x, hx, hf⟩ := hsome
    obtain ⟨f, hf⟩ := Option.isSome_iff_exists.1 hf
    exact absurd (List.filterMap_eq_nil_iff.1 h x hx) (by rw [hf]; exact Option.some_ne_none _)
  have hcode : ∀ y ∈ (s.seats i.maskField).filterMap fun x => (fl x).map fun f => (x.key, f), y.2.code = code := by
    intro y hy
    obtain ⟨x, -, hx⟩ := List.mem_filterMap.1 hy
    obtain ⟨f, hf, rfl⟩ := Option.map_eq_some_iff.1 hx
    exact hc x f hf
  have htrap := he.trans (congrArg Host.Outcome.next ((issue_flaws fl J hi h0 hb hsome).trans (trapNow_eq hne hcode)))
  unfold Traps
  split
  case isTrue h => rw [htrap, takeTrap_eq, if_pos h]
  case isFalse h => exact ⟨_, htrap, takeTrap_trapped (Bool.eq_false_iff.2 h)⟩

end

/-! ### Lanes out of range -/

section
variable {s u : State} {x : Seat} {mk n : Nat} {hnd : HNum} {ofs : VNum} {disp : BitVec 12} {wr : Bool}

/-- The address of a lane of a gather or scatter (R241). -/
def gatherAdr (x : Seat) (hnd : HNum) (ofs : VNum) (disp : BitVec 12) (n l : Nat) : Word64 :=
  mkAddr (hndOf (x.g.hreg hnd.toNat)) ((gatherOffset x.g hnd ofs disp n l) % 2 ^ 40).toNat

/-- The in-range lanes of a gather or scatter. -/
def lanesInRange (s : State) (x : Seat) (hnd : HNum) (ofs : VNum) (disp : BitVec 12) (n : Nat) : List Nat :=
  maskLanes (x.act &&& ~~~(s.outOfRange x hnd ofs disp n))

/-- The checked accesses of a gather or scatter. -/
def gatherAccs (s : State) (x : Seat) (wr : Bool) (hnd : HNum) (ofs : VNum) (disp : BitVec 12) (n : Nat) : List Acc :=
  (lanesInRange s x hnd ofs disp n).map fun l => ⟨l, gatherAdr x hnd ofs disp n l, n, wr, !wr, 1, false⟩

/-- The state once a member has counted its out-of-range lanes (R242). -/
def countBad (u : State) (x : Seat) (hnd : HNum) (ofs : VNum) (disp : BitVec 12) (n : Nat) : State :=
  if u.outOfRange x hnd ofs disp n = 0#32 then u
  else u.updGang x.key fun g =>
    { g with idxcnt := BitVec.ofNat 64 (min (g.idxcnt.toNat % 2 ^ 32 + (maskLanes (u.outOfRange x hnd ofs disp n)).length) (2 ^ 32 - 1)) }

/-- The index trap of a member (R242), when a lane is out of range. -/
def indexFlaw (s : State) (x : Seat) (hnd : HNum) (ofs : VNum) (disp : BitVec 12) (n : Nat) : Option Flaw :=
  (lowLane? (s.outOfRange x hnd ofs disp n)).map fun l => flaw 0x0A 0 (s.outOfRange x hnd ofs disp n)
    (((x.g.reg ofs.toNat).lane l).val.setWidth 64) (BitVec.ofInt 64 (gatherOffset x.g hnd ofs disp n l))

theorem onlyMember_countBad (x : Seat) (u : State) : OnlyMember u (countBad u x hnd ofs disp n) x.key := by
  unfold countBad
  split
  · exact onlyMember_refl _ _
  · exact onlyMember_updGang _ _ _

theorem lowLane_eq_none {m : Mask} : lowLane? m = none ↔ m = 0#32 := by
  rw [lowLane?, List.head?_eq_none_iff, maskLanes_eq_nil]

theorem countIdx_eq (k : Nat) : (fun g : Gang => g.countIdx k) = fun g =>
    { g with idxcnt := BitVec.ofNat 64 (min (g.idxcnt.toNat % 2 ^ 32 + k) (2 ^ 32 - 1)) } := by
  funext g
  rw [Gang.countIdx, fieldOf, Nat.pow_zero, Nat.div_one]

/-- The issue of a word moves no lane in or out of range. -/
theorem outOfRange_onlyGangs (hx : x ∈ s.seats mk) (hu : OnlyGangs s u) (hg : u.gang? x.key = some (x.g.count x.m0)) :
    u.outOfRange x hnd ofs disp n = s.outOfRange x hnd ofs disp n := by
  rw [State.outOfRange, State.outOfRange, hnd_onlyGangs hx hu hg]

/-- The issue of a word changes no access of a gather or scatter. -/
theorem gatherAccs_onlyGangs (hx : x ∈ s.seats mk) (hu : OnlyGangs s u) (hg : u.gang? x.key = some (x.g.count x.m0)) :
    u.accFlaw x (gatherAccs u x wr hnd ofs disp n) = s.accFlaw x (gatherAccs s x wr hnd ofs disp n) := by
  rw [accFlaw_onlyGangs hu, gatherAccs, gatherAccs, lanesInRange, lanesInRange, outOfRange_onlyGangs hx hu hg]

/-- A gather or scatter without a flaw acts on its in-range lanes, once the others are counted. -/
theorem gather_counts (k : State → List (Nat × Word64) → State)
    (ha : u.accFlaw x (gatherAccs u x wr hnd ofs disp n) = none)
    (ht : u.outOfRange x hnd ofs disp n = 0#32 ∨ x.g.memctl.getLsbD 0 = false) :
    gather x u wr hnd ofs disp n k = .ok (k (countBad u x hnd ofs disp n)
      ((lanesInRange u x hnd ofs disp n).map fun l => (l, gatherAdr x hnd ofs disp n l))) {} := by
  unfold gather countBad
  unfold gatherAccs lanesInRange gatherAdr at ha
  dsimp only
  rw [ha]
  dsimp only
  cases hl : lowLane? (u.outOfRange x hnd ofs disp n) with
  | none => rw [if_pos (lowLane_eq_none.1 hl)]; rfl
  | some l =>
    have hbad : u.outOfRange x hnd ofs disp n ≠ 0#32 := fun h => by rw [lowLane_eq_none.2 h] at hl; cases hl
    rw [if_neg hbad, countIdx_eq, ht.resolve_left hbad]
    rfl

/-- A gather or scatter under IDXTRAP 1 with a lane out of range takes the index trap. -/
theorem gather_traps (k : State → List (Nat × Word64) → State) {f : Flaw}
    (ha : u.accFlaw x (gatherAccs u x wr hnd ofs disp n) = none) (ht : x.g.memctl.getLsbD 0 = true)
    (hf : indexFlaw u x hnd ofs disp n = some f) : gather x u wr hnd ofs disp n k = .trap f := by
  obtain ⟨l, hl, rfl⟩ := Option.map_eq_some_iff.1 hf
  unfold gather
  unfold gatherAccs lanesInRange gatherAdr at ha
  dsimp only
  rw [ha]
  dsimp only
  rw [hl]
  dsimp only
  rw [if_pos ht, BitVec.ofNat_toNat]

/-- The members of a gather or scatter under IDXTRAP 1 take the index trap, or act. -/
theorem gather_meets (k : State → List (Nat × Word64) → State) (hx : x ∈ s.seats mk) (hu : OnlyGangs s u)
    (hg : u.gang? x.key = some (x.g.count x.m0)) (hk : ∀ v las, OnlyMember v (k v las) x.key)
    (ha : s.accFlaw x (gatherAccs s x wr hnd ofs disp n) = none) (ht : x.g.memctl.getLsbD 0 = true) :
    Meets (OnlyGangs s) u x (indexFlaw s x hnd ofs disp n) (gather x u wr hnd ofs disp n k) := by
  have ha' := (gatherAccs_onlyGangs hx hu hg).trans ha
  cases hf : indexFlaw s x hnd ofs disp n with
  | some f =>
    refine gather_traps k ha' ht ?_
    rw [indexFlaw, outOfRange_onlyGangs hx hu hg]
    exact hf
  | none =>
    have hbad := lowLane_eq_none.1 (Option.map_eq_none_iff.1 hf)
    have hm := (onlyMember_countBad x u).trans (hk (countBad u x hnd ofs disp n)
      ((lanesInRange u x hnd ofs disp n).map fun l => (l, gatherAdr x hnd ofs disp n l)))
    exact ⟨_, {}, gather_counts k ha' (.inl ((outOfRange_onlyGangs hx hu hg).trans hbad)), hu.trans hm.rest, hm.others⟩

/-- A gather or scatter under IDXTRAP 1 traps where a lane of a member is out of range. -/
theorem gather_indexTraps {i : Instr} {k : Seat → State → List (Nat × Word64) → State}
    (he : exec i s = .next (issue i (fun x t => gather x t wr hnd ofs disp n (k x)) s))
    (hk : ∀ x v las, OnlyMember v (k x v las) x.key) (hi : issues i s = true)
    (ha : ∀ x ∈ s.seats i.maskField, x.g.memctl.getLsbD 0 = true ∧
      s.accFlaw x (gatherAccs s x wr hnd ofs disp n) = none)
    (hbad : ∃ x ∈ s.seats i.maskField, s.outOfRange x hnd ofs disp n ≠ 0#32) :
    Traps i s ((s.seats i.maskField).filterMap fun x => (indexFlaw s x hnd ofs disp n).map fun f => (x.key, f)) := by
  refine traps_where (code := 0x0A) _ (OnlyGangs s) he hi (onlyGangs_counted s _) (fun x hx u hu hg =>
    gather_meets (k x) hx hu hg (hk x) (ha x hx).2 (ha x hx).1) ?_ fun x f hf => ?_
  · obtain ⟨x, hx, hb⟩ := hbad
    exact ⟨x, hx, Option.isSome_iff_ne_none.2 fun h => hb (lowLane_eq_none.1 (Option.map_eq_none_iff.1 h))⟩
  · obtain ⟨l, -, rfl⟩ := Option.map_eq_some_iff.1 hf
    rfl

/-- A gather or scatter acts where its in-range lanes are allowed and no other lane traps. -/
theorem acts_gather {i : Instr} (k : Seat → State → List (Nat × Word64) → State)
    (he : ∀ s, exec i s = .next (issue i (fun x t => gather x t wr hnd ofs disp n (k x)) s))
    (hk : ∀ x v las, OnlyMember v (k x v las) x.key) :
    Acts i (fun s x => (s.accFlaw x (gatherAccs s x wr hnd ofs disp n)).isNone &&
      (s.outOfRange x hnd ofs disp n == 0#32 || !x.g.memctl.getLsbD 0)) fun x u =>
      k x (countBad u x hnd ofs disp n)
        ((lanesInRange u x hnd ofs disp n).map fun l => (l, gatherAdr x hnd ofs disp n l)) := by
  refine acts_member he (fun x u => (onlyMember_countBad x u).trans (hk x _ _)) fun s x hx hok u hu hg => ?_
  simp only [Bool.and_eq_true, Bool.or_eq_true, beq_iff_eq, Bool.not_eq_true', Option.isNone_iff_eq_none] at hok
  refine gather_counts (k x) ((gatherAccs_onlyGangs hx hu hg).trans hok.1) ?_
  rw [outOfRange_onlyGangs hx hu hg]
  exact hok.2

/-- R241: a lane is out of range when its exact range does not lie in the extent. -/
theorem inMask_outOfRange {h : Handle} (hh : s.hnd? x.key (x.g.hreg hnd.toNat) = some h) (l : Nat) :
    inMask (s.outOfRange x hnd ofs disp n) l = true ↔ inMask x.act l = true ∧
      ¬ (0 ≤ gatherOffset x.g hnd ofs disp n l ∧ gatherOffset x.g hnd ofs disp n l + n ≤ (attrBytes h.attr : Int)) := by
  rw [State.outOfRange, hh, inMask_and, Bool.and_eq_true]
  refine and_congr_right fun hl => ?_
  simp only [inMask_maskOf, inMask_lt hl, inExtent, decide_true, Bool.true_and, Bool.not_eq_true', decide_eq_false_iff_not]

end

/-- Settles O28: LDG and STS act by `acts_gather`, and trap by `gather_indexTraps`. -/
theorem gatherScatter : Obligations.GatherScatter := by
  refine ⟨fun size d hnd ofs disp stream look tok mk => ?_, fun size rnd vs hnd ofs disp stream tok mk => ?_,
    fun s x hnd ofs disp n l h hh => inMask_outOfRange hh l, fun _ _ _ _ _ _ => rfl, ?_⟩
  · have h := acts_gather (i := .ldg size d hnd ofs disp stream look tok mk) (wr := false) (hnd := hnd) (ofs := ofs)
      (disp := disp) (n := sizeBytes size) _ (fun _ => rfl) fun x u las => onlyMember_putLoad u _ _ _ _ _ _
    simp only [List.flatMap_map] at h
    exact h
  · have h := acts_gather (i := .sts size rnd vs hnd ofs disp stream tok mk) (wr := true) (hnd := hnd) (ofs := ofs)
      (disp := disp) (n := sizeBytes size) _ (fun _ => rfl) fun x u las => onlyMember_putStore u _ _ _ _
    simp only [List.flatMap_map] at h
    exact h
  · rintro s i wr size hnd ofs disp mk (⟨rfl, d, stream, look, tok, rfl⟩ | ⟨rfl, rnd, vs, stream, tok, rfl⟩) n hi ha hbad
    · have h := gather_indexTraps (n := n) rfl (fun x u las => onlyMember_putLoad u _ _ _ _ _ _) hi ha hbad
      simp only [indexFlaw, Option.map_map] at h
      exact h
    · have h := gather_indexTraps (n := n) rfl (fun x u las => onlyMember_putStore u _ _ _ _) hi ha hbad
      simp only [indexFlaw, Option.map_map] at h
      exact h

end Sys2Proof.Laws
end

section
/-! SUPPORT. Atomics, tokens, releases and fences at issue (R245, R248-R250): entries of several streams, and releases. -/

namespace Sys2Proof.Laws

open Sys2Proof Sys2Proof.Machine

/-! ### One entry in several streams (R256) -/

section
variable {u v : State} {x : Seat} {key st tok : Nat} {e : Entry} {i : Instr}

/-- Steps that change nothing but gangs change nothing else together. -/
theorem foldl_gangs {α : Type} {f : State → α → State} (hf : ∀ u a, f u a = { u with gangs := (f u a).gangs }) (u : State)
    (L : List α) : L.foldl f u = { u with gangs := (L.foldl f u).gangs } := by
  induction L generalizing u with
  | nil => rfl
  | cons a L ih => rw [List.foldl_cons, ih, hf]

theorem enqueues_rest (u : State) (key : Nat) (e : Entry) (sts : List Nat) :
    sts.foldl (fun (t : State) st => t.enqueue key st e) u =
      { u with gangs := (sts.foldl (fun (t : State) st => t.enqueue key st e) u).gangs } :=
  foldl_gangs (fun (t : State) st => updGang_rest t key fun g => g.setStream st (g.stream st ++ [e])) u sts

theorem onlyMember_enqueues (u : State) (key : Nat) (e : Entry) (sts : List Nat) :
    OnlyMember u (sts.foldl (fun (t : State) st => t.enqueue key st e) u) key := by
  induction sts generalizing u with
  | nil => exact onlyMember_refl u key
  | cons st sts ih => exact (onlyMember_updGang u key _).trans (ih _)

/-- An entry stands once at the tail of every stream that it enters. -/
theorem enqueues_gang (u : State) (key : Nat) (e : Entry) {sts : List Nat} (hn : sts.Nodup) {g : Gang}
    (hg : u.gang? key = some g) :
    ∃ g', (sts.foldl (fun (t : State) st => t.enqueue key st e) u).gang? key = some g' ∧ g' = { g with streams := g'.streams } ∧
      ∀ st, Tab.at g'.streams [] st = Tab.at g.streams [] st ++ (if st ∈ sts then [e] else []) := by
  induction sts generalizing u g with
  | nil => exact ⟨g, hg, rfl, fun st => by simp⟩
  | cons a sts ih =>
    rw [List.nodup_cons] at hn
    have hstep : (u.enqueue key a e).gang? key = some (g.setStream a (g.stream a ++ [e])) := by
      rw [State.enqueue, gang_updGang, if_pos rfl, hg, Option.map_some]
    obtain ⟨g', hg', hrest, hat⟩ := ih (u.enqueue key a e) hn.2 hstep
    refine ⟨g', hg', hrest, fun st => ?_⟩
    rw [hat, at_setStream g a (List.append_ne_nil_of_right_ne_nil _ (List.cons_ne_nil e [])), Gang.stream]
    by_cases ha : a = st
    · subst ha; simp [hn.1]
    · have hmem : st ∈ a :: sts ↔ st ∈ sts := List.mem_cons.trans (or_iff_right fun h => ha h.symm)
      simp only [if_neg ha, hmem]

/-- An entry that enters a stream changes no later entry of the word: the seats stand. -/
theorem newEntry_enqueue (u : State) (key st : Nat) (e : Entry) (i : Instr) (x : Seat) :
    (u.enqueue key st e).newEntry i x = u.newEntry i x := by
  have hseats := seats_map (s := u) (t := u.enqueue key st e) (mk := 0)
    (F := fun k g => if key = k then g.setStream st (g.stream st ++ [e]) else g)
    (fun k => by rw [State.enqueue, gang_updGang]; split <;> simp) (fun k g => by split <;> rfl)
    (fun k g _ => by split <;> rfl) (fun k g => by split <;> rfl) (by rw [State.enqueue, updGang_rest])
  have hrest : u.enqueue key st e = { u with gangs := (u.enqueue key st e).gangs } := updGang_rest _ _ _
  unfold State.newEntry
  rw [hseats, List.findIdx_map]
  generalize (u.enqueue key st e).gangs = gs at hrest
  rw [hrest]
  rfl

/-- The entries of a word in several streams are one entry. -/
theorem relEntry_eq (u : State) (i : Instr) (x : Seat) (sts : List Nat) :
    u.relEntry i x sts = sts.foldl (fun (t : State) st => t.enqueue x.key st (u.newEntry i x)) u := by
  suffices h : ∀ t : State, t.newEntry i x = u.newEntry i x → sts.foldl (fun (t : State) st =>
      t.enqueue x.key st (t.newEntry i x)) t = sts.foldl (fun t st => t.enqueue x.key st (u.newEntry i x)) t from h u rfl
  induction sts with
  | nil => intros; rfl
  | cons st sts ih =>
    intro t ht
    rw [List.foldl_cons, List.foldl_cons, ht]
    exact ih _ ((newEntry_enqueue _ _ _ _ _ _).trans ht)

theorem onlyMember_relEntry (u : State) (i : Instr) (x : Seat) (sts : List Nat) : OnlyMember u (u.relEntry i x sts) x.key := by
  rw [relEntry_eq]
  exact onlyMember_enqueues _ _ _ _

/-- An entry with no token and no result enters its stream as any other. -/
theorem enqueue_untokened (u : State) (key st : Nat) {e : Entry} (hid : e.id = u.nextId) :
    Queued u { u.enqueue key st e with nextId := u.nextId + 1 } key st 0 e :=
  enqueue_queued ⟨onlyMember_refl u key, le_rfl, fun g hg => ⟨g, hg, rfl⟩⟩ hid

end

/-! ### Releases (R249, R268) -/

section
variable {u : State} {x : Seat} {kind : RelKind} {keys after : List Nat} {stream : Option Nat} {tok : Nat}

/-- The gangs that a release stands in count it, each once. -/
theorem counts_gang (u : State) (hn : keys.Nodup) (f : Gang → Gang) (k : Nat) :
    (keys.foldl (fun (s : State) k => s.updGang k f) u).gang? k = (u.gang? k).map fun g => if k ∈ keys then f g else g := by
  induction keys generalizing u with
  | nil => simp
  | cons a keys ih =>
    rw [List.nodup_cons] at hn
    rw [List.foldl_cons, ih _ hn.2, gang_updGang]
    by_cases ha : a = k
    · subst ha; rw [if_pos rfl, Option.map_map]; simp [hn.1, Function.comp_def]
    · have hmem : k ∈ a :: keys ↔ k ∈ keys := List.mem_cons.trans (or_iff_right fun h => ha h.symm)
      simp only [if_neg ha, hmem]

theorem putRel_cur (u : State) (x : Seat) (kind : RelKind) (keys after : List Nat) (stream : Option Nat) (tok : Nat) :
    (u.putRel x kind keys after stream tok).cur = u.cur := by
  have h : ∀ L : List Nat, (L.foldl (fun (s : State) k => s.updGang k fun g => g.tokAdd tok) u).cur = u.cur := fun L => by
    rw [foldl_gangs fun s k => updGang_rest s k fun g => g.tokAdd tok]
  exact h _

/-- A release stands at the end of the machine's releases, and its gangs count it. -/
theorem putRel_spec (u : State) (x : Seat) (kind : RelKind) (after : List Nat) (stream : Option Nat) (tok : Nat)
    (hn : keys.Nodup) (hne : keys ≠ []) : let v := u.putRel x kind keys after stream tok
    v = { u with gangs := v.gangs, nextId := u.nextId + 1
                 rels := u.rels ++ [⟨u.nextId, x.key, x.g.launch, u.partOf x.g, kind, after, stream, false, tok, keys⟩] } ∧
      ∀ k, v.gang? k = (u.gang? k).map fun g => if k ∈ keys then g.tokAdd tok else g := by
  unfold State.putRel
  rw [List.isEmpty_eq_false_iff.2 hne, if_neg Bool.false_ne_true]
  have hrest := foldl_gangs (fun (s : State) k => updGang_rest s k fun g => g.tokAdd tok) u keys
  exact ⟨congrArg (fun t : State => { t with
    rels := u.rels ++ [(⟨u.nextId, x.key, x.g.launch, u.partOf x.g, kind, after, stream, false, tok, keys⟩ : Rel)]
    nextId := u.nextId + 1 }) hrest, counts_gang u hn fun g => g.tokAdd tok⟩

end

/-! ### The words -/

section
variable {mode : TokMode} {id : BitVec 12} {tok : BitVec 3}

/-- R248: an ACQ that may be asked for puts its request at the end of the token's list, and its gang waits for it. -/
theorem acts_acq : Acts (.acq mode id tok) (fun _ x => mode == .sh || x.g.mates.length ≤ 1) fun x u =>
    let t := u.updPart (u.partOf x.g) fun p => { p with tokens := Tab.upd p.tokens ⟨[], []⟩ id.toNat fun k =>
      { k with reqs := k.reqs ++ [(x.key, mode == .x, tok.toNat)] } }
    t.updGang x.key fun g => { g.tokAdd tok.toNat with acqs := g.acqs ++ [id.toNat] } := by
  refine acts_of _ (fun _ _ => True) (fun _ => rfl) (fun _ => trivial) fun s x hx hok u _ hg => ⟨?_, trivial, fun k hk => ?_, ?_, ?_⟩
  · have hfree : (mode == .x && decide (1 < x.g.mates.length)) = false := by
      cases mode with
      | sh => rfl
      | x => have h : x.g.mates.length ≤ 1 := by simpa using hok
             simpa using h
    rw [hfree]
    rfl
  · exact (gang_updGang _ x.key k _).trans (if_neg hk.symm)
  · exact updGang_cur _ x.key _
  · exact ⟨_, (gang_updGang _ x.key x.key _).trans ((if_pos rfl).trans (congrArg (Option.map _) hg))⟩

/-- R248, R451: an exclusive ACQ of a team with several members traps. -/
theorem acqX_traps {s : State} (hi : issues (.acq .x id tok) s = true) (hm : ∀ x ∈ s.seats 0, 1 < x.g.mates.length) :
    Traps (.acq .x id tok) s (s.all 0 0x01 7 0#64 0#64) :=
  traps_of (f := fun x => flaw 0x01 7 x.act) rfl hi (fun _ => rfl) fun x hx =>
    if_pos (by rw [decide_eq_true (hm x hx)]; rfl)

/-- R249: REL. -/
theorem acts_rel : Acts (.rel id tok) (fun _ _ => true) fun x u =>
    (u.relEntry (.rel id tok) x (List.range 16)).putRel x (.token id.toNat) [x.key] (u.openEntries x.key) none tok.toNat := by
  refine acts_of _ (fun _ _ => True) (fun _ => rfl) (fun _ => trivial) fun s x _ _ u _ hg => ?_
  have hentry := onlyMember_relEntry u (.rel id tok) x (List.range 16)
  obtain ⟨-, hgang⟩ := putRel_spec (u.relEntry (.rel id tok) x (List.range 16)) x (.token id.toNat) (u.openEntries x.key) none
    tok.toNat (List.nodup_singleton x.key) (List.cons_ne_nil _ _)
  obtain ⟨g', hg'⟩ := Option.isSome_iff_exists.1 (hentry.stands (by rw [hg]; rfl))
  refine ⟨rfl, trivial, fun k hk => ?_, ?_, _, (hgang x.key).trans (congrArg (Option.map _) hg')⟩
  · rw [hgang, hentry.others k hk]
    simp [hk]
  · exact (putRel_cur _ x _ _ _ _ _).trans hentry.rest.cur

theorem fenceSet_eq (kind : FenceKind) (set : BitVec 16) :
    (fenceSet kind set).1 = if kind = .s then (List.range 16).filter set.getLsbD else List.range 16 := by
  cases kind <;> rfl

/-- R250: FENCE. -/
theorem acts_fence (kind : FenceKind) (set : BitVec 16) : Acts (.fence kind set) (fun _ _ => true) fun x u =>
    let e := { u.newEntry (.fence kind set) x with gate := u.gates x.key }
    let streams := if kind = .s then (List.range 16).filter set.getLsbD else List.range 16
    { streams.foldl (fun (t : State) st => t.enqueue x.key st e) u with nextId := u.nextId + 1 } := by
  refine acts_member (fun _ => rfl) (fun x u => onlyMember_nextId (onlyMember_enqueues _ _ _ _) _) fun s x _ _ u _ _ => ?_
  have hnext : ∀ (e : Entry) (sts : List Nat), (sts.foldl (fun (t : State) st => t.enqueue x.key st e) u).nextId = u.nextId :=
    fun e sts => by rw [enqueues_rest]
  dsimp only
  rw [fenceSet_eq, hnext]

end

/-- Settles O29: the words by `acts_checked`, `acts_acq`, `acts_rel` and `acts_fence`, the entries by `enqueues_gang`. -/
theorem atomicsTokensFences : Obligations.AtomicsTokensFences := by
  refine ⟨fun op size vs m stream tok mk => ?_, fun op size vs m stream look tok mk => ?_, fun _ _ _ => acts_acq,
    fun s id tok => acqX_traps, fun _ _ => acts_rel, fun u i x sts hn => ?_, fun u x kind keys after stream tok hn hne =>
    putRel_spec u x kind after stream tok hn hne, acts_fence, fun u key st e => ?_⟩
  · exact acts_checked _ _ (fun _ => rfl) fun x u => onlyMember_putStore _ _ _ _ _
  · exact acts_checked _ _ (fun _ => rfl) fun x u => onlyMember_putLoad _ _ _ _ _ _ _
  · have hm := onlyMember_relEntry u i x sts
    refine ⟨?_, hm.others, fun g hg => ?_⟩
    · rw [relEntry_eq]
      exact enqueues_rest u x.key _ sts
    · rw [relEntry_eq]
      exact enqueues_gang u x.key _ hn hg
  · by_cases hid : e.id = u.nextId
    · exact .inl (enqueue_untokened u key st hid)
    · exact .inr hid

end Sys2Proof.Laws
end

section
/-! SUPPORT. Steps that acquire nothing: what a token's count and a landing result change while no release buffer holds a
write (R43, R269, R270). -/

namespace Sys2Proof.Laws

open Sys2Proof Sys2Proof.Machine

section
variable {s u v : State} {f f' : State → State}

/-- No release buffer holds a write. -/
def Unwritten (s : State) : Prop := ∀ b ∈ s.bufs, b.writes = []

theorem unwritten_of_nil (h : s.bufs = []) : Unwritten s := fun b hb => by rw [h] at hb; cases hb

theorem buf_writes (h : Unwritten s) (o : Obj) : (s.buf o).writes = [] := by
  unfold State.buf
  cases hf : s.bufs.find? fun b => b.obj == o with
  | none => rfl
  | some b => exact h b (List.mem_of_find?_eq_some hf)

/-- R269: an acquire of an object without writes changes nothing. -/
theorem acquireIn_unwritten (h : Unwritten s) (q : Nat) (o : Obj) : s.acquireIn q o = s := by
  rw [State.acquireIn, buf_writes h]
  rfl

theorem acquires_unwritten {α : Type} (h : Unwritten s) (key : Nat) (o : α → Obj) (L : List α) :
    L.foldl (fun (s : State) a => s.acquire key (o a)) s = s := by
  induction L with
  | nil => rfl
  | cons a L ih => rw [List.foldl_cons, State.acquire, acquireIn_unwritten h, ih]

/-- A step that, while no release buffer holds a write, changes only gangs, whatever the cores hold. -/
def GangStep (f : State → State) : Prop :=
  ∀ s, Unwritten s → ∀ cs, f { s with cores := cs } = { s with cores := cs, gangs := (f s).gangs }

theorem GangStep.rest (h : GangStep f) (hs : Unwritten s) : f s = { s with gangs := (f s).gangs } := h s hs s.cores

theorem GangStep.unwritten (h : GangStep f) (hs : Unwritten s) : Unwritten (f s) := by
  rw [h.rest hs]
  exact hs

theorem gangStep_id : GangStep id := fun _ _ _ => rfl

theorem GangStep.comp (h : GangStep f) (h' : GangStep f') : GangStep fun s => f' (f s) := fun s hs cs => by
  have hv := h s hs cs
  have hu := h.unwritten hs
  obtain ⟨gs, hf⟩ : ∃ gs, f s = { s with gangs := gs } := ⟨_, h.rest hs⟩
  dsimp only
  rw [hf] at hv hu ⊢
  rw [hv]
  exact h' _ hu cs

theorem gangStep_foldl {α : Type} {f : State → α → State} (h : ∀ a, GangStep fun s => f s a) (L : List α) :
    GangStep fun s => L.foldl f s := by
  induction L with
  | nil => exact gangStep_id
  | cons a L ih => exact (h a).comp ih

theorem gangStep_updGang (k : Nat) (F : Nat → Gang → Gang) : GangStep fun s => s.updGang k (F s.tick) := fun s _ cs => by
  unfold State.updGang
  dsimp only
  rw [show ({ s with cores := cs } : State).gang? k = s.gang? k from rfl]
  cases s.gang? k <;> rfl

/-- R43, R270: a token that counts one less, whether it clears or not. -/
theorem gangStep_dropTok (key tok : Nat) : GangStep fun s => s.dropTok key tok := by
  refine (gangStep_updGang key fun _ g => g.tokSub tok).comp (f' := fun s => match s.gang? key with
    | none => s
    | some g =>
      if tok = 0 || g.tok tok != 0 || (Tab.at g.owed [] tok).isEmpty then s
      else (Tab.at g.owed [] tok).foldl (fun s o => s.acquire key (.op (coreOf key) o.1 o.2))
        (s.setGang key { g with owed := Tab.del g.owed tok })) fun s hs cs => ?_
  dsimp only
  rw [show ({ s with cores := cs } : State).gang? key = s.gang? key from rfl]
  cases s.gang? key with
  | none => rfl
  | some g =>
    dsimp only
    split
    · rfl
    · have hacq : ∀ t : State, t.bufs = s.bufs → (Tab.at g.owed [] tok).foldl (fun (s : State) (o : Nat × Nat) =>
          s.acquire key (.op (coreOf key) o.1 o.2)) t = t := fun t ht =>
        acquires_unwritten (by unfold Unwritten; rw [ht]; exact hs) key (fun o : Nat × Nat => .op (coreOf key) o.1 o.2) _
      rw [hacq, hacq]
      · rfl
      · rfl
      · rfl

/-- R105: a result that lands. -/
theorem gangStep_land (key id : Nat) (outs : List Out) : GangStep fun s => s.land key id outs := fun s hs cs => by
  have hstep : ∀ kg : Nat × Gang, GangStep fun u => match kg.2.pend.find? (fun p => p.id == id) with
      | some p => (u.updGang kg.1 fun g => g.land u.tick id outs).dropTok kg.1 p.tok
      | none => u := fun kg => by
    cases kg.2.pend.find? (fun p => p.id == id) with
    | none => exact gangStep_id
    | some p => exact (gangStep_updGang kg.1 fun tick g => g.land tick id outs).comp (gangStep_dropTok _ _)
  exact gangStep_foldl hstep (s.team key) s hs cs

end

end Sys2Proof.Laws
end

section
/-! SUPPORT. Buffers' requests, claims and the matrix unit's power (R252, R299, R301, R317-R319). -/

namespace Sys2Proof.Laws

open Sys2Proof Sys2Proof.Machine

/-! ### Requests served (R252) -/

section
variable {s : State} {core cb : Nat} {b : CBuf}

theorem updCb_cores (s : State) (core cb : Nat) (f : CBuf → CBuf) :
    s.updCb core cb f = { s with cores := (s.updCb core cb f).cores } := rfl

theorem updCb_find (hb : Tab.find? (s.core core).cbs cb = some b) (f : CBuf → CBuf) :
    Tab.find? ((s.updCb core cb f).core core).cbs cb = some (f b) := by
  rw [State.updCb, core_updCore, if_pos rfl, hb]
  exact find_put_same _ _ _

/-- R252, R270: a gang's request that is served while nothing is to be acquired: the buffer has moved on, and the slot's address
lands. -/
theorem serve_lands (hw : Unwritten s) (hb : Tab.find? (s.core core).cbs cb = some b) (f : CBuf → CBuf) (n : Nat) {r : CbReq}
    {key : Nat} (hr : r.gang = some key) (give : Op → Op) :
    let t := (s.updCb core cb f).serve core cb n b r give
    t.mem = s.mem ∧ Tab.find? (t.core core).cbs cb = some (f b) ∧
      ∀ g p, s.gang? key = some g → g.pend.find? (fun (p : Pend) => p.id == r.pend) = some p →
        t.gangs = (s.land key r.pend (outWord (p.regs.headD 0) (b.slotAddr n))).gangs := by
  set d := ((s.gang? key).bind fun g => g.pend.find? fun (p : Pend) => p.id == r.pend).elim 0 fun p => p.regs.headD 0 with hd
  have hserve : (s.updCb core cb f).serve core cb n b r give =
      (s.updCb core cb f).land key r.pend (outWord d (b.slotAddr n)) := by
    unfold State.serve
    rw [hr]
    dsimp only
    rw [State.acquire, acquireIn_unwritten (s := s.updCb core cb f) hw]
    rfl
  have hland := gangStep_land key r.pend (outWord d (b.slotAddr n)) s hw (s.updCb core cb f).cores
  rw [← updCb_cores] at hland
  dsimp only at hland ⊢
  rw [hserve, hland]
  refine ⟨rfl, updCb_find hb f, fun g p hg hp => ?_⟩
  rw [hd, hg, Option.bind_some, hp]
  rfl

end

/-! ### Committed slots in ring order (R252) -/

section
variable {b : CBuf} {n : Nat}

/-- The commit pointer moves slots from the committed to the filled. -/
theorem passCommits_keeps (fuel : Nat) (b : CBuf) : let c := CBuf.passCommits fuel b
    c.reserved = b.reserved ∧ c.free = b.free ∧ c.filled + c.committed.length = b.filled + b.committed.length := by
  induction fuel generalizing b with
  | zero => exact ⟨rfl, rfl, rfl⟩
  | succ fuel ih =>
    unfold CBuf.passCommits
    split
    case isTrue h =>
      obtain ⟨h1, h2, h3⟩ := ih { b with committed := b.committed.erase b.cp, cp := (b.cp + 1) % b.slots, filled := b.filled + 1 }
      have hmem : b.cp ∈ b.committed := List.contains_iff_mem.1 h
      have hlen := List.length_erase_of_mem hmem
      have hpos := List.length_pos_of_mem hmem
      exact ⟨h1, h2, h3.trans (by dsimp only; omega)⟩
    case isFalse => exact ⟨rfl, rfl, rfl⟩

/-- A pointer at a slot that is not committed stays. -/
theorem passCommits_stays (fuel : Nat) (h : b.cp ∉ b.committed) : CBuf.passCommits fuel b = b := by
  cases fuel with
  | zero => rfl
  | succ fuel => rw [CBuf.passCommits, if_neg (by rwa [List.contains_iff_mem])]

theorem commitSlot_eq (h : n ∈ b.reserved) : b.commitSlot n =
    CBuf.passCommits b.slots { b with reserved := b.reserved.erase n, committed := b.committed ++ [n] } :=
  if_pos (List.contains_iff_mem.2 h)

/-- R252: a committed slot at the pointer is filled, any other waits for its turn. -/
theorem commitSlot_spec (hn : n ∈ b.reserved) (hs : 0 < b.slots) : let c := b.commitSlot n
    c.reserved = b.reserved.erase n ∧ c.free = b.free ∧ c.filled + c.committed.length = b.filled + b.committed.length + 1 ∧
    (b.cp = n → b.committed = [] → b.slots ≠ 1 → c.filled = b.filled + 1 ∧ c.cp = (n + 1) % b.slots) ∧
    (b.cp ≠ n → b.cp ∉ b.committed → c.filled = b.filled ∧ c.cp = b.cp) := by
  obtain ⟨hres, hfree, hsum⟩ := passCommits_keeps b.slots { b with reserved := b.reserved.erase n, committed := b.committed ++ [n] }
  dsimp only
  rw [commitSlot_eq hn]
  refine ⟨hres, hfree, hsum.trans (by rw [List.length_append]; rfl), fun hcp hnil _ => ?_, fun hcp hmem => ?_⟩
  · obtain ⟨k, hk⟩ := Nat.exists_eq_succ_of_ne_zero hs.ne'
    have hpass : CBuf.passCommits b.slots { b with reserved := b.reserved.erase n, committed := b.committed ++ [n] } =
        CBuf.passCommits k { b with reserved := b.reserved.erase n, committed := [], cp := (n + 1) % b.slots
                                    filled := b.filled + 1 } := by
      rw [hk, hnil, Nat.succ_eq_add_one, CBuf.passCommits, if_pos (by simp [hcp])]
      simp [hcp]
    rw [hpass, passCommits_stays k List.not_mem_nil]
    exact ⟨rfl, rfl⟩
  · rw [passCommits_stays]
    · exact ⟨rfl, rfl⟩
    · simp [hmem, hcp]

end

/-! ### Tables after a run of changes -/

section
variable {α : Type} (P : Nat → Bool) (v d : α)

theorem find_puts (L : List Nat) (t : Tab α) (m : Nat) : Tab.find? (L.foldl (fun t k => if P k then Tab.put t k v else t) t) m =
    if m ∈ L ∧ P m = true then some v else Tab.find? t m := by
  induction L generalizing t with
  | nil => simp
  | cons k L ih =>
    rw [List.foldl_cons, ih]
    by_cases hk : P k = true
    · rw [if_pos hk, find_put]
      by_cases hm : k = m
      · subst hm; simp [hk]
      · simp [hm, Ne.symm hm]
    · rw [if_neg hk]
      by_cases hm : k = m
      · subst hm; simp [hk]
      · simp [Ne.symm hm]

theorem find_dels (L : List Nat) {t : Tab α} (ht : Tab.rising t = true) (m : Nat) :
    Tab.find? (L.foldl (fun t k => if P k then Tab.del t k else t) t) m =
      if m ∈ L ∧ P m = true then none else Tab.find? t m := by
  induction L generalizing t with
  | nil => simp
  | cons k L ih =>
    rw [List.foldl_cons]
    by_cases hk : P k = true
    · rw [if_pos hk, ih (risingFrom_del ht)]
      by_cases hm : k = m
      · subst hm; simp [hk, find_del_same ht]
      · simp [hm, Ne.symm hm, find_del_ne]
    · rw [if_neg hk, ih ht]
      by_cases hm : k = m
      · subst hm; simp [hk]
      · simp [Ne.symm hm]

end

/-! ### Claims (R299, R301) -/

section
variable {s : State} {key tok core n : Nat}

/-- A token that has counted no operation only counts one less. -/
theorem dropTok_unowed (h : ∀ g, s.gang? key = some g → Tab.at g.owed [] tok = []) :
    s.dropTok key tok = s.updGang key fun g => g.tokSub tok := by
  cases hg : s.gang? key with
  | some g => exact dropTok_quiet hg (.inr (.inr (h g hg)))
  | none =>
    have hs : (s.updGang key fun g => g.tokSub tok) = s := by rw [State.updGang, hg]
    rw [State.dropTok, hs, hg]

/-- A core's change, and then a token that has counted no operation. -/
theorem updCore_dropTok (f : Core → Core) (h : ∀ g, s.gang? key = some g → Tab.at g.owed [] tok = []) :
    let t := (s.updCore core f).dropTok key tok
    t = { s with cores := t.cores, gangs := t.gangs } ∧ t.core core = f (s.core core) := by
  have hdrop : (s.updCore core f).dropTok key tok = _ := dropTok_unowed (s := s.updCore core f) h
  dsimp only
  rw [hdrop]
  refine ⟨?_, ?_⟩
  · rw [updGang_rest]
    rfl
  · rw [State.core, updGang_cores]
    exact (core_updCore s core core f).trans (if_pos rfl)

theorem mem_yieldUp (c : Core) (lead : Nat) (ns : Names) (h : Nat × Nat) :
    h ∈ (c.yieldUp lead ns).slotHeld ↔ h ∈ c.slotHeld ∧ ¬ (h.2 = lead ∧ ns.slots.getLsbD h.1 = true) := by
  simp only [Core.yieldUp, List.mem_filter, Bool.not_eq_true', Bool.and_eq_false_imp, beq_iff_eq, not_and, Bool.not_eq_true]

/-- R299: a claim that nothing stands against. -/
theorem claimGrant_spec {k : Claim} (hk : (s.core core).claims[n]? = some k)
    (hmaps : Tab.rising (s.core core).maps = true)
    (hothers : ¬ ((s.core core).heldByOthers (s.leadOf k.gang)).meets k.names = true)
    (hahead : ∀ j ∈ (s.core core).claims.take n, ¬ j.names.meets k.names = true) (hlive : s.teamDead k.gang = false)
    (howed : ∀ g, s.gang? k.gang = some g → Tab.at g.owed [] k.tok = []) :
    ∃ t, exec (.claimGrant core n) s = .next t ∧ t = { s with cores := t.cores, gangs := t.gangs } ∧
      (t.core core).claims = (s.core core).claims.eraseIdx n ∧
      (∀ m, m < 32 → Tab.find? (t.core core).slotHeld m =
        if k.slots.getLsbD m = true then some (s.leadOf k.gang) else Tab.find? (s.core core).slotHeld m) ∧
      (∀ m, m < 8 → Tab.find? (t.core core).tileHeld m =
        if k.tiles.getLsbD m = true then some (s.leadOf k.gang) else Tab.find? (s.core core).tileHeld m) ∧
      (∀ m, m < 32 → Tab.at (t.core core).maps 0#20 m =
        if k.slots.getLsbD m = true then 0#20 else Tab.at (s.core core).maps 0#20 m) := by
  obtain ⟨hrest, hcore⟩ := updCore_dropTok (core := core)
    (fun c => { c.hold (s.leadOf k.gang) k.names with claims := c.claims.eraseIdx n }) howed
  have hfree : (((s.core core).heldByOthers (s.leadOf k.gang)).meets k.names ||
      ((s.core core).claims.take n).any fun j => j.names.meets k.names) = false := by
    rw [Bool.eq_false_iff.2 hothers, Bool.false_or, List.any_eq_false]
    exact hahead
  have hexec : exec (.claimGrant core n) s = .next ((s.updCore core fun c =>
      { c.hold (s.leadOf k.gang) k.names with claims := c.claims.eraseIdx n }).dropTok k.gang k.tok) := by
    have hkept : s.gaveUp (s.core core) k.gang = false := by rw [State.gaveUp, hlive, Bool.false_and]
    show execClaimGrant core n s = _
    unfold execClaimGrant
    dsimp only
    rw [hk]
    dsimp only
    rw [hfree, hkept]
    rfl
  refine ⟨_, hexec, hrest, by rw [hcore], fun m hm => ?_, fun m hm => ?_, fun m hm => ?_⟩
  · rw [hcore]
    refine (find_puts (fun k' => k.slots.getLsbD k') _ _ _ m).trans ?_
    simp [hm]
  · rw [hcore]
    refine (find_puts (fun k' => k.tiles.getLsbD k') _ _ _ m).trans ?_
    simp [hm]
  · rw [hcore, Tab.at, Tab.at]
    refine (congrArg (Option.getD · 0#20) (find_dels (fun k' => k.slots.getLsbD k') (List.range 32) hmaps m)).trans ?_
    simp only [List.mem_range, hm, true_and]
    split <;> rfl

/-- R301: a release whose operations have completed. -/
theorem claimRelease_spec {k : Claim} (hk : (s.core core).orels[n]? = some k)
    (hdone : ∀ o ∈ s.teamOps (s.leadOf k.gang), o.1 ∉ k.after)
    (howed : ∀ g, s.gang? k.gang = some g → Tab.at g.owed [] k.tok = []) :
    ∃ t, exec (.claimRelease core n) s = .next t ∧ t = { s with cores := t.cores, gangs := t.gangs } ∧
      (t.core core).orels = (s.core core).orels.eraseIdx n ∧
      ∀ h, h ∈ (t.core core).slotHeld ↔
        h ∈ (s.core core).slotHeld ∧ ¬ (h.2 = s.leadOf k.gang ∧ k.slots.getLsbD h.1 = true) := by
  obtain ⟨hrest, hcore⟩ := updCore_dropTok (core := core)
    (fun c => { c.yieldUp (s.leadOf k.gang) k.names with orels := (s.core core).orels.eraseIdx n }) howed
  have hnone : (k.after.any ((s.teamOps (s.leadOf k.gang)).map (·.1)).contains) = false := by
    rw [List.any_eq_false]
    intro a ha hc
    obtain ⟨o, ho, rfl⟩ := List.mem_map.1 (List.contains_iff_mem.1 hc)
    exact hdone o ho ha
  have hexec : exec (.claimRelease core n) s = .next ((s.updCore core fun c =>
      { c.yieldUp (s.leadOf k.gang) k.names with orels := (s.core core).orels.eraseIdx n }).dropTok k.gang k.tok) := by
    show execClaimRelease core n s = _
    unfold execClaimRelease
    dsimp only
    rw [hk]
    dsimp only
    rw [hnone]
    rfl
  refine ⟨_, hexec, hrest, by rw [hcore], fun h => ?_⟩
  rw [hcore]
  exact mem_yieldUp _ _ _ h

end

/-! ### Power (R317) -/

/-- R317: a sub-array that is gated, and the others as they were. -/
theorem gate_bits (g : BitVec 4) {n : Nat} (hn : n < 4) : (g ||| BitVec.ofNat 4 (2 ^ n)).getLsbD n = true ∧
    ∀ m, m < 4 → m ≠ n → (g ||| BitVec.ofNat 4 (2 ^ n)).getLsbD m = g.getLsbD m := by
  refine ⟨?_, fun m hm hne => ?_⟩
  · rw [BitVec.getLsbD_or, BitVec.getLsbD_ofNat, Nat.testBit_two_pow_self, decide_eq_true hn, Bool.true_and, Bool.or_true]
  · rw [BitVec.getLsbD_or, BitVec.getLsbD_ofNat, Nat.testBit_two_pow_of_ne hne.symm, Bool.and_false, Bool.or_false]

/-- Settles O40: requests by `serve_lands`, slots by `commitSlot_spec`, claims by `claimGrant_spec` and `claimRelease_spec`. -/
theorem buffersClaimsPower : Obligations.BuffersClaimsPower := by
  refine ⟨fun s core cb b r rest key hb hwait hfree hr hbufs => ?_, fun s core cb b r rest key hb hwait hfilled hr hbufs => ?_,
    fun b n hn hs => commitSlot_spec hn hs, fun s core n k hk => claimGrant_spec hk, fun s core n k hk => claimRelease_spec hk,
    fun s core n hn hmode hidle hwaking => ?_, fun s core hwaking => ?_, fun s core hmode => ?_⟩
  · have hexec : exec (.cbResServed core cb) s = .next ((s.updCb core cb fun c => { c with
        free := c.free - 1, rp := (b.rp + 1) % c.slots, reserved := c.reserved ++ [b.rp], waitRes := rest }).serve core cb b.rp b r
          fun o => { o with slotD := some b.rp }) := by
      show execCbResServed core cb s = _
      unfold execCbResServed
      rw [hb]
      dsimp only
      rw [hwait]
      dsimp only
      rw [if_neg hfree.ne']
    exact ⟨_, hexec, serve_lands (unwritten_of_nil hbufs) hb _ b.rp hr _⟩
  · have hexec : exec (.cbTakeServed core cb) s = .next ((s.updCb core cb fun c => { c with
        filled := c.filled - 1, tp := (b.tp + 1) % c.slots, taken := c.taken ++ [b.tp], waitTake := rest }).serve core cb b.tp b r
          fun o => { o with slotS := some b.tp }) := by
      show execCbTakeServed core cb s = _
      unfold execCbTakeServed
      rw [hb]
      dsimp only
      rw [hwait]
      dsimp only
      rw [if_neg hfilled.ne']
    exact ⟨_, hexec, serve_lands (unwritten_of_nil hbufs) hb _ b.tp hr _⟩
  · refine ⟨s.updCore core fun c => { c with gated := c.gated ||| BitVec.ofNat 4 (2 ^ n) }, ?_, rfl, ?_⟩
    · show execSubarrayGate core n s = _
      unfold execSubarrayGate
      dsimp only
      rw [hmode, hwaking, beq_eq_false_iff_ne.2 hidle, if_neg (by simp; omega)]
    · rw [core_updCore, if_pos rfl]
      exact gate_bits _ hn
  · show execSubarrayWake core s = _
    rw [execSubarrayWake, hwaking]
    rfl
  · show execBudgetWindow core s = _
    rw [execBudgetWindow, hmode]
    rfl

end Sys2Proof.Laws
end

section
/-! SUPPORT. Releases, token grants and release records (R248, R249, R268, R269). -/

namespace Sys2Proof.Laws

open Sys2Proof Sys2Proof.Machine

/-! ### What a token's count leaves alone (R43, R270) -/

section
variable {s t u : State} {key tok : Nat}

/-- Only gangs, memory and what locations and buffers hold of the writes have changed. -/
def GangsAndViews (s t : State) : Prop :=
  t = { s with gangs := t.gangs, mem := t.mem, held := t.held, log := t.log, bufs := t.bufs }

theorem gangsAndViews_refl (s : State) : GangsAndViews s s := rfl

theorem GangsAndViews.trans (h : GangsAndViews s t) (h' : GangsAndViews t u) : GangsAndViews s u := by
  unfold GangsAndViews at *
  rw [h', h]

theorem OnlyViews.gangs (h : OnlyViews s t) : GangsAndViews s t := by
  unfold OnlyViews at h
  unfold GangsAndViews
  rw [h]

theorem gangsAndViews_updGang (s : State) (k : Nat) (f : Gang → Gang) : GangsAndViews s (s.updGang k f) := by
  unfold GangsAndViews
  rw [updGang_rest]

theorem gangsAndViews_setGang (s : State) (k : Nat) (g : Gang) : GangsAndViews s (s.setGang k g) := rfl

theorem gangsAndViews_foldl {α : Type} (f : State → α → State) (h : ∀ s a, GangsAndViews s (f s a)) (L : List α) (s : State) :
    GangsAndViews s (L.foldl f s) :=
  List.foldlRecOn L f (motive := GangsAndViews s) (gangsAndViews_refl s) fun _ hb a _ => hb.trans (h _ a)

theorem GangsAndViews.parts (h : GangsAndViews s t) : t.parts = s.parts := by rw [h]
theorem GangsAndViews.rels (h : GangsAndViews s t) : t.rels = s.rels := by rw [h]
theorem GangsAndViews.cores (h : GangsAndViews s t) : t.cores = s.cores := by rw [h]

/-- A gang whose token counts one operation less; where it clears, it owes no acquire any more. -/
def tokDrop (tok : Nat) (g : Gang) : Gang :=
  if tok = 0 || (g.tokSub tok).tok tok != 0 || (Tab.at (g.tokSub tok).owed [] tok).isEmpty then g.tokSub tok
  else { g.tokSub tok with owed := Tab.del (g.tokSub tok).owed tok }

theorem tokDrop_rest (tok : Nat) (g : Gang) :
    tokDrop tok g = { g with toks := (g.tokSub tok).toks, owed := (tokDrop tok g).owed } := by
  unfold tokDrop
  split
  · rw [tokSub_rest]
  · rw [tokSub_rest]

theorem dropTok_views (s : State) (key tok : Nat) : GangsAndViews s (s.dropTok key tok) := by
  have hsub := gangsAndViews_updGang s key fun g => g.tokSub tok
  unfold State.dropTok
  dsimp only
  generalize s.updGang key (fun g => g.tokSub tok) = v at hsub
  cases hv : v.gang? key with
  | none => exact hsub
  | some g =>
    dsimp only
    split
    · exact hsub
    · exact (hsub.trans (gangsAndViews_setGang v key _)).trans (gangsAndViews_foldl _ (fun _ _ => (acquire_views _ _ _).gangs) _ _)

theorem dropTok_gang (s : State) (key tok k : Nat) :
    (s.dropTok key tok).gang? k = if key = k then (s.gang? k).map (tokDrop tok) else s.gang? k := by
  have hv : ∀ k, (s.updGang key fun g => g.tokSub tok).gang? k = _ := fun k => gang_updGang s key k _
  have hkey := hv key
  rw [if_pos rfl] at hkey
  unfold State.dropTok
  dsimp only
  rw [hkey]
  cases hg : s.gang? key with
  | none =>
    rw [Option.map_none]
    dsimp only
    rw [hv]
    split
    case isTrue h => rw [← h, hg]; rfl
    case isFalse => rfl
  | some g =>
    rw [Option.map_some]
    dsimp only
    split
    case isTrue h =>
      rw [hv]
      split
      case isTrue hk => rw [← hk, hg, Option.map_some, Option.map_some, tokDrop, if_pos h]
      case isFalse => rfl
    case isFalse h =>
      rw [gang_views (onlyViews_foldl _ (fun _ _ => acquire_views _ _ _) _ _), gang_setGang]
      split
      case isTrue hk => rw [← hk, hg, Option.map_some, tokDrop, if_neg h]
      case isFalse hk => rw [hv, if_neg hk]

theorem dropTok_zero_gang (s : State) (key k : Nat) : (s.dropTok key 0).gang? k = s.gang? k := by
  rw [dropTok_gang]
  split
  · exact Option.map_id_fun' ▸ rfl
  · rfl

end

/-! ### Entries of a release leave their queues (R268) -/

section
variable {g : Gang} {s : State}

theorem stream_setStream (h : Tab.rising g.streams = true) (st : Nat) (es : List Entry) (n : Nat) :
    (g.setStream st es).stream n = if st = n then es else g.stream n := by
  cases es with
  | cons e es => exact at_setStream g st (List.cons_ne_nil e es) n
  | nil =>
    show (Tab.find? (Tab.del g.streams st) n).getD [] = _
    by_cases hn : st = n
    · rw [if_pos hn, ← hn, find_del_same h]; rfl
    · rw [if_neg hn, find_del_ne _ hn]; rfl

theorem rising_setStream (h : Tab.rising g.streams = true) (st : Nat) (es : List Entry) :
    Tab.rising (g.setStream st es).streams = true := by
  cases es with
  | cons e es => exact risingFrom_put _ (Nat.zero_le _) h
  | nil => exact risingFrom_del h

theorem stream_of_not_mem {st : Nat} (h : st ∉ g.streams.map (·.1)) : g.stream st = [] := by
  have hfind : ∀ t : Tab (List Entry), st ∉ t.map (·.1) → Tab.find? t st = none := fun t ht => by
    induction t with
    | nil => rfl
    | cons e t ih =>
      rw [List.map_cons, List.mem_cons, not_or] at ht
      obtain ⟨j, v⟩ := e
      rw [find_cons, if_neg (Ne.symm ht.1), ih ht.2]
  rw [Gang.stream, Tab.at, hfind _ h]
  rfl

/-- What a gang is once the entries of an identity have left some of its queues. -/
structure Dropped (g g' : Gang) (id : Nat) (sts : List Nat) : Prop where
  rest : g' = { g with streams := g'.streams }
  rising : Tab.rising g.streams = true → Tab.rising g'.streams = true
  streams : Tab.rising g.streams = true → ∀ n, g'.stream n =
    if n ∈ sts then (g.stream n).filter (fun (e : Entry) => e.id != id) else g.stream n

theorem filters_drop (g : Gang) (id : Nat) (sts : List Nat) : Dropped g
    (sts.foldl (fun (g : Gang) st => g.setStream st ((g.stream st).filter fun (e : Entry) => e.id != id)) g) id sts := by
  induction sts generalizing g with
  | nil => exact ⟨rfl, fun h => h, fun _ _ => by simp⟩
  | cons st sts ih =>
    obtain ⟨hrest, hrising, hstreams⟩ := ih (g.setStream st ((g.stream st).filter fun (e : Entry) => e.id != id))
    refine ⟨hrest, fun h => hrising (rising_setStream h _ _), fun h n => ?_⟩
    rw [List.foldl_cons, hstreams (rising_setStream h _ _), stream_setStream h]
    by_cases hn : st = n
    · subst hn; simp
    · simp [hn, Ne.symm hn]

theorem dropId_stream (g : Gang) (id : Nat) : Dropped g (g.dropId id) id (g.streams.map (·.1)) := filters_drop g id _

theorem dropId_all (h : Tab.rising g.streams = true) (id n : Nat) :
    (g.dropId id).stream n = (g.stream n).filter (fun (e : Entry) => e.id != id) := by
  rw [(dropId_stream g id).streams h]
  split
  · rfl
  · rw [stream_of_not_mem ‹_›]; rfl

/-- The gangs of a release, once its entries have left their queues, however often it names them. -/
theorem dropIds_gang (id : Nat) (keys : List Nat) {k : Nat} (hg : s.gang? k = some g) : ∃ g',
    (keys.foldl (fun (s : State) k => s.updGang k fun g => g.dropId id) s).gang? k = some g' ∧ g' = { g with streams := g'.streams } ∧
      (Tab.rising g.streams = true → ∀ st, g'.stream st =
        if k ∈ keys then (g.stream st).filter (fun (e : Entry) => e.id != id) else g.stream st) := by
  induction keys generalizing s g with
  | nil => exact ⟨g, hg, rfl, fun _ _ => by simp⟩
  | cons a keys ih =>
    by_cases ha : a = k
    · subst ha
      have hstep : (s.updGang a fun g => g.dropId id).gang? a = some (g.dropId id) := by
        rw [gang_updGang, if_pos rfl, hg, Option.map_some]
      obtain ⟨hrest, hrising, -⟩ := dropId_stream g id
      obtain ⟨g', hg', hrest', hstreams⟩ := ih hstep
      refine ⟨g', hg', hrest'.trans (by rw [hrest]), fun h st => ?_⟩
      rw [hstreams (hrising h), dropId_all h, List.filter_filter]
      simp
    · have hstep : (s.updGang a fun g => g.dropId id).gang? k = some g := by rw [gang_updGang, if_neg ha, hg]
      obtain ⟨g', hg', hrest', hstreams⟩ := ih hstep
      refine ⟨g', hg', hrest', fun h st => ?_⟩
      rw [hstreams h]
      simp [Ne.symm ha]

theorem dropIds_rest (s : State) (id : Nat) (keys : List Nat) : keys.foldl (fun (s : State) k => s.updGang k fun g => g.dropId id) s =
    { s with gangs := (keys.foldl (fun (s : State) k => s.updGang k fun g => g.dropId id) s).gangs } :=
  foldl_gangs (fun (s : State) k => updGang_rest s k fun g => g.dropId id) s keys

end

end Sys2Proof.Laws
end

section
/-! SUPPORT. The steps of a release, a grant and a record (R248, R249, R268, R371, R471), and the statement on them. -/

namespace Sys2Proof.Laws

open Sys2Proof Sys2Proof.Machine

/-! ### Release buffers (R268) -/

section
variable {s : State} {o : Obj} {ws : List Nat}

/-- What stamping makes of an object's buffer. -/
def stamped (s : State) (o : Obj) (ws : List Nat) : Buf :=
  ⟨o, (s.buf o).next + 1, (s.buf o).writes ++
    (ws.filter fun w => !((s.buf o).writes.map (·.2)).contains w).map fun w => ((s.buf o).next, w)⟩

theorem stamp_bufs (s : State) (o : Obj) (ws : List Nat) : s.stamp o ws = { s with
    bufs := if s.bufs.any (fun x => x.obj == o) then s.bufs.map (fun x => if x.obj == o then stamped s o ws else x)
            else s.bufs ++ [stamped s o ws] } := rfl

/-- A changed buffer is the one found, when one was found. -/
theorem find_replaced {L : List Buf} {b : Buf} (hb : b.obj = o) (h : L.any (fun x => x.obj == o) = true) :
    (L.map fun x => if x.obj == o then b else x).find? (fun x => x.obj == o) = some b := by
  induction L with
  | nil => cases h
  | cons x L ih =>
    rw [List.map_cons]
    by_cases hx : x.obj = o
    · rw [if_pos (by simpa using hx)]
      exact List.find?_cons_of_pos (by simpa using hb)
    · have hx' : ¬ (x.obj == o) = true := by simpa using hx
      rw [if_neg hx']
      rw [List.any_cons, Bool.eq_false_iff.2 hx', Bool.false_or] at h
      exact (List.find?_cons_of_neg (p := fun x : Buf => x.obj == o) hx').trans (ih h)

theorem stamp_buf : (s.stamp o ws).buf o = stamped s o ws := by
  rw [stamp_bufs, State.buf]
  dsimp only
  split
  case isTrue h => rw [find_replaced (o := o) (b := stamped s o ws) rfl h]; rfl
  case isFalse h =>
    have hnone : s.bufs.find? (fun x => x.obj == o) = none := by
      rw [List.find?_eq_none]
      intro x hx hobj
      exact h (List.any_eq_true.2 ⟨x, hx, hobj⟩)
    rw [List.find?_append, hnone, Option.none_or, List.find?_singleton]
    simp [stamped]

/-- A stamped write stands in the buffer, under some number. -/
theorem mem_stamped {w : Nat} (hw : w ∈ ws) : ∃ n, (n, w) ∈ (stamped s o ws).writes := by
  by_cases hold : w ∈ (s.buf o).writes.map (·.2)
  · obtain ⟨⟨n, w'⟩, hmem, rfl⟩ := List.mem_map.1 hold
    exact ⟨n, List.mem_append_left _ hmem⟩
  · refine ⟨(s.buf o).next, List.mem_append_right _ (List.mem_map.2 ⟨w, List.mem_filter.2 ⟨hw, ?_⟩, rfl⟩)⟩
    rw [Bool.eq_false_iff.2 fun h => hold (List.contains_iff_mem.1 h)]
    rfl

/-- Stamping no write leaves buffers without writes. -/
theorem unwritten_stamp (h : Unwritten s) (o : Obj) : Unwritten (s.stamp o []) := by
  have hnew : (stamped s o []).writes = [] := by rw [stamped, buf_writes h]; rfl
  intro b hb
  rw [stamp_bufs] at hb
  dsimp only at hb
  split at hb
  · obtain ⟨x, hx, rfl⟩ := List.mem_map.1 hb
    split
    · exact hnew
    · exact h x hx
  · rcases List.mem_append.1 hb with hb | hb
    · exact h b hb
    · rw [List.mem_singleton.1 hb, hnew]

/-- The writes that a gang's launch binds to an object are those that a release of it stamps. -/
theorem mem_scopeOf {key : Nat} {w : GWrite} (hw : w ∈ s.log) (hg : w.gang = key) (hop : w.op = none) (ho : w.obj = o) :
    w.id ∈ s.scopeOf key o :=
  List.mem_map.2 ⟨w, List.mem_filter.2 ⟨hw, by simp [hg, hop, ho]⟩, rfl⟩

end

/-! ### The tokens of a release -/

section
variable {s : State}

theorem dropTok_zero (s : State) (key : Nat) : s.dropTok key 0 = s.updGang key fun g => g.tokSub 0 := by
  unfold State.dropTok
  dsimp only
  cases (s.updGang key fun g => g.tokSub 0).gang? key <;> rfl

/-- A release without a token counts nothing. -/
theorem dropToks_zero (s : State) (keys : List Nat) : let t := keys.foldl (fun (s : State) k => s.dropTok k 0) s
    t = { s with gangs := t.gangs } ∧ ∀ k, t.gang? k = s.gang? k := by
  refine ⟨foldl_gangs (fun s k => by rw [dropTok_zero, updGang_rest]) s keys, fun k => ?_⟩
  induction keys generalizing s with
  | nil => rfl
  | cons a keys ih => exact (ih _).trans (dropTok_zero_gang s a k)

/-- The tokens of a release acquire nothing of memory while nothing is stamped, or when it has none. -/
theorem dropToks_mem (keys : List Nat) {tok : Nat} (h : Unwritten s ∨ tok = 0) :
    (keys.foldl (fun (s : State) k => s.dropTok k tok) s).mem = s.mem := by
  rcases h with h | rfl
  · have hstep := gangStep_foldl (fun k => gangStep_dropTok k tok) keys
    have hrest := hstep.rest h
    rw [hrest]
  · rw [(dropToks_zero s keys).1]

end

/-! ### A release's step (R268) -/

section
variable {s : State} {r : Rel}

theorem releaseStep_takes (hr : s.rels.find? (fun (x : Rel) => x.id == r.id) = some r) (ht : r.taken = false)
    (hin : (s.part r.pno).inn = true) (hgate : s.gateOf r = true) :
    exec (.releaseStep r.id) s = .next (s.takeRelease r) := by
  show execReleaseStep r.id s = _
  unfold execReleaseStep
  rw [hr]
  dsimp only
  rw [ht, hin, hgate]
  rfl

/-- R249, R268: a token's release stamps the gang's bound writes with one new number, and waits for its record. -/
theorem takeRelease_token {id : Nat} (hk : r.kind = .token id) : let t := s.takeRelease r
    t = { s with bufs := t.bufs, rels := t.rels, gangs := t.gangs } ∧
    (∀ k g, s.gang? k = some g → Tab.rising g.streams = true → ∃ g', t.gang? k = some g' ∧
      g' = { g with streams := g'.streams } ∧
      ∀ st, g'.stream st = if k ∈ r.keys then (g.stream st).filter (fun e => e.id != r.id) else g.stream st) ∧
    t.rels = s.rels.map (fun (x : Rel) => if x.id = r.id then { x with taken := true } else x) ∧
    (t.buf (.token r.pno id)).next = (s.buf (.token r.pno id)).next + 1 ∧
    ∀ w ∈ s.log, w.gang = r.gang → w.op = none → w.obj = .token r.pno id →
      ∃ n, (n, w.id) ∈ (t.buf (.token r.pno id)).writes := by
  have hgangs := fun k g (hg : s.gang? k = some g) => dropIds_gang r.id r.keys hg
  have htake : s.takeRelease r = let u := r.keys.foldl (fun (s : State) k => s.updGang k fun g => g.dropId r.id) s
      { u.releaseObj r.gang (.token r.pno id) with
        rels := u.rels.map fun (x : Rel) => if x.id = r.id then { x with taken := true } else x } := by
    unfold State.takeRelease
    rw [hk]
  obtain ⟨gs, hu⟩ : ∃ gs, r.keys.foldl (fun (s : State) k => s.updGang k fun g => g.dropId r.id) s = { s with gangs := gs } :=
    ⟨_, dropIds_rest s r.id r.keys⟩
  rw [htake]
  rw [hu] at hgangs ⊢
  have hbuf : (({ s with gangs := gs } : State).releaseObj r.gang (.token r.pno id)).buf (.token r.pno id) =
    stamped { s with gangs := gs } (.token r.pno id) (s.scopeOf r.gang (.token r.pno id)) := stamp_buf
  refine ⟨rfl, fun k g hg hrising => ?_, rfl, ?_, fun w hw hg hop ho => ?_⟩
  · obtain ⟨g', hg', hrest, hstreams⟩ := hgangs k g hg
    exact ⟨g', hg', hrest, hstreams hrising⟩
  · exact congrArg Buf.next hbuf
  · obtain ⟨n, hn⟩ := mem_stamped (s := { s with gangs := gs }) (o := .token r.pno id) (mem_scopeOf hw hg hop ho)
    exact ⟨n, hbuf ▸ hn⟩

/-- R371: a barrier's release raises its gang's released count. -/
theorem takeRelease_barrier {k : Nat} {g : Gang} (hk : r.kind = .barrier k) (hg : s.gang? r.gang = some g) (ht : r.tok = 0) :
    let t := s.takeRelease r
    t.mem = s.mem ∧ t.rels = s.rels.filter (fun (x : Rel) => x.id != r.id) ∧ ∃ g', t.gang? r.gang = some g' ∧
      g' = { g with rel := g'.rel, streams := g'.streams } ∧ Tab.at g'.rel 0 k = Tab.at g.rel 0 k + 1 := by
  obtain ⟨g', hg', hrest, -⟩ := dropIds_gang r.id r.keys hg
  have htake : s.takeRelease r = let u := r.keys.foldl (fun (s : State) k => s.updGang k fun g => g.dropId r.id) s
      let v := (u.releaseObj r.gang (.barrier r.launch k)).updGang r.gang fun x => { x with rel := Tab.upd x.rel 0 k (· + 1) }
      r.keys.foldl (fun (s : State) k => s.dropTok k r.tok)
        (({ v with rels := v.rels.filter fun (x : Rel) => x.id != r.id } : State).rephase r.launch) := by
    unfold State.takeRelease
    rw [hk]
  obtain ⟨gs, hu⟩ : ∃ gs, r.keys.foldl (fun (s : State) k => s.updGang k fun g => g.dropId r.id) s = { s with gangs := gs } :=
    ⟨_, dropIds_rest s r.id r.keys⟩
  rw [htake, ht]
  rw [hu] at hg' ⊢
  dsimp only
  set v := (({ s with gangs := gs } : State).releaseObj r.gang (.barrier r.launch k)).updGang r.gang
    fun x => { x with rel := Tab.upd x.rel 0 k (· + 1) } with hv
  obtain ⟨hzero, hsame⟩ := dropToks_zero
    (({ v with rels := v.rels.filter fun (x : Rel) => x.id != r.id } : State).rephase r.launch) r.keys
  have hgang : v.gang? r.gang = some { g' with rel := Tab.upd g'.rel 0 k (· + 1) } := by
    rw [hv, gang_updGang, if_pos rfl]
    exact congrArg (Option.map _) hg'
  have hvm : v.mem = s.mem := by rw [hv, updGang_mem]; rfl
  have hvr : v.rels = s.rels := by rw [hv, updGang_rels]; rfl
  refine ⟨?_, ?_, { g' with rel := Tab.upd g'.rel 0 k (· + 1) }, ?_, ?_, ?_⟩
  · rw [hzero]
    exact (rephase_mem _ _).trans hvm
  · rw [hzero]
    exact (updLaunch_rels _ _ _).trans (by rw [hvr])
  · rw [hsame, State.gang?, State.rephase, updLaunch_gangs]
    exact hgang
  · rw [hrest]
  · rw [hrest, Tab.upd, at_put_same]

/-- R252, R268: a slot's release commits or frees it. -/
theorem takeRelease_slot {core cb n : Nat} {f : CBuf → CBuf}
    (htake : s.takeRelease r = let u := r.keys.foldl (fun (s : State) k => s.updGang k fun g => g.dropId r.id) s
      r.keys.foldl (fun (s : State) k => s.dropTok k r.tok)
        (({ u.stamp (.slot core cb n) [] with rels := u.rels.filter fun (x : Rel) => x.id != r.id } : State).updCb core cb f)) :
    let t := s.takeRelease r
    (s.bufs = [] ∨ r.tok = 0 → t.mem = s.mem) ∧ t.rels = s.rels.filter (fun (x : Rel) => x.id != r.id) ∧
      t.cores = (s.updCb core cb f).cores := by
  obtain ⟨gs, hu⟩ : ∃ gs, r.keys.foldl (fun (s : State) k => s.updGang k fun g => g.dropId r.id) s = { s with gangs := gs } :=
    ⟨_, dropIds_rest s r.id r.keys⟩
  rw [htake, hu]
  dsimp only
  set v := ({ ({ s with gangs := gs } : State).stamp (.slot core cb n) [] with
    rels := s.rels.filter fun (x : Rel) => x.id != r.id } : State).updCb core cb f with hv
  have hviews := gangsAndViews_foldl (fun (s : State) k => s.dropTok k r.tok) (fun s k => dropTok_views s k r.tok) r.keys v
  refine ⟨fun h => ?_, hviews.rels, hviews.cores⟩
  refine dropToks_mem r.keys (h.imp_left fun hbufs => ?_)
  exact unwritten_stamp (s := { s with gangs := gs }) (unwritten_of_nil hbufs) _

end

/-! ### Grants (R248, R471) -/

section
variable {s : State} {t0 t1 : Tok} {pno id key tok : Nat} {excl : Bool}

theorem tokenGrant_spec {g : Gang} (ht : Tab.find? (s.part pno).tokens id = some t0) (hnext : t0.next? = some ((key, excl, tok), t1))
    (hin : (s.part pno).inn = true) (hg : s.gang? key = some g) :
    ∃ t g', exec (.tokenGrant pno id) s = .next t ∧ Tab.find? (t.part pno).tokens id = some t1 ∧ t.gang? key = some g' ∧
      g' = { g with toks := (g.tokSub tok).toks, acqs := g.acqs.erase id, owed := g'.owed } ∧ (s.bufs = [] → t.mem = s.mem) := by
  set u := s.updPart pno fun p => { p with tokens := Tab.put p.tokens id t1 } with hu
  set v := u.updGang key fun g => { g with acqs := g.acqs.erase id } with hv
  have hexec : exec (.tokenGrant pno id) s = .next ((v.dropTok key tok).acquire key (.token pno id)) := by
    show execTokenGrant pno id s = _
    unfold execTokenGrant
    rw [ht, Option.bind_some, hnext]
    dsimp only
    rw [hin]
    rfl
  have hviews : GangsAndViews u ((v.dropTok key tok).acquire key (.token pno id)) :=
    ((gangsAndViews_updGang u key _).trans (dropTok_views v key tok)).trans (acquire_views _ _ _).gangs
  have hvg : v.gang? key = some { g with acqs := g.acqs.erase id } := by
    rw [hv, gang_updGang, if_pos rfl]
    exact congrArg (Option.map _) hg
  refine ⟨_, tokDrop tok { g with acqs := g.acqs.erase id }, hexec, ?_, ?_, ?_, fun hbufs => ?_⟩
  · rw [State.part, hviews.parts]
    show Tab.find? (u.part pno).tokens id = some t1
    rw [hu, part_updPart, if_pos rfl]
    exact find_put_same _ _ _
  · rw [gang_views (acquire_views _ _ _), dropTok_gang, if_pos rfl, hvg, Option.map_some]
  · refine (tokDrop_rest tok _).trans ?_
    rw [tokSub_rest, tokSub_rest]
    rfl
  · have hw : Unwritten v := by
      have hvb : v.bufs = s.bufs := by rw [hv, updGang_bufs]; rfl
      exact unwritten_of_nil (hvb.trans hbufs)
    rw [State.acquire, acquireIn_unwritten ((gangStep_dropTok key tok).unwritten hw)]
    have hrest := (gangStep_dropTok key tok).rest hw
    rw [hrest, hv, updGang_mem]
    rfl

theorem admits_iff (t : Tok) (excl : Bool) : t.admits excl = true ↔
    (excl = true → t.held = []) ∧ (excl = false → ∀ h ∈ t.held, h.2 = false) := by
  cases excl <;> simp [Tok.admits]

/-- R248: the oldest request is settled where the holders admit it. -/
theorem next_oldest {rest : List (Nat × Bool × Nat)} (hr : t0.reqs = (key, excl, tok) :: rest)
    (hother : ∀ h ∈ t0.held, ∀ r ∈ t0.reqs, h.1 ≠ r.1) : t0.next? =
    if t0.admits excl then some ((key, excl, tok), ⟨t0.held ++ [(key, excl)], rest⟩) else none := by
  have hnone : t0.reqs.find? (fun r => t0.held.any fun h => h.1 == r.1) = none := by
    rw [List.find?_eq_none]
    intro r hr h
    obtain ⟨h, hh, heq⟩ := List.any_eq_true.1 h
    exact hother h hh r hr (beq_iff_eq.1 heq)
  unfold Tok.next?
  rw [hnone]
  dsimp only
  rw [hr]

/-- R471: a request of a gang that holds the token is settled at once, and the hold stands. -/
theorem next_holder {r : Nat × Bool × Nat} (hr : t0.reqs = [r]) (hheld : ∃ b, (r.1, b) ∈ t0.held) :
    t0.next? = some (r, { t0 with reqs := [] }) := by
  obtain ⟨b, hb⟩ := hheld
  have hany : (t0.held.any fun h => h.1 == r.1) = true := List.any_eq_true.2 ⟨_, hb, beq_self_eq_true _⟩
  have hfind : [r].find? (fun r => t0.held.any fun h => h.1 == r.1) = some r :=
    List.find?_cons_of_pos (p := fun r : Nat × Bool × Nat => t0.held.any fun h => h.1 == r.1) hany
  unfold Tok.next?
  rw [hr, hfind]
  dsimp only
  rw [List.erase_cons_head]

end

/-! ### Records (R249) -/

section
variable {s : State} {r : Rel}

/-- A token once a gang has given one hold back. -/
def giveBack (gang : Nat) (t : Tok) : Tok := { t with held := match t.held.find? fun h => h.1 == gang with
  | some h => t.held.erase h
  | none => t.held }

/-- One hold of the gang is gone, when it had one. -/
theorem giveBack_count (gang : Nat) (t : Tok) (k : Nat) : ((giveBack gang t).held.map (·.1)).count k =
    (t.held.map (·.1)).count k - if k = gang then 1 else 0 := by
  unfold giveBack
  dsimp only
  cases hf : t.held.find? fun h => h.1 == gang with
  | some h =>
    have hperm := ((List.perm_cons_erase (List.mem_of_find?_eq_some hf)).map (·.1)).count_eq k
    have hkey : h.1 = gang := by simpa using List.find?_some hf
    rw [List.map_cons, List.count_cons, hkey] at hperm
    simp only [beq_iff_eq, eq_comm (a := gang)] at hperm
    dsimp only
    omega
  | none =>
    dsimp only
    split
    case isTrue hk =>
      have hzero : (t.held.map (·.1)).count k = 0 := by
        rw [List.count_eq_zero, hk]
        intro hmem
        obtain ⟨h, hh, hg⟩ := List.mem_map.1 hmem
        exact List.find?_eq_none.1 hf h hh (by simpa using hg)
      rw [hzero]
    case isFalse => rfl

theorem tokenReleaseRecord_spec {id : Nat} (hr : s.rels.find? (fun (x : Rel) => x.id == r.id) = some r) (hk : r.kind = .token id)
    (ht : r.taken = true) (hin : (s.part r.pno).inn = true) (howed : ∀ g, s.gang? r.gang = some g → Tab.at g.owed [] r.tok = []) :
    ∃ t, exec (.tokenReleaseRecord r.id) s = .next t ∧ t = { s with parts := t.parts, gangs := t.gangs, rels := t.rels } ∧
      t.rels = s.rels.filter (fun (x : Rel) => x.id != r.id) ∧
      ∀ t0, Tab.find? (s.part r.pno).tokens id = some t0 → ∃ t1, Tab.find? (t.part r.pno).tokens id = some t1 ∧
        t1.reqs = t0.reqs ∧
        ∀ k, (t1.held.map (·.1)).count k = (t0.held.map (·.1)).count k - if k = r.gang then 1 else 0 := by
  set u := s.updPart r.pno fun p => { p with tokens := Tab.upd p.tokens ⟨[], []⟩ id (giveBack r.gang) } with hu
  have hexec : exec (.tokenReleaseRecord r.id) s = .next { u.dropTok r.gang r.tok with
      rels := s.rels.filter fun (x : Rel) => x.id != r.id } := by
    show execTokenReleaseRecord r.id s = _
    unfold execTokenReleaseRecord
    rw [hr]
    dsimp only
    rw [hk]
    dsimp only
    rw [ht, hin]
    rfl
  have hdrop : u.dropTok r.gang r.tok = u.updGang r.gang fun g => g.tokSub r.tok := dropTok_unowed howed
  obtain ⟨gs, hv⟩ : ∃ gs, u.dropTok r.gang r.tok = { u with gangs := gs } := ⟨_, hdrop.trans (updGang_rest u _ _)⟩
  rw [hv] at hexec
  refine ⟨_, hexec, rfl, rfl, fun t0 h0 => ⟨giveBack r.gang t0, ?_, rfl, giveBack_count r.gang t0⟩⟩
  show Tab.find? (u.part r.pno).tokens id = _
  rw [hu, part_updPart, if_pos rfl, Tab.upd, find_put_same, Tab.at, h0]
  rfl

end

/-- Settles O35: a release's step by its kind, a grant and a record each by its own lemma. -/
theorem releasesAndTokens : Obligations.ReleasesAndTokens := by
  refine ⟨fun s r hr ht hin hgate => ⟨fun id hk => ⟨_, releaseStep_takes hr ht hin hgate, takeRelease_token hk⟩,
      fun k g hk hg htok => ?_, fun core cb n hk => ⟨_, releaseStep_takes hr ht hin hgate, ?_⟩⟩,
    fun s pno id t0 t1 key excl tok g ht hnext hin hg => tokenGrant_spec ht hnext hin hg,
    fun t0 key excl tok rest hr hother => ⟨fun hadm => ?_, fun hadm => ?_⟩, fun t0 r hr hheld => next_holder hr hheld,
    fun s r id hr hk ht hin howed => tokenReleaseRecord_spec hr hk ht hin howed⟩
  · obtain ⟨hmem, hrels, g', hg', hrest, hcount⟩ := takeRelease_barrier hk hg htok
    exact ⟨_, g', releaseStep_takes hr ht hin hgate, hg', hrest, hcount, hmem, hrels⟩
  · rcases hk with hk | hk
    · have hslot := takeRelease_slot (s := s) (r := r) (core := core) (cb := cb) (n := n) (f := fun b => b.commitSlot n)
        (by unfold State.takeRelease; rw [hk]; rfl)
      have hf : (fun b : CBuf => if r.kind = .commit core cb n then b.commitSlot n else b.freeSlot n) = fun b => b.commitSlot n :=
        funext fun b => if_pos hk
      rwa [hf]
    · have hslot := takeRelease_slot (s := s) (r := r) (core := core) (cb := cb) (n := n) (f := fun b => b.freeSlot n)
        (by unfold State.takeRelease; rw [hk]; rfl)
      have hf : (fun b : CBuf => if r.kind = .commit core cb n then b.commitSlot n else b.freeSlot n) = fun b => b.freeSlot n :=
        funext fun b => if_neg (by rw [hk]; exact RelKind.noConfusion)
      rwa [hf]
  · rw [next_oldest hr hother, if_pos ((admits_iff t0 excl).2 hadm)]
  · rw [next_oldest hr hother, if_neg fun h => hadm ((admits_iff t0 excl).1 h)]

end Sys2Proof.Laws
end

section
/-! SUPPORT. Atomics and fences as they perform (R244-R247, R250, R266, R267, R473). -/

namespace Sys2Proof.Laws

open Sys2Proof Sys2Proof.Machine

/-! ### An entry that has performed leaves memory alone -/

section
variable {s t u : State} {key tok : Nat}

/-- No byte of memory, no write in flight, no poison and no request of an atomic has changed. -/
structure MemStands (s t : State) : Prop where
  mem : t.mem = s.mem
  atoms : t.atoms = s.atoms
  log : t.log = s.log
  poison : t.poison = s.poison

theorem memStands_refl (s : State) : MemStands s s := ⟨rfl, rfl, rfl, rfl⟩

theorem MemStands.trans (h : MemStands s t) (h' : MemStands t u) : MemStands s u :=
  ⟨h'.mem.trans h.mem, h'.atoms.trans h.atoms, h'.log.trans h.log, h'.poison.trans h.poison⟩

theorem memStands_gangs (h : t = { s with gangs := t.gangs }) : MemStands s t := by
  rw [h]
  exact ⟨rfl, rfl, rfl, rfl⟩

theorem memStands_updGang (s : State) (k : Nat) (f : Gang → Gang) : MemStands s (s.updGang k f) :=
  memStands_gangs (updGang_rest s k f)

theorem memStands_defer (s : State) (key : Nat) (d : Deferred) : MemStands s (s.defer key d) := by
  unfold State.defer
  split
  · exact memStands_refl s
  · split
    · exact memStands_refl s
    · split
      · exact ⟨updLaunch_mem .., updLaunch_atoms .., updLaunch_log .., updLaunch_poison ..⟩
      · exact memStands_gangs rfl

/-- No gang owes an acquire. -/
def Unowed (s : State) : Prop := ∀ k g, s.gang? k = some g → g.owed = []

theorem unowed_of_all (h : ∀ kg ∈ s.gangs, kg.2.owed = []) : Unowed s := by
  have hfind : ∀ (L : Tab Gang) (k : Nat) (g : Gang), Tab.find? L k = some g → (k, g) ∈ L := fun L k g hg => by
    induction L with
    | nil => cases hg
    | cons e L ih =>
      obtain ⟨j, v⟩ := e
      rw [find_cons] at hg
      split at hg
      · subst j; cases hg; exact List.mem_cons_self
      · exact List.mem_cons_of_mem _ (ih hg)
  exact fun k g hg => h (k, g) (hfind _ _ _ hg)

theorem unowed_updGang (h : Unowed s) (k : Nat) {f : Gang → Gang} (hf : ∀ g, (f g).owed = g.owed) : Unowed (s.updGang k f) := by
  intro j g hg
  rw [gang_updGang] at hg
  split at hg
  · obtain ⟨g0, hg0, rfl⟩ := Option.map_eq_some_iff.1 hg
    rw [hf, h j g0 hg0]
  · exact h j g hg

theorem tokSub_owed (g : Gang) (t : Nat) : (g.tokSub t).owed = g.owed := by rw [tokSub_rest]

theorem land_owed (g : Gang) (tick id : Nat) (outs : List Out) : (g.land tick id outs).owed = g.owed := by
  unfold Gang.land
  rw [flush_rest]

theorem dropTok_of_unowed (h : Unowed s) (key tok : Nat) : s.dropTok key tok = s.updGang key fun g => g.tokSub tok :=
  dropTok_unowed fun g hg => by rw [h key g hg]; rfl

/-- Nothing is to be acquired: no write is stamped, or no gang owes an acquire. -/
def NoAcquire (s : State) : Prop := Unwritten s ∨ Unowed s

theorem NoAcquire.dropTok (h : NoAcquire s) (key tok : Nat) : MemStands s (s.dropTok key tok) := by
  rcases h with h | h
  · exact memStands_gangs ((gangStep_dropTok key tok).rest h)
  · rw [dropTok_of_unowed h]
    exact memStands_updGang _ _ _

theorem Unowed.land (h : Unowed s) (key id : Nat) (outs : List Out) : MemStands s (s.land key id outs) := by
  have hfold : ∀ (T : List (Nat × Gang)) (u : State), Unowed u → MemStands u (T.foldl (fun s kg =>
      match kg.2.pend.find? (fun p => p.id == id) with
      | some p => (s.updGang kg.1 fun g => g.land s.tick id outs).dropTok kg.1 p.tok
      | none => s) u) := by
    intro T
    induction T with
    | nil => exact fun u _ => memStands_refl u
    | cons kg T ih =>
      intro u hu
      rw [List.foldl_cons]
      cases kg.2.pend.find? (fun p => p.id == id) with
      | none => exact ih u hu
      | some p =>
        have hl := unowed_updGang hu kg.1 (f := fun g => g.land u.tick id outs) fun g => land_owed g _ _ _
        dsimp only
        rw [dropTok_of_unowed hl]
        exact ((memStands_updGang _ _ _).trans (memStands_updGang _ _ _)).trans
          (ih _ (unowed_updGang hl kg.1 fun g => tokSub_owed g p.tok))
  exact hfold (s.team key) s h

theorem NoAcquire.land (h : NoAcquire s) (key id : Nat) (outs : List Out) : MemStands s (s.land key id outs) := by
  rcases h with h | h
  · exact memStands_gangs ((gangStep_land key id outs).rest h)
  · exact h.land key id outs

/-- What is left to do once an entry has performed touches no memory. -/
theorem finishEntry_stands (h : NoAcquire s) (key : Nat) (e : Entry) : MemStands s (s.finishEntry key e) := by
  have hdone : MemStands s (if e.pend = 0 then s.dropTok key e.tok else s.land key e.pend e.outs) := by
    split
    · exact h.dropTok key e.tok
    · exact h.land key e.pend e.outs
  unfold State.finishEntry
  dsimp only
  split
  · exact hdone
  · exact hdone.trans (memStands_defer _ _ _)

theorem noAcquire_updGang (h : NoAcquire s) (k : Nat) {f : Gang → Gang} (hf : ∀ g, (f g).owed = g.owed) :
    NoAcquire (s.updGang k f) :=
  h.imp (fun hw => by unfold Unwritten; rw [updGang_bufs]; exact hw) fun ho => unowed_updGang ho k hf

end

/-! ### One lane of an atomic (R244, R245) -/

section
variable {s : State} {r : AtomReq} {g : Gang} {st : Nat} {e : Entry} {op : AtomOp} {sz : Size} {vs : VNum} {m : MemRef}
  {stn : BitVec 4} {tok : BitVec 3} {mk : MNum}

theorem readError_none (s : State) (p : Piece) : s.readError .none p = s := by
  unfold State.readError State.softError
  cases p.cells <;> rfl

theorem chargePiece_plain (s : State) (l : Nat) {p : Piece} (hc : p.cls = .plain) (ht : p.tagCls = .plain) (rest : List Piece) :
    s.chargePiece l p rest = s := by
  unfold State.chargePiece State.chargeSector
  rw [hc, ht]

theorem poisoned_none (h : s.poison = []) (cells : List Nat) : s.poisoned cells = false := by
  rw [State.poisoned, h]; rfl

theorem isFp_eq (sz : Size) : sz.isFp = (sizeCls? sz).isSome := by cases sz <;> rfl

/-- The value that an integer atomic leaves, from the old bytes and its lane's operands (R245). -/
def atomLeaves (e : Entry) (op : AtomOp) (sz : Size) (r : AtomReq) (old : List Byte) : Nat :=
  atomInt op (8 * sizeBytes sz) (leNat old) (leNat ((imgBytes (Tab.at e.vals [] r.piece.lane)).take (sizeBytes sz)))
    (leNat (((imgBytes (Tab.at e.vals [] r.piece.lane)).drop (sizeBytes sz)).take (sizeBytes sz)))

/-- An integer atomic in plain memory without poison: the new bytes stand at its addresses, and nothing else changes. -/
theorem performLane_plain (hp : s.poison = []) (hi : e.instr = .atom op sz vs m stn tok mk) (hsz : sizeCls? sz = none)
    (hc : r.piece.cls = .plain) (htc : r.piece.tagCells = []) (ht : r.piece.tagCls = .plain) : ∃ e',
    s.performLane r g st e .none = ({ s with mem := Memory.sets s.mem (List.zip r.piece.cells (leBytes (sizeBytes sz)
      (atomLeaves e op sz r (r.old.getD (r.piece.cells.map (Memory.get s.mem)))))) }, e') := by
  have hgood : (s.poisoned r.piece.cells || readFailed .none r.piece || s.tsoDown r.piece) = false := by
    unfold readFailed linkFailed hostFailed State.tsoDown
    rw [poisoned_none hp, hc]
    simp
  have hfp : (atomSize e.instr).isFp = false := by rw [hi]; exact (isFp_eq sz).trans (by rw [hsz]; rfl)
  have hnewest : s.newestByte (r.home / 16) .plain = Memory.get s.mem := rfl
  have hresult : ∀ old, atomResult e.instr e r.piece.lane old [] = (leBytes (sizeBytes sz) (atomLeaves e op sz r old), []) :=
    fun old => by
      unfold atomResult
      rw [hi]
      dsimp only
      rw [hsz]
      rfl
  unfold State.performLane
  dsimp only
  rw [readError_none, hgood, hfp]
  simp only [Bool.false_and, Bool.or_self, Bool.false_eq_true, if_false]
  rw [hresult, hc, hnewest]
  dsimp only
  unfold State.atomicPut
  rw [htc, hc, ht]
  simp only [List.zip_nil_left, List.isEmpty_nil, Bool.true_or, if_true, List.append_nil]
  rw [chargePiece_plain _ _ hc ht]
  exact ⟨_, rfl⟩

end

/-! ### The oldest request of a home (R244, R247) -/

section
variable {s : State} {pno cluster st : Nat} {r : AtomReq} {g : Gang} {e : Entry}

/-- A request on memory that is not shared with the host's stores does as its place in R247 says. -/
theorem performAtomic_eq (hr : s.nextAtom pno cluster = some r) (hg : s.gang? r.gang = some g)
    (he : g.entry? r.entry = some (st, e)) (hc : r.piece.cls = .plain) :
    exec (.atomicPerform pno cluster) s = .next (
      if s.atomHolds r.piece.cells (some r) then s
      else if (decide (r.piece.space = 1) && !isAtomicOp e.instr) && r.old.isNone then
        { s with atoms := s.atoms.map fun x =>
          if x = r then { r with old := some (r.piece.cells.map (Memory.get s.mem)) } else x }
      else
        let out := ({ s with atoms := s.atoms.erase r } : State).performLane r g st
          { e with todo := e.todo.filter (fun x => x != r.piece) } .none
        let t := out.1.updGang r.gang fun g => g.setStream st ((g.stream st).map fun (x : Entry) => if x.id = out.2.id then out.2 else x)
        if out.2.todo.isEmpty then
          (t.updGang r.gang fun g => g.setStream st ((g.stream st).filter fun (x : Entry) => x.id != out.2.id)).finishEntry r.gang out.2
        else t) := by
  have hdown : s.tsoDown r.piece = false := by unfold State.tsoDown; rw [hc]
  have herr : (if r.old.isSome = true then SoftErr.none else SoftErr.none) = SoftErr.none := ite_self _
  have hhost : hostFailed .none r.piece = false := by unfold hostFailed; simp
  have hnewest : s.newestByte (cluster / 16) .plain = Memory.get s.mem := rfl
  show Host.Outcome.next (s.performAtomic pno cluster .none) = _
  unfold State.performAtomic
  rw [hr]
  dsimp only
  rw [hg]
  dsimp only
  rw [he]
  dsimp only
  rw [hc]
  dsimp only
  rw [herr, hdown, hhost, hnewest, Bool.not_false, Bool.and_true, Bool.and_true]

/-- R245: an integer atomic in plain memory: its bytes become the operation's result, and its request leaves. -/
theorem atomicPerform_plain {op : AtomOp} {sz : Size} {vs : VNum} {m : MemRef} {stn : BitVec 4} {tok : BitVec 3} {mk : MNum}
    (hp : s.poison = []) (hr : s.nextAtom pno cluster = some r) (hg : s.gang? r.gang = some g)
    (he : g.entry? r.entry = some (st, e)) (hi : e.instr = .atom op sz vs m stn tok mk) (hsz : sizeCls? sz = none)
    (hc : r.piece.cls = .plain) (htc : r.piece.tagCells = []) (ht : r.piece.tagCls = .plain) (hacq : NoAcquire s)
    (hfree : s.atomHolds r.piece.cells (some r) = false)
    (hone : r.piece.space = 1 → isAtomicOp e.instr = true ∨ r.old ≠ none) : ∃ t,
    exec (.atomicPerform pno cluster) s = .next t ∧ t.mem = Memory.sets s.mem (List.zip r.piece.cells (leBytes (sizeBytes sz)
      (atomLeaves e op sz r (r.old.getD (r.piece.cells.map (Memory.get s.mem)))))) ∧
      t.atoms = s.atoms.erase r ∧ t.log = s.log ∧ t.poison = s.poison := by
  have hwrites : (decide (r.piece.space = 1) && !isAtomicOp e.instr && r.old.isNone) = false := by
    by_cases hsp : r.piece.space = 1
    · rcases hone hsp with h | h
      · rw [h]; simp
      · rw [Bool.eq_false_iff.2 fun hn => h (Option.isNone_iff_eq_none.1 hn)]; simp
    · simp [hsp]
  obtain ⟨e', hlane⟩ := performLane_plain (s := { s with atoms := s.atoms.erase r }) (g := g) (st := st)
    (e := { e with todo := e.todo.filter (fun x => x != r.piece) }) hp hi hsz hc htc ht
  refine ⟨_, performAtomic_eq hr hg he hc, ?_⟩
  rw [hfree, hwrites, if_neg Bool.false_ne_true, if_neg Bool.false_ne_true, hlane]
  dsimp only
  set v : State := { s with
    atoms := s.atoms.erase r
    mem := Memory.sets s.mem (List.zip r.piece.cells (leBytes (sizeBytes sz)
      (atomLeaves e op sz r (r.old.getD (r.piece.cells.map (Memory.get s.mem)))))) } with hv
  have hvacq : NoAcquire v := hacq
  have hset : ∀ (es : Gang → List Entry) (g : Gang), (g.setStream st (es g)).owed = g.owed := fun _ _ => rfl
  set v1 := v.updGang r.gang fun g => g.setStream st ((g.stream st).map fun (x : Entry) => if x.id = e'.id then e' else x) with hv1
  have hstands : MemStands v (if e'.todo.isEmpty then
      (v1.updGang r.gang fun g => g.setStream st ((g.stream st).filter fun (x : Entry) => x.id != e'.id)).finishEntry r.gang e'
      else v1) := by
    have hfirst : MemStands v v1 := memStands_updGang _ _ _
    have hacq1 : NoAcquire v1 := noAcquire_updGang hvacq _ (hset _)
    split
    · exact (hfirst.trans (memStands_updGang _ _ _)).trans (finishEntry_stands (noAcquire_updGang hacq1 _ (hset _)) _ _)
    · exact hfirst
  exact ⟨hstands.mem, hstands.atoms, hstands.log, hstands.poison⟩

end

/-! ### Requests sent (R266, R473) -/

section
variable {s : State} {core ctx st key : Nat} {g : Gang} {e : Entry} {rest : List Entry}

theorem atomicSend_spec (hkey : s.keyOf core ctx = some key) (hg : s.gang? key = some g) (hst : g.stream st = e :: rest)
    (htodo : e.todo ≠ []) (hatom : isAtomic e.instr = true) (hsent : e.sent = false) (hgate : g.gated e = false)
    (hcls : ∀ p ∈ e.todo, ∀ link, p.cls ≠ .tso link) (hlock : s.conflicts (s.partOf g) e = []) :
    ∃ t g', exec (.atomicSend core ctx st) s = .next t ∧ t = { s with gangs := t.gangs, atoms := t.atoms } ∧
      t.atoms = s.atoms ++ e.todo.map (fun p => ⟨key, e.id, p.lane, p, s.homeOf (s.partOf g) p.space (p.cells.headD 0), none⟩) ∧
      t.gang? key = some g' ∧ g'.stream st = { e with sent := true, checked := true } :: rest := by
  have hplain : ∀ f : Piece → Bool, (∀ p, (∀ link, p.cls ≠ .tso link) → f p = false) → e.todo.any f = false :=
    fun f hf => List.any_eq_false.2 fun p hp => by rw [hf p (hcls p hp)]; exact Bool.false_ne_true
  have hexec : exec (.atomicSend core ctx st) s = .next { s.updGang key (fun g => g.updHead st fun e =>
        { e with sent := true, checked := true }) with
      atoms := s.atoms ++ e.todo.map (fun (p : Piece) =>
        (⟨key, e.id, p.lane, p, s.homeOf (s.partOf g) p.space (p.cells.headD 0), none⟩ : AtomReq)) } := by
    show Host.Outcome.next (s.sendAtomic core ctx st) = _
    unfold State.sendAtomic
    rw [hkey]
    dsimp only
    rw [hg]
    dsimp only
    rw [hst]
    dsimp only
    rw [hatom, hsent, hgate, hplain, hlock, List.isEmpty_eq_false_iff.2 htodo]
    · rfl
    · intro p hp
      cases hc : p.cls with
      | tso link => exact absurd hc (hp link)
      | dev _ _ => rfl
      | plain => rfl
  have hrest := updGang_rest s key fun g => g.updHead st fun e => { e with sent := true, checked := true }
  refine ⟨_, g.updHead st fun e => { e with sent := true, checked := true }, hexec, ?_, rfl, ?_, ?_⟩
  · exact congrArg (fun t : State => { t with atoms := s.atoms ++ e.todo.map (fun (p : Piece) =>
      (⟨key, e.id, p.lane, p, s.homeOf (s.partOf g) p.space (p.cells.headD 0), none⟩ : AtomReq)) }) hrest
  · refine (gang_updGang s key key _).trans ?_
    rw [if_pos rfl, hg, Option.map_some]
  · rw [Gang.updHead, hst]
    exact (at_setStream g st (List.cons_ne_nil _ _) st).trans (if_pos rfl)

end

/-! ### Fences (R250, R267) -/

section
variable {s : State} {core ctx st key : Nat} {g : Gang} {e : Entry} {rest : List Entry}

/-- Heads that leave some streams, each once. -/
theorem popHeads_spec (g : Gang) {sts : List Nat} (hn : sts.Nodup) (h : Tab.rising g.streams = true) :
    let g' := sts.foldl (fun g t => g.popHead t) g
    g' = { g with streams := g'.streams } ∧ ∀ n, g'.stream n = if n ∈ sts then (g.stream n).drop 1 else g.stream n := by
  induction sts generalizing g with
  | nil => exact ⟨rfl, fun _ => by simp⟩
  | cons a sts ih =>
    rw [List.nodup_cons] at hn
    obtain ⟨hrest, hstreams⟩ := ih (g.popHead a) hn.2 (rising_setStream h _ _)
    refine ⟨hrest, fun n => ?_⟩
    rw [List.foldl_cons, hstreams, Gang.popHead, stream_setStream h]
    by_cases ha : a = n
    · subst ha; simp [hn.1]
    · simp [ha, Ne.symm ha]

theorem mem_fenceSet (k : FenceKind) (m : BitVec 16) (n : Nat) :
    n ∈ (fenceSet k m).1 ↔ n < 16 ∧ (k = .s → m.getLsbD n = true) := by
  cases k <;> simp [fenceSet]

theorem fenceSet_nodup (k : FenceKind) (m : BitVec 16) : (fenceSet k m).1.Nodup := by
  cases k
  · exact List.nodup_range.filter _
  · exact List.nodup_range
  · exact List.nodup_range

theorem fencePerform_spec {k : FenceKind} {m : BitVec 16} (hkey : s.keyOf core ctx = some key) (hg : s.gang? key = some g)
    (hst : g.stream st = e :: rest) (hi : e.instr = .fence k m) (hgate : g.gated e = false) (hrising : Tab.rising g.streams = true)
    (hheads : ∀ n, n < 16 → (k = .s → m.getLsbD n = true) → ((g.stream n).head?.map (·.id)) = some e.id)
    (hdrained : k ≠ .s → s.hasUndrained key none = false) :
    ∃ t g', exec (.fencePerform core ctx st) s = .next t ∧ t = { s with gangs := t.gangs } ∧ t.gang? key = some g' ∧
      g' = { g with streams := g'.streams } ∧ ∀ n, g'.stream n =
        if n < 16 ∧ (k = .s → m.getLsbD n = true) then (g.stream n).drop 1 else g.stream n := by
  have hall : ((fenceSet k m).1.all fun t => ((g.stream t).head?.map fun (x : Entry) => x.id) == some e.id) = true := by
    rw [List.all_eq_true]
    intro n hn
    obtain ⟨hn, hm⟩ := (mem_fenceSet k m n).1 hn
    exact beq_iff_eq.2 (hheads n hn hm)
  have hdrain : ((fenceSet k m).2 && s.hasUndrained key none) = false := by
    cases k with
    | s => rfl
    | w => exact hdrained FenceKind.noConfusion
    | all => exact hdrained FenceKind.noConfusion
  have hexec : exec (.fencePerform core ctx st) s = .next (s.updGang key fun g => (fenceSet k m).1.foldl (fun g t => g.popHead t) g) := by
    show Host.Outcome.next (s.performFence core ctx st) = _
    unfold State.performFence
    rw [hkey]
    dsimp only
    rw [hg]
    dsimp only
    rw [hst]
    dsimp only
    rw [hi]
    dsimp only
    rw [hgate, hall, hdrain]
    rfl
  obtain ⟨hrest, hstreams⟩ := popHeads_spec g (fenceSet_nodup k m) hrising
  refine ⟨_, (fenceSet k m).1.foldl (fun g t => g.popHead t) g, hexec, updGang_rest _ _ _, ?_, hrest, fun n => ?_⟩
  · rw [gang_updGang, if_pos rfl, hg, Option.map_some]
  · rw [hstreams]
    simp only [mem_fenceSet]

end

/-- R247: the AtomicOps of PCI Express. -/
theorem isAtomicOp_iff (op : AtomOp) (sz : Size) (vs : VNum) (m : MemRef) (stn : BitVec 4) (tok : BitVec 3) (mk : MNum) :
    isAtomicOp (.atom op sz vs m stn tok mk) = true ↔ (op = .add ∨ op = .swap ∨ op = .cas) ∧ (sz = .w32 ∨ sz = .w64) := by
  simp only [isAtomicOp, Bool.and_eq_true, Bool.or_eq_true, beq_iff_eq, or_assoc]

/-- Settles O34: a request's step by `performAtomic_eq`, its value by `atomicPerform_plain`. -/
theorem atomicsPerform : Obligations.AtomicsPerform := by
  refine ⟨fun s core ctx st key g e rest hkey hg hst htodo hatom hsent hgate hcls hlock =>
      atomicSend_spec hkey hg hst htodo hatom hsent hgate hcls hlock, ?_,
    fun s pno cluster r g st e hr hg he hc hsp hop hold hfree => ?_, fun s pno cluster r g st e hr hg he hc hheld => ?_,
    isAtomicOp_iff, fun s core ctx st key g e rest k m hkey hg hst hi hgate hrising hheads hdrained =>
      fencePerform_spec hkey hg hst hi hgate hrising hheads hdrained⟩
  · intro s pno cluster r g st e op sz vs m stn tok mk _ hp hr hg he hi hsz hc htc ht hacq hfree hone
    have hacq' : NoAcquire s := hacq.imp unwritten_of_nil unowed_of_all
    have h := atomicPerform_plain hp hr hg he hi hsz hc htc ht hacq' hfree hone
    cases op <;> exact h
  · rw [performAtomic_eq hr hg he hc, hfree, hsp, hop, hold]
    rfl
  · rw [performAtomic_eq hr hg he hc, hheld]
    rfl

end Sys2Proof.Laws
end

section
/-! SUPPORT. Data in memory (R236, R237, R239, R240): bytes and numbers, codes that load exactly, and tags verbatim. -/

namespace Sys2Proof.Laws

open Sys2Proof Sys2Proof.Machine

/-! ### Bytes of a number (R5) -/

theorem leBytes_succ (n v : Nat) : leBytes (n + 1) v = BitVec.ofNat 8 v :: leBytes n (v / 256) := by
  rw [leBytes, List.range_succ_eq_map, List.map_cons, List.map_map, pow_zero, Nat.div_one]
  refine congrArg _ (List.map_congr_left fun i _ => ?_)
  show BitVec.ofNat 8 (v / 256 ^ (i + 1)) = BitVec.ofNat 8 (v / 256 / 256 ^ i)
  rw [Nat.div_div_eq_div_mul, ← pow_succ']

theorem leNat_leBytes (n v : Nat) : leNat (leBytes n v) = v % 256 ^ n := by
  induction n generalizing v with
  | zero => rw [pow_zero, Nat.mod_one]; rfl
  | succ n ih =>
    rw [leBytes_succ, leNat, ih, BitVec.toNat_ofNat, pow_succ (256 : Nat), Nat.mul_comm (256 ^ n)]
    exact Nat.mod_mul.symm

theorem leNat_leBytes_of_lt {n v : Nat} (h : v < 256 ^ n) : leNat (leBytes n v) = v := by
  rw [leNat_leBytes, Nat.mod_eq_of_lt h]

theorem leNat_append (xs ys : List Byte) : leNat (xs ++ ys) = leNat xs + 256 ^ xs.length * leNat ys := by
  induction xs with
  | nil => simp [leNat]
  | cons b xs ih =>
    rw [List.cons_append, leNat, ih, leNat, List.length_cons, pow_succ']
    ring

/-- The value bits of one image, and of two, as a number. -/
theorem leNat_imgBytes_one (x : Img) : leNat (imgBytes [x]) = x.val.toNat := by
  rw [imgBytes, List.flatMap_cons, List.flatMap_nil, List.append_nil]
  exact leNat_leBytes_of_lt x.val.isLt

theorem leNat_imgBytes_two (x y : Img) : leNat (imgBytes [x, y]) = x.val.toNat + 2 ^ 32 * y.val.toNat := by
  have hlen : (leBytes 4 x.val.toNat).length = 4 := by simp [leBytes]
  have hy : imgBytes [x, y] = leBytes 4 x.val.toNat ++ imgBytes [y] := rfl
  rw [hy, leNat_append, hlen, leNat_imgBytes_one, leNat_leBytes_of_lt x.val.isLt]
  rfl

/-! ### Integers loaded (R236) -/

theorem toSigned_mod (w n : Nat) : toSigned w n = (BitVec.ofNat w n).toInt := by
  rw [← toSigned_toNat, BitVec.toNat_ofNat, toSigned, toSigned, Nat.mod_mod]
  push_cast
  rw [Int.emod_emod_of_dvd _ dvd_rfl]

theorem intPair_ofNat (n : Nat) : pairImgs (intPair (BitVec.ofNat 64 n)) =
    [⟨BitVec.ofNat 32 n, 0x1F#8⟩, ⟨BitVec.ofNat 32 (n / 2 ^ 32), 0x01#8⟩] := by
  have hlow : (BitVec.ofNat 64 n).extractLsb' 0 32 = BitVec.ofNat 32 n := BitVec.eq_of_toNat_eq (by simp)
  have hhigh : (BitVec.ofNat 64 n).extractLsb' 32 32 = BitVec.ofNat 32 (n / 2 ^ 32) :=
    BitVec.eq_of_toNat_eq (by simp [Nat.shiftRight_eq_div_pow]; omega)
  rw [intPair, hlow, hhigh]
  rfl

/-! ### Codes that stand for numbers (R168) -/

section
variable {c : FpCls} {m : Nat} {e : Int}

/-- A nonzero magnitude in the units that a format holds it in. -/
structure Held (c : FpCls) (m : Nat) (e : Int) : Prop where
  pos : 0 < m
  unit : e = max (leadExp m e) (fmtOf c).emin - (fmtOf c).frac
  bound : leadExp m e ≤ (fmtOf c).emax

/-- What a code can stand for. -/
inductive Stands (c : FpCls) : Fp → Prop where
  | inf (n : Bool) : Stands c (.inf n)
  | zero (n : Bool) : Stands c (.fin n 0 ((fmtOf c).emin - (fmtOf c).frac))
  | num (n : Bool) {m : Nat} {e : Int} (h : Held c m e) : Stands c (.fin n m e)

/-- The bias and the ends of the exponent field. -/
theorem fmtOf_ends (c : FpCls) : (fmtOf c).emin = 1 - (fmtOf c).bias ∧ (precP c : Int) = (fmtOf c).frac + 3 ∧
    (fmtOf c).emax = (2 ^ ((fmtOf c).bits - 1 - (fmtOf c).frac) : Nat) - (if (fmtOf c).hasInf then 2 else 1) - (fmtOf c).bias := by
  cases c <;> decide

/-- A finite value of an exponent field and a fraction is in its format's units. -/
theorem stands_finite {ex fr : Nat} (hfr : fr < 2 ^ (fmtOf c).frac) (n : Bool)
    (hex : (ex : Int) - (fmtOf c).bias ≤ (fmtOf c).emax) :
    Stands c (if ex = 0 then .fin n fr ((fmtOf c).emin - (fmtOf c).frac)
      else .fin n (fr + 2 ^ (fmtOf c).frac) ((ex : Int) - (fmtOf c).bias - (fmtOf c).frac)) := by
  obtain ⟨hemin, -, -⟩ := fmtOf_ends c
  by_cases h0 : ex = 0
  · rw [if_pos h0]
    by_cases hz : fr = 0
    · rw [hz]; exact .zero n
    · have hlog : fr.log2 < (fmtOf c).frac := (Nat.log2_lt hz).2 hfr
      have hle : (fmtOf c).emin ≤ (fmtOf c).emax := by cases c <;> decide
      refine .num n ⟨Nat.pos_of_ne_zero hz, ?_, ?_⟩ <;> unfold leadExp <;> omega
  · rw [if_neg h0]
    have hlog : (fr + 2 ^ (fmtOf c).frac).log2 = (fmtOf c).frac :=
      (Nat.log2_eq_iff (by positivity)).2 ⟨Nat.le_add_left _ _, by rw [pow_succ]; omega⟩
    refine .num n ⟨by positivity, ?_, ?_⟩ <;> unfold leadExp <;> rw [hlog] <;> omega

/-- A code that is no NaN stands for an infinity, a zero or a number in the format's units. -/
theorem decodeFp_stands {code : Nat} (h : decodeFp c code ≠ .nan) : Stands c (decodeFp c code) := by
  rw [decodeFp_fields] at h ⊢
  obtain ⟨-, -, hemax⟩ := fmtOf_ends c
  have hex := Nat.mod_lt (code / 2 ^ (fmtOf c).frac) (Nat.two_pow_pos ((fmtOf c).bits - 1 - (fmtOf c).frac))
  have hfr := Nat.mod_lt code (Nat.two_pow_pos (fmtOf c).frac)
  generalize code / 2 ^ (fmtOf c).frac % 2 ^ ((fmtOf c).bits - 1 - (fmtOf c).frac) = ex at *
  generalize code % 2 ^ (fmtOf c).frac = fr at *
  generalize (code / 2 ^ ((fmtOf c).bits - 1) % 2 == 1) = n at *
  unfold fpOfFields at h ⊢
  dsimp only at h ⊢
  split
  case isTrue htop =>
    rw [if_pos htop] at h
    split
    · exact .inf n
    · rename_i hz; rw [if_neg hz] at h; exact absurd rfl h
  case isFalse htop =>
    rw [if_neg htop] at h
    split
    case isTrue hnan => rw [if_pos hnan] at h; exact absurd rfl h
    case isFalse =>
      have hbound : (ex : Int) - (fmtOf c).bias ≤ (fmtOf c).emax := by
        rw [hemax]
        split
        case isTrue hinf =>
          have hne : ex ≠ 2 ^ ((fmtOf c).bits - 1 - (fmtOf c).frac) - 1 := fun he => htop (by simp [hinf, he])
          omega
        case isFalse => omega
      have hst := stands_finite hfr n hbound
      simpa only [beq_iff_eq] using hst

/-- A code is made of its own fields. -/
theorem codeOf_fields {code : Nat} (h : code < 2 ^ (fmtOf c).bits) :
    codeOf c (code / 2 ^ ((fmtOf c).bits - 1) % 2 == 1)
      (code / 2 ^ (fmtOf c).frac % 2 ^ ((fmtOf c).bits - 1 - (fmtOf c).frac)) (code % 2 ^ (fmtOf c).frac) = code := by
  obtain ⟨hbits, hsign⟩ := fmtOf_bits c
  rw [hsign, pow_succ] at h
  generalize hw : (fmtOf c).bits - 1 - (fmtOf c).frac = w at *
  have hpow : 2 ^ ((fmtOf c).bits - 1) = 2 ^ (fmtOf c).frac * 2 ^ w := by rw [hbits, pow_add]
  have htop : code / 2 ^ ((fmtOf c).bits - 1) < 2 := Nat.div_lt_of_lt_mul (by omega)
  have hlow := Nat.div_add_mod code (2 ^ (fmtOf c).frac)
  have hmid := Nat.div_add_mod (code / 2 ^ (fmtOf c).frac) (2 ^ w)
  rw [Nat.div_div_eq_div_mul, ← hpow] at hmid
  have hn : (if (code / 2 ^ ((fmtOf c).bits - 1) % 2 == 1) = true then 2 ^ ((fmtOf c).bits - 1) else 0) =
      2 ^ (fmtOf c).frac * (2 ^ w * (code / 2 ^ ((fmtOf c).bits - 1))) := by
    rw [← mul_assoc, ← hpow]
    generalize code / 2 ^ ((fmtOf c).bits - 1) = t at htop
    interval_cases t <;> simp
  rw [codeOf, hn, Nat.mul_comm (_ % 2 ^ w), ← Nat.mul_add, hmid, hlow]

/-- A format with infinities gives each sign, exponent field and fraction a value of its own, but for its NaNs. -/
theorem fpOfFields_inj (hinf : (fmtOf c).hasInf = true) {n n' : Bool} {ex ex' fr fr' : Nat}
    (hex : ex < 2 ^ ((fmtOf c).bits - 1 - (fmtOf c).frac)) (hex' : ex' < 2 ^ ((fmtOf c).bits - 1 - (fmtOf c).frac))
    (hfr : fr < 2 ^ (fmtOf c).frac) (hfr' : fr' < 2 ^ (fmtOf c).frac) (hnan : fpOfFields c n ex fr ≠ .nan)
    (h : fpOfFields c n ex fr = fpOfFields c n' ex' fr') : n = n' ∧ ex = ex' ∧ fr = fr' := by
  have htop : ∀ n fr, fpOfFields c n (2 ^ ((fmtOf c).bits - 1 - (fmtOf c).frac) - 1) fr = if fr = 0 then .inf n else .nan :=
    fun n fr => by simp [fpOfFields, hinf]
  by_cases ht : ex = 2 ^ ((fmtOf c).bits - 1 - (fmtOf c).frac) - 1 <;>
    by_cases ht' : ex' = 2 ^ ((fmtOf c).bits - 1 - (fmtOf c).frac) - 1
  · rw [ht, htop] at h hnan
    rw [ht', htop] at h
    have hz : fr = 0 := by by_contra hz; exact hnan (if_neg hz)
    rw [if_pos hz] at h
    by_cases hz' : fr' = 0
    · rw [if_pos hz'] at h
      cases h
      exact ⟨rfl, ht.trans ht'.symm, hz.trans hz'.symm⟩
    · rw [if_neg hz'] at h; cases h
  · rw [ht, htop] at h hnan
    have hz : fr = 0 := by by_contra hz; exact hnan (if_neg hz)
    rw [if_pos hz, fpOfFields_finite (by omega)] at h
    split at h <;> cases h
  · rw [ht', htop, fpOfFields_finite (by omega)] at h
    split at h <;> split at h <;> cases h
  · rw [fpOfFields_finite (by omega), fpOfFields_finite (by omega)] at h
    split at h
    case isTrue h0 =>
      split at h
      case isTrue h0' => exact ⟨(Fp.fin.inj h).1, h0.trans h0'.symm, (Fp.fin.inj h).2.1⟩
      case isFalse => exact absurd (Fp.fin.inj h).2.1 (by omega)
    case isFalse =>
      split at h
      case isTrue => exact absurd (Fp.fin.inj h).2.1 (by omega)
      case isFalse =>
        obtain ⟨hn, hm, he⟩ := Fp.fin.inj h
        exact ⟨hn, by omega, by omega⟩

theorem decodeFp_inj (hinf : (fmtOf c).hasInf = true) {a b : Nat} (ha : a < 2 ^ (fmtOf c).bits) (hb : b < 2 ^ (fmtOf c).bits)
    (hnan : decodeFp c a ≠ .nan) (h : decodeFp c a = decodeFp c b) : a = b := by
  rw [decodeFp_fields] at h hnan
  rw [decodeFp_fields] at h
  obtain ⟨hn, hex, hfr⟩ := fpOfFields_inj hinf (Nat.mod_lt _ (Nat.two_pow_pos _)) (Nat.mod_lt _ (Nat.two_pow_pos _))
    (Nat.mod_lt _ (Nat.two_pow_pos _)) (Nat.mod_lt _ (Nat.two_pow_pos _)) hnan h
  rw [← codeOf_fields ha, ← codeOf_fields hb, hn, hex, hfr]

end

/-! ### Numbers loaded (R236) -/

section
variable {c : FpCls}

/-- Four times a magnitude in units of a quarter. -/
theorem quarters_eq (m : Nat) (e : Int) : ((m * 4 : Nat) : ℚ) * 2 ^ (e - 2) = m * 2 ^ e := by
  rw [zpow_sub₀ (by norm_num)]
  push_cast
  ring

theorem Held.onGrid {m : Nat} {e : Int} (h : Held c m e) : OnGrid c (m * 4) (e - 2) := by
  obtain ⟨hpos, hunit, hbound⟩ := h
  obtain ⟨-, hprec, -⟩ := fmtOf_ends c
  have hlead : leadExp (m * 4) (e - 2) = leadExp m e := leadExp_congr (by omega) hpos (quarters_eq m e)
  exact ⟨by omega, by rw [hlead]; omega, by rw [hlead]; exact hbound⟩

/-- The image of a number in its format's units has G 0. -/
theorem mkImg_held {m : Nat} {e : Int} (h : Held c m e) (n s : Bool) (k : Nat) :
    mkImg c (.fin n m e) s k = packImg c (encodeFp (valueFmt c) (.fin n (m * 4) (e - 2))) 0 s k := by
  obtain ⟨-, hprec, -⟩ := fmtOf_ends c
  have hq : max (leadExp m e) (fmtOf c).emin - precP c + 1 = e - 2 := by have := h.unit; omega
  have hunits : shiftMag m (e - (e - 2)) = m * 4 := by rw [sub_sub_cancel]; rfl
  unfold mkImg packImg
  dsimp only
  rw [if_neg h.pos.ne', hq, hunits, Nat.mul_div_cancel _ (by decide : 0 < 4), Nat.mul_mod_left]

/-- A code that is no NaN loads as an image of its own value, with G 0, S 0 and K the class's precision. -/
theorem loadedImg_packed {code : Nat} (h : decodeFp c code ≠ .nan) : ∃ code', loadedImg c code = packImg c code' 0 false (precP c) ∧
    (decodeFp (valueFmt c) code').rat = (decodeFp c code).rat ∧ (valueFmt c = c → decodeFp c code' = decodeFp c code) := by
  have hload : loadedImg c code = mkImg c (decodeFp c code) false (precP c) := by
    unfold loadedImg
    split
    · exact absurd ‹_› h
    · rfl
  have hst := decodeFp_stands h
  rw [hload]
  generalize decodeFp c code = v at hst
  cases hst with
  | inf n =>
    have hdec : decodeFp (valueFmt c) (encodeFp (valueFmt c) (.inf n)) = .inf n := by cases c <;> cases n <;> decide
    exact ⟨_, rfl, congrArg Fp.rat hdec, fun hc => by rw [hc] at hdec ⊢; exact hdec⟩
  | zero n =>
    have hdec := decodeFp_encodeFp_zero (valueFmt c) n 0
    refine ⟨encodeFp (valueFmt c) (.fin n 0 0), ?_, ?_, fun hc => ?_⟩
    · unfold mkImg packImg
      rfl
    · rw [hdec]; simp [Fp.rat]
    · rw [hc] at hdec ⊢; exact hdec
  | num n hheld =>
    rename_i m e
    refine ⟨_, mkImg_held hheld n false (precP c), ?_, fun hc => ?_⟩
    · have hgrid := hheld.onGrid
      have hquarter : m * 4 / 4 = m := Nat.mul_div_cancel _ (by decide)
      obtain ⟨f, q, hdec, -, hval⟩ := decodeFp_quarters hgrid (by rw [hquarter]; exact hheld.pos.ne') n
      rw [hquarter] at hdec hval
      rw [hdec]
      exact (is_fin_of_eq (n := n) (hval.symm.trans (quarters_eq m e))).1
    · have hlead : leadExp (m * 4) (e - 2) = leadExp m e := leadExp_congr (by have := hheld.pos; omega) hheld.pos (quarters_eq m e)
      have hinf := (valueFmt_holds c).1
      rw [hc] at hinf ⊢
      have hunit := hheld.unit
      rw [decodeFp_encodeFp hinf n (f := m) (by have := hheld.pos; omega) (by rw [hlead]; exact hheld.bound)
        (by rw [hlead, ← hunit]; exact quarters_eq m e), hlead, ← hunit]

theorem withG_zero (c : FpCls) (v : Fp) : withG c 0 v = v := by cases v <;> rfl

/-- R236: a code of a narrow format loads as an image that an F32 word reads as the same value. -/
theorem loadedImg_narrow (hc : c ≠ .f64) {code : Nat} (h : decodeFp c code ≠ .nan) : ∃ v,
    (loadedImg c code).1 = ⟨v, mkTag 0 false (precP c)⟩ ∧
      (imgValue .f32 (⟨v, mkTag 0 false (precP c)⟩, zeroImg)).rat = (decodeFp c code).rat := by
  obtain ⟨code', hload, hrat, -⟩ := loadedImg_packed h
  have hval : valueFmt c = .f32 := by unfold valueFmt; rw [if_neg (by simpa using hc)]
  have hpack : packImg c code' 0 false (precP c) = (⟨BitVec.ofNat 32 code', mkTag 0 false (precP c)⟩, zeroImg) := by
    unfold packImg
    rw [if_neg (by simpa using hc)]
  refine ⟨BitVec.ofNat 32 code', by rw [hload, hpack], ?_⟩
  have hread := imgValue_packImg .f32 code' 0 false (precP c)
  rw [Nat.zero_mod, withG_zero] at hread
  rw [hval] at hrat
  rw [← hrat]
  exact congrArg Fp.rat hread

/-- R236: a code of F32 loads as itself. -/
theorem loadedImg_f32 {w : BitVec 32} (h : decodeFp .f32 w.toNat ≠ .nan) : (loadedImg .f32 w.toNat).1 = ⟨w, 0x1A#8⟩ := by
  obtain ⟨code', hload, -, hsame⟩ := loadedImg_packed h
  have hcode : BitVec.ofNat 32 code' = w := BitVec.eq_of_toNat_eq (by
    rw [BitVec.toNat_ofNat]
    refine (decodeFp_inj (c := .f32) rfl w.isLt (Nat.mod_lt _ (Nat.two_pow_pos _)) h ?_).symm
    exact (hsame rfl).symm.trans (decodeFp_mod .f32 code').symm)
  rw [hload, ← hcode]
  rfl

/-- R236: a code of F64 loads as itself, a pair. -/
theorem loadedImg_f64 {w : BitVec 64} (h : decodeFp .f64 w.toNat ≠ .nan) :
    pairImgs (loadedImg .f64 w.toNat) = [⟨w.extractLsb' 0 32, 0x17#8⟩, ⟨w.extractLsb' 32 32, 0x01#8⟩] := by
  obtain ⟨code', hload, -, hsame⟩ := loadedImg_packed h
  have hcode : BitVec.ofNat 64 code' = w := BitVec.eq_of_toNat_eq (by
    rw [BitVec.toNat_ofNat]
    refine (decodeFp_inj (c := .f64) rfl w.isLt (Nat.mod_lt _ (Nat.two_pow_pos _)) h ?_).symm
    exact (hsame rfl).symm.trans (decodeFp_mod .f64 code').symm)
  rw [hload, ← hcode]
  rfl

/-- R236: a NaN loads as the canonical NaN. -/
theorem loadedImg_nan {code : Nat} (h : decodeFp c code = .nan) : loadedImg c code = mkImg c .nan true 0 := by
  rw [loadedImg, h]

end

/-! ### Words of memory -/

section
variable {sz : Size} {c : FpCls} {k n : Nat}

theorem loadImgs_narrow (hc : c ≠ .f64) (hn : n < 256 ^ k) (hload : ∀ bs, loadImgs sz bs = [(loadedImg c (leNat bs)).1])
    (h : decodeFp c n ≠ .nan) : ∃ v, loadImgs sz (leBytes k n) = [⟨v, mkTag 0 false (precP c)⟩] ∧
      (imgValue .f32 (⟨v, mkTag 0 false (precP c)⟩, zeroImg)).rat = (decodeFp c n).rat := by
  obtain ⟨v, himg, hval⟩ := loadedImg_narrow hc h
  exact ⟨v, by rw [hload, leNat_leBytes_of_lt hn, himg], hval⟩

theorem loadImgs_nan (hn : n < 256 ^ k) (hload : ∀ bs, loadImgs sz bs = [(loadedImg c (leNat bs)).1])
    (h : decodeFp c n = .nan) : loadImgs sz (leBytes k n) = [(mkImg c .nan true 0).1] := by
  rw [hload, leNat_leBytes_of_lt hn, loadedImg_nan h]

end

/-- The bytes of a store round by its size's class (R237). -/
theorem storeBytes_fp {sz : Size} {c : FpCls} (h : sizeCls? sz = some c) (mode : Rnd) (sat : Bool) (a : Img) (rest : List Img) :
    storeBytes sz mode sat (a :: rest) = leBytes (sizeBytes sz) (finalRound c mode sat (imgValue c (a, rest.headD zeroImg))) := by
  unfold storeBytes
  rw [h]
  cases rest <;> rfl

theorem tagImgs_w32 (x : Img) : tagImgs .w32 (imgBytes [x]) [x.tag] =
    [⟨x.val, if 27 ≤ x.tag.toNat % 32 ∧ x.tag.toNat % 32 ≤ 30 then (x.tag &&& 0xE0#8) ||| 26#8 else x.tag⟩] := by
  unfold tagImgs
  dsimp only
  rw [leNat_imgBytes_one, BitVec.ofNat_toNat, BitVec.setWidth_eq]
  simp

theorem tagImgs_w64 {x y : Img} (h : y.tag.toNat < 2) : tagImgs .w64 (imgBytes [x, y]) [x.tag, y.tag] = [x, y] := by
  have hx := x.val.isLt
  have hlow : BitVec.ofNat 32 (x.val.toNat + 2 ^ 32 * y.val.toNat) = x.val := BitVec.eq_of_toNat_eq (by
    rw [BitVec.toNat_ofNat]; omega)
  have hhigh : BitVec.ofNat 32 ((x.val.toNat + 2 ^ 32 * y.val.toNat) / 2 ^ 32) = y.val := BitVec.eq_of_toNat_eq (by
    have hy := y.val.isLt
    rw [BitVec.toNat_ofNat]; omega)
  have htag : y.tag &&& 1#8 = y.tag := BitVec.eq_of_toNat_eq (by
    rw [BitVec.toNat_and]
    exact (Nat.and_one_is_mod _).trans (Nat.mod_eq_of_lt h))
  unfold tagImgs
  dsimp only
  rw [leNat_imgBytes_two, hlow, hhigh]
  simp [htag]

/-- Settles O26: numbers by `loadImgs_narrow`, `loadedImg_f32` and `loadedImg_f64`, tags by `tagImgs_w32` and `tagImgs_w64`. -/
theorem dataInMemory : Obligations.DataInMemory := by
  refine ⟨fun bs => ?_, fun w h => ?_, fun w h => ?_, fun w h => ?_, fun n hn h => loadImgs_narrow (by decide) hn (fun _ => rfl) h,
    fun n hn h => loadImgs_narrow (by decide) hn (fun _ => rfl) h, fun n hn h => loadImgs_narrow (by decide) hn (fun _ => rfl) h,
    fun n hn h => loadImgs_narrow (by decide) hn (fun _ => rfl) h, fun sz c k n hmem hn h => ?_, fun mode sat xs => ?_,
    fun x hk => ?_, fun x hlow hhigh => ?_, fun x y h => tagImgs_w64 h⟩
  · refine ⟨rfl, rfl, rfl, rfl, rfl, ?_, ?_, intPair_ofNat _, ?_⟩
    · show [intImg (BitVec.ofInt 32 (toSigned 8 (leNat bs)))] = _
      rw [toSigned_mod]; rfl
    · show [intImg (BitVec.ofInt 32 (toSigned 16 (leNat bs)))] = _
      rw [toSigned_mod]; rfl
    · show pairImgs (intPair (BitVec.ofNat 64 (leNat bs))) ++ pairImgs (intPair (BitVec.ofNat 64 (leNat bs / 2 ^ 64))) = _
      rw [intPair_ofNat, intPair_ofNat, Nat.div_div_eq_div_mul]
      rfl
  · show [(loadedImg .f32 (leNat (leBytes 4 w.toNat))).1] = _
    rw [leNat_leBytes_of_lt w.isLt, loadedImg_f32 h]
  · show pairImgs (loadedImg .f64 (leNat (leBytes 8 w.toNat))) = _
    rw [leNat_leBytes_of_lt w.isLt, loadedImg_f64 h]
  · show pairImgs (loadedImg .f64 (leNat (leBytes 8 w.toNat))) = _
    rw [leNat_leBytes_of_lt w.isLt, loadedImg_nan h]
    decide
  · simp only [List.mem_cons, Prod.mk.injEq, List.not_mem_nil, or_false] at hmem
    rcases hmem with ⟨rfl, rfl, rfl⟩ | ⟨rfl, rfl, rfl⟩ | ⟨rfl, rfl, rfl⟩ | ⟨rfl, rfl, rfl⟩ | ⟨rfl, rfl, rfl⟩
    all_goals exact loadImgs_nan hn (fun _ => rfl) h
  · refine ⟨?_, ?_, rfl, rfl, rfl, ?_, ?_⟩
    · rintro sz (rfl | rfl | rfl) <;> rfl
    · rintro sz (rfl | rfl | rfl) <;> rfl
    · rintro a rest rfl
      exact ⟨storeBytes_fp rfl _ _ _ _, storeBytes_fp rfl _ _ _ _, storeBytes_fp rfl _ _ _ _, storeBytes_fp rfl _ _ _ _,
        storeBytes_fp rfl _ _ _ _⟩
    · rintro a b rfl
      exact storeBytes_fp rfl _ _ _ _
  · rw [tagImgs_w32, if_neg (by omega)]
  · rw [tagImgs_w32, if_pos ⟨hlow, hhigh⟩]

end Sys2Proof.Laws
end


section
/-! SUPPORT. A performed write reads back (R257, R258, R260, R276): tables filled from a list, and the newest write of a
granule. -/

namespace Sys2Proof.Laws

open Sys2Proof Sys2Proof.Machine

/-! ### Tables filled from a list -/

section
variable {α β : Type}

theorem mem_of_find {t : Tab α} {k : Nat} {v : α} (h : Tab.find? t k = some v) : (k, v) ∈ t := by
  induction t with
  | nil => cases h
  | cons e t ih =>
    obtain ⟨j, x⟩ := e
    rw [find_cons] at h
    split at h
    · subst j; cases h; exact List.mem_cons_self
    · exact List.mem_cons_of_mem _ (ih h)

theorem risingFrom_le {t : Tab α} {lo : Nat} (h : Tab.risingFrom lo t = true) : ∀ e ∈ t, lo ≤ e.1 := by
  induction t generalizing lo with
  | nil => exact fun _ h => nomatch h
  | cons e t ih =>
    obtain ⟨hlo, ht⟩ := Bool.and_eq_true_iff.1 h
    rw [List.forall_mem_cons]
    exact ⟨of_decide_eq_true hlo, fun x hx => le_trans (Nat.le_succ_of_le (of_decide_eq_true hlo)) (ih ht x hx)⟩

theorem rising_keys_nodup {t : Tab α} {lo : Nat} (h : Tab.risingFrom lo t = true) : (t.map (·.1)).Nodup := by
  induction t generalizing lo with
  | nil => exact List.nodup_nil
  | cons e t ih =>
    obtain ⟨_, ht⟩ := Bool.and_eq_true_iff.1 h
    refine List.nodup_cons.2 ⟨fun hm => ?_, ih ht⟩
    obtain ⟨x, hx, hk⟩ := List.mem_map.1 hm
    exact absurd (risingFrom_le ht x hx) (by rw [hk]; exact Nat.not_succ_le_self _)

theorem find_of_mem {t : Tab α} (hn : (t.map (·.1)).Nodup) {k : Nat} {v : α} (h : (k, v) ∈ t) : Tab.find? t k = some v := by
  induction t with
  | nil => cases h
  | cons e t ih =>
    obtain ⟨j, x⟩ := e
    obtain ⟨hj, hn⟩ := List.nodup_cons.1 hn
    rw [find_cons]
    rcases List.mem_cons.1 h with heq | h
    · cases heq; exact if_pos rfl
    · rw [if_neg fun hjk => hj (List.mem_map.2 ⟨_, h, hjk.symm⟩), ih hn h]

/-- Pairs with keys of their own that are put one after the other stand in the table. -/
theorem find_fill (cs : List (Nat × α)) (hn : (cs.map (·.1)).Nodup) {a : Nat} {b : α} (h : (a, b) ∈ cs) (t : Tab α) :
    Tab.find? (cs.foldl (fun t c => Tab.put t c.1 c.2) t) a = some b := by
  induction cs using List.reverseRecOn with
  | nil => cases h
  | append_singleton cs c ih =>
    rw [List.map_append, List.nodup_append] at hn
    obtain ⟨hn, -, hdis⟩ := hn
    rw [List.foldl_append, List.foldl_cons, List.foldl_nil, find_put]
    rcases List.mem_append.1 h with h | h
    · rw [if_neg (Ne.symm (hdis a (List.mem_map.2 ⟨_, h, rfl⟩) c.1 (List.mem_singleton.2 rfl))), ih hn h]
    · cases List.mem_singleton.1 h; exact if_pos rfl

theorem find_fillSame (key : β → Nat) (v : α) (cs : List β) {c : β} (h : c ∈ cs) (t : Tab α) :
    Tab.find? (cs.foldl (fun t c => Tab.put t (key c) v) t) (key c) = some v := by
  induction cs using List.reverseRecOn with
  | nil => cases h
  | append_singleton cs d ih =>
    rw [List.foldl_append, List.foldl_cons, List.foldl_nil, find_put]
    split
    · rfl
    · next hne =>
      rcases List.mem_append.1 h with h | h
      · exact ih h
      · exact absurd (congrArg key (List.mem_singleton.1 h).symm) hne

theorem risingFrom_fill (key : β → Nat) (val : β → α) (cs : List β) {t : Tab α} (h : Tab.rising t = true) :
    Tab.rising (cs.foldl (fun t c => Tab.put t (key c) (val c)) t) = true := by
  induction cs generalizing t with
  | nil => exact h
  | cons c cs ih => exact ih (risingFrom_put _ (Nat.zero_le _) h)

theorem find_mapKeys (f : Nat → β) (t : Tab α) (k : Nat) :
    Tab.find? (t.map fun e => (e.1, f e.1)) k = (Tab.find? t k).map fun _ => f k := by
  induction t with
  | nil => rfl
  | cons e t ih =>
    obtain ⟨j, x⟩ := e
    rw [List.map_cons, find_cons, find_cons, ih]
    by_cases h : j = k
    · subst h; simp
    · simp [h]

/-- A byte that a list of places of their own names reads as written. -/
theorem get_sets_mem {m : Memory} (hm : m.wf = true) (cs : List (Nat × Byte)) (hn : (cs.map (·.1)).Nodup) {a : Nat} {b : Byte}
    (h : (a, b) ∈ cs) : (m.sets cs).get a = b := by
  induction cs generalizing m with
  | nil => cases h
  | cons c cs ih =>
    obtain ⟨hc, hn⟩ := List.nodup_cons.1 hn
    show ((m.set c.1 c.2).sets cs).get a = b
    rcases List.mem_cons.1 h with heq | h
    · subst heq
      rw [get_sets_outside _ _ fun x hx he => hc (List.mem_map.2 ⟨x, hx, he⟩), get_set_same hm]
    · exact ih (wf_set hm _ _) hn h

theorem foldl_max_eq (f : α → Nat) (L : List α) {h m : Nat} (hh : h ≤ m) (hle : ∀ x ∈ L, f x ≤ m) {y : α} (hy : y ∈ L)
    (hym : f y = m) : L.foldl (fun k x => max k (f x)) h = m := by
  have hfold : L.foldl (fun k x => max k (f x)) h = (L.map f).foldl max h := by rw [List.foldl_map]
  have hmono : ∀ (L : List Nat) (h : Nat), (∀ x ∈ L, x ≤ m) → h ≤ m → (h = m ∨ m ∈ L) → L.foldl max h = m := by
    intro L
    induction L with
    | nil => exact fun h _ _ hor => hor.resolve_right List.not_mem_nil
    | cons x L ih =>
      intro h hall hh hor
      rw [List.forall_mem_cons] at hall
      refine ih _ hall.2 (max_le hh hall.1) ?_
      rcases hor with rfl | hm
      · exact .inl (max_eq_left hall.1)
      · rcases List.mem_cons.1 hm with rfl | hm
        · exact .inl (max_eq_right hh)
        · exact .inr hm
  rw [hfold]
  refine hmono _ _ (fun x hx => ?_) hh (.inr (List.mem_map.2 ⟨y, hy, hym⟩))
  obtain ⟨z, hz, rfl⟩ := List.mem_map.1 hx
  exact hle z hz

end

/-! ### The newest write of a granule (R257) -/

section
variable {s : State} {w : GWrite} {ws : List GWrite} {g h k a q prop : Nat} {b c : Byte} {who : Writer} {lin inPath : Bool}
  {cells : List (Nat × Byte)}

/-- A write that alone has the last number counted ends the writes of a granule in their order. -/
theorem between_last (hw : w ∈ ws) (hh : h < w.num g) (hk : w.num g = k) (hu : ∀ x ∈ ws, x.num g = k → x = w) :
    ∃ older, between ws g h k = older ++ [w] := by
  have hsorted : (between ws g h k).Pairwise fun a b => a.num g ≤ b.num g :=
    haveI : Std.Total fun a b : GWrite => a.num g ≤ b.num g := ⟨fun a b => le_total (a.num g) (b.num g)⟩
    haveI : IsTrans GWrite fun a b => a.num g ≤ b.num g := ⟨fun a b c => le_trans⟩
    List.pairwise_insertionSort _ _
  have hmem : ∀ x, x ∈ between ws g h k ↔ x ∈ ws ∧ h < x.num g ∧ x.num g ≤ k := fun x => by
    unfold between
    rw [List.mem_insertionSort, List.mem_filter, Bool.and_eq_true, decide_eq_true_eq, decide_eq_true_eq]
  have hin : w ∈ between ws g h k := (hmem w).2 ⟨hw, hh, hk.le⟩
  rcases List.eq_nil_or_concat (between ws g h k) with hnil | ⟨older, x, hcat⟩
  · rw [hnil] at hin; cases hin
  · rw [List.concat_eq_append] at hcat
    rw [hcat] at hsorted hin
    obtain ⟨hx, -, hle⟩ := (hmem x).1 (by rw [hcat]; exact List.mem_append_right _ (List.mem_singleton.2 rfl))
    have hge : w.num g ≤ x.num g := by
      rcases List.mem_append.1 hin with hin | hin
      · exact (List.pairwise_append.1 hsorted).2.2 w hin x (List.mem_singleton.2 rfl)
      · rw [List.mem_singleton.1 hin]
    exact ⟨older, by rw [hcat, hu x hx (le_antisymm hle (hk ▸ hge))]⟩

theorem overlaid_last (hc : Tab.find? w.cells a = some c) (older : List GWrite) (b : Byte) : overlaid (older ++ [w]) b a = c := by
  unfold overlaid
  rw [List.foldl_append, List.foldl_cons, List.foldl_nil, hc]
  rfl

/-! ### A write joins the order (R257, R260) -/

theorem logWrite_log : (s.logWrite who q lin prop cells inPath).1.log = s.log ++ [(s.logWrite who q lin prop cells inPath).2] := by
  unfold State.logWrite
  dsimp only
  split <;> rfl

theorem logWrite_held : (s.logWrite who q lin prop cells inPath).1.held = s.held := by
  unfold State.logWrite
  dsimp only
  split <;> rfl

theorem logWrite_mem (hp : prop ≠ 2) : (s.logWrite who q lin prop cells inPath).1.mem = s.mem := by
  unfold State.logWrite
  dsimp only
  rw [if_neg hp]

theorem logWrite_cells (hn : (cells.map (·.1)).Nodup) (h : (a, b) ∈ cells) :
    Tab.find? (s.logWrite who q lin prop cells inPath).2.cells a = some b := find_fill cells hn h []

theorem logWrite_num (h : (a, b) ∈ cells) : (s.logWrite who q lin prop cells inPath).2.num (a / 16) = Tab.at s.top 0 (a / 16) + 1 := by
  show (Tab.find? (List.map _ _) _).getD 0 = _
  rw [find_mapKeys (fun g => Tab.at s.top 0 g + 1), find_fillSame (fun c => c.1 / 16) () cells h]
  rfl

theorem logWrite_top (h : (a, b) ∈ cells) : Tab.at (s.logWrite who q lin prop cells inPath).1.top 0 (a / 16) =
    (s.logWrite who q lin prop cells inPath).2.num (a / 16) := by
  have hkeys : ((s.logWrite who q lin prop cells inPath).2.nums.map (·.1)).Nodup := by
    show ((List.map _ _).map _).Nodup
    rw [List.map_map]
    exact rising_keys_nodup (risingFrom_fill (fun c : Nat × Byte => c.1 / 16) (fun _ => ()) cells rfl)
  have htop : (s.logWrite who q lin prop cells inPath).1.top =
      (s.logWrite who q lin prop cells inPath).2.nums.foldl (fun t g => Tab.put t g.1 g.2) s.top := by
    unfold State.logWrite
    dsimp only
    split <;> rfl
  have hnum := logWrite_num (s := s) (who := who) (q := q) (lin := lin) (prop := prop) (inPath := inPath) h
  have hin : (a / 16, Tab.at s.top 0 (a / 16) + 1) ∈ (s.logWrite who q lin prop cells inPath).2.nums := by
    apply mem_of_find
    unfold GWrite.num Tab.at at hnum
    cases hf : Tab.find? (s.logWrite who q lin prop cells inPath).2.nums (a / 16) with
    | none => rw [hf] at hnum; cases hnum
    | some v => rw [hf] at hnum; exact congrArg some hnum
  rw [htop, hnum]
  unfold Tab.at
  rw [find_fill _ hkeys hin]
  rfl

/-- R258: the newest write of a granule's order reads back through its own window path. -/
theorem readCell_logWrite (hn : (cells.map (·.1)).Nodup) (hab : (a, b) ∈ cells) (ha : a < 2 ^ 39)
    (hlog : ∀ w ∈ s.log, ∀ g, w.num g ≤ Tab.at s.top 0 g)
    (hheld : ∀ p k g, g < 2 ^ 35 → s.heldAt (locBase p k) g ≤ Tab.at s.top 0 g) (pno : Nat) :
    (s.logWrite who q lin prop cells true).1.readCell pno q (.dev lin prop) a = b := by
  set r := s.logWrite who q lin prop cells true with hr
  have hrlog : r.1.log = s.log ++ [r.2] := logWrite_log
  have hcell : Tab.find? r.2.cells a = some b := logWrite_cells hn hab
  have hnum : r.2.num (a / 16) = Tab.at s.top 0 (a / 16) + 1 := logWrite_num hab
  have habove : r.2.above lin prop q = true := by
    show (true && lin == lin && prop == prop && (prop == 0 || q == q)) = true
    simp
  have hpath : r.1.log.filter (fun w => w.above lin prop q) = s.log.filter (fun w => w.above lin prop q) ++ [r.2] := by
    rw [hrlog, List.filter_append]
    simp [habove]
  unfold State.readCell
  dsimp only
  rw [hpath]
  split
  · exact overlaid_last hcell _ _
  · have hle : ∀ x ∈ s.log, x.num (a / 16) < r.2.num (a / 16) := fun x hx => by
      rw [hnum]; exact Nat.lt_succ_of_le (hlog x hx _)
    have hh : r.1.heldAt (locBase prop q) (a / 16) < r.2.num (a / 16) := by
      unfold State.heldAt
      rw [logWrite_held, hnum]
      exact Nat.lt_succ_of_le (hheld prop q (a / 16) (by omega))
    have hmax := foldl_max_eq (fun w => w.num (a / 16)) (s.log.filter (fun w => w.above lin prop q) ++ [r.2]) hh.le (fun x hx => by
      rcases List.mem_append.1 hx with hx | hx
      · exact (hle x (List.mem_filter.1 hx).1).le
      · rw [List.mem_singleton.1 hx]) (List.mem_append_right _ (List.mem_singleton.2 rfl)) rfl
    rw [hmax]
    obtain ⟨older, hbetween⟩ := between_last (ws := r.1.log) (w := r.2) (by rw [hrlog]; simp) hh rfl fun x hx he => by
      rw [hrlog] at hx
      rcases List.mem_append.1 hx with hx | hx
      · exact absurd he (hle x hx).ne
      · exact List.mem_singleton.1 hx
    rw [hbetween]
    exact overlaid_last hcell _ _

/-- R276: the newest store of a partition's queue reads back. -/
theorem readCell_hostQ (hs : HostStore) (hc : Tab.find? hs.cells a = some b) (link : Nat) :
    ({ s with hostQ := s.hostQ ++ [hs] } : State).readCell hs.pno q (.tso link) a = b := by
  show ((s.hostQ ++ [hs]).filter fun h => h.pno == hs.pno).foldl _ _ = b
  rw [List.filter_append, List.filter_singleton, beq_self_eq_true, Bool.cond_true, List.foldl_append, List.foldl_cons,
    List.foldl_nil, hc]
  rfl

/-- R260: a performed write reads as written for its own partition and quarter. -/
theorem readCell_writeCells {c : Cls} (hm : Memory.wf s.mem = true) (hn : (cells.map (·.1)).Nodup) (hab : (a, b) ∈ cells)
    (hlog : ∀ w ∈ s.log, ∀ g, w.num g ≤ Tab.at s.top 0 g)
    (hheld : ∀ p k g, g < 2 ^ 35 → s.heldAt (locBase p k) g ≤ Tab.at s.top 0 g) (ha : ∀ lin prop, c = .dev lin prop → a < 2 ^ 39) :
    (s.writeCells who q c cells).readCell who.pno q c a = b := by
  have hne : cells.isEmpty = false := by
    cases cells with
    | nil => cases hab
    | cons => rfl
  unfold State.writeCells
  rw [hne, if_neg Bool.false_ne_true]
  cases c with
  | plain => exact get_sets_mem hm cells hn hab
  | tso link => exact readCell_hostQ _ (find_fill cells hn hab []) link
  | dev lin prop => exact readCell_logWrite hn hab (ha lin prop rfl) hlog hheld who.pno

end

end Sys2Proof.Laws
end


section
/-! SUPPORT. Drain, propagate and replicate (R257, R261-R263): what a location takes in of a write, and the settled
statement on the order of writes. -/

namespace Sys2Proof.Laws

open Sys2Proof Sys2Proof.Machine

/-! ### One granule of a location (R261) -/

section
variable {s : State} {w : GWrite} {loc g k a : Nat} {b : Byte} {t : Tab Nat}

/-- The bytes of a granule that a write lays on a location. -/
def landing (loc g : Nat) (w : GWrite) : List (Nat × Byte) := (w.cells.filter fun c => c.1 / 16 == g).map fun c => (loc + c.1, c.2)

theorem mem_landing {e : Nat × Byte} (h : e ∈ landing loc g w) : loc + 16 * g ≤ e.1 ∧ e.1 < loc + 16 * g + 16 := by
  obtain ⟨c, hc, rfl⟩ := List.mem_map.1 h
  have hg := beq_iff_eq.1 (List.mem_filter.1 hc).2
  dsimp only
  omega

theorem landing_nodup (hr : Tab.rising w.cells = true) : ((landing loc g w).map (·.1)).Nodup := by
  have hkeys : ((w.cells.filter fun c => c.1 / 16 == g).map (·.1)).Nodup := rising_keys_nodup (risingFrom_filter _ hr)
  unfold landing
  rw [List.map_map, show ((fun x : Nat × Byte => x.1) ∘ fun c : Nat × Byte => (loc + c.1, c.2)) = (loc + ·) ∘ (·.1) from rfl,
    ← List.map_map]
  exact hkeys.map fun _ _ => Nat.add_left_cancel

theorem applyGranule_mem : (s.applyGranule loc g k).mem = if k ≤ s.heldAt loc g then s.mem
    else Memory.sets s.mem ((between s.log g (s.heldAt loc g) k).flatMap (landing loc g)) := by
  unfold State.applyGranule
  dsimp only
  split
  · rfl
  · unfold Memory.sets landing
    rw [List.foldl_flatMap]
    simp only [List.foldl_map]

theorem applyGranule_log : (s.applyGranule loc g k).log = s.log := by
  unfold State.applyGranule
  dsimp only
  split <;> rfl

theorem applyGranule_heldAt (j : Nat) :
    (s.applyGranule loc g k).heldAt loc j = if j = g then max (s.heldAt loc g) k else s.heldAt loc j := by
  unfold State.applyGranule
  dsimp only
  by_cases hk : k ≤ s.heldAt loc g
  · rw [if_pos hk, max_eq_left hk]
    split
    · subst j; rfl
    · rfl
  · rw [if_neg hk, max_eq_right (Nat.le_of_not_le hk)]
    show (Tab.find? (Tab.put s.held (loc / 16 + g) k) (loc / 16 + j)).getD 0 = _
    rw [find_put]
    by_cases hj : j = g
    · rw [if_pos (by rw [hj]), if_pos hj]; rfl
    · rw [if_neg (by omega), if_neg hj]; rfl

/-- A granule that takes in writes leaves every byte outside it. -/
theorem applyGranule_outside (h : 0 < k → ¬ (loc + 16 * g ≤ a ∧ a < loc + 16 * g + 16)) :
    Memory.get (s.applyGranule loc g k).mem a = Memory.get s.mem a := by
  rw [applyGranule_mem]
  split
  · rfl
  · next hk =>
    refine get_sets_outside _ _ fun e he hea => h (by omega) ?_
    obtain ⟨w, -, he⟩ := List.mem_flatMap.1 he
    exact hea ▸ mem_landing he

/-- A granule that takes in a write as its newest reads as that write where it holds a byte. -/
theorem applyGranule_inside (hm : Memory.wf s.mem = true) (hw : w ∈ s.log) (hr : Tab.rising w.cells = true)
    (hu : ∀ x ∈ s.log, x.num (a / 16) = w.num (a / 16) → x = w) (hh : s.heldAt loc (a / 16) < w.num (a / 16))
    (hc : Tab.find? w.cells a = some b) :
    Memory.get (s.applyGranule loc (a / 16) (w.num (a / 16))).mem (loc + a) = b := by
  obtain ⟨older, hbetween⟩ := between_last hw hh rfl hu
  rw [applyGranule_mem, if_neg (Nat.not_le_of_lt hh), hbetween, List.flatMap_append, List.flatMap_singleton]
  unfold Memory.sets
  rw [List.foldl_append]
  refine get_sets_mem (wf_sets _ hm) _ (landing_nodup hr) (List.mem_map.2 ⟨(a, b), List.mem_filter.2 ⟨mem_of_find hc, ?_⟩, rfl⟩)
  exact beq_self_eq_true _

end

/-! ### Several granules of a location -/

section
variable {s : State} {w : GWrite} {loc a : Nat} {b : Byte}

/-- A location takes in the numbers of a table, granule by granule. -/
def applyTops (s : State) (loc : Nat) (t : Tab Nat) : State := t.foldl (fun s gk => s.applyGranule loc gk.1 gk.2) s

theorem applyTops_views (s : State) (loc : Nat) (t : Tab Nat) : OnlyViews s (applyTops s loc t) :=
  onlyViews_foldl _ (fun _ _ => applyGranule_views _ _ _ _) _ s

theorem applyTops_log (s : State) (t : Tab Nat) : (applyTops s loc t).log = s.log :=
  List.foldlRecOn t _ (motive := fun u : State => u.log = s.log) rfl fun _ hb _ _ => applyGranule_log.trans hb

theorem applyTops_wf (hm : Memory.wf s.mem = true) (t : Tab Nat) : Memory.wf (applyTops s loc t).mem = true :=
  List.foldlRecOn t _ (motive := fun u : State => Memory.wf u.mem = true) hm fun _ hb _ _ => applyGranule_wf _ _ _ hb

theorem applyTops_heldAt {t : Tab Nat} (hn : (t.map (·.1)).Nodup) (j : Nat) :
    (applyTops s loc t).heldAt loc j = max (s.heldAt loc j) ((Tab.find? t j).getD 0) := by
  induction t generalizing s with
  | nil => exact (Nat.max_zero _).symm
  | cons e t ih =>
    obtain ⟨g, k⟩ := e
    obtain ⟨hg, hn⟩ := List.nodup_cons.1 hn
    show (applyTops (s.applyGranule loc g k) loc t).heldAt loc j = _
    rw [ih hn, applyGranule_heldAt, find_cons]
    by_cases hj : g = j
    · subst hj
      have hout : Tab.find? t g = none := by
        cases hf : Tab.find? t g with
        | none => rfl
        | some v => exact absurd (List.mem_map.2 ⟨_, mem_of_find hf, rfl⟩) hg
      rw [if_pos rfl, if_pos rfl, hout]
      exact Nat.max_zero _
    · rw [if_neg (Ne.symm hj), if_neg hj]

theorem applyTops_outside {t : Tab Nat} (h : ∀ gk ∈ t, 0 < gk.2 → ¬ (loc + 16 * gk.1 ≤ a ∧ a < loc + 16 * gk.1 + 16)) :
    Memory.get (applyTops s loc t).mem a = Memory.get s.mem a := by
  induction t generalizing s with
  | nil => rfl
  | cons e t ih =>
    rw [List.forall_mem_cons] at h
    exact (ih h.2).trans (applyGranule_outside h.1)

/-- A location that takes in a write's own numbers reads as the write in each granule that it had not passed. -/
theorem applyTops_inside (hm : Memory.wf s.mem = true) (hw : w ∈ s.log) (hr : Tab.rising w.cells = true)
    (hnum : Tab.rising w.nums = true) (hu : ∀ x ∈ s.log, x.num (a / 16) = w.num (a / 16) → x = w)
    (hh : s.heldAt loc (a / 16) < w.num (a / 16)) (hc : Tab.find? w.cells a = some b) :
    Memory.get (applyTops s loc w.nums).mem (loc + a) = b := by
  have hkeys := rising_keys_nodup hnum
  have hin : (a / 16, w.num (a / 16)) ∈ w.nums := by
    apply mem_of_find
    unfold GWrite.num Tab.at at hh ⊢
    cases hf : Tab.find? w.nums (a / 16) with
    | none => rw [hf] at hh; exact absurd hh (Nat.not_lt_zero _)
    | some v => rfl
  obtain ⟨before, after, hsplit⟩ := List.append_of_mem hin
  rw [hsplit, List.map_append, List.map_cons, List.nodup_append] at hkeys
  obtain ⟨hbefore, hafter, hdis⟩ := hkeys
  obtain ⟨hnot, -⟩ := List.nodup_cons.1 hafter
  have hheld : (applyTops s loc before).heldAt loc (a / 16) = s.heldAt loc (a / 16) := by
    rw [applyTops_heldAt hbefore]
    cases hf : Tab.find? before (a / 16) with
    | none => exact Nat.max_zero _
    | some v => exact absurd rfl (hdis _ (List.mem_map.2 ⟨_, mem_of_find hf, rfl⟩) _ List.mem_cons_self)
  have happly : applyTops s loc w.nums =
      applyTops ((applyTops s loc before).applyGranule loc (a / 16) (w.num (a / 16))) loc after := by
    unfold applyTops
    conv_lhs => rw [hsplit, List.foldl_append, List.foldl_cons]
  rw [happly, applyTops_outside fun gk hgk _ hin => hnot (List.mem_map.2 ⟨gk, hgk, by dsimp only; omega⟩)]
  refine applyGranule_inside (applyTops_wf hm before) (by rw [applyTops_log]; exact hw) hr (fun x hx => ?_) (by rw [hheld]; exact hh) hc
  rw [applyTops_log] at hx
  exact hu x hx

end

/-! ### Writes of several granules are taken in whole (R230, R257) -/

section
variable {s : State} {w x : GWrite} {loc prop : Nat} {t : Tab Nat}

/-- Every number of a write is at or below those a location holds or is about to hold. -/
def Within (s : State) (loc : Nat) (t : Tab Nat) (w : GWrite) : Prop := ∀ gk ∈ w.nums, gk.2 ≤ s.topIn loc t gk.1

/-- One number is raised in a table of granule numbers. -/
def raise (s : State) (loc : Nat) (t : Tab Nat) (gk : Nat × Nat) : Tab Nat :=
  if s.topIn loc t gk.1 < gk.2 then Tab.put t gk.1 gk.2 else t

theorem joinWrite_eq : s.joinWrite loc prop t w =
    if w.prop == prop && w.nums.any (fun gk => decide (gk.2 ≤ s.topIn loc t gk.1)) then w.nums.foldl (raise s loc) t else t := rfl

theorem topIn_raise (gk : Nat × Nat) (g : Nat) :
    s.topIn loc (raise s loc t gk) g = if g = gk.1 then max (s.topIn loc t g) gk.2 else s.topIn loc t g := by
  unfold raise
  by_cases hk : s.topIn loc t gk.1 < gk.2
  · rw [if_pos hk]
    show (Tab.find? (Tab.put t gk.1 gk.2) g).getD _ = _
    rw [find_put]
    by_cases hg : g = gk.1
    · subst hg; rw [if_pos rfl, if_pos rfl, max_eq_right hk.le]; rfl
    · rw [if_neg (Ne.symm hg), if_neg hg]; rfl
  · rw [if_neg hk]
    split
    · next hg => subst hg; rw [max_eq_left (Nat.le_of_not_lt hk)]
    · rfl

/-- Numbers of a table never fall as others are raised. -/
theorem topIn_raises (nums : List (Nat × Nat)) (t : Tab Nat) (g : Nat) : s.topIn loc t g ≤ s.topIn loc (nums.foldl (raise s loc) t) g := by
  induction nums generalizing t with
  | nil => exact le_rfl
  | cons gk nums ih =>
    refine le_trans ?_ (ih (raise s loc t gk))
    rw [topIn_raise]
    split
    · exact le_max_left _ _
    · exact le_rfl

theorem within_raises (nums : List (Nat × Nat)) (t : Tab Nat) : ∀ gk ∈ nums, gk.2 ≤ s.topIn loc (nums.foldl (raise s loc) t) gk.1 := by
  induction nums generalizing t with
  | nil => exact fun _ h => nomatch h
  | cons gk nums ih =>
    rw [List.forall_mem_cons]
    refine ⟨le_trans ?_ (topIn_raises nums _ _), ih _⟩
    rw [topIn_raise, if_pos rfl]
    exact le_max_right _ _

theorem topIn_joinWrite (g : Nat) : s.topIn loc t g ≤ s.topIn loc (s.joinWrite loc prop t w) g := by
  rw [joinWrite_eq]
  split
  · exact topIn_raises _ _ _
  · exact le_rfl

theorem Within.mono {t' : Tab Nat} (h : Within s loc t x) (hle : ∀ g, s.topIn loc t g ≤ s.topIn loc t' g) : Within s loc t' x :=
  fun gk hgk => le_trans (h gk hgk) (hle gk.1)

/-- A write of which one granule is taken in. -/
def Begun (s : State) (loc : Nat) (t : Tab Nat) (w : GWrite) : Prop := ∃ gk ∈ w.nums, gk.2 ≤ s.topIn loc t gk.1

theorem within_joinWrite (hp : w.prop = prop) (hb : Begun s loc t w) : Within s loc (s.joinWrite loc prop t w) w := by
  obtain ⟨gk, hgk, hle⟩ := hb
  have hany : (w.prop == prop && w.nums.any fun gk => decide (gk.2 ≤ s.topIn loc t gk.1)) = true := by
    rw [hp, beq_self_eq_true, Bool.true_and, List.any_eq_true]
    exact ⟨gk, hgk, decide_eq_true hle⟩
  rw [joinWrite_eq, if_pos hany]
  exact within_raises _ _

theorem raises_same {nums : List (Nat × Nat)} (h : ∀ gk ∈ nums, gk.2 ≤ s.topIn loc t gk.1) : nums.foldl (raise s loc) t = t := by
  induction nums with
  | nil => rfl
  | cons gk nums ih =>
    rw [List.forall_mem_cons] at h
    rw [List.foldl_cons, show raise s loc t gk = t from if_neg (Nat.not_lt_of_le h.1), ih h.2]

/-- Every write of an extent's kind that is begun is taken in whole. -/
def Whole (s : State) (loc prop : Nat) (t : Tab Nat) : Prop := ∀ x ∈ s.log, x.prop = prop → Begun s loc t x → Within s loc t x

/-- The writes of the order taken in, once each. -/
def joinAll (s : State) (loc prop : Nat) (t : Tab Nat) : Tab Nat := s.log.foldl (s.joinWrite loc prop) t

theorem joinAll_same (h : Whole s loc prop t) : joinAll s loc prop t = t := by
  suffices hall : ∀ L : List GWrite, (∀ x ∈ L, x ∈ s.log) → L.foldl (s.joinWrite loc prop) t = t from hall s.log fun _ => id
  intro L hL
  induction L with
  | nil => rfl
  | cons x L ih =>
    rw [List.forall_mem_cons] at hL
    have hx : s.joinWrite loc prop t x = t := by
      rw [joinWrite_eq]
      split
      · next hj =>
        obtain ⟨hp, hany⟩ := Bool.and_eq_true_iff.1 hj
        obtain ⟨gk, hgk, hle⟩ := List.any_eq_true.1 hany
        exact raises_same (h x hL.1 (beq_iff_eq.1 hp) ⟨gk, hgk, of_decide_eq_true hle⟩)
      · rfl
    rw [List.foldl_cons, hx, ih hL.2]

theorem topIn_joins (L : List GWrite) (t : Tab Nat) (g : Nat) : s.topIn loc t g ≤ s.topIn loc (L.foldl (s.joinWrite loc prop) t) g := by
  induction L generalizing t with
  | nil => exact le_rfl
  | cons x L ih => exact le_trans (topIn_joinWrite g) (ih _)

theorem within_joinAll (hx : x ∈ s.log) (hp : x.prop = prop) (hb : Begun s loc t x) : Within s loc (joinAll s loc prop t) x := by
  obtain ⟨before, after, hsplit⟩ := List.append_of_mem hx
  obtain ⟨gk, hgk, hle⟩ := hb
  have hjoin : Within s loc (s.joinWrite loc prop (before.foldl (s.joinWrite loc prop) t) x) x :=
    within_joinWrite hp ⟨gk, hgk, le_trans hle (topIn_joins before t gk.1)⟩
  unfold joinAll
  rw [hsplit, List.foldl_append, List.foldl_cons]
  exact hjoin.mono fun g => topIn_joins after _ g

open Classical in
/-- How many writes of the order stand within a table of granule numbers. -/
noncomputable def countWithin (s : State) (loc : Nat) (t : Tab Nat) : Nat := s.log.countP fun x => decide (Within s loc t x)

/-- Until every write begun is whole, a pass takes in one more. -/
theorem countWithin_joinAll (h : ¬ Whole s loc prop t) : countWithin s loc t < countWithin s loc (joinAll s loc prop t) := by
  classical
  unfold Whole at h
  push Not at h
  obtain ⟨x, hx, hp, hb, hnot⟩ := h
  have hmono : ∀ y ∈ s.log, decide (Within s loc t y) = true → decide (Within s loc (joinAll s loc prop t) y) = true :=
    fun y _ hy => decide_eq_true ((of_decide_eq_true hy).mono fun g => topIn_joins s.log t g)
  have hin := within_joinAll hx hp hb
  obtain ⟨before, after, hsplit⟩ := List.append_of_mem hx
  unfold countWithin
  rw [hsplit] at hmono ⊢
  have hbefore := List.countP_mono_left fun y hy => hmono y (List.mem_append_left _ hy)
  have hafter := List.countP_mono_left fun y hy => hmono y (List.mem_append_right _ (List.mem_cons_of_mem _ hy))
  rw [List.countP_append, List.countP_append, List.countP_cons, List.countP_cons, if_neg (by simpa using hnot), if_pos (decide_eq_true hin)]
  omega

/-- As many passes as there are writes leave every write begun whole. -/
theorem closeTops_whole : Whole s loc prop (s.closeTops loc prop t) := by
  classical
  have hpass : ∀ L : List GWrite, let u := L.foldl (fun t _ => joinAll s loc prop t) t
      Whole s loc prop u ∨ L.length ≤ countWithin s loc u := by
    intro L
    induction L using List.reverseRecOn with
    | nil => exact .inr (Nat.zero_le _)
    | append_singleton L x ih =>
      dsimp only at ih ⊢
      rw [List.foldl_append, List.foldl_cons, List.foldl_nil, List.length_append]
      by_cases hw : Whole s loc prop (L.foldl (fun t _ => joinAll s loc prop t) t)
      · rw [joinAll_same hw]; exact .inl hw
      · exact .inr (Nat.succ_le_of_lt (lt_of_le_of_lt (ih.resolve_left hw) (countWithin_joinAll hw)))
  rcases hpass s.log with hw | hlen
  · exact hw
  · have hall := List.countP_eq_length.1 (le_antisymm List.countP_le_length hlen)
    exact fun x hx _ _ => of_decide_eq_true (hall x hx)

theorem topIn_closeTops (g : Nat) : s.topIn loc t g ≤ s.topIn loc (s.closeTops loc prop t) g :=
  List.foldlRecOn s.log _ (motive := fun u => s.topIn loc t g ≤ s.topIn loc u g) le_rfl fun _ hb _ _ => le_trans hb (topIn_joins s.log _ g)

theorem closeTops_rising (h : Tab.rising t = true) : Tab.rising (s.closeTops loc prop t) = true := by
  have hraise : ∀ (nums : List (Nat × Nat)) (t : Tab Nat), Tab.rising t = true → Tab.rising (nums.foldl (raise s loc) t) = true :=
    fun nums t ht => List.foldlRecOn nums _ (motive := fun u => Tab.rising u = true) ht fun u hu gk _ => by
      unfold raise
      split
      · exact risingFrom_put _ (Nat.zero_le _) hu
      · exact hu
  refine List.foldlRecOn s.log _ (motive := fun u => Tab.rising u = true) h fun u hu _ _ => ?_
  refine List.foldlRecOn s.log _ (motive := fun u => Tab.rising u = true) hu fun u hu x _ => ?_
  rw [joinWrite_eq]
  split
  · exact hraise _ _ hu
  · exact hu

/-- Where every write begun is whole, nothing more is taken in. -/
theorem closeTops_same (h : Whole s loc prop t) : s.closeTops loc prop t = t :=
  List.foldlRecOn s.log _ (motive := fun u => u = t) rfl fun u hu _ _ => by
    subst hu
    exact joinAll_same h

theorem topIn_nums (hr : Tab.rising w.nums = true) : ∀ gk ∈ w.nums, s.topIn loc w.nums gk.1 = gk.2 := fun gk hgk => by
  unfold State.topIn
  rw [find_of_mem (rising_keys_nodup hr) hgk]
  rfl

end

/-! ### The steps (R261-R263, R276, R505) -/

section
variable {s u : State} {w : GWrite} {f : GWrite → GWrite} {i : Instr} {loc a q : Nat} {b : Byte}

theorem write_eq (hw : w ∈ s.log) (hid : ∀ x ∈ s.log, x.id = w.id → x = w) : s.write? w.id = some w := by
  unfold State.write?
  cases hf : s.log.find? fun x => x.id == w.id with
  | none => exact absurd (beq_self_eq_true w.id) (List.find?_eq_none.1 hf w hw)
  | some x => rw [hid x (List.mem_of_find?_eq_some hf) (beq_iff_eq.1 (List.find?_some (p := fun x : GWrite => x.id == w.id) hf))]

/-- `u` is `s` with what each write of the order says of its way noted anew; what it writes, and where in each order, stands. -/
structure Marked (s u : State) (w : GWrite) (f : GWrite → GWrite) : Prop where
  rest : u = { s with log := s.log.map f }
  nums : ∀ x ∈ s.log, (f x).nums = x.nums
  prop : ∀ x ∈ s.log, (f x).prop = x.prop
  cells : (f w).cells = w.cells

/-- A drain or a propagate has a location take in a write, and drops the writes that have reached every place. -/
def TakesIn (s : State) (w : GWrite) (loc : Nat) (i : Instr) : Prop :=
  (i = .drain w.id ∧ w.inPath = true ∧ s.oldest w = true ∧ w.prop ≠ 2 ∧ loc = locBase w.prop w.quarter) ∨
    (∃ q, q < 4 ∧ i = .propagate w.id q ∧ w.inPath = false ∧ w.prop = 1 ∧ loc = quarterBase q)

theorem TakesIn.step (h : TakesIn s w loc i) (hw : w ∈ s.log) (hid : ∀ x ∈ s.log, x.id = w.id → x = w) : ∃ u f,
    Marked s u w f ∧ exec i s = .next (applyTops u loc (u.closeTops loc w.prop w.nums)).settle := by
  rcases h with ⟨rfl, hpath, hold, hp, rfl⟩ | ⟨q, hq, rfl, hpath, hp, rfl⟩
  · have hstep : exec (.drain w.id) s = .next (s.drainWrite w) := by
      show Host.Outcome.next _ = _
      rw [write_eq hw hid]
      dsimp only
      rw [hpath, hold, Bool.true_and, if_pos rfl]
    refine ⟨s.setWrite { w with inPath := false }, fun x => if x.id = w.id then { w with inPath := false } else x, ⟨rfl, ?_, ?_, ?_⟩, ?_⟩
    · intro x hx
      split
      · next he => rw [hid x hx he]
      · rfl
    · intro x hx
      split
      · next he => rw [hid x hx he]
      · rfl
    · simp
    · rw [hstep]
      unfold State.drainWrite
      dsimp only
      rw [if_neg hp, if_neg hp]
      rfl
  · refine ⟨s, id, ⟨by rw [List.map_id], fun _ _ => rfl, fun _ _ => rfl, rfl⟩, ?_⟩
    show Host.Outcome.next _ = _
    rw [write_eq hw hid]
    dsimp only
    rw [hpath, hp]
    simp only [decide_true, Bool.not_false, Bool.and_self, Bool.true_and, decide_eq_true_eq, if_pos hq]
    unfold State.propagateWrite State.applyTo
    rw [hp]
    rfl

theorem Marked.mem (h : Marked s u w f) {x : GWrite} (hx : x ∈ u.log) : ∃ y ∈ s.log, f y = x := by
  rw [h.rest] at hx
  exact List.mem_map.1 hx

theorem Marked.heldAt (h : Marked s u w f) (loc g : Nat) : u.heldAt loc g = s.heldAt loc g := by rw [h.rest]; rfl

theorem applyTops_topIn {t : Tab Nat} (hr : Tab.rising t = true) (j : Nat) :
    (applyTops s loc t).heldAt loc j = max (s.heldAt loc j) (s.topIn loc t j) := by
  rw [applyTops_heldAt (rising_keys_nodup hr)]
  unfold State.topIn
  cases Tab.find? t j with
  | none => exact (Nat.max_zero _).trans (max_self _).symm
  | some v => rfl

/-- R261, R262: the bytes of a drained or propagated write, and nothing outside its granules. -/
theorem takesIn_bytes (h : TakesIn s w loc i) (hm : Memory.wf s.mem = true) (hw : w ∈ s.log) (hid : ∀ x ∈ s.log, x.id = w.id → x = w)
    (hcells : Tab.rising w.cells = true) (hnums : Tab.rising w.nums = true)
    (hown : ∀ x ∈ s.log, ∀ g, 0 < w.num g → x.num g = w.num g → x = w)
    (hone : ∀ x ∈ s.log, x.prop = w.prop → x ≠ w → x.nums.length ≤ 1) : ∃ t, exec i s = .next t ∧
    t = { s with mem := t.mem, held := t.held, log := t.log, bufs := t.bufs } ∧
    (∀ a b, Tab.find? w.cells a = some b → s.heldAt loc (a / 16) < w.num (a / 16) → Memory.get t.mem (loc + a) = b) ∧
    ∀ a, (∀ g, 0 < w.num g → ¬ (loc + 16 * g ≤ a ∧ a < loc + 16 * g + 16)) → Memory.get t.mem a = Memory.get s.mem a := by
  obtain ⟨u, f, hu, hexec⟩ := h.step hw hid
  have humem : u.mem = s.mem := by rw [hu.rest]
  have hfw : f w ∈ u.log := by rw [hu.rest]; exact List.mem_map.2 ⟨w, hw, rfl⟩
  have hfnums : (f w).nums = w.nums := hu.nums w hw
  have hwhole : Whole u loc w.prop w.nums := by
    intro x hx hp hb gk hgk
    obtain ⟨y, hy, rfl⟩ := hu.mem hx
    rw [hu.nums y hy] at hgk
    by_cases hyw : y = w
    · subst hyw; exact (topIn_nums hnums gk hgk).ge
    · obtain ⟨hk, hhk, hle⟩ := hb
      rw [hu.nums y hy] at hhk
      have hlen := hone y hy ((hu.prop y hy).symm.trans hp) hyw
      match hn : y.nums, hlen with
      | [], _ => rw [hn] at hgk; cases hgk
      | [e], _ =>
        rw [hn] at hgk hhk
        rw [List.mem_singleton.1 hgk, ← List.mem_singleton.1 hhk]
        exact hle
  refine ⟨_, hexec, ?_, ?_, ?_⟩
  · show OnlyViews s _
    exact onlyViews_trans (by rw [hu.rest]; rfl) (onlyViews_trans (applyTops_views u loc _) rfl)
  · intro a b hc hh
    rw [settle_mem, closeTops_same hwhole, ← hfnums]
    have hnum : (f w).num (a / 16) = w.num (a / 16) := by unfold GWrite.num; rw [hfnums]
    refine applyTops_inside (by rw [humem]; exact hm) hfw (by rw [hu.cells]; exact hcells) (by rw [hfnums]; exact hnums) (fun x hx he => ?_)
      (by rw [hu.heldAt, hnum]; exact hh) (by rw [hu.cells]; exact hc)
    obtain ⟨y, hy, rfl⟩ := hu.mem hx
    rw [hnum] at he
    unfold GWrite.num at he
    rw [hu.nums y hy] at he
    rw [hown y hy (a / 16) (Nat.zero_lt_of_lt hh) he]
  · intro a ha
    rw [settle_mem, closeTops_same hwhole, applyTops_outside fun gk hgk hpos => ha gk.1 ?_, humem]
    unfold GWrite.num Tab.at
    rw [find_of_mem (rising_keys_nodup hnums) hgk]
    exact hpos

/-- R230, R257: a location has a write of several granules whole or not at all, and has the one that it takes in. -/
theorem takesIn_whole (h : TakesIn s w loc i) (hw : w ∈ s.log) (hid : ∀ x ∈ s.log, x.id = w.id → x = w)
    (hnums : Tab.rising w.nums = true)
    (hold : ∀ x ∈ s.log, x.prop = w.prop → (∀ gk ∈ x.nums, gk.2 ≤ s.heldAt loc gk.1) ∨ ∀ gk ∈ x.nums, s.heldAt loc gk.1 < gk.2) :
    ∃ t, exec i s = .next t ∧ (∀ gk ∈ w.nums, gk.2 ≤ t.heldAt loc gk.1) ∧
      ∀ x ∈ s.log, x.prop = w.prop → (∀ gk ∈ x.nums, gk.2 ≤ t.heldAt loc gk.1) ∨ ∀ gk ∈ x.nums, t.heldAt loc gk.1 < gk.2 := by
  obtain ⟨u, f, hu, hexec⟩ := h.step hw hid
  have hheld : ∀ g, (applyTops u loc (u.closeTops loc w.prop w.nums)).settle.heldAt loc g =
      max (s.heldAt loc g) (u.topIn loc (u.closeTops loc w.prop w.nums) g) := fun g => by
    rw [← hu.heldAt]
    exact applyTops_topIn (closeTops_rising hnums) g
  refine ⟨_, hexec, fun gk hgk => ?_, fun x hx hp => ?_⟩
  · rw [hheld]
    refine le_trans ?_ (le_max_right _ _)
    exact le_trans (topIn_nums hnums gk hgk).ge (topIn_closeTops gk.1)
  · by_cases hb : Begun u loc (u.closeTops loc w.prop w.nums) (f x)
    · have hin := closeTops_whole (f x) (by rw [hu.rest]; exact List.mem_map.2 ⟨x, hx, rfl⟩) ((hu.prop x hx).trans hp) hb
      unfold Within at hin
      rw [hu.nums x hx] at hin
      exact .inl fun gk hgk => by rw [hheld]; exact le_trans (hin gk hgk) (le_max_right _ _)
    · unfold Begun at hb
      push Not at hb
      rw [hu.nums x hx] at hb
      rcases hold x hx hp with hle | hlt
      · exact .inl fun gk hgk => by rw [hheld]; exact le_trans (hle gk hgk) (le_max_left _ _)
      · exact .inr fun gk hgk => by rw [hheld]; exact max_lt (hlt gk hgk) (hb gk hgk)

/-- R263: the bytes of a write that is laid over a quarter's copy. -/
theorem layOver_bytes (hm : Memory.wf s.mem = true) (hcells : Tab.rising w.cells = true) :
    (∀ a b, Tab.find? w.cells a = some b → Memory.get (s.layOver q w).mem (quarterBase q + a) = b) ∧
    ∀ a, (∀ c ∈ w.cells, a ≠ quarterBase q + c.1) → Memory.get (s.layOver q w).mem a = Memory.get s.mem a := by
  have hmem : (s.layOver q w).mem = Memory.sets s.mem (w.cells.map fun c => (quarterBase q + c.1, c.2)) := by
    unfold State.layOver Memory.sets
    rw [List.foldl_map]
  rw [hmem]
  refine ⟨fun a b hc => get_sets_mem hm _ ?_ (List.mem_map.2 ⟨(a, b), mem_of_find hc, rfl⟩), fun a ha => get_sets_outside _ _ fun e he => ?_⟩
  · rw [List.map_map, show ((fun x : Nat × Byte => x.1) ∘ fun c : Nat × Byte => (quarterBase q + c.1, c.2)) = (quarterBase q + ·) ∘ (·.1) from rfl,
      ← List.map_map]
    exact (rising_keys_nodup hcells).map fun _ _ => Nat.add_left_cancel
  · obtain ⟨c, hc, rfl⟩ := List.mem_map.1 he
    exact (ha c hc).symm

/-- R261, R263: a write of a REPLICATED extent reaches its own quarter's copy by a drain and another's by a replicate. -/
theorem replicated_bytes (hm : Memory.wf s.mem = true) (hw : w ∈ s.log) (hid : ∀ x ∈ s.log, x.id = w.id → x = w)
    (hcells : Tab.rising w.cells = true) (hp : w.prop = 2)
    (h : (i = .drain w.id ∧ w.inPath = true ∧ s.oldest w = true ∧ q = w.quarter) ∨
      (i = .replicate w.id q ∧ q < 4 ∧ w.inPath = false ∧ w.got.getLsbD q = false)) :
    ∃ t, exec i s = .next t ∧ t = { s with mem := t.mem, log := t.log, bufs := t.bufs } ∧
      (∀ a b, Tab.find? w.cells a = some b → Memory.get t.mem (quarterBase q + a) = b) ∧
      ∀ a, (∀ c ∈ w.cells, a ≠ quarterBase q + c.1) → Memory.get t.mem a = Memory.get s.mem a := by
  rcases h with ⟨rfl, hpath, hold, rfl⟩ | ⟨rfl, hq, hpath, hgot⟩
  · refine ⟨s.drainWrite w, ?_, ?_⟩
    · show Host.Outcome.next _ = _
      rw [write_eq hw hid]
      dsimp only
      rw [hpath, hold, Bool.true_and, if_pos rfl]
    · unfold State.drainWrite
      dsimp only
      rw [if_pos hp, if_pos hp]
      exact ⟨rfl, layOver_bytes hm hcells⟩
  · refine ⟨s.replicateWrite w q, ?_, rfl, layOver_bytes hm hcells⟩
    show Host.Outcome.next _ = _
    rw [write_eq hw hid]
    dsimp only
    rw [hpath, hp, hgot]
    simp only [decide_true, Bool.not_false, Bool.and_self, Bool.and_true, Bool.true_and, decide_eq_true_eq, if_pos hq]

theorem logFabric_rest (s : State) (kind pno plane port reason peer : Nat) : s.logFabric kind pno plane port reason peer =
    { s with mgmt := { s.mgmt with fablog := (s.logFabric kind pno plane port reason peer).mgmt.fablog } } := by
  unfold State.logFabric
  dsimp only

theorem logHost_rest (s : State) (pno link : Nat) :
    s.logHost pno link = { s with mgmt := { s.mgmt with fablog := (s.logHost pno link).mgmt.fablog } } := logFabric_rest ..

/-- R276, R505: the oldest host store of a partition, by the state of its link. -/
theorem hostStoreDrain_spec {pno : Nat} {h : HostStore} (hh : s.hostQ.find? (fun h => h.pno == pno) = some h) :
    (s.links.getLsbD h.link = true → exec (.hostStoreDrain pno) s =
      .next { s with mem := Memory.sets s.mem h.cells, atoms := s.atoms.map (·.behind h.cells), hostQ := s.hostQ.erase h }) ∧
    (s.links.getLsbD h.link = false → ∃ t, exec (.hostStoreDrain pno) s = .next t ∧
      t = { s with hostQ := s.hostQ.erase h, mgmt := { s.mgmt with fablog := t.mgmt.fablog } }) := by
  have hstep : exec (.hostStoreDrain pno) s = .next (if s.links.getLsbD h.link then s.drainHost pno
      else ({ s with hostQ := s.hostQ.erase h } : State).logHost pno h.link) := by
    show Host.Outcome.next _ = _
    rw [hh]
  constructor
  · intro hup
    rw [hstep, hup, if_pos rfl]
    unfold State.drainHost
    rw [hh]
  · intro hdown
    exact ⟨({ s with hostQ := s.hostQ.erase h } : State).logHost pno h.link, by rw [hstep, hdown, if_neg Bool.false_ne_true], logHost_rest _ _ _⟩

/-- R247: an atomic between its read and its write comes after a store to its bytes. -/
theorem behind_byte {r : AtomReq} {bs : List Byte} (hold : r.old = some bs) (cells : Tab Byte) : ∃ bs',
    r.behind cells = { r with old := some bs' } ∧ ∀ (i a : Nat) b, r.piece.cells[i]? = some a → bs[i]? = some b →
      bs'[i]? = some ((Tab.find? cells a).getD b) := by
  refine ⟨(List.zip r.piece.cells bs).map fun ab => (Tab.find? cells ab.1).getD ab.2, by unfold AtomReq.behind; rw [hold]; rfl,
    fun i a b ha hb => ?_⟩
  rw [List.getElem?_map, List.getElem?_zip_eq_some (z := (a, b)).2 ⟨ha, hb⟩]
  rfl

end

/-- Settles O32: the newest write of a granule reads back by its number; a location that takes in a write takes in whole
every write begun with it, and lays each one's bytes in its own granules. -/
theorem orderSteps : Obligations.OrderSteps := by
  unfold Obligations.OrderSteps
  refine ⟨?_, ?_, ?_, ?_, ?_, ?_, ?_, ?_, ?_⟩
  · exact fun s who q c cells a b hm _ hn hab hlog hheld ha => readCell_writeCells hm hn hab hlog hheld ha
  · intro s who q cells
    cases cells <;> rfl
  · intro s who q lin prop cells hp
    cases cells with
    | nil => rfl
    | cons => exact logWrite_mem hp
  · intro s who q link cells hne
    cases cells with
    | nil => exact absurd rfl hne
    | cons => exact ⟨_, rfl, rfl, rfl, rfl⟩
  · exact fun s w hm hw hid hcells hnums hown hone loc i h => takesIn_bytes h hm hw hid hcells hnums hown hone
  · exact fun s w hw hid hnums loc i h hold => takesIn_whole h hw hid hnums hold
  · exact fun s w hm hw hid hcells hp q i h => replicated_bytes hm hw hid hcells hp h
  · exact fun s pno h hh => hostStoreDrain_spec hh
  · exact fun r cells => ⟨fun hold => by unfold AtomReq.behind; rw [hold]; cases r; cases hold; rfl, fun bs hold => behind_byte hold cells⟩

end Sys2Proof.Laws
end


section
/-! SUPPORT. What the agents that write memory leave alone (R260-R263, R268, R363, R491). -/

namespace Sys2Proof.Laws

open Sys2Proof Sys2Proof.Machine

/-! ### Writes and drains -/

section
variable {s t u : State}

theorem applyTo_views (s : State) (loc : Nat) (w : GWrite) : OnlyViews s (s.applyTo loc w) := applyTops_views s loc _

theorem drainWrite_views (s : State) (w : GWrite) : OnlyViews s (s.drainWrite w) := by
  unfold State.drainWrite
  dsimp only
  split
  · rfl
  · exact onlyViews_trans (show OnlyViews s (s.setWrite _) from rfl) (onlyViews_trans (applyTo_views _ _ _) rfl)

theorem drainUpTo_views (s : State) (w : GWrite) : OnlyViews s (s.drainUpTo w) :=
  onlyViews_foldl _ (fun s i => by
    split
    · exact drainWrite_views _ _
    · exact onlyViews_refl s) _ s

theorem everywhere_views (s : State) (id : Nat) : OnlyViews s (s.everywhere id) := by
  unfold State.everywhere
  split
  · exact onlyViews_refl s
  · dsimp only
    refine onlyViews_trans (t := if _ then _ else s) ?_ (onlyViews_foldl _ (fun s q => ?_) _ _)
    · split
      · exact drainUpTo_views _ _
      · exact onlyViews_refl s
    · split
      · exact onlyViews_refl s
      · split
        · exact onlyViews_refl s
        · split
          · exact propagateWrite_views _ _ _
          · exact replicateWrite_views _ _ _

/-- Only memory, its poison, the records of the order and the host store queues have changed, and identities are used. -/
def OnlyOrder (s t : State) : Prop := t = { s with
  nextId := t.nextId, mem := t.mem, held := t.held, top := t.top, poison := t.poison, log := t.log, bufs := t.bufs
  atoms := t.atoms, hostQ := t.hostQ }

theorem onlyOrder_refl (s : State) : OnlyOrder s s := rfl

theorem OnlyOrder.trans (h : OnlyOrder s t) (h' : OnlyOrder t u) : OnlyOrder s u := by
  unfold OnlyOrder at *
  rw [h', h]

theorem OnlyViews.order (h : OnlyViews s t) : OnlyOrder s t := by
  unfold OnlyViews at h
  unfold OnlyOrder
  rw [h]

theorem onlyOrder_foldl {α : Type} (f : State → α → State) (h : ∀ s a, OnlyOrder s (f s a)) (L : List α) (s : State) :
    OnlyOrder s (L.foldl f s) :=
  List.foldlRecOn L f (motive := OnlyOrder s) (onlyOrder_refl s) fun _ hb a _ => hb.trans (h _ a)

theorem OnlyOrder.gangs (h : OnlyOrder s t) : t.gangs = s.gangs := by rw [h]

theorem drainHost_order (s : State) (pno : Nat) : OnlyOrder s (s.drainHost pno) := by
  unfold State.drainHost
  split <;> rfl

theorem drainHostAll_order (s : State) (pno : Nat) : OnlyOrder s (s.drainHostAll pno) :=
  onlyOrder_foldl _ (fun s _ => drainHost_order s pno) _ s

theorem settleFrom_order (s : State) (first pno : Nat) : OnlyOrder s (s.settleFrom first pno) :=
  (onlyOrder_foldl _ (fun s id => (everywhere_views s id).order) _ s).trans (drainHostAll_order _ pno)

theorem writeCells_order (s : State) (who : Writer) (q : Nat) (c : Cls) (cells : List (Nat × Byte)) :
    OnlyOrder s (s.writeCells who q c cells) ∧ (s.writeCells who q c cells).bufs = s.bufs := by
  unfold State.writeCells
  split
  · exact ⟨onlyOrder_refl s, rfl⟩
  · split
    · exact ⟨rfl, rfl⟩
    · exact ⟨rfl, rfl⟩
    · unfold State.logWrite
      dsimp only
      split <;> exact ⟨rfl, rfl⟩

theorem clearWhole_order (s : State) (all cells : List Nat) : OnlyOrder s (s.clearWhole all cells) := by
  unfold State.clearWhole
  split <;> rfl

theorem writePiece_order (s : State) (who : Writer) (q : Nat) (p : Piece) (all : List Nat) :
    OnlyOrder s (s.writePiece who q p all) := by
  have hclear := (clearWhole_order s all p.cells).trans (clearWhole_order _ all p.tagCells)
  unfold State.writePiece
  dsimp only
  split
  · exact hclear.trans (writeCells_order _ _ _ _ _).1
  · exact hclear.trans (((writeCells_order _ _ _ _ _).1.trans (writeCells_order _ _ _ _ _).1).trans (settleFrom_order _ _ _))

theorem clearWhole_none (h : s.poison = []) (all cells : List Nat) : s.clearWhole all cells = s := by
  unfold State.clearWhole
  rw [h]
  rfl

/-- A piece with no tags writes its bytes, where no unit is poisoned. -/
theorem writePiece_untagged (h : s.poison = []) (who : Writer) (q : Nat) {p : Piece} (ht : p.tagCells = []) (all : List Nat) :
    s.writePiece who q p all = s.writeCells who q p.cls (List.zip p.cells p.data) := by
  unfold State.writePiece
  dsimp only
  rw [clearWhole_none h, clearWhole_none h, ht, List.zip_nil_left, List.append_nil, List.isEmpty_nil, Bool.true_or, if_pos rfl]

end

/-! ### Bandwidth and logs (R363, R491) -/

section
variable {s : State}

theorem charge_rest (s : State) (res l units : Nat) : s.charge res l units = { s with used := (s.charge res l units).used } := by
  unfold State.charge
  split <;> rfl

theorem chargeSector_rest (s : State) (l : Nat) (c : Cls) (cells rest : List Nat) :
    s.chargeSector l c cells rest = { s with used := (s.chargeSector l c cells rest).used } := by
  unfold State.chargeSector
  split
  · split
    · rfl
    · exact charge_rest _ _ _ _
  · rfl

theorem chargePiece_rest (s : State) (l : Nat) (p : Piece) (rest : List Piece) :
    s.chargePiece l p rest = { s with used := (s.chargePiece l p rest).used } := by
  unfold State.chargePiece
  dsimp only
  rw [chargeSector_rest, chargeSector_rest s]

theorem interrupt_rest (s : State) (v : Nat) : s.interrupt v = { s with mgmt := { s.mgmt with irqs := (s.interrupt v).mgmt.irqs } } := by
  unfold State.interrupt
  dsimp only
  split
  · rfl
  · split <;> rfl

theorem logStore_rest (s : State) (kind st pno core stack piece unit : Nat) : s.logStore kind st pno core stack piece unit =
    { s with mgmt := { s.mgmt with
      errlog := (s.logStore kind st pno core stack piece unit).mgmt.errlog
      irqs := (s.logStore kind st pno core stack piece unit).mgmt.irqs } } := by
  unfold State.logStore
  dsimp only
  split
  · rw [interrupt_rest]
  · dsimp only

theorem logError_rest (s : State) (kind a : Nat) : s.logError kind a =
    { s with mgmt := { s.mgmt with errlog := (s.logError kind a).mgmt.errlog, irqs := (s.logError kind a).mgmt.irqs } } :=
  logStore_rest ..

/-- A completion that does not come is logged and reported by its link's function, and changes nothing else (R504). -/
theorem readTimeout_rest (s : State) (p : Piece) : s.readError .timeout p = { s with mgmt := { s.mgmt with
    errlog := (s.readError .timeout p).mgmt.errlog
    irqs := (s.readError .timeout p).mgmt.irqs
    aer := (s.readError .timeout p).mgmt.aer } } := by
  unfold State.readError State.softError
  cases p.cells with
  | nil => rfl
  | cons a as =>
    dsimp only
    split
    · unfold State.aerError
      dsimp only
      rw [logError_rest]
    · rfl

end

end Sys2Proof.Laws
end


section
/-! SUPPORT. The pieces of a stream's head as they perform (R256, R260, R473, R480, R504), and the settled statement. -/

namespace Sys2Proof.Laws

open Sys2Proof Sys2Proof.Machine

/-! ### What a read keeps (R236) -/

section
variable {t : Tab Byte} {lane pos : Nat}

theorem keepBytes_cons (b : Byte) (bs : List Byte) :
    keepBytes t lane pos (b :: bs) = keepBytes (Tab.put t (datumKey lane pos) b) lane (pos + 1) bs := rfl

theorem at_keepBytes_below (bs : List Byte) {j : Nat} (hj : j < pos) :
    Tab.at (keepBytes t lane pos bs) 0#8 (datumKey lane j) = Tab.at t 0#8 (datumKey lane j) := by
  induction bs generalizing t pos with
  | nil => rfl
  | cons b bs ih => rw [keepBytes_cons, ih (Nat.lt_succ_of_lt hj), at_put_ne _ _ _ (by unfold datumKey; omega)]

theorem at_keepBytes (bs : List Byte) {i : Nat} (hi : i < bs.length) :
    Tab.at (keepBytes t lane pos bs) 0#8 (datumKey lane (pos + i)) = bs.getD i 0#8 := by
  induction bs generalizing t pos i with
  | nil => cases hi
  | cons b bs ih =>
    rw [keepBytes_cons]
    cases i with
    | zero =>
      show Tab.at (keepBytes _ lane (pos + 1) bs) 0#8 (datumKey lane pos) = b
      rw [at_keepBytes_below bs (Nat.lt_add_one pos), at_put_same]
    | succ i => rw [show pos + (i + 1) = pos + 1 + i by omega, ih (Nat.lt_of_succ_lt_succ hi)]; rfl

end

/-! ### The bytes of a read (R258) -/

section
variable {s : State} {pno q : Nat} {p : Piece}

/-- Bytes and tags are read each by its own class, unless both lie in one device extent of views. -/
theorem readPiece_cells (h : p.tagCells = [] ∨ p.cls = .plain ∨ (∃ lin, p.cls = .dev lin 2) ∨ p.tagCls ≠ p.cls) :
    s.readPiece pno q p = (p.cells.map (s.readCell pno q p.cls), p.tagCells.map (s.readCell pno q p.tagCls)) := by
  unfold State.readPiece
  split
  · next lin prop hc =>
    refine if_neg fun hall => ?_
    rw [Bool.and_eq_true, Bool.and_eq_true, Bool.not_eq_true', List.isEmpty_eq_false_iff, bne_iff_ne, beq_iff_eq] at hall
    obtain ⟨⟨hp, ht⟩, hcls⟩ := hall
    rcases h with h | h | ⟨lin', h⟩ | h
    · exact ht h
    · rw [hc] at h; cases h
    · rw [hc] at h; cases h; exact hp rfl
    · exact h hcls
  · rfl

theorem readPiece_length : (s.readPiece pno q p).1.length = p.cells.length ∧ (s.readPiece pno q p).2.length = p.tagCells.length := by
  unfold State.readPiece
  split
  · split
    · exact ⟨List.length_map _, List.length_map _⟩
    · exact ⟨List.length_map _, List.length_map _⟩
  · exact ⟨List.length_map _, List.length_map _⟩

end

/-! ### One piece (R260) -/

section
variable {s : State} {key st n : Nat} {g : Gang} {e : Entry} {p : Piece}

/-- The state once a piece of an entry is charged. -/
def charged (s : State) (g : Gang) (e : Entry) (n : Nat) (p : Piece) : State := s.chargePiece g.launch p (e.todo.eraseIdx n)

theorem charged_rest (s : State) (g : Gang) (e : Entry) (n : Nat) (p : Piece) :
    charged s g e n p = { s with used := (charged s g e n p).used } := chargePiece_rest s _ p _

theorem performOne_write (hw : p.wr = true) (hi : ∀ sz d h m x y z, e.instr ≠ .tmov sz d h m x y z) (hc : ∀ link, p.cls ≠ .tso link) :
    s.performOne key st g e n p .none = ((charged s g e n p).writePiece ((charged s g e n p).writerOf key st g p.haddr)
      (quarterOf (coreOf key)) p e.wcells, { e with todo := e.todo.eraseIdx n, checked := true }) := by
  have hdata : e.pieceData p = p := by
    unfold Entry.pieceData
    split
    · next hm => exact absurd hm (hi _ _ _ _ _ _ _)
    · rfl
  have hpoisons : e.poisonsWrite p = [] := by
    unfold Entry.poisonsWrite
    dsimp only
    split
    · next hm => exact absurd hm (hi _ _ _ _ _ _ _)
    · rfl
  have hdown : (charged s g e n p).tsoDown p = false := by
    unfold State.tsoDown
    split
    · next link hm => exact absurd hm (hc link)
    · rfl
  have hlost : (charged s g e n p).lostOn? (SoftErr.none == SoftErr.link) e.id p = none := by
    unfold State.lostOn?
    dsimp only
    rw [hdown, if_neg Bool.false_ne_true, show (SoftErr.none == SoftErr.link) = false from rfl, Bool.and_false, Bool.false_and]
    rfl
  have hlink : linkFailed .none p = false := by
    unfold linkFailed
    split <;> rfl
  unfold State.performOne
  dsimp only
  rw [if_pos hw, hdata, show s.chargePiece g.launch p (e.todo.eraseIdx n) = charged s g e n p from rfl, hlost]
  dsimp only
  rw [hlink, hpoisons]
  rfl

/-- The entry once a read piece has performed: its bytes and tags are kept. -/
def keptEntry (s : State) (key : Nat) (g : Gang) (e : Entry) (n : Nat) (p : Piece) : Entry :=
  { e with
    todo := e.todo.eraseIdx n
    checked := true
    got := keepBytes e.got p.lane p.pos (s.readPiece (s.partOf g) (quarterOf (coreOf key)) p).1
    gotTag := keepBytes e.gotTag p.lane p.tagPos (s.readPiece (s.partOf g) (quarterOf (coreOf key)) p).2 }

theorem readPiece_charged (pno q : Nat) : (charged s g e n p).readPiece pno q p = s.readPiece pno q p := by
  rw [charged_rest]
  rfl

theorem performOne_read (hw : p.wr = false) (hp : s.poison = []) (hc : ∀ link, p.cls ≠ .tso link) :
    s.performOne key st g e n p .none = (charged s g e n p, keptEntry s key g e n p) := by
  have hpoison : (charged s g e n p).poison = [] := by rw [charged_rest]; exact hp
  have hdown : (charged s g e n p).tsoDown p = false := by
    unfold State.tsoDown
    split
    · next link hm => exact absurd hm (hc link)
    · rfl
  have hfailed : readFailed .none p = false := by
    unfold readFailed linkFailed hostFailed
    split <;> simp
  have hread : ∀ bs, (charged s g e n p).readAs .none p bs = bs := fun bs => by
    unfold State.readAs
    rw [hfailed]
    rfl
  unfold State.performOne
  dsimp only
  rw [if_neg (by rw [hw]; exact Bool.false_ne_true), show s.chargePiece g.launch p (e.todo.eraseIdx n) = charged s g e n p from rfl,
    readError_none, poisoned_none hpoison, poisoned_none hpoison, hfailed, hdown, hread, readPiece_charged]
  rfl

/-- A read whose completion does not come: nothing but the charge and the logs, and the lane is bad (R504). -/
theorem performOne_timeout (hw : p.wr = false) (hspace : p.space = 1) (hi : ∀ sz d h m x y z, e.instr ≠ .tmov sz d h m x y z) :
    ∃ e', s.performOne key st g e n p .timeout = ((charged s g e n p).readError .timeout p, e') ∧
      e'.todo = e.todo.eraseIdx n ∧ (Tab.find? e'.bad p.lane).isSome = true := by
  have hfailed : readFailed .timeout p = true := by
    unfold readFailed hostFailed
    rw [hspace]
    simp
  have hkeep : ∀ (e' : Entry) tags, e'.instr = e.instr → e'.keepPoison p true tags = e' := fun e' tags he => by
    unfold Entry.keepPoison
    split
    · next hm => exact absurd (he.symm.trans hm) (hi _ _ _ _ _ _ _)
    · rfl
  have hnote : ∀ t : Tab (Word64 × Nat), (Tab.find? (noteBad t p true) p.lane).isSome = true := fun t => by
    unfold noteBad
    dsimp only
    cases hf : Tab.find? t p.lane with
    | none => rw [find_put_same]; rfl
    | some b =>
      dsimp only
      split
      · rw [find_put_same]; rfl
      · rw [hf]; rfl
  unfold State.performOne
  dsimp only
  rw [if_neg (by rw [hw]; exact Bool.false_ne_true), show s.chargePiece g.launch p (e.todo.eraseIdx n) = charged s g e n p from rfl,
    hfailed]
  simp only [Bool.or_true, Bool.true_or, if_true]
  rw [hkeep]
  · exact ⟨_, rfl, rfl, hnote _⟩
  · rfl

end

/-! ### The head of a stream (R256, R260) -/

section
variable {s : State} {core ctx st n key : Nat} {g : Gang} {e : Entry} {rest : List Entry} {p : Piece} {r : State × Entry}

/-- What becomes of an entry whose piece has performed: it keeps its place, or it has performed. -/
def afterPiece (key st : Nat) (r : State × Entry) : State :=
  if r.2.todo.isEmpty then (r.1.updGang key fun g => g.popHead st).afterPieces key r.2
  else r.1.updGang key fun g => g.updHead st fun _ => r.2

/-- A piece of the head entry of a stream may perform next, and meets no range lock and no atomic; it lies in no TSO extent. -/
structure PieceDue (s : State) (core ctx st n key : Nat) (g : Gang) (e : Entry) (rest : List Entry) (p : Piece) : Prop where
  named : s.keyOf core ctx = some key
  gang : s.gang? key = some g
  head : g.stream st = e :: rest
  stream : st < 16
  byPieces : byPieces e.instr = true
  gate : g.gated e = false
  piece : e.todo[n]? = some p
  may : e.mayPerform n p = true
  lock : e.checked = true ∨ s.conflicts (s.partOf g) e = []
  atom : s.atomHolds p.cells = false
  cls : ∀ link, p.cls ≠ .tso link

theorem performPiece_stream (h : PieceDue s core ctx st n key g e rest p) (err : SoftErr) :
    exec (.performPiece (.stream core ctx st) n err) s = .next (afterPiece key st (s.performOne key st g e n p err)) := by
  have htrap : (if e.checked = true then none else e.lockTrap (s.conflicts (s.partOf g) e)) = none := by
    rcases h.lock with h | h
    · exact if_pos h
    · rw [h]; exact ite_self none
  show Host.Outcome.next (if st = 16 then _ else s.performStream core ctx st n err State.afterPieces) = _
  rw [if_neg h.stream.ne]
  unfold State.performStream
  rw [h.named]
  dsimp only
  rw [h.gang]
  dsimp only
  rw [h.head]
  dsimp only
  rw [h.byPieces, h.gate, h.piece]
  dsimp only
  rw [htrap]
  dsimp only
  rw [h.may, h.atom]
  cases hcls : p.cls with
  | tso link => exact absurd hcls (h.cls link)
  | dev _ _ => rfl
  | plain => rfl

/-- The entry keeps its place at the head of its stream, without its piece. -/
theorem afterPiece_head (hne : r.2.todo.isEmpty = false) (hg : r.1.gang? key = some g) (hst : g.stream st = e :: rest) : ∃ g',
    (afterPiece key st r).gang? key = some g' ∧ g'.stream st = r.2 :: rest ∧ g' = { g with streams := g'.streams } := by
  have hupd : g.updHead st (fun _ => r.2) = g.setStream st (r.2 :: rest) := by
    unfold Gang.updHead
    rw [hst]
  unfold afterPiece
  rw [hne, if_neg Bool.false_ne_true, gang_updGang, if_pos rfl, hg]
  exact ⟨_, congrArg some hupd, (at_setStream g st (List.cons_ne_nil _ _) st).trans (if_pos rfl), rfl⟩

/-- Memory and the order of writes are as they were. -/
structure OrderStands (s t : State) : Prop where
  mem : t.mem = s.mem
  log : t.log = s.log
  hostQ : t.hostQ = s.hostQ
  top : t.top = s.top

theorem finishEntry_order (h : NoAcquire s) (key : Nat) (e : Entry) : OrderStands s (s.finishEntry key e) := by
  have hland : GangsAndViews s (s.land key e.pend e.outs) := gangsAndViews_foldl _ (fun s kg => by
    split
    · exact (gangsAndViews_updGang _ _ _).trans (dropTok_views _ _ _)
    · exact gangsAndViews_refl s) _ s
  have hdone : GangsAndViews s (if e.pend = 0 then s.dropTok key e.tok else s.land key e.pend e.outs) := by
    split
    · exact dropTok_views s key e.tok
    · exact hland
  have hdefer : ∀ (u : State) d, (u.defer key d).hostQ = u.hostQ ∧ (u.defer key d).top = u.top := fun u d => by
    unfold State.defer
    split
    · exact ⟨rfl, rfl⟩
    · split
      · exact ⟨rfl, rfl⟩
      · split
        · exact ⟨updLaunch_hostQ .., updLaunch_top ..⟩
        · exact ⟨rfl, rfl⟩
  have hstands := finishEntry_stands h key e
  refine ⟨hstands.mem, hstands.log, ?_, ?_⟩
  · unfold State.finishEntry
    dsimp only
    split
    · rw [hdone]
    · rw [(hdefer _ _).1, hdone]
  · unfold State.finishEntry
    dsimp only
    split
    · rw [hdone]
    · rw [(hdefer _ _).2, hdone]

/-- What follows a piece touches no memory and no order, where nothing is to be acquired. -/
theorem afterPiece_order (h : r.2.todo.isEmpty = false ∨ NoAcquire r.1)
    (hi : ∀ vd va l x k, r.2.instr ≠ .ctxload vd va l x k) : OrderStands r.1 (afterPiece key st r) := by
  unfold afterPiece
  split
  · next hempty =>
    have hdone : (r.1.updGang key fun g => g.popHead st).afterPieces key r.2 =
        (r.1.updGang key fun g => g.popHead st).finishEntry key r.2 := by
      unfold State.afterPieces
      split
      · next hm => exact absurd hm (hi _ _ _ _ _)
      · rfl
    have hacq := h.resolve_left (by rw [hempty]; exact Bool.true_eq_false.mp)
    have hfin := finishEntry_order (noAcquire_updGang hacq key (f := fun g => g.popHead st) fun _ => rfl) key r.2
    rw [hdone]
    exact ⟨hfin.mem.trans (updGang_mem ..), hfin.log.trans (updGang_log ..), hfin.hostQ.trans (updGang_hostQ ..),
      hfin.top.trans (updGang_top ..)⟩
  · exact ⟨updGang_mem .., updGang_log .., updGang_hostQ .., updGang_top ..⟩

end

/-! ### The statement's clauses -/

section
variable {s : State} {core ctx st n key : Nat} {g : Gang} {e : Entry} {rest : List Entry} {p : Piece}

theorem PieceDue.left (h : PieceDue s core ctx st n key g e rest p) (hlen : e.todo.length ≠ 1) : (e.todo.eraseIdx n).isEmpty = false := by
  obtain ⟨hn, -⟩ := List.getElem?_eq_some_iff.1 h.piece
  rw [List.isEmpty_eq_false_iff, ← List.length_pos_iff, List.length_eraseIdx_of_lt hn]
  omega

theorem noAcquire_of {u : State} (hb : u.bufs = s.bufs) (hg : u.gangs = s.gangs)
    (h : s.bufs = [] ∨ ∀ kg ∈ s.gangs, kg.2.owed = []) : NoAcquire u := by
  rw [← hb, ← hg] at h
  exact h.imp unwritten_of_nil unowed_of_all

/-- The state that a write piece of an untagged extent leaves of memory and the order. -/
def pieceWritten (s : State) (st n key : Nat) (g : Gang) (e : Entry) (p : Piece) : State :=
  (charged s g e n p).writeCells ((charged s g e n p).writerOf key st g p.haddr) (quarterOf (coreOf key)) p.cls (List.zip p.cells p.data)

/-- R260: a write piece performs; the order of entries stands, and nothing that the entry has read changes. -/
theorem performPiece_write (h : PieceDue s core ctx st n key g e rest p) (hpoison : s.poison = [])
    (hmov : ∀ sz d h m x y z, e.instr ≠ .tmov sz d h m x y z) (hload : ∀ vd va l x k, e.instr ≠ .ctxload vd va l x k)
    (hacq : e.todo.length ≠ 1 ∨ s.bufs = [] ∨ ∀ kg ∈ s.gangs, kg.2.owed = []) (hw : p.wr = true) :
    ∃ t, exec (.performPiece (.stream core ctx st) n .none) s = .next t ∧
      (e.todo.length ≠ 1 → ∃ g', t.gang? key = some g' ∧ g'.stream st = { e with todo := e.todo.eraseIdx n, checked := true } :: rest ∧
        g' = { g with streams := g'.streams }) ∧
      (p.tagCells = [] → OrderStands (pieceWritten s st n key g e p) t) := by
  refine ⟨_, performPiece_stream h .none, ?_, ?_⟩ <;> rw [performOne_write hw hmov h.cls]
  · intro hlen
    refine afterPiece_head (h.left hlen) ?_ h.head
    unfold State.gang?
    rw [(writePiece_order _ _ _ _ _).gangs, charged_rest]
    exact h.gang
  · intro ht
    rw [writePiece_untagged (by rw [charged_rest]; exact hpoison) _ _ ht]
    obtain ⟨horder, hbufs⟩ := writeCells_order (charged s g e n p) ((charged s g e n p).writerOf key st g p.haddr)
      (quarterOf (coreOf key)) p.cls (List.zip p.cells p.data)
    refine afterPiece_order (r := (_, _)) ?_ hload
    exact hacq.imp h.left fun hnone => noAcquire_of (hbufs.trans (by rw [charged_rest])) (horder.gangs.trans (by rw [charged_rest])) hnone

/-- R260: a read piece performs; its bytes and tags are kept. -/
theorem performPiece_read (h : PieceDue s core ctx st n key g e rest p) (hpoison : s.poison = [])
    (hload : ∀ vd va l x k, e.instr ≠ .ctxload vd va l x k)
    (hacq : e.todo.length ≠ 1 ∨ s.bufs = [] ∨ ∀ kg ∈ s.gangs, kg.2.owed = []) (hw : p.wr = false) :
    ∃ t, exec (.performPiece (.stream core ctx st) n .none) s = .next t ∧
      (e.todo.length ≠ 1 → ∃ g', t.gang? key = some g' ∧ g'.stream st = keptEntry s key g e n p :: rest ∧
        g' = { g with streams := g'.streams }) ∧ OrderStands (charged s g e n p) t := by
  refine ⟨_, performPiece_stream h .none, ?_, ?_⟩ <;> rw [performOne_read hw hpoison h.cls]
  · intro hlen
    refine afterPiece_head (h.left hlen) ?_ h.head
    rw [charged_rest]
    exact h.gang
  · exact afterPiece_order (r := (charged s g e n p, keptEntry s key g e n p))
      (hacq.imp h.left fun hnone => noAcquire_of (by rw [charged_rest]) (by rw [charged_rest]) hnone) hload

/-- R257: a device write piece is the last write of the order, with the next number of each of its granules. -/
theorem pieceWritten_device {lin : Bool} {prop : Nat} (hc : p.cls = .dev lin prop) (hp : prop ≠ 2) (hne : p.cells ≠ [])
    (hlen : p.data.length = p.cells.length) (hn : p.cells.Nodup) : (pieceWritten s st n key g e p).mem = s.mem ∧
    ∃ w, (pieceWritten s st n key g e p).log = s.log ++ [w] ∧ w.inPath = true ∧ w.lin = lin ∧ w.prop = prop ∧
      w.quarter = quarterOf (coreOf key) ∧ w.gang = key ∧ (∀ a b, (a, b) ∈ List.zip p.cells p.data → Tab.find? w.cells a = some b) ∧
      ∀ a ∈ p.cells, w.num (a / 16) = Tab.at s.top 0 (a / 16) + 1 ∧ Tab.at (pieceWritten s st n key g e p).top 0 (a / 16) = w.num (a / 16) := by
  have hkeys : (List.zip p.cells p.data).map (·.1) = p.cells := List.map_fst_zip hlen.ge
  have hzip : (List.zip p.cells p.data).isEmpty = false := by
    rw [List.isEmpty_eq_false_iff]
    exact fun hnil => hne (by rw [← hkeys, hnil]; rfl)
  have hwritten : pieceWritten s st n key g e p = ((charged s g e n p).logWrite ((charged s g e n p).writerOf key st g p.haddr)
      (quarterOf (coreOf key)) lin prop (List.zip p.cells p.data) true).1 := by
    unfold pieceWritten State.writeCells
    rw [hzip, hc]
    rfl
  have hmem : (charged s g e n p).mem = s.mem := by rw [charged_rest]
  have hlog : (charged s g e n p).log = s.log := by rw [charged_rest]
  have htop : (charged s g e n p).top = s.top := by rw [charged_rest]
  rw [hwritten]
  refine ⟨(logWrite_mem hp).trans hmem, _, by rw [logWrite_log, hlog], rfl, rfl, rfl, rfl, rfl, ?_, fun a ha => ?_⟩
  · exact fun a b hab => logWrite_cells (by rw [hkeys]; exact hn) hab
  · rw [← hkeys] at ha
    obtain ⟨ab, hab, rfl⟩ := List.mem_map.1 ha
    exact ⟨by rw [logWrite_num hab, htop], logWrite_top hab⟩

/-- R504: a read of host memory whose completion does not come performs, and its lane is bad. -/
theorem completionTimeout_read (h : PieceDue s core ctx st n key g e rest p) (hlen : e.todo.length ≠ 1)
    (hmov : ∀ sz d h m x y z, e.instr ≠ .tmov sz d h m x y z) (hw : p.wr = false) (hspace : p.space = 1) :
    ∃ t g' e', exec (.performPiece (.stream core ctx st) n .timeout) s = .next t ∧
      t = { s with
        gangs := t.gangs
        used := t.used
        mgmt := { s.mgmt with errlog := t.mgmt.errlog, irqs := t.mgmt.irqs, aer := t.mgmt.aer } } ∧
      t.gang? key = some g' ∧ g' = { g with streams := g'.streams } ∧ g'.stream st = e' :: rest ∧ e'.todo = e.todo.eraseIdx n ∧
      (Tab.find? e'.bad p.lane).isSome = true := by
  obtain ⟨e', hone, htodo, hbad⟩ := performOne_timeout (s := s) (key := key) (st := st) (n := n) (g := g) hw hspace hmov
  have hempty : e'.todo.isEmpty = false := htodo ▸ h.left hlen
  have hgang : ((charged s g e n p).readError .timeout p).gang? key = some g := by
    rw [readTimeout_rest, charged_rest]
    exact h.gang
  obtain ⟨g', hg', hst', hrest⟩ := afterPiece_head (r := ((charged s g e n p).readError .timeout p, e')) hempty hgang h.head
  refine ⟨_, g', e', (performPiece_stream h .timeout).trans (by rw [hone]), ?_, hg', hrest, hst', htodo, hbad⟩
  unfold afterPiece
  rw [hempty, if_neg Bool.false_ne_true, updGang_rest]
  dsimp only
  rw [readTimeout_rest, charged_rest]

end

/-! ### Completions and retries (R480, R504) -/

section
variable {s : State} {agent : Agent} {n fails : Nat} {p : Piece}

/-- A transfer waits for the host where it reads host memory, and an atomic's always. -/
theorem awaitsHost_iff (hp : s.agentPiece? agent n = some p) :
    s.awaitsHost agent n = true ↔ p.space = 1 ∧ (p.wr = false ∨ ∃ pno cluster, agent = .atomic pno cluster) := by
  unfold State.awaitsHost
  split
  · cases hp
  · rw [hp, Option.any_some, beq_iff_eq]
    exact ⟨fun h => ⟨h, .inr ⟨_, _, rfl⟩⟩, fun h => h.1⟩
  · next hatomic =>
    rw [hp, Option.any_some, Bool.and_eq_true, Bool.not_eq_true', beq_iff_eq]
    exact ⟨fun h => ⟨h.2, .inl h.1⟩, fun h => ⟨h.2.resolve_right fun ⟨pno, cluster, ha⟩ => hatomic pno cluster ha, h.1⟩⟩

theorem agentAddr_eq (hp : s.agentPiece? agent n = some p) {lin : Bool} {prop : Nat} (hc : p.cls = .dev lin prop) :
    s.agentAddr? agent n = p.cells.head? := by
  unfold State.agentAddr?
  split
  · cases hp
  · rw [hp, Option.bind_some, hc]

/-- R480: a transfer across a stack interface that is tried again. -/
theorem interfaceRetry_spec (hp : s.agentPiece? agent n = some p) {lin : Bool} {prop : Nat} (hc : p.cls = .dev lin prop)
    (hne : p.cells ≠ []) :
    (4 ≤ fails → exec (.interfaceRetry agent n fails) s = exec (.performPiece agent n .link) s) ∧
    (fails = 0 → exec (.interfaceRetry agent n fails) s = .next s) ∧
    (0 < fails → fails < 4 → ∃ t, exec (.interfaceRetry agent n fails) s = .next t ∧
      t = { s with mgmt := { s.mgmt with errlog := t.mgmt.errlog, irqs := t.mgmt.irqs } }) := by
  obtain ⟨a, as, hcells⟩ := List.exists_cons_of_ne_nil hne
  have hstep : exec (.interfaceRetry agent n fails) s =
      if 4 ≤ fails then exec (.performPiece agent n .link) s else .next (if fails = 0 then s else s.logError 4 a) := by
    show execInterfaceRetry agent n fails s = _
    unfold execInterfaceRetry
    rw [agentAddr_eq hp hc, hcells]
    rfl
  rw [hstep]
  refine ⟨fun h4 => if_pos h4, fun h0 => ?_, fun hpos hlt => ⟨s.logError 4 a, ?_, logError_rest s 4 a⟩⟩
  · rw [if_neg (by omega), if_pos h0]
  · rw [if_neg (by omega), if_neg (by omega)]

/-- R486: an address whose unit is marked counts as poisoned. -/
theorem poisoned_poisonCells {cells : List Nat} {a : Nat} (ha : a ∈ cells) : (s.poisonCells cells).poisoned [a] = true := by
  obtain ⟨u, hu⟩ : ∃ u, u ∈ poisonUnit a := by
    unfold poisonUnit
    split
    · exact ⟨_, List.mem_cons_self⟩
    · exact ⟨_, List.mem_cons_self⟩
  have hmark : Tab.find? (s.poisonCells cells).poison u = some () :=
    find_fillSame id () _ (List.mem_flatMap.2 ⟨a, ha, hu⟩) s.poison
  have hsome : (s.poisonCells cells).poison.isEmpty = false := by
    rw [List.isEmpty_eq_false_iff]
    exact List.ne_nil_of_mem (mem_of_find hmark)
  unfold State.poisoned
  rw [hsome, List.any_cons, List.any_nil, Bool.or_false, Bool.not_false, Bool.true_and, List.any_eq_true]
  exact ⟨u, hu, by rw [hmark]; rfl⟩

end

/-- Settles O33: a piece's step is its transfer, `performOne`, and what becomes of its entry; the first changes memory or
what the entry has read, the second only the stream. -/
theorem piecesPerform : Obligations.PiecesPerform := by
  unfold Obligations.PiecesPerform
  refine ⟨?_, ?_, ?_, ?_, ?_, ?_⟩
  · intro s core ctx st n key g e rest p hkey hg hst hlt hby hgate hp hmay hlock hpoison hmov hload hc hatom hacq
    have hdue : PieceDue s core ctx st n key g e rest p := ⟨hkey, hg, hst, hlt, hby, hgate, hp, hmay, hlock, hatom, hc⟩
    cases hw : p.wr with
    | true =>
      obtain ⟨t, hexec, hhead, hwritten⟩ := performPiece_write hdue hpoison hmov hload hacq hw
      refine ⟨t, hexec, fun hlen => ?_, fun _ ht hplain => ?_, fun lin prop _ ht hdev hprop hne hdata hn => ?_, fun h => nomatch h⟩
      · obtain ⟨g', hg', hst', hrest⟩ := hhead hlen
        exact ⟨g', _, hg', hst', rfl, rfl, hrest, fun _ => ⟨rfl, rfl⟩⟩
      · obtain ⟨hmem, hlog, hhost, -⟩ := hwritten ht
        rw [hmem, hlog, hhost]
        unfold pieceWritten
        rw [hplain, charged_rest]
        cases List.zip p.cells p.data <;> exact ⟨rfl, rfl, rfl⟩
      · obtain ⟨hmem, hlog, -, htop⟩ := hwritten ht
        rw [hmem, hlog, htop]
        exact pieceWritten_device hdev hprop hne hdata hn
    | false =>
      obtain ⟨t, hexec, hhead, hmem, hlog, hhost, -⟩ := performPiece_read hdue hpoison hload hacq hw
      refine ⟨t, hexec, fun hlen => ?_, fun h => (nomatch h), fun _ _ h => (nomatch h), fun _ => ⟨?_, ?_, ?_, fun hlen => ?_⟩⟩
      · obtain ⟨g', hg', hst', hrest⟩ := hhead hlen
        exact ⟨g', _, hg', hst', rfl, rfl, hrest, fun h => nomatch h⟩
      · rw [hmem, charged_rest]
      · rw [hlog, charged_rest]
      · rw [hhost, charged_rest]
      · obtain ⟨g', hg', hst', -⟩ := hhead hlen
        obtain ⟨hbytes, htags⟩ := readPiece_length (s := s) (pno := s.partOf g) (q := quarterOf (coreOf key)) (p := p)
        exact ⟨g', _, hg', hst', fun i hi => at_keepBytes _ (hbytes.symm ▸ hi), fun i hi => at_keepBytes _ (htags.symm ▸ hi)⟩
  · exact fun s pno q p h => readPiece_cells h
  · intro s agent n p hp
    dsimp only
    rw [← awaitsHost_iff hp]
    exact ⟨fun h => if_pos h, fun h => if_neg h⟩
  · intro s core ctx st n key g e rest p hkey hg hst hlt hby hgate hp hlen hlock hmov hplain hw hspace hatom
    have hpiece : s.agentPiece? (.stream core ctx st) n = some p := by
      show ((s.keyOf core ctx).bind s.gang?).bind _ = _
      rw [hkey, Option.bind_some, hg, Option.bind_some, hst]
      exact hp
    have hmay : e.mayPerform n p = true := by
      unfold Entry.mayPerform
      rw [hw, if_neg Bool.false_ne_true]
    rw [show exec (.completionTimeout (.stream core ctx st) n) s = exec (.performPiece (.stream core ctx st) n .timeout) s from
      if_pos ((awaitsHost_iff hpiece).2 ⟨hspace, .inl hw⟩)]
    exact completionTimeout_read ⟨hkey, hg, hst, hlt, hby, hgate, hp, hmay, hlock, hatom, fun link h => by rw [hplain] at h; cases h⟩
      hlen hmov hw hspace
  · exact fun s cells a ha => poisoned_poisonCells ha
  · exact fun s agent n fails p lin prop hp hc hne => interfaceRetry_spec hp hc hne

end Sys2Proof.Laws
end


section
/-! SUPPORT. A follow-on of a copy that faulted (R287, R463), and the refutation of the statement on the engines' steps. -/

namespace Sys2Proof.Laws

open Sys2Proof Sys2Proof.Machine

/-- An XCOPYM into operand slot 5 that has ended with fault 1. -/
def faultedCopy : Op :=
  { Op.ofPre ⟨9, 65536, 1, .xcopym false 1#6 0#10 5#5 6#5 0#3 0#3 0#3 0#2 0#2 0#3, 0xF#32, [], 0#64, 0, 0, [], none, false, false⟩ 1 0 with
    phase := .ended, fault := 1 }

/-- The MMA that follows it, as it queues: dead, since its copy faulted (R287). -/
def deadPre : Pre :=
  ⟨9, 65536, 1, .mma 0#3 5#5 6#5 0#3 0#3 0#2 0#2 false 0#3, 0xF#32, [(0, [intImg 5#32])], 0#64, 0, 0, [], none, true, true⟩

/-- The model queues the follow-on so, once its copy has faulted. -/
theorem followOn_faultedCopy : followOn faultedCopy = some deadPre := by decide +kernel

/-- The state in which the follow-on alone has registered, as operation 1 of core 0's matrix unit. -/
def followRegistered : State := State.reset.register 0 1 0 deadPre

/-- The fault noted at its start is 11 with the operand slot as ARG (R463). -/
theorem opFault_follow : followRegistered.opFault 0 (Op.ofPre deadPre 1 0) = some (11, 5) := by decide +kernel

/-- An operation that already has the fault, as a follow-on of a copy that faulted has, keeps the ARG it had: the follow-on
ends with ARG 0. -/
theorem matrixGo_follow : ∀ o ∈ ((followRegistered.matrixGo 0 (Op.ofPre deadPre 1 0)).engine 0 1).ops, o.fault = 11 ∧ o.arg = 0 := by
  decide +kernel

/-- Refutes O39: the clause on a matrix operation that meets a fault at its start says that the operation ends with the ARG
noted. The follow-on of a copy that faulted registers with fault 11 and ARG 0; its start notes ARG 5, its operand slot, in
the fault word, and the operation keeps ARG 0. -/
theorem not_engineSteps : ¬ Obligations.EngineSteps := by
  rintro ⟨-, -, -, -, hfault, -⟩
  obtain ⟨-, -, o, ho, -, -, -, harg⟩ := hfault followRegistered 0 (Op.ofPre deadPre 1 0) 11 5 opFault_follow
    (by decide +kernel) (by decide +kernel)
  exact absurd (harg.symm.trans (matrixGo_follow o ho).2) (by decide)

end Sys2Proof.Laws
end

section
/-! SUPPORT. Doorbells, packets and their completion (R353-R360, R414, R415). -/

namespace Sys2Proof.Laws

open Sys2Proof Sys2Proof.Machine

/-! ### Doorbells (R354, R414) -/

section
variable {s : State} {n q : Nat}

theorem doorbellWrite_rings (hq : q < 65536) (hpart : (s.queue q).part ≠ 31) :
    exec (.doorbellWrite q 0 4) s = .next (s.updQueue q fun x => { x with tail := x.tail + 1#32 }) := by
  have hno : ((decide (65536 ≤ q) || (0 : Nat) != 0 || (4 : Nat) != 4) || (s.queue q).part == 31) = false := by
    rw [decide_eq_false (Nat.not_le_of_lt hq), beq_eq_false_iff_ne.2 hpart]
    rfl
  show Host.Outcome.next (if _ then _ else _) = _
  rw [hno]
  rfl

theorem doorbellWrite_none {ofs size : Nat} (h : 65536 ≤ q ∨ ofs ≠ 0 ∨ size ≠ 4 ∨ (s.queue q).part = 31) :
    exec (.doorbellWrite q ofs size) s = .next s := by
  have hyes : (decide (65536 ≤ q) || ofs != 0 || size != 4 || (s.queue q).part == 31) = true := by
    simpa only [Bool.or_eq_true, decide_eq_true_eq, bne_iff_ne, beq_iff_eq, or_assoc] using h
  show Host.Outcome.next (if _ then _ else _) = _
  rw [hyes]
  rfl

end

/-! ### Messages (R415, R505) -/

section
variable {s : State} {v : Nat}

theorem interrupt_sends {v' : Nat} (h : s.interrupt v = { s with mgmt := { s.mgmt with irqs := Tab.upd s.mgmt.irqs 0 v' (· + 1) } })
    (k : Nat) : Tab.at (s.interrupt v).mgmt.irqs 0 k = if k = v' then Tab.at s.mgmt.irqs 0 k + 1 else Tab.at s.mgmt.irqs 0 k := by
  rw [h]
  show Tab.at (Tab.put _ _ _) 0 k = _
  rw [at_put]
  by_cases hk : v' = k
  · rw [if_pos hk, if_pos hk.symm, hk]
  · rw [if_neg hk, if_neg (Ne.symm hk)]

/-- A message goes over its vector's link, or over the other one while that is down. -/
theorem interrupt_spec (hv : v < 2048) :
    (s.links.getLsbD (v / 1024) = true →
      s.interrupt v = { s with mgmt := { s.mgmt with irqs := Tab.upd s.mgmt.irqs 0 v (· + 1) } }) ∧
    (s.links.getLsbD (v / 1024) = false → s.links.getLsbD (1 - v / 1024) = true → s.interrupt v =
      { s with mgmt := { s.mgmt with irqs := Tab.upd s.mgmt.irqs 0 ((1 - v / 1024) * 1024 + v % 1024) (· + 1) } }) ∧
    (s.links = 0#2 → s.interrupt v = s) := by
  have hlink : v / 1024 % 2 = v / 1024 := Nat.mod_eq_of_lt (by omega)
  unfold State.interrupt
  dsimp only
  rw [hlink]
  refine ⟨fun hup => ?_, fun hdown hup => ?_, fun hnone => ?_⟩
  · rw [if_pos hup, Nat.div_add_mod']
  · rw [if_neg (by rw [hdown]; exact Bool.false_ne_true), if_pos hup]
  · rw [hnone, if_neg (by rw [BitVec.getLsbD_zero]; exact Bool.false_ne_true), if_neg (by rw [BitVec.getLsbD_zero]; exact Bool.false_ne_true)]

/-- R358: the oldest packet that has its status is counted, and asks for its message. -/
theorem packetComplete_spec {n c : Nat} {t0 : Taken} {rest : List Taken} (ht : (s.queue n).taken = t0 :: rest) (hc : t0.status = some c) :
    ∃ t, exec (.packetComplete n) s = .next t ∧
    t.queue n = { s.queue n with
      comp := (s.queue n).comp + 1#48
      lstat := BitVec.ofNat 8 c
      taken := rest } ∧ (∀ m, m ≠ n → t.queue m = s.queue m) ∧ t.mem = s.mem ∧
    t.mgmt = (if t0.irq = true then (s.interrupt (s.queue n).vector).mgmt else s.mgmt) := by
  set u := s.setQueue n { s.queue n with comp := (s.queue n).comp + 1#48, lstat := BitVec.ofNat 8 c, taken := rest } with hu
  have hstep : exec (.packetComplete n) s = .next (if t0.irq then u.interrupt (s.queue n).vector else u) := by
    show Host.Outcome.next (match (s.queue n).taken with | [] => _ | t :: rest => _) = _
    rw [ht]
    dsimp only
    rw [hc]
  have hqueue : ∀ m, u.queue m = if n = m then { s.queue n with
      comp := (s.queue n).comp + 1#48
      lstat := BitVec.ofNat 8 c
      taken := rest } else s.queue m := fun m => queue_setQueue s n m _
  have hsame : ∀ m, (u.interrupt (s.queue n).vector).queue m = u.queue m := fun m => by rw [interrupt_rest]; rfl
  have hmgmt : (u.interrupt (s.queue n).vector).mgmt = (s.interrupt (s.queue n).vector).mgmt := by
    unfold State.interrupt
    dsimp only
    rw [hu, setQueue_links, setQueue_mgmt]
    split
    · rfl
    · split <;> rfl
  refine ⟨_, hstep, ?_⟩
  split
  · rw [hsame, hqueue, if_pos rfl, interrupt_mem, hmgmt]
    exact ⟨rfl, fun m hm => by rw [hsame, hqueue, if_neg (Ne.symm hm)], rfl, rfl⟩
  · rw [hqueue, if_pos rfl]
    exact ⟨rfl, fun m hm => by rw [hqueue, if_neg (Ne.symm hm)], rfl, rfl⟩

end

/-! ### Launches begin (R359) -/

section
variable {s t u : State} {n : Nat}

theorem launch_updLaunch (s : State) (l j : Nat) (f : Launch → Launch) :
    (s.updLaunch l f).launch? j = if l = j then (s.launch? j).map f else s.launch? j := by
  unfold State.updLaunch
  split
  · next x hl =>
    rw [launch_setLaunch]
    split
    · next hj => rw [← hj, hl]; rfl
    · rfl
  · next hl =>
    split
    · next hj => rw [← hj, hl]; rfl
    · rfl

/-- The queues stand, and a launch stands but for where its gangs are. -/
structure Placing (n : Nat) (s t : State) : Prop where
  queues : t.queues = s.queues
  launch : ∀ y, s.launch? n = some y → ∃ gangs, t.launch? n = some { y with gangs := gangs }

theorem placing_refl (n : Nat) (s : State) : Placing n s s := ⟨rfl, fun y hy => ⟨y.gangs, hy⟩⟩

theorem Placing.trans (h : Placing n s t) (h' : Placing n t u) : Placing n s u := by
  refine ⟨h'.queues.trans h.queues, fun y hy => ?_⟩
  obtain ⟨gangs, ht⟩ := h.launch y hy
  obtain ⟨gangs', hu⟩ := h'.launch _ ht
  exact ⟨gangs', hu⟩

theorem placing_foldl {α : Type} (f : State → α → State) (h : ∀ s a, Placing n s (f s a)) (L : List α) (s : State) :
    Placing n s (L.foldl f s) :=
  List.foldlRecOn L f (motive := Placing n s) (placing_refl n s) fun _ hb a _ => hb.trans (h _ a)

theorem placing_of_same (hq : t.queues = s.queues) (hl : t.launches = s.launches) : Placing n s t :=
  ⟨hq, fun y hy => ⟨y.gangs, by unfold State.launch? at hy ⊢; rw [hl]; exact hy⟩⟩

theorem placing_member (s : State) (k : Nat) (g : Gang) (f : Launch → Tab Nat) :
    Placing n s ((s.setGang k g).updLaunch n fun y => { y with gangs := f y }) :=
  ⟨(updLaunch_queues ..).trans rfl, fun y hy => ⟨f y, by
    rw [launch_updLaunch, if_pos rfl, show (s.setGang k g).launch? n = some y from hy]; rfl⟩⟩

theorem createTeam_placing (s : State) (x : Launch) (arg : Word64) (prio : Nat) (pl : Place) :
    Placing n s (s.createTeam n x arg prio pl) := by
  unfold State.createTeam
  split
  · exact placing_refl n s
  · dsimp only
    split
    · refine Placing.trans ?_ (placing_of_same (updCore_queues ..) (updCore_launches ..))
      exact placing_foldl _ (fun u mk => placing_member u _ _ _) _ s
    · exact placing_foldl _ (fun u mk => placing_member u _ _ _) _ s

theorem acquireIn_placing (s : State) (q : Nat) (o : Obj) : Placing n s (s.acquireIn q o) := by
  have hviews : OnlyViews s (s.acquireIn q o) := onlyViews_foldl _ (fun _ _ => acquireWrite_views _ _ _) _ s
  exact placing_of_same (by rw [hviews]) (by rw [hviews])

/-- R359: a launch as it begins. -/
theorem createLaunch_spec (s : State) (pno queue packet prio : Nat) (pl : Plan) (gs : List Group) (ps : List Place) (arg : Word64) :
    (s.createLaunch pno queue packet prio pl gs ps arg).queues = s.queues ∧ ∃ gangs,
      (s.createLaunch pno queue packet prio pl gs ps arg).launch? s.nextId =
        some ⟨pno, queue, packet, pl.roles, pl.slots, gs, pl.binds, gangs, [], none⟩ := by
  have hall : Placing s.nextId (({ s with nextId := s.nextId + 1 } : State).setLaunch s.nextId
      ⟨pno, queue, packet, pl.roles, pl.slots, gs, pl.binds, [], [], none⟩) (s.createLaunch pno queue packet prio pl gs ps arg) := by
    unfold State.createLaunch
    dsimp only
    refine Placing.trans ?_ (placing_foldl (fun (u : State) (qo : Nat × Obj) => u.acquireIn qo.1 qo.2)
      (fun u qo => acquireIn_placing u qo.1 qo.2) _ _)
    exact placing_foldl _ (fun u p => createTeam_placing u _ arg prio p) ps _
  exact ⟨hall.queues, hall.launch _ ((launch_setLaunch _ _ _ _).trans (if_pos rfl))⟩

end

/-! ### The head packet (R357, R360) -/

section
variable {s : State} {n : Nat} {h : Head} {pl : Plan}

/-- A queue keeps its head packet as read. -/
def keepHead (s : State) (n : Nat) (h : Head) : State := { s with lost := [] }.updQueue n fun x => { x with packet := some h }

theorem takePacket_eq (hh : s.hasHead (s.queue n) = true) : exec (.takePacket n) s = .next
    (match s.headTake (s.queue n) (s.headOf (s.queue n)) with
    | .wait => keepHead s n (s.headOf (s.queue n))
    | .hold pl => keepHead s n { s.headOf (s.queue n) with plan := some pl }
    | t => if s.servesNext n (s.queue n) then s.heard.takeHead n (s.queue n) (s.headOf (s.queue n)) t
      else keepHead s n (s.headOf (s.queue n))) := by
  show Host.Outcome.next (if (!s.hasHead (s.queue n)) = true then _ else _) = _
  rw [hh]
  rfl

theorem takePacket_goes (hh : s.hasHead (s.queue n) = true) {t : Take} (ht : s.headTake (s.queue n) (s.headOf (s.queue n)) = t)
    (hg : t.goes = true) : exec (.takePacket n) s = .next (if s.servesNext n (s.queue n) then
      s.heard.takeHead n (s.queue n) (s.headOf (s.queue n)) t else keepHead s n (s.headOf (s.queue n))) := by
  rw [takePacket_eq hh, ht]
  cases t with
  | done c => rfl
  | launch pl gs ps => rfl
  | hold pl => cases hg
  | wait => cases hg

/-- A packet leaves its queue with its status. -/
theorem takeHead_done (s : State) (n : Nat) (h : Head) (c : Nat) : let t := s.heard.takeHead n (s.queue n) h (.done c)
    t = { s with queues := t.queues, parts := t.parts, lost := [] } ∧
    t.queue n = { s.queue n with
      head := (s.queue n).head + 1#32
      taken := (s.queue n).taken ++ [⟨(s.queue n).head.toNat, some c, Packet.irq ⟨h.words⟩, Packet.serial ⟨h.words⟩⟩]
      packet := none } ∧ ∀ m, m ≠ n → t.queue m = s.queue m := by
  have hqueue : ∀ m, (s.heard.takeHead n (s.queue n) h (.done c)).queue m = (s.heard.updQueue n fun x => { x with
      head := x.head + 1#32
      taken := x.taken ++ [⟨(s.queue n).head.toNat, some c, Packet.irq ⟨h.words⟩, Packet.serial ⟨h.words⟩⟩]
      packet := none }).queue m := fun _ => rfl
  refine ⟨rfl, ?_, fun m hm => ?_⟩
  · rw [hqueue, queue_updQueue, if_pos rfl]
    rfl
  · rw [hqueue, queue_updQueue, if_neg (Ne.symm hm)]
    rfl

/-- The state once a packet that becomes a launch has left its queue. -/
def leftHead (s : State) (n : Nat) (h : Head) : State :=
  (s.heard.updQueue n fun x => { x with
    head := x.head + 1#32
    taken := x.taken ++ [⟨(s.queue n).head.toNat, none, Packet.irq ⟨h.words⟩, Packet.serial ⟨h.words⟩⟩]
    packet := none }).updPart (s.queue n).part fun p => { p with served := Tab.put p.served (s.queue n).prio n }

theorem leftHead_queue (s : State) (n : Nat) (h : Head) : (leftHead s n h).queue n = { s.queue n with
    head := (s.queue n).head + 1#32
    taken := (s.queue n).taken ++ [⟨(s.queue n).head.toNat, none, Packet.irq ⟨h.words⟩, Packet.serial ⟨h.words⟩⟩]
    packet := none } := by
  unfold leftHead
  rw [show ∀ (u : State) p f, (u.updPart p f).queue n = u.queue n from fun _ _ _ => rfl, queue_updQueue, if_pos rfl]
  rfl

/-- A packet leaves its queue as its launch begins. -/
theorem takeHead_launch (s : State) (n : Nat) (h : Head) (pl : Plan) (gs : List Group) (ps : List Place) :
    let t := s.heard.takeHead n (s.queue n) h (.launch pl gs ps)
    ∃ l, t.launch? s.nextId = some l ∧ l.pno = (s.queue n).part ∧ l.queue = n ∧ l.halt = none ∧ l.roles = pl.roles ∧ l.groups = gs ∧
      (t.queue n).head = (s.queue n).head + 1#32 ∧ (t.queue n).packet = none := by
  obtain ⟨hqueues, gangs, hl⟩ := createLaunch_spec (leftHead s n h) (s.queue n).part n (s.queue n).head.toNat (s.queue n).prio pl gs ps
    (Packet.word ⟨h.words⟩ 2)
  have hqueue : ((leftHead s n h).createLaunch (s.queue n).part n (s.queue n).head.toNat (s.queue n).prio pl gs ps
      (Packet.word ⟨h.words⟩ 2)).queue n = (leftHead s n h).queue n :=
    congrArg (fun qs => Tab.at qs Queue.unowned n) hqueues
  rw [leftHead_queue] at hqueue
  exact ⟨_, hl, rfl, rfl, rfl, rfl, rfl, congrArg Queue.head hqueue, congrArg Queue.packet hqueue⟩

/-- R464: a flawed head packet is refused with its status. -/
theorem headTake_flaw (q : Queue) (hf : h.flaw ≠ 0) : s.headTake q h = .done h.flaw := by
  unfold State.headTake
  dsimp only
  exact if_pos (bne_iff_ne.2 hf)

/-- The head packet that what has been read of its slot makes (R357, R464). -/
def headRead (s : State) (pno : Nat) : Option (List Byte) → Head
  | none => ⟨[], 0x0E, none⟩
  | some bs => ⟨wordsOf bs, if s.packetOk pno ⟨wordsOf bs⟩ then 0 else 0x01, none⟩

/-- The equation stands between functions, so that the kernel never evaluates the read itself. -/
theorem readHead_eq : State.readHead = fun s q => headRead s q.part (s.dispRead? q.part true (q.slot q.head.toNat) 64) := by
  delta State.readHead
  funext s q
  generalize s.dispRead? q.part true (q.slot q.head.toNat) 64 = r
  cases r with
  | none => rfl
  | some bs => rfl

theorem readHead_apply (s : State) (q : Queue) :
    s.readHead q = headRead s q.part (s.dispRead? q.part true (q.slot q.head.toNat) 64) :=
  congrFun (congrFun readHead_eq s) q

/-- R357: the head packet as it has been read, or as it reads now. -/
theorem headOf_spec (s : State) (q : Queue) (h : Head) : (q.packet = some h → s.headOf q = h) ∧
    (q.packet = none → s.dispRead? q.part true (q.slot q.head.toNat) 64 = none → s.headOf q = ⟨[], 0x0E, none⟩) ∧
    ∀ bs, q.packet = none → s.dispRead? q.part true (q.slot q.head.toNat) 64 = some bs →
      s.headOf q = ⟨wordsOf bs, if s.packetOk q.part ⟨wordsOf bs⟩ = true then 0 else 1, none⟩ := by
  unfold State.headOf
  refine ⟨fun hp => by rw [hp, Option.getD_some], fun hp hr => ?_, fun bs hp hr => ?_⟩
  · rw [hp, Option.getD_none, readHead_apply, hr]
    rfl
  · rw [hp, Option.getD_none, readHead_apply, hr]
    rfl

end

end Sys2Proof.Laws
end

section
/-! SUPPORT. Posts (R375). -/

namespace Sys2Proof.Laws

open Sys2Proof Sys2Proof.Machine

/-! ### What a slot's write leaves alone -/

section
variable {s t u : State}

/-- Only what an order's record, the budgets, the marks of failed transfers and the logs hold has changed. -/
def OnlySlot (s t : State) : Prop := t = { s with
  nextId := t.nextId, mem := t.mem, held := t.held, top := t.top, poison := t.poison, log := t.log, bufs := t.bufs
  atoms := t.atoms, hostQ := t.hostQ, used := t.used, lost := t.lost, mgmt := t.mgmt }

theorem onlySlot_refl (s : State) : OnlySlot s s := rfl

theorem OnlySlot.trans (h : OnlySlot s t) (h' : OnlySlot t u) : OnlySlot s u := by
  unfold OnlySlot at *
  rw [h', h]

theorem OnlyOrder.slot (h : OnlyOrder s t) : OnlySlot s t := by
  unfold OnlyOrder at h
  unfold OnlySlot
  rw [h]

theorem onlySlot_foldl {α : Type} (f : State → α → State) (h : ∀ s a, OnlySlot s (f s a)) (L : List α) (s : State) :
    OnlySlot s (L.foldl f s) :=
  List.foldlRecOn L f (motive := OnlySlot s) (onlySlot_refl s) fun _ hb a _ => hb.trans (h _ a)

theorem OnlySlot.gangs (h : OnlySlot s t) : t.gangs = s.gangs := by rw [h]
theorem OnlySlot.queues (h : OnlySlot s t) : t.queues = s.queues := by rw [h]

theorem logWrite_order (s : State) (who : Writer) (q : Nat) (lin : Bool) (prop : Nat) (cells : List (Nat × Byte)) (inPath : Bool) :
    OnlyOrder s (s.logWrite who q lin prop cells inPath).1 := by
  unfold State.logWrite
  dsimp only
  split <;> rfl

theorem atomicWrite_order (s : State) (who : Writer) (q : Nat) (c : Cls) (cells : List (Nat × Byte)) :
    OnlyOrder s (s.atomicWrite who q c cells) := by
  unfold State.atomicWrite
  split
  · rfl
  · rfl
  · next lin prop =>
    have hlog := logWrite_order s who q lin prop cells false
    dsimp only
    split
    · exact hlog.trans rfl
    · exact (hlog.trans (applyTo_views _ _ _).order).trans rfl

theorem atomicPut_order (s : State) (who : Writer) (q : Nat) (p : Piece) (new tags : List Byte) :
    OnlyOrder s (s.atomicPut who q p new tags) := by
  unfold State.atomicPut
  dsimp only
  split
  · exact atomicWrite_order _ _ _ _ _
  · exact ((atomicWrite_order _ _ _ _ _).trans (atomicWrite_order _ _ _ _ _)).trans (settleFrom_order _ _ _)

theorem chargePieces_rest (s : State) (l : Nat) (ps : List Piece) :
    s.chargePieces l ps = { s with used := (s.chargePieces l ps).used } :=
  List.foldlRecOn (indexFrom 1 ps) _ (motive := fun t : State => t = { s with used := t.used }) rfl fun t ht np _ => by
    rw [chargePiece_rest, ht]

theorem chargePieces_slot (s : State) (l : Nat) (ps : List Piece) : OnlySlot s (s.chargePieces l ps) := by
  rw [chargePieces_rest]
  rfl

theorem logHost_slot (s : State) (pno link : Nat) : OnlySlot s (s.logHost pno link) := by
  rw [logHost_rest]
  rfl

theorem writeSlot_slot (s : State) (who : Writer) (core since : Nat) (ps : List Piece) :
    OnlySlot s (s.writeSlot who core since ps) := by
  unfold State.writeSlot
  dsimp only
  refine OnlySlot.trans (OnlySlot.trans ?_ (chargePieces_slot _ who.launch ps)) (onlySlot_foldl _ (fun u p => ?_) ps _)
  · split
    · exact (drainHostAll_order s who.pno).slot
    · exact onlySlot_refl s
  · split
    · exact logHost_slot u who.pno _
    · exact (((clearWhole_order u _ _).trans (clearWhole_order _ _ _)).trans (atomicPut_order _ _ _ _ _ _)).slot

theorem ring_queue (s : State) (n m : Nat) :
    (s.ring n).queue m = if n = m then { s.queue n with tail := (s.queue n).tail + 1#32 } else s.queue m :=
  queue_updQueue s n m _

end

/-! ### The traps a post leaves (R480) -/

section
variable {s : State} {key : Nat} {g : Gang}

theorem haltLaunch_queues (s : State) (l code : Nat) : (s.haltLaunch l code).queues = s.queues := updLaunch_queues s l _

theorem defer_queues (s : State) (key : Nat) (d : Deferred) : (s.defer key d).queues = s.queues := by
  unfold State.defer
  split
  · rfl
  · split
    · rfl
    · split
      · exact haltLaunch_queues _ _ _
      · rfl

theorem defer_gang (hg : s.gang? key = some g) (d : Deferred) :
    ∃ ds, (s.defer key d).gang? key = some { g with deferred := ds } := by
  unfold State.defer
  rw [hg]
  dsimp only
  split
  · exact ⟨g.deferred, hg⟩
  · split
    · refine ⟨g.deferred, ?_⟩
      unfold State.haltLaunch State.gang?
      rw [updLaunch_gangs]
      exact hg
    · exact ⟨_, (gang_setGang _ _ _ _).trans (if_pos rfl)⟩

end

/-! ### A post delivers -/

section
variable {s : State} {core ctx st key : Nat} {g : Gang} {e : Entry} {rest : List Entry}

/-- The queue that a post names. -/
def postQueue (e : Entry) : Nat := (((Tab.at e.vals [] 0).getD 0 zeroImg).val).toNat % 65536

/-- The pieces of a post's packet in its queue's ring. -/
def postPieces (s : State) (core : Nat) (g : Gang) (e : Entry) : List Piece :=
  s.slotPieces (s.partOf g) core ((s.queue (postQueue e)).slot (s.queue (postQueue e)).tail.toNat) (e.bytes 0 64)

/-- The state once a post's packet stands in its slot and its entry has left the stream. -/
def posted (s : State) (key core st : Nat) (g : Gang) (e : Entry) : State :=
  ((((s.writeSlot ⟨key, st, g.launch, none, s.partOf g, .fin g.launch⟩ core e.id (postPieces s core g e)).ring (postQueue e)).updGang key
    fun g => g.popHead st).dropTok key e.tok)

theorem deliverPost_waits (h : (s.queue (postQueue e)).full = true ∨ (postPieces s core g e).any (fun p => s.atomHolds p.cells) = true) :
    s.deliverPost key core st g e = s :=
  if_pos (by rw [Bool.or_eq_true]; exact h)

theorem deliverPost_goes (hfull : (s.queue (postQueue e)).full = false) (hatoms : ∀ r ∈ s.atoms, r.old = none) :
    s.deliverPost key core st g e = match e.bad with
      | [] => posted s key core st g e
      | b :: _ => (posted s key core st g e).defer key
          ⟨0x0D, 0, e.act, e.word, b.2.1, BitVec.ofNat 64 (1 + b.2.2 * 256), e.wordAt, e.born⟩ := by
  have hheld : ∀ cells, s.atomHolds cells = false := fun cells => by
    unfold State.atomHolds
    rw [List.any_eq_false]
    intro r hr
    rw [hatoms r hr]
    exact Bool.false_ne_true
  have hgo : ¬ ((s.queue (postQueue e)).full || (postPieces s core g e).any (fun p => s.atomHolds p.cells)) = true := by
    rw [hfull, Bool.false_or, Bool.not_eq_true, List.any_eq_false]
    intro p _
    rw [hheld]
    exact Bool.false_ne_true
  exact if_neg hgo

theorem posted_queue (n : Nat) : (posted s key core st g e).queue n = (s.ring (postQueue e)).queue n := by
  have hslot := writeSlot_slot s ⟨key, st, g.launch, none, s.partOf g, .fin g.launch⟩ core e.id (postPieces s core g e)
  have hqueue : ∀ n, (s.writeSlot ⟨key, st, g.launch, none, s.partOf g, .fin g.launch⟩ core e.id (postPieces s core g e)).queue n =
      s.queue n := fun n => congrArg (fun qs => Tab.at qs Queue.unowned n) hslot.queues
  have hdrop : (posted s key core st g e).queues =
      ((s.writeSlot ⟨key, st, g.launch, none, s.partOf g, .fin g.launch⟩ core e.id (postPieces s core g e)).ring (postQueue e)).queues := by
    unfold posted
    rw [dropTok_views _ key e.tok, updGang_rest]
  unfold State.queue at hdrop ⊢
  rw [hdrop]
  refine (ring_queue _ _ n).trans ?_
  rw [hqueue, hqueue]
  exact (ring_queue s _ n).symm

theorem posted_gang (hg : s.gang? key = some g) : (posted s key core st g e).gang? key = some (tokDrop e.tok (g.popHead st)) := by
  have hslot := writeSlot_slot s ⟨key, st, g.launch, none, s.partOf g, .fin g.launch⟩ core e.id (postPieces s core g e)
  unfold posted
  rw [dropTok_gang, if_pos rfl, gang_updGang, if_pos rfl,
    show ∀ (u : State) n, (u.ring n).gang? key = u.gang? key from fun _ _ => rfl,
    show State.gang? _ key = s.gang? key from congrArg (fun gs => Tab.find? gs key) hslot.gangs, hg]
  rfl

theorem deliverPost_spec (hg : s.gang? key = some g) (hst : g.stream st = e :: rest) (hr : Tab.rising g.streams = true)
    (hfull : (s.queue (postQueue e)).full = false) (hatoms : ∀ r ∈ s.atoms, r.old = none) :
    (∀ n, (s.deliverPost key core st g e).queue n = (s.ring (postQueue e)).queue n) ∧
    ∃ g', (s.deliverPost key core st g e).gang? key = some g' ∧ g'.stream st = rest ∧ g'.regs = g.regs ∧
      (e.bad = [] → g'.deferred = g.deferred) := by
  have hgang := posted_gang (core := core) (st := st) (e := e) hg
  rw [tokDrop_rest] at hgang
  have hstream : (g.popHead st).stream st = rest := by
    unfold Gang.popHead
    rw [stream_setStream hr, if_pos rfl, hst]
    rfl
  have hregs : (g.popHead st).regs = g.regs ∧ (g.popHead st).deferred = g.deferred := by
    unfold Gang.popHead Gang.setStream
    split <;> exact ⟨rfl, rfl⟩
  rw [deliverPost_goes hfull hatoms]
  cases hbad : e.bad with
  | nil => exact ⟨posted_queue, _, hgang, hstream, hregs.1, fun _ => hregs.2⟩
  | cons b bs =>
    obtain ⟨ds, hds⟩ := defer_gang hgang ⟨0x0D, 0, e.act, e.word, b.2.1, BitVec.ofNat 64 (1 + b.2.2 * 256), e.wordAt, e.born⟩
    refine ⟨fun n => ?_, _, hds, hstream, hregs.1, fun h => nomatch h⟩
    unfold State.queue
    dsimp only
    rw [defer_queues]
    exact posted_queue n

end

/-! ### A post reads its source -/

section
variable {s : State} {core st key : Nat} {g : Gang} {e : Entry} {rest : List Entry}

theorem releaseAll_rest (s : State) (key : Nat) : s.releaseAll key = { s with bufs := (s.releaseAll key).bufs } :=
  List.foldlRecOn _ _ (motive := fun t : State => t = { s with bufs := t.bufs }) rfl fun t ht o _ => by
    rw [State.releaseObj, stamp_bufs, ht]

/-- The address of a post's source. -/
def postSource (e : Entry) : Word64 := (Tab.find? e.addrs 0).getD 0#64

/-- The pieces of a post's source. -/
def sourcePieces (e : Entry) : List Piece :=
  match Tab.find? e.maps (hndOf (postSource e)) with
  | some h => piecesOf h none (hndOf (postSource e)) 0 false (offOf (postSource e)) 64 [] .other
  | none => []

theorem sourcePieces_some {h : Handle} (hm : Tab.find? e.maps (hndOf (postSource e)) = some h) :
    sourcePieces e = piecesOf h none (hndOf (postSource e)) 0 false (offOf (postSource e)) 64 [] .other := by
  unfold sourcePieces
  rw [hm]

theorem sourcePieces_none (hm : Tab.find? e.maps (hndOf (postSource e)) = none) : sourcePieces e = [] := by
  unfold sourcePieces
  rw [hm]

theorem readPost_eq (s : State) (key core st : Nat) (g : Gang) (e : Entry) : ∃ bs, s.readPost key core st g e =
    ((s.releaseAll key).heard.chargePieces g.launch (sourcePieces e)).updGang key fun g => g.updHead st fun x =>
      { x with sent := true, got := keepBytes x.got 0 0 bs, bad := s.badPieces (sourcePieces e) } := by
  have hbad : ∀ ps, (s.releaseAll key).badPieces ps = s.badPieces ps := fun ps => by rw [releaseAll_rest]; rfl
  unfold State.readPost
  dsimp only
  split
  · next h hm => exact ⟨_, by rw [hbad, sourcePieces_some hm]; rfl⟩
  · next hm => exact ⟨_, by rw [hbad, sourcePieces_none hm]⟩

theorem readPost_spec (hg : s.gang? key = some g) (hst : g.stream st = e :: rest) : ∃ got,
    s.readPost key core st g e = { s with
      bufs := (s.readPost key core st g e).bufs
      used := (s.readPost key core st g e).used
      lost := []
      gangs := (s.readPost key core st g e).gangs } ∧
    (s.readPost key core st g e).gang? key =
      some (g.setStream st ({ e with sent := true, got := got, bad := s.badPieces (sourcePieces e) } :: rest)) := by
  obtain ⟨bs, heq⟩ := readPost_eq s key core st g e
  have hhead : ∀ f, g.updHead st f = g.setStream st (f e :: rest) := fun f => by unfold Gang.updHead; rw [hst]
  have hfind : ((s.releaseAll key).heard.chargePieces g.launch (sourcePieces e)).gang? key = some g := by
    rw [chargePieces_rest, releaseAll_rest]
    exact hg
  refine ⟨keepBytes e.got 0 0 bs, ?_, ?_⟩
  · rw [heq, updGang_rest, chargePieces_rest, releaseAll_rest]
    rfl
  · rw [heq, gang_updGang, if_pos rfl, hfind, Option.map_some, hhead]

theorem piecesOf_cls {h : Handle} {t : Option Handle} {hn lane o n : Nat} {wr : Bool} {data : List Byte} {k : WrTag} {p : Piece}
    (hp : p ∈ piecesOf h t hn lane wr o n data k) : p.cls = h.cls := by
  unfold piecesOf at hp
  split at hp
  · exact absurd hp List.not_mem_nil
  · obtain ⟨i, -, rfl⟩ := List.mem_map.1 hp
    rfl

/-- A source that no unit spoils and no link loses reads clean. -/
theorem sourcePieces_clean (hpoison : s.poison = []) (hlost : s.lost = []) (hlinks : s.links = 3#2) (hmaps : ∀ m ∈ e.maps, m.2.link < 2) :
    s.badPieces (sourcePieces e) = [] := by
  have hread : ∀ cells, s.readsBad cells = false := fun cells => by
    unfold State.readsBad
    rw [poisoned_none hpoison, hlost, Bool.false_or, List.any_eq_false]
    exact fun _ _ => Bool.false_ne_true
  have hup : ∀ p ∈ sourcePieces e, s.tsoDown p = false := fun p hp => by
    unfold sourcePieces at hp
    split at hp
    · next h hfind =>
      unfold State.tsoDown
      rw [piecesOf_cls hp, hlinks]
      unfold Handle.cls
      split
      · next hc =>
        have hlink : h.link < 2 := hmaps _ (mem_of_find hfind)
        split at hc
        · cases hc
        · split at hc
          · cases hc
            rw [show (3#2).getLsbD h.link = true from by
              rcases Nat.lt_succ_iff_lt_or_eq.1 hlink with h1 | h1
              · rw [Nat.lt_one_iff.1 h1]; rfl
              · rw [h1]; rfl]
            rfl
          · cases hc
      · rfl
    · exact absurd hp List.not_mem_nil
  unfold State.badPieces
  refine List.foldlRecOn _ _ (motive := fun t => t = []) rfl fun t ht p hp => ?_
  rw [hread, hup p hp]
  exact ht

end

/-! ### QPOST_DELIVER (R268, R375) -/

section
variable {s : State} {core ctx st key : Nat} {g : Gang} {e : Entry} {rest : List Entry}

/-- A post stands at the head of a gang's stream. -/
structure PostDue (s : State) (core ctx st key : Nat) (g : Gang) (e : Entry) (rest : List Entry) : Prop where
  owner : s.keyOf core ctx = some key
  gang : s.gang? key = some g
  head : g.stream st = e :: rest
  post : ∃ vq hnd disp str tok, e.instr = .qpost vq hnd disp str tok
  streams : Tab.rising g.streams = true

/-- A post stands behind nothing (R268). -/
def PostClear (s : State) (key : Nat) (g : Gang) (e : Entry) : Prop :=
  g.gated e = false ∧ s.hasUndrained key none = false ∧ ∀ t ∈ g.streams, ∀ x ∈ t.2, x.id < e.id → isAccess x.instr = false

theorem postClear_iff : PostClear s key g e ↔ (g.gated e ||
    (g.streams.any fun t => t.2.any fun (x : Entry) => x.id < e.id && isAccess x.instr) || s.hasUndrained key none) = false := by
  unfold PostClear
  simp only [Bool.or_eq_false_iff, List.any_eq_false, Bool.and_eq_true, decide_eq_true_eq, not_and, Bool.not_eq_true]
  exact ⟨fun ⟨ha, hb, hc⟩ => ⟨⟨ha, hc⟩, hb⟩, fun ⟨⟨ha, hc⟩, hb⟩ => ⟨ha, hb, hc⟩⟩

theorem qpostDeliver_eq (h : PostDue s core ctx st key g e rest) : exec (.qpostDeliver core ctx st) s = .next
    (if e.sent then s.deliverPost key core st g e
      else if g.gated e || (g.streams.any fun t => t.2.any fun (x : Entry) => x.id < e.id && isAccess x.instr)
          || s.hasUndrained key none then s
      else match (s.readPost key core st g e).gang? key with
        | some g' => (s.readPost key core st g e).deliverPost key core st g' ((g'.stream st).headD e)
        | none => s.readPost key core st g e) := by
  obtain ⟨howner, hgang, hhead, ⟨vq, hnd, disp, str, tok, hi⟩, -⟩ := h
  show execQpostDeliver core ctx st s = _
  unfold execQpostDeliver
  rw [howner]
  dsimp only
  rw [hgang]
  dsimp only
  rw [hhead]
  dsimp only
  rw [hi] <;> rfl

theorem qpostDeliver_sent (h : PostDue s core ctx st key g e rest) (hs : e.sent = true) :
    exec (.qpostDeliver core ctx st) s = .next (s.deliverPost key core st g e) := by
  rw [qpostDeliver_eq h, if_pos hs]

theorem qpostDeliver_behind (h : PostDue s core ctx st key g e rest) (hs : e.sent = false) (hc : ¬ PostClear s key g e) :
    exec (.qpostDeliver core ctx st) s = .next s := by
  rw [postClear_iff, Bool.not_eq_false] at hc
  rw [qpostDeliver_eq h, if_neg (by rw [hs]; exact Bool.false_ne_true), if_pos hc]

/-- The entry of a post that has read its source. -/
def readEntry (s : State) (e : Entry) (got : Tab Byte) : Entry := { e with sent := true, got := got, bad := s.badPieces (sourcePieces e) }

theorem qpostDeliver_reads (h : PostDue s core ctx st key g e rest) (hs : e.sent = false) (hc : PostClear s key g e) :
    ∃ (got : Tab Byte) (u : State),
    u = { s with bufs := u.bufs, used := u.used, lost := [], gangs := u.gangs } ∧
    u.gang? key = some (g.setStream st (readEntry s e got :: rest)) ∧
    exec (.qpostDeliver core ctx st) s =
      .next (u.deliverPost key core st (g.setStream st (readEntry s e got :: rest)) (readEntry s e got)) := by
  obtain ⟨got, hrest, hkey⟩ := readPost_spec (core := core) h.gang h.head
  refine ⟨got, _, hrest, hkey, ?_⟩
  rw [qpostDeliver_eq h, if_neg (by rw [hs]; exact Bool.false_ne_true),
    if_neg (by rw [postClear_iff.1 hc]; exact Bool.false_ne_true), hkey]
  dsimp only
  rw [stream_setStream h.streams, if_pos rfl]
  rfl

/-- A post whose queue has room delivers. -/
theorem qpostDeliver_delivers (h : PostDue s core ctx st key g e rest) (hready : e.sent = true ∨ PostClear s key g e)
    (hfull : (s.queue (postQueue e)).full = false) (hatoms : ∀ r ∈ s.atoms, r.old = none) :
    ∃ t g', exec (.qpostDeliver core ctx st) s = .next t ∧ (∀ n, t.queue n = (s.ring (postQueue e)).queue n) ∧
      t.gang? key = some g' ∧ g'.stream st = rest ∧ g'.regs = g.regs ∧ (e.bad = [] → (e.sent = true ∨
        s.poison = [] ∧ s.lost = [] ∧ s.links = 3#2 ∧ ∀ m ∈ e.maps, m.2.link < 2) → g'.deferred = g.deferred) := by
  cases hs : e.sent with
  | true =>
    obtain ⟨hqueue, g', hgang, hstream, hregs, hdef⟩ := deliverPost_spec (core := core) h.gang h.head h.streams hfull hatoms
    exact ⟨_, g', qpostDeliver_sent h hs, hqueue, hgang, hstream, hregs, fun hbad _ => hdef hbad⟩
  | false =>
    have hclear : PostClear s key g e := hready.resolve_left (by rw [hs]; exact Bool.false_ne_true)
    obtain ⟨got, u, hrest, hkey, hexec⟩ := qpostDeliver_reads h hs hclear
    have hqueues : ∀ n, u.queue n = s.queue n := fun n => by rw [hrest]; rfl
    obtain ⟨hqueue, g', hgang, hstream, hregs, hdef⟩ := deliverPost_spec (s := u) (core := core) (rest := rest) hkey
      ((stream_setStream h.streams _ _ _).trans (if_pos rfl)) (rising_setStream h.streams _ _)
      (by rw [hqueues]; exact hfull) (by rw [hrest]; exact hatoms)
    refine ⟨_, g', hexec, fun n => ?_, hgang, hstream, hregs, fun _ hclean => ?_⟩
    · rw [hqueue, ring_queue, ring_queue, hqueues, hqueues]
      rfl
    · obtain ⟨hpoison, hlost, hlinks, hmaps⟩ := hclean.resolve_left Bool.false_ne_true
      exact hdef (sourcePieces_clean hpoison hlost hlinks hmaps)

/-- A post whose queue is full waits, its source read. -/
theorem qpostDeliver_full (h : PostDue s core ctx st key g e rest) (hready : e.sent = true ∨ PostClear s key g e)
    (hfull : (s.queue (postQueue e)).full = true) :
    ∃ t g' e', exec (.qpostDeliver core ctx st) s = .next t ∧ t.queues = s.queues ∧ t.mem = s.mem ∧
      t.gang? key = some g' ∧ g' = { g with streams := g'.streams } ∧ g'.stream st = e' :: rest ∧ e'.sent = true ∧
      e' = { e with sent := true, got := e'.got, bad := e'.bad } ∧ (e.sent = true → t = s) := by
  cases hs : e.sent with
  | true =>
    refine ⟨s, g, e, ?_, rfl, rfl, h.gang, rfl, h.head, hs, ?_, fun _ => rfl⟩
    · rw [qpostDeliver_sent h hs, deliverPost_waits (.inl hfull)]
    · rw [← hs]
  | false =>
    have hclear : PostClear s key g e := hready.resolve_left (by rw [hs]; exact Bool.false_ne_true)
    obtain ⟨got, u, hrest, hkey, hexec⟩ := qpostDeliver_reads h hs hclear
    have hqueues : u.queues = s.queues := by rw [hrest]
    have hfull' : (u.queue (postQueue (readEntry s e got))).full = true := by
      unfold State.queue
      rw [hqueues]
      exact hfull
    rw [deliverPost_waits (.inl hfull')] at hexec
    refine ⟨u, _, readEntry s e got, hexec, hqueues, by rw [hrest], hkey, ?_, (stream_setStream h.streams _ _ _).trans (if_pos rfl),
      rfl, rfl, fun hsent => nomatch hsent⟩
    rfl

end

end Sys2Proof.Laws
end

section
/-! SUPPORT. The end of a launch (R358, R415) and O48. -/

namespace Sys2Proof.Laws

open Sys2Proof Sys2Proof.Machine

/-! ### The end of a launch -/

section
variable {s : State} {l : Nat} {x : Launch}

theorem find_filterKeys {α : Type} (p : Nat → Bool) (t : Tab α) (k : Nat) :
    Tab.find? (t.filter fun e => p e.1) k = if p k = true then Tab.find? t k else none := by
  induction t with
  | nil => exact (ite_self none).symm
  | cons e t ih =>
    rw [List.filter_cons]
    obtain ⟨j, v⟩ := e
    by_cases hk : j = k
    · subst hk
      split
      · rw [find_cons, if_pos rfl, find_cons, if_pos rfl]
      · next hp => rw [ih, if_neg hp]
    · rw [find_cons, if_neg hk]
      split
      · rw [find_cons, if_neg hk, ih]
      · exact ih

theorem drainAll_order (s : State) (ls : List Nat) (pno : Nat) : OnlyOrder s (s.drainAll ls pno) := by
  unfold State.drainAll
  dsimp only
  refine OnlyOrder.trans (OnlyOrder.trans (onlyOrder_foldl _ (fun u i => ?_) _ s)
    (onlyOrder_foldl _ (fun u id => (everywhere_views u id).order) _ _)) (drainHostAll_order _ pno)
  split
  · next w _ =>
    split
    · exact (drainUpTo_views u w).order
    · exact onlyOrder_refl u
  · exact onlyOrder_refl u

/-- The state once a launch's gangs and its record are gone. -/
def launchGone (s : State) (l : Nat) (x : Launch) : State :=
  { s.drainAll [l] x.pno with
    gangs := (s.drainAll [l] x.pno).gangs.filter fun kg => !(x.gangs.map (·.2)).contains kg.1
    launches := Tab.del (s.drainAll [l] x.pno).launches l
    cores := (s.drainAll [l] x.pno).cores.map fun (c : Nat × Core) => (c.1, c.2.freeGangs (x.gangs.map (·.2)).contains)
    bufs := (s.drainAll [l] x.pno).bufs.filter fun b => match b.obj with
      | .barrier n _ => n != l
      | .fin n => n != l
      | _ => true }

theorem launchEnd_eq (hl : s.launch? l = some x) (hdone : s.launchDone l x = true) (hin : (s.part x.pno).inn = true) :
    exec (.launchEnd l) s = .next ((launchGone s l x).completePacket x.queue x.packet (x.halt.getD 0)) := by
  show execLaunchEnd l s = _
  unfold execLaunchEnd
  rw [hl]
  dsimp only
  rw [if_neg (by rw [hdone, hin]; exact Bool.false_ne_true)]
  rfl

theorem launchGone_gang (s : State) (l : Nat) (x : Launch) (k : Nat) :
    (launchGone s l x).gang? k = if k ∈ x.gangs.map (·.2) then none else s.gang? k := by
  have hfind := find_filterKeys (fun k => !(x.gangs.map (·.2)).contains k) (s.drainAll [l] x.pno).gangs k
  rw [(drainAll_order s [l] x.pno).gangs] at hfind
  refine Eq.trans ?_ (hfind.trans ?_)
  · unfold launchGone State.gang?
    dsimp only
    rw [(drainAll_order s [l] x.pno).gangs]
  · by_cases hk : k ∈ x.gangs.map (·.2)
    · rw [if_pos hk, if_neg (by rw [List.contains_iff_mem.2 hk]; exact Bool.false_ne_true)]
    · rw [if_neg hk, if_pos (by rw [Bool.not_eq_true', ← Bool.not_eq_true, List.contains_iff_mem]; exact hk)]
      rfl

theorem completePacket_taken (s : State) (q packet status : Nat) {y : Taken} (hy : y ∈ (s.queue q).taken) (hn : y.number = packet)
    (ho : y.status = none) : { y with status := some status } ∈ ((s.completePacket q packet status).queue q).taken := by
  unfold State.completePacket
  rw [queue_updQueue, if_pos rfl]
  refine List.mem_map.2 ⟨y, hy, if_pos ?_⟩
  rw [hn, ho, decide_eq_true rfl]
  rfl

theorem completePacket_launch (s : State) (q packet status j : Nat) : (s.completePacket q packet status).launch? j = s.launch? j := rfl
theorem completePacket_gang (s : State) (q packet status k : Nat) : (s.completePacket q packet status).gang? k = s.gang? k := rfl

/-- LAUNCH_END of a launch with nothing left frees its gangs and completes its packet. -/
theorem launchEnd_spec (hl : s.launch? l = some x) (hdone : s.launchDone l x = true) (hin : (s.part x.pno).inn = true)
    (hr : Tab.rising s.launches = true) :
    ∃ t, exec (.launchEnd l) s = .next t ∧ t.launch? l = none ∧ (∀ k ∈ x.gangs.map (·.2), t.gang? k = none) ∧
      (∀ k, k ∉ x.gangs.map (·.2) → t.gang? k = s.gang? k) ∧ ∀ y ∈ (s.queue x.queue).taken, y.number = x.packet → y.status = none →
        { y with status := some (x.halt.getD 0) } ∈ (t.queue x.queue).taken := by
  have hdrain : OnlyOrder s (s.drainAll [l] x.pno) := drainAll_order s [l] x.pno
  have hqueue : (launchGone s l x).queue x.queue = s.queue x.queue := by
    unfold launchGone
    rw [hdrain]
    rfl
  have hlaunch : (launchGone s l x).launch? l = none := by
    unfold launchGone State.launch?
    dsimp only
    rw [hdrain]
    exact find_del_same hr
  refine ⟨_, launchEnd_eq hl hdone hin, ?_, fun k hk => ?_, fun k hk => ?_, fun y hy hn ho => ?_⟩
  · rw [completePacket_launch, hlaunch]
  · rw [completePacket_gang, launchGone_gang, if_pos hk]
  · rw [completePacket_gang, launchGone_gang, if_neg hk]
  · exact completePacket_taken _ _ _ _ (by rw [hqueue]; exact hy) hn ho

end

/-- Settles O48, by the clauses: what each event's step comes to, from the reading of a head packet to the end of its launch. -/
theorem queuesAndLaunches : Obligations.QueuesAndLaunches := by
  unfold Obligations.QueuesAndLaunches
  refine ⟨fun s q => doorbellWrite_rings, fun s q ofs size => doorbellWrite_none, fun s n hh => ?take,
    fun s q h => ⟨(headOf_spec s q h).1, headTake_flaw q, (headOf_spec s q h).2⟩, fun s n t0 rest c => packetComplete_spec,
    fun s v k hv => ?sends, fun s core ctx st key g e rest vq hnd disp str tok howner hgang hhead hi hstreams => ?post,
    fun s l x => launchEnd_spec⟩
  case take =>
    refine ⟨fun ht => ?_, fun pl ht => ?_, fun ht hserves => ?_, fun hserves => ⟨fun c ht => ?_, fun pl gs ps ht => ?_⟩⟩
    · rw [takePacket_eq hh, ht]
      rfl
    · rw [takePacket_eq hh, ht]
      rfl
    · rw [takePacket_goes hh rfl ht, if_neg (by rw [hserves]; exact Bool.false_ne_true)]
      rfl
    · obtain ⟨hrest, hqueue, hother⟩ := takeHead_done s n (s.headOf (s.queue n)) c
      exact ⟨_, by rw [takePacket_goes hh ht rfl, if_pos hserves], hrest, hqueue, hother⟩
    · obtain ⟨y, hy⟩ := takeHead_launch s n (s.headOf (s.queue n)) pl gs ps
      exact ⟨_, y, by rw [takePacket_goes hh ht rfl, if_pos hserves], hy⟩
  case sends =>
    obtain ⟨hup, hover, hnone⟩ := interrupt_spec (s := s) hv
    exact ⟨fun h => interrupt_sends (hup h) k, fun h h' => interrupt_sends (hover h h') k, hnone⟩
  case post =>
    have hdue : PostDue s core ctx st key g e rest := ⟨howner, hgang, hhead, ⟨vq, hnd, disp, str, tok, hi⟩, hstreams⟩
    refine ⟨fun hready hfull hatoms => ?_, fun hs hheld => ?_, fun hready hfull => qpostDeliver_full hdue hready hfull,
      fun hready => ?_⟩
    · obtain ⟨t, g', hexec, hqueue, hg', hrest⟩ := qpostDeliver_delivers hdue hready hfull hatoms
      refine ⟨t, g', hexec, (hqueue _).trans ((ring_queue s _ _).trans (if_pos rfl)), fun m hm => ?_, hg', hrest⟩
      exact (hqueue m).trans ((ring_queue s _ m).trans (if_neg (Ne.symm hm)))
    · rw [qpostDeliver_sent hdue hs, deliverPost_waits (.inr hheld)]
    · have hs : e.sent = false := Bool.not_eq_true _ ▸ fun h => hready (.inl h)
      exact qpostDeliver_behind hdue hs fun hclear => hready (.inr hclear)

end Sys2Proof.Laws
end

section
/-! SUPPORT. The words of the copy engine and of the event matrix at issue (R279-R295, R475), and a source's pulse (R290). -/

namespace Sys2Proof.Laws

open Sys2Proof Sys2Proof.Machine

/-! ### Words whose members act on what they read at issue -/

section
variable {i : Instr} {s u : State}

/-- A word completes with its members' effects, where each member's body may read the state at issue and `J` holds of what the
members before it left. -/
theorem completes_of {body : Seat → State → SeatRes} (eff : Seat → State → State) (J : State → Prop)
    (he : exec i s = .next (issue i body s)) (hi : issues i s = true) (h0 : J (s.counted i.maskField))
    (hb : ∀ x ∈ s.seats i.maskField, ∀ u, J u → u.gang? x.key = some (x.g.count x.m0) →
      body x u = .ok (eff x u) {} ∧ J (eff x u) ∧ (∀ k, k ≠ x.key → (eff x u).gang? k = u.gang? k) ∧
      (eff x u).cur = u.cur ∧ ∃ a, (eff x u).gang? x.key = some a) :
    Completes i s ((s.seats i.maskField).foldl (fun u x => eff x u) (s.counted i.maskField)) (fun _ => []) fun _ => [] :=
  ⟨_, he, issue_moved eff (fun _ => []) (fun _ => []) J hi h0 hb⟩

theorem counted_cores (s : State) (mk : Nat) : (s.counted mk).cores = s.cores := by rw [counted_rest]

theorem OnlyGangs.cores (h : OnlyGangs s u) : u.cores = s.cores := by unfold OnlyGangs at h; rw [h]

theorem core_cores (h : u.cores = s.cores) (core : Nat) : u.core core = s.core core := by unfold State.core; rw [h]

theorem engine_cores (h : u.cores = s.cores) (core eng : Nat) : u.engine core eng = s.engine core eng := by
  rw [State.engine, core_cores h, State.engine]

end

/-! ### Teams that stand -/

section
variable {s u v : State}

/-- Every gang stands in the team that it stood in. -/
def SameMates (s u : State) : Prop := ∀ k, (u.gang? k).map (·.mates) = (s.gang? k).map (·.mates)

theorem SameMates.trans (h : SameMates s u) (h' : SameMates u v) : SameMates s v := fun k => (h' k).trans (h k)

theorem sameMates_updGang (u : State) (key : Nat) {f : Gang → Gang} (hf : ∀ g, (f g).mates = g.mates) :
    SameMates u (u.updGang key f) := fun k => by
  rw [gang_updGang]
  split
  · rw [Option.map_map]
    exact congrArg (fun h => (u.gang? k).map h) (funext hf)
  · rfl

theorem sameMates_counted (s : State) (mk : Nat) : SameMates s (s.counted mk) := fun k => by
  obtain ⟨F, hF, hrest⟩ := counted_gangs s mk
  rw [hF, Option.map_map]
  have hmates : ∀ g, (F k g).mates = g.mates := fun g => by rw [hrest]
  exact congrArg (fun h => (s.gang? k).map h) (funext hmates)

theorem sameMates_putStore (u : State) (x : Seat) (st tok : Nat) (e : Entry) : SameMates u (u.putStore x st tok e) :=
  (sameMates_updGang u x.key fun g => by rw [tokAdd_rest]).trans
    (sameMates_updGang (u.updGang x.key fun g => g.tokAdd tok) x.key fun g => rfl)

theorem leadOf_sameMates (h : SameMates s u) (k : Nat) : u.leadOf k = s.leadOf k := by
  have hlead : ∀ t : State, t.leadOf k = ((t.gang? k).map (·.mates)).elim k fun ms => ms.headD k := fun t => by
    unfold State.leadOf
    cases t.gang? k <;> rfl
  rw [hlead, hlead, h]

/-- Whether a command waits for its team's pending claim depends on which team each gang is of, and on nothing else of the
gangs (R299). -/
theorem claimPending_stands (h : OnlyGangs s u) (hm : SameMates s u) (key launch : Nat) (i : Instr) :
    u.claimPending key (u.names launch i) = s.claimPending key (s.names launch i) := by
  have hnames : u.names launch i = s.names launch i := by
    unfold OnlyGangs at h
    rw [h]
    rfl
  unfold State.claimPending State.sameTeam
  rw [hnames, core_cores h.cores]
  simp only [leadOf_sameMates hm]

end

/-! ### Copy commands (R279, R280, R287, R299) -/

section
variable {i : Instr} {q : BitVec 6} {stream : Seat → Nat} {tok : BitVec 3} {addrs : List Img → List Word64}

/-- A copy command enters its stream where its team waits for no claim that it names; `addrs` are the addresses at its ends. -/
theorem acts_copy (he : ∀ s, exec i s = copyWord i q stream tok s)
    (hc : ∀ (u : State) launch ctl, ∃ c, u.copyOf launch ctl i = some c ∧ ∀ lq, c.ends lq = addrs lq) :
    Acts i (fun s x => !s.claimPending x.key (s.names x.g.launch i)) fun x u =>
      u.putStore x (stream x) tok.toNat { u.newEntry i x with
        vals := x.quads q
        maps := u.mapsFor (u.partOf x.g) (coreOf x.key) ((x.quads q).flatMap fun lq => addrs lq.2) } := by
  refine acts_of _ (fun s u => OnlyGangs s u ∧ SameMates s u) he
    (fun s => ⟨onlyGangs_counted s _, sameMates_counted s _⟩) fun s x _ hok u ⟨hu, hm⟩ hg => ?_
  have hput := fun e => onlyMember_putStore u x (stream x) tok.toNat e
  refine ⟨?_, ⟨hu.trans (hput _).rest, hm.trans (sameMates_putStore _ _ _ _ _)⟩, (hput _).others, (hput _).rest.cur,
    Option.isSome_iff_exists.1 ((hput _).stands (by rw [hg]; rfl))⟩
  obtain ⟨c, hcopy, hends⟩ := hc u x.g.launch x.g.rndctl
  have hfree : u.claimPending x.key (u.names x.g.launch i) = false := by
    rw [claimPending_stands hu hm]
    simpa using hok
  simp only [hcopy, hfree, Bool.false_eq_true, if_false, hends]

/-- R279, R280: a copy reads at its first address unless its source is a buffer's slot, and writes at its second where its
destination is an address. -/
theorem acts_xcopy (dk : CopyDst) (srcCb cv : Bool) (slot : BitVec 5) (q : BitVec 6) (len : BitVec 10) (fmt : BitVec 3)
    (stream : BitVec 4) (tok : BitVec 3) : let i : Instr := .xcopy dk srcCb cv slot q len fmt stream tok
    Acts i (fun s x => !s.claimPending x.key (s.names x.g.launch i)) fun x u =>
      u.putStore x stream.toNat tok.toNat { u.newEntry i x with
        vals := x.quads q
        maps := u.mapsFor (u.partOf x.g) (coreOf x.key) ((x.quads q).flatMap fun lq =>
          (if srcCb then [] else [quadWord lq.2 0]) ++ (if dk = .addr then [quadWord lq.2 2] else [])) } :=
  acts_copy (stream := fun _ => stream.toNat)
    (addrs := fun lq => (if srcCb then [] else [quadWord lq 0]) ++ (if dk = .addr then [quadWord lq 2] else []))
    (fun _ => rfl) fun _ _ _ => ⟨_, rfl, fun lq => by cases dk <;> rfl⟩

/-- R287: a copy to a matrix operand reads at its quad's address, and the quad of the lowest lane names its stream. -/
theorem acts_xcopym (fillB : Bool) (q : BitVec 6) (len : BitVec 10) (sa sb : BitVec 5) (acc fmta fmtb : BitVec 3)
    (kblka kblkb : BitVec 2) (tok : BitVec 3) :
    let i : Instr := .xcopym fillB q len sa sb acc fmta fmtb kblka kblkb tok
    Acts i (fun s x => !s.claimPending x.key (s.names x.g.launch i)) fun x u =>
      u.putStore x (quadNat (x.lowQuad q) 3 / 2 ^ 20 % 16) tok.toNat { u.newEntry i x with
        vals := x.quads q
        maps := u.mapsFor (u.partOf x.g) (coreOf x.key) ((x.quads q).flatMap fun lq => [quadWord lq.2 0]) } :=
  acts_copy (stream := fun x => quadNat (x.lowQuad q) 3 / 2 ^ 20 % 16) (addrs := fun lq => [quadWord lq 0])
    (fun _ => rfl) fun _ _ _ => ⟨_, rfl, fun _ => rfl⟩

end

/-! ### Counters (R288, R289, R475) -/

section
variable {i : Instr} {vd : VNum} {look : BitVec 4} {tok : BitVec 3}

/-- A word that reads its core gives each member what the cores hold, for no member's window changes them. -/
theorem acts_value {val : Seat → State → Word64} (he : ∀ s, exec i s = valueWord i vd look tok val (fun _ t => t) s)
    (hval : ∀ x s u, u.cores = s.cores → val x u = val x s) : Acts i (fun _ _ => true) fun x u =>
      (u.addPend x look.toNat [vd.toNat, vd.toNat + 1] [] x.act (outWord vd.toNat (val x u)) false true tok.toNat).2 :=
  fun s hi _ => completes_of _ (OnlyGangs s) (he s) hi (onlyGangs_counted s _) fun x _ u hu hg => by
    have hm := onlyMember_addPend u x look.toNat [vd.toNat, vd.toNat + 1] [] x.act (outWord vd.toNat (val x u)) false true
      tok.toNat
    exact ⟨by rw [hval x s u hu.cores], hu.trans hm.rest, hm.others, hm.rest.cur,
      Option.isSome_iff_exists.1 (hm.stands (by rw [hg]; rfl))⟩

/-- What a read of the copy engine's fault word at state `s` makes of a member: the word as it stood at issue, which the read
clears (R475). -/
def readsFault (vd : VNum) (look : BitVec 4) (tok : BitVec 3) (s : State) (x : Seat) (u : State) : State :=
  (u.addPend x look.toNat [vd.toNat, vd.toNat + 1] [] x.act (outWord vd.toNat (s.engine (coreOf x.key) 0).fault) false true
    tok.toNat).2.updEngine (coreOf x.key) 0 fun e => { e with fault := 0#64 }

theorem xseqFault_completes {s : State} (hi : issues (.xseqFault vd look tok) s = true) :
    Completes (.xseqFault vd look tok) s ((s.seats 0).foldl (fun u x => readsFault vd look tok s x u) (s.counted 0))
      (fun _ => []) fun _ => [] :=
  completes_of (readsFault vd look tok s) (fun _ => True) rfl hi trivial fun x _ u _ hg => by
    have hm := onlyMember_addPend u x look.toNat [vd.toNat, vd.toNat + 1] [] x.act
      (outWord vd.toNat (s.engine (coreOf x.key) 0).fault) false true tok.toNat
    exact ⟨rfl, trivial, hm.others, hm.rest.cur, Option.isSome_iff_exists.1 (hm.stands (by rw [hg]; rfl))⟩

theorem observe_views (s : State) (key core eng v : Nat) : OnlyViews s (s.observe key core eng v) :=
  onlyViews_foldl _ (fun _ _ => acquire_views _ _ _) _ s

theorem OnlyViews.cores {s u : State} (h : OnlyViews s u) : u.cores = s.cores := by unfold OnlyViews at h; rw [h]

theorem OnlyViews.cur {s u : State} (h : OnlyViews s u) : u.cur = s.cur := by unfold OnlyViews at h; rw [h]

/-- R289: a wait passes once DONE has reached the value, whatever the members before it observed. -/
theorem acts_doneWait {vs : VNum} {eng : Seat → Nat} (he : ∀ s, exec i s = doneWait i vs eng s) :
    Acts i (fun s x => decide ((x.g.pairAt vs.toNat x.low0).toNat ≤ (s.engine (coreOf x.key) (eng x)).done % 2 ^ 64))
      fun x u => u.observe x.key (coreOf x.key) (eng x) (x.g.pairAt vs.toNat x.low0).toNat := by
  refine acts_of _ (fun s u => u.cores = s.cores) he (fun s => counted_cores s _) fun s x _ hok u hu hg => ?_
  have hview := observe_views u x.key (coreOf x.key) (eng x) (x.g.pairAt vs.toNat x.low0).toNat
  refine ⟨?_, hview.cores.trans hu, fun k _ => gang_views hview k, hview.cur, _, (gang_views hview _).trans hg⟩
  dsimp only
  rw [engine_cores hu, if_pos (of_decide_eq_true hok)]

end

/-! ### The event matrix (R292-R294) -/

section
variable {i : Instr} {u : State}

/-- A core's change touches no gang and not the unit that issues. -/
theorem updCore_moves {x : Seat} (hg : u.gang? x.key = some (x.g.count x.m0)) (core : Nat) (f : Core → Core) :
    (∀ k, k ≠ x.key → (u.updCore core f).gang? k = u.gang? k) ∧ (u.updCore core f).cur = u.cur ∧
      ∃ a, (u.updCore core f).gang? x.key = some a :=
  ⟨fun _ _ => rfl, rfl, _, hg⟩

/-- R292: a change of the matrix acts once, through the unit's first member. -/
theorem acts_route {f : Core → Core} (he : ∀ s, exec i s = routeWord i f s) : Acts i (fun _ _ => true) fun x u =>
    if x.first then u.updCore (coreOf x.key) f else u :=
  acts_of _ (fun _ _ => True) he (fun _ => trivial) fun s x _ _ u _ hg => by
    cases x.first with
    | true => exact ⟨rfl, trivial, updCore_moves hg _ _⟩
    | false => exact ⟨rfl, trivial, fun _ _ => rfl, rfl, _, hg⟩

/-- R294: every member adds its count to the line of its core. -/
theorem acts_evfire (line : BitVec 4) (count : BitVec 8) : Acts (.evfire line count) (fun _ _ => true) fun x u =>
    u.updCore (coreOf x.key) fun c =>
      { c with lc := Tab.put c.lc line.toNat (Tab.at c.lc 0#32 line.toNat + count.setWidth 32) } :=
  acts_of _ (fun _ _ => True) (fun _ => rfl) (fun _ => trivial) fun _ _ _ _ _ _ hg => ⟨rfl, trivial, updCore_moves hg _ _⟩

/-- R293: a member takes its line's count as its own. -/
theorem acts_evwaitSync (line : BitVec 4) : Acts (.evwaitSync line) (fun _ _ => true) fun x u => u.updGang x.key fun g =>
    { g with seen := Tab.put g.seen line.toNat (Tab.at (u.core (coreOf x.key)).lc 0#32 line.toNat) } :=
  acts_member (fun _ => rfl) (fun _ _ => onlyMember_updGang _ _ _) fun _ _ _ _ _ _ _ => rfl

end

/-! ### One event consumed (R291, R293) -/

section
variable {s : State} {key line : Nat} {g : Gang}

/-- A gang that has consumed one event more of a line. -/
def countEvent (line : Nat) (g : Gang) : Gang := { g with seen := Tab.put g.seen line (Tab.at g.seen 0#32 line + 1#32) }

theorem countEvent_seen (line : Nat) (g : Gang) (n : Nat) : Tab.at (countEvent line g).seen 0#32 n =
    if n = line then Tab.at g.seen 0#32 n + 1#32 else Tab.at g.seen 0#32 n := by
  rw [countEvent, at_put]
  by_cases h : n = line
  · rw [if_pos h.symm, if_pos h, h]
  · rw [if_neg (Ne.symm h), if_neg h]

theorem consume_eq (hg : s.gang? key = some g) (line : Nat) : s.consume key line =
    (s.setGang key (countEvent line g)).observeLine key (coreOf key) line (Tab.at g.seen 0#32 line + 1#32) := by
  rw [State.consume, hg]
  rfl

theorem consume_same (hg : s.gang? key = some g) (line : Nat) : (s.consume key line).gang? key = some (countEvent line g) := by
  rw [consume_eq hg, gang_views (observeLine_views _ _ _ _ _), gang_setGang, if_pos rfl]

theorem consume_other (hg : s.gang? key = some g) (line : Nat) {k : Nat} (hk : k ≠ key) :
    (s.consume key line).gang? k = s.gang? k := by
  rw [consume_eq hg, gang_views (observeLine_views _ _ _ _ _), gang_setGang, if_neg (Ne.symm hk)]

theorem consume_cores (s : State) (key line : Nat) : (s.consume key line).cores = s.cores := by rw [consume_rest]

theorem consume_cur (s : State) (key line : Nat) : (s.consume key line).cur = s.cur := by rw [consume_rest]

/-- R269, R291: where no object has a release buffer, an event tells of no write. -/
theorem consume_mem (hg : s.gang? key = some g) (hb : s.bufs = []) (line : Nat) : (s.consume key line).mem = s.mem := by
  have hw : Unwritten (s.setGang key (countEvent line g)) := unwritten_of_nil hb
  rw [consume_eq hg, State.observeLine,
    acquires_unwritten hw key (fun p : Nat × Nat × Nat => Obj.op (coreOf key) p.2.1 p.2.2)]
  rfl

/-- R291, R293: EVWAIT passes at a line ahead of its member's count, and consumes one event of it. -/
theorem acts_evwait (line : BitVec 4) : Acts (.evwait line) (fun s x =>
    decide (0 < (Tab.at (s.core (coreOf x.key)).lc 0#32 line.toNat - Tab.at x.g.seen 0#32 line.toNat).toInt))
    fun x u => u.consume x.key line.toNat := by
  refine acts_of _ (fun s u => u.cores = s.cores) (fun _ => rfl) (fun s => counted_cores s _) fun s x _ hok u hu hg =>
    ⟨?_, (consume_cores _ _ _).trans hu, fun k hk => consume_other hg _ hk, consume_cur _ _ _, _, consume_same hg _⟩
  have hahead : lineAhead (Tab.at (u.core (coreOf x.key)).lc 0#32 line.toNat) (Tab.at x.g.seen 0#32 line.toNat) = true := by
    rw [core_cores hu]
    exact hok
  rw [if_pos hahead]

end

/-! ### A pulse (R290) -/

section
variable (src : Nat) (op : Option (Nat × Nat))

/-- A source's event at one line: the line counts it if its cell is set, and notes the operation. -/
def pulseLine (c : Core) (line : Nat) : Core :=
  if (Tab.at c.cells 0#16 src).getLsbD line then
    let n := Tab.at c.lc 0#32 line + 1#32
    let c := { c with lc := Tab.put c.lc line n }
    match op with
    | some (eng, num) => { c with pulses := Tab.upd c.pulses [] line (· ++ [(n.toNat, eng, num)]) }
    | none => c
  else c

theorem pulse_eq (c : Core) : c.pulse src op = (List.range 16).foldl (pulseLine src op) c := rfl

theorem pulseLine_rest (c : Core) (line : Nat) : pulseLine src op c line =
    { c with lc := (pulseLine src op c line).lc, pulses := (pulseLine src op c line).pulses } := by
  unfold pulseLine
  split
  · cases op <;> rfl
  · rfl

theorem pulseLine_lc (c : Core) (line n : Nat) : Tab.at (pulseLine src op c line).lc 0#32 n =
    if n = line ∧ (Tab.at c.cells 0#16 src).getLsbD line = true then Tab.at c.lc 0#32 n + 1#32 else Tab.at c.lc 0#32 n := by
  by_cases hc : (Tab.at c.cells 0#16 src).getLsbD line = true
  · have hlc : (pulseLine src op c line).lc = Tab.put c.lc line (Tab.at c.lc 0#32 line + 1#32) := by
      rw [pulseLine, if_pos hc]
      cases op <;> rfl
    rw [hlc, at_put]
    by_cases hn : n = line
    · rw [if_pos hn.symm, if_pos ⟨hn, hc⟩, hn]
    · rw [if_neg (Ne.symm hn), if_neg fun h => hn h.1]
  · rw [pulseLine, if_neg hc, if_neg fun h => hc h.2]

theorem pulseLines_rest (c : Core) (L : List Nat) : L.foldl (pulseLine src op) c =
    { c with lc := (L.foldl (pulseLine src op) c).lc, pulses := (L.foldl (pulseLine src op) c).pulses } := by
  induction L generalizing c with
  | nil => rfl
  | cons line L ih => rw [List.foldl_cons, ih, pulseLine_rest]

theorem pulseLines_lc (c : Core) {L : List Nat} (hn : L.Nodup) (n : Nat) : Tab.at (L.foldl (pulseLine src op) c).lc 0#32 n =
    if n ∈ L ∧ (Tab.at c.cells 0#16 src).getLsbD n = true then Tab.at c.lc 0#32 n + 1#32 else Tab.at c.lc 0#32 n := by
  induction L generalizing c with
  | nil => simp
  | cons line L ih =>
    obtain ⟨hline, hL⟩ := List.nodup_cons.1 hn
    have hcells : (pulseLine src op c line).cells = c.cells := by rw [pulseLine_rest]
    rw [List.foldl_cons, ih _ hL, hcells, pulseLine_lc]
    by_cases h : n = line
    · subst h; simp [hline]
    · simp [h]

end

/-- Settles O36: the commands by `acts_copy`, the readings by `acts_value`, the waits by `acts_doneWait` and `acts_evwait`, the
matrix by `acts_route`, and a pulse line by line. -/
theorem engineWords : Obligations.EngineWords := by
  refine ⟨acts_xcopy, acts_xcopym,
    fun vd look tok => ⟨fun eng => ?done, fun eng => ?issued, fun line => ?line, fun s => xseqFault_completes⟩,
    fun eng vs => acts_doneWait fun _ => rfl, fun src line => acts_route fun _ => rfl, fun src line => acts_route fun _ => rfl,
    fun sink line => acts_route fun _ => rfl, fun sink => acts_route fun _ => rfl, acts_evwait,
    fun s key line g hg hb => ⟨_, consume_same hg line, rfl, consume_mem hg hb line, countEvent_seen line g⟩, acts_evwaitSync,
    acts_evfire, fun c src op line hl => ?counts, fun c src op => pulseLines_rest src op c _⟩
  case done => exact acts_value (fun _ => rfl) fun x s u h => by rw [engine_cores h]
  case issued => exact acts_value (fun _ => rfl) fun x s u h => by rw [engine_cores h]
  case line => exact acts_value (fun _ => rfl) fun x s u h => by rw [core_cores h]
  case counts =>
    rw [pulse_eq, pulseLines_lc src op c List.nodup_range]
    simp [List.mem_range.2 hl]

end Sys2Proof.Laws
end

section
/-! SUPPORT. Tile rows, operand bytes, integer sums and ASTAT's word (R305, R309-R316), and the settled statement. -/

namespace Sys2Proof.Laws

open Sys2Proof Sys2Proof.Machine

/-! ### Tiles after rows are written (R312-R315) -/

section
variable (c : Core) (t row : Nat)

theorem tileAt_putTile (i j t' i' j' : Nat) (x : Img) : (c.putTile t i j x).tileAt t' i' j' =
    if tileKey t i j = tileKey t' i' j' then x else c.tileAt t' i' j' := at_put _ _ _ _ _

/-- A row's elements are written up to a column; the row of a tile is its number among all rows. -/
theorem tileAt_putRow (f : Nat → Img) {n : Nat} (hn : n ≤ 64) (t' i' : Nat) {j' : Nat} (hj : j' < 64) :
    ((List.range n).foldl (fun c j => c.putTile t row j (f j)) c).tileAt t' i' j' =
      if t * 64 + row = t' * 64 + i' ∧ j' < n then f j' else c.tileAt t' i' j' := by
  induction n with
  | zero => simp
  | succ n ih =>
    have hkey : tileKey t row n = tileKey t' i' j' ↔ t * 64 + row = t' * 64 + i' ∧ j' = n := by
      unfold tileKey; omega
    rw [List.range_succ, List.foldl_append, List.foldl_cons, List.foldl_nil, tileAt_putTile, ih (by omega)]
    by_cases hlast : j' = n
    · subst hlast; simp [hkey]
    · have hlt : j' < n + 1 ↔ j' < n := by omega
      simp [hkey, hlast, hlt]

/-- Rows of a tile from one on are written, each by its number. -/
theorem tileAt_putRows (n : Nat) (f : Nat → Nat → Img) (t' i' : Nat) {j' : Nat} (hj : j' < 64) :
    (c.putRows t row n f).tileAt t' i' j' =
      if t * 64 + row ≤ t' * 64 + i' ∧ t' * 64 + i' < t * 64 + row + n then f (t' * 64 + i' - t * 64) j'
      else c.tileAt t' i' j' := by
  unfold Core.putRows
  induction n with
  | zero => rw [if_neg (by omega)]; rfl
  | succ n ih =>
    rw [List.range_succ (n := n), List.foldl_append, List.foldl_cons, List.foldl_nil, tileAt_putRow _ _ _ _ le_rfl _ _ hj, ih]
    by_cases hrow : t * 64 + (row + n) = t' * 64 + i'
    · rw [if_pos ⟨hrow, hj⟩, if_pos (by omega), show row + n = t' * 64 + i' - t * 64 by omega]
    · rw [if_neg fun h => hrow h.1]
      exact if_congr (by omega) rfl rfl

/-- All rows of a tile are written, and no other tile's. -/
theorem tileAt_putAll (f : Nat → Nat → Img) (t' : Nat) {i j : Nat} (hi : i < 64) (hj : j < 64) :
    (c.putRows t 0 64 f).tileAt t' i j = if t' = t then f i j else c.tileAt t' i j := by
  rw [tileAt_putRows _ _ _ _ _ _ _ hj]
  by_cases ht : t' = t
  · subst ht
    rw [if_pos (by omega), if_pos rfl, Nat.add_sub_cancel_left]
  · rw [if_neg (by omega), if_neg ht]

/-- Some of the first tiles are filled with one image. -/
theorem tileAt_fill (p : Nat → Bool) (x : Img) (n : Nat) {t i j : Nat} (hi : i < 64) (hj : j < 64) :
    ((List.range n).foldl (fun c t => if p t then c.putRows t 0 64 (fun _ _ => x) else c) c).tileAt t i j =
      if t < n ∧ p t = true then x else c.tileAt t i j := by
  induction n with
  | zero => simp
  | succ n ih =>
    rw [List.range_succ, List.foldl_append, List.foldl_cons, List.foldl_nil]
    by_cases hp : p n = true
    · rw [if_pos hp, tileAt_putAll _ _ _ _ hi hj, ih]
      by_cases ht : t = n
      · subst ht; simp [hp]
      · have hlt : t < n + 1 ↔ t < n := by omega
        simp [ht, hlt]
    · rw [if_neg hp, ih]
      by_cases ht : t = n
      · subst ht; simp [hp]
      · have hlt : t < n + 1 ↔ t < n := by omega
        simp [hlt]

end

/-! ### What an operation leaves at its start (R304, R312) -/

section
variable {s : State} {core : Nat} {o : Op}

theorem core_updCore_same (s : State) (core : Nat) (f : Core → Core) : (s.updCore core f).core core = f (s.core core) :=
  (core_updCore s core core f).trans (if_pos rfl)

/-- A map of 0 is the one that an unlisted slot has. -/
theorem at_putMap {t : Tab (BitVec 20)} (ht : Tab.rising t = true) (k : Nat) (m : BitVec 20) (n : Nat) :
    Tab.at (if m == 0#20 then Tab.del t k else Tab.put t k m) 0#20 n = if n = k then m else Tab.at t 0#20 n := by
  by_cases hm : m = 0#20
  · subst hm
    rw [if_pos (beq_self_eq_true _), Tab.at]
    by_cases hn : n = k
    · subst hn; rw [if_pos rfl, find_del_same ht]; rfl
    · rw [if_neg hn, find_del_ne _ (Ne.symm hn)]; rfl
  · rw [if_neg (by simpa using hm), at_put]
    exact if_congr eq_comm rfl rfl

theorem omap_starts {slot : BitVec 5} {orient : Orient} {pitch base : BitVec 9} {tok : BitVec 3}
    (ho : o.instr = .omap slot orient pitch base tok) (hm : Tab.rising (s.core core).maps = true) :
    Tab.at ((s.matrixStart core o).1.core core).maps 0#20 slot.toNat = (if orient = .m then 1#2 else 0#2) ++ pitch ++ base ∧
    (s.matrixStart core o).1.mem = s.mem ∧ ∀ n, n ≠ slot.toNat →
      Tab.at ((s.matrixStart core o).1.core core).maps 0#20 n = Tab.at (s.core core).maps 0#20 n := by
  have horient : (if orient == .m then 1#2 else 0#2) = if orient = .m then 1#2 else 0#2 := by cases orient <;> rfl
  have hmaps := at_putMap hm slot.toNat ((if orient = .m then 1#2 else 0#2) ++ pitch ++ base)
  rw [State.matrixStart, ho]
  dsimp only
  rw [core_updCore_same, horient]
  exact ⟨(hmaps _).trans (if_pos rfl), rfl, fun n hn => (hmaps n).trans (if_neg hn)⟩

theorem aclr_starts {cls : TileCls} {tmask : BitVec 8} {tok : BitVec 3} {t i j : Nat} (ho : o.instr = .aclr cls tmask tok)
    (ht : t < 8) (hi : i < 64) (hj : j < 64) : ((s.matrixStart core o).1.core core).tileAt t i j =
      if tmask.getLsbD t = true then (if cls = .i then ⟨0#32, 0x1F#8⟩ else ⟨0#32, 0x1A#8⟩) else (s.core core).tileAt t i j := by
  rw [State.matrixStart, ho]
  dsimp only
  rw [core_updCore_same, tileAt_fill _ _ _ _ hi hj]
  cases cls <;> simp [ht] <;> rfl

end

/-! ### MMA (R309, R310, R323) -/

section
variable {s : State} {core : Nat}

theorem mmaTile_tileAt (kept : Tab Byte) (m : MmaCmd) (t : Nat) {i j : Nat} (hi : i < 64) (hj : j < 64) :
    let kr := mmaKr m.fa m.fb
    ((s.mmaTile kept core m).core core).tileAt t i j = if t = m.acc then
      mmaElem m.isInt (s.operand kept core m.sa m.fa kr m.ka m.sca) (s.operand kept core m.sb m.fb kr m.kb m.scb) (min (min m.ka m.kb) kr) i j
        (if m.start = true then (if m.isInt = true then ⟨0#32, 0x1F#8⟩ else ⟨0#32, 0x1A#8⟩) else (s.core core).tileAt t i j)
      else (s.core core).tileAt t i j := by
  dsimp only
  rw [State.mmaTile, core_updCore_same, tileAt_putAll _ _ _ _ hi hj]
  split
  case isTrue h => subst h; rfl
  case isFalse => rfl

theorem mma_ends {o : Op} {m : MmaCmd} {acc : BitVec 3} {sa sb : BitVec 5} {fa fb : BitVec 3} {ka kb : BitVec 2} {st : Bool}
    {tok : BitVec 3} (ho : o.instr = .mma acc sa sb fa fb ka kb st tok) (hf : o.fault = 0)
    (hm : s.mmaOf o.launch o.instr = some m) :
    (o.bad = false → s.poison = [] → s.matrixEnd core o = s.mmaTile o.got core m) ∧
    (o.bad = true → s.matrixEnd core o = s.haltLaunch o.launch 0x7D) ∧ s.matrixStart core o = (s, 0#64) := by
  have hend : s.matrixEnd core o = if o.bad || s.mmaPoisoned o.got core m then s.haltLaunch o.launch 0x7D
      else s.mmaTile o.got core m := by
    rw [ho] at hm
    rw [State.matrixEnd, ho]
    dsimp only
    rw [hm, hf]
    rfl
  refine ⟨fun hb hp => ?_, fun hb => ?_, ?_⟩
  · have hclean : s.mmaPoisoned o.got core m = false := by rw [State.mmaPoisoned, hp]; rfl
    rw [hend, hb, hclean]
    rfl
  · rw [hend, hb]
    rfl
  · rw [State.matrixStart, ho]

theorem leNat_byte (bs : List Byte) {i : Nat} (hi : i < bs.length) : leNat bs / 256 ^ i % 256 = bs[i].toNat := by
  induction bs generalizing i with
  | nil => cases hi
  | cons b bs ih =>
    have hb : b.toNat < 256 := b.isLt
    cases i with
    | zero => rw [leNat, pow_zero, Nat.div_one, Nat.add_mul_mod_self_left, Nat.mod_eq_of_lt hb]; rfl
    | succ i =>
      have hdrop : (b.toNat + 256 * leNat bs) / 256 = leNat bs := by omega
      rw [leNat, pow_succ', ← Nat.div_div_eq_div_mul, hdrop]
      exact ih (Nat.lt_of_succ_lt_succ hi)

/-- Each byte of an operand is the one read before a copy replaced it, or the one that stands (R323). -/
theorem operand_byte (kept : Tab Byte) (slot fmt kr blk : Nat) (sc : Bool × Nat × Nat) {i : Nat}
    (hi : i < 8192 * mmaSpan fmt kr) : let a := operandBase core + slot * 8192 + i
    (s.operand kept core slot fmt kr blk sc).bits / 256 ^ i % 256 = ((Tab.find? kept a).getD (Memory.get s.mem a)).toNat := by
  refine (leNat_byte _ (by simpa using hi)).trans ?_
  simp

/-- Integer blocks add up: each adds its exact sum of products, and the sums wrap together. -/
theorem intBlocks_val (g : Nat → Int) (l n : Nat) (acc : Img) : ((List.range n).foldl (fun (a : Img) c =>
      intImg (a.val + BitVec.ofInt 32 (((List.range l).map (c * l + ·)).foldl (fun v k => v + g k) 0))) acc).val =
    acc.val + BitVec.ofInt 32 ((List.range (n * l)).map g).sum := by
  have hsum : ∀ L : List Nat, L.foldl (fun v k => v + g k) 0 = (L.map g).sum := fun L => by
    rw [List.sum_eq_foldl, List.foldl_map]
  induction n with
  | zero => simp
  | succ n ih =>
    rw [List.range_succ, List.foldl_append, List.foldl_cons, List.foldl_nil, Nat.succ_mul, List.range_add, List.map_append,
      List.sum_append, BitVec.ofInt_add, ← BitVec.add_assoc, ← ih, hsum]
    rfl

theorem mmaElem_int (a b : Operand) {lsum : Nat} (i j : Nat) (acc : Img) (hd : lsum ∣ a.kr) :
    (mmaElem true a b lsum i j acc).val = acc.val + BitVec.ofInt 32
      (((List.range a.kr).map fun k => codeInt a.fmt (a.code i k) * codeInt b.fmt (b.code j k)).sum) := by
  have hblocks := intBlocks_val (fun k => codeInt a.fmt (a.code i k) * codeInt b.fmt (b.code j k)) lsum (a.kr / lsum) acc
  rw [Nat.div_mul_cancel hd] at hblocks
  exact hblocks

end

/-! ### What OLOAD and AWRITE leave (R307, R315) -/

section
variable {s : State} {core : Nat} {o : Op}

theorem indexFrom_mapRange {α : Type} (f : Nat → α) (k n : Nat) :
    indexFrom k ((List.range n).map f) = (List.range n).map fun i => (k + i, f i) := by
  induction n generalizing k f with
  | zero => rfl
  | succ n ih =>
    rw [List.range_succ_eq_map, List.map_cons, indexFrom, List.map_map, ih, List.map_cons, List.map_map]
    refine congrArg _ (List.map_congr_left fun i _ => ?_)
    exact Prod.ext (Nat.succ_add_eq_add_succ k i) rfl

/-- Consecutive bytes that are written read back. -/
theorem get_sets_run {m : Memory} (hm : m.wf = true) (f : Nat → Byte) (k : Nat) {n i : Nat} (hi : i < n) :
    (m.sets (indexFrom k ((List.range n).map f))).get (k + i) = f i := by
  rw [indexFrom_mapRange]
  refine get_sets_mem hm _ ?_ (List.mem_map.2 ⟨i, List.mem_range.2 hi, rfl⟩)
  rw [List.map_map]
  exact List.nodup_range.map fun a b h => Nat.add_left_cancel h

theorem oload_ends {q : BitVec 6} {slot : BitVec 5} {len : BitVec 7} {tok : BitVec 3} {i : Nat}
    (ho : o.instr = .oload q slot len tok) (hf : o.fault = 0) (hm : Memory.wf s.mem = true) (hi : i < (len.toNat + 1) * 64) :
    let quad := Tab.at o.vals [] 0
    Memory.get (s.matrixEnd core o).mem (operandBase core + slot.toNat * 8192 + quadNat quad 2 % 8192 + i) =
      Tab.at o.got 0#8 (datumKey 0 i) := by
  rw [State.matrixEnd, ho]
  dsimp only
  rw [hf]
  refine (get_sets_run hm _ _ hi).trans ?_
  rw [Nat.zero_add]

theorem awrite_ends {acc : BitVec 3} {q : BitVec 6} {fmt : BitVec 3} {row0 nrows : BitVec 6} {tok : BitVec 3} {i j : Nat}
    (ho : o.instr = .awrite acc q fmt row0 nrows tok) (hf : o.fault = 0) (hlo : row0.toNat ≤ i)
    (hhi : i ≤ row0.toNat + nrows.toNat) (hj : j < 64) (htags : o.gotTag = []) :
    let d := s.slotOf o.launch fmt.toNat
    let w := codeBits (slotOfmt d)
    ((s.matrixEnd core o).core core).tileAt acc.toNat i j = writeImg (slotAfmt d = 0xE) (slotOfmt d) (slotMode d o.ctl)
      (leNat (o.bytes (i - row0.toNat) 0 (rowBytes (slotOfmt d))) / 2 ^ (w * j) % 2 ^ w) [] := by
  rw [State.matrixEnd, ho]
  dsimp only
  rw [hf, if_neg (by decide), core_updCore_same, tileAt_putRows _ _ _ _ _ _ _ hj, if_pos (by omega), Nat.add_sub_cancel_left,
    htags]
  rfl

end

/-! ### ASTAT's word (R316) -/

theorem foldl_min_le (f : Img → Nat) (xs : List Img) (m : Nat) :
    xs.foldl (fun k x => min k (f x)) m ≤ m ∧ ∀ x ∈ xs, xs.foldl (fun k x => min k (f x)) m ≤ f x := by
  induction xs generalizing m with
  | nil => exact ⟨le_rfl, fun _ h => nomatch h⟩
  | cons x xs ih =>
    obtain ⟨hm, hxs⟩ := ih (min m (f x))
    exact ⟨hm.trans (min_le_left _ _), List.forall_mem_cons.2 ⟨hm.trans (min_le_right _ _), hxs⟩⟩

theorem le_foldl_max (f : Img → Nat) (xs : List Img) {m b : Nat} (hm : m ≤ b) (hb : ∀ x ∈ xs, f x ≤ b) :
    xs.foldl (fun k x => max k (f x)) m ≤ b ∧ m ≤ xs.foldl (fun k x => max k (f x)) m ∧
      ∀ x ∈ xs, f x ≤ xs.foldl (fun k x => max k (f x)) m := by
  induction xs generalizing m with
  | nil => exact ⟨hm, le_rfl, fun _ h => nomatch h⟩
  | cons x xs ih =>
    rw [List.forall_mem_cons] at hb
    obtain ⟨hle, hge, hxs⟩ := ih (max_le hm hb.1) hb.2
    exact ⟨hle, (le_max_left _ _).trans hge, List.forall_mem_cons.2 ⟨(le_max_right _ _).trans hge, hxs⟩⟩

/-- The fields of a word made of counts, K bounds below 64 and flags at bits 16 to 19. -/
theorem word_fields {ns f19 f18 f16 kmax kmin : Nat} {b17 : Bool} (h19 : f19 ≤ 1) (h18 : f18 ≤ 1) (h16 : f16 ≤ 1)
    (hmax : kmax < 64) (hmin : kmin < 64) :
    let w := BitVec.ofNat 64 (ns * 2 ^ 32 + f19 * 2 ^ 19 + f18 * 2 ^ 18 + b17.toNat * 2 ^ 17 + f16 * 2 ^ 16 + kmax * 256 + kmin)
    fieldOf w 32 16 = ns % 2 ^ 16 ∧ fieldOf w 0 6 = kmin ∧ fieldOf w 8 6 = kmax ∧ w.getLsbD 17 = b17 := by
  have h17 : b17.toNat ≤ 1 := b17.toNat_le
  refine ⟨?_, ?_, ?_, ?_⟩
  · rw [fieldOf, BitVec.toNat_ofNat]; omega
  · rw [fieldOf, BitVec.toNat_ofNat]; omega
  · rw [fieldOf, BitVec.toNat_ofNat]; omega
  · have hbit : (ns * 2 ^ 32 + f19 * 2 ^ 19 + f18 * 2 ^ 18 + b17.toNat * 2 ^ 17 + f16 * 2 ^ 16 + kmax * 256 + kmin) / 2 ^ 17 % 2 =
        b17.toNat := by omega
    rw [BitVec.getLsbD_ofNat, Nat.testBit_eq_decide_div_mod_eq, hbit]
    cases b17 <;> rfl

theorem astatWord_fields {xs : List Img} (hk : ∀ x ∈ xs, x.k ≤ 26) :
    fieldOf (astatWord xs) 32 16 = (xs.filter Img.s).length % 2 ^ 16 ∧
    (∀ x ∈ xs, fieldOf (astatWord xs) 0 6 ≤ x.k ∧ x.k ≤ fieldOf (astatWord xs) 8 6) ∧
    ((astatWord xs).getLsbD 17 = true ↔ ∃ x ∈ xs, (imgValue .f32 (x, zeroImg)).isNan = true) := by
  have hflag : ∀ (b : Bool) n, (if b then 2 ^ n else 0) = b.toNat * 2 ^ n := fun b n => by cases b <;> simp
  obtain ⟨hmin, hmins⟩ := foldl_min_le Img.k xs 63
  obtain ⟨hmax, -, hmaxs⟩ := le_foldl_max Img.k xs (Nat.zero_le 26) hk
  have hw := word_fields (ns := (xs.filter Img.s).length) (b17 := xs.any fun x => (imgValue .f32 (x, zeroImg)).isNan)
    (xs.any fun x => (imgValue .f32 (x, zeroImg)).isZero && x.s && x.k == 0).toNat_le
    (xs.any fun x => (imgValue .f32 (x, zeroImg)).isInf).toNat_le (decide (0 < (xs.filter Img.s).length)).toNat_le
    (Nat.lt_of_le_of_lt hmax (by decide)) (Nat.lt_of_le_of_lt hmin (by decide))
  simp only [← hflag] at hw
  obtain ⟨hns, hlow, hhigh, hnan⟩ := hw
  exact ⟨hns, fun x hx => ⟨hlow.trans_le (hmins x hx), (hmaxs x hx).trans_eq hhigh.symm⟩, by
    rw [show (astatWord xs).getLsbD 17 = _ from hnan, List.any_eq_true]⟩

/-- Settles O38: tiles by `tileAt_putAll`, operand bytes by `leNat_byte`, integer sums by `intBlocks_val`, loaded and written
data by `get_sets_run` and `tileAt_putRows`, ASTAT's word by `word_fields`. -/
theorem matrixValues : Obligations.MatrixValues :=
  ⟨fun _ _ _ _ _ _ _ _ ho hm => omap_starts ho hm, fun _ _ _ _ _ _ _ _ _ ho ht hi hj => aclr_starts ho ht hi hj,
    fun _ kept _ m t _ _ _ _ hi hj => mmaTile_tileAt kept m t hi hj, fun _ _ _ _ _ _ _ _ _ _ _ _ _ ho hf hm => mma_ends ho hf hm,
    fun _ kept _ slot fmt kr blk sc _ hi => operand_byte kept slot fmt kr blk sc hi,
    fun a b _ i j acc _ hd => mmaElem_int a b i j acc hd, fun _ _ _ _ _ _ _ _ ho hf hm hi => oload_ends ho hf hm hi,
    fun _ _ _ _ _ _ _ _ _ _ _ ho hf hlo hhi _ hj ht => awrite_ends ho hf hlo hhi hj ht, fun _ _ hk => astatWord_fields hk⟩

end Sys2Proof.Laws
end

section
/-! SUPPORT. Words that act once for their unit, through its first member (R12): what they complete with, and where they trap. -/

namespace Sys2Proof.Laws

open Sys2Proof Sys2Proof.Machine

/-! ### The first member of a unit -/

section
variable {i : Instr} {s u w : State} {x0 : Seat} {xs : List Seat} {body f : Seat → State → SeatRes}

theorem indexFrom_ge {α : Type} {k : Nat} {L : List α} {e : Nat × α} (h : e ∈ indexFrom k L) : k ≤ e.1 := by
  induction L generalizing k with
  | nil => cases h
  | cons a L ih =>
    rcases List.mem_cons.1 h with h | h
    · subst h; exact le_rfl
    · exact Nat.le_of_succ_le (ih h)

/-- The lowest member of a unit is its first, and no other is. -/
theorem seats_first {mk : Nat} (h : s.seats mk = x0 :: xs) : x0.first = true ∧ ∀ x ∈ xs, x.first = false := by
  unfold State.seats at h
  dsimp only at h
  generalize List.filterMap _ (s.team s.cur.key) = ms at h
  cases ms with
  | nil => cases h
  | cons m ms =>
    rw [indexFrom, List.map_cons] at h
    obtain ⟨rfl, rfl⟩ := List.cons.inj h
    refine ⟨rfl, fun x hx => ?_⟩
    obtain ⟨e, he, rfl⟩ := List.mem_map.1 hx
    have hpos : 1 ≤ e.1 := indexFrom_ge he
    exact beq_eq_false_iff_ne.2 (Nat.ne_of_gt hpos)

/-- Members that do nothing leave the state they ran on. -/
theorem runSeats_idle {r : Ran} (h : ∀ x ∈ xs, body x r.state = .ok r.state {}) :
    runSeats body xs r = { r with effs := r.effs ++ xs.map fun x => (x, {}) } := by
  induction xs generalizing r with
  | nil => simp [runSeats]
  | cons x xs ih =>
    rw [List.forall_mem_cons] at h
    rw [runSeats, h.1]
    exact (ih (r := { r with effs := r.effs ++ [(x, {})] }) h.2).trans (by simp)

/-- What each member of a unit does at a word that acts once. -/
def once (f : Seat → State → SeatRes) (x : Seat) (t : State) : SeatRes := if x.first then f x t else .ok t {}

theorem onceWord_eq (i : Instr) (f : Seat → State → SeatRes) (s : State) : onceWord i f s = .next (issue i (once f) s) := rfl

theorem once_idle (f : Seat → State → SeatRes) {x : Seat} (h : x.first = false) (t : State) : once f x t = .ok t {} := by
  rw [once, h]
  rfl

/-- The run of a unit whose first member acts. -/
theorem runSeats_once {mk : Nat} (hs : s.seats mk = x0 :: xs) (hf : f x0 u = .ok w {}) :
    runSeats (once f) (x0 :: xs) ⟨u, [], [], []⟩ = ⟨w, (x0 :: xs).map fun x => (x, {}), [], []⟩ := by
  obtain ⟨hfirst, hrest⟩ := seats_first hs
  have h0 : once f x0 u = .ok w {} := by rw [once, if_pos hfirst, hf]
  rw [runSeats, h0]
  exact runSeats_idle (r := ⟨w, [(x0, {})], [], []⟩) fun x hx => once_idle f (hrest x hx) w

end

/-! ### The end of a word's issue, whatever its members made of the state -/

section
variable {i : Instr} {s u v w : State} {body : Seat → State → SeatRes}

/-- The members of a unit that have run go on, the unit's word is forgotten, and its part split. -/
def goneOn (s w : State) (xs : List Seat) : State :=
  ((upds w (xs.map fun x => (x.key, ended w.tick s.curWords (w.core (coreOf x.key)).high x {}))).updGang s.cur.key
    fun g => g.forget s.cur.part).resplit s.cur.key (some s.cur.part)

theorem issue_ran (hi : issues i s = true) (hend : endsIdem i = false) (hc : w.cur = s.cur)
    (hrun : runSeats body (s.seats i.maskField) ⟨s.counted i.maskField, [], [], []⟩ =
      ⟨w, (s.seats i.maskField).map fun x => (x, {}), [], []⟩) : issue i body s = goneOn s w (s.seats i.maskField) := by
  obtain ⟨x0, xs, hs, hop, hstall⟩ := issues_seats hi
  have hfin := foldl_finish' s w hc (s.seats i.maskField) (fun _ => {}) (fun _ => rfl) w rfl
  unfold State.counted at hrun
  unfold issue goneOn
  rw [hs] at hrun hfin ⊢
  dsimp only
  rw [hop]
  dsimp only
  rw [hstall, hrun]
  dsimp only
  rw [hfin, hend]
  rfl

/-- Members that all stand go on without results. -/
theorem goneOn_moved {mk : Nat} (hstand : ∀ x ∈ s.seats mk, (w.gang? x.key).isSome = true) :
    Moved s w (goneOn s w (s.seats mk)) mk s.curWords (fun _ => []) (fun _ => []) false := by
  unfold goneOn
  set F : Seat → Gang → Gang := fun x => ended w.tick s.curWords (w.core (coreOf x.key)).high x {}
  set t := upds w ((s.seats mk).map fun x => (x.key, F x))
  have hlast : ∀ k g, t.gang? k = some g → ∃ g',
      ((t.updGang s.cur.key fun g => g.forget s.cur.part).resplit s.cur.key (some s.cur.part)).gang? k = some g' ∧
      g' = { g with flow := g'.flow, fetched := g'.fetched, waits := g'.waits } ∧
      ∀ l, (g'.flowAt l).pc = (g.flowAt l).pc := fun k g hg => by
    obtain ⟨g₁, h₁, e₁⟩ := forget_gang (key := s.cur.key) (part := s.cur.part) hg
    obtain ⟨g₂, h₂, e₂, hpc⟩ := resplit_gang s.cur.key (some s.cur.part) h₁
    exact ⟨g₂, h₂, by rw [e₂, e₁], fun l => by rw [hpc l, e₁]; rfl⟩
  refine ⟨rest_trans (rest_trans (upds_rest _ _) (updGang_rest _ _ _)) (resplit_rest _ _ _), fun x hx => ?_, fun k g hg hk => ?_⟩
  · obtain ⟨a, ha⟩ := Option.isSome_iff_exists.1 (hstand x hx)
    have hx' : t.gang? x.key = some (F x a) := by
      have hupd := upds_gang w ((s.seats mk).map fun x => (x.key, F x)) (by rw [keys_map]; exact seats_nodup s mk) _
        (List.mem_map_of_mem hx)
      rwa [ha] at hupd
    obtain ⟨g', hg', hrest, hpc⟩ := hlast _ _ hx'
    exact ⟨a, g', ha, hg', gone_regroup (ended_gone a w.tick s.curWords _ x [] []) hrest hpc⟩
  · have hk' : t.gang? k = some g := (upds_gang_other _ _ _ fun e he => by
      obtain ⟨x, hx, rfl⟩ := List.mem_map.1 he
      exact hk x hx).trans hg
    obtain ⟨g', hg', hrest, hpc⟩ := hlast _ _ hk'
    exact ⟨g', hg', hpc, hrest⟩

/-- The unit that issues is the same, and every gang still stands. -/
structure KeepsGangs (u v : State) : Prop where
  cur : v.cur = u.cur
  gangs : ∀ k, (u.gang? k).isSome = true → (v.gang? k).isSome = true

theorem KeepsGangs.trans (h : KeepsGangs u v) (h' : KeepsGangs v w) : KeepsGangs u w :=
  ⟨h'.cur.trans h.cur, fun k hk => h'.gangs k (h.gangs k hk)⟩

theorem keepsGangs_updCore (u : State) (core : Nat) (f : Core → Core) : KeepsGangs u (u.updCore core f) := ⟨rfl, fun _ h => h⟩

theorem keepsGangs_nextId (u : State) (n : Nat) : KeepsGangs u { u with nextId := n } := ⟨rfl, fun _ h => h⟩

theorem keepsGangs_updGang (u : State) (key : Nat) (f : Gang → Gang) : KeepsGangs u (u.updGang key f) :=
  ⟨updGang_cur u key f, fun k h => by
    rw [gang_updGang]
    split
    · rw [Option.isSome_map, h]
    · exact h⟩

theorem keepsGangs_foldl {α : Type} {f : State → α → State} (hf : ∀ u a, KeepsGangs u (f u a)) (u : State) (L : List α) :
    KeepsGangs u (L.foldl f u) :=
  List.foldlRecOn (motive := fun v => KeepsGangs u v) L f ⟨rfl, fun _ h => h⟩ fun _ h a _ => h.trans (hf _ a)

end

/-! ### Words that act once -/

section
variable {i : Instr} {f : Seat → State → SeatRes} {k : Seat → State → State} {ok : State → Seat → Bool}

/-- A word that acts once completes with what its first member does, who may change other members too. -/
theorem acts_once (he : ∀ s, exec i s = onceWord i f s) (hend : endsIdem i = false) (hk : ∀ x u, KeepsGangs u (k x u))
    (hf : ∀ s, ∀ x ∈ s.seats i.maskField, ok s x = true → f x (s.counted i.maskField) = .ok (k x (s.counted i.maskField)) {}) :
    Acts i (fun s x => !x.first || ok s x) fun x u => if x.first then k x u else u := by
  intro s hi hok
  obtain ⟨x0, xs, hs, -, -⟩ := issues_seats hi
  obtain ⟨hfirst, hrest⟩ := seats_first hs
  have hx0 : x0 ∈ s.seats i.maskField := by rw [hs]; exact List.mem_cons_self
  have hact := hf s x0 hx0 (by simpa [hfirst] using hok x0 hx0)
  set w := k x0 (s.counted i.maskField)
  have hkeeps : KeepsGangs (s.counted i.maskField) w := hk _ _
  have hcur : w.cur = s.cur := hkeeps.cur.trans (onlyGangs_counted s _).cur
  have hfold : (s.seats i.maskField).foldl (fun u x => if x.first then k x u else u) (s.counted i.maskField) = w := by
    rw [hs, List.foldl_cons, if_pos hfirst]
    exact List.foldlRecOn (motive := fun v => v = w) xs _ rfl fun v hv x hx => by rw [hrest x hx]; exact hv
  have hissue : issue i (once f) s = goneOn s w (s.seats i.maskField) :=
    issue_ran hi hend hcur (by rw [hs]; exact runSeats_once hs hact)
  refine ⟨_, (he s).trans (onceWord_eq i f s), ?_⟩
  rw [hfold, hissue, hend]
  exact goneOn_moved fun x hx => hkeeps.gangs x.key (by rw [counted_gang hx]; rfl)

/-- A word that acts once traps where its first member meets a cause. -/
theorem once_traps {s : State} {fl : Seat → Flaw} {code : Nat} (he : exec i s = onceWord i f s) (hi : issues i s = true)
    (hc : ∀ x, (fl x).code = code)
    (hf : ∀ x ∈ s.seats i.maskField, x.first = true → f x (s.counted i.maskField) = .trap (fl x)) :
    Traps i s (((s.seats i.maskField).filter (·.first)).map fun x => (x.key, fl x)) := by
  obtain ⟨x0, xs, hs, -, -⟩ := issues_seats hi
  obtain ⟨hfirst, -⟩ := seats_first hs
  have hlist : ((s.seats i.maskField).filter (·.first)).map (fun x => (x.key, fl x)) = (s.seats i.maskField).filterMap fun x =>
      (if x.first then some (fl x) else none).map fun w => (x.key, w) := by
    rw [← List.filterMap_eq_map', List.filterMap_filter]
    refine List.filterMap_congr fun x _ => ?_
    cases x.first <;> rfl
  rw [hlist]
  refine traps_where (code := code) _ (fun u => u = s.counted i.maskField) (he.trans (onceWord_eq i f s)) hi rfl ?meets
    ⟨x0, by rw [hs]; exact List.mem_cons_self, by rw [hfirst]; rfl⟩ ?codes
  case meets =>
    rintro x hx u rfl -
    cases hx1 : x.first with
    | true => exact (if_pos hx1).trans (hf x hx hx1)
    | false => exact ⟨_, _, once_idle f hx1 _, rfl, fun _ _ => rfl⟩
  case codes =>
    intro x g hg
    split at hg
    · cases hg; exact hc x
    · cases hg

end

end Sys2Proof.Laws
end

section
/-! SUPPORT. The words of the matrix unit at issue (R299-R303, R316-R318, R321, R461, R462), and the settled statement. -/

namespace Sys2Proof.Laws

open Sys2Proof Sys2Proof.Machine

/-! ### What the issue of a word leaves of the matrix unit (R299) -/

section
variable (s : State) (mk key : Nat)

theorem core_counted (core : Nat) : (s.counted mk).core core = s.core core := core_cores (counted_cores s mk) core

theorem leadOf_counted : (s.counted mk).leadOf key = s.leadOf key := leadOf_sameMates (sameMates_counted s mk) key

theorem sameTeam_counted (k : Nat) : (s.counted mk).sameTeam k key = s.sameTeam k key := by
  rw [State.sameTeam, leadOf_counted, leadOf_counted, State.sameTeam]

theorem claimPending_counted (launch : Nat) (i : Instr) :
    (s.counted mk).claimPending key ((s.counted mk).names launch i) = s.claimPending key (s.names launch i) :=
  claimPending_stands (onlyGangs_counted s mk) (sameMates_counted s mk) key launch i

end

/-! ### Claims and releases (R299-R301, R461) -/

section
variable {s : State} {first : BitVec 5} {nslot : BitVec 6} {tmask : BitVec 8} {tok : BitVec 3}

/-- A claim or a release changes its core, and its token counts it. -/
theorem keepsGangs_claim (f : Core → Core) (u : State) (core key tok : Nat) :
    KeepsGangs u ((u.updCore core f).updGang key fun g => g.tokAdd tok) :=
  (keepsGangs_updCore u core f).trans (keepsGangs_updGang _ _ _)

theorem acts_oclaim (first : BitVec 5) (nslot : BitVec 6) (tmask : BitVec 8) (tok : BitVec 3) :
    let n : Names := ⟨claimSlots first.toNat nslot.toNat, tmask⟩
    Acts (.oclaim first nslot tmask tok) (fun s x => !x.first || (
        let c := s.core (coreOf x.key)
        !(c.heldBy (s.leadOf x.key)).meets n && c.claims.all fun k => !s.sameTeam k.gang x.key)) fun x u =>
      if x.first then (u.updCore (coreOf x.key) fun c => { c with claims := c.claims ++ [⟨x.key, n.slots, n.tiles, tok.toNat, []⟩] }).updGang
        x.key fun g => g.tokAdd tok.toNat
      else u := by
  refine acts_once (fun _ => rfl) rfl (fun x u => keepsGangs_claim _ u _ _ _) fun s x _ hok => ?_
  dsimp only at hok ⊢
  rw [Bool.and_eq_true, Bool.not_eq_true', List.all_eq_true] at hok
  obtain ⟨hfree, hnone⟩ := hok
  have hno : ((s.core (coreOf x.key)).claims.any fun k => s.sameTeam k.gang x.key) = false :=
    List.any_eq_false.2 fun k hk => by simpa using hnone k hk
  simp only [core_counted, leadOf_counted, sameTeam_counted]
  rw [hfree, hno]
  rfl

theorem oclaim_traps (hi : issues (.oclaim first nslot tmask tok) s = true) :
    let n : Names := ⟨claimSlots first.toNat nslot.toNat, tmask⟩
    let own := fun (x : Seat) => (s.core (coreOf x.key)).heldBy (s.leadOf x.key)
    (∀ x ∈ s.seats 0, x.first = true → (own x).meets n = true) →
    Traps (.oclaim first nslot tmask tok) s (((s.seats 0).filter (·.first)).map fun x => (x.key, flaw 0x13 2 x.act
      (BitVec.ofNat 64 (((own x).slots &&& n.slots).toNat + ((own x).tiles &&& n.tiles).toNat * 2 ^ 32)))) := by
  dsimp only
  intro hown
  refine once_traps (code := 0x13) rfl hi (fun _ => rfl) fun x hx hfirst => ?_
  dsimp only
  rw [core_counted, leadOf_counted, if_pos (hown x hx hfirst)]
  rfl

theorem acts_orel (first : BitVec 5) (nslot : BitVec 6) (tmask : BitVec 8) (tok : BitVec 3) :
    let n : Names := ⟨claimSlots first.toNat nslot.toNat, tmask⟩
    Acts (.orel first nslot tmask tok) (fun s x => !x.first || (
        let own := (s.core (coreOf x.key)).heldBy (s.leadOf x.key)
        n.slots &&& ~~~own.slots == 0#32 && n.tiles &&& ~~~own.tiles == 0#8)) fun x u =>
      if x.first then (u.updCore (coreOf x.key) fun c =>
        { c with orels := c.orels ++ [⟨x.key, n.slots, n.tiles, tok.toNat, u.opsNaming x.key n⟩] }).updGang x.key fun g => g.tokAdd tok.toNat
      else u := by
  refine acts_once (fun _ => rfl) rfl (fun x u => keepsGangs_claim _ u _ _ _) fun s x _ hok => ?_
  dsimp only at hok ⊢
  rw [Bool.and_eq_true] at hok
  obtain ⟨hslots, htiles⟩ := hok
  rw [core_counted, leadOf_counted, bne, bne, hslots, htiles]
  rfl

theorem orel_traps (hi : issues (.orel first nslot tmask tok) s = true) :
    let n : Names := ⟨claimSlots first.toNat nslot.toNat, tmask⟩
    let lack := fun (x : Seat) => let own := (s.core (coreOf x.key)).heldBy (s.leadOf x.key)
      (⟨n.slots &&& ~~~own.slots, n.tiles &&& ~~~own.tiles⟩ : Names)
    (∀ x ∈ s.seats 0, x.first = true → lack x ≠ ⟨0#32, 0#8⟩) →
    Traps (.orel first nslot tmask tok) s (((s.seats 0).filter (·.first)).map fun x => (x.key, flaw 0x13 1 x.act
      (BitVec.ofNat 64 ((lack x).slots.toNat + (lack x).tiles.toNat * 2 ^ 32)))) := by
  dsimp only
  intro hlack
  refine once_traps (code := 0x13) rfl hi (fun _ => rfl) fun x hx hfirst => ?_
  have hsome := hlack x hx hfirst
  rw [ne_eq, Names.mk.injEq, not_and_or] at hsome
  dsimp only
  rw [core_counted, leadOf_counted, if_pos (by simpa using hsome)]
  rfl

end

/-! ### Operations (R302, R303, R316) -/

section
variable {u : State} {x : Seat} {p : Pre}

/-- A gang's operation in the core's queue, before one with a memory end enters its stream. -/
def queuePre (u : State) (x : Seat) (p : Pre) : State :=
  { u.updGang x.key (fun g => g.tokAdd p.tok) with nextId := u.nextId + 1 }.updCore (coreOf x.key) fun c =>
    { c with mxq := c.mxq ++ [p] }

/-- A queued operation's entry in its stream. -/
def preEntry (u : State) (x : Seat) (p : Pre) : Entry :=
  let v := queuePre u x p
  { v.newEntry p.instr x with
    id := p.id, act := p.act, vals := p.vals, maps := p.maps, ctl := p.ctl, tok := p.tok, gate := v.gates x.key }

theorem putPre_eq (u : State) (x : Seat) (p : Pre) : u.putPre x p =
    match p.stream with
    | none => queuePre u x p
    | some st => (queuePre u x p).enqueue x.key st (preEntry u x p) := rfl

theorem queuePre_core (u : State) (x : Seat) (p : Pre) :
    ((queuePre u x p).core (coreOf x.key)).mxq = (u.core (coreOf x.key)).mxq ++ [p] := by
  have hcores : ({ u.updGang x.key (fun g => g.tokAdd p.tok) with nextId := u.nextId + 1 } : State).cores = u.cores :=
    updGang_cores u x.key _
  rw [queuePre, core_updCore_same, core_cores hcores]

theorem queuePre_gang {g : Gang} (hg : u.gang? x.key = some g) (p : Pre) :
    (queuePre u x p).gang? x.key = some (g.tokAdd p.tok) :=
  (gang_updGang u x.key x.key _).trans ((if_pos rfl).trans (congrArg (Option.map _) hg))

theorem keepsGangs_putPre (u : State) (x : Seat) (p : Pre) : KeepsGangs u (u.putPre x p) := by
  have hqueue : KeepsGangs u (queuePre u x p) :=
    ((keepsGangs_updGang u x.key fun g => g.tokAdd p.tok).trans (keepsGangs_nextId _ _)).trans (keepsGangs_updCore _ _ _)
  rw [putPre_eq]
  cases p.stream with
  | none => exact hqueue
  | some st => exact hqueue.trans (keepsGangs_updGang _ _ _)

/-- R303: an operation stands at the end of its core's queue, and one with a memory end at the end of its stream too. -/
theorem putPre_spec (u : State) (x : Seat) (p : Pre) : (u.putPre x p).mem = u.mem ∧
    ((u.putPre x p).core (coreOf x.key)).mxq = (u.core (coreOf x.key)).mxq ++ [p] ∧
    ∀ st g, p.stream = some st → u.gang? x.key = some g → ∃ g' e, (u.putPre x p).gang? x.key = some g' ∧
      g'.stream st = g.stream st ++ [e] ∧ e.id = p.id ∧ e.instr = p.instr ∧ g'.regs = g.regs := by
  have hmem : (queuePre u x p).mem = u.mem := updGang_mem u x.key _
  rw [putPre_eq]
  cases p.stream with
  | none => exact ⟨hmem, queuePre_core u x p, fun st g hst => nomatch hst⟩
  | some st =>
    refine ⟨(updGang_mem _ _ _).trans hmem, ?_, fun st' g hst hg => ?_⟩
    · rw [← queuePre_core]
      exact congrArg Core.mxq (core_cores (updGang_cores _ _ _) _)
    · cases hst
      refine ⟨_, preEntry u x p,
        (gang_updGang _ _ _ _).trans ((if_pos rfl).trans (congrArg (Option.map _) (queuePre_gang hg p))), ?_, rfl, rfl, ?_⟩
      · have hstreams : (g.tokAdd p.tok).stream st = g.stream st := by rw [tokAdd_rest]; rfl
        rw [Gang.stream, at_setStream _ _ (List.append_ne_nil_of_right_ne_nil _ (List.cons_ne_nil _ [])), if_pos rfl, hstreams]
      · show (g.tokAdd p.tok).regs = g.regs
        rw [tokAdd_rest]

end

section
variable {i : Instr} {tok : BitVec 3}

/-- A word that queues an operation for its team acts where the team waits for no claim that the operation names (R299). -/
theorem acts_operation {k : Seat → State → State} (hend : endsIdem i = false) (hk : ∀ x u, KeepsGangs u (k x u))
    (he : ∀ s, exec i s = onceWord i
      (fun x t => if t.claimPending x.key (t.names x.g.launch i) then stall else .ok (k x t) {}) s) :
    Acts i (fun s x => !x.first || !s.claimPending x.key (s.names x.g.launch i)) fun x u => if x.first then k x u else u :=
  acts_once he hend hk fun s x _ hok => by
    rw [claimPending_counted, if_neg (by simpa using hok)]

theorem acts_matrix (hend : endsIdem i = false) (he : ∀ s, exec i s = matrixWord i tok s) :
    Acts i (fun s x => !x.first || !s.claimPending x.key (s.names x.g.launch i)) fun x u =>
      if x.first then u.putPre x (u.newPre i x [] [] tok.toNat none) else u :=
  acts_operation hend (fun x u => keepsGangs_putPre u x _) he

theorem acts_matrixMem {q : BitVec 6} (hend : endsIdem i = false) (he : ∀ s, exec i s = matrixMemWord i q tok s) :
    Acts i (fun s x => !x.first || !s.claimPending x.key (s.names x.g.launch i)) fun x u =>
      if x.first then u.putPre x (u.newPre i x [(0, x.lowQuad q)] [quadWord (x.lowQuad q) 0] tok.toNat
        (some (quadNat (x.lowQuad q) 3 % 16))) else u :=
  acts_operation hend (fun x u => keepsGangs_putPre u x _) he

/-- A result that every member of the unit waits for. -/
theorem keepsGangs_addPendUnit (u : State) (look : Nat) (regs : List Nat) (tok : Nat) :
    KeepsGangs u (u.addPendUnit look regs tok).2 :=
  (keepsGangs_foldl (fun v (x : Seat) => (keepsGangs_updGang v x.key _).trans (keepsGangs_nextId _ _)) u (u.seats 0)).trans
    (keepsGangs_nextId _ _)

theorem acts_astat (vd : VNum) (acc : BitVec 3) (row0 nrows : BitVec 6) (look : BitVec 4) (tok : BitVec 3) :
    let i : Instr := .astat vd acc row0 nrows look tok
    Acts i (fun s x => !x.first || !s.claimPending x.key (s.names x.g.launch i)) fun x u =>
      if x.first then
        let v := (u.addPendUnit look.toNat [vd.toNat, vd.toNat + 1] tok.toNat).2
        v.putPre x { v.newPre i x [] [] 0 none with pend := u.nextId }
      else u :=
  acts_operation rfl (fun x u => (keepsGangs_addPendUnit u _ _ _).trans (keepsGangs_putPre _ x _)) fun _ => rfl

end

/-! ### Power and status (R317, R318, R321, R462) -/

/-- R318: a wake acts once, through the unit's first member, as a change of the event matrix does. -/
theorem acts_mwakeNow : Acts .mwakeNow (fun _ _ => true) fun x u => if x.first then u.updCore (coreOf x.key) fun c =>
    if c.gated = 0#4 then c else { c with waking := true } else u := by
  have hwake : Core.wake = fun c => if c.gated = 0#4 then c else { c with waking := true } := by
    funext c
    simp only [Core.wake, beq_iff_eq]
  rw [← hwake]
  exact acts_route fun _ => rfl

/-- What MSTAT at state `s` makes of a member: the word as it stood at issue, and FAULT clears it (R462). -/
def readsMatrix (form : MstatSel) (vd : VNum) (s : State) (x : Seat) (u : State) : State :=
  let v := (u.addPend x 0 [vd.toNat, vd.toNat + 1] [] x.act (outWord vd.toNat (s.mstat x form)) false true 0).2
  if form = .fault then v.updEngine (coreOf x.key) 1 fun e => { e with fault := 0#64 } else v

theorem readsMatrix_gang (form : MstatSel) (vd : VNum) (s : State) (x : Seat) (u : State) (k : Nat) :
    (readsMatrix form vd s x u).gang? k = (u.addPend x 0 [vd.toNat, vd.toNat + 1] [] x.act
      (outWord vd.toNat (s.mstat x form)) false true 0).2.gang? k := by
  cases form <;> rfl

theorem mstat_completes {form : MstatSel} {vd : VNum} {s : State} (hi : issues (.mstat form vd) s = true) :
    Completes (.mstat form vd) s ((s.seats 0).foldl (fun u x => readsMatrix form vd s x u) (s.counted 0))
      (fun _ => []) fun _ => [] :=
  completes_of (readsMatrix form vd s) (fun _ => True) rfl hi trivial fun x _ u _ hg => by
    have hm := onlyMember_addPend u x 0 [vd.toNat, vd.toNat + 1] [] x.act (outWord vd.toNat (s.mstat x form)) false true 0
    refine ⟨by cases form <;> rfl, trivial, fun k hk => (readsMatrix_gang form vd s x u k).trans (hm.others k hk), ?_, ?_⟩
    · exact .trans (by cases form <;> rfl) hm.rest.cur
    · rw [readsMatrix_gang]
      exact Option.isSome_iff_exists.1 (hm.stands (by rw [hg]; rfl))

/-- Settles O37: claims and releases by `acts_once` and `once_traps`, operations by `acts_operation` and `putPre_spec`, MWAKE by
`acts_route`, MSTAT by `mstat_completes`. -/
theorem matrixWords : Obligations.MatrixWords := by
  refine ⟨acts_oclaim, fun s first nslot tmask tok => oclaim_traps, acts_orel, fun s first nslot tmask tok => orel_traps, ?plain, ?ended,
    acts_astat, putPre_spec, acts_mwakeNow, fun n => acts_route fun _ => rfl, fun s form vd => mstat_completes,
    fun _ _ => rfl, fun _ _ => rfl⟩
  case plain =>
    rintro i tok (⟨slot, o, p, b, rfl⟩ | ⟨acc, sa, sb, fa, fb, ka, kb, st, rfl⟩ | ⟨cls, tm, rfl⟩) <;>
      exact acts_matrix rfl fun _ => rfl
  case ended =>
    rintro i q tok (⟨slot, len, rfl⟩ | ⟨acc, f, r, n, rfl⟩ | ⟨acc, f, r, n, rfl⟩) <;>
      exact acts_matrixMem rfl fun _ => rfl

end Sys2Proof.Laws
end
